-- ==== Sys2Proof/Word.lean ====
section
/-! DEFINITION. The word types of the H9 and the sparse maps that hold its large stores. -/

namespace Sys2Proof

/-- One byte of memory (R21). -/
abbrev Byte := BitVec 8
/-- A V register of one lane (R11). -/
abbrev Word := BitVec 32
/-- A W register, an address, a register pair (R13, R16). -/
abbrev DWord := BitVec 64
/-- An origin label: a set of 16 origin slots (R25). -/
abbrev Label := BitVec 16
/-- A set of the 32 lanes of a warp. -/
abbrev Lanes := BitVec 32

/-- A sparse store: key and value pairs with strictly rising keys. An unlisted key reads as the default
of the value type, and no listed value equals it (the canonical form of Machine/Cells.lean). -/
abbrev Cells (α : Type) := List (Nat × α)

/-- Bit `i` of a word as a natural 0 or 1 question. -/
abbrev bit {n : Nat} (x : BitVec n) (i : Nat) : Bool := x.getLsbD i

/-- Bits `hi` down to `lo` of a word as a natural number (R4, R9). -/
abbrev field {n : Nat} (x : BitVec n) (hi lo : Nat) : Nat := x.toNat >>> lo % 2 ^ (hi - lo + 1)

end Sys2Proof
end

