-- ==== Sys2Proof/Config.lean ====
section
/-! DEFINITION. What an implementation fixes and what the spec leaves open: constants without a body, of which
nothing can be proved. A statement about them holds whatever they are (R7; log 6 and log 7). -/

namespace Sys2Proof

/-- The free values of R7: the n-th unpredictable value of a run, as many bits as its destination takes (log 6). -/
opaque Config.freeWord : Nat → DWord

/-- Ed25519 verification as RFC 8032 gives, with no prehash and no context (R425): key, message, signature (log 7). -/
opaque Config.ed25519 : List Byte → List Byte → List Byte → Bool

/-- A ROT value whose intermediate rotation is not finite, for which R310 states no result: a function of row, column,
PARAM0 and PARAM1 that answers an FP64 code (log 17). -/
opaque Config.rotOverflow : Nat → Nat → Word → Word → DWord

end Sys2Proof
end

