-- ==== Sys2Proof/Machine/Num.lean ====
section
/-! DEFINITION. Number formats and exact arithmetic (03_number_formats.md): decoding, rounding, flags. -/

namespace Sys2Proof.Machine

/-- The floating formats of R58. -/
inductive FFmt where
  | f64 | f32 | f16 | bf16 | e5m2 | e4m3 | e2m1
  deriving DecidableEq, Repr

/-- Precision in bits, the implicit bit counted (R58). -/
def FFmt.p : FFmt → Nat
  | .f64 => 53 | .f32 => 24 | .f16 => 11 | .bf16 => 8 | .e5m2 => 3 | .e4m3 => 4 | .e2m1 => 2

/-- Exponent of the smallest normal value (R58). -/
def FFmt.emin : FFmt → Int
  | .f64 => -1022 | .f32 => -126 | .f16 => -14 | .bf16 => -126 | .e5m2 => -14 | .e4m3 => -6 | .e2m1 => 0

/-- Width in bits (R58). -/
def FFmt.width : FFmt → Nat
  | .f64 => 64 | .f32 => 32 | .f16 => 16 | .bf16 => 16 | .e5m2 => 8 | .e4m3 => 8 | .e2m1 => 4

/-- The code of the largest finite magnitude (R58). -/
def FFmt.maxCode : FFmt → Nat
  | .f64 => 0x7FEFFFFFFFFFFFFF | .f32 => 0x7F7FFFFF | .f16 => 0x7BFF | .bf16 => 0x7F7F
  | .e5m2 => 0x7B | .e4m3 => 0x7E | .e2m1 => 7

/-- The code of +∞; a format without infinity has none (R58). -/
def FFmt.infCode : FFmt → Option Nat
  | .f64 => some 0x7FF0000000000000 | .f32 => some 0x7F800000 | .f16 => some 0x7C00 | .bf16 => some 0x7F80
  | .e5m2 => some 0x7C | .e4m3 => none | .e2m1 => none

/-- The canonical NaN (R60); E2M1 has none. -/
def FFmt.nanCode : FFmt → Option Nat
  | .f64 => some 0x7FF8000000000000 | .f32 => some 0x7FC00000 | .f16 => some 0x7E00 | .bf16 => some 0x7FC0
  | .e5m2 => some 0x7E | .e4m3 => some 0x7F | .e2m1 => none

/-- The formats whose subnormals FTZ flushes (R72). -/
def FFmt.ftzApplies : FFmt → Bool
  | .f64 | .f32 | .f16 | .bf16 => true
  | .e5m2 | .e4m3 | .e2m1 => false

/-- An exact value: NaN (signalling or not), an infinity, or ±m × 2^e. Zero has m = 0 and keeps its sign.
A real that is no dyadic number stands as the midpoint of an interval too narrow to hold a rounding boundary. -/
inductive FVal where
  | nan (sig : Bool)
  | inf (neg : Bool)
  | num (neg : Bool) (m : Nat) (e : Int)
  deriving DecidableEq, Repr

/-- The flags of R20 and R71. -/
abbrev Flags := BitVec 5
def flagIV : Flags := 1
def flagDZ : Flags := 2
def flagOF : Flags := 4
def flagUF : Flags := 8
def flagNX : Flags := 16

/-- The value of a code (R59, R60, R61). The E2M1 escape reads as +0; its IV is `readFlags`'s. -/
def decodeF (f : FFmt) (x : Nat) : FVal :=
  let mb := f.p - 1
  let s := decide (x / 2 ^ (f.width - 1) % 2 = 1)
  let body := x % 2 ^ (f.width - 1)
  let ex := body / 2 ^ mb
  let m := body % 2 ^ mb
  if f = .e2m1 ∧ s ∧ body = 0 then .num false 0 0
  else if f = .e4m3 ∧ body = 0x7F then .nan false
  else match f.infCode with
    | some i => if body = i then .inf s
                else if body > i then .nan (decide (f ≠ .e5m2) && decide (m < 2 ^ (mb - 1)))
                else if ex = 0 then .num s m (f.emin - mb) else .num s (m + 2 ^ mb) (f.emin - mb + ex - 1)
    | none => if ex = 0 then .num s m (f.emin - mb) else .num s (m + 2 ^ mb) (f.emin - mb + ex - 1)

/-- IV of reading a code: a signalling NaN (R71) or the E2M1 escape outside the matrix engine (R63). -/
def readFlags (f : FFmt) (x : Nat) : Flags :=
  if f = .e2m1 ∧ x % 16 = 8 then flagIV
  else match decodeF f x with
    | .nan true => flagIV
    | _ => 0

/-- A subnormal of a format that R72 names, flushed to a zero of its sign when FTZ is 1. -/
def ftzInput (ftz : Bool) (f : FFmt) (v : FVal) : FVal :=
  match v with
  | .num s m e =>
    if ftz ∧ f.ftzApplies ∧ m ≠ 0 ∧ e + (Nat.log2 m : Int) < f.emin then .num s 0 0 else v
  | _ => v

/-- The rounding modes of R67; RDYN is resolved before. -/
inductive RMode where
  | rne | rtz | rup | rdn | rna | rsto
  deriving DecidableEq, Repr

/-- One of lo and lo + 1, for a magnitude lo + rem / den with rem < den (R67). -/
def roundStep (mode : RMode) (neg : Bool) (rnd : Word) (lo rem den : Nat) : Nat :=
  let up : Bool := match mode with
    | .rne => decide (2 * rem > den) || (decide (2 * rem = den) && decide (lo % 2 = 1))
    | .rna => decide (2 * rem ≥ den)
    | .rtz => false
    | .rup => !neg && decide (rem ≠ 0)
    | .rdn => neg && decide (rem ≠ 0)
    | .rsto => decide (rem * 2 ^ 32 + rnd.toNat * den ≥ 2 ^ 32 * den)
  if up then lo + 1 else lo

/-- m × 2^e in units of 2^qe: integral part, remainder, denominator. A magnitude below 2^-40 of a unit stands as
a remainder of one part in 2^64, which every mode of R67 treats alike. -/
def splitAt (m : Nat) (e qe : Int) : Nat × Nat × Nat :=
  if qe ≤ e then (m <<< (e - qe).toNat, 0, 1)
  else
    let s := (qe - e).toNat
    if s > Nat.log2 m + 48 then (0, if m = 0 then 0 else 1, 2 ^ 64)
    else (m >>> s, m % 2 ^ s, 2 ^ s)

/-- The code with a sign; E2M1 has no −0 (R61). -/
def FFmt.signed (f : FFmt) (neg : Bool) (code : Nat) : Nat :=
  if f = .e2m1 ∧ code = 0 then 0 else if neg then code + 2 ^ (f.width - 1) else code

/-- An overflowing result (R69). -/
def overflowTo (f : FFmt) (mode : RMode) (neg : Bool) : Nat :=
  match f.infCode with
  | none => f.signed neg f.maxCode
  | some i =>
    match mode with
    | .rne | .rna | .rsto => f.signed neg i
    | .rtz => f.signed neg f.maxCode
    | .rup => if neg then f.signed true f.maxCode else i
    | .rdn => if neg then f.signed true i else f.maxCode

/-- `round_to` of R67, with the flags of R70, R71 and the flush of R72. -/
def roundTo (f : FFmt) (mode : RMode) (rnd : Word) (ftz : Bool) (x : FVal) : Nat × Flags :=
  match x with
  | .nan sig =>
    match f.nanCode with
    | some c => (c, if sig then flagIV else 0)
    | none => (0, flagIV)
  | .inf neg =>
    match f.infCode with
    | some c => (f.signed neg c, 0)
    | none => (f.signed neg f.maxCode, flagIV)
  | .num neg 0 _ => (f.signed neg 0, 0)
  | .num neg m e =>
    let eb : Int := e + (Nat.log2 m : Int)
    let ex := max eb f.emin
    let (lo, rem, den) := splitAt m e (ex - f.p + 1)
    let n := roundStep mode neg rnd lo rem den
    let code := ((ex - f.emin).toNat) * 2 ^ (f.p - 1) + n
    let (lo', rem', den') := splitAt m e (eb - f.p + 1)
    let n' := roundStep mode neg rnd lo' rem' den'
    let tiny := decide (eb < f.emin) && !(decide (eb + 1 = f.emin) && decide (n' = 2 ^ f.p))
    let nx : Flags := if rem ≠ 0 then flagNX else 0
    if code > f.maxCode then (overflowTo f mode neg, flagOF ||| flagNX)
    else if ftz ∧ f.ftzApplies ∧ n ≠ 0 ∧ n < 2 ^ (f.p - 1) then (f.signed neg 0, flagUF ||| flagNX)
    else (f.signed neg code, nx ||| (if tiny ∧ rem ≠ 0 then flagUF else 0))

/-- Negation of a value. -/
def FVal.neg : FVal → FVal
  | .nan s => .nan s
  | .inf s => .inf (!s)
  | .num s m e => .num (!s) m e

/-- Is the value a NaN? -/
def FVal.isNan : FVal → Bool
  | .nan _ => true
  | _ => false

/-- The signed numerator of a finite value in units of 2^q, q at most its exponent. -/
def FVal.intAt (q : Int) : FVal → Int
  | .num s m e => let n : Int := ((m <<< (e - q).toNat : Nat) : Int); if s then -n else n
  | _ => 0

/-- The exponent of a nonzero finite value. -/
def FVal.expo? : FVal → Option Int
  | .num _ 0 _ => none
  | .num _ _ e => some e
  | _ => none

/-- floor(log2 |v|) of a nonzero finite value. -/
def FVal.log? : FVal → Option Int
  | .num _ 0 _ => none
  | .num _ m e => some (e + (Nat.log2 m : Int))
  | _ => none

/-- The exact product, with the IV of 0 × ∞ (R71). A NaN factor gives a quiet NaN; its own flag is `readFlags`'s. -/
def mulF (a b : FVal) : FVal × Flags :=
  match a, b with
  | .nan _, _ => (.nan false, 0)
  | _, .nan _ => (.nan false, 0)
  | .inf s, .inf t => (.inf (s ^^ t), 0)
  | .inf s, .num t m _ => if m = 0 then (.nan false, flagIV) else (.inf (s ^^ t), 0)
  | .num s m _, .inf t => if m = 0 then (.nan false, flagIV) else (.inf (s ^^ t), 0)
  | .num s m e, .num t n k => (.num (s ^^ t) (m * n) (e + k), 0)

/-- The sign bit of a value. -/
def FVal.sign : FVal → Bool
  | .nan _ => false
  | .inf s => s
  | .num s _ _ => s

/-- The exact sum of a list of values, with the IV of ∞ − ∞ and the zero rule of R74. Beside a quiet NaN, +∞ and −∞ raise no
IV: R71 extends only 0 × ∞ to that case and leaves ∞ − ∞ open (log 79). -/
def sumF (mode : RMode) (ts : List FVal) : FVal × Flags :=
  if ts.any FVal.isNan then (.nan false, 0)
  else if ts.any (fun t => decide (t = .inf false)) then
    if ts.any (fun t => decide (t = .inf true)) then (.nan false, flagIV) else (.inf false, 0)
  else if ts.any (fun t => decide (t = .inf true)) then (.inf true, 0)
  else
    let es := ts.filterMap FVal.expo?
    let q := es.foldl min (es.headD 0)
    let n : Int := ts.foldl (fun acc t => acc + t.intAt q) 0
    if es = [] then
      if ts.all FVal.sign then (.num true 0 0, 0)
      else if ts.all (fun t => !t.sign) then (.num false 0 0, 0)
      else (.num (decide (mode = .rdn)) 0 0, 0)
    else if n = 0 then (.num (decide (mode = .rdn)) 0 0, 0)
    else (.num (decide (n < 0)) n.natAbs q, 0)

/-- Bits of a magnitude. -/
def bits (n : Nat) : Nat := if n = 0 then 0 else Nat.log2 n + 1

/-- n / d × 2^e as an exact value; a quotient that is not dyadic stands as the midpoint of a 2^-128 part (R67). -/
def ratVal (neg : Bool) (n d : Nat) (e : Int) : FVal :=
  let k := 132 + bits d - bits n
  let q := (n <<< k) / d
  .num neg (2 * q + (if (n <<< k) % d = 0 then 0 else 1)) (e - k - 1)

/-- ⌊√n⌋ from its bit `b` down. -/
def isqrtFrom (n : Nat) : Nat → Nat → Nat
  | 0, r => r
  | b + 1, r => isqrtFrom n b (if (r + 2 ^ b) * (r + 2 ^ b) ≤ n then r + 2 ^ b else r)

/-- ⌊√n⌋. -/
def isqrt (n : Nat) : Nat := isqrtFrom n (bits n / 2 + 1) 0

/-- √(m × 2^e) as an exact value (R75). -/
def sqrtVal (m : Nat) (e : Int) : FVal :=
  let k : Nat := 272 + (if (e % 2 = 0) then 0 else 1)
  let n := m <<< k
  let r := isqrt n
  .num false (2 * r + (if r * r = n then 0 else 1)) ((e - k) / 2 - 1)

/-- 1 / √(m × 2^e) as an exact value (R75). -/
def rsqrtVal (m : Nat) (e : Int) : FVal :=
  let k : Nat := 2 * (136 + bits m) + (if (e % 2 = 0) then 0 else 1)
  let n := 2 ^ k / m
  let r := isqrt n
  let exact := decide (r * r = n) && decide (2 ^ k % m = 0)
  .num false (2 * r + (if exact then 0 else 1)) ((-e - k) / 2 - 1)

/-- The exact integer nearest under a mode, with q = 1 (FRINT, CVTN of R102, R104): magnitude and inexactness. -/
def roundIntegral (mode : RMode) (rnd : Word) (neg : Bool) (m : Nat) (e : Int) : Nat × Bool :=
  let (lo, rem, den) := splitAt m e 0
  (roundStep mode neg rnd lo rem den, decide (rem ≠ 0))

/-- `a < b` for two values that are no NaN, with −0 equal to +0. -/
def FVal.lt (a b : FVal) : Bool :=
  match a, b with
  | .inf s, .inf t => s && !t
  | .inf s, .num .. => s
  | .num .., .inf t => !t
  | .num s m e, .num t n k =>
    let q := min e k
    decide ((FVal.num s m e).intAt q < (FVal.num t n k).intAt q)
  | _, _ => false

/-- The window sum of R79: terms truncated toward zero at weight 2^(E−96), one rounding to F64. -/
def windowSum (ts : List FVal) : Nat :=
  if ts.any FVal.isNan then 0x7FF8000000000000
  else if ts.any (fun t => decide (t = .inf false)) then
    if ts.any (fun t => decide (t = .inf true)) then 0x7FF8000000000000 else 0x7FF0000000000000
  else if ts.any (fun t => decide (t = .inf true)) then 0xFFF0000000000000
  else
    match ts.filterMap FVal.log? with
    | [] => if ts.all FVal.sign then 0x8000000000000000 else 0
    | l :: ls =>
      let q := ls.foldl max l - 96
      let trunc (t : FVal) : Int :=
        match t with
        | .num s m e => let n : Int := ((splitAt m e q).1 : Int); if s then -n else n
        | _ => 0
      let n : Int := ts.foldl (fun acc t => acc + trunc t) 0
      if n = 0 then 0
      else (roundTo .f64 .rne 0 false (.num (decide (n < 0)) n.natAbs q)).1

/-- The value of an SC12 scale; none is the NaN-scale (R66). -/
def sc12 (x : Nat) : Option FVal :=
  let e := x / 16 % 256
  let m := x % 16
  if e = 255 then none
  else if e = 0 then some (.num false 0 0)
  else some (.num false (16 + m) ((e : Int) - 131))

/-- `scale_accumulate` of R83 on FP64 codes. -/
def scaleAccumulate (d : Nat) (sa sb : Nat) (p : Nat) : Nat :=
  match sc12 sa, sc12 sb with
  | some va, some vb =>
    let x := (mulF va vb).1
    let dv := decodeF .f64 d
    let pv := decodeF .f64 p
    if dv.isNan ∨ pv.isNan then 0x7FF8000000000000
    else
      let xp := (mulF x pv).1
      match pv, dv with
      | .inf _, _ =>
        if xp.isNan then 0x7FF8000000000000
        else if dv = xp.neg then 0x7FF8000000000000
        else (roundTo .f64 .rne 0 false xp).1
      | _, .inf s => FFmt.f64.signed s 0x7FF0000000000000
      | _, _ => (roundTo .f64 .rne 0 false (sumF .rne [dv, xp]).1).1
  | _, _ => 0x7FF8000000000000

/-- `cb2_decode` of R65: the eight values of an index through a table entry, each in quarters. -/
def cb2Decode (entry : Nat) (index : Nat) : List FVal :=
  let q (e : Nat) : Nat := entry / 2 ^ (4 * e) % 16 + (if index % 2 = 1 then 2 else 0)
  let sg (e : Nat) : Bool := decide (index / 2 ^ (e + 1) % 2 = 1)
  let negs := ((List.range 7).filter sg).length
  (List.range 8).map (fun e =>
    .num (if e < 7 then sg e else decide (negs % 2 = 1)) (q e) (-2))

end Sys2Proof.Machine
end

