-- ==== Sys2Proof/Syntax.lean ====
section
/-! DEFINITION. The instructions and events of the H9: one constructor per row of the opcode table. -/

namespace Sys2Proof

/-- The fields that stand in every word (R30): switch marker S, guard predicate G, guard negate GN. -/
structure Hdr where
  s : Bool
  g : BitVec 3
  gn : Bool
  deriving DecidableEq, Repr, Inhabited

/-- Integer type codes (R43). -/
inductive IType where
  | i32 | n32 | i64 | n64 | i16 | n16 | i8 | n8 | b8 | b16 | b32 | b64 | b128
  deriving DecidableEq, Repr, Inhabited

/-- Floating type codes (R43). -/
inductive FType where
  | f32 | f64 | f16 | bf16 | x2f16 | x2bf16 | e4m3 | e5m2 | e2m1 | cb2 | sc12
  deriving DecidableEq, Repr, Inhabited

/-- Rounding codes (R43). -/
inductive Rnd where
  | rne | rtz | rup | rdn | rna | rsto | rdyn
  deriving DecidableEq, Repr, Inhabited

/-- Comparison codes (R43); ICMP takes the first six. -/
inductive Cmp where
  | eq | ne | lt | le | gt | ge | un | ord
  deriving DecidableEq, Repr, Inhabited

/-- Domains, ranked from weakest to strongest (R44, R234). -/
inductive Dom where
  | bu | rc | co | tso | sc
  deriving DecidableEq, Repr, Inhabited

/-- Scopes (R44, R235). -/
inductive Scope where
  | team | clus | die | pkg | fab | sys
  deriving DecidableEq, Repr, Inhabited

/-- Cache policies (R44, R127). -/
inductive Pol where
  | dflt | stream | keep | nol1
  deriving DecidableEq, Repr, Inhabited

/-- Atomic operations (R44, R128). -/
inductive Aop where
  | add | min | max | and | or | xor | exch | incw | decw | faddF32 | faddF64 | faddX2bf16
  deriving DecidableEq, Repr, Inhabited

/-- Access sizes (R21). -/
inductive Size where
  | n8 | i8 | n16 | i16 | b32 | b64 | b128
  deriving DecidableEq, Repr, Inhabited

/-- Matrix element formats (R44). -/
inductive MFmt where
  | e4m3 | e5m2 | e2m1 | cb2 | bf16 | fp16 | int8
  deriving DecidableEq, Repr, Inhabited

/-- The random source of stochastic rounding (R33, R68): a G register or the V register TT. -/
structure RndSrc where
  rg : Bool
  tt : BitVec 8
  deriving DecidableEq, Repr, Inhabited

/-- The fields that memory instructions share (R35, R36): base register, address-in-W bit, policy, scope, domain,
ordering bit, size, scaled offset. -/
structure MemOp where
  aw : Bool
  pol : Pol
  scp : Scope
  dom : Dom
  o : Bool
  sz : Size
  off : BitVec 12
  a : BitVec 8
  deriving DecidableEq, Repr, Inhabited

/-- Lane-exchange modes (R171). -/
inductive XMode where
  | pick | rise | fall | flip | roll
  deriving DecidableEq, Repr, Inhabited

/-- POLL forms (R172). -/
inductive PollForm where
  | every | any | same | mask | count
  deriving DecidableEq, Repr, Inhabited

/-- Integer folds of REDUX and SCAN (R173). -/
inductive IFold where
  | add | min | max | and | or | xor
  deriving DecidableEq, Repr, Inhabited

/-- Floating folds of REDUX and SCAN (R173). -/
inductive FFold where
  | fadd | fmin | fmax
  deriving DecidableEq, Repr, Inhabited

/-- The operation, type and rounding of a REDUX or SCAN (R173). -/
inductive FoldOp where
  | int (op : IFold) (t : IType)
  | flt (op : FFold) (t : FType) (rm : Rnd)
  deriving DecidableEq, Repr, Inhabited

/-- KIN forms (R176). -/
inductive KinForm where
  | mask | whole | lead
  deriving DecidableEq, Repr, Inhabited

/-- UMOV forms, by the M code (R177). -/
inductive UmovForm where
  | toW | toW64 | toV | toV64
  deriving DecidableEq, Repr, Inhabited

/-- PMOV forms (R111). -/
inductive PmovForm where
  | move | toV | fromV
  deriving DecidableEq, Repr, Inhabited

/-- What a label instruction names (R132-R134); LBRD alone takes the memory form. -/
inductive LbKind where
  | v | p | w | mem
  deriving DecidableEq, Repr, Inhabited

/-- Element types of tile images (R324, R325). -/
inductive TileTy where
  | f32 | f64 | bf16
  deriving DecidableEq, Repr, Inhabited

/-- COPY shapes (R330, R331). -/
inductive Shape where
  | d1 | d2 | t8 | t16
  deriving DecidableEq, Repr, Inhabited

/-- Cache maintenance operations (R271). -/
inductive MaintOp where
  | evl1 | wbl2 | evl2 | demote
  deriving DecidableEq, Repr, Inhabited

/-- A function of the CXL.io interface: the physical function or a virtual function (R187, R392). -/
inductive Fn where
  | pf
  | vf (n : Nat)
  deriving DecidableEq, Repr, Inhabited

/-- The arrays of R230 and R357, and data that arrive from the host (R414). -/
inductive ArrayKind where
  | pool | l1 | l2 | opmem | accum | dram | host
  deriving DecidableEq, Repr, Inhabited

/-- A line of an array: the array, the core (or die, for L2) it belongs to, and the line's place: the line's number for L1
(as its core holds it), L2, DRAM and host data; for the other arrays team, item and line as the event's meaning reads them. -/
structure ArrayLine where
  kind : ArrayKind
  owner : Nat
  item : Nat
  line : Nat
  deriving DecidableEq, Repr, Inhabited

/-- What a request to another module asks, or what one asks of this module (R394, R395). `cache` says that the reading
module may keep the line, so that its home answers with the whole line and sends it updates. -/
inductive PeerReq where
  | load (size : Nat) (cache : Bool)
  | store (size : Nat) (data : BitVec 128)
  | flagged (size : Nat) (data : BitVec 128) (flagAddr : BitVec 64) (flagLabel : Label)
  | atomic (aop : Aop) (size : Nat) (signed : Bool) (ops : List (BitVec 64))
  | cas (size : Nat) (pairs : List (BitVec 64 × BitVec 64)) (compareLabel : Label)
  | copyData (bytes : List Byte)
  | copyFlag (flagAddr : BitVec 64) (flagLabel : Label)
  deriving DecidableEq, Repr, Inhabited

/-- Messages of a checkpoint (R399, R400). -/
inductive CkMsg where
  | begin | drained | cut | sound | commit | withdraw
  deriving DecidableEq, Repr, Inhabited

/-- What a flit carries (R384, R387). Peer addresses are device physical addresses at the module that serves them. A request
keeps its scope (R395); a liveness flit names the modules whose direct links its sender holds to be down (R389; log 13). -/
inductive FlitBody where
  | request (tag : Nat) (vf : Nat) (pa : BitVec 64) (origins : Label) (scp : Scope) (req : PeerReq)
  | response (tag : Nat) (data : List (BitVec 128)) (egress : Bool) (poison : Bool)
  | update (pa : BitVec 64) (bytes : List Byte)
  | window (vf : Nat) (base size : BitVec 64) (origin : Nat)
  | stage (group n : Nat) (state : Bool) (vf frame : Nat) (bytes : List Byte)
  | enrol (group interval : Nat) (phys : List Nat) (buddy : Nat)
  | check (m : CkMsg) (group n : Nat)
  | dead (module : Nat)
  | live (down : List Nat)
  deriving DecidableEq, Repr, Inhabited

/-- A Surel flit (R387, R388): network, source and destination modules, end-to-end number, label, and tokens that name writes
by their home module and their number there (R384). -/
structure Flit where
  vn : Nat
  src : Nat
  dst : Nat
  seq : Nat
  lab : Label
  tokens : List (Nat × Nat)
  body : FlitBody
  deriving DecidableEq, Repr, Inhabited

/-- A host atomic or fence on device memory (R411). -/
inductive HostAtom where
  | rmw (aop : Aop) (size : Nat) (signed : Bool) (operand : BitVec 64)
  | cas (size : Nat) (expect new : BitVec 64)
  | fence
  deriving DecidableEq, Repr, Inhabited

/-- The configuration image of module flash (R436). -/
structure Image where
  moduleId : Nat
  nModules : Nat
  grants : List Nat
  scrubMin : Nat
  govLimit8 : Nat
  govIdle : Nat
  govRamp : Nat
  binTimer : Nat
  vfs : Nat
  bindings : List (Nat × List Byte)
  deriving DecidableEq, Repr, Inhabited

/-- The bytes of a register block that a write covers: an offset and a width (R5). -/
structure RegPart where
  off : Nat
  width : Nat
  deriving DecidableEq, Repr

/-- A flit that arrives at a port (R386, R388). -/
structure Arrival where
  port : Nat
  flit : Flit
  deriving DecidableEq, Repr

/-- What the cast-on sequence meets (R435): the image read, whether its signature and version pass, the islands'
voltages, the stacks that train, what the far end of each Surel port announces (its module id and its port; none where no link
trains, R386), and CXL training. -/
structure CastOn where
  islandsOk : Bool
  stacksOk : Bool
  links : List (Option (Nat × Nat))
  image : Image
  imageOk : Bool
  cxlOk : Bool
  deriving DecidableEq, Repr, Inhabited

/-- A request to the management controller (R437). -/
inductive MgmtReq where
  | lowerFrequency (island : Nat) (mhz : Nat)
  | tightenGovernor (limit8 idle ramp : Nat)
  | lowerGrant (a k : Nat) (grant : Nat)
  deriving DecidableEq, Repr, Inhabited

/-- One constructor per row of spec/opcode_table.json. The first 148 have a 64-bit word (R45). The others are the
device events of the table: host commands (the 64 bytes of R189 as one number, byte 0 lowest), register writes,
CXL accesses, Surel flits, and the internal steps of the module. -/
inductive Instr where
  /-- NOP: Does nothing; every field other than S, G and GN is reserved (R92). -/
  | nop (h : Hdr)
  /-- MOV: Copies a register, pair or quad to the destination (R92). -/
  | mov (h : Hdr) (u : Bool) (t : IType) (d a : BitVec 8)
  /-- MOVI: Writes the 32-bit immediate, or under U sext(IMM32, 64), to the destination (R91). -/
  | movi (h : Hdr) (u : Bool) (imm : BitVec 32) (d : BitVec 8)
  /-- IADD: Integer add of two registers, wrapped to the type width (R92). -/
  | iadd (h : Hdr) (u : Bool) (t : IType) (d a b : BitVec 8)
  /-- IADD_IMM: Integer add of a register and the signed 32-bit immediate (R91). -/
  | iaddImm (h : Hdr) (u : Bool) (imm : BitVec 32) (d a : BitVec 8)
  /-- ISUB: Integer subtract of two registers, wrapped to the type width (R92). -/
  | isub (h : Hdr) (u : Bool) (t : IType) (d a b : BitVec 8)
  /-- ISUB_IMM: Integer subtract of the immediate from a register (R91). -/
  | isubImm (h : Hdr) (u : Bool) (imm : BitVec 32) (d a : BitVec 8)
  /-- IMUL: Low n bits of the integer product of two registers (R92). -/
  | imul (h : Hdr) (u : Bool) (t : IType) (d a b : BitVec 8)
  /-- IMUL_IMM: Low 32 bits of the product of a register and the immediate (R91). -/
  | imulImm (h : Hdr) (u : Bool) (imm : BitVec 32) (d a : BitVec 8)
  /-- IMULH: High half of the integer product of two 32- or 64-bit operands (R92). -/
  | imulh (h : Hdr) (u : Bool) (t : IType) (d a b : BitVec 8)
  /-- IMAD: Integer multiply-add a × b + c, wrapped to the type width (R92). -/
  | imad (h : Hdr) (u : Bool) (t : IType) (d a b c : BitVec 8)
  /-- IDIV: Integer division truncating toward zero, with defined divide-by-zero and overflow results (R57). -/
  | idiv (h : Hdr) (u : Bool) (t : IType) (d a b : BitVec 8)
  /-- IREM: Integer remainder, with defined divide-by-zero and overflow results (R57). -/
  | irem (h : Hdr) (u : Bool) (t : IType) (d a b : BitVec 8)
  /-- IMIN: Integer minimum of two registers (R92). -/
  | imin (h : Hdr) (u : Bool) (t : IType) (d a b : BitVec 8)
  /-- IMIN_IMM: Integer minimum of a register and the immediate (R91). -/
  | iminImm (h : Hdr) (u : Bool) (imm : BitVec 32) (d a : BitVec 8)
  /-- IMAX: Integer maximum of two registers (R92). -/
  | imax (h : Hdr) (u : Bool) (t : IType) (d a b : BitVec 8)
  /-- IMAX_IMM: Integer maximum of a register and the immediate (R91). -/
  | imaxImm (h : Hdr) (u : Bool) (imm : BitVec 32) (d a : BitVec 8)
  /-- IABS: Absolute value of a signed integer; the most negative value maps to itself (R92). -/
  | iabs (h : Hdr) (u : Bool) (t : IType) (d a : BitVec 8)
  /-- SADD: Saturating integer add of two registers (R56). -/
  | sadd (h : Hdr) (u : Bool) (t : IType) (d a b : BitVec 8)
  /-- SADD_IMM: Saturating integer add of a register and the immediate (R91). -/
  | saddImm (h : Hdr) (u : Bool) (imm : BitVec 32) (d a : BitVec 8)
  /-- SSUB: Saturating integer subtract of two registers (R56). -/
  | ssub (h : Hdr) (u : Bool) (t : IType) (d a b : BitVec 8)
  /-- AND: Bitwise AND of two registers (R92). -/
  | and (h : Hdr) (u : Bool) (t : IType) (d a b : BitVec 8)
  /-- AND_IMM: Bitwise AND of a register and the immediate (R91). -/
  | andImm (h : Hdr) (u : Bool) (imm : BitVec 32) (d a : BitVec 8)
  /-- OR: Bitwise OR of two registers (R92). -/
  | or (h : Hdr) (u : Bool) (t : IType) (d a b : BitVec 8)
  /-- OR_IMM: Bitwise OR of a register and the immediate (R91). -/
  | orImm (h : Hdr) (u : Bool) (imm : BitVec 32) (d a : BitVec 8)
  /-- XOR: Bitwise XOR of two registers (R92). -/
  | xor (h : Hdr) (u : Bool) (t : IType) (d a b : BitVec 8)
  /-- XOR_IMM: Bitwise XOR of a register and the immediate (R91). -/
  | xorImm (h : Hdr) (u : Bool) (imm : BitVec 32) (d a : BitVec 8)
  /-- TTAB: Computes any bitwise function of three operands from the truth table in TT (R95). -/
  | ttab (h : Hdr) (u : Bool) (t : IType) (tt : BitVec 8) (d a b c : BitVec 8)
  /-- SHL: 32-bit logical left shift by a register amount (R94). -/
  | shl (h : Hdr) (u : Bool) (d a b : BitVec 8)
  /-- SHL_IMM: 32-bit logical left shift by an immediate amount (R94). -/
  | shlImm (h : Hdr) (u : Bool) (imm : BitVec 32) (d a : BitVec 8)
  /-- SHR: 32-bit logical right shift by a register amount (R94). -/
  | shr (h : Hdr) (u : Bool) (d a b : BitVec 8)
  /-- SHR_IMM: 32-bit logical right shift by an immediate amount (R94). -/
  | shrImm (h : Hdr) (u : Bool) (imm : BitVec 32) (d a : BitVec 8)
  /-- SAR: 32-bit arithmetic right shift by a register amount (R94). -/
  | sar (h : Hdr) (u : Bool) (d a b : BitVec 8)
  /-- SAR_IMM: 32-bit arithmetic right shift by an immediate amount (R94). -/
  | sarImm (h : Hdr) (u : Bool) (imm : BitVec 32) (d a : BitVec 8)
  /-- ROTL: 32-bit left rotate by a register amount modulo 32 (R94). -/
  | rotl (h : Hdr) (u : Bool) (d a b : BitVec 8)
  /-- ROTL_IMM: 32-bit left rotate by an immediate amount modulo 32 (R94). -/
  | rotlImm (h : Hdr) (u : Bool) (imm : BitVec 32) (d a : BitVec 8)
  /-- BFX: Extracts a bit field, sign- or zero-extended (R96). -/
  | bfx (h : Hdr) (u : Bool) (t : IType) (d a b : BitVec 8)
  /-- BFI: Inserts a bit field into a register value (R96). -/
  | bfi (h : Hdr) (u : Bool) (d a b c : BitVec 8)
  /-- POPC: Counts the 1 bits of the operand (R92). -/
  | popc (h : Hdr) (u : Bool) (t : IType) (d a : BitVec 8)
  /-- CLZ: Counts the leading zero bits of the operand (R92). -/
  | clz (h : Hdr) (u : Bool) (t : IType) (d a : BitVec 8)
  /-- BREV: Reverses the bit order of the operand (R92). -/
  | brev (h : Hdr) (u : Bool) (t : IType) (d a : BitVec 8)
  /-- BPERM: Builds each result byte from a selected source byte or its sign fill (R95). -/
  | bperm (h : Hdr) (u : Bool) (d a b c : BitVec 8)
  /-- ADD64: 64-bit add of two pairs, modulo 2^64 (R97). -/
  | add64 (h : Hdr) (u : Bool) (d a b : BitVec 8)
  /-- ADD64_IMM: 64-bit add of a pair and the sign-extended immediate (R97). -/
  | add64Imm (h : Hdr) (u : Bool) (imm : BitVec 32) (d a : BitVec 8)
  /-- MAD64: Multiplies two 32-bit values and adds a 64-bit pair, modulo 2^64 (R97). -/
  | mad64 (h : Hdr) (u : Bool) (t : IType) (d a b c : BitVec 8)
  /-- SHL64: 64-bit left shift of a pair (R97). -/
  | shl64 (h : Hdr) (u : Bool) (d a b : BitVec 8)
  /-- SHR64: 64-bit logical or sign-filling right shift of a pair (R97). -/
  | shr64 (h : Hdr) (u sx : Bool) (d a b : BitVec 8)
  /-- FADD: Floating add rounded once (R98). -/
  | fadd (h : Hdr) (t : FType) (rm : Rnd) (r : RndSrc) (d a b : BitVec 8)
  /-- FADD_IMM: F32 add of a register and an F32 immediate, rounded with RNE (R91). -/
  | faddImm (h : Hdr) (imm : BitVec 32) (d a : BitVec 8)
  /-- FSUB: Floating subtract rounded once (R98). -/
  | fsub (h : Hdr) (t : FType) (rm : Rnd) (r : RndSrc) (d a b : BitVec 8)
  /-- FSUB_IMM: F32 subtract of an F32 immediate, rounded with RNE (R91). -/
  | fsubImm (h : Hdr) (imm : BitVec 32) (d a : BitVec 8)
  /-- FMUL: Floating multiply rounded once (R98). -/
  | fmul (h : Hdr) (t : FType) (rm : Rnd) (r : RndSrc) (d a b : BitVec 8)
  /-- FMUL_IMM: F32 multiply by an F32 immediate, rounded with RNE (R91). -/
  | fmulImm (h : Hdr) (imm : BitVec 32) (d a : BitVec 8)
  /-- FMA: Fused multiply-add a × b + c with one rounding (R74). -/
  | fma (h : Hdr) (t : FType) (rm : Rnd) (r : RndSrc) (d a b c : BitVec 8)
  /-- FMIN: Floating minimum with -0 below +0 and NaN handling (R100). -/
  | fmin (h : Hdr) (t : FType) (d a b : BitVec 8)
  /-- FMIN_IMM: F32 minimum of a register and an immediate (R100). -/
  | fminImm (h : Hdr) (imm : BitVec 32) (d a : BitVec 8)
  /-- FMAX: Floating maximum with -0 below +0 and NaN handling (R100). -/
  | fmax (h : Hdr) (t : FType) (d a b : BitVec 8)
  /-- FMAX_IMM: F32 maximum of a register and an immediate (R100). -/
  | fmaxImm (h : Hdr) (imm : BitVec 32) (d a : BitVec 8)
  /-- FABS: Exact floating absolute value (R101). -/
  | fabs (h : Hdr) (t : FType) (d a : BitVec 8)
  /-- FNEG: Exact floating negation (R101). -/
  | fneg (h : Hdr) (t : FType) (d a : BitVec 8)
  /-- FRCP: Correctly rounded reciprocal (R75). -/
  | frcp (h : Hdr) (t : FType) (rm : Rnd) (r : RndSrc) (d a : BitVec 8)
  /-- FSQRT: Correctly rounded square root (R75). -/
  | fsqrt (h : Hdr) (t : FType) (rm : Rnd) (r : RndSrc) (d a : BitVec 8)
  /-- FRSQ: Correctly rounded reciprocal square root (R75). -/
  | frsq (h : Hdr) (t : FType) (rm : Rnd) (r : RndSrc) (d a : BitVec 8)
  /-- FEXP2: Correctly rounded 2^x (R75). -/
  | fexp2 (h : Hdr) (t : FType) (rm : Rnd) (r : RndSrc) (d a : BitVec 8)
  /-- FLOG2: Correctly rounded log2 x (R75). -/
  | flog2 (h : Hdr) (t : FType) (rm : Rnd) (r : RndSrc) (d a : BitVec 8)
  /-- FSIN: Correctly rounded sin(2πx) (R75). -/
  | fsin (h : Hdr) (t : FType) (rm : Rnd) (r : RndSrc) (d a : BitVec 8)
  /-- FCOS: Correctly rounded cos(2πx) (R75). -/
  | fcos (h : Hdr) (t : FType) (rm : Rnd) (r : RndSrc) (d a : BitVec 8)
  /-- FCLASS: Writes a one-hot class mask of the input value (R101). -/
  | fclass (h : Hdr) (t : FType) (d a : BitVec 8)
  /-- FDOT2: Packed two-element dot product plus F32 addend, rounded once to F32 (R102). -/
  | fdot2 (h : Hdr) (t : FType) (rm : Rnd) (r : RndSrc) (d a b c : BitVec 8)
  /-- FSCALE: Computes a × 2^b rounded once (R102). -/
  | fscale (h : Hdr) (t : FType) (rm : Rnd) (r : RndSrc) (d a b : BitVec 8)
  /-- FRINT: Rounds to an integral value in the same format (R102). -/
  | frint (h : Hdr) (t : FType) (rm : Rnd) (r : RndSrc) (d a : BitVec 8)
  /-- CVT: Converts between floating formats, including packed and narrow formats (R103). -/
  | cvt (h : Hdr) (dt st : FType) (rm : Rnd) (r : RndSrc) (d a : BitVec 8)
  /-- CVTN: Converts a floating value to an integer with saturation and flags (R104). -/
  | cvtn (h : Hdr) (dt : IType) (st : FType) (rm : Rnd) (r : RndSrc) (d a : BitVec 8)
  /-- CVTW: Converts an integer to a floating value rounded once (R104). -/
  | cvtw (h : Hdr) (dt : FType) (st : IType) (rm : Rnd) (r : RndSrc) (d a : BitVec 8)
  /-- SCFIT: Computes the smallest SC12 scale that fits a block maximum into a narrow format (R105). -/
  | scfit (h : Hdr) (t : FType) (d a : BitVec 8)
  /-- SCAPP: Quantises four F32 values under one SC12 scale into a narrow format (R106). -/
  | scapp (h : Hdr) (t : FType) (rm : Rnd) (r : RndSrc) (d a b : BitVec 8)
  /-- CBDEC: Decodes a CB2 index through the team codebook into eight BF16 values (R107). -/
  | cbdec (h : Hdr) (d a : BitVec 8)
  /-- ICMP: Integer compare ANDed with a predicate, written to a predicate (R108). -/
  | icmp (h : Hdr) (cmp : Cmp) (t : IType) (d : BitVec 3) (a b : BitVec 8) (c : BitVec 3)
  /-- FCMP: Floating compare ANDed with a predicate, written to a predicate (R108). -/
  | fcmp (h : Hdr) (cmp : Cmp) (t : FType) (d : BitVec 3) (a b : BitVec 8) (c : BitVec 3)
  /-- SEL: Selects one of two registers per lane by a predicate (R109). -/
  | sel (h : Hdr) (t : IType) (d a b : BitVec 8) (c : BitVec 3)
  /-- PLOG: Computes a truth-table function of three predicates (R110). -/
  | plog (h : Hdr) (tt : BitVec 8) (d a b c : BitVec 3)
  /-- PMOV: Moves predicate bits between predicates and V registers (R111). -/
  | pmov (h : Hdr) (f : PmovForm) (d a : BitVec 8)
  /-- BRA: PC-relative branch, splitting the strand where lanes disagree (R114). -/
  | bra (h : Hdr) (ofs : BitVec 32)
  /-- BRX: Branch to a per-lane target held in a register pair (R114). -/
  | brx (h : Hdr) (a : BitVec 8)
  /-- CALL: PC-relative branch that writes the return address to a pair (R115). -/
  | call (h : Hdr) (ofs : BitVec 32) (d : BitVec 8)
  /-- RET: Branch to a register-pair target with return prediction (R114). -/
  | ret (h : Hdr) (a : BitVec 8)
  /-- JPUSH: Pushes a reconvergence entry, spilling the oldest when eight are resident (R167). -/
  | jpush (h : Hdr) (ofs : BitVec 32)
  /-- JOIN: Searches the reconvergence stack and parks at the matching entry or falls through (R153). -/
  | join (h : Hdr)
  /-- REGANG: Parks the strand until every live slice gathers there and forms the gang (R157). -/
  | regang (h : Hdr)
  /-- LOOP: Sets up or skips a hardware loop over the following n instructions (R116). -/
  | loop (h : Hdr) (n : BitVec 8) (a : BitVec 8)
  /-- EXIT: Ends every active lane (R119). -/
  | exit (h : Hdr)
  /-- DOZE: Parks the strand for at least n cycles (R121). -/
  | doze (h : Hdr) (n : BitVec 32)
  /-- TRAP: Raises SOFTWARE in every active lane (R122). -/
  | trap (h : Hdr) (n : BitVec 32)
  /-- BRK: Raises BREAKPOINT in every active lane (R122). -/
  | brk (h : Hdr) (n : BitVec 32)
  /-- YIELD: Gives up the strand's next issue turn to another ready strand of the slice (R120). -/
  | yield (h : Hdr)
  /-- LD: Loads one value per active lane in the named domain and scope (R125). -/
  | ld (h : Hdr) (m : MemOp) (d : BitVec 8)
  /-- ST: Stores one value per active lane and widens the unit labels (R126). -/
  | st (h : Hdr) (m : MemOp) (b : BitVec 8)
  /-- ATOM: Atomic read-modify-write per lane group, returning the old value (R128). -/
  | atom (h : Hdr) (m : MemOp) (op : Aop) (d b : BitVec 8)
  /-- CAS: Atomic compare-and-swap per lane group, returning the old value (R130). -/
  | cas (h : Hdr) (m : MemOp) (d b c : BitVec 8)
  /-- RED: Atomic reduction with no returned value (R261). -/
  | red (h : Hdr) (m : MemOp) (op : Aop) (b : BitVec 8)
  /-- FENCE: Orders the lane's earlier accesses of a domain, or all domains, before its later ones at a scope (R263). -/
  | fence (h : Hdr) (all : Bool) (dom : Dom) (scp : Scope)
  /-- BRIDGE: Orders earlier accesses of one domain before later accesses of another at a scope (R263). -/
  | bridge (h : Hdr) (frm dst : Dom) (scp : Scope)
  /-- STF: Store whose target module increments a flag once the data is performed (R265). -/
  | stf (h : Hdr) (m : MemOp) (b c : BitVec 8)
  /-- WAITGE: Parks until each lane's word is at least its threshold (R268). -/
  | waitge (h : Hdr) (m : MemOp) (d b : BitVec 8)
  /-- LDPF: Non-faulting prefetch of a line toward the core (R270). -/
  | ldpf (h : Hdr) (m : MemOp)
  /-- CMAINT: Non-faulting cache maintenance of one line (R271). -/
  | cmaint (h : Hdr) (m : MemOp) (op : MaintOp)
  /-- RELEASE: Asks the release gate to relabel a region under an installed policy (R272). -/
  | release (h : Hdr) (d a b c : BitVec 8)
  /-- LXCH: Exchanges register values between lanes within a segment (R171). -/
  | lxch (h : Hdr) (mode : XMode) (t : IType) (seg : BitVec 8) (d a b : BitVec 8)
  /-- POLL: Combines a predicate across the 32 lanes (R172). -/
  | poll (h : Hdr) (f : PollForm) (d : BitVec 8) (a : BitVec 3)
  /-- REDUX: Reduces a register across the 32 lanes by a left fold (R174). -/
  | redux (h : Hdr) (op : FoldOp) (d a : BitVec 8)
  /-- SCAN: Inclusive or exclusive prefix scan across the 32 lanes (R174). -/
  | scan (h : Hdr) (excl : Bool) (op : FoldOp) (d a : BitVec 8)
  /-- ELECT: Sets a predicate in the lowest active lane only (R175). -/
  | elect (h : Hdr) (d : BitVec 3)
  /-- KIN: Groups lanes by equal register value (R176). -/
  | kin (h : Hdr) (f : KinForm) (t : IType) (d a : BitVec 8)
  /-- UMOV: Moves values between a lane's V registers and W registers (R177). -/
  | umov (h : Hdr) (f : UmovForm) (n : BitVec 8) (d a : BitVec 8)
  /-- MEET: Arrives at a team barrier and waits or passes (R178). -/
  | meet (h : Hdr) (pass : Bool) (id count : BitVec 8)
  /-- CMEET: Arrives at a cluster barrier and waits or passes (R178). -/
  | cmeet (h : Hdr) (pass : Bool) (id count : BitVec 8)
  /-- LAUNCH: Enters a new launch of the context into the pending-launch store from the device (R182). -/
  | launch (h : Hdr) (wait : Bool) (d a : BitVec 8)
  /-- EVSET: Sets or clears a bit of the context's event vector (R184). -/
  | evset (h : Hdr) (clr : Bool) (n : BitVec 8)
  /-- EVWAIT: Parks until an event vector bit reads 1 (R184). -/
  | evwait (h : Hdr) (n : BitVec 8)
  /-- SPAWN: Offers one spawn record per active lane to the core's spawn bins (R185). -/
  | spawn (h : Hdr) (wait : Bool) (a b c : BitVec 8)
  /-- BINFL: Makes named spawn bins start a warp from their records (R186). -/
  | binfl (h : Hdr) (a : BitVec 8)
  /-- SCLAIM: Claims an operand slot for the team, zeroing it if it was Free (R318). -/
  | sclaim (h : Hdr) (n : BitVec 3)
  /-- SREL: Releases a held operand slot once its users have finished (R318). -/
  | srel (h : Hdr) (n : BitVec 3)
  /-- MMA: Issues a matrix multiply-accumulate into an accumulator tile (R319). -/
  | mma (h : Hdr) (z : Bool) (kq : BitVec 3) (fa fb : MFmt) (sa sb t : BitVec 4)
  /-- MSCAC: Issues scaled accumulation of a partial tile into a destination tile (R320). -/
  | mscac (h : Hdr) (z : Bool) (ws : BitVec 8) (p t : BitVec 4)
  /-- MXWAIT: Parks until earlier matrix and tile-port instructions naming a tile, or all tiles, return (R322). -/
  | mxwait (h : Hdr) (all : Bool) (t : BitVec 4)
  /-- ACLR: Clears a tile to +0 and resets its label (R323). -/
  | aclr (h : Hdr) (t : BitVec 4)
  /-- ACCRD: Reads one tile row into the lanes (R324). -/
  | accrd (h : Hdr) (ty : TileTy) (rm : Rnd) (row : BitVec 8) (tile : BitVec 4) (d : BitVec 8)
  /-- ACCWR: Writes one tile row from the lanes (R324). -/
  | accwr (h : Hdr) (ty : TileTy) (row : BitVec 8) (tile : BitVec 4) (a : BitVec 8)
  /-- ACCST: Stores a tile image to scratchpad (R325). -/
  | accst (h : Hdr) (ty : TileTy) (rm : Rnd) (tile : BitVec 4) (a : BitVec 8)
  /-- ACCLD: Loads a tile from a scratchpad image (R325). -/
  | accld (h : Hdr) (ty : TileTy) (tile : BitVec 4) (a : BitVec 8)
  /-- GSET: Loads a generator register from four W registers (R326). -/
  | gset (h : Hdr) (d : BitVec 3) (a : BitVec 8)
  /-- GDRAW: Writes a generator's value at given coordinates into each lane (R327). -/
  | gdraw (h : Hdr) (raw : Bool) (t : FType) (d : BitVec 8) (a : BitVec 3) (b c : BitVec 8)
  /-- GRES: Reserves generator rows in the context's draw registry (R328). -/
  | gres (h : Hdr) (t : Bool) (a : BitVec 3) (b : BitVec 8)
  /-- CBLOAD: Loads the team's 1 KiB codebook table from memory (R329). -/
  | cbload (h : Hdr) (dom : Dom) (scp : Scope) (a : BitVec 8)
  /-- COPY: Checks and accepts an asynchronous transfer onto a copy channel (R332). -/
  | copy (h : Hdr) (scp : Scope) (dom : Dom) (wf wd wc : BitVec 6) (shp : Shape) (ch : BitVec 2)
  /-- CHWAIT: Parks until a channel's write pointer reaches a value (R334). -/
  | chwait (h : Hdr) (wv : BitVec 6) (ch : BitVec 2)
  /-- CHRST: Waits for earlier transfers of a channel and resets its pointer (R335). -/
  | chrst (h : Hdr) (ch : BitVec 2)
  /-- LBRD: Reads the origin label of a register or memory unit (R132). -/
  | lbrd (h : Hdr) (k : LbKind) (d a : BitVec 8)
  /-- LBCHK: Tests a register's label against an allowed set, trapping or writing a predicate (R133). -/
  | lbchk (h : Hdr) (pf : Bool) (k : LbKind) (d a b : BitVec 8)
  /-- LBFLOOR: Adds a label to the warp's label floor (R134). -/
  | lbfloor (h : Hdr) (k : LbKind) (a : BitVec 8)
  /-- SRD: Reads a special register, 32 or 64 bits (R135). -/
  | srd (h : Hdr) (srn : BitVec 16) (d : BitVec 8)
  /-- SWR: Writes a special register (R136). -/
  | swr (h : Hdr) (srn : BitVec 16) (a : BitVec 8)
  /-- TRET: Returns from a trap, restoring V0-V7, predicates and next PC from the trap frame (R137). -/
  | tret (h : Hdr)
  /-- VRDX: Reads a V register named by a register value (R138). -/
  | vrdx (h : Hdr) (d a : BitVec 8)
  /-- VWRX: Writes a V register named by a register value (R138). -/
  | vwrx (h : Hdr) (a b : BitVec 8)
  /-- ISYNC: Discards prefetched instructions and loop buffers of the warp (R142). -/
  | isync (h : Hdr)
  /-- IINV: Invalidates instruction caches of the package over address ranges (R139). -/
  | iinv (h : Hdr) (a b : BitVec 8)
  /-- ILLEGAL_OPCODE: A word with an unassigned opcode issues and traps in every active lane (R47). -/
  | illegalOpcode (w : BitVec 64)
  /-- INSTRUCTION_FETCH_FAULT: A fetch for issue fails translation or EX and parks the strand's lanes on a recoverable fault (R340). -/
  | instructionFetchFault
  /-- FAULT_QUEUE_ENTRY_WRITE: The device writes a fault-queue entry once its slot is free and raises the fault interrupt (R352). -/
  | faultQueueEntryWrite (vf ctx : Nat)
  /-- RESULT_RETURN: An outstanding result returns, releasing a strand held by a switch marker or a holding instruction (R23). -/
  | resultReturn (team warp id : Nat) (lanes : BitVec 32)
  /-- STORE_PERFORM: A store reaches its home, is performed, forwarded to sharers and acknowledged (R218). -/
  | storePerform (id : Nat)
  /-- UPDATE_APPLY: A sharer applies a forwarded coherence update to its L1 copy (R218). -/
  | updateApply (id core : Nat)
  /-- ATOMIC_GROUP_PERFORM: The home performs one coalesced atomic group as an indivisible step (R262). -/
  | atomicGroupPerform (id : Nat)
  /-- STF_FLAG_ADD: The target module adds 1 to an STF flag once the lane's data is performed (R267). -/
  | stfFlagAdd (id : Nat)
  /-- COPY_DELIVERY: A copy channel delivers transfer bytes in order, advancing its write pointer (R333). -/
  | copyDelivery (core ch n : Nat)
  /-- MMA_START: An MMA starts on the array once the governor window admits it, with a ramp after idleness (R313). -/
  | mmaStart (core : Nat)
  /-- MMA_COMPLETE: At its last step an MMA writes the whole tile, label and SR.MXSTAT, and returns (R305). -/
  | mmaComplete (core : Nat)
  /-- MSCAC_COMPLETE: After 16 cycles MSCAC writes the destination tile and its label and returns (R320). -/
  | mscacComplete (core : Nat)
  /-- DOZE_END: The DOZE period expires and the strand becomes Ready (R121). -/
  | dozeEnd (team warp slice entry : Nat)
  /-- SPAWN_BIN_TIMER_EXPIRY: A spawn bin's timer expires and the bin starts a warp (R160). -/
  | spawnBinTimerExpiry (core bin : Nat)
  /-- WARP_RETIRE: A warp whose lanes have all exited and whose results have returned retires (R119). -/
  | warpRetire (team warp : Nat)
  /-- LAUNCH_COMPLETE: A launch completes, sets its set-mask bits and frees its store entry (R204). -/
  | launchComplete (launch : Nat)
  /-- CLUSTER_PLACE: The scheduler places the head ready cluster's teams on a core group (R207). -/
  | clusterPlace
  /-- COMMIT_POINT: Every warp of an Almanac launch has reached the quantum end and buffers commit in warp order (R280). -/
  | commitPoint (launch : Nat)
  /-- ORDER_POINT_PASS: A watch window's order point passes or holds a request under record or replay (R288). -/
  | orderPointPass (id : Nat)
  /-- BAD_COMMAND: A CMDPORT write that is not one whole 64-byte command, or names an unknown type, is counted and ignored (R188). -/
  | badCommand (fn : Fn) (bytes : List Byte)
  /-- LAUNCH_CMD: Host command that reads a launch header and enters the launch into the store (R192). -/
  | launchCmd (fn : Fn) (cmd : BitVec 512)
  /-- EVSET_CMD: Host command that sets a bit of a context's event vector (R193). -/
  | evsetCmd (fn : Fn) (cmd : BitVec 512)
  /-- EVSET_CLR_CMD: Host command that clears a bit of a context's event vector (R193). -/
  | evsetClrCmd (fn : Fn) (cmd : BitVec 512)
  /-- CONTEXT_CREATE: Creates a context with its page table and fault queue on the lowest free number (R194). -/
  | contextCreate (fn : Fn) (cmd : BitVec 512)
  /-- BIND_OFF: Ends a context, cancels its launches and zeroes its frames (R374). -/
  | bindOff (fn : Fn) (cmd : BitVec 512)
  /-- FAULT_RESUME_RETRY: Makes a parked strand retry its instruction, optionally for every entry of the same page (R354). -/
  | faultResumeRetry (fn : Fn) (cmd : BitVec 512)
  /-- FAULT_RESUME_DELIVER: Makes parked lanes trap with FAULT_DELIVERED (R354). -/
  | faultResumeDeliver (fn : Fn) (cmd : BitVec 512)
  /-- FAULT_RESUME_KILL: Ends the parked lanes as though by EXIT (R354). -/
  | faultResumeKill (fn : Fn) (cmd : BitVec 512)
  /-- PREEMPT: Starts saving a Live context into save frames (R362). -/
  | preempt (fn : Fn) (cmd : BitVec 512)
  /-- RESUME: Starts restoring a Saved context (R362). -/
  | resume (fn : Fn) (cmd : BitVec 512)
  /-- INVALIDATE_VA: Starts invalidating TLB and walk-cache entries of a context over a range (R229). -/
  | invalidateVa (fn : Fn) (cmd : BitVec 512)
  /-- INVALIDATE_VA_COMPLETE: No entry of the range remains and accesses using old entries are performed; the command completes (R229). -/
  | invalidateVaComplete (fn : Fn) (seq : Nat)
  /-- BIAS_FLIP_TO_HOST: Moves a frame to host bias: pauses copies, writes back dirty lines, makes halves host-tracked (R418). -/
  | biasFlipToHost (fn : Fn) (cmd : BitVec 512)
  /-- BIAS_FLIP_TO_DEVICE: Moves a frame to device bias by back-invalidating every host-held half (R418). -/
  | biasFlipToDevice (fn : Fn) (cmd : BitVec 512)
  /-- BIAS_FLIP_COMPLETE: A running bias flip finishes its steps and paused channels resume (R418). -/
  | biasFlipComplete (fn : Fn) (seq : Nat)
  /-- WATCH_SET: Enables a record-replay watch window of the context (R284). -/
  | watchSet (fn : Fn) (cmd : BitVec 512)
  /-- WATCH_REMOVE: Removes a watch window of the context (R284). -/
  | watchRemove (fn : Fn) (cmd : BitVec 512)
  /-- POLICY_INSTALL: Verifies and installs a signed release policy (R432). -/
  | policyInstall (fn : Fn) (cmd : BitVec 512) (dmaOk : Bool)
  /-- POLICY_REMOVE: Removes an installed release policy (R432). -/
  | policyRemove (fn : Fn) (cmd : BitVec 512)
  /-- JOINT_CONTEXT: Submits a signed join request; the matching pair forms one joint context (R428). -/
  | jointContext (fn : Fn) (cmd : BitVec 512) (dmaOk : Bool)
  /-- CHECKPOINT_ENROL: Enrols a context in a checkpoint group (R399). -/
  | checkpointEnrol (fn : Fn) (cmd : BitVec 512)
  /-- CHECKPOINT_WITHDRAW: Withdraws from a checkpoint group, dissolving it after any checkpoint in progress commits (R399). -/
  | checkpointWithdraw (fn : Fn) (cmd : BitVec 512)
  /-- CHECKPOINT_ADOPT: On a replacement module, adopts the lost module's context and receives the buddy's image (R405). -/
  | checkpointAdopt (fn : Fn) (cmd : BitVec 512)
  /-- PLACE_SET: Writes a peer, die or window entry of a suspended VF's place table (R393). -/
  | placeSet (fn : Fn) (cmd : BitVec 512)
  /-- CONTEXT_SAVE_COMPLETE: A save has stopped every strand and written its last save frame; the context is Saved (R365). -/
  | contextSaveComplete (vf ctx : Nat)
  /-- RESTORE_COMPLETE: A restore has placed every team again and the context is Live (R370). -/
  | restoreComplete (vf ctx : Nat)
  /-- SFADD: Adds a local frame to the VF's save-frame free list, or refuses it (R366). -/
  | sfadd (vf : Nat) (x : BitVec 64) (whole : Bool)
  /-- SUSPEND_SET: Suspends a VF: stops its command port and saves every context (R373). -/
  | suspendSet (vf : Nat)
  /-- SUSPEND_CLEAR: Ends a VF suspension, restoring or continuing contexts and reopening the port (R373). -/
  | suspendClear (vf : Nat)
  /-- TENANCY_WRITE: Writes a VF's tenancy block, or refuses the write and sets TENERR (R410). -/
  | tenancyWrite (vf off width : Nat) (x : BitVec 64)
  /-- GRANT_WRITE: Sets an activity's budget grant from the next period (R423). -/
  | grantWrite (a : Nat) (k : RegPart) (x : BitVec 64)
  /-- UNBIND: Starts unbinding an origin slot (R427). -/
  | unbind (slot : Nat)
  /-- ORIGIN_UNBIND_COMPLETE: No state carries the slot's bit any longer and the slot becomes Free (R424). -/
  | originUnbindComplete (slot : Nat)
  /-- BIND_ORIGIN: DOE request within an SPDM session that binds the lowest Free origin slot to a key (R426). -/
  | bindOrigin (key : List Byte)
  /-- REGISTER_WRITE: A BAR write to a register without behaviour of its own acts per field access codes (R5). -/
  | registerWrite (fn : Fn) (off width : Nat) (x : BitVec 64)
  /-- BUDGET_PERIOD: A 10,800-cycle period begins and every budget balance is refilled (R422). -/
  | budgetPeriod
  /-- UPDATE_GENERATION_ADVANCE: A die's update generation advances at the end of a period in which it forwarded updates (R232). -/
  | updateGenerationAdvance (die : Nat)
  /-- SCRUB_VISIT: The scrubber reads a line and corrects a single-bit error in place (R231). -/
  | scrubVisit (l : ArrayLine)
  /-- RETENTION_SLEEP_ENTER: The management controller puts an idle core into retention sleep (R233). -/
  | retentionSleepEnter (core : Nat)
  /-- RETENTION_WAKE: A sleeping core wakes and invalidates or refetches its L1 lines (R233). -/
  | retentionWake (core : Nat)
  /-- FLIT_RECEIVE: A flit arrives at a port and is delivered once in its network's order or discarded as a duplicate (R388). -/
  | flitReceive (f : Arrival)
  /-- FLIT_ACK: An end-to-end acknowledgement arrives and the sender releases the flit (R388). -/
  | flitAck (dst vn seq : Nat)
  /-- LIVENESS_SEND: Every 1 µs a module sends a liveness flit on each link that is up (R389). -/
  | livenessSend
  /-- LINK_LIVENESS_TIMEOUT: No liveness flit for 16 µs; the link goes down and traffic detours (R389). -/
  | linkLivenessTimeout (port : Nat)
  /-- LINK_RETRY_EXHAUSTED: A flit fails link-level retry 8 times; the link goes down and traffic detours (R389). -/
  | linkRetryExhausted (port : Nat)
  /-- LINK_UP: A down link has carried 1 ms of clean liveness flits and comes up again (R390). -/
  | linkUp (port : Nat)
  /-- MODULE_DEAD_DECLARE: A module silent for 64 µs is declared dead, announced and MODULE_LOST raised (R396). -/
  | moduleDeadDeclare (m : Nat)
  /-- MODULE_DEAD_ANNOUNCE: A survivor receives the dead-module announcement on VN7 and treats the module as dead (R396). -/
  | moduleDeadAnnounce (m : Nat)
  /-- CHECKPOINT_BEGIN: The leader's interval elapses and it sends BEGIN(n) (R400). -/
  | checkpointBegin (group : Nat)
  /-- BEGIN_RECEIVE: A member receives BEGIN(n) and quiesces its context (R400). -/
  | beginReceive (group n : Nat)
  /-- DRAINED: A member's context has stopped and drained, and it sends DRAINED(n) (R400). -/
  | drained (group : Nat)
  /-- DRAINED_RECEIVE: The leader has DRAINED(n) from every member and sends CUT(n) (R400). -/
  | drainedReceive (group n src : Nat)
  /-- CUT_RECEIVE: A member receives CUT(n), saves state, resumes and copies to its buddy (R400). -/
  | cutReceive (group n : Nat)
  /-- SOUND: The buddy has acknowledged the copy and the member sends SOUND(n) (R400). -/
  | sound (group : Nat)
  /-- SOUND_RECEIVE: The leader has SOUND(n) from every member and sends COMMIT(n) (R400). -/
  | soundReceive (group n src : Nat)
  /-- COMMIT_RECEIVE: On COMMIT(n) buddies apply staging and members free old pre-images and frames (R403). -/
  | commitReceive (group n : Nat)
  /-- PRE_IMAGE_COPY: The first write to a frame after a cut copies the frame's cut-time contents first (R403). -/
  | preImageCopy (group frame : Nat)
  /-- ROLLBACK_RESTORE: The buddy's image has reached the replacement and suspensions are cleared; every member restores (R405). -/
  | rollbackRestore (group : Nat)
  /-- HOST_MEM_READ: A host CXL.mem read of device memory, checked on egress (R411). -/
  | hostMemRead (pa n : Nat)
  /-- HOST_MEM_WRITE: A host CXL.mem write of device memory, widening or keeping the frame label (R411). -/
  | hostMemWrite (pa : Nat) (bytes : List Byte)
  /-- HOST_ATOMIC: A host atomic or fence on device memory, acting as SC at system scope (R417). -/
  | hostAtomic (pa : Nat) (op : HostAtom)
  /-- HOST_SNOOP: A host snoop downgrades or removes a half of a host line after writing back dirty data (R413). -/
  | hostSnoop (hpa : Nat) (remove : Bool)
  /-- BACK_INVALIDATE_COMPLETE: A back-invalidate returns a half from the host and the waiting device access performs (R416). -/
  | backInvalidateComplete (half : Nat)
  /-- CXL_CACHE_REQUEST_FAIL: A CXL.cache request ends in error and the lane takes the host range fault (R414). -/
  | cxlCacheRequestFail (hpa : Nat)
  /-- UNCORRECTABLE_ERROR: An uncorrectable error in an array line is handled by owner tag (R357). -/
  | uncorrectableError (l : ArrayLine)
  /-- CAST_ON: Power-up and bring-up of the module in stages (R435). -/
  | castOn (c : CastOn)
  /-- FUNCTION_LEVEL_RESET: A VF reset ends its contexts and resets its command port registers (R187). -/
  | functionLevelReset (vf : Nat)
  /-- POWER_OUT_OF_RANGE: Supply voltage leaves 48-54 V and the controller holds the islands unpowered (R437). -/
  | powerOutOfRange (millivolts : Nat)
  /-- MANAGEMENT_REQUEST: An MCTP request to the management controller lowers frequencies, tightens the governor or lowers grants (R437). -/
  | managementRequest (r : MgmtReq)
  /-- SPDM_SESSION: A tenant agent's CMA/SPDM 1 (R426). -/
  | spdmSession (auth : Bool) (summary : List Byte)
  deriving DecidableEq, Repr

end Sys2Proof
end

