-- ==== Sys2Proof/Machine/Checks.lean ====
section
/-! DEFINITION. What an instruction word must meet before it executes: the registers it names, the combinations its
entry accepts, the full gang, the trap-strand rule (R12-R17, R37-R47 and the entries). -/

namespace Sys2Proof

/-- A use of a register field (R13, R42): V registers of a width in words, W registers from one on, P, T. -/
inductive Use where
  | v (r : BitVec 8) (words : Nat)
  | w (r : BitVec 8) (run : Nat)
  | p (r : BitVec 8)
  | t (r : BitVec 4)
  | s (r : BitVec 8)
  deriving DecidableEq, Repr

/-- Is a use within the allocation of `n` V registers and `tiles` tiles, and aligned (R12, R13, R39, R42)? The random
source `s` is a V register (R33); 255 is VZ there as in every operand position (R12; log 72). -/
def Use.ok (n tiles : Nat) : Use → Bool
  | .v r 1 => r == 255 || decide (r.toNat < n)
  | .v r k => r == 255 || (decide (r.toNat % k = 0) && decide (r.toNat + k ≤ 255) && decide (r.toNat + k ≤ n))
  | .w r run => decide (r.toNat + run ≤ 64)
  | .p r => decide (r.toNat < 8)
  | .t r => decide (r.toNat < tiles)
  | .s r => r == 255 || decide (r.toNat < n)

/-- Registers that hold an integer operand (R87). -/
def IType.words : IType → Nat
  | .i64 | .n64 | .b64 => 2
  | .b128 => 4
  | .i32 | .n32 | .i16 | .n16 | .i8 | .n8 | .b8 | .b16 | .b32 => 1

/-- Registers that hold a floating operand (R87). -/
def FType.words : FType → Nat
  | .f64 => 2
  | .f32 | .f16 | .bf16 | .x2f16 | .x2bf16 | .e4m3 | .e5m2 | .e2m1 | .cb2 | .sc12 => 1

/-- Registers that hold loaded or stored data (R21). -/
def Size.words : Size → Nat
  | .b64 => 2
  | .b128 => 4
  | .n8 | .i8 | .n16 | .i16 | .b32 => 1

/-- Bytes of an access (R21). -/
def Size.bytes : Size → Nat
  | .n8 | .i8 => 1
  | .n16 | .i16 => 2
  | .b32 => 4
  | .b64 => 8
  | .b128 => 16

/-- The arith group of R92. -/
def IType.arith : IType → Bool
  | .i32 | .n32 | .i64 | .n64 | .i16 | .n16 | .i8 | .n8 => true
  | .b8 | .b16 | .b32 | .b64 | .b128 => false

/-- The logic group of R92. -/
def IType.logic : IType → Bool
  | .i32 | .b32 | .b64 => true
  | .n32 | .i64 | .n64 | .i16 | .n16 | .i8 | .n8 | .b8 | .b16 | .b128 => false

/-- Signed types (R43). -/
def IType.signed : IType → Bool
  | .i32 | .i64 | .i16 | .i8 => true
  | .n32 | .n64 | .n16 | .n8 | .b8 | .b16 | .b32 | .b64 | .b128 => false

/-- The types of IMULH, REDUX.ADD and their like: codes 0x0 to 0x3. -/
def IType.wide : IType → Bool
  | .i32 | .n32 | .i64 | .n64 => true
  | .i16 | .n16 | .i8 | .n8 | .b8 | .b16 | .b32 | .b64 | .b128 => false

/-- The six types of the floating group (R98). -/
def FType.all6 : FType → Bool
  | .f32 | .f64 | .f16 | .bf16 | .x2f16 | .x2bf16 => true
  | .e4m3 | .e5m2 | .e2m1 | .cb2 | .sc12 => false

/-- The four scalar types. -/
def FType.scalar : FType → Bool
  | .f32 | .f64 | .f16 | .bf16 => true
  | .x2f16 | .x2bf16 | .e4m3 | .e5m2 | .e2m1 | .cb2 | .sc12 => false

/-- The two packed types. -/
def FType.packed : FType → Bool
  | .x2f16 | .x2bf16 => true
  | .f32 | .f64 | .f16 | .bf16 | .e4m3 | .e5m2 | .e2m1 | .cb2 | .sc12 => false

/-- The three narrow types. -/
def FType.narrow : FType → Bool
  | .e4m3 | .e5m2 | .e2m1 => true
  | .f32 | .f64 | .f16 | .bf16 | .x2f16 | .x2bf16 | .cb2 | .sc12 => false

/-- The pairs CVT accepts, as elements, source registers and destination registers (R103). -/
def cvtShape (dt st : FType) : Option (Nat × Nat × Nat) :=
  if dt.scalar && st.scalar then some (1, st.words, dt.words)
  else if dt.packed && st == .f32 then some (2, 2, 1)
  else if dt.narrow && st == .f32 then some (4, 4, 1)
  else if dt == .f32 && st.packed then some (2, 1, 2)
  else if dt == .f32 && st.narrow then some (4, 1, 4)
  else none

/-- The random source is named only under RSTO, and RG = 1 names G0-G7 (R33, R43). -/
def rndOk (rm : Rnd) (r : RndSrc) : Bool :=
  if rm = .rsto then (if r.rg then decide (r.tt.toNat < 8) else true) else decide (r = ⟨false, 0⟩)

/-- The V register of a random source (R33). -/
def rndUse (rm : Rnd) (r : RndSrc) : List Use :=
  if rm = .rsto && !r.rg then [.s r.tt] else []

/-- The modes RNE to RNA, codes 0 to 4. -/
def Rnd.plain : Rnd → Bool
  | .rne | .rtz | .rup | .rdn | .rna => true
  | .rsto | .rdyn => false

/-- The operations, sizes and O bit that ATOM and RED accept (R128). -/
def aopOk (op : Aop) (sz : Size) (o : Bool) : Bool :=
  match op with
  | .min | .max => sz == .b32 || sz == .b64
  | .add | .and | .or | .xor | .exch | .incw | .decw => (sz == .b32 || sz == .b64) && !o
  | .faddF32 | .faddX2bf16 => sz == .b32 && !o
  | .faddF64 => sz == .b64 && !o

/-- The fold operations accept these types and modes (R173). -/
def foldOk : FoldOp → Bool
  | .int .add t | .int .min t | .int .max t => t.wide
  | .int .and t | .int .or t | .int .xor t => t.logic
  | .flt .fadd t rm => (t == .f32 || t == .f64) && (rm != .rsto)
  | .flt .fmin t rm | .flt .fmax t rm => (t == .f32 || t == .f64) && rm == .rne

/-- Words of a fold's operand. -/
def foldWords : FoldOp → Nat
  | .int _ t => t.words
  | .flt _ t _ => t.words

/-- Width of a matrix element in quarter bytes (R303). -/
def MFmt.quarters : MFmt → Nat
  | .bf16 | .fp16 => 8
  | .e4m3 | .e5m2 | .int8 => 4
  | .e2m1 => 2
  | .cb2 => 1

/-- The pairs an MMA accepts, whatever the order (R303). -/
def mmaPair (fa fb : MFmt) : Bool :=
  let fp8 (f : MFmt) : Bool := f == .e4m3 || f == .e5m2
  (fp8 fa && (fp8 fb || fb == .e2m1 || fb == .cb2)) || (fp8 fb && (fa == .e2m1 || fa == .cb2)) ||
  (fa == .e2m1 && (fb == .e2m1 || fb == .cb2)) || (fa == .cb2 && fb == .e2m1) ||
  (fa == .bf16 && fb == .bf16) || (fa == .fp16 && fb == .fp16) || (fa == .int8 && fb == .int8)

/-- The sources an MMA accepts: at most one generator, and none in CB2 (R303). -/
def mmaSources (fa fb : MFmt) (sa sb : BitVec 4) : Bool :=
  let ga := decide (8 ≤ sa.toNat)
  let gb := decide (8 ≤ sb.toNat)
  !(ga && gb) && !(ga && fa == .cb2) && !(gb && fb == .cb2)

/-- The special registers that an SRD may name, as SRN: 32-bit and 64-bit forms (R18, R135). -/
def srdOk (n : BitVec 16) : Bool :=
  [0x0000, 0x0001, 0x0002, 0x0003, 0x0004, 0x0005, 0x0006, 0x0007, 0x0008, 0x0009, 0x0010, 0x0011, 0x0012, 0x0013,
   0x0020, 0x0021, 0x0030, 0x0031, 0x0032, 0x0033, 0x0040, 0x0041, 0x0042, 0x0043, 0x0044, 0x0045, 0x0046, 0x0047,
   0x0050, 0x0051, 0x0052, 0x0060, 0x0061, 0x0070, 0x0071, 0x0080, 0x8004, 0x8006, 0x8010, 0x8012, 0x8030, 0x8032,
   0x8040, 0x8042, 0x8044, 0x8046, 0x8060].contains n.toNat

/-- The special registers that an SWR may name (R18, R135). -/
def swrOk (n : BitVec 16) : Bool :=
  [0x0020, 0x0021, 0x0030, 0x0031, 0x0032, 0x0033, 0x0050, 0x0070, 0x8030, 0x8032].contains n.toNat

/-- An integer operand field: a W register under U, else V registers of the type's width (R88). -/
def iuse (u : Bool) (k : Nat) (r : BitVec 8) : Use := if u then .w r 1 else .v r k

/-- The base of an address (R21). -/
def MemOp.base (m : MemOp) : Use := if m.aw then .w m.a 1 else .v m.a 2

/-- The registers that an instruction names (R42 and the entries). -/
def Instr.uses : Instr → List Use
  | .mov _ u t d a => [iuse u t.words d, iuse u t.words a]
  | .movi _ u _ d => [iuse u 1 d]
  | .iadd _ u t d a b | .isub _ u t d a b | .imul _ u t d a b | .imulh _ u t d a b | .idiv _ u t d a b
  | .irem _ u t d a b | .imin _ u t d a b | .imax _ u t d a b | .sadd _ u t d a b | .ssub _ u t d a b
  | .and _ u t d a b | .or _ u t d a b | .xor _ u t d a b =>
    [iuse u t.words d, iuse u t.words a, iuse u t.words b]
  | .iaddImm _ u _ d a | .isubImm _ u _ d a | .imulImm _ u _ d a | .iminImm _ u _ d a | .imaxImm _ u _ d a
  | .saddImm _ u _ d a | .andImm _ u _ d a | .orImm _ u _ d a | .xorImm _ u _ d a | .shlImm _ u _ d a
  | .shrImm _ u _ d a | .sarImm _ u _ d a | .rotlImm _ u _ d a => [iuse u 1 d, iuse u 1 a]
  | .imad _ u t d a b c => [iuse u t.words d, iuse u t.words a, iuse u t.words b, iuse u t.words c]
  | .iabs _ u t d a | .brev _ u t d a => [iuse u t.words d, iuse u t.words a]
  | .ttab _ u t _ d a b c => [iuse u t.words d, iuse u t.words a, iuse u t.words b, iuse u t.words c]
  | .shl _ u d a b | .shr _ u d a b | .sar _ u d a b | .rotl _ u d a b => [iuse u 1 d, iuse u 1 a, iuse u 1 b]
  | .bfx _ u _ d a b => [iuse u 1 d, iuse u 1 a, iuse u 1 b]
  | .bfi _ u d a b c | .bperm _ u d a b c => [iuse u 1 d, iuse u 1 a, iuse u 1 b, iuse u 1 c]
  | .popc _ u t d a | .clz _ u t d a => [iuse u 1 d, iuse u t.words a]
  | .add64 _ u d a b => [iuse u 2 d, iuse u 2 a, iuse u 2 b]
  | .add64Imm _ u _ d a => [iuse u 2 d, iuse u 2 a]
  | .mad64 _ u _ d a b c => [iuse u 2 d, iuse u 1 a, iuse u 1 b, iuse u 2 c]
  | .shl64 _ u d a b | .shr64 _ u _ d a b => [iuse u 2 d, iuse u 2 a, iuse u 1 b]
  | .fadd _ t rm r d a b | .fsub _ t rm r d a b | .fmul _ t rm r d a b =>
    [.v d t.words, .v a t.words, .v b t.words] ++ rndUse rm r
  | .fma _ t rm r d a b c => [.v d t.words, .v a t.words, .v b t.words, .v c t.words] ++ rndUse rm r
  | .faddImm _ _ d a | .fsubImm _ _ d a | .fmulImm _ _ d a | .fminImm _ _ d a | .fmaxImm _ _ d a =>
    [.v d 1, .v a 1]
  | .fmin _ t d a b | .fmax _ t d a b => [.v d t.words, .v a t.words, .v b t.words]
  | .fabs _ t d a | .fneg _ t d a => [.v d t.words, .v a t.words]
  | .frcp _ t rm r d a | .fsqrt _ t rm r d a | .frsq _ t rm r d a | .fexp2 _ t rm r d a | .flog2 _ t rm r d a
  | .fsin _ t rm r d a | .fcos _ t rm r d a | .frint _ t rm r d a => [.v d t.words, .v a t.words] ++ rndUse rm r
  | .fclass _ t d a => [.v d 1, .v a t.words]
  | .fdot2 _ _ rm r d a b c => [.v d 1, .v a 1, .v b 1, .v c 1] ++ rndUse rm r
  | .fscale _ t rm r d a b => [.v d t.words, .v a t.words, .v b 1] ++ rndUse rm r
  | .cvt _ dt src rm r d a =>
    match cvtShape dt src with
    | some (_, k, j) => [.v d j, .v a k] ++ rndUse rm r
    | none => []
  | .cvtn _ dt src rm r d a => [.v d dt.words, .v a src.words] ++ rndUse rm r
  | .cvtw _ dt src rm r d a => [.v d dt.words, .v a src.words] ++ rndUse rm r
  | .scfit _ _ d a => [.v d 1, .v a 1]
  | .scapp _ _ rm r d a b => [.v d 1, .v a 4, .v b 1] ++ rndUse rm r
  | .cbdec _ d a => [.v d 4, .v a 1]
  | .icmp _ _ t _ a b _ => [.v a t.words, .v b t.words]
  | .fcmp _ _ t _ a b _ => [.v a t.words, .v b t.words]
  | .sel _ t d a b _ => [.v d t.words, .v a t.words, .v b t.words]
  | .pmov _ .move d a => [.p d, .p a]
  | .pmov _ .toV d _ => [.v d 1]
  | .pmov _ .fromV _ a => [.v a 1]
  | .brx _ a | .ret _ a => [.v a 2]
  | .call _ _ d => [.v d 2]
  | .loop _ _ a => [.v a 1]
  | .ld _ m d => [m.base, .v d m.sz.words]
  | .st _ m b => [m.base, .v b m.sz.words]
  | .atom _ m _ d b => [m.base, .v d m.sz.words, .v b m.sz.words]
  | .cas _ m d b c => [m.base, .v d m.sz.words, .v b m.sz.words, .v c m.sz.words]
  | .red _ m _ b => [m.base, .v b m.sz.words]
  | .stf _ m b c => [m.base, .v b m.sz.words, .v c 2]
  | .waitge _ m d b => [m.base, .v d m.sz.words, .v b m.sz.words]
  | .ldpf _ m | .cmaint _ m _ => [m.base]
  | .release _ d a b c => [.w d 1, .w a 1, .w b 1, .w c 1]
  | .lxch _ _ t _ d a b => [.v d t.words, .v a t.words, .v b 1]
  | .poll _ .mask d _ | .poll _ .count d _ => [.v d 1]
  | .poll _ .every d _ | .poll _ .any d _ | .poll _ .same d _ => [.p d]
  | .redux _ op d a | .scan _ _ op d a => [.v d (foldWords op), .v a (foldWords op)]
  | .kin _ .whole t d a => [.p d, .v a t.words]
  | .kin _ .mask t d a | .kin _ .lead t d a => [.v d 1, .v a t.words]
  | .umov _ .toW _ d a => [.w d 1, .v a 1]
  | .umov _ .toW64 _ d a => [.w d 1, .v a 2]
  | .umov _ .toV _ d a => [.v d 1, .w a 1]
  | .umov _ .toV64 _ d a => [.v d 2, .w a 1]
  | .launch _ _ d a => [.w d 1, .w a 1]
  | .spawn _ _ a b c => [.v a 2, .v b 1, .v c 1]
  | .binfl _ a => [.v a 2]
  | .mma _ _ _ _ _ _ _ t => [.t t]
  | .mscac _ _ ws p t => [.t t, .t p, .w ws 2]
  | .mxwait _ all t => if all then [] else [.t t]
  | .aclr _ t => [.t t]
  | .accrd _ ty _ _ tile d => [.t tile, .v d (if ty = .f64 then 4 else 2)]
  | .accwr _ ty _ tile a => [.t tile, .v a (if ty = .f64 then 4 else 2)]
  | .accst _ _ _ tile a | .accld _ _ tile a => [.t tile, .w a 1]
  | .gset _ _ a => [.w a 4]
  | .gdraw _ raw t d _ b c => [.v d (if raw then 1 else t.words), .v b 1, .v c 1]
  | .gres _ _ _ b => [.w b 1]
  | .cbload _ _ _ a => [.w a 1]
  | .copy _ _ _ _ wd wc _ _ => [.w (wc.setWidth 8) 2, .w (wd.setWidth 8) 2]
  | .lbrd _ k d a =>
    match k with
    | .v => [.v d 1, .v a 1]
    | .p => [.v d 1, .p a]
    | .w => [.v d 1, .w a 1]
    | .mem => [.v d 1, .v a 2]
  | .lbchk _ pf k d a b =>
    (if pf then [.p d] else []) ++ [.v b 1] ++
    (match k with | .v => [.v a 1] | .p => [.p a] | .w => [.w a 1] | .mem => [])
  | .lbfloor _ k a => match k with | .v => [.v a 1] | .p => [.p a] | .w => [.w a 1] | .mem => []
  | .srd _ n d => [.v d (if n.getLsbD 15 then 2 else 1)]
  | .swr _ n a => [.v a (if n.getLsbD 15 then 2 else 1)]
  | .vrdx _ d a => [.v d 1, .v a 1]
  | .vwrx _ a b => [.v a 1, .v b 1]
  | .iinv _ a b => [.v a 2, .v b 1]
  | _ => []

/-- The register, pair, quad or predicate that an instruction's result goes to, if it has one of its own. -/
def Instr.dest : Instr → Option Use
  | .ld _ m d | .atom _ m _ d _ | .cas _ m d _ _ | .waitge _ m d _ => some (.v d m.sz.words)
  | .icmp _ _ _ d _ _ _ | .fcmp _ _ _ d _ _ _ | .plog _ _ d _ _ _ | .elect _ d => some (.p (d.setWidth 8))
  | .accrd _ ty _ _ _ d => some (.v d (if ty = .f64 then 4 else 2))
  | .lbchk _ pf _ d _ _ => if pf then some (.p d) else none
  | .st .. | .red .. | .stf .. | .ldpf .. | .cmaint .. | .brx .. | .ret .. | .loop .. | .spawn .. | .binfl .. | .mma ..
  | .mscac .. | .mxwait .. | .aclr .. | .accwr .. | .accst .. | .accld .. | .gset .. | .gres .. | .cbload .. | .copy ..
  | .lbfloor .. | .swr .. | .vwrx .. | .iinv .. | .pmov _ .fromV _ _ => none
  | i => i.uses.head?

/-- The registers that an instruction reads, its guard apart. -/
def Instr.sources : Instr → List Use
  | .ld _ m _ => [m.base]
  | .atom _ m _ _ b | .waitge _ m _ b => [m.base, .v b m.sz.words]
  | .cas _ m _ b c => [m.base, .v b m.sz.words, .v c m.sz.words]
  | .icmp _ _ t _ a b c => [.v a t.words, .v b t.words, .p (c.setWidth 8)]
  | .fcmp _ _ t _ a b c => [.v a t.words, .v b t.words, .p (c.setWidth 8)]
  | .sel _ t _ a b c => [.v a t.words, .v b t.words, .p (c.setWidth 8)]
  | .plog _ _ _ a b c => [.p (a.setWidth 8), .p (b.setWidth 8), .p (c.setWidth 8)]
  | .pmov _ .toV _ _ => (List.range 7).map (fun k => .p (BitVec.ofNat 8 k))
  | .pmov _ .fromV _ a => [.v a 1]
  | .poll _ _ _ a => [.p (a.setWidth 8)]
  | .accrd .. | .elect .. => []
  | .lbchk _ _ k _ a b =>
    [.v b 1] ++ (match k with | .v => [.v a 1] | .p => [.p a] | .w => [.w a 1] | .mem => [])
  | .st _ m b | .red _ m _ b => [m.base, .v b m.sz.words]
  | .stf _ m b c => [m.base, .v b m.sz.words, .v c 2]
  | .ldpf _ m | .cmaint _ m _ => [m.base]
  | .brx _ a | .ret _ a => [.v a 2]
  | .loop _ _ a => [.v a 1]
  | .spawn _ _ a b c => [.v a 2, .v b 1, .v c 1]
  | .binfl _ a => [.v a 2]
  | .mscac _ _ ws _ _ => [.w ws 2]
  | .accwr _ ty _ _ a => [.v a (if ty = .f64 then 4 else 2)]
  | .accst _ _ _ _ a | .accld _ _ _ a => [.w a 1]
  | .gset _ _ a => [.w a 4]
  | .gres _ _ _ b => [.w b 1]
  | .cbload _ _ _ a => [.w a 1]
  | .copy _ _ _ _ wd wc _ _ => [.w (wc.setWidth 8) 2, .w (wd.setWidth 8) 2]
  | .lbfloor _ k a => match k with | .v => [.v a 1] | .p => [.p a] | .w => [.w a 1] | .mem => []
  | .swr _ n a => [.v a (if n.getLsbD 15 then 2 else 1)]
  | .vwrx _ a b => [.v a 1, .v b 1]
  | .iinv _ a b => [.v a 2, .v b 1]
  | .mma .. | .mxwait .. | .aclr .. => []
  | i => i.uses.drop 1

/-- The sources that say where an instruction acts beyond its own destination: addresses, spawn targets, register indices. An
unpredictable value of one names no place (R7). -/
def Instr.aims : Instr → List Use
  | .ld _ m _ | .st _ m _ | .atom _ m _ _ _ | .cas _ m _ _ _ | .red _ m _ _ | .waitge _ m _ _ | .ldpf _ m
  | .cmaint _ m _ => [m.base]
  | .stf _ m _ c => [m.base, .v c 2]
  | .spawn _ _ a _ _ | .binfl _ a => [.v a 2]
  | .release _ _ a b c => [.w a 1, .w b 1, .w c 1]
  | .launch _ _ _ a => [.w a 1]
  | .mscac _ _ ws _ _ => [.w ws 2]
  | .accst _ _ _ _ a | .accld _ _ _ a => [.w a 1]
  | .gres _ _ _ b => [.w b 1]
  | .cbload _ _ _ a => [.w a 1]
  | .copy _ _ _ _ wd wc _ _ => [.w (wc.setWidth 8) 2, .w (wd.setWidth 8) 2]
  | .lbrd _ .mem _ a => [.v a 2]
  | .vwrx _ a _ => [.v a 1]
  | .iinv _ a b => [.v a 2, .v b 1]
  | _ => []

/-- Instructions whose result in a lane takes values of other lanes (R171-R177). -/
def Instr.crosses : Instr → Bool
  | .lxch .. | .poll .. | .redux .. | .scan .. | .kin .. | .umov .. | .elect .. => true
  | _ => false

/-- Branches whose direction or target a register can decide (R27, R240). -/
def Instr.branches : Instr → Bool
  | .bra .. | .brx .. | .call .. | .ret .. | .loop .. => true
  | _ => false

/-- The combinations that an entry accepts, and reserved fields of the forms that share a constructor. -/
def Instr.accepts : Instr → Bool
  | .mov _ u t _ _ => t.logic || (t == .b128 && !u)
  | .iadd _ _ t _ _ _ | .isub _ _ t _ _ _ | .imul _ _ t _ _ _ | .idiv _ _ t _ _ _ | .irem _ _ t _ _ _
  | .imin _ _ t _ _ _ | .imax _ _ t _ _ _ | .sadd _ _ t _ _ _ | .ssub _ _ t _ _ _ => t.arith
  | .imad _ _ t _ _ _ _ => t.arith
  | .imulh _ _ t _ _ _ => t.wide
  | .iabs _ _ t _ _ => t.arith && t.signed
  | .and _ _ t _ _ _ | .or _ _ t _ _ _ | .xor _ _ t _ _ _ => t.logic
  | .ttab _ _ t _ _ _ _ _ => t.logic
  | .popc _ _ t _ _ | .clz _ _ t _ _ | .brev _ _ t _ _ => t.logic
  | .bfx _ _ t _ _ _ => t == .i32 || t == .n32
  | .mad64 _ _ t _ _ _ _ => t == .i32 || t == .n32
  | .fadd _ t rm r _ _ _ | .fsub _ t rm r _ _ _ | .fmul _ t rm r _ _ _ => t.all6 && rndOk rm r
  | .fma _ t rm r _ _ _ _ => t.all6 && rndOk rm r
  | .fmin _ t _ _ _ | .fmax _ t _ _ _ => t.all6
  | .fabs _ t _ _ | .fneg _ t _ _ => t.all6
  | .frcp _ t rm r _ _ | .fsqrt _ t rm r _ _ | .frsq _ t rm r _ _ => (t == .f32 || t == .f64) && rndOk rm r
  | .fexp2 _ t rm r _ _ | .flog2 _ t rm r _ _ | .fsin _ t rm r _ _ | .fcos _ t rm r _ _ => t == .f32 && rndOk rm r
  | .fclass _ t _ _ => t.scalar
  | .fdot2 _ t rm r _ _ _ _ => t.packed && rndOk rm r
  | .fscale _ t rm r _ _ _ => (t == .f32 || t == .f64) && rndOk rm r
  | .frint _ t rm r _ _ => t.scalar && rndOk rm r
  | .cvt _ dt src rm r _ _ => (cvtShape dt src).isSome && rndOk rm r
  | .cvtn _ dt src rm r _ _ => dt.arith && src.scalar && rndOk rm r
  | .cvtw _ dt src rm r _ _ => dt.scalar && src.arith && rndOk rm r
  | .scfit _ t _ _ => t.narrow
  | .scapp _ t rm r _ _ _ => t.narrow && rndOk rm r
  | .icmp _ c t _ _ _ _ => t.arith && c != .un && c != .ord
  | .fcmp _ _ t _ _ _ _ => t.scalar
  | .sel _ t _ _ _ _ => t.logic
  | .pmov _ .move _ _ => true
  | .pmov _ .toV _ a => a == 0
  | .pmov _ .fromV d _ => d == 0
  | .loop _ n _ => decide (1 ≤ n.toNat) && decide (n.toNat ≤ 64)
  | .ld _ m _ | .st _ m _ => !m.o || m.dom == .rc
  | .stf _ m _ _ => (!m.o || m.dom == .rc) && m.off == 0
  | .atom _ m op _ _ => aopOk op m.sz m.o && m.off == 0
  | .red _ m op _ => aopOk op m.sz m.o && m.off == 0
  | .cas _ m _ _ _ => (m.sz == .b32 || m.sz == .b64) && !m.o && m.off == 0
  | .waitge _ m _ _ => (m.sz == .b32 || m.sz == .b64) && (!m.o || m.dom == .rc) && m.pol == .dflt
  | .ldpf _ m => !m.o
  | .cmaint _ m _ => !m.o && m.pol == .dflt
  | .fence _ all dom _ => !all || dom == .bu
  | .lxch _ _ t seg _ _ _ => t.logic && [1, 2, 4, 8, 16, 32].contains seg.toNat
  | .redux _ op _ _ | .scan _ _ op _ _ => foldOk op
  | .kin _ _ t _ _ => t.logic
  | .umov _ .toW n _ _ | .umov _ .toW64 n _ _ => decide (n.toNat < 32)
  | .umov _ .toV n _ _ | .umov _ .toV64 n _ _ => n == 0
  | .meet _ _ id count => decide (id.toNat < 16) && decide (count.toNat ≤ 32)
  | .cmeet _ _ id count => decide (id.toNat < 4) && decide (count.toNat ≤ 16)
  | .mma _ _ _ fa fb sa sb _ => mmaPair fa fb && mmaSources fa fb sa sb
  | .mxwait _ all t => !all || t == 0
  | .accrd _ ty rm row _ _ =>
    decide (row.toNat < 64) && ((ty == .f32 && rm.plain) || (ty == .f64 && rm == .rne))
  | .accwr _ ty row _ _ => decide (row.toNat < 64) && (ty == .f32 || ty == .f64)
  | .accst _ ty rm _ _ => (ty == .f64 && rm == .rne) || (ty != .f64 && rm.plain)
  | .gdraw _ raw t _ _ _ _ =>
    if raw then t == .f32 else t.scalar || t.narrow
  | .lbchk _ pf k d _ _ => k != .mem && (pf || d == 0)
  | .lbfloor _ k _ => k != .mem
  | .srd _ n _ => srdOk n
  | .swr _ n _ => swrOk n
  | _ => true

/-- The header of an instruction word (R30). -/
def Instr.hdr : Instr → Option Hdr
  | .nop h | .mov h _ _ _ _ | .movi h _ _ _ | .iadd h _ _ _ _ _ | .iaddImm h _ _ _ _ | .isub h _ _ _ _ _
  | .isubImm h _ _ _ _ | .imul h _ _ _ _ _ | .imulImm h _ _ _ _ | .imulh h _ _ _ _ _ | .imad h _ _ _ _ _ _
  | .idiv h _ _ _ _ _ | .irem h _ _ _ _ _ | .imin h _ _ _ _ _ | .iminImm h _ _ _ _ | .imax h _ _ _ _ _
  | .imaxImm h _ _ _ _ | .iabs h _ _ _ _ | .sadd h _ _ _ _ _ | .saddImm h _ _ _ _ | .ssub h _ _ _ _ _
  | .and h _ _ _ _ _ | .andImm h _ _ _ _ | .or h _ _ _ _ _ | .orImm h _ _ _ _ | .xor h _ _ _ _ _
  | .xorImm h _ _ _ _ | .ttab h _ _ _ _ _ _ _ | .shl h _ _ _ _ | .shlImm h _ _ _ _ | .shr h _ _ _ _
  | .shrImm h _ _ _ _ | .sar h _ _ _ _ | .sarImm h _ _ _ _ | .rotl h _ _ _ _ | .rotlImm h _ _ _ _
  | .bfx h _ _ _ _ _ | .bfi h _ _ _ _ _ | .popc h _ _ _ _ | .clz h _ _ _ _ | .brev h _ _ _ _
  | .bperm h _ _ _ _ _ | .add64 h _ _ _ _ | .add64Imm h _ _ _ _ | .mad64 h _ _ _ _ _ _ | .shl64 h _ _ _ _
  | .shr64 h _ _ _ _ _ => some h
  | .fadd h _ _ _ _ _ _ | .faddImm h _ _ _ | .fsub h _ _ _ _ _ _ | .fsubImm h _ _ _ | .fmul h _ _ _ _ _ _
  | .fmulImm h _ _ _ | .fma h _ _ _ _ _ _ _ | .fmin h _ _ _ _ | .fminImm h _ _ _ | .fmax h _ _ _ _
  | .fmaxImm h _ _ _ | .fabs h _ _ _ | .fneg h _ _ _ | .frcp h _ _ _ _ _ | .fsqrt h _ _ _ _ _
  | .frsq h _ _ _ _ _ | .fexp2 h _ _ _ _ _ | .flog2 h _ _ _ _ _ | .fsin h _ _ _ _ _ | .fcos h _ _ _ _ _
  | .fclass h _ _ _ | .fdot2 h _ _ _ _ _ _ _ | .fscale h _ _ _ _ _ _ | .frint h _ _ _ _ _
  | .cvt h _ _ _ _ _ _ | .cvtn h _ _ _ _ _ _ | .cvtw h _ _ _ _ _ _ | .scfit h _ _ _ | .scapp h _ _ _ _ _ _
  | .cbdec h _ _ | .icmp h _ _ _ _ _ _ | .fcmp h _ _ _ _ _ _ | .sel h _ _ _ _ _ | .plog h _ _ _ _ _
  | .pmov h _ _ _ => some h
  | .bra h _ | .brx h _ | .call h _ _ | .ret h _ | .jpush h _ | .join h | .regang h | .loop h _ _ | .exit h
  | .doze h _ | .trap h _ | .brk h _ | .yield h => some h
  | .ld h _ _ | .st h _ _ | .atom h _ _ _ _ | .cas h _ _ _ _ | .red h _ _ _ | .fence h _ _ _ | .bridge h _ _ _
  | .stf h _ _ _ | .waitge h _ _ _ | .ldpf h _ | .cmaint h _ _ | .release h _ _ _ _ => some h
  | .lxch h _ _ _ _ _ _ | .poll h _ _ _ | .redux h _ _ _ | .scan h _ _ _ _ | .elect h _ | .kin h _ _ _ _
  | .umov h _ _ _ _ | .meet h _ _ _ | .cmeet h _ _ _ | .launch h _ _ _ | .evset h _ _ | .evwait h _
  | .spawn h _ _ _ _ | .binfl h _ => some h
  | .sclaim h _ | .srel h _ | .mma h _ _ _ _ _ _ _ | .mscac h _ _ _ _ | .mxwait h _ _ | .aclr h _
  | .accrd h _ _ _ _ _ | .accwr h _ _ _ _ | .accst h _ _ _ _ | .accld h _ _ _ | .gset h _ _
  | .gdraw h _ _ _ _ _ _ | .gres h _ _ _ | .cbload h _ _ _ | .copy h _ _ _ _ _ _ _ | .chwait h _ _
  | .chrst h _ => some h
  | .lbrd h _ _ _ | .lbchk h _ _ _ _ _ | .lbfloor h _ _ | .srd h _ _ | .swr h _ _ | .tret h | .vrdx h _ _
  | .vwrx h _ _ | .isync h | .iinv h _ _ => some h
  | _ => none

/-- Is the U bit set (R46)? -/
def Instr.uniform : Instr → Bool
  | .mov _ u _ _ _ | .movi _ u _ _ | .iadd _ u _ _ _ _ | .iaddImm _ u _ _ _ | .isub _ u _ _ _ _
  | .isubImm _ u _ _ _ | .imul _ u _ _ _ _ | .imulImm _ u _ _ _ | .imulh _ u _ _ _ _ | .imad _ u _ _ _ _ _
  | .idiv _ u _ _ _ _ | .irem _ u _ _ _ _ | .imin _ u _ _ _ _ | .iminImm _ u _ _ _ | .imax _ u _ _ _ _
  | .imaxImm _ u _ _ _ | .iabs _ u _ _ _ | .sadd _ u _ _ _ _ | .saddImm _ u _ _ _ | .ssub _ u _ _ _ _
  | .and _ u _ _ _ _ | .andImm _ u _ _ _ | .or _ u _ _ _ _ | .orImm _ u _ _ _ | .xor _ u _ _ _ _
  | .xorImm _ u _ _ _ | .ttab _ u _ _ _ _ _ _ | .shl _ u _ _ _ | .shlImm _ u _ _ _ | .shr _ u _ _ _
  | .shrImm _ u _ _ _ | .sar _ u _ _ _ | .sarImm _ u _ _ _ | .rotl _ u _ _ _ | .rotlImm _ u _ _ _
  | .bfx _ u _ _ _ _ | .bfi _ u _ _ _ _ | .popc _ u _ _ _ | .clz _ u _ _ _ | .brev _ u _ _ _
  | .bperm _ u _ _ _ _ | .add64 _ u _ _ _ | .add64Imm _ u _ _ _ | .mad64 _ u _ _ _ _ _ | .shl64 _ u _ _ _
  | .shr64 _ u _ _ _ _ => u
  | _ => false

/-- Does the instruction need the full gang with all 32 lanes active (R16, R88, R156, R317)? -/
def Instr.needsFull (i : Instr) : Bool :=
  i.uniform ||
  match i with
  | .poll .. | .redux .. | .scan .. | .kin .. | .umov .. | .launch .. | .release .. => true
  | .lxch _ _ _ seg _ _ _ => decide (8 ≤ seg.toNat)
  | .sclaim .. | .srel .. | .mma .. | .mscac .. | .mxwait .. | .aclr .. | .accrd .. | .accwr .. | .accst ..
  | .accld .. | .gset .. | .gres .. | .cbload .. | .copy .. | .chrst .. => true
  | .swr _ n _ => n != 0x0021
  | _ => false

/-- The four instructions that accept only G = 7 (R47). -/
def Instr.unguarded : Instr → Bool
  | .loop .. | .jpush .. | .join .. | .regang .. => true
  | _ => false

/-- The instructions that raise ILLEGAL_FIELD in a trap strand (R157, R166). -/
def Instr.notInTrap : Instr → Bool
  | .jpush .. | .join .. | .regang .. | .meet .. | .cmeet .. => true
  | _ => false

/-- The synchronising instructions of R278. -/
def Instr.synchronising : Instr → Bool
  | .atom _ _ _ d _ | .cas _ _ d _ _ => d != 255
  | .waitge .. | .release .. | .meet .. | .cmeet .. | .launch .. | .evwait .. | .chwait .. | .gres .. | .sclaim ..
  | .srel .. => true
  | _ => false

/-- The checks of order 2 of R47 on the fields of the word, for a launch with `n` V registers and `tiles` tiles. -/
def Instr.legal (n tiles : Nat) (i : Instr) : Bool := i.accepts && i.uses.all (Use.ok n tiles)

/-- Is the guard field one the instruction accepts (R47)? -/
def Instr.guardOk (i : Instr) : Bool :=
  !i.unguarded || (match i.hdr with | some h => h.g == 7 | none => true)

end Sys2Proof
end

