-- ==== Sys2Proof/Machine/Cells.lean ====
section
/-! DEFINITION. Reading and writing sparse stores. Every write keeps the canonical form `Cells.wf`: keys strictly
rising, and no listed value equal to what an unlisted key reads as. -/

namespace Sys2Proof

variable {α : Type}

/-- The value at a key; an unlisted key reads as the default. -/
def Cells.get [Inhabited α] : Cells α → Nat → α
  | [], _ => default
  | (k, v) :: rest, key => if k = key then v else Cells.get rest key

/-- The listed value at a key, if any. -/
def Cells.find? : Cells α → Nat → Option α
  | [], _ => none
  | (k, v) :: rest, key => if k = key then some v else Cells.find? rest key

/-- Removes a key. -/
def Cells.erase : Cells α → Nat → Cells α
  | [], _ => []
  | (k, v) :: rest, key => if k = key then Cells.erase rest key else (k, v) :: Cells.erase rest key

/-- Lists a value at a key, in key order, whatever the value is. -/
def Cells.put : Cells α → Nat → α → Cells α
  | [], key, x => [(key, x)]
  | (k, v) :: rest, key, x =>
    if key < k then (key, x) :: (k, v) :: rest
    else if key = k then (key, x) :: rest
    else (k, v) :: Cells.put rest key x

/-- Writes a value at a key; writing the default unlists the key. -/
def Cells.set [Inhabited α] [DecidableEq α] (m : Cells α) (key : Nat) (x : α) : Cells α :=
  if x = default then Cells.erase m key else Cells.put m key x

/-- Every listed key is above `lo`, and keys rise strictly. -/
def Cells.sortedFrom : Nat → Cells α → Bool
  | _, [] => true
  | lo, (k, _) :: rest => decide (lo ≤ k) && Cells.sortedFrom (k + 1) rest

/-- The canonical form: keys strictly rising and no listed value equal to the default. -/
def Cells.wf [Inhabited α] [DecidableEq α] (m : Cells α) : Bool :=
  Cells.sortedFrom 0 m && m.all (fun c => decide (c.2 ≠ default))

/-- Applies a function to the value at a key. -/
def Cells.modify [Inhabited α] [DecidableEq α] (m : Cells α) (key : Nat) (f : α → α) : Cells α :=
  Cells.set m key (f (Cells.get m key))

/-- Applies a function to a listed value, and leaves the store alone when the key is unlisted. -/
def Cells.adjust (m : Cells α) (key : Nat) (f : α → α) : Cells α :=
  m.map (fun c => if c.1 = key then (c.1, f c.2) else c)

/-- The keys listed. -/
def Cells.keys (m : Cells α) : List Nat := m.map (·.1)

/-- The values listed. -/
def Cells.vals (m : Cells α) : List α := m.map (·.2)

/-- The least natural from `n` on (looking at most `fuel` further) that is not listed. -/
def Cells.firstFree (m : Cells α) : Nat → Nat → Nat
  | 0, n => n
  | fuel + 1, n => if (Cells.find? m n).isSome then Cells.firstFree m fuel (n + 1) else n

/-- The store with the values of `f` at the keys `base, base + 1, …`, in canonical form. -/
def Cells.ofFn [Inhabited α] [DecidableEq α] (base n : Nat) (f : Nat → α) : Cells α :=
  (List.range n).filterMap (fun i => if f i = default then none else some (base + i, f i))

/-- Drops every listed key from `base` to `base + n - 1`. -/
def Cells.clear (m : Cells α) (base n : Nat) : Cells α :=
  m.filter (fun c => decide (c.1 < base) || decide (base + n ≤ c.1))

/-- Replaces the `n` keys from `base` on by the values of `f`. -/
def Cells.fill [Inhabited α] [DecidableEq α] (m : Cells α) (base n : Nat) (f : Nat → α) : Cells α :=
  m.filter (fun c => decide (c.1 < base)) ++ Cells.ofFn base n f ++ m.filter (fun c => decide (base + n ≤ c.1))

/-- The little-endian number held in `n` bytes from `key` on (R4, R21). -/
def Cells.readLE (m : Cells Byte) (key : Nat) : Nat → Nat
  | 0 => 0
  | n + 1 => (Cells.get m key).toNat + 256 * Cells.readLE m (key + 1) n

/-- Writes the low `n` bytes of a number from `key` on, little-endian. -/
def Cells.writeLE (m : Cells Byte) (key : Nat) : Nat → Nat → Cells Byte
  | 0, _ => m
  | n + 1, x => Cells.writeLE (Cells.set m key (BitVec.ofNat 8 x)) (key + 1) n (x / 256)

end Sys2Proof
end

