-- ==== Sys2Proof/Machine/State.lean ====
section
/-! DEFINITION. The state of one H9 module as plain data, what can stop a step, and the state after reset. -/

namespace Sys2Proof.Machine

/-- A line of another module that the hardware has read for a warp: team and warp, its bytes by offset, their label, and
whether it came without data: refused by the other module's egress check, or poisoned (R358, R430). -/
structure RemoteLine where
  team : Nat := 0
  warp : Nat := 0
  data : Cells Byte := []
  lab : Label := 0
  egress : Bool := false
  poison : Bool := false
  deriving DecidableEq, Repr, Inhabited

/-- Bytes by address, in the canonical form of `Cells.wf`. -/
abbrev Memory := Cells Byte

/-- The canonical form: addresses strictly rising, no entry equal to what an unlisted address reads as. -/
abbrev Memory.wf (m : Memory) : Bool := Cells.wf m

/-! ## Lanes, strands, slices -/

/-- Loop state (R116). -/
structure LoopState where
  live : Bool := false
  count : Word := 0
  first : DWord := 0
  last : DWord := 0
  deriving DecidableEq, Repr, Inhabited

/-- A register as results and labels name it (R23, R25, R308). -/
inductive Reg where
  | v (n : Nat)
  | p (n : Nat)
  | w (n : Nat)
  | g (n : Nat)
  | tile (n : Nat)
  deriving DecidableEq, Repr, Inhabited

/-- Trap causes (R346). -/
inductive Cause where
  | illegalOpcode | illegalField | partialGang | misalignedPc | misalignedAddr | badSpace | domainFloor
  | fpException | slotNotClaimed | labelCheck | software | breakpoint | remoteStoreNoflag | scopeDenied
  | replayDiverge | generatorOverlap | labelEgress | faultDelivered
  deriving DecidableEq, Repr, Inhabited

/-- One lane's trap: cause, detail, label of the detail's source, status bits below the cause (R344, R346). -/
structure LaneTrap where
  lane : Nat
  cause : Cause
  detail : DWord := 0
  lab : Label := 0
  status : BitVec 8 := 0
  deriving DecidableEq, Repr, Inhabited

/-- A trap of some lanes of a slice at one instruction, not yet delivered (R342). -/
structure TrapRec where
  entry : Nat
  mask : BitVec 4
  pc : DWord
  word : DWord
  next : DWord
  gang : Bool
  delayed : Bool
  lanes : List LaneTrap
  deriving DecidableEq, Repr, Inhabited

/-- A recoverable fault of one lane (R349, R353). -/
structure FaultInfo where
  kind : Nat
  access : Nat
  va : DWord
  malformed : Bool := false
  hw : Bool := false
  lab : Label := 0
  deriving DecidableEq, Repr, Inhabited

/-- How an instruction ends in a lane that does not simply go on: a transfer of control, a trap (with PC + 8 as its
next PC for SOFTWARE and a checkpoint mismatch, R345), a recoverable fault, EXIT, or a return from a trap (R137). -/
inductive LaneEnd where
  | goto (target : DWord)
  | trap (t : LaneTrap) (after : Bool)
  | fault (f : FaultInfo)
  | exit
  | resume (target : DWord)
  deriving DecidableEq, Repr, Inhabited

/-- A strand parked on a fault (R350-R352): the fault of its lowest lane, its entry's sequence number once it has one,
whether the whole gang shares the entry, the word that faulted and whether a gang issued it, whether resumption delivers
the pending trap of the strand, and each faulting lane's own fault (R346). -/
structure ParkRec where
  info : FaultInfo
  seq : Nat
  warpWide : Bool
  multi : Bool
  deliver : Bool := false
  each : List (Nat × FaultInfo) := []
  word : DWord := 0
  gang : Bool := false
  deriving DecidableEq, Repr, Inhabited

/-- A record offered to a spawn bin (R159, R185). -/
structure SpawnRec where
  pc : DWord
  w0 : Word
  w1 : Word
  lab : Label
  deriving DecidableEq, Repr, Inhabited

/-- Why a strand is Held (R147). `again` strands issue the instruction at their PC again. -/
inductive Hold where
  /-- Issued with S = 1: until every result of its lanes has returned (R23). -/
  | marker
  /-- Its trap is pending or waits for earlier results (R341, R342). -/
  | trap
  /-- A COPY whose channel is full (R333); it issues again. -/
  | chan (ch : Nat)
  /-- A CHRST waiting for the transfers named (R335). -/
  | chrst (ch : Nat) (ids : List Nat)
  /-- An SREL waiting for matrix results and transfers (R318). -/
  | srel (slot : Nat) (ids : List Nat)
  /-- An SRD of SR.STHASH waiting for the warp's records (R287); it issues again. -/
  | hash
  /-- Waits until the accesses named are performed, then issues (RELEASE, R272; hardware accesses of R234). -/
  | drain (ids : List (Nat × Scope))
  /-- A tile-port instruction behind an ACCLD of the core (R321); it issues again. -/
  | port
  /-- An Almanac synchronising instruction waits for its commit point (R278, R279). -/
  | commit
  /-- Checks of the instruction's entry that another agent makes are still open: an order gate, a peer's egress check
  (R258, R340, R430). -/
  | late (id : Nat)
  deriving DecidableEq, Repr, Inhabited

/-- What a parked strand waits for (R147). -/
inductive Wait where
  | doze (since : Nat) (n : Nat)
  | launch
  | spawn (recs : List (Nat × SpawnRec))
  | chan (ch : Nat) (v : DWord)
  | ge (result : Nat)
  | event (n : Nat)
  | meet (cluster : Bool) (id count : Nat) (pass : Bool) (phase : Option Nat) (warpArrived : Bool)
  | matrix (ids : List Nat)
  deriving DecidableEq, Repr, Inhabited

/-- The states of a strand (R147). -/
inductive StrandSt where
  | ready
  | held (h : Hold)
  | atJoin
  | atRegang
  | onFault (p : ParkRec)
  | waiting (w : Wait)
  deriving DecidableEq, Repr, Inhabited

/-- A strand (R146): PC, lane mask, loop state and loop buffer, the saved loop state and loop buffer of a trap strand, the
trap bit, its state, whether its last instruction carried S = 1, the cycle of its last issue, and the issues since it
was chosen (R149). -/
structure Strand where
  pc : DWord
  mask : BitVec 4
  loop : LoopState := {}
  buf : List DWord := []
  saved : LoopState := {}
  savedBuf : List DWord := []
  trap : Bool := false
  st : StrandSt := .ready
  mark : Bool := false
  last : Nat := 0
  run : Nat := 0
  deriving DecidableEq, Repr, Inhabited

/-- A reconvergence entry (R150). -/
structure Recon where
  pc : DWord
  mask : BitVec 4
  deriving DecidableEq, Repr, Inhabited

/-- A slice: strand table, current strand, the entries of strands that were current when they became Held, latest first
(R149), resident reconvergence entries newest first, count of spilled entries, whether a removal waits for a refill that
faulted (R152), pending traps oldest first. -/
structure Slice where
  strands : Cells Strand := []
  cur : Nat := 0
  prior : List Nat := []
  recon : List Recon := []
  spilled : Nat := 0
  owed : Bool := false
  pending : List TrapRec := []
  deriving DecidableEq, Repr, Inhabited

/-! ## Memory accesses in flight -/

/-- Where the bytes of an access are: device memory by physical address, a peer module's by its physical address
there, host memory by member VF and host physical address, a placed team's scratchpad by offset. -/
inductive Place where
  | dev (pa : Nat)
  | peer (module : Nat) (pvf : Nat) (pa : Nat)
  | host (vf : Nat) (hpa : Nat)
  | scr (team : Nat) (off : Nat)
  deriving DecidableEq, Repr, Inhabited

/-- How soon an L1 line is to be evicted: as any other, early (STREAM, DEMOTE) or late (KEEP) (R127, R271). -/
inductive Evict where
  | plain | early | late
  deriving DecidableEq, Repr, Inhabited

/-- What an access does when it is performed. A group of atomic lanes is one access (R262). `line` is a read of a whole line
of another module that the hardware makes on a program's behalf (R234). -/
inductive AccOp where
  | load
  | line
  | label
  | testGe (threshold : DWord)
  | store (data : BitVec 1024)
  | rmw (op : Aop) (signed : Bool) (ops : List (Nat × DWord))
  | cas (ops : List (Nat × DWord × DWord)) (labC : Label)
  | flagAdd
  deriving DecidableEq, Repr, Inhabited

/-- An access that has issued and is not performed: an entry of a store queue or load path (R236, R259). `after` names
what must be performed first, with the scope of the edge (R239, R242); `mark` is the mark that its policy gives the L1 line
(R127, R220); `share` says that a peer's line may be kept here (R395); `aim` is the label of its address (R29, R352); `half`
says that of an atomic group at another module the answer or the acknowledgement has come, and the other has not (R388, R395). -/
structure Access where
  id : Nat
  team : Nat
  warp : Nat
  core : Nat
  ctx : Nat
  lanes : List Nat
  dom : Dom
  scp : Scope
  rel : Bool := false
  acq : Bool := false
  priv : Bool := false
  nol1 : Bool := false
  mark : Evict := .plain
  share : Bool := false
  place : Place
  va : DWord
  pc : DWord := 0
  size : Nat
  op : AccOp
  lab : Label := 0
  aim : Label := 0
  after : List (Nat × Scope) := []
  res : Nat := 0
  instr : Nat := 0
  window : Option Nat := none
  passed : Bool := false
  sent : Bool := false
  half : Bool := false
  deriving DecidableEq, Repr, Inhabited

/-- An update forwarded to a sharer and not applied (R218), with the key of its first byte (`Place.key`), the domain and
scope of its write and the label of its data; `flag` marks the increment of a completion object (R255). -/
structure Update where
  id : Nat
  team : Nat
  core : Nat
  pa : Nat
  bytes : List Byte
  dom : Dom := .bu
  scp : Scope := .pkg
  flag : Bool := false
  lab : Label := 0
  deriving DecidableEq, Repr, Inhabited

/-- A performed access and a write whose updates are still on the way: what waits for the access waits for that write. It
is the write that a read synchronised with (R241, R243, R245), or the access itself when it wrote (R218, R242); `rd` and
`wr` say which kind of access it is. `home` is the other module at whose home the write was made, if one was: a later CO flit
to that module names it (R384); `res` is the result that the read's value is for. -/
structure Echo where
  read : Nat
  write : Nat
  res : Nat := 0
  team : Nat
  warp : Nat
  lane : Nat
  dom : Dom
  scp : Scope
  rd : Bool := true
  wr : Bool := false
  home : Option Nat := none
  deriving DecidableEq, Repr, Inhabited

/-- A set of domains, one flag for each. -/
structure DomSet where
  bu : Bool := false
  rc : Bool := false
  co : Bool := false
  tso : Bool := false
  sc : Bool := false
  deriving DecidableEq, Repr, Inhabited

/-- An ordering edge of R242 still waiting: later accesses of the lanes in the domains wait for the ids. -/
structure Edge where
  lanes : Lanes
  reach : DomSet
  ids : List (Nat × Scope)
  deriving DecidableEq, Repr, Inhabited

/-- Where bytes read line by line go when all are there: the codebook (R329) or a tile (R325). -/
inductive BulkUse where
  | codebook
  | tile (t : Nat) (ty : TileTy)
  deriving DecidableEq, Repr, Inhabited

/-- What an in-flight result is (R23). -/
inductive ResKind where
  /-- Registers written at issue; the marker covers them until the return. -/
  | done
  /-- Values gathered lane by lane: destination register, size, sign extension, values so far, label so far. -/
  | mem (d : Nat) (size : Nat) (signed : Bool) (got : List (Nat × BitVec 128)) (lab : Label) (want : Lanes)
  /-- WAITGE: like `mem`, and the strands continue when every lane has passed (R268). -/
  | ge (d : Nat) (size : Nat) (got : List (Nat × BitVec 128)) (lab : Label) (want : Lanes)
  /-- Returns when the ids are performed (R264). -/
  | fence (ids : List (Nat × Scope))
  /-- IINV: ranges of lines, as first line and count, to drop from every instruction cache (R139). -/
  | iinv (ranges : List (Nat × Nat))
  /-- CBLOAD and ACCLD: lines by number, label so far, how many are wanted. -/
  | bulk (use : BulkUse) (got : List (Nat × BitVec 1024)) (lab : Label) (want : Nat)
  /-- Written by the matrix array, which returns it (R305, R306). -/
  | matrix
  deriving DecidableEq, Repr, Inhabited

/-- A result that has not returned: the instruction's lanes, the registers it writes with their labels before it, and
the lanes of each that a later instruction has overwritten (R24). -/
structure Result where
  id : Nat
  lanes : Lanes
  full : Bool
  kind : ResKind
  regs : List (Reg × Label) := []
  stale : List (Reg × Lanes) := []
  src : Label := 0
  clash : Bool := false
  deriving DecidableEq, Repr, Inhabited

/-- A register whose value depends on the reads of a result in some lanes (R240); without a register, the choice of path of
those lanes. -/
structure Dep where
  reg : Option Reg
  lanes : Lanes
  res : Nat
  deriving DecidableEq, Repr, Inhabited

/-- Store records of one instruction waiting to be hashed (R287): lane, address, bytes 8-15; the accesses whose gate or
performance they wait for; the addresses as issued of lanes whose records come with the performance. -/
structure HashEnt where
  instr : Nat
  lab : Label
  wait : List Nat
  recs : List (Nat × DWord × DWord)
  addrs : List (Nat × DWord) := []
  deriving DecidableEq, Repr, Inhabited

/-! ## The unit that issues -/

/-- The issue that `exec` carries out: team and warp, whether a gang of two or more slices issues, the member strands
as (slice, entry), the PC and word, and whether an Almanac commit point executes it. -/
structure Now where
  team : Nat
  warp : Nat
  gang : Bool
  units : List (Nat × Nat)
  pc : DWord
  word : DWord
  commit : Bool := false
  deriving DecidableEq, Repr, Inhabited

/-- An instruction whose lanes wait for checks or values from elsewhere before its strands go on: its issue, the lanes
still open with the accesses they wait for, and how lanes have ended so far. -/
structure Late where
  id : Nat
  now : Now
  h : Hdr
  active : Lanes
  waits : List Nat
  ends : List (Nat × LaneEnd) := []
  deriving DecidableEq, Repr, Inhabited

/-! ## Almanac buffers -/

/-- One page of a checked range: virtual page number (or tagged page), place of its first byte. -/
structure PageMap where
  vpage : Nat
  place : Place
  mask : Label
  deriving DecidableEq, Repr, Inhabited

/-- A transfer accepted on a copy channel (R330-R333): with the COPY's PC and the label of its source address (R352, R359), the
bytes delivered, those written whose updates are still on the way, the bytes read and not yet written, and the flit to another
module that it waits for. -/
structure Xfer where
  id : Nat
  team : Nat
  warp : Nat
  core : Nat
  ctx : Nat
  shape : Shape
  dom : Dom
  scp : Scope
  src : DWord
  sstr : Nat
  rows : Nat
  rb : Nat
  dst : DWord
  dstr : Nat
  flag : DWord
  srcMap : List PageMap
  dstMap : List PageMap
  flagMap : List PageMap
  lab : Label
  flagLab : Label
  egress : Bool
  overlap : Bool
  clash : Option Label := none
  pc : DWord := 0
  aim : Label := 0
  done : Nat := 0
  lag : Nat := 0
  stuck : Bool := false
  wire : Option (Nat × Nat) := none
  inbuf : List (Byte × Label) := []
  deriving DecidableEq, Repr, Inhabited

/-- An operation on an event vector that waits for accesses (R184): context, bit, whether it clears, the strand's warp, and
what must be performed first. -/
structure EventOp where
  ctx : Nat
  bit : Nat
  clr : Bool
  team : Nat
  warp : Nat
  ids : List (Nat × Scope)
  deriving DecidableEq, Repr, Inhabited

/-- An entry of a commit buffer (R278). -/
inductive CEntry where
  | accesses (as : List Access)
  | tile (res : Nat) (team : Nat) (off : Nat) (bytes : List Byte) (lab : Label)
  | copy (ch : Nat) (x : Xfer)
  | event (n : Nat) (clr : Bool)
  | spawn (recs : List (Nat × SpawnRec)) (clr : Option (Nat × Bool × Label)) (park : Bool)
  | flush (pcs : List DWord)
  deriving DecidableEq, Repr, Inhabited

/-! ## Warps, teams, clusters -/

/-- A warp: registers by number × 32 + lane, labels by number, special registers, slices, results, Almanac state, and the
latest codebook table that its own CBLOAD or a barrier orders before what it does (R307). -/
structure Warp where
  v : Cells Word := []
  vLab : Cells Label := []
  p : Cells Lanes := []
  pLab : Cells Label := []
  w : Cells DWord := []
  wLab : Cells Label := []
  g : Cells (BitVec 256) := []
  gLab : Cells Label := []
  exited : Lanes := 0
  slices : Cells Slice := []
  gang : BitVec 8 := 0
  spawned : Bool := false
  fpctl : Word := 0
  fpflags : Cells (BitVec 5) := []
  tvec : DWord := 0
  tframe : DWord := 0
  mxstat : Word := 0
  progress : Word := 0
  sthash : DWord := 0
  sthashLab : Label := 0
  scopeclamp : Word := 0
  lbfloor : Label := 0
  results : List Result := []
  deps : List Dep := []
  edges : List Edge := []
  hashQ : List HashEnt := []
  qclock : Nat := 0
  cbuf : List CEntry := []
  sync : Option (Now × Instr) := none
  atQuantum : Bool := false
  table : Nat := 0
  turn : Nat := 0
  deriving DecidableEq, Repr, Inhabited

/-- A barrier (R178, R179): the phase in progress, the governing count once an arrival set it, who has arrived, and
arrivals counted in the next phase, with their counts; `know` is what its arrivals know of codebook tables: team, table, and
the phase from which a release tells it (R307). -/
structure Bar where
  phase : Nat := 0
  count : Nat := 0
  arrived : List Nat := []
  later : List (Nat × Nat) := []
  ids : List (Nat × Scope) := []
  know : List (Nat × Nat × Nat) := []
  deriving DecidableEq, Repr, Inhabited

/-- A placed team. `placedAt` numbers its placement, `leaving` says that it is to be displaced (R372), with the
frames taken for that and whether it waits for more (R367); `table` counts its codebook tables, and `oldTable` is the label of the one before the last (R307).
`slots` are the slots of its warps in their partitions (R206, R209). -/
structure Team where
  launch : Nat
  ctx : Nat
  core : Nat
  cluster : Nat
  linear : Nat
  sibling : Nat
  teamId : DWord
  placedAt : Nat := 0
  leaving : Bool := false
  stalled : Bool := false
  frames : List Nat := []
  warps : Cells Warp := []
  scratch : Memory := []
  scratchLab : Cells Label := []
  tiles : Cells DWord := []
  tileLab : Cells Label := []
  codebook : Cells Byte := []
  codebookLab : Label := 0
  table : Nat := 0
  oldTable : Label := 0
  bars : Cells Bar := []
  chOff : Cells DWord := []
  slots : List Nat := []
  deriving DecidableEq, Repr, Inhabited

/-- The barriers that the teams of a cluster share (R178), by launch and cluster index. -/
structure Cluster where
  launch : Nat
  index : Nat
  bars : Cells Bar := []
  deriving DecidableEq, Repr, Inhabited

/-! ## Cores and dies -/

/-- An operand slot (R298-R300). -/
structure OpSlot where
  holder : Option Nat := none
  data : Memory := []
  outlier : Memory := []
  lab : Label := 0
  deriving DecidableEq, Repr, Inhabited

/-- A copy channel (R333, R335). -/
structure Chan where
  ptr : DWord := 0
  xfers : List Xfer := []
  deriving DecidableEq, Repr, Inhabited

/-- What a queued matrix instruction computes, with its operands as they stood at issue (R319, R320). -/
inductive MatOp where
  | mma (z : Bool) (kq : Nat) (fa fb : MFmt) (sa sb : BitVec 4) (ga gb : BitVec 256) (la lb : Label)
      (key : Word × Word)
  | mscac (z : Bool) (p : Nat) (sa sb : DWord) (sPlace : Place × Place)
  deriving DecidableEq, Repr, Inhabited

/-- An instruction of the matrix array that has not returned (R305, R306, R314): the step it stops at for a pre-emption, the
cycles that a ramp costs it, whether an MSCAC has its scale words, whether a COPY overlaps a slot it reads (R256), and the
labels that overlaps have added. -/
structure MatEnt where
  id : Nat
  team : Nat
  warp : Nat
  tile : Nat
  op : MatOp
  guardLab : Label
  start : Option Nat := none
  finish : Nat := 0
  steps : Nat := 0
  stopAt : Option Nat := none
  ramp : Nat := 0
  ready : Bool := false
  torn : Bool := false
  extra : Label := 0
  codebook : Cells Byte := []
  codebookLab : Label := 0
  deriving DecidableEq, Repr, Inhabited

/-- A spawn bin (R159, R160). -/
structure Bin where
  team : Nat
  pc : DWord
  recs : List SpawnRec := []
  timer : Option Nat := none
  start : Bool := false
  deriving DecidableEq, Repr, Inhabited

/-- A line of an L1 (R215, R218, R230, R232): its bytes, its generation stamp, its mark for eviction and its owner tag; the
bytes of a lane-local line that are not written back, with the member VF of a host line; the label of a peer's line. -/
structure L1Line where
  data : Cells Byte := []
  gen : Nat := 0
  mark : Evict := .plain
  owner : Nat := 0
  dirty : BitVec 128 := 0
  member : Nat := 0
  lab : Label := 0
  deriving DecidableEq, Repr, Inhabited

/-- A line of an L2 slice (R219, R230): its number, whether it is dirty, and its owner tag. Its bytes stand at the home. -/
structure L2Line where
  line : Nat
  dirty : Bool := false
  owner : Nat := 0
  deriving DecidableEq, Repr, Inhabited

/-- A non-leaf entry that a walk cache holds (R227): context, level of the table that it leads to, the bits of the virtual
address above that table's span, and the table. -/
structure WalkEnt where
  ctx : Nat
  level : Nat
  span : Nat
  table : Nat
  deriving DecidableEq, Repr, Inhabited

/-- A TLB entry (R225, R227): context, first virtual page, number of 4 KiB pages, leaf. -/
structure TlbEnt where
  ctx : Nat
  vpage : Nat
  pages : Nat
  leaf : DWord
  level : Nat
  deriving DecidableEq, Repr, Inhabited

/-- Retention sleep of a core (R233). -/
structure Sleep where
  gen0 : Nat
  count : Nat
  lines : List (Nat × Dom)
  overflow : Bool
  deriving DecidableEq, Repr, Inhabited

/-- A core. `l1` holds lines by `lineKey`, lane-local ones by `privKey`. -/
structure Core where
  slots : Cells OpSlot := []
  chans : Cells Chan := []
  matrix : List MatEnt := []
  mxgov : Word := 0
  starts : List (Nat × Nat) := []
  idleFrom : Option Nat := none
  bins : Cells Bin := []
  l1 : Cells L1Line := []
  tlb : List TlbEnt := []
  icache : Cells (List DWord) := []
  sleep : Option Sleep := none
  deriving DecidableEq, Repr, Inhabited

/-- A compute die. `l2` holds the lines of its slices by slice × 2,048 + set, oldest first. -/
structure Die where
  tlb : List TlbEnt := []
  walks : List WalkEnt := []
  gen : Nat := 0
  genPeriod : Option Nat := none
  forwarded : Bool := false
  l2 : Cells (List L2Line) := []
  deriving DecidableEq, Repr, Inhabited

/-! ## Launches and contexts -/

/-- A launch header as read: 192 bytes, byte 0 lowest (R199). -/
abbrev Header := BitVec 1536

/-- States of a journal entry (R196). -/
inductive JState where
  | accepted | pending | running | completed | failed | cancelled
  deriving DecidableEq, Repr, Inhabited

/-- Status codes (R190, R406). -/
inductive Status where
  | ok | storeFull | headerInvalid | nbvUnsupported | badCommand | noContext | denied | headerFault
  | contextEnded | cancelled | journalFull | noResource | rolledBack
  deriving DecidableEq, Repr, Inhabited

/-- A journal entry (R195, R406). -/
structure JEntry where
  seq : Nat
  time : Nat
  type : Nat
  st : JState
  status : Status
  device : Bool := false
  notice : Bool := false
  reissued : Bool := false
  tag : Nat
  ctx : Nat
  detail : Nat := 0
  operands : BitVec 256
  deriving DecidableEq, Repr, Inhabited

/-- A command port with its journal (R187, R195-R197), by function: 0 physical, n + 1 for VF n. -/
structure Port where
  tag : Nat := 0
  status : Status := .ok
  count : Nat := 0
  head : Nat := 1
  tail : Nat := 1
  journal : List JEntry := []
  queue : List (Option (BitVec 512) × Bool) := []
  deriving DecidableEq, Repr, Inhabited

/-- A watch window (R284). -/
structure Window where
  n : Nat
  base : DWord
  len : Nat
  deriving DecidableEq, Repr, Inhabited

/-- A checkpoint whose hash is still to come (R286, R288): the token that stands in the warp's hash queue, the warp, the
log slot of the hash chunk, the logged value under REPLAY, the request and its lanes. -/
structure GateCheck where
  token : Nat
  team : Nat
  warp : Nat
  slot : Nat
  logged : DWord
  access : Nat
  lanes : List Nat
  deriving DecidableEq, Repr, Inhabited

/-- The state of one window in a RECORD or REPLAY launch (R286, R288): requests passed, the open run (warp, length),
the replay cursor, requests passed of the chunk at the cursor, whether gating has ended after a divergence, and
checkpoints whose hash is still to come. -/
structure Gate where
  passed : Nat := 0
  run : Option (Nat × Nat) := none
  cursor : Nat := 0
  used : Nat := 0
  open_ : Bool := false
  checks : List GateCheck := []
  deriving DecidableEq, Repr, Inhabited

/-- What a commit point still does, move by move (R280): apply a warp's buffer; execute its synchronising instruction; send
what that asks of other modules; wait for accesses to be performed; settle barriers and retire the warp; settle the launch's
barriers; read again for a wait; end waits. -/
inductive CommitStep where
  | buffer (team warp : Nat)
  | sync (team warp : Nat)
  | send (team warp : Nat)
  | drain (team : Nat) (ids : List (Nat × Scope))
  | finish (team warp : Nat)
  | bars
  | waits (team warp : Nat)
  deriving DecidableEq, Repr, Inhabited

/-- A commit point in progress: its moves to come, the warps taken and those that were parked (R280). -/
structure Commit where
  todo : List CommitStep
  taken : List (Nat × Nat)
  parked : List (Nat × Nat)
  deriving DecidableEq, Repr, Inhabited

/-- A launch in the pending-launch store or running (R202-R208). -/
structure Launch where
  ctx : Nat
  hdr : Header
  hdrVa : DWord
  serial : Nat
  port : Nat
  jseq : Nat
  w0Lab : Label
  ready : Option Nat := none
  placed : Nat := 0
  keys : List Nat := []
  retired : Nat := 0
  waits : List (Nat × Scope) := []
  windows : List Window := []
  gates : Cells Gate := []
  cap : Nat := 0
  count : Nat := 0
  overflow : Bool := false
  quantum : Nat := 0
  commit : Option Commit := none
  retiredWarps : List Nat := []
  deriving DecidableEq, Repr, Inhabited

/-- States of a context (R361). -/
inductive CtxSt where
  | live | saving | saved | restoring | ended
  deriving DecidableEq, Repr, Inhabited

/-- An entry of the draw registry (R289). -/
structure Draw where
  seed : DWord
  stream : Word
  key : Word
  first : Nat
  count : Nat
  deriving DecidableEq, Repr, Inhabited

/-- An unanswered fault-queue entry (R352, R353): its 64 bytes, what the retry form compares, and whether it has been
written. -/
structure FqEntry where
  seq : Nat
  kind : Nat
  va : DWord
  body : BitVec 512
  lab : Label
  written : Bool
  deriving DecidableEq, Repr, Inhabited

/-- A team as a save holds it (R364, R336): the team, its view of each channel, its slots, its bins, its interrupted
matrix instructions, and its loads whose values have not returned, with the instructions that wait for them (R365). -/
structure SavedTeam where
  key : Nat
  team : Team
  views : List DWord
  slots : List (Nat × OpSlot)
  bins : List Bin
  matrix : List MatEnt
  loads : List Access := []
  lates : List Late := []
  deriving DecidableEq, Repr, Inhabited

/-- A save (R366-R368): the teams, and the save frames taken for it in list order, header first. -/
structure Saved where
  teams : List SavedTeam := []
  frames : List Nat := []
  deriving DecidableEq, Repr, Inhabited

/-- A reference to a journal entry: port and sequence number. -/
abbrev JRef := Nat × Nat

/-- A context (R194, R361, R428). `save` holds its save, complete or partial; `displaced` the clusters that were displaced
for priority (R372); `again` a PREEMPT that waits for a restore (R371); `stalled` a save that waits for frames (R367); `unbinding` a bind-off that
waits for what the context has issued, with its journal entry (R374). -/
structure Context where
  vf : Nat
  num : Nat
  partner : Option (Nat × Nat) := none
  st : CtxSt := .live
  root : Nat
  fq : Nat
  events : BitVec 256 := 0
  serial : Nat := 1
  handle : Option Nat := none
  draws : List Draw := []
  windows : List Window := []
  fqNext : Nat := 1
  entries : List FqEntry := []
  answered : List (Nat × Nat) := []
  save : Option Saved := none
  displaced : List Saved := []
  unbinding : Bool := false
  unbindJ : Option JRef := none
  saveJ : List JRef := []
  resumeJ : List JRef := []
  again : Bool := false
  stalled : Bool := false
  suspendedFrom : Option CtxSt := none
  deriving DecidableEq, Repr, Inhabited

/-! ## Virtual functions, tenancy, release -/

/-- A pending join (R428). -/
structure Join where
  req : List Byte
  port : Nat
  jseq : Nat
  deriving DecidableEq, Repr, Inhabited

/-- A virtual function: tenancy block (R410), save-frame block (R366), place table (R391), pending join. -/
structure Vf where
  strict : Bool := false
  cap : Nat := 3
  ovalid : Bool := false
  origin : Nat := 0
  wbase : Nat := 0
  wsize : Nat := 0
  tenerr : Bool := false
  free : List Nat := []
  badadd : Bool := false
  exhausted : Bool := false
  stalled : Bool := false
  suspend : Bool := false
  suspended : Bool := false
  peers : Cells (Nat × Nat) := []
  dies : List (Option (Nat × Nat)) := [some (0, 63), some (1, 63), some (2, 63), some (3, 63), some (4, 63),
    some (5, 63), some (6, 63), some (7, 63)]
  pbase : Nat := 0
  psize : Nat := 0
  join : Option Join := none
  deriving DecidableEq, Repr, Inhabited

/-- States of an origin slot (R424). -/
inductive OriginSt where
  | free | bound | unbinding
  deriving DecidableEq, Repr, Inhabited

/-- An origin slot (R425, R427). -/
structure Origin where
  st : OriginSt := .free
  key : List Byte := []
  summary : List Byte := []
  hostwb : Bool := false
  deriving DecidableEq, Repr, Inhabited

/-- An installed release policy with its counters (R431-R433). -/
structure Policy where
  id : Nat
  set : Label
  dest : Nat
  byteLimit : Nat
  rateLimit : Nat
  regionLimit : Nat
  total : Nat := 0
  window : Nat := 0
  start : Nat := 0
  deriving DecidableEq, Repr, Inhabited

/-- A release record (R434). -/
structure RelRecord where
  n : Nat
  time : Nat
  policy : Nat
  set : Label
  dest : Nat
  vf : Nat
  ctx : Nat
  base : DWord
  len : DWord
  total : Nat
  deriving DecidableEq, Repr, Inhabited

/-- The budget of an activity (R421-R423): grants by kind, grants from the next period, charges of this period and
balances by kind × 2^16 + instance, stalls. -/
structure Budget where
  grant : Cells Nat := []
  next : Cells Nat := []
  used : Cells Nat := []
  balance : Cells Int := []
  waited : Bool := false
  stalls : Nat := 0
  deriving DecidableEq, Repr, Inhabited

/-! ## Host link -/

/-- State of a host line's 64-byte half at its home (R413). -/
inductive HostHalf where
  | invalid | shared | clean | dirty
  deriving DecidableEq, Repr, Inhabited

/-- State of a 64-byte half of a device line in the selvage adapter (R415). -/
inductive Half where
  | dev | shared | host
  deriving DecidableEq, Repr, Inhabited

/-- A bias flip in progress (R418). -/
structure Flip where
  port : Nat
  jseq : Nat
  frame : Nat
  toDevice : Bool
  deriving DecidableEq, Repr, Inhabited

/-- What the module sends to its host or management controller (log 11). -/
inductive Out where
  | msix (fn : Nat) (vector : Nat)
  | memData (pa : Nat) (bytes : List Byte)
  | poisoned (pa : Nat)
  | atomicOld (old : DWord)
  | bound (slot : Nat)
  | doeError
  | refused
  | flitAck (dst vn seq : Nat)
  /-- A flit leaves on the link to a module: between two others (R389), again on a new path, or over a link that is down (R390). -/
  | passed (next : Nat) (f : Flit)
  deriving DecidableEq, Repr, Inhabited

/-! ## Fabric and checkpoints -/

/-- A Surel port (R386, R389, R390): whether the far end announced what it should, whether the link is up, when its last
liveness flit arrived, when it went down, and since when liveness flits have come over it without a gap. -/
structure Link where
  trained : Bool := true
  up : Bool := true
  lastLive : Nat := 0
  downAt : Nat := 0
  clean : Nat := 0
  deriving DecidableEq, Repr, Inhabited

/-- A peer's window and origin as exchanged on VN7 (R394, R430). -/
structure PeerWindow where
  module : Nat
  vf : Nat
  base : Nat
  size : Nat
  origin : Nat
  deriving DecidableEq, Repr, Inhabited

/-- Member states of a checkpoint (R400). -/
inductive GroupSt where
  | enrolling | running | quiescing | draining | copying | sound | rollback
  deriving DecidableEq, Repr, Inhabited

/-- A pre-image or mirrored frame: checkpoint number, physical address, whether it is part of the context's saved state,
bytes, label, and the save frame that holds it with the VF whose list gave it. -/
structure FrameImage where
  n : Nat
  pa : Nat
  state : Bool
  data : List Byte
  lab : Label
  vf : Nat
  held : Option Nat
  deriving DecidableEq, Repr, Inhabited

/-- The context's part of a checkpoint (R401): the context with its event vector and unwritten entries, its teams, its
launches with their cluster barriers, its save frames, and where each journal stood. -/
structure CtxImage where
  n : Nat
  ctx : Context
  teams : List SavedTeam
  launches : List (Nat × Launch)
  clusters : List Cluster
  frames : List Nat
  tails : List (Nat × Nat)
  deriving DecidableEq, Repr, Inhabited

/-- A checkpoint group as this member holds it (R398-R406): interval in milliseconds; physical modules in the order of the
members' logical ids; this member's and its buddy's logical ids; the context, the enrolment's journal entry; the
checkpoint begun, the last cut taken, the last committed; when the next may begin; who has drained and who is sound; the
local ranges at the cut and the frames written since; pre-images, images of the context; what this module keeps for the
members it serves, with their modules; the flits of the copy in progress; a withdrawal; and in a rollback its target, the
modules lost, those that have replaced lost ones with their logical ids, and whether this module replaces one. -/
structure Group where
  interval : Nat
  phys : List Nat
  members : BitVec 16
  self : Nat
  buddy : Nat
  ctx : Nat
  port : Nat
  jseq : Nat
  st : GroupSt := .enrolling
  n : Nat := 0
  cutN : Nat := 0
  committed : Nat := 0
  due : Nat := 0
  drainedBy : List Nat := []
  soundBy : List Nat := []
  ranges : List (Nat × Nat) := []
  written : List Nat := []
  pre : List FrameImage := []
  images : List CtxImage := []
  mirror : List (Nat × FrameImage) := []
  staging : List (Nat × FrameImage) := []
  copyAll : Bool := true
  unacked : List (Nat × Nat) := []
  withdraw : Option JRef := none
  dissolve : Bool := false
  target : Nat := 0
  lost : List Nat := []
  placed : List (Nat × Nat) := []
  adopt : Bool := false
  stalled : Bool := false
  deriving DecidableEq, Repr, Inhabited

/-- The fabric side of the module (R383-R407): links by port; flits not acknowledged; the next end-to-end number to send
and to deliver by module × 8 + network; numbers delivered and flits held; dead modules; links between two other modules that
are known to be down; cycles since when a module is silent; when this module last sent liveness flits; flits delivered and not
acknowledged, with the numbers from one on and below another that their writes have here; frames of a checkpoint that wait for a
save frame; dead modules that a PLACE_SET has named again; peer windows; lines that other modules may keep, with those modules;
enrolments reported by other modules as group, module, interval, members and buddy; groups by id. -/
structure Fabric where
  links : Cells Link := []
  sent : List Flit := []
  nextSeq : Cells Nat := []
  expect : Cells Nat := []
  got : List (Nat × Nat × Nat) := []
  held : List Flit := []
  dead : List Nat := []
  farDown : List (Nat × Nat) := []
  silentFrom : Cells Nat := []
  liveAt : Option Nat := none
  owed : List (Nat × Nat × Nat × Nat × Nat) := []
  stages : List Flit := []
  named : List Nat := []
  windows : List PeerWindow := []
  peerLines : List (Nat × Nat) := []
  reports : List (Nat × Nat × Nat × List Nat × Nat) := []
  groups : Cells Group := []
  deriving DecidableEq, Repr, Inhabited

/-! ## Power and management -/

/-- The management controller's side (R435-R437). -/
structure Power where
  on : Bool := true
  stage : Nat := 5
  cause : Nat := 0
  portsOpen : Bool := true
  image : Image
  frequency : Cells Nat := []
  limit8 : Nat
  idle : Nat
  ramp : Nat
  deriving DecidableEq, Repr

/-! ## Turns -/

/-- The issue ports of a partition, and the core's MXC (R209). -/
inductive IssuePort where
  | ialu | falu | xfn | mem | xlane | mxc
  deriving DecidableEq, Repr

/-- An issue unit: team, warp, and a slice, or none for the gang (R209). -/
abbrev IssueUnit := Nat × Nat × Option Nat

/-- An instruction that issued: its partition, port and bank reads, the cycle, and the last cycle that its port is held
(R209-R211). -/
structure Issued where
  core : Nat
  part : Nat
  unit : IssueUnit
  port : Option IssuePort
  banks : List Nat
  cycle : Nat
  till : Nat
  deriving DecidableEq, Repr, Inhabited

/-- How often in a row a unit has lost a port or a bank, and in which cycle last (R212). -/
structure Loss where
  unit : IssueUnit
  count : Nat
  cycle : Nat
  deriving DecidableEq, Repr, Inhabited

/-- Which agent moves: an issue unit of a warp (its gang, or a slice outside the gang), or a device event. -/
inductive Act where
  | issue (team warp : Nat) (slice : Option Nat)
  | event (i : Instr)
  deriving DecidableEq, Repr

/-- One turn: cycles that pass first, then the agent that moves (log 3). -/
structure Turn where
  wait : Nat := 0
  act : Act
  deriving DecidableEq, Repr

/-- The whole module. -/
structure State where
  /-- Arithmetic-clock cycles since the cast-on sequence (R18). -/
  cycle : Nat
  /-- The instructions that issued in this cycle or hold a port still (R209, R210). -/
  issues : List Issued
  /-- The units that lost a port or a bank since they last issued (R212). -/
  losses : List Loss
  /-- Turns to come (log 3). -/
  agenda : List Turn
  /-- The issue in progress (log 4). -/
  now : Option Now
  /-- The next number for accesses, results and transfers (log 5). -/
  nextId : Nat
  /-- The index of the next free value (log 6). -/
  free : Nat
  /-- Device DRAM by physical address (R221). -/
  mem : Memory
  /-- Poisoned lines, of DRAM and of host data, by their numbers (R230, R414). -/
  poison : List Nat
  /-- Frame origin tables, by physical frame number (R228). -/
  frameLab : Cells Label
  /-- Placed teams, by the model's key. -/
  teams : Cells Team
  clusters : List Cluster
  /-- Cores 0 to 767: die × 96 + core of the die (R10, R18). -/
  cores : Cells Core
  dies : Cells Die
  accesses : List Access
  /-- Lines of other modules read for hardware accesses, by line (log 73). -/
  remote : Cells RemoteLine
  updates : List Update
  echoes : List Echo
  /-- Instructions that other agents still check (R340). -/
  late : List Late
  /-- Launches by the model's key; those not final are the pending-launch store (R202). -/
  launches : Cells Launch
  /-- The group reserved for the head cluster: die × 6 + group (R208). -/
  reserved : Option Nat
  /-- Contexts by VF × 64 + number. -/
  contexts : Cells Context
  ports : Cells Port
  vfs : Cells Vf
  origins : Cells Origin
  policies : List Policy
  records : List RelRecord
  nextRecord : Nat
  budgets : Cells Budget
  spdm : Option (List Byte)
  /-- Host memory by host physical address (R412; log 2). -/
  hostMem : Memory
  hostHalves : Cells HostHalf
  hostData : Memory
  /-- The VF whose access last wrote a host half (R414). -/
  hostBy : Cells Nat
  /-- Host lines (64-byte halves) whose next CXL.cache request fails (R414). -/
  hostFail : List Nat
  bias : List Nat
  halves : Cells Half
  backInv : List Nat
  flips : List Flip
  /-- TLB invalidations in progress: port, journal entry, context, first page, pages, accesses that must be performed. -/
  invals : List (JRef × Nat × Nat × Nat × List Nat)
  /-- Event operations that wait, in order (R184). -/
  deferred : List EventOp
  fabric : Fabric
  power : Power
  /-- Messages to the host and the management controller, latest first (log 11). -/
  out : List Out
  deriving DecidableEq, Repr

/-- What stops the machine. -/
inductive Fault where
  /-- Raised by `step` alone: the module is held unpowered (R437) and no turn names CAST_ON. Safe: nothing executes. -/
  | unpowered
  deriving DecidableEq, Repr

/-- Why there is no meaning. -/
inductive Refusal where
  /-- Raised by `exec` for an instruction without a meaning in this model. Safe: nothing is claimed of it. -/
  | notModelled (mnemonic : String)
  deriving DecidableEq, Repr

/-- The image that reset assumes (R436; log 12). -/
def Image.atReset : Image where
  moduleId := 0
  nModules := 2
  grants := []
  scrubMin := 1
  govLimit8 := 32
  govIdle := 2048
  govRamp := 64
  binTimer := 4096
  vfs := 32
  bindings := []

/-- The module right after the cast-on sequence with an image (R435): every frame zero and without a label, ports
open, no context. `trained` says which Surel links are up. -/
def State.castOn (img : Image) (trained : List (Nat × Bool)) (cells : Cells Origin) : State where
  cycle := 0
  issues := []
  losses := []
  agenda := []
  now := none
  nextId := 1
  free := 0
  mem := []
  poison := []
  frameLab := []
  teams := []
  clusters := []
  cores := []
  dies := []
  accesses := []
  remote := []
  updates := []
  echoes := []
  late := []
  launches := []
  reserved := none
  contexts := []
  ports := []
  vfs := []
  origins := cells
  policies := []
  records := []
  nextRecord := 1
  budgets := []
  spdm := none
  hostMem := []
  hostHalves := []
  hostData := []
  hostBy := []
  hostFail := []
  bias := []
  halves := []
  backInv := []
  flips := []
  invals := []
  deferred := []
  fabric := { links := trained.map (fun x => (x.1, { up := x.2, trained := x.2 })) }
  power := { image := img, limit8 := img.govLimit8, idle := img.govIdle, ramp := img.govRamp }
  out := []

/-- The machine right after reset: the end of the cast-on sequence (R435; log 1, log 12). -/
def State.reset : State := State.castOn Image.atReset [] []

end Sys2Proof.Machine
end

