-- ==== Sys2Proof/Machine/Basic.lean ====
section
/-! DEFINITION. Reading and writing the parts of the state by key; the launch header; the command journal; event
vectors; numbers that events draw. -/

namespace Sys2Proof

/-- A scope as a number, narrowest first (R44). -/
def Scope.rank : Scope → Nat
  | .team => 0
  | .clus => 1
  | .die => 2
  | .pkg => 3
  | .fab => 4
  | .sys => 5

end Sys2Proof

namespace Sys2Proof.Machine

/-! ## Parts by key -/

/-- Updates a list element by position, and leaves the list alone beyond its end. -/
def setAt {α : Type} : List α → Nat → α → List α
  | [], _, _ => []
  | _ :: xs, 0, y => y :: xs
  | x :: xs, n + 1, y => x :: setAt xs n y

/-- The set of lanes as a list, ascending. -/
def laneList (m : Lanes) : List Nat := (List.range 32).filter (fun l => m.getLsbD l)

/-- The set of the lanes listed. -/
def lanesOf (ls : List Nat) : Lanes := ls.foldl (fun m l => m ||| (1#32 <<< l)) 0

/-- Folds a function over lanes or other indices. -/
def foldOn {α β : Type} (xs : List α) (b : β) (f : β → α → β) : β := xs.foldl f b

def State.team (s : State) (k : Nat) : Team := Cells.get s.teams k
def State.setTeam (s : State) (k : Nat) (t : Team) : State := { s with teams := Cells.put s.teams k t }
def State.warp (s : State) (k w : Nat) : Warp := Cells.get (s.team k).warps w
def State.setWarp (s : State) (k w : Nat) (x : Warp) : State :=
  s.setTeam k { s.team k with warps := Cells.put (s.team k).warps w x }
def State.onWarp (s : State) (k w : Nat) (f : Warp → Warp) : State := s.setWarp k w (f (s.warp k w))
def State.onTeam (s : State) (k : Nat) (f : Team → Team) : State := s.setTeam k (f (s.team k))
def State.core (s : State) (c : Nat) : Core := Cells.get s.cores c
def State.setCore (s : State) (c : Nat) (x : Core) : State := { s with cores := Cells.set s.cores c x }
def State.onCore (s : State) (c : Nat) (f : Core → Core) : State := s.setCore c (f (s.core c))
def State.die (s : State) (d : Nat) : Die := Cells.get s.dies d
def State.onDie (s : State) (d : Nat) (f : Die → Die) : State :=
  { s with dies := Cells.set s.dies d (f (s.die d)) }
def State.launch (s : State) (k : Nat) : Launch := Cells.get s.launches k
def State.onLaunch (s : State) (k : Nat) (f : Launch → Launch) : State :=
  { s with launches := Cells.adjust s.launches k f }
def State.context (s : State) (k : Nat) : Context := Cells.get s.contexts k
def State.onContext (s : State) (k : Nat) (f : Context → Context) : State :=
  { s with contexts := Cells.adjust s.contexts k f }
def State.port (s : State) (n : Nat) : Port := Cells.get s.ports n
def State.onPort (s : State) (n : Nat) (f : Port → Port) : State :=
  { s with ports := Cells.set s.ports n (f (s.port n)) }
def State.vf (s : State) (n : Nat) : Vf := Cells.get s.vfs n
def State.onVf (s : State) (n : Nat) (f : Vf → Vf) : State := { s with vfs := Cells.set s.vfs n (f (s.vf n)) }
def State.origin (s : State) (n : Nat) : Origin := Cells.get s.origins n
def State.onOrigin (s : State) (n : Nat) (f : Origin → Origin) : State :=
  { s with origins := Cells.set s.origins n (f (s.origin n)) }
def State.onGroup (s : State) (n : Nat) (f : Group → Group) : State :=
  { s with fabric := { s.fabric with groups := Cells.adjust s.fabric.groups n f } }
def State.send (s : State) (o : Out) : State := { s with out := o :: s.out }

/-- Die of a core (R10). -/
def dieOf (core : Nat) : Nat := core / 96
/-- Core group of a core: die × 6 + group (R10). -/
def groupOf (core : Nat) : Nat := core / 16

/-- A fresh number for accesses, results and transfers (log 5). -/
def State.fresh (s : State) : State := { s with nextId := s.nextId + 1 }

/-- Nanoseconds of the module time base at 2.7 GHz (R195; log 3). -/
def State.nanos (s : State) : Nat := s.cycle * 10 / 27
/-- The current budget period (R421). -/
def State.period (s : State) : Nat := s.cycle / 10800

/-! ## The launch header (R199, R200) -/

/-- A little-endian field of a header. -/
def Header.u (h : Header) (off bytes : Nat) : Nat := h.toNat >>> (8 * off) % 2 ^ (8 * bytes)
def Header.version (h : Header) : Nat := h.u 0 4
def Header.flags (h : Header) : Nat := h.u 4 4
def Header.almanac (h : Header) : Bool := h.flags.testBit 0
def Header.record (h : Header) : Bool := h.flags.testBit 1
def Header.replay (h : Header) : Bool := h.flags.testBit 2
def Header.strictLabel (h : Header) : Bool := h.flags.testBit 3
def Header.nbv (h : Header) : Nat := h.flags >>> 12 % 16
/-- FPTRAP in [8:4] becomes SR.FPCTL [9:5]. -/
def Header.fpctl (h : Header) : Word := BitVec.ofNat 32 ((h.flags >>> 4 % 32) * 32)
def Header.entry (h : Header) : DWord := BitVec.ofNat 64 (h.u 8 8)
def Header.width (h : Header) (k : Nat) : Nat := h.u (16 + k) 1
def Header.tb (h : Header) : Nat := h.u 22 1
def Header.cb (h : Header) : Nat := h.u 23 1
def Header.extent (h : Header) (k : Nat) : Nat := h.u (24 + 4 * k) 4
def Header.partition (h : Header) : Nat := h.u 48 4
def Header.vregs (h : Header) : Nat := h.partition >>> 21 % 256
def Header.accg (h : Header) : Nat := h.partition >>> 14 % 128
def Header.scrg (h : Header) : Nat := h.partition >>> 7 % 128
def Header.rfg (h : Header) : Nat := h.partition % 128
def Header.tiles (h : Header) : Nat := h.accg / 2
def Header.scratchBytes (h : Header) : Nat := 16384 * h.scrg
def Header.warps (h : Header) : Nat := h.u 52 1
def Header.teamsPer (h : Header) : Nat := h.u 53 1
def Header.priority (h : Header) : Nat := h.u 54 1 % 4
def Header.slots (h : Header) : Nat := h.u 55 1
def Header.waitMask (h : Header) : BitVec 256 := BitVec.ofNat 256 (h.u 64 32)
def Header.setMask (h : Header) : BitVec 256 := BitVec.ofNat 256 (h.u 96 32)
def Header.localBase (h : Header) : Nat := h.u 128 8
def Header.localBytes (h : Header) : Nat := h.u 136 4
def Header.quantum (h : Header) : Nat := h.u 140 4
def Header.args (h : Header) : DWord := BitVec.ofNat 64 (h.u 144 8)
def Header.affinity (h : Header) : Nat := h.u 152 8
def Header.trapVec (h : Header) : DWord := BitVec.ofNat 64 (h.u 160 8)
def Header.region (h : Header) : DWord := BitVec.ofNat 64 (h.u 168 8)
def Header.log (h : Header) : DWord := BitVec.ofNat 64 (h.u 176 8)

/-- The product of extents e_a … e_(b−1); empty products are 1 (R143). -/
def Header.extents (h : Header) (a b : Nat) : Nat :=
  (List.range 6).foldl (fun p k => if decide (a ≤ k) && decide (k < b) then p * h.extent k else p) 1

/-- o_k, the first bit of field k (R143). -/
def Header.fieldAt (h : Header) (k : Nat) : Nat :=
  (List.range k).foldl (fun o j => o + h.width j) 0

/-- Threads of a team (R143). -/
def Header.threads (h : Header) : Nat := h.extents 0 h.tb
/-- Teams of the launch (R144). -/
def Header.teamCount (h : Header) : Nat := h.extents h.tb 6
/-- Clusters of the launch (R144). -/
def Header.clusterCount (h : Header) : Nat := h.extents h.cb 6

/-- The identifier bits of the fields from a to b − 1 whose mixed-radix number is n, lowest field fastest (R144). -/
def Header.spread (h : Header) (a b n : Nat) : Nat :=
  ((List.range 6).foldl (fun (acc : Nat × Nat) k =>
    if decide (a ≤ k) && decide (k < b) then
      (acc.1 + (acc.2 % h.extent k) <<< h.fieldAt k, acc.2 / h.extent k)
    else acc) (0, n)).1

/-- The identifier of the team with a linear index (R144). -/
def Header.teamId (h : Header) (linear : Nat) : DWord := BitVec.ofNat 64 (h.spread h.tb 6 linear)

/-- The conditions of R143. -/
def Header.validIds (h : Header) : Bool :=
  decide (h.fieldAt 6 ≤ 64) && decide (h.tb ≤ h.cb) && decide (h.cb ≤ 6) &&
  (List.range 6).all (fun k => decide (1 ≤ h.extent k) && decide (h.extent k ≤ 2 ^ h.width k)) &&
  decide (h.threads ≤ 1024) && decide ((h.threads + 31) / 32 ≤ h.warps) && decide (h.warps ≤ 32) &&
  decide (h.teamsPer = h.extents h.tb h.cb) && decide (h.teamsPer ≤ 16)

/-- The reserved bytes and bits of R199 and R200 are zero. -/
def Header.reservedZero (h : Header) : Bool :=
  decide (h.flags >>> 16 = 0) && decide (h.flags >>> 9 % 8 = 0) && decide (h.partition >>> 29 = 0) &&
  decide (h.u 54 1 < 4) && decide (h.u 56 8 = 0) && decide (h.affinity < 256) && decide (h.u 184 8 = 0)

/-- The conditions of R201 beside R143. -/
def Header.validRest (h : Header) : Bool :=
  decide (h.version = 1) && h.reservedZero &&
  decide (h.almanac.toNat + h.record.toNat + h.replay.toNat ≤ 1) &&
  (!h.almanac || (decide (1024 ≤ h.quantum) && decide (h.quantum ≤ 65536))) &&
  (!(h.record || h.replay) ||
    (decide (h.log ≠ 0) && decide (h.log.toNat % 8 = 0) && decide (h.log.toNat >>> 60 = 0))) &&
  decide (h.rfg + h.scrg + h.accg ≤ 96) && decide (h.accg % 2 = 0) && decide (h.accg ≤ 32) &&
  decide (h.warps * h.vregs ≤ 128 * h.rfg) && decide (h.slots ≤ 8) && decide (h.affinity ≠ 0) &&
  decide (h.entry.toNat % 8 = 0) && decide (h.entry.toNat >>> 60 = 0) &&
  decide (h.trapVec.toNat % 8 = 0) && decide (h.trapVec.toNat >>> 60 = 0) &&
  decide (h.region.toNat % 256 = 0) && decide (h.region.toNat >>> 60 = 0)

/-- A valid header (R143, R201). -/
def Header.valid (h : Header) : Bool := h.validIds && h.validRest

/-- The warp global identifier (R215). -/
def State.warpGlobal (s : State) (k w : Nat) : Nat :=
  (s.team k).linear * (s.launch (s.team k).launch).hdr.warps + w

/-- The launch header of a placed team. -/
def State.hdr (s : State) (k : Nat) : Header := (s.launch (s.team k).launch).hdr

/-- Is the team's launch in Almanac mode (R276)? -/
def State.almanac (s : State) (k : Nat) : Bool := (s.hdr k).almanac

/-! ## Journals (R195-R197) -/

/-- Final journal states (R196). -/
def JState.final : JState → Bool
  | .completed | .failed | .cancelled => true
  | .accepted | .pending | .running => false

/-- Changes an entry; an entry that becomes final raises the function's vector 1 (R196, R419). -/
def State.journalSet (s : State) (r : JRef) (st : JState) (status : Status) (detail : Option Nat) : State :=
  let p := s.port r.1
  if p.journal.any (fun e => e.seq == r.2 && !e.st.final) then
    let f (e : JEntry) : JEntry :=
      if e.seq = r.2 then { e with st := st, status := status, detail := detail.getD e.detail } else e
    let s := s.onPort r.1 (fun p => { p with journal := p.journal.map f })
    if st.final && decide (r.1 ≠ 0) then s.send (.msix r.1 1) else s
  else s

/-- Can the journal of a port take an entry (R197)? -/
def State.journalRoom (s : State) (port : Nat) : Bool :=
  let p := s.port port
  decide (p.tail - p.head < 65536) ||
    p.journal.any (fun e => e.seq == p.head && e.st.final)

/-- Adds an entry, dropping the one at JHEAD when the journal is full (R197). -/
def State.journalAdd (s : State) (port : Nat) (e : JEntry) : State :=
  s.onPort port (fun p =>
    let full := decide (65536 ≤ p.tail - p.head)
    { p with
      journal := (if full then p.journal.filter (fun x => x.seq != p.head) else p.journal) ++
        [{ e with seq := p.tail }]
      head := if full then p.head + 1 else p.head
      tail := p.tail + 1 })

/-! ## Contexts -/

/-- The key of a context number of a VF, through either VF of a joint context (R428). -/
def State.ctxKey (s : State) (vf num : Nat) : Option Nat :=
  (List.find? (fun (c : Nat × Context) => (c.2.vf == vf && c.2.num == num) || c.2.partner == some (vf, num))
    s.contexts).map (·.1)

/-- The scope cap of a context: the narrower of a joint context's two (R251, R429). -/
def State.scopeCap (s : State) (c : Context) : Nat :=
  match c.partner with
  | some p => min (s.vf c.vf).cap (s.vf p.1).cap
  | none => (s.vf c.vf).cap

/-- The strict bit of a context: the OR of a joint context's two (R251, R429). -/
def State.strictBit (s : State) (c : Context) : Bool :=
  match c.partner with
  | some p => (s.vf c.vf).strict || (s.vf p.1).strict
  | none => (s.vf c.vf).strict

/-- The set {ORIGIN of a VF}; a VF that holds no slot has none (R410). -/
def State.originOf (s : State) (vf : Nat) : Label := if (s.vf vf).ovalid then 1#16 <<< (s.vf vf).origin else 0

/-- The origins of a context (R429). -/
def State.origins_ (s : State) (c : Context) : Label :=
  match c.partner with
  | some p => s.originOf c.vf ||| s.originOf p.1
  | none => s.originOf c.vf

/-- The physical module id of this module (R386). -/
def State.self (s : State) : Nat := s.power.image.moduleId

/-! ## Event vectors (R203) -/

/-- Every pending launch of a context whose wait mask is satisfied becomes ready; a launch that is ready stays ready.
Launches made ready by one operation share its stamp, and go in order of their sequence numbers (R205). -/
def State.wakeLaunches (s : State) (ctx : Nat) : State :=
  let ev := (s.context ctx).events
  { s with
    launches := s.launches.map (fun l =>
      if l.2.ctx = ctx ∧ l.2.ready = none ∧ l.2.hdr.waitMask &&& ev = l.2.hdr.waitMask then
        (l.1, { l.2 with ready := some s.nextId })
      else l)
    nextId := s.nextId + 1 }

/-- One operation on an event vector (R203). -/
def State.eventOp (s : State) (ctx : Nat) (f : BitVec 256 → BitVec 256) : State :=
  (s.onContext ctx (fun c => { c with events := f c.events })).wakeLaunches ctx

/-- Sets or clears one bit (R184, R193). -/
def State.eventBit (s : State) (ctx n : Nat) (clr : Bool) : State :=
  s.eventOp ctx (fun e => if clr then e &&& ~~~(1#256 <<< n) else e ||| (1#256 <<< n))

/-- Is an access a plain read? -/
def AccOp.loads : AccOp → Bool
  | .load | .line | .label | .testGe _ => true
  | .store _ | .rmw _ _ _ | .cas _ _ | .flagAdd => false

/-- The bytes of a number, lowest first. -/
def bytesOf (n x : Nat) : List Byte := (List.range n).map (fun i => BitVec.ofNat 8 (x >>> (8 * i)))

/-- The number that bytes spell, lowest first. -/
def ofBytes : List Byte → Nat
  | [] => 0
  | b :: bs => b.toNat + 256 * ofBytes bs

/-- A key that no team has: the scratchpad of a sibling that has retired. -/
def goneTeam : Nat := 2 ^ 40

end Sys2Proof.Machine
end

