-- ==== Sys2Proof/Machine/Links.lean ====
section
/-! DEFINITION. Budgets of activities, links between modules, and flits toward other modules (R384-R389, R421-R423). -/

namespace Sys2Proof.Machine

/-! ## Budgets (R421-R423) -/

/-- The grant of an activity for a kind; a grant that the image does not list is unlimited (log 12). -/
def State.grantOf (s : State) (a k : Nat) : Nat :=
  match Cells.find? (Cells.get s.budgets a).grant k with
  | some g => g
  | none => s.power.image.grants.getD (5 * a + k) 0xFFFFFFFF

/-- The balance of an activity at an instance. -/
def State.balance (s : State) (a k inst : Nat) : Int :=
  (Cells.find? (Cells.get s.budgets a).balance (k * 65536 + inst)).getD (s.grantOf a k)

/-- May a request proceed: is its balance positive, or the grant unlimited? -/
def State.mayCharge (s : State) (a k inst : Nat) : Bool :=
  s.grantOf a k == 0xFFFFFFFF || decide (0 < s.balance a k inst)

/-- Charges a request in full. -/
def State.charge (s : State) (a k inst n : Nat) : State :=
  let b := Cells.get s.budgets a
  let key := k * 65536 + inst
  let b1 : Budget := { b with
    used := Cells.put b.used key (Cells.get b.used key + n)
    balance := Cells.put b.balance key (s.balance a k inst - n) }
  { s with budgets := Cells.put s.budgets a b1 }

/-- Notes that an activity waited in this period. -/
def State.waitCharge (s : State) (a : Nat) : State :=
  let b : Budget := { Cells.get s.budgets a with waited := true }
  { s with budgets := Cells.put s.budgets a b }

/-- Charges an activity if there is one to charge. -/
def State.chargeTo (s : State) (a : Option Nat) (k inst n : Nat) : State :=
  match a with
  | some a => s.charge a k inst n
  | none => s

/-! ## Links between modules (R386, R389) -/

/-- The port of this module toward another (R386). -/
def State.portTo (s : State) (m : Nat) : Nat := (m + 16 - s.self - 1) % 16

/-- Is the direct link to a module up? A module out of range or dead has none. -/
def State.linkUp (s : State) (m : Nat) : Bool :=
  decide (m < s.power.image.nModules) && m != s.self && (Cells.get s.fabric.links (s.portTo m)).up

/-- The way to a module: itself when the direct link is up, else the intermediary of R389, the live module with the lowest
id whose links to both ends are up (log 13); none when there is no path. -/
def State.via (s : State) (m : Nat) : Option Nat :=
  if s.fabric.dead.contains m then none
  else if s.linkUp m then some m
  else (List.range s.power.image.nModules).find? (fun k =>
    k != s.self && k != m && !s.fabric.dead.contains k && s.linkUp k &&
    !(s.fabric.farDown.contains (k, m) || s.fabric.farDown.contains (m, k)))

/-- Is there a path to a module? -/
def State.pathTo (s : State) (m : Nat) : Bool := (s.via m).isSome

/-! ## Flits to another module (R384, R388, R395) -/

/-- The network of a domain (R384). -/
def domNet : Dom → Nat
  | .sc => 0
  | .tso => 1
  | .co => 2
  | .rc => 3
  | .bu => 4

/-- Sends a flit: it takes the next end-to-end number of its destination and network, and stays until acknowledged. -/
def State.sendFlit (s : State) (dst vn : Nat) (lab : Label) (tokens : List (Nat × Nat)) (body : FlitBody) : State :=
  let key := dst * 8 + vn
  let n := Cells.get s.fabric.nextSeq key
  let f : Flit := { vn, src := s.self, dst, seq := n, lab, tokens, body }
  { s with fabric := { s.fabric with
      sent := s.fabric.sent ++ [f], nextSeq := Cells.put s.fabric.nextSeq key (n + 1) } }

end Sys2Proof.Machine
end

