-- ==== Sys2Proof/Machine/Mem.lean ====
section
/-! DEFINITION. Memory by place: bytes and labels at the home, the physical map, page tables and TLBs (R213-R228). -/

namespace Sys2Proof.Machine

/-! ## The physical map (R221, R222) -/

/-- First byte of a die's reserved range, counted within the die. -/
def dramUsable : Nat := 48000000000 - 67108864

/-- Does a device physical address lie in the DRAM of some die, outside its reserved range? -/
def inDram (pa : Nat) : Bool := decide (pa >>> 36 < 8) && decide (pa % 2 ^ 36 < dramUsable)

/-- A range that lies within the usable DRAM of one die. -/
def rangeInDram (pa n : Nat) : Bool :=
  decide (n = 0) || (inDram pa && inDram (pa + n - 1) && decide (pa >>> 36 = (pa + n - 1) >>> 36))

/-- The die that is home of a device physical address. -/
def homeDie (pa : Nat) : Nat := pa >>> 36 % 8

/-- The fold of R222, and of R413 over a host physical address. -/
def homeFold (pa : Nat) : Nat :=
  let x := pa >>> 7 % 2 ^ 33
  (x % 65536) ^^^ (x >>> 16 % 65536) ^^^ (x >>> 32)

/-- The home slice within the die. -/
def homeSlice (pa : Nat) : Nat := (homeFold pa * 96) >>> 16

/-- The set within the slice. -/
def homeSet (pa : Nat) : Nat := (pa >>> 7 % 2048) ^^^ (pa >>> 18 % 2048)

/-- The colour of a frame. -/
def homeColour (pa : Nat) : Nat := (pa >>> 12 % 64) ^^^ (pa >>> 23 % 64)

/-! ## Bytes at the home -/

/-- The 64-byte halves of a range. -/
def halvesOf (a n : Nat) : List Nat := (List.range ((a % 64 + n + 63) / 64)).map (· + a / 64)

/-- Moves a place on by some bytes. -/
def Place.add : Place → Nat → Place
  | .dev pa, n => .dev (pa + n)
  | .peer m v pa, n => .peer m v (pa + n)
  | .host v h, n => .host v (h + n)
  | .scr t o, n => .scr t (o + n)

/-- The key of a byte: one numbering of device memory, host memory, other modules' memories and scratchpad offsets. -/
def Place.key : Place → Nat
  | .dev a => a
  | .host _ a => 2 ^ 53 + a
  | .peer m _ a => (m + 2) * 2 ^ 53 + a
  | .scr _ a => 2 ^ 60 + a

/-- The number of the 128-byte line that holds a byte. -/
def Place.lineKey (p : Place) : Nat := p.key / 128

/-- The L1 key of a line held as lane-local (R215). -/
def privKey (line : Nat) : Nat := 2 ^ 60 + line

/-- The die that is home of a line (R219, R413). -/
def lineDie (line : Nat) : Nat :=
  if line < 2 ^ 46 then homeDie (128 * line) else homeFold (128 * (line - 2 ^ 46)) % 8

/-- The set of its die's L2 that a line belongs to, counted over the slices (R222, R413). -/
def lineSet (line : Nat) : Nat :=
  let a := 128 * (line % 2 ^ 46)
  homeSlice a * 2048 + homeSet a

/-- Do two ranges share a byte? -/
def Place.overlaps : Place → Nat → Place → Nat → Bool
  | .dev a, n, .dev b, m => decide (a < b + m) && decide (b < a + n)
  | .peer x _ a, n, .peer y _ b, m => x == y && decide (a < b + m) && decide (b < a + n)
  | .host _ a, n, .host _ b, m => decide (a < b + m) && decide (b < a + n)
  | .scr x a, n, .scr y b, m => x == y && decide (a < b + m) && decide (b < a + n)
  | _, _, _, _ => false

/-- The little-endian value of `n` bytes at the home. Of another module's memory it is what has been read here for the
hardware (log 73). -/
def State.readHome (s : State) (p : Place) (n : Nat) : Nat :=
  match p with
  | .dev pa => Cells.readLE s.mem pa n
  | .host _ h => if Cells.get s.hostHalves (h / 64) = .invalid then Cells.readLE s.hostMem h n
                 else Cells.readLE s.hostData h n
  | .scr t o => Cells.readLE (s.team t).scratch o n
  | .peer _ _ pa => Cells.readLE (Cells.get s.remote p.lineKey).data (pa % 128) n

/-- The label of the unit that holds a place (R216, R412). -/
def State.unitLab (s : State) (p : Place) : Label :=
  match p with
  | .dev pa => Cells.get s.frameLab (pa / 4096)
  | .host vf _ => s.originOf vf
  | .scr t o => Cells.get (s.team t).scratchLab (o / 128)
  | .peer _ _ _ => (Cells.get s.remote p.lineKey).lab

/-- Does a group owe a frame its pre-image before a write (R403)? -/
def Group.owesPreImage (g : Group) (frame : Nat) : Bool :=
  decide (0 < g.cutN) && g.st != .rollback &&
  g.ranges.any (fun r => decide (r.1 ≤ 4096 * frame) && decide (4096 * frame < r.1 + r.2)) &&
  !(g.pre.any (fun i => i.n == g.cutN && i.pa == 4096 * frame))

/-- A frame's contents and label, kept as a pre-image for a write that does not wait for one (R403; log 63). -/
def State.keepPreImage (s : State) (g : Group) (frame : Nat) : Group :=
  if g.owesPreImage frame then
    { g with pre := g.pre ++ [{ n := g.cutN, pa := 4096 * frame, state := false, vf := 0, held := none,
                                data := (List.range 4096).map (fun i => Cells.get s.mem (4096 * frame + i)),
                                lab := Cells.get s.frameLab frame }] }
  else g

/-- Records that a frame was written since the last cut of every group (R401). -/
def State.noteWrite (s : State) (pa : Nat) : State :=
  { s with fabric := { s.fabric with
      groups := s.fabric.groups.map (fun g =>
        let h := s.keepPreImage g.2 (pa / 4096)
        (g.1, if h.written.contains (pa / 4096) then h else { h with written := h.written ++ [pa / 4096] })) } }

/-! ## Host halves (R413, R414) -/

/-- Obtains a host half for a read (R413): Invalid becomes Shared, with the host's bytes. -/
def State.hostShare (s : State) (half : Nat) : State :=
  if Cells.get s.hostHalves half = .invalid then
    { s with
      hostHalves := Cells.set s.hostHalves half .shared
      hostData := Cells.writeLE s.hostData (64 * half) 64 (Cells.readLE s.hostMem (64 * half) 64) }
  else s

/-- Obtains a host half for a write (R413). -/
def State.hostOwn (s : State) (half : Nat) : State :=
  let s := s.hostShare half
  if Cells.get s.hostHalves half = .shared then { s with hostHalves := Cells.set s.hostHalves half .clean } else s

/-- Writes a dirty half back to the host and leaves it clean (R413). -/
def State.hostWriteBack (s : State) (half : Nat) : State :=
  if Cells.get s.hostHalves half = .dirty then
    { s with
      hostMem := Cells.writeLE s.hostMem (64 * half) 64 (Cells.readLE s.hostData (64 * half) 64)
      hostHalves := Cells.set s.hostHalves half .clean }
  else s

/-- Notes in an origin slot that the host has refused a write-back (R414, R427). -/
def State.refuseWriteBack (s : State) (half : Nat) : State :=
  let s := { s with hostFail := s.hostFail.filter (· != half) }
  let v := s.vf (Cells.get s.hostBy half)
  if !v.ovalid || (s.origin v.origin).hostwb then s
  else (s.onOrigin v.origin (fun o => { o with hostwb := true })).send (.msix 0 2)

/-- Drops the copies of a line that L1s hold. -/
def State.dropCopies (s : State) (line : Nat) : State :=
  { s with
    cores := s.cores.map (fun c => (c.1, { c.2 with l1 := Cells.erase c.2.l1 line }))
    updates := s.updates.filter (fun u => u.pa / 128 != line) }

/-- Gives a host half up at its home, after its dirty data; its L1 copies go with it. A write-back that the host refuses
leaves it (R413, R414). -/
def State.hostDrop (s : State) (half : Nat) : State :=
  if Cells.get s.hostHalves half = .dirty && s.hostFail.contains half then s.refuseWriteBack half
  else
    let s := (s.hostWriteBack half).dropCopies (2 ^ 46 + half / 2)
    { s with
      hostHalves := Cells.erase s.hostHalves half
      poison := if Cells.get s.hostHalves half = .invalid then s.poison else s.poison.filter (· != 2 ^ 46 + half / 2)
      hostBy := Cells.erase s.hostBy half
      hostData := Cells.clear s.hostData (64 * half) 64 }

/-! ## L2 (R219, R230, R421) -/

/-- Is a line in its home slice? -/
def State.inL2 (s : State) (line : Nat) : Bool :=
  (Cells.get (s.die (lineDie line)).l2 (lineSet line)).any (fun l => l.line == line)

/-- The DRAM channel group of a line: die × 8 + group (log 34). -/
def dramGroup (line : Nat) : Nat := lineDie line * 8 + line % 8

/-- Takes a line out of its slice, after its dirty data: a host line's goes to the host, and what the host refuses stays
(R219, R413, R414). A write-back to DRAM is charged to the activity that caused it. -/
def State.l2Evict (s : State) (act : Option Nat) (l : L2Line) : State :=
  let drop (s : State) : State := s.onDie (lineDie l.line) (fun d =>
    { d with l2 := Cells.modify d.l2 (lineSet l.line) (fun ls => ls.filter (fun x => x.line != l.line)) })
  if l.line < 2 ^ 46 then drop (if l.dirty then s.chargeTo act 0 (dramGroup l.line) 2 else s)
  else
    let half := 2 * (l.line - 2 ^ 46)
    let s := (s.hostDrop half).hostDrop (half + 1)
    if Cells.get s.hostHalves half = .invalid && Cells.get s.hostHalves (half + 1) = .invalid then drop s else s

/-- Makes room for a line in its set: the oldest line that can go leaves when all 8 ways are taken (log 9). -/
def State.l2Room (s : State) (act : Option Nat) (line : Nat) : State :=
  (Cells.get (s.die (lineDie line)).l2 (lineSet line)).foldl (fun (s : State) l =>
    if (Cells.get (s.die (lineDie line)).l2 (lineSet line)).length < 8 then s else s.l2Evict act l) s

/-- Who moves data through the caches: the owner handle of its context, and the activity that pays. -/
structure Who where
  own : Nat := 0
  act : Option Nat := none
  deriving DecidableEq, Repr, Inhabited

/-- A context as a mover of data: its handle and its lead VF. -/
def State.whoOf (s : State) (ctx : Nat) : Who :=
  { own := (s.context ctx).handle.getD 0, act := some (s.context ctx).vf }

/-- An access reaches a line in its home slice: it is there afterwards, the newest of its set; a write leaves it dirty
(R219). A fill of a device line is charged as DRAM transfers (R421). -/
def State.l2Touch (s : State) (who : Who) (line : Nat) (write : Bool) : State :=
  let old := (Cells.get (s.die (lineDie line)).l2 (lineSet line)).find? (fun l => l.line == line)
  let s := if old.isSome then s
    else (if line < 2 ^ 46 then s.chargeTo who.act 0 (dramGroup line) 2 else s).l2Room who.act line
  let l := old.getD { line }
  let new : L2Line := { line, dirty := l.dirty || write, owner := if who.own = 0 then l.owner else who.own }
  s.onDie (lineDie line) (fun d => { d with l2 := Cells.modify d.l2 (lineSet line) (fun ls =>
    ls.filter (fun x => x.line != line) ++ [new]) })

/-- The lines of a range. -/
def linesOf (a n : Nat) : List Nat := (List.range ((a % 128 + n + 127) / 128)).map (· + a / 128)

/-- An access reaches the lines of a range at their homes. The scratchpad and other modules have none here. -/
def State.l2Reach (s : State) (who : Who) (p : Place) (n : Nat) (write : Bool) : State :=
  match p with
  | .dev _ | .host _ _ => (linesOf p.key n).foldl (fun (s : State) l => s.l2Touch who l write) s
  | .peer _ _ _ | .scr _ _ => s

/-- The dirty lines of a frame are written back to DRAM and stay clean (R418). -/
def State.l2Clean (s : State) (pick : Nat → Bool) : State :=
  { s with dies := s.dies.map (fun d => (d.1, { d.2 with l2 := d.2.l2.map (fun x =>
      (x.1, x.2.map (fun (l : L2Line) => if pick l.line then { l with dirty := false } else l))) })) }

/-- Drops lines from L2 without writing them back. -/
def State.l2Drop (s : State) (pick : Nat → Bool) : State :=
  { s with dies := s.dies.map (fun d => (d.1, { d.2 with l2 := (d.2.l2.map (fun x =>
      (x.1, x.2.filter (fun (l : L2Line) => !pick l.line)))).filter (fun x => !x.2.isEmpty) })) }

/-! ## Writing at the home -/

/-- Writes `n` bytes at the home and widens the unit's label (R28, R228). Host halves become Owned dirty (R413). Of another
module's memory it writes what has been read here, which is how an Almanac warp reads its own buffer back (R278; log 73). -/
def State.writeHome (s : State) (p : Place) (n : Nat) (x : Nat) (lab : Label) (who : Who := {}) : State :=
  match p with
  | .dev pa =>
    let s := (s.noteWrite pa).l2Reach who p n true
    { s with
      mem := Cells.writeLE s.mem pa n x
      frameLab := Cells.modify s.frameLab (pa / 4096) (· ||| lab) }
  | .host vf h =>
    (halvesOf h n).foldl (fun (s : State) k =>
      { s with hostHalves := Cells.set s.hostHalves k .dirty, hostBy := Cells.put s.hostBy k vf })
      { s with hostData := Cells.writeLE s.hostData h n x }
  | .scr t o =>
    if (Cells.find? s.teams t).isNone then s
    else s.onTeam t (fun tm => { tm with
      scratch := Cells.writeLE tm.scratch o n x
      scratchLab := Cells.modify tm.scratchLab (o / 128) (· ||| lab) })
  | .peer _ _ pa => { s with remote := Cells.adjust s.remote p.lineKey (fun l =>
      { l with data := Cells.writeLE l.data (pa % 128) n x, lab := l.lab ||| lab }) }

/-- Obtains every half of a range, for a read or a write, at its home slice. -/
def State.hostGet (s : State) (p : Place) (n : Nat) (own : Bool) (who : Who := {}) : State :=
  match p with
  | .host _ h => ((halvesOf h n).foldl (fun s k => if own then s.hostOwn k else s.hostShare k) s).l2Reach who p n own
  | _ => s

/-! ## Line copies in L1 (R215, R218, R232) -/

/-- The bytes of a line at its home, by offset. -/
def State.lineBytes (s : State) (p : Place) : Cells Byte :=
  let base := match p with | .dev a | .peer _ _ a | .host _ a | .scr _ a => a / 128 * 128
  match p with
  | .dev _ => (s.mem.filter (fun c => decide (base ≤ c.1) && decide (c.1 < base + 128))).map (fun c => (c.1 - base, c.2))
  | .host v _ => Cells.ofFn 0 128 (fun i => BitVec.ofNat 8 (s.readHome (.host v (base + i)) 1))
  | .peer _ _ _ | .scr _ _ => []

/-- The generation stamp that a core's filters give a line (R232). -/
def State.genOf (s : State) (core : Nat) : Nat := (s.die (dieOf core)).gen

/-- The home place of a lane-local line, by its key without the mark of `privKey`. -/
def placeOfLine (line member : Nat) : Place :=
  if line < 2 ^ 46 then .dev (128 * line) else .host member (128 * (line - 2 ^ 46))

/-- The cores whose L1 holds a line as shared. -/
def State.sharers (s : State) (line : Nat) : List Nat :=
  (s.cores.filter (fun c => (Cells.find? c.2.l1 line).isSome)).map (·.1)

/-- Bytes written into a line from an offset on. -/
def L1Line.put (l : L1Line) (off : Nat) (bytes : List Byte) : L1Line :=
  { l with data := (bytes.zipIdx).foldl (fun d b => Cells.set d (off + b.2) b.1) l.data }

/-- Writes bytes into a core's copy of a line, stamps it, and widens the label of a peer's line (R218, R232, R395). -/
def State.l1Write (s : State) (core key : Nat) (bytes : List Byte) (lab : Label := 0) : State :=
  s.onCore core (fun c =>
    { c with l1 := Cells.adjust c.l1 (key / 128) (fun l =>
        { l.put (key % 128) bytes with gen := s.genOf core, lab := l.lab ||| lab }) })

/-- The bytes of a lane-local line that its core has not written back go to their home, and to the home's sharers (R215). -/
def State.privBack (s : State) (line : Nat) (l : L1Line) : State :=
  (List.range 128).foldl (fun (s : State) i =>
    if l.dirty.getLsbD i then
      let p := (placeOfLine line l.member).add i
      let b := Cells.get l.data i
      let s := (s.hostGet p 1 true).writeHome p 1 b.toNat 0 { own := l.owner }
      (s.sharers line).foldl (fun (s : State) c => s.l1Write c p.key [b]) s
    else s) s

/-- The line that a full L1 gives up: one marked early first, one marked late last, the lowest of its kind (log 9). -/
def L1Line.victim (l1 : Cells L1Line) : Option (Nat × L1Line) :=
  let first (m : Evict) : Option (Nat × L1Line) := List.find? (fun (x : Nat × L1Line) => x.2.mark == m) l1
  (first .early).orElse (fun _ => (first .plain).orElse (fun _ => first .late))

/-- Puts a line into an L1 of 2,048 lines, after the line that makes room for it (R215, R218). -/
def State.l1Put (s : State) (core key : Nat) (l : L1Line) : State :=
  let l1 := (s.core core).l1
  let s := if (Cells.find? l1 key).isSome || decide (l1.length < 2048) then s
    else match L1Line.victim l1 with
      | none => s
      | some v =>
        let s := s.onCore core (fun c => { c with l1 := Cells.erase c.l1 v.1 })
        if v.2.dirty = 0 then s else s.privBack (v.1 - 2 ^ 60) v.2
  s.onCore core (fun c => { c with l1 := Cells.put c.l1 key { l with gen := s.genOf core } })

/-- Brings a line of this module's homes into a core's L1 (R218). The fill holds every update that was on its way. -/
def State.l1Fill (s : State) (core : Nat) (p : Place) (mark : Evict) (who : Who) : State :=
  let line := p.lineKey
  let s := (s.hostGet (placeOfLine line 0) 128 false who).l2Reach who p 1 false
  let l : L1Line := { data := s.lineBytes p, mark, owner := who.own }
  ({ s with updates := s.updates.filter (fun u => !(u.core == core && u.pa / 128 == line)) }).l1Put core line l

/-- Brings a lane-local line into a core's L1 (R215, R220). -/
def State.privFill (s : State) (core : Nat) (p : Place) (mark : Evict) (who : Who) : State :=
  let line := p.lineKey
  if (Cells.find? (s.core core).l1 (privKey line)).isSome then s
  else
    let s := (s.hostGet (placeOfLine line 0) 128 false who).l2Reach who p 1 false
    let l : L1Line := { data := s.lineBytes p, mark, owner := who.own, member := match p with | .host v _ => v | _ => 0 }
    s.l1Put core (privKey line) l

/-- Puts the bytes of a line of another module into a core's L1, with their label (R219, R395). -/
def State.peerFill (s : State) (core : Nat) (p : Place) (x : Nat) (lab : Label) (mark : Evict) (own : Nat) : State :=
  s.l1Put core p.lineKey { data := Cells.ofFn 0 128 (fun i => BitVec.ofNat 8 (x >>> (8 * i))), mark, owner := own, lab }

/-! ## Forwarding (R218, R232-R236, R395) -/

/-- Does the instance of a scope, taken for a lane of a team, contain the lanes of a core (R235)? What a retired team left
behind counts every core of the package. -/
def State.inScope (s : State) (scp : Scope) (team core : Nat) : Bool :=
  let t := s.team team
  (Cells.find? s.teams team).isNone ||
  match scp with
  | .team => t.core == core
  | .clus => s.teams.any (fun x => x.2.launch == t.launch && x.2.cluster == t.cluster && x.2.core == core)
  | .die => dieOf t.core == dieOf core
  | .pkg | .fab | .sys => true

/-- The agent that sends the updates of a byte: the home slice of its line (R384). -/
def updateHome (key : Nat) : Nat := lineDie (key / 128) * 96 + homeSlice (128 * (key / 128 % 2 ^ 46))

/-- Applies to a core's L1 the updates on their way to it from the home slice of a range, oldest first, if one of them is for
the range: they arrive in sending order (R384). -/
def State.applyBefore (s : State) (core key n : Nat) : State :=
  let hits := s.updates.any (fun u => u.core == core && decide (u.pa < key + n) && decide (key < u.pa + u.bytes.length))
  let mine (u : Update) : Bool := hits && u.core == core && updateHome u.pa == updateHome key
  let s1 := s.updates.foldl (fun (t : State) u => if mine u then t.l1Write core u.pa u.bytes u.lab else t) s
  { s1 with updates := s1.updates.filter (fun u => !mine u) }

/-- Notes that a die forwards an update in this budget period (R232). -/
def State.noteForward (s : State) (die : Nat) : State := s.onDie die (fun d => { d with forwarded := true })

/-- Sends an update to each other module that may keep the line, on VN6 (R395). -/
def State.forwardOut (s : State) (id key : Nat) (bs : List Byte) : State :=
  s.fabric.peerLines.foldl (fun (s : State) x =>
    if x.1 = key / 128 then
      (s.noteForward (lineDie (key / 128))).sendFlit x.2 6 (s.unitLab (.dev key)) [(s.self, id)] (.update (BitVec.ofNat 64 key) bs)
    else s) s

/-- A sleeping core records a line whose update it misses, once for each domain; 4,096 lines fill a filter (R233). -/
def Sleep.miss (z : Sleep) (line : Nat) (dom : Dom) : Sleep :=
  if z.lines.contains (line, dom) then z
  else if decide (4096 ≤ (z.lines.filter (fun l => l.2 == dom)).length) then { z with overflow := true }
  else { z with lines := z.lines ++ [(line, dom)] }

/-- Who writes, as the holders of a line see it (R218, R236): the number of the write, its core and team, its domain and
scope, whether it passes its own L1 by, whether it raises a completion object, and who moves the data. -/
structure Writer where
  id : Nat := 0
  core : Nat := 0
  team : Nat := goneTeam
  dom : Dom := .sc
  scp : Scope := .sys
  nol1 : Bool := true
  flag : Bool := false
  who : Who := {}
  deriving DecidableEq, Repr, Inhabited

/-- Forwards a write to the other holders of its line (R218, R236): at once to the sharers within the scope of an SC or
TSO write and to the writer's own L1, else as an update on its way. A sleeping core records the line (R233). -/
def State.forward (s : State) (w : Writer) (key n x : Nat) (lab : Label := 0) : State :=
  let bs := bytesOf n x
  let s := s.forwardOut w.id key bs
  let sh := s.sharers (key / 128)
  let s := if sh.isEmpty then s else s.noteForward (lineDie (key / 128))
  sh.foldl (fun s c =>
    match (s.core c).sleep with
    | some z => s.onCore c (fun y => { y with sleep := some (z.miss (key / 128) w.dom) })
    | none =>
      if (c == w.core && !w.nol1) || ((w.dom == .sc || w.dom == .tso) && s.inScope w.scp w.team c) then
        (s.applyBefore c key n).l1Write c key bs lab
      else { s with updates := s.updates ++
        [{ id := w.id, team := w.team, core := c, pa := key, bytes := bs, dom := w.dom, scp := w.scp, flag := w.flag, lab }] }) s

/-- Writes at the home and forwards to the holders of the line: what every write to memory does (R218, R228). A peer's
memory is written by its own home. -/
def State.store (s : State) (w : Writer) (p : Place) (n x : Nat) (lab : Label) : State :=
  let s := (s.hostGet p n true w.who).writeHome p n x lab w.who
  match p with
  | .dev _ | .host _ _ => s.forward w p.key n x
  | .peer _ _ _ | .scr _ _ => s

/-! ## Zeroing -/

/-- Zeroes n bytes of whole frames, and clears their labels and any poison; no copy of them stays anywhere (R374). -/
def State.zeroRange (s : State) (base n : Nat) : State :=
  let s := s.l2Drop (fun l => decide (base / 128 ≤ l) && decide (l < (base + n) / 128))
  { s with
    mem := Cells.clear s.mem base n
    frameLab := Cells.clear s.frameLab (base / 4096) (n / 4096)
    poison := s.poison.filter (fun l => decide (128 * l < base) || decide (base + n ≤ 128 * l))
    updates := s.updates.filter (fun u => decide (u.pa < base) || decide (base + n ≤ u.pa))
    halves := Cells.clear s.halves (base / 64) (n / 64)
    cores := s.cores.map (fun c => (c.1, { c.2 with
      l1 := Cells.clear (Cells.clear c.2.l1 (base / 128) (n / 128)) (privKey (base / 128)) (n / 128) })) }

/-- Zeroes a frame and clears its label (R370, R374, R424). -/
def State.zeroFrame (s : State) (frame : Nat) : State := (s.noteWrite (4096 * frame)).zeroRange (4096 * frame) 4096

/-! ## Page tables (R223-R226) -/

/-- Aperture of a leaf. -/
def leafApt (e : DWord) : Nat := field e 9 8
/-- Bytes that a leaf of a level maps. -/
def levelBytes : Nat → Nat
  | 0 => 4096
  | 1 => 2097152
  | _ => 1073741824

/-- The frame number bits of a leaf as an address. -/
def leafBase (e : DWord) : Nat := field e 51 12 * 4096

/-- Is a leaf malformed (R224, R412)? `joint` says whether the context is joint. -/
def leafBad (e : DWord) (level : Nat) (joint : Bool) : Bool :=
  decide (field e 63 61 ≠ 0) || bit e 11 || decide (5 ≤ field e 54 52) || leafApt e == 3 ||
  (match leafApt e with
   | 0 => decide (field e 60 57 ≠ 0)
   | 2 => decide (1 < field e 60 57) || (decide (field e 60 57 = 1) && !joint)
   | _ => false) ||
  (bit e 7 && level != 0) || decide (3 ≤ level) || (bit e 3 && !bit e 2) ||
  (level == 1 && decide (field e 20 12 ≠ 0)) || (level == 2 && decide (field e 29 12 ≠ 0)) ||
  (leafApt e == 0 && !rangeInDram (leafBase e) (levelBytes level))

/-- Is a non-leaf entry malformed: a bit other than VALID, LEAF and NEXT is set, or it stands at level 0? -/
def nodeBad (e : DWord) (level : Nat) : Bool :=
  decide (field e 63 52 ≠ 0) || decide (field e 11 2 ≠ 0) || level == 0

/-- The index of a level in a virtual address (R223). -/
def walkIndex (va : Nat) (level : Nat) : Nat := va >>> (12 + 9 * level) % 512

/-- Walks from a table down: the leaf, its level and its own address, or whether the failing entry is malformed. -/
def walk (mem : Memory) (joint : Bool) (va : Nat) : Nat → Nat → Except Bool (DWord × Nat × Nat)
  | level, table =>
    let at_ := table + 8 * walkIndex va level
    let e := BitVec.ofNat 64 (Cells.readLE mem at_ 8)
    if !bit e 0 then .error false
    else if bit e 1 then (if leafBad e level joint then .error true else .ok (e, level, at_))
    else if nodeBad e level then .error true
    else match level with
      | 0 => .error true
      | l + 1 => walk mem joint va l (leafBase e)

/-- The non-leaf entries that a walk from a table passes: level, span and place of each next table (R227). -/
def walkPath (mem : Memory) (va : Nat) : Nat → Nat → List (Nat × Nat × Nat)
  | 0, _ => []
  | l + 1, table =>
    let e := BitVec.ofNat 64 (Cells.readLE mem (table + 8 * walkIndex va (l + 1)) 8)
    if !bit e 0 || bit e 1 || nodeBad e (l + 1) then []
    else (l, va >>> (21 + 9 * l), leafBase e) :: walkPath mem va l (leafBase e)

/-- What an access needs of its leaf (R224, R265). -/
inductive Need where
  | read | write | rmw | flag | fetch
  deriving DecidableEq, Repr

/-- RD, WR and EX (R224). -/
def Need.permits : Need → DWord → Bool
  | .read, e => bit e 2
  | .write, e => bit e 3
  | .rmw, e | .flag, e => bit e 2 && bit e 3
  | .fetch, e => bit e 4

/-- Accesses that set DIRTY (R226). -/
def Need.stores : Need → Bool
  | .write | .rmw | .flag => true
  | .read | .fetch => false

/-! ## TLBs (R225, R227, R356) -/

/-- Keeps at most `n` entries, dropping the oldest (log 9). -/
def keepLast {α : Type} (n : Nat) (xs : List α) : List α := xs.drop (xs.length - n)

/-- The entry that serves a page. -/
def tlbFind (t : List TlbEnt) (ctx vpage : Nat) : Option TlbEnt :=
  t.find? (fun e => e.ctx == ctx && decide (e.vpage ≤ vpage) && decide (vpage < e.vpage + e.pages))

/-- Drops the entries of a context that overlap a range of pages. -/
def tlbDrop (t : List TlbEnt) (ctx vpage pages : Nat) : List TlbEnt :=
  t.filter (fun e => !(e.ctx == ctx && decide (e.vpage < vpage + pages) && decide (vpage < e.vpage + e.pages)))

/-- The entry that a leaf fills (R225). -/
def tlbOf (ctx vpage : Nat) (leaf : DWord) (level : Nat) : TlbEnt :=
  let pages := if bit leaf 7 then 16 else levelBytes level / 4096
  { ctx, vpage := vpage / pages * pages, pages, leaf, level }

/-- The set of an L2 TLB that an entry belongs to, one of 1,024 (log 9). -/
def TlbEnt.set (e : TlbEnt) : Nat := e.vpage / e.pages % 1024

/-- Puts an entry into an L2 TLB of 16 ways, after the oldest of a full set (R227). -/
def tlbPut2 (t : List TlbEnt) (e : TlbEnt) : List TlbEnt :=
  let t := tlbDrop t e.ctx e.vpage e.pages
  match t.filter (fun x => x.set == e.set) with
  | [] => t ++ [e]
  | old :: rest => if rest.length < 15 then t ++ [e] else t.erase old ++ [e]

/-- Drops a page of a context from the TLBs that serve a core (R356). -/
def State.tlbForget (s : State) (core ctx vpage : Nat) : State :=
  (s.onCore core (fun c => { c with tlb := tlbDrop c.tlb ctx vpage 1 })).onDie (dieOf core)
    (fun d => { d with tlb := tlbDrop d.tlb ctx vpage 1 })

/-- Fills both TLBs of a core. -/
def State.tlbFill (s : State) (core : Nat) (e : TlbEnt) : State :=
  (s.onCore core (fun c => { c with tlb := keepLast 96 (tlbDrop c.tlb e.ctx e.vpage e.pages ++ [e]) })).onDie (dieOf core)
    (fun d => { d with tlb := tlbPut2 d.tlb e })

/-- Sets bits of a page-table entry: an atomic OR at system scope (R226). -/
def State.pteOr (s : State) (at_ : Nat) (bits : Nat) : State :=
  s.store {} (.dev at_) 8 (Cells.readLE s.mem at_ 8 ||| bits) 0

/-- Where a die's walk cache lets a walk start: the lowest table that it holds for the address (R227). -/
def walkStart (ws : List WalkEnt) (ctx va root : Nat) : Nat × Nat :=
  let hit (l : Nat) : Option WalkEnt := ws.find? (fun w => w.ctx == ctx && w.level == l && w.span == va >>> (21 + 9 * l))
  match ((List.range 4).filterMap hit).head? with
  | some w => (w.level, w.table)
  | none => (4, root)

/-- Walks for a core: from the walk cache of its die, and again from the root where that walk ends in a fault, since no
cache keeps such an end. The non-leaf entries of a walk that finds a leaf are kept, the newest 4,096 (R227; log 9). -/
def State.walkFor (s : State) (core ctx va : Nat) : State × Except Bool (DWord × Nat × Nat) :=
  let c := s.context ctx
  let joint := c.partner.isSome
  let start := walkStart (s.die (dieOf core)).walks ctx va c.root
  let from_ := match walk s.mem joint va start.1 start.2 with
    | .ok _ => start
    | .error _ => (4, c.root)
  match walk s.mem joint va from_.1 from_.2 with
  | .error m => (s, .error m)
  | .ok r =>
    let path := (walkPath s.mem va from_.1 from_.2).map (fun x => ({ ctx, level := x.1, span := x.2.1, table := x.2.2 } : WalkEnt))
    let keep (ws : List WalkEnt) : List WalkEnt :=
      ws.filter (fun w => !(path.any (fun p => p.ctx == w.ctx && p.level == w.level && p.span == w.span))) ++ path
    (s.onDie (dieOf core) (fun d => { d with walks := keepLast 4096 (keep d.walks) }), .ok r)

/-- The leaf that serves a page for an access, from the TLBs or by a walk that fills them (R226, R227). A store-type
access through an entry with DIRTY = 0 walks again. -/
def State.leafFor (s : State) (core ctx : Nat) (va : Nat) (need : Need) : State × Except Bool TlbEnt :=
  let vpage := va >>> 12
  let hit := (tlbFind (s.core core).tlb ctx vpage).orElse (fun _ => tlbFind (s.die (dieOf core)).tlb ctx vpage)
  match hit with
  | some e =>
    if need.stores && need.permits e.leaf && !bit e.leaf 6 then
      match s.walkFor core ctx va with
      | (s, .error m) => (s.tlbForget core ctx vpage, .error m)
      | (s, .ok (leaf, level, at_)) =>
        let bits := if need.permits leaf then 0x60 else 0x20
        let leaf := leaf ||| BitVec.ofNat 64 bits
        ((s.pteOr at_ bits).tlbFill core (tlbOf ctx vpage leaf level), .ok (tlbOf ctx vpage leaf level))
    else (s, .ok e)
  | none =>
    match s.walkFor core ctx va with
    | (s, .error m) => (s, .error m)
    | (s, .ok (leaf, level, at_)) =>
      let bits := if need.stores && need.permits leaf then 0x60 else 0x20
      let leaf := leaf ||| BitVec.ofNat 64 bits
      ((s.pteOr at_ bits).tlbFill core (tlbOf ctx vpage leaf level), .ok (tlbOf ctx vpage leaf level))

/-! ## Translation (R224, R394, R412) -/

/-- Where a virtual address of a leaf lies in the leaf's aperture. -/
def leafAddr (e : TlbEnt) (va : Nat) : Nat :=
  let size := e.pages * 4096
  leafBase e.leaf / size * size + va % size

/-- Is a context enrolled in a checkpoint group (R397)? -/
def State.enrolled (s : State) (ctx : Nat) : Bool := s.fabric.groups.any (fun g => g.2.ctx == ctx && g.2.st != .enrolling)

/-- The mark of an access to a dead module, which ends the context instead of faulting (R397): this plus the module. -/
def lostKind : Nat := 256

/-- Where a leaf leads, or the kind of its recoverable fault with the malformed flag (R224 orders 2 to 4, R349). `drop`
takes a leaf that fails out of the TLBs (R356). -/
def State.leafPlace (s : State) (ctx a : Nat) (need : Need) (e : TlbEnt) (drop : State → State) :
    State × Except (Nat × Bool) (Place × DWord) :=
  let bad (k : Nat) : State × Except (Nat × Bool) (Place × DWord) := (drop s, .error (k, false))
  let c := s.context ctx
  if !need.permits e.leaf then bad 2
  else match leafApt e.leaf with
    | 0 => (s, .ok (.dev (leafAddr e a), e.leaf))
    | 1 =>
      if need = .fetch then bad 2
      else if need = .rmw && !bit e.leaf 10 then bad 3
      else
        let pid := field e.leaf 60 57
        match Cells.find? (s.vf c.vf).peers pid with
        | none => bad 2
        | some (m, pvf) =>
          let w := s.fabric.windows.find? (fun w => w.module == m && w.vf == pvf)
          let base := (w.map (·.base)).getD 0
          let size := (w.map (·.size)).getD 0
          if s.fabric.dead.contains m && !s.enrolled ctx then (s, .error (lostKind + m, false))
          else if !s.pathTo m || decide (size < leafBase e.leaf / (e.pages * 4096) * (e.pages * 4096) + e.pages * 4096)
          then bad 2
          else (s, .ok (.peer m pvf (base + leafAddr e a), e.leaf))
    | _ =>
      let member := if field e.leaf 60 57 = 1 then (c.partner.map (·.1)).getD c.vf else c.vf
      let h := leafAddr e a
      let half := Cells.get s.hostHalves (h / 64)
      if s.hostFail.contains (h / 64) && (half == .invalid || (half == .shared && need.stores)) then
        ({ s with hostFail := s.hostFail.filter (· != h / 64) }, .error (5, false))
      else (s, .ok (.host member h, e.leaf))

/-- The place an address translates to for a core, or its recoverable fault (R224, R349). -/
def State.translate (s : State) (core ctx : Nat) (va : DWord) (need : Need) :
    State × Except (Nat × Bool) (Place × DWord) :=
  match s.leafFor core ctx va.toNat need with
  | (s, .error m) => (s, .error (1, m))
  | (s, .ok e) => s.leafPlace ctx va.toNat need e (fun t => t.tlbForget core ctx (va.toNat >>> 12))

/-- The place of an address that the device itself reaches for a context, walking the page table (R192, R286). -/
def State.walkPlace (s : State) (ctx : Nat) (va : DWord) (need : Need) : State × Option Place :=
  let c := s.context ctx
  if field va 63 57 ≠ 0 then (s, none)
  else match walk s.mem c.partner.isSome va.toNat 4 c.root with
    | .error _ => (s, none)
    | .ok (leaf, level, at_) =>
      if !need.permits leaf then (s.pteOr at_ 0x20, none)
      else
        let bits := if need.stores then 0x60 else 0x20
        match (s.pteOr at_ bits).leafPlace ctx va.toNat need (tlbOf ctx (va.toNat >>> 12) leaf level) id with
        | (s, .ok (p, _)) => (s, some p)
        | (s, .error _) => (s, none)

/-! ## What is still to be performed (R218, R242, R243, R245) -/

/-- Does the instance of a scope, taken for a team, contain another module: at fabric scope one that a valid peer entry of its VF
names (R235, R391)? What a retired team left behind counts every module. -/
def State.moduleInScope (s : State) (scp : Scope) (team m : Nat) : Bool :=
  match scp with
  | .team | .clus | .die | .pkg => false
  | .fab => (Cells.find? s.teams team).isNone ||
      (s.vf (s.context (s.team team).ctx).vf).peers.any (fun p => p.2.1 == m)
  | .sys => true

/-- Is an update of a write still on its way to a core within a scope, or to another module within it? -/
def State.updating (s : State) (id : Nat) (scp : Scope) (team : Nat) : Bool :=
  s.updates.any (fun u => u.id == id && s.inScope scp team u.core) ||
  s.fabric.sent.any (fun f => f.vn == 6 && f.tokens.contains (s.self, id) && s.moduleInScope scp team f.dst)

/-- Is an access still to be performed at a scope: not performed, not applied by every sharer in the scope, or a read that
synchronised with a write that is not, as far as the scope of that edge goes (R218, R242, R243, R245)? -/
def State.pendingAt (s : State) (team : Nat) (id : Nat) (scp : Scope) : Bool :=
  s.accesses.any (fun a => a.id == id) || s.updating id scp team ||
  s.echoes.any (fun e => e.read == id && e.home.isNone && s.updating e.write (if e.scp.rank < scp.rank then e.scp else scp) team)

/-- Membership in a set of domains. -/
def DomSet.has (d : DomSet) : Dom → Bool
  | .bu => d.bu
  | .rc => d.rc
  | .co => d.co
  | .tso => d.tso
  | .sc => d.sc

/-- Every access and read of a warp's lanes of the given domains that is not performed: what a fence or bridge of those
lanes waits for (R242, R263). -/
def State.earlierIds (s : State) (k w : Nat) (lanes : Lanes) (d : DomSet) (scp : Scope) : List (Nat × Scope) :=
  (s.accesses.filterMap (fun a =>
    if a.team == k && a.warp == w && a.op != .flagAdd && (lanes &&& lanesOf a.lanes != 0) && d.has a.dom then some (a.id, scp) else none)) ++
  (s.echoes.filterMap (fun e =>
    if e.team == k && e.warp == w && lanes.getLsbD e.lane && d.has e.dom then some (e.read, scp) else none))

/-- Every domain. -/
def DomSet.all : DomSet := { bu := true, rc := true, co := true, tso := true, sc := true }
/-- One domain. -/
def DomSet.one : Dom → DomSet
  | .bu => { bu := true }
  | .rc => { rc := true }
  | .co => { co := true }
  | .tso => { tso := true }
  | .sc => { sc := true }

end Sys2Proof.Machine
end

