-- ==== Sys2Proof/Machine/Queue.lean ====
section
/-! DEFINITION. The queue of accesses that are not performed: what each waits for (R123, R239-R242, R261). -/

namespace Sys2Proof.Machine

/-! ## What an access waits for (R239-R242, R123) -/

/-- Is an access a read, for preserved program order (R239, R261)? -/
def Access.reads (a : Access) : Bool :=
  match a.op with
  | .load | .line | .testGe _ | .label => true
  | .store _ | .flagAdd => false
  | .rmw _ _ _ | .cas _ _ => a.res != 0

/-- Is an access a write, for preserved program order? -/
def Access.writes (a : Access) : Bool :=
  match a.op with
  | .load | .line | .testGe _ | .label => false
  | .store _ | .flagAdd | .rmw _ _ _ | .cas _ _ => true

/-- Do two accesses share a lane? -/
def Access.sameLane (a b : Access) : Bool :=
  a.team == b.team && a.warp == b.warp && a.lanes.any (b.lanes.contains ·)

/-- Do two accesses share a byte? -/
def Access.overlaps (a b : Access) : Bool := a.place.overlaps a.size b.place b.size

/-- Preserved program order of a domain, from an earlier kind to a later one (R239). -/
def preserves (d : Dom) (r1 w1 r2 w2 : Bool) : Bool :=
  match d with
  | .sc => true
  | .tso | .co => !(w1 && !r1 && r2 && !w2)
  | .rc | .bu => false

/-- Must an earlier access be performed before a later one of the same lane, and at what scope? -/
def mustPrecede (a b : Access) : Option Scope :=
  if a.op == .flagAdd || b.op == .flagAdd then none
  else if a.instr == b.instr && a.writes && b.writes && a.overlaps b then some b.scp
  else if !a.sameLane b then none
  else if a.priv && b.priv then some .team
  else if b.op == .label then
    (if a.writes && (match a.place, b.place with
      | .dev x, .dev y => x / 4096 == y / 4096
      | .scr t x, .scr u y => t == u && x / 128 == y / 128
      | .peer m _ x, .peer n _ y => m == n && x / 4096 == y / 4096
      | .host _ x, .host _ y => x / 4096 == y / 4096
      | _, _ => false) then some .team else none)
  else if a.dom ≠ b.dom then none
  else if preserves a.dom a.reads a.writes b.reads b.writes then some a.scp
  else if a.dom = Dom.rc && (b.rel || a.acq) then some (if b.rel then b.scp else a.scp)
  else if a.overlaps b && (b.writes || (match a.op with | .rmw _ _ _ | .cas _ _ => true | _ => false) ||
      (a.writes && (match a.place with | .peer _ _ _ => true | _ => false)) ||
      (a.dom != .bu && a.reads && b.reads)) then some a.scp
  else none

/-- Everything that an access about to issue waits for. -/
def State.waitsFor (s : State) (b : Access) : List (Nat × Scope) :=
  (s.accesses.filterMap (fun a => (mustPrecede a b).map (fun sc => (a.id, sc)))) ++
  (s.echoes.filterMap (fun e =>
    if b.op == .flagAdd || !(e.team == b.team && e.warp == b.warp && b.lanes.contains e.lane && e.dom == b.dom) then none
    else if preserves e.dom e.rd e.wr b.reads b.writes then some (e.read, if e.wr then e.scp else b.scp)
    else if e.dom == .rc && b.rel then some (e.read, b.scp)
    else none)) ++
  ((s.warp b.team b.warp).edges.flatMap (fun e =>
    if (e.lanes &&& lanesOf b.lanes != 0) && e.reach.has b.dom then e.ids else []))

/-- Puts an access into its queue (R236, R259). -/
def State.enqueue (s : State) (a : Access) : State :=
  { s with accesses := s.accesses ++ [{ a with after := a.after ++ s.waitsFor a }] }

/-- Puts an access into its queue with the next number. -/
def State.queue (s : State) (a : Access) : State := s.fresh.enqueue { a with id := s.nextId }

end Sys2Proof.Machine
end

