-- ==== Sys2Proof/Machine/Ops.lean ====
section
/-! DEFINITION. The operations every meaning is built from: registers and labels, in-flight results, strands and gangs,
faults, taking a trap and ending a context, and the issue of one instruction (R11-R29, R146-R157, R340-R359). -/

namespace Sys2Proof.Machine

/-! ## The context of an issue -/

/-- What an instruction sees at issue: the state, the issue, the instruction (none for a word that is none), team and warp,
launch header, the lanes of the issuing strands, the active lanes, and whether the full gang issues (R15, R29, R156). -/
structure Cx where
  s : State
  n : Now
  h : Hdr
  i : Option Instr
  warp : Warp
  hdr : Header
  lanes : Lanes
  act : Lanes
  full : Bool

def Warp.slice (w : Warp) (k : Nat) : Slice := Cells.get w.slices k
def Warp.onSlice (w : Warp) (k : Nat) (f : Slice → Slice) : Warp :=
  { w with slices := Cells.put w.slices k (f (w.slice k)) }
def Slice.strand (x : Slice) (e : Nat) : Strand := Cells.get x.strands e
def Slice.onStrand (x : Slice) (e : Nat) (f : Strand → Strand) : Slice :=
  { x with strands := Cells.adjust x.strands e f }
def Warp.strand (w : Warp) (k e : Nat) : Strand := (w.slice k).strand e
def Warp.onStrand (w : Warp) (k e : Nat) (f : Strand → Strand) : Warp := w.onSlice k (fun x => x.onStrand e f)

/-- The lanes of a slice's part as lanes of the warp. -/
def sliceLanes (k : Nat) (m : BitVec 4) : Lanes := m.setWidth 32 <<< (4 * k)
/-- The part of a set of lanes that lies in a slice. -/
def laneMask (k : Nat) (m : Lanes) : BitVec 4 := (m >>> (4 * k)).setWidth 4

/-- The lanes of the issuing strands. -/
def Warp.unitLanes (w : Warp) (units : List (Nat × Nat)) : Lanes :=
  units.foldl (fun m u => m ||| sliceLanes u.1 (w.strand u.1 u.2).mask) 0

/-! ## Early reads (R24; log 6) -/

/-- Is a register of a lane written by a result that has not returned? The earlier of two writes in flight counts as well:
R24 gives the register's value once both have returned. -/
def Warp.early (w : Warp) (r : Reg) (lane : Nat) : Bool :=
  w.results.any (fun x => x.lanes.getLsbD lane && x.regs.any (fun y => y.1 == r))

/-- The labels that a register had before results still in flight, and those results' labels. A label covers every lane, so a
read by any lane of the warp takes it, also one by a strand that the results do not concern; the spec says so of the early
read alone (R24, R25; log 70). -/
def Warp.earlyLab (w : Warp) (r : Reg) : Label :=
  w.results.foldl (fun l x =>
    x.regs.foldl (fun l y => if y.1 == r then l ||| y.2 ||| x.src else l) l) 0

/-- The free value of this issue under a key (R7). -/
def Cx.free (c : Cx) (key : Nat) : DWord := Config.freeWord (c.s.free + key)

/-! ## Reading registers (R12-R16) -/

/-- V register of a lane; 255 is VZ. -/
def Cx.v (c : Cx) (lane : Nat) (r : Nat) : Word :=
  if 255 ≤ r then 0
  else if c.warp.early (.v r) lane then (c.free (r * 32 + lane)).setWidth 32
  else Cells.get c.warp.v (r * 32 + lane)

/-- A pair, low word first; 255 is VZ. -/
def Cx.v2 (c : Cx) (lane : Nat) (r : Nat) : DWord :=
  if 255 ≤ r then 0 else c.v lane (r + 1) ++ c.v lane r

/-- A quad, lowest word first. -/
def Cx.v4 (c : Cx) (lane : Nat) (r : Nat) : BitVec 128 :=
  if 255 ≤ r then 0 else c.v2 lane (r + 2) ++ c.v2 lane r

/-- The low `words` registers from `r`, as a number. -/
def Cx.vn (c : Cx) (lane : Nat) (r : Nat) (words : Nat) : Nat :=
  match words with
  | 1 => (c.v lane r).toNat
  | 2 => (c.v2 lane r).toNat
  | _ => (c.v4 lane r).toNat

/-- P register of a lane; 7 is PT. -/
def Cx.p (c : Cx) (lane : Nat) (r : Nat) : Bool :=
  if 7 ≤ r then true
  else if c.warp.early (.p r) lane then (c.free (8192 + r * 32 + lane)).getLsbD 0
  else (Cells.get c.warp.p r).getLsbD lane

/-- G register (R308). -/
def Cx.g (c : Cx) (r : Nat) : BitVec 256 :=
  if c.warp.early (.g r) 0 then c.free (8512 + 4 * r + 3) ++ c.free (8512 + 4 * r + 2) ++ c.free (8512 + 4 * r + 1) ++
    c.free (8512 + 4 * r)
  else Cells.get c.warp.g r

/-- W register. -/
def Cx.w (c : Cx) (r : Nat) : DWord :=
  if c.warp.early (.w r) 0 then c.free (8448 + r) else Cells.get c.warp.w r

/-! ## Labels (R25-R28) -/

/-- Label of a register; empty for VZ and PT. -/
def Warp.lab (w : Warp) : Reg → Label
  | .v n => if 255 ≤ n then 0 else Cells.get w.vLab n ||| w.earlyLab (.v n)
  | .p n => if 7 ≤ n then 0 else Cells.get w.pLab n ||| w.earlyLab (.p n)
  | .w n => Cells.get w.wLab n ||| w.earlyLab (.w n)
  | .g n => Cells.get w.gLab n ||| w.earlyLab (.g n)
  | .tile _ => 0

/-- Labels of the V registers of an operand of some words. -/
def Cx.labV (c : Cx) (r : BitVec 8) (words : Nat) : Label :=
  if r = 255 then 0 else (List.range words).foldl (fun l i => l ||| c.warp.lab (.v (r.toNat + i))) 0
def Cx.labP (c : Cx) (r : Nat) : Label := c.warp.lab (.p r)
def Cx.labW (c : Cx) (r : Nat) : Label := c.warp.lab (.w r)
def Cx.labG (c : Cx) (r : Nat) : Label := c.warp.lab (.g r)

/-- Label of the guard predicate, unless G = 7. -/
def Cx.guardLab (c : Cx) : Label := if c.h.g = 7 then 0 else c.labP c.h.g.toNat

/-- What every write adds: the guard's label and the floor (R26). -/
def Cx.ambient (c : Cx) : Label := c.guardLab ||| c.warp.lbfloor

/-! ## Writing registers (R26) -/

/-- One register's write: values by lane, and the source label. -/
structure Wr where
  reg : Reg
  vals : List (Nat × DWord)
  lab : Label

/-- The lanes that a write writes. -/
def Wr.lanes (x : Wr) : Lanes := lanesOf (x.vals.map (·.1))

/-- Does a write change no register and no label: VZ, PT or an empty mask (R26)? -/
def Wr.none (x : Wr) : Bool :=
  x.vals.isEmpty || (match x.reg with | .v n => decide (255 ≤ n) | .p n => decide (7 ≤ n) | .w _ | .g _ | .tile _ => false)

/-- Stores values of a register. -/
def Warp.putVals (w : Warp) (x : Wr) : Warp :=
  match x.reg with
  | .v n => { w with v := x.vals.foldl (fun v y => Cells.set v (n * 32 + y.1) (y.2.setWidth 32)) w.v }
  | .p n => { w with p := Cells.set w.p n (x.vals.foldl
      (fun m y => if y.2.getLsbD 0 then m ||| (1#32 <<< y.1) else m &&& ~~~(1#32 <<< y.1)) (Cells.get w.p n)) }
  | .w n => match x.vals with
    | [] => w
    | y :: _ => { w with w := Cells.set w.w n y.2 }
  | .g _ | .tile _ => w

/-- The bare label of a register, without results in flight. -/
def Warp.rawLab (w : Warp) : Reg → Label
  | .v n => Cells.get w.vLab n
  | .p n => Cells.get w.pLab n
  | .w n => Cells.get w.wLab n
  | .g n => Cells.get w.gLab n
  | .tile _ => 0

/-- Sets the label of a register. -/
def Warp.putLab (w : Warp) (r : Reg) (l : Label) : Warp :=
  match r with
  | .v n => { w with vLab := Cells.set w.vLab n l }
  | .p n => { w with pLab := Cells.set w.pLab n l }
  | .w n => { w with wLab := Cells.set w.wLab n l }
  | .g n => { w with gLab := Cells.set w.gLab n l }
  | .tile _ => w

/-- The results in flight with a number below a later write's no longer write a register in the lanes that it has written
(R24). -/
def Warp.overtake (w : Warp) (id : Nat) (r : Reg) (lanes : Lanes) : Warp :=
  { w with results := w.results.map (fun x =>
      if decide (x.id < id) && x.regs.any (fun y => y.1 == r) then { x with stale := x.stale ++ [(r, lanes)] } else x) }

/-- write_reg of R29 by the instruction of a number, with the label that R26 forms; a full write replaces the label, a partial
one widens it. -/
def Warp.write (w : Warp) (full : Bool) (ambient : Label) (id : Nat) (x : Wr) : Warp :=
  if x.none then w
  else
    let l := x.lab ||| ambient
    let all := full && x.lanes = 0xFFFFFFFF#32
    let w := (w.overtake id x.reg x.lanes).putVals x
    w.putLab x.reg (if all then l else w.rawLab x.reg ||| l)

/-! ## Strands and loops -/

/-- Where a strand goes after an instruction at its PC that transfers no control, and its loop state then (R17, R117). -/
def Strand.seqNext (x : Strand) : DWord × LoopState × List DWord :=
  if x.loop.live && x.pc = x.loop.last then
    if x.loop.count = 0 then (x.pc + 8, { x.loop with live := false }, [])
    else (x.loop.first, { x.loop with count := x.loop.count - 1 }, x.buf)
  else (x.pc + 8, x.loop, x.buf)

/-- What an instruction does with the lanes that do not end otherwise, in the slices named: their strand state
afterwards; whether they keep the PC, go to a given PC, take a loop state or end theirs. Other slices go on plainly. `search`
names the slices in which it may have satisfied a spilled join entry (R153). -/
structure After where
  slices : BitVec 8 := 255
  search : BitVec 8 := 0
  st : StrandSt := .ready
  keep : Bool := false
  jump : Option DWord := none
  loop : Option (LoopState × List DWord) := none
  dead : Bool := false
  yield : Bool := false

/-- Will the instruction issue again, not having taken effect (R113, R276)? -/
def After.again (a : After) : Bool :=
  a.keep && (match a.st with
    | .held (.chan _) | .held .hash | .held .port | .held (.drain _) | .waiting .launch => true
    | _ => false)

/-- What a meaning answers: the state with its effects, the register writes, how lanes end, what the rest does, the
result it leaves in flight when that is not the plain one of its writes, and whether its effects find the warp's commit
buffer full (R279). -/
structure Eff where
  s : State
  wr : List Wr := []
  ends : List (Nat × LaneEnd) := []
  after : After := {}
  result : Option Result := none
  bufferFull : Bool := false

/-- How a lane ends, if not plainly. -/
def endOf (ends : List (Nat × LaneEnd)) (lane : Nat) : Option LaneEnd :=
  (ends.find? (fun e => e.1 == lane)).map (·.2)

/-- The lanes of a slice's mask whose end satisfies a predicate. -/
def pickLanes (k : Nat) (m : BitVec 4) (ends : List (Nat × LaneEnd)) (f : Option LaneEnd → Bool) : BitVec 4 :=
  (List.range 4).foldl (fun acc j =>
    if m.getLsbD j && f (endOf ends (4 * k + j)) then acc ||| (1#4 <<< j) else acc) 0

/-- The lowest lane of a set within a slice, 4 when empty. -/
def lowest4 (m : BitVec 4) : Nat :=
  if m.getLsbD 0 then 0 else if m.getLsbD 1 then 1 else if m.getLsbD 2 then 2 else if m.getLsbD 3 then 3 else 4

/-- The record of a part parked on a fault: the fault of its lowest faulting lane, MULTI, and each lane's own (R346, R351). -/
def parkOf (k : Nat) (m : BitVec 4) (ends : List (Nat × LaneEnd)) (wide : Bool) (n : Now) : ParkRec :=
  let fs := (List.range 4).filterMap (fun j =>
    if m.getLsbD j then (match endOf ends (4 * k + j) with | some (.fault f) => some f | _ => none) else none)
  let each := (List.range 4).filterMap (fun j =>
    if m.getLsbD j then (match endOf ends (4 * k + j) with | some (.fault f) => some (4 * k + j, f) | _ => none) else none)
  match fs with
  | [] => default
  | f :: rest =>
    { info := f, seq := 0, warpWide := wide, word := n.word, gang := n.gang, each,
      multi := rest.any (fun g => g.kind != f.kind || g.va.toNat / 4096 != f.va.toNat / 4096) }

/-- The parts of a strand after an instruction (R148): those that branch, by target; the rest; the trapping lanes; the
faulting lanes, with the whole strand when every active lane faults. A marker holds the strand while results of its lanes
are out (R23): `busy` says of which lanes some are. -/
def partsOf (k : Nat) (x : Strand) (act : BitVec 4) (h : Hdr) (wide : Bool) (after : After)
    (ends : List (Nat × LaneEnd)) (tick : Nat) (n : Now) (busy : BitVec 4 → Bool) : List Strand :=
  let m := x.mask &&& ~~~(pickLanes k x.mask ends (fun e => e == some .exit))
  let x := { x with last := tick, run := x.run + 1, mark := h.s }
  let after : After := if after.slices.getLsbD k then after else { yield := after.yield }
  let base (m : BitVec 4) : StrandSt := if h.s && busy m then .held .marker else .ready
  let (pc, loop, buf) :=
    if after.keep then (x.pc, x.loop, x.buf)
    else match after.jump, (if after.dead then some ({ x.loop with live := false }, []) else after.loop) with
      | some t, some l => (t, l.1, l.2)
      | some t, none => (t, x.loop, x.buf)
      | none, some l => (x.pc + 8, l.1, l.2)
      | none, none => x.seqNext
  let fl := pickLanes k m ends (fun e => match e with | some (.fault _) => true | _ => false)
  if fl ≠ 0 ∧ fl = act then
    [{ x with mask := m, st := .onFault (parkOf k fl ends wide n) }]
  else
    let tr := pickLanes k m ends (fun e => match e with | some (.trap _ _) => true | _ => false)
    let sq := pickLanes k m ends (fun e => e == none)
    let st : StrandSt := match after.st with
      | .ready => base sq
      | .waiting (.spawn rs) =>
        let mine := rs.filter (fun r => r.1 / 4 == k && sq.getLsbD (r.1 % 4))
        if mine.isEmpty && !rs.isEmpty then base sq else .waiting (.spawn mine)
      | y => y
    let seq : List Strand := if sq = 0 then [] else [{ x with mask := sq, pc := pc, loop := loop, buf := buf, st := st }]
    let gone : List Strand := (List.range 4).filterMap (fun j =>
      match (if m.getLsbD j then endOf ends (4 * k + j) else none) with
      | some (.goto t) =>
        let g := pickLanes k m ends (fun e => e == some (.goto t))
        if lowest4 g = j then some { x with mask := g, pc := t, st := base g } else none
      | _ => none)
    let back : List Strand := (List.range 4).filterMap (fun j =>
      match (if m.getLsbD j then endOf ends (4 * k + j) else none) with
      | some (.resume t) =>
        let g := pickLanes k m ends (fun e => e == some (.resume t))
        if lowest4 g = j then
          some { x with mask := g, pc := t, st := base g, trap := false, loop := x.saved, buf := x.savedBuf, saved := {},
                        savedBuf := [] }
        else none
      | _ => none)
    let moved := match seq with
      | [] => gone
      | q :: _ =>
        if gone.any (fun g => g.pc = q.pc && g.loop = q.loop) then
          gone.map (fun g => if g.pc = q.pc && g.loop = q.loop then { g with mask := g.mask ||| q.mask } else g)
        else q :: gone
    moved ++ back ++
      (if tr = 0 then [] else [{ x with mask := tr, st := .held .trap }]) ++
      (if fl = 0 then [] else [{ x with mask := fl, st := .onFault (parkOf k fl ends wide n) }])

/-- The first entry of a strand table that is free. -/
def freeEntry (t : Cells Strand) : Nat := Cells.firstFree t 4 0

/-- Puts the parts of the strand of an entry into the table: the part with the strand's lowest lane keeps the entry,
the others take the lowest free entries in order of their lowest lanes; a strand that a trap strand resumes is new
(R146). -/
def placeParts (t : Cells Strand) (entry : Nat) (parts : List Strand) : Cells Strand :=
  let byLane := (List.range 4).filterMap (fun j => parts.find? (fun p => lowest4 p.mask == j))
  let trap := ((Cells.find? t entry).map (·.trap)).getD false
  let stay := byLane.filter (fun p => p.trap == trap)
  let fresh := byLane.filter (fun p => p.trap != trap)
  let t1 := match stay with
    | [] => Cells.erase t entry
    | p :: rest => rest.foldl (fun t q => Cells.put t (freeEntry t) q) (Cells.put t entry p)
  fresh.foldl (fun t q => Cells.put t (freeEntry t) q) t1

/-! ## Choosing the strand of a slice (R149) -/

/-- Is an entry's strand Ready? -/
def Slice.readyAt (x : Slice) (e : Nat) : Bool :=
  match Cells.find? x.strands e with
  | some y => y.st == .ready
  | none => false

/-- Among Ready strands other than one: the one that was current when it became Held, the latest first; else the one whose
last issue is oldest, ties to the lower PC. -/
def Slice.other (x : Slice) (e : Nat) : Option Nat :=
  (x.prior.find? (fun k => k != e && x.readyAt k)).orElse (fun _ =>
    (x.strands.foldl (fun (best : Option (Nat × Strand)) y =>
      if y.1 = e || y.2.st != .ready then best
      else match best with
        | none => some y
        | some b =>
          if decide (y.2.last < b.2.last) || (y.2.last == b.2.last && decide (y.2.pc.toNat < b.2.pc.toNat)) then some y
          else best) none).map (·.1))

/-- Makes an entry the current strand. -/
def Slice.choose (x : Slice) (e : Nat) : Slice :=
  { x with cur := e, prior := x.prior.filter (· != e), strands := Cells.adjust x.strands e (fun y => { y with run := 0 }) }

/-- Is a strand Held? -/
def Strand.isHeld (x : Strand) : Bool := match x.st with | .held _ => true | _ => false

/-- Rule 3: when the current strand is not Ready, another Ready one takes over; a Held one is to be current again. -/
def Slice.rechoose (x : Slice) : Slice :=
  match Cells.find? x.strands x.cur with
  | some y =>
    if y.st = .ready then x
    else match x.other x.cur with
      | some e => let z := x.choose e
                  { z with prior := if y.isHeld then x.cur :: z.prior else z.prior }
      | none => x
  | none => match x.other x.cur with | some e => x.choose e | none => x

/-- Is a strand a trap strand, or about to be one? -/
def Strand.trapping (x : Strand) : Bool := x.trap || x.st == .held .trap

/-- Rules 1 to 3 after an instruction of a strand; `yield` marks a YIELD or a taken branch to its own address or below. A
trap strand, and a part that waits to become one, counts as having the lowest PC. When no other strand is Ready at the 64th
issue, the count starts again at 0, as for a strand chosen anew: the spec does not say (log 71). A strand that was not
current goes on without becoming so, unless it split. -/
def Slice.afterIssue (x : Slice) (entry : Nat) (parts : List Strand) (yield : Bool) : Slice :=
  match parts with
  | [] => x.rechoose
  | [p] =>
    let now := ((List.find? (fun (y : Nat × Strand) => y.2.mask == p.mask) x.strands).map (·.1)).getD entry
    if x.cur ≠ entry then x.rechoose
    else
      let x := { x with cur := now }
      if yield || decide (64 ≤ p.run) then (match x.other now with
        | some e => x.choose e
        | none => if 64 ≤ p.run then x.choose now else x)
      else x.rechoose
  | p :: q :: rest =>
    let rank (y : Strand) : Nat := if y.trapping then 0 else y.pc.toNat + 1
    let best := (q :: rest).foldl (fun b y => if rank y < rank b then y else b) p
    match List.find? (fun (y : Nat × Strand) => y.2.mask == best.mask) x.strands with
    | some e => (x.choose e.1).rechoose
    | none => x.rechoose

/-- Has every result of a set of a slice's lanes returned? -/
def Warp.quietLanes (w : Warp) (slice : Nat) (m : BitVec 4) : Bool :=
  !(w.results.any (fun r => r.lanes &&& sliceLanes slice m != 0))

/-- Moves the member strands of the issue on, slice by slice (R148, R149). -/
def Warp.moveStrands (w : Warp) (n : Now) (act : Lanes) (h : Hdr) (wide : Bool) (after : After)
    (ends : List (Nat × LaneEnd)) (tick : Nat) : Warp :=
  n.units.foldl (fun w u =>
    let x := w.slice u.1
    let parts := partsOf u.1 (x.strand u.2) (laneMask u.1 act) h wide after ends tick n
      (fun m => !w.quietLanes u.1 m)
    let back := ends.any (fun e => e.1 / 4 == u.1 &&
      (match e.2 with | .goto t => decide (t.toNat ≤ n.pc.toNat) | _ => false))
    let x := { x with strands := placeParts x.strands u.2 parts }
    { w with slices := Cells.put w.slices u.1 (x.afterIssue u.2 parts (after.yield || back)) }) w

/-! ## The gang (R155) -/

/-- The slices of a set of eight, ascending. -/
def sliceList (m : BitVec 8) : List Nat := (List.range 8).filter (fun k => m.getLsbD k)

/-- The slices of some member strands. -/
def unitMask (us : List (Nat × Nat)) : BitVec 8 := us.foldl (fun m u => m ||| (1#8 <<< u.1)) 0

/-- The single strand of a slice, if it holds exactly one. -/
def Slice.single (x : Slice) : Option Strand :=
  match x.strands with
  | [y] => some y.2
  | _ => none

/-- Is a strand parked on a fault? -/
def Strand.faulted (x : Strand) : Bool := match x.st with | .onFault _ => true | _ => false

/-- The gang's next PC after an instruction, none when no member qualifies (R155). -/
def Warp.gangPc (w : Warp) (pc : DWord) : Option DWord :=
  let ms := sliceList w.gang
  if ms.all (fun k => match (w.slice k).single with | some x => x.faulted && x.pc == pc | none => false) then some pc
  else
    (ms.findSome? (fun k => match (w.slice k).single with
      | some x => if x.trapping || x.faulted then none else some x.pc
      | none => none))

/-- The members that stay: exactly one strand, not a trap strand, at the gang's next PC. -/
def Warp.regroup (w : Warp) (pc : DWord) : Warp :=
  match w.gangPc pc with
  | none => { w with gang := 0 }
  | some t =>
    { w with gang := (sliceList w.gang).foldl (fun m k => match (w.slice k).single with
        | some x => if !x.trapping && x.pc = t then m ||| (1#8 <<< k) else m
        | none => m) 0 }

/-! ## The fault queue (R349-R353) -/

/-- Places a number at a byte offset of a 64-byte entry. -/
def at512 (off x : Nat) : BitVec 512 := BitVec.ofNat 512 (x <<< (8 * off))

/-- The entry of a recoverable fault (R353). -/
def State.faultBody (s : State) (k w slice entry : Nat) (x : Strand) (p : ParkRec) (seq : Nat) : BitVec 512 :=
  let i := p.info
  at512 0 seq ||| at512 8 (i.kind + i.malformed.toNat * 256 + p.multi.toNat * 512 + i.hw.toNat * 1024) |||
  at512 10 i.access |||
  at512 12 (if p.warpWide then 128 else slice * 16 + x.mask.toNat) ||| at512 16 i.va.toNat |||
  at512 24 (s.warpGlobal k w) ||| at512 32 x.pc.toNat |||
  at512 40 (s.launch (s.team k).launch).serial ||| at512 44 (if p.warpWide then 0 else entry)

/-- Adds an entry to a context's fault queue; it is written when its slot is free (R352). -/
def State.queueFault (s : State) (ctx : Nat) (e : FqEntry) : State :=
  s.onContext ctx (fun c => { c with fqNext := c.fqNext + 1, entries := c.entries ++ [e] })

/-- Strands parked on a fault that has no entry yet: slice, entry, strand, record. -/
def Warp.unentered (w : Warp) : List (Nat × Nat × Strand × ParkRec) :=
  w.slices.flatMap (fun k => k.2.strands.filterMap (fun y =>
    match y.2.st with
    | .onFault p => if p.seq = 0 then some (k.1, y.1, y.2, p) else none
    | _ => none))

/-- Notes a strand's sequence number. -/
def State.enterOne (s : State) (k w : Nat) (seq : Nat) (f : Nat × Nat × Strand × ParkRec) : State :=
  s.onWarp k w (fun v => v.onStrand f.1 f.2.1 (fun x => { x with st := .onFault { f.2.2.2 with seq := seq } }))

/-- Queues the entry of a parked strand. -/
def State.queueFor (s : State) (k w : Nat) (f : Nat × Nat × Strand × ParkRec) : State :=
  let ctx := (s.team k).ctx
  let seq := (s.context ctx).fqNext
  s.queueFault ctx
    { seq, kind := f.2.2.2.info.kind, va := f.2.2.2.info.va, body := s.faultBody k w f.1 f.2.1 f.2.2.1 f.2.2.2 seq,
      lab := f.2.2.2.info.lab ||| (s.warp k w).lbfloor, written := false }

/-- Gives every newly parked strand of a warp its fault-queue entry; strands that a warp-wide instruction parks share
one (R351). -/
def State.enterFaults (s : State) (k w : Nat) : State :=
  let all := (s.warp k w).unentered
  let wide := all.filter (fun f => f.2.2.2.warpWide)
  let s := match wide with
    | [] => s
    | f :: _ =>
      let seq := (s.context (s.team k).ctx).fqNext
      wide.foldl (fun s g => s.enterOne k w seq g) (s.queueFor k w f)
  (all.filter (fun f => !f.2.2.2.warpWide)).foldl (fun s f =>
    let seq := (s.context (s.team k).ctx).fqNext
    (s.queueFor k w f).enterOne k w seq f) s

/-! ## Ending a context (R359, R361) -/

/-- What a kind 0x20 entry reports (R359), and the label that it widens the queue by (R352). -/
structure EndInfo where
  reason : Nat
  detail10 : Nat := 0
  lanes : Nat := 0
  va : DWord := 0
  global : Nat := 0
  pc : DWord := 0
  serial : Nat := 0
  lab : Label := 0

/-- The journal entries that belong to a context: its launches, and commands that name it, through either VF. -/
def JEntry.ofCtx (e : JEntry) (port : Nat) (c : Context) : Bool :=
  decide (e.type ∈ [1, 2, 4, 5, 6, 7, 8, 10, 13]) &&
  ((port == c.vf + 1 && e.ctx == c.num) ||
   (match c.partner with | some p => port == p.1 + 1 && e.ctx == p.2 | none => false))

/-- Every entry of a context that is not final takes a final state (R196, R359). -/
def State.failJournal (s : State) (c : Context) (keep : Option JRef) (st : JState) (status : Status) : State :=
  s.ports.foldl (fun s p =>
    p.2.journal.foldl (fun s e =>
      if e.ofCtx p.1 c && !e.st.final && keep != some (p.1, e.seq) then s.journalSet (p.1, e.seq) st status none else s) s) s

/-- The VF whose save frames take a frame of a checkpoint that arrives: the one that the sender's place table names for a buddy,
and on a replacement that of the context (R402, R405). -/
def State.stageVf (s : State) (f : Flit) : Nat :=
  match f.body with
  | .stage key _ _ vf _ _ =>
    let g := Cells.get s.fabric.groups key
    if g.adopt then (s.context g.ctx).vf else vf
  | .request _ _ _ _ _ _ | .response _ _ _ _ | .update _ _ | .window _ _ _ _ | .enrol _ _ _ _ | .check _ _ _ | .dead _ | .live _ => 0

/-- STALLED clears once no save of a VF waits for frames (R367). -/
def State.unstall (s : State) (vf : Nat) : State :=
  s.onVf vf (fun v => { v with
    stalled := v.stalled && (s.contexts.any (fun c => c.2.vf == vf && c.2.stalled) ||
      s.teams.any (fun t => t.2.stalled && (s.context t.2.ctx).vf == vf) ||
      s.fabric.stages.any (fun f => s.stageVf f == vf) ||
      s.fabric.groups.any (fun g => (s.context g.2.ctx).vf == vf && g.2.stalled)) })

/-- A team is no longer to be displaced: the frames taken for that go back to their list (R372). -/
def State.stayTeam (s : State) (k : Nat) : State :=
  let t := s.team k
  if !t.leaving then s
  else
    let vf := (s.context t.ctx).vf
    ((s.onVf vf (fun v => { v with free := v.free ++ t.frames })).onTeam k (fun t =>
      { t with leaving := false, stalled := false, frames := [] })).unstall vf

/-- Takes a placed team off its core: its slots, bins and matrix instructions go with it. -/
def State.removeTeam (s : State) (k : Nat) : State :=
  let s := s.stayTeam k
  let c := (s.team k).core
  let s := s.onCore c (fun x =>
    { x with
      idleFrom := if x.matrix.any (fun m => m.team == k && m.start.isSome) then some s.cycle else x.idleFrom
      slots := x.slots.map (fun o => if o.2.holder = some k then (o.1, { o.2 with holder := none }) else o)
      bins := List.filter (fun (b : Nat × Bin) => b.2.team != k) x.bins
      matrix := x.matrix.filter (fun m => m.team != k) })
  { s with
    teams := Cells.erase s.teams k
    accesses := s.accesses.filter (fun a => !(a.team == k && a.op.loads))
    late := s.late.filter (fun l => l.now.team != k)
    echoes := s.echoes.filter (fun e => e.team != k) }

/-- The keys of a context's placed teams. -/
def State.teamsOf (s : State) (ctx : Nat) : List Nat :=
  (List.filter (fun (t : Nat × Team) => t.2.ctx == ctx) s.teams).map (·.1)

/-- The lane-local lines of a core that are picked leave its L1, after their bytes (R215). -/
def State.writeBackLocal (s : State) (core : Nat) (pick : Nat → Bool) : State :=
  (List.filter (fun (l : Nat × L1Line) => decide (2 ^ 60 ≤ l.1) && pick (l.1 - 2 ^ 60)) (s.core core).l1).foldl
    (fun (s : State) l =>
      (s.privBack (l.1 - 2 ^ 60) l.2).onCore core (fun c => { c with l1 := Cells.erase c.l1 l.1 })) s

/-- Stops every strand of a context: no team of it stays placed, and no launch of it stays in the store. -/
def State.dropContext (s : State) (ctx : Nat) : State :=
  let s := (s.teamsOf ctx).foldl (fun (s : State) k =>
    (s.writeBackLocal (s.team k).core (fun _ => true)).removeTeam k) s
  { s with
    launches := List.filter (fun (l : Nat × Launch) => l.2.ctx != ctx) s.launches
    clusters := s.clusters.filter (fun c => (s.launch c.launch).ctx != ctx)
    deferred := s.deferred.filter (fun d => d.ctx != ctx) }

/-- Ends a context by a double trap, an error or a lost peer (R359): strands stop, unanswered entries are voided, one
entry of kind 0x20 is queued, and its open journal entries fail. -/
def State.endContext (s : State) (ctx : Nat) (i : EndInfo) : State :=
  if (s.context ctx).st = .ended ∨ (Cells.find? s.contexts ctx).isNone then s
  else
    let s := s.failJournal (s.context ctx) none .failed .contextEnded
    let s := s.dropContext ctx
    let seq := (s.context ctx).fqNext
    let body := at512 0 seq ||| at512 8 0x20 ||| at512 10 i.detail10 ||| at512 12 i.lanes ||| at512 16 i.va.toNat |||
      at512 24 i.global ||| at512 32 i.pc.toNat ||| at512 40 i.serial ||| at512 48 i.reason
    let s := s.onContext ctx (fun c => { c with st := .ended, entries := [], answered := [], stalled := false })
    (s.unstall (s.context ctx).vf).queueFault ctx { seq, kind := 0x20, va := i.va, body, lab := i.lab, written := false }

/-! ## Taking a trap (R341-R347) -/

/-- Cause codes (R346). -/
def Cause.code : Cause → Nat
  | .illegalOpcode => 0x01
  | .illegalField => 0x02
  | .partialGang => 0x03
  | .misalignedPc => 0x04
  | .misalignedAddr => 0x05
  | .badSpace => 0x06
  | .domainFloor => 0x07
  | .fpException => 0x08
  | .slotNotClaimed => 0x09
  | .labelCheck => 0x0A
  | .software => 0x0B
  | .breakpoint => 0x0C
  | .remoteStoreNoflag => 0x0D
  | .scopeDenied => 0x0E
  | .replayDiverge => 0x0F
  | .generatorOverlap => 0x10
  | .labelEgress => 0x11
  | .faultDelivered => 0x12

/-- The address of a slice's trap frame. -/
def Warp.frame (w : Warp) (slice : Nat) : DWord := w.tframe + BitVec.ofNat 64 (256 * slice)

/-- May traps of a slice be delivered: SR.TVEC and the frame address pass the checks of R347? -/
def Warp.trapAddrOk (w : Warp) (slice : Nat) : Bool :=
  decide (w.tvec.toNat % 8 = 0) && decide (field w.tvec 63 60 = 0) && decide (w.tframe.toNat % 256 = 0) &&
  decide (field (w.frame slice) 63 57 = 0)

/-- The label that a frame write carries: the allocated registers among V0-V7, P0-P6, the details' sources, the
floor (R343). -/
def Warp.frameLabel (w : Warp) (n : Nat) (t : TrapRec) : Label :=
  ((List.range (min n 8)).foldl (fun l k => l ||| w.lab (.v k)) 0) |||
  ((List.range 7).foldl (fun l k => l ||| w.lab (.p k)) 0) |||
  (t.lanes.foldl (fun l x => l ||| x.lab) 0) ||| w.lbfloor

/-- The writes of a trap frame, as offset, width in bytes and value (R343, R344). -/
def Warp.frameWrites (w : Warp) (n slice : Nat) (t : TrapRec) : List (Nat × Nat × Nat) :=
  let cause (x : LaneTrap) : Nat := x.cause.code
  let first := (t.lanes.head?.map cause).getD 0
  let mixed := t.lanes.any (fun x => cause x != first)
  let flags := mixed.toNat + t.gang.toNat * 2 + t.delayed.toNat * 4
  [(0, 1, first), (1, 1, flags), (2, 2, 0), (4, 4, slice * 256 + t.mask.toNat), (8, 8, t.pc.toNat),
   (16, 8, t.word.toNat), (24, 8, t.next.toNat)] ++
  t.lanes.flatMap (fun x =>
    let j := x.lane % 4
    [(32 + 8 * j, 8, x.detail.toNat), (64 + 4 * j, 4, cause x * 256 + x.status.toNat),
     (80 + j, 1, (List.range 7).foldl (fun b k => b + ((Cells.get w.p k).getLsbD x.lane).toNat * 2 ^ k) 0)] ++
    (List.range 8).map (fun k =>
      (96 + 32 * j + 4 * k, 4, if k < n then (Cells.get w.v (k * 32 + x.lane)).toNat else 0)))

/-- A store that the hardware makes for lanes of a warp: SC at team scope (R151, R343). At another module it enters the
queue. -/
def State.hwStore (s : State) (k w : Nat) (lanes : List Nat) (pc va : DWord) (p : Place) (n x : Nat) (lab : Label) : State :=
  let t := s.team k
  match p with
  | .peer _ _ _ => s.queue { id := 0, team := k, warp := w, core := t.core, ctx := t.ctx, lanes, dom := .sc, scp := .team,
                             place := p, va, pc, size := n, op := .store (BitVec.ofNat 1024 x), lab, instr := s.nextId }
  | .dev _ | .host _ _ | .scr _ _ =>
    s.fresh.store { id := s.nextId, core := t.core, team := k, dom := .sc, scp := .team, nol1 := false, who := s.whoOf t.ctx }
      p n x lab

/-- Writes a trap frame at a place (R343). -/
def State.writeFrame (s : State) (k w : Nat) (lanes : List Nat) (pc va : DWord) (place : Place) (lab : Label)
    (ws : List (Nat × Nat × Nat)) : State :=
  ws.foldl (fun s x => s.hwStore k w lanes pc (va + BitVec.ofNat 64 x.1) (place.add x.1) x.2.1 x.2.2 lab) s

/-- The SC accesses of some lanes that are not performed: what a hardware access of those lanes comes after (R239). -/
def State.scPending (s : State) (k w : Nat) (lanes : Lanes) : List (Nat × Scope) :=
  (s.earlierIds k w lanes (.one .sc) .team).filter (fun x => s.pendingAt k x.1 x.2)

/-- The mark of a hardware read of a poisoned line, which ends the context instead of faulting (R358). -/
def poisonKind : Nat := 512

/-- The mark of a hardware read of a line of another module that has not been read yet (log 73). -/
def askKind : Nat := 2048

/-- The kind of a hardware access that fails: 4, or the mark of a dead module (R349, R397). -/
def hwKind (kind : Nat) : Nat := if lostKind ≤ kind then kind else 4

/-- The sequence number that a strand parks with: none yet, or none ever where its context is about to end. -/
def FaultInfo.noEntry (f : FaultInfo) : Nat := if lostKind ≤ f.kind then 2 ^ 64 else 0

/-- The double trap of a record (R347, R359). -/
def State.doubleTrap (s : State) (k w slice : Nat) (t : TrapRec) : State :=
  let x := t.lanes.head?.getD default
  s.endContext (s.team k).ctx
    { reason := 1, detail10 := x.cause.code, lanes := slice * 16 + t.mask.toNat, va := x.detail,
      global := s.warpGlobal k w, pc := t.pc, serial := (s.launch (s.team k).launch).serial
      lab := x.lab ||| (s.warp k w).lbfloor }

/-- Takes the oldest pending trap of a slice (R341-R343, R347): the frame is written at SR.TFRAME + 256 × slice, the
strand's PC becomes SR.TVEC, its loop state is saved and starts dead, and it becomes the current strand. A bad vector
or frame address is a double trap; a frame write that does not translate parks the lanes on a fault of kind 4. -/
def State.takeTrap (s : State) (k w slice : Nat) : State :=
  let wp := s.warp k w
  match (wp.slice slice).pending with
  | [] => s
  | t :: rest =>
    if !wp.trapAddrOk slice then s.doubleTrap k w slice t
    else
      let core := (s.team k).core
      match s.translate core (s.team k).ctx (wp.frame slice) .write with
      | (s, .error (e, m)) =>
        let f : FaultInfo := { kind := hwKind e, access := 9, va := wp.frame slice, malformed := m, hw := true }
        (s.onWarp k w (fun v => v.onStrand slice t.entry (fun x =>
          { x with st := .onFault { info := f, seq := f.noEntry, warpWide := false, multi := false, deliver := true } }))).enterFaults k w
      | (s, .ok (place, _)) =>
        let n := (s.hdr k).vregs
        let s := s.writeFrame k w (laneList (sliceLanes slice t.mask)) t.pc (wp.frame slice) place (wp.frameLabel n t)
          (wp.frameWrites n slice t)
        s.onWarp k w (fun v => v.onSlice slice (fun x =>
          { (x.onStrand t.entry (fun y =>
              { y with pc := wp.tvec, trap := true, st := .ready, saved := y.loop, savedBuf := y.buf, loop := {}, buf := [],
                       run := 0 }))
            with pending := rest, cur := t.entry }))

/-- Does the oldest pending trap of a slice wait for nothing of its warp: the slice holds no trap strand, its lanes have no
result in flight, and it is not parked on a frame fault (R341, R342)? -/
def Warp.trapDue (w : Warp) (slice : Nat) : Bool :=
  let x := w.slice slice
  match x.pending with
  | [] => false
  | t :: _ =>
    !(x.strands.any (fun y => y.2.trap)) && (x.strand t.entry).st == .held .trap &&
    !(w.results.any (fun r => r.lanes &&& sliceLanes slice t.mask != 0))

/-- May the oldest pending trap of a slice be taken now? The frame's stores come after the SC accesses of its lanes (R239,
R343). -/
def State.trapDue (s : State) (k w slice : Nat) : Bool :=
  (s.warp k w).trapDue slice &&
  (match ((s.warp k w).slice slice).pending with
   | [] => false
   | t :: _ => (s.scPending k w (sliceLanes slice t.mask)).isEmpty)

/-- Takes whatever trap is due in each slice of a warp. -/
def State.takeTraps (s : State) (k w : Nat) : State :=
  (List.range 8).foldl (fun s j => if s.trapDue k w j then s.takeTrap k w j else s) s

/-- Raises the traps of an instruction: one record per slice, pending until it can be taken. A trap of a trap strand is a
double trap (R342, R347). -/
def State.raiseTraps (s : State) (n : Now) (ends : List (Nat × LaneEnd)) : State :=
  n.units.foldl (fun s u =>
    let lanes := (List.range 4).filterMap (fun j =>
      match endOf ends (4 * u.1 + j) with
      | some (.trap t a) => some (t, a)
      | _ => none)
    match lanes with
    | [] => s
    | (_, a0) :: _ =>
      if (Cells.find? s.teams n.team).isNone then s
      else
        let wp := s.warp n.team n.warp
        let x := wp.slice u.1
        let mask := lanes.foldl (fun m l => m ||| (1#4 <<< (l.1.lane % 4))) 0
        let entry := ((List.find? (fun (y : Nat × Strand) => y.2.st == .held .trap && y.2.mask == mask)
          x.strands).map (·.1)).getD u.2
        let rec_ : TrapRec :=
          { entry, mask, pc := n.pc, word := n.word, next := if a0 then n.pc + 8 else n.pc, gang := n.gang,
            delayed := x.strands.any (fun y => y.2.trap) || !x.pending.isEmpty, lanes := lanes.map (·.1) }
        if (x.strand entry).trap then s.doubleTrap n.team n.warp u.1 rec_
        else s.onWarp n.team n.warp (fun v => v.onSlice u.1 (fun x => { x with pending := x.pending ++ [rec_] }))) s

/-! ## Results in flight (R23) -/

/-- Has every result of a strand's lanes returned? -/
def Warp.quiet (w : Warp) (slice : Nat) (x : Strand) : Bool := w.quietLanes slice x.mask

/-- Strands held by a switch marker become Ready once their results have returned. -/
def Warp.unmark (w : Warp) : Warp :=
  { w with slices := w.slices.map (fun k =>
      (k.1, (({ k.2 with strands := k.2.strands.map (fun y =>
        if y.2.st = .held .marker ∧ w.quiet k.1 y.2 then (y.1, { y.2 with st := .ready }) else y) } : Slice)).rechoose)) }

/-! ## Merging strands (R117, R118, R150, R153, R157) -/

/-- The state of a strand whose wait has ended: Ready, or held by its marker. -/
def Strand.woken (x : Strand) : StrandSt := if x.mark then .held .marker else .ready

/-- A strand whose wait has ended. -/
def Strand.wake (x : Strand) : Strand := { x with st := x.woken }

/-- A strand that goes on after the JOIN or REGANG at its PC: at the next instruction, or at the first of its loop (R117). -/
def Strand.passed (x : Strand) : Strand :=
  let n := x.seqNext
  { x with pc := n.1, loop := n.2.1, buf := n.2.2, st := x.woken }

/-- The strand that merges the entries listed: it keeps the entry and loop state of the strand with the lowest lane; its
marker holds when one of them carried one. Its last issue is the latest of theirs: the spec does not say (R149; log 71). -/
def Slice.merge (x : Slice) (es : List (Nat × Strand)) (f : Strand → Strand) : Slice :=
  match es with
  | [] => x
  | e :: rest =>
    let low := rest.foldl (fun (b : Nat × Strand) y => if lowest4 y.2.mask < lowest4 b.2.mask then y else b) e
    let mask := es.foldl (fun m y => m ||| y.2.mask) 0
    let mark := es.any (fun y => y.2.mark)
    let last := es.foldl (fun m y => max m y.2.last) 0
    let t := es.foldl (fun t y => Cells.erase t y.1) x.strands
    { x with strands := Cells.put t low.1 (f { low.2 with mask, mark, last })
             prior := x.prior.filter (fun k => !(es.any (fun y => y.1 == k))) }

/-- The strands of a slice that have arrived at a join entry: parked at its JOIN, with masks it expects, and not
arrived at a newer entry. -/
def Slice.arrived (x : Slice) (newer : List Recon) (e : Recon) : List (Nat × Strand) :=
  List.filter (fun (y : Nat × Strand) =>
    y.2.st == .atJoin && y.2.pc == e.pc && y.2.mask &&& ~~~e.mask == 0 &&
    !(newer.any (fun f => y.2.pc == f.pc && y.2.mask &&& ~~~f.mask == 0))) x.strands

/-- Is an entry satisfied: has every expected lane arrived or exited (R153)? -/
def Slice.satisfied (x : Slice) (newer : List Recon) (exited : BitVec 4) (e : Recon) : Bool :=
  e.mask &&& ~~~((x.arrived newer e).foldl (fun m y => m ||| y.2.mask) exited) == 0

/-- The newest satisfied entry of a stack, with the entries before it. -/
def Slice.firstSatisfied (x : Slice) (exited : BitVec 4) (newer : List Recon) : List Recon → Option (List Recon × Recon × List Recon)
  | [] => none
  | e :: rest => if x.satisfied newer exited e then some (newer, e, rest) else x.firstSatisfied exited (newer ++ [e]) rest

/-- Removes the newest satisfied resident entry, and merges its strands, which go on after the JOIN. -/
def Slice.settleOnce (x : Slice) (exited : BitVec 4) : Slice :=
  match x.firstSatisfied exited [] x.recon with
  | none => x
  | some (newer, e, rest) => ({ x with recon := newer ++ rest }).merge (x.arrived newer e) Strand.passed

/-- Settles every resident entry of a slice. -/
def Slice.settleJoins (x : Slice) (exited : BitVec 4) : Slice :=
  (List.range x.recon.length).foldl (fun x _ => x.settleOnce exited) x

/-- Settles the entries of every slice of a warp that has spilled none. -/
def Warp.settleJoins (w : Warp) : Warp :=
  { w with slices := w.slices.map (fun k =>
      if k.2.recon.isEmpty || k.2.spilled != 0 then k else (k.1, k.2.settleJoins (laneMask k.1 w.exited))) }

/-- Merges the strands of a slice that are parked at one REGANG address (R157). -/
def Slice.settleRegang (x : Slice) : Slice :=
  x.strands.foldl (fun x y =>
    match Cells.find? x.strands y.1 with
    | some z =>
      if z.st == .atRegang then
        x.merge (List.filter (fun (q : Nat × Strand) => q.2.st == .atRegang && q.2.pc == z.pc) x.strands) id
      else x
    | none => x) x

/-- The address at which every live slice holds a single strand parked at REGANG, if there is one. -/
def Warp.regangAt (w : Warp) : Option DWord :=
  let live := List.filter (fun (k : Nat × Slice) => !k.2.strands.isEmpty) w.slices
  match live with
  | [] => none
  | k :: _ => match k.2.single with
    | some x =>
      if x.st == .atRegang && live.all (fun j => match j.2.single with
        | some y => y.st == .atRegang && y.pc == x.pc
        | none => false) then some x.pc else none
    | none => none

/-- Gathers the strands at REGANG, and forms the gang when every live slice stands there (R157). Where a strand loops back from
the REGANG and another does not, those at the gang's next PC stay (R117, R155). -/
def Warp.settleRegang (w : Warp) : Warp :=
  if !(w.slices.any (fun k => k.2.strands.any (fun y => y.2.st == .atRegang))) then w
  else
    let w : Warp := { w with slices := w.slices.map (fun (k : Nat × Slice) => (k.1, k.2.settleRegang)) }
    match w.regangAt with
    | none => w
    | some pc =>
      ({ w with
        gang := w.slices.foldl (fun m (k : Nat × Slice) => if k.2.strands.isEmpty then m else m ||| (1#8 <<< k.1)) 0
        slices := w.slices.map (fun (k : Nat × Slice) =>
          (k.1, { k.2 with strands := k.2.strands.map (fun y => (y.1, y.2.passed)) })) } : Warp).regroup pc

/-! ## Hardware accesses to a warp's area (R18, R151, R343) -/

/-- The address of entry n of a slice's spill area. -/
def State.spillAt (s : State) (k w slice n : Nat) : DWord :=
  (s.hdr k).region + BitVec.ofNat 64 (8192 * s.warpGlobal k w + 2048 + 512 * slice + 16 * n)

/-- Where a hardware access goes, or its recoverable fault of kind 4 (R349), or the mark of a dead module (R397). -/
def State.hwPlace (s : State) (k : Nat) (va : DWord) (need : Need) (access : Nat) : State × Except FaultInfo Place :=
  if field va 63 57 ≠ 0 then (s, .error { kind := 4, access, va, hw := true })
  else match s.translate (s.team k).core (s.team k).ctx va need with
    | (s, .error (e, m)) => (s, .error { kind := hwKind e, access, va, malformed := m, hw := true })
    | (s, .ok (p, _)) => (s, .ok p)

/-- Does a place lie in a poisoned line, or in a line that another module answered without its data (R358, R430)? -/
def State.badLine (s : State) (p : Place) : Bool :=
  match p with
  | .dev _ | .host _ _ => s.poison.contains p.lineKey
  | .peer _ _ _ => (Cells.get s.remote p.lineKey).poison
  | .scr _ _ => false

/-- Has the line of a place been read, if it is another module's (log 73)? -/
def State.hasLine (s : State) (p : Place) : Bool :=
  match p with
  | .peer _ _ _ => (Cells.find? s.remote p.lineKey).isSome
  | .dev _ | .host _ _ | .scr _ _ => true

/-- Reads lines of other modules for a warp's hardware: a read of each line that is neither here nor on its way (log 73). -/
def State.askLine (s : State) (k w : Nat) (lanes : List Nat) (pc va : DWord) (p : Place) : State :=
  let t := s.team k
  match p with
  | .peer m v a =>
    if s.hasLine p || s.accesses.any (fun x => x.team == k && x.warp == w && x.op == .line && x.place.lineKey == p.lineKey) then s
    else s.queue { id := 0, team := k, warp := w, core := t.core, ctx := t.ctx, lanes, dom := .sc, scp := .team,
                   place := .peer m v (a / 128 * 128), va, pc, size := 128, op := .line, instr := s.nextId }
  | .dev _ | .host _ _ | .scr _ _ => s

/-- Reads a line of another module for the device itself, on behalf of a context and under a number of the asker's (log 73). -/
def State.askDevice (s : State) (ctx who : Nat) (p : Place) : State :=
  match p with
  | .peer m v a =>
    if s.hasLine p || s.accesses.any (fun x => x.team == goneTeam && x.warp == who && x.op == .line && x.place.lineKey == p.lineKey) then s
    else s.queue { id := 0, team := goneTeam, warp := who, core := 0, ctx, lanes := [], dom := .sc, scp := .sys,
                   place := .peer m v (a / 128 * 128), va := 0, size := 128, op := .line, instr := s.nextId }
  | .dev _ | .host _ _ | .scr _ _ => s

/-- Forgets the lines of other modules that a warp's hardware has read. -/
def State.forgetLines (s : State) (k w : Nat) : State :=
  if s.remote.isEmpty then s
  else { s with remote := List.filter (fun (l : Nat × RemoteLine) => l.2.team != k || l.2.warp != w) s.remote }

/-! ## Spilled entries (R151-R153) -/

/-- Writes a spilled entry with the empty label (R151). -/
def State.spillWrite (s : State) (k w slice n : Nat) (lanes : List Nat) (pc : DWord) (e : Recon) : State × Option FaultInfo :=
  let va := s.spillAt k w slice n
  match s.hwPlace k va .write 7 with
  | (s, .error f) => (s, some f)
  | (s, .ok p) => (s.writeFrame k w lanes pc va p 0 [(0, 8, e.pc.toNat), (8, 8, e.mask.toNat)], none)

/-- Reads a spilled entry, which lies in one line (R151); a poisoned line gives the mark that ends the context (R358). -/
def State.spillRead (s : State) (k w slice n : Nat) : State × Except FaultInfo Recon :=
  let va := s.spillAt k w slice n
  match s.hwPlace k va .read 8 with
  | (s, .error f) => (s, .error f)
  | (s, .ok p) =>
    if !s.hasLine p then (s, .error { kind := askKind, access := 8, va, hw := true })
    else if s.badLine p then (s, .error { kind := poisonKind, access := 8, va, hw := true, lab := s.unitLab p })
    else
      let s := s.hostGet p 16 false
      (s, .ok { pc := BitVec.ofNat 64 (s.readHome p 8), mask := BitVec.ofNat 4 (s.readHome (p.add 8) 8) })

/-- Searches the n oldest spilled entries, newest first, for one that satisfies a predicate, given the entries before it:
its number, itself and those before it (R153). -/
def State.spillFind (s : State) (k w slice : Nat) (newer : List Recon) (f : List Recon → Recon → Bool) :
    Nat → State × Except FaultInfo (Option (Nat × Recon × List Recon))
  | 0 => (s, .ok none)
  | n + 1 =>
    match s.spillRead k w slice n with
    | (s, .error e) => (s, .error e)
    | (s, .ok e) => if f newer e then (s, .ok (some (n, e, newer))) else s.spillFind k w slice (newer ++ [e]) f n

/-- Where entries of a slice's spill area can be written, all of them, or the first fault. -/
def State.spillRoom (s : State) (k w slice : Nat) (ns : List Nat) : State × Option FaultInfo :=
  ns.foldl (fun (acc : State × Option FaultInfo) n =>
    match acc.2 with
    | some f => (acc.1, some f)
    | none => match acc.1.hwPlace k (acc.1.spillAt k w slice n) .write 7 with
      | (s, .error f) => (s, some f)
      | (s, .ok _) => (s, none)) (s, none)

/-- Removes one satisfied entry of a slice's stack, if there is one, and merges its strands; `search` says whether a spilled
one may be satisfied. The entry that a removal brings back is read first, and so are the entries that move down: where such
an access faults, the stack stays as it was (R152, R153). -/
def State.stackStep (s : State) (k w slice : Nat) (search : Bool) : State × Except FaultInfo Bool :=
  let wp := s.warp k w
  let x := wp.slice slice
  let ex := laneMask slice wp.exited
  let put (s : State) (y : Slice) : State × Except FaultInfo Bool := (s.onWarp k w (fun v => v.onSlice slice (fun _ => y)), .ok true)
  match x.firstSatisfied ex [] x.recon with
  | some (newer, e, rest) =>
    if x.spilled = 0 then put s (({ x with recon := newer ++ rest } : Slice).merge (x.arrived newer e) Strand.passed)
    else match s.spillRead k w slice (x.spilled - 1) with
      | (s, .error f) => (s, .error f)
      | (s, .ok r) =>
        put s (({ x with recon := newer ++ rest ++ [r], spilled := x.spilled - 1 } : Slice).merge (x.arrived newer e) Strand.passed)
  | none =>
    if !search then (s, .ok false)
    else match s.spillFind k w slice x.recon (fun newer e => x.satisfied newer ex e) x.spilled with
      | (s, .error f) => (s, .error f)
      | (s, .ok none) => (s, .ok false)
      | (s, .ok (some (n, e, newer))) =>
        let above := (newer.drop x.recon.length).reverse
        match s.spillRoom k w slice ((List.range above.length).map (n + ·)) with
        | (s, some f) => (s, .error f)
        | (s, none) =>
          let lanes := laneList (sliceLanes slice e.mask)
          let s := above.zipIdx.foldl (fun (s : State) y => (s.spillWrite k w slice (n + y.2) lanes e.pc y.1).1) s
          put s (({ x with spilled := x.spilled - 1 } : Slice).merge (x.arrived newer e) Strand.passed)

/-- Removes satisfied entries one after another. -/
def State.stackLoop (s : State) (k w slice : Nat) (search : Bool) : Nat → State × Option FaultInfo
  | 0 => (s, none)
  | n + 1 =>
    match s.stackStep k w slice search with
    | (s, .error f) => (s, some f)
    | (s, .ok false) => (s, none)
    | (s, .ok true) => s.stackLoop k w slice search n

/-- Ends the context of an access that read a poisoned line or addressed a dead module: reasons 3 and 4 (R358, R397). -/
def State.loseFor (s : State) (k w : Nat) (f : FaultInfo) (pc : DWord) : State :=
  let poison := decide (f.kind = poisonKind)
  s.endContext (s.team k).ctx
    { reason := if poison then 3 else 4, va := if poison then f.va else BitVec.ofNat 64 (f.kind - lostKind),
      global := s.warpGlobal k w, pc, lab := f.lab ||| (s.warp k w).lbfloor,
      serial := (s.launch (s.team k).launch).serial }

/-- Settles the stack of a slice that has spilled entries. A removal that no strand of the slice has caused, and whose refill
faults, is owed: it is tried again at each turn (R152; log 35). -/
def State.settleSpilled (s : State) (k w slice : Nat) (search : Bool) : State :=
  let owe (s : State) (b : Bool) : State := s.onWarp k w (fun v => v.onSlice slice (fun x => { x with owed := b }))
  match s.stackLoop k w slice (search || ((s.warp k w).slice slice).owed) 41 with
  | (s, none) => owe s false
  | (s, some f) =>
    if f.kind = askKind then
      match s.hwPlace k f.va .read 8 with
      | (s, .ok p) => owe (s.askLine k w (laneList (sliceLanes slice 15)) 0 f.va p) true
      | (s, .error _) => owe s true
    else if lostKind ≤ f.kind then s.loseFor k w f 0
    else owe s true

/-- Settles joins, spilled entries and REGANG of a warp; `search` names the slices in which a spilled entry may have become
satisfied. -/
def State.settleStack (s : State) (k w : Nat) (search : BitVec 8) : State :=
  let s := s.onWarp k w Warp.settleJoins
  let s := (List.range 8).foldl (fun (s : State) j =>
    if ((s.warp k w).slice j).spilled = 0 then s else s.settleSpilled k w j (search.getLsbD j)) s
  if (Cells.find? s.teams k).isNone then s else s.onWarp k w Warp.settleRegang

/-! ## Finishing an instruction -/

/-- The registers that writes name, each with its label before them. -/
def wrRegs (w : Warp) (wr : List Wr) : List (Reg × Label) :=
  (wr.filter (fun x => !x.none)).map (fun x => (x.reg, w.rawLab x.reg))

/-- Writes an instruction's registers and leaves its result in flight (R23, R26). Values that are still to be gathered
overtake nothing before they return (R24). -/
def Cx.retire (c : Cx) (e : Eff) (w : Warp) (id : Nat) : Warp :=
  let regs := wrRegs w e.wr
  let w1 := e.wr.foldl (fun w x => w.write c.full c.ambient id x) w
  match e.result with
  | some r => { w1 with results := w1.results ++ [r] }
  | none =>
    if regs.isEmpty then w1
    else { w1 with results := w1.results ++ [{ id, lanes := c.act, full := c.full, kind := .done, regs }] }

/-! ## Dependencies (R240) -/

/-- The registers that a use names. -/
def useRegs : Use → List Reg
  | .v r k => if r = 255 then [] else (List.range k).map (fun i => .v (r.toNat + i))
  | .w r k => (List.range k).map (fun i => .w (r.toNat + i))
  | .p r => if 7 ≤ r.toNat then [] else [.p r.toNat]
  | .s r => if r = 255 then [] else [.v r.toNat]
  | .t _ => []

/-- The registers that an issue reads: its instruction's sources, and its guard. -/
def Cx.readRegs (c : Cx) (us : List Use) : List Reg :=
  us.flatMap useRegs ++ (if c.h.g = 7 then [] else [.p c.h.g.toNat])

/-- Does a dependency concern one of some registers, or with `path` the choice of path, in some lanes? -/
def Dep.concerns (d : Dep) (regs : List Reg) (lanes : Lanes) (path : Bool) : Bool :=
  (d.lanes &&& lanes != 0) && (match d.reg with | some r => regs.contains r | none => path)

/-- The dependencies of a warp after an instruction: its results depend on what its sources depend on, a branch's lanes on
what decided it, and what was overwritten depends on nothing any more. Those whose reads no later access waits for go. -/
def Cx.depsAfter (c : Cx) (e : Eff) (w : Warp) : List Dep :=
  match c.i with
  | none => w.deps
  | some i =>
    let wide := i.crosses || i.needsFull
    let from_ := (w.deps.filter (fun d => d.concerns (c.readRegs i.sources) c.act false)).map (fun d =>
      { d with lanes := if wide then c.act else d.lanes &&& c.act })
    let kept := (e.wr.filter (fun x => !x.none)).foldl (fun (ds : List Dep) x =>
      (ds.map (fun d => if d.reg = some x.reg then { d with lanes := d.lanes &&& ~~~x.lanes } else d)).filter (fun d => d.lanes != 0)) w.deps
    let dest := (e.wr.filter (fun x => !x.none)).map (·.reg) ++ ((e.result.map (fun r => r.regs.map (·.1))).getD [])
    let loaded := match e.result with
      | some r => (match r.kind with
        | .mem _ _ _ _ _ _ | .ge _ _ _ _ _ => r.regs.map (fun y => ({ reg := some y.1, lanes := r.lanes, res := r.id } : Dep))
        | .done | .fence _ | .iinv _ | .bulk _ _ _ _ | .matrix => [])
      | none => []
    let new := from_.flatMap (fun d => dest.map (fun r => { d with reg := some r }) ++
      (if i.branches then [{ d with reg := none }] else [])) ++ loaded
    ((kept ++ new).eraseDups).filter (fun d =>
      e.s.echoes.any (fun x => x.res == d.res) || w.results.any (fun r => r.id == d.res) || loaded.contains d)

/-- What an access of a lane waits for as its address, and for a write its data, guard or path, depends on earlier reads:
the writes that those reads have seen and that are still on their way (R240, R245). -/
def Cx.waitOn (c : Cx) (lane : Nat) (writes : Bool) : List (Nat × Scope) :=
  match c.i with
  | none => []
  | some i =>
    let regs := if writes then c.readRegs i.sources else i.aims.flatMap useRegs
    let res := (c.warp.deps.filter (fun d => d.concerns regs (1#32 <<< lane) writes)).map (·.res)
    (c.s.echoes.filter (fun e => e.res != 0 && res.contains e.res && e.team == c.n.team && e.warp == c.n.warp && e.home.isNone)).map
      (fun e => (e.read, .sys))

/-! ## Early reads are bounded (R7, R24) -/

/-- Does an instruction read, in a lane, a register whose value is still to come? -/
def Warp.earlyUse (w : Warp) (lane : Nat) (us : List Use) : Bool :=
  (us.flatMap useRegs).any (fun r => w.early r (match r with | .w _ | .g _ | .tile _ => 0 | .v _ | .p _ => lane))

/-- The active lanes in which some of these operands are early; of an instruction over the whole gang, all if one is. -/
def Cx.softLanes (c : Cx) (i : Instr) (us : List Use) : Lanes :=
  let ls := lanesOf ((laneList c.act).filter (fun l => c.warp.earlyUse l us))
  if ls ≠ 0 ∧ (i.crosses ∨ i.needsFull) then c.act else ls

/-- Is the guard early in some lane of an instruction of the whole gang that not every lane passes? Which lanes are active is
unpredictable then, and no trap may arise from it: the instruction is taken as inactive (R7, R24). -/
def Cx.vetoed (c : Cx) (i : Instr) : Bool :=
  i.needsFull && c.full && c.act != 0xFFFFFFFF#32 && c.h.g != 7 && (laneList c.lanes).any (fun l => c.warp.early (.p c.h.g.toNat) l)

/-- Do all operands of an instruction stand in its active lanes, and its guard in every lane? -/
def Cx.settled (c : Cx) (i : Instr) : Bool := c.softLanes i i.sources == 0 && !c.vetoed i

/-- Traps that an operand's value alone can raise. -/
def Cause.ofValue : Cause → Bool
  | .fpException | .illegalField | .misalignedPc | .badSpace => true
  | _ => false

/-- An instruction with early operands (R7, R24): where an early operand says where it acts, it acts nowhere and only its
destination takes an unpredictable value; elsewhere no trap arises from an early operand's value, no sticky flag changes, and
a branch goes to some aligned address (log 23). -/
def Cx.bounded (c : Cx) (i : Instr) (body : Cx → Eff) : Eff :=
  let soft := c.softLanes i i.sources
  if soft = 0 then body c
  else
    let blind := c.softLanes i i.aims
    let c1 : Cx := { c with act := c.act &&& ~~~blind }
    let e := if c1.act = 0 then { s := c.s } else body c1
    let isSoft (l : Nat) : Bool := soft.getLsbD l
    let dropped := (e.ends.filter (fun x => isSoft x.1 && (match x.2 with | .trap t _ => t.cause.ofValue | _ => false))).map (·.1)
    let ends := e.ends.filterMap (fun x =>
      if !dropped.contains x.1 then some x
      else match x.2 with
        | .trap t _ => if i.branches then some (x.1, .goto (t.detail &&& 0x0FFFFFFFFFFFFFF8)) else none
        | _ => none)
    let open_ := laneList blind ++ (if i.branches then [] else dropped)
    let lab := (c.readRegs i.sources).foldl (fun l r => l ||| c.warp.lab r) 0
    let wr := (((i.dest.map useRegs).getD []).map (fun r =>
      ({ reg := r, lab, vals := open_.map (fun l => (l, c.free (30000 + 64 * (match r with
        | .v n => n
        | .p n => 256 + n
        | .w n => 272 + n
        | .g n | .tile n => 336 + n) + l))) } : Wr))).filter (fun x => !x.vals.isEmpty)
    let old := (c.s.warp c.n.team c.n.warp).fpflags
    let s := match i with
      | .swr .. => e.s
      | _ => e.s.onWarp c.n.team c.n.warp (fun w => { w with
          fpflags := (laneList soft).foldl (fun m l => Cells.set m l (Cells.get old l)) w.fpflags })
    { e with s, ends, wr := e.wr ++ wr }

/-! ## The end of an instruction -/

/-- The lanes that an instruction ends. -/
def exitLanes (ends : List (Nat × LaneEnd)) : Lanes :=
  ends.foldl (fun m x => if x.2 = .exit then m ||| (1#32 <<< x.1) else m) 0

/-- The access of some lane that met a poisoned line or addressed a dead module (R358, R397). -/
def lostFault (ends : List (Nat × LaneEnd)) : Option FaultInfo :=
  ends.findSome? (fun x => match x.2 with
    | .fault f => if lostKind ≤ f.kind then some f else none
    | _ => none)

/-- Do all active lanes park on faults, so that the instruction issues again (R148)? -/
def Cx.allFault (c : Cx) (ends : List (Nat × LaneEnd)) : Bool :=
  (laneList c.act).all (fun l => match endOf ends l with | some (.fault _) => true | _ => false)

/-- Does an issue count as an instruction in Almanac mode (R113, R276)? One that is to issue again does not, nor does one
that a commit point executes. -/
def Cx.counts (c : Cx) (e : Eff) : Bool :=
  c.hdr.almanac && !c.n.commit && !e.after.again && !(c.act != 0 && c.allFault e.ends)

/-- Ends an instruction: results, strands, gang, faults, traps (R15, R23, R148-R155, R342, R350). Nothing of it is left
in a context that it ended. -/
def Cx.finish (c : Cx) (wide : Bool) (e : Eff) : State :=
  let k := c.n.team
  let w := c.n.warp
  if (Cells.find? e.s.teams k).isNone then
    { e.s with now := none, accesses := e.s.accesses.filter (fun a => !(a.team == k && a.op.loads)) }
  else match lostFault e.ends with
  | some f => { e.s.loseFor k w f c.n.pc with now := none }
  | none =>
  let id := e.s.nextId
  let tick := e.s.cycle
  let deps := c.depsAfter e (e.s.warp k w)
  let wp := c.retire e (e.s.warp k w) id
  let wp := wp.moveStrands c.n c.act c.h wide e.after e.ends tick
  let ticks := c.counts e
  let wp := { wp with exited := wp.exited ||| exitLanes e.ends, deps,
                      qclock := if ticks then wp.qclock + 1 else wp.qclock,
                      atQuantum := wp.atQuantum || (ticks && decide ((wp.qclock + 1) % c.hdr.quantum = 0)) }
  let s := (e.s.setWarp k w wp).settleStack k w e.after.search
  let s := if e.after.again then s else s.forgetLines k w
  if (Cells.find? s.teams k).isNone then { s with now := none }
  else
  let s := { s.onWarp k w (fun wp =>
      (if wp.gang &&& unitMask c.n.units = 0 then wp else wp.regroup c.n.pc).unmark) with
    now := none, nextId := s.nextId + 1, free := s.free + 65536 }
  if e.ends.isEmpty then s
  else ((s.enterFaults k w).raiseTraps c.n e.ends).takeTraps k w

/-! ## Issue -/

/-- The label that a result has gathered so far. -/
def ResKind.lab : ResKind → Label
  | .mem _ _ _ _ l _ | .ge _ _ _ l _ | .bulk _ _ l _ => l
  | .done | .fence _ | .iinv _ | .matrix => 0

/-- The warp with the labels that its results in flight are to bring: what they have gathered, and what their accesses are
still to read. That is the labels of their units now, and any other that the units may have by then: a free set (R24;
log 23). -/
def State.foreseen (s : State) (k w : Nat) : Warp :=
  let wp := s.warp k w
  { wp with results := wp.results.map (fun r =>
      let mine := s.accesses.filter (fun a => a.team == k && a.warp == w && a.res == r.id)
      let open_ : Label := if mine.isEmpty then 0 else (Config.freeWord (s.free + 60000 + r.id % 4096)).setWidth 16
      { r with src := mine.foldl (fun l a => l ||| s.unitLab a.place) (r.src ||| r.kind.lab ||| open_) }) }

/-- The context of the issue in progress. -/
def State.cx (s : State) (n : Now) (h : Hdr) (i : Option Instr) : Cx :=
  let wp := s.foreseen n.team n.warp
  let hdr := s.hdr n.team
  let lanes := wp.unitLanes n.units
  let c : Cx := { s, n, h, i, warp := wp, hdr, lanes, act := 0,
                  full := decide (n.units.length = 8) && wp.gang == 255 && n.gang }
  { c with act := lanesOf ((laneList lanes).filter (fun l => c.p l h.g.toNat != h.gn)) }

/-- A trap of the given lanes with one cause and detail. -/
def trapAll (lanes : Lanes) (cause : Cause) (detail : DWord) (lab : Label) : List (Nat × LaneEnd) :=
  (laneList lanes).map (fun l => (l, .trap { lane := l, cause, detail, lab } false))

/-- Is the strand a trap strand? -/
def Cx.inTrap (c : Cx) : Bool := c.n.units.any (fun u => (c.warp.strand u.1 u.2).trap)

/-- The trap of orders 2 and 3 of R47 that an instruction raises before its entry's own checks, if any. -/
def Cx.decodeTrap (c : Cx) (i : Instr) : Option Cause :=
  if !i.legal c.hdr.vregs c.hdr.tiles || (i.notInTrap && c.inTrap) then some .illegalField
  else if i.needsFull && !(c.full && c.act == 0xFFFFFFFF#32) then some .partialGang
  else none

/-- A forced quantum end (R279): the clock goes to the next multiple of the quantum, the strands wait for the commit
point, and the instruction, when one is given, is executed there. -/
def Cx.defer (c : Cx) (i : Option Instr) : State :=
  let q := c.hdr.quantum
  { c.s.onWarp c.n.team c.n.warp (fun w =>
      { c.n.units.foldl (fun w u => w.onStrand u.1 u.2 (fun x => { x with st := .held .commit })) w with
        qclock := (w.qclock / q + 1) * q, atQuantum := true,
        sync := i.map (fun i => ({ c.n with commit := true }, i)) })
    with now := none }

/-- Issues an instruction: guard and decode checks, then its body in the active lanes (R15, R47). Without an issue in
progress nothing happens (log 4). An instruction whose guard is 0 in every lane does nothing at all: such a BRA or CALL adds
no label under STRICTLABEL, which R27 leaves open beside R15 (log 74). -/
def issue (i : Instr) (s : State) (body : Cx → Eff) : Host.Outcome State Fault Refusal :=
  match s.now with
  | none => .next s
  | some n =>
    let h := i.hdr.getD default
    let c := s.cx n h (some i)
    if !i.guardOk then .next (c.finish false { s, ends := trapAll c.lanes .illegalField 0 0 })
    else if c.act = 0 || c.vetoed i then .next ({ c with act := 0 }.finish false { s })
    else match c.decodeTrap i with
      | some cause => .next (c.finish false { s, ends := trapAll c.act cause 0 0 })
      | none =>
        if c.hdr.almanac && i.synchronising && !n.commit then .next (c.defer (some i))
        else
          let e := c.bounded i body
          if e.bufferFull then .next (c.defer none) else .next (c.finish i.needsFull e)

/-- A word that is no instruction traps in every active lane (R47); `all` takes every lane of the strand's mask. -/
def trapWord (s : State) (cause : Cause) (h : Hdr) (all : Bool) : Host.Outcome State Fault Refusal :=
  match s.now with
  | none => .next s
  | some n =>
    let c := s.cx n h none
    .next (c.finish false { s, ends := trapAll (if all then c.lanes else c.act) cause 0 0 })

/-- The strands that wait for the last checks of an instruction. -/
def Warp.waitingFor (w : Warp) (id : Nat) : List (Nat × Nat) :=
  w.slices.flatMap (fun (k : Nat × Slice) => k.2.strands.filterMap (fun y =>
    if y.2.st == .held (.late id) || y.2.st == .waiting (.ge id) then some (k.1, y.1) else none))

/-- Lets the strands of an instruction go on whose last open checks have ended, with the ends its lanes have met
(R258, R268, R340). -/
def State.finishLate (s : State) (l : Late) : State :=
  let k := l.now.team
  let w := l.now.warp
  let s := { s with late := s.late.filter (fun x => x.id != l.id) }
  if (Cells.find? s.teams k).isNone then s
  else match lostFault l.ends with
  | some f => s.loseFor k w f l.now.pc
  | none =>
    let wp := s.warp k w
    let n := { l.now with units := wp.waitingFor l.id }
    let wp := n.units.foldl (fun w u => w.onStrand u.1 u.2 (fun x => { x with st := .ready, run := x.run - 1 })) wp
    let tick := match n.units with | u :: _ => (wp.strand u.1 u.2).last | [] => s.cycle
    let wp := wp.moveStrands n l.active l.h false {} l.ends tick
    let s := (s.setWarp k w wp).settleStack k w 0
    let s := s.onWarp k w (fun wp => (if wp.gang &&& unitMask n.units = 0 then wp else wp.regroup n.pc).unmark)
    if l.ends.isEmpty then s else ((s.enterFaults k w).raiseTraps n l.ends).takeTraps k w

/-- Notes that an access some instruction waits for has passed its open check, with the end of its lanes if it failed;
the last one lets the strands go on. -/
def State.passLate (s : State) (access : Nat) (ends : List (Nat × LaneEnd)) : State :=
  match s.late.find? (fun l => l.waits.contains access) with
  | none => s
  | some l =>
    let l := { l with waits := l.waits.filter (· != access), ends := l.ends ++ ends }
    if l.waits.isEmpty then s.finishLate l
    else { s with late := s.late.map (fun x => if x.id = l.id then l else x) }

end Sys2Proof.Machine
end

