-- ==== Sys2Proof/Machine/Operands.lean ====
section
/-! DEFINITION. Operand forms: integer values and results, the uniform forms, writes by lane, a cleared predicate, and the
value that a generator gives (R32, R87-R93, R308-R311). -/

namespace Sys2Proof

/-- Width of an integer type in bits (R43). -/
def IType.width : IType → Nat
  | .i8 | .n8 | .b8 => 8
  | .i16 | .n16 | .b16 => 16
  | .i32 | .n32 | .b32 => 32
  | .i64 | .n64 | .b64 => 64
  | .b128 => 128

namespace Machine

/-! ## Integers (R56, R93) -/

/-- The value of the low n bits, signed or not. -/
def intVal (n : Nat) (signed : Bool) (x : Nat) : Int :=
  if signed && decide (2 ^ (n - 1) ≤ x % 2 ^ n) then ((x % 2 ^ n : Nat) : Int) - ((2 ^ n : Nat) : Int)
  else ((x % 2 ^ n : Nat) : Int)

/-- A value modulo 2^n. -/
def wrap (n : Nat) (v : Int) : Nat := (v % ((2 ^ n : Nat) : Int)).toNat

/-- The least and greatest value of a type (R56). -/
def minOf (n : Nat) (signed : Bool) : Int := if signed then -((2 ^ (n - 1) : Nat) : Int) else 0
def maxOf (n : Nat) (signed : Bool) : Int :=
  if signed then ((2 ^ (n - 1) : Nat) : Int) - 1 else ((2 ^ n : Nat) : Int) - 1

/-- Clamps a value to a type (R56). -/
def clampTo (n : Nat) (signed : Bool) (v : Int) : Int := max (minOf n signed) (min (maxOf n signed) v)

/-- `int_write` of R93 after any clamp: reduced to n bits, extended to a 32-bit or 64-bit register. -/
def intWrite (t : IType) (u : Bool) (v : Int) : Nat :=
  let w := if u then 64 else max t.width 32
  wrap w (intVal t.width t.signed (wrap t.width v))

/-- Quotient of R57. -/
def divInt (n : Nat) (signed : Bool) (a b : Int) : Int :=
  if b = 0 then (if signed then -1 else maxOf n false) else a.tdiv b

/-- Remainder of R57. -/
def remInt (a b : Int) : Int := if b = 0 then a else a - b * a.tdiv b

/-! ## Operands by lane -/

/-- The raw value of an integer operand: a W register under U (R88). -/
def Cx.iraw (c : Cx) (u : Bool) (words lane : Nat) (r : BitVec 8) : Nat :=
  if u then (c.w r.toNat).toNat else c.vn lane r.toNat words

/-- `int_val` of R93. -/
def Cx.ival (c : Cx) (u : Bool) (t : IType) (lane : Nat) (r : BitVec 8) : Int :=
  intVal t.width t.signed (c.iraw u t.words lane r)

/-- The label of an integer operand. -/
def Cx.labI (c : Cx) (u : Bool) (r : BitVec 8) (words : Nat) : Label :=
  if u then c.labW r.toNat else c.labV r words

/-- The active lanes, ascending. -/
def Cx.lanesA (c : Cx) : List Nat := laneList c.act

/-! ## Writes -/

/-- Writes values of some words by lane to a V register, pair or quad. -/
def vWrites (d : BitVec 8) (words : Nat) (vals : List (Nat × Nat)) (lab : Label) : List Wr :=
  (List.range words).map (fun i =>
    { reg := .v (if d = 255 then 255 else d.toNat + i), lab
      vals := vals.map (fun y => (y.1, BitVec.ofNat 64 (y.2 >>> (32 * i) % 2 ^ 32))) })

/-- Writes a predicate by lane. -/
def pWrite (d : Nat) (vals : List (Nat × Bool)) (lab : Label) : Wr :=
  { reg := .p d, lab, vals := vals.map (fun y => (y.1, if y.2 then 1 else 0)) }

/-- Writes a W register; the full gang writes it with all lanes (R16). -/
def wWrite (d : BitVec 8) (x : DWord) (lab : Label) : Wr :=
  { reg := .w d.toNat, lab, vals := (List.range 32).map (fun l => (l, x)) }

/-- Clears the predicate in the lanes listed; the label of what decides it is its source label (R26, R32). -/
def Cx.clearP (c : Cx) (lanes : List Nat) (lab : Label := 0) : List Wr :=
  if c.h.g = 7 then [] else [pWrite c.h.g.toNat (lanes.map (fun l => (l, c.h.gn))) lab]

/-- The integer skeleton of R93: one result per lane, or one for the warp under U. -/
def Cx.intEff (c : Cx) (u : Bool) (words : Nat) (d : BitVec 8) (lab : Label) (f : Nat → Nat) : Eff :=
  { s := c.s
    wr := if u then [wWrite d (BitVec.ofNat 64 (f 0)) lab] else vWrites d words (c.lanesA.map (fun l => (l, f l))) lab }

/-- Two register operands of one type. -/
def Cx.int2 (c : Cx) (u : Bool) (t : IType) (d a b : BitVec 8) (f : Int → Int → Int) : Eff :=
  c.intEff u t.words d (c.labI u a t.words ||| c.labI u b t.words)
    (fun l => intWrite t u (f (c.ival u t l a) (c.ival u t l b)))

/-- A register and the immediate, of type .I32 (R91). -/
def Cx.intImm (c : Cx) (u : Bool) (d a : BitVec 8) (imm : BitVec 32) (f : Int → Int → Int) : Eff :=
  c.intEff u 1 d (c.labI u a 1) (fun l => intWrite .i32 u (f (c.ival u .i32 l a) imm.toInt))

/-- An instruction without a type: 32-bit operands as numbers, a 32-bit result, zero-extended under U (R88). -/
def Cx.raw32 (c : Cx) (u : Bool) (lane : Nat) (r : BitVec 8) : Nat := c.iraw u 1 lane r % 2 ^ 32

/-! ## Generators (R308-R311) -/

/-- The scope key of a generator for a warp (R309). -/
def State.scopeKey (s : State) (k w scope : Nat) : Nat :=
  match scope with
  | 1 => (s.launch (s.team k).launch).serial % 2 ^ 32
  | 2 => (s.team k).linear % 2 ^ 32
  | 3 => s.warpGlobal k w % 2 ^ 32
  | _ => 0

/-- One round of the purl mix. -/
def purlRound (x : Nat) : Nat :=
  let x := x ^^^ (x >>> 15)
  let x := x * 0x2C9277B5 % 2 ^ 32
  x ^^^ (x >>> 13)

/-- `purl_u` of R309: u, i and j. -/
def purlU (g : BitVec 256) (key lr lc : Nat) : Nat × Nat × Nat :=
  let (lr, lc) := if g.getLsbD 230 then (lc, lr) else (lr, lc)
  let i := (field g 127 96 + lr) % 2 ^ 32
  let j := (field g 159 128 + lc) % 2 ^ 32
  let s := field g 31 0 ^^^ field g 63 32 ^^^ key
  let x := s ^^^ (i * 0x7C159E2B % 2 ^ 32) ^^^ (j * 0x3D4F1A97 % 2 ^ 32) ^^^ (field g 95 64 * 0x5A3C96E1 % 2 ^ 32)
  (purlRound (purlRound (purlRound x)), i, j)

end Machine
end Sys2Proof
end

