-- ==== Sys2Proof/Machine/Flags.lean ====
section
/-! DEFINITION. The skeleton of floating instructions: elements, flushing, rounding mode, random bits, flags and trap
enables (R58, R67, R68, R71-R73, R89, R99). -/

namespace Sys2Proof

/-- The format of an element of a floating type (R43, R58). -/
def FType.fmt : FType → Machine.FFmt
  | .f64 => .f64
  | .f16 | .x2f16 => .f16
  | .bf16 | .x2bf16 => .bf16
  | .e4m3 => .e4m3
  | .e5m2 => .e5m2
  | .e2m1 => .e2m1
  | .f32 | .cb2 | .sc12 => .f32

/-- The code of element `e` in a register value of a type. -/
def FType.elem (t : FType) (x e : Nat) : Nat :=
  if t.packed then x >>> (16 * e) % 65536 else x % 2 ^ t.fmt.width

/-- The element numbers of a type. -/
def FType.elems (t : FType) : List Nat := if t.packed then [0, 1] else [0]

namespace Machine

/-- Is FTZ set (R20)? -/
def Cx.ftz (c : Cx) : Bool := c.warp.fpctl.getLsbD 4

/-- The mode that a code selects, RDYN through SR.FPCTL as it stands at issue (R67, R99). -/
def Cx.mode (c : Cx) (rm : Rnd) : RMode :=
  match rm with
  | .rne => .rne
  | .rtz => .rtz
  | .rup => .rup
  | .rdn => .rdn
  | .rna => .rna
  | .rsto => .rsto
  | .rdyn => match field c.warp.fpctl 2 0 with
    | 1 => .rtz
    | 2 => .rup
    | 3 => .rdn
    | 4 => .rna
    | _ => .rne

/-- The random bits of an element under RSTO (R68): the V register rotated left, or the purl mix at the lane's linear
index in its team and the local column. -/
def Cx.rnd (c : Cx) (rm : Rnd) (r : RndSrc) (lane col rot : Nat) : Word :=
  if rm ≠ .rsto then 0
  else if r.rg then
    let g := c.g (r.tt.toNat % 8)
    BitVec.ofNat 32 (purlU g (c.s.scopeKey c.n.team c.n.warp (field g 229 227)) (32 * c.n.warp + lane) col).1
  else (c.v lane r.tt.toNat).rotateLeft rot

/-- The label of the random source. -/
def Cx.labRnd (c : Cx) (rm : Rnd) (r : RndSrc) : Label :=
  if rm ≠ .rsto then 0 else if r.rg then c.labG (r.tt.toNat % 8) else c.labV r.tt 1

/-- A code whose subnormal is flushed to a zero of its sign (R72). -/
def ftzCode (ftz : Bool) (f : FFmt) (x : Nat) : Nat :=
  if ftz && f.ftzApplies && decide (x % 2 ^ (f.width - 1) < 2 ^ (f.p - 1)) then x / 2 ^ (f.width - 1) * 2 ^ (f.width - 1)
  else x

/-- An input as a value: flushed, with the flag of reading it. -/
def readIn (ftz : Bool) (f : FFmt) (x : Nat) : FVal × Flags := (decodeF f (ftzCode ftz f x), readFlags f x)

/-- Packs the elements of a result and unites their flags. -/
def packElems (rs : List (Nat × Flags)) (width : Nat) : Nat × Flags :=
  (rs.zipIdx.foldl (fun x r => x + r.1.1 <<< (width * r.2)) 0, rs.foldl (fun f r => f ||| r.2) 0)

/-- Lanes whose raised flags meet an enabled trap (R73). -/
def Cx.trapping (c : Cx) (fl : Flags) : Bool := (c.warp.fpctl >>> 5).setWidth 5 &&& fl != 0

/-- Ends a floating instruction: enabled flags trap, the other lanes set their sticky flags, and `mk` gives the writes
of the lanes that do not trap (R73, R99). -/
def Cx.fpEnd (c : Cx) (rs : List (Nat × Nat × Flags)) (mk : List (Nat × Nat) → List Wr) : Eff :=
  let bad := rs.filter (fun r => c.trapping r.2.2)
  let good := rs.filter (fun r => !c.trapping r.2.2)
  { s := c.s.onWarp c.n.team c.n.warp (fun w =>
      { w with fpflags := good.foldl (fun m r => Cells.modify m r.1 (· ||| r.2.2)) w.fpflags })
    wr := mk (good.map (fun r => (r.1, r.2.1)))
    ends := bad.map (fun r =>
      (r.1, .trap { lane := r.1, cause := .fpException, status := r.2.2.setWidth 8 } false)) }

/-- The floating skeleton of R99: a result and its flags for each active lane, written to a register of some words. -/
def Cx.fpEff (c : Cx) (d : BitVec 8) (words : Nat) (lab : Label) (f : Nat → Nat × Flags) : Eff :=
  c.fpEnd (c.lanesA.map (fun l => (l, f l))) (fun vals => vWrites d words vals lab)

/-- One operation on each element of up to three operands of one type, each rounded once. `op` gives the exact value
and the flags it raises itself. -/
def Cx.fpOp (c : Cx) (t : FType) (rm : Rnd) (r : RndSrc) (lane : Nat) (xs : List Nat)
    (op : RMode → List FVal → FVal × Flags) : Nat × Flags :=
  let m := c.mode rm
  packElems (t.elems.map (fun e =>
    let ins := xs.map (fun x => readIn c.ftz t.fmt (t.elem x e))
    let o := op m (ins.map (·.1))
    let y := roundTo t.fmt m (c.rnd rm r lane e (16 * e)) c.ftz o.1
    (y.1, y.2 ||| o.2 ||| ins.foldl (fun f i => f ||| i.2) 0))) 16

/-- One exact operation on the codes of each element. -/
def Cx.fpExact (c : Cx) (t : FType) (xs : List Nat) (op : FFmt → List Nat → Nat × Flags) : Nat × Flags :=
  packElems (t.elems.map (fun e => op t.fmt (xs.map (fun x => ftzCode c.ftz t.fmt (t.elem x e))))) 16

/-- The register value of a floating operand. -/
def Cx.fraw (c : Cx) (t : FType) (lane : Nat) (r : BitVec 8) : Nat := c.vn lane r.toNat t.words

/-- The canonical NaN of a format as a code. -/
def FFmt.nan (f : FFmt) : Nat := f.nanCode.getD 0

/-- Is the code a NaN? -/
def isNanCode (f : FFmt) (x : Nat) : Bool := (decodeF f x).isNan

/-- The smaller (or larger) of two codes with −0 below +0, a NaN giving way (R100). -/
def minMaxF (larger : Bool) (f : FFmt) (x y : Nat) : Nat × Flags :=
  let fl := readFlags f x ||| readFlags f y
  let nx := isNanCode f x
  let ny := isNanCode f y
  if nx && ny then (f.nan, fl)
  else if nx then (y, fl)
  else if ny then (x, fl)
  else
    let vx := decodeF f x
    let vy := decodeF f y
    let below := vx.lt vy || (!vy.lt vx && vx.sign && !vy.sign)
    (if below == larger then y else x, fl)

/-- The absolute value or the negation of a code (R101). -/
def signF (neg : Bool) (f : FFmt) (x : Nat) : Nat × Flags :=
  if isNanCode f x then (f.nan, readFlags f x)
  else
    let body := x % 2 ^ (f.width - 1)
    (if neg && decide (x / 2 ^ (f.width - 1) % 2 = 0) then body + 2 ^ (f.width - 1) else body, 0)

end Machine
end Sys2Proof
end

