-- ==== Sys2Proof/Machine/Convert.lean ====
section
/-! DEFINITION. Conversions between formats, integers and scaled blocks; codebook decoding (R65, R66, R103-R107). -/

namespace Sys2Proof

/-- The distance of the elements of a type within a register value (R62, R103). -/
def FType.stride (t : FType) : Nat := t.fmt.width

/-- The largest magnitude of a narrow format (R105). -/
def FType.maxValue : FType → Nat
  | .e4m3 => 448
  | .e5m2 => 57344
  | .e2m1 => 6
  | .f32 | .f64 | .f16 | .bf16 | .x2f16 | .x2bf16 | .cb2 | .sc12 => 1

namespace Machine

/-- Conversion of the elements of a value (R103). -/
def Cx.convert (c : Cx) (dt src : FType) (rm : Rnd) (r : RndSrc) (lane n x : Nat) : Nat × Flags :=
  packElems ((List.range n).map (fun k =>
    let i := readIn c.ftz src.fmt (x >>> (src.stride * k) % 2 ^ src.fmt.width)
    let y := roundTo dt.fmt (c.mode rm) (c.rnd rm r lane k (if n = 4 then 8 * k else 16 * k)) c.ftz i.1
    (y.1, y.2 ||| i.2))) dt.stride

/-- A rounded integral value delivered to an integer type (R104). -/
def toInteger (t : IType) (mode : RMode) (rnd : Word) (v : FVal) : Int × Flags :=
  match v with
  | .nan _ => (0, flagIV)
  | .inf s => (if s then minOf t.width t.signed else maxOf t.width t.signed, flagIV)
  | .num s m e =>
    -- a magnitude of 2^64 or more is out of every range, whatever its lower bits are
    let r := if m ≠ 0 ∧ e + (Nat.log2 m : Int) > 65 then (2 ^ 65, false) else roundIntegral mode rnd s m e
    let i : Int := if s then -(r.1 : Int) else (r.1 : Int)
    if i < minOf t.width t.signed then (minOf t.width t.signed, flagIV)
    else if maxOf t.width t.signed < i then (maxOf t.width t.signed, flagIV)
    else (i, if r.2 then flagNX else 0)

/-- The SC12 code of the least scale that is at least m × 2^e ÷ max, above 2^-126 (R105). -/
def fitCode (m : Nat) (e : Int) (mx : Nat) : Nat :=
  let num := m * 2 ^ e.toNat
  let den := mx * 2 ^ (-e).toNat
  -- compare with a power of two 2^k as num × 2^p ≥ den × 2^q
  let above (k : Int) : Bool := decide (den * 2 ^ k.toNat ≤ num * 2 ^ (-k).toNat)
  let k0 : Int := (Nat.log2 num : Int) - (Nat.log2 den : Int)
  let k : Int := if above k0 then k0 else k0 - 1
  let n := num * 2 ^ (4 - k).toNat
  let d := den * 2 ^ (k - 4).toNat
  let t := (n + d - 1) / d
  (((k + 127) * 16).toNat) + t - 16

/-- SCFIT of one F32 code (R105). -/
def scfitOf (ftz : Bool) (mx x : Nat) : Nat × Flags :=
  match decodeF .f32 (ftzCode ftz .f32 x) with
  | .nan _ => (0xFF0, flagIV)
  | .inf _ => (0xFF0, flagIV)
  | .num _ m e =>
    -- r ≤ 2^-126 as m × 2^(e + 126) ≤ max
    if m * 2 ^ (e + 126).toNat ≤ mx * 2 ^ (-(e + 126)).toNat then (0x010, 0) else (fitCode m e mx, 0)

/-- The quotient of an element and a scale (R106). -/
def quotient (v : FVal) (scale : Nat) : FVal × Flags :=
  match sc12 scale, v with
  | none, _ => (.nan false, 0)
  | _, .nan _ => (.nan false, 0)
  | _, .inf s => (.inf s, 0)
  | some (.num _ 0 _), .num s m _ => if m = 0 then (.nan false, flagIV) else (.inf s, flagDZ)
  | some (.num _ n k), .num s m e => (if m = 0 then .num s 0 0 else ratVal s m n (e - k), 0)
  | some _, .num _ _ _ => (.nan false, 0)

/-- The eight BF16 codes of a codebook index as one quad (R65, R107). -/
def cbQuad (entry index : Nat) : Nat :=
  ((cb2Decode entry index).zipIdx.foldl (fun x v => x + (roundTo .bf16 .rne 0 false v.1).1 <<< (16 * v.2)) 0)

/-- The key of the codebook among the registers that results name (log 5). -/
def codebookReg : Reg := .tile 255

/-! ## Meanings -/

/-- CVT converts between floating formats (R103). -/
def execCvt (h : Hdr) (dt src : FType) (rm : Rnd) (r : RndSrc) (d a : BitVec 8) (s : State) :
    Host.Outcome State Fault Refusal :=
  issue (.cvt h dt src rm r d a) s (fun cx =>
    let p := (cvtShape dt src).getD (1, 1, 1)
    cx.fpEff d p.2.2 (cx.labV a p.2.1 ||| cx.labRnd rm r)
      (fun l => cx.convert dt src rm r l p.1 (cx.vn l a.toNat p.2.1)))

/-- CVTN converts a floating value to an integer (R104). -/
def execCvtn (h : Hdr) (dt : IType) (src : FType) (rm : Rnd) (r : RndSrc) (d a : BitVec 8) (s : State) :
    Host.Outcome State Fault Refusal :=
  issue (.cvtn h dt src rm r d a) s (fun cx =>
    cx.fpEff d dt.words (cx.labV a src.words ||| cx.labRnd rm r)
      (fun l =>
        let v := (readIn cx.ftz src.fmt (src.elem (cx.fraw src l a) 0)).1
        let y := toInteger dt (cx.mode rm) (cx.rnd rm r l 0 0) v
        (intWrite dt false y.1, y.2)))

/-- CVTW converts an integer to a floating value (R104). -/
def execCvtw (h : Hdr) (dt : FType) (src : IType) (rm : Rnd) (r : RndSrc) (d a : BitVec 8) (s : State) :
    Host.Outcome State Fault Refusal :=
  issue (.cvtw h dt src rm r d a) s (fun cx =>
    cx.fpEff d dt.words (cx.labV a src.words ||| cx.labRnd rm r)
      (fun l =>
        let v := cx.ival false src l a
        roundTo dt.fmt (cx.mode rm) (cx.rnd rm r l 0 0) cx.ftz (.num (decide (v < 0)) v.natAbs 0)))

/-- SCFIT computes the scale of a block (R105). -/
def execScfit (h : Hdr) (t : FType) (d a : BitVec 8) (s : State) : Host.Outcome State Fault Refusal :=
  issue (.scfit h t d a) s (fun cx =>
    cx.fpEff d 1 (cx.labV a 1) (fun l => scfitOf cx.ftz t.maxValue (cx.v l a.toNat).toNat))

/-- SCAPP quantises four F32 values under one scale (R106). -/
def execScapp (h : Hdr) (t : FType) (rm : Rnd) (r : RndSrc) (d a b : BitVec 8) (s : State) :
    Host.Outcome State Fault Refusal :=
  issue (.scapp h t rm r d a b) s (fun cx =>
    cx.fpEff d 1 (cx.labV a 4 ||| cx.labV b 1 ||| cx.labRnd rm r)
      (fun l => packElems ((List.range 4).map (fun k =>
        let x := cx.vn l a.toNat 4 >>> (32 * k) % 2 ^ 32
        let i := readIn cx.ftz .f32 x
        let q := quotient i.1 ((cx.v l b.toNat).toNat % 4096)
        let y := roundTo t.fmt (cx.mode rm) (cx.rnd rm r l k (8 * k)) cx.ftz q.1
        (y.1, y.2 ||| q.2 ||| i.2))) t.stride))

/-- CBDEC decodes a codebook index into eight BF16 values (R107); while a CBLOAD of the strand is in flight they are
free values (R24). -/
def execCbdec (h : Hdr) (d a : BitVec 8) (s : State) : Host.Outcome State Fault Refusal :=
  issue (.cbdec h d a) s (fun cx =>
    let tm := cx.s.team cx.n.team
    cx.fpEff d 4 (cx.labV a 1 ||| tm.codebookLab ||| cx.warp.earlyLab codebookReg)
      (fun l =>
        if cx.warp.early codebookReg l then ((cx.free (9000 + 2 * l + 1) ++ cx.free (9000 + 2 * l)).toNat, 0)
        else
          let ix := (cx.v l a.toNat).toNat % 65536
          (cbQuad (Cells.readLE tm.codebook (4 * (ix / 256)) 4) ix, 0)))

end Machine
end Sys2Proof
end

