-- ==== Sys2Proof/Machine/Transcend.lean ====
section
/-! DEFINITION. Correctly rounded elementary functions (R75, R76, R310): each is evaluated in fixed point until its
error interval lies inside one part of the result, and that part stands for the exact value (log 8). -/

namespace Sys2Proof.Machine

/-- Σ (±) z^(2k+1)/(2k+1), from the power `pw` on, in units of 2^-P, for z² = z2 / 2^P; at most `fuel` terms. -/
def atanTail (alternate : Bool) (P z2 : Nat) : Nat → Nat → Nat → Int
  | 0, _, _ => 0
  | fuel + 1, pw, k =>
    if pw = 0 then 0
    else
      let t : Int := (pw / (2 * k + 1) : Nat)
      let rest := atanTail alternate P z2 fuel ((pw * z2) >>> P) (k + 1)
      (if alternate ∧ k % 2 = 1 then -t else t) + rest

/-- atan(1/n) or atanh(1/n) in units of 2^-P. -/
def atanInv (alternate : Bool) (P n : Nat) : Int :=
  atanTail alternate P (2 ^ P / (n * n)) P (2 ^ P / n) 0

/-- π in units of 2^-P (Machin). -/
def piFix (P : Nat) : Int := 16 * atanInv true P 5 - 4 * atanInv true P 239

/-- ln 2 in units of 2^-P: 2 atanh(1/3). -/
def ln2Fix (P : Nat) : Int := 2 * atanInv false P 3

/-- Σ t, t·x/(k+1), … : the exponential series from the term `t` on, in units of 2^-P. -/
def expTail (P x : Nat) : Nat → Nat → Nat → Nat
  | 0, _, _ => 0
  | fuel + 1, t, k => if t = 0 then 0 else t + expTail P x fuel (((t * x) >>> P) / (k + 1)) (k + 1)

/-- The alternating series t − t·x²/((k+1)(k+2)) + …, for sine (k = 1) and cosine (k = 0), in units of 2^-P. -/
def trigTail (P x2 : Nat) : Nat → Nat → Nat → Int
  | 0, _, _ => 0
  | fuel + 1, t, k =>
    if t = 0 then 0
    else (t : Int) - trigTail P x2 fuel (((t * x2) >>> P) / ((k + 1) * (k + 2))) (k + 2)

/-- The part of 2^64 units that holds a fixed-point result within 2^40 units, as the midpoint of that part. -/
def pinFix (P : Nat) (a : Int) : Option FVal :=
  let lo := (a - 2 ^ 40).toNat >>> 64
  let hi := (a + 2 ^ 40).toNat >>> 64
  if lo = hi ∧ lo ≠ 0 then some (.num false (2 * lo + 1) (63 - (P : Int))) else none

/-- Tries rising precisions; the last one stands when none pins the value (log 8). -/
def pinBy (f : Nat → Int) : List Nat → FVal
  | [] => .num false 0 0
  | [P] => .num false (2 * ((f P).toNat >>> 64) + 1) (63 - (P : Int))
  | P :: rest => match pinFix P (f P) with
    | some v => v
    | none => pinBy f rest

/-- The precisions tried for an argument whose last bit weighs 2^e. -/
def precisions (e : Int) : List Nat :=
  let b := 640 + 2 * (if e < 0 then (-e).toNat else 0)
  [b, 2 * b, 4 * b]

/-- A dyadic fraction m × 2^e below 2^P, in units of 2^-P (P is large enough for exactness). -/
def toFix (P m : Nat) (e : Int) : Nat :=
  if 0 ≤ e + P then m <<< (e + P).toNat else m >>> (-(e + P)).toNat

/-- Integral part and fraction (in units of 2^e, e ≤ 0) of m × 2^e. -/
def splitInt (m : Nat) (e : Int) : Nat × Nat :=
  if 0 ≤ e then (m <<< e.toNat, 0) else (m >>> (-e).toNat, m % 2 ^ (-e).toNat)

/-- 2^x for finite x = ±m × 2^e (FEXP2; R76: exact at integers). An exponent of more than 2^16 is cut there: every
format overflows or underflows alike. -/
def exp2Val (neg : Bool) (m : Nat) (e : Int) : FVal :=
  if e + (Nat.log2 m : Int) > 16 then .num false 1 (if neg then -(2 ^ 17) else 2 ^ 17)
  else
    let (n, fr) := splitInt m e
    if fr = 0 then .num false 1 (if neg then -(n : Int) else n)
    else
      let unit := 2 ^ (-e).toNat
      let n' : Int := if neg then -(n : Int) - 1 else n
      let fr' := if neg then unit - fr else fr
      let f (P : Nat) : Int :=
        (expTail P ((toFix P fr' e * (ln2Fix P).toNat) >>> P) P (2 ^ P) 0 : Nat)
      match pinBy f (precisions e) with
      | .num s a k => .num s a (k + n')
      | v => v

/-- log2 x for x = m × 2^e > 0 (FLOG2; R76: exact at powers of two). -/
def log2Val (m : Nat) (e : Int) : FVal :=
  let l := Nat.log2 m
  let ex := e + (l : Int)
  if m = 2 ^ l then .num (decide (ex < 0)) ex.natAbs 0
  else
    let g (P : Nat) : Int :=
      let num := (m - 2 ^ l) <<< P
      let z := num / (m + 2 ^ l)
      let ln := 2 * atanTail false P ((z * z) >>> P) P z 0
      ex * 2 ^ P + (ln * 2 ^ P) / ln2Fix P
    let neg := decide (ex < 0)
    match pinBy (fun P => if neg then -(g P) else g P) (precisions (-(l : Int))) with
    | .num _ a k => .num neg a k
    | v => v

/-- Sine (or cosine) of a quarter turn times fr / 2^k, in (0, 1), as an exact value. -/
def quarterTrig (cosine : Bool) (fr : Nat) (e : Int) : FVal :=
  let f (P : Nat) : Int :=
    let x := (toFix P fr e * (piFix P).toNat) >>> (P + 1)
    let x2 := (x * x) >>> P
    if cosine then trigTail P x2 P (2 ^ P) 0 else trigTail P x2 P x 1
  pinBy f (precisions e)

/-- sin(2πx) or cos(2πx) for x = m × 2^e ≥ 0: exact at multiples of a quarter turn (R76), where a zero is +0. -/
def turnTrig (cosine : Bool) (m : Nat) (e : Int) : FVal :=
  let (q0, fr) := splitInt m (e + 2)
  let q := q0 % 4
  let e' := if e + 2 < 0 then e + 2 else 0
  let quad := if cosine then (q + 1) % 4 else q
  let useCos := decide (quad % 2 = 1)
  let neg := decide (quad ≥ 2)
  if fr = 0 then
    if useCos then .num neg 1 0 else .num false 0 0
  else
    match quarterTrig useCos fr e' with
    | .num _ a k => .num neg a k
    | v => v

/-- 1 / (2π) × m × 2^e as an exact value (R310). -/
def overTwoPi (m : Nat) (e : Int) : FVal :=
  let f (P : Nat) : Int := ((m * 2 ^ (2 * P) / (2 * (piFix P).toNat) : Nat) : Int)
  match pinBy f [640, 1280, 2560] with
  | .num s a k => .num s a (k + e)
  | v => v

/-- Φ(x) − 1/2 for x = n / 2^P ≥ 0 in units of 2^-P, times √(2π): Σ (−1)^k x^(2k+1) / (k! 2^k (2k+1)). -/
def phiTail (P x2 : Nat) : Nat → Nat → Nat → Int
  | 0, _, _ => 0
  | fuel + 1, t, k =>
    if t = 0 then 0
    else ((t / (2 * k + 1) : Nat) : Int) - phiTail P x2 fuel (((t * x2) >>> P) / (2 * (k + 1))) (k + 1)

/-- Is Φ(x) − 1/2 < r / 8,192, for x = m × 2^e ≥ 0? Compared as squares against 2π at 256 bits; no
value of R310 reaches 8. -/
def phiBelow (m : Nat) (e : Int) (r : Nat) : Bool :=
  let P := 256
  let x := toFix P m e
  let s := (phiTail P ((x * x) >>> P) P x 0).toNat
  decide (e + (Nat.log2 m : Int) < 3) && decide (s * s * 8192 * 8192 < r * r * 2 * (piFix P).toNat * 2 ^ P)

/-- The BF16 code of the least positive value whose upper rounding boundary is not below the argument: halving. -/
def gaussSearch (r : Nat) : Nat → Nat → Nat
  | 0, lo => lo
  | b + 1, lo =>
    let mid := lo + 2 ^ b
    -- the boundary below code `mid` is the midpoint of codes `mid - 1` and `mid`
    match decodeF .bf16 (mid - 1), decodeF .bf16 mid with
    | .num _ m1 e1, .num _ m2 e2 =>
      let q := min e1 e2 - 1
      let s := (m1 <<< (e1 - q).toNat + m2 <<< (e2 - q).toNat) / 2
      if phiBelow s q r then gaussSearch r b mid else gaussSearch r b lo
    | _, _ => gaussSearch r b lo

/-- q_k of R310: Φ⁻¹((k + 0.5) ÷ 4,096) rounded to BF16 with RNE, as a BF16 code. -/
def gaussCode (k : Nat) : Nat :=
  if k ≥ 2048 then gaussSearch (2 * k + 1 - 4096) 15 0
  else FFmt.bf16.signed true (gaussSearch (4096 - (2 * k + 1)) 15 0)

end Sys2Proof.Machine
end

