-- ==== Sys2Proof/Machine/Generator.lean ====
section
/-! DEFINITION. Generators: the value of each kind, GSET, GDRAW, GRES (R289, R308-R312, R326-R328). -/

namespace Sys2Proof

/-- The floating format of a scalar or narrow type (R43). -/
def FType.genFmt : FType → Machine.FFmt
  | .f64 => .f64
  | .f16 => .f16
  | .bf16 => .bf16
  | .e4m3 => .e4m3
  | .e5m2 => .e5m2
  | .e2m1 => .e2m1
  | .f32 | .x2f16 | .x2bf16 | .cb2 | .sc12 => .f32

namespace Machine

/-! ## Values (R310, R311) -/

/-- A value rounded to FP64 with RNE. -/
def rnd64 (v : FVal) : FVal := decodeF .f64 (roundTo .f64 .rne 0 false v).1

/-- `rot_value` of R310. A step that is not finite leaves the value open (log 17). -/
def rotValue (i j : Nat) (p0 p1 : Word) : FVal :=
  match decodeF .f32 p0.toNat with
  | .num s m e =>
    if p1 = 0 then .nan false
    else
      let open_ : FVal := decodeF .f64 (Config.rotOverflow i j p0 p1).toNat
      match rnd64 (.num s (m * (2 * (j / 2))) e) with
      | .num s m e =>
        match rnd64 (ratVal s m p1.toNat e) with
        | .num s m e =>
          match rnd64 (exp2Val (!s) m e) with
          | .num _ m e =>
            match (if m = 0 then FVal.num false 0 0 else rnd64 (overTwoPi m e)) with
            | .num _ m e =>
              match rnd64 (.num false (i * m) e) with
              | .num _ m e => rnd64 (turnTrig (decide (j % 2 = 0)) m e)
              | _ => open_
            | _ => open_
          | _ => open_
        | _ => open_
      | _ => open_
  | _ => .nan false

/-- MASK of R310: 1 when i − w < j ≤ i + o. -/
def maskValue (i j : Nat) (p0 p1 : Word) : Bool :=
  decide ((i : Int) - p1.toNat < j) && decide ((j : Int) ≤ i + p0.toInt)

/-- v of R310 for a kind code, from u, i and j. -/
def kindValue (g : BitVec 256) (u i j : Nat) : FVal :=
  let p0 : Word := BitVec.ofNat 32 (field g 191 160)
  let p1 : Word := BitVec.ofNat 32 (field g 223 192)
  match field g 226 224 with
  | 0 => .num (decide (2 ^ 31 ≤ u)) 1 0
  | 1 =>
    let n := u / 256
    if n < 2 ^ 23 then .num true (2 ^ 23 - n) (-23) else .num false (n - 2 ^ 23) (-23)
  | 2 => decodeF .bf16 (gaussCode (u / 2 ^ 20))
  | 3 => rotValue i j p0 p1
  | _ => .num false (if maskValue i j p0 p1 then 1 else 0) 0

/-- y of R311: the scaled value at local coordinates, or NaN. -/
def genExact (g : BitVec 256) (key lr lc : Nat) : FVal :=
  let (u, i, j) := purlU g key lr lc
  match sc12 (field g 243 232) with
  | none => .nan false
  | some sc => (mulF (kindValue g u i j) sc).1

/-- `gen_value` of R311 for a floating format, as a code. -/
def genCode (f : FFmt) (g : BitVec 256) (key lr lc : Nat) : Nat :=
  (roundTo f .rne 0 false (genExact g key lr lc)).1

/-- `gen_value` of R311 for INT8. -/
def genInt8 (g : BitVec 256) (key lr lc : Nat) : Int :=
  match genExact g key lr lc with
  | .num s m e =>
    let n : Int := (roundIntegral .rne 0 s m e).1
    clampTo 8 true (if s then -n else n)
  | .inf s => if s then -128 else 127
  | .nan _ => 0

/-- The scope key of a generator's value as the issuing warp reads it (R309). -/
def Cx.scopeKey (c : Cx) (g : BitVec 256) : Nat := c.s.scopeKey c.n.team c.n.warp (field g 229 227)

/-! ## GSET, GDRAW, GRES -/

/-- Are the reserved fields of R308 zero, and the codes defined? -/
def gsetOk (g : BitVec 256) : Bool :=
  decide (field g 255 244 = 0) && !bit g 231 && decide (field g 229 227 < 4) && decide (field g 226 224 < 5)

/-- GSET loads a G register from four W registers (R308, R326). -/
def execGset (h : Hdr) (d : BitVec 3) (a : BitVec 8) (s : State) : Host.Outcome State Fault Refusal :=
  issue (.gset h d a) s (fun cx =>
    let n := a.toNat
    let g := cx.w (n + 3) ++ cx.w (n + 2) ++ cx.w (n + 1) ++ cx.w n
    if !gsetOk g then { s := cx.s, ends := trapAll cx.act .illegalField 0 0 }
    else
      { s := cx.s.onWarp cx.n.team cx.n.warp (fun w => { w with g := Cells.set w.g d.toNat g })
        wr := [{ reg := .g d.toNat, vals := (List.range 32).map (fun l => (l, 0)),
                 lab := cx.labW n ||| cx.labW (n + 1) ||| cx.labW (n + 2) ||| cx.labW (n + 3) }] })

/-- GDRAW draws one value for each lane (R327). -/
def execGdraw (h : Hdr) (raw : Bool) (t : FType) (d : BitVec 8) (a : BitVec 3) (b c : BitVec 8) (s : State) :
    Host.Outcome State Fault Refusal :=
  issue (.gdraw h raw t d a b c) s (fun cx =>
    let g := cx.g a.toNat
    let key := cx.scopeKey g
    { s := cx.s
      wr := vWrites d (if raw then 1 else t.words)
        (cx.lanesA.map (fun l =>
          let lr := (cx.v l b.toNat).toNat
          let lc := (cx.v l c.toNat).toNat
          (l, if raw then (purlU g key lr lc).1 else genCode t.genFmt g key lr lc)))
        (cx.labG a.toNat ||| cx.labV b 1 ||| cx.labV c 1) })

/-- Does an entry of the draw registry overlap a range (R289)? -/
def Draw.overlaps (x : Draw) (seed : DWord) (stream key : Word) (first count : Nat) : Bool :=
  x.seed == seed && x.stream == stream && x.key == key && decide (x.first < first + count) &&
  decide (first < x.first + x.count)

/-- GRES reserves rows of a generator in the context's draw registry (R289, R328). -/
def execGres (h : Hdr) (t : Bool) (a : BitVec 3) (b : BitVec 8) (s : State) : Host.Outcome State Fault Refusal :=
  issue (.gres h t a b) s (fun cx =>
    let g := cx.g a.toNat
    let first := field (cx.w b.toNat) 31 0
    let count := field (cx.w b.toNat) 63 32
    let ctx := (cx.s.team cx.n.team).ctx
    let draws := (cx.s.context ctx).draws
    let seed : DWord := BitVec.ofNat 64 (field g 63 0)
    let stream : Word := BitVec.ofNat 32 (field g 95 64)
    let key : Word := BitVec.ofNat 32 (cx.scopeKey g)
    if 2 ^ 32 < first + count then { s := cx.s, ends := trapAll cx.act .illegalField 0 0 }
    else if count = 0 then { s := cx.s }
    else if draws.any (fun x => x.overlaps seed stream key first count) || decide (256 ≤ draws.length) then
      if t then { s := cx.s, ends := trapAll cx.act .generatorOverlap 0 0 }
      else { s := cx.s, wr := cx.clearP cx.lanesA (cx.labG a.toNat ||| cx.labW b.toNat) }
    else
      { s := cx.s.onContext ctx (fun x => { x with draws := x.draws ++ [{ seed, stream, key, first, count }] }) })

end Machine
end Sys2Proof
end

