-- ==== Sys2Proof/Machine/Access.lean ====
section
/-! DEFINITION. Accesses in flight: what each costs, when it may be performed, and what performing it does (R124, R218,
R236-R248, R252-R268). -/

namespace Sys2Proof.Machine

/-! ## What an access costs (R421, R422) -/

/-- The budget instance that an access is charged at: the home L2 slice, in 64-byte transfers. -/
def accessSlice (p : Place) : Option Nat :=
  match p with
  | .dev _ | .host _ _ => some (lineDie p.lineKey * 96 + homeSlice (128 * (p.lineKey % 2 ^ 46)))
  | .peer _ _ _ | .scr _ _ => none

/-- Is a place on another module? -/
def Place.remote : Place → Bool
  | .peer _ _ _ => true
  | .dev _ | .host _ _ | .scr _ _ => false

/-- Does a read find its line in the L1 of its core: a line of this module's homes, a lane-local line, or a line of another
module that a weak read may take from here (R127, R215, R218, R395; log 60)? -/
def State.hitsL1 (s : State) (a : Access) : Bool :=
  match a.place with
  | .dev _ | .host _ _ => (a.priv || !a.nol1) && (Cells.find? (s.core a.core).l1 (if a.priv then privKey a.place.lineKey else a.place.lineKey)).isSome
  | .peer _ _ _ => a.share && !a.nol1 && !a.acq && decide (a.dom = .bu ∨ a.dom = .rc ∨ a.dom = .co) &&
      (Cells.find? (s.core a.core).l1 a.place.lineKey).isSome
  | .scr _ _ => false

/-- What an access is charged, as kind, instance and 64-byte transfers (R421): its home slice, the die-to-die link that its
data crosses, or the Surel link that its flit of 256 bytes takes; a read that its L1 serves costs nothing there (log 34). -/
def State.chargesOf (s : State) (a : Access) : List (Nat × Nat × Nat) :=
  if a.op.loads && s.hitsL1 a then []
  else match a.place with
    | .dev _ | .host _ _ =>
      let d := dieOf a.core
      let h := lineDie a.place.lineKey
      let n := if a.op.loads && !a.nol1 then 2 else 1
      (match accessSlice a.place with | some i => [(1, i, n)] | none => []) ++
      (if d = h then [] else [(2, if a.op.loads then h * 16 + d else d * 16 + h, n)])
    | .peer m _ _ => [(3, s.portTo m, 4)]
    | .scr _ _ => []

/-- The VF that pays for an access. The increment of a flag for another module has no context here: `warp` holds the VF that it
is made for. -/
def State.payer (s : State) (a : Access) : Nat :=
  match Cells.find? s.contexts a.ctx with
  | some c => c.vf
  | none => a.warp

/-- Charges an access to its VF. -/
def State.chargeAccess (s : State) (a : Access) : State :=
  (s.chargesOf a).foldl (fun (s : State) c => s.charge (s.payer a) c.1 c.2.1 c.2.2) s

/-- May an access proceed under its VF's budget (R422)? One that must fill its line from DRAM needs that budget too. -/
def State.budgetFor (s : State) (a : Access) : Bool :=
  let vf := s.payer a
  (s.chargesOf a).all (fun c => s.mayCharge vf c.1 c.2.1) &&
  (match a.place with
   | .dev _ => (a.op.loads && s.hitsL1 a) || s.inL2 a.place.lineKey || s.mayCharge vf 0 (dramGroup a.place.lineKey)
   | .peer _ _ _ | .host _ _ | .scr _ _ => true)

/-! ## When an access may be performed -/

/-- May a device access of this kind reach a place now: the host holds no half of it in the way (R415, R416)? -/
def State.halfFree (s : State) (p : Place) (n : Nat) (write : Bool) : Bool :=
  match p with
  | .dev pa => (halvesOf pa n).all (fun k =>
      match Cells.get s.halves k with
      | .dev => true
      | .shared => !write
      | .host => false)
  | _ => true

/-- Must a write to a place wait for a pre-image? -/
def State.preImageDue (s : State) (p : Place) : Bool :=
  match p with
  | .dev pa => s.fabric.groups.any (fun g => g.2.owesPreImage (pa / 4096))
  | _ => false

/-- May an access be performed: everything before it is, its order point has passed it, and its halves are free? -/
def State.ready (s : State) (a : Access) : Bool :=
  a.after.all (fun x => !s.pendingAt a.team x.1 x.2) && (a.window.isNone || a.passed) && !a.sent &&
  s.halfFree a.place a.size a.writes && (!a.writes || !s.preImageDue a.place)

/-! ## Reading -/

/-- Is a byte range in a poisoned line (R230, R358, R414)? -/
def State.poisoned (s : State) (p : Place) (n : Nat) : Bool :=
  match p with
  | .dev _ | .host _ _ => s.poison.any (fun l => decide (128 * l < p.key + n) && decide (p.key < 128 * l + 128))
  | .peer _ _ _ | .scr _ _ => false

/-- The bytes of lane-local lines that cores hold and have not written back, for one byte of memory (R215). -/
def State.unwritten (s : State) (p : Place) : List Byte :=
  match p with
  | .dev _ | .host _ _ => s.cores.filterMap (fun c => (Cells.find? c.2.l1 (privKey p.lineKey)).bind (fun l =>
      if l.dirty.getLsbD (p.key % 128) then some (Cells.get l.data (p.key % 128)) else none))
  | .peer _ _ _ | .scr _ _ => []

/-- Does a range hold bytes that only a lane-local copy has (R215)? -/
def State.straddles (s : State) (p : Place) (n : Nat) : Bool :=
  s.cores.any (fun c => (linesOf p.key n).any (fun line => match Cells.find? c.2.l1 (privKey line) with
    | some l => l.dirty != 0
    | none => false)) && (List.range n).any (fun i => !(s.unwritten (p.add i)).isEmpty)

/-- The bytes an access finds in memory: its core's lane-local line, its L1 copy, or the home (R215, R218, R220). A byte that
a lane-local line holds and its home does not is read, by any other way, as the older or the newer value, freely (R7, R215;
log 6). The scratchpad of a sibling that has retired reads as a free value (R7, R207; log 6). -/
def State.look (s : State) (core : Nat) (priv nol1 : Bool) (p : Place) (n : Nat) : Nat :=
  match p with
  | .scr t _ =>
    if (Cells.find? s.teams t).isNone then
      ((Config.freeWord (s.free + 65001) ++ Config.freeWord (s.free + 65000)).toNat) % 2 ^ (8 * n)
    else s.readHome p n
  | .dev _ | .host _ _ | .peer _ _ _ =>
    if priv then
      match Cells.find? (s.core core).l1 (privKey p.lineKey) with
      | some l => Cells.readLE l.data (p.key % 128) n
      | none => s.readHome p n
    else
      let x := if nol1 then s.readHome p n
        else match Cells.find? (s.core core).l1 p.lineKey with
          | some l => Cells.readLE l.data (p.key % 128) n
          | none => s.readHome p n
      if !s.straddles p n then x
      else ofBytes ((List.range n).map (fun i =>
        let old := BitVec.ofNat 8 (x >>> (8 * i))
        ((s.unwritten (p.add i)).zipIdx.foldl (fun (b : Byte) y =>
          if (Config.freeWord (s.free + 65100 + 16 * y.2 + i)).getLsbD 0 then y.1 else b) old)))

/-- Moves on to new free values after a read that took some: of bytes that R215 leaves open, or of a retired sibling's
scratchpad. -/
def State.afterLook (s : State) (p : Place) (n : Nat) : State :=
  let open_ := match p with
    | .scr t _ => (Cells.find? s.teams t).isNone
    | .dev _ | .host _ _ | .peer _ _ _ => s.straddles p n
  if open_ then { s with free := s.free + 131072 } else s

/-- The bytes of a value replaced by a store's bytes where they overlap. -/
def overlay (p : Place) (n : Nat) (x : Nat) (q : Place) (m : Nat) (y : Nat) : Nat :=
  if !p.overlaps n q m then x
  else
    ofBytes ((List.range n).map (fun i =>
      let a := p.key + i
      if decide (q.key ≤ a) && decide (a < q.key + m) then BitVec.ofNat 8 (y >>> (8 * (a - q.key)))
      else BitVec.ofNat 8 (x >>> (8 * i))))

/-- Does a load take the bytes of an earlier queued store: of its own lane and domain, or lane-local (R22, R245)? -/
def Access.forwardsTo (b a : Access) : Bool :=
  (match b.op with | .store _ => true | _ => false) &&
  decide (b.id < a.id) && b.sameLane a && (b.dom == a.dom || (a.priv && b.priv)) && b.priv == a.priv && b.overlaps a

/-- What a load finds: memory overlaid with the earlier queued stores of its own lane and domain, oldest first
(R22, R245). -/
def State.loadValue (s : State) (a : Access) : Nat :=
  s.accesses.foldl (fun x b =>
    match b.op with
    | .store d => if b.forwardsTo a then overlay a.place a.size x b.place b.size d.toNat else x
    | _ => x) (s.look a.core a.priv a.nol1 a.place a.size)

/-- The label that a load observes: its unit's, and those of the queued stores whose bytes it takes (R28, R228). A line of
another module that is kept here has its label with it (R395). -/
def State.loadLab (s : State) (a : Access) : Label :=
  let base := match a.place with
    | .peer _ _ _ => ((Cells.find? (s.core a.core).l1 a.place.lineKey).map (·.lab)).getD 0
    | .dev _ | .host _ _ | .scr _ _ => s.unitLab a.place
  s.accesses.foldl (fun l b => if b.forwardsTo a then l ||| b.lab else l) base

/-- Does a read synchronise with a write that it reads from (R241)? -/
def Update.syncs (u : Update) (a : Access) : Bool :=
  (u.dom == a.dom || u.flag) && (a.acq || a.dom == .sc || a.dom == .tso || a.dom == .co)

/-- The writes that a read takes bytes from and whose updates are still on the way, each with the scope at which what follows
the read waits for it: the scope of the edge for a read that synchronises (R241, R243), and any for another, since what the
read is ordered before must not read an older value (R245). -/
def State.seenWrites (s : State) (a : Access) : List (Nat × Scope) :=
  match a.place with
  | .dev _ | .host _ _ =>
    let k := a.place.key
    if a.priv then []
    else (s.updates.filter (fun u => decide (u.pa < k + a.size) && decide (k < u.pa + u.bytes.length) &&
      !(s.updates.any (fun v => v.id == u.id && v.core == a.core)))).map (fun u =>
        (u.id, if !u.syncs a then .sys else if u.scp.rank < a.scp.rank then u.scp else a.scp))
  | .peer _ _ _ | .scr _ _ => []

/-- Notes, for each lane of a read, the writes that it has seen. -/
def State.readEchoes (s : State) (a : Access) (seen : List (Nat × Scope)) : State :=
  { s with echoes := s.echoes ++ seen.flatMap (fun w => a.lanes.map (fun l =>
      ({ read := a.id, write := w.1, team := a.team, res := a.res, warp := a.warp, lane := l, dom := a.dom, scp := w.2 } : Echo))) }

/-- Notes, for each lane of a write, that its updates are still on the way. -/
def State.writeEchoes (s : State) (a : Access) : State :=
  if a.op == .flagAdd || !s.updating a.id .sys goneTeam then s
  else { s with echoes := s.echoes ++ a.lanes.map (fun l =>
    ({ read := a.id, write := a.id, team := a.team, warp := a.warp, lane := l, dom := a.dom, scp := a.scp,
       rd := a.reads, wr := true } : Echo)) }

/-- Marks a line that an L1 holds for early or late eviction (R127). -/
def State.markLine (s : State) (core key : Nat) (m : Evict) : State :=
  if m = .plain then s
  else s.onCore core (fun c => { c with l1 := Cells.adjust c.l1 key (fun l => { l with mark := m }) })

/-- Fetches what a load needs: its line into L1 unless it bypasses it, else its halves and its line at the home (R127, R215,
R218, R220, R413). A policy that marks lines marks one that is there already. -/
def State.fetchFor (s : State) (a : Access) : State :=
  let who := s.whoOf a.ctx
  match a.place with
  | .dev _ | .host _ _ =>
    if a.priv then (s.privFill a.core a.place a.mark who).markLine a.core (privKey a.place.lineKey) a.mark
    else if a.nol1 then (s.hostGet a.place a.size false who).l2Reach who a.place a.size false
    else if (Cells.find? (s.core a.core).l1 a.place.lineKey).isSome then s.markLine a.core a.place.lineKey a.mark
    else s.l1Fill a.core a.place a.mark who
  | .peer _ _ _ => s.markLine a.core a.place.lineKey a.mark
  | .scr _ _ => s

/-! ## Writing -/

/-- Has a lane of a read written, in its domain, bytes that it reads and whose update its own core has not applied: a store
under .NOL1 passes that L1 by (R127, R245)? -/
def State.ownBehind (s : State) (a : Access) (key : Nat) : Bool :=
  s.updates.any (fun u => u.core == a.core && decide (u.pa < key + a.size) && decide (key < u.pa + u.bytes.length) &&
    s.echoes.any (fun e => e.wr && e.write == u.id && e.team == a.team && e.warp == a.warp && a.lanes.contains e.lane &&
      e.dom == a.dom))

/-- A read at the home, or of what its lane wrote past its L1, applies the updates on their way to the reader's own copy of
the bytes first (R245). -/
def State.catchUp (s : State) (a : Access) : State :=
  match a.place with
  | .dev _ | .host _ _ =>
    if !a.priv && (a.nol1 || s.ownBehind a a.place.key) then s.applyBefore a.core a.place.key a.size else s
  | .peer _ _ _ | .scr _ _ => s

/-- An access as a writer. -/
def State.writerOf (s : State) (a : Access) : Writer where
  id := a.id
  core := a.core
  team := a.team
  dom := a.dom
  scp := a.scp
  nol1 := a.nol1
  flag := a.op == .flagAdd
  who := s.whoOf a.ctx

/-- The mask of n bytes of a line from an offset on. -/
def byteMask (off n : Nat) : BitVec 128 := BitVec.ofNat 128 ((2 ^ n - 1) <<< off)

/-- Writes into the lane-local line of an access's core, which then holds it alone (R215). -/
def State.privWrite (s : State) (a : Access) (x : Nat) (lab : Label) : State :=
  let s := s.privFill a.core a.place a.mark (s.whoOf a.ctx)
  let off := a.place.key % 128
  let s := s.onCore a.core (fun c => { c with l1 := Cells.adjust c.l1 (privKey a.place.lineKey) (fun l =>
    { l.put off (bytesOf a.size x) with dirty := l.dirty ||| byteMask off a.size, owner := (s.whoOf a.ctx).own }) })
  match a.place with
  | .dev pa => { s with frameLab := Cells.modify s.frameLab (pa / 4096) (· ||| lab) }
  | _ => s

/-- Writes the value of an access at its place and forwards it; its policy marks the line in its own L1 (R127, R220). -/
def State.putValue (s : State) (a : Access) (x : Nat) (lab : Label) : State :=
  if a.priv then (s.privWrite a x lab).markLine a.core (privKey a.place.lineKey) a.mark
  else ((s.store (s.writerOf a) a.place a.size x lab).markLine a.core a.place.lineKey a.mark).writeEchoes a

/-! ## Atomics (R128-R130, R253, R262) -/

/-- A floating add of R129: rounded once, no flag, no flush, a NaN canonical. -/
def atomicFadd (f : FFmt) (x y : Nat) : Nat :=
  (roundTo f .rne 0 false (sumF .rne [decodeF f x, decodeF f y]).1).1

/-- The new value of an atomic operation of a width in bits (R128). -/
def atomNew (op : Aop) (signed : Bool) (w old b : Nat) : Nat :=
  let m : Nat := 2 ^ w
  let sgn (x : Nat) : Int := if signed && decide (2 ^ (w - 1) ≤ x) then (x : Int) - (2 ^ w : Nat) else x
  match op with
  | .add => (old + b) % m
  | .min => if sgn old ≤ sgn b then old else b
  | .max => if sgn b ≤ sgn old then old else b
  | .and => old &&& b
  | .or => old ||| b
  | .xor => old ^^^ b
  | .exch => b
  | .incw => if b ≤ old then 0 else old + 1
  | .decw => if old = 0 ∨ b < old then b else old - 1
  | .faddF32 => atomicFadd .f32 old b
  | .faddF64 => atomicFadd .f64 old b
  | .faddX2bf16 => atomicFadd .bf16 (old % 65536) (b % 65536) + 65536 * atomicFadd .bf16 (old / 65536) (b / 65536)

/-- The lanes of a group one after another: final value, old value of each lane, new value of each lane that writes. -/
def groupRun (a : Access) (v : Nat) : Nat × List (Nat × Nat) × List (Nat × Nat) :=
  match a.op with
  | .rmw op sg ops =>
    ops.foldl (fun acc x =>
      let n := atomNew op sg (8 * a.size) acc.1 x.2.toNat
      (n, acc.2.1 ++ [(x.1, acc.1)], acc.2.2 ++ [(x.1, n)])) (v, [], [])
  | .cas ops _ =>
    ops.foldl (fun acc x =>
      if acc.1 = x.2.2.toNat then (x.2.1.toNat, acc.2.1 ++ [(x.1, acc.1)], acc.2.2 ++ [(x.1, x.2.1.toNat)])
      else (acc.1, acc.2.1 ++ [(x.1, acc.1)], acc.2.2)) (v, [], [])
  | _ => (v, [], [])

end Sys2Proof.Machine
end

