-- ==== Sys2Proof/Machine/Perform.lean ====
section
/-! DEFINITION. Performing accesses: budgets, flits toward a peer, the running hash, loads, stores, atomic groups, and the
return of results (R23, R124, R218, R253, R262, R287, R358, R385-R395, R421-R423). -/

namespace Sys2Proof.Machine

/-! ## Accesses to another module (R384, R394, R395) -/

/-- The set of origins that a peer's response may carry to a context: {ORIGIN of its lead VF} (R430). -/
def State.responseOrigins (s : State) (ctx : Nat) : Label := s.originOf (s.context ctx).vf

/-- What an access asks of a peer: a load through a leaf with WR = 0 asks to keep the line (R395). -/
def Access.request (a : Access) : PeerReq :=
  match a.op with
  | .load => .load a.size a.share
  | .line | .testGe _ => .load a.size false
  | .label => .load 0 false
  | .store d => .store a.size (d.setWidth 128)
  | .rmw op sg ops => .atomic op a.size sg (ops.map (·.2))
  | .cas ops labC => .cas a.size (ops.map (·.2)) labC
  | .flagAdd => .copyFlag (match a.place with | .peer _ _ pa => BitVec.ofNat 64 pa | _ => 0) a.lab

/-- Sends a peer access: its network is its domain's, and a CO flit carries the writes its lane has read (R384). -/
def State.sendAccess (s : State) (a : Access) : State :=
  match a.place with
  | .peer m pvf pa =>
    let mine (e : Echo) : Bool := !e.wr && e.team == a.team && e.warp == a.warp && a.lanes.contains e.lane
    let tokens := if a.dom = .co then (s.echoes.filter mine).map (fun e => (e.home.getD s.self, e.write)) else []
    let s := { s with accesses := s.accesses.map (fun (x : Access) => if x.id = a.id then { x with sent := true } else x) }
    (s.chargeAccess a).sendFlit m (domNet a.dom) a.lab tokens
      (.request a.id pvf (BitVec.ofNat 64 pa) (s.responseOrigins a.ctx) a.scp a.request)
  | _ => s

/-! ## The running hash (R287) -/

/-- One bit of CRC-64/ECMA-182, not reflected. -/
def crcBit (c : DWord) : DWord := if c.getLsbD 63 then (c <<< 1) ^^^ 0x42F0E1EBA9EA3693 else c <<< 1

/-- One byte of CRC-64/ECMA-182. -/
def crcByte (c : DWord) (b : Nat) : DWord :=
  crcBit (crcBit (crcBit (crcBit (crcBit (crcBit (crcBit (crcBit (c ^^^ (BitVec.ofNat 64 b <<< 56)))))))))

/-- A 16-byte record: address and value, little-endian. -/
def crcRecord (c : DWord) (addr val : DWord) : DWord :=
  (bytesOf 8 addr.toNat ++ bytesOf 8 val.toNat).foldl (fun c b => crcByte c b.toNat) c

/-- Appends, in program order, the records of the instructions that have retired for the hash. -/
def drainHash (hash : DWord) (lab : Label) : List HashEnt → DWord × Label × List HashEnt
  | [] => (hash, lab, [])
  | e :: rest =>
    if e.wait.isEmpty then
      drainHash (e.recs.foldl (fun c r => crcRecord c r.2.1 r.2.2) hash) (if e.recs.isEmpty then lab else lab ||| e.lab) rest
    else (hash, lab, e :: rest)

/-- Brings a warp's hash up to date, and lets an SRD of it that waited issue again. -/
def Warp.drain (w : Warp) : Warp :=
  let r := drainHash w.sthash w.sthashLab w.hashQ
  let w := { w with sthash := r.1, sthashLab := r.2.1, hashQ := r.2.2 }
  if w.hashQ.isEmpty then
    { w with slices := w.slices.map (fun k => (k.1, { k.2 with strands := k.2.strands.map (fun y =>
        if y.2.st = .held .hash then (y.1, { y.2 with st := .ready }) else y) })) }
  else w

/-- Inserts a record in lane order. -/
def insertRec (r : Nat × DWord × DWord) : List (Nat × DWord × DWord) → List (Nat × DWord × DWord)
  | [] => [r]
  | x :: xs => if r.1 < x.1 then r :: x :: xs else x :: insertRec r xs

/-- Notes that an access an instruction's records wait for is settled, with records it adds. -/
def State.settleHash (s : State) (k w access : Nat) (recs : List (Nat × DWord × DWord)) : State :=
  if (Cells.find? s.teams k).isNone then s
  else s.onWarp k w (fun wp => ({ wp with
    hashQ := wp.hashQ.map (fun e =>
      if e.wait.contains access then
        { e with
          wait := e.wait.filter (· != access)
          recs := recs.foldl (fun rs r =>
            insertRec (r.1, ((e.addrs.find? (fun y => y.1 == r.1)).map (·.2)).getD r.2.1, r.2.2) rs) e.recs }
      else e) } : Warp).drain)

/-! ## Results (R23, R24, R26) -/

/-- Words of a value of a size. -/
def sizeWords (n : Nat) : Nat := if n ≤ 4 then 1 else n / 4

/-- A loaded value extended to its register (R21). -/
def extendTo (size : Nat) (signed : Bool) (x : Nat) : Nat :=
  let w := 8 * size
  if signed && decide (size < 4) && decide (2 ^ (w - 1) ≤ x % 2 ^ w) then x % 2 ^ w + (2 ^ 32 - 2 ^ w) else x % 2 ^ w

/-- The register writes of gathered values. -/
def gatheredWrites (d size : Nat) (signed : Bool) (got : List (Nat × BitVec 128)) (lab : Label) : List Wr :=
  (List.range (sizeWords size)).map (fun i =>
    { reg := .v (if 255 ≤ d then 255 else d + i), lab
      vals := got.map (fun g => (g.1, BitVec.ofNat 64 (extendTo size signed g.2.toNat >>> (32 * i) % 2 ^ 32))) })

/-- Writes the registers of a returning result, except in lanes that a later instruction has written (R24), and drops
the result. A result of all 32 lanes that a later write has overtaken in some of them is written as a partial one, so that the
label from before it stays in the union: R24 and R26 leave that open (log 70). -/
def Warp.returnMem (w : Warp) (r : Result) (wr : List Wr) : Warp :=
  let w := { w with results := w.results.filter (fun x => x.id != r.id) }
  wr.foldl (fun w x =>
    let vals := x.vals.filter (fun y => !(r.stale.any (fun o => o.1 == x.reg && o.2.getLsbD y.1)))
    w.write r.full 0 r.id { x with vals := vals }) w

/-- The result of a number, if it is still in flight. -/
def Warp.result? (w : Warp) (id : Nat) : Option Result := w.results.find? (fun r => r.id == id)

/-- Adds a lane's value (or a line) and the labels read to what a result has gathered. -/
def ResKind.give (r : ResKind) (lane : Nat) (x : Nat) (lab : Label) : ResKind :=
  match r with
  | .mem d sz sg got l want => .mem d sz sg (got ++ [(lane, BitVec.ofNat 128 x)]) (l ||| lab) want
  | .ge d sz got l want => .ge d sz (got ++ [(lane, BitVec.ofNat 128 x)]) (l ||| lab) want
  | .bulk use got l want => .bulk use (got ++ [(lane, BitVec.ofNat 1024 x)]) (l ||| lab) want
  | .done | .fence _ | .iinv _ | .matrix => r

/-- Gives a result a lane's value and the labels read. -/
def State.deliver (s : State) (k w id lane : Nat) (x : Nat) (lab : Label) : State :=
  if (Cells.find? s.teams k).isNone then s
  else s.onWarp k w (fun wp => { wp with results := wp.results.map (fun r =>
    if r.id = id then { r with kind := r.kind.give lane x lab } else r) })

/-- A result that no longer waits for a lane. -/
def ResKind.forgo (r : ResKind) (lane : Nat) : ResKind :=
  match r with
  | .mem d sz sg got l want => .mem d sz sg got l (want &&& ~~~(1#32 <<< lane))
  | .ge d sz got l want => .ge d sz got l (want &&& ~~~(1#32 <<< lane))
  | .done | .fence _ | .iinv _ | .bulk _ _ _ _ | .matrix => r

/-- Takes a lane out of those a result waits for: its access failed a check after issue. A codebook or tile that misses a
line is not loaded (R329). -/
def State.undeliver (s : State) (k w id lane : Nat) : State :=
  if (Cells.find? s.teams k).isNone then s
  else s.onWarp k w (fun wp => { wp with results := (wp.results.filter (fun r =>
      !(r.id == id && (match r.kind with | .bulk _ _ _ _ => true | _ => false)))).map (fun r =>
    if r.id = id then { r with kind := r.kind.forgo lane } else r) })

/-- Are all wanted values there? -/
def gathered (got : List (Nat × BitVec 128)) (want : Lanes) : Bool :=
  (laneList want).all (fun l => got.any (fun g => g.1 == l))

/-- The number that lines of 128 bytes spell; line n is gathered under the lane number 32 + n. -/
def linesNat (got : List (Nat × BitVec 1024)) : Nat := got.foldl (fun x g => x ||| g.2.toNat <<< (1024 * (g.1 - 32))) 0

/-- An FP64 word read as a tile element from an image (R325). -/
def tileOfImage (ty : TileTy) (x : Nat) : DWord :=
  match ty with
  | .f64 => BitVec.ofNat 64 x
  | .f32 => BitVec.ofNat 64 (roundTo .f64 .rne 0 false (decodeF .f32 x)).1
  | .bf16 => BitVec.ofNat 64 (roundTo .f64 .rne 0 false (decodeF .bf16 x)).1

/-- Bytes of an element of an image (R325). -/
def tileBytes : TileTy → Nat
  | .f32 => 4
  | .f64 => 8
  | .bf16 => 2

/-- Writes every element of a tile, and its label. -/
def State.tileWrite (s : State) (k t : Nat) (lab : Label) (f : Nat → DWord) : State :=
  s.onTeam k (fun tm => { tm with
    tiles := Cells.fill tm.tiles (4096 * t) 4096 f, tileLab := Cells.set tm.tileLab t lab })

/-- Makes every element of a tile free, with a label (R256, R321; log 6). -/
def State.tileFree (s : State) (k t : Nat) (lab : Label) : State :=
  let n := s.free
  { s.tileWrite k t lab (fun e => Config.freeWord (n + 16384 + e)) with free := n + 65536 }

/-- Puts gathered lines where they go (R325, R329). -/
def State.bulkTo (s : State) (k : Nat) (use : BulkUse) (x : Nat) (lab : Label) (clash : Bool) : State :=
  match use with
  | .codebook => s.onTeam k (fun tm => { tm with
      codebook := Cells.ofFn 0 1024 (fun i => BitVec.ofNat 8 (x >>> (8 * i))), codebookLab := lab
      table := tm.table + 1, oldTable := tm.codebookLab })
  | .tile t ty =>
    if clash then s.tileFree k t (lab ||| Cells.get (s.team k).tileLab t)
    else s.tileWrite k t lab (fun e => tileOfImage ty (x >>> (8 * tileBytes ty * e) % 2 ^ (8 * tileBytes ty)))

/-- Returns a result whose time has come (R23): written registers are settled, gathered values are written, an ordering
edge's accesses are performed, cache lines are gone. A WAITGE lets its strands go on; under STRICTLABEL the floor takes the
labels of the units read and of the address (R268). -/
def State.returnResult (s : State) (k w id : Nat) : State :=
  match (s.warp k w).result? id with
  | none => s
  | some r =>
    match r.kind with
    | .done => s.onWarp k w (fun wp => ({ wp with results := wp.results.filter (fun x => x.id != id) } : Warp).unmark)
    | .matrix => s
    | .fence ids =>
      if ids.any (fun x => s.pendingAt k x.1 x.2) then s
      else s.onWarp k w (fun wp => ({ wp with results := wp.results.filter (fun x => x.id != id) } : Warp).unmark)
    | .iinv ranges =>
      let s := s.onWarp k w (fun wp => ({ wp with results := wp.results.filter (fun x => x.id != id) } : Warp).unmark)
      { s with cores := s.cores.map (fun c =>
          (c.1, { c.2 with icache := List.filter (fun (l : Nat × List DWord) =>
            !(ranges.any (fun r => decide (r.1 ≤ l.1) && decide (l.1 < r.1 + r.2)))) c.2.icache })) }
    | .bulk use got lab want =>
      if got.length < want then s
      else
        let s := s.bulkTo k use (linesNat got) (lab ||| r.src) r.clash
        s.onWarp k w (fun wp =>
          ({ wp with results := wp.results.filter (fun x => x.id != id),
                     table := if use = .codebook then (s.team k).table else wp.table } : Warp).unmark)
    | .mem d sz sg got lab want =>
      if gathered got want then
        s.onWarp k w (fun wp => (wp.returnMem r (gatheredWrites d sz sg got (lab ||| r.src))).unmark)
      else s
    | .ge d sz got lab want =>
      if gathered got want then
        let strict := (s.hdr k).strictLabel
        let s := s.onWarp k w (fun wp =>
          let wp := wp.returnMem r (gatheredWrites d sz false got (lab ||| r.src))
          if strict then { wp with lbfloor := wp.lbfloor ||| lab } else wp)
        match s.late.find? (fun l => l.id == id) with
        | some l => s.finishLate l
        | none => s.onWarp k w Warp.unmark
      else s

/-! ## Performing -/

/-- Drops an access from its queue. -/
def State.unqueue (s : State) (id : Nat) : State :=
  { s with accesses := s.accesses.filter (fun a => a.id != id) }

/-- Ends the context of an access that reads a poisoned line (R358, R359), with the label of its address and the floor
(R352). -/
def State.poisonEnd (s : State) (a : Access) : State :=
  s.endContext a.ctx { reason := 3, va := a.va, global := s.warpGlobal a.team a.warp, pc := a.pc,
                       lab := a.aim ||| (s.warp a.team a.warp).lbfloor,
                       serial := (s.launch (s.team a.team).launch).serial }

/-- Performs a load, a label read or a WAITGE read of one lane (R125, R132, R268): at another module, unless a copy of the
line is kept here and serves it (R395). -/
def State.performLoad (s : State) (a : Access) : State :=
  if a.place.remote && !(a.op == .load && s.hitsL1 a) then s.sendAccess a
  else
    let lane := a.lanes.headD 0
    if s.poisoned a.place a.size && a.op != .label then s.poisonEnd a
    else match a.op with
      | .label =>
        let lab := s.unitLab a.place
        (s.unqueue a.id).deliver a.team a.warp a.res lane lab.toNat lab
      | _ =>
        let s := ((s.chargeAccess a).fetchFor a).catchUp a
        let x := s.loadValue a
        let lab := s.loadLab a
        let s := (s.readEchoes a (s.seenWrites a)).afterLook a.place a.size
        match a.op with
        | .testGe t =>
          if t.toNat ≤ x then (s.unqueue a.id).deliver a.team a.warp a.res lane x lab else s
        | _ => (s.unqueue a.id).deliver a.team a.warp a.res lane x lab

/-- The increment of a poisoned flag ends the context. One that is made for another module is answered so: `instr` holds that
module, and `res` the number of its request (R358, R395). -/
def State.flagPoison (s : State) (a : Access) : State :=
  if a.team = goneTeam then (s.unqueue a.id).sendFlit a.instr 5 0 [] (.response a.res [] false true) else s.poisonEnd a

/-- Performs a store or a flag increment at its home (R126, R218, R267). The increment of a poisoned flag ends the context
(R358). -/
def State.performStore (s : State) (a : Access) : State :=
  match a.place with
  | .peer _ _ _ => s.sendAccess a
  | _ =>
    match a.op with
    | .store d => ((s.chargeAccess a).putValue a d.toNat a.lab).unqueue a.id
    | .flagAdd =>
      if s.poisoned a.place 8 then s.flagPoison a
      else
        let s := s.hostGet a.place a.size true (s.whoOf a.ctx)
        let x := s.readHome a.place 8
        ((s.chargeAccess a).putValue a ((x + 1) % 2 ^ 64) a.lab).unqueue a.id
    | _ => s

/-- Performs an atomic group at its home as one indivisible step (R252, R253, R262). -/
def State.performGroup (s : State) (a : Access) : State :=
  match a.place with
  | .peer _ _ _ => s.sendAccess a
  | _ =>
    if s.poisoned a.place a.size then s.poisonEnd a
    else
      let s := ((s.chargeAccess a).hostGet a.place a.size true (s.whoOf a.ctx)).catchUp { a with nol1 := true }
      let lu := s.unitLab a.place
      let x := s.look a.core a.priv true a.place a.size
      let seen := s.seenWrites a
      let r := groupRun a x
      let labC := match a.op with | .cas _ l => l | _ => 0
      let s := if r.2.2.isEmpty then s else s.putValue a r.1 (a.lab ||| labC)
      let s := ((if a.res = 0 then s else s.readEchoes a seen).afterLook a.place a.size).unqueue a.id
      let s := if a.res = 0 then s
        else r.2.1.foldl (fun s o => s.deliver a.team a.warp a.res o.1 o.2 lu) s
      s.settleHash a.team a.warp a.id (r.2.2.map (fun o => (o.1, a.va, BitVec.ofNat 64 o.2)))

/-- Performs any access. -/
def State.performAny (s : State) (a : Access) : State :=
  match a.op with
  | .load | .line | .label | .testGe _ => s.performLoad a
  | .store _ | .flagAdd => s.performStore a
  | .rmw _ _ _ | .cas _ _ => s.performGroup a

/-- Drops echoes of writes that every sharer has applied. -/
def State.pruneEchoes (s : State) : State :=
  { s with echoes := s.echoes.filter (fun e => e.home.isSome || s.updating e.write .sys goneTeam) }

end Sys2Proof.Machine
end

