-- ==== Sys2Proof/Machine/Copy.lean ====
section
/-! DEFINITION. What a copy channel moves: the addresses of a transfer's bytes, unit by unit, its flag; and the state
that an Almanac warp reads, overlaid with its own commit buffer (R254, R278, R330-R333, R430). -/

namespace Sys2Proof.Machine

/-- Bytes of a transfer. -/
def Xfer.total (x : Xfer) : Nat := x.rows * x.rb

/-- Element size of a transposing shape. -/
def shapeElem : Shape → Nat
  | .t16 => 2
  | .d1 | .d2 | .t8 => 1

/-- Row and byte of the source, and the offset in the destination, of the n-th byte in ascending destination address
(R331, R333). -/
def Xfer.index (x : Xfer) (n : Nat) : Nat × Nat × Nat :=
  match x.shape with
  | .d1 => (0, n, n)
  | .d2 => (n / x.rb, n % x.rb, n / x.rb * x.dstr + n % x.rb)
  | .t8 | .t16 =>
    let e := shapeElem x.shape
    let k := n / (x.rows * e)
    let r := n % (x.rows * e)
    (r / e, k * e + r % e, k * x.dstr + r)

/-- Source address of the n-th byte. -/
def Xfer.srcAt (x : Xfer) (n : Nat) : Nat :=
  let i := x.index n
  (x.src.toNat + i.1 * x.sstr + i.2.1) % 2 ^ 64

/-- Destination address of the n-th byte. -/
def Xfer.dstAt (x : Xfer) (n : Nat) : Nat := (x.dst.toNat + (x.index n).2.2) % 2 ^ 64

/-- Is the destination an operand slot (R330)? -/
def Xfer.toSlot (x : Xfer) : Bool := field x.dst 63 60 == 0xC

/-- The page that holds an address. -/
def pageOf (ms : List PageMap) (a : Nat) : Option PageMap := ms.find? (fun p => p.vpage == a / 4096)

/-- The place of an address in a checked range. -/
def placeIn (ms : List PageMap) (a : Nat) : Option Place := (pageOf ms a).map (fun p => p.place.add (a % 4096))

/-- Writes a byte of a slot and widens its label (R300). -/
def State.slotByte (s : State) (core slot : Nat) (outlier : Bool) (off : Nat) (b : Byte) (lab : Label) : State :=
  s.onCore core (fun c =>
    let o := Cells.get c.slots slot
    let o1 : OpSlot := if outlier then { o with outlier := Cells.set o.outlier off b, lab := o.lab ||| lab }
      else { o with data := Cells.set o.data off b, lab := o.lab ||| lab }
    { c with slots := Cells.set c.slots slot o1 })

/-- The activity that copies are charged to (R421). -/
def copyActivity : Nat := 36

/-- A channel as a mover of data: it fills lines for its context and pays as the copy activity. -/
def State.copyWho (s : State) (x : Xfer) : Who := { s.whoOf x.ctx with act := some copyActivity }

/-- A write of a channel, performed at the scope of its flag (R333). -/
def State.chanWrite (s : State) (x : Xfer) (flag : Bool) (p : Place) (n v : Nat) (lab : Label) : State :=
  s.store { id := x.id, core := x.core, team := x.team, dom := .sc, scp := x.scp, flag, who := s.copyWho x } p n v lab

/-- Is a destination place one of the source's bytes (R331)? -/
def Xfer.selfOverlap (x : Xfer) (p : Place) : Bool :=
  x.overlap && (List.range x.total).any (fun n => match placeIn x.srcMap (x.srcAt n) with
    | some q => p.overlaps 1 q 1
    | none => false)

/-- How many bytes from the n-th on a channel writes at once: those of one aligned unit of some bytes of the destination that
follow one another; a unit of 8 is single-copy atomic (R254, R333). -/
def Xfer.unit (x : Xfer) (n size : Nat) : Nat :=
  ((List.range size).takeWhile (fun i =>
    decide (n + i < x.total) && decide (x.dstAt (n + i) = x.dstAt n + i) && decide (x.dstAt (n + i) / size = x.dstAt n / size))).length

/-- How many bytes from the n-th on one read takes: those of one aligned unit of the source that follow one another. -/
def Xfer.reach (x : Xfer) (n size : Nat) : Nat :=
  ((List.range size).takeWhile (fun i =>
    decide (n + i < x.total) && decide (x.srcAt (n + i) = x.srcAt n + i) && decide (x.srcAt (n + i) / size = x.srcAt n / size))).length

/-- What the channel writes from the n-th byte on when it has read bytes with their labels: none when the egress re-check of R430
fails. Bytes that overlap the source, and bytes of a slot in use by the array, are free, with both labels there (R256, R331;
log 6). -/
def State.copyPut (s : State) (x : Xfer) (n : Nat) (bs : List (Byte × Label)) : Option State :=
  let d := x.dstAt n
  let open_ (i : Nat) : Byte := (Config.freeWord (s.free + n + i)).setWidth 8
  let read := bs.foldl (fun (l : Label) b => l ||| b.2) 0
  if x.toSlot then
    let k := field x.dst 18 16
    if (Cells.get (s.core x.core).slots k).holder = some x.team then
      some (bs.zipIdx.foldl (fun (s : State) b =>
        s.slotByte x.core k (bit x.dst 15) ((d + b.2) % 32768) (if x.clash.isSome then open_ b.2 else b.1.1)
          (read ||| x.lab ||| x.clash.getD 0)) s)
    else some s
  else match pageOf x.dstMap d with
    | none => some s
    | some pg =>
      if read &&& ~~~pg.mask != 0 then none
      else
        let p := pg.place.add (d % 4096)
        let v := ofBytes (bs.zipIdx.map (fun b => if x.selfOverlap (p.add b.2) then open_ b.2 else b.1.1))
        some (s.chanWrite x false p bs.length v (read ||| x.lab))

/-- The k bytes that a channel reads at the n-th source byte of local memory, with their label. -/
def State.copyGet (s : State) (x : Xfer) (n k : Nat) : State × List (Byte × Label) :=
  match placeIn x.srcMap (x.srcAt n) with
  | none => (s, List.replicate k (0, 0))
  | some p =>
    let s := (s.hostGet p k false (s.copyWho x)).l2Reach (s.copyWho x) p k false
    ((s.afterLook p k), (bytesOf k (s.look x.core false true p k)).map (fun b => (b, s.unitLab p)))

/-- The flag's increment: one atomic at its home (R255, R333). -/
def State.copyFlag (s : State) (x : Xfer) : State :=
  if x.flag = 0 then s
  else match placeIn x.flagMap x.flag.toNat with
    | none => s
    | some p =>
      let s := s.hostGet p 8 true (s.copyWho x)
      s.chanWrite x true p 8 ((s.readHome p 8 + 1) % 2 ^ 64) x.flagLab

/-- How a transfer ends that is made at one instant: whole, stopped at a unit by its egress check, or by a poisoned byte. -/
inductive CopyEnd where
  | whole
  | stopped (n : Nat)
  | poisoned (n : Nat)
  deriving DecidableEq, Repr

/-- The bytes of a unit, read one by one, or the first that is poisoned. -/
def State.unitBytes (s : State) (x : Xfer) (n k : Nat) : State × Except Nat (List (Byte × Label)) :=
  (List.range k).foldl (fun (acc : State × Except Nat (List (Byte × Label))) i =>
    match acc.2 with
    | .error e => (acc.1, .error e)
    | .ok bs =>
      if (match placeIn x.srcMap (x.srcAt (n + i)) with | some p => acc.1.poisoned p 1 | none => false) then (acc.1, .error (n + i))
      else
        let r := acc.1.copyGet x (n + i) 1
        (r.1, .ok (bs ++ r.2))) (s, .ok [])

/-- The units of a transfer from the n-th byte on, at one instant. -/
def State.copyUnits (s : State) (x : Xfer) (n : Nat) : Nat → State × CopyEnd
  | 0 => (s, .whole)
  | fuel + 1 =>
    if x.total ≤ n then (s, .whole)
    else
      let k := max 1 (x.unit n 8)
      match s.unitBytes x n k with
      | (s, .error i) => (s, .poisoned i)
      | (s, .ok bs) => match s.copyPut x n bs with
        | none => (s, .stopped n)
        | some s => s.copyUnits x (n + k) fuel

/-- A whole transfer at one instant, up to a unit that fails its egress check or a poisoned byte (R278, R358, R430). -/
def State.copyAll (s : State) (x : Xfer) : State × CopyEnd :=
  match s.copyUnits x 0 x.total with
  | (s, .whole) => (s.copyFlag x, .whole)
  | r => r

/-! ## Almanac mode (R278) -/

/-- Writes an access of a commit buffer into a copy of the state, for reading it back. -/
def State.overlayAccess (s : State) (a : Access) : State :=
  match a.op with
  | .store d => s.writeHome a.place a.size d.toNat a.lab
  | .flagAdd => s.writeHome a.place 8 ((s.readHome a.place 8 + 1) % 2 ^ 64) a.lab
  | .rmw _ _ _ => s.writeHome a.place a.size (groupRun a (s.readHome a.place a.size)).1 a.lab
  | .cas _ l =>
    let r := groupRun a (s.readHome a.place a.size)
    if r.2.2.isEmpty then s else s.writeHome a.place a.size r.1 (a.lab ||| l)
  | .load | .line | .label | .testGe _ => s

/-- Writes the effect of a commit-buffer entry on memory. -/
def State.overlayEntry (s : State) (e : CEntry) : State :=
  match e with
  | .accesses as => as.foldl State.overlayAccess s
  | .tile _ team off bytes lab =>
    (bytes.zipIdx).foldl (fun (s : State) b => s.writeHome (.scr team (off + b.2)) 1 b.1.toNat lab) s
  | .copy _ x => (s.copyAll x).1
  | .event _ _ | .spawn _ _ _ | .flush _ => s

/-- The committed state overlaid with a warp's own buffer. It is read from and never becomes the state. -/
def State.overlaid (s : State) (k w : Nat) : State := (s.warp k w).cbuf.foldl State.overlayEntry s

/-- Adds entries to the commit buffer of a warp; none when it is full (R278, R279). -/
def State.bufferAdd (s : State) (k w : Nat) (es : List CEntry) : Option State :=
  if 4096 < (s.warp k w).cbuf.length + es.length then none
  else some (s.onWarp k w (fun wp => { wp with cbuf := wp.cbuf ++ es }))

end Sys2Proof.Machine
end

