-- ==== Sys2Proof/Machine/Address.lean ====
section
/-! DEFINITION. The checks of a memory instruction, lane by lane: scope cap, alignment, space, translation, flag rule, floor,
egress (R213-R215, R224, R250, R251, R258, R266, R430); and how its accesses enter the queues or the commit buffer
(R124, R259, R262, R278, R285, R287, R340). -/

namespace Sys2Proof

/-- Scope of a code. -/
def scopeOf : Nat → Scope
  | 0 => .team
  | 1 => .clus
  | 2 => .die
  | 3 => .pkg
  | 4 => .fab
  | _ => .sys

/-- A domain as a number, weakest first (R44, R234). -/
def Dom.rank : Dom → Nat
  | .bu => 0
  | .rc => 1
  | .co => 2
  | .tso => 3
  | .sc => 4

namespace Machine

/-- The context and the core of an issue. -/
def Cx.ctx (c : Cx) : Nat := (c.s.team c.n.team).ctx
def Cx.core (c : Cx) : Nat := (c.s.team c.n.team).core

/-! ## Scope caps (R251) -/

/-- Runs a body at the scope that the VF's cap leaves of an instruction's scope: SCOPE_DENIED in every active lane under
the strict bit, else the cap, with SR.SCOPECLAMP bit 0 set. -/
def Cx.scoped (c : Cx) (scp : Scope) (f : Cx → Scope → Eff) : Eff :=
  let x := c.s.context c.ctx
  let cap := c.s.scopeCap x
  if scp.rank ≤ cap then f c scp
  else if c.s.strictBit x then { s := c.s, ends := trapAll c.act .scopeDenied (BitVec.ofNat 64 scp.rank) 0 }
  else f { c with s := c.s.onWarp c.n.team c.n.warp (fun w => { w with scopeclamp := w.scopeclamp ||| 1 }) } (scopeOf cap)

/-! ## Addresses (R21, R213-R215) -/

/-- The address of a lane. -/
def Cx.ea (c : Cx) (m : MemOp) (lane : Nat) : DWord :=
  (if m.aw then c.w m.a.toNat else c.v2 lane m.a.toNat) + m.off.signExtend 64 * BitVec.ofNat 64 m.sz.bytes

/-- `addr_label` of R29. -/
def Cx.labA (c : Cx) (m : MemOp) : Label := if m.aw then c.labW m.a.toNat else c.labV m.a 2

/-- Where an address leads before translation: a virtual address (lane-local or not), a scratchpad, or nowhere. -/
inductive Form where
  | virt (va : DWord) (priv : Bool)
  | scr (team off : Nat)
  | bad
  deriving DecidableEq, Repr

/-- The team of a cluster by its team-in-cluster index. -/
def State.sibling (s : State) (k idx : Nat) : Nat :=
  let t := s.team k
  ((List.find? (fun (x : Nat × Team) => x.2.launch == t.launch && x.2.cluster == t.cluster && x.2.sibling == idx)
    s.teams).map (·.1)).getD goneTeam

/-- The lane-local area of a lane: its virtual base (R215). -/
def State.localBase (s : State) (k w lane : Nat) : Nat :=
  let h := s.hdr k
  h.localBase + (32 * s.warpGlobal k w + lane) * h.localBytes

/-- The space of an address and the form checks of R213 for an access of some bytes. -/
def State.formOf (s : State) (k w lane : Nat) (va : DWord) (size : Nat) : Form :=
  let h := s.hdr k
  match field va 63 60 with
  | 0 => if field va 59 57 = 0 then .virt va false else .bad
  | 8 => if field va 59 24 = 0 ∧ field va 23 0 + size ≤ h.scratchBytes then .scr k (field va 23 0) else .bad
  | 9 =>
    if field va 59 28 = 0 ∧ field va 27 24 < h.teamsPer ∧ field va 23 0 + size ≤ h.scratchBytes then
      .scr (s.sibling k (field va 27 24)) (field va 23 0)
    else .bad
  | 10 =>
    let o := field va 31 0
    let t := (s.localBase k w lane + o) % 2 ^ 64
    if field va 59 32 = 0 ∧ o + size ≤ h.localBytes ∧ t < 2 ^ 57 then .virt (BitVec.ofNat 64 t) true else .bad
  | _ => .bad

/-- The place of a lane's access: lane, address as issued, place, whether it is lane-local, and its leaf. -/
structure Spot where
  lane : Nat
  va : DWord
  place : Place
  priv : Bool := false
  leaf : Option DWord := none
  deriving DecidableEq, Repr, Inhabited

/-- A trap of one lane with an address as detail. -/
def addrTrap (lane : Nat) (cause : Cause) (va : DWord) (lab : Label) : LaneEnd :=
  .trap { lane, cause, detail := va, lab } false

/-- Orders 2 and 3 of R258: alignment, then tag and form. A lane-local address is checked again as the address it stands
for (R215; log 16). -/
def Cx.formCheck (c : Cx) (s : State) (lane : Nat) (va : DWord) (size align : Nat) (lab : Label) : Except LaneEnd Form :=
  if va.toNat % align ≠ 0 then .error (addrTrap lane .misalignedAddr va lab)
  else match s.formOf c.n.team c.n.warp lane va size with
    | .bad => .error (addrTrap lane .badSpace va lab)
    | .virt a p => if a.toNat % align ≠ 0 then .error (addrTrap lane .misalignedAddr va lab) else .ok (.virt a p)
    | f => .ok f

/-- Order 4 of R258: translation and permission. The fault names the translated address. -/
def Cx.locate (c : Cx) (s : State) (lane : Nat) (va : DWord) (f : Form) (need : Need) (access : Nat) (lab : Label) :
    State × Except LaneEnd Spot :=
  match f with
  | .bad => (s, .error (addrTrap lane .badSpace va lab))
  | .scr t o => (s, .ok { lane, va, place := .scr t o })
  | .virt a priv =>
    match s.translate c.core c.ctx a need with
    | (s, .error (k, m)) => (s, .error (.fault { kind := k, access, va := a, malformed := m, lab }))
    | (s, .ok (p, leaf)) => (s, .ok { lane, va, place := p, priv, leaf := some leaf })

/-- Orders 2 to 4. -/
def Cx.resolve (c : Cx) (s : State) (lane : Nat) (va : DWord) (size align : Nat) (need : Need) (access : Nat)
    (lab : Label) : State × Except LaneEnd Spot :=
  match c.formCheck s lane va size align lab with
  | .error e => (s, .error e)
  | .ok f => c.locate s lane va f need access lab

/-! ## Flag rule, floor, egress (R250, R260, R266, R430) -/

/-- The PEER field of a peer leaf. -/
def Spot.peer (x : Spot) : Option Nat :=
  match x.leaf with
  | some l => if leafApt l = 1 then some (field l 60 57) else none
  | none => none

/-- The origins that may leave toward a place: none is a bar for local places (R430). -/
def State.egressMask (s : State) (p : Place) : Label :=
  match p with
  | .host vf _ => s.originOf vf
  | .peer m v _ =>
    ((s.fabric.windows.find? (fun w => w.module == m && w.vf == v)).map (fun w => (1#16 <<< w.origin))).getD 0
  | .dev _ | .scr _ _ => 0xFFFF

/-- Orders 5 and 6 of R258 and the egress check after them: `noFlag` says that the flag rule is broken, `out` is the
label that a store-type access carries. -/
def Cx.barred (s : State) (x : Spot) (dom : Dom) (noFlag : Bool) (out : Option Label) (lab : Label) : Option LaneEnd :=
  if noFlag then some (addrTrap x.lane .remoteStoreNoflag x.va lab)
  else if (match x.leaf with | some l => decide (dom.rank < field l 54 52) | none => false) then
    some (addrTrap x.lane .domainFloor x.va lab)
  else match out with
    | some l => if l &&& ~~~(s.egressMask x.place) != 0 then some (addrTrap x.lane .labelEgress x.va lab) else none
    | none => none

/-- Checks every active lane in ascending order: what the lanes that pass give, and the ends of the others. -/
def Cx.checkLanes {α : Type} (c : Cx) (s : State) (f : State → Nat → State × Except LaneEnd α) :
    State × List α × List (Nat × LaneEnd) :=
  c.lanesA.foldl (fun (acc : State × List α × List (Nat × LaneEnd)) l =>
    match f acc.1 l with
    | (s, .ok x) => (s, acc.2.1 ++ [x], acc.2.2)
    | (s, .error e) => (s, acc.2.1, acc.2.2 ++ [(l, e)])) (s, [], [])

/-- The checks of a plain access of one lane. -/
def Cx.checked (c : Cx) (m : MemOp) (need : Need) (access : Nat) (noPeer : Bool) (out : Option Label) (s : State)
    (lane : Nat) : State × Except LaneEnd Spot :=
  let lab := c.labA m
  match c.resolve s lane (c.ea m lane) m.sz.bytes m.sz.bytes need access lab with
  | (s, .error e) => (s, .error e)
  | (s, .ok x) =>
    match Cx.barred s x m.dom (noPeer && x.peer.isSome) out lab with
    | some e => (s, .error e)
    | none => (s, .ok x)

/-! ## Accesses -/

/-- A policy by its code (R44). -/
def polOf : Nat → Pol
  | 0 => .dflt
  | 1 => .stream
  | 2 => .keep
  | _ => .nol1

/-- The policy that governs an access: the instruction's, or its leaf's (R220). The scratchpad has none. -/
def Cx.policy (m : MemOp) (x : Spot) : Pol :=
  if m.pol = .dflt then (match x.leaf with | some l => polOf (field l 56 55) | none => .nol1) else m.pol

/-- Does the policy that governs an access bypass L1 (R220)? -/
def Cx.noL1 (m : MemOp) (x : Spot) : Bool := !x.priv && Cx.policy m x == .nol1

/-- The mark that the policy gives the line (R127). -/
def Evict.ofPol : Pol → Evict
  | .stream => .early
  | .keep => .late
  | .dflt | .nol1 => .plain

/-- May the line of a peer's leaf be kept here: WR = 0 (R219, R395)? -/
def Spot.keeps (x : Spot) : Bool :=
  match x.leaf with
  | some l => leafApt l == 1 && !bit l 3
  | none => false

/-- The window of a RECORD or REPLAY launch that holds an address (R285). -/
def Cx.window (c : Cx) (va : DWord) : Option Nat :=
  if c.hdr.record || c.hdr.replay then
    ((c.s.launch (c.s.team c.n.team).launch).windows.find? (fun w =>
      decide (w.base.toNat ≤ va.toNat) && decide (va.toNat < w.base.toNat + w.len))).map (·.n)
  else none

/-- The access of a lane. It comes after the writes, still on their way, that what it depends on has read (R240). -/
def Cx.access (c : Cx) (m : MemOp) (scp : Scope) (instr : Nat) (x : Spot) (op : AccOp) : Access where
  id := 0
  team := c.n.team
  warp := c.n.warp
  core := c.core
  ctx := c.ctx
  lanes := [x.lane]
  dom := m.dom
  scp := scp
  priv := x.priv
  nol1 := Cx.noL1 m x
  mark := Evict.ofPol (Cx.policy m x)
  share := x.keeps && !Cx.noL1 m x
  place := x.place
  va := x.va
  pc := c.n.pc
  size := m.sz.bytes
  op := op
  aim := c.labA m
  after := c.waitOn x.lane (!op.loads)
  instr := instr

/-- Does an Almanac warp hold an effect back until its next commit point (R278)? -/
def Cx.buffers (c : Cx) : Bool := c.hdr.almanac && !c.n.commit

/-- Sends accesses that write: into the queues, or for an Almanac warp into its commit buffer, one entry for each list.
Lane-local accesses bypass the buffer. Later accesses of a list follow its first, at the given scope. The answer is none
when the buffer is full. -/
def Cx.post (c : Cx) (s : State) (scp : Scope) (groups : List (List Access)) : Option (State × List Access) :=
  let r := groups.foldl (fun (acc : State × List (List Access) × List Access) g =>
    let numbered := g.zipIdx.map (fun (a : Access × Nat) =>
      { a.1 with
        id := acc.1.nextId + a.2
        after := if a.2 = 0 then a.1.after else a.1.after ++ [(acc.1.nextId, scp)] })
    let s := { acc.1 with nextId := acc.1.nextId + g.length }
    if c.buffers && !(g.any (·.priv)) then (s, acc.2.1 ++ [numbered], acc.2.2 ++ numbered)
    else (numbered.foldl State.enqueue s, acc.2.1, acc.2.2 ++ numbered)) (s, [], [])
  if r.2.1.isEmpty then some (r.1, r.2.2)
  else (r.1.bufferAdd c.n.team c.n.warp (r.2.1.map CEntry.accesses)).map (fun s => (s, r.2.2))

/-- Notes an instruction whose lanes wait for checks elsewhere, and ends it for now: its strands are Held until the
last of them has passed or failed (R258, R340). With nothing to wait for, it ends at once. -/
def Cx.await (c : Cx) (s : State) (ends : List (Nat × LaneEnd)) (waits : List Nat) (result : Option Result) : Eff :=
  if waits.isEmpty then { s, ends, result }
  else
    let l : Late := { id := s.nextId, now := c.n, h := c.h, active := c.act, waits, ends }
    { s := { s.fresh with late := s.late ++ [l] }
      after := { st := .held (.late s.nextId), keep := true }
      result }

/-- The accesses whose checks the strand waits for: those gated in a REPLAY launch, and those that a peer answers. -/
def Cx.openIds (c : Cx) (as : List Access) : List Nat :=
  (as.filter (fun a => (a.window.isSome && c.hdr.replay) ||
    (a.res != 0 && (match a.place with | .peer _ _ _ => true | _ => false)))).map (·.id)

/-- Appends an instruction's store records to the hash (R287): those known now, with the order points they wait for. -/
def Cx.hash (c : Cx) (s : State) (e : HashEnt) : State :=
  s.onWarp c.n.team c.n.warp (fun w => ({ w with hashQ := w.hashQ ++ [e] } : Warp).drain)

/-- The registers of a destination with their labels. -/
def Cx.destRegs (c : Cx) (d : BitVec 8) (words : Nat) : List (Reg × Label) :=
  if d = 255 then [] else (List.range words).map (fun i => (.v (d.toNat + i), c.warp.rawLab (.v (d.toNat + i))))

/-- A result that gathers a value for each lane. -/
def Cx.gather (c : Cx) (id : Nat) (d : BitVec 8) (sz : Size) (signed : Bool) (want : Lanes) (lab : Label) : Result where
  id := id
  lanes := want
  full := c.full
  kind := .mem d.toNat sz.bytes signed [] 0 want
  regs := c.destRegs d sz.words
  src := lab ||| c.ambient

end Machine
end Sys2Proof
end

