-- ==== Sys2Proof/Machine/Memory.lean ====
section
/-! DEFINITION. Loads, stores, atomics, flagged stores, waiting on a value, hints (R123-R131, R257-R271). -/

namespace Sys2Proof.Machine

/-! ## Shared forms -/

/-- The value that an Almanac load reads at issue (R278): the committed state under the warp's own buffer, or lane-local memory,
which no buffer holds back. -/
def Cx.nowValue (c : Cx) (s : State) (a : Access) : Nat × Label :=
  if a.priv then (s.look a.core true false a.place a.size, s.unitLab a.place)
  else
    let o := s.overlaid c.n.team c.n.warp
    (o.look a.core false true a.place a.size, o.unitLab a.place)

/-- Asks for the lines of other modules that accesses read at issue: none when all of them are here; else the strand waits for
them and the instruction issues again (R278; log 73). -/
def Cx.askLines (c : Cx) (s : State) (as : List Access) : Option Eff :=
  if as.all (fun a => s.hasLine a.place) then none
  else
    let s := as.foldl (fun (s : State) a => s.askLine c.n.team c.n.warp a.lanes c.n.pc a.va a.place) s
    let ids := (s.accesses.filter (fun x => x.team == c.n.team && x.warp == c.n.warp && x.op == .line)).map (fun x => (x.id, Scope.team))
    some { s, after := { st := .held (.drain ids), keep := true } }

/-- Did another module refuse the line of an access (R430)? -/
def State.refusedLine (s : State) (a : Access) : Bool := a.place.remote && (Cells.get s.remote a.place.lineKey).egress

/-- Does an access read a poisoned line, here or as another module answered (R358)? -/
def State.readsPoison (s : State) (a : Access) : Bool :=
  a.op != .label && (s.poisoned a.place a.size || (a.place.remote && s.badLine a.place))

/-- The reads of an Almanac warp, made at issue (R278). A lane that another module refuses takes LABEL_EGRESS (R430). -/
def Cx.readNow (c : Cx) (s : State) (as : List Access) (ends : List (Nat × LaneEnd)) (r : Result) : Eff :=
  match c.askLines s as with
  | some e => e
  | none => match as.find? s.readsPoison with
    | some a => { s := s.poisonEnd a }
    | none =>
      let s1 := as.foldl (fun (s : State) a => ((s.chargeAccess a).fetchFor { a with nol1 := true }).afterLook a.place a.size) s
      let r := as.foldl (fun (r : Result) a =>
        if s.refusedLine a then a.lanes.foldl (fun (r : Result) l => { r with kind := r.kind.forgo l }) r
        else
          let v := c.nowValue s a
          { r with kind := r.kind.give (a.lanes.headD 0) (if a.op = .label then v.2.toNat else v.1) v.2 }) r
      let refused := (as.filter s.refusedLine).flatMap (fun a => (a.lanes.filter (· < 32)).map (fun l =>
        (l, addrTrap l .labelEgress a.va a.aim)))
      let bulk := match r.kind with | .bulk _ _ _ _ => true | _ => false
      { s := s1, ends := ends ++ refused, result := if bulk && !refused.isEmpty then none else some r }

/-- Sends the reads of an instruction. An Almanac warp reads at issue; other reads are performed later and fill the result. -/
def Cx.sendLoads (c : Cx) (s : State) (as : List Access) (ends : List (Nat × LaneEnd)) (r : Result) : Eff :=
  if as.isEmpty then { s, ends }
  else if c.buffers then c.readNow s as ends r
  else
    let q := as.foldl (fun (acc : State × List Access) a =>
      (acc.1.queue a, acc.2 ++ [{ a with id := acc.1.nextId }])) (s, [])
    c.await q.1 ends (c.openIds q.2) (some r)

/-- Performs the lane-local accesses of an Almanac warp at issue (R278). -/
def Cx.localNow (c : Cx) (s : State) (as : List Access) : State :=
  if c.buffers then
    (as.filter (·.priv)).foldl (fun (s : State) a => match s.accesses.find? (fun x => x.id == a.id) with
      | some x => s.performAny x
      | none => s) s
  else s

/-- Store-type accesses of an instruction that leaves no result: posted, hashed, and awaited where a gate holds them. -/
def Cx.sendStores (c : Cx) (s : State) (scp : Scope) (groups : List (List Access)) (ends : List (Nat × LaneEnd))
    (lab : Label) (recs : List Access → List (Nat × DWord × DWord)) (addrs : List (Nat × DWord)) (atomic : Bool)
    (result : Option Result) : Eff :=
  if groups.isEmpty then { s, ends }
  else
    let instr := s.nextId
    match c.post s.fresh scp (groups.map (fun g => g.map (fun a => { a with instr }))) with
    | none => { s, bufferFull := true }
    | some (s, as) =>
      let firsts := as.filter (fun a => a.op != .flagAdd)
      let wait := (firsts.filter (fun a => atomic || a.window.isSome)).map (·.id)
      let s := c.hash s { instr, lab, wait, recs := recs firsts, addrs }
      c.await (c.localNow s as) ends (c.openIds firsts) result

/-- The hash records of stored data: two for 128 bits (R287). -/
def storeRecs (as : List Access) : List (Nat × DWord × DWord) :=
  as.flatMap (fun a => match a.op with
    | .store d =>
      let l := a.lanes.headD 0
      if a.size = 16 then [(l, a.va, d.setWidth 64), (l, a.va + 8, (d >>> 64).setWidth 64)]
      else [(l, a.va, BitVec.ofNat 64 (d.toNat % 2 ^ (8 * a.size)))]
    | _ => [])

/-- The data that a lane stores: the low bytes of its register, pair or quad (R126). -/
def Cx.data (c : Cx) (m : MemOp) (b : BitVec 8) (lane : Nat) : BitVec 1024 :=
  BitVec.ofNat 1024 (c.vn lane b.toNat m.sz.words % 2 ^ (8 * m.sz.bytes))

/-- What a store widens its unit by (R28). -/
def Cx.storeLab (c : Cx) (m : MemOp) (b : BitVec 8) : Label := c.labV b m.sz.words ||| c.labA m ||| c.ambient

/-- The groups of R262: lanes by place, in order of their lowest lanes. -/
def groupSpots (xs : List Spot) : List (Spot × List Nat) :=
  xs.foldl (fun (gs : List (Spot × List Nat)) x =>
    if gs.any (fun g => g.1.place == x.place) then
      gs.map (fun g => if g.1.place == x.place then (g.1, g.2 ++ [x.lane]) else g)
    else gs ++ [(x, [x.lane])]) []

/-- ATOM, CAS and RED: the checks, the groups, and the result when one is returned (R131, R261, R262). -/
def Cx.atomics (c : Cx) (m : MemOp) (scp : Scope) (d : Option (BitVec 8)) (lab extra : Label)
    (op : List Nat → AccOp) : Eff :=
  let r := c.checkLanes c.s (c.checked m .rmw 2 false (some (lab ||| extra)))
  let want := lanesOf (r.2.1.map (·.lane))
  let rid := r.1.nextId
  let result := d.map (fun d => c.gather rid d m.sz false want (c.labA m))
  let groups := (groupSpots r.2.1).map (fun g =>
    [{ c.access m scp 0 g.1 (op g.2) with
        lanes := g.2, lab := lab, after := g.2.flatMap (fun l => c.waitOn l true), res := if d.isSome then rid else 0, window := c.window g.1.va }])
  c.sendStores (if d.isSome then r.1.fresh else r.1) scp groups r.2.2 (lab ||| extra) (fun _ => [])
    (r.2.1.map (fun x => (x.lane, x.va))) true (if r.2.1.isEmpty then none else result)

/-! ## Loads and stores -/

/-- LD: one value for each active lane (R125). -/
def execLd (h : Hdr) (m : MemOp) (d : BitVec 8) (s : State) : Host.Outcome State Fault Refusal :=
  issue (.ld h m d) s (fun cx => cx.scoped m.scp (fun cx scp =>
    let r := cx.checkLanes cx.s (cx.checked m .read 0 false none)
    let rid := r.1.nextId
    cx.sendLoads r.1.fresh
      (r.2.1.map (fun x => { cx.access m scp rid x .load with res := rid, acq := m.o })) r.2.2
      (cx.gather rid d m.sz (m.sz == .i8 || m.sz == .i16) (lanesOf (r.2.1.map (·.lane))) (cx.labA m))))

/-- ST: one store for each active lane (R126, R260). -/
def execSt (h : Hdr) (m : MemOp) (b : BitVec 8) (s : State) : Host.Outcome State Fault Refusal :=
  issue (.st h m b) s (fun cx => cx.scoped m.scp (fun cx scp =>
    let lab := cx.storeLab m b
    let r := cx.checkLanes cx.s (cx.checked m .write 1 true (some lab))
    cx.sendStores r.1 scp
      (r.2.1.map (fun x => [{ cx.access m scp 0 x (.store (cx.data m b x.lane)) with
                                lab := lab, rel := m.o, window := cx.window x.va }]))
      r.2.2 lab storeRecs [] false none))

/-! ## Atomics -/

/-- The operand of an atomic in a lane. -/
def Cx.operand (c : Cx) (m : MemOp) (b : BitVec 8) (lane : Nat) : DWord :=
  BitVec.ofNat 64 (c.vn lane b.toNat m.sz.words)

/-- ATOM: read-modify-write by groups; the old values go to D unless it is VZ (R128, R131, R262). -/
def execAtom (h : Hdr) (m : MemOp) (op : Aop) (d b : BitVec 8) (s : State) : Host.Outcome State Fault Refusal :=
  issue (.atom h m op d b) s (fun cx => cx.scoped m.scp (fun cx scp =>
    cx.atomics m scp (if d = 255 then none else some d) (cx.storeLab m b) 0
      (fun ls => .rmw op m.o (ls.map (fun l => (l, cx.operand m b l))))))

/-- CAS: compare and swap by groups (R130, R131, R262). -/
def execCas (h : Hdr) (m : MemOp) (d b c : BitVec 8) (s : State) : Host.Outcome State Fault Refusal :=
  issue (.cas h m d b c) s (fun cx => cx.scoped m.scp (fun cx scp =>
    let labC := cx.labV c m.sz.words
    cx.atomics m scp (if d = 255 then none else some d) (cx.storeLab m b) labC
      (fun ls => .cas (ls.map (fun l => (l, cx.operand m b l, cx.operand m c l))) labC)))

/-- RED: the read-modify-write of ATOM without a result (R261). -/
def execRed (h : Hdr) (m : MemOp) (op : Aop) (b : BitVec 8) (s : State) : Host.Outcome State Fault Refusal :=
  issue (.red h m op b) s (fun cx => cx.scoped m.scp (fun cx scp =>
    cx.atomics m scp none (cx.storeLab m b) 0
      (fun ls => .rmw op m.o (ls.map (fun l => (l, cx.operand m b l))))))

/-! ## Flagged stores (R265-R267) -/

/-- The checks of one lane of an STF: its data and, when it names one, its flag (R258, R265, R266). -/
def Cx.checkStf (c : Cx) (m : MemOp) (fc : BitVec 8) (out : Label) (s : State) (lane : Nat) :
    State × Except LaneEnd (Spot × Option Spot) :=
  let lab := c.labA m
  let labF := c.labV fc 2
  let va := c.ea m lane
  let fa := c.v2 lane fc.toNat
  let sz := m.sz.bytes
  match c.formCheck s lane va sz sz lab with
  | .error (.trap t a) =>
    if t.cause = .badSpace ∧ fa ≠ 0 ∧ fa.toNat % 8 ≠ 0 then (s, .error (addrTrap lane .misalignedAddr fa labF))
    else (s, .error (.trap t a))
  | .error e => (s, .error e)
  | .ok f =>
    if fa.toNat % 8 ≠ 0 then (s, .error (addrTrap lane .misalignedAddr fa labF))
    else if field fa 63 57 ≠ 0 then (s, .error (addrTrap lane .badSpace fa labF))
    else match c.locate s lane va f .write 1 lab with
      | (s, .error e) => (s, .error e)
      | (s, .ok x) =>
        if fa = 0 then
          match Cx.barred s x m.dom x.peer.isSome (some out) lab with
          | some e => (s, .error e)
          | none => (s, .ok (x, none))
        else match c.locate s lane fa (.virt fa false) .flag 6 labF with
          | (s, .error e) => (s, .error e)
          | (s, .ok y) =>
            match Cx.barred s x m.dom (x.peer != y.peer) (some out) lab with
            | some e => (s, .error e)
            | none => (s, .ok (x, some y))

/-- STF: a store whose target module adds 1 to a flag once the data is performed (R265-R267). -/
def execStf (h : Hdr) (m : MemOp) (b c : BitVec 8) (s : State) : Host.Outcome State Fault Refusal :=
  issue (.stf h m b c) s (fun cx => cx.scoped m.scp (fun cx scp =>
    let lab := cx.storeLab m b
    let labF := cx.labV c 2 ||| cx.labA m ||| cx.ambient
    let r := cx.checkLanes cx.s (cx.checkStf m c lab)
    cx.sendStores r.1 (if scp = .sys then .sys else .fab)
      (r.2.1.map (fun x =>
        let data : Access := { cx.access m scp 0 x.1 (.store (cx.data m b x.1.lane)) with
                                 lab := lab, rel := m.o, window := cx.window x.1.va }
        data :: (match x.2 with
          | some y => [{ cx.access m scp 0 y .flagAdd with size := 8, lab := labF, aim := cx.labV c 2 }]
          | none => [])))
      r.2.2 lab storeRecs [] false none))

/-! ## Waiting on a value (R268, R269) -/

/-- In a slice where a lane of a WAITGE faults, the lanes that passed their checks park with it: the whole instruction
issues again (R269). They take the fault of the slice's lowest faulting lane. -/
def parkWith (ends : List (Nat × LaneEnd)) (lanes : List Nat) : List (Nat × LaneEnd) :=
  lanes.filterMap (fun l =>
    (ends.find? (fun e => e.1 / 4 == l / 4 && (match e.2 with | .fault _ => true | _ => false))).map (fun e => (l, e.2)))

/-- WAITGE: parks the strand until every lane's word is at least its threshold (R268). -/
def execWaitge (h : Hdr) (m : MemOp) (d b : BitVec 8) (s : State) : Host.Outcome State Fault Refusal :=
  issue (.waitge h m d b) s (fun cx => cx.scoped m.scp (fun cx scp =>
    let r := cx.checkLanes cx.s (cx.checked m .read 0 false none)
    let parked := parkWith r.2.2 (r.2.1.map (·.lane))
    let stay := r.2.1.filter (fun x => !(parked.any (fun e => e.1 == x.lane)))
    let ends := r.2.2 ++ parked
    if stay.isEmpty then { s := r.1, ends }
    else
      let rid := r.1.nextId
      let want := lanesOf (stay.map (·.lane))
      let res : Result :=
        { id := rid, lanes := want, full := cx.full, kind := .ge d.toNat m.sz.bytes [] (cx.labA m) want,
          regs := cx.destRegs d m.sz.words, src := cx.labA m ||| cx.ambient }
      let late : Late := { id := rid, now := cx.n, h := cx.h, active := want, waits := [] }
      let s1 : State := { r.1.fresh with late := r.1.late ++ [late] }
      let s2 := stay.foldl (fun (s : State) x =>
        s.queue { cx.access m scp rid x (.testGe (cx.operand m b x.lane)) with res := rid, acq := m.o }) s1
      { s := s2, ends, after := { st := .waiting (.ge rid), keep := true }, result := some res }))

/-! ## Hints (R270, R271) -/

/-- The place of a hint's line, for a lane whose address passes every check; hints take no trap and no fault. -/
def Cx.hintPlace (c : Cx) (m : MemOp) (s : State) (lane : Nat) : State × Option Spot :=
  match s.formOf c.n.team c.n.warp lane (c.ea m lane) 1 with
  | .virt a priv =>
    match s.translate c.core c.ctx a .read with
    | (s, .error _) => (s, none)
    | (s, .ok (p, leaf)) => (s, some { lane, va := c.ea m lane, place := p, priv, leaf := some leaf })
  | .scr _ _ | .bad => (s, none)

/-- Brings the line of an access toward its core: into L1 and L2 under its policy, or into L2 alone. A peer's line that may be
kept here is asked for, for no lane (R219, R270). -/
def State.prefetch (s : State) (a : Access) : State :=
  let line : Access := { a with size := 1 }
  match a.place with
  | .dev _ | .host _ _ => if s.poisoned a.place 1 then s else s.fetchFor line
  | .peer _ _ _ =>
    if !a.share || s.hitsL1 a then s
    else
      let s1 := s.queue { line with lanes := [] }
      match s1.accesses.find? (fun x => x.id == s.nextId) with
      | some x => s1.sendAccess x
      | none => s1
  | .scr _ _ => s

/-- LDPF: a prefetch that neither traps nor faults (R270). -/
def execLdpf (h : Hdr) (m : MemOp) (s : State) : Host.Outcome State Fault Refusal :=
  issue (.ldpf h m) s (fun cx =>
    { s := cx.lanesA.foldl (fun (s : State) l => match cx.hintPlace m s l with
        | (s, some x) => s.prefetch (cx.access m .team 0 x .load)
        | (s, none) => s) cx.s })

/-- Takes a line out of an L1, after the bytes of a lane-local line that are not written back. -/
def State.l1Evict (s : State) (core key : Nat) : State :=
  match Cells.find? (s.core core).l1 key with
  | none => s
  | some l =>
    let s := s.onCore core (fun c => { c with l1 := Cells.erase c.l1 key })
    if l.dirty = 0 then s else s.privBack (key - 2 ^ 60) l

/-- Makes a line the first to leave its set in its home slice (R271). -/
def State.l2Demote (s : State) (line : Nat) : State :=
  s.onDie (lineDie line) (fun d => { d with l2 := Cells.modify d.l2 (lineSet line) (fun ls =>
    ls.filter (fun l => l.line == line) ++ ls.filter (fun l => l.line != line)) })

/-- The effect of a cache maintenance operation on the line of a place (R271). No value, label or order changes: an L1 that gives
a line up has taken the writes on their way to it. -/
def State.maintain (s : State) (core : Nat) (op : MaintOp) (x : Spot) : State :=
  match x.place with
  | .dev pa =>
    let line := pa / 128
    let holders := s.cores.map (·.1)
    match op with
    | .evl1 => s.l1Evict core (if x.priv then privKey line else line)
    | .wbl2 => s.l2Clean (· == line)
    | .evl2 =>
      (holders.foldl (fun (s : State) c => (s.l1Evict c (privKey line)).l1Evict c line) s).l2Drop (· == line)
    | .demote =>
      (holders.foldl (fun (s : State) c => (s.markLine c (privKey line) .early).markLine c line .early) s).l2Demote line
  | .host _ _ | .peer _ _ _ | .scr _ _ => s

/-- CMAINT: maintenance of one line for each lane (R271). -/
def execCmaint (h : Hdr) (m : MemOp) (op : MaintOp) (s : State) : Host.Outcome State Fault Refusal :=
  issue (.cmaint h m op) s (fun cx =>
    { s := cx.lanesA.foldl (fun (s : State) l => match cx.hintPlace m s l with
        | (s, some x) => s.maintain cx.core op x
        | (s, none) => s) cx.s })

end Sys2Proof.Machine
end

