-- ==== Sys2Proof/Machine/Matrix.lean ====
section
/-! DEFINITION. Operand slots, the matrix array's queue, the tile port, the codebook (R256, R298-R307, R315-R325, R329). -/

namespace Sys2Proof.Machine

/-! ## Slots (R299, R300, R318) -/

/-- The slot of a matrix source, when it is one. -/
def slotOf (src : BitVec 4) : Option Nat := if src.toNat < 8 then some src.toNat else none

/-- The slots that an instruction of the array reads. -/
def MatEnt.slots (m : MatEnt) : List Nat :=
  match m.op with
  | .mma _ _ _ _ sa sb _ _ _ _ _ => (slotOf sa).toList ++ (slotOf sb).toList
  | .mscac _ _ _ _ _ => []

/-- Does an instruction of the array read a slot? -/
def MatEnt.readsSlot (m : MatEnt) (n : Nat) : Bool := m.slots.contains n

/-- The slot that a transfer writes. -/
def Xfer.slot (x : Xfer) : Option Nat := if x.toSlot then some (field x.dst 18 16) else none

/-- Every transfer accepted on a core's channels. -/
def Core.xfers (c : Core) : List Xfer := c.chans.flatMap (fun (x : Nat × Chan) => x.2.xfers)

/-- Slots that a team holds on a core. -/
def Core.held (c : Core) (k : Nat) : Nat :=
  (List.filter (fun (o : Nat × OpSlot) => o.2.holder == some k) c.slots).length

/-- SCLAIM claims a slot for the team (R299, R318). -/
def execSclaim (h : Hdr) (n : BitVec 3) (s : State) : Host.Outcome State Fault Refusal :=
  issue (.sclaim h n) s (fun cx =>
    let c := (cx.s.team cx.n.team).core
    let k := cx.n.team
    let core := cx.s.core c
    match (Cells.get core.slots n.toNat).holder with
    | some t => if t = k then { s := cx.s } else { s := cx.s, wr := cx.clearP cx.lanesA }
    | none =>
      if core.held k < cx.hdr.slots then
        { s := cx.s.onCore c (fun x => { x with slots := Cells.set x.slots n.toNat { holder := some k } }) }
      else { s := cx.s, wr := cx.clearP cx.lanesA })

/-- Makes a slot Free. -/
def State.freeSlot (s : State) (core n : Nat) : State :=
  s.onCore core (fun c => { c with slots := Cells.modify c.slots n (fun (o : OpSlot) => { o with holder := none }) })

/-- SREL releases a slot of the team, once what uses it has ended (R318). -/
def execSrel (h : Hdr) (n : BitVec 3) (s : State) : Host.Outcome State Fault Refusal :=
  issue (.srel h n) s (fun cx =>
    let c := (cx.s.team cx.n.team).core
    let core := cx.s.core c
    if (Cells.get core.slots n.toNat).holder ≠ some cx.n.team then { s := cx.s, wr := cx.clearP cx.lanesA }
    else
      let ids := (core.matrix.filter (fun m => m.readsSlot n.toNat)).map (·.id) ++
        (core.xfers.filter (fun x => x.slot == some n.toNat)).map (·.id)
      if ids.isEmpty then { s := cx.s.freeSlot c n.toNat }
      else { s := cx.s, after := { st := .held (.srel n.toNat ids) } })

/-! ## Labels of what the array computes (R315) -/

/-- Does an instruction of the array read the codebook table? -/
def MatEnt.usesTable (m : MatEnt) : Bool :=
  match m.op with
  | .mma _ _ fa fb _ _ _ _ _ _ _ => fa == .cb2 || fb == .cb2
  | .mscac _ _ _ _ _ => false

/-- The labels that a transfer brings: its registers', and those of its source units as they stand. -/
def State.xferLab (s : State) (x : Xfer) : Label :=
  (List.range x.total).foldl (fun (l : Label) n => match placeIn x.srcMap (x.srcAt n) with
    | some p => l ||| s.unitLab p
    | none => l) x.lab

/-- The label of a slot, with what the transfers on their way into it bring (R256, R300). -/
def State.slotLab (s : State) (core n : Nat) : Label :=
  ((s.core core).xfers.filter (fun x => x.slot == some n)).foldl (fun (l : Label) x => l ||| s.xferLab x)
    (Cells.get (s.core core).slots n).lab

/-- The labels of the codebook tables on their way to a team (R307). -/
def State.tableDue (s : State) (k : Nat) : Label :=
  (s.team k).warps.foldl (fun (l : Label) (w : Nat × Warp) =>
    if w.2.results.any (fun r => r.regs.any (fun y => y.1 == codebookReg)) then
      (s.foreseen k w.1).results.foldl (fun (l : Label) r => if r.regs.any (fun y => y.1 == codebookReg) then l ||| r.src else l) l
    else l) 0

/-- The label that an instruction of the array gives its tile (R315): of its sources, the old tile, the table, and its
registers; what overlaps it adds theirs (R256). -/
def State.entLab (s : State) (core : Nat) (m : MatEnt) : Label :=
  let t := s.team m.team
  let base := Cells.get t.tileLab m.tile ||| m.guardLab ||| m.extra
  match m.op with
  | .mma _ _ _ _ sa sb _ _ la lb _ =>
    let src (x : BitVec 4) (l : Label) : Label := match slotOf x with | some n => s.slotLab core n | none => l
    base ||| src sa la ||| src sb lb |||
      (if !m.usesTable then 0 else if m.start.isSome || m.steps != 0 then m.codebookLab else t.codebookLab)
  | .mscac _ p _ _ _ => base ||| Cells.get t.tileLab p ||| m.codebookLab

/-! ## Overlaps on a tile or a slot (R256, R321) -/

/-- Does an instruction of the array name a tile? -/
def MatEnt.namesTile (m : MatEnt) (t : Nat) : Bool :=
  m.tile == t || (match m.op with | .mscac _ p _ _ _ => p == t | .mma _ _ _ _ _ _ _ _ _ _ _ => false)

/-- Marks a result of a warp as overlapped. -/
def State.clashResult (s : State) (k w id : Nat) : State :=
  if (Cells.find? s.teams k).isNone then s
  else s.onWarp k w (fun wp => { wp with results := wp.results.map (fun r => if r.id = id then { r with clash := true } else r) })

/-- Marks the array's instructions of a team that satisfy a predicate as overlapped by something with a label, on a slot if
`torn`; their own labels, when there are any. -/
def State.clashArray (s : State) (core k : Nat) (torn : Bool) (lab : Label) (f : MatEnt → Bool) : State × Option Label :=
  let hit (m : MatEnt) : Bool := m.team == k && f m
  let ms := (s.core core).matrix.filter hit
  if ms.isEmpty then (s, none)
  else
    let own := ms.foldl (fun (l : Label) m => l ||| s.entLab core m) 0
    let s1 := ms.foldl (fun (s : State) m => s.clashResult m.team m.warp m.id) s
    (s1.onCore core (fun c => { c with matrix := c.matrix.map (fun m =>
      if hit m then { m with torn := m.torn || torn, extra := m.extra ||| lab } else m) }), some own)

/-- A free line of 128 bytes. -/
def freeLine (n : Nat) : BitVec 1024 :=
  BitVec.ofNat 1024 ((List.range 16).foldl (fun x i => x + (Config.freeWord (n + i)).toNat <<< (64 * i)) 0)

/-- A commit-buffer entry of a tile store whose values an overlap leaves open. -/
def CEntry.open_ (e : CEntry) (res n : Nat) (lab : Label) : CEntry :=
  match e with
  | .tile r t off bs l => if r = res then .tile r t off (bytesOf 128 (freeLine (n + 16 * off)).toNat) (l ||| lab) else .tile r t off bs l
  | .accesses as => .accesses as
  | .copy c x => .copy c x
  | .event m c => .event m c
  | .spawn rs c p => .spawn rs c p
  | .flush ps => .flush ps

/-- Does a warp's commit buffer hold the lines of a result? -/
def Warp.buffersTile (w : Warp) (res : Nat) : Bool :=
  w.cbuf.any (fun e => match e with | .tile r _ _ _ _ => r == res | _ => false)

/-- What a tile-port instruction that has not returned and is overlapped leaves open: the V registers that a readout still
holds, the lines that a tile store has not performed, or its tile's elements when it writes them. -/
def State.clashPort (s : State) (k w t : Nat) (lab : Label) (r : Result) : State :=
  let n := s.free
  let reads := r.regs.any (fun y => match y.1 with | .v _ => true | _ => false)
  let stores := (match r.kind with | .fence _ => true | _ => false) || (s.warp k w).buffersTile r.id
  let s := s.onWarp k w (fun wp => r.regs.foldl (fun (wp : Warp) y =>
    match y.1 with
    | .v j =>
      let ls := (laneList r.lanes).filter (fun l => !(r.stale.any (fun o => o.1 == y.1 && o.2.getLsbD l)))
      { wp with
        v := ls.foldl (fun v l => Cells.set v (j * 32 + l) ((Config.freeWord (n + j * 32 + l)).setWidth 32)) wp.v
        vLab := Cells.modify wp.vLab j (· ||| lab) }
    | _ => wp) wp)
  let s := { s with free := n + 65536 }
  if reads then s
  else if !stores then s.tileFree k t (lab ||| Cells.get (s.team k).tileLab t)
  else
    let s1 := s.onWarp k w (fun wp => { wp with cbuf := wp.cbuf.map (fun e => e.open_ r.id s.free lab) })
    { s1 with
      accesses := s1.accesses.map (fun a =>
        if a.res = r.id ∧ a.team = k then { a with op := .store (freeLine (s.free + 16 * a.id)), lab := a.lab ||| lab } else a)
      free := s.free + 16 * s.nextId + 2 ^ 21 }

/-- Overlaps the tile-port instructions of a team that name a tile and have not returned; their labels, when there are any. -/
def State.clashPorts (s : State) (k t : Nat) (lab : Label) : State × Option Label :=
  let all := (s.team k).warps.flatMap (fun (w : Nat × Warp) =>
    (w.2.results.filter (fun r => r.kind != .matrix && r.regs.any (fun y => y.1 == .tile t))).map (fun r => (w.1, r)))
  if all.isEmpty then (s, none)
  else (all.foldl (fun (s : State) x => (s.clashPort k x.1 t lab x.2).clashResult k x.1 x.2.id) s,
    some (all.foldl (fun (l : Label) x => l ||| ((s.foreseen k x.1).result? x.2.id).elim 0 (·.src)) 0))

/-- Marks a transfer into a slot as overlapped by something with a label. -/
def Xfer.clashed (x : Xfer) (n : Nat) (lab : Label) : Xfer :=
  if x.slot == some n then { x with clash := some (x.clash.getD 0 ||| lab) } else x

/-- The bytes that transfers into a slot have delivered and will deliver become free, those that warps of the team still buffer
among them, with the label of what overlaps them (R256, R278, R321). Were there any? -/
def State.clashXfers (s : State) (core k n : Nat) (lab : Label) : State × Bool :=
  let xs := (s.core core).xfers.filter (fun x => x.slot == some n)
  let s := xs.foldl (fun (s : State) x =>
    let f := s.free
    let s := (List.range x.done).foldl (fun (s : State) i =>
      s.slotByte core n (bit x.dst 15) (x.dstAt i % 32768) ((Config.freeWord (f + 16384 + i)).setWidth 8) lab) s
    { s with free := f + 65536 }) s
  let s1 := s.onCore core (fun c => { c with chans := c.chans.map (fun (y : Nat × Chan) =>
    (y.1, { y.2 with xfers := y.2.xfers.map (fun x => x.clashed n lab) })) })
  let mine (e : CEntry) : Bool := match e with | .copy _ x => x.slot == some n | _ => false
  let buffered := (s1.team k).warps.any (fun (w : Nat × Warp) => w.2.cbuf.any mine)
  let s2 := if buffered then s1.onTeam k (fun t => { t with warps := t.warps.map (fun (w : Nat × Warp) =>
      (w.1, { w.2 with cbuf := w.2.cbuf.map (fun e => match e with | .copy c x => .copy c (x.clashed n lab) | e => e) })) })
    else s1
  (s2, !xs.isEmpty || buffered)

/-! ## The array's queue (R305, R319, R320) -/

/-- The result of an instruction of the array. -/
def Cx.arrayResult (c : Cx) (id : Nat) (tiles : List Nat) (clash : Bool) : Result where
  id := id
  lanes := c.act
  full := c.full
  kind := .matrix
  regs := tiles.map (fun t => (.tile t, 0))
  clash := clash

/-- Does a CBLOAD that no barrier orders with what a warp does concern its team's table: one in flight of another warp, or one
returned of which the warp does not know (R307)? -/
def State.tableRaces (s : State) (k w : Nat) : Bool :=
  (s.warp k w).table != (s.team k).table ||
  (s.team k).warps.any (fun (v : Nat × Warp) => v.1 != w && v.2.results.any (fun r => r.regs.any (fun y => y.1 == codebookReg)))

/-- MMA enters the array's queue with its generators as they stand (R303, R319). -/
def execMma (h : Hdr) (z : Bool) (kq : BitVec 3) (fa fb : MFmt) (sa sb t : BitVec 4) (s : State) :
    Host.Outcome State Fault Refusal :=
  issue (.mma h z kq fa fb sa sb t) s (fun cx =>
    let k := cx.n.team
    let c := (cx.s.team k).core
    let slots := (slotOf sa).toList ++ (slotOf sb).toList
    match slots.find? (fun n => (Cells.get (cx.s.core c).slots n).holder != some k) with
    | some n => { s := cx.s, ends := trapAll cx.act .slotNotClaimed (BitVec.ofNat 64 n) 0 }
    | none =>
      let gen (x : BitVec 4) : BitVec 256 := if x.toNat < 8 then 0 else cx.g (x.toNat - 8)
      let lab (x : BitVec 4) : Label := if x.toNat < 8 then 0 else cx.labG (x.toNat - 8)
      let m : MatEnt :=
        { id := cx.s.nextId, team := k, warp := cx.n.warp, tile := t.toNat, guardLab := cx.ambient,
          op := .mma z kq.toNat fa fb sa sb (gen sa) (gen sb) (lab sa) (lab sb)
            (BitVec.ofNat 32 (cx.scopeKey (gen sa)), BitVec.ofNat 32 (cx.scopeKey (gen sb))) }
      let own := cx.s.entLab c m
      let a := cx.s.fresh.clashArray c k false own (fun x => x.namesTile t.toNat)
      let b := slots.foldl (fun (acc : State × Bool) n =>
        let x := acc.1.clashXfers c k n own
        (x.1, acc.2 || x.2)) (a.1, false)
      let p := b.1.clashPorts k t.toNat own
      let races := m.usesTable && cx.s.tableRaces k cx.n.warp
      let m1 : MatEnt := { m with
        torn := b.2
        extra := a.2.getD 0 ||| p.2.getD 0 ||| (if races then (cx.s.team k).oldTable ||| cx.s.tableDue k else 0) }
      { s := p.1.onCore c (fun x => { x with matrix := x.matrix ++ [m1] })
        result := some (cx.arrayResult cx.s.nextId [t.toNat] (a.2.isSome || b.2 || p.2.isSome || races)) })

/-- The address of an operand in scratchpad: its place, or the trap of every lane (R320, R325). -/
def Cx.padPlace (c : Cx) (va : DWord) (align bytes : Nat) (lab : Label) : Except (List (Nat × LaneEnd)) Place :=
  if va.toNat % align ≠ 0 then .error (trapAll c.act .misalignedAddr va lab)
  else match c.s.formOf c.n.team c.n.warp 0 va bytes with
    | .scr t o => .ok (.scr t o)
    | .virt _ _ | .bad => .error (trapAll c.act .badSpace va lab)

/-- A BU read or write of the matrix engine at team scope: line n of 128 bytes from an address on, by every lane of its warp
(R256). -/
def Cx.portAccess (c : Cx) (res n : Nat) (p : Place) (va : DWord) (op : AccOp) (aim : Label) : Access where
  id := 0
  team := c.n.team
  warp := c.n.warp
  core := c.core
  ctx := c.ctx
  lanes := (32 + n) :: List.range 32
  dom := .bu
  scp := .team
  nol1 := true
  place := p.add (128 * n)
  va := va + BitVec.ofNat 64 (128 * n)
  pc := c.n.pc
  size := 128
  op := op
  aim := aim
  instr := res
  res := res

/-- The scale words of an MSCAC that an Almanac warp reads at issue, over its own buffer, with their label (R278, R317). -/
def Cx.scalesNow (c : Cx) (pa pb : Place) : Cells Byte × Label :=
  let o := c.s.overlaid c.n.team c.n.warp
  let x := o.look c.core false true pa 128 + o.look c.core false true pb 128 * 2 ^ 1024
  let line (p : Place) : Label := o.unitLab p ||| o.unitLab (p.add 127)
  (Cells.ofFn 0 256 (fun i => BitVec.ofNat 8 (x >>> (8 * i))), line pa ||| line pb)

/-- MSCAC enters the array's queue (R306, R320). Its reads of the scale words are BU reads of its warp's lanes, in their
program order; the array performs them when it starts the instruction, and they take nothing from stores that are still
queued (R339). -/
def execMscac (h : Hdr) (z : Bool) (ws : BitVec 8) (p t : BitVec 4) (s : State) : Host.Outcome State Fault Refusal :=
  issue (.mscac h z ws p t) s (fun cx =>
    let k := cx.n.team
    let c := (cx.s.team k).core
    let a := cx.w ws.toNat
    let b := cx.w (ws.toNat + 1)
    match cx.padPlace a 2 128 (cx.labW ws.toNat) with
    | .error e => { s := cx.s, ends := e }
    | .ok pa =>
      match cx.padPlace b 2 128 (cx.labW (ws.toNat + 1)) with
      | .error e => { s := cx.s, ends := e }
      | .ok pb =>
        let id := cx.s.nextId
        let isMma (m : MatEnt) : Bool := match m.op with | .mma _ _ _ _ _ _ _ _ _ _ _ => true | .mscac _ _ _ _ _ => false
        let now := cx.scalesNow pa pb
        let m : MatEnt :=
          { id, team := k, warp := cx.n.warp, tile := t.toNat,
            guardLab := cx.ambient ||| cx.labW ws.toNat ||| cx.labW (ws.toNat + 1),
            op := .mscac z p.toNat a b (pa, pb), ready := cx.buffers,
            codebook := if cx.buffers then now.1 else [], codebookLab := if cx.buffers then now.2 else 0 }
        let own := cx.s.entLab c m
        let x := cx.s.fresh.clashArray c k false own (fun m => isMma m && (m.namesTile t.toNat || m.namesTile p.toNat))
        let q := x.1.clashPorts k t.toNat own
        let r := if p = t then (q.1, none) else q.1.clashPorts k p.toNat own
        let m1 : MatEnt := { m with extra := x.2.getD 0 ||| q.2.getD 0 ||| r.2.getD 0 }
        let s1 := r.1.onCore c (fun y => { y with matrix := y.matrix ++ [m1] })
        let s2 := if cx.buffers then s1
          else (s1.queue (cx.portAccess id 0 pa a .load (cx.labW ws.toNat))).queue
            { cx.portAccess id 0 pb b .load (cx.labW (ws.toNat + 1)) with lanes := List.range 32 }
        { s := s2
          result := some (cx.arrayResult id ([t.toNat] ++ (if p = t then [] else [p.toNat]))
            (x.2.isSome || q.2.isSome || r.2.isSome)) })

/-- The results of a warp that name a tile, or any tile. -/
def Warp.tileIds (w : Warp) (all : Bool) (t : Nat) : List Nat :=
  (w.results.filter (fun r => r.regs.any (fun y => match y.1 with
    | .tile n => (all && decide (n < 16)) || n == t
    | _ => false))).map (·.id)

/-- MXWAIT parks the strand until the warp's earlier instructions that name the tile have returned (R322). -/
def execMxwait (h : Hdr) (all : Bool) (t : BitVec 4) (s : State) : Host.Outcome State Fault Refusal :=
  issue (.mxwait h all t) s (fun cx =>
    let ids := cx.warp.tileIds all t.toNat
    if ids.isEmpty then { s := cx.s } else { s := cx.s, after := { st := .waiting (.matrix ids) } })

/-! ## The tile port (R321, R323-R325) -/

/-- Is an ACCLD of the core still to return? The port's instructions run one at a time (R321). -/
def State.portBusy (s : State) (core : Nat) : Bool :=
  s.teams.any (fun (t : Nat × Team) => t.2.core == core && t.2.warps.any (fun (w : Nat × Warp) =>
    w.2.results.any (fun r => match r.kind with | .bulk (.tile _ _) _ _ _ => true | _ => false)))

/-- A tile-port instruction, behind an ACCLD that has not returned (R321). -/
def Cx.atPort (c : Cx) (body : Eff) : Eff :=
  if c.s.portBusy c.core then { s := c.s, after := { st := .held .port, keep := true } } else body

/-- What a tile-port instruction with a label sees: the state with overlapped array instructions marked, whether there were
any, and their labels. -/
def Cx.port (c : Cx) (t : Nat) (lab : Label) : State × Bool × Label :=
  let r := c.s.clashArray c.core c.n.team false lab (fun m => m.namesTile t)
  (r.1, r.2.isSome, r.2.getD 0)

/-- An element of a tile, free when an array instruction overlaps. -/
def Cx.elem (c : Cx) (clash : Bool) (t i : Nat) : DWord :=
  if clash then c.free (16384 + i) else Cells.get (c.s.team c.n.team).tiles (4096 * t + i)

/-- A result of the tile port. -/
def Cx.portResult (c : Cx) (id t : Nat) (kind : ResKind) (regs : List (Reg × Label)) (src : Label) (clash : Bool) : Result where
  id := id
  lanes := c.act
  full := c.full
  kind := kind
  regs := regs ++ [(.tile t, 0)]
  src := src
  clash := clash

/-- ACLR zeroes a tile (R323). -/
def execAclr (h : Hdr) (t : BitVec 4) (s : State) : Host.Outcome State Fault Refusal :=
  issue (.aclr h t) s (fun cx => cx.atPort (
    let k := cx.n.team
    let p := cx.port t.toNat cx.ambient
    let s1 := if p.2.1 then p.1.tileFree k t.toNat (cx.ambient ||| p.2.2 ||| Cells.get (cx.s.team k).tileLab t.toNat)
      else p.1.tileWrite k t.toNat cx.ambient (fun _ => 0)
    { s := s1.fresh, result := some (cx.portResult s1.nextId t.toNat .done [] 0 p.2.1) }))

/-- The FP64 word of an element as an image holds it (R324, R325). -/
def tileToImage (ty : TileTy) (mode : RMode) (x : DWord) : Nat :=
  match ty with
  | .f64 => x.toNat
  | .f32 => (roundTo .f32 mode 0 false (decodeF .f64 x.toNat)).1
  | .bf16 => (roundTo .bf16 mode 0 false (decodeF .f64 x.toNat)).1

/-- Words of a lane's part of a row (R324). -/
def tileRowWords (ty : TileTy) : Nat := if ty = .f64 then 4 else 2

/-- ACCRD reads a row of a tile into the lanes (R324). -/
def execAccrd (h : Hdr) (ty : TileTy) (rm : Rnd) (row : BitVec 8) (tile : BitVec 4) (d : BitVec 8) (s : State) :
    Host.Outcome State Fault Refusal :=
  issue (.accrd h ty rm row tile d) s (fun cx => cx.atPort (
    let k := cx.n.team
    let t := tile.toNat
    let p := cx.port t cx.ambient
    let wr := vWrites d (tileRowWords ty) (cx.lanesA.map (fun l =>
      let i := 64 * row.toNat + 2 * l
      (l, tileToImage ty (cx.mode rm) (cx.elem p.2.1 t i) +
        tileToImage ty (cx.mode rm) (cx.elem p.2.1 t (i + 1)) * 2 ^ (8 * tileBytes ty))))
      (Cells.get (cx.s.team k).tileLab t ||| p.2.2)
    { s := p.1.fresh, wr
      result := some (cx.portResult p.1.nextId t .done (wrRegs cx.warp wr) 0 p.2.1) }))

/-- ACCWR writes a row of a tile from the lanes (R324). -/
def execAccwr (h : Hdr) (ty : TileTy) (row : BitVec 8) (tile : BitVec 4) (a : BitVec 8) (s : State) :
    Host.Outcome State Fault Refusal :=
  issue (.accwr h ty row tile a) s (fun cx => cx.atPort (
    let k := cx.n.team
    let t := tile.toNat
    let own := cx.labV a (tileRowWords ty) ||| cx.ambient
    let p := cx.port t own
    let e := tileBytes ty
    let part (l j : Nat) : DWord :=
      tileOfImage ty (cx.vn l a.toNat (tileRowWords ty) >>> (8 * e * j) % 2 ^ (8 * e))
    let put (m : Cells DWord) (l : Nat) : Cells DWord :=
      let i := 64 * row.toNat + 2 * l
      let m := Cells.set m (4096 * t + i) (if p.2.1 then cx.free (16384 + i) else part l 0)
      Cells.set m (4096 * t + i + 1) (if p.2.1 then cx.free (16384 + i + 1) else part l 1)
    let lab := own ||| p.2.2
    let s1 := p.1.onTeam k (fun tm => { tm with
      tiles := cx.lanesA.foldl put tm.tiles
      tileLab := Cells.modify tm.tileLab t (· ||| lab) })
    { s := s1.fresh, result := some (cx.portResult s1.nextId t .done [] 0 p.2.1) }))

/-- ACCST stores the image of a tile to scratchpad, line by line (R325). An Almanac warp buffers the lines (R278; log 18). -/
def execAccst (h : Hdr) (ty : TileTy) (rm : Rnd) (tile : BitVec 4) (a : BitVec 8) (s : State) :
    Host.Outcome State Fault Refusal :=
  issue (.accst h ty rm tile a) s (fun cx =>
    let k := cx.n.team
    let t := tile.toNat
    let va := cx.w a.toNat
    let e := tileBytes ty
    match cx.padPlace va 128 (4096 * e) (cx.labW a.toNat) with
    | .error x => { s := cx.s, ends := x }
    | .ok pl => cx.atPort (
      let p := cx.port t (cx.labW a.toNat ||| cx.ambient)
      let image (i : Nat) : Nat :=
        (List.range (128 / e)).foldl (fun x j =>
          x + tileToImage ty (cx.mode rm) (cx.elem p.2.1 t (128 / e * i + j)) <<< (8 * e * j)) 0
      let lab := Cells.get (cx.s.team k).tileLab t ||| p.2.2 ||| cx.labW a.toNat ||| cx.ambient
      let rid := p.1.nextId
      if cx.buffers then
        match pl with
        | .scr tm off =>
          let es := (List.range (32 * e)).map (fun i => CEntry.tile rid tm (off + 128 * i) (bytesOf 128 (image i)) lab)
          match p.1.fresh.bufferAdd k cx.n.warp es with
          | some s => { s, result := some (cx.portResult rid t .done [] 0 p.2.1) }
          | none => { s := cx.s, bufferFull := true }
        | .dev _ | .host _ _ | .peer _ _ _ => { s := cx.s }
      else
        let q := (List.range (32 * e)).foldl (fun (acc : State × List (Nat × Scope)) i =>
          let x : Access := { cx.portAccess rid i pl va (.store (BitVec.ofNat 1024 (image i))) (cx.labW a.toNat) with lab := lab }
          (acc.1.queue x, acc.2 ++ [(acc.1.nextId, .team)])) (p.1.fresh, [])
        { s := q.1, result := some (cx.portResult rid t (.fence q.2) [] 0 p.2.1) }))

/-- ACCLD loads a tile from its image in scratchpad, line by line (R325). -/
def execAccld (h : Hdr) (ty : TileTy) (tile : BitVec 4) (a : BitVec 8) (s : State) : Host.Outcome State Fault Refusal :=
  issue (.accld h ty tile a) s (fun cx =>
    let t := tile.toNat
    let va := cx.w a.toNat
    let e := tileBytes ty
    match cx.padPlace va 128 (4096 * e) (cx.labW a.toNat) with
    | .error x => { s := cx.s, ends := x }
    | .ok pl => cx.atPort (
      let p := cx.port t (cx.labW a.toNat ||| cx.ambient)
      let rid := p.1.nextId
      let n := 32 * e
      cx.sendLoads p.1.fresh ((List.range n).map (fun i => cx.portAccess rid i pl va .load (cx.labW a.toNat))) []
        (cx.portResult rid t (.bulk (.tile t ty) [] 0 n) [] (cx.labW a.toNat ||| cx.ambient ||| p.2.2) p.2.1)))

/-! ## The codebook (R307, R329) -/

/-- The places of the eight lines of a codebook, checked as loads, or the ends of every lane. -/
def Cx.codebookLines (c : Cx) (s : State) (va : DWord) (dom : Dom) (lab : Label) :
    State × Except (List (Nat × LaneEnd)) (List Spot) :=
  (List.range 8).foldl (fun (acc : State × Except (List (Nat × LaneEnd)) (List Spot)) i =>
    match acc.2 with
    | .error e => (acc.1, .error e)
    | .ok xs =>
      let a := va + BitVec.ofNat 64 (128 * i)
      let all (e : LaneEnd) : List (Nat × LaneEnd) := c.lanesA.map (fun l =>
        (l, match e with | .trap t b => .trap { t with lane := l } b | x => x))
      match acc.1.formOf c.n.team c.n.warp 0 a 128 with
      | .virt _ true | .bad => (acc.1, .error (all (addrTrap 0 .badSpace a lab)))
      | f =>
        match c.locate acc.1 0 a f .read 12 lab with
        | (s, .error e) => (s, .error (all e))
        | (s, .ok x) =>
          match Cx.barred s x dom false none lab with
          | some e => (s, .error (all e))
          | none => (s, .ok (xs ++ [x]))) (s, .ok [])

/-- CBLOAD loads the team's codebook (R329). -/
def execCbload (h : Hdr) (dom : Dom) (scp : Scope) (a : BitVec 8) (s : State) : Host.Outcome State Fault Refusal :=
  issue (.cbload h dom scp a) s (fun cx =>
    let va := cx.w a.toNat
    let lab := cx.labW a.toNat
    let tag := field va 63 60
    let body (cx : Cx) (scp : Scope) : Eff :=
      match cx.codebookLines cx.s va dom lab with
      | (s, .error e) => { s, ends := e }
      | (s, .ok lines) =>
        let rid := s.nextId
        let as := lines.zipIdx.map (fun (x : Spot × Nat) =>
          let pol := match x.1.leaf with | some l => polOf (field l 56 55) | none => .nol1
          { cx.portAccess rid x.2 x.1.place va .load lab with
            place := x.1.place, dom := dom, scp := scp, nol1 := pol == .nol1, mark := Evict.ofPol pol
            share := x.1.keeps && pol != .nol1, after := (List.range 32).flatMap (fun l => cx.waitOn l false) })
        let due := as.foldl (fun (l : Label) x => l ||| s.unitLab x.place) (lab ||| cx.ambient)
        let s1 := s.clashArray cx.core cx.n.team false due (fun m => m.warp != cx.n.warp && m.usesTable)
        cx.sendLoads s1.1.fresh as []
          { id := rid, lanes := cx.act, full := cx.full, kind := .bulk .codebook [] 0 8,
            regs := [(codebookReg, (cx.s.team cx.n.team).codebookLab)], src := lab ||| cx.ambient }
    if va.toNat % 128 ≠ 0 then { s := cx.s, ends := trapAll cx.act .misalignedAddr va lab }
    else if tag ≠ 0 ∧ tag ≠ 8 ∧ tag ≠ 9 then { s := cx.s, ends := trapAll cx.act .badSpace va lab }
    else if tag = 0 ∧ field va 59 57 = 0 then cx.scoped scp body
    else body cx scp)

end Sys2Proof.Machine
end

