-- ==== Sys2Proof/Machine/Channel.lean ====
section
/-! DEFINITION. COPY, CHWAIT and CHRST: descriptors, the checks of acceptance, waiting on a channel and resetting it
(R255, R330-R336). -/

namespace Sys2Proof.Machine

/-! ## Descriptors (R330, R331) -/

/-- A range of rows: first address, rows, stride, bytes of a row. -/
structure Rows where
  base : DWord
  rows : Nat
  stride : Nat
  bytes : Nat
  deriving DecidableEq, Repr, Inhabited

/-- Bytes from the first to the last of a range. -/
def Rows.extent (r : Rows) : Nat := (r.rows - 1) * r.stride + r.bytes

/-- The pages of a range, in the order its rows meet them. -/
def Rows.pages (r : Rows) : List Nat :=
  ((List.range r.rows).flatMap (fun i =>
    let a := r.base.toNat + i * r.stride
    (List.range ((a % 4096 + r.bytes + 4095) / 4096)).map (fun j => a / 4096 + j))).eraseDups

/-- The two ranges of a COPY, unless a descriptor is not legal (R330, R331). -/
def copyRanges (shp : Shape) (src w1 dst w3 : DWord) : Option (Rows × Rows) :=
  let e := shapeElem shp
  let slotOk : Bool := field dst 63 60 != 0xC ||
    (decide (field dst 59 19 = 0) && (!bit dst 15 || decide (field dst 14 0 < 1024)))
  let len := field w1 24 0
  let sstr := field w1 63 32
  let rows := field w1 31 16
  let rb := field w1 15 0
  let dstr := field w3 31 0
  let plain : Bool := field w3 63 32 == 0 && decide (1 ≤ rows) && decide (1 ≤ rb) && decide (rows * rb ≤ 2 ^ 24)
  if !slotOk then none
  else match shp with
    | .d1 =>
      if field w1 63 25 = 0 ∧ 1 ≤ len ∧ len ≤ 2 ^ 24 ∧ w3 = 0 then
        some ({ base := src, rows := 1, stride := 0, bytes := len }, { base := dst, rows := 1, stride := 0, bytes := len })
      else none
    | .d2 =>
      if plain ∧ rb ≤ dstr then
        some ({ base := src, rows, stride := sstr, bytes := rb }, { base := dst, rows, stride := dstr, bytes := rb })
      else none
    | .t8 | .t16 =>
      if plain ∧ rb % e = 0 ∧ rows * e ≤ dstr ∧ src.toNat % e = 0 ∧ sstr % e = 0 ∧ dst.toNat % e = 0 ∧ dstr % e = 0 then
        some ({ base := src, rows, stride := sstr, bytes := rb },
              { base := dst, rows := rb / e, stride := dstr, bytes := rows * e })
      else none

/-! ## Checks of acceptance (R332) -/

/-- Does a range lie in a space that a COPY may name: unified memory, a scratchpad, and for a destination a slot area? -/
def State.rangeOk (s : State) (k w : Nat) (r : Rows) (dest : Bool) : Bool :=
  let a := r.base
  match field a 63 60 with
  | 0 => decide (a.toNat + r.extent ≤ 2 ^ 57)
  | 8 | 9 => (match s.formOf k w 0 a r.extent with | .scr _ _ => true | .virt _ _ | .bad => false)
  | 12 => dest && decide (field a 14 0 + r.extent ≤ if bit a 15 then 1024 else 32768)
  | _ => false

/-- The pages of a range with their places and leaves, or the fault of the first page that fails. -/
def Cx.mapPages (c : Cx) (s : State) (r : Rows) (need : Need) (access : Nat) (lab : Label) :
    State × Except FaultInfo (List (PageMap × Option DWord)) :=
  r.pages.foldl (fun (acc : State × Except FaultInfo (List (PageMap × Option DWord))) p =>
    match acc.2 with
    | .error f => (acc.1, .error f)
    | .ok ms =>
      let va : DWord := BitVec.ofNat 64 (max (4096 * p) r.base.toNat)
      let base : DWord := BitVec.ofNat 64 (4096 * p)
      match field r.base 63 60 with
      | 0 =>
        (match acc.1.translate c.core c.ctx base need with
         | (s, .error (k, m)) => (s, .error { kind := k, access, va, malformed := m, lab })
         | (s, .ok (pl, leaf)) => (s, .ok (ms ++ [({ vpage := p, place := pl, mask := s.egressMask pl }, some leaf)])))
      | 12 => (acc.1, .ok ms)
      | _ =>
        (match acc.1.formOf c.n.team c.n.warp 0 base 1 with
         | .scr t o => (acc.1, .ok (ms ++ [({ vpage := p, place := .scr t o, mask := 0xFFFF }, none)]))
         | .virt _ _ | .bad => (acc.1, .ok ms))) (s, .ok [])

/-- The PEER field of a peer leaf. -/
def peerOf (leaf : Option DWord) : Option Nat :=
  match leaf with
  | some l => if leafApt l = 1 then some (field l 60 57) else none
  | none => none

/-- Does a page's floor bar a domain? -/
def floorBars (dom : Dom) (leaf : Option DWord) : Bool :=
  match leaf with
  | some l => decide (dom.rank < field l 54 52)
  | none => false

/-- Does every source unit of a transfer pass the egress check of the pages that receive its bytes (R430)? -/
def State.copyEgressOk (s : State) (x : Xfer) : Bool :=
  !x.egress || (List.range x.total).all (fun n =>
    match pageOf x.dstMap (x.dstAt n) with
    | none => true
    | some pg =>
      let lu := match placeIn x.srcMap (x.srcAt n) with | some p => s.unitLab p | none => 0
      (lu ||| x.lab) &&& ~~~pg.mask == 0)

/-- The transfers accepted on a channel that have not ended: those on it, and those that Almanac warps of the core still
buffer (R278, R333; log 77). -/
def State.accepted (s : State) (core ch : Nat) : List Xfer :=
  (Cells.get (s.core core).chans ch).xfers ++ s.teams.flatMap (fun (t : Nat × Team) =>
    if t.2.core = core then t.2.warps.flatMap (fun (w : Nat × Warp) => w.2.cbuf.filterMap (fun e => match e with
      | .copy c x => if c = ch then some x else none
      | _ => none))
    else [])

/-- Accepts a transfer: onto its channel, or into an Almanac warp's commit buffer (R278, R333). -/
def Cx.accept (c : Cx) (s : State) (ch : Nat) (x : Xfer) : Eff :=
  if c.buffers then
    match s.bufferAdd c.n.team c.n.warp [.copy ch x] with
    | some s => { s }
    | none => { s := c.s, bufferFull := true }
  else
    { s := s.onCore c.core (fun y => { y with
        chans := Cells.modify y.chans ch (fun (z : Chan) => { z with xfers := z.xfers ++ [x] }) }) }

/-- The checks of R332 from the fourth on, and acceptance. -/
def Cx.copyChecked (c : Cx) (shp : Shape) (dom : Dom) (scp : Scope) (ch : Nat) (denied : Bool) (cap : Scope)
    (sr dr : Rows) (flag : DWord) (lab flagLab srcLab dstLab : Label) : Eff :=
  let trap (s : State) (cause : Cause) (d : DWord) (l : Label) : Eff := { s, ends := trapAll c.act cause d l }
  let slot := if field dr.base 63 60 = 12 then some (field dr.base 18 16) else none
  let unheld := match slot with
    | some n => (Cells.get (c.s.core c.core).slots n).holder != some c.n.team
    | none => false
  if unheld then trap c.s .slotNotClaimed (BitVec.ofNat 64 (slot.getD 0)) dstLab
  else if denied then trap c.s .scopeDenied (BitVec.ofNat 64 scp.rank) 0
  else
    let park (s : State) (f : FaultInfo) : Eff := { s, ends := c.lanesA.map (fun l => (l, .fault f)) }
    match c.mapPages c.s sr .read 4 srcLab with
    | (s, .error f) => park s f
    | (s, .ok sm) =>
      match c.mapPages s dr .write 5 dstLab with
      | (s, .error f) => park s f
      | (s, .ok dm) =>
        let fr : Rows := { base := flag, rows := if flag = 0 then 0 else 1, stride := 0, bytes := 8 }
        match c.mapPages s fr .flag 6 (flagLab) with
        | (s, .error f) => park s f
        | (s, .ok fm) =>
          let fp := match fm with | y :: _ => peerOf y.2 | [] => none
          let targets := if dm.isEmpty then [none] else dm.map (fun y => peerOf y.2)
          let noFlag := if flag = 0 then targets.any (·.isSome) else targets.any (· != fp)
          if noFlag then trap s .remoteStoreNoflag dr.base dstLab
          else if sm.any (fun y => floorBars dom y.2) then trap s .domainFloor sr.base srcLab
          else if dm.any (fun y => floorBars dom y.2) then trap s .domainFloor dr.base dstLab
          else
            let hit := match slot with
              | some n =>
                let due := sm.foldl (fun (l : Label) (y : PageMap × Option DWord) =>
                  (List.range 32).foldl (fun (l : Label) i => l ||| s.unitLab (y.1.place.add (128 * i))) l) lab
                s.clashArray c.core c.n.team true due (fun m => m.readsSlot n)
              | none => (s, none)
            let x : Xfer :=
              { id := s.nextId, team := c.n.team, warp := c.n.warp, core := c.core, ctx := c.ctx, shape := shp, dom,
                scp := cap, src := sr.base, sstr := sr.stride, rows := sr.rows, rb := sr.bytes, dst := dr.base,
                dstr := dr.stride, flag, srcMap := sm.map (·.1), dstMap := dm.map (·.1), flagMap := fm.map (·.1), lab,
                flagLab := flagLab ||| c.ambient
                egress := dm.any (fun y => y.1.mask != 0xFFFF)
                overlap := sm.any (fun a => dm.any (fun b => a.1.place.overlaps 4096 b.1.place 4096))
                clash := hit.2, pc := c.n.pc, aim := srcLab }
            let view := if c.buffers then s.overlaid c.n.team c.n.warp else s
            if !view.copyEgressOk x then trap s .labelEgress dr.base dstLab
            else c.accept hit.1.fresh ch x

/-- COPY asks a channel for a transfer (R330-R333). -/
def execCopy (h : Hdr) (scp : Scope) (dom : Dom) (wf wd wc : BitVec 6) (shp : Shape) (ch : BitVec 2) (s : State) :
    Host.Outcome State Fault Refusal :=
  issue (.copy h scp dom wf wd wc shp ch) s (fun cx =>
    let x := cx.s.context cx.ctx
    let beyond := decide (cx.s.scopeCap x < scp.rank)
    let strict := cx.s.strictBit x
    let cx := if beyond && !strict then
        { cx with s := cx.s.onWarp cx.n.team cx.n.warp (fun w => { w with scopeclamp := w.scopeclamp ||| 1 }) }
      else cx
    let c := wc.toNat
    let d := wd.toNat
    let flag := cx.w wf.toNat
    let lsrc := cx.labW c
    let ldst := cx.labW d
    let lflag := cx.labW wf.toNat
    if 16 ≤ (cx.s.accepted cx.core ch.toNat).length then
      { s := cx.s, after := { st := .held (.chan ch.toNat), keep := true } }
    else match copyRanges shp (cx.w c) (cx.w (c + 1)) (cx.w d) (cx.w (d + 1)) with
      | none => { s := cx.s, ends := trapAll cx.act .illegalField 0 0 }
      | some (sr, dr) =>
        if flag.toNat % 8 ≠ 0 then { s := cx.s, ends := trapAll cx.act .misalignedAddr flag lflag }
        else if !cx.s.rangeOk cx.n.team cx.n.warp sr false then
          { s := cx.s, ends := trapAll cx.act .badSpace sr.base lsrc }
        else if !cx.s.rangeOk cx.n.team cx.n.warp dr true then
          { s := cx.s, ends := trapAll cx.act .badSpace dr.base ldst }
        else if field flag 63 57 ≠ 0 then { s := cx.s, ends := trapAll cx.act .badSpace flag lflag }
        else cx.copyChecked shp dom scp ch.toNat (beyond && strict) (if beyond then scopeOf (cx.s.scopeCap x) else scp)
          sr dr flag (lsrc ||| cx.labW (c + 1) ||| ldst ||| cx.labW (d + 1) ||| cx.ambient) lflag lsrc ldst)

/-! ## Waiting on a channel and resetting it (R334-R336) -/

/-- SR.CHWPn as a team sees it: the pointer plus the team's offset. -/
def State.chanView (s : State) (k ch : Nat) : DWord :=
  let t := s.team k
  (Cells.get (s.core t.core).chans ch).ptr + Cells.get t.chOff ch

/-- CHWAIT parks the strand until the team's view of a channel has reached a value (R334). -/
def execChwait (h : Hdr) (wv : BitVec 6) (ch : BitVec 2) (s : State) : Host.Outcome State Fault Refusal :=
  issue (.chwait h wv ch) s (fun cx =>
    let v := cx.w wv.toNat
    if v.toNat ≤ (cx.s.chanView cx.n.team ch.toNat).toNat then { s := cx.s }
    else { s := cx.s, after := { st := .waiting (.chan ch.toNat v) } })

/-- Sets a channel's pointer and a team's offset for it to 0 (R335). -/
def State.chanReset (s : State) (k ch : Nat) : State :=
  let s1 := s.onCore (s.team k).core (fun c => { c with chans := Cells.modify c.chans ch (fun (z : Chan) => { z with ptr := 0 }) })
  s1.onTeam k (fun t => { t with chOff := Cells.erase t.chOff ch })

/-- Drops a channel's stopped transfer: a CHRST treats it as ended (R430). -/
def State.chanDropStuck (s : State) (core ch : Nat) (among : List Nat) : State :=
  s.onCore core (fun c => { c with chans := Cells.modify c.chans ch (fun (z : Chan) =>
    { z with xfers := z.xfers.filter (fun x => !(x.stuck && among.contains x.id)) }) })

/-- CHRST resets a channel once every transfer accepted before it has ended (R335). -/
def execChrst (h : Hdr) (ch : BitVec 2) (s : State) : Host.Outcome State Fault Refusal :=
  issue (.chrst h ch) s (fun cx =>
    let c := cx.core
    let all := (cx.s.accepted c ch.toNat).map (·.id)
    let s1 := cx.s.chanDropStuck c ch.toNat all
    let ids := (s1.accepted c ch.toNat).map (·.id)
    if ids.isEmpty then { s := s1.chanReset cx.n.team ch.toNat }
    else { s := s1, after := { st := .held (.chrst ch.toNat ids) } })

end Sys2Proof.Machine
end

