-- ==== Sys2Proof/Decode.lean ====
section
/-! DEFINITION. The instruction word: formats, field codes, decoder and encoder (R30-R46). -/

namespace Sys2Proof

/-- Why a word is no instruction, by name; both give ILLEGAL_FIELD (R47, order 2). -/
inductive DecodeError where
  /-- A field that the entry does not use is nonzero (R31). -/
  | reservedField
  /-- A field holds a code that its table reserves (R43, R44). -/
  | reservedCode
  deriving DecidableEq, Repr

/-- What decoding a body gives. -/
abbrev Dec := Except DecodeError Instr

/-- Goes on when no reserved field is set. -/
def need (ok : Bool) (x : Dec) : Dec := if ok then x else .error .reservedField

/-- Goes on with a code's meaning, if it has one. -/
def withCode {α : Type} (x : Option α) (k : α → Dec) : Dec :=
  match x with
  | some a => k a
  | none => .error .reservedCode

/-- The code of a IType (R43, R44). -/
def IType.code : IType → BitVec 4
  | .i32 => 0
  | .n32 => 1
  | .i64 => 2
  | .n64 => 3
  | .i16 => 4
  | .n16 => 5
  | .i8 => 6
  | .n8 => 7
  | .b8 => 8
  | .b16 => 9
  | .b32 => 10
  | .b64 => 11
  | .b128 => 12

/-- The IType of a code; a reserved code has none. -/
def IType.ofCode (c : BitVec 4) : Option IType :=
  match c.toNat with
  | 0 => some .i32
  | 1 => some .n32
  | 2 => some .i64
  | 3 => some .n64
  | 4 => some .i16
  | 5 => some .n16
  | 6 => some .i8
  | 7 => some .n8
  | 8 => some .b8
  | 9 => some .b16
  | 10 => some .b32
  | 11 => some .b64
  | 12 => some .b128
  | _ => none

/-- The code of a FType (R43, R44). -/
def FType.code : FType → BitVec 4
  | .f32 => 0
  | .f64 => 1
  | .f16 => 2
  | .bf16 => 3
  | .x2f16 => 4
  | .x2bf16 => 5
  | .e4m3 => 6
  | .e5m2 => 7
  | .e2m1 => 8
  | .cb2 => 9
  | .sc12 => 10

/-- The FType of a code; a reserved code has none. -/
def FType.ofCode (c : BitVec 4) : Option FType :=
  match c.toNat with
  | 0 => some .f32
  | 1 => some .f64
  | 2 => some .f16
  | 3 => some .bf16
  | 4 => some .x2f16
  | 5 => some .x2bf16
  | 6 => some .e4m3
  | 7 => some .e5m2
  | 8 => some .e2m1
  | 9 => some .cb2
  | 10 => some .sc12
  | _ => none

/-- The code of a Rnd (R43, R44). -/
def Rnd.code : Rnd → BitVec 3
  | .rne => 0
  | .rtz => 1
  | .rup => 2
  | .rdn => 3
  | .rna => 4
  | .rsto => 5
  | .rdyn => 6

/-- The Rnd of a code; a reserved code has none. -/
def Rnd.ofCode (c : BitVec 3) : Option Rnd :=
  match c.toNat with
  | 0 => some .rne
  | 1 => some .rtz
  | 2 => some .rup
  | 3 => some .rdn
  | 4 => some .rna
  | 5 => some .rsto
  | 6 => some .rdyn
  | _ => none

/-- The code of a Cmp (R43, R44). -/
def Cmp.code : Cmp → BitVec 3
  | .eq => 0
  | .ne => 1
  | .lt => 2
  | .le => 3
  | .gt => 4
  | .ge => 5
  | .un => 6
  | .ord => 7

/-- The Cmp of a code; a reserved code has none. -/
def Cmp.ofCode (c : BitVec 3) : Option Cmp :=
  match c.toNat with
  | 0 => some .eq
  | 1 => some .ne
  | 2 => some .lt
  | 3 => some .le
  | 4 => some .gt
  | 5 => some .ge
  | 6 => some .un
  | 7 => some .ord
  | _ => none

/-- The code of a Dom (R43, R44). -/
def Dom.code : Dom → BitVec 3
  | .bu => 0
  | .rc => 1
  | .co => 2
  | .tso => 3
  | .sc => 4

/-- The Dom of a code; a reserved code has none. -/
def Dom.ofCode (c : BitVec 3) : Option Dom :=
  match c.toNat with
  | 0 => some .bu
  | 1 => some .rc
  | 2 => some .co
  | 3 => some .tso
  | 4 => some .sc
  | _ => none

/-- The code of a Scope (R43, R44). -/
def Scope.code : Scope → BitVec 3
  | .team => 0
  | .clus => 1
  | .die => 2
  | .pkg => 3
  | .fab => 4
  | .sys => 5

/-- The Scope of a code; a reserved code has none. -/
def Scope.ofCode (c : BitVec 3) : Option Scope :=
  match c.toNat with
  | 0 => some .team
  | 1 => some .clus
  | 2 => some .die
  | 3 => some .pkg
  | 4 => some .fab
  | 5 => some .sys
  | _ => none

/-- The code of a Pol (R43, R44). -/
def Pol.code : Pol → BitVec 2
  | .dflt => 0
  | .stream => 1
  | .keep => 2
  | .nol1 => 3

/-- The Pol of a code; a reserved code has none. -/
def Pol.ofCode (c : BitVec 2) : Option Pol :=
  match c.toNat with
  | 0 => some .dflt
  | 1 => some .stream
  | 2 => some .keep
  | 3 => some .nol1
  | _ => none

/-- The code of a Aop (R43, R44). -/
def Aop.code : Aop → BitVec 4
  | .add => 0
  | .min => 1
  | .max => 2
  | .and => 3
  | .or => 4
  | .xor => 5
  | .exch => 6
  | .incw => 7
  | .decw => 8
  | .faddF32 => 9
  | .faddF64 => 10
  | .faddX2bf16 => 11

/-- The Aop of a code; a reserved code has none. -/
def Aop.ofCode (c : BitVec 4) : Option Aop :=
  match c.toNat with
  | 0 => some .add
  | 1 => some .min
  | 2 => some .max
  | 3 => some .and
  | 4 => some .or
  | 5 => some .xor
  | 6 => some .exch
  | 7 => some .incw
  | 8 => some .decw
  | 9 => some .faddF32
  | 10 => some .faddF64
  | 11 => some .faddX2bf16
  | _ => none

/-- The code of a Size (R43, R44). -/
def Size.code : Size → BitVec 3
  | .n8 => 0
  | .i8 => 1
  | .n16 => 2
  | .i16 => 3
  | .b32 => 4
  | .b64 => 5
  | .b128 => 6

/-- The Size of a code; a reserved code has none. -/
def Size.ofCode (c : BitVec 3) : Option Size :=
  match c.toNat with
  | 0 => some .n8
  | 1 => some .i8
  | 2 => some .n16
  | 3 => some .i16
  | 4 => some .b32
  | 5 => some .b64
  | 6 => some .b128
  | _ => none

/-- The code of a MFmt (R43, R44). -/
def MFmt.code : MFmt → BitVec 4
  | .e4m3 => 0
  | .e5m2 => 1
  | .e2m1 => 2
  | .cb2 => 3
  | .bf16 => 4
  | .fp16 => 5
  | .int8 => 6

/-- The MFmt of a code; a reserved code has none. -/
def MFmt.ofCode (c : BitVec 4) : Option MFmt :=
  match c.toNat with
  | 0 => some .e4m3
  | 1 => some .e5m2
  | 2 => some .e2m1
  | 3 => some .cb2
  | 4 => some .bf16
  | 5 => some .fp16
  | 6 => some .int8
  | _ => none

/-- The code of a XMode (R43, R44). -/
def XMode.code : XMode → BitVec 3
  | .pick => 0
  | .rise => 1
  | .fall => 2
  | .flip => 3
  | .roll => 4

/-- The XMode of a code; a reserved code has none. -/
def XMode.ofCode (c : BitVec 3) : Option XMode :=
  match c.toNat with
  | 0 => some .pick
  | 1 => some .rise
  | 2 => some .fall
  | 3 => some .flip
  | 4 => some .roll
  | _ => none

/-- The code of a PollForm (R43, R44). -/
def PollForm.code : PollForm → BitVec 7
  | .every => 0
  | .any => 1
  | .same => 2
  | .mask => 3
  | .count => 4

/-- The PollForm of a code; a reserved code has none. -/
def PollForm.ofCode (c : BitVec 7) : Option PollForm :=
  match c.toNat with
  | 0 => some .every
  | 1 => some .any
  | 2 => some .same
  | 3 => some .mask
  | 4 => some .count
  | _ => none

/-- The code of a KinForm (R43, R44). -/
def KinForm.code : KinForm → BitVec 3
  | .mask => 0
  | .whole => 1
  | .lead => 2

/-- The KinForm of a code; a reserved code has none. -/
def KinForm.ofCode (c : BitVec 3) : Option KinForm :=
  match c.toNat with
  | 0 => some .mask
  | 1 => some .whole
  | 2 => some .lead
  | _ => none

/-- The code of a UmovForm (R43, R44). -/
def UmovForm.code : UmovForm → BitVec 7
  | .toW => 0
  | .toW64 => 1
  | .toV => 2
  | .toV64 => 3

/-- The UmovForm of a code; a reserved code has none. -/
def UmovForm.ofCode (c : BitVec 7) : Option UmovForm :=
  match c.toNat with
  | 0 => some .toW
  | 1 => some .toW64
  | 2 => some .toV
  | 3 => some .toV64
  | _ => none

/-- The code of a PmovForm (R43, R44). -/
def PmovForm.code : PmovForm → BitVec 7
  | .move => 0
  | .toV => 1
  | .fromV => 2

/-- The PmovForm of a code; a reserved code has none. -/
def PmovForm.ofCode (c : BitVec 7) : Option PmovForm :=
  match c.toNat with
  | 0 => some .move
  | 1 => some .toV
  | 2 => some .fromV
  | _ => none

/-- The code of a LbKind (R43, R44). -/
def LbKind.code : LbKind → BitVec 2
  | .v => 0
  | .p => 1
  | .w => 2
  | .mem => 3

/-- The LbKind of a code; a reserved code has none. -/
def LbKind.ofCode (c : BitVec 2) : Option LbKind :=
  match c.toNat with
  | 0 => some .v
  | 1 => some .p
  | 2 => some .w
  | 3 => some .mem
  | _ => none

/-- The code of a TileTy (R43, R44). -/
def TileTy.code : TileTy → BitVec 4
  | .f32 => 0
  | .f64 => 1
  | .bf16 => 3

/-- The TileTy of a code; a reserved code has none. -/
def TileTy.ofCode (c : BitVec 4) : Option TileTy :=
  match c.toNat with
  | 0 => some .f32
  | 1 => some .f64
  | 3 => some .bf16
  | _ => none

/-- The code of a Shape (R43, R44). -/
def Shape.code : Shape → BitVec 3
  | .d1 => 0
  | .d2 => 1
  | .t8 => 2
  | .t16 => 3

/-- The Shape of a code; a reserved code has none. -/
def Shape.ofCode (c : BitVec 3) : Option Shape :=
  match c.toNat with
  | 0 => some .d1
  | 1 => some .d2
  | 2 => some .t8
  | 3 => some .t16
  | _ => none

/-- The code of a MaintOp (R43, R44). -/
def MaintOp.code : MaintOp → BitVec 8
  | .evl1 => 0
  | .wbl2 => 1
  | .evl2 => 2
  | .demote => 3

/-- The MaintOp of a code; a reserved code has none. -/
def MaintOp.ofCode (c : BitVec 8) : Option MaintOp :=
  match c.toNat with
  | 0 => some .evl1
  | 1 => some .wbl2
  | 2 => some .evl2
  | 3 => some .demote
  | _ => none

/-- The fold code of C[3:0] (R173). -/
def FoldOp.code : FoldOp → BitVec 4
  | .int .add _ => 0
  | .int .min _ => 1
  | .int .max _ => 2
  | .int .and _ => 3
  | .int .or _ => 4
  | .int .xor _ => 5
  | .flt .fadd _ _ => 8
  | .flt .fmin _ _ => 9
  | .flt .fmax _ _ => 10

/-- The modifier of a fold: rounding in M[6:4], type in M[3:0] (R173). -/
def FoldOp.m : FoldOp → BitVec 7
  | .int _ t => 0#3 ++ t.code
  | .flt _ t rm => rm.code ++ t.code

/-- The fold of a code and a modifier. -/
def FoldOp.ofCode (c : BitVec 4) (m : BitVec 7) : Option FoldOp :=
  let it (op : IFold) : Option FoldOp :=
    if m.extractLsb' 4 3 = 0 then (IType.ofCode (m.extractLsb' 0 4)).map (.int op) else none
  let ft (op : FFold) : Option FoldOp :=
    (FType.ofCode (m.extractLsb' 0 4)).bind (fun t => (Rnd.ofCode (m.extractLsb' 4 3)).map (.flt op t))
  match c.toNat with
  | 0 => it .add
  | 1 => it .min
  | 2 => it .max
  | 3 => it .and
  | 4 => it .or
  | 5 => it .xor
  | 8 => ft .fadd
  | 9 => ft .fmin
  | 10 => ft .fmax
  | _ => none

/-- Format A (R33): the fields of bits [58:10], the highest first. -/
structure FmtA where
  rg : BitVec 1 := 0
  tt : BitVec 8 := 0
  u : BitVec 1 := 0
  m : BitVec 7 := 0
  c : BitVec 8 := 0
  b : BitVec 8 := 0
  a : BitVec 8 := 0
  d : BitVec 8 := 0
  deriving DecidableEq, Repr

/-- The bits [58:10] of a word of this format. -/
def FmtA.pack (f : FmtA) : BitVec 49 :=
  f.rg ++ f.tt ++ f.u ++ f.m ++ f.c ++ f.b ++ f.a ++ f.d

/-- The fields of bits [58:10]. -/
def FmtA.unpack (x : BitVec 49) : FmtA where
  rg := x.extractLsb' 48 1
  tt := x.extractLsb' 40 8
  u := x.extractLsb' 39 1
  m := x.extractLsb' 32 7
  c := x.extractLsb' 24 8
  b := x.extractLsb' 16 8
  a := x.extractLsb' 8 8
  d := x.extractLsb' 0 8

/-- Format I (R34): the fields of bits [58:10], the highest first. -/
structure FmtI where
  u : BitVec 1 := 0
  imm : BitVec 32 := 0
  a : BitVec 8 := 0
  d : BitVec 8 := 0
  deriving DecidableEq, Repr

/-- The bits [58:10] of a word of this format. -/
def FmtI.pack (f : FmtI) : BitVec 49 :=
  f.u ++ f.imm ++ f.a ++ f.d

/-- The fields of bits [58:10]. -/
def FmtI.unpack (x : BitVec 49) : FmtI where
  u := x.extractLsb' 48 1
  imm := x.extractLsb' 16 32
  a := x.extractLsb' 8 8
  d := x.extractLsb' 0 8

/-- Format M (R35): the fields of bits [58:10], the highest first. -/
structure FmtM where
  aw : BitVec 1 := 0
  pol : BitVec 2 := 0
  scp : BitVec 3 := 0
  dom : BitVec 3 := 0
  o : BitVec 1 := 0
  sz : BitVec 3 := 0
  off : BitVec 12 := 0
  b : BitVec 8 := 0
  a : BitVec 8 := 0
  d : BitVec 8 := 0
  deriving DecidableEq, Repr

/-- The bits [58:10] of a word of this format. -/
def FmtM.pack (f : FmtM) : BitVec 49 :=
  f.aw ++ f.pol ++ f.scp ++ f.dom ++ f.o ++ f.sz ++ f.off ++ f.b ++ f.a ++ f.d

/-- The fields of bits [58:10]. -/
def FmtM.unpack (x : BitVec 49) : FmtM where
  aw := x.extractLsb' 48 1
  pol := x.extractLsb' 46 2
  scp := x.extractLsb' 43 3
  dom := x.extractLsb' 40 3
  o := x.extractLsb' 39 1
  sz := x.extractLsb' 36 3
  off := x.extractLsb' 24 12
  b := x.extractLsb' 16 8
  a := x.extractLsb' 8 8
  d := x.extractLsb' 0 8

/-- Format MA (R36): the fields of bits [58:10], the highest first. -/
structure FmtMA where
  aw : BitVec 1 := 0
  pol : BitVec 2 := 0
  scp : BitVec 3 := 0
  dom : BitVec 3 := 0
  o : BitVec 1 := 0
  sz : BitVec 3 := 0
  c : BitVec 8 := 0
  aop : BitVec 4 := 0
  b : BitVec 8 := 0
  a : BitVec 8 := 0
  d : BitVec 8 := 0
  deriving DecidableEq, Repr

/-- The bits [58:10] of a word of this format. -/
def FmtMA.pack (f : FmtMA) : BitVec 49 :=
  f.aw ++ f.pol ++ f.scp ++ f.dom ++ f.o ++ f.sz ++ f.c ++ f.aop ++ f.b ++ f.a ++ f.d

/-- The fields of bits [58:10]. -/
def FmtMA.unpack (x : BitVec 49) : FmtMA where
  aw := x.extractLsb' 48 1
  pol := x.extractLsb' 46 2
  scp := x.extractLsb' 43 3
  dom := x.extractLsb' 40 3
  o := x.extractLsb' 39 1
  sz := x.extractLsb' 36 3
  c := x.extractLsb' 28 8
  aop := x.extractLsb' 24 4
  b := x.extractLsb' 16 8
  a := x.extractLsb' 8 8
  d := x.extractLsb' 0 8

/-- Format B (R38): the fields of bits [58:10], the highest first. -/
structure FmtB where
  r : BitVec 1 := 0
  ofs : BitVec 32 := 0
  a : BitVec 8 := 0
  d : BitVec 8 := 0
  deriving DecidableEq, Repr

/-- The bits [58:10] of a word of this format. -/
def FmtB.pack (f : FmtB) : BitVec 49 :=
  f.r ++ f.ofs ++ f.a ++ f.d

/-- The fields of bits [58:10]. -/
def FmtB.unpack (x : BitVec 49) : FmtB where
  r := x.extractLsb' 48 1
  ofs := x.extractLsb' 16 32
  a := x.extractLsb' 8 8
  d := x.extractLsb' 0 8

/-- Format X (R39): the fields of bits [58:10], the highest first. -/
structure FmtX where
  r : BitVec 17 := 0
  ws : BitVec 8 := 0
  z : BitVec 1 := 0
  kq : BitVec 3 := 0
  fb : BitVec 4 := 0
  fa : BitVec 4 := 0
  bs : BitVec 4 := 0
  sa : BitVec 4 := 0
  t : BitVec 4 := 0
  deriving DecidableEq, Repr

/-- The bits [58:10] of a word of this format. -/
def FmtX.pack (f : FmtX) : BitVec 49 :=
  f.r ++ f.ws ++ f.z ++ f.kq ++ f.fb ++ f.fa ++ f.bs ++ f.sa ++ f.t

/-- The fields of bits [58:10]. -/
def FmtX.unpack (x : BitVec 49) : FmtX where
  r := x.extractLsb' 32 17
  ws := x.extractLsb' 24 8
  z := x.extractLsb' 23 1
  kq := x.extractLsb' 20 3
  fb := x.extractLsb' 16 4
  fa := x.extractLsb' 12 4
  bs := x.extractLsb' 8 4
  sa := x.extractLsb' 4 4
  t := x.extractLsb' 0 4

/-- Format C (R40): the fields of bits [58:10], the highest first. -/
structure FmtC where
  r3 : BitVec 3 := 0
  scp : BitVec 3 := 0
  dom : BitVec 3 := 0
  r2 : BitVec 11 := 0
  wf : BitVec 6 := 0
  r1 : BitVec 3 := 0
  wd : BitVec 6 := 0
  r0 : BitVec 3 := 0
  wc : BitVec 6 := 0
  shp : BitVec 3 := 0
  ch : BitVec 2 := 0
  deriving DecidableEq, Repr

/-- The bits [58:10] of a word of this format. -/
def FmtC.pack (f : FmtC) : BitVec 49 :=
  f.r3 ++ f.scp ++ f.dom ++ f.r2 ++ f.wf ++ f.r1 ++ f.wd ++ f.r0 ++ f.wc ++ f.shp ++ f.ch

/-- The fields of bits [58:10]. -/
def FmtC.unpack (x : BitVec 49) : FmtC where
  r3 := x.extractLsb' 46 3
  scp := x.extractLsb' 43 3
  dom := x.extractLsb' 40 3
  r2 := x.extractLsb' 29 11
  wf := x.extractLsb' 23 6
  r1 := x.extractLsb' 20 3
  wd := x.extractLsb' 14 6
  r0 := x.extractLsb' 11 3
  wc := x.extractLsb' 5 6
  shp := x.extractLsb' 2 3
  ch := x.extractLsb' 0 2

/-- Format S (R41): the fields of bits [58:10], the highest first. -/
structure FmtS where
  r : BitVec 17 := 0
  srn : BitVec 16 := 0
  a : BitVec 8 := 0
  d : BitVec 8 := 0
  deriving DecidableEq, Repr

/-- The bits [58:10] of a word of this format. -/
def FmtS.pack (f : FmtS) : BitVec 49 :=
  f.r ++ f.srn ++ f.a ++ f.d

/-- The fields of bits [58:10]. -/
def FmtS.unpack (x : BitVec 49) : FmtS where
  r := x.extractLsb' 32 17
  srn := x.extractLsb' 16 16
  a := x.extractLsb' 8 8
  d := x.extractLsb' 0 8

/-- A flag bit of a format. -/
def one (b : Bool) : BitVec 1 := BitVec.ofBool b
/-- Is a flag bit set? -/
def isOne (x : BitVec 1) : Bool := x.getLsbD 0

/-- The header of a word (R30). -/
def hdrOf (w : BitVec 64) : Hdr where
  s := w.getLsbD 63
  g := w.extractLsb' 60 3
  gn := w.getLsbD 59

/-- A word from header, body and opcode (R30). -/
def wordOf (h : Hdr) (op : BitVec 10) (body : BitVec 49) : BitVec 64 :=
  one h.s ++ (h.g ++ (one h.gn ++ (body ++ op)))

/-- The shared fields of formats M and MA, when their codes are assigned (R44, R21). -/
def memOpOf (aw : BitVec 1) (pol : BitVec 2) (scp dom : BitVec 3) (o : BitVec 1) (sz : BitVec 3) (off : BitVec 12)
    (a : BitVec 8) : Option MemOp :=
  (Pol.ofCode pol).bind fun p => (Scope.ofCode scp).bind fun s => (Dom.ofCode dom).bind fun dm =>
    (Size.ofCode sz).map fun z => ⟨isOne aw, p, s, dm, isOne o, z, off, a⟩

/-- Format A with reserved RG and TT, and B and C reserved unless used. -/
def FmtA.plain (f : FmtA) (useB useC : Bool) : Bool :=
  decide (f.rg = 0) && decide (f.tt = 0) && (useB || decide (f.b = 0)) && (useC || decide (f.c = 0))

/-- Format A with U reserved as well (R46). -/
def FmtA.noU (f : FmtA) (useB useC : Bool) : Bool := f.plain useB useC && decide (f.u = 0)

/-- The type code M[3:0] with M[6:4] reserved (R43, R92). -/
def FmtA.ity (f : FmtA) (k : IType → Dec) : Dec :=
  need (decide (f.m.extractLsb' 4 3 = 0)) (withCode (IType.ofCode (f.m.extractLsb' 0 4)) k)

/-- The floating type code M[3:0] with M[6:4] reserved. -/
def FmtA.fty (f : FmtA) (k : FType → Dec) : Dec :=
  need (decide (f.m.extractLsb' 4 3 = 0)) (withCode (FType.ofCode (f.m.extractLsb' 0 4)) k)

/-- Type and rounding codes, with the random source reserved unless the rounding is stochastic (R43). -/
def FmtA.rounded (f : FmtA) (k : FType → Rnd → RndSrc → Dec) : Dec :=
  withCode (FType.ofCode (f.m.extractLsb' 0 4)) fun t => withCode (Rnd.ofCode (f.m.extractLsb' 4 3)) fun rm =>
    need (decide (rm = .rsto) || (decide (f.rg = 0) && decide (f.tt = 0))) (k t rm ⟨isOne f.rg, f.tt⟩)

/-- The source type of a conversion: C[3:0], with C[7:4] reserved (R43). -/
def FmtA.srcF (f : FmtA) (k : FType → Dec) : Dec :=
  need (decide (f.c.extractLsb' 4 4 = 0)) (withCode (FType.ofCode (f.c.extractLsb' 0 4)) k)

/-- The integer source type of a conversion. -/
def FmtA.srcI (f : FmtA) (k : IType → Dec) : Dec :=
  need (decide (f.c.extractLsb' 4 4 = 0)) (withCode (IType.ofCode (f.c.extractLsb' 0 4)) k)

/-- A predicate field: codes 8 to 255 are reserved (R42). -/
def pcode (x : BitVec 8) : Option (BitVec 3) := if x.extractLsb' 3 5 = 0 then some (x.extractLsb' 0 3) else none

/-- A predicate, slot or generator code in an 8-bit field. -/
def wide (x : BitVec 3) : BitVec 8 := 0#5 ++ x

/-- A tile code in an 8-bit field: codes 16 to 255 are reserved (R42). -/
def tcode (x : BitVec 8) : Option (BitVec 4) := if x.extractLsb' 4 4 = 0 then some (x.extractLsb' 0 4) else none

/-- Modifier of a type alone. -/
def IType.m (t : IType) : BitVec 7 := 0#3 ++ t.code
/-- Modifier of a floating type alone. -/
def FType.m (t : FType) : BitVec 7 := 0#3 ++ t.code

/-- The words with opcodes 0x000 to 0x03F (R45); none where the opcode is unassigned. -/
def decodeGroup0 (h : Hdr) (x : BitVec 49) : Nat → Option Dec
  | 0x000 => some (let f := FmtA.unpack x;
      need (f.noU false false && decide (f.m = 0) && decide (f.a = 0) && decide (f.d = 0)) (.ok (.nop h)))
  | 0x001 => some (let f := FmtA.unpack x;
      need (f.plain false false) (f.ity fun t => .ok (.mov h (isOne f.u) t f.d f.a)))
  | 0x002 => some (let f := FmtA.unpack x;
      need (f.plain true false) (f.ity fun t => .ok (.iadd h (isOne f.u) t f.d f.a f.b)))
  | 0x003 => some (let f := FmtA.unpack x;
      need (f.plain true false) (f.ity fun t => .ok (.isub h (isOne f.u) t f.d f.a f.b)))
  | 0x004 => some (let f := FmtA.unpack x;
      need (f.plain true false) (f.ity fun t => .ok (.imul h (isOne f.u) t f.d f.a f.b)))
  | 0x005 => some (let f := FmtA.unpack x;
      need (f.plain true false) (f.ity fun t => .ok (.imulh h (isOne f.u) t f.d f.a f.b)))
  | 0x006 => some (let f := FmtA.unpack x;
      need (f.plain true true) (f.ity fun t => .ok (.imad h (isOne f.u) t f.d f.a f.b f.c)))
  | 0x007 => some (let f := FmtA.unpack x;
      need (f.plain true false) (f.ity fun t => .ok (.idiv h (isOne f.u) t f.d f.a f.b)))
  | 0x008 => some (let f := FmtA.unpack x;
      need (f.plain true false) (f.ity fun t => .ok (.irem h (isOne f.u) t f.d f.a f.b)))
  | 0x009 => some (let f := FmtA.unpack x;
      need (f.plain true false) (f.ity fun t => .ok (.imin h (isOne f.u) t f.d f.a f.b)))
  | 0x00A => some (let f := FmtA.unpack x;
      need (f.plain true false) (f.ity fun t => .ok (.imax h (isOne f.u) t f.d f.a f.b)))
  | 0x00B => some (let f := FmtA.unpack x;
      need (f.plain false false) (f.ity fun t => .ok (.iabs h (isOne f.u) t f.d f.a)))
  | 0x00C => some (let f := FmtA.unpack x;
      need (f.plain true false) (f.ity fun t => .ok (.sadd h (isOne f.u) t f.d f.a f.b)))
  | 0x00D => some (let f := FmtA.unpack x;
      need (f.plain true false) (f.ity fun t => .ok (.ssub h (isOne f.u) t f.d f.a f.b)))
  | 0x00E => some (let f := FmtA.unpack x;
      need (f.plain true false) (f.ity fun t => .ok (.and h (isOne f.u) t f.d f.a f.b)))
  | 0x00F => some (let f := FmtA.unpack x;
      need (f.plain true false) (f.ity fun t => .ok (.or h (isOne f.u) t f.d f.a f.b)))
  | 0x010 => some (let f := FmtA.unpack x;
      need (f.plain true false) (f.ity fun t => .ok (.xor h (isOne f.u) t f.d f.a f.b)))
  | 0x011 => some (let f := FmtA.unpack x;
      need (decide (f.rg = 0)) (f.ity fun t => .ok (.ttab h (isOne f.u) t f.tt f.d f.a f.b f.c)))
  | 0x012 => some (let f := FmtA.unpack x;
      need (f.plain true false && decide (f.m = 0)) (.ok (.shl h (isOne f.u) f.d f.a f.b)))
  | 0x013 => some (let f := FmtA.unpack x;
      need (f.plain true false && decide (f.m = 0)) (.ok (.shr h (isOne f.u) f.d f.a f.b)))
  | 0x014 => some (let f := FmtA.unpack x;
      need (f.plain true false && decide (f.m = 0)) (.ok (.sar h (isOne f.u) f.d f.a f.b)))
  | 0x015 => some (let f := FmtA.unpack x;
      need (f.plain true false && decide (f.m = 0)) (.ok (.rotl h (isOne f.u) f.d f.a f.b)))
  | 0x016 => some (let f := FmtA.unpack x;
      need (f.plain true false) (f.ity fun t => .ok (.bfx h (isOne f.u) t f.d f.a f.b)))
  | 0x017 => some (let f := FmtA.unpack x;
      need (f.plain true true && decide (f.m = 0)) (.ok (.bfi h (isOne f.u) f.d f.a f.b f.c)))
  | 0x018 => some (let f := FmtA.unpack x;
      need (f.plain false false) (f.ity fun t => .ok (.popc h (isOne f.u) t f.d f.a)))
  | 0x019 => some (let f := FmtA.unpack x;
      need (f.plain false false) (f.ity fun t => .ok (.clz h (isOne f.u) t f.d f.a)))
  | 0x01A => some (let f := FmtA.unpack x;
      need (f.plain false false) (f.ity fun t => .ok (.brev h (isOne f.u) t f.d f.a)))
  | 0x01B => some (let f := FmtA.unpack x;
      need (f.plain true true && decide (f.m = 0)) (.ok (.bperm h (isOne f.u) f.d f.a f.b f.c)))
  | 0x01C => some (let f := FmtA.unpack x;
      need (f.plain true false && decide (f.m = 0)) (.ok (.add64 h (isOne f.u) f.d f.a f.b)))
  | 0x01D => some (let f := FmtA.unpack x;
      need (f.plain true true) (f.ity fun t => .ok (.mad64 h (isOne f.u) t f.d f.a f.b f.c)))
  | 0x01E => some (let f := FmtA.unpack x;
      need (f.plain true false && decide (f.m = 0)) (.ok (.shl64 h (isOne f.u) f.d f.a f.b)))
  | 0x01F => some (let f := FmtA.unpack x;
      need (f.plain true false && decide (f.m.extractLsb' 1 6 = 0)) (.ok (.shr64 h (isOne f.u) (f.m.getLsbD 0) f.d f.a f.b)))
  | 0x021 => some (let f := FmtI.unpack x; need (decide (f.a = 0)) (.ok (.movi h (isOne f.u) f.imm f.d)))
  | 0x022 => some (let f := FmtI.unpack x; .ok (.iaddImm h (isOne f.u) f.imm f.d f.a))
  | 0x023 => some (let f := FmtI.unpack x; .ok (.isubImm h (isOne f.u) f.imm f.d f.a))
  | 0x024 => some (let f := FmtI.unpack x; .ok (.imulImm h (isOne f.u) f.imm f.d f.a))
  | 0x029 => some (let f := FmtI.unpack x; .ok (.iminImm h (isOne f.u) f.imm f.d f.a))
  | 0x02A => some (let f := FmtI.unpack x; .ok (.imaxImm h (isOne f.u) f.imm f.d f.a))
  | 0x02C => some (let f := FmtI.unpack x; .ok (.saddImm h (isOne f.u) f.imm f.d f.a))
  | 0x02E => some (let f := FmtI.unpack x; .ok (.andImm h (isOne f.u) f.imm f.d f.a))
  | 0x02F => some (let f := FmtI.unpack x; .ok (.orImm h (isOne f.u) f.imm f.d f.a))
  | 0x030 => some (let f := FmtI.unpack x; .ok (.xorImm h (isOne f.u) f.imm f.d f.a))
  | 0x032 => some (let f := FmtI.unpack x; .ok (.shlImm h (isOne f.u) f.imm f.d f.a))
  | 0x033 => some (let f := FmtI.unpack x; .ok (.shrImm h (isOne f.u) f.imm f.d f.a))
  | 0x034 => some (let f := FmtI.unpack x; .ok (.sarImm h (isOne f.u) f.imm f.d f.a))
  | 0x035 => some (let f := FmtI.unpack x; .ok (.rotlImm h (isOne f.u) f.imm f.d f.a))
  | 0x03C => some (let f := FmtI.unpack x; .ok (.add64Imm h (isOne f.u) f.imm f.d f.a))
  | _ => none

/-- The words with opcodes 0x040 to 0x07F (R45); none where the opcode is unassigned. -/
def decodeGroup1 (h : Hdr) (x : BitVec 49) : Nat → Option Dec
  | 0x040 => some (let f := FmtA.unpack x;
      need (decide (f.u = 0) && decide (f.c = 0)) (f.rounded fun t rm r => .ok (.fadd h t rm r f.d f.a f.b)))
  | 0x041 => some (let f := FmtA.unpack x;
      need (decide (f.u = 0) && decide (f.c = 0)) (f.rounded fun t rm r => .ok (.fsub h t rm r f.d f.a f.b)))
  | 0x042 => some (let f := FmtA.unpack x;
      need (decide (f.u = 0) && decide (f.c = 0)) (f.rounded fun t rm r => .ok (.fmul h t rm r f.d f.a f.b)))
  | 0x043 => some (let f := FmtA.unpack x;
      need (decide (f.u = 0)) (f.rounded fun t rm r => .ok (.fma h t rm r f.d f.a f.b f.c)))
  | 0x044 => some (let f := FmtA.unpack x; need (f.noU true false) (f.fty fun t => .ok (.fmin h t f.d f.a f.b)))
  | 0x045 => some (let f := FmtA.unpack x; need (f.noU true false) (f.fty fun t => .ok (.fmax h t f.d f.a f.b)))
  | 0x046 => some (let f := FmtA.unpack x; need (f.noU false false) (f.fty fun t => .ok (.fabs h t f.d f.a)))
  | 0x047 => some (let f := FmtA.unpack x; need (f.noU false false) (f.fty fun t => .ok (.fneg h t f.d f.a)))
  | 0x048 => some (let f := FmtA.unpack x;
      need (decide (f.u = 0) && decide (f.b = 0) && decide (f.c = 0)) (f.rounded fun t rm r => .ok (.frcp h t rm r f.d f.a)))
  | 0x049 => some (let f := FmtA.unpack x;
      need (decide (f.u = 0) && decide (f.b = 0) && decide (f.c = 0)) (f.rounded fun t rm r => .ok (.fsqrt h t rm r f.d f.a)))
  | 0x04A => some (let f := FmtA.unpack x;
      need (decide (f.u = 0) && decide (f.b = 0) && decide (f.c = 0)) (f.rounded fun t rm r => .ok (.frsq h t rm r f.d f.a)))
  | 0x04B => some (let f := FmtA.unpack x;
      need (decide (f.u = 0) && decide (f.b = 0) && decide (f.c = 0)) (f.rounded fun t rm r => .ok (.fexp2 h t rm r f.d f.a)))
  | 0x04C => some (let f := FmtA.unpack x;
      need (decide (f.u = 0) && decide (f.b = 0) && decide (f.c = 0)) (f.rounded fun t rm r => .ok (.flog2 h t rm r f.d f.a)))
  | 0x04D => some (let f := FmtA.unpack x;
      need (decide (f.u = 0) && decide (f.b = 0) && decide (f.c = 0)) (f.rounded fun t rm r => .ok (.fsin h t rm r f.d f.a)))
  | 0x04E => some (let f := FmtA.unpack x;
      need (decide (f.u = 0) && decide (f.b = 0) && decide (f.c = 0)) (f.rounded fun t rm r => .ok (.fcos h t rm r f.d f.a)))
  | 0x04F => some (let f := FmtA.unpack x; need (f.noU false false) (f.fty fun t => .ok (.fclass h t f.d f.a)))
  | 0x050 => some (let f := FmtA.unpack x;
      need (decide (f.u = 0)) (f.rounded fun t rm r => .ok (.fdot2 h t rm r f.d f.a f.b f.c)))
  | 0x051 => some (let f := FmtA.unpack x;
      need (decide (f.u = 0) && decide (f.c = 0)) (f.rounded fun t rm r => .ok (.fscale h t rm r f.d f.a f.b)))
  | 0x052 => some (let f := FmtA.unpack x;
      need (decide (f.u = 0) && decide (f.b = 0) && decide (f.c = 0)) (f.rounded fun t rm r => .ok (.frint h t rm r f.d f.a)))
  | 0x060 => some (let f := FmtI.unpack x; need (decide (f.u = 0)) (.ok (.faddImm h f.imm f.d f.a)))
  | 0x061 => some (let f := FmtI.unpack x; need (decide (f.u = 0)) (.ok (.fsubImm h f.imm f.d f.a)))
  | 0x062 => some (let f := FmtI.unpack x; need (decide (f.u = 0)) (.ok (.fmulImm h f.imm f.d f.a)))
  | 0x064 => some (let f := FmtI.unpack x; need (decide (f.u = 0)) (.ok (.fminImm h f.imm f.d f.a)))
  | 0x065 => some (let f := FmtI.unpack x; need (decide (f.u = 0)) (.ok (.fmaxImm h f.imm f.d f.a)))
  | _ => none

/-- The words with opcodes 0x080 to 0x0BF (R45); none where the opcode is unassigned. -/
def decodeGroup2 (h : Hdr) (x : BitVec 49) : Nat → Option Dec
  | 0x080 => some (let f := FmtA.unpack x;
      need (decide (f.u = 0) && decide (f.b = 0)) (f.rounded fun dt rm r => f.srcF fun st => .ok (.cvt h dt st rm r f.d f.a)))
  | 0x081 => some (let f := FmtA.unpack x;
      need (decide (f.u = 0) && decide (f.b = 0)) (withCode (IType.ofCode (f.m.extractLsb' 0 4)) fun dt =>
      withCode (Rnd.ofCode (f.m.extractLsb' 4 3)) fun rm =>
        need (decide (rm = .rsto) || (decide (f.rg = 0) && decide (f.tt = 0)))
          (f.srcF fun st => .ok (.cvtn h dt st rm ⟨isOne f.rg, f.tt⟩ f.d f.a))))
  | 0x082 => some (let f := FmtA.unpack x;
      need (decide (f.u = 0) && decide (f.b = 0)) (f.rounded fun dt rm r => f.srcI fun st => .ok (.cvtw h dt st rm r f.d f.a)))
  | 0x083 => some (let f := FmtA.unpack x;
      need (f.noU false true && decide (f.c = 0)) (f.fty fun t => .ok (.scfit h t f.d f.a)))
  | 0x084 => some (let f := FmtA.unpack x;
      need (decide (f.u = 0) && decide (f.c = 0)) (f.rounded fun t rm r => .ok (.scapp h t rm r f.d f.a f.b)))
  | 0x085 => some (let f := FmtA.unpack x;
      need (f.noU false true && decide (f.m = 3) && decide (f.c = 9)) (.ok (.cbdec h f.d f.a)))
  | _ => none

/-- The words with opcodes 0x0C0 to 0x0FF (R45); none where the opcode is unassigned. -/
def decodeGroup3 (h : Hdr) (x : BitVec 49) : Nat → Option Dec
  | 0x0C0 => some (let f := FmtA.unpack x;
      need (f.noU true true) (withCode (IType.ofCode (f.m.extractLsb' 0 4)) fun t =>
      withCode (Cmp.ofCode (f.m.extractLsb' 4 3)) fun cmp => withCode (pcode f.d) fun d => withCode (pcode f.c) fun c =>
        .ok (.icmp h cmp t d f.a f.b c)))
  | 0x0C1 => some (let f := FmtA.unpack x;
      need (f.noU true true) (withCode (FType.ofCode (f.m.extractLsb' 0 4)) fun t =>
      withCode (Cmp.ofCode (f.m.extractLsb' 4 3)) fun cmp => withCode (pcode f.d) fun d => withCode (pcode f.c) fun c =>
        .ok (.fcmp h cmp t d f.a f.b c)))
  | 0x0C2 => some (let f := FmtA.unpack x;
      need (f.noU true true) (f.ity fun t => withCode (pcode f.c) fun c => .ok (.sel h t f.d f.a f.b c)))
  | 0x0C3 => some (let f := FmtA.unpack x;
      need (decide (f.rg = 0) && decide (f.u = 0) && decide (f.m = 0)) (withCode (pcode f.d) fun d =>
      withCode (pcode f.a) fun a => withCode (pcode f.b) fun b => withCode (pcode f.c) fun c =>
        .ok (.plog h f.tt d a b c)))
  | 0x0C4 => some (let f := FmtA.unpack x;
      need (f.noU false false) (withCode (PmovForm.ofCode f.m) fun p => .ok (.pmov h p f.d f.a)))
  | _ => none

/-- The words with opcodes 0x100 to 0x13F (R45); none where the opcode is unassigned. -/
def decodeGroup4 (h : Hdr) (x : BitVec 49) : Nat → Option Dec
  | 0x100 => some (let f := FmtB.unpack x;
      need (decide (f.r = 0) && decide (f.a = 0) && decide (f.d = 0)) (.ok (.bra h f.ofs)))
  | 0x101 => some (let f := FmtB.unpack x;
      need (decide (f.r = 0) && decide (f.ofs = 0) && decide (f.d = 0)) (.ok (.brx h f.a)))
  | 0x102 => some (let f := FmtB.unpack x; need (decide (f.r = 0) && decide (f.a = 0)) (.ok (.call h f.ofs f.d)))
  | 0x103 => some (let f := FmtB.unpack x;
      need (decide (f.r = 0) && decide (f.ofs = 0) && decide (f.d = 0)) (.ok (.ret h f.a)))
  | 0x104 => some (let f := FmtB.unpack x;
      need (decide (f.r = 0) && decide (f.a = 0) && decide (f.d = 0)) (.ok (.jpush h f.ofs)))
  | 0x105 => some (let f := FmtA.unpack x;
      need (f.noU false false && decide (f.m = 0) && decide (f.a = 0) && decide (f.d = 0)) (.ok (.join h)))
  | 0x106 => some (let f := FmtA.unpack x;
      need (f.noU false false && decide (f.m = 0) && decide (f.a = 0) && decide (f.d = 0)) (.ok (.regang h)))
  | 0x107 => some (let f := FmtB.unpack x;
      need (decide (f.r = 0) && decide (f.ofs.extractLsb' 8 24 = 0) && decide (f.d = 0)) (.ok (.loop h (f.ofs.extractLsb' 0 8) f.a)))
  | 0x108 => some (let f := FmtA.unpack x;
      need (f.noU false false && decide (f.m = 0) && decide (f.a = 0) && decide (f.d = 0)) (.ok (.exit h)))
  | 0x109 => some (let f := FmtI.unpack x;
      need (decide (f.u = 0) && decide (f.a = 0) && decide (f.d = 0)) (.ok (.doze h f.imm)))
  | 0x10A => some (let f := FmtI.unpack x;
      need (decide (f.u = 0) && decide (f.a = 0) && decide (f.d = 0)) (.ok (.trap h f.imm)))
  | 0x10B => some (let f := FmtI.unpack x;
      need (decide (f.u = 0) && decide (f.a = 0) && decide (f.d = 0)) (.ok (.brk h f.imm)))
  | 0x10C => some (let f := FmtA.unpack x;
      need (f.noU false false && decide (f.m = 0) && decide (f.a = 0) && decide (f.d = 0)) (.ok (.yield h)))
  | _ => none

/-- The words with opcodes 0x140 to 0x17F (R45); none where the opcode is unassigned. -/
def decodeGroup5 (h : Hdr) (x : BitVec 49) : Nat → Option Dec
  | 0x140 => some (let f := FmtM.unpack x;
      need (decide (f.b = 0)) (withCode (memOpOf f.aw f.pol f.scp f.dom f.o f.sz f.off f.a) fun m => .ok (.ld h m f.d)))
  | 0x141 => some (let f := FmtM.unpack x;
      need (decide (f.d = 0)) (withCode (memOpOf f.aw f.pol f.scp f.dom f.o f.sz f.off f.a) fun m => .ok (.st h m f.b)))
  | 0x142 => some (let f := FmtMA.unpack x;
      need (decide (f.c = 0)) (withCode (memOpOf f.aw f.pol f.scp f.dom f.o f.sz 0 f.a) fun m => withCode (Aop.ofCode f.aop) fun op => .ok (.atom h m op f.d f.b)))
  | 0x143 => some (let f := FmtMA.unpack x;
      need (decide (f.aop = 0)) (withCode (memOpOf f.aw f.pol f.scp f.dom f.o f.sz 0 f.a) fun m => .ok (.cas h m f.d f.b f.c)))
  | 0x144 => some (let f := FmtMA.unpack x;
      need (decide (f.c = 0) && decide (f.d = 0)) (withCode (memOpOf f.aw f.pol f.scp f.dom f.o f.sz 0 f.a) fun m => withCode (Aop.ofCode f.aop) fun op => .ok (.red h m op f.b)))
  | 0x145 => some (let f := FmtM.unpack x;
      need (decide (f.aw = 0) && decide (f.pol = 0) && decide (f.sz = 0) && decide (f.off = 0) && decide (f.a = 0) && decide (f.d = 0) && decide (f.b = 0)) (withCode (Dom.ofCode f.dom) fun dm => withCode (Scope.ofCode f.scp) fun sc => .ok (.fence h (isOne f.o) dm sc)))
  | 0x146 => some (let f := FmtM.unpack x;
      need (decide (f.aw = 0) && decide (f.pol = 0) && decide (f.sz = 0) && decide (f.off = 0) && decide (f.a = 0) && decide (f.d = 0) && decide (f.o = 0) && decide (f.b.extractLsb' 3 5 = 0)) (withCode (Dom.ofCode (f.b.extractLsb' 0 3)) fun fr =>
      withCode (Dom.ofCode f.dom) fun dm => withCode (Scope.ofCode f.scp) fun sc => .ok (.bridge h fr dm sc)))
  | 0x147 => some (let f := FmtMA.unpack x;
      need (decide (f.aop = 0) && decide (f.d = 0)) (withCode (memOpOf f.aw f.pol f.scp f.dom f.o f.sz 0 f.a) fun m => .ok (.stf h m f.b f.c)))
  | 0x148 => some (let f := FmtM.unpack x;
      withCode (memOpOf f.aw f.pol f.scp f.dom f.o f.sz f.off f.a) fun m => .ok (.waitge h m f.d f.b))
  | 0x149 => some (let f := FmtM.unpack x;
      need (decide (f.b = 0) && decide (f.d = 0)) (withCode (memOpOf f.aw f.pol f.scp f.dom f.o f.sz f.off f.a) fun m => .ok (.ldpf h m)))
  | 0x14A => some (let f := FmtM.unpack x;
      need (decide (f.d = 0)) (withCode (memOpOf f.aw f.pol f.scp f.dom f.o f.sz f.off f.a) fun m => withCode (MaintOp.ofCode f.b) fun op => .ok (.cmaint h m op)))
  | 0x14B => some (let f := FmtA.unpack x;
      need (f.noU true true && decide (f.m = 0)) (.ok (.release h f.d f.a f.b f.c)))
  | _ => none

/-- The words with opcodes 0x180 to 0x1BF (R45); none where the opcode is unassigned. -/
def decodeGroup6 (h : Hdr) (x : BitVec 49) : Nat → Option Dec
  | 0x180 => some (let f := FmtA.unpack x;
      need (f.noU true true) (withCode (XMode.ofCode (f.m.extractLsb' 4 3)) fun x =>
      withCode (IType.ofCode (f.m.extractLsb' 0 4)) fun t => .ok (.lxch h x t f.c f.d f.a f.b)))
  | 0x181 => some (let f := FmtA.unpack x;
      need (f.noU false false) (withCode (PollForm.ofCode f.m) fun p => withCode (pcode f.a) fun a => .ok (.poll h p f.d a)))
  | 0x182 => some (let f := FmtA.unpack x;
      need (f.noU false true && decide (f.c.extractLsb' 4 4 = 0)) (withCode (FoldOp.ofCode (f.c.extractLsb' 0 4) f.m) fun op => .ok (.redux h op f.d f.a)))
  | 0x183 => some (let f := FmtA.unpack x;
      need (f.noU false true && decide (f.c.extractLsb' 5 3 = 0)) (withCode (FoldOp.ofCode (f.c.extractLsb' 0 4) f.m) fun op => .ok (.scan h (f.c.getLsbD 4) op f.d f.a)))
  | 0x184 => some (let f := FmtA.unpack x;
      need (f.noU false false && decide (f.m = 0) && decide (f.a = 0)) (withCode (pcode f.d) fun d => .ok (.elect h d)))
  | 0x185 => some (let f := FmtA.unpack x;
      need (f.noU false false) (withCode (KinForm.ofCode (f.m.extractLsb' 4 3)) fun k =>
      withCode (IType.ofCode (f.m.extractLsb' 0 4)) fun t => .ok (.kin h k t f.d f.a)))
  | 0x186 => some (let f := FmtA.unpack x;
      need (f.noU true false) (withCode (UmovForm.ofCode f.m) fun k => .ok (.umov h k f.b f.d f.a)))
  | _ => none

/-- The words with opcodes 0x1C0 to 0x1FF (R45); none where the opcode is unassigned. -/
def decodeGroup7 (h : Hdr) (x : BitVec 49) : Nat → Option Dec
  | 0x1C0 => some (let f := FmtA.unpack x;
      need (f.noU false true && decide (f.m.extractLsb' 1 6 = 0) && decide (f.d = 0)) (.ok (.meet h (f.m.getLsbD 0) f.a f.c)))
  | 0x1C1 => some (let f := FmtA.unpack x;
      need (f.noU false true && decide (f.m.extractLsb' 1 6 = 0) && decide (f.d = 0)) (.ok (.cmeet h (f.m.getLsbD 0) f.a f.c)))
  | 0x1C2 => some (let f := FmtA.unpack x;
      need (f.noU false false && decide (f.m.extractLsb' 1 6 = 0)) (.ok (.launch h (f.m.getLsbD 0) f.d f.a)))
  | 0x1C3 => some (let f := FmtI.unpack x;
      need (decide (f.u = 0) && decide (f.a = 0) && decide (f.d = 0) && decide (f.imm.extractLsb' 9 23 = 0)) (.ok (.evset h (f.imm.getLsbD 8) (f.imm.extractLsb' 0 8))))
  | 0x1C4 => some (let f := FmtI.unpack x;
      need (decide (f.u = 0) && decide (f.a = 0) && decide (f.d = 0) && decide (f.imm.extractLsb' 8 24 = 0)) (.ok (.evwait h (f.imm.extractLsb' 0 8))))
  | 0x1C5 => some (let f := FmtA.unpack x;
      need (f.noU true true && decide (f.m.extractLsb' 1 6 = 0) && decide (f.d = 0)) (.ok (.spawn h (f.m.getLsbD 0) f.a f.b f.c)))
  | 0x1C6 => some (let f := FmtA.unpack x;
      need (f.noU false false && decide (f.m = 0) && decide (f.d = 0)) (.ok (.binfl h f.a)))
  | _ => none

/-- The words with opcodes 0x200 to 0x23F (R45); none where the opcode is unassigned. -/
def decodeGroup8 (h : Hdr) (x : BitVec 49) : Nat → Option Dec
  | 0x200 => some (let f := FmtA.unpack x;
      need (f.noU false false && decide (f.m = 0) && decide (f.d = 0)) (withCode (pcode f.a) fun a => .ok (.sclaim h a)))
  | 0x201 => some (let f := FmtA.unpack x;
      need (f.noU false false && decide (f.m = 0) && decide (f.d = 0)) (withCode (pcode f.a) fun a => .ok (.srel h a)))
  | 0x202 => some (let f := FmtX.unpack x;
      need (decide (f.r = 0) && decide (f.ws = 0)) (withCode (MFmt.ofCode f.fa) fun fa => withCode (MFmt.ofCode f.fb) fun fb => .ok (.mma h (isOne f.z) f.kq fa fb f.sa f.bs f.t)))
  | 0x203 => some (let f := FmtX.unpack x;
      need (decide (f.r = 0) && decide (f.kq = 0) && decide (f.fb = 0) && decide (f.fa = 0) && decide (f.bs = 0)) (.ok (.mscac h (isOne f.z) f.ws f.sa f.t)))
  | 0x204 => some (let f := FmtX.unpack x;
      need (decide (f.r = 0) && decide (f.ws = 0) && decide (f.kq = 0) && decide (f.fb = 0) && decide (f.fa = 0) && decide (f.bs = 0) && decide (f.sa = 0)) (.ok (.mxwait h (isOne f.z) f.t)))
  | 0x205 => some (let f := FmtX.unpack x;
      need (decide (f.r = 0) && decide (f.ws = 0) && decide (f.z = 0) && decide (f.kq = 0) && decide (f.fb = 0) && decide (f.fa = 0) && decide (f.bs = 0) && decide (f.sa = 0)) (.ok (.aclr h f.t)))
  | 0x206 => some (let f := FmtA.unpack x;
      need (f.noU true true && decide (f.a = 0)) (withCode (TileTy.ofCode (f.m.extractLsb' 0 4)) fun ty =>
      withCode (Rnd.ofCode (f.m.extractLsb' 4 3)) fun rm => withCode (tcode f.b) fun t => .ok (.accrd h ty rm f.c t f.d)))
  | 0x207 => some (let f := FmtA.unpack x;
      need (f.noU true true && decide (f.d = 0) && decide (f.m.extractLsb' 4 3 = 0)) (withCode (TileTy.ofCode (f.m.extractLsb' 0 4)) fun ty =>
      withCode (tcode f.b) fun t => .ok (.accwr h ty f.c t f.a)))
  | 0x208 => some (let f := FmtA.unpack x;
      need (f.noU true false && decide (f.d = 0)) (withCode (TileTy.ofCode (f.m.extractLsb' 0 4)) fun ty =>
      withCode (Rnd.ofCode (f.m.extractLsb' 4 3)) fun rm => withCode (tcode f.b) fun t => .ok (.accst h ty rm t f.a)))
  | 0x209 => some (let f := FmtA.unpack x;
      need (f.noU true false && decide (f.d = 0) && decide (f.m.extractLsb' 4 3 = 0)) (withCode (TileTy.ofCode (f.m.extractLsb' 0 4)) fun ty =>
      withCode (tcode f.b) fun t => .ok (.accld h ty t f.a)))
  | 0x20A => some (let f := FmtA.unpack x;
      need (f.noU false false && decide (f.m = 0)) (withCode (pcode f.d) fun d => .ok (.gset h d f.a)))
  | 0x20B => some (let f := FmtA.unpack x;
      need (f.noU true true && decide (f.m.extractLsb' 5 2 = 0)) (withCode (FType.ofCode (f.m.extractLsb' 0 4)) fun t =>
      withCode (pcode f.a) fun a => .ok (.gdraw h (f.m.getLsbD 4) t f.d a f.b f.c)))
  | 0x20C => some (let f := FmtA.unpack x;
      need (f.noU true false && decide (f.m.extractLsb' 1 6 = 0) && decide (f.d = 0)) (withCode (pcode f.a) fun a => .ok (.gres h (f.m.getLsbD 0) a f.b)))
  | 0x20D => some (let f := FmtA.unpack x;
      need (f.noU false false && decide (f.m.extractLsb' 6 1 = 0) && decide (f.d = 0)) (withCode (Dom.ofCode (f.m.extractLsb' 0 3)) fun dm =>
      withCode (Scope.ofCode (f.m.extractLsb' 3 3)) fun sc => .ok (.cbload h dm sc f.a)))
  | _ => none

/-- The words with opcodes 0x240 to 0x27F (R45); none where the opcode is unassigned. -/
def decodeGroup9 (h : Hdr) (x : BitVec 49) : Nat → Option Dec
  | 0x240 => some (let f := FmtC.unpack x;
      need (decide (f.r3 = 0) && decide (f.r2 = 0) && decide (f.r1 = 0) && decide (f.r0 = 0)) (withCode (Scope.ofCode f.scp) fun sc => withCode (Dom.ofCode f.dom) fun dm => withCode (Shape.ofCode f.shp) fun sh =>
      .ok (.copy h sc dm f.wf f.wd f.wc sh f.ch)))
  | 0x241 => some (let f := FmtC.unpack x;
      need (decide (f.r3 = 0) && decide (f.r2 = 0) && decide (f.r1 = 0) && decide (f.r0 = 0) && decide (f.scp = 0) && decide (f.dom = 0) && decide (f.wf = 0) && decide (f.wd = 0) && decide (f.shp = 0)) (.ok (.chwait h f.wc f.ch)))
  | 0x242 => some (let f := FmtC.unpack x;
      need (decide (f.r3 = 0) && decide (f.r2 = 0) && decide (f.r1 = 0) && decide (f.r0 = 0) && decide (f.scp = 0) && decide (f.dom = 0) && decide (f.wf = 0) && decide (f.wd = 0) && decide (f.shp = 0) && decide (f.wc = 0)) (.ok (.chrst h f.ch)))
  | _ => none

/-- The words with opcodes 0x280 to 0x2BF (R45); none where the opcode is unassigned. -/
def decodeGroupA (h : Hdr) (x : BitVec 49) : Nat → Option Dec
  | 0x280 => some (let f := FmtA.unpack x;
      need (f.noU false false && decide (f.m.extractLsb' 2 5 = 0)) (withCode (LbKind.ofCode (f.m.extractLsb' 0 2)) fun k => .ok (.lbrd h k f.d f.a)))
  | 0x281 => some (let f := FmtA.unpack x;
      need (f.noU true false && decide (f.m.extractLsb' 3 4 = 0)) (withCode (LbKind.ofCode (f.m.extractLsb' 0 2)) fun k => .ok (.lbchk h (f.m.getLsbD 2) k f.d f.a f.b)))
  | 0x282 => some (let f := FmtA.unpack x;
      need (f.noU false false && decide (f.m.extractLsb' 2 5 = 0) && decide (f.d = 0)) (withCode (LbKind.ofCode (f.m.extractLsb' 0 2)) fun k => .ok (.lbfloor h k f.a)))
  | _ => none

/-- The words with opcodes 0x2C0 to 0x2FF (R45); none where the opcode is unassigned. -/
def decodeGroupB (h : Hdr) (x : BitVec 49) : Nat → Option Dec
  | 0x2C0 => some (let f := FmtS.unpack x; need (decide (f.r = 0) && decide (f.a = 0)) (.ok (.srd h f.srn f.d)))
  | 0x2C1 => some (let f := FmtS.unpack x; need (decide (f.r = 0) && decide (f.d = 0)) (.ok (.swr h f.srn f.a)))
  | 0x2C2 => some (let f := FmtA.unpack x;
      need (f.noU false false && decide (f.m = 0) && decide (f.a = 0) && decide (f.d = 0)) (.ok (.tret h)))
  | 0x2C3 => some (let f := FmtA.unpack x; need (f.noU false false && decide (f.m = 0)) (.ok (.vrdx h f.d f.a)))
  | 0x2C4 => some (let f := FmtA.unpack x;
      need (f.noU true false && decide (f.m = 0) && decide (f.d = 0)) (.ok (.vwrx h f.a f.b)))
  | 0x2C5 => some (let f := FmtA.unpack x;
      need (f.noU false false && decide (f.m = 0) && decide (f.a = 0) && decide (f.d = 0)) (.ok (.isync h)))
  | 0x2C6 => some (let f := FmtA.unpack x;
      need (f.noU true false && decide (f.m = 0) && decide (f.d = 0)) (.ok (.iinv h f.a f.b)))
  | _ => none

/-- The decoder's choice among the opcode groups. -/
def decodeBody (h : Hdr) (x : BitVec 49) (op : Nat) : Option Dec :=
  match op / 64 with
  | 0 => decodeGroup0 h x op
  | 1 => decodeGroup1 h x op
  | 2 => decodeGroup2 h x op
  | 3 => decodeGroup3 h x op
  | 4 => decodeGroup4 h x op
  | 5 => decodeGroup5 h x op
  | 6 => decodeGroup6 h x op
  | 7 => decodeGroup7 h x op
  | 8 => decodeGroup8 h x op
  | 9 => decodeGroup9 h x op
  | 10 => decodeGroupA h x op
  | 11 => decodeGroupB h x op
  | _ => none

/-- The instruction of a word (R47): the opcode selects the format, the format the fields. A word whose opcode is
unassigned is the row ILLEGAL_OPCODE; a word with a reserved field or code is rejected by name. -/
def decode (w : BitVec 64) : Dec :=
  match decodeBody (hdrOf w) (w.extractLsb' 10 49) (w.extractLsb' 0 10).toNat with
  | some r => r
  | none => .ok (.illegalOpcode w)

/-- The word of an instruction, from the same tables; the other events have none. -/
def encode : Instr → Option (BitVec 64)
  | .nop h => some (wordOf h 0x000 ({} : FmtA).pack)
  | .mov h u t d a => some (wordOf h 0x001 ({ u := one u, m := t.m, d := d, a := a } : FmtA).pack)
  | .movi h u imm d => some (wordOf h 0x021 ({ u := one u, imm := imm, d := d } : FmtI).pack)
  | .iadd h u t d a b => some (wordOf h 0x002 ({ u := one u, m := t.m, d := d, a := a, b := b } : FmtA).pack)
  | .iaddImm h u imm d a => some (wordOf h 0x022 ({ u := one u, imm := imm, a := a, d := d } : FmtI).pack)
  | .isub h u t d a b => some (wordOf h 0x003 ({ u := one u, m := t.m, d := d, a := a, b := b } : FmtA).pack)
  | .isubImm h u imm d a => some (wordOf h 0x023 ({ u := one u, imm := imm, a := a, d := d } : FmtI).pack)
  | .imul h u t d a b => some (wordOf h 0x004 ({ u := one u, m := t.m, d := d, a := a, b := b } : FmtA).pack)
  | .imulImm h u imm d a => some (wordOf h 0x024 ({ u := one u, imm := imm, a := a, d := d } : FmtI).pack)
  | .imulh h u t d a b => some (wordOf h 0x005 ({ u := one u, m := t.m, d := d, a := a, b := b } : FmtA).pack)
  | .imad h u t d a b c => some (wordOf h 0x006 ({ u := one u, m := t.m, d := d, a := a, b := b, c := c } : FmtA).pack)
  | .idiv h u t d a b => some (wordOf h 0x007 ({ u := one u, m := t.m, d := d, a := a, b := b } : FmtA).pack)
  | .irem h u t d a b => some (wordOf h 0x008 ({ u := one u, m := t.m, d := d, a := a, b := b } : FmtA).pack)
  | .imin h u t d a b => some (wordOf h 0x009 ({ u := one u, m := t.m, d := d, a := a, b := b } : FmtA).pack)
  | .iminImm h u imm d a => some (wordOf h 0x029 ({ u := one u, imm := imm, a := a, d := d } : FmtI).pack)
  | .imax h u t d a b => some (wordOf h 0x00A ({ u := one u, m := t.m, d := d, a := a, b := b } : FmtA).pack)
  | .imaxImm h u imm d a => some (wordOf h 0x02A ({ u := one u, imm := imm, a := a, d := d } : FmtI).pack)
  | .iabs h u t d a => some (wordOf h 0x00B ({ u := one u, m := t.m, d := d, a := a } : FmtA).pack)
  | .sadd h u t d a b => some (wordOf h 0x00C ({ u := one u, m := t.m, d := d, a := a, b := b } : FmtA).pack)
  | .saddImm h u imm d a => some (wordOf h 0x02C ({ u := one u, imm := imm, a := a, d := d } : FmtI).pack)
  | .ssub h u t d a b => some (wordOf h 0x00D ({ u := one u, m := t.m, d := d, a := a, b := b } : FmtA).pack)
  | .and h u t d a b => some (wordOf h 0x00E ({ u := one u, m := t.m, d := d, a := a, b := b } : FmtA).pack)
  | .andImm h u imm d a => some (wordOf h 0x02E ({ u := one u, imm := imm, a := a, d := d } : FmtI).pack)
  | .or h u t d a b => some (wordOf h 0x00F ({ u := one u, m := t.m, d := d, a := a, b := b } : FmtA).pack)
  | .orImm h u imm d a => some (wordOf h 0x02F ({ u := one u, imm := imm, a := a, d := d } : FmtI).pack)
  | .xor h u t d a b => some (wordOf h 0x010 ({ u := one u, m := t.m, d := d, a := a, b := b } : FmtA).pack)
  | .xorImm h u imm d a => some (wordOf h 0x030 ({ u := one u, imm := imm, a := a, d := d } : FmtI).pack)
  | .ttab h u t tt d a b c => some (wordOf h 0x011 ({ tt := tt, u := one u, m := t.m, c := c, b := b, a := a, d := d } : FmtA).pack)
  | .shl h u d a b => some (wordOf h 0x012 ({ u := one u, d := d, a := a, b := b } : FmtA).pack)
  | .shlImm h u imm d a => some (wordOf h 0x032 ({ u := one u, imm := imm, a := a, d := d } : FmtI).pack)
  | .shr h u d a b => some (wordOf h 0x013 ({ u := one u, d := d, a := a, b := b } : FmtA).pack)
  | .shrImm h u imm d a => some (wordOf h 0x033 ({ u := one u, imm := imm, a := a, d := d } : FmtI).pack)
  | .sar h u d a b => some (wordOf h 0x014 ({ u := one u, d := d, a := a, b := b } : FmtA).pack)
  | .sarImm h u imm d a => some (wordOf h 0x034 ({ u := one u, imm := imm, a := a, d := d } : FmtI).pack)
  | .rotl h u d a b => some (wordOf h 0x015 ({ u := one u, d := d, a := a, b := b } : FmtA).pack)
  | .rotlImm h u imm d a => some (wordOf h 0x035 ({ u := one u, imm := imm, a := a, d := d } : FmtI).pack)
  | .bfx h u t d a b => some (wordOf h 0x016 ({ u := one u, m := t.m, d := d, a := a, b := b } : FmtA).pack)
  | .bfi h u d a b c => some (wordOf h 0x017 ({ u := one u, d := d, a := a, b := b, c := c } : FmtA).pack)
  | .popc h u t d a => some (wordOf h 0x018 ({ u := one u, m := t.m, d := d, a := a } : FmtA).pack)
  | .clz h u t d a => some (wordOf h 0x019 ({ u := one u, m := t.m, d := d, a := a } : FmtA).pack)
  | .brev h u t d a => some (wordOf h 0x01A ({ u := one u, m := t.m, d := d, a := a } : FmtA).pack)
  | .bperm h u d a b c => some (wordOf h 0x01B ({ u := one u, d := d, a := a, b := b, c := c } : FmtA).pack)
  | .add64 h u d a b => some (wordOf h 0x01C ({ u := one u, d := d, a := a, b := b } : FmtA).pack)
  | .add64Imm h u imm d a => some (wordOf h 0x03C ({ u := one u, imm := imm, a := a, d := d } : FmtI).pack)
  | .mad64 h u t d a b c => some (wordOf h 0x01D ({ u := one u, m := t.m, d := d, a := a, b := b, c := c } : FmtA).pack)
  | .shl64 h u d a b => some (wordOf h 0x01E ({ u := one u, d := d, a := a, b := b } : FmtA).pack)
  | .shr64 h u sx d a b => some (wordOf h 0x01F ({ u := one u, m := 0#6 ++ one sx, d := d, a := a, b := b } : FmtA).pack)
  | .fadd h t rm r d a b => some (wordOf h 0x040 ({ rg := one r.rg, tt := r.tt, m := rm.code ++ t.code, d := d, a := a, b := b } : FmtA).pack)
  | .faddImm h imm d a => some (wordOf h 0x060 ({ imm := imm, a := a, d := d } : FmtI).pack)
  | .fsub h t rm r d a b => some (wordOf h 0x041 ({ rg := one r.rg, tt := r.tt, m := rm.code ++ t.code, d := d, a := a, b := b } : FmtA).pack)
  | .fsubImm h imm d a => some (wordOf h 0x061 ({ imm := imm, a := a, d := d } : FmtI).pack)
  | .fmul h t rm r d a b => some (wordOf h 0x042 ({ rg := one r.rg, tt := r.tt, m := rm.code ++ t.code, d := d, a := a, b := b } : FmtA).pack)
  | .fmulImm h imm d a => some (wordOf h 0x062 ({ imm := imm, a := a, d := d } : FmtI).pack)
  | .fma h t rm r d a b c => some (wordOf h 0x043 ({ rg := one r.rg, tt := r.tt, m := rm.code ++ t.code, d := d, a := a, b := b, c := c } : FmtA).pack)
  | .fmin h t d a b => some (wordOf h 0x044 ({ m := t.m, d := d, a := a, b := b } : FmtA).pack)
  | .fminImm h imm d a => some (wordOf h 0x064 ({ imm := imm, a := a, d := d } : FmtI).pack)
  | .fmax h t d a b => some (wordOf h 0x045 ({ m := t.m, d := d, a := a, b := b } : FmtA).pack)
  | .fmaxImm h imm d a => some (wordOf h 0x065 ({ imm := imm, a := a, d := d } : FmtI).pack)
  | .fabs h t d a => some (wordOf h 0x046 ({ m := t.m, d := d, a := a } : FmtA).pack)
  | .fneg h t d a => some (wordOf h 0x047 ({ m := t.m, d := d, a := a } : FmtA).pack)
  | .frcp h t rm r d a => some (wordOf h 0x048 ({ rg := one r.rg, tt := r.tt, m := rm.code ++ t.code, d := d, a := a } : FmtA).pack)
  | .fsqrt h t rm r d a => some (wordOf h 0x049 ({ rg := one r.rg, tt := r.tt, m := rm.code ++ t.code, d := d, a := a } : FmtA).pack)
  | .frsq h t rm r d a => some (wordOf h 0x04A ({ rg := one r.rg, tt := r.tt, m := rm.code ++ t.code, d := d, a := a } : FmtA).pack)
  | .fexp2 h t rm r d a => some (wordOf h 0x04B ({ rg := one r.rg, tt := r.tt, m := rm.code ++ t.code, d := d, a := a } : FmtA).pack)
  | .flog2 h t rm r d a => some (wordOf h 0x04C ({ rg := one r.rg, tt := r.tt, m := rm.code ++ t.code, d := d, a := a } : FmtA).pack)
  | .fsin h t rm r d a => some (wordOf h 0x04D ({ rg := one r.rg, tt := r.tt, m := rm.code ++ t.code, d := d, a := a } : FmtA).pack)
  | .fcos h t rm r d a => some (wordOf h 0x04E ({ rg := one r.rg, tt := r.tt, m := rm.code ++ t.code, d := d, a := a } : FmtA).pack)
  | .fclass h t d a => some (wordOf h 0x04F ({ m := t.m, d := d, a := a } : FmtA).pack)
  | .fdot2 h t rm r d a b c => some (wordOf h 0x050 ({ rg := one r.rg, tt := r.tt, m := rm.code ++ t.code, d := d, a := a, b := b, c := c } : FmtA).pack)
  | .fscale h t rm r d a b => some (wordOf h 0x051 ({ rg := one r.rg, tt := r.tt, m := rm.code ++ t.code, d := d, a := a, b := b } : FmtA).pack)
  | .frint h t rm r d a => some (wordOf h 0x052 ({ rg := one r.rg, tt := r.tt, m := rm.code ++ t.code, d := d, a := a } : FmtA).pack)
  | .cvt h dt st rm r d a => some (wordOf h 0x080 ({ rg := one r.rg, tt := r.tt, m := rm.code ++ dt.code, c := 0#4 ++ st.code, a := a, d := d } : FmtA).pack)
  | .cvtn h dt st rm r d a => some (wordOf h 0x081 ({ rg := one r.rg, tt := r.tt, m := rm.code ++ dt.code, c := 0#4 ++ st.code, a := a, d := d } : FmtA).pack)
  | .cvtw h dt st rm r d a => some (wordOf h 0x082 ({ rg := one r.rg, tt := r.tt, m := rm.code ++ dt.code, c := 0#4 ++ st.code, a := a, d := d } : FmtA).pack)
  | .scfit h t d a => some (wordOf h 0x083 ({ m := t.m, a := a, d := d } : FmtA).pack)
  | .scapp h t rm r d a b => some (wordOf h 0x084 ({ rg := one r.rg, tt := r.tt, m := rm.code ++ t.code, b := b, a := a, d := d } : FmtA).pack)
  | .cbdec h d a => some (wordOf h 0x085 ({ m := 3, c := 9, a := a, d := d } : FmtA).pack)
  | .icmp h cmp t d a b c => some (wordOf h 0x0C0 ({ m := cmp.code ++ t.code, c := wide c, b := b, a := a, d := wide d } : FmtA).pack)
  | .fcmp h cmp t d a b c => some (wordOf h 0x0C1 ({ m := cmp.code ++ t.code, c := wide c, b := b, a := a, d := wide d } : FmtA).pack)
  | .sel h t d a b c => some (wordOf h 0x0C2 ({ m := t.m, c := wide c, b := b, a := a, d := d } : FmtA).pack)
  | .plog h tt d a b c => some (wordOf h 0x0C3 ({ tt := tt, c := wide c, b := wide b, a := wide a, d := wide d } : FmtA).pack)
  | .pmov h p d a => some (wordOf h 0x0C4 ({ m := p.code, a := a, d := d } : FmtA).pack)
  | .bra h ofs => some (wordOf h 0x100 ({ ofs := ofs } : FmtB).pack)
  | .brx h a => some (wordOf h 0x101 ({ a := a } : FmtB).pack)
  | .call h ofs d => some (wordOf h 0x102 ({ ofs := ofs, d := d } : FmtB).pack)
  | .ret h a => some (wordOf h 0x103 ({ a := a } : FmtB).pack)
  | .jpush h ofs => some (wordOf h 0x104 ({ ofs := ofs } : FmtB).pack)
  | .join h => some (wordOf h 0x105 ({} : FmtA).pack)
  | .regang h => some (wordOf h 0x106 ({} : FmtA).pack)
  | .loop h n a => some (wordOf h 0x107 ({ ofs := 0#24 ++ n, a := a } : FmtB).pack)
  | .exit h => some (wordOf h 0x108 ({} : FmtA).pack)
  | .doze h n => some (wordOf h 0x109 ({ imm := n } : FmtI).pack)
  | .trap h n => some (wordOf h 0x10A ({ imm := n } : FmtI).pack)
  | .brk h n => some (wordOf h 0x10B ({ imm := n } : FmtI).pack)
  | .yield h => some (wordOf h 0x10C ({} : FmtA).pack)
  | .ld h m d => some (wordOf h 0x140 ({ aw := one m.aw, pol := m.pol.code, scp := m.scp.code, dom := m.dom.code, o := one m.o, sz := m.sz.code, off := m.off, a := m.a, d := d } : FmtM).pack)
  | .st h m b => some (wordOf h 0x141 ({ aw := one m.aw, pol := m.pol.code, scp := m.scp.code, dom := m.dom.code, o := one m.o, sz := m.sz.code, off := m.off, a := m.a, b := b } : FmtM).pack)
  | .atom h m op d b => some (wordOf h 0x142 ({ aw := one m.aw, pol := m.pol.code, scp := m.scp.code, dom := m.dom.code, o := one m.o, sz := m.sz.code, a := m.a, aop := op.code, b := b, d := d } : FmtMA).pack)
  | .cas h m d b c => some (wordOf h 0x143 ({ aw := one m.aw, pol := m.pol.code, scp := m.scp.code, dom := m.dom.code, o := one m.o, sz := m.sz.code, a := m.a, c := c, b := b, d := d } : FmtMA).pack)
  | .red h m op b => some (wordOf h 0x144 ({ aw := one m.aw, pol := m.pol.code, scp := m.scp.code, dom := m.dom.code, o := one m.o, sz := m.sz.code, a := m.a, aop := op.code, b := b } : FmtMA).pack)
  | .fence h all dm sc => some (wordOf h 0x145 ({ scp := sc.code, dom := dm.code, o := one all } : FmtM).pack)
  | .bridge h fr dm sc => some (wordOf h 0x146 ({ scp := sc.code, dom := dm.code, b := wide fr.code } : FmtM).pack)
  | .stf h m b c => some (wordOf h 0x147 ({ aw := one m.aw, pol := m.pol.code, scp := m.scp.code, dom := m.dom.code, o := one m.o, sz := m.sz.code, a := m.a, c := c, b := b } : FmtMA).pack)
  | .waitge h m d b => some (wordOf h 0x148 ({ aw := one m.aw, pol := m.pol.code, scp := m.scp.code, dom := m.dom.code, o := one m.o, sz := m.sz.code, off := m.off, a := m.a, b := b, d := d } : FmtM).pack)
  | .ldpf h m => some (wordOf h 0x149 ({ aw := one m.aw, pol := m.pol.code, scp := m.scp.code, dom := m.dom.code, o := one m.o, sz := m.sz.code, off := m.off, a := m.a } : FmtM).pack)
  | .cmaint h m op => some (wordOf h 0x14A ({ aw := one m.aw, pol := m.pol.code, scp := m.scp.code, dom := m.dom.code, o := one m.o, sz := m.sz.code, off := m.off, a := m.a, b := op.code } : FmtM).pack)
  | .release h d a b c => some (wordOf h 0x14B ({ c := c, b := b, a := a, d := d } : FmtA).pack)
  | .lxch h x t seg d a b => some (wordOf h 0x180 ({ m := x.code ++ t.code, c := seg, b := b, a := a, d := d } : FmtA).pack)
  | .poll h p d a => some (wordOf h 0x181 ({ m := p.code, a := wide a, d := d } : FmtA).pack)
  | .redux h op d a => some (wordOf h 0x182 ({ m := op.m, c := 0#4 ++ op.code, a := a, d := d } : FmtA).pack)
  | .scan h ex op d a => some (wordOf h 0x183 ({ m := op.m, c := 0#3 ++ (one ex ++ op.code), a := a, d := d } : FmtA).pack)
  | .elect h d => some (wordOf h 0x184 ({ d := wide d } : FmtA).pack)
  | .kin h k t d a => some (wordOf h 0x185 ({ m := k.code ++ t.code, a := a, d := d } : FmtA).pack)
  | .umov h k n d a => some (wordOf h 0x186 ({ m := k.code, b := n, a := a, d := d } : FmtA).pack)
  | .meet h pass id count => some (wordOf h 0x1C0 ({ m := 0#6 ++ one pass, c := count, a := id } : FmtA).pack)
  | .cmeet h pass id count => some (wordOf h 0x1C1 ({ m := 0#6 ++ one pass, c := count, a := id } : FmtA).pack)
  | .launch h wait d a => some (wordOf h 0x1C2 ({ m := 0#6 ++ one wait, a := a, d := d } : FmtA).pack)
  | .evset h clr n => some (wordOf h 0x1C3 ({ imm := 0#23 ++ (one clr ++ n) } : FmtI).pack)
  | .evwait h n => some (wordOf h 0x1C4 ({ imm := 0#24 ++ n } : FmtI).pack)
  | .spawn h wait a b c => some (wordOf h 0x1C5 ({ m := 0#6 ++ one wait, c := c, b := b, a := a } : FmtA).pack)
  | .binfl h a => some (wordOf h 0x1C6 ({ a := a } : FmtA).pack)
  | .sclaim h a => some (wordOf h 0x200 ({ a := wide a } : FmtA).pack)
  | .srel h a => some (wordOf h 0x201 ({ a := wide a } : FmtA).pack)
  | .mma h z kq fa fb sa sb t => some (wordOf h 0x202 ({ z := one z, kq := kq, fb := fb.code, fa := fa.code, bs := sb, sa := sa, t := t } : FmtX).pack)
  | .mscac h z ws p t => some (wordOf h 0x203 ({ ws := ws, z := one z, sa := p, t := t } : FmtX).pack)
  | .mxwait h all t => some (wordOf h 0x204 ({ z := one all, t := t } : FmtX).pack)
  | .aclr h t => some (wordOf h 0x205 ({ t := t } : FmtX).pack)
  | .accrd h ty rm row t d => some (wordOf h 0x206 ({ m := rm.code ++ ty.code, c := row, b := 0#4 ++ t, d := d } : FmtA).pack)
  | .accwr h ty row t a => some (wordOf h 0x207 ({ m := 0#3 ++ ty.code, c := row, b := 0#4 ++ t, a := a } : FmtA).pack)
  | .accst h ty rm t a => some (wordOf h 0x208 ({ m := rm.code ++ ty.code, b := 0#4 ++ t, a := a } : FmtA).pack)
  | .accld h ty t a => some (wordOf h 0x209 ({ m := 0#3 ++ ty.code, b := 0#4 ++ t, a := a } : FmtA).pack)
  | .gset h d a => some (wordOf h 0x20A ({ a := a, d := wide d } : FmtA).pack)
  | .gdraw h raw t d a b c => some (wordOf h 0x20B ({ m := 0#2 ++ (one raw ++ t.code), c := c, b := b, a := wide a, d := d } : FmtA).pack)
  | .gres h t a b => some (wordOf h 0x20C ({ m := 0#6 ++ one t, b := b, a := wide a } : FmtA).pack)
  | .cbload h dm sc a => some (wordOf h 0x20D ({ m := 0#1 ++ (sc.code ++ dm.code), a := a } : FmtA).pack)
  | .copy h sc dm wf wd wc sh ch => some (wordOf h 0x240 ({ scp := sc.code, dom := dm.code, wf := wf, wd := wd, wc := wc, shp := sh.code, ch := ch } : FmtC).pack)
  | .chwait h wv ch => some (wordOf h 0x241 ({ wc := wv, ch := ch } : FmtC).pack)
  | .chrst h ch => some (wordOf h 0x242 ({ ch := ch } : FmtC).pack)
  | .lbrd h k d a => some (wordOf h 0x280 ({ m := 0#5 ++ k.code, a := a, d := d } : FmtA).pack)
  | .lbchk h pf k d a b => some (wordOf h 0x281 ({ m := 0#4 ++ (one pf ++ k.code), b := b, a := a, d := d } : FmtA).pack)
  | .lbfloor h k a => some (wordOf h 0x282 ({ m := 0#5 ++ k.code, a := a } : FmtA).pack)
  | .srd h srn d => some (wordOf h 0x2C0 ({ srn := srn, d := d } : FmtS).pack)
  | .swr h srn a => some (wordOf h 0x2C1 ({ srn := srn, a := a } : FmtS).pack)
  | .tret h => some (wordOf h 0x2C2 ({} : FmtA).pack)
  | .vrdx h d a => some (wordOf h 0x2C3 ({ a := a, d := d } : FmtA).pack)
  | .vwrx h a b => some (wordOf h 0x2C4 ({ b := b, a := a } : FmtA).pack)
  | .isync h => some (wordOf h 0x2C5 ({} : FmtA).pack)
  | .iinv h a b => some (wordOf h 0x2C6 ({ b := b, a := a } : FmtA).pack)
  | .illegalOpcode w => some w
  | .instructionFetchFault => none
  | .faultQueueEntryWrite _ _ => none
  | .resultReturn _ _ _ _ => none
  | .storePerform _ => none
  | .updateApply _ _ => none
  | .atomicGroupPerform _ => none
  | .stfFlagAdd _ => none
  | .copyDelivery _ _ _ => none
  | .mmaStart _ => none
  | .mmaComplete _ => none
  | .mscacComplete _ => none
  | .dozeEnd _ _ _ _ => none
  | .spawnBinTimerExpiry _ _ => none
  | .warpRetire _ _ => none
  | .launchComplete _ => none
  | .clusterPlace => none
  | .commitPoint _ => none
  | .orderPointPass _ => none
  | .badCommand _ _ => none
  | .launchCmd _ _ => none
  | .evsetCmd _ _ => none
  | .evsetClrCmd _ _ => none
  | .contextCreate _ _ => none
  | .bindOff _ _ => none
  | .faultResumeRetry _ _ => none
  | .faultResumeDeliver _ _ => none
  | .faultResumeKill _ _ => none
  | .preempt _ _ => none
  | .resume _ _ => none
  | .invalidateVa _ _ => none
  | .invalidateVaComplete _ _ => none
  | .biasFlipToHost _ _ => none
  | .biasFlipToDevice _ _ => none
  | .biasFlipComplete _ _ => none
  | .watchSet _ _ => none
  | .watchRemove _ _ => none
  | .policyInstall _ _ _ => none
  | .policyRemove _ _ => none
  | .jointContext _ _ _ => none
  | .checkpointEnrol _ _ => none
  | .checkpointWithdraw _ _ => none
  | .checkpointAdopt _ _ => none
  | .placeSet _ _ => none
  | .contextSaveComplete _ _ => none
  | .restoreComplete _ _ => none
  | .sfadd _ _ _ => none
  | .suspendSet _ => none
  | .suspendClear _ => none
  | .tenancyWrite _ _ _ _ => none
  | .grantWrite _ _ _ => none
  | .unbind _ => none
  | .originUnbindComplete _ => none
  | .bindOrigin _ => none
  | .registerWrite _ _ _ _ => none
  | .budgetPeriod => none
  | .updateGenerationAdvance _ => none
  | .scrubVisit _ => none
  | .retentionSleepEnter _ => none
  | .retentionWake _ => none
  | .flitReceive _ => none
  | .flitAck _ _ _ => none
  | .livenessSend => none
  | .linkLivenessTimeout _ => none
  | .linkRetryExhausted _ => none
  | .linkUp _ => none
  | .moduleDeadDeclare _ => none
  | .moduleDeadAnnounce _ => none
  | .checkpointBegin _ => none
  | .beginReceive _ _ => none
  | .drained _ => none
  | .drainedReceive _ _ _ => none
  | .cutReceive _ _ => none
  | .sound _ => none
  | .soundReceive _ _ _ => none
  | .commitReceive _ _ => none
  | .preImageCopy _ _ => none
  | .rollbackRestore _ => none
  | .hostMemRead _ _ => none
  | .hostMemWrite _ _ => none
  | .hostAtomic _ _ => none
  | .hostSnoop _ _ => none
  | .backInvalidateComplete _ => none
  | .cxlCacheRequestFail _ => none
  | .uncorrectableError _ => none
  | .castOn _ => none
  | .functionLevelReset _ => none
  | .powerOutOfRange _ => none
  | .managementRequest _ => none
  | .spdmSession _ _ => none

/-- The instruction whose bits are `w`, numbered as the opcode table numbers them: a word of the H9 is 64 bits, bit 0
the least significant (R30, R4); a shorter `nbits` leaves the higher bits zero. -/
def decodeTableWord (nbits w : Nat) : Option Instr :=
  match decode (BitVec.ofNat 64 (w % 2 ^ nbits)) with
  | .ok i => some i
  | .error _ => none

end Sys2Proof
end

