-- ==== Sys2Proof/Machine/Fetch.lean ====
section
/-! DEFINITION. Issue units and instruction fetch (R139-R142, R149-R156, R209, R277, R340). -/

namespace Sys2Proof.Machine

/-! ## Issue units (R209) -/

/-- Does a context execute: is it Live, and not stopped for a checkpoint (R361, R400, R405)? -/
def State.ctxRuns (s : State) (ctx : Nat) : Bool :=
  (s.context ctx).st == .live &&
  !(s.fabric.groups.any (fun g => g.2.ctx == ctx && (g.2.st == .quiescing || g.2.st == .draining || g.2.st == .rollback)))

/-- May the warps of a team issue? Those of a team that is to be displaced have stopped (R372), and those of a launch that a
warp made wait for the accesses that the warp issued before it (R183). -/
def State.runs (s : State) (k : Nat) : Bool :=
  s.ctxRuns (s.team k).ctx && !(s.team k).leaving &&
  (s.launch (s.team k).launch).waits.all (fun x => !s.pendingAt goneTeam x.1 x.2)

/-- The gang's members as slices and entries, when every member strand is Ready (R156). -/
def Warp.gangUnits (w : Warp) : Option (List (Nat × Nat)) :=
  if w.gang = 0 then none
  else
    let us := (sliceList w.gang).map (fun k => (k, (w.slice k).strands))
    if us.all (fun u => match u.2 with
        | [y] => y.2.st == .ready
        | _ => false) then some (us.map (fun u => (u.1, match u.2 with | y :: _ => y.1 | [] => 0)))
    else none

/-- The current strand of a slice outside the gang, when it is Ready (R149). -/
def Warp.sliceUnit (w : Warp) (k : Nat) : Option (List (Nat × Nat)) :=
  if w.gang.getLsbD k then none
  else
    let x := (w.slice k).rechoose
    match Cells.find? x.strands x.cur with
    | some y => if y.st = .ready then some [(k, x.cur)] else none
    | none => none

/-- The lowest lane of some strands. -/
def Warp.lowLane (w : Warp) (us : List (Nat × Nat)) : Nat := (laneList (w.unitLanes us)).headD 32

/-- Almanac units: the gang, and every strand outside it, with its lowest lane, its members, and whether it is passed
over (R277; log 9). A strand in MXWAIT keeps its turn (log 20). -/
def Warp.rotation (w : Warp) : List (Nat × List (Nat × Nat) × Bool) :=
  let done (st : StrandSt) : Bool := match st with
    | .waiting (.matrix _) => false
    | .atJoin | .atRegang | .waiting _ => true
    | .ready | .held _ | .onFault _ => false
  let gang : List (Nat × List (Nat × Nat) × Bool) :=
    if w.gang = 0 then []
    else
      let us := (sliceList w.gang).filterMap (fun k => match (w.slice k).strands with
        | [y] => some (k, y.1)
        | _ => none)
      [(w.lowLane us, us, us.all (fun u => done (w.strand u.1 u.2).st))]
  gang ++ w.slices.flatMap (fun k =>
    if w.gang.getLsbD k.1 then [] else k.2.strands.map (fun y => (w.lowLane [(k.1, y.1)], [(k.1, y.1)], done y.2.st)))

/-- The unit whose turn it is in Almanac mode, when it is Ready; a Held unit or one parked on a fault keeps its turn. -/
def Warp.almanacUnit (w : Warp) : Option (List (Nat × Nat)) :=
  if w.atQuantum then none
  else
    let us := w.rotation.filter (fun u => !u.2.2)
    let lowest (xs : List (Nat × List (Nat × Nat) × Bool)) : Option (Nat × List (Nat × Nat) × Bool) :=
      xs.foldl (fun b u => match b with
        | none => some u
        | some v => if u.1 < v.1 then some u else b) none
    match (lowest (us.filter (fun u => decide (w.turn ≤ u.1)))).orElse (fun _ => lowest us) with
    | some u => if u.2.1.all (fun x => (w.strand x.1 x.2).st == .ready) then some u.2.1 else none
    | none => none

/-- The strands that issue when a unit of a warp takes its turn: `none` names the gang, `some` a slice. In Almanac mode
the rotation decides, and nothing issues within a commit point (R280). -/
def State.unitsOf (s : State) (k w : Nat) (slice : Option Nat) : Option (List (Nat × Nat)) :=
  if (Cells.find? s.teams k).isNone || (Cells.find? (s.team k).warps w).isNone || !s.runs k then none
  else
    let wp := s.warp k w
    if s.almanac k then (if (s.launch (s.team k).launch).commit.isSome then none else wp.almanacUnit)
    else match slice with
      | none => wp.gangUnits
      | some j => wp.sliceUnit j

/-! ## Fetch (R139-R142, R340) -/

/-- The key of a line of a context's code in the instruction caches. -/
def codeLine (ctx : Nat) (va : Nat) : Nat := ctx * 2 ^ 64 + va / 128

/-- The 16 words of a line at a place. -/
def State.lineWords (s : State) (p : Place) (off : Nat) : List DWord :=
  let base : Place := match p with
    | .dev a => .dev (a - off)
    | .peer m v a => .peer m v (a - off)
    | .host v a => .host v (a - off)
    | .scr t a => .scr t (a - off)
  (List.range 16).map (fun i => BitVec.ofNat 64 (s.readHome (base.add (8 * i)) 8))

/-- What a fetch for issue gives: the word, a recoverable fault, or a poisoned line. -/
inductive Fetched where
  | word (w : DWord)
  | fault (kind : Nat) (malformed : Bool)
  | poison
  deriving DecidableEq, Repr

/-- Fetches the word at an address for a core: translation, then the core's instruction cache, filled from the home. A word that
the cache holds and that has been rewritten since is read as the old or the new one, freely (R7, R141; log 75). -/
def State.fetch (s : State) (core ctx : Nat) (pc : DWord) : State × Fetched :=
  match s.translate core ctx pc .fetch with
  | (s, .error (k, m)) => (s, .fault k m)
  | (s, .ok (p, _)) =>
    let line := codeLine ctx pc.toNat
    match Cells.find? (s.core core).icache line with
    | some ws =>
      let old := ws.getD (pc.toNat / 8 % 16) 0
      let new : DWord := BitVec.ofNat 64 (s.readHome p 8)
      if old = new then (s, .word old)
      else ({ s with free := s.free + 65536 }, .word (if (Config.freeWord s.free).getLsbD 0 then new else old))
    | none =>
      if s.badLine p then (s, .poison)
      else
        let s := (s.hostGet p 8 false (s.whoOf ctx)).l2Reach (s.whoOf ctx) p 8 false
        let ws := s.lineWords p (pc.toNat % 128)
        (s.onCore core (fun c => { c with icache := Cells.put c.icache line ws }), .word (ws.getD (pc.toNat / 8 % 16) 0))

/-- The word of a strand's PC: from its loop buffer while its loop is live and holds it (R116, R142), else fetched. -/
def State.fetchStrand (s : State) (core ctx : Nat) (x : Strand) : State × Fetched :=
  let i := (x.pc.toNat - x.loop.first.toNat) / 8
  if x.loop.live && decide (x.loop.first.toNat ≤ x.pc.toNat) && decide (x.pc.toNat ≤ x.loop.last.toNat) &&
      decide (i < x.buf.length) then (s, .word (x.buf.getD i 0))
  else s.fetch core ctx x.pc

/-- Copies n words for a loop buffer; a word that cannot be fetched ends the copy (R116, R340). -/
def State.copyWords (s : State) (core ctx : Nat) (pc : DWord) : Nat → State × List DWord
  | 0 => (s, [])
  | n + 1 =>
    match s.fetch core ctx pc with
    | (s, .word w) =>
      let r := s.copyWords core ctx (pc + 8) n
      (r.1, w :: r.2)
    | (s, _) => (s, [])

/-- The issue that a unit makes now, before its word is fetched; the warp's turn and current strands follow it. -/
def State.nowOf (s : State) (k w : Nat) (us : List (Nat × Nat)) : State × Now :=
  let wp := s.warp k w
  let wp1 := us.foldl (fun wp u => wp.onSlice u.1 (fun x => if x.cur = u.2 then x else x.choose u.2)) wp
  let wp1 := { wp1 with turn := if s.almanac k then wp.lowLane us + 1 else wp.turn }
  let pc := match us with
    | u :: _ => (wp.strand u.1 u.2).pc
    | [] => 0
  (s.setWarp k w wp1, { team := k, warp := w, gang := decide (2 ≤ us.length), units := us, pc, word := 0 })

end Sys2Proof.Machine
end

