-- ==== Sys2Proof/Machine/Array.lean ====
section
/-! DEFINITION. The matrix array: operand elements, the product, scaled accumulation, the issue governor, and the events that
start and complete its instructions (R62-R65, R78-R83, R303-R306, R313-R315, R319, R320). -/

namespace Sys2Proof

/-- The floating format of a matrix element; CB2 and INT8 have none (R303). -/
def MFmt.float : MFmt → Option Machine.FFmt
  | .e4m3 => some .e4m3
  | .e5m2 => some .e5m2
  | .e2m1 => some .e2m1
  | .bf16 => some .bf16
  | .fp16 => some .f16
  | .cb2 | .int8 => none

namespace Machine

/-! ## Operands (R62-R65, R304) -/

/-- n of R303. -/
def depthOf (kq : Nat) (fa fb : MFmt) : Nat := 4 * 64 * (kq + 1) / max fa.quarters fb.quarters

/-- An E2M1 row with its outlier list: the values, and how many escapes came before each (R63). -/
def e2m1Row (data out : Nat → Byte) (n : Nat) : List FVal × Nat :=
  (List.range n).foldl (fun (acc : List FVal × Nat) k =>
    let b := (data (k / 2)).toNat
    let x := if k % 2 = 0 then b % 16 else b / 16
    if x = 8 then
      let c := acc.2
      let v := if c < 8 then decodeF .bf16 ((out (2 * c)).toNat + 256 * (out (2 * c + 1)).toNat) else .num false 0 0
      (acc.1 ++ [v], c + 1)
    else (acc.1 ++ [decodeF .e2m1 x], acc.2)) ([], 0)

/-- A CB2 row through a codebook table (R65). -/
def cb2Row (data : Nat → Byte) (table : Cells Byte) (n : Nat) : List FVal :=
  ((List.range ((n + 7) / 8)).flatMap (fun i =>
    let index := (data (2 * i)).toNat + 256 * (data (2 * i + 1)).toNat
    cb2Decode (Cells.readLE table (4 * (index / 256)) 4) index)).take n

/-- A row of an operand slot, with its count of escapes (R304). -/
def slotRow (o : OpSlot) (table : Cells Byte) (f : MFmt) (row n : Nat) : List FVal × Nat :=
  let data (i : Nat) : Byte := Cells.get o.data (512 * row + i)
  let le2 (k : Nat) : Nat := (data (2 * k)).toNat + 256 * (data (2 * k + 1)).toNat
  match f with
  | .e2m1 => e2m1Row data (fun i => Cells.get o.outlier (16 * row + i)) n
  | .cb2 => (cb2Row data table n, 0)
  | .e4m3 => ((List.range n).map (fun k => decodeF .e4m3 (data k).toNat), 0)
  | .e5m2 => ((List.range n).map (fun k => decodeF .e5m2 (data k).toNat), 0)
  | .bf16 => ((List.range n).map (fun k => decodeF .bf16 (le2 k)), 0)
  | .fp16 => ((List.range n).map (fun k => decodeF .f16 (le2 k)), 0)
  | .int8 => ((List.range n).map (fun k =>
      let v := (data k).toInt
      FVal.num (decide (v < 0)) v.natAbs 0), 0)

/-- An element of a generator, rounded to the named format (R311, R312). -/
def genElem (g : BitVec 256) (key : Word) (f : MFmt) (r c : Nat) : FVal :=
  match f.float with
  | some x => decodeF x (genCode x g key.toNat r c)
  | none =>
    let v := genInt8 g key.toNat r c
    .num (decide (v < 0)) v.natAbs 0

/-- Row i of A, or column i of B, as n values with the count of escapes (R304). -/
def operandRow (slots : Cells OpSlot) (table : Cells Byte) (src : BitVec 4) (g : BitVec 256) (key : Word) (f : MFmt)
    (b : Bool) (i n : Nat) : List FVal × Nat :=
  match slotOf src with
  | some k => slotRow (Cells.get slots k) table f i n
  | none => ((List.range n).map (fun k => if b then genElem g key f k i else genElem g key f i k), 0)

/-! ## The product (R304) -/

/-- One element of the product: the window sum of R79, or the exact sum of R80. -/
def mmaElem (int8 z : Bool) (a b : List FVal) (old : DWord) : DWord :=
  let ts := List.zipWith (fun x y => (mulF x y).1) a b
  if int8 then
    let sum := ts.foldl (fun (n : Int) t => n + t.intAt 0) 0
    BitVec.ofInt 64 (if z then sum else sum + old.toInt)
  else BitVec.ofNat 64 (windowSum (if z then ts else ts ++ [decodeF .f64 old.toNat]))

/-- `mma_compute`: the new tile, and whether some row had nine or more escapes. -/
def mmaCompute (slots : Cells OpSlot) (table : Cells Byte) (old : Nat → DWord) (z : Bool) (kq : Nat) (fa fb : MFmt)
    (sa sb : BitVec 4) (ga gb : BitVec 256) (key : Word × Word) : (Nat → DWord) × Bool :=
  let n := depthOf kq fa fb
  let as := (List.range 64).map (fun i => operandRow slots table sa ga key.1 fa false i n)
  let bs := (List.range 64).map (fun j => operandRow slots table sb gb key.2 fb true j n)
  let a (i : Nat) : List FVal := (as.getD i ([], 0)).1
  let b (j : Nat) : List FVal := (bs.getD j ([], 0)).1
  (fun e => mmaElem (fa == .int8) z (a (e / 64)) (b (e % 64)) (old e),
   as.any (fun r => decide (9 ≤ r.2)) || bs.any (fun r => decide (9 ≤ r.2)))

/-! ## The governor (R313) -/

/-- Equivalents of an MMA in eighths, and its cycles of work (R305, R313). -/
def MatEnt.eighths (m : MatEnt) : Nat :=
  match m.op with
  | .mma _ kq _ _ _ _ _ _ _ _ _ => kq + 1
  | .mscac _ _ _ _ _ => 0

/-- Cycles of work left: the steps that an interruption completed are not repeated (R305, R314). -/
def MatEnt.work (m : MatEnt) : Nat :=
  match m.op with
  | .mma _ kq _ _ _ _ _ _ _ _ _ => 32 * (kq + 1) * (16 - m.steps) / 16
  | .mscac _ _ _ _ _ => 16

/-- Cycles of one step of an MMA (R305). -/
def MatEnt.stepCycles (m : MatEnt) : Nat :=
  match m.op with
  | .mma _ kq _ _ _ _ _ _ _ _ _ => 2 * (kq + 1)
  | .mscac _ _ _ _ _ => 0

/-- Cycles of its ramp's lost half that a running instruction has spent: during the ramp, the first of every two (R313). -/
def MatEnt.lost (m : MatEnt) (now : Nat) : Nat :=
  match m.start with
  | none => 0
  | some t => if now - t < 2 * m.ramp then (now - t + 1) / 2 else m.ramp

/-- Cycles of work that a running instruction has done. -/
def MatEnt.worked (m : MatEnt) (now : Nat) : Nat :=
  match m.start with
  | none => 0
  | some t => min m.work (now - t - m.lost now)

/-- When a running MMA ends the step that it is in (R314). -/
def MatEnt.stepEnd (m : MatEnt) (now : Nat) : Nat :=
  let w := (m.worked now + m.stepCycles - 1) / m.stepCycles * m.stepCycles
  (m.start.getD 0) + (if w ≤ m.ramp then 2 * w else w + m.ramp)

/-- An MMA stops at the step at which it stands: it is to go on from the next (R314). -/
def MatEnt.interrupt (m : MatEnt) (now : Nat) : MatEnt :=
  { m with start := none, finish := 0, ramp := 0, steps := m.steps + m.worked now / m.stepCycles }

/-- Equivalents that started in the preceding 1,024 cycles. -/
def Core.recent (c : Core) (now : Nat) : Nat :=
  c.starts.foldl (fun n x => if now < x.1 + 1024 then n + x.2 else n) 0

/-- The array's next instruction, when the array is free. -/
def Core.nextOp (c : Core) : Option MatEnt :=
  match c.matrix with
  | [] => none
  | m :: _ => if m.start.isNone then some m else none

/-- Does the window admit an MMA at a time? -/
def State.admits (s : State) (core : Nat) (m : MatEnt) (now : Nat) : Bool :=
  decide ((s.core core).recent now + m.eighths ≤ s.power.limit8)

/-- Does the array take a ramp now? -/
def State.ramps (s : State) (core : Nat) : Bool :=
  match (s.core core).idleFrom with
  | none => true
  | some t => decide (s.power.idle ≤ s.cycle - t)

/-- Cycles that the governor costs the array during the next n cycles: those in which it holds the next MMA back, and those of
the running one's ramp that are lost (R313). -/
def State.govWait (s : State) (core n : Nat) : Nat :=
  match (s.core core).matrix with
  | [] => 0
  | m :: _ =>
    if m.start.isSome then m.lost (s.cycle + n) - m.lost s.cycle
    else ((List.range n).takeWhile (fun i => !s.admits core m (s.cycle + i))).length

/-- Starts the array's next instruction with its cycles, charged to its VF (R422). -/
def State.startArray (s : State) (core : Nat) (m : MatEnt) (lost : Nat) (bytes : Cells Byte) (lab : Label) : State :=
  let vf := (s.context (s.team m.team).ctx).vf
  let m1 : MatEnt := { m with start := some s.cycle, finish := s.cycle + m.work + lost, ramp := lost, stopAt := none
                              codebook := bytes, codebookLab := lab }
  (s.charge vf 4 core m.work).onCore core (fun c => { c with
    matrix := m1 :: c.matrix.drop 1
    starts := if m.eighths = 0 then c.starts
              else c.starts.filter (fun x => decide (s.cycle < x.1 + 1024)) ++ [(s.cycle, m.eighths)] })

/-- May the array's next instruction proceed under its VF's budget (R422)? -/
def State.arrayBudget (s : State) (core : Nat) (m : MatEnt) : Bool :=
  s.mayCharge (s.context (s.team m.team).ctx).vf 4 core

/-- May an MMA start now? -/
def State.mmaReady (s : State) (core : Nat) : Option MatEnt :=
  match (s.core core).nextOp with
  | some m => if m.eighths ≠ 0 ∧ s.runs m.team ∧ s.admits core m s.cycle ∧ s.arrayBudget core m then some m else none
  | none => none

/-- MMA_START: the array's next MMA starts once the window admits it, with a ramp after idleness (R305, R313). -/
def execMmaStart (core : Nat) (s : State) : Host.Outcome State Fault Refusal :=
  match s.mmaReady core with
  | none => .next s
  | some m =>
    let lost := if s.ramps core then min m.work (s.power.ramp / 2) else 0
    let t := s.team m.team
    .next (if m.steps = 0 then s.startArray core m lost t.codebook t.codebookLab
           else s.startArray core m lost m.codebook m.codebookLab)

/-- The reads of an MSCAC that are not performed (R306). -/
def State.scaleReads (s : State) (m : MatEnt) : List Access :=
  s.accesses.filter (fun a => a.team == m.team && a.warp == m.warp && a.res == m.id)

/-- Starts an MSCAC that heads a free array: it reads both vectors, once what its reads come after is performed (R306, R320). -/
def State.startMscac (s : State) (core : Nat) : State :=
  match (s.core core).nextOp with
  | some m =>
    match m.op with
    | .mscac _ _ _ _ (pa, pb) =>
      if s.arrayBudget core m && (s.scaleReads m).all s.ready then
        if m.ready then s.startArray core m 0 m.codebook m.codebookLab
        else
          let x := s.look core false true pa 128 + s.look core false true pb 128 * 2 ^ 1024
          let line (p : Place) : Label := s.unitLab p ||| s.unitLab (p.add 127)
          let t := (s.scaleReads m).foldl (fun (s : State) a => (s.unqueue a.id).afterLook a.place 128) s
          t.startArray core m 0 (Cells.ofFn 0 256 (fun i => BitVec.ofNat 8 (x >>> (8 * i)))) (line pa ||| line pb)
      else s
    | .mma _ _ _ _ _ _ _ _ _ _ _ => s
  | none => s

/-! ## Completion -/

/-- The instruction that runs on the array and has had its cycles, unless it stops at an earlier step (R314). -/
def State.arrayDone (s : State) (core : Nat) : Option MatEnt :=
  match (s.core core).matrix with
  | [] => none
  | m :: _ => if m.start.isSome ∧ m.finish ≤ s.cycle ∧ m.finish ≤ m.stopAt.getD m.finish then some m else none

/-- A running MMA whose team no longer runs is to stop at the end of its step, and stops there (R314). -/
def State.stopArray (s : State) (core : Nat) : State :=
  match (s.core core).matrix with
  | [] => s
  | m :: rest =>
    if m.start.isNone || m.eighths = 0 then s
    else
      let stop := if s.runs m.team then m.stopAt else some (m.stopAt.getD (m.stepEnd s.cycle))
      match stop with
      | none => s
      | some t =>
        let m1 := { m with stopAt := stop }
        if s.cycle < t ∨ m.finish ≤ t then s.onCore core (fun c => { c with matrix := m1 :: rest })
        else s.onCore core (fun c => { c with matrix := m1.interrupt t :: rest, idleFrom := some s.cycle })

/-- Was an instruction of the array overlapped (R256)? -/
def State.clashed (s : State) (m : MatEnt) : Bool :=
  match (s.warp m.team m.warp).result? m.id with
  | some r => r.clash
  | none => false

/-- Takes a completed instruction off the array and returns its result (R23). -/
def State.arrayReturn (s : State) (core : Nat) (m : MatEnt) : State :=
  let s := s.onCore core (fun c => { c with matrix := c.matrix.drop 1, idleFrom := some s.cycle })
  s.onWarp m.team m.warp (fun wp => { wp with results := wp.results.filter (fun r => r.id != m.id) })

/-- The label of an MMA's tile at its last step (R315); one that a CBLOAD races with has the labels of both tables (R307). -/
def State.mmaLab (s : State) (core : Nat) (m : MatEnt) : Label :=
  s.entLab core m ||| (if m.usesTable && s.clashed m then (s.team m.team).codebookLab ||| s.tableDue m.team else 0)

/-- MMA_COMPLETE: at its last step an MMA writes the whole tile, its label and SR.MXSTAT, and returns (R304, R305). What it
writes in a tile that something overlaps is free, and so is the bit of the escapes of a slot that a COPY overlaps (R63, R256). -/
def execMmaComplete (core : Nat) (s : State) : Host.Outcome State Fault Refusal :=
  match s.arrayDone core with
  | none => .next s
  | some m =>
    match m.op with
    | .mscac _ _ _ _ _ => .next s
    | .mma z kq fa fb sa sb ga gb _ _ key =>
      let k := m.team
      let lab := s.mmaLab core m
      let r := mmaCompute (s.core core).slots m.codebook (fun e => Cells.get (s.team k).tiles (4096 * m.tile + e))
        z kq fa fb sa sb ga gb key
      let escapes := if m.torn && (fa == .e2m1 || fb == .e2m1) then (Config.freeWord (s.free + 32768)).getLsbD 0 else r.2
      let t := if s.clashed m then s.tileFree k m.tile lab else s.tileWrite k m.tile lab r.1
      let t := if escapes then t.onWarp k m.warp (fun wp => { wp with mxstat := wp.mxstat ||| 1 }) else t
      .next (t.arrayReturn core m)

/-- MSCAC_COMPLETE: after 16 cycles MSCAC writes its tile and label, and returns (R306, R315, R320). -/
def execMscacComplete (core : Nat) (s : State) : Host.Outcome State Fault Refusal :=
  match s.arrayDone core with
  | none => .next s
  | some m =>
    match m.op with
    | .mma _ _ _ _ _ _ _ _ _ _ _ => .next s
    | .mscac z p _ _ _ =>
      let k := m.team
      let t := s.team k
      let lab := s.entLab core m
      if s.clashed m then .next ((s.tileFree k m.tile lab).arrayReturn core m)
      else
        let new (e : Nat) : DWord :=
          BitVec.ofNat 64 (scaleAccumulate (if z then 0 else (Cells.get t.tiles (4096 * m.tile + e)).toNat)
            (Cells.readLE m.codebook (2 * (e / 64)) 2) (Cells.readLE m.codebook (128 + 2 * (e % 64)) 2)
            (Cells.get t.tiles (4096 * p + e)).toNat)
        .next ((s.tileWrite k m.tile lab new).arrayReturn core m)

end Machine
end Sys2Proof
end

