-- ==== Sys2Proof/Machine/Control.lean ====
section
/-! DEFINITION. Transfers of control, loops, the ends of lanes, reconvergence (R114-R122, R150-R157, R167-R169). -/

namespace Sys2Proof.Machine

/-- How a lane ends at a branch to a target: there, or in a trap with the target as detail (R17, R114). -/
def branchEnd (lane : Nat) (t : DWord) (lab : Label) : LaneEnd :=
  if t.toNat % 8 ≠ 0 then .trap { lane, cause := .misalignedPc, detail := t, lab } false
  else if field t 63 60 ≠ 0 then .trap { lane, cause := .badSpace, detail := t, lab } false
  else .goto t

/-- Adds a label to the floor of a warp under STRICTLABEL (R27). -/
def Cx.strictFloor (c : Cx) (s : State) (l : Label) : State :=
  if c.hdr.strictLabel then s.onWarp c.n.team c.n.warp (fun w => { w with lbfloor := w.lbfloor ||| l }) else s

/-- The target of BRA and CALL. -/
def Cx.relTarget (c : Cx) (ofs : BitVec 32) : DWord := c.n.pc + ofs.signExtend 64

/-- A branch of every active lane to its own target (R114). Under STRICTLABEL the floor takes the labels of the registers that
decide its direction and target (R27). -/
def Cx.branch (c : Cx) (lab strict : Label) (target : Nat → DWord) : Eff :=
  { s := c.strictFloor c.s strict
    ends := c.lanesA.map (fun l => (l, branchEnd l (target l) lab)) }

/-! ## Meanings -/

/-- BRA: a PC-relative branch (R114). -/
def execBra (h : Hdr) (ofs : BitVec 32) (s : State) : Host.Outcome State Fault Refusal :=
  issue (.bra h ofs) s (fun cx => cx.branch 0 cx.guardLab (fun _ => cx.relTarget ofs))

/-- BRX: a branch to the target in a register pair of each lane (R114). -/
def execBrx (h : Hdr) (a : BitVec 8) (s : State) : Host.Outcome State Fault Refusal :=
  issue (.brx h a) s (fun cx => cx.branch (cx.labV a 2) (cx.labV a 2 ||| cx.guardLab) (fun l => cx.v2 l a.toNat))

/-- CALL: BRA that writes PC + 8 in the lanes it takes (R115). -/
def execCall (h : Hdr) (ofs : BitVec 32) (d : BitVec 8) (s : State) : Host.Outcome State Fault Refusal :=
  issue (.call h ofs d) s (fun cx =>
    let e := cx.branch 0 cx.guardLab (fun _ => cx.relTarget ofs)
    let taken := e.ends.filterMap (fun x => match x.2 with
      | .goto _ => some (x.1, (cx.n.pc + 8).toNat)
      | _ => none)
    { e with wr := vWrites d 2 taken 0 })

/-- RET: BRX under another opcode (R114). -/
def execRet (h : Hdr) (a : BitVec 8) (s : State) : Host.Outcome State Fault Refusal :=
  issue (.ret h a) s (fun cx => cx.branch (cx.labV a 2) (cx.labV a 2 ||| cx.guardLab) (fun l => cx.v2 l a.toNat))

/-- LOOP: loop state from the lowest lane's count, or a skip of the body (R116). -/
def execLoop (h : Hdr) (n a : BitVec 8) (s : State) : Host.Outcome State Fault Refusal :=
  issue (.loop h n a) s (fun cx =>
    let s := cx.strictFloor cx.s (cx.labV a 1)
    let p := cx.n.pc
    let count := cx.v ((laneList cx.lanes).headD 0) a.toNat
    if count = 0 then { s, after := { dead := true, jump := some (p + BitVec.ofNat 64 (8 * (n.toNat + 1))) } }
    else
      let tm := s.team cx.n.team
      let r := s.copyWords tm.core tm.ctx (p + 8) n.toNat
      { s := r.1
        after := { loop := some ({ live := true, count := count - 1, first := p + 8,
                                   last := p + BitVec.ofNat 64 (8 * n.toNat) }, r.2) } })

/-- DOZE parks the strand for n cycles; n = 0, and any n in Almanac mode, acts as YIELD (R121, R277). -/
def execDoze (h : Hdr) (n : BitVec 32) (s : State) : Host.Outcome State Fault Refusal :=
  issue (.doze h n) s (fun cx =>
    if n = 0 ∨ cx.hdr.almanac then { s := cx.s, after := { yield := true } }
    else { s := cx.s, after := { st := .waiting (.doze cx.s.cycle n.toNat) } })

/-- TRAP raises SOFTWARE in every active lane, with PC + 8 as the next PC (R122, R345). -/
def execTrap (h : Hdr) (n : BitVec 32) (s : State) : Host.Outcome State Fault Refusal :=
  issue (.trap h n) s (fun cx =>
    { s := cx.s
      ends := cx.lanesA.map (fun l => (l, .trap { lane := l, cause := .software, detail := n.setWidth 64 } true)) })

/-- BRK raises BREAKPOINT in every active lane (R122). -/
def execBrk (h : Hdr) (n : BitVec 32) (s : State) : Host.Outcome State Fault Refusal :=
  issue (.brk h n) s (fun cx =>
    { s := cx.s
      ends := cx.lanesA.map (fun l => (l, .trap { lane := l, cause := .breakpoint, detail := n.setWidth 64 } false)) })

/-- YIELD gives up the strand's turn (R120). -/
def execYield (h : Hdr) (s : State) : Host.Outcome State Fault Refusal :=
  issue (.yield h) s (fun cx => { s := cx.s, after := { yield := true } })

/-- The lanes of one member strand. -/
def Cx.unitLanes (c : Cx) (u : Nat × Nat) : List Nat := laneList (sliceLanes u.1 (c.warp.strand u.1 u.2).mask)

/-- Does a slice of the issue hold spilled entries? -/
def Cx.spilled (c : Cx) : Bool := c.n.units.any (fun u => decide (u.1 < 8) && decide (0 < (c.warp.slice u.1).spilled))

/-- Holds an instruction that reaches spilled entries until its lanes' SC accesses are performed; it issues again (R151,
R239). -/
def Cx.drainFirst (c : Cx) (s : State) (f : Eff) : Eff :=
  let ids := s.scPending c.n.team c.n.warp c.lanes
  if ids.isEmpty then f else { s, after := { st := .held (.drain ids), keep := true } }

/-- Pushes a reconvergence entry onto one slice's stack, spilling the oldest resident entry when eight are resident
(R150-R152): the state, and the ends of the slice's lanes when nothing is pushed. -/
def Cx.push (c : Cx) (t : DWord) (s : State) (u : Nat × Nat) : State × List (Nat × LaneEnd) :=
  let k := c.n.team
  let w := c.n.warp
  let x := (s.warp k w).slice u.1
  let lanes := c.unitLanes u
  let e : Recon := { pc := t, mask := (x.strand u.2).mask }
  if 40 ≤ x.recon.length + x.spilled then
    (s, lanes.map (fun l => (l, .trap { lane := l, cause := .illegalField } false)))
  else if x.recon.length < 8 then (s.onWarp k w (fun v => v.onSlice u.1 (fun x => { x with recon := e :: x.recon })), [])
  else match s.spillWrite k w u.1 x.spilled lanes c.n.pc (x.recon.getLastD default) with
    | (s, some f) => (s, lanes.map (fun l => (l, .fault f)))
    | (s, none) => (s.onWarp k w (fun v => v.onSlice u.1 (fun x =>
        { x with recon := e :: x.recon.dropLast, spilled := x.spilled + 1 })), [])

/-- JPUSH pushes a reconvergence entry in each member slice (R150-R152, R167). -/
def execJpush (h : Hdr) (ofs : BitVec 32) (s : State) : Host.Outcome State Fault Refusal :=
  issue (.jpush h ofs) s (fun cx =>
    let t := cx.relTarget ofs
    match branchEnd 0 t 0 with
    | .goto t =>
      let push :=
        let r := cx.n.units.foldl (fun (acc : State × List (Nat × LaneEnd)) u =>
          let p := cx.push t acc.1 u
          (p.1, acc.2 ++ p.2)) (cx.s, [])
        ({ s := r.1, ends := r.2 } : Eff)
      if cx.n.units.any (fun u => decide ((cx.warp.slice u.1).recon.length = 8)) then cx.drainFirst cx.s push else push
    | _ => { s := cx.s, ends := cx.lanesA.map (fun l => (l, branchEnd l t 0)) })

/-- What a slice's stack would do once the issuing strand has arrived or its lanes have exited: whether a spilled entry has to
be looked for, then the fault that parks the strand instead (R152, R153). Nothing of the stack changes here. -/
def Cx.stackFault (c : Cx) (s : State) (u : Nat × Nat) (search : Bool) (leave : Warp → Warp) : Option FaultInfo :=
  ((s.onWarp c.n.team c.n.warp leave).stackLoop c.n.team c.n.warp u.1 search 41).2

/-- Runs an instruction that may satisfy join entries, slice by slice where entries are spilled: `find` looks for what it
matches, `leave` is what it does to the strand. A hardware access that faults parks the strand with nothing done; one that
reads another module's line holds it until the line is here (R151-R153, R350; log 73). -/
def Cx.withStack (c : Cx) (e : Eff) (find : State → Nat × Nat → State × Except FaultInfo Bool) (leave : Nat × Nat → Warp → Warp) :
    Eff :=
  if !c.spilled then e
  else c.drainFirst c.s (
    let r := c.n.units.foldl (fun (acc : State × BitVec 8 × List (Nat × FaultInfo)) u =>
      if ((c.warp.slice u.1).spilled) = 0 then acc
      else match find acc.1 u with
        | (s, .error f) => (s, acc.2.1, acc.2.2 ++ [(u.1, f)])
        | (s, .ok search) =>
          match c.stackFault s u search (leave u) with
          | some f => (s, acc.2.1, acc.2.2 ++ [(u.1, f)])
          | none => (s, if search then acc.2.1 ||| (1#8 <<< u.1) else acc.2.1, acc.2.2)) (c.s, 0, [])
    match r.2.2.find? (fun f => f.2.kind == askKind) with
    | some _ =>
      let s := r.2.2.foldl (fun (s : State) f =>
        if f.2.kind = askKind then
          (match s.hwPlace c.n.team f.2.va .read 8 with
           | (s, .ok p) => s.askLine c.n.team c.n.warp (laneList (sliceLanes f.1 15)) c.n.pc f.2.va p
           | (s, .error _) => s)
        else s) r.1
      { s, after := { st := .held (.drain (s.scPending c.n.team c.n.warp c.lanes)), keep := true } }
    | none =>
      let parked (l : Nat) : Bool := r.2.2.any (fun f => f.1 == l / 4)
      { e with
        s := if r.2.2.isEmpty then e.s else r.1
        after := { e.after with search := r.2.1 }
        ends := e.ends.filter (fun x => !parked x.1) ++ r.2.2.flatMap (fun f =>
          (c.n.units.filter (fun u => u.1 == f.1)).flatMap (fun u => (laneList (c.act &&& sliceLanes u.1 15)).map (fun l => (l, LaneEnd.fault f.2)))) })

/-- EXIT ends every active lane (R119). -/
def execExit (h : Hdr) (s : State) : Host.Outcome State Fault Refusal :=
  issue (.exit h) s (fun cx =>
    let ends := cx.lanesA.map (fun l => (l, LaneEnd.exit))
    let leave (u : Nat × Nat) (w : Warp) : Warp :=
      let gone := laneMask u.1 cx.act
      { w with
        exited := w.exited ||| cx.act
        slices := Cells.put w.slices u.1 (let x := w.slice u.1
          { x with strands := if (x.strand u.2).mask &&& ~~~gone = 0 then Cells.erase x.strands u.2
            else Cells.adjust x.strands u.2 (fun y => { y with mask := y.mask &&& ~~~gone }) }) }
    cx.withStack { s := cx.s, ends } (fun _ _ => (cx.s, .ok true)) leave)

/-- Looks for the entry of one slice's stack that a JOIN matches: whether the slice parks, and whether the entry is a spilled
one (R153). -/
def Cx.joinSearch (c : Cx) (s : State) (u : Nat × Nat) : State × Except FaultInfo (Bool × Bool) :=
  let x := c.warp.slice u.1
  let m := (x.strand u.2).mask
  let fits (_ : List Recon) (e : Recon) : Bool := decide (e.pc = c.n.pc) && decide (m &&& ~~~e.mask = 0)
  if x.recon.any (fits []) then (s, .ok (true, false))
  else match s.spillFind c.n.team c.n.warp u.1 x.recon fits x.spilled with
    | (s, .error f) => (s, .error f)
    | (s, .ok o) => (s, .ok (o.isSome, o.isSome))

/-- JOIN parks the strands of the slices whose stack holds a matching entry (R153, R168); satisfied entries merge as
the instruction ends. -/
def execJoin (h : Hdr) (s : State) : Host.Outcome State Fault Refusal :=
  issue (.join h) s (fun cx =>
    let parks (u : Nat × Nat) : Bool := match (cx.joinSearch cx.s u).2 with | .ok r => r.1 | .error _ => false
    let slices := cx.n.units.foldl (fun (m : BitVec 8) u => if parks u then m ||| (1#8 <<< u.1) else m) 0
    cx.withStack { s := cx.s, after := { slices, st := .atJoin, keep := true } }
      (fun s u => match cx.joinSearch s u with
        | (s, .error f) => (s, .error f)
        | (s, .ok r) => (s, .ok r.2))
      (fun u w => if parks u then w.onStrand u.1 u.2 (fun x => { x with st := .atJoin }) else w))

/-- REGANG parks the strand until the warp gangs (R157, R169). -/
def execRegang (h : Hdr) (s : State) : Host.Outcome State Fault Refusal :=
  issue (.regang h) s (fun cx => { s := cx.s, after := { st := .atRegang, keep := true } })

end Sys2Proof.Machine
end

