-- ==== Sys2Proof/Machine/Order.lean ====
section
/-! DEFINITION. FENCE and BRIDGE, and RELEASE with the gate step (R263, R264, R272-R274, R431-R434). -/

namespace Sys2Proof.Machine

/-- The edge of a FENCE or BRIDGE: later accesses of the lanes in the target domains wait for the earlier accesses of
the source domains, and the result returns when those are performed (R242, R264). In Almanac mode it has no effect
(R278). -/
def Cx.edge (c : Cx) (frm dst : DomSet) (scp : Scope) : Eff :=
  if c.hdr.almanac then { s := c.s }
  else
    let ids := c.s.earlierIds c.n.team c.n.warp c.act frm scp
    let rid := c.s.nextId
    { s := c.s.fresh.onWarp c.n.team c.n.warp (fun w =>
        if ids.isEmpty then w else { w with edges := w.edges ++ [{ lanes := c.act, reach := dst, ids }] })
      result := some { id := rid, lanes := c.act, full := c.full, kind := .fence ids } }

/-- FENCE orders accesses of one domain, or of all (R263). -/
def execFence (h : Hdr) (all : Bool) (dom : Dom) (scp : Scope) (s : State) : Host.Outcome State Fault Refusal :=
  issue (.fence h all dom scp) s (fun cx => cx.scoped scp (fun cx scp =>
    let d : DomSet := if all then .all else .one dom
    cx.edge d d scp))

/-- BRIDGE orders earlier accesses of one domain before later accesses of another (R263). -/
def execBridge (h : Hdr) (frm dst : Dom) (scp : Scope) (s : State) : Host.Outcome State Fault Refusal :=
  issue (.bridge h frm dst scp) s (fun cx => cx.scoped scp (fun cx scp => cx.edge (.one frm) (.one dst) scp))

/-! ## The release gate -/

/-- What has passed of the rate window of a policy (R433). -/
def Policy.rolled (p : Policy) (period : Nat) : Policy :=
  if 2 ^ 18 ≤ period - p.start then { p with window := 0, start := period } else p

/-- Do the limits of a policy hold for a region of some bytes (R433)? -/
def Policy.allows (p : Policy) (len : Nat) : Bool :=
  decide (len ≤ p.regionLimit) && decide (p.total + len ≤ p.byteLimit) && decide (p.window + len ≤ p.rateLimit)

/-- The activity that the label-table writes of a gate step are charged to (R421, R433). -/
def gateActivity : Nat := 37

/-- The gate step on the frames of a region (R272, R274, R433, R434): the status, and the record's number. -/
def State.gateStep (s : State) (ctx : Nat) (base : DWord) (len : Nat) (pid : Nat) (frames : List Nat) :
    State × Nat × Nat :=
  let c := s.context ctx
  match s.policies.find? (fun p => p.id == pid && (p.set &&& ~~~(s.origins_ c) == 0)) with
  | none => (s, 3, 0)
  | some p =>
    let l := frames.foldl (fun (l : Label) f => l ||| Cells.get s.frameLab f) 0
    if l ≠ p.set then (s, 1, 0)
    else
      let p := p.rolled s.period
      let put (s : State) (q : Policy) : State :=
        { s with policies := s.policies.map (fun x => if x.id = q.id then q else x) }
      if !p.allows len then (put s p, 2, 0)
      else
        let n := s.nextRecord
        let s := put s { p with total := p.total + len, window := p.window + len }
        let r : RelRecord :=
          { n, time := s.nanos, policy := pid, set := p.set, dest := p.dest, vf := c.vf, ctx := c.num, base,
            len := BitVec.ofNat 64 len, total := p.total + len }
        let s := frames.foldl (fun (s : State) f => s.charge gateActivity 1 (homeDie (4096 * f) * 96 + homeSlice (4096 * f)) 1) s
        ({ s with
            frameLab := frames.foldl (fun (m : Cells Label) f => Cells.set m f (1#16 <<< p.dest)) s.frameLab
            records := s.records ++ [r]
            nextRecord := n + 1 }, 0, n)

/-- Translates every page of a region as a store: the places, or the fault of the first page that fails (R273). -/
def Cx.regionPages (c : Cx) (s : State) (base : DWord) (lab : Label) : Nat → State × Except FaultInfo (List Place)
  | 0 => (s, .ok [])
  | n + 1 =>
    match c.regionPages s base lab n with
    | (s, .error f) => (s, .error f)
    | (s, .ok ps) =>
      let va := base + BitVec.ofNat 64 (4096 * n)
      match s.translate c.core c.ctx va .write with
      | (s, .error (k, m)) => (s, .error { kind := k, access := 13, va, malformed := m, lab })
      | (s, .ok (p, _)) => (s, .ok (ps ++ [p]))

/-- The frame of a local place. -/
def Place.frame? : Place → Option Nat
  | .dev pa => some (pa / 4096)
  | .peer _ _ _ | .host _ _ | .scr _ _ => none

/-- RELEASE asks the release gate to relabel a region (R272-R274). -/
def execRelease (h : Hdr) (d a b c : BitVec 8) (s : State) : Host.Outcome State Fault Refusal :=
  issue (.release h d a b c) s (fun cx =>
    let base := cx.w a.toNat
    let len := (cx.w b.toNat).toNat
    let pid := field (cx.w c.toNat) 31 0
    let lab := cx.labW a.toNat ||| cx.labW b.toNat ||| cx.labW c.toNat
    let answer (s : State) (st n : Nat) : Eff :=
      { s
        wr := [wWrite d (if st = 0 then BitVec.ofNat 64 (n % 2 ^ 32 * 2 ^ 32) else BitVec.ofNat 64 st) lab] ++
          (if st = 0 then [] else cx.clearP cx.lanesA lab) }
    if base.toNat % 4096 ≠ 0 ∨ len = 0 ∨ len % 4096 ≠ 0 ∨ field base 63 57 ≠ 0 ∨ 2 ^ 57 < base.toNat + len then
      answer cx.s 4 0
    else
      let ids := cx.s.earlierIds cx.n.team cx.n.warp 0xFFFFFFFF .all .pkg
      if ids.any (fun x => cx.s.pendingAt cx.n.team x.1 x.2) then
        { s := cx.s, after := { st := .held (.drain ids), keep := true } }
      else
        match cx.regionPages cx.s base (cx.labW a.toNat) (len / 4096) with
        | (s, .error f) => { s, ends := cx.lanesA.map (fun l => (l, .fault f)) }
        | (s, .ok ps) =>
          let frames := ps.filterMap Place.frame?
          if frames.length < ps.length then answer s 4 0
          else
            let r := s.gateStep cx.ctx base len pid frames
            answer r.1 r.2.1 r.2.2)

end Sys2Proof.Machine
end

