-- ==== Sys2Proof/Machine/Warps.lean ====
section
/-! DEFINITION. New warps, the pending-launch store, spawn bins, barriers, event operations (R143-R145, R159-R162,
R178-R184, R202, R203). -/

namespace Sys2Proof.Machine

/-! ## New warps (R11, R18, R145, R155, R160) -/

/-- A warp at its start. -/
def State.newWarp (s : State) (k w : Nat) (pc : DWord) (live : Lanes) (spawned : Bool) : Warp :=
  let h := s.hdr k
  { w := Cells.set [] 0 h.args
    wLab := Cells.set [] 0 (s.launch (s.team k).launch).w0Lab
    exited := ~~~live
    slices := (List.range 8).filterMap (fun j =>
      let m := laneMask j live
      if m = 0 then none else some (j, ({ strands := [(0, { pc, mask := m })] } : Slice)))
    gang := (List.range 8).foldl (fun (g : BitVec 8) j => if laneMask j live = 0 then g else g ||| (1#8 <<< j)) 0
    spawned := spawned
    fpctl := h.fpctl
    tvec := h.trapVec
    tframe := h.region + BitVec.ofNat 64 (8192 * s.warpGlobal k w) }

/-- The lanes of the launch's warp of an index that hold threads (R145). -/
def Header.lanesOfWarp (h : Header) (w : Nat) : Lanes :=
  lanesOf ((List.range 32).filter (fun l => decide (32 * w + l < h.threads)))

/-! ## The pending-launch store (R202) -/

/-- Launches in the store held for a lead VF. -/
def State.storeHeld (s : State) (vf : Nat) : Nat :=
  (List.filter (fun (l : Nat × Launch) => (s.context l.2.ctx).vf == vf) s.launches).length

/-- Is an entry free for a VF: one reserved to it, or a shared one? -/
def State.storeFree (s : State) (vf : Nat) : Bool :=
  decide (s.storeHeld vf < 64) || decide ((List.range 64).foldl (fun n v => n + (s.storeHeld v - 64)) 0 < 2048)

/-- Is an entry available to a VF, with its journal? -/
def State.storeRoom (s : State) (vf port : Nat) : Bool := s.storeFree vf && s.journalRoom port

/-- Enters a launch for a context: its serial number, and readiness when its wait mask holds already (R182, R203). -/
def State.enterLaunch (s : State) (ctx : Nat) (hdr : Header) (va : DWord) (port jseq : Nat) (lab : Label)
    (waits : List (Nat × Scope)) : State :=
  let c := s.context ctx
  let l : Launch :=
    { ctx, hdr, hdrVa := va, serial := c.serial, port, jseq, w0Lab := lab, waits
      ready := if hdr.waitMask &&& c.events = hdr.waitMask then some s.nextId else none }
  let s1 := s.onContext ctx (fun c => { c with serial := c.serial + 1 })
  { s1 with launches := Cells.put s.launches s.nextId l, nextId := s.nextId + 1 }

/-- The journal entry of a device LAUNCH, directly Pending (R195, R196). -/
def State.journalDevice (s : State) (port ctxNum serial : Nat) (va : DWord) : State :=
  s.journalAdd port { seq := 0, time := s.nanos, type := 1, st := .pending, status := .ok, device := true, tag := 0,
                      ctx := ctxNum, detail := serial, operands := va.setWidth 256 }

/-! ## Spawn bins (R159, R160) -/

/-- The free warp index of a team, if there is one. -/
def State.freeWarp (s : State) (k : Nat) : Option Nat :=
  (List.range (s.hdr k).warps).find? (fun w => (Cells.find? (s.team k).warps w).isNone)

/-- Offers a record to the bins of a core; none when it is not stored. -/
def State.offer (s : State) (core k : Nat) (r : SpawnRec) : Option State :=
  let bins := (s.core core).bins
  match List.find? (fun (b : Nat × Bin) => b.2.team == k && b.2.pc == r.pc && !b.2.recs.isEmpty) bins with
  | some b =>
    if 64 ≤ b.2.recs.length then none
    else some (s.onCore core (fun c => { c with bins := Cells.put c.bins b.1 { b.2 with recs := b.2.recs ++ [r] } }))
  | none =>
    match (List.range 8).find? (fun n => (Cells.get bins n).recs.isEmpty) with
    | none => none
    | some n =>
      let timer := if s.almanac k then none else some (s.cycle + s.power.image.binTimer)
      some (s.onCore core (fun c => { c with bins := Cells.put c.bins n { team := k, pc := r.pc, recs := [r], timer } }))

/-- Starts a warp from a bin's oldest records when a warp index is free (R160). -/
def State.startBin (s : State) (core n clock : Nat) : State :=
  let b := Cells.get (s.core core).bins n
  match s.freeWarp b.team with
  | none => s
  | some w =>
    if b.recs.isEmpty then s
    else
      let took := b.recs.take 32
      let rest := b.recs.drop 32
      let lab := took.foldl (fun (l : Label) r => l ||| r.lab) 0
      let wp := s.newWarp b.team w b.pc (lanesOf (List.range took.length)) true
      let v := took.zipIdx.foldl (fun (m : Cells Word) r => Cells.set (Cells.set m r.2 r.1.w0) (32 + r.2) r.1.w1) []
      let wp1 : Warp := { wp with v := v, vLab := Cells.set (Cells.set [] 0 lab) 1 lab, qclock := clock }
      let timer := if s.almanac b.team || rest.isEmpty then none else some (s.cycle + s.power.image.binTimer)
      let s1 := s.setWarp b.team w wp1
      s1.onCore core (fun c => { c with
        bins := if rest.isEmpty then Cells.erase c.bins n
                else Cells.put c.bins n { b with recs := rest, timer := timer, start := false } })

/-- Starts what is due: 32 records, or a start asked for by the timer or BINFL. -/
def State.startBins (s : State) (core : Nat) : State :=
  (List.range 8).foldl (fun (s : State) n =>
    let b := Cells.get (s.core core).bins n
    if !s.almanac b.team && (decide (32 ≤ b.recs.length) || (b.start && !b.recs.isEmpty)) then
      let s1 := s.startBin core n 0
      if 32 ≤ (Cells.get (s1.core core).bins n).recs.length then s1.startBin core n 0 else s1
    else s) s

/-- Makes the bins of a team with the named entry PCs start a warp (R186). -/
def State.flushBins (s : State) (core k : Nat) (pcs : List DWord) : State :=
  s.onCore core (fun c => { c with bins := c.bins.map (fun (b : Nat × Bin) =>
    if b.2.team == k && pcs.contains b.2.pc && !b.2.recs.isEmpty then (b.1, { b.2 with start := true }) else b) })

/-- SR.BINSTAT as a team reads it (R161). -/
def State.binstat (s : State) (core k : Nat) : Word :=
  let bins := (s.core core).bins
  BitVec.ofNat 32 ((List.range 8).foldl (fun x n =>
    let b := Cells.get bins n
    if b.recs.isEmpty || b.team != k then x
    else x + 2 ^ n + (if 32 ≤ b.recs.length ∧ (s.freeWarp k).isNone then 2 ^ (8 + n) else 0) +
      (if 64 ≤ b.recs.length then 2 ^ (16 + n) else 0)) 0)

/-! ## Barriers (R178-R180) -/

/-- The strands of a warp: slice, entry, strand. -/
def Warp.allStrands (w : Warp) : List (Nat × Nat × Strand) :=
  w.slices.flatMap (fun (k : Nat × Slice) => k.2.strands.map (fun y => (k.1, y.1, y.2)))

/-- Applies a function to every strand of a warp. -/
def Warp.mapStrands (w : Warp) (f : Nat → Strand → Strand) : Warp :=
  { w with slices := w.slices.map (fun (k : Nat × Slice) =>
      (k.1, { k.2 with strands := k.2.strands.map (fun y => (y.1, f k.1 y.2)) })) }

/-- The count that a strand parked at a barrier names, and whether its arrival is still to be counted. -/
def Strand.atMeet (x : Strand) (cluster : Bool) (id : Nat) : Option (Nat × Bool) :=
  match x.st with
  | .waiting (.meet c i n _ ph _) => if c == cluster && i == id then some (n, ph.isNone) else none
  | _ => none

/-- Has a warp arrived at a barrier anew: every lane not exited stands in a strand parked there, one of them uncounted?
The answer is the count its lowest lane's strand names. -/
def Warp.arrives (w : Warp) (cluster : Bool) (id : Nat) : Option Nat :=
  let at_ := w.allStrands.filter (fun x => (x.2.2.atMeet cluster id).isSome)
  let there := at_.foldl (fun (m : Lanes) x => m ||| sliceLanes x.1 x.2.2.mask) 0
  let live := ~~~w.exited
  if live = 0 ∨ live &&& ~~~there ≠ 0 ∨ !(at_.any (fun x => ((x.2.2.atMeet cluster id).map (·.2)).getD false)) then none
  else
    let low := (laneList live).headD 0
    (at_.findSome? (fun x => if (sliceLanes x.1 x.2.2.mask).getLsbD low then (x.2.2.atMeet cluster id).map (·.1) else none))

/-- Has a phase all the arrivals that its count names? -/
def Bar.full (b : Bar) : Bool := b.count != 0 && decide (b.count ≤ b.arrived.length)

/-- Counts an arrival: the barrier, and the phase it counts in. -/
def Bar.arrive (b : Bar) (who count : Nat) (ids : List (Nat × Scope)) : Bar × Nat :=
  let b : Bar := { b with ids := b.ids ++ ids }
  if b.arrived.contains who || b.full then
    ({ b with later := b.later ++ [(who, count)] }, b.phase + 1 + (b.later.filter (fun x => x.1 == who)).length)
  else ({ b with arrived := b.arrived ++ [who], count := if b.arrived.isEmpty then count else b.count }, b.phase)

/-- A member leaves: its arrivals stay counted under a number of their own, which no later warp of its index has (R179). -/
def Bar.leave (b : Bar) (who own : Nat) : Bar :=
  { b with
    arrived := b.arrived.map (fun x => if x = who then own else x)
    later := b.later.map (fun x => if x.1 = who then (own, x.2) else x) }

/-- Is the phase in progress complete (R179)? -/
def Bar.complete (b : Bar) (members : List Nat) : Bool :=
  !b.arrived.isEmpty &&
  (if b.count = 0 then members.all (b.arrived.contains ·) else decide (b.count ≤ b.arrived.length))

/-- An arrival that knows a codebook table of a team: those that its phase releases know it as well (R307). -/
def Bar.learn (b : Bar) (k table phase : Nat) : Bar :=
  if table = 0 || b.know.any (fun x => x.1 == k && decide (table ≤ x.2.1)) then b
  else { b with know := b.know.filter (fun x => x.1 != k) ++ [(k, table, phase)] }

/-- The latest table of a team that phases below one tell of. -/
def Bar.tells (b : Bar) (k phase : Nat) : Nat :=
  b.know.foldl (fun n x => if x.1 = k ∧ x.2.2 < phase then max n x.2.1 else n) 0

/-- The next phase, with the arrivals that were counted ahead; and those of them that a full phase leaves to a later phase
than was said of them, as who, the phase said and the phase that counts them. -/
def Bar.next (b : Bar) : Bar × List (Nat × Nat × Nat) :=
  b.later.zipIdx.foldl (fun (acc : Bar × List (Nat × Nat × Nat)) a =>
    let said := b.phase + 1 + ((b.later.take a.2).filter (fun x => x.1 == a.1.1)).length
    let r := acc.1.arrive a.1.1 a.1.2 []
    (r.1, if r.2 = said then acc.2 else acc.2 ++ [(a.1.1, said, r.2)]))
    ({ phase := b.phase + 1, ids := if b.later.isEmpty then [] else b.ids, know := b.know }, [])

/-- The .WAIT strands of a warp whose arrivals a later phase counts. -/
def Warp.moved (w : Warp) (cluster : Bool) (id who : Nat) (ms : List (Nat × Nat × Nat)) : Warp :=
  if ms.isEmpty then w
  else w.mapStrands (fun _ x => match x.st with
    | .waiting (.meet c i n pass (some ph) a) =>
      match (if c == cluster && i == id then ms.find? (fun m => m.1 == who && m.2.1 == ph) else none) with
      | some m => { x with st := .waiting (.meet c i n pass (some m.2.2) a) }
      | none => x
    | _ => x)

/-- After an arrival counted in a phase: the .PASS strands of a warp at the barrier resume, the .WAIT strands wait for
the phase. -/
def Warp.counted (w : Warp) (cluster : Bool) (id phase : Nat) : Warp :=
  w.mapStrands (fun _ x => match x.st with
    | .waiting (.meet c i n pass none a) =>
      if c == cluster && i == id then (if pass then x.wake else { x with st := .waiting (.meet c i n pass (some phase) a) })
      else x
    | _ => x)

/-- After a phase completes: the .WAIT strands of earlier phases resume, and their lanes' later accesses wait for what the
phase orders (R180); they know the codebook table that it tells of (R307). -/
def Warp.released (w : Warp) (cluster : Bool) (id phase : Nat) (ids : List (Nat × Scope)) (table : Nat) : Warp :=
  let due (x : Strand) : Bool := match x.st with
    | .waiting (.meet c i _ _ (some p) _) => c == cluster && i == id && decide (p < phase)
    | _ => false
  let lanes := w.allStrands.foldl (fun (m : Lanes) x => if due x.2.2 then m ||| sliceLanes x.1 x.2.2.mask else m) 0
  if lanes = 0 then w
  else
    { w.mapStrands (fun _ x => if due x then x.wake else x) with
      table := max w.table table
      edges := if ids.isEmpty then w.edges else w.edges ++ [{ lanes, reach := .all, ids }] }

/-- The ids of a warp's accesses that an arrival orders. -/
def State.arrivalIds (s : State) (k w : Nat) (scp : Scope) : List (Nat × Scope) :=
  (s.earlierIds k w 0xFFFFFFFF .all scp).filter (fun x => s.pendingAt k x.1 x.2)

/-- Completes the phases of a team barrier that are complete. -/
def State.advanceBar (s : State) (k id : Nat) : Nat → State
  | 0 => s
  | n + 1 =>
    let t := s.team k
    let b := Cells.get t.bars id
    if b.complete (Cells.keys t.warps) then
      let r := b.next
      let s1 := s.onTeam k (fun t => { t with
        bars := Cells.set t.bars id r.1
        warps := t.warps.map (fun (w : Nat × Warp) =>
          (w.1, (w.2.released false id r.1.phase b.ids (b.tells k r.1.phase)).moved false id w.1 r.2)) })
      s1.advanceBar k id n
    else s

/-- Counts the arrivals at a team's barriers and completes their phases. -/
def State.settleBars (s : State) (k : Nat) : State :=
  (List.range 16).foldl (fun (s : State) id =>
    let s1 := (Cells.keys (s.team k).warps).foldl (fun (s : State) w =>
      match (s.warp k w).arrives false id with
      | none => s
      | some count =>
        let r := (Cells.get (s.team k).bars id).arrive w count (s.arrivalIds k w .team)
        ((s.onTeam k (fun t => { t with bars := Cells.set t.bars id (r.1.learn k (s.warp k w).table r.2) })).onWarp k w
          (fun v => v.counted false id r.2)).advanceBar k id (r.1.later.length + 1)) s
    s1.advanceBar k id ((Cells.get (s1.team k).bars id).later.length + 1)) s

/-- The placed teams of a cluster. -/
def State.clusterTeams (s : State) (launch index : Nat) : List Nat :=
  (List.filter (fun (t : Nat × Team) => t.2.launch == launch && t.2.cluster == index) s.teams).map (·.1)

/-- A cluster barrier. -/
def State.clusterBar (s : State) (launch index id : Nat) : Bar :=
  match s.clusters.find? (fun c => c.launch == launch && c.index == index) with
  | some c => Cells.get c.bars id
  | none => {}

/-- Writes a cluster barrier. -/
def State.setClusterBar (s : State) (launch index id : Nat) (b : Bar) : State :=
  if s.clusters.any (fun c => c.launch == launch && c.index == index) then
    { s with clusters := s.clusters.map (fun c =>
        if c.launch == launch && c.index == index then { c with bars := Cells.set c.bars id b } else c) }
  else { s with clusters := s.clusters ++ [{ launch, index, bars := Cells.set [] id b }] }

/-- Applies a function to every warp of some teams. -/
def State.onWarps (s : State) (ks : List Nat) (f : Warp → Warp) : State :=
  ks.foldl (fun (s : State) k => s.onTeam k (fun t => { t with
    warps := t.warps.map (fun (w : Nat × Warp) => (w.1, f w.2)) })) s

/-- Completes the phases of a cluster barrier that are complete. -/
def State.advanceClusterBar (s : State) (launch index id : Nat) : Nat → State
  | 0 => s
  | n + 1 =>
    let ks := s.clusterTeams launch index
    let b := s.clusterBar launch index id
    if b.complete ks then
      let r := b.next
      (ks.foldl (fun (s : State) k => s.onWarps [k] (fun w => (w.released true id r.1.phase b.ids (b.tells k r.1.phase)).moved true id k r.2))
        (s.setClusterBar launch index id r.1)).advanceClusterBar launch index id n
    else s

/-- A team's arrival at a cluster barrier: every warp of it has arrived; the count is its lowest warp's (R178). -/
def State.teamArrives (s : State) (k id : Nat) : Option Nat :=
  let t := s.team k
  let cs := t.warps.map (fun (w : Nat × Warp) => w.2.arrives true id)
  match cs with
  | some c :: rest => if rest.all (·.isSome) then some c else none
  | _ => none

/-- Counts the arrivals at a cluster's barriers and completes their phases. -/
def State.settleClusterBars (s : State) (launch index : Nat) : State :=
  (List.range 4).foldl (fun (s : State) id =>
    let s1 := (s.clusterTeams launch index).foldl (fun (s : State) k =>
      match s.teamArrives k id with
      | none => s
      | some count =>
        let ids := (Cells.keys (s.team k).warps).flatMap (fun w => s.arrivalIds k w .clus)
        let r := (s.clusterBar launch index id).arrive k count ids
        let table := (s.team k).warps.foldl (fun n (w : Nat × Warp) => max n w.2.table) 0
        ((s.setClusterBar launch index id (r.1.learn k table r.2)).onWarps [k] (fun w => w.counted true id r.2)).advanceClusterBar launch index id
          (r.1.later.length + 1)) s
    s1.advanceClusterBar launch index id ((s1.clusterBar launch index id).later.length + 1)) s

/-! ## Event operations of programs (R184) -/

/-- Performs the event operations whose accesses are performed; those of one warp on one bit stay in order. -/
def State.settleEvents (s : State) : State :=
  let r := s.deferred.foldl (fun (acc : State × List EventOp) d =>
    let s := acc.1
    if d.ids.any (fun x => s.pendingAt goneTeam x.1 x.2) ||
        acc.2.any (fun e => e.ctx == d.ctx && e.bit == d.bit && e.team == d.team && e.warp == d.warp)
    then (s, acc.2 ++ [d])
    else (s.eventBit d.ctx d.bit d.clr, acc.2)) (s, [])
  { r.1 with deferred := r.2 }

end Sys2Proof.Machine
end

