-- ==== Sys2Proof/Machine/Parallel.lean ====
section
/-! DEFINITION. Barriers, launches from the device, events, spawning (R178-R186). -/

namespace Sys2Proof.Machine

/-- MEET parks the strand at a team barrier; arrivals are counted as the step ends (R178, R179). -/
def execMeet (h : Hdr) (pass : Bool) (id count : BitVec 8) (s : State) : Host.Outcome State Fault Refusal :=
  issue (.meet h pass id count) s (fun cx =>
    { s := cx.s, after := { st := .waiting (.meet false id.toNat count.toNat pass none false) } })

/-- CMEET parks the strand at a cluster barrier (R178, R179). -/
def execCmeet (h : Hdr) (pass : Bool) (id count : BitVec 8) (s : State) : Host.Outcome State Fault Refusal :=
  issue (.cmeet h pass id count) s (fun cx =>
    { s := cx.s, after := { st := .waiting (.meet true id.toNat count.toNat pass none false) } })

/-! ## Launch (R182, R183) -/

/-- The reads of a header's 192 bytes, 64 at a time, or the fault of the first that fails (R182). -/
def Cx.headerReads (c : Cx) (s : State) (va : DWord) (lab : Label) : State × Except LaneEnd (List Access) :=
  (List.range 3).foldl (fun (acc : State × Except LaneEnd (List Access)) i =>
    match acc.2 with
    | .error e => (acc.1, .error e)
    | .ok as =>
      let a := va + BitVec.ofNat 64 (64 * i)
      match acc.1.translate c.core c.ctx a .read with
      | (s, .error (k, m)) => (s, .error (.fault { kind := k, access := 11, va := a, malformed := m, lab }))
      | (s, .ok (p, _)) =>
        (s, .ok (as ++ [{ id := 0, team := c.n.team, warp := c.n.warp, core := c.core, ctx := c.ctx, lanes := c.lanesA, dom := .sc,
                          scp := .pkg, place := p, va := a, pc := c.n.pc, size := 64, op := .load, aim := lab }])))
    (s, .ok [])

/-- The header that its reads give, with the union of its units' labels. -/
def State.headerOf (s : State) (as : List Access) : State × Header × Label :=
  as.zipIdx.foldl (fun (acc : State × Header × Label) a =>
    let s := ((acc.1.chargeAccess a.1).fetchFor a.1).catchUp a.1
    (s.afterLook a.1.place 64, acc.2.1 ||| BitVec.ofNat 1536 (s.look a.1.core false false a.1.place 64 <<< (512 * a.2)),
     acc.2.2 ||| s.unitLab a.1.place)) (s, 0, 0)

/-- LAUNCH enters a launch of the context into the pending-launch store; LAUNCH.W waits for an entry (R182). The header's
reads are SC reads, so they follow the warp's earlier SC accesses. -/
def execLaunch (h : Hdr) (wait : Bool) (d a : BitVec 8) (s : State) : Host.Outcome State Fault Refusal :=
  issue (.launch h wait d a) s (fun cx =>
    let va := cx.w a.toNat
    let lab := cx.labW a.toNat
    let k := cx.n.team
    let w := cx.n.warp
    if va.toNat % 64 ≠ 0 then { s := cx.s, ends := trapAll cx.act .misalignedAddr va lab }
    else if field va 63 57 ≠ 0 then { s := cx.s, ends := trapAll cx.act .badSpace va lab }
    else
      let first := cx.s.earlierIds k w 0xFFFFFFFF (.one .sc) .pkg ++
        (cx.warp.edges.flatMap (fun e => if e.reach.sc then e.ids else []))
      if first.any (fun x => cx.s.pendingAt k x.1 x.2) then
        { s := cx.s, after := { st := .held (.drain first), keep := true } }
      else match cx.headerReads cx.s va lab with
        | (s, .error e) => { s, ends := cx.lanesA.map (fun l => (l, e)) }
        | (s, .ok as) => match cx.askLines s as, as.find? s.readsPoison, as.find? s.refusedLine with
        | some e, _, _ => e
        | none, some a, _ => { s := s.poisonEnd a }
        | none, none, some a => { s, ends := trapAll cx.act .labelEgress a.va lab }
        | none, none, none =>
          let r := s.headerOf as
          let s := r.1
          let hd := r.2.1
          let lh := r.2.2
          let vf := (s.context cx.ctx).vf
          let answer (s : State) (st serial : Nat) : Eff :=
            { s
              wr := [wWrite d (if st = 0 then BitVec.ofNat 64 (serial % 2 ^ 32 * 2 ^ 32) else BitVec.ofNat 64 st) lab] ++
                (if st = 0 then [] else cx.clearP cx.lanesA lab) }
          if !hd.valid then answer s 2 0
          else if 2 ≤ hd.nbv then answer s 3 0
          else if !s.storeRoom vf (vf + 1) then
            if wait then { s, after := { st := .waiting .launch, keep := true } } else answer s 1 0
          else
            let c := s.context cx.ctx
            let jseq := (s.port (vf + 1)).tail
            let s1 := s.journalDevice (vf + 1) c.num c.serial va
            let s2 := s1.enterLaunch cx.ctx hd va (vf + 1) jseq (lh ||| lab ||| cx.warp.lbfloor)
              (s1.arrivalIds k w .pkg)
            answer s2 0 c.serial)

/-! ## Events (R184) -/

/-- EVSET sets or clears a bit of the context's event vector, once the warp's earlier accesses are performed (R184). -/
def execEvset (h : Hdr) (clr : Bool) (n : BitVec 8) (s : State) : Host.Outcome State Fault Refusal :=
  issue (.evset h clr n) s (fun cx =>
    let k := cx.n.team
    let w := cx.n.warp
    if cx.buffers then
      match cx.s.bufferAdd k w [.event n.toNat clr] with
      | some s => { s }
      | none => { s := cx.s, bufferFull := true }
    else
      let ids := if clr then [] else cx.s.arrivalIds k w .pkg
      { s := ({ cx.s with deferred := cx.s.deferred ++
              [{ ctx := cx.ctx, bit := n.toNat, clr, team := k, warp := w, ids }] } : State).settleEvents })

/-- EVWAIT parks the strand until a bit of the event vector is 1 (R184). -/
def execEvwait (h : Hdr) (n : BitVec 8) (s : State) : Host.Outcome State Fault Refusal :=
  issue (.evwait h n) s (fun cx =>
    if (cx.s.context cx.ctx).events.getLsbD n.toNat then { s := cx.s }
    else { s := cx.s, after := { st := .waiting (.event n.toNat) } })

/-! ## Spawning (R159, R185, R186) -/

/-- The record of a lane, or its trap for the entry PC (R185). -/
def Cx.spawnRec (c : Cx) (a b d : BitVec 8) (lane : Nat) : Except LaneEnd SpawnRec :=
  let pc := c.v2 lane a.toNat
  let lab := c.labV a 2
  if pc.toNat % 8 ≠ 0 then .error (.trap { lane, cause := .misalignedPc, detail := pc, lab } false)
  else if field pc 63 60 ≠ 0 then .error (.trap { lane, cause := .badSpace, detail := pc, lab } false)
  else .ok { pc, w0 := c.v lane b.toNat, w1 := c.v lane d.toNat, lab := lab ||| c.labV b 1 ||| c.labV d 1 }

/-- Offers records in lane order: the state, and the records not stored (R159). -/
def State.offerAll (s : State) (core k : Nat) (rs : List (Nat × SpawnRec)) : State × List (Nat × SpawnRec) :=
  rs.foldl (fun (acc : State × List (Nat × SpawnRec)) r =>
    match acc.1.offer core k r.2 with
    | some s => (s, acc.2)
    | none => (acc.1, acc.2 ++ [r])) (s, [])

/-- The label of some records. -/
def recsLab (rs : List (Nat × SpawnRec)) : Label := rs.foldl (fun l r => l ||| r.2.lab) 0

/-- SPAWN offers one record for each active lane; SPAWN.W stores those that fit and parks until the rest do (R159, R185). -/
def execSpawn (h : Hdr) (wait : Bool) (a b c : BitVec 8) (s : State) : Host.Outcome State Fault Refusal :=
  issue (.spawn h wait a b c) s (fun cx =>
    let k := cx.n.team
    let w := cx.n.warp
    let all := cx.lanesA.map (fun l => (l, cx.spawnRec a b c l))
    let ends := all.filterMap (fun x => match x.2 with | .error e => some (x.1, e) | .ok _ => none)
    let recs := all.filterMap (fun x => match x.2 with | .ok r => some (x.1, r) | .error _ => none)
    if recs.isEmpty then { s := cx.s, ends }
    else if cx.buffers then
      let clr := if wait ∨ cx.h.g = 7 then none else some (cx.h.g.toNat, cx.h.gn, cx.ambient ||| recsLab recs)
      match cx.s.bufferAdd k w [.spawn recs clr wait] with
      | some s => { s, ends, after := if wait then { st := .waiting (.spawn []) } else {} }
      | none => { s := cx.s, bufferFull := true }
    else if wait then
      let r := cx.s.offerAll cx.core k recs
      { s := r.1, ends, after := if r.2.isEmpty then {} else { st := .waiting (.spawn r.2) } }
    else
      let r := cx.s.offerAll cx.core k recs
      { s := r.1, ends, wr := if r.2.isEmpty then [] else cx.clearP (r.2.map (·.1)) (recsLab r.2) })

/-- BINFL makes the bins with the named entry PCs start a warp (R186). -/
def execBinfl (h : Hdr) (a : BitVec 8) (s : State) : Host.Outcome State Fault Refusal :=
  issue (.binfl h a) s (fun cx =>
    let k := cx.n.team
    let pcs := (cx.lanesA.map (fun l => cx.v2 l a.toNat)).eraseDups
    if cx.buffers then
      match cx.s.bufferAdd k cx.n.warp [.flush pcs] with
      | some s => { s }
      | none => { s := cx.s, bufferFull := true }
    else { s := cx.s.flushBins cx.core k pcs })

end Sys2Proof.Machine
end

