-- ==== Sys2Proof/Machine/System.lean ====
section
/-! DEFINITION. Labels, special registers, the return from a trap, indexed registers, code in memory (R18-R20, R132-R142). -/

namespace Sys2Proof.Machine

/-! ## Labels (R132-R134) -/

/-- The label of a register that LBRD, LBCHK or LBFLOOR names. -/
def Cx.labelOf (c : Cx) (k : LbKind) (a : BitVec 8) : Label :=
  match k with
  | .v => c.labV a 1
  | .p => c.labP a.toNat
  | .w => c.labW a.toNat
  | .mem => 0

/-- The place of a label read: no alignment, no floor, no scope cap (R132, R250). -/
def Cx.labelSpot (c : Cx) (a : BitVec 8) (s : State) (lane : Nat) : State × Except LaneEnd Spot :=
  let lab := c.labV a 2
  match c.formCheck s lane (c.v2 lane a.toNat) 1 1 lab with
  | .error e => (s, .error e)
  | .ok f => c.locate s lane (c.v2 lane a.toNat) f .read 0 lab

/-- LBRD reads the label of a register or of memory (R132). -/
def execLbrd (h : Hdr) (k : LbKind) (d a : BitVec 8) (s : State) : Host.Outcome State Fault Refusal :=
  issue (.lbrd h k d a) s (fun cx =>
    if k ≠ .mem then
      let l := cx.labelOf k a
      { s := cx.s, wr := vWrites d 1 (cx.lanesA.map (fun i => (i, l.toNat))) l }
    else
      let r := cx.checkLanes cx.s (cx.labelSpot a)
      let rid := r.1.nextId
      let m : MemOp := { (default : MemOp) with dom := .bu, scp := .team, sz := .n16 }
      cx.sendLoads r.1.fresh (r.2.1.map (fun x => { cx.access m .team rid x .label with res := rid, size := 1 })) r.2.2
        (cx.gather rid d .n16 false (lanesOf (r.2.1.map (·.lane))) (cx.labV a 2)))

/-- LBCHK tests the label of a register against a set (R133). -/
def execLbchk (h : Hdr) (pf : Bool) (k : LbKind) (d a b : BitVec 8) (s : State) : Host.Outcome State Fault Refusal :=
  issue (.lbchk h pf k d a b) s (fun cx =>
    let l := cx.labelOf k a
    let ok (i : Nat) : Bool := l &&& ~~~((cx.v i b.toNat).setWidth 16) == 0
    if pf then { s := cx.s, wr := [pWrite d.toNat (cx.lanesA.map (fun i => (i, ok i))) (cx.labV b 1)] }
    else
      { s := cx.s
        ends := (cx.lanesA.filter (fun i => !ok i)).map (fun i =>
          (i, .trap { lane := i, cause := .labelCheck, detail := l.setWidth 64, lab := l } false)) })

/-- LBFLOOR widens the warp's floor (R134). -/
def execLbfloor (h : Hdr) (k : LbKind) (a : BitVec 8) (s : State) : Host.Outcome State Fault Refusal :=
  issue (.lbfloor h k a) s (fun cx =>
    let more := if k = .v then
        cx.lanesA.foldl (fun (l : Label) i => l ||| (cx.v i a.toNat).setWidth 16) 0 else 0
    { s := cx.s.onWarp cx.n.team cx.n.warp (fun w => { w with lbfloor := w.lbfloor ||| cx.labelOf k a ||| more }) })

/-! ## Special registers (R18-R20, R135, R136) -/

/-- The low or high half of a 64-bit special register, or all of it. -/
def halfOf (wide hi : Bool) (x : DWord) : Nat :=
  if wide then x.toNat else if hi then field x 63 32 else field x 31 0

/-- The work identifier of a lane (R144); a spawned warp has its team's (R160). -/
def Cx.workId (c : Cx) (lane : Nat) : DWord :=
  let t := (c.s.team c.n.team).teamId
  if c.warp.spawned then t else t ||| BitVec.ofNat 64 (c.hdr.spread 0 c.hdr.tb (32 * c.n.warp + lane))

/-- What a lane reads from a special register (R18, R19). -/
def Cx.special (c : Cx) (n : BitVec 16) (lane : Nat) : Nat :=
  let wide := n.getLsbD 15
  let t := c.s.team c.n.team
  let chan (i : Nat) : DWord := c.s.chanView c.n.team i
  match n.toNat % 32768 with
  | 0x0000 => lane
  | 0x0001 => lane / 4
  | 0x0002 => c.n.warp
  | 0x0003 => c.hdr.warps
  | 0x0004 => halfOf wide false (c.workId lane)
  | 0x0005 => halfOf wide true (c.workId lane)
  | 0x0006 => halfOf wide false t.teamId
  | 0x0007 => halfOf wide true t.teamId
  | 0x0008 => (c.s.launch t.launch).serial % 2 ^ 32
  | 0x0009 => (c.s.context t.ctx).num
  | 0x0010 => halfOf wide false (BitVec.ofNat 64 c.s.cycle)
  | 0x0011 => halfOf wide true (BitVec.ofNat 64 c.s.cycle)
  | 0x0012 => if c.hdr.almanac then halfOf wide false (BitVec.ofNat 64 c.warp.qclock) else 0
  | 0x0013 => if c.hdr.almanac then halfOf wide true (BitVec.ofNat 64 c.warp.qclock) else 0
  | 0x0020 => c.warp.fpctl.toNat
  | 0x0021 => (c.warp.fpflags.foldl (fun (x : BitVec 5) l => x ||| l.2) 0).toNat
  | 0x0030 => halfOf wide false c.warp.tvec
  | 0x0031 => halfOf wide true c.warp.tvec
  | 0x0032 => halfOf wide false c.warp.tframe
  | 0x0033 => halfOf wide true c.warp.tframe
  | 0x0040 => halfOf wide false (chan 0)
  | 0x0041 => halfOf wide true (chan 0)
  | 0x0042 => halfOf wide false (chan 1)
  | 0x0043 => halfOf wide true (chan 1)
  | 0x0044 => halfOf wide false (chan 2)
  | 0x0045 => halfOf wide true (chan 2)
  | 0x0046 => halfOf wide false (chan 3)
  | 0x0047 => halfOf wide true (chan 3)
  | 0x0050 => c.warp.mxstat.toNat
  | 0x0051 => (c.s.core t.core).mxgov.toNat
  | 0x0052 => c.warp.progress.toNat
  | 0x0060 => halfOf wide false c.warp.sthash
  | 0x0061 => halfOf wide true c.warp.sthash
  | 0x0070 => c.warp.scopeclamp.toNat
  | 0x0071 => c.warp.lbfloor.toNat
  | _ => (c.s.binstat t.core c.n.team).toNat

/-- Does a number name the running hash? -/
def isHash (n : BitVec 16) : Bool := n.toNat % 32768 == 0x60 || n.toNat % 32768 == 0x61

/-- SRD reads a special register; a read of the hash waits for the warp's earlier records (R135, R287). -/
def execSrd (h : Hdr) (srn : BitVec 16) (d : BitVec 8) (s : State) : Host.Outcome State Fault Refusal :=
  issue (.srd h srn d) s (fun cx =>
    if isHash srn && !cx.warp.hashQ.isEmpty then { s := cx.s, after := { st := .held .hash, keep := true } }
    else
      { s := cx.s
        wr := vWrites d (if srn.getLsbD 15 then 2 else 1) (cx.lanesA.map (fun l => (l, cx.special srn l)))
          (if isHash srn then cx.warp.sthashLab else 0) })

/-- A 32-bit half, or all, of a 64-bit register replaced. -/
def putHalf (wide hi : Bool) (old : DWord) (x : DWord) : DWord :=
  if wide then x else if hi then x.setWidth 32 ++ old.setWidth 32 else (old >>> 32).setWidth 32 ++ x.setWidth 32

/-- Is a value one that SR.FPCTL takes (R20)? -/
def fpctlOk (x : Word) : Bool := decide (field x 31 10 = 0) && !bit x 3 && decide (field x 2 0 < 5)

/-- Clears sticky flags of lanes. -/
def clearFlags (m : Cells (BitVec 5)) (ls : List (Nat × Word)) : Cells (BitVec 5) :=
  ls.foldl (fun (m : Cells (BitVec 5)) l => Cells.modify m l.1 (fun f => f &&& ~~~(l.2.setWidth 5))) m

/-- SWR writes a special register (R19, R20, R136). -/
def execSwr (h : Hdr) (srn : BitVec 16) (a : BitVec 8) (s : State) : Host.Outcome State Fault Refusal :=
  issue (.swr h srn a) s (fun cx =>
    let wide := srn.getLsbD 15
    let s := cx.strictFloor cx.s (cx.labV a (if wide then 2 else 1))
    let x : DWord := if wide then cx.v2 0 a.toNat else (cx.v 0 a.toNat).setWidth 64
    let x32 := cx.v 0 a.toNat
    let all : Word := (List.range 32).foldl (fun (m : Word) l => m ||| cx.v l a.toNat) 0
    let on (s : State) (f : Warp → Warp) : Eff := { s := s.onWarp cx.n.team cx.n.warp f }
    match srn.toNat % 32768 with
    | 0x0020 =>
      if fpctlOk x32 then on s (fun w => { w with fpctl := x32 })
      else { s := cx.s, ends := trapAll cx.act .illegalField 0 0 }
    | 0x0021 =>
      let vals := cx.lanesA.map (fun l => (l, cx.v l a.toNat))
      let bad := vals.filter (fun y => decide (field y.2 31 5 ≠ 0))
      { s := s.onWarp cx.n.team cx.n.warp (fun w =>
          { w with fpflags := clearFlags w.fpflags (vals.filter (fun y => decide (field y.2 31 5 = 0))) })
        ends := bad.map (fun y => (y.1, .trap { lane := y.1, cause := .illegalField } false)) }
    | 0x0030 => on s (fun w => { w with tvec := putHalf wide false w.tvec x })
    | 0x0031 => on s (fun w => { w with tvec := putHalf wide true w.tvec x })
    | 0x0032 => on s (fun w => { w with tframe := putHalf wide false w.tframe x })
    | 0x0033 => on s (fun w => { w with tframe := putHalf wide true w.tframe x })
    | 0x0050 => on s (fun w => { w with mxstat := w.mxstat &&& ~~~all })
    | _ => on s (fun w => { w with scopeclamp := w.scopeclamp &&& ~~~all }))

/-! ## The return from a trap (R137) -/

/-- The reads of TRET for one slice's active lanes, as offset and width. -/
def tretReads (n : Nat) (lanes : List Nat) : List (Nat × Nat) :=
  lanes.flatMap (fun l => (List.range (min n 8)).map (fun k => (96 + 32 * (l % 4) + 4 * k, 4)) ++ [(80 + l % 4, 1)]) ++
  [(24, 4), (28, 4)]

/-- Reads bytes of a trap frame: values by offset with the labels of their units, the fault or trap of the first read that
fails, or the address of a poisoned line. -/
def Cx.frameRead (c : Cx) (s : State) (f : DWord) (rs : List (Nat × Nat)) :
    State × Except LaneEnd (List (Nat × Nat) × Label × Option DWord) :=
  rs.foldl (fun (acc : State × Except LaneEnd (List (Nat × Nat) × Label × Option DWord)) r =>
    match acc.2 with
    | .error e => (acc.1, .error e)
    | .ok (xs, l, bad) =>
      let va := f + BitVec.ofNat 64 r.1
      match c.resolve acc.1 0 va r.2 r.2 .read 10 0 with
      | (s, .error (.fault i)) => (s, .error (.fault { i with kind := if lostKind ≤ i.kind then i.kind else 4, hw := true }))
      | (s, .error e) => (s, .error e)
      | (s, .ok x) =>
        if x.place.remote && (Cells.get s.remote x.place.lineKey).egress then (s, .error (addrTrap 0 .labelEgress va 0))
        else
          let s := s.hostGet x.place r.2 false
          (s, .ok (xs ++ [(r.1, s.look c.core x.priv true x.place r.2)], l ||| s.unitLab x.place,
            if s.poisoned x.place r.2 || s.badLine x.place then some va else bad))) (s, .ok ([], 0, none))

/-- The reads of the frames that lie at other modules. -/
def Cx.frameAsks (c : Cx) (s : State) : List Access :=
  c.n.units.flatMap (fun u =>
    (tretReads c.hdr.vregs (c.lanesA.filter (fun l => l / 4 == u.1))).filterMap (fun r =>
      let va := c.warp.frame u.1 + BitVec.ofNat 64 r.1
      match (c.resolve s 0 va r.2 r.2 .read 10 0).2 with
      | .ok x => if x.place.remote then
          some { id := 0, team := c.n.team, warp := c.n.warp, core := c.core, ctx := c.ctx, lanes := c.lanesA, dom := .sc,
                 scp := .team, place := x.place, va, pc := c.n.pc, size := r.2, op := .load }
        else none
      | .error _ => none))

/-- A value read at an offset. -/
def readAt (xs : List (Nat × Nat)) (off : Nat) : Nat := ((xs.find? (fun x => x.1 == off)).map (·.2)).getD 0

/-- What TRET does for one slice (R137): registers and predicates of its active lanes from the frame, and where they go. -/
def Cx.tretSlice (c : Cx) (acc : Eff) (u : Nat × Nat) : Eff :=
  let lanes := c.lanesA.filter (fun l => l / 4 == u.1)
  if lanes.isEmpty then acc
  else
    let n := c.hdr.vregs
    match c.frameRead acc.s (c.warp.frame u.1) (tretReads n lanes) with
    | (s, .error e) =>
      { acc with s := s, ends := acc.ends ++ lanes.map (fun l =>
          (l, match e with | .trap t b => .trap { t with lane := l } b | x => x)) }
    | (s, .ok (_, _, some bad)) =>
      { acc with s := s.endContext c.ctx { reason := 3, va := bad, global := s.warpGlobal c.n.team c.n.warp, pc := c.n.pc,
                                           lab := c.warp.lbfloor, serial := (s.launch (s.team c.n.team).launch).serial } }
    | (s, .ok (xs, lab, none)) =>
      let t : DWord := BitVec.ofNat 64 (readAt xs 24 + readAt xs 28 * 2 ^ 32)
      let v := (List.range (min n 8)).map (fun k : Nat =>
        ({ reg := .v k, lab, vals := lanes.map (fun l => (l, BitVec.ofNat 64 (readAt xs (96 + 32 * (l % 4) + 4 * k)))) } : Wr))
      let p := (List.range 7).map (fun k : Nat =>
        pWrite k (lanes.map (fun l => (l, (readAt xs (80 + l % 4)).testBit k))) lab)
      { acc with
        s := s
        wr := acc.wr ++ v ++ p
        ends := acc.ends ++ lanes.map (fun l => (l, match branchEnd l t lab with
          | .goto t => .resume t
          | e => e)) }

/-- TRET returns from a trap: registers, predicates and next PC come from the trap frame of the slice (R137). -/
def execTret (h : Hdr) (s : State) : Host.Outcome State Fault Refusal :=
  issue (.tret h) s (fun cx =>
    if !cx.inTrap then { s := cx.s, ends := trapAll cx.act .illegalField 0 0 }
    else
      let k := cx.n.team
      let first := cx.s.earlierIds k cx.n.warp cx.act (.one .sc) .team ++
        (cx.warp.edges.flatMap (fun e => if e.reach.sc && (e.lanes &&& cx.act != 0) then e.ids else []))
      if first.any (fun x => cx.s.pendingAt k x.1 x.2) then
        { s := cx.s, after := { st := .held (.drain first), keep := true } }
      else match cx.askLines cx.s (cx.frameAsks cx.s) with
        | some e => e
        | none => cx.n.units.foldl cx.tretSlice { s := cx.s })

/-! ## Indexed registers (R138) -/

/-- The register number a lane's index names. -/
def Cx.index (c : Cx) (a : BitVec 8) (lane : Nat) : Nat := field (c.v lane a.toNat) 7 0

/-- The active lanes whose index is in the allocation, and the traps of the others. -/
def Cx.indexed (c : Cx) (a : BitVec 8) : List Nat × List (Nat × LaneEnd) :=
  let ok (l : Nat) : Bool := decide (c.index a l < c.hdr.vregs) || decide (c.index a l = 255)
  (c.lanesA.filter ok, (c.lanesA.filter (fun l => !ok l)).map (fun l =>
    (l, .trap { lane := l, cause := .illegalField } false)))

/-- VRDX reads a V register that a register names (R138). -/
def execVrdx (h : Hdr) (d a : BitVec 8) (s : State) : Host.Outcome State Fault Refusal :=
  issue (.vrdx h d a) s (fun cx =>
    let r := cx.indexed a
    let lab := r.1.foldl (fun (l : Label) i => l ||| cx.labV (BitVec.ofNat 8 (cx.index a i)) 1) (cx.labV a 1)
    { s := cx.s, ends := r.2, wr := vWrites d 1 (r.1.map (fun l => (l, (cx.v l (cx.index a l)).toNat))) lab })

/-- VWRX writes V registers that a register names (R138). -/
def execVwrx (h : Hdr) (a b : BitVec 8) (s : State) : Host.Outcome State Fault Refusal :=
  issue (.vwrx h a b) s (fun cx =>
    let r := cx.indexed a
    let targets := (r.1.map (cx.index a)).eraseDups
    { s := cx.s
      ends := r.2
      wr := targets.map (fun t =>
        { reg := .v t, lab := cx.labV a 1 ||| cx.labV b 1
          vals := (r.1.filter (fun l => cx.index a l == t)).map (fun l => (l, (cx.v l b.toNat).setWidth 64)) }) })

/-! ## Code in memory (R139-R142) -/

/-- ISYNC discards the loop buffers of the warp's strands, those that trap strands save among them (R142). -/
def execIsync (h : Hdr) (s : State) : Host.Outcome State Fault Refusal :=
  issue (.isync h) s (fun cx =>
    { s := cx.s.onWarp cx.n.team cx.n.warp (fun w => w.mapStrands (fun _ x => { x with buf := [], savedBuf := [] })) })

/-- IINV drops ranges of lines from every instruction cache (R139). -/
def execIinv (h : Hdr) (a b : BitVec 8) (s : State) : Host.Outcome State Fault Refusal :=
  issue (.iinv h a b) s (fun cx =>
    let at_ (l : Nat) : DWord := cx.v2 l a.toNat
    let len (l : Nat) : Nat := (cx.v l b.toNat).toNat
    let lab := cx.labV a 2
    let good := cx.lanesA.filter (fun l => field (at_ l) 63 60 == 0)
    let bad := cx.lanesA.filter (fun l => field (at_ l) 63 60 != 0)
    let ranges := (good.filter (fun l => len l != 0)).map (fun l =>
      (codeLine cx.ctx (at_ l).toNat, ((at_ l).toNat + len l - 1) / 128 - (at_ l).toNat / 128 + 1))
    { s := cx.s.fresh
      ends := bad.map (fun l => (l, addrTrap l .badSpace (at_ l) lab))
      result := some { id := cx.s.nextId, lanes := lanesOf good, full := cx.full, kind := .iinv ranges } })

end Sys2Proof.Machine
end

