-- ==== Sys2Proof/Machine/Settle.lean ====
section
/-! DEFINITION. What follows of itself after every move: traps that are due, markers, barriers, bins, waits that have
ended, edges that no longer bind (R147, R152, R160, R179, R184, R287, R318, R333-R335, R342). -/

namespace Sys2Proof.Machine

/-- The placed warps, as team and warp. -/
def State.allWarps (s : State) : List (Nat × Nat) :=
  s.teams.flatMap (fun (t : Nat × Team) => (Cells.keys t.2.warps).map (fun w => (t.1, w)))

/-- Are none of some matrix instructions of a core left, nor of some transfers that it has accepted? -/
def State.gone (s : State) (core : Nat) (ids : List Nat) : Bool :=
  !((s.core core).matrix.any (fun m => ids.contains m.id)) &&
  (List.range 4).all (fun ch => (s.accepted core ch).all (fun x => !ids.contains x.id))

/-- A CHRST or SREL that waits in a warp and may end: what it does, once for the warp (R318, R335). -/
def State.endHold (s : State) (k w : Nat) (h : Hold) : State :=
  let core := (s.team k).core
  let wakeAll (s : State) : State := s.onWarp k w (fun wp => wp.mapStrands (fun _ x => if x.st == .held h then x.wake else x))
  match h with
  | .chrst ch ids =>
    let s := s.chanDropStuck core ch ids
    if s.gone core ids then wakeAll (s.chanReset k ch) else s
  | .srel slot ids => if s.gone core ids then wakeAll (s.freeSlot core slot) else s
  | .marker | .trap | .chan _ | .hash | .drain _ | .port | .commit | .late _ => s

/-- Ends the CHRST and SREL of a warp that may end. -/
def State.endHolds (s : State) (k w : Nat) : State :=
  (((s.warp k w).allStrands.filterMap (fun x => match x.2.2.st with
    | .held h => some h
    | _ => none)).eraseDups).foldl (fun (s : State) h => s.endHold k w h) s

/-- A strand whose hold has ended may issue again (R264, R272, R333). -/
def State.freedHold (s : State) (k : Nat) (x : Strand) : Strand :=
  match x.st with
  | .held (.chan ch) =>
    if (s.accepted (s.team k).core ch).length < 16 then { x with st := .ready } else x
  | .held .port => if s.portBusy (s.team k).core then x else { x with st := .ready }
  | .held (.drain ids) => if ids.any (fun y => s.pendingAt k y.1 y.2) then x else { x with st := .ready }
  | _ => x

/-- Has the wait of a strand ended? A DOZE ends 4,096 cycles after its own at the latest (R121). -/
def State.waitOver (s : State) (k w : Nat) (wt : Wait) : Bool :=
  match wt with
  | .event n => (s.context (s.team k).ctx).events.getLsbD n
  | .chan ch v => decide (v.toNat ≤ (s.chanView k ch).toNat)
  | .matrix ids => !((s.warp k w).results.any (fun r => ids.contains r.id))
  | .doze since n => decide (since + n + 4096 ≤ s.cycle)
  | .launch | .spawn _ | .ge _ | .meet _ _ _ _ _ _ => false

/-- A strand whose wait has ended goes on; one in LAUNCH.W issues again when an entry is free (R182). -/
def State.freedWait (s : State) (k w : Nat) (x : Strand) : Strand :=
  match x.st with
  | .waiting .launch =>
    let vf := (s.context (s.team k).ctx).vf
    if s.storeRoom vf (vf + 1) then { x with st := .ready } else x
  | .waiting wt => if s.waitOver k w wt then x.wake else x
  | _ => x

/-- Stores the records of the strands that wait in SPAWN.W, in lane order (R159, R185). -/
def State.settleSpawn (s : State) (k w : Nat) : State :=
  let core := (s.team k).core
  ((s.warp k w).allStrands).foldl (fun (s : State) x =>
    match (((s.warp k w).slice x.1).strand x.2.1).st with
    | .waiting (.spawn rs) =>
      let r := s.offerAll core k rs
      r.1.onWarp k w (fun wp => wp.onStrand x.1 x.2.1 (fun y =>
        if r.2.isEmpty then y.wake else { y with st := .waiting (.spawn r.2) }))
    | _ => s) s

/-- Chooses the current strands of a warp again (R149). -/
def Warp.rechoose (w : Warp) : Warp :=
  { w with slices := w.slices.map (fun (k : Nat × Slice) => (k.1, k.2.rechoose)) }

/-- Drops the edges of a warp whose accesses are all performed (R242). -/
def State.pruneEdges (s : State) (k w : Nat) : State :=
  if (s.warp k w).edges.isEmpty then s
  else s.onWarp k w (fun wp => { wp with
    edges := wp.edges.filter (fun e => e.ids.any (fun x => s.pendingAt k x.1 x.2)) })

/-- A strand of an Almanac warp whose MXWAIT has ended goes on at once (log 20). -/
def State.freedMatrix (s : State) (k w : Nat) (x : Strand) : Strand :=
  match x.st with
  | .waiting (.matrix ids) => if s.waitOver k w (.matrix ids) then x.wake else x
  | _ => x

/-- Settles one warp. The waits of an Almanac warp end at a commit point (R279); its holds end when they may. -/
def State.settleWarp (s : State) (k w : Nat) : State :=
  if (Cells.find? s.teams k).isNone || (Cells.find? (s.team k).warps w).isNone then s
  else
    let s := s.onWarp k w Warp.drain
    let s := (s.settleStack k w 0).endHolds k w
    let s := s.onWarp k w (fun wp => wp.mapStrands (fun _ x => s.freedHold k x))
    let s := if s.almanac k then s.onWarp k w (fun wp => wp.mapStrands (fun _ x => s.freedMatrix k w x))
      else (s.onWarp k w (fun wp => wp.mapStrands (fun _ x => s.freedWait k w x))).settleSpawn k w
    let s := s.pruneEdges k w
    let s := s.takeTraps k w
    if (Cells.find? s.teams k).isNone then s else s.onWarp k w (fun wp => wp.unmark.rechoose)

/-- The strand of a context that reads a poisoned line or a dead module for the program ends it (R358, R397). -/
def State.settleLost (s : State) : State :=
  s.allWarps.foldl (fun (s : State) x =>
    if (Cells.find? s.teams x.1).isNone then s
    else match ((s.warp x.1 x.2).allStrands).findSome? (fun y => match y.2.2.st with
        | .onFault p => if lostKind ≤ p.info.kind then some (p.info, y.2.2.pc) else none
        | _ => none) with
      | none => s
      | some (f, pc) => s.loseFor x.1 x.2 f pc) s

/-- Sends the reads of other modules' lines that the hardware makes, as their VFs' budgets allow (log 73). -/
def State.sendLines (s : State) : State :=
  s.accesses.foldl (fun (s : State) a =>
    if a.op == .line && s.ready a then (if s.budgetFor a then s.sendAccess a else s.waitCharge (s.context a.ctx).vf) else s) s

/-- Settles the whole module. -/
def State.settle (s : State) : State :=
  let s := s.sendLines.settleEvents
  let s := (Cells.keys s.teams).foldl (fun (s : State) k => if s.almanac k then s else s.settleBars k) s
  let cs := (List.filter (fun (t : Nat × Team) => !(s.almanac t.1)) s.teams).map (fun t => (t.2.launch, t.2.cluster))
  let s := cs.eraseDups.foldl (fun (s : State) c => s.settleClusterBars c.1 c.2) s
  let s := (Cells.keys s.cores).foldl (fun (s : State) c =>
    if (s.core c).bins.isEmpty then s else s.startBins c) s
  (s.allWarps.foldl (fun (s : State) x => s.settleWarp x.1 x.2) s).settleLost.pruneEchoes

end Sys2Proof.Machine
end

