-- ==== Sys2Proof/Machine/Events.lean ====
section
/-! DEFINITION. Events inside the cores and their memory paths: words that are no instruction, fetch faults, fault-queue
writes, returning results, performing accesses, updates reaching their sharers, ends of DOZE and of bin timers (R47, R121,
R160, R218, R262, R267, R340, R352). An event whose condition does not hold changes nothing (log 10). -/

namespace Sys2Proof.Machine

/-! ## Words and fetches -/

/-- ILLEGAL_OPCODE: a word with an unassigned opcode traps in every active lane (R47). -/
def execIllegalOpcode (w : DWord) (s : State) : Host.Outcome State Fault Refusal :=
  match decode w with
  | .ok (.illegalOpcode _) => trapWord s .illegalOpcode (hdrOf w) false
  | _ => .next s

/-- INSTRUCTION_FETCH_FAULT: the fetch for the issue in progress fails, and every lane of the strand parks at its PC on a
recoverable fault; no instruction has issued (R340). -/
def execInstructionFetchFault (s : State) : Host.Outcome State Fault Refusal :=
  match s.now with
  | none => .next s
  | some n =>
    let c := s.cx { n with commit := true } default none
    match n.units with
    | [] => .next s
    | u :: _ =>
      match s.fetchStrand (s.team n.team).core (s.team n.team).ctx (c.warp.strand u.1 u.2) with
      | (s1, .fault k m) =>
        .next (({ c with act := c.lanes } : Cx).finish false
          { s := s1
            ends := (laneList c.lanes).map (fun l => (l, .fault { kind := k, access := 3, va := n.pc, malformed := m })) })
      | (s1, _) => .next s1

/-! ## The fault queue (R352, R419) -/

/-- The next entry of a context that may be written: the oldest unwritten one, when its slot is free. -/
def Context.fqDue (c : Context) : Option FqEntry :=
  match c.entries.find? (fun e => !e.written) with
  | none => none
  | some e => if c.entries.any (fun f => f.seq + 4096 == e.seq) then none else some e

/-- The address of a fault-queue entry. -/
def Context.fqSlot (c : Context) (seq : Nat) : Nat := c.fq + 64 * (seq % 4096)

/-- A write of the device at a physical address, performed at system scope and seen by every L1 at once. -/
def State.deviceWrite (s : State) (pa n x : Nat) (lab : Label) : State := s.store {} (.dev pa) n x lab

/-- May the device write a range of its own memory: the host holds no half of it, and no pre-image is due? -/
def State.mayWrite (s : State) (pa n : Nat) : Bool := s.halfFree (.dev pa) n true && !s.preImageDue (.dev pa)

/-- FAULT_QUEUE_ENTRY_WRITE: one 64-byte write at system scope, then the VF's fault interrupt, vector 0; an entry of kind
0x20 raises vector 2 also (R352, R419). A queue outside the DRAM of R221 takes no bytes. -/
def execFaultQueueEntryWrite (vf ctx : Nat) (s : State) : Host.Outcome State Fault Refusal :=
  match s.ctxKey vf ctx with
  | none => .next s
  | some k =>
    let c := s.context k
    match c.fqDue with
    | none => .next s
    | some e =>
      let pa := c.fqSlot e.seq
      if !s.mayWrite pa 64 then .next s
      else
        let s := if rangeInDram pa 64 then s.deviceWrite pa 64 e.body.toNat e.lab else s
        let s := s.onContext k (fun c => { c with entries := c.entries.map (fun f =>
          if f.seq = e.seq then { f with written := true } else f) })
        let s := s.send (.msix (c.vf + 1) 0)
        .next (if e.kind = 0x20 then s.send (.msix (c.vf + 1) 2) else s)

/-! ## Performing accesses (R218, R262, R267, R422) -/

/-- Performs an access that is ready, when its VF's budget allows; else notes that the VF waited. -/
def State.tryPerform (s : State) (id : Nat) : State :=
  match s.accesses.find? (fun a => a.id == id) with
  | none => s
  | some a =>
    if !s.ready a then s
    else if s.budgetFor a then s.performAny a
    else s.waitCharge (s.context a.ctx).vf

/-- Is a result one of the matrix array's? -/
def State.onArray (s : State) (k w id : Nat) : Bool := (s.warp k w).results.any (fun r => r.id == id && r.kind == .matrix)

/-- The reads that a result waits for, among some lanes. A WAITGE of an Almanac warp reads at commit points only (R280), and
the array makes those of an MSCAC (R306). -/
def State.readsOf (s : State) (k w id : Nat) (lanes : Lanes) (bulk : Bool) : List Nat :=
  if s.onArray k w id then []
  else (s.accesses.filter (fun a => a.team == k && a.warp == w && a.res == id && a.op.loads &&
    (bulk || (lanes &&& lanesOf a.lanes != 0)) &&
    (match a.op with | .testGe _ => !s.almanac k | _ => true))).map (·.id)

/-- RESULT_RETURN: the reads that a result waits for are performed in the lanes named, and the result returns once it has
all it waits for (R23). -/
def execResultReturn (team warp id : Nat) (lanes : Lanes) (s : State) : Host.Outcome State Fault Refusal :=
  if (Cells.find? s.teams team).isNone then .next s
  else match (s.warp team warp).result? id with
    | none => .next s
    | some r =>
      let bulk := match r.kind with | .bulk _ _ _ _ => true | _ => false
      let s := (s.readsOf team warp id lanes bulk).foldl (fun (s : State) i => s.tryPerform i) s
      .next (s.returnResult team warp id)

/-- Performs an access when it is of the kind that an event names. -/
def State.performWhen (s : State) (id : Nat) (f : AccOp → Bool) : State :=
  match s.accesses.find? (fun a => a.id == id) with
  | none => s
  | some a => if f a.op then s.tryPerform id else s

/-- STORE_PERFORM: a store is performed at its home (R218). -/
def execStorePerform (id : Nat) (s : State) : Host.Outcome State Fault Refusal :=
  .next (s.performWhen id (fun o => match o with | .store _ => true | _ => false))

/-- ATOMIC_GROUP_PERFORM: the home performs one group (R262). -/
def execAtomicGroupPerform (id : Nat) (s : State) : Host.Outcome State Fault Refusal :=
  .next (s.performWhen id (fun o => match o with | .rmw _ _ _ | .cas _ _ => true | _ => false))

/-- STF_FLAG_ADD: a flag rises by 1 once its lane's data is performed (R267). -/
def execStfFlagAdd (id : Nat) (s : State) : Host.Outcome State Fault Refusal :=
  .next (s.performWhen id (fun o => o == .flagAdd))

/-- UPDATE_APPLY: a sharer applies an update to its copy, after those that the same home sent it earlier (R218, R384). -/
def execUpdateApply (id core : Nat) (s : State) : Host.Outcome State Fault Refusal :=
  match s.updates.find? (fun u => u.id == id && u.core == core) with
  | none => .next s
  | some u =>
    if (s.updates.takeWhile (fun v => v != u)).any (fun v => v.core == core && updateHome v.pa == updateHome u.pa) then .next s
    else .next { s.l1Write core u.pa u.bytes u.lab with updates := s.updates.erase u }

/-! ## Timers (R121, R160) -/

/-- DOZE_END: a strand whose DOZE has lasted its cycles is Ready (R121). -/
def execDozeEnd (team warp slice entry : Nat) (s : State) : Host.Outcome State Fault Refusal :=
  if (Cells.find? s.teams team).isNone || (Cells.find? (s.team team).warps warp).isNone then .next s
  else match ((s.warp team warp).strand slice entry).st with
    | .waiting (.doze since n) =>
      if since + n ≤ s.cycle then .next (s.onWarp team warp (fun w => w.onStrand slice entry Strand.wake)) else .next s
    | _ => .next s

/-- SPAWN_BIN_TIMER_EXPIRY: a bin whose timer has counted out starts a warp, at once or when a warp index frees (R160). -/
def execSpawnBinTimerExpiry (core bin : Nat) (s : State) : Host.Outcome State Fault Refusal :=
  let b := Cells.get (s.core core).bins bin
  match b.timer with
  | none => .next s
  | some t =>
    if t ≤ s.cycle ∧ !b.recs.isEmpty then
      .next (s.onCore core (fun c => { c with bins := Cells.put c.bins bin { b with timer := none, start := true } }))
    else .next s

end Sys2Proof.Machine
end

