-- ==== Sys2Proof/Machine/Delivery.lean ====
section
/-! DEFINITION. What a copy channel does over time: it delivers the units of its first transfer in order, its write pointer
follows, and the flag's increment ends the transfer (R254, R255, R333, R335, R358, R388, R395, R418, R422, R430). -/

namespace Sys2Proof.Machine

/-! ## What a copy may touch (R418, R421, R422) -/

/-- May a copy touch a place under its budget (R422)? A line that is not in L2 costs a DRAM transfer too. -/
def State.copyMay (s : State) (p : Place) : Bool :=
  match p with
  | .peer m _ _ => s.mayCharge copyActivity 3 (s.portTo m)
  | .dev _ => (match accessSlice p with | some i => s.mayCharge copyActivity 1 i | none => true) &&
      (s.inL2 p.lineKey || s.mayCharge copyActivity 0 (dramGroup p.lineKey))
  | .host _ _ | .scr _ _ => (match accessSlice p with | some i => s.mayCharge copyActivity 1 i | none => true)

/-- Charges a copy for a flit to another module. -/
def State.copyFlit (s : State) (m : Nat) : State := s.charge copyActivity 3 (s.portTo m) 4

/-- Charges a copy for the 64-byte transfers that it begins among k bytes from the n-th on, whose addresses a function gives. -/
def State.copyCharge (s : State) (p : Place) (addr : Nat → Nat) (n k : Nat) : State :=
  match accessSlice p with
  | none => s
  | some i =>
    let begins := ((List.range k).filter (fun j =>
      decide (n + j = 0) || decide (addr (n + j) / 64 ≠ addr (n + j - 1) / 64))).length
    if begins = 0 then s else s.charge copyActivity 1 i begins

/-- Does a flip to host bias pause a channel before a destination byte (R418)? -/
def State.flipPauses (s : State) (p : Place) : Bool :=
  match p with
  | .dev pa => decide (pa % 128 = 0) && s.flips.any (fun f => !f.toDevice && decide (f.frame / 4096 = pa / 4096))
  | .peer _ _ _ | .host _ _ | .scr _ _ => false

/-! ## A channel and its first transfer -/

/-- The transfers of a channel. -/
def State.chanXfers (s : State) (core ch : Nat) : List Xfer := (Cells.get (s.core core).chans ch).xfers

/-- Changes a channel. -/
def State.onChan (s : State) (core ch : Nat) (f : Chan → Chan) : State :=
  s.onCore core (fun c => { c with chans := Cells.modify c.chans ch f })

/-- Replaces the transfer at the head of a channel. -/
def State.setHead (s : State) (core ch : Nat) (x : Xfer) : State :=
  s.onChan core ch (fun z => { z with xfers := x :: z.xfers.drop 1 })

/-- Takes the first transfer off a channel. The free values of its bytes are used up (log 6). -/
def State.dropHead (s : State) (core ch : Nat) : State :=
  { s.onChan core ch (fun z => { z with xfers := z.xfers.drop 1 }) with free := s.free + 2 ^ 25 }

/-- The position of the next byte to write. -/
def Xfer.at_ (x : Xfer) : Nat := x.done + x.lag

/-- Counts bytes of the first transfer as delivered: the write pointer passes them (R333). -/
def State.countBytes (s : State) (core ch n : Nat) : State :=
  s.onChan core ch (fun z => { z with
    ptr := z.ptr + BitVec.ofNat 64 n
    xfers := match z.xfers with
      | [] => []
      | x :: rest => { x with done := x.done + n, inbuf := x.inbuf.drop n } :: rest })

/-- Counts bytes that the first transfer has written: they are delivered once their write is performed at the transfer's
scope, with all that the transfer has written before (R333). -/
def State.wrote (s : State) (core ch : Nat) (x : Xfer) (n : Nat) : State :=
  let due := x.lag + n
  if s.updating x.id x.scp x.team then
    s.onChan core ch (fun z => { z with xfers := match z.xfers with
      | [] => []
      | x :: rest => { x with lag := due, inbuf := x.inbuf.drop n } :: rest })
  else
    s.onChan core ch (fun z => { z with
      ptr := z.ptr + BitVec.ofNat 64 due
      xfers := match z.xfers with
        | [] => []
        | x :: rest => { x with done := x.done + due, lag := 0, inbuf := x.inbuf.drop n } :: rest })

/-- Does the byte at a position complete a whole line that the transfer has written? -/
def Xfer.fillsLine (x : Xfer) (n pa : Nat) : Bool :=
  decide (pa % 128 = 127) && decide (127 ≤ n) && decide (x.dstAt (n - 127) + 127 = x.dstAt n)

/-- A full write of a poisoned line clears its poison (R231, R358). -/
def State.clearPoison (s : State) (x : Xfer) (n : Nat) (p : Option Place) : State :=
  match p with
  | some (.dev pa) => if x.fillsLine n pa then { s with poison := s.poison.filter (· != pa / 128) } else s
  | some (.host v h) => if x.fillsLine n h then { s with poison := s.poison.filter (· != (Place.host v h).lineKey) } else s
  | _ => s

/-- Where the byte at a position comes from. -/
def Xfer.fromAt (x : Xfer) (n : Nat) : Option Place := placeIn x.srcMap (x.srcAt n)
/-- Where the byte at a position goes, unless it goes to a slot. -/
def Xfer.toAt (x : Xfer) (n : Nat) : Option Place := if x.toSlot then none else placeIn x.dstMap (x.dstAt n)

/-- The position of the next byte to read. -/
def Xfer.readAt (x : Xfer) : Nat := x.at_ + x.inbuf.length

/-- How many bytes go with the next byte to write: those of its aligned 8-byte unit, or of the 64 bytes that a flit to another
module takes. -/
def Xfer.unitDue (x : Xfer) : Nat :=
  match x.toAt x.at_ with
  | some (.peer _ _ _) => max 1 (x.unit x.at_ 64)
  | _ => max 1 (x.unit x.at_ 8)

/-- Is a CHRST of a channel about to reset it, its transfers having ended? Then no later transfer moves (R335). -/
def State.chrstDue (s : State) (core ch : Nat) : Bool :=
  s.teams.any (fun (t : Nat × Team) => t.2.core == core && t.2.warps.any (fun (w : Nat × Warp) =>
    w.2.allStrands.any (fun x => match x.2.2.st with
      | .held (.chrst c ids) => c == ch && s.gone core ids
      | _ => false)))

/-- Ends the context of a transfer that meets a poisoned line; the transfer leaves its channel (R352, R358, R359). -/
def State.copyPoison (s : State) (core ch : Nat) (x : Xfer) (va : Nat) (lab : Label) : State :=
  (s.dropHead core ch).endContext x.ctx
    { reason := 3, va := BitVec.ofNat 64 va, global := s.warpGlobal x.team x.warp, pc := x.pc
      serial := (s.launch (s.team x.team).launch).serial, lab := lab ||| (s.warp x.team x.warp).lbfloor }

/-- Does a transfer stand where a bind-off stops it: at a 128-byte boundary of its destination, not begun, or stopped (R374)? -/
def Xfer.atLine (x : Xfer) : Bool :=
  x.wire.isNone && (x.stuck || x.at_ == 0 || decide (x.total ≤ x.at_) || decide (x.dstAt x.at_ % 128 = 0))

/-- Does a bind-off stop the transfer of a channel here? -/
def State.unbinds (s : State) (x : Xfer) : Bool := (s.context x.ctx).unbinding && x.atLine

/-- Stops a transfer at a unit that fails its egress check (R430). -/
def State.copyStop (s : State) (core ch : Nat) (x : Xfer) : State := s.setHead core ch { x with stuck := true }

/-! ## Reading -/

/-- Must the next read wait: for a half that the host holds, or for the budget? -/
def State.readBlocked (s : State) (x : Xfer) : Bool :=
  match x.fromAt x.readAt with
  | some p => !s.halfFree p (max 1 (x.reach x.readAt 8)) false || !s.copyMay p
  | none => false

/-- Asks another module for the next bytes of a transfer's source, within 16-byte alignment. -/
def State.copyAsk (s : State) (core ch : Nat) (x : Xfer) (m pvf pa : Nat) : State :=
  let k := max 1 (x.reach x.readAt 16)
  let s := s.setHead core ch { x with wire := some (s.nextId, k) }
  (s.copyFlit m).fresh.sendFlit m (domNet x.dom) 0 []
    (.request s.nextId pvf (BitVec.ofNat 64 pa) (s.responseOrigins x.ctx) x.scp (.load k false))

/-- Reads the next bytes of a transfer, an aligned unit of 8 at most, until those of the next unit to write are there. The
answer says whether they are. -/
def State.chanFill (s : State) (core ch : Nat) : Nat → State × Bool
  | 0 => (s, false)
  | fuel + 1 =>
    match s.chanXfers core ch with
    | [] => (s, false)
    | x :: _ =>
      if x.unitDue ≤ x.inbuf.length then (s, true)
      else if s.readBlocked x then
        (match x.fromAt x.readAt with
         | some p => if s.copyMay p then (s, false) else (s.waitCharge copyActivity, false)
         | none => (s, false))
      else
        let n := x.readAt
        let k := max 1 (x.reach n 8)
        match x.fromAt n with
        | some (.peer m v pa) => (s.copyAsk core ch x m v pa, false)
        | some p =>
          if s.poisoned p k then (s.copyPoison core ch x (x.srcAt n) x.aim, false)
          else
            let r := (s.copyCharge p x.srcAt n k).copyGet x n k
            (r.1.setHead core ch { x with inbuf := x.inbuf ++ r.2 }).chanFill core ch fuel
        | none => (s.setHead core ch { x with inbuf := x.inbuf ++ [(0, 0)] }).chanFill core ch fuel

/-! ## Writing -/

/-- Must the next write wait: for a half that the host holds, a pre-image, a flip or the budget? -/
def State.writeBlocked (s : State) (x : Xfer) : Bool :=
  match x.toAt x.at_ with
  | some p => !s.halfFree p x.unitDue true || s.preImageDue p || s.flipPauses p || !s.copyMay p
  | none => false

/-- Must a transfer's next move wait? -/
def State.copyBlocked (s : State) (x : Xfer) : Bool :=
  (decide (x.inbuf.length < x.unitDue) && s.readBlocked x) || s.writeBlocked x

/-- How many of the bytes of a flit pass the egress re-check, up to a unit of 8 (R430). -/
def Xfer.passing (x : Xfer) (k : Nat) : Nat :=
  let mask := ((pageOf x.dstMap (x.dstAt x.at_)).map (·.mask)).getD 0xFFFF
  let p := ((x.inbuf.take k).takeWhile (fun b => (b.2 ||| x.lab) &&& ~~~mask == 0)).length
  if p = k then k
  else p - min p ((x.dstAt x.at_ + p) % 8)

/-- Sends the next bytes of a transfer to another module, on the network of its domain (R395). -/
def State.copySend (s : State) (core ch : Nat) (x : Xfer) (m pvf pa : Nat) : State :=
  let k := x.passing x.unitDue
  if k = 0 then s.copyStop core ch x
  else
    let got := x.inbuf.take k
    let lab := got.foldl (fun (l : Label) b => l ||| b.2) x.lab
    let s := s.setHead core ch { x with wire := some (s.nextId, k) }
    (s.copyFlit m).fresh.sendFlit m (domNet x.dom) lab []
      (.request s.nextId pvf (BitVec.ofNat 64 pa) (s.responseOrigins x.ctx) x.scp (.copyData (got.map (·.1))))

/-- Writes the next unit of a transfer here or into a slot. -/
def State.copyOne (s : State) (core ch : Nat) (x : Xfer) : State :=
  let n := x.at_
  let k := x.unitDue
  match s.copyPut x n (x.inbuf.take k) with
  | none => s.copyStop core ch x
  | some s =>
    let s := match x.toAt n with | some p => s.copyCharge p x.dstAt n k | none => s
    (s.clearPoison x (n + k - 1) (x.toAt (n + k - 1))).wrote core ch x k

/-- One move of a channel's first transfer: the next unit, read and written, or a message to another module. None when it must
wait. -/
def State.chanStep (s : State) (core ch : Nat) : Option State :=
  match s.chanXfers core ch with
  | [] => none
  | x :: _ =>
    if x.stuck || x.wire.isSome || decide (x.total ≤ x.at_) || s.chrstDue core ch || s.unbinds x then none
    else if s.copyBlocked x then
      (if (match x.fromAt x.readAt with | some p => !s.copyMay p | none => false) ||
          (match x.toAt x.at_ with | some p => !s.copyMay p | none => false) then some (s.waitCharge copyActivity) else none)
    else
      let r := s.chanFill core ch 64
      match r.2, r.1.chanXfers core ch with
      | true, y :: _ =>
        (match y.toAt y.at_ with
         | some (.peer m v pa) => some (r.1.copySend core ch y m v pa)
         | _ => some (r.1.copyOne core ch y))
      | _, _ => some r.1

/-- Counts what the first transfer has written once it is performed, and ends the transfer once its bytes are delivered: its
flag rises (R333), here or at the module that holds it. One that a bind-off stops leaves without it (R374). -/
def State.chanFinish (s : State) (core ch : Nat) : State :=
  let s := match s.chanXfers core ch with
    | [] => s
    | x :: _ => if x.lag = 0 then s else s.wrote core ch x 0
  match s.chanXfers core ch with
  | [] => s
  | x :: _ =>
    if s.unbinds x then (if x.lag = 0 then s.dropHead core ch else s)
    else if x.stuck || x.wire.isSome || decide (x.done < x.total) then s
    else if x.flag = 0 then s.dropHead core ch
    else match placeIn x.flagMap x.flag.toNat with
      | none => s.dropHead core ch
      | some (.peer m v pa) =>
        let s := s.setHead core ch { x with wire := some (s.nextId, 0) }
        (s.copyFlit m).fresh.sendFlit m (domNet x.dom) x.flagLab []
          (.request s.nextId v (BitVec.ofNat 64 pa) (s.responseOrigins x.ctx) x.scp (.copyFlag (BitVec.ofNat 64 pa) x.flagLab))
      | some p =>
        if s.poisoned p 8 then s.copyPoison core ch x x.flag.toNat x.flagLab
        else if s.halfFree p 8 true && !s.preImageDue p then (s.copyFlag x).dropHead core ch else s

/-- A channel moves up to n units, and begins its next transfer when one ends. -/
def State.chanRun (s : State) (core ch : Nat) : Nat → State
  | 0 => s
  | n + 1 =>
    match s.chanStep core ch with
    | none => s.chanFinish core ch
    | some t => (t.chanFinish core ch).chanRun core ch n

/-- COPY_DELIVERY: a channel delivers units in order (R333). -/
def execCopyDelivery (core ch n : Nat) (s : State) : Host.Outcome State Fault Refusal :=
  let s1 := s.chanRun core ch n
  .next { s1 with free := s1.free + 2 ^ 25 }

end Sys2Proof.Machine
end

