-- ==== Sys2Proof/Machine/Record.lean ====
section
/-! DEFINITION. Recording and replaying the order of the requests to watch windows: the log, the order points, the gates,
the checkpoints of the running hash (R284-R288). -/

namespace Sys2Proof.Machine

/-! ## The log (R286) -/

/-- The activity that logging is charged to (R421). -/
def logActivity : Nat := 35

/-- What a read of a launch's log gives: its word, nothing where it fails, or the place of another module's line that is to be
read first (log 73). -/
inductive LogWord where
  | word (x : DWord)
  | failed
  | ask (p : Place)
  deriving DecidableEq, Repr

/-- Reads a 64-bit word of a launch's log. -/
def State.logRead (s : State) (ctx : Nat) (va : DWord) : State × LogWord :=
  match s.walkPlace ctx va .read with
  | (s, none) => (s, .failed)
  | (s, some p) =>
    if !s.hasLine p then (s, .ask p)
    else if s.badLine p || (p.remote && (Cells.get s.remote p.lineKey).egress) then (s, .failed)
    else
      let s := s.hostGet p 8 false
      (s, .word (BitVec.ofNat 64 (s.readHome p 8)))

/-- Writes a 64-bit word of a launch's log with the empty label, as a BU store at system scope; a write that does not translate
is dropped. One to another module is on its way until that module has it. -/
def State.logWrite (s : State) (l : Nat) (va : DWord) (x : Nat) : State :=
  let ctx := (s.launch l).ctx
  let who : Who := { s.whoOf ctx with act := some logActivity }
  match s.walkPlace ctx va .write with
  | (s, none) => s
  | (s, some p) =>
    let s := match accessSlice p with | some i => s.charge logActivity 1 i 1 | none => s
    match p with
    | .peer _ _ _ => s.queue { id := 0, team := goneTeam, warp := l, core := 0, ctx, lanes := [], dom := .bu, scp := .sys,
                               place := p, va, size := 8, op := .store (BitVec.ofNat 1024 x), instr := s.nextId }
    | .dev _ | .host _ _ | .scr _ _ => s.fresh.store { id := s.nextId, dom := .bu, who } p 8 x 0

/-- May the log be written under its budget (R422)? -/
def State.logMay (s : State) (ctx : Nat) (va : DWord) : Bool :=
  match (s.walkPlace ctx va .write).2 with
  | some p => (match accessSlice p with | some i => s.mayCharge logActivity 1 i | none => true)
  | none => true

/-- Translates the n pages from one on. -/
def State.logPages (s : State) (ctx page : Nat) (need : Need) : Nat → State × Bool
  | 0 => (s, true)
  | n + 1 =>
    match s.walkPlace ctx (BitVec.ofNat 64 (4096 * (page + n))) need with
    | (s, some _) => s.logPages ctx page need n
    | (s, none) => (s, false)

/-- What the check of a log before the first team is placed gives: CAP and COUNT, failure, or a line that is to be read. -/
inductive LogCheck where
  | ok (cap count : Nat)
  | failed
  | ask (p : Place)
  deriving DecidableEq, Repr

/-- The check of a log before the first team is placed: CAP and COUNT, and every page of what they cover. -/
def State.logCheck (s : State) (ctx : Nat) (h : Header) : State × LogCheck :=
  match s.logRead ctx h.log with
  | (s, .failed) => (s, .failed)
  | (s, .ask p) => (s, .ask p)
  | (s, .word cap) =>
    match s.logRead ctx (h.log + 8) with
    | (s, .failed) => (s, .failed)
    | (s, .ask p) => (s, .ask p)
    | (s, .word count) =>
      let n := 64 + 8 * (if h.record then cap.toNat else count.toNat)
      let first := h.log.toNat / 4096
      let pages := (h.log.toNat + n - 1) / 4096 + 1 - first
      match s.logPages ctx first (if h.record then .flag else .read) pages with
      | (s, true) => (s, .ok cap.toNat (if h.record then 0 else count.toNat))
      | (s, false) => (s, .failed)

/-- A chunk (R286). -/
def chunkOf (flags win len warp : Nat) : Nat := flags * 2 ^ 59 + win * 2 ^ 56 + len * 2 ^ 40 + warp % 2 ^ 40

/-- Appends a chunk to the log of a launch; when it is full, logging stops and the overflow bit is set. -/
def State.logAppend (s : State) (l : Nat) (chunk : Nat) : State :=
  let x := s.launch l
  if x.overflow then s
  else if x.cap ≤ x.count then
    (s.onLaunch l (fun y => { y with overflow := true })).logWrite l (x.hdr.log + 16) 1
  else
    let s := s.logWrite l (x.hdr.log + BitVec.ofNat 64 (64 + 8 * x.count)) chunk
    (s.onLaunch l (fun y => { y with count := x.count + 1 })).logWrite l (x.hdr.log + 8) (x.count + 1)

/-- Changes the gate of a window. -/
def State.onGate (s : State) (l win : Nat) (f : Gate → Gate) : State :=
  s.onLaunch l (fun x => { x with gates := Cells.put x.gates win (f (Cells.get x.gates win)) })

/-- The gate of a window. -/
def State.gate (s : State) (l win : Nat) : Gate := Cells.get (s.launch l).gates win

/-- Closes the open run of a window. -/
def State.closeRun (s : State) (l win : Nat) : State :=
  match (s.gate l win).run with
  | none => s
  | some (w, n) => (s.logAppend l (chunkOf 0 win n w)).onGate l win (fun g => { g with run := none })

/-- Closes the runs of every window: the last team has retired (R294). -/
def State.closeRuns (s : State) (l : Nat) : State :=
  if (s.launch l).hdr.record then (List.range 8).foldl (fun (s : State) w => s.closeRun l w) s else s

/-! ## Requests -/

/-- Is an access a request that waits at a window's order point in a launch? -/
def State.heldAt (s : State) (l win : Nat) (a : Access) : Bool :=
  a.window == some win && !a.passed && (s.team a.team).launch == l && (Cells.find? s.teams a.team).isSome

/-- May a request reach its order point: its warp's earlier requests to the window have passed, and what it waits for is
performed or has passed an order point. -/
def State.reaches (s : State) (l win : Nat) (a : Access) : Bool :=
  !(s.accesses.any (fun b => decide (b.id < a.id) && b.team == a.team && b.warp == a.warp && s.heldAt l win b)) &&
  a.after.all (fun x => !s.pendingAt a.team x.1 x.2 ||
    s.accesses.any (fun b => b.id == x.1 && b.window.isSome && b.passed))

/-- A request passes: it may be performed once the requests that passed the window before it are. -/
def State.passAccess (s : State) (l win : Nat) (a : Access) : State :=
  let before := (s.accesses.filter (fun b => b.window == some win && b.passed && (s.team b.team).launch == l)).map
    (fun b => (b.id, Scope.team))
  { s with accesses := s.accesses.map (fun (b : Access) =>
      if b.id = a.id then { b with passed := true, after := b.after ++ before } else b) }

/-- A store's record joins the hash when it passes its last gate; an atomic's joins when it is performed (R287). -/
def State.hashPass (s : State) (a : Access) : State :=
  match a.op with
  | .store _ => s.settleHash a.team a.warp a.id []
  | _ => s

/-- Puts a token into a warp's hash queue behind the instruction of an access. -/
def insertToken (token access : Nat) : List HashEnt → List HashEnt
  | [] => [{ instr := 0, lab := 0, wait := [token], recs := [] }]
  | e :: rest =>
    if e.wait.contains access then e :: { instr := 0, lab := 0, wait := [token], recs := [] } :: rest
    else e :: insertToken token access rest

/-- Asks for the hash of a request's warp just after the request's instruction: at a checkpoint (R286, R288). -/
def State.askHash (s : State) (l win : Nat) (a : Access) (slot : Nat) (logged : DWord) : State :=
  let token := s.nextId
  let s := s.fresh.onWarp a.team a.warp (fun w => { w with hashQ := insertToken token a.id w.hashQ })
  s.onGate l win (fun g => { g with checks := g.checks ++
    [{ token, team := a.team, warp := a.warp, slot, logged, access := a.id, lanes := a.lanes }] })

/-! ## Recording (R286) -/

/-- A request passes its order point in a RECORD launch. -/
def State.recordPass (s : State) (l win : Nat) (a : Access) : State :=
  let g := s.warpGlobal a.team a.warp
  let s := match (s.gate l win).run with
    | some (w, _) => if w = g then s else s.closeRun l win
    | none => s
  let n : Nat := (match (s.gate l win).run with | some r => r.2 | none => 0) + 1
  let passed := (s.gate l win).passed + 1
  let s := s.onGate l win (fun y => { y with run := some (g, n), passed := passed })
  let s := if n = 65535 ∨ passed % 1024 = 0 then s.closeRun l win else s
  let s :=
    if passed % 1024 = 0 ∧ !(s.launch l).overflow then
      let s := s.logAppend l (chunkOf 1 win 0 g)
      let slot := (s.launch l).count
      let s := s.logAppend l 0
      if (s.launch l).overflow then s else s.askHash l win a slot 0
    else s
  (s.passAccess l win a).hashPass a

/-! ## Replaying (R288) -/

/-- What a gate's cursor stands at. -/
inductive AtCursor where
  | done
  | bad
  | run (cursor warp len : Nat)
  | mark (cursor : Nat)
  | ask (p : Place)
  deriving DecidableEq, Repr

/-- Moves a cursor over the chunks of other windows, looking at up to n chunks. -/
def State.seek (s : State) (ctx : Nat) (log : DWord) (count win : Nat) : Nat → Nat → State × AtCursor
  | 0, _ => (s, .done)
  | n + 1, k =>
    if count ≤ k then (s, .done)
    else match s.logRead ctx (log + BitVec.ofNat 64 (64 + 8 * k)) with
      | (s, .failed) => (s, .bad)
      | (s, .ask p) => (s, .ask p)
      | (s, .word c) =>
        let w := field c 58 56
        if field c 63 59 = 0 then
          if w = win ∧ field c 55 40 ≠ 0 then (s, .run k (field c 39 0) (field c 55 40))
          else s.seek ctx log count win n (k + 1)
        else if field c 63 59 = 1 then
          if w = win then (s, .mark k) else s.seek ctx log count win n (k + 2)
        else (s, .bad)

/-- The chunk at a window's cursor. -/
def State.atCursor (s : State) (l win : Nat) : State × AtCursor :=
  let x := s.launch l
  s.seek x.ctx x.hdr.log x.count win (x.count + 1) (s.gate l win).cursor

/-- The run at a cursor; a marker that no request of this launch came before is skipped with its hash. -/
def State.atRun (s : State) (l win : Nat) : Nat → State × AtCursor
  | 0 => (s, .bad)
  | n + 1 =>
    match s.atCursor l win with
    | (s, .mark k) => (s.onGate l win (fun g => { g with cursor := k + 2, used := 0 })).atRun l win n
    | r => r

/-- Has a warp of a launch retired (R288, R296)? -/
def State.hasRetired (s : State) (l g : Nat) : Bool :=
  (s.launch l).retiredWarps.contains g &&
  !(s.teams.any (fun t => t.2.launch == l && t.2.warps.any (fun w => s.warpGlobal t.1 w.1 == g)))

/-- REPLAY_DIVERGE in the lanes of a request. -/
def diverge (win : Nat) (lanes : List Nat) (after : Bool) : List (Nat × LaneEnd) :=
  lanes.map (fun l => (l, .trap { lane := l, cause := .replayDiverge, detail := BitVec.ofNat 64 win } after))

/-- A request that diverges is not performed: its lanes trap, write nothing and hash nothing. -/
def State.divergeOne (s : State) (win : Nat) (a : Access) : State :=
  let s := { s with accesses := s.accesses.filter (fun b =>
    b.id != a.id && !(b.op == .flagAdd && b.after.any (fun x => x.1 == a.id))) }
  let s := a.lanes.foldl (fun (s : State) l => if a.res = 0 then s else s.undeliver a.team a.warp a.res l) s
  let s := s.onWarp a.team a.warp (fun w => ({ w with hashQ := w.hashQ.map (fun e =>
    if e.wait.contains a.id then
      { e with wait := e.wait.filter (· != a.id), recs := e.recs.filter (fun r => !a.lanes.contains r.1) }
    else e) } : Warp).drain)
  s.passLate a.id (diverge win a.lanes false)

/-- Requests diverge, and the window's gate holds nothing more (R288). -/
def State.divergeAll (s : State) (l win : Nat) (as : List Access) : State :=
  as.foldl (fun (s : State) a => if (Cells.find? s.teams a.team).isNone then s else s.divergeOne win a)
    (s.onGate l win (fun g => { g with open_ := true }))

/-- A request passes a gate unheld. -/
def State.passFree (s : State) (l win : Nat) (a : Access) : State :=
  ((s.passAccess l win a).hashPass a).passLate a.id []

/-- A request passes under the run at the cursor; a checkpoint that follows it is compared before its lanes go on. A marker
with no hash chunk below COUNT, which an overflow leaves, compares nothing. A hash chunk that cannot be read counts as one
with reserved FLAGS (R286). -/
def State.replayPass (s : State) (l win : Nat) (a : Access) (cursor len : Nat) : State :=
  let used := (if (s.gate l win).cursor = cursor then (s.gate l win).used else 0) + 1
  if used < len then
    (s.onGate l win (fun g => { g with cursor := cursor, used := used })).passFree l win a
  else
    let s1 := s.onGate l win (fun g => { g with cursor := cursor + 1, used := 0 })
    match s1.atCursor l win with
    | (s1, .mark k) =>
      let x := s1.launch l
      if x.count ≤ k + 1 then (s1.onGate l win (fun g => { g with cursor := k + 2 })).passFree l win a
      else
        (match s1.logRead x.ctx (x.hdr.log + BitVec.ofNat 64 (64 + 8 * (k + 1))) with
         | (_, .ask p) => s.askDevice x.ctx l p
         | (s1, .failed) =>
           let s1 := s1.passFree l win a
           s1.divergeAll l win (s1.accesses.filter (s1.heldAt l win))
         | (s1, .word v) =>
           let s1 := s1.onGate l win (fun g => { g with cursor := k + 2 })
           ((s1.askHash l win a (k + 1) v).passAccess l win a).hashPass a)
    | (_, .ask p) => s.askDevice (s1.launch l).ctx l p
    | (s1, _) => s1.passFree l win a

/-- What a gate does with a request that reaches it. -/
def State.replayGate (s : State) (l win : Nat) (a : Access) : State :=
  if (s.gate l win).open_ then s.passFree l win a
  else
    match s.atRun l win ((s.launch l).count + 1) with
    | (_, .ask p) => s.askDevice (s.launch l).ctx l p
    | (s, .done) => s.divergeAll l win [a]
    | (s, .bad) | (s, .mark _) => s.divergeAll l win (s.accesses.filter (s.heldAt l win))
    | (s, .run k w len) =>
      if w = s.warpGlobal a.team a.warp % 2 ^ 40 then s.replayPass l win a k len
      else if s.hasRetired l w then s.divergeAll l win (s.accesses.filter (s.heldAt l win))
      else s

/-- ORDER_POINT_PASS: a window's order point passes a request, or its gate holds it (R285, R286, R288). -/
def execOrderPointPass (id : Nat) (s : State) : Host.Outcome State Fault Refusal :=
  match s.accesses.find? (fun a => a.id == id) with
  | none => .next s
  | some a =>
    match a.window with
    | none => .next s
    | some win =>
      let l := (s.team a.team).launch
      let h := (s.launch l).hdr
      if !s.heldAt l win a || !s.reaches l win a then .next s
      else if h.record then
        if s.logMay (s.launch l).ctx (h.log + 8) then .next (s.recordPass l win a) else .next (s.waitCharge logActivity)
      else
        let t := s.replayGate l win a
        .next (if t.heldAt l win a then t else t.forgetLines goneTeam l)

/-! ## Checkpoints whose hash is known -/

/-- Does a warp's hash stand just where a token asks for it? -/
def Warp.tokenDue (w : Warp) (token : Nat) : Bool :=
  match w.hashQ with
  | [] => false
  | e :: _ => e.wait == [token]

/-- Takes a token out of a hash queue. -/
def Warp.dropToken (w : Warp) (token : Nat) : Warp :=
  ({ w with hashQ := w.hashQ.filter (fun e => e.wait != [token]) } : Warp).drain

/-- Serves a checkpoint: RECORD writes the hash into its slot; REPLAY compares it once the request's access has been
performed (R258, R286, R288). -/
def State.serveCheck (s : State) (l win : Nat) (c : GateCheck) : State :=
  if (Cells.find? s.teams c.team).isNone || !(s.warp c.team c.warp).tokenDue c.token ||
      ((s.launch l).hdr.replay && s.accesses.any (fun a => a.id == c.access)) then s
  else
    let hash := (s.warp c.team c.warp).sthash
    let x := s.launch l
    let s := s.onGate l win (fun g => { g with checks := g.checks.filter (fun y => y.token != c.token) })
    let s := s.onWarp c.team c.warp (fun w => w.dropToken c.token)
    if x.hdr.record then s.logWrite l (x.hdr.log + BitVec.ofNat 64 (64 + 8 * c.slot)) hash.toNat
    else if hash = c.logged then s.passLate c.access []
    else (s.onGate l win (fun g => { g with open_ := true })).passLate c.access (diverge win c.lanes true)

/-- Serves the checkpoints of every launch whose hash is known. -/
def State.settleChecks (s : State) : State :=
  s.launches.foldl (fun (s : State) (l : Nat × Launch) =>
    l.2.gates.foldl (fun (s : State) (g : Nat × Gate) =>
      g.2.checks.foldl (fun (s : State) c => s.serveCheck l.1 g.1 c) s) s) s

end Sys2Proof.Machine
end

