-- ==== Sys2Proof/Machine/Save.lean ====
section
/-! DEFINITION. Taking teams off their cores whole and putting them back: when a save may take effect, what it holds, the
save frames, where a restored team fits (R206, R314, R336, R363-R370). -/

namespace Sys2Proof.Machine

/-! ## When a save takes effect (R363-R365) -/

/-- Does a matrix instruction stand where a save takes effect: an MMA that is not running (R314)? -/
def MatEnt.savable (m : MatEnt) : Bool := m.stepCycles != 0 && m.start.isNone

/-- Is an access a load whose value has not returned? A save treats it as not issued (R365). -/
def Access.reissues (a : Access) : Bool :=
  match a.op with
  | .load | .label => a.res != 0
  | .line | .testGe _ | .store _ | .rmw _ _ _ | .cas _ _ | .flagAdd => false

/-- The accesses of a team that a save does not wait for: its loads, and the reads of a WAITGE (R269, R365). -/
def Access.unissued (a : Access) : Bool := a.reissues || (match a.op with | .testGe _ => true | _ => false)

/-- May a strand be saved in its state? -/
def StrandSt.savable (open_ : Nat → Bool) : StrandSt → Bool
  | .held h => (match h with
    | .chrst _ _ | .srel _ _ | .hash => false
    | .late id => open_ id
    | .marker | .trap | .chan _ | .drain _ | .port | .commit => true)
  | .waiting (.matrix _) => false
  | .ready | .atJoin | .atRegang | .onFault _ | .waiting _ => true

/-- May a result be in flight while its warp is saved: a matrix instruction's, a WAITGE's, a load's? -/
def ResKind.savable : ResKind → Bool
  | .matrix | .ge _ _ _ _ _ | .mem _ _ _ _ _ _ => true
  | .done | .fence _ | .iinv _ | .bulk _ _ _ _ => false

/-- Does an instruction that waits for checks elsewhere wait as a WAITGE? -/
def State.geLate (s : State) (l : Late) : Bool :=
  (s.warp l.now.team l.now.warp).results.any (fun r => r.id == l.id && (match r.kind with | .ge _ _ _ _ _ => true | _ => false))

/-- Does an instruction wait for loads alone, which will be issued again? -/
def State.loadLate (s : State) (l : Late) : Bool :=
  l.waits.all (fun i => s.accesses.any (fun a => a.id == i && a.reissues))

/-- May a strand of the state be saved? -/
def State.savableSt (s : State) (x : StrandSt) : Bool :=
  x.savable (fun i => s.late.any (fun l => l.id == i && s.loadLate l))

/-- May a team be taken off its core now? Never within a commit point (R281). -/
def State.savable (s : State) (k : Nat) : Bool :=
  let t := s.team k
  (s.launch t.launch).commit.isNone &&
  t.warps.all (fun w =>
    w.2.results.all (fun r => r.kind.savable) && w.2.hashQ.isEmpty &&
    w.2.slices.all (fun x => x.2.strands.all (fun y => s.savableSt y.2.st))) &&
  s.accesses.all (fun a => a.team != k || a.unissued) &&
  s.updates.all (fun u => u.team != k) && s.echoes.all (fun e => e.team != k || e.home.isSome) &&
  s.late.all (fun l => l.now.team != k || s.geLate l || s.loadLate l) &&
  (s.core t.core).matrix.all (fun m => m.team != k || m.savable) &&
  (s.core t.core).chans.all (fun c => c.2.xfers.all (fun x => x.team != k || x.stuck))

/-! ## What a save holds (R364) -/

/-- A strand as a save holds it: a DOZE ends, a WAITGE, a LAUNCH.W and a held instruction that has not issued will issue
again (R121, R182, R269). -/
def Strand.toSave (x : Strand) : Strand :=
  match x.st with
  | .waiting (.doze _ _) => x.wake
  | .waiting (.ge _) | .waiting .launch | .held (.chan _) | .held .port | .held (.drain _) => { x with st := .ready }
  | _ => x

/-- A warp as a save holds it, with the count of steps of its interrupted MMA (R314); of its edges those that name loads. -/
def Warp.toSave (w : Warp) (steps : Option Nat) (loads : List Access) : Warp :=
  let w := w.mapStrands (fun _ x => x.toSave)
  let left (ids : List (Nat × Scope)) : List (Nat × Scope) := ids.filter (fun i => loads.any (fun a => a.id == i.1))
  { w with
    results := w.results.filter (fun r => match r.kind with | .ge _ _ _ _ _ => false | _ => true)
    edges := (w.edges.map (fun e => { e with ids := left e.ids })).filter (fun e => !e.ids.isEmpty)
    progress := match steps with | some n => BitVec.ofNat 32 (n % 16) | none => w.progress }

/-- A team as a save holds it. -/
def State.toSave (s : State) (k : Nat) : SavedTeam :=
  let t := s.team k
  let c := s.core t.core
  let mine := c.matrix.filter (fun m => m.team == k)
  let steps (w : Nat) : Option Nat :=
    ((mine.filter (fun m => m.warp == w && m.stopAt.isSome)).map (·.steps)).getLast?
  let loads := s.accesses.filter (fun a => a.team == k && a.reissues)
  { key := k
    team := { t with leaving := false, stalled := false, frames := []
                     warps := t.warps.map (fun w => (w.1, w.2.toSave (steps w.1) loads)) }
    views := (List.range 4).map (fun n => s.chanView k n)
    slots := List.filter (fun (o : Nat × OpSlot) => o.2.holder == some k) c.slots
    bins := (List.filter (fun (b : Nat × Bin) => b.2.team == k && !b.2.recs.isEmpty) c.bins).map (fun b =>
      { b.2 with timer := b.2.timer.map (fun x => x - s.cycle) })
    matrix := mine
    loads := loads.map (fun a => { a with sent := false, after := a.after.filter (fun i => loads.any (fun b => b.id == i.1)) })
    lates := s.late.filter (fun l => l.now.team == k && !s.geLate l) }

/-- Takes a team off its core into a save: lane-local lines of the core go to memory (R215). -/
def State.takeTeam (s : State) (k : Nat) : State × SavedTeam :=
  let x := s.toSave k
  let s := s.writeBackLocal (s.team k).core (fun _ => true)
  let s := s.removeTeam k
  ({ s with accesses := s.accesses.filter (fun a => a.team != k) }, x)

/-! ## Save frames (R366-R369) -/

/-- Granules of a launch's team. -/
def Header.granules (h : Header) : Nat := h.rfg + h.scrg + h.accg

/-- Frames of a team's state (R368). -/
def State.framesOf (s : State) (x : SavedTeam) : Nat :=
  let h := (s.launch x.team.launch).hdr
  4 * h.granules + 1 + h.warps + 9 * x.slots.length + 16 * (x.matrix.filter (fun m => m.steps != 0)).length + x.bins.length +
  x.team.warps.foldl (fun n w => n + (w.2.cbuf.length + 127) / 128) 0

/-- Frames of a save: header, state, extensions (R368). -/
def State.framesNeeded (s : State) (xs : List SavedTeam) : Nat :=
  let f := xs.foldl (fun n x => n + s.framesOf x) 0
  1 + f + (if f ≤ 503 then 0 else (f - 503 + 510) / 511)

/-- The labels of an entry of a commit buffer. -/
def CEntry.labels : CEntry → Label
  | .accesses as => as.foldl (fun l a => l ||| a.lab ||| a.aim) 0
  | .tile _ _ _ _ lab => lab
  | .copy _ x => x.lab ||| x.flagLab
  | .spawn recs clr _ => recs.foldl (fun (l : Label) r => l ||| r.2.lab) ((clr.map (fun c => c.2.2)).getD 0)
  | .event _ _ | .flush _ => 0

/-- The labels of what a strand waits with: the addresses of its faults, the records of a SPAWN.W. -/
def StrandSt.labels : StrandSt → Label
  | .onFault p => p.each.foldl (fun (l : Label) f => l ||| f.2.lab) p.info.lab
  | .waiting (.spawn recs) => recs.foldl (fun l r => l ||| r.2.lab) 0
  | .ready | .held _ | .atJoin | .atRegang | .waiting _ => 0

/-- The labels of a warp's pending traps, parked strands, commit buffer and results in flight. -/
def Warp.savedLab (w : Warp) : Label :=
  let l := w.slices.foldl (fun (l : Label) (x : Nat × Slice) =>
    x.2.strands.foldl (fun l y => l ||| y.2.st.labels)
      (x.2.pending.foldl (fun l t => t.lanes.foldl (fun l y => l ||| y.lab) l) l)) 0
  let l := w.cbuf.foldl (fun l e => l ||| e.labels) l
  w.results.foldl (fun l r => r.regs.foldl (fun l y => l ||| y.2) (l ||| r.src ||| r.kind.lab)) l

/-- The labels of a matrix instruction. -/
def MatEnt.savedLab (m : MatEnt) : Label :=
  m.guardLab ||| m.extra ||| m.codebookLab |||
  (match m.op with | .mma _ _ _ _ _ _ _ _ la lb _ => la ||| lb | .mscac _ _ _ _ _ => 0)

/-- The union of the labels of a saved team's state (R369). -/
def SavedTeam.labels (x : SavedTeam) : Label :=
  let all (m : Cells Label) (l : Label) : Label := m.foldl (fun l y => l ||| y.2) l
  let t := x.team
  let l := t.warps.foldl (fun (l : Label) w =>
    all w.2.vLab (all w.2.pLab (all w.2.wLab (all w.2.gLab (l ||| w.2.lbfloor ||| w.2.sthashLab ||| w.2.savedLab))))) 0
  let l := all t.scratchLab (all t.tileLab (l ||| t.codebookLab ||| t.oldTable))
  let l := x.slots.foldl (fun (l : Label) o => l ||| o.2.lab) l
  let l := x.matrix.foldl (fun (l : Label) m => l ||| m.savedLab) l
  let l := x.loads.foldl (fun (l : Label) a => l ||| a.lab ||| a.aim) l
  x.bins.foldl (fun l b => b.recs.foldl (fun l r => l ||| r.lab) l) l

/-- The CRC over some frames, in list order (R368). -/
def State.framesCrc (s : State) (frames : List Nat) : DWord :=
  frames.foldl (fun c f => (List.range 4096).foldl (fun c i => crcByte c (Cells.get s.mem (4096 * f + i)).toNat) c) 0

/-- Fills a frame of state: its layout is not architectural, so its bytes are free values (R368; log 6). -/
def State.fillFrame (s : State) (f : Nat) (lab : Label) : State :=
  let n := s.free
  { s with
    mem := Cells.fill s.mem (4096 * f) 4096 (fun i => BitVec.ofNat 8 ((Config.freeWord (n + i / 8)).toNat >>> (8 * (i % 8))))
    frameLab := Cells.modify s.frameLab f (· ||| lab)
    poison := s.poison.filter (fun l => l / 32 != f)
    free := n + 512 }

/-- The frame numbers that a page of the list holds, and the frames that follow it: the header holds 503 and an extension
frame 511. -/
def listPages (state : List Nat) : List Nat → List (List Nat × Nat)
  | [] => []
  | [_] => [(state, 0)]
  | _ :: e :: rest => (state.take 511, e) :: listPages (state.drop 511) (e :: rest)

/-- Writes the addresses of a header or extension frame. -/
def State.writeList (s : State) (f off cap : Nat) (xs : List Nat) (next : Nat) : State :=
  let word (i : Nat) : Nat := match xs[i]? with | some y => 4096 * y | none => 0
  let m := (List.range cap).foldl (fun m i => Cells.writeLE m (4096 * f + off + 8 * i) 8 (word i)) s.mem
  { s with mem := Cells.writeLE m (4096 * f + 4088) 8 (4096 * next) }

/-- Writes the frames of a save: state, then extension frames, then the header with the CRC (R368, R369). -/
def State.writeSave (s : State) (num : Nat) (x : Saved) : State :=
  let lab := x.teams.foldl (fun (l : Label) t => l ||| t.labels) 0
  match x.frames with
  | [] => s
  | hd :: others =>
    let n := x.teams.foldl (fun n t => n + s.framesOf t) 0
    let state := others.take n
    let ext := others.drop n
    let s := state.foldl (fun (s : State) f => s.fillFrame f lab) s
    let s := ext.foldl (fun (s : State) f => s.fillFrame f lab) s
    let pages := listPages (state.drop 503) ext
    let s := (ext.zip pages).foldl (fun (s : State) p => s.writeList p.1 0 511 p.2.1 p.2.2) s
    let s := { s with mem := Cells.clear s.mem (4096 * hd) 4096, frameLab := Cells.modify s.frameLab hd (· ||| lab)
                      poison := s.poison.filter (fun l => l / 32 != hd) }
    let s := s.writeList hd 64 503 (state.take 503) (ext.headD 0)
    let put (s : State) (off w v : Nat) : State := { s with mem := Cells.writeLE s.mem (4096 * hd + off) w v }
    put (put (put (put (put s 0 4 1) 4 2 num) 8 4 x.frames.length) 12 4 x.teams.length) 16 8 (s.framesCrc others).toNat

/-- Does the CRC of a save still match its frames (R368)? -/
def State.saveIntact (s : State) (x : Saved) : Bool :=
  match x.frames with
  | [] => true
  | hd :: others => decide (Cells.readLE s.mem (4096 * hd + 16) 8 = (s.framesCrc others).toNat)

/-- Gives back the frames of a save, zeroed and without labels (R370, R374). -/
def State.freeFrames (s : State) (vf : Nat) (frames : List Nat) : State :=
  (frames.foldl State.zeroFrame s).onVf vf (fun v => { v with free := v.free ++ frames })

/-- Takes frames for a save, as many as it still lacks and the list holds. A save that finds the list empty sets EXHAUSTED and
STALLED and raises the interrupt: once for each time that it comes to that point, so not when it has waited there since and
taken nothing (R366, R367). -/
def State.takeFrames (s : State) (vf have_ needed : Nat) (waited : Bool) : State × List Nat :=
  let lack := needed - have_
  let got := (s.vf vf).free.take lack
  let short := decide (got.length < lack)
  let news := short && (!waited || !got.isEmpty)
  let s := s.onVf vf (fun v => { v with
    free := v.free.drop lack
    exhausted := v.exhausted || news
    stalled := v.stalled || short })
  (if news then s.send (.msix 0 0) else s, got)

/-! ## Where teams fit (R206) -/

/-- Wakes a core from retention sleep, before a warp is placed on it (R233): its L1 is dropped whole when the count or a filter
has overflowed, else each recorded line is fetched again from its home, stamped with the generation of now. A line of another
module is dropped, to be fetched when it is read (log 60). -/
def State.wakeCore (s : State) (core : Nat) : State :=
  match (s.core core).sleep with
  | none => s
  | some z =>
    let s1 := s.onCore core (fun c => { c with sleep := none })
    if 32768 ≤ z.count ∨ z.overflow then s1.onCore core (fun c => { c with l1 := [] })
    else ((z.lines.map (·.1)).eraseDups).foldl (fun (s : State) l =>
      if 2 ^ 47 ≤ l then s.onCore core (fun c => { c with l1 := Cells.erase c.l1 l })
      else match Cells.find? (s.core core).l1 l with
      | some old => s.l1Fill core (placeOfLine l 0) old.mark { own := old.owner }
      | none => s) s1

/-- Granules in use on a core. -/
def State.usedGranules (s : State) (core : Nat) : Nat :=
  s.teams.foldl (fun n t => if t.2.core = core then n + (s.launch t.2.launch).hdr.granules else n) 0
/-- Operand slots reserved on a core. -/
def State.usedSlots (s : State) (core : Nat) : Nat :=
  s.teams.foldl (fun n t => if t.2.core = core then n + (s.launch t.2.launch).hdr.slots else n) 0
/-- Warp slots in use in a partition of a core. -/
def State.usedWarps (s : State) (core part : Nat) : Nat :=
  s.teams.foldl (fun n t =>
    if t.2.core = core then n + ((s.launch t.2.launch).hdr.warps - part + 3) / 4 else n) 0

/-- Is a slot of a partition taken by a warp of some team (R206)? -/
def State.slotTaken (s : State) (core part n : Nat) : Bool :=
  s.teams.any (fun t => t.2.core == core && t.2.slots.zipIdx.any (fun x => x.2 % 4 == part && x.1 == n))

/-- The slots that the warps of a team get on a core: the lowest that are free in their partitions (R206; log 3). -/
def State.freeSlots (s : State) (core warps : Nat) : List Nat :=
  (List.range warps).map (fun k =>
    ((List.range 16).filter (fun n => !s.slotTaken core (k % 4) n)).getD (k / 4) 0)

/-- Does a team of a header fit a core (R206)? -/
def State.fits (s : State) (h : Header) (core : Nat) : Bool :=
  decide (s.usedGranules core + h.granules ≤ 96) &&
  decide (s.usedSlots core + h.slots ≤ 8) &&
  (List.range 4).all (fun p => decide (s.usedWarps core p + (h.warps - p + 3) / 4 ≤ 16))

/-- Does a saved team fit a core: its slot numbers are free there, and there are bins for its records (R299, R370)? -/
def State.fitsSaved (s : State) (x : SavedTeam) (core : Nat) : Bool :=
  s.fits (s.launch x.team.launch).hdr core &&
  x.slots.all (fun o => (Cells.get (s.core core).slots o.1).holder.isNone) &&
  decide (x.bins.length ≤ ((List.range 8).filter (fun n => (Cells.get (s.core core).bins n).recs.isEmpty)).length)

/-- The core groups that a launch of a context may use, in order (R206, R208, R391). -/
def State.groupsFor (s : State) (ctx : Nat) (h : Header) : List Nat :=
  let dies := (s.vf (s.context ctx).vf).dies
  (List.range 8).flatMap (fun d =>
    if h.affinity.testBit d then
      match dies.getD d none with
      | some (phys, mask) => ((List.range 6).filter (fun g => mask.testBit g)).map (fun g => 6 * phys + g)
      | none => []
    else [])

/-- The cores of a group. -/
def groupCores (g : Nat) : List Nat := (List.range 16).map (fun i => 16 * g + i)

/-- Puts bins into the empty bins of a core. -/
def State.putBins (s : State) (core : Nat) (bins : List Bin) : State :=
  bins.foldl (fun (s : State) b =>
    let n := ((List.range 8).find? (fun n => (Cells.get (s.core core).bins n).recs.isEmpty)).getD 0
    s.onCore core (fun c => { c with bins := Cells.put c.bins n { b with timer := b.timer.map (fun x => x + s.cycle) } })) s

/-- Fills the loop buffer of a strand from memory, and the saved one of a trap strand (R118). -/
def State.refillLoop (s : State) (core ctx : Nat) (x : Strand) : State × Strand :=
  let a := s.copyWords core ctx x.loop.first x.buf.length
  let b := a.1.copyWords core ctx x.saved.first x.savedBuf.length
  (b.1, { x with buf := a.2, savedBuf := b.2 })

/-- Fills the loop buffers of a team (R118). -/
def State.refillLoops (s : State) (k : Nat) : State :=
  let t := s.team k
  t.warps.foldl (fun (s : State) w => w.2.allStrands.foldl (fun (s : State) y =>
    if y.2.2.buf.isEmpty && y.2.2.savedBuf.isEmpty then s
    else
      let r := s.refillLoop t.core t.ctx y.2.2
      r.1.onWarp k w.1 (fun v => v.onStrand y.1 y.2.1 (fun _ => r.2))) s) s

/-- A load of a save translates again when it issues again; where that fails it goes where it went before (R365; log 27). -/
def State.relocate (s : State) (core : Nat) (a : Access) : State × Access :=
  match s.formOf a.team a.warp (a.lanes.headD 0) a.va a.size with
  | .virt va _ => (match s.translate core a.ctx va .read with
    | (s, .ok (p, _)) => (s, { a with place := p })
    | (s, .error _) => (s, a))
  | .scr _ _ | .bad => (s, a)

/-- Issues the loads of a save again, under new numbers (R365). -/
def State.reissue (s : State) (x : SavedTeam) (core : Nat) : State :=
  let new (i : Nat) : Nat := match x.loads.findIdx? (fun a => a.id == i) with | some j => s.nextId + j | none => i
  let ids (is : List (Nat × Scope)) : List (Nat × Scope) := is.map (fun i => (new i.1, i.2))
  let s1 := s.onTeam x.key (fun t => { t with warps := t.warps.map (fun w =>
    (w.1, { w.2 with edges := w.2.edges.map (fun e => { e with ids := ids e.ids }) })) })
  let r := x.loads.foldl (fun (acc : State × List Access) a =>
    let b := acc.1.relocate core { a with id := new a.id, core := core, after := ids a.after }
    (b.1, acc.2 ++ [b.2])) (s1, [])
  { r.1 with
    accesses := r.1.accesses ++ r.2
    late := s1.late ++ x.lates.map (fun l => { l with waits := l.waits.map new })
    nextId := s.nextId + x.loads.length }

/-- Places a saved team on a core (R336, R365, R370). -/
def State.putTeam (s : State) (x : SavedTeam) (core : Nat) : State :=
  let off := (List.range 4).foldl (fun (m : Cells DWord) n =>
    Cells.set m n (x.views.getD n 0 - (Cells.get (s.core core).chans n).ptr)) []
  let s := s.wakeCore core
  let s := { s.fresh with teams := Cells.put s.teams x.key { x.team with
    core := core, chOff := off, placedAt := s.nextId, slots := s.freeSlots core x.team.slots.length } }
  let s := s.onCore core (fun c => { c with
    slots := x.slots.foldl (fun (m : Cells OpSlot) o => Cells.put m o.1 o.2) c.slots
    matrix := c.matrix ++ x.matrix })
  ((s.putBins core x.bins).reissue x core).refillLoops x.key

/-- Places saved teams, each on some core of a list, when all fit at once. -/
def State.putAll (cores : List Nat) : List SavedTeam → State → Option State
  | [], s => some s
  | x :: rest, s => cores.findSome? (fun c => if s.fitsSaved x c then State.putAll cores rest (s.putTeam x c) else none)

/-- Places the teams of one saved cluster on the first group that holds them. -/
def State.putCluster (s : State) (xs : List SavedTeam) : Option State :=
  match xs with
  | [] => some s
  | x :: _ =>
    (s.groupsFor x.team.ctx (s.launch x.team.launch).hdr).findSome? (fun g => State.putAll (groupCores g) xs s)

/-- The clusters among saved teams. -/
def clustersOf (xs : List SavedTeam) : List (List SavedTeam) :=
  ((xs.map (fun x => (x.team.launch, x.team.cluster))).eraseDups).map (fun c =>
    xs.filter (fun x => x.team.launch == c.1 && x.team.cluster == c.2))

/-- Is an owner handle still held: is a team of its context placed, or a line of it in an L1 or L2 (R230)? -/
def State.handleHeld (s : State) (h : Nat) : Bool :=
  s.contexts.any (fun c => c.2.handle == some h && s.teams.any (fun t => t.2.ctx == c.1)) ||
  s.cores.any (fun c => c.2.l1.any (fun l => l.2.owner == h)) ||
  s.dies.any (fun d => d.2.l2.any (fun x => x.2.any (fun l => l.owner == h)))

/-- Gives a context an owner handle when it has none; none when all are held. A handle that has become free is taken from
the context that had it when another needs it (R230). -/
def State.takeHandle (s : State) (ctx : Nat) : Option State :=
  if (s.context ctx).handle.isSome then some s
  else
    ((List.range 255).find? (fun h => !s.handleHeld (h + 1))).map (fun h =>
      ({ s with contexts := s.contexts.map (fun c =>
          if c.2.handle = some (h + 1) then (c.1, { c.2 with handle := none }) else c) } : State).onContext ctx
        (fun c => { c with handle := some (h + 1) }))

end Sys2Proof.Machine
end

