-- ==== Sys2Proof/Machine/Answer.lean ====
section
/-! DEFINITION. What the answer to a fault-queue entry does to the strands that are parked under it: retry, deliver as a
trap, kill (R354, R355). -/

namespace Sys2Proof.Machine

/-- A strand parked under an entry: team, warp, slice, entry of the strand table, the strand, its record. -/
structure Parked where
  team : Nat
  warp : Nat
  slice : Nat
  entry : Nat
  strand : Strand
  info : ParkRec

/-- The placed strands of a context that are parked under a fault-queue entry. -/
def State.parkedUnder (s : State) (ctx seq : Nat) : List Parked :=
  (s.teamsOf ctx).flatMap (fun k => (s.team k).warps.flatMap (fun w =>
    w.2.allStrands.filterMap (fun y => match y.2.2.st with
      | .onFault p => if p.seq = seq then some ⟨k, w.1, y.1, y.2.1, y.2.2, p⟩ else none
      | _ => none)))

/-- Retry: the strand issues its instruction again; a frame write that failed is made again. -/
def State.retryFault (s : State) (x : Parked) : State :=
  let st : StrandSt := if x.info.deliver then .held .trap else .ready
  let s := s.onWarp x.team x.warp (fun w => (w.onStrand x.slice x.entry (fun y => { y with st := st })).rechoose)
  if x.info.deliver then s.takeTraps x.team x.warp else s

/-- The word that a FAULT_DELIVERED trap reports: the one that faulted, zero for a fetch (R346). -/
def State.faultWord (s : State) (x : Parked) : DWord :=
  if x.info.info.access = 3 then 0
  else if x.info.word ≠ 0 then x.info.word
  else match (s.fetchStrand (s.team x.team).core (s.team x.team).ctx x.strand).2 with
    | .word w => w
    | .fault _ _ => 0
    | .poison => 0

/-- The trap of the lanes of a parked strand, each with its own fault (R346). -/
def Parked.traps (x : Parked) : List LaneTrap :=
  (laneList (sliceLanes x.slice x.strand.mask)).map (fun l =>
    let f := ((x.info.each.find? (fun y => y.1 == l)).map (·.2)).getD x.info.info
    { lane := l, cause := .faultDelivered, detail := f.va, lab := f.lab, status := BitVec.ofNat 8 f.kind })

/-- Deliver-as-trap for the strands of one entry: FAULT_DELIVERED at the instruction's PC, or a double trap for a trap
strand and for a fault of a frame write. The slices whose strands trap leave the gang; members that are still parked stay
(R155). -/
def State.deliverFault (s : State) (xs : List Parked) : State :=
  match xs with
  | [] => s
  | x :: _ =>
    let word := s.faultWord x
    if x.info.deliver then
      s.doubleTrap x.team x.warp x.slice
        { entry := x.entry, mask := x.strand.mask, pc := x.strand.pc, word, next := x.strand.pc, gang := x.info.gang,
          delayed := false, lanes := x.traps }
    else
      let n : Now := { team := x.team, warp := x.warp, gang := x.info.gang, units := xs.map (fun y => (y.slice, y.entry)),
                       pc := x.strand.pc, word }
      let s := s.onWarp x.team x.warp (fun w =>
        let w := xs.foldl (fun (w : Warp) y => w.onStrand y.slice y.entry (fun z => { z with st := .held .trap })) w
        { w with gang := w.gang &&& ~~~(unitMask n.units) })
      (s.raiseTraps n (xs.flatMap (fun y => y.traps.map (fun t => (t.lane, .trap t false))))).takeTraps x.team x.warp

/-- Kill: the lanes end as though by EXIT, and a trap that waited for its frame goes with them. -/
def State.killFault (s : State) (xs : List Parked) : State :=
  match xs with
  | [] => s
  | x :: _ =>
    let us := xs.map (fun y => (y.slice, y.entry))
    let s := s.onWarp x.team x.warp (fun w =>
      let lanes := w.unitLanes us
      let n : Now := { team := x.team, warp := x.warp, gang := x.info.gang, units := us, pc := x.strand.pc, word := 0 }
      let w := w.moveStrands n lanes default false {} ((laneList lanes).map (fun l => (l, .exit))) x.strand.last
      let w := xs.foldl (fun (w : Warp) y => w.onSlice y.slice (fun z =>
        if y.info.deliver then { z with pending := z.pending.drop 1 } else z)) w
      let empty := us.foldl (fun (m : BitVec 8) u => if (w.slice u.1).strands.isEmpty then m ||| (1#8 <<< u.1) else m) 0
      { w with exited := w.exited ||| lanes, gang := w.gang &&& ~~~empty })
    (s.settleStack x.team x.warp (unitMask us)).takeTraps x.team x.warp

/-- Carries out an answer: 0 retry, 1 deliver, 2 kill. -/
def State.applyAnswer (s : State) (ctx seq action : Nat) : State :=
  let xs := s.parkedUnder ctx seq
  if action = 0 then xs.foldl State.retryFault s
  else if action = 1 then s.deliverFault xs
  else s.killFault xs

/-- Answers an entry of a context: its slot frees, and the strands follow at once, or when their teams are placed again
(R355). -/
def State.answerFault (s : State) (ctx seq action : Nat) : State :=
  let s := s.onContext ctx (fun c => { c with entries := c.entries.filter (fun e => e.seq != seq) })
  if (s.context ctx).st = .live ∧ !(s.parkedUnder ctx seq).isEmpty then s.applyAnswer ctx seq action
  else s.onContext ctx (fun c => { c with answered := c.answered ++ [(seq, action)] })

/-- Carries out the answers that waited for strands that are placed now. -/
def State.applyAnswers (s : State) (ctx : Nat) : State :=
  (s.context ctx).answered.foldl (fun (s : State) a =>
    if (s.parkedUnder ctx a.1).isEmpty then s
    else (s.onContext ctx (fun c => { c with answered := c.answered.erase a })).applyAnswer ctx a.1 a.2) s

end Sys2Proof.Machine
end

