-- ==== Sys2Proof/Machine/Schedule.lean ====
section
/-! DEFINITION. The scheduler: the order of ready launches, placing clusters, reservation and displacement, retiring warps
and teams, completing launches (R119, R145, R162, R204-R208, R372). -/

namespace Sys2Proof.Machine

/-! ## Placing a cluster (R143-R145, R207, R217) -/

/-- A team at placement: zeroed, with its launch's warps. A sleeping core wakes first (R233). -/
def State.newTeam (s : State) (l core cluster sibling : Nat) : State :=
  let x := s.launch l
  let h := x.hdr
  let s := s.wakeCore core
  let k := s.nextId
  let linear := cluster * h.teamsPer + sibling
  let t : Team := { launch := l, ctx := x.ctx, core, cluster, linear, sibling, teamId := h.teamId linear, placedAt := k,
                    slots := s.freeSlots core h.warps }
  let s := { s.fresh with teams := Cells.put s.teams k t }
  let warps := (List.range ((h.threads + 31) / 32)).map (fun w => (w, s.newWarp k w h.entry (h.lanesOfWarp w) false))
  (s.onTeam k (fun t => { t with warps := warps })).onLaunch l (fun y => { y with keys := y.keys ++ [k] })

/-- Places teams from one sibling index on, each on the lowest core of a group that it fits; none when one fits nowhere. -/
def State.placeTeams (s : State) (l g cluster sibling : Nat) : Nat → Option State
  | 0 => some s
  | n + 1 =>
    match (groupCores g).find? (fun c => s.fits (s.launch l).hdr c) with
    | some c => (s.newTeam l c cluster sibling).placeTeams l g cluster (sibling + 1) n
    | none => none

/-- Places the next cluster of a launch on a group. -/
def State.placeOn (s : State) (l g : Nat) : Option State :=
  let x := s.launch l
  s.placeTeams l g x.placed 0 x.hdr.teamsPer

/-- Marks the first cluster's placement: the launch runs (R196, R207). -/
def State.noteRunning (s : State) (l : Nat) : State :=
  let x := s.launch l
  (s.journalSet (x.port, x.jseq) .running .ok none).onLaunch l (fun y => { y with placed := y.placed + 1 })

/-- The next thing that a launch would place: a displaced cluster first (R372). -/
def State.displacedOf (s : State) (l : Nat) : Option Saved :=
  (s.context (s.launch l).ctx).displaced.find? (fun d => d.teams.any (fun t => t.team.launch == l))

/-- Places a displaced cluster on a group, and gives back its frames. -/
def State.replaceOn (s : State) (l g : Nat) (d : Saved) : Option State :=
  if !s.saveIntact d then none
  else (State.putAll (groupCores g) d.teams s).map (fun s =>
    let ctx := (s.launch l).ctx
    ((s.freeFrames (s.context ctx).vf d.frames).onContext ctx (fun c =>
      { c with displaced := c.displaced.erase d })).applyAnswers ctx)

/-- Places the next cluster of a launch on a group, displaced or new. -/
def State.putNext (s : State) (l g : Nat) : Option State :=
  match s.displacedOf l with
  | some d => s.replaceOn l g d
  | none => (s.placeOn l g).map (fun s => s.noteRunning l)

/-! ## Order (R205) -/

/-- Has a launch something to place? -/
def State.wantsPlace (s : State) (l : Nat) : Bool :=
  let x := s.launch l
  x.ready.isSome && s.ctxRuns x.ctx &&
  ((s.displacedOf l).isSome || decide (x.placed < x.hdr.clusterCount)) &&
  ((s.context x.ctx).handle.isSome || (s.takeHandle x.ctx).isSome)

/-- Does one launch go before another: higher priority, earlier readiness, lower sequence number? -/
def Launch.before (a b : Launch) : Bool :=
  decide (b.hdr.priority < a.hdr.priority) ||
  (a.hdr.priority == b.hdr.priority &&
    (decide (a.ready.getD 0 < b.ready.getD 0) || (a.ready == b.ready && decide (a.jseq < b.jseq))))

/-- Inserts a launch in order. -/
def insertLaunch (s : State) (l : Nat) : List Nat → List Nat
  | [] => [l]
  | m :: rest => if (s.launch l).before (s.launch m) then l :: m :: rest else m :: insertLaunch s l rest

/-- The launches that have something to place, in R205's order. -/
def State.order (s : State) : List Nat :=
  ((Cells.keys s.launches).filter s.wantsPlace).foldl (fun ls l => insertLaunch s l ls) []

/-! ## Displacement (R372) -/

/-- A placed cluster on a group, as launch and index, with the number of its latest placement. -/
def State.clustersOn (s : State) (g : Nat) : List (Nat × Nat × Nat) :=
  let ts := List.filter (fun (t : Nat × Team) => groupOf t.2.core == g) s.teams
  ((ts.map (fun t => (t.2.launch, t.2.cluster))).eraseDups).map (fun c =>
    (c.1, c.2, (s.clusterTeams c.1 c.2).foldl (fun n k => max n (s.team k).placedAt) 0))

/-- The cluster on a group to displace first for a priority: of the lowest priority, and the most recently placed of those. -/
def State.victim (s : State) (g p : Nat) : Option (Nat × Nat × Nat) :=
  (s.clustersOn g).foldl (fun (b : Option (Nat × Nat × Nat)) c =>
    let q := (s.launch c.1).hdr.priority
    if p ≤ q then b
    else match b with
      | none => some c
      | some d =>
        let r := (s.launch d.1).hdr.priority
        if q < r ∨ (q = r ∧ d.2.2 < c.2.2) then some c else b) none

/-- The state without a cluster's teams: to see what would fit. -/
def State.without (s : State) (c : Nat × Nat × Nat) : State :=
  (s.clusterTeams c.1 c.2.1).foldl State.removeTeam s

/-- The clusters to displace from a group, in order, until a launch's next cluster fits. -/
def State.victims (s : State) (l g : Nat) : Nat → Option (List (Nat × Nat × Nat))
  | 0 => none
  | n + 1 =>
    if (s.putNext l g).isSome then some []
    else match s.victim g (s.launch l).hdr.priority with
      | none => none
      | some c => ((s.without c).victims l g n).map (fun cs => c :: cs)

/-- Teams that are no longer to be displaced go on. -/
def State.stay (s : State) (leaving : List Nat) : State :=
  (Cells.keys s.teams).foldl (fun (s : State) k => if leaving.contains k then s else s.stayTeam k) s

/-- Saves a placed cluster whole into its VF's save frames: its warps stop, it takes its frames one by one while the list
holds any, and leaves its cores once it can be saved and has them all (R367, R372). The answer says whether it has left. -/
def State.displace (s : State) (c : Nat × Nat × Nat) : State × Bool :=
  let ks := s.clusterTeams c.1 c.2.1
  let s := ks.foldl (fun (s : State) k => s.onTeam k (fun t => { t with leaving := true })) s
  if !(ks.all (fun k => s.savable k)) then (s, false)
  else
    let lead := ks.headD 0
    let ctx := (s.launch c.1).ctx
    let vf := (s.context ctx).vf
    let needed := s.framesNeeded (ks.map s.toSave)
    let t := s.team lead
    let f := s.takeFrames vf t.frames.length needed t.stalled
    let frames := t.frames ++ f.2
    if frames.length < needed then (f.1.onTeam lead (fun t => { t with frames, stalled := true }), false)
    else
      let s := f.1.onTeam lead (fun t => { t with frames := [], stalled := false })
      let r := ks.foldl (fun (acc : State × List SavedTeam) k =>
        let t := acc.1.takeTeam k
        (t.1, acc.2 ++ [t.2])) (s, [])
      let d : Saved := { teams := r.2, frames }
      (((r.1.writeSave (s.context ctx).num d).onContext ctx (fun c =>
        { c with displaced := c.displaced ++ [d] })).unstall vf, true)

/-- The first permitted group where displacing clusters makes room for a launch's next cluster, with those clusters. -/
def State.roomOn (s : State) (l : Nat) (gs : List Nat) : Option (Nat × List (Nat × Nat × Nat)) :=
  gs.findSome? (fun g => (s.victims l g (s.teams.length + 1)).map (fun cs => (g, cs)))

/-- Displaces some clusters in order, each after the one before it has left. -/
def State.displaceAll (s : State) (cs : List (Nat × Nat × Nat)) : State × Bool :=
  cs.foldl (fun (acc : State × Bool) c => if acc.2 then acc.1.displace c else acc) (s, true)

/-! ## The event (R205-R208) -/

/-- What the check before a launch's first team gives: go on, the launch fails, or a line of its log is read first. -/
inductive First where
  | go (s : State)
  | fail (s : State)
  | wait (s : State)

/-- The check of a recorded or replayed launch before its first team (R286). -/
def State.firstCheck (s : State) (l : Nat) : First :=
  let x := s.launch l
  if x.placed ≠ 0 then .go s
  else
    let t := s.onLaunch l (fun y => { y with windows := (s.context x.ctx).windows })
    if x.hdr.record || x.hdr.replay then
      match t.logCheck x.ctx x.hdr with
      | (u, .failed) => .fail u
      | (_, .ask p) => .wait (s.askDevice x.ctx l p)
      | (u, .ok cap count) => .go (u.onLaunch l (fun y => { y with cap := cap, count := count }))
    else .go t

/-- A launch that fails before it places a team leaves the store. -/
def State.failLaunch (s : State) (l : Nat) (status : Status) : State :=
  let x := s.launch l
  let s := (s.journalSet (x.port, x.jseq) .failed status none).forgetLines goneTeam l
  { s with launches := Cells.erase s.launches l }

/-- Tries to place the next cluster of a launch on one of some groups. -/
def State.tryPlace (s : State) (l : Nat) (gs : List Nat) : Option State :=
  match s.takeHandle (s.launch l).ctx with
  | none => none
  | some s => (gs.findSome? (fun g => s.putNext l g)).map (fun s => s.forgetLines goneTeam l)

/-- The first of some launches that can be placed away from the groups kept for the head cluster. -/
def State.placeLater (s : State) (kept : List Nat) : List Nat → State
  | [] => s
  | l :: rest =>
    match s.firstCheck l with
    | .fail s => s.failLaunch l .headerFault
    | .wait s => s.placeLater kept rest
    | .go t =>
      match t.tryPlace l ((t.groupsFor (t.launch l).ctx (t.launch l).hdr).filter (fun g => !kept.contains g)) with
      | some u => u
      | none => (s.forgetLines goneTeam l).placeLater kept rest

/-- Places the head cluster on one of its permitted groups. Otherwise clusters of lower priority make room on one (R372), the
lowest permitted group is reserved for it, and a later launch is placed on another (R208). -/
def State.placeHead (s : State) (l : Nat) (rest : List Nat) : State :=
  let gs := s.groupsFor (s.launch l).ctx (s.launch l).hdr
  match s.tryPlace l gs with
  | some s => { s.stay [] with reserved := none }
  | none =>
    match s.roomOn l gs with
    | none => (({ s.stay [] with reserved := gs.head? }).forgetLines goneTeam l).placeLater gs.head?.toList rest
    | some (g, cs) =>
      let r := (s.stay (cs.flatMap (fun c => s.clusterTeams c.1 c.2.1))).displaceAll cs
      match (if r.2 then r.1.tryPlace l [g] else none) with
      | some s => { s with reserved := none }
      | none => (({ r.1 with reserved := gs.head? }).forgetLines goneTeam l).placeLater (g :: gs.head?.toList) rest

/-- CLUSTER_PLACE: the cluster at the head of the order is placed, after the check of its launch (R205-R208, R286, R372). -/
def execClusterPlace (s : State) : Host.Outcome State Fault Refusal :=
  match s.order with
  | [] => .next { s.stay [] with reserved := none }
  | l :: rest =>
    match s.firstCheck l with
    | .fail s => .next (s.failLaunch l .headerFault)
    | .wait s => .next s
    | .go s => .next (s.placeHead l rest)

/-! ## Retiring (R119, R162, R215, R294) -/

/-- Has a team nothing left: no warp, and no record in a bin? -/
def State.teamOver (s : State) (k : Nat) : Bool :=
  (s.team k).warps.isEmpty &&
  !((s.core (s.team k).core).bins.any (fun b => b.2.team == k && !b.2.recs.isEmpty))

/-- Retires a team whose warps and records are gone; with the last one, a recording launch closes its runs. -/
def State.retireTeam (s : State) (k : Nat) : State :=
  if (Cells.find? s.teams k).isNone || !s.teamOver k then s
  else
    let l := (s.team k).launch
    let s := (s.removeTeam k).onLaunch l (fun x => { x with retired := x.retired + 1 })
    if (s.launch l).hdr.teamCount ≤ (s.launch l).retired then s.closeRuns l else s

/-- May a warp retire: every lane has exited, every result has returned, no trap is left, and in a recording or replaying
launch its hash is complete? -/
def State.warpOver (s : State) (k w : Nat) : Bool :=
  let x := s.warp k w
  let h := s.hdr k
  x.exited == 0xFFFFFFFF#32 && x.results.isEmpty && x.slices.all (fun y => y.2.strands.isEmpty) &&
  !(s.late.any (fun l => l.now.team == k && l.now.warp == w)) && (!(h.record || h.replay) || x.hashQ.isEmpty)

/-- Retires a warp: its lane-local lines go to memory, its index frees, and its arrivals at barriers stay counted (R179). -/
def State.retireWarp (s : State) (k w : Nat) : State :=
  let l := (s.team k).launch
  let g := s.warpGlobal k w
  let s := (s.writeBackLocal (s.team k).core (fun _ => true)).forgetLines k w
  let own := 64 + s.nextId
  let s := s.fresh.onTeam k (fun t => { t with
    warps := Cells.erase t.warps w
    bars := t.bars.map (fun b => (b.1, b.2.leave w own)) })
  let s := s.onLaunch l (fun x => if x.retiredWarps.contains g then x else { x with retiredWarps := x.retiredWarps ++ [g] })
  s.retireTeam k

/-- WARP_RETIRE. An Almanac warp retires at a commit point (R280). -/
def execWarpRetire (team warp : Nat) (s : State) : Host.Outcome State Fault Refusal :=
  if (Cells.find? s.teams team).isNone || (Cells.find? (s.team team).warps warp).isNone || s.almanac team ||
      !s.warpOver team warp then .next s
  else .next (s.retireWarp team warp)

/-! ## Completion (R204) -/

/-- Has a launch nothing left to do? -/
def State.launchOver (s : State) (l : Nat) : Bool :=
  let x := s.launch l
  let mine (k : Nat) : Bool := x.keys.contains k
  decide (x.placed = x.hdr.clusterCount) && decide (x.hdr.teamCount ≤ x.retired) &&
  s.accesses.all (fun a => !mine a.team && !(a.team == goneTeam && a.warp == l)) && s.updates.all (fun u => !mine u.team) &&
  s.cores.all (fun c => c.2.chans.all (fun z => z.2.xfers.all (fun t => !mine t.team))) &&
  x.gates.all (fun g => g.2.checks.isEmpty)

/-- LAUNCH_COMPLETE: the set mask's bits are set as one operation, the journal entry is Completed, the entry frees. -/
def execLaunchComplete (launch : Nat) (s : State) : Host.Outcome State Fault Refusal :=
  if (Cells.find? s.launches launch).isNone || !s.launchOver launch then .next s
  else
    let x := s.launch launch
    let s := { s.forgetLines goneTeam launch with
                      launches := Cells.erase s.launches launch
                      clusters := s.clusters.filter (fun c => c.launch != launch) }
    let s := s.eventOp x.ctx (fun e => e ||| x.hdr.setMask)
    .next (s.journalSet (x.port, x.jseq) .completed .ok none)

end Sys2Proof.Machine
end

