-- ==== Sys2Proof/Machine/Commit.lean ====
section
/-! DEFINITION. The commit points of an Almanac launch: what each warp's buffer does when it is applied, the synchronising
instructions, waits and spawn bins (R275, R276-R283). -/

namespace Sys2Proof.Machine

/-! ## Applying a commit buffer (R278, R280) -/

/-- Performs an access at a commit point: at once at its home here, or on its way to another module. -/
def State.commitAccess (s : State) (a : Access) : State :=
  if a.place.remote then s.enqueue a else { a with after := [], dom := .sc } |> s.performAny

/-- Offers the records of a buffered SPAWN in ascending lane order: a lane whose record is not stored has its predicate
cleared, or waits when the instruction is SPAWN.W (R159, R185). -/
def State.commitSpawn (s : State) (k w : Nat) (recs : List (Nat × SpawnRec)) (clr : Option (Nat × Bool × Label))
    (park : Bool) : State :=
  let r := s.offerAll (s.team k).core k recs
  if park then
    r.1.onWarp k w (fun wp => wp.mapStrands (fun j x => match x.st with
      | .waiting (.spawn []) =>
        let mine := r.2.filter (fun y => y.1 / 4 == j && x.mask.getLsbD (y.1 % 4))
        if mine.isEmpty then x.wake else { x with st := .waiting (.spawn mine) }
      | _ => x))
  else
    match clr with
    | none => r.1
    | some (g, gn, lab) =>
      if r.2.isEmpty then r.1
      else r.1.fresh.onWarp k w (fun wp => wp.write false lab r.1.nextId
        { reg := .p g, vals := r.2.map (fun y => (y.1, if gn then 1 else 0)), lab := 0 })

/-- A buffered COPY: at once when every byte stays on this module and its channel is empty, else on its channel. -/
def State.commitCopy (s : State) (core ch : Nat) (x : Xfer) : State :=
  let s1 := s.onChan core ch (fun z => { z with xfers := z.xfers ++ [x] })
  let pages := x.srcMap ++ x.dstMap ++ x.flagMap
  if pages.any (fun p => p.place.remote) || !(s.chanXfers core ch).isEmpty then s1
  else
    let moved (s : State) (n : Nat) : State := s.onChan core ch (fun z => { z with ptr := z.ptr + BitVec.ofNat 64 n })
    match s.copyAll x with
    | (t, .whole) => { moved t x.total with free := t.free + 2 ^ 25 }
    | (t, .stopped n) =>
      { (moved t n).onChan core ch (fun z => { z with xfers := [{ x with done := n, stuck := true }] }) with free := t.free + 2 ^ 25 }
    | (_, .poisoned n) => s1.copyPoison core ch x (x.srcAt n) x.aim

/-- Applies one entry of a warp's buffer. -/
def State.commitEntry (s : State) (k w : Nat) (e : CEntry) : State :=
  match e with
  | .accesses as => as.foldl State.commitAccess s
  | .tile _ team off bytes lab =>
    (bytes.zipIdx).foldl (fun (s : State) b => s.writeHome (.scr team (off + b.2)) 1 b.1.toNat lab) s
  | .copy ch x => s.commitCopy (s.team k).core ch x
  | .event n clr => s.eventBit (s.team k).ctx n clr
  | .spawn recs clr park => s.commitSpawn k w recs clr park
  | .flush pcs => s.flushBins (s.team k).core k pcs

/-- May an entry of a buffer be applied now: no half is with the host, no pre-image is due, its channel has room? -/
def State.entryFree (s : State) (core : Nat) (e : CEntry) : Bool :=
  match e with
  | .accesses as => as.all (fun a => s.halfFree a.place a.size true && !s.preImageDue a.place)
  | .copy ch x =>
    decide ((s.chanXfers core ch).length < 16) &&
    (x.dstMap ++ x.flagMap).all (fun p => s.halfFree p.place 4096 true && !s.preImageDue p.place) &&
    x.srcMap.all (fun p => s.halfFree p.place 4096 false)
  | .tile _ _ _ _ _ | .event _ _ | .spawn _ _ _ | .flush _ => true

/-! ## Synchronising instructions -/

/-- Executes a synchronising instruction (R278). -/
def execSync (i : Instr) (s : State) : Host.Outcome State Fault Refusal :=
  match i with
  | .atom h m op d b => execAtom h m op d b s
  | .cas h m d b c => execCas h m d b c s
  | .waitge h m d b => execWaitge h m d b s
  | .release h d a b c => execRelease h d a b c s
  | .meet h p a c => execMeet h p a c s
  | .cmeet h p a c => execCmeet h p a c s
  | .launch h w d a => execLaunch h w d a s
  | .evwait h n => execEvwait h n s
  | .chwait h w c => execChwait h w c s
  | .gres h a b c => execGres h a b c s
  | .sclaim h n => execSclaim h n s
  | .srel h n => execSrel h n s
  | _ => .next s

/-- The state that an outcome leaves, or another. -/
def outcomeOr (o : Host.Outcome State Fault Refusal) (s : State) : State :=
  match o with
  | .next t => t
  | .fault _ => s
  | .refused _ => s

/-- Performs the accesses of a warp that are on this module, and sends those to other modules as its budget allows. The answer
says whether all are sent. -/
def State.performWarp (s : State) (k w : Nat) : State × Bool :=
  ((s.accesses.filter (fun a => a.team == k && a.warp == w)).map (·.id)).foldl (fun (acc : State × Bool) id =>
    match acc.1.accesses.find? (fun a => a.id == id) with
    | none => acc
    | some a =>
      if !a.place.remote then (acc.1.performAny a, acc.2)
      else if a.sent then acc
      else if acc.1.budgetFor a then (acc.1.sendAccess a, acc.2)
      else (acc.1.waitCharge (acc.1.context a.ctx).vf, false)) (s, true)

/-- Returns the results of a warp that have all they wait for. -/
def State.returnAll (s : State) (k w : Nat) : State :=
  ((s.warp k w).results.map (·.id)).foldl (fun (s : State) id =>
    if (Cells.find? s.teams k).isNone then s else s.returnResult k w id) s

/-- Strands that waited for a commit point without an instruction to execute there go on. -/
def Warp.uncommit (w : Warp) : Warp :=
  w.mapStrands (fun _ x => if x.st == .held .commit then { x with st := .ready } else x)

/-- What strands of an issue wait for before they issue it again. -/
def Warp.drains (w : Warp) (us : List (Nat × Nat)) : List (Nat × Scope) :=
  us.flatMap (fun u => match (w.strand u.1 u.2).st with
    | .held (.drain ids) => ids
    | _ => [])

/-- Executes a warp's pending synchronising instruction; the answer is what it waits for when it must be executed again. -/
def State.commitSync (s : State) (k w : Nat) : State × List (Nat × Scope) :=
  match (s.warp k w).sync with
  | none => (s.onWarp k w Warp.uncommit, [])
  | some (n, i) =>
    let s := s.onWarp k w (fun wp => { wp.uncommit with sync := none })
    let s := { outcomeOr (execSync i { s with now := some n }) s with now := none }
    let ids := (s.warp k w).drains n.units
    if ids.isEmpty then (s, [])
    else
      (s.onWarp k w (fun wp =>
        { n.units.foldl (fun wp u => wp.onStrand u.1 u.2 (fun x => { x with st := .held .commit })) wp with sync := some (n, i) }), ids)

/-! ## The commit point (R280) -/

/-- Is a strand parked at JOIN, at REGANG or in a wait? -/
def Strand.parked (x : Strand) : Bool :=
  match x.st with
  | .waiting (.matrix _) => false
  | .atJoin | .atRegang | .waiting _ => true
  | .ready | .held _ | .onFault _ => false

/-- Is every strand of a warp parked? -/
def Warp.idle (w : Warp) : Bool := w.allStrands.all (fun x => x.2.2.parked)

/-- Does a warp wait at a quantum end? -/
def Warp.atEnd (w : Warp) (clock : Nat) : Bool := w.atQuantum && w.qclock == clock

/-- Does a warp let the commit point at a clock take place: it waits at that quantum end with no strand parked on a fault, it
has exited, or it is parked (R280, R281)? -/
def Warp.commits (w : Warp) (clock : Nat) : Bool :=
  (w.atEnd clock && !(w.allStrands.any (fun x => x.2.2.faulted))) || w.exited == 0xFFFFFFFF#32 || w.idle

/-- The placed warps of a launch, in ascending warp global identifier. -/
def State.launchWarps (s : State) (l : Nat) : List (Nat × Nat) :=
  let ks := (List.filter (fun (t : Nat × Team) => t.2.launch == l) s.teams).map (fun t => (t.2.linear, t.1))
  let insert (x : Nat × Nat) (xs : List (Nat × Nat)) : List (Nat × Nat) :=
    xs.takeWhile (fun y => decide (y.1 < x.1)) ++ x :: xs.dropWhile (fun y => decide (y.1 < x.1))
  (ks.foldl (fun xs x => insert x xs) []).flatMap (fun k => (Cells.keys (s.team k.2).warps).map (fun w => (k.2, w)))

/-- The clock of a launch's next commit point. -/
def State.commitClock (s : State) (l : Nat) : Nat := ((s.launch l).quantum + 1) * (s.launch l).hdr.quantum

/-- Is a launch ready for its next commit point? Warps of clusters that are not placed, or displaced, are warps of the launch
that meet no condition of R280 (log 78). -/
def State.commitDue (s : State) (l : Nat) : Bool :=
  let x := s.launch l
  x.hdr.almanac && s.ctxRuns x.ctx && decide (x.placed = x.hdr.clusterCount) && (s.displacedOf l).isNone &&
  !(s.launchWarps l).isEmpty && (s.launchWarps l).all (fun y => (s.warp y.1 y.2).commits (s.commitClock l))

/-- Is a warp of a launch placed? -/
def State.warpHere (s : State) (k w : Nat) : Bool := (Cells.find? s.teams k).isSome && (Cells.find? (s.team k).warps w).isSome

/-- Is something that a launch has asked of another module, or put on a channel that moves, not finished? -/
def State.commitOpen (s : State) (l : Nat) : Bool :=
  let mine (k : Nat) : Bool := (Cells.find? s.teams k).isSome && (s.team k).launch == l
  s.accesses.any (fun a => mine a.team && a.place.remote && (a.sent || (match a.op with | .testGe _ => false | _ => true))) ||
  s.cores.any (fun c => c.2.chans.any (fun ch =>
    (ch.2.xfers.takeWhile (fun x => !x.stuck)).any (fun x => mine x.team)))

/-- Settles the barriers of a warp that the commit point takes, and retires it when it is over. -/
def State.commitFinish (s : State) (k w : Nat) : State :=
  let t := s.team k
  let s := ((s.settleEvents).settleBars k).settleClusterBars t.launch t.cluster
  if (s.warp k w).exited = 0xFFFFFFFF#32 ∧ s.warpOver k w ∧ (s.context t.ctx).st ≠ .ended then s.retireWarp k w else s

/-- Ends the waits of a warp that are over, WAITGE and SPAWN.W among them. -/
def State.commitWaits (s : State) (k w : Nat) : State :=
  let s := s.onWarp k w (fun wp => wp.mapStrands (fun _ x => s.freedWait k w x))
  let ge := (s.warp k w).results.any (fun r => match r.kind with | .ge _ _ _ _ _ => true | _ => false)
  let s := if ge then s.returnAll k w else s
  if s.warpHere k w then s.settleSpawn k w else s

/-- Starts warps from a bin, 32 records at a time, while an index is free. -/
def State.drainBin (s : State) (core n clock : Nat) : Nat → State
  | 0 => s
  | f + 1 =>
    let b := Cells.get (s.core core).bins n
    if b.recs.isEmpty ∨ (s.freeWarp b.team).isNone then s else (s.startBin core n clock).drainBin core n clock f

/-- Starts the bins keyed by the teams of a launch. -/
def State.commitBins (s : State) (l clock : Nat) : State :=
  (List.filter (fun (t : Nat × Team) => t.2.launch == l) s.teams).foldl (fun (s : State) t =>
    (List.range 8).foldl (fun (s : State) n =>
      let b := Cells.get (s.core t.2.core).bins n
      if b.team = t.1 ∧ !b.recs.isEmpty then s.drainBin t.2.core n clock 2 else s) s) s

/-- Counts what the lanes and warps that have gone leave to the barriers of a launch (R179). -/
def State.commitBars (s : State) (l : Nat) : State :=
  ((List.filter (fun (t : Nat × Team) => t.2.launch == l) s.teams).map (fun t => (t.1, t.2.cluster))).foldl
    (fun (s : State) t => (s.settleBars t.1).settleClusterBars l t.2) s

/-- One move of a commit point: the state, the moves that take its place, and whether the commit point goes on now. -/
def State.commitMove (s : State) (l : Nat) (m : CommitStep) : State × List CommitStep × Bool :=
  match m with
  | .buffer k w =>
    if !s.warpHere k w then (s, [], true)
    else match (s.warp k w).cbuf with
      | [] => (s, [], true)
      | e :: rest =>
        if s.entryFree (s.team k).core e then
          ((s.onWarp k w (fun wp => { wp with cbuf := rest })).commitEntry k w e, [m], true)
        else (s, [m], false)
  | .sync k w =>
    if !s.warpHere k w then (s, [], true)
    else match s.commitSync k w with
      | (s, []) => (s, [.send k w], true)
      | (s, ids) => (s, [.drain k ids, m], true)
  | .send k w =>
    if !s.warpHere k w then (s, [], true)
    else match s.performWarp k w with
      | (s, true) => (s, [], true)
      | (s, false) => (s, [m], false)
  | .drain k ids => if ids.any (fun x => s.pendingAt k x.1 x.2) then (s, [m], false) else (s, [], true)
  | .finish k w => (if s.warpHere k w then s.commitFinish k w else s, [], true)
  | .bars => (s.commitBars l, [], true)
  | .waits k w => (if s.warpHere k w then s.commitWaits k w else s, [], true)

/-- The end of a commit point: warps whose waits have ended take its clock, bins start warps, and the next quantum begins. -/
def State.commitEnd (s : State) (l : Nat) (c : Commit) : State :=
  let clock := s.commitClock l
  let s := c.parked.foldl (fun (s : State) x =>
    if s.warpHere x.1 x.2 && !(s.warp x.1 x.2).idle then
      s.onWarp x.1 x.2 (fun w => { w with qclock := max w.qclock clock }) else s) s
  let s := c.taken.foldl (fun (s : State) x =>
    if s.warpHere x.1 x.2 then s.onWarp x.1 x.2 (fun w => { w with atQuantum := false }) else s) s
  let s := s.commitBins l clock
  let ks := (Cells.keys s.teams).filter (fun k => (s.team k).launch == l)
  (ks.foldl State.retireTeam s).onLaunch l (fun x => { x with quantum := x.quantum + 1, commit := none })

/-- Carries a commit point on until it waits or ends. -/
def State.commitRun (s : State) (l : Nat) : Nat → State
  | 0 => s
  | n + 1 =>
    match (s.launch l).commit with
    | none => s
    | some c =>
      match c.todo with
      | [] => s.commitEnd l c
      | m :: rest =>
        if s.commitOpen l then s
        else
          let r := s.commitMove l m
          let t := r.1.onLaunch l (fun x => { x with commit := some { c with todo := r.2.1 ++ rest } })
          if r.2.2 then t.commitRun l n else t

/-- The commit point as it begins: the warps that wait at its clock or have exited are taken in order, each with its buffer,
its synchronising instruction and its end; then every wait is tried again. -/
def State.commitBegin (s : State) (l : Nat) : Commit :=
  let all := s.launchWarps l
  let taken := all.filter (fun x => (s.warp x.1 x.2).atEnd (s.commitClock l) || (s.warp x.1 x.2).exited == 0xFFFFFFFF#32)
  { todo := taken.flatMap (fun x => [.buffer x.1 x.2, .sync x.1 x.2, .finish x.1 x.2]) ++ [.bars] ++
      all.flatMap (fun x => [.send x.1 x.2, .waits x.1 x.2])
    taken, parked := all.filter (fun x => !taken.contains x) }

/-- COMMIT_POINT: a launch's next commit point takes place. What it asks of other modules is performed in its order, so that
it may stand still until they have answered; no warp of the launch issues and no pre-emption falls before its end (R280,
R281). -/
def execCommitPoint (launch : Nat) (s : State) : Host.Outcome State Fault Refusal :=
  if (Cells.find? s.launches launch).isNone then .next s
  else if (s.launch launch).commit.isSome then .next (s.commitRun launch 1000000)
  else if !s.commitDue launch then .next s
  else .next ((s.onLaunch launch (fun x => { x with commit := some (s.commitBegin launch) })).commitRun launch 1000000)

end Sys2Proof.Machine
end

