-- ==== Sys2Proof/Machine/Coherence.lean ====
section
/-! DEFINITION. Device memory seen by the host and host memory seen by the device: CXL.mem reads, writes and atomics, halves
and back-invalidates, bias flips, snoops and failing CXL.cache requests (R411-R418, R430). -/

namespace Sys2Proof

/-- The journal port of a function: 0 for the physical function, n + 1 for VF n. -/
def Fn.port : Fn → Nat
  | .pf => 0
  | .vf n => n + 1

end Sys2Proof

namespace Sys2Proof.Machine

/-! ## CXL.mem (R411, R415-R417) -/

/-- The VF whose host window holds an address. -/
def State.windowOf (s : State) (pa : Nat) : Option Nat :=
  (List.range 32).find? (fun n => decide ((s.vf n).wbase ≤ pa) && decide (pa < (s.vf n).wbase + (s.vf n).wsize))

/-- The origins that a host access at an address may read, and that a host write there adds. -/
def State.windowOrigin (s : State) (pa : Nat) : Label :=
  match s.windowOf pa with
  | some n => s.originOf n
  | none => 0

/-- The frames of a range, as what to add to their numbers: 0 for the first. -/
def framesFrom (pa n : Nat) : List Nat := List.range ((pa % 4096 + n + 4095) / 4096)

/-- Does a host access wait at the home, because a bias flip of a frame of it runs (R418) or a pre-image is due (R403)? -/
def State.hostWaits (s : State) (pa n : Nat) (write : Bool) : Bool :=
  (framesFrom pa n).any (fun i => s.flips.any (fun f => decide (f.frame / 4096 = pa / 4096 + i)) ||
    (write && s.preImageDue (.dev (pa + 4096 * i))))

/-- Does a host read end in a poisoned completion: outside DRAM, from a poisoned line, or failing its egress check? -/
def State.hostRefused (s : State) (pa n : Nat) : Bool :=
  !rangeInDram pa n || s.poisoned (.dev pa) n ||
  (framesFrom pa n).any (fun i =>
    Cells.get s.frameLab (pa / 4096 + i) &&& ~~~(s.windowOrigin (pa + 4096 * i)) != 0)

/-- The halves of a range in frames in host bias change state under the host's access (R416). -/
def State.hostTakes (s : State) (pa n : Nat) (write : Bool) : State :=
  (halvesOf pa n).foldl (fun (s : State) k =>
    if s.bias.contains (k / 64) then
      let h := Cells.get s.halves k
      { s with halves := Cells.set s.halves k (if write || h == .host then .host else .shared) }
    else s) s

/-- HOST_MEM_READ: data, or a poisoned completion that changes nothing (R411, R430). -/
def execHostMemRead (pa n : Nat) (s : State) : Host.Outcome State Fault Refusal :=
  if s.hostWaits pa n false then .next s
  else if s.hostRefused pa n then .next (s.send (.poisoned pa))
  else .next ((s.hostTakes pa n false).send (.memData pa (bytesOf n (s.readHome (.dev pa) n))))

/-- Drops the poison of the lines that a write covers whole (R231, R358). -/
def State.healLines (s : State) (pa n : Nat) : State :=
  { s with poison := s.poison.filter (fun l => !(decide (pa ≤ 128 * l) && decide (128 * l + 128 ≤ pa + n))) }

/-- The host's write of device bytes: a TSO write at system scope, which every holder sees at once. Each frame that it
reaches gains the origin of the window that holds it (R411). -/
def State.hostStores (s : State) (pa : Nat) (bytes : List Byte) : State :=
  let t := ((s.hostTakes pa bytes.length true).deviceWrite pa bytes.length (ofBytes bytes) (s.windowOrigin pa)).healLines pa bytes.length
  { t with frameLab := ((framesFrom pa bytes.length).drop 1).foldl (fun (m : Cells Label) i =>
      Cells.modify m (pa / 4096 + i) (· ||| s.windowOrigin (pa + 4096 * i))) t.frameLab }

/-- HOST_MEM_WRITE: performed, with the window's origin added to the label; outside DRAM it is discarded (R411). -/
def execHostMemWrite (pa : Nat) (bytes : List Byte) (s : State) : Host.Outcome State Fault Refusal :=
  if s.hostWaits pa bytes.length true || !rangeInDram pa bytes.length then .next s
  else .next (s.hostStores pa bytes)

/-- HOST_ATOMIC: an SC atomic at system scope; its old value leaves as a read would. A fence has nothing to wait for, since
each host access is performed when it is made (R411, R417). -/
def execHostAtomic (pa : Nat) (op : HostAtom) (s : State) : Host.Outcome State Fault Refusal :=
  let run (n : Nat) (f : Nat → Option Nat) : State :=
    if s.hostWaits pa n true then s
    else if s.hostRefused pa n then s.send (.poisoned pa)
    else
      let old := s.readHome (.dev pa) n
      let s := match f old with
        | some x => s.hostStores pa (bytesOf n x)
        | none => s.hostTakes pa n true
      s.send (.atomicOld (BitVec.ofNat 64 old))
  match op with
  | .rmw aop n sg b => .next (run n (fun old => some (atomNew aop sg (8 * n) old (b.toNat % 2 ^ (8 * n)))))
  | .cas n e x => .next (run n (fun old => if old = e.toNat % 2 ^ (8 * n) then some (x.toNat % 2 ^ (8 * n)) else none))
  | .fence => .next s

/-! ## Back-invalidates (R416) -/

/-- Does an access to a range touch a half? -/
def touches (p : Place) (n half : Nat) : Bool :=
  match p with
  | .dev pa => decide (pa < 64 * half + 64) && decide (64 * half < pa + n)
  | _ => false

/-- The bytes that a request of another module reaches at its address, and whether it writes them (R395). -/
def peerReach : PeerReq → Nat × Bool
  | .load n _ => (n, false)
  | .store n _ | .flagged n _ _ _ | .atomic _ n _ _ | .cas n _ _ => (n, true)
  | .copyData bs => (bs.length, true)
  | .copyFlag _ _ => (8, true)

/-- Does a request of another module wait here to touch a half, as a write or as a read? -/
def State.peerTouches (s : State) (half : Nat) (write : Bool) : Bool :=
  s.fabric.held.any (fun f => match f.body with
    | .request _ _ pa _ _ q => (peerReach q).2 == write && touches (.dev pa.toNat) (peerReach q).1 half
    | .response _ _ _ _ | .update _ _ | .window _ _ _ _ | .stage _ _ _ _ _ _ | .enrol _ _ _ _ | .check _ _ _ | .dead _ | .live _ => false)

/-- What a device access waits to do with a half: write it (true), or read it. -/
def State.wantsHalf (s : State) (half : Nat) : Option Bool :=
  let writes := s.peerTouches half true ||
    s.accesses.any (fun a => a.writes && !a.sent && touches a.place a.size half) ||
    s.cores.any (fun c => c.2.chans.any (fun ch => match ch.2.xfers with
      | [] => false
      | x :: _ => (match x.toAt x.at_ with | some p => touches p x.unitDue half | none => false) ||
          (decide (x.total ≤ x.done) && (match placeIn x.flagMap x.flag.toNat with
            | some p => touches p 8 half
            | none => false)))) ||
    s.contexts.any (fun c => match c.2.fqDue with
      | some e => touches (.dev (c.2.fqSlot e.seq)) 64 half
      | none => false) ||
    s.allWarps.any (fun x => (s.warp x.1 x.2).cbuf.any (fun e => match e with
      | .accesses as => as.any (fun a => touches a.place a.size half)
      | .copy _ x => (x.dstMap ++ x.flagMap).any (fun p => touches p.place 4096 half)
      | .tile _ _ _ _ _ | .event _ _ | .spawn _ _ _ | .flush _ => false))
  let reads := s.peerTouches half false ||
    s.accesses.any (fun a => !a.writes && !a.sent && touches a.place a.size half) ||
    s.cores.any (fun c => c.2.chans.any (fun ch => match ch.2.xfers with
      | [] => false
      | x :: _ => (match x.fromAt x.readAt with | some p => touches p (max 1 (x.reach x.readAt 8)) half | none => false))) ||
    s.allWarps.any (fun x => (s.warp x.1 x.2).cbuf.any (fun e => match e with
      | .copy _ x => x.srcMap.any (fun p => touches p.place 4096 half)
      | .accesses _ | .tile _ _ _ _ _ | .event _ _ | .spawn _ _ _ | .flush _ => false))
  if writes then some true else if reads then some false else none

/-- BACK_INVALIDATE_COMPLETE: the host gives up a half that a device access waits for: wholly for a write, down to a clean
copy for a read. -/
def execBackInvalidateComplete (half : Nat) (s : State) : Host.Outcome State Fault Refusal :=
  match Cells.get s.halves half, s.wantsHalf half with
  | .dev, _ => .next s
  | _, none => .next s
  | .shared, some false => .next s
  | .host, some false => .next { s with halves := Cells.set s.halves half .shared }
  | .shared, some true | .host, some true => .next { s with halves := Cells.set s.halves half .dev }

/-! ## Bias flips (R418) -/

/-- Does a copy channel stand inside a 128-byte line of a frame that it writes? -/
def State.midLine (s : State) (frame : Nat) : Bool :=
  s.cores.any (fun c => c.2.chans.any (fun ch => match ch.2.xfers with
    | [] => false
    | x :: _ => !x.stuck && decide (0 < x.at_) && (match x.toAt x.at_ with
      | some (.dev pa) => decide (pa / 4096 = frame / 4096) && decide (pa % 128 ≠ 0)
      | _ => false)))

/-- Puts a frame into a bias: dirty lines go to DRAM on the way to host bias, and no half stays with the host on the way to
device bias. -/
def State.setBias (s : State) (frame : Nat) (toDevice : Bool) : State :=
  let f := frame / 4096
  if toDevice then
    { s with bias := s.bias.filter (· != f), halves := Cells.clear s.halves (frame / 64) 64 }
  else
    let s := s.l2Clean (fun l => l / 32 == f)
    { s with bias := if s.bias.contains f then s.bias else s.bias ++ [f] }

/-- BIAS_FLIP_COMPLETE: the oldest flip of its frame ends, once the channels that write the frame stand at a line. -/
def execBiasFlipComplete (fn : Fn) (seq : Nat) (s : State) : Host.Outcome State Fault Refusal :=
  match s.flips.find? (fun f => f.port == fn.port && f.jseq == seq) with
  | none => .next s
  | some f =>
    if (s.flips.takeWhile (fun g => g != f)).any (fun g => g.frame == f.frame) || (!f.toDevice && s.midLine f.frame) then .next s
    else
      let s := { s.setBias f.frame f.toDevice with flips := s.flips.erase f }
      .next (s.journalSet (f.port, f.jseq) .completed .ok none)

/-! ## CXL.cache (R413, R414) -/

/-- HOST_SNOOP: a half goes back to the host, or down to a shared copy, after its dirty data; a write-back that fails leaves
it dirty. A half that goes takes its L1 copies with it (R413, R414). -/
def execHostSnoop (hpa : Nat) (remove : Bool) (s : State) : Host.Outcome State Fault Refusal :=
  let k := hpa / 64
  if Cells.get s.hostHalves k = .invalid then .next s
  else if Cells.get s.hostHalves k = .dirty ∧ s.hostFail.contains k then .next (s.refuseWriteBack k)
  else if remove then
    let s := s.hostDrop k
    if Cells.get s.hostHalves (k ^^^ 1) = .invalid then .next (s.l2Drop (fun l => l == 2 ^ 46 + k / 2)) else .next s
  else
    let s := s.hostWriteBack k
    .next { s with hostHalves := Cells.set s.hostHalves k .shared }

/-- CXL_CACHE_REQUEST_FAIL: the next request for a host half ends in an error: the lane that makes it takes the fault host
range, and a write-back leaves the half dirty (R414). -/
def execCxlCacheRequestFail (hpa : Nat) (s : State) : Host.Outcome State Fault Refusal :=
  .next { s with hostFail := if s.hostFail.contains (hpa / 64) then s.hostFail else s.hostFail ++ [hpa / 64] }

end Sys2Proof.Machine
end

