-- ==== Sys2Proof/Machine/Bindoff.lean ====
section
/-! DEFINITION. Ending a context for good: what is still on its way is performed, its launches are cancelled, its frames are
zeroed, its number frees (R361, R374). -/

namespace Sys2Proof.Machine

/-! ## What a page table maps -/

/-- The valid leaves of a page table, with their levels. -/
def leavesOf (mem : Memory) (joint : Bool) : Nat → Nat → List (DWord × Nat)
  | level, table =>
    (List.range 512).flatMap (fun i =>
      let e := BitVec.ofNat 64 (Cells.readLE mem (table + 8 * i) 8)
      if !bit e 0 then []
      else if bit e 1 then (if leafBad e level joint then [] else [(e, level)])
      else if nodeBad e level then []
      else match level with
        | 0 => []
        | l + 1 => leavesOf mem joint l (leafBase e))

/-- The local ranges that the leaves with APT = 0 of a context map, as base and size. -/
def State.localRanges (s : State) (ctx : Nat) : List (Nat × Nat) :=
  let c := s.context ctx
  (leavesOf s.mem c.partner.isSome 4 c.root).filterMap (fun l =>
    if leafApt l.1 = 0 then some (leafBase l.1 / levelBytes l.2 * levelBytes l.2, levelBytes l.2) else none)

/-! ## Groups -/

/-- The save frame of a frame's image, with the VF whose list it goes back to. -/
def FrameImage.holder (i : FrameImage) : List (Nat × Nat) := i.held.toList.map (fun f => (i.vf, f))

/-- Gives save frames back to the lists that they came from. -/
def State.freeHeld (s : State) (fs : List (Nat × Nat)) : State := fs.foldl (fun (s : State) f => s.freeFrames f.1 [f.2]) s

/-- The save frames that a group holds here, beside those of its context's images: pre-images, mirrors and staging. -/
def Group.heldFrames (g : Group) : List (Nat × Nat) :=
  (g.pre ++ g.mirror.map (·.2) ++ g.staging.map (·.2)).flatMap (·.holder)

/-- Dissolves a group on this module, and gives back its frames (R399). -/
def State.dropGroup (s : State) (key : Nat) : State :=
  match Cells.find? s.fabric.groups key with
  | none => s
  | some g =>
    let s := (s.freeFrames (s.context g.ctx).vf (g.images.flatMap (·.frames))).freeHeld g.heldFrames
    { s with fabric := { s.fabric with
        groups := Cells.erase s.fabric.groups key, reports := s.fabric.reports.filter (fun r => r.1 != key) } }

/-- Dissolves the groups in which a context is enrolled. -/
def State.dropGroupsOf (s : State) (ctx : Nat) : State :=
  ((List.filter (fun (g : Nat × Group) => g.2.ctx == ctx) s.fabric.groups).map (·.1)).foldl State.dropGroup s

/-! ## The steps of R374 -/

/-- The open entries of a context: launches are Cancelled, other commands Failed; one entry is kept (R196, R361). -/
def State.cancelJournal (s : State) (c : Context) (keep : Option JRef) : State :=
  s.ports.foldl (fun s p =>
    p.2.journal.foldl (fun s e =>
      if e.ofCtx p.1 c && !e.st.final && keep != some (p.1, e.seq) then
        (if e.type = 1 then s.journalSet (p.1, e.seq) .cancelled .cancelled none
         else s.journalSet (p.1, e.seq) .failed .contextEnded none)
      else s) s) s

/-- Drops every translation and every code line of a context. -/
def State.dropTranslations (s : State) (ctx : Nat) : State :=
  { s with
    cores := s.cores.map (fun c => (c.1, { c.2 with
      tlb := c.2.tlb.filter (fun e => e.ctx != ctx)
      icache := List.filter (fun (l : Nat × List DWord) => l.1 / 2 ^ 64 != ctx) c.2.icache }))
    dies := s.dies.map (fun d => (d.1, { d.2 with
      tlb := d.2.tlb.filter (fun e => e.ctx != ctx), walks := d.2.walks.filter (fun e => e.ctx != ctx) })) }

/-- Takes an owner handle off every line (R230, R374). -/
def State.dropOwner (s : State) (h : Nat) : State :=
  { s with
    cores := s.cores.map (fun c => (c.1, { c.2 with
      l1 := c.2.l1.map (fun l => if l.2.owner = h then (l.1, { l.2 with owner := 0 }) else l) }))
    dies := s.dies.map (fun d => (d.1, { d.2 with
      l2 := d.2.l2.map (fun x => (x.1, x.2.map (fun (l : L2Line) => if l.owner = h then { l with owner := 0 } else l))) })) }

/-- Begins a bind-off, as BIND_OFF and a function-level reset do: strands stop without a save, reads go with them, and of the
transfers only those that have begun go on, to the next line of their destination (R374). A request that an order point
holds is performed without it. -/
def State.bindOff (s : State) (ctx : Nat) (keep : Option JRef) : State :=
  let s := s.dropGroupsOf ctx
  let s := s.onContext ctx (fun c => { c with st := .ended, unbinding := true, unbindJ := keep })
  let s := s.dropContext ctx
  { s with
    accesses := (s.accesses.filter (fun a => a.ctx != ctx || !a.op.loads)).map (fun (a : Access) =>
      if a.ctx = ctx then { a with window := none } else a)
    cores := s.cores.map (fun c => (c.1, { c.2 with chans := c.2.chans.map (fun ch =>
      (ch.1, { ch.2 with xfers := match ch.2.xfers with
        | [] => []
        | x :: rest => x :: rest.filter (fun y => y.ctx != ctx) })) }))
    invals := s.invals.filter (fun v => v.2.1 != ctx) }

/-- Is everything that a context had issued performed, and has every transfer of it stopped (R374)? -/
def State.unbound (s : State) (ctx : Nat) : Bool :=
  s.accesses.all (fun a => a.ctx != ctx) &&
  s.cores.all (fun c => c.2.chans.all (fun ch => ch.2.xfers.all (fun x => x.ctx != ctx)))

/-- Ends a bind-off: steps 2 to 5 of R374, in their order. -/
def State.endBindOff (s : State) (ctx : Nat) : State :=
  let c := s.context ctx
  let s := s.cancelJournal c c.unbindJ
  let s := (s.localRanges ctx).foldl (fun (s : State) r => s.zeroRange r.1 r.2) s
  let s := s.zeroRange c.fq 262144
  let s := s.freeFrames c.vf ((c.save.map (·.frames)).getD [] ++ c.displaced.flatMap (·.frames))
  let s := s.dropTranslations ctx
  let s := match c.handle with | some h => s.dropOwner h | none => s
  let s := ({ s with contexts := Cells.erase s.contexts ctx } : State).unstall c.vf
  match c.unbindJ with
  | some r => s.journalSet r .completed .ok none
  | none => s

/-- Moves the transfers that a bind-off stops off their channels, and ends the bind-offs that may end. -/
def State.settleUnbinding (s : State) : State :=
  ((List.filter (fun (c : Nat × Context) => c.2.unbinding) s.contexts).map (·.1)).foldl (fun (s : State) k =>
    let s := (Cells.keys s.cores).foldl (fun (s : State) c => (List.range 4).foldl (fun (s : State) ch =>
      if (s.chanXfers c ch).any (fun x => x.ctx == k) then s.chanFinish c ch else s) s) s
    if s.unbound k then s.endBindOff k else s) s

end Sys2Proof.Machine
end

