-- ==== Sys2Proof/Machine/Hostcmd.lean ====
section
/-! DEFINITION. The host commands that act on a context, a frame or a watch window: LAUNCH, EVSET, CONTEXT_CREATE, BIND_OFF,
FAULT_RESUME, PREEMPT, RESUME, INVALIDATE_VA, BIAS_FLIP, WATCH_SET (R192-R194, R229, R284, R354, R362, R371, R374, R418). -/

namespace Sys2Proof.Machine

/-! ## The layout of a command (R189) -/

/-- The type of a command. -/
def cmdType (c : BitVec 512) : Nat := field c 7 0
/-- The client tag. -/
def cmdTag (c : BitVec 512) : Nat := field c 63 32
/-- The context number. -/
def cmdNum (c : BitVec 512) : Nat := field c 79 64
/-- Operand word i, which stands at +16 + 8 × i. -/
def cmdOp (c : BitVec 512) (i : Nat) : DWord := BitVec.ofNat 64 (field c (191 + 64 * i) (128 + 64 * i))
/-- The 32 operand bytes. -/
def cmdOperands (c : BitVec 512) : BitVec 256 := (c >>> 128).setWidth 256

/-- Are the operand words from one on zero? -/
def zeroFrom (c : BitVec 512) (i : Nat) : Bool := (List.range 4).all (fun j => decide (j < i) || cmdOp c j == 0)

/-- What processing a command comes to: the state and the status; none for BAD_COMMAND, which leaves no trace (R190). -/
abbrev Answer := Option (State × Status)

/-- The command's effect is whole. -/
def State.done (s : State) (r : JRef) (detail : Option Nat) : Answer :=
  some (s.journalSet r .completed .ok detail, .ok)
/-- A check failed. -/
def State.denied (s : State) (r : JRef) (st : Status) : Answer := some (s.journalSet r .failed st none, st)
/-- The command goes on for a while. -/
def State.goesOn (s : State) (r : JRef) : Answer := some (s.journalSet r .running .ok none, .ok)

/-! ## LAUNCH (R192) -/

/-- May the host name an address as a header's (R192)? -/
def headerVaOk (va : DWord) : Bool := decide (va.toNat % 64 = 0) && decide (field va 63 57 = 0)

/-- Reads a header for the host: none when a translation fails, a line is poisoned, or another module refuses it. -/
def State.hostHeader (s : State) (ctx : Nat) (va : DWord) : State × Option (Header × Label) :=
  (List.range 3).foldl (fun (acc : State × Option (Header × Label)) i =>
    match acc.2 with
    | none => acc
    | some (h, l) =>
      match acc.1.walkPlace ctx (va + BitVec.ofNat 64 (64 * i)) .read with
      | (s, none) => (s, none)
      | (s, some p) =>
        let s := s.hostGet p 64 false
        if s.badLine p || (p.remote && (Cells.get s.remote p.lineKey).egress) then (s, none)
        else (s, some (h ||| BitVec.ofNat 1536 (s.readHome p 64 <<< (512 * i)), l ||| s.unitLab p))) (s, some (0, 0))

/-- A line of a header that another module holds and that is still to be read (R182, R395; log 73). -/
def State.headerAsk (s : State) (ctx : Nat) (va : DWord) : Option Place :=
  (List.range 3).findSome? (fun i =>
    match (s.walkPlace ctx (va + BitVec.ofNat 64 (64 * i)) .read).2 with
    | some p => if s.hasLine p then none else some p
    | none => none)

/-- LAUNCH: the header is read and checked, and the launch is Pending with its serial number. -/
def State.cmdLaunch (s : State) (r : JRef) (ctx : Nat) (c : BitVec 512) : Answer :=
  let va := cmdOp c 0
  if !headerVaOk va then s.denied r .headerFault
  else match s.hostHeader ctx va with
    | (s, none) => s.denied r .headerFault
    | (s, some (h, lab)) =>
      if !h.valid then s.denied r .headerInvalid
      else if 2 ≤ h.nbv then s.denied r .nbvUnsupported
      else if !s.storeFree (s.context ctx).vf then s.denied r .noResource
      else
        let serial := (s.context ctx).serial
        let s := s.enterLaunch ctx h va r.1 r.2 lab []
        some (s.journalSet r .pending .ok (some serial), .ok)

/-! ## EVSET, CONTEXT_CREATE, BIND_OFF (R193, R194, R374) -/

/-- EVSET, set or clear. -/
def State.cmdEvset (s : State) (r : JRef) (ctx : Nat) (c : BitVec 512) : Answer :=
  ((s.eventBit ctx (field (cmdOp c 0) 7 0) (bit (cmdOp c 0) 8)).settleEvents).done r none

/-- The lowest context number free in a VF. -/
def State.freeNumber (s : State) (vf : Nat) : Option Nat := (List.range 64).find? (fun n => (s.ctxKey vf n).isNone)

/-- The key of the context that a VF's number names. -/
def contextKey (vf num : Nat) : Nat := 64 * vf + num

/-- Notes the number that a command has assigned (R195). -/
def State.journalCtx (s : State) (r : JRef) (num : Nat) : State :=
  s.onPort r.1 (fun p => { p with journal := p.journal.map (fun e => if e.seq = r.2 then { e with ctx := num } else e) })

/-- CONTEXT_CREATE: the lowest free number of a VF that holds an origin slot. -/
def State.cmdCreate (s : State) (r : JRef) (vf : Nat) (c : BitVec 512) : Answer :=
  if !(s.vf vf).ovalid then s.denied r .denied
  else match s.freeNumber vf with
    | none => s.denied r .noResource
    | some n =>
      let x : Context := { vf, num := n, root := (cmdOp c 0).toNat, fq := (cmdOp c 1).toNat }
      (({ s with contexts := Cells.put s.contexts (contextKey vf n) x } : State).journalCtx r n).done r (some n)

/-- BIND_OFF: the entry is Completed when the bind-off has ended (R374). -/
def State.cmdBindOff (s : State) (r : JRef) (ctx : Nat) : Answer := some ((s.bindOff ctx (some r)).settleUnbinding, .ok)

/-! ## FAULT_RESUME (R354) -/

/-- FAULT_RESUME: answers an unanswered entry; with PAGE, every entry of its kind and page, in sequence order. The command is
whole with its answer: a context that ends by what the answer leads to does not fail it. -/
def State.cmdFaultResume (s : State) (r : JRef) (ctx : Nat) (c : BitVec 512) : Answer :=
  let act := cmdOp c 1
  match (s.context ctx).entries.find? (fun e => e.seq == (cmdOp c 0).toNat && e.kind != 0x20) with
  | none => none
  | some e =>
    let all := if bit act 2 then
        (s.context ctx).entries.filter (fun f => f.seq == e.seq ||
          (f.kind == e.kind && decide (f.va.toNat / 4096 = e.va.toNat / 4096)))
      else [e]
    (s.done r none).map (fun x => (all.foldl (fun (s : State) f => s.answerFault ctx f.seq (field act 1 0)) x.1, x.2))

/-! ## PREEMPT and RESUME (R362, R371) -/

/-- Is a context rolled back: do commands take it for Saved (R405)? -/
def State.rolledBack (s : State) (ctx : Nat) : Bool := s.fabric.groups.any (fun g => g.2.ctx == ctx && g.2.st == .rollback)

/-- Is a VF of a context suspended? The other VF of a joint context may still name it (R373, R428). -/
def State.ctxSuspended (s : State) (ctx : Nat) : Bool :=
  let c := s.context ctx
  (s.vf c.vf).suspend || (match c.partner with | some p => (s.vf p.1).suspend | none => false)

/-- PREEMPT, by the state of the context; its entry is Accepted until the first strand stops (R362). One that a suspension
holds stays saved for it when the suspension ends. -/
def State.cmdPreempt (s : State) (r : JRef) (ctx : Nat) : Answer :=
  let wait (s : State) (f : Context → Context) : Answer :=
    some (s.onContext ctx (fun c => f { c with saveJ := c.saveJ ++ [r] }), .ok)
  if s.rolledBack ctx then (s.onContext ctx (fun c => { c with again := true })).done r (some 0)
  else match (s.context ctx).st with
    | .live => wait s (fun c => { c with st := .saving })
    | .saving => wait s (fun c => { c with
        suspendedFrom := if c.suspendedFrom = some .live then (if s.ctxSuspended ctx then some .saving else none)
                         else c.suspendedFrom })
    | .saved =>
      if (s.context ctx).suspendedFrom = some .restoring then wait s (fun c => { c with again := true })
      else (s.onContext ctx (fun c => { c with suspendedFrom := none })).done r (some 0)
    | .restoring => wait s (fun c => { c with again := true })
    | .ended => s.denied r .noContext

/-- RESUME, by the state of the context. -/
def State.cmdResume (s : State) (r : JRef) (ctx : Nat) : Answer :=
  let wait (s : State) (f : Context → Context) : Answer :=
    (s.onContext ctx (fun c => f { c with resumeJ := c.resumeJ ++ [r] })).goesOn r
  if s.rolledBack ctx then wait s (fun c => { c with again := false })
  else match (s.context ctx).st with
    | .live => s.done r none
    | .saving => wait s id
    | .saved =>
      if s.ctxSuspended ctx then wait s (fun c => { c with suspendedFrom := some (c.suspendedFrom.getD .restoring) })
      else wait s (fun c => { c with st := .restoring })
    | .restoring => wait s id
    | .ended => s.denied r .noContext

/-! ## INVALIDATE_VA (R229) -/

/-- Drops the translations and code lines of a context in a range of pages, the leaf's whole reach included. -/
def State.dropRange (s : State) (ctx first pages : Nat) : State :=
  { s with
    cores := s.cores.map (fun c => (c.1, { c.2 with
      tlb := tlbDrop c.2.tlb ctx first pages
      icache := List.filter (fun (l : Nat × List DWord) =>
        !(l.1 / 2 ^ 64 == ctx && decide (32 * first ≤ l.1 % 2 ^ 64) && decide (l.1 % 2 ^ 64 < 32 * (first + pages)))) c.2.icache }))
    dies := s.dies.map (fun d => (d.1, { d.2 with
      tlb := tlbDrop d.2.tlb ctx first pages
      walks := d.2.walks.filter (fun w => w.ctx != ctx ||
        !(decide (w.span * 2 ^ (9 + 9 * w.level) < first + pages) && decide (first < (w.span + 1) * 2 ^ (9 + 9 * w.level)))) })) }

/-- The accesses and transfers that an entry of a commit buffer holds. -/
def CEntry.ids : CEntry → List Nat
  | .accesses as => as.map (·.id)
  | .copy _ x => [x.id]
  | .tile _ _ _ _ _ | .event _ _ | .spawn _ _ _ | .flush _ => []

/-- The accesses and transfers in the commit buffers of a context, saved ones among them. -/
def State.buffered (s : State) (ctx : Nat) : List Nat :=
  let c := s.context ctx
  ((s.teamsOf ctx).map s.team ++ (c.save.toList ++ c.displaced).flatMap (fun x => x.teams.map (·.team))).flatMap (fun t =>
    t.warps.flatMap (fun w => w.2.cbuf.flatMap CEntry.ids))

/-- The accesses and transfers of a context that may have used an old entry, those in commit buffers among them. -/
def State.inFlight (s : State) (ctx : Nat) : List Nat :=
  (s.accesses.filter (fun a => a.ctx == ctx)).map (·.id) ++
  s.cores.flatMap (fun c => c.2.chans.flatMap (fun ch => (ch.2.xfers.filter (fun x => x.ctx == ctx)).map (·.id))) ++
  s.buffered ctx

/-- Is an access or transfer of a context still on its way, its updates included? -/
def State.onTheWay (s : State) (ctx id : Nat) : Bool :=
  s.accesses.any (fun a => a.id == id) || s.updating id .sys goneTeam ||
  s.cores.any (fun c => c.2.chans.any (fun ch => ch.2.xfers.any (fun x => x.id == id))) || (s.buffered ctx).contains id

/-- INVALIDATE_VA: the entries go at once; the command waits for what may have used them. -/
def State.cmdInvalidate (s : State) (r : JRef) (ctx : Nat) (c : BitVec 512) : Answer :=
  let n := (cmdOp c 1).toNat / 4096
  let first := if n = 0 then 0 else (cmdOp c 0).toNat / 4096
  let pages := if n = 0 then 2 ^ 45 else n
  let ids := s.inFlight ctx
  ({ s.dropRange ctx first pages with invals := s.invals ++ [(r, ctx, first, pages, ids)] } : State).goesOn r

/-- INVALIDATE_VA_COMPLETE: every access that may have used an old entry is performed. -/
def execInvalidateVaComplete (fn : Fn) (seq : Nat) (s : State) : Host.Outcome State Fault Refusal :=
  match s.invals.find? (fun v => v.1 == (fn.port, seq)) with
  | none => .next s
  | some v =>
    if v.2.2.2.2.any (s.onTheWay v.2.1) then .next s
    else
      let s := { s.dropRange v.2.1 v.2.2.1 v.2.2.2.1 with invals := s.invals.erase v }
      .next (s.journalSet v.1 .completed .ok none)

/-! ## BIAS_FLIP and WATCH_SET (R284, R418) -/

/-- BIAS_FLIP: to the bias that the frame has, or will have, nothing is left to do. -/
def State.cmdBiasFlip (s : State) (r : JRef) (fn : Fn) (c : BitVec 512) : Answer :=
  let off := (cmdOp c 0).toNat
  let want := bit (cmdOp c 1) 0
  let frame := match fn with
    | .pf => some off
    | .vf n => if off + 4096 ≤ (s.vf n).wsize then some ((s.vf n).wbase + off) else none
  match frame with
  | none => none
  | some f =>
    if !rangeInDram f 4096 then none
    else
      let mine := s.flips.filter (fun g => g.frame == f)
      let now := match mine.getLast? with
        | some g => g.toDevice
        | none => !s.bias.contains (f / 4096)
      if now = want ∧ mine.isEmpty then s.done r none
      else ({ s with flips := s.flips ++ [{ port := r.1, jseq := r.2, frame := f, toDevice := want }] } : State).goesOn r

/-- WATCH_SET: enables a window that overlaps no other, or removes one. -/
def State.cmdWatch (s : State) (r : JRef) (ctx : Nat) (c : BitVec 512) : Answer :=
  let n := field (cmdOp c 0) 2 0
  let base := cmdOp c 1
  let len := (cmdOp c 2).toNat
  let others := (s.context ctx).windows.filter (fun w => w.n != n)
  if !bit (cmdOp c 0) 7 then (s.onContext ctx (fun x => { x with windows := others })).done r none
  else if others.any (fun w => decide (w.base.toNat < base.toNat + len) && decide (base.toNat < w.base.toNat + w.len)) then none
  else (s.onContext ctx (fun x => { x with windows := others ++ [{ n, base, len }] })).done r none

end Sys2Proof.Machine
end

