-- ==== Sys2Proof/Machine/Tenancy.lean ====
section
/-! DEFINITION. Tenants: release policies, joint contexts, origin slots, the tenancy block, budgets' grants, registers written
by their access codes, function-level reset (R187, R366, R410, R422-R432). -/

namespace Sys2Proof.Machine

/-! ## Host data read by DMA (R428) -/

/-- Bytes of host memory under a VF's requester ID. -/
def State.hostBytes (s : State) (vf addr n : Nat) : List Byte :=
  (List.range n).map (fun i => BitVec.ofNat 8 (s.readHome (.host vf (addr + i)) 1))

/-- A little-endian field of some bytes. -/
def tenancyField (bs : List Byte) (off n : Nat) : Nat := ofBytes ((bs.drop off).take n)

/-! ## Policies (R431, R432) -/

/-- The slots of a label, ascending. -/
def slotsOf (l : Label) : List Nat := (List.range 16).filter (fun i => l.getLsbD i)

/-- Does a blob keep the layout of R431? -/
def policyOk (b : List Byte) : Bool :=
  decide (tenancyField b 0 4 = 1) && decide (tenancyField b 4 2 ≠ 0) && decide (tenancyField b 6 1 < 16) && decide (tenancyField b 7 1 = 0) &&
  decide (tenancyField b 8 4 ≠ 0) && decide (tenancyField b 12 4 = 0) && decide (tenancyField b 32 8 % 4096 = 0) && decide (tenancyField b 40 24 = 0)

/-- The policy that a blob describes. -/
def policyOf (b : List Byte) (period : Nat) : Policy :=
  { id := tenancyField b 8 4, set := BitVec.ofNat 16 (tenancyField b 4 2), dest := tenancyField b 6 1, byteLimit := tenancyField b 16 8,
    rateLimit := tenancyField b 24 8, regionLimit := tenancyField b 32 8, start := period }

/-- Does each origin of a policy's set sign its blob, in ascending slot order? -/
def State.policySigned (s : State) (b sigs : List Byte) (slots : List Nat) : Bool :=
  slots.zipIdx.all (fun x => Config.ed25519 (s.origin x.1).key (b.take 64) ((sigs.drop (64 * x.2)).take 64))

/-- POLICY_INSTALL with OPN 0. -/
def State.cmdInstall (s : State) (r : JRef) (vf : Nat) (c : BitVec 512) (dmaOk : Bool) : Answer :=
  let b := s.hostBytes vf (cmdOp c 0).toNat 64
  if !dmaOk || !policyOk b then none
  else
    let p := policyOf b s.period
    let sigs := s.hostBytes vf ((cmdOp c 0).toNat + 64) (64 * (slotsOf p.set).length)
    if (p.dest :: slotsOf p.set).any (fun x => (s.origin x).st != .bound) || !s.policySigned b sigs (slotsOf p.set) ||
        s.policies.any (fun q => q.id == p.id) then s.denied r .denied
    else if 256 ≤ s.policies.length then s.denied r .noResource
    else ({ s with policies := s.policies ++ [p] } : State).done r none

/-- POLICY_INSTALL with OPN 1. Gate steps are indivisible, so none has begun. -/
def State.cmdRemove (s : State) (r : JRef) (vf : Nat) (c : BitVec 512) : Answer :=
  match s.policies.find? (fun p => p.id == field (cmdOp c 2) 31 0 && (p.set &&& s.originOf vf != 0)) with
  | none => s.denied r .denied
  | some p => ({ s with policies := s.policies.erase p } : State).done r none

/-! ## Joint contexts (R428) -/

/-- Does a join request keep its layout, and does it name the VF that submits it? -/
def joinOk (q : List Byte) (vf vfs : Nat) : Bool :=
  let lead := tenancyField q 16 1
  let partner := tenancyField q 17 1
  decide (tenancyField q 0 4 = 1) && decide (tenancyField q 4 4 = 0) && decide (tenancyField q 18 6 = 0) && decide (tenancyField q 40 24 = 0) &&
  decide (tenancyField q 24 8 % 4096 = 0) && decide (tenancyField q 32 8 % 4096 = 0) &&
  decide (lead < partner) && decide (partner < vfs) && (vf == lead || vf == partner)

/-- Completes a join: the number of the context in a VF is the entry's detail. -/
def State.joined (s : State) (r : JRef) (num : Nat) : State := (s.journalCtx r num).journalSet r .completed .ok (some num)

/-- The request waits for its partner's; an earlier one of the VF ends. -/
def State.waitJoin (s : State) (r : JRef) (vf : Nat) (q : List Byte) : Answer :=
  let s := match (s.vf vf).join with
    | some j => s.journalSet (j.port, j.jseq) .failed .cancelled none
    | none => s
  (s.onVf vf (fun v => { v with join := some { req := q, port := r.1, jseq := r.2 } })).goesOn r

/-- JOINT_CONTEXT: the first of two matching requests waits, the second forms the context. A
suspension of either VF takes the new context with the others (R373). -/
def State.cmdJoint (s : State) (r : JRef) (vf : Nat) (c : BitVec 512) (dmaOk : Bool) : Answer :=
  let q := s.hostBytes vf (cmdOp c 0).toNat 128
  let lead := tenancyField q 16 1
  let partner := tenancyField q 17 1
  let other := if vf = lead then partner else lead
  if !dmaOk || !joinOk q vf s.power.image.vfs then none
  else if !(s.vf lead).ovalid || !(s.vf partner).ovalid ||
      !Config.ed25519 (s.origin (s.vf vf).origin).key (q.take 64) (q.drop 64) then s.denied r .denied
  else match (s.vf other).join with
    | some j =>
      if j.req = q.take 64 then
        match s.freeNumber lead, s.freeNumber partner with
        | some nl, some np =>
          let held := (s.vf lead).suspend || (s.vf partner).suspend
          let x : Context :=
            { vf := lead, num := nl, partner := some (partner, np), root := tenancyField q 24 8, fq := tenancyField q 32 8,
              st := if held then .saving else .live, suspendedFrom := if held then some .live else none }
          let s := { s with contexts := Cells.put s.contexts (contextKey lead nl) x }
          let s := s.onVf other (fun v => { v with join := none })
          let num (v : Nat) : Nat := if v = lead then nl else np
          some ((s.joined (j.port, j.jseq) (num other)).joined r (num vf), .ok)
        | _, _ => s.denied r .noResource
      else s.waitJoin r vf (q.take 64)
    | none => s.waitJoin r vf (q.take 64)

/-! ## Registers by their access codes (R5) -/

/-- A register of 8 bytes after a write that covers some bytes of its block. -/
def mergeBytes (old reg off width : Nat) (x : DWord) : Nat :=
  ofBytes ((List.range 8).map (fun i =>
    if decide (off ≤ reg + i) && decide (reg + i < off + width) then BitVec.ofNat 8 (x.toNat >>> (8 * (reg + i - off)))
    else BitVec.ofNat 8 (old >>> (8 * i))))

/-- Does a write cover a byte of `n` bytes from one on? -/
def coversBytes (lo n off width : Nat) : Bool := decide (off < lo + n) && decide (lo < off + width)

/-- Does a write cover a byte of a register? -/
def coversReg (reg off width : Nat) : Bool := coversBytes reg 8 off width

/-- The first register of a tenancy block. -/
def Vf.word0 (v : Vf) : Nat := v.strict.toNat * 2048 + v.cap * 256 + v.ovalid.toNat * 16 + v.origin

/-- Has a VF a context in any state? -/
def State.hasContext (s : State) (n : Nat) : Bool :=
  s.contexts.any (fun c => c.2.vf == n || (match c.2.partner with | some p => p.1 == n | none => false))

/-- May a host window be set so: whole 2 MiB units inside one die's DRAM, apart from every other VF's (R410)? -/
def State.windowOk (s : State) (n base size : Nat) : Bool :=
  decide (base % 2097152 = 0) && decide (size % 2097152 = 0) &&
  (size == 0 || (rangeInDram base size &&
    (List.range 32).all (fun m =>
      m == n || (s.vf m).wsize == 0 || decide ((s.vf m).wbase + (s.vf m).wsize ≤ base) || decide (base + size ≤ (s.vf m).wbase))))

/-- A write to one register of the tenancy block of a VF: none when the block refuses it. -/
def State.tenancyReg (s : State) (n reg off width : Nat) (x : DWord) : Option State :=
  let v := s.vf n
  let part (old : Nat) : Nat := mergeBytes old reg off width x
  match reg with
  | 0 =>
    let y := BitVec.ofNat 64 (part v.word0)
    let moved := field y 3 0 != v.origin || bit y 4 != v.ovalid
    if field y 63 12 ≠ 0 ∨ field y 7 5 ≠ 0 ∨ 6 ≤ field y 10 8 ∨ (moved ∧ s.hasContext n) ∨
        (bit y 4 ∧ (s.origin (field y 3 0)).st ≠ .bound) then none
    else some (s.onVf n (fun v => { v with strict := bit y 11, cap := field y 10 8, ovalid := bit y 4, origin := field y 3 0 }))
  | 8 =>
    let y := BitVec.ofNat 64 (part v.wbase)
    if field y 63 52 ≠ 0 ∨ field y 20 0 ≠ 0 ∨ (y.toNat ≠ v.wbase ∧ !v.suspended) ∨ !s.windowOk n y.toNat v.wsize then none
    else some (s.onVf n (fun v => { v with wbase := y.toNat }))
  | 16 =>
    let y := part v.wsize
    if (y ≠ v.wsize ∧ !v.suspended) ∨ !s.windowOk n v.wbase y then none
    else some (s.onVf n (fun v => { v with wsize := y }))
  | 24 =>
    let y := BitVec.ofNat 64 (part 0)
    if field y 63 1 ≠ 0 then none
    else some (s.onVf n (fun v => { v with tenerr := v.tenerr && !bit y 0 }))
  | _ => some s

/-- A write to the tenancy block of a VF: each register that the write covers takes it, or the block refuses it and sets
TENERR (R410). -/
def State.writeTenancy (s : State) (vf off width : Nat) (x : DWord) : State :=
  ([0, 8, 16, 24].filter (fun r => coversReg r off width)).foldl (fun (s : State) r =>
    (s.tenancyReg vf r off width x).getD (s.onVf vf (fun v => { v with tenerr := true }))) s

/-- TENANCY_WRITE: at an offset of the block of a VF (R410). -/
def execTenancyWrite (vf off width : Nat) (x : BitVec 64) (s : State) : Host.Outcome State Fault Refusal :=
  if 32 ≤ vf then .next s else .next (s.writeTenancy vf off width x)

/-! ## Budgets (R422, R423) -/

/-- The grant that the register of an activity and kind holds: the last one written (R5, R423). -/
def State.grantNext (s : State) (a k : Nat) : Nat := (Cells.find? (Cells.get s.budgets a).next k).getD (s.grantOf a k)

/-- Sets a grant from the next period on; the scrubber keeps its minimum. -/
def State.setGrant (s : State) (a k g : Nat) : State :=
  let g := if a = 32 then max g s.power.image.scrubMin else g
  let b := Cells.get s.budgets a
  { s with budgets := Cells.put s.budgets a { b with next := Cells.put b.next k g } }

/-- A write to the budget block of an activity: the bytes of GRANT that it covers change, the others stay (R5, R423). -/
def State.writeBudget (s : State) (a off width : Nat) (x : DWord) : State :=
  ((List.range 5).filter (fun k => coversBytes (8 * k) 4 off width)).foldl (fun (s : State) k =>
    s.setGrant a k (mergeBytes (s.grantNext a k) (8 * k) off width x % 2 ^ 32)) s

/-- GRANT_WRITE: at an offset of the block of an activity (R423). -/
def execGrantWrite (a : Nat) (k : RegPart) (x : BitVec 64) (s : State) : Host.Outcome State Fault Refusal :=
  if 38 ≤ a then .next s else .next (s.writeBudget a k.off k.width x)

/-- A budget at the start of a period: grants written take effect, charges start anew, negative balances are carried. -/
def State.refillBudget (s : State) (a : Nat) (b : Budget) : Budget :=
  let g : Cells Nat := b.next.foldl (fun (m : Cells Nat) x => Cells.put m x.1 x.2) b.grant
  let grant (k : Nat) : Nat := (Cells.find? g k).getD (s.grantOf a k)
  { grant := g
    balance := b.balance.filterMap (fun x => if x.2 < 0 then some (x.1, x.2 + grant (x.1 / 65536)) else none)
    stalls := if b.waited then (b.stalls + 1) % 2 ^ 64 else b.stalls }

/-- Does the update generation of a die still advance at the end of this period: has the die forwarded an update in it, and
has the generation not advanced for it already (R232)? -/
def State.genDue (s : State) (die : Nat) : Bool :=
  (s.die die).forwarded && (s.die die).genPeriod != some (s.cycle / 10800)

/-- Advances the update generation of a die for this period, and the counts of its sleeping cores (R232, R233). -/
def State.advanceGen (s : State) (die : Nat) : State :=
  let s := s.onDie die (fun d => { d with gen := (d.gen + 1) % 65536, genPeriod := some (s.cycle / 10800) })
  { s with cores := s.cores.map (fun c =>
      if dieOf c.1 = die then (c.1, { c.2 with sleep := c.2.sleep.map (fun z => { z with count := min (z.count + 1) 32768 }) })
      else c) }

/-- Is this the last cycle of a budget period? -/
def State.periodEnds (s : State) : Bool := s.cycle % 10800 == 10799

/-- UPDATE_GENERATION_ADVANCE: at the end of a period, for a die that forwarded updates in it (R232). -/
def execUpdateGenerationAdvance (die : Nat) (s : State) : Host.Outcome State Fault Refusal :=
  if s.periodEnds && s.genDue die then .next (s.advanceGen die) else .next s

/-- BUDGET_PERIOD: the next period begins (R422). -/
def execBudgetPeriod (s : State) : Host.Outcome State Fault Refusal :=
  if s.periodEnds then
    let s := ((List.range 8).filter s.genDue).foldl (fun (s : State) d => s.advanceGen d) s
    .next { s with
      cycle := s.cycle + 1, budgets := s.budgets.map (fun b => (b.1, s.refillBudget b.1 b.2))
      dies := s.dies.map (fun d => (d.1, { d.2 with forwarded := false })) }
  else .next s

/-! ## Origin slots (R424-R427) -/

/-- SPDM_SESSION: a session with mutual authentication stands, with the measurement summary of the tenant agent (R426). -/
def execSpdmSession (auth : Bool) (summary : List Byte) (s : State) : Host.Outcome State Fault Refusal :=
  .next { s with spdm := if auth then some summary else none }

/-- BIND_ORIGIN: within a session the lowest Free slot takes the key (R426). -/
def execBindOrigin (key : List Byte) (s : State) : Host.Outcome State Fault Refusal :=
  match s.spdm with
  | none => .next (s.send .refused)
  | some sum =>
    match (List.range 16).find? (fun n => (s.origin n).st == .free) with
    | some n =>
      if key.length ≠ 32 then .next (s.send .doeError)
      else .next (((s.onOrigin n (fun o => { o with st := .bound, key := key, summary := sum })).send (.bound n)).send (.msix 0 2))
    | none => .next (s.send .doeError)

/-- A Bound slot that no VF with a live context names starts unbinding; the policies that name it go (R424, R432). -/
def State.unbindSlot (s : State) (slot : Nat) : State :=
  let named := s.contexts.any (fun c => c.2.st != .ended && (s.origins_ c.2).getLsbD slot)
  if (s.origin slot).st ≠ .bound ∨ named then s
  else
    let s := s.onOrigin slot (fun o => { o with st := .unbinding })
    ({ s with policies := s.policies.filter (fun p => !p.set.getLsbD slot && p.dest != slot) } : State).send (.msix 0 2)

/-- UNBIND: a write of the UNBIND bit (R424, R427). -/
def execUnbind (slot : Nat) (s : State) : Host.Outcome State Fault Refusal := .next (s.unbindSlot slot)

/-- The union of the labels that a placed team's state carries. -/
def State.stateLabels (s : State) (k : Nat) : Label := (s.toSave k).labels

/-- Drops the copies of other modules' lines that carry a slot's bit (R424). -/
def State.dropOriginCopies (s : State) (slot : Nat) : State :=
  { s with
    cores := s.cores.map (fun c => (c.1, { c.2 with
      l1 := List.filter (fun (l : Nat × L1Line) => !l.2.lab.getLsbD slot) c.2.l1 }))
    remote := List.filter (fun (l : Nat × RemoteLine) => !l.2.lab.getLsbD slot) s.remote }

/-- ORIGIN_UNBIND_COMPLETE: every frame that carries the slot's bit is zeroed, and copies of other modules' lines that carry it
are dropped; with the bit gone everywhere, the slot is Free (R424). -/
def execOriginUnbindComplete (slot : Nat) (s : State) : Host.Outcome State Fault Refusal :=
  if (s.origin slot).st ≠ .unbinding then .next s
  else
    let frames := (List.filter (fun (f : Nat × Label) => f.2.getLsbD slot) s.frameLab).map (·.1)
    let s := frames.foldl (fun (s : State) f =>
      (List.range 64).foldl (fun (s : State) i =>
        let pa := 4096 * f + 64 * i
        s.charge copyActivity 1 (homeDie pa * 96 + homeSlice pa) 1) (s.zeroFrame f)) (s.dropOriginCopies slot)
    if (Cells.keys s.teams).any (fun k => (s.stateLabels k).getLsbD slot) then .next s
    else .next ((s.onOrigin slot (fun _ => {})).send (.msix 0 2))

/-! ## Function-level reset (R187) -/

/-- Forgets which journal entries of a port commands in progress are to complete. -/
def State.forgetPort (s : State) (port : Nat) : State :=
  { s with
    contexts := s.contexts.map (fun c => (c.1, { c.2 with unbindJ := c.2.unbindJ.filter (fun r => r.1 != port) }))
    flips := s.flips.map (fun f => if f.port = port then { f with jseq := 0 } else f) }

/-- FUNCTION_LEVEL_RESET: every context of the VF ends as by BIND_OFF, and its command port takes its reset values. -/
def execFunctionLevelReset (vf : Nat) (s : State) : Host.Outcome State Fault Refusal :=
  let ks := (List.filter (fun (c : Nat × Context) =>
    c.2.vf == vf || (match c.2.partner with | some p => p.1 == vf | none => false)) s.contexts).map (·.1)
  let s := (s.forgetPort (vf + 1)).onVf vf (fun v => { v with join := none })
  let s := (ks.foldl (fun (s : State) k => s.bindOff k (s.context k).unbindJ) s).settleUnbinding
  .next { s with ports := Cells.erase s.ports (vf + 1) }

end Sys2Proof.Machine
end

