-- ==== Sys2Proof/Machine/Suspend.lean ====
section
/-! DEFINITION. Saving and restoring contexts whole, the save-frame list, suspending a virtual function (R363-R373). -/

namespace Sys2Proof.Machine

/-! ## Suspension (R373) -/

/-- Does a context belong to a VF, as its lead or its partner? -/
def Context.ofVf (c : Context) (vf : Nat) : Bool :=
  c.vf == vf || (match c.partner with | some p => p.1 == vf | none => false)

/-- Has every strand of a context stopped, with no access of it in flight but the loads that will be issued again (R365)? -/
def State.stopped (s : State) (k : Nat) : Bool :=
  (s.teamsOf k).all (fun t => s.savable t) &&
  s.accesses.all (fun a => a.ctx != k || a.unissued) &&
  s.cores.all (fun c => c.2.chans.all (fun ch => ch.2.xfers.all (fun x => x.ctx != k || x.stuck)))

/-- Does a suspension hold a context: is it saved, over, or captured in the middle of a save? -/
def State.captured (s : State) (k : Nat) : Bool :=
  let c := s.context k
  match c.st with
  | .saved | .ended => true
  | .saving => c.suspendedFrom == some .saving && s.stopped k
  | .live | .restoring => false

/-- SUSPENDED reads 1 once every context of a suspended VF is held. -/
def State.noteSuspended (s : State) (vf : Nat) : State :=
  s.onVf vf (fun v => { v with
    suspended := v.suspend && (s.contexts.all (fun c => !c.2.ofVf vf || s.captured c.1)) })

/-- Brings a context to a save for a suspension. -/
def Context.suspend (c : Context) : Context :=
  if c.suspendedFrom.isSome then c
  else match c.st with
    | .live => { c with st := .saving, suspendedFrom := some .live }
    | .saving => { c with suspendedFrom := some .saving }
    | .restoring => { c with st := .saved, suspendedFrom := some .restoring }
    | .saved | .ended => c

/-- Suspends a VF: the command port stops, and every context of the VF is brought to a save (R373). -/
def State.suspendVf (s : State) (vf : Nat) : State :=
  if (s.vf vf).suspend then s
  else
    let s := s.onVf vf (fun v => { v with suspend := true })
    ({ s with contexts := s.contexts.map (fun c => if c.2.ofVf vf then (c.1, c.2.suspend) else c) } : State).noteSuspended vf

/-- SUSPEND_SET: VFCTL.SUSPEND becomes 1. -/
def execSuspendSet (vf : Nat) (s : State) : Host.Outcome State Fault Refusal := .next (s.suspendVf vf)

/-- Takes a context out of a suspension: what was Live or Restoring is restored, one whose save has not ended after that
save; a guest's save goes on, a Saved context stays (R361, R373). -/
def State.unsuspend (s : State) (k : Nat) : State :=
  let c := s.context k
  match c.suspendedFrom with
  | none => s
  | some .live => if c.st = .saved then s.onContext k (fun c => { c with st := .restoring, suspendedFrom := none }) else s
  | some .restoring =>
    s.onContext k (fun c => { c with st := if c.st = .saved then .restoring else c.st, suspendedFrom := none })
  | some _ => s.onContext k (fun c => { c with suspendedFrom := none })

/-- Ends a suspension, the port's queue apart. A joint context goes on when neither of its VFs is suspended. -/
def State.endSuspension (s : State) (vf : Nat) : State :=
  let s := s.onVf vf (fun v => { v with suspend := false, suspended := false })
  let free (c : Context) : Bool :=
    c.ofVf vf && !(s.vf c.vf).suspend && (match c.partner with | some p => !(s.vf p.1).suspend | none => true)
  ((List.filter (fun (c : Nat × Context) => free c.2) s.contexts).map (·.1)).foldl State.unsuspend s

/-! ## The end of a save (R365, R367) -/

/-- A save takes the frames it needs, or as many as there are: then it stalls with what it has. -/
def State.gatherFrames (s : State) (k : Nat) : State × Bool :=
  let c := s.context k
  let have_ := (c.save.map (·.frames)).getD []
  let needed := s.framesNeeded ((s.teamsOf k).map s.toSave)
  let r := s.takeFrames c.vf have_.length needed c.stalled
  let frames := have_ ++ r.2
  (r.1.onContext k (fun c => { c with save := some { frames := frames }, stalled := decide (frames.length < needed) }),
    decide (needed ≤ frames.length))

/-- Where the end of a save leaves its context: Saved, or on its way back when a RESUME waits or a suspension that has ended
had stopped it (R371, R373). -/
def Context.afterSave (c : Context) (held : Bool) : CtxSt :=
  if held then .saved else if c.suspendedFrom = some .live || !c.resumeJ.isEmpty then .restoring else .saved

/-- Finishes the journal entries that wait for a context. -/
def State.finishAll (s : State) (rs : List JRef) (detail : Option Nat) : State :=
  rs.foldl (fun (s : State) r => s.journalSet r .completed .ok detail) s

/-- CONTEXT_SAVE_COMPLETE: with every strand stopped and every frame at hand, the teams go into the save. A guest's save that
a suspension has captured does not end during it. -/
def execContextSaveComplete (vf ctx : Nat) (s : State) : Host.Outcome State Fault Refusal :=
  match s.ctxKey vf ctx with
  | none => .next s
  | some k =>
    let c := s.context k
    let held := s.ctxSuspended k
    if c.st ≠ .saving ∨ (held ∧ c.suspendedFrom = some .saving) ∨ !s.stopped k then .next s
    else
      let g := s.gatherFrames k
      if !g.2 then .next g.1
      else
        let frames := ((g.1.context k).save.map (·.frames)).getD []
        let r := (s.teamsOf k).foldl (fun (acc : State × List SavedTeam) t =>
          let x := acc.1.takeTeam t
          (x.1, acc.2 ++ [x.2])) (g.1, [])
        let save : Saved := { teams := r.2, frames := frames }
        let s := (r.1.writeSave c.num save).finishAll c.saveJ (some frames.length)
        let s := s.onContext k (fun c =>
          { c with save := some save, saveJ := [], stalled := false, st := c.afterSave held
                   suspendedFrom := if held then c.suspendedFrom else none })
        .next ((s.unstall c.vf).noteSuspended c.vf)

/-! ## When a PREEMPT runs (R362) -/

/-- Has a strand of a slice of a warp stopped for a save? -/
def State.strandStopped (s : State) (k w slice : Nat) (x : Strand) : Bool :=
  s.savableSt x.st &&
  (s.warp k w).results.all (fun r => r.kind.savable || r.lanes &&& sliceLanes slice x.mask == 0) &&
  (s.core (s.team k).core).matrix.all (fun m => m.team != k || m.warp != w || m.savable)

/-- The entry of a PREEMPT becomes Running when the first strand of its context stops; a suspension writes nothing to the
journal (R362, R373). -/
def State.settlePreempt (s : State) (k : Nat) : State :=
  let c := s.context k
  match c.saveJ with
  | [] => s
  | r :: _ =>
    let first := ((s.port r.1).journal.any (fun e => e.seq == r.2 && e.st == .accepted)) &&
      (s.teamsOf k).any (fun t => (s.team t).warps.any (fun w => w.2.slices.any (fun x =>
        x.2.strands.any (fun y => s.strandStopped t w.1 x.1 y.2))))
    if c.st = .saving && !s.ctxSuspended k && first then s.journalSet r .running .ok none else s

/-- Brings the entries of PREEMPT commands up to date. -/
def State.settlePreempts (s : State) : State := (Cells.keys s.contexts).foldl State.settlePreempt s

/-! ## The end of a restore (R370, R371) -/

/-- Places every cluster of a save again, when all fit. -/
def State.putSave (s : State) (x : Saved) : Option State := (clustersOf x.teams).foldlM (fun s xs => s.putCluster xs) s

/-- RESTORE_COMPLETE: the teams are placed, the frames return, answers that waited take effect; frames that do not match
their CRC leave the context Saved. -/
def execRestoreComplete (vf ctx : Nat) (s : State) : Host.Outcome State Fault Refusal :=
  match s.ctxKey vf ctx with
  | none => .next s
  | some k =>
    let c := s.context k
    if c.st ≠ .restoring then .next s
    else
      let save := c.save.getD {}
      if !s.saveIntact save then
        let s := c.resumeJ.foldl (fun (s : State) r => s.journalSet r .failed .denied none) s
        .next (s.onContext k (fun c => { c with st := .saved, resumeJ := [] }))
      else match (s.takeHandle k).bind (fun s => s.putSave save) with
        | none => .next s
        | some s =>
          let s := s.freeFrames c.vf save.frames
          let s := s.onContext k (fun c => { c with st := .live, save := none, resumeJ := [] })
          let s := (s.applyAnswers k).finishAll c.resumeJ none
          .next (if c.again then s.onContext k (fun c => { c with st := .saving, again := false }) else s)

/-! ## The free list (R366) -/

/-- A write to SFADD: a whole write of a frame in DRAM goes to the end of the list; any other is refused. -/
def State.addFrame (s : State) (vf : Nat) (x : BitVec 64) (whole : Bool) : State :=
  s.onVf vf (fun v =>
    if !whole || field x 11 0 != 0 || !rangeInDram x.toNat 4096 || decide (65536 ≤ v.free.length) then { v with badadd := true }
    else { v with free := v.free ++ [x.toNat / 4096] })

/-- SFADD: a frame joins the save-frame list of a VF, or is refused. -/
def execSfadd (vf : Nat) (x : BitVec 64) (whole : Bool) (s : State) : Host.Outcome State Fault Refusal :=
  .next (s.addFrame vf x whole)

end Sys2Proof.Machine
end

