-- ==== Sys2Proof/Machine/Group.lean ====
section
/-! DEFINITION. Coordinated checkpoints: enrolling, the states of a checkpoint, pre-images, the buddy's copies, rollback
(R398-R407). -/

namespace Sys2Proof.Machine

/-- What the save frames of a context hold, whose layout is not architectural: a replacement reads a lost module's context
from them (R368, R405; log 6). -/
opaque thawFrames : List (List Byte) → CtxImage

/-! ## Messages (R399, R400) -/

/-- The members of a group other than this module that are not dead. -/
def State.others (s : State) (g : Group) : List Nat :=
  (g.phys.filter (fun m => m != s.self && !s.fabric.dead.contains m)).eraseDups

/-- Sends a message on VN7 to every other member. -/
def State.tellGroup (s : State) (key : Nat) (body : FlitBody) : State :=
  (s.others (Cells.get s.fabric.groups key)).foldl (fun (s : State) m => s.sendFlit m 7 0 [] body) s

/-- Is this module the leader: the live member with the lowest physical id? -/
def State.leads (s : State) (g : Group) : Bool := (s.others g).all (fun m => decide (s.self < m))

/-- The group of a number. -/
def State.group (s : State) (key : Nat) : Group := Cells.get s.fabric.groups key

/-- Cycles of a number of milliseconds (R398; log 3). -/
def msCycles (n : Nat) : Nat := 2700000 * n

/-! ## Enrolling (R398, R399) -/

/-- The logical ids of some members, ascending. -/
def memberIds (m : BitVec 16) : List Nat := (List.range 16).filter (fun i => m.getLsbD i)

/-- The physical module of a logical id, for the VF whose place table names it. -/
def State.physOf (s : State) (vf self i : Nat) : Nat :=
  if i = self then s.self else ((Cells.find? (s.vf vf).peers i).map (·.1)).getD 16

/-- Do the place table's entries fit an enrolment: none at SELF, one at every other member? -/
def State.placesFit (s : State) (vf : Nat) (members : BitVec 16) (self : Nat) : Bool :=
  (Cells.find? (s.vf vf).peers self).isNone &&
  (memberIds members).all (fun i => i == self || (Cells.find? (s.vf vf).peers i).isSome)

/-- Do two lists name the same modules? -/
def sameModules (a b : List Nat) : Bool := a.all (b.contains ·) && b.all (a.contains ·)

/-- The physical id of this module's buddy in a group. -/
def Group.buddyPhys (g : Group) : Nat := g.phys.getD ((memberIds g.members).idxOf g.buddy) 16

/-- Settles an enrolment: it fails when another member's differs, and is Completed when all have enrolled alike. -/
def State.settleGroup (s : State) (key : Nat) : State :=
  let g := s.group key
  if (Cells.find? s.fabric.groups key).isNone || g.st != .enrolling then s
  else
    let mine := s.fabric.reports.filter (fun r => r.1 == key)
    if mine.any (fun r => r.2.2.1 != g.interval || !sameModules r.2.2.2.1 g.phys) then
      (s.journalSet (g.port, g.jseq) .failed .denied none).dropGroup key
    else if (s.others g).all (fun m => mine.any (fun r => r.2.1 == m)) then
      (s.onGroup key (fun g => { g with st := .running, due := s.cycle })).journalSet (g.port, g.jseq) .completed .ok none
    else s

/-- CHECKPOINT_ENROL with OPN 0. -/
def State.cmdEnrol (s : State) (r : JRef) (ctx : Nat) (c : BitVec 512) : Answer :=
  let key := field (cmdOp c 0) 63 32
  let op := cmdOp c 2
  let vf := (s.context ctx).vf
  let members := BitVec.ofNat 16 (field op 15 0)
  let self := field op 19 16
  if !s.placesFit vf members self then none
  else if s.fabric.groups.any (fun g => g.2.ctx == ctx) || (Cells.find? s.fabric.groups key).isSome then s.denied r .denied
  else
    let g : Group :=
      { interval := field (cmdOp c 1) 31 0, phys := (memberIds members).map (s.physOf vf self), members, self
        buddy := field op 23 20, ctx, port := r.1, jseq := r.2 }
    let s := { s with fabric := { s.fabric with groups := Cells.put s.fabric.groups key g } }
    match s.goesOn r with
    | none => none
    | some (s, st) => some ((s.tellGroup key (.enrol key g.interval g.phys g.buddyPhys)).settleGroup key, st)

/-- CHECKPOINT_ENROL with OPN 1: the group dissolves once no checkpoint is in progress; an enrolment still open ends. -/
def State.cmdWithdraw (s : State) (r : JRef) (ctx : Nat) (c : BitVec 512) : Answer :=
  let key := field (cmdOp c 0) 63 32
  let g := s.group key
  if (Cells.find? s.fabric.groups key).isNone || g.ctx != ctx then s.denied r .denied
  else if g.st = .enrolling then ((s.journalSet (g.port, g.jseq) .failed .cancelled none).dropGroup key).done r none
  else
    let s := s.tellGroup key (.check .withdraw key g.n)
    if g.st = .running ∧ g.n = g.committed then (s.dropGroup key).done r none
    else (s.onGroup key (fun g => { g with withdraw := some r, dissolve := true })).goesOn r

/-- Another member withdraws. -/
def State.groupWithdraw (s : State) (key : Nat) : State :=
  let g := s.group key
  if g.st = .running ∧ g.n = g.committed then s.dropGroup key
  else s.onGroup key (fun g => { g with dissolve := true })

/-- CHECKPOINT_ENROL with OPN 2, on the physical function's port: the VF is the lowest suspended one whose place table
fits (log 22). -/
def State.cmdAdopt (s : State) (r : JRef) (c : BitVec 512) : Answer :=
  let key := field (cmdOp c 0) 63 32
  let op := cmdOp c 2
  let members := BitVec.ofNat 16 (field op 15 0)
  let self := field op 19 16
  match (List.range 32).find? (fun v => (s.vf v).suspended && s.placesFit v members self) with
  | none => none
  | some vf =>
    if (s.ctxKey vf (cmdNum c)).isSome || (Cells.find? s.fabric.groups key).isSome then s.denied r .noResource
    else
      let x : Context := { vf, num := cmdNum c, st := .saved, root := 0, fq := 0 }
      let g : Group :=
        { interval := field (cmdOp c 1) 31 0, phys := (memberIds members).map (s.physOf vf self), members, self
          buddy := field op 23 20, ctx := contextKey vf (cmdNum c), port := r.1, jseq := r.2, st := .rollback, adopt := true
          lost := [field (cmdOp c 3) 3 0] }
      ({ s with
          contexts := Cells.put s.contexts (contextKey vf (cmdNum c)) x
          fabric := { s.fabric with groups := Cells.put s.fabric.groups key g } } : State).goesOn r

/-! ## The cut (R400, R401, R403) -/

/-- The bytes of a frame. -/
def State.frameBytes (s : State) (frame : Nat) : List Byte := (List.range 4096).map (fun i => Cells.get s.mem (4096 * frame + i))

/-- Takes one save frame of a VF and fills it with bytes and a label: none when the list is empty, which stalls. `waited` says
that it has come to an empty list before. -/
def State.holdFrame (s : State) (vf : Nat) (bytes : List Byte) (lab : Label) (waited : Bool) : State × Option Nat :=
  match s.takeFrames vf 0 1 waited with
  | (s, f :: _) =>
    ({ s with mem := Cells.fill s.mem (4096 * f) 4096 (fun i => bytes.getD i 0)
              frameLab := Cells.modify s.frameLab f (· ||| lab)
              poison := s.poison.filter (fun l => l / 32 != f) }, some f)
  | (s, []) => (s, none)

/-- The teams of a context: those that a save of it holds, and those on cores. -/
def State.imageTeams (s : State) (ctx : Nat) : List SavedTeam :=
  ((s.context ctx).save.map (·.teams)).getD [] ++ (s.teamsOf ctx).map s.toSave

/-- The image of a group's context. -/
def State.imageOf (s : State) (g : Group) (frames : List Nat) : CtxImage :=
  { n := g.n, ctx := s.context g.ctx, teams := s.imageTeams g.ctx
    launches := List.filter (fun (l : Nat × Launch) => l.2.ctx == g.ctx) s.launches
    clusters := s.clusters.filter (fun c => (s.launch c.launch).ctx == g.ctx), frames
    tails := s.ports.map (fun p => (p.1, p.2.tail)) }

/-- The peer VF that a context's place table names for a logical id (R391). -/
def State.peerVf (s : State) (ctx idx : Nat) : Nat :=
  ((Cells.find? (s.vf (s.context ctx).vf).peers idx).map (·.2)).getD 0

/-- Sends one frame to the buddy, and notes that it is not acknowledged. -/
def State.sendStage (s : State) (key dst vf n : Nat) (state : Bool) (frame pa : Nat) : State :=
  let seq := Cells.get s.fabric.nextSeq (dst * 8 + 7)
  let s := s.charge 33 3 (s.portTo dst) 64
  (s.sendFlit dst 7 (Cells.get s.frameLab frame) [] (.stage key n state vf pa (s.frameBytes frame))).onGroup key (fun g =>
    { g with unacked := g.unacked ++ [(dst, seq)] })

/-- The frames of some ranges. -/
def framesIn (rs : List (Nat × Nat)) : List Nat := rs.flatMap (fun r => (List.range (r.2 / 4096)).map (fun i => r.1 / 4096 + i))

/-- Saves a team and places it again where it stands, as the cut of a checkpoint does (R400). -/
def State.cutTeam (s : State) (k : Nat) : State :=
  let t := s.team k
  let x := s.takeTeam k
  (x.1.putTeam x.2 t.core).onTeam k (fun y => { y with placedAt := t.placedAt })

/-- Takes the cut: the context is saved into frames that stay with the group and goes on where it stands; the copy to the
buddy begins. With too few frames it stalls. -/
def State.takeCut (s : State) (key : Nat) : State :=
  let g := s.group key
  let vf := (s.context g.ctx).vf
  let ks := s.teamsOf g.ctx
  let needed := s.framesNeeded (s.imageTeams g.ctx)
  if (s.vf vf).free.length < needed then
    let news := !g.stalled
    let s := (s.onVf vf (fun v => { v with exhausted := true, stalled := true })).onGroup key (fun g => { g with stalled := true })
    if news then s.send (.msix 0 0) else s
  else
    let f := s.takeFrames vf 0 needed g.stalled
    let img := f.1.imageOf g f.2
    let s := f.1.writeSave (s.context g.ctx).num { teams := img.teams, frames := img.frames }
    let s := ks.foldl State.cutTeam s
    let ranges := s.localRanges g.ctx
    let copy := (framesIn ranges).filter (fun x => g.copyAll || g.written.contains x)
    let s := s.onGroup key (fun g =>
      { g with st := .copying, cutN := g.n, ranges, written := [], images := g.images ++ [img], copyAll := false
               stalled := false })
    let to_ := s.peerVf g.ctx g.buddy
    let s := copy.foldl (fun (s : State) x => s.sendStage key g.buddyPhys to_ g.n false x (4096 * x)) s
    let s := img.frames.foldl (fun (s : State) x => s.sendStage key g.buddyPhys to_ g.n true x (4096 * x)) s
    s.unstall vf

/-- PRE_IMAGE_COPY: the contents and label of a frame go into a save frame before its first write after a cut; an empty list
holds the write (R403). -/
def execPreImageCopy (group frame : Nat) (s : State) : Host.Outcome State Fault Refusal :=
  let g := s.group group
  if (Cells.find? s.fabric.groups group).isNone || !g.owesPreImage frame then .next s
  else
    let vf := (s.context g.ctx).vf
    let lab := Cells.get s.frameLab frame
    let bytes := s.frameBytes frame
    match s.holdFrame vf bytes lab g.stalled with
    | (s, none) => .next (s.onGroup group (fun g => { g with stalled := true }))
    | (s, some f) =>
      .next ((s.onGroup group (fun g =>
        { g with stalled := false
                 pre := g.pre ++ [{ n := g.cutN, pa := 4096 * frame, state := false, data := bytes, lab, vf, held := some f }] })).unstall vf)

/-! ## The steps of a checkpoint (R400) -/

/-- Begins checkpoint n: the context stops. -/
def State.groupBegin (s : State) (key n : Nat) : State :=
  let g := s.group key
  if g.st = .running ∧ n = g.n + 1 ∧ g.n = g.committed then
    s.onGroup key (fun g => { g with st := .quiescing, n := n, drainedBy := [], soundBy := [] })
  else s

/-- CHECKPOINT_BEGIN: the leader begins the next checkpoint when its time has come. -/
def execCheckpointBegin (group : Nat) (s : State) : Host.Outcome State Fault Refusal :=
  let g := s.group group
  if (Cells.find? s.fabric.groups group).isNone || g.st != .running || g.n != g.committed || !s.leads g ||
      decide (s.cycle < g.due) || g.dissolve then .next s
  else
    let s := s.onGroup group (fun g => { g with due := s.cycle + msCycles g.interval })
    .next ((s.tellGroup group (.check .begin group (g.n + 1))).groupBegin group (g.n + 1))

/-- BEGIN_RECEIVE. -/
def execBeginReceive (group n : Nat) (s : State) : Host.Outcome State Fault Refusal := .next (s.groupBegin group n)

/-- The cut of checkpoint n on this member. -/
def State.groupCut (s : State) (key n : Nat) : State :=
  let g := s.group key
  if g.st = .draining ∧ g.n = n then s.takeCut key else s

/-- A member has drained; the leader sends CUT once every member has. -/
def State.noteDrained (s : State) (key n src : Nat) : State :=
  let g := s.group key
  if (Cells.find? s.fabric.groups key).isNone || g.n != n || g.drainedBy.contains src then s
  else
    let s := s.onGroup key (fun g => { g with drainedBy := g.drainedBy ++ [src] })
    let all := g.phys.all (fun m => (g.drainedBy ++ [src]).contains m)
    if all && s.leads g then (s.tellGroup key (.check .cut key n)).groupCut key n else s

/-- Has a context drained: every strand stopped, its accesses performed, and no flit of it on its way, the loads that will be
issued again included (R365, R400)? -/
def State.drainedOf (s : State) (ctx : Nat) : Bool :=
  s.stopped ctx && s.accesses.all (fun a => a.ctx != ctx || !a.sent)

/-- DRAINED_RECEIVE. -/
def execDrainedReceive (group n src : Nat) (s : State) : Host.Outcome State Fault Refusal := .next (s.noteDrained group n src)

/-- CUT_RECEIVE. -/
def execCutReceive (group n : Nat) (s : State) : Host.Outcome State Fault Refusal := .next (s.groupCut group n)

/-- Does a frame stand for the same frame of the same member as an older one does? The state of a context is one whole. -/
def sameFrame (y x : Nat × FrameImage) : Bool := y.1 == x.1 && y.2.state == x.2.state && (y.2.state || y.2.pa == x.2.pa)

/-- The mirror with the staging applied (R402). -/
def Group.applied (g : Group) : List (Nat × FrameImage) :=
  g.mirror.filter (fun x => !g.staging.any (fun y => sameFrame y x)) ++ g.staging

/-- Puts the staged frames of the members served into their mirrors (R402). -/
def State.applyStaging (s : State) (key : Nat) : State :=
  let g := s.group key
  let old := g.mirror.filter (fun x => g.staging.any (fun y => sameFrame y x))
  let s := s.onGroup key (fun g => { g with mirror := g.applied, staging := [] })
  s.freeHeld (old.flatMap (·.2.holder))

/-- Commits checkpoint n: mirrors take the staging, what belongs to earlier cuts is freed, a withdrawal ends the group. -/
def State.groupCommit (s : State) (key n : Nat) : State :=
  let g := s.group key
  if (Cells.find? s.fabric.groups key).isNone || g.st != .sound || g.n != n then s
  else
    let s := s.applyStaging key
    let oldPre := g.pre.filter (fun i => decide (i.n < n))
    let oldImg := g.images.filter (fun i => decide (i.n < n))
    let s := s.onGroup key (fun g =>
      { g with st := .running, committed := n, pre := g.pre.filter (fun i => !decide (i.n < n))
               images := g.images.filter (fun i => !decide (i.n < n)) })
    let s := (s.freeFrames (s.context g.ctx).vf (oldImg.flatMap (·.frames))).freeHeld (oldPre.flatMap (·.holder))
    if g.dissolve then
      let s := s.dropGroup key
      (match g.withdraw with | some r => s.journalSet r .completed .ok none | none => s)
    else s

/-- A member's copy is sound; the leader sends COMMIT once every member's is. -/
def State.noteSound (s : State) (key n src : Nat) : State :=
  let g := s.group key
  if (Cells.find? s.fabric.groups key).isNone || g.n != n || g.soundBy.contains src then s
  else
    let s := s.onGroup key (fun g => { g with soundBy := g.soundBy ++ [src] })
    let all := g.phys.all (fun m => (g.soundBy ++ [src]).contains m)
    if all && s.leads g then (s.tellGroup key (.check .commit key n)).groupCommit key n else s

/-- SOUND: the buddy has acknowledged every byte of the copy. -/
def execSound (group : Nat) (s : State) : Host.Outcome State Fault Refusal :=
  let g := s.group group
  if (Cells.find? s.fabric.groups group).isNone || g.st != .copying || !g.unacked.isEmpty then .next s
  else
    let s := s.onGroup group (fun g => { g with st := .sound })
    .next ((s.tellGroup group (.check .sound group g.n)).noteSound group g.n s.self)

/-- SOUND_RECEIVE. -/
def execSoundReceive (group n src : Nat) (s : State) : Host.Outcome State Fault Refusal := .next (s.noteSound group n src)

/-- COMMIT_RECEIVE. -/
def execCommitReceive (group n : Nat) (s : State) : Host.Outcome State Fault Refusal := .next (s.groupCommit group n)

/-! ## Rollback (R404-R407) -/

/-- Journal entries of the context accepted after the cut and not final are undone (R406). -/
def State.undoJournal (s : State) (c : Context) (tails : List (Nat × Nat)) : State :=
  s.ports.foldl (fun s p =>
    let tail := ((tails.find? (fun t => t.1 == p.1)).map (·.2)).getD 1
    p.2.journal.foldl (fun s e =>
      if e.ofCtx p.1 c && !e.st.final && decide (tail ≤ e.seq) then s.journalSet (p.1, e.seq) .failed .rolledBack none else s) s) s

/-- The launch's state at the cut. -/
def Launch.jstate (l : Launch) : JState := if l.placed = 0 then .pending else .running

/-- A launch of the cut whose entry shows another state gets a new entry (R406). -/
def State.reissueLaunch (s : State) (x : Nat × Launch) : State :=
  let l := x.2
  let shown := ((s.port l.port).journal.find? (fun e => e.seq == l.jseq)).map (·.st)
  if shown = some l.jstate then { s with launches := Cells.put s.launches x.1 l }
  else
    let seq := (s.port l.port).tail
    let s := { s with launches := Cells.put s.launches x.1 { l with jseq := seq } }
    let old := ((s.port l.port).journal.find? (fun e => e.seq == l.jseq)).getD default
    s.journalAdd l.port { old with seq, time := s.nanos, type := 1, st := l.jstate, status := .ok, reissued := true,
                                   ctx := (s.context l.ctx).num, detail := l.serial }

/-- The notice of a rollback in the journal (R406). -/
def State.noteRollback (s : State) (g : Group) (t : Nat) : State :=
  let c := s.context g.ctx
  s.journalAdd (c.vf + 1) { seq := 0, time := s.nanos, type := 0x0D, st := .completed, status := .ok, notice := true, tag := 0,
                            ctx := c.num, detail := t, operands := 0 } |>.send (.msix (c.vf + 1) 1)

/-- Puts memory back to the cut of t: pre-images taken after it, newest first. -/
def State.applyPreImages (s : State) (g : Group) (t : Nat) : State :=
  ((g.pre.filter (fun i => decide (t ≤ i.n))).reverse).foldl (fun (s : State) i =>
    let s := s.zeroRange i.pa 4096
    { s with mem := Cells.fill s.mem i.pa 4096 (fun k => i.data.getD k 0)
             frameLab := Cells.set s.frameLab (i.pa / 4096) i.lab }) s

/-- A context as it stands, with what a checkpoint holds of it put back: the event vector and the entries of its fault
queue (R401). A replacement takes the whole of the lost context (R405). What a guest's PREEMPT had saved, or was saving, at
the cut is so again when the rollback ends. -/
def Context.rolled (now i : Context) (adopt : Bool) : Context :=
  let c := if adopt then { i with vf := now.vf, num := now.num, partner := now.partner, handle := now.handle }
    else { now with events := i.events, entries := i.entries, answered := i.answered }
  { c with
    st := .saved, stalled := false, displaced := i.displaced.map (fun d => { d with frames := [] })
    saveJ := if adopt then [] else i.saveJ, resumeJ := if adopt then [] else i.resumeJ
    again := i.st == .saved && i.suspendedFrom.isNone, suspendedFrom := none, fqNext := max now.fqNext i.fqNext }

/-- Puts a context back to an image, as a Saved context. -/
def State.applyImage (s : State) (ctx : Nat) (adopt : Bool) (i : CtxImage) : State :=
  let s := s.onContext ctx (fun now => { now.rolled i.ctx adopt with save := some { teams := i.teams, frames := [] } })
  let s := i.launches.foldl State.reissueLaunch s
  { s with clusters := s.clusters ++ i.clusters }.wakeLaunches ctx

/-- The image of a lost module's context with numbers of this module: its launches, without an entry in this journal, its
teams and its cluster barriers (R405, R406). -/
def State.adoptImage (s : State) (ctx port : Nat) (i : CtxImage) : State × CtxImage :=
  let n := i.launches.length
  let launch (k : Nat) : Nat := s.nextId + i.launches.findIdx (fun l => l.1 == k)
  let team (k : Nat) : Nat := s.nextId + n + 1 + i.teams.findIdx (fun t => t.key == k)
  let known (k : Nat) : Bool := i.launches.any (fun l => l.1 == k)
  ({ s with nextId := s.nextId + n + 2 + i.teams.length },
   { i with
     launches := i.launches.map (fun l => (launch l.1, { l.2 with ctx := ctx, port := port, jseq := 0, keys := l.2.keys.map team }))
     teams := (i.teams.filter (fun t => known t.team.launch)).map (fun t =>
       { t with key := team t.key, team := { t.team with ctx := ctx, launch := launch t.team.launch } })
     clusters := (i.clusters.filter (fun c => known c.launch)).map (fun c => { c with launch := launch c.launch }) })

/-- A rollback that cannot proceed ends the group's context as R397 gives. -/
def State.abandonGroup (s : State) (key m : Nat) : State :=
  let g := s.group key
  (s.dropGroup key).endContext g.ctx { reason := 4, va := BitVec.ofNat 64 m }

/-- The buddy of a member, as its enrolment told. -/
def State.buddyOf (s : State) (key m : Nat) : Nat :=
  ((s.fabric.reports.find? (fun r => r.1 == key && r.2.1 == m)).map (·.2.2.2.2)).getD 16

/-- Takes the transfers of a context off the channels of a core. -/
def Core.dropXfers (c : Core) (ctx : Nat) : Core :=
  { c with chans := c.chans.map (fun (z : Nat × Chan) => (z.1, { z.2 with xfers := z.2.xfers.filter (fun x => x.ctx != ctx) })) }

/-- The checkpoint to which the death of a member rolls its group back: the one in progress when the dead module's SOUND of it
has come, else the last committed one. In a rollback, no later one than its target (R404). -/
def Group.rollTarget (g : Group) (m : Nat) : Nat :=
  let t := if g.soundBy.contains m && decide (g.n = g.committed + 1) then g.n else g.committed
  if g.st = .rollback then min t g.target else t

/-- The frames of the target's image that this module keeps for the members it serves: the mirror, or the mirror with the
staging applied (R405). -/
def Group.targetImage (g : Group) : List (Nat × FrameImage) := if g.target = g.committed then g.mirror else g.applied

/-- Streams the image of a lost member to the module that replaces it (R405). -/
def State.streamTo (s : State) (key idx m : Nat) : State :=
  let g := s.group key
  (g.targetImage.filter (fun x => x.1 == m)).foldl (fun (s : State) x =>
    match x.2.held with
    | some f => s.sendStage key m (s.peerVf g.ctx idx) g.target x.2.state f x.2.pa
    | none => s) s

/-- A member of a group is dead: the group rolls back (R404, R405). A death in a rollback restarts it where that lowers its
target, and images already on their way to replacements are sent anew. A survivor that is to take its cut first and has too few
frames is stalled, and rolls back once it has taken it. -/
def State.rollBack (s : State) (key m : Nat) : State :=
  let g := s.group key
  let t := g.rollTarget m
  let b := s.buddyOf key m
  if g.adopt then
    if g.buddyPhys = m ∨ s.fabric.dead.contains b then s.abandonGroup key m
    else s.onGroup key (fun g => { g with lost := g.lost ++ [m] })
  else if g.committed = 0 ∨ s.fabric.dead.contains b ∨ (g.lost.any (fun l => s.buddyOf key l = m)) then s.abandonGroup key m
  else if g.st = .rollback ∧ t = g.target then
    s.onGroup key (fun g => { g with
      lost := g.lost ++ [m], unacked := g.unacked.filter (fun u => u.1 != m), placed := g.placed.filter (fun x => x.2 != m) })
  else
    let s := if g.st = .draining ∧ g.n = t then s.takeCut key else s
    let g := s.group key
    match g.images.find? (fun i => i.n == t) with
    | none =>
      if g.st = .draining then s.onGroup key (fun g => { g with lost := g.lost ++ [m] }) else s.abandonGroup key m
    | some i =>
      let s := (s.teamsOf g.ctx).foldl State.removeTeam s
      let now := s.context g.ctx
      let s := s.freeFrames now.vf ((now.save.map (·.frames)).getD [] ++ now.displaced.flatMap (·.frames))
      let s : State := { s with
        accesses := s.accesses.filter (fun a => a.ctx != g.ctx)
        deferred := s.deferred.filter (fun d => d.ctx != g.ctx)
        clusters := s.clusters.filter (fun c => (s.launch c.launch).ctx != g.ctx)
        launches := List.filter (fun (l : Nat × Launch) => l.2.ctx != g.ctx) s.launches
        cores := s.cores.map (fun (c : Nat × Core) => (c.1, c.2.dropXfers g.ctx)) }
      let s := s.applyPreImages g t
      let s := (s.undoJournal (s.context g.ctx) i.tails).applyImage g.ctx false i
      let s := s.noteRollback g t
      let vf := (s.context g.ctx).vf
      let back := t = g.committed
      let s := if back then (s.onGroup key (fun g => { g with staging := [] })).freeHeld (g.staging.flatMap (·.2.holder)) else s
      let oldPre := g.pre.filter (fun i => decide (t ≤ i.n))
      let oldImg := g.images.filter (fun i => decide (t < i.n))
      let ranges := s.localRanges g.ctx
      let s := s.onGroup key (fun g =>
        { g with st := .rollback, target := t, n := t, cutN := t, ranges, written := [], drainedBy := []
                 unacked := if back then [] else g.unacked.filter (fun u => u.1 != m)
                 soundBy := if back then [] else g.soundBy
                 pre := g.pre.filter (fun i => !decide (t ≤ i.n)), images := g.images.filter (fun i => !decide (t < i.n))
                 lost := g.lost ++ [m], placed := g.placed.filter (fun x => x.2 != m), stalled := false })
      let s := ((s.freeFrames vf (oldImg.flatMap (·.frames))).freeHeld (oldPre.flatMap (·.holder))).unstall vf
      (s.group key).placed.foldl (fun (s : State) x => s.streamTo key x.1 x.2) s

/-- The rollback that a cut has held up, for the members lost since. -/
def State.lateRollback (s : State) (key : Nat) : State :=
  (s.group key).lost.foldl (fun (s : State) m => s.rollBack key m) (s.onGroup key (fun g => { g with lost := [] }))

/-- DRAINED: the context has drained. A cut that stalled is tried again, and a rollback that waits for it
follows. -/
def execDrained (group : Nat) (s : State) : Host.Outcome State Fault Refusal :=
  let g := s.group group
  if (Cells.find? s.fabric.groups group).isNone then .next s
  else if g.st = .draining ∧ g.stalled then
    let t := s.groupCut group g.n
    .next (if (t.group group).st = .draining then t else t.lateRollback group)
  else if (g.st = .copying ∨ g.st = .sound) ∧ g.lost ≠ [] then .next (s.lateRollback group)
  else if g.st ≠ .quiescing ∨ !s.drainedOf g.ctx then .next s
  else
    let s := s.onGroup group (fun g => { g with st := .draining })
    .next ((s.tellGroup group (.check .drained group g.n)).noteDrained group g.n s.self)

/-- A PLACE_SET has named a module in the place of a lost member: the group's list takes it, and the lost module's buddy
streams its image there (R405). -/
def State.replaceMember (s : State) (key idx m : Nat) : State :=
  let g := s.group key
  let at_ := (memberIds g.members).idxOf idx
  let old := g.phys.getD at_ 16
  if g.st ≠ .rollback ∨ g.adopt ∨ !g.members.getLsbD idx ∨ !g.lost.contains old then s
  else
    let s := s.onGroup key (fun g =>
      { g with phys := setAt g.phys at_ m, lost := g.lost.filter (· != old), copyAll := g.copyAll || g.buddy == idx
               placed := g.placed ++ [(idx, m)]
               mirror := g.mirror.map (fun x => if x.1 = old then (m, x.2) else x)
               staging := g.staging.map (fun x => if x.1 = old then (m, x.2) else x)
               soundBy := g.soundBy.map (fun x => if x = old then m else x) })
    let new (x : Nat) : Nat := if x = old then m else x
    let s := { s with fabric := { s.fabric with reports := s.fabric.reports.map (fun (r : Nat × Nat × Nat × List Nat × Nat) =>
      if r.1 = key then (r.1, new r.2.1, r.2.2.1, r.2.2.2.1.map new, new r.2.2.2.2) else r) } }
    (s.sendFlit m 7 0 [] (.enrol key g.interval (g.phys.map new) (new g.buddyPhys))).streamTo key idx m

/-- Ends a rollback: its target is the last committed checkpoint, and what belongs to earlier cuts is freed (R405). -/
def State.endRollback (s : State) (key : Nat) : State :=
  let g := s.group key
  let s := if g.target = g.committed then s else s.applyStaging key
  let oldPre := g.pre.filter (fun i => decide (i.n < g.target))
  let oldImg := g.images.filter (fun i => decide (i.n < g.target))
  let s := s.onGroup key (fun g =>
    { g with committed := g.target, soundBy := [], pre := g.pre.filter (fun i => !decide (i.n < g.target))
             images := g.images.filter (fun i => !decide (i.n < g.target)) })
  (s.freeFrames (s.context g.ctx).vf (oldImg.flatMap (·.frames))).freeHeld (oldPre.flatMap (·.holder))

/-- Has the whole image of the lost module arrived: as many frames of its state as their header counts (R368)? -/
def Group.imageThere (g : Group) : Bool :=
  match g.staging.filter (fun x => x.2.state) with
  | [] => false
  | h :: rest => ofBytes ((h.2.data.drop 8).take 4) == rest.length + 1

/-- ROLLBACK_RESTORE: with every lost member replaced, the image at its place and no suspension, the context is restored,
unless a PREEMPT came meanwhile; the next checkpoint begins at once (R405). -/
def execRollbackRestore (group : Nat) (s : State) : Host.Outcome State Fault Refusal :=
  let g := s.group group
  let c := s.context g.ctx
  if (Cells.find? s.fabric.groups group).isNone || g.st != .rollback || !g.unacked.isEmpty || (s.vf c.vf).suspend ||
      (if g.adopt then !g.imageThere else !g.lost.isEmpty) then .next s
  else
    let s := if g.adopt then
        let frames := g.staging.filter (fun x => x.2.state)
        let x := s.adoptImage g.ctx (c.vf + 1) (thawFrames (frames.map (·.2.data)))
        (((x.1.applyImage g.ctx true x.2).noteRollback g g.target).onGroup group (fun g =>
          { g with staging := [], n := g.target, cutN := g.target, committed := g.target
                   images := [{ x.2 with n := g.target, frames := frames.filterMap (·.2.held) }] })).journalSet
          (g.port, g.jseq) .completed .ok none
      else s.endRollback group
    let c := s.context g.ctx
    let s := s.onGroup group (fun g =>
      { g with st := .running, lost := [], placed := [], adopt := false, due := s.cycle, copyAll := g.copyAll || g.adopt })
    let saving := !c.saveJ.isEmpty
    .next (s.onContext g.ctx (fun x => { x with
      st := if c.again && !saving then .saved else .restoring, again := saving
      resumeJ := if c.again && !saving then [] else c.resumeJ }))

end Sys2Proof.Machine
end

