-- ==== Sys2Proof/Machine/Fabric.lean ====
section
/-! DEFINITION. Surel: what a flit does where it arrives, what an acknowledgement does at its sender, links and liveness, dead
modules, place tables (R384-R397, R430). -/

namespace Sys2Proof.Machine

/-! ## Values in flits -/

/-- A value of some bytes as the words of 16 bytes that a response carries. -/
def piecesOf (x n : Nat) : List (BitVec 128) := (List.range ((n + 15) / 16)).map (fun i => BitVec.ofNat 128 (x >>> (128 * i)))

/-- The value that words of 16 bytes spell. -/
def piecesNat (ps : List (BitVec 128)) : Nat := ps.foldr (fun p x => p.toNat + 2 ^ 128 * x) 0

/-! ## Requests of other modules (R395) -/

/-- The domain of a network. -/
def netDom : Nat → Dom
  | 0 => .sc
  | 1 => .tso
  | 2 => .co
  | 3 => .rc
  | _ => .bu

/-- What a request of another module brings with it: its source and tag, the peer VF, network, scope and label. -/
structure Peer where
  src : Nat
  tag : Nat
  vf : Nat
  vn : Nat
  scp : Scope
  lab : Label

/-- May a request be served now: is it within the VF's budget, the host out of the way, and no pre-image due? -/
def State.mayServe (s : State) (p : Peer) (pa n : Nat) (write : Bool) : Bool :=
  s.mayCharge p.vf 1 (homeDie pa * 96 + homeSlice pa) && s.halfFree (.dev pa) n write && !(write && s.preImageDue (.dev pa))

/-- A request is charged at its home slice, in 64-byte transfers (R421). -/
def State.serveCharge (s : State) (p : Peer) (pa n : Nat) : State :=
  s.charge p.vf 1 (homeDie pa * 96 + homeSlice pa) (max 1 ((n + 63) / 64))

/-- A store of another module at its home, in the domain and at the scope that it keeps (R395). -/
def State.serveStore (s : State) (p : Peer) (pa n x : Nat) (lab : Label) : State :=
  let w : Writer := { id := s.nextId, dom := netDom p.vn, scp := p.scp, who := { own := 0, act := some p.vf } }
  (s.fresh.serveCharge p pa n).store w (.dev pa) n x lab

/-- The increment of a flag for another module: an access of this module's that follows the data it announces (R255, R267,
R333). -/
def State.serveFlag (s : State) (p : Peer) (pa : Nat) (lab : Label) (after : List (Nat × Scope)) : State :=
  let a : Access :=
    { id := s.nextId, team := goneTeam, warp := p.vf, core := 0, ctx := goneTeam, lanes := [], dom := netDom p.vn, scp := p.scp,
      nol1 := true, place := .dev pa, va := 0, size := 8, op := .flagAdd, lab, after, instr := p.src, res := p.tag }
  { s.fresh with accesses := s.accesses ++ [a] }

/-- Answers a request on VN5. -/
def State.respond (s : State) (p : Peer) (lab : Label) (data : List (BitVec 128)) (egress poison : Bool)
    (tokens : List (Nat × Nat) := []) : State :=
  s.sendFlit p.src 5 lab tokens (.response p.tag data egress poison)

/-- The CO writes of some bytes whose updates are on their way: the answer to a CO read names them (R384). -/
def State.tokensAt (s : State) (p : Peer) (pa n : Nat) : List (Nat × Nat) :=
  if p.vn ≠ 2 then []
  else (s.updates.filter (fun u => u.dom == .co && decide (u.pa < pa + n) && decide (pa < u.pa + u.bytes.length))).map
    (fun u => (s.self, u.id))

/-- A load or atomic of another module: poison and a failing egress check answer without any effect (R358, R430). A read of no
bytes asks for the label alone (R132). -/
def State.serveRead (s : State) (p : Peer) (pa n : Nat) (origins : Label) (run : State → State × List (BitVec 128)) : State :=
  let lab := s.unitLab (.dev pa)
  if n ≠ 0 && s.poisoned (.dev pa) n then s.respond p 0 [] false true
  else if lab &&& ~~~origins != 0 then s.respond p 0 [] true false
  else
    let r := run s
    r.1.respond p lab r.2 false false (s.tokensAt p pa n)

/-- Notes that another module may keep a line from now on (R395). -/
def State.noteSharer (s : State) (line m : Nat) : State :=
  if s.fabric.peerLines.contains (line, m) then s
  else { s with fabric := { s.fabric with peerLines := s.fabric.peerLines ++ [(line, m)] } }

/-- A load of another module. One that asks to keep the line gets it whole, after its own bytes. -/
def State.serveLoad (s : State) (p : Peer) (pa n : Nat) (keep : Bool) : State × List (BitVec 128) :=
  let s := (s.serveCharge p pa (if keep then 128 else n)).l2Reach { act := some p.vf } (.dev pa) (max 1 n) false
  let own := piecesOf (s.readHome (.dev pa) n) n
  if keep then (s.noteSharer (pa / 128) p.src, own ++ piecesOf (s.readHome (.dev (pa / 128 * 128)) 128) 128) else (s, own)

/-- Serves a request: none while it must wait. -/
def State.serve (s : State) (p : Peer) (pa : Nat) (origins : Label) (q : PeerReq) : Option State :=
  let may := s.mayServe p pa (peerReach q).1 (peerReach q).2
  match q with
  | .load n cache => if may then some (s.serveRead p pa n origins (fun s => s.serveLoad p pa n cache)) else none
  | .store n x => if may then some (s.serveStore p pa n x.toNat p.lab) else none
  | .flagged n x a l =>
    if may then some ((s.serveStore p pa n x.toNat p.lab).serveFlag p a.toNat l [(s.nextId, p.scp)]) else none
  | .copyData bs => if may then some (s.serveStore p pa bs.length (ofBytes bs) p.lab) else none
  | .copyFlag a l => some (s.serveFlag p a.toNat l [])
  | .atomic op n sg ops =>
    if !may then none
    else some (s.serveRead p pa n origins (fun s =>
      let r := ops.foldl (fun (acc : Nat × List (BitVec 128)) b =>
        (atomNew op sg (8 * n) acc.1 b.toNat, acc.2 ++ [BitVec.ofNat 128 acc.1])) (s.readHome (.dev pa) n, [])
      (s.serveStore p pa n r.1 p.lab, r.2)))
  | .cas n ops labC =>
    if !may then none
    else some (s.serveRead p pa n origins (fun s =>
      let r := ops.foldl (fun (acc : Nat × List (BitVec 128) × Bool) b =>
        let hit := decide (acc.1 = b.2.toNat)
        (if hit then b.1.toNat else acc.1, acc.2.1 ++ [BitVec.ofNat 128 acc.1], acc.2.2 || hit))
        (s.readHome (.dev pa) n, [], false)
      (if r.2.2 then s.serveStore p pa n r.1 (p.lab ||| labC) else s, r.2.1)))

/-! ## Responses (R395, R430) -/

/-- The values that an atomic group wrote, lane by lane, from the old values that came back. -/
def Access.wrote (a : Access) (olds : List (Nat × Nat)) : List (Nat × Nat) :=
  match a.op with
  | .rmw op sg ops => (olds.zip ops).map (fun x => (x.1.1, atomNew op sg (8 * a.size) x.1.2 x.2.2.toNat))
  | .cas ops _ => (olds.zip ops).filterMap (fun x => if x.1.2 = x.2.2.2.toNat then some (x.1.1, x.2.2.1.toNat) else none)
  | _ => []

/-- Changes an access in its queue. -/
def State.onAccess (s : State) (id : Nat) (f : Access → Access) : State :=
  { s with accesses := s.accesses.map (fun (y : Access) => if y.id = id then f y else y) }

/-- Of an atomic group at another module the answer or the acknowledgement has come: with both it is performed (R388, R395). -/
def State.halfDone (s : State) (a : Access) : State :=
  if a.half then s.unqueue a.id else s.onAccess a.id (fun y => { y with half := true })

/-- The old values of an atomic group return. -/
def State.answerGroup (s : State) (a : Access) (lab : Label) (olds : List (Nat × Nat)) : State :=
  let s := s.halfDone a
  let s := if a.res = 0 then s
    else olds.foldl (fun (s : State) o => s.deliver a.team a.warp a.res o.1 o.2 lab) s
  (s.settleHash a.team a.warp a.id ((a.wrote olds).map (fun o => (o.1, a.va, BitVec.ofNat 64 o.2)))).passLate a.id []

/-- A line of another module comes for the hardware of a warp or of the device (log 73). -/
def State.answerLine (s : State) (a : Access) (lab : Label) (data : List (BitVec 128)) (egress poison : Bool) : State :=
  let x := piecesNat data
  let l : RemoteLine := { team := a.team, warp := a.warp, lab, egress, poison,
                          data := Cells.ofFn 0 128 (fun i => BitVec.ofNat 8 (x >>> (8 * i))) }
  { s.unqueue a.id with remote := Cells.put s.remote a.place.lineKey l }

/-- The value of a load comes, and with it the line that its L1 may keep (R395). -/
def State.answerLoad (s : State) (a : Access) (lab : Label) (data : List (BitVec 128)) : State :=
  let k := (a.size + 15) / 16
  let s := if a.share && decide (k < data.length) then
      s.peerFill a.core a.place (piecesNat (data.drop k)) lab a.mark (s.whoOf a.ctx).own
    else s
  ((s.unqueue a.id).deliver a.team a.warp a.res (a.lanes.headD 0) (piecesNat (data.take k)) lab).passLate a.id []

/-- The response to an access of this module. -/
def State.answerAccess (s : State) (a : Access) (lab : Label) (data : List (BitVec 128)) (egress poison : Bool) : State :=
  if a.op = .line then s.answerLine a lab data egress poison
  else if poison then (s.poisonEnd a).unqueue a.id
  else if egress then
    let s := a.lanes.foldl (fun (s : State) l => s.undeliver a.team a.warp a.res l) (s.unqueue a.id)
    (s.settleHash a.team a.warp a.id []).passLate a.id ((a.lanes.filter (· < 32)).map (fun l =>
      (l, .trap { lane := l, cause := .labelEgress, detail := a.va, lab := a.aim } false)))
  else
    match a.op with
    | .load => s.answerLoad a lab data
    | .label => ((s.unqueue a.id).deliver a.team a.warp a.res (a.lanes.headD 0) lab.toNat lab).passLate a.id []
    | .testGe t =>
      let x := piecesNat data
      if t.toNat ≤ x then ((s.unqueue a.id).deliver a.team a.warp a.res (a.lanes.headD 0) x lab).passLate a.id []
      else (s.onAccess a.id (fun y => { y with sent := false })).passLate a.id []
    | .rmw _ _ ops => s.answerGroup a lab ((ops.map (·.1)).zip (data.map (·.toNat)))
    | .cas ops _ => s.answerGroup a lab ((ops.map (·.1)).zip (data.map (·.toNat)))
    | .line | .store _ | .flagAdd => s

/-- The channel whose first transfer waits for a flit of a tag: core, channel, transfer, bytes on the wire. -/
def State.wiredTo (s : State) (tag : Nat) : Option (Nat × Nat × Xfer × Nat) :=
  s.cores.findSome? (fun c => c.2.chans.findSome? (fun z => match z.2.xfers with
    | [] => none
    | x :: _ => match x.wire with
      | some (t, k) => if t = tag then some (c.1, z.1, x, k) else none
      | none => none))

/-- The source bytes of a transfer arrive from a peer. -/
def State.answerCopy (s : State) (w : Nat × Nat × Xfer × Nat) (lab : Label) (data : List (BitVec 128)) (egress poison : Bool) : State :=
  let x := { w.2.2.1 with wire := none }
  if poison then
    (if x.readAt < x.total then s.copyPoison w.1 w.2.1 x (x.srcAt x.readAt) x.aim
     else s.copyPoison w.1 w.2.1 x x.flag.toNat x.flagLab)
  else if egress then s.copyStop w.1 w.2.1 x
  else s.setHead w.1 w.2.1 { x with inbuf := x.inbuf ++ (bytesOf w.2.2.2 (piecesNat data)).map (fun b => (b, lab)) }

/-- Notes the writes that an answer names, for the lanes of its read. -/
def State.peerEchoes (s : State) (a : Access) (tokens : List (Nat × Nat)) : State :=
  if (Cells.find? s.teams a.team).isNone then s
  else { s with echoes := s.echoes ++ tokens.flatMap (fun t => a.lanes.map (fun l =>
    ({ read := a.id, write := t.2, team := a.team, warp := a.warp, lane := l, dom := a.dom, scp := a.scp,
       home := some t.1 } : Echo))) }

/-- A response arrives. -/
def State.takeResponse (s : State) (f : Flit) (tag : Nat) (data : List (BitVec 128)) (egress poison : Bool) : State :=
  match s.accesses.find? (fun a => a.id == tag && a.sent) with
  | some a => (s.peerEchoes a (f.tokens.filter (fun t => t.1 == f.src))).answerAccess a f.lab data egress poison
  | none => match s.wiredTo tag with
    | some w => s.answerCopy w f.lab data egress poison
    | none => s

/-- An update of a line of another module arrives: the cores that keep the line apply it, one that sleeps notes that it has
missed it, and a load that has asked to keep the line keeps it no longer, since its answer may be older (R218, R233, R395). -/
def State.takeUpdate (s : State) (f : Flit) (pa : Nat) (bytes : List Byte) : State :=
  let key := (f.src + 2) * 2 ^ 53 + pa
  let s := { s with accesses := s.accesses.map (fun (a : Access) =>
    if a.sent && a.share && a.place.lineKey == key / 128 then { a with share := false } else a) }
  (s.sharers (key / 128)).foldl (fun (s : State) c =>
    match (s.core c).sleep with
    | some z => s.onCore c (fun y => { y with sleep := some (z.miss (key / 128) .bu) })
    | none => s.l1Write c key bytes f.lab) s

/-! ## Dead modules (R396, R397) -/

/-- Does a transfer address a module? -/
def Xfer.toModule (x : Xfer) (m : Nat) : Bool :=
  (x.srcMap ++ x.dstMap ++ x.flagMap).any (fun p => match p.place with | .peer k _ _ => k == m | _ => false)

/-- The end of a context that has an access outstanding to a module, with the label of what addresses it (R352, R397). -/
def State.lostAccess (s : State) (ctx m : Nat) : Option EndInfo :=
  let info (team warp : Nat) (pc : DWord) (aim : Label) : EndInfo :=
    { reason := 4, va := BitVec.ofNat 64 m, global := s.warpGlobal team warp, pc, lab := aim ||| (s.warp team warp).lbfloor,
      serial := (s.launch (s.team team).launch).serial }
  match s.accesses.find? (fun a => a.ctx == ctx && (match a.place with | .peer k _ _ => k == m | _ => false)) with
  | some a => some (info a.team a.warp a.pc a.aim)
  | none =>
    (s.cores.findSome? (fun c => c.2.chans.findSome? (fun z => z.2.xfers.find? (fun x => x.ctx == ctx && x.toModule m)))).map
      (fun x => info x.team x.warp x.pc (x.aim ||| x.flagLab))

/-- Forgets what has passed between this module and a dead one: its flits and those to it, the numbers of both, its lines and
what it said of its links. A module that comes back begins anew (R396). -/
def State.forgetModule (s : State) (m : Nat) : State :=
  let keys := (List.range 8).map (fun v => m * 8 + v)
  let others (x : Nat × Nat) : Bool := !keys.contains x.1
  { s with fabric := { s.fabric with
      held := s.fabric.held.filter (fun f => f.src != m)
      stages := s.fabric.stages.filter (fun f => f.src != m)
      sent := s.fabric.sent.filter (fun f => f.dst != m)
      owed := s.fabric.owed.filter (fun o => o.2.2.1 != m)
      nextSeq := List.filter others s.fabric.nextSeq
      expect := List.filter others s.fabric.expect
      got := s.fabric.got.filter (fun x => x.1 != m)
      farDown := s.fabric.farDown.filter (fun x => x.1 != m)
      peerLines := s.fabric.peerLines.filter (fun x => x.2 != m) } }

/-- Treats a module as dead: its flits and those to it go, contexts that wait for it end, groups it belongs to roll back. -/
def State.loseMember (s : State) (m : Nat) : State :=
  if m = s.self ∨ s.fabric.dead.contains m then s
  else
    let s := s.forgetModule m
    let s := ({ s with fabric := { s.fabric with dead := s.fabric.dead ++ [m] } } : State).send (.msix 0 1)
    let s := (Cells.keys s.contexts).foldl (fun (s : State) k =>
      if s.enrolled k then s
      else match s.lostAccess k m with
        | some i => ({ s with cores := s.cores.map (fun (c : Nat × Core) => (c.1, c.2.dropXfers k)) } : State).endContext k i
        | none => s) s
    let s := { s with accesses := s.accesses.filter (fun a => match a.place with | .peer k _ _ => k != m || s.enrolled a.ctx | _ => true) }
    ((List.filter (fun (g : Nat × Group) => g.2.phys.contains m) s.fabric.groups).map (·.1)).foldl (fun (s : State) key =>
      let g := s.group key
      if g.st = .enrolling then (s.journalSet (g.port, g.jseq) .failed .denied none).dropGroup key
      else s.rollBack key m) s

/-- The modules that this one can reach. -/
def State.reachable (s : State) : List Nat :=
  (List.range s.power.image.nModules).filter (fun m => m != s.self && s.pathTo m)

/-- MODULE_DEAD_DECLARE: a module silent for 64 µs is declared dead, and the survivors are told (R396). -/
def execModuleDeadDeclare (m : Nat) (s : State) : Host.Outcome State Fault Refusal :=
  if s.power.image.nModules ≤ m ∨ m = s.self ∨ s.fabric.dead.contains m ∨
      s.cycle < Cells.get s.fabric.silentFrom m + 172800 then .next s
  else
    let s := (s.reachable.filter (· != m)).foldl (fun (s : State) k => s.sendFlit k 7 0 [] (.dead m)) s
    .next (s.loseMember m)

/-- MODULE_DEAD_ANNOUNCE: a survivor's announcement arrives. -/
def execModuleDeadAnnounce (m : Nat) (s : State) : Host.Outcome State Fault Refusal := .next (s.loseMember m)

/-- Accepts flits of a dead module again: a PLACE_SET has named it, and with the first number on VN7 it shows that its
cast-on sequence is over (R396; log 61). -/
def State.readmit (s : State) (f : Flit) : State :=
  if s.fabric.dead.contains f.src && s.fabric.named.contains f.src && f.vn == 7 && f.seq == 0 then
    { s with fabric := { s.fabric with
        dead := s.fabric.dead.filter (· != f.src)
        named := s.fabric.named.filter (· != f.src)
        silentFrom := Cells.put s.fabric.silentFrom f.src s.cycle } }
  else s

/-! ## Links (R386, R389, R390) -/

/-- The module at the far end of a port. -/
def State.farEnd (s : State) (port : Nat) : Nat := (s.self + port + 1) % 16

/-- Is a port used: does a module of the system stand at its far end? -/
def State.portUsed (s : State) (port : Nat) : Bool :=
  decide (port < 15) && decide (s.farEnd port < s.power.image.nModules)

/-- The link of a port. -/
def State.link (s : State) (port : Nat) : Link := Cells.get s.fabric.links port

/-- Changes a link. -/
def State.onLink (s : State) (port : Nat) (f : Link → Link) : State :=
  { s with fabric := { s.fabric with links := Cells.modify s.fabric.links port f } }

/-- After a change of paths from those of an earlier state: what a module whose path has changed has not acknowledged leaves again
by the new one (R390). -/
def State.repath (s old : State) : State :=
  (List.range s.power.image.nModules).foldl (fun (s : State) m =>
    if old.via m = s.via m then s
    else match s.via m with
      | none => s
      | some k => (s.fabric.sent.filter (fun f => f.dst == m)).foldl (fun (s : State) f => s.send (.passed k f)) s) s

/-- A link goes down. -/
def State.dropLink (s : State) (port : Nat) : State :=
  (s.onLink port (fun l => { l with up := false, downAt := s.cycle, clean := s.cycle })).repath s

/-- The modules whose direct links this one holds to be down. -/
def State.downTo (s : State) : List Nat :=
  (List.range s.power.image.nModules).filter (fun m => m != s.self && !s.linkUp m)

/-- A liveness flit of the far end comes over a link. A gap of 16 µs on a link that is down begins its clean time anew (R389,
R390; log 13). -/
def State.noteLive (s : State) (port : Nat) : State :=
  s.onLink port (fun l => { l with
    lastLive := s.cycle, clean := if !l.up && decide (l.lastLive + 43200 ≤ s.cycle) then s.cycle else l.clean })

/-- LIVENESS_SEND: every 1 µs, a liveness flit on VN7 to each module that is not dead. One whose link is down takes it on the way
round, and on that link too, which is how it shows that it is clean (R389, R390). -/
def execLivenessSend (s : State) : Host.Outcome State Fault Refusal :=
  if (match s.fabric.liveAt with | some t => decide (s.cycle < t + 2700) | none => false) then .next s
  else
    let down := s.downTo
    let ms := (List.range s.power.image.nModules).filter (fun m => m != s.self && !s.fabric.dead.contains m)
    let s := ms.foldl (fun (s : State) m =>
      let f : Flit := { vn := 7, src := s.self, dst := m, seq := Cells.get s.fabric.nextSeq (m * 8 + 7), lab := 0, tokens := [],
                        body := .live down }
      let s := s.sendFlit m 7 0 [] (.live down)
      if s.linkUp m || !(s.link (s.portTo m)).trained then s else s.send (.passed m f)) s
    .next { s with fabric := { s.fabric with liveAt := some s.cycle } }

/-- LINK_LIVENESS_TIMEOUT: after 16 µs without a liveness flit the link is down; what is not acknowledged goes by the new
path (R390). -/
def execLinkLivenessTimeout (port : Nat) (s : State) : Host.Outcome State Fault Refusal :=
  if s.portUsed port && (s.link port).up && decide ((s.link port).lastLive + 43200 ≤ s.cycle) then .next (s.dropLink port)
  else .next s

/-- LINK_RETRY_EXHAUSTED: a flit has failed its retry 8 times in a row, and the link is down. -/
def execLinkRetryExhausted (port : Nat) (s : State) : Host.Outcome State Fault Refusal :=
  if s.portUsed port && (s.link port).up then .next (s.dropLink port) else .next s

/-- Has a link that is down carried 1 ms of clean liveness flits (R390)? One whose training failed carries none (R386). -/
def Link.cleanFor (l : Link) (cycle : Nat) : Bool :=
  l.trained && !l.up && decide (l.clean + 2700000 ≤ cycle) && decide (cycle < l.lastLive + 43200)

/-- LINK_UP: the link comes up again, and traffic returns to it (R390). -/
def execLinkUp (port : Nat) (s : State) : Host.Outcome State Fault Refusal :=
  if s.portUsed port && (s.link port).cleanFor s.cycle then
    .next ((s.onLink port (fun l => { l with up := true, lastLive := s.cycle })).repath s)
  else .next s

/-! ## Receiving flits (R388) -/

/-- A frame of a checkpoint arrives: at the buddy into staging, at a replacement into its place. One of a checkpoint that a
rollback has discarded is dropped, and one that comes after its checkpoint was committed here joins the mirror. The answer says
whether it found its save frame. -/
def State.takeStage (s : State) (f : Flit) (key n : Nat) (state : Bool) (pa : Nat) (bytes : List Byte) (waited : Bool) : State × Bool :=
  let g := s.group key
  if (Cells.find? s.fabric.groups key).isNone || (!g.adopt && n != g.n) then (s, true)
  else if g.adopt && !state then
    let s := s.zeroRange pa 4096
    ({ s with mem := Cells.fill s.mem pa 4096 (fun i => bytes.getD i 0), frameLab := Cells.set s.frameLab (pa / 4096) f.lab }, true)
  else
    let vf := s.stageVf f
    match s.holdFrame vf bytes f.lab waited with
    | (s, none) => (s, false)
    | (s, some h) =>
      let x : Nat × FrameImage := (f.src, { n, pa, state, data := bytes, lab := f.lab, vf, held := some h })
      let late := !g.adopt && n == g.committed
      let old := if g.adopt then g.staging.filter (fun y => y.2.n != n)
        else if late then g.mirror.filter (fun y => !state && sameFrame x y) else []
      ((s.onGroup key (fun g => { g with
        target := if g.adopt then n else g.target
        mirror := if late then g.mirror.filter (fun y => !old.contains y) ++ [x] else g.mirror
        staging := if late then g.staging else g.staging.filter (fun y => !old.contains y) ++ [x] })).freeHeld
          (old.flatMap (·.2.holder)), true)

/-- A message of a checkpoint. -/
def State.takeCheck (s : State) (m : CkMsg) (key n src : Nat) : State :=
  match m with
  | .begin => s.groupBegin key n
  | .drained => s.noteDrained key n src
  | .cut => s.groupCut key n
  | .sound => s.noteSound key n src
  | .commit => s.groupCommit key n
  | .withdraw => s.groupWithdraw key

/-- Delivers a flit to its agent: none when it cannot be taken yet. The answer says whether it is acknowledged: a frame of a
checkpoint that finds no save frame is set aside, so that it holds up no other flit (R385, R402). -/
def State.deliverFlit (s : State) (f : Flit) : Option (State × Bool) :=
  let done (s : State) : Option (State × Bool) := some (s, true)
  if f.vn = 2 && f.tokens.any (fun t => t.1 == s.self && s.updates.any (fun u => u.id == t.2)) then none
  else match f.body with
    | .request tag vf pa origins scp q =>
      (s.serve { src := f.src, tag, vf, vn := f.vn, scp, lab := f.lab } pa.toNat origins q).map (fun t => (t, true))
    | .response tag data egress poison => done (s.takeResponse f tag data egress poison)
    | .update pa bytes => done (s.takeUpdate f pa.toNat bytes)
    | .window vf base size origin =>
      done { s with fabric := { s.fabric with
        windows := s.fabric.windows.filter (fun w => !(w.module == f.src && w.vf == vf)) ++
          [{ module := f.src, vf, base := base.toNat, size := size.toNat, origin }] } }
    | .stage key n state _ pa bytes =>
      let r := s.takeStage f key n state pa bytes false
      if r.2 then some r else some ({ r.1 with fabric := { r.1.fabric with stages := r.1.fabric.stages ++ [f] } }, false)
    | .enrol key interval phys buddy =>
      done (({ s with fabric := { s.fabric with
        reports := s.fabric.reports.filter (fun r => !(r.1 == key && r.2.1 == f.src)) ++
          [(key, f.src, interval, phys, buddy)] } } : State).settleGroup key)
    | .check m key n => done (s.takeCheck m key n f.src)
    | .dead m => done (s.loseMember m)
    | .live down =>
      let t := { s with fabric := { s.fabric with
        silentFrom := Cells.put s.fabric.silentFrom f.src s.cycle
        farDown := s.fabric.farDown.filter (fun (x : Nat × Nat) => x.1 != f.src) ++ down.map (fun m => (f.src, m)) } }
      done (t.repath s)

/-- Notes a flit as delivered: its acknowledgement is due once the writes that it made are applied by every sharer, and the
flag that it raises is raised (R218, R388). -/
def State.oweAck (s : State) (f : Flit) (first : Nat) : State :=
  { s with fabric := { s.fabric with owed := s.fabric.owed ++ [(first, s.nextId, f.src, f.vn, f.seq)] } }

/-- Sends the acknowledgements that are due. -/
def State.payAcks (s : State) : State :=
  let waits (o : Nat × Nat × Nat × Nat × Nat) : Bool :=
    s.updates.any (fun u => decide (o.1 ≤ u.id) && decide (u.id < o.2.1)) ||
    s.accesses.any (fun a => a.team == goneTeam && a.op == .flagAdd && decide (o.1 ≤ a.id) && decide (a.id < o.2.1))
  let due := s.fabric.owed.filter (fun o => !waits o)
  due.foldl (fun (s : State) o => s.send (.flitAck o.2.2.1 o.2.2.2.1 o.2.2.2.2))
    { s with fabric := { s.fabric with owed := s.fabric.owed.filter waits } }

/-- Does a network deliver in end-to-end order? -/
def ordered (vn : Nat) : Bool := vn == 0 || vn == 1 || vn == 2 || vn == 6 || vn == 7

/-- Is a flit that is held next in its network's order? -/
def State.flitDue (s : State) (f : Flit) : Bool := !ordered f.vn || f.seq == Cells.get s.fabric.expect (f.src * 8 + f.vn)

/-- Has a flit been delivered before? -/
def State.flitSeen (s : State) (f : Flit) : Bool :=
  if ordered f.vn then decide (f.seq < Cells.get s.fabric.expect (f.src * 8 + f.vn)) else s.fabric.got.contains (f.src, f.vn, f.seq)

/-- Delivers a flit that is held, if it can be taken. -/
def State.takeHeld (s : State) (f : Flit) : Option State :=
  (s.deliverFlit f).map (fun r =>
    let t := if r.2 then r.1.oweAck f s.nextId else r.1
    { t with fabric := { t.fabric with
        held := t.fabric.held.erase f
        expect := if ordered f.vn then Cells.put t.fabric.expect (f.src * 8 + f.vn) (f.seq + 1) else t.fabric.expect
        got := if ordered f.vn then t.fabric.got else t.fabric.got ++ [(f.src, f.vn, f.seq)] } })

/-- Delivers the held flits that can be taken: no network waits for another (R385). -/
def State.drainHeld (s : State) : Nat → State
  | 0 => s
  | n + 1 =>
    match (s.fabric.held.filter s.flitDue).findSome? s.takeHeld with
    | none => s
    | some t => t.drainHeld n

/-- Tries again the frames of checkpoints that wait for a save frame. -/
def State.retryStages (s : State) : State :=
  s.fabric.stages.foldl (fun (s : State) f =>
    match f.body with
    | .stage key n state _ pa bytes =>
      let vf := s.stageVf f
      let r := s.takeStage f key n state pa bytes true
      if r.2 then
        (({ r.1 with fabric := { r.1.fabric with stages := r.1.fabric.stages.erase f } } : State).oweAck f s.nextId).unstall vf
      else r.1
    | .request _ _ _ _ _ _ | .response _ _ _ _ | .update _ _ | .window _ _ _ _ | .enrol _ _ _ _ | .check _ _ _ | .dead _ | .live _ => s) s

/-- What has come over the links and waits is tried again. -/
def State.settleFlits (s : State) : State := (s.drainHeld s.fabric.held.length).retryStages

/-- A flit between two other modules goes on over the direct link to its destination (R389). -/
def State.passOn (s : State) (f : Flit) : State :=
  if f.src ≠ s.self ∧ !s.fabric.dead.contains f.src ∧ s.linkUp f.dst then s.send (.passed f.dst f) else s

/-- A flit that has been delivered before is discarded; it is acknowledged again unless it still waits to be (R388). -/
def State.discard (s : State) (f : Flit) : State :=
  let same (g : Flit) : Bool := g.src == f.src && g.vn == f.vn && g.seq == f.seq
  if s.fabric.stages.any same || s.fabric.owed.any (fun o => o.2.2 == (f.src, f.vn, f.seq)) then s
  else s.send (.flitAck f.src f.vn f.seq)

/-- A flit for this module arrives: of a dead module it is discarded; else it is delivered once, in its network's order. -/
def State.takeFlit (s : State) (f : Flit) : State :=
  let s := s.readmit f
  if f.src = s.self ∨ s.fabric.dead.contains f.src then s
  else if s.flitSeen f then s.discard f
  else if s.fabric.held.any (fun g => g.src == f.src && g.vn == f.vn && g.seq == f.seq) then s
  else ({ s with fabric := { s.fabric with held := s.fabric.held ++ [f] } } : State).drainHeld (s.fabric.held.length + 1)

/-- Is a flit a liveness flit of the module at the far end of a port? -/
def State.liveOf (s : State) (port : Nat) (f : Flit) : Bool :=
  match f.body with
  | .live _ => f.src == s.farEnd port
  | .request _ _ _ _ _ _ | .response _ _ _ _ | .update _ _ | .window _ _ _ _ | .stage _ _ _ _ _ _ | .enrol _ _ _ _ | .check _ _ _ | .dead _ => false

/-- FLIT_RECEIVE: a flit comes over the link of a port. A link that is down carries none but the liveness flits by which it may
come up again (R388-R390). -/
def execFlitReceive (f : Arrival) (s : State) : Host.Outcome State Fault Refusal :=
  if !s.portUsed f.port || !(s.link f.port).trained then .next s
  else
    let t := if s.liveOf f.port f.flit then s.noteLive f.port else s
    if !(s.link f.port).up && !s.liveOf f.port f.flit then .next t
    else if f.flit.dst ≠ s.self then .next (t.passOn f.flit)
    else .next (t.takeFlit f.flit)

/-! ## Acknowledgements (R388, R395) -/

/-- What an acknowledged request does at its sender: a store is performed, an atomic group once its answer has come too, and a
transfer goes on. -/
def State.ackRequest (s : State) (tag : Nat) (q : PeerReq) : State :=
  match s.accesses.find? (fun a => a.id == tag && a.sent) with
  | some a =>
    (match a.op with
     | .store _ | .flagAdd => s.unqueue a.id
     | .rmw _ _ _ | .cas _ _ => s.halfDone a
     | .load | .line | .label | .testGe _ => s)
  | none => match s.wiredTo tag, q with
    | some (core, ch, x, k), .copyData _ =>
      let x := { x with wire := none }
      (s.setHead core ch x).wrote core ch x k
    | some (core, ch, _, _), .copyFlag _ _ => s.dropHead core ch
    | _, _ => s

/-- FLIT_ACK: the sender releases the flit, and what it carried is performed. -/
def execFlitAck (dst vn seq : Nat) (s : State) : Host.Outcome State Fault Refusal :=
  match s.fabric.sent.find? (fun f => f.dst == dst && f.vn == vn && f.seq == seq) with
  | none => .next s
  | some f =>
    let s := { s with fabric := { s.fabric with sent := s.fabric.sent.erase f } }
    match f.body with
    | .request tag _ _ _ _ q => .next (s.ackRequest tag q)
    | .stage key _ _ _ _ _ => .next (s.onGroup key (fun g => { g with unacked := g.unacked.filter (· != (dst, seq)) }))
    | .response _ _ _ _ | .update _ _ | .window _ _ _ _ | .enrol _ _ _ _ | .check _ _ _ | .dead _ | .live _ => .next s

/-! ## Place tables (R391-R393) -/

/-- A PLACE_SET names a dead module: with that it may come back (R396). -/
def State.nameModule (s : State) (m : Nat) : State :=
  if s.fabric.dead.contains m && !s.fabric.named.contains m then
    { s with fabric := { s.fabric with named := s.fabric.named ++ [m] } }
  else s

/-- Does a PLACE_SET fail a check against the device's state: a peer entry of this module or of none of the system, or a die
that another entry maps (R393)? -/
def State.placeBad (s : State) (c : BitVec 512) : Bool :=
  let x := cmdOp c 0
  let y := cmdOp c 1
  match field x 9 8 with
  | 0 => decide (field y 3 0 = s.self) || decide (s.power.image.nModules ≤ field y 3 0)
  | 1 => bit x 24 && (List.range 8).any (fun d =>
      d != field x 19 16 && (((s.vf (field x 4 0)).dies.getD d none).map (·.1)) == some (field y 2 0))
  | _ => false

/-- What an accepted PLACE_SET does to the place table. -/
def State.placeEntry (s : State) (c : BitVec 512) : State :=
  let x := cmdOp c 0
  let y := cmdOp c 1
  let vf := field x 4 0
  let i := field x 19 16
  match field x 9 8 with
  | 0 =>
    let m := field y 3 0
    if bit x 24 then
      let s := (s.onVf vf (fun v => { v with peers := Cells.put v.peers i (m, field y 12 8) })).nameModule m
      let mine := (List.filter (fun (g : Nat × Group) => (s.context g.2.ctx).vf == vf) s.fabric.groups).map (·.1)
      mine.foldl (fun (s : State) key => s.replaceMember key i m) s
    else s.onVf vf (fun v => { v with peers := Cells.erase v.peers i })
  | 1 =>
    s.onVf vf (fun v => { v with dies := setAt v.dies i (if bit x 24 then some (field y 2 0, field y 13 8) else none) })
  | _ =>
    let size := if bit x 24 then (cmdOp c 2).toNat else 0
    let s := s.onVf vf (fun v => { v with pbase := y.toNat, psize := size })
    let told := (List.range s.power.image.nModules).filter (fun m => m != s.self && !s.fabric.dead.contains m)
    told.foldl (fun (s : State) m =>
      s.sendFlit m 7 0 [] (.window vf y (BitVec.ofNat 64 size) (s.vf vf).origin)) s

/-- PLACE_SET, in the order of R441: only the physical function's port may make it, for a suspended VF (R392, R393). -/
def State.cmdPlace (s : State) (r : JRef) (fn : Fn) (c : BitVec 512) : Answer :=
  if s.placeBad c then none
  else if fn != .pf || !(s.vf (field (cmdOp c 0) 4 0)).suspended then s.denied r .denied
  else (s.placeEntry c).done r none

end Sys2Proof.Machine
end

