-- ==== Sys2Proof/Machine/Command.lean ====
section
/-! DEFINITION. The command ports: which statuses a command ends with, in the order of R441; the journal; the host-command
events (R187-R191, R195-R197, R392, R441). -/

namespace Sys2Proof.Machine

/-! ## Checks of a command's own bytes (R189, R191, R441) -/

/-- Does a type name a context? -/
def namesContext (t : Nat) : Bool := [1, 2, 4, 5, 6, 7, 8, 10, 13].contains t

/-- Are the reserved bytes of the common layout zero? -/
def commonOk (c : BitVec 512) : Bool :=
  decide (field c 31 8 = 0) && decide (field c 127 80 = 0) && decide (field c 511 384 = 0) &&
  (namesContext (cmdType c) || decide (field c 79 64 = 0))

/-- Does a port take a type (R191, R392)? -/
def portTakes (fn : Fn) (c : BitVec 512) : Bool :=
  match fn with
  | .vf _ => decide (1 ≤ cmdType c) && decide (cmdType c ≤ 14)
  | .pf => cmdType c == 9 || cmdType c == 14 || (cmdType c == 13 && decide (field (cmdOp c 0) 1 0 = 2))

/-- The operand checks of CHECKPOINT_ENROL (R398). -/
def enrolOperandsOk (c : BitVec 512) : Bool :=
  let x := cmdOp c 0
  let z := cmdOp c 2
  let op := field x 1 0
  let interval := field (cmdOp c 1) 31 0
  decide (field x 31 2 = 0) && op != 3 && decide (field x 63 32 ≠ 0) &&
  decide (field (cmdOp c 1) 63 32 = 0) && decide (100 ≤ interval) && decide (interval ≤ 60000) &&
  decide (field z 63 24 = 0) && bit z (field z 19 16) && bit z (field z 23 20) && decide (field z 23 20 ≠ field z 19 16) &&
  decide (field (cmdOp c 3) 63 4 = 0) && (op == 2 || cmdOp c 3 == 0)

/-- The operand checks of PLACE_SET (R393). -/
def placeOperandsOk (c : BitVec 512) : Bool :=
  let x := cmdOp c 0
  let y := cmdOp c 1
  decide (field x 63 25 = 0) && decide (field x 23 20 = 0) && decide (field x 15 10 = 0) && decide (field x 7 5 = 0) &&
  (match field x 9 8 with
   | 0 => decide (field y 63 13 = 0) && decide (field y 7 4 = 0) && zeroFrom c 2
   | 1 => decide (field x 19 16 < 8) && decide (field y 63 14 = 0) && decide (field y 7 3 = 0) && zeroFrom c 2
   | 2 => decide (field x 19 16 = 0) && decide (y.toNat % 2097152 = 0) && decide ((cmdOp c 2).toNat % 2097152 = 0) &&
      rangeInDram y.toNat (cmdOp c 2).toNat && zeroFrom c 3
   | _ => false)

/-- The operand checks of a type that depend on the command's own bytes only. -/
def operandsOk (fn : Fn) (c : BitVec 512) : Bool :=
  let x := cmdOp c 0
  let y := cmdOp c 1
  let z := cmdOp c 2
  match cmdType c with
  | 1 => zeroFrom c 1
  | 2 => decide (x.toNat < 512) && zeroFrom c 1
  | 3 => decide (x.toNat % 4096 = 0) && decide (y.toNat % 4096 = 0) && zeroFrom c 2
  | 4 | 6 | 7 => zeroFrom c 0
  | 5 => decide (y.toNat < 8) && decide (field y 1 0 ≠ 3) && (!bit y 2 || decide (field y 1 0 = 0)) && zeroFrom c 2
  | 8 => decide (x.toNat % 4096 = 0) && decide (field x 63 60 = 0) && decide (y.toNat % 4096 = 0) && zeroFrom c 2
  | 9 => decide (x.toNat % 4096 = 0) && decide (y.toNat < 2) && zeroFrom c 2 &&
      (match fn with | .pf => rangeInDram x.toNat 4096 | .vf _ => true)
  | 10 => decide (x.toNat &&& 0x87 = x.toNat) && zeroFrom c 3 &&
      (if bit x 7 then decide (field y 63 57 = 0) && decide (y.toNat % 128 = 0) && decide (z.toNat % 128 = 0) &&
          decide (128 ≤ z.toNat) && decide (z.toNat ≤ 1048576)
       else y == 0 && z == 0)
  | 11 => decide (y.toNat < 2) && zeroFrom c 3 &&
      (if y = 0 then decide (x.toNat % 64 = 0) && z == 0 else x == 0 && decide (field z 63 32 = 0))
  | 12 => decide (x.toNat % 64 = 0) && zeroFrom c 1
  | 13 => enrolOperandsOk c
  | 14 => placeOperandsOk c
  | _ => false

/-! ## Processing (R190, R441) -/

/-- Is a command the adopt form on the physical function's port, whose context is not there yet (R392, R405)? -/
def isAdopt (fn : Fn) (c : BitVec 512) : Bool := fn == .pf && cmdType c == 13 && decide (field (cmdOp c 0) 1 0 = 2)

/-- What a command does for a context it names. -/
def State.contextCommand (s : State) (r : JRef) (k : Nat) (c : BitVec 512) : Answer :=
  match cmdType c with
  | 1 => s.cmdLaunch r k c
  | 2 => s.cmdEvset r k c
  | 4 => s.cmdBindOff r k
  | 5 => s.cmdFaultResume r k c
  | 6 => s.cmdPreempt r k
  | 7 => s.cmdResume r k
  | 8 => s.cmdInvalidate r k c
  | 10 => s.cmdWatch r k c
  | 13 => (match field (cmdOp c 0) 1 0 with
    | 0 => s.cmdEnrol r k c
    | 1 => s.cmdWithdraw r k c
    | _ => s.denied r .denied)
  | _ => none

/-- What a command does that names no context, or one that is still to come. -/
def State.plainCommand (s : State) (r : JRef) (fn : Fn) (c : BitVec 512) (dmaOk : Bool) : Answer :=
  match fn, cmdType c with
  | .vf n, 3 => s.cmdCreate r n c
  | _, 9 => s.cmdBiasFlip r fn c
  | .vf n, 11 => if bit (cmdOp c 1) 0 then s.cmdRemove r n c else s.cmdInstall r n c dmaOk
  | .vf n, 12 => s.cmdJoint r n c dmaOk
  | .pf, 13 => s.cmdAdopt r c
  | fn, 14 => s.cmdPlace r fn c
  | _, _ => none

/-- The context that a command names and may act on: one that has not ended, or for BIND_OFF an Ended one too; none that a
BIND_OFF has named already (R361). -/
def State.namedContext (s : State) (fn : Fn) (c : BitVec 512) : Option Nat :=
  match fn with
  | .pf => none
  | .vf n => (s.ctxKey n (cmdNum c)).filter (fun k => ((s.context k).st != .ended || cmdType c == 4) && !(s.context k).unbinding)

/-- Steps 1 to 3 of R441: the status with which a command is rejected by itself or for want of a journal entry. -/
def State.rejects (s : State) (fn : Fn) (c : BitVec 512) : Option Status :=
  if !s.power.portsOpen || !portTakes fn c || !commonOk c || !operandsOk fn c then some .badCommand
  else if !s.journalRoom fn.port then some .journalFull
  else none

/-- Processes a whole command, in the order of R441. The answer is its status, and a rejected one leaves the state as it was. -/
def State.process (s : State) (fn : Fn) (c : BitVec 512) (dmaOk : Bool) : State × Status :=
  match s.rejects fn c with
  | some st => (s, st)
  | none =>
    let r : JRef := (fn.port, (s.port fn.port).tail)
    let e : JEntry :=
      { seq := 0, time := s.nanos, type := cmdType c, st := .accepted, status := .ok, tag := cmdTag c
        ctx := if namesContext (cmdType c) then cmdNum c else 0, operands := cmdOperands c }
    let t := s.journalAdd fn.port e
    let a : Answer :=
      if namesContext (cmdType c) && !isAdopt fn c then
        (match s.namedContext fn c with
         | none => t.denied r .noContext
         | some k => t.contextCommand r k c)
      else t.plainCommand r fn c dmaOk
    match a with
    | none => (s, .badCommand)
    | some x => x

/-- Notes in CMDSTAT what the last command came to. -/
def State.cmdStat (s : State) (p tag : Nat) (st : Status) : State :=
  s.onPort p (fun x => { x with tag := tag, status := st, count := (x.count + 1) % 65536 })

/-- Processes what was written to a port: a command, or a write that is none. -/
def State.consume (s : State) (fn : Fn) (c : Option (BitVec 512)) (dmaOk : Bool) : State :=
  match c with
  | none => s.cmdStat fn.port 0 .badCommand
  | some c =>
    let x := s.process fn c dmaOk
    x.1.cmdStat fn.port (cmdTag c) x.2

/-- Does a port exist: is its VF enabled (R436)? -/
def State.hasPort (s : State) (fn : Fn) : Bool := match fn with | .pf => true | .vf n => decide (n < s.power.image.vfs)

/-- Is a port stopped by a suspension (R373)? -/
def State.portHeld (s : State) (fn : Fn) : Bool := match fn with | .pf => false | .vf n => (s.vf n).suspend

/-- A line of the header of a LAUNCH that stands at another module and has to be read before the command is processed, with the
context (R182, R192, R395; log 73). -/
def State.commandAsk (s : State) (fn : Fn) (c : Option (BitVec 512)) : Option (Nat × Place) :=
  match c with
  | none => none
  | some c =>
    if cmdType c == 1 && (s.rejects fn c).isNone then
      (s.namedContext fn c).bind (fun k =>
        if headerVaOk (cmdOp c 0) then (s.headerAsk k (cmdOp c 0)).map (fun p => (k, p)) else none)
    else none

/-- A port processes what it holds, in order, until it is stopped or must wait (R188). Up to 64 writes stand in the port; what
comes after them is held back on CXL.io and stands behind them in `queue`, so that none is lost. -/
def State.pump (s : State) (fn : Fn) : Nat → State
  | 0 => s
  | n + 1 =>
    match (s.port fn.port).queue with
    | [] => s
    | x :: rest =>
      if s.portHeld fn then s
      else match s.commandAsk fn x.1 with
        | some (k, p) => s.askDevice k (goneTeam + fn.port) p
        | none =>
          let s := (s.onPort fn.port (fun q => { q with queue := rest })).consume fn x.1 x.2
          (s.forgetLines goneTeam (goneTeam + fn.port)).pump fn n

/-- A write to CMDPORT: processed at once, or held unprocessed while the port is stopped or at work (R188, R373). -/
def State.submit (s : State) (fn : Fn) (c : Option (BitVec 512)) (dmaOk : Bool) : State :=
  if !s.hasPort fn then s
  else if (s.port fn.port).queue.isEmpty && !s.portHeld fn && (s.commandAsk fn c).isNone then s.consume fn c dmaOk
  else
    let s := s.onPort fn.port (fun p => { p with queue := p.queue ++ [(c, dmaOk)] })
    s.pump fn (s.port fn.port).queue.length

/-- The function of a port. -/
def portFn (p : Nat) : Fn := if p = 0 then .pf else .vf (p - 1)

/-- The ports go on with what they hold. -/
def State.pumpAll (s : State) : State :=
  s.ports.foldl (fun (s : State) p => if p.2.queue.isEmpty then s else s.pump (portFn p.1) p.2.queue.length) s

/-- Ends the suspension of a VF: contexts go on, and the port works off what it held (R373). -/
def State.resumeVf (s : State) (vf : Nat) : State :=
  if !(s.vf vf).suspend then s else (s.endSuspension vf).pump (.vf vf) (s.port (vf + 1)).queue.length

/-- SUSPEND_CLEAR: VFCTL.SUSPEND becomes 0. -/
def execSuspendClear (vf : Nat) (s : State) : Host.Outcome State Fault Refusal := .next (s.resumeVf vf)

/-! ## Registers by their access codes (R5) -/

/-- A write of some bytes of the save-frame block of a VF, within one register: SFADD takes whole writes only, SFSTAT clears
by ones, VFCTL suspends the VF or ends its suspension (R5, R366). -/
def State.writeSaveBlock (s : State) (vf off width : Nat) (x : DWord) : State :=
  match off / 8 with
  | 0 => s.addFrame vf x (width == 8)
  | 2 =>
    let y := BitVec.ofNat 64 (mergeBytes 0 0x10 off width x)
    s.onVf vf (fun v => { v with badadd := v.badadd && !bit y 2, exhausted := v.exhausted && !bit y 1 })
  | 3 => if off = 0x18 then (if bit x 0 then s.suspendVf vf else s.resumeVf vf) else s
  | _ => s

/-- A write of some bytes of an origin slot: HOSTWB clears by a one, UNBIND acts on a one (R427). -/
def State.writeOrigin (s : State) (slot off width : Nat) (x : DWord) : State :=
  let y := BitVec.ofNat 64 (mergeBytes 0 0 off width x)
  let s := if bit y 7 then s.onOrigin slot (fun o => { o with hostwb := false }) else s
  if bit y 6 then s.unbindSlot slot else s

/-- A write of some bytes of one 8-byte register in the physical function's BAR (R366, R410, R423, R427). The other registers
read only. -/
def State.writePf (s : State) (off width : Nat) (x : DWord) : State :=
  if width = 0 then s
  else if 0x100000 ≤ off ∧ off < 0x100800 then s.writeSaveBlock ((off - 0x100000) / 64) (off % 64) width x
  else if 0x200000 ≤ off ∧ off < 0x200800 then s.writeTenancy ((off - 0x200000) / 64) (off % 64) width x
  else if 0x300000 ≤ off ∧ off < 0x300980 then s.writeBudget ((off - 0x300000) / 64) (off % 64) width x
  else if 0x800000 ≤ off ∧ off < 0x800400 then s.writeOrigin ((off - 0x800000) / 64) (off % 64) width x
  else s

/-- REGISTER_WRITE: a write of up to 8 bytes through a BAR acts on each register that it covers, by the access codes of its
fields; one that reaches CMDPORT is no whole command (R5, R187, R188). -/
def execRegisterWrite (fn : Fn) (off width : Nat) (x : BitVec 64) (s : State) : Host.Outcome State Fault Refusal :=
  if coversBytes 0 64 off width then .next (s.submit fn none true)
  else match fn with
    | .vf _ => .next s
    | .pf =>
      let n := min width (8 - off % 8)
      .next ((s.writePf off n x).writePf (off + n) (min (width - n) 8) (x >>> (8 * n)))

/-! ## The events of the command ports -/

/-- A host command, when its type and form are those that the event names. -/
def hostCommand (fn : Fn) (c : BitVec 512) (dmaOk ok : Bool) (s : State) : Host.Outcome State Fault Refusal :=
  if ok then .next (s.submit fn (some c) dmaOk) else .next s

/-- BAD_COMMAND: a write that is not one whole command, or a command that ends so, is counted and ignored (R188). -/
def execBadCommand (fn : Fn) (bytes : List Byte) (s : State) : Host.Outcome State Fault Refusal :=
  if bytes.length ≠ 64 then .next (s.submit fn none true)
  else
    let c := BitVec.ofNat 512 (ofBytes bytes)
    hostCommand fn c true ((s.process fn c true).2 == .badCommand) s

/-- LAUNCH command (R192). -/
def execLaunchCmd (fn : Fn) (c : BitVec 512) (s : State) : Host.Outcome State Fault Refusal :=
  hostCommand fn c true (cmdType c == 1) s
/-- EVSET command that sets a bit (R193). -/
def execEvsetCmd (fn : Fn) (c : BitVec 512) (s : State) : Host.Outcome State Fault Refusal :=
  hostCommand fn c true (cmdType c == 2 && !bit (cmdOp c 0) 8) s
/-- EVSET command that clears a bit (R193). -/
def execEvsetClrCmd (fn : Fn) (c : BitVec 512) (s : State) : Host.Outcome State Fault Refusal :=
  hostCommand fn c true (cmdType c == 2 && bit (cmdOp c 0) 8) s
/-- CONTEXT_CREATE (R194). -/
def execContextCreate (fn : Fn) (c : BitVec 512) (s : State) : Host.Outcome State Fault Refusal :=
  hostCommand fn c true (cmdType c == 3) s
/-- BIND_OFF (R374). -/
def execBindOff (fn : Fn) (c : BitVec 512) (s : State) : Host.Outcome State Fault Refusal :=
  hostCommand fn c true (cmdType c == 4) s
/-- FAULT_RESUME, retry (R354). -/
def execFaultResumeRetry (fn : Fn) (c : BitVec 512) (s : State) : Host.Outcome State Fault Refusal :=
  hostCommand fn c true (cmdType c == 5 && field (cmdOp c 1) 1 0 == 0) s
/-- FAULT_RESUME, deliver-as-trap (R354). -/
def execFaultResumeDeliver (fn : Fn) (c : BitVec 512) (s : State) : Host.Outcome State Fault Refusal :=
  hostCommand fn c true (cmdType c == 5 && field (cmdOp c 1) 1 0 == 1) s
/-- FAULT_RESUME, kill (R354). -/
def execFaultResumeKill (fn : Fn) (c : BitVec 512) (s : State) : Host.Outcome State Fault Refusal :=
  hostCommand fn c true (cmdType c == 5 && field (cmdOp c 1) 1 0 == 2) s
/-- PREEMPT (R362). -/
def execPreempt (fn : Fn) (c : BitVec 512) (s : State) : Host.Outcome State Fault Refusal :=
  hostCommand fn c true (cmdType c == 6) s
/-- RESUME (R362). -/
def execResume (fn : Fn) (c : BitVec 512) (s : State) : Host.Outcome State Fault Refusal :=
  hostCommand fn c true (cmdType c == 7) s
/-- INVALIDATE_VA (R229). -/
def execInvalidateVa (fn : Fn) (c : BitVec 512) (s : State) : Host.Outcome State Fault Refusal :=
  hostCommand fn c true (cmdType c == 8) s
/-- BIAS_FLIP to host bias (R418). -/
def execBiasFlipToHost (fn : Fn) (c : BitVec 512) (s : State) : Host.Outcome State Fault Refusal :=
  hostCommand fn c true (cmdType c == 9 && !bit (cmdOp c 1) 0) s
/-- BIAS_FLIP to device bias (R418). -/
def execBiasFlipToDevice (fn : Fn) (c : BitVec 512) (s : State) : Host.Outcome State Fault Refusal :=
  hostCommand fn c true (cmdType c == 9 && bit (cmdOp c 1) 0) s
/-- WATCH_SET that enables a window (R284). -/
def execWatchSet (fn : Fn) (c : BitVec 512) (s : State) : Host.Outcome State Fault Refusal :=
  hostCommand fn c true (cmdType c == 10 && bit (cmdOp c 0) 7) s
/-- WATCH_SET that removes a window (R284). -/
def execWatchRemove (fn : Fn) (c : BitVec 512) (s : State) : Host.Outcome State Fault Refusal :=
  hostCommand fn c true (cmdType c == 10 && !bit (cmdOp c 0) 7) s
/-- POLICY_INSTALL that installs (R432). -/
def execPolicyInstall (fn : Fn) (c : BitVec 512) (dmaOk : Bool) (s : State) : Host.Outcome State Fault Refusal :=
  hostCommand fn c dmaOk (cmdType c == 11 && !bit (cmdOp c 1) 0) s
/-- POLICY_INSTALL that removes (R432). -/
def execPolicyRemove (fn : Fn) (c : BitVec 512) (s : State) : Host.Outcome State Fault Refusal :=
  hostCommand fn c true (cmdType c == 11 && bit (cmdOp c 1) 0) s
/-- JOINT_CONTEXT (R428). -/
def execJointContext (fn : Fn) (c : BitVec 512) (dmaOk : Bool) (s : State) : Host.Outcome State Fault Refusal :=
  hostCommand fn c dmaOk (cmdType c == 12) s
/-- CHECKPOINT_ENROL, enrol (R398). -/
def execCheckpointEnrol (fn : Fn) (c : BitVec 512) (s : State) : Host.Outcome State Fault Refusal :=
  hostCommand fn c true (cmdType c == 13 && field (cmdOp c 0) 1 0 == 0) s
/-- CHECKPOINT_ENROL, withdraw (R399). -/
def execCheckpointWithdraw (fn : Fn) (c : BitVec 512) (s : State) : Host.Outcome State Fault Refusal :=
  hostCommand fn c true (cmdType c == 13 && field (cmdOp c 0) 1 0 == 1) s
/-- CHECKPOINT_ENROL, adopt (R405). -/
def execCheckpointAdopt (fn : Fn) (c : BitVec 512) (s : State) : Host.Outcome State Fault Refusal :=
  hostCommand fn c true (cmdType c == 13 && field (cmdOp c 0) 1 0 == 2) s
/-- PLACE_SET (R393). -/
def execPlaceSet (fn : Fn) (c : BitVec 512) (s : State) : Host.Outcome State Fault Refusal :=
  hostCommand fn c true (cmdType c == 14) s

end Sys2Proof.Machine
end

