-- ==== Sys2Proof/Machine/Compare.lean ====
section
/-! DEFINITION. Comparisons, selection and predicate instructions (R108-R111). -/

namespace Sys2Proof.Machine

/-- An integer comparison (R108). -/
def cmpInt (k : Cmp) (a b : Int) : Bool :=
  match k with
  | .eq => decide (a = b)
  | .ne => decide (a ≠ b)
  | .lt => decide (a < b)
  | .le => decide (a ≤ b)
  | .gt => decide (b < a)
  | .ge => decide (b ≤ a)
  | .un => false
  | .ord => true

/-- A floating comparison of two values, and whether it raises IV on a quiet NaN (R108). -/
def cmpFlt (k : Cmp) (a b : FVal) : Bool × Bool :=
  let nan := a.isNan || b.isNan
  match k with
  | .eq => (!nan && !a.lt b && !b.lt a, false)
  | .ne => (nan || a.lt b || b.lt a, false)
  | .lt => (!nan && a.lt b, true)
  | .le => (!nan && !b.lt a, true)
  | .gt => (!nan && b.lt a, true)
  | .ge => (!nan && !a.lt b, true)
  | .un => (nan, false)
  | .ord => (!nan, false)

/-! ## Meanings -/

/-- ICMP: the comparison ANDed with a predicate (R108). -/
def execIcmp (h : Hdr) (cmp : Cmp) (t : IType) (d : BitVec 3) (a b : BitVec 8) (c : BitVec 3) (s : State) :
    Host.Outcome State Fault Refusal :=
  issue (.icmp h cmp t d a b c) s (fun cx =>
    { s := cx.s
      wr := [pWrite d.toNat
        (cx.lanesA.map (fun l => (l, cmpInt cmp (cx.ival false t l a) (cx.ival false t l b) && cx.p l c.toNat)))
        (cx.labV a t.words ||| cx.labV b t.words ||| cx.labP c.toNat)] })

/-- FCMP: the comparison ANDed with a predicate, with its flags (R108). -/
def execFcmp (h : Hdr) (cmp : Cmp) (t : FType) (d : BitVec 3) (a b : BitVec 8) (c : BitVec 3) (s : State) :
    Host.Outcome State Fault Refusal :=
  issue (.fcmp h cmp t d a b c) s (fun cx =>
    cx.fpEnd (cx.lanesA.map (fun l =>
        let x := readIn cx.ftz t.fmt (t.elem (cx.fraw t l a) 0)
        let y := readIn cx.ftz t.fmt (t.elem (cx.fraw t l b) 0)
        let r := cmpFlt cmp x.1 y.1
        let iv : Flags := if r.2 && (x.1.isNan || y.1.isNan) then flagIV else 0
        (l, (r.1 && cx.p l c.toNat).toNat, x.2 ||| y.2 ||| iv)))
      (fun vals => [pWrite d.toNat (vals.map (fun v => (v.1, v.2 != 0)))
        (cx.labV a t.words ||| cx.labV b t.words ||| cx.labP c.toNat)]))

/-- SEL selects one of two registers by a predicate (R109). -/
def execSel (h : Hdr) (t : IType) (d a b : BitVec 8) (c : BitVec 3) (s : State) : Host.Outcome State Fault Refusal :=
  issue (.sel h t d a b c) s (fun cx =>
    { s := cx.s
      wr := vWrites d t.words
        (cx.lanesA.map (fun l => (l, cx.vn l (if cx.p l c.toNat then a.toNat else b.toNat) t.words)))
        (cx.labV a t.words ||| cx.labV b t.words ||| cx.labP c.toNat) })

/-- PLOG: a truth-table function of three predicates (R110). -/
def execPlog (h : Hdr) (tt : BitVec 8) (d a b c : BitVec 3) (s : State) : Host.Outcome State Fault Refusal :=
  issue (.plog h tt d a b c) s (fun cx =>
    { s := cx.s
      wr := [pWrite d.toNat
        (cx.lanesA.map (fun l => (l, tt.getLsbD
          ((cx.p l a.toNat).toNat + 2 * (cx.p l b.toNat).toNat + 4 * (cx.p l c.toNat).toNat))))
        (cx.labP a.toNat ||| cx.labP b.toNat ||| cx.labP c.toNat)] })

/-- PMOV moves predicate bits (R111). -/
def execPmov (h : Hdr) (f : PmovForm) (d a : BitVec 8) (s : State) : Host.Outcome State Fault Refusal :=
  issue (.pmov h f d a) s (fun cx =>
    match f with
    | .move => { s := cx.s, wr := [pWrite d.toNat (cx.lanesA.map (fun l => (l, cx.p l a.toNat))) (cx.labP a.toNat)] }
    | .toV =>
      { s := cx.s
        wr := vWrites d 1
          (cx.lanesA.map (fun l => (l, (List.range 7).foldl (fun x k => x + (cx.p l k).toNat * 2 ^ k) 0)))
          ((List.range 7).foldl (fun x k => x ||| cx.labP k) 0) }
    | .fromV =>
      { s := cx.s
        wr := (List.range 7).map (fun k =>
          pWrite k (cx.lanesA.map (fun l => (l, (cx.v l a.toNat).getLsbD k))) (cx.labV a 1)) })

end Sys2Proof.Machine
end

