-- ==== Sys2Proof/Machine/Float.lean ====
section
/-! DEFINITION. The floating-point group: arithmetic rounded once, exact forms, elementary functions (R71-R76, R98-R102). -/

namespace Sys2Proof.Machine

/-! ## Exact results -/

/-- a + b (R74). -/
def addOp (m : RMode) (xs : List FVal) : FVal × Flags := sumF m xs
/-- a − b (R74). -/
def subOp (m : RMode) : List FVal → FVal × Flags
  | [a, b] => sumF m [a, b.neg]
  | _ => (.nan false, 0)
/-- a × b (R74). -/
def mulOp (_ : RMode) : List FVal → FVal × Flags
  | [a, b] => mulF a b
  | _ => (.nan false, 0)
/-- a × b + c (R74). -/
def fmaOp (m : RMode) : List FVal → FVal × Flags
  | [a, b, c] =>
    let p := mulF a b
    let y := sumF m [p.1, c]
    (y.1, y.2 ||| p.2)
  | _ => (.nan false, 0)
/-- a₀ × b₀ + a₁ × b₁ + c (R102). -/
def dotOp (m : RMode) : List FVal → FVal × Flags
  | [a0, b0, a1, b1, c] =>
    let p := mulF a0 b0
    let q := mulF a1 b1
    let y := sumF m [p.1, q.1, c]
    (y.1, y.2 ||| p.2 ||| q.2)
  | _ => (.nan false, 0)

/-- The value and flags of a function of one input (R75, R76). -/
def recipOp : FVal → FVal × Flags
  | .nan _ => (.nan false, 0)
  | .inf s => (.num s 0 0, 0)
  | .num s 0 _ => (.inf s, flagDZ)
  | .num s m e => (ratVal s 1 m (-e), 0)
def sqrtOp : FVal → FVal × Flags
  | .nan _ => (.nan false, 0)
  | .inf s => if s then (.nan false, flagIV) else (.inf false, 0)
  | .num s 0 _ => (.num s 0 0, 0)
  | .num s m e => if s then (.nan false, flagIV) else (sqrtVal m e, 0)
def rsqrtOp : FVal → FVal × Flags
  | .nan _ => (.nan false, 0)
  | .inf s => if s then (.nan false, flagIV) else (.num false 0 0, 0)
  | .num s 0 _ => (.inf s, flagDZ)
  | .num s m e => if s then (.nan false, flagIV) else (rsqrtVal m e, 0)
def exp2Op : FVal → FVal × Flags
  | .nan _ => (.nan false, 0)
  | .inf s => if s then (.num false 0 0, 0) else (.inf false, 0)
  | .num s m e => (exp2Val s m e, 0)
def log2Op : FVal → FVal × Flags
  | .nan _ => (.nan false, 0)
  | .inf s => if s then (.nan false, flagIV) else (.inf false, 0)
  | .num _ 0 _ => (.inf true, flagDZ)
  | .num s m e => if s then (.nan false, flagIV) else (log2Val m e, 0)
def sinOp : FVal → FVal × Flags
  | .nan _ => (.nan false, 0)
  | .inf _ => (.nan false, flagIV)
  | .num s m e => match turnTrig false m e with
    | .num _ 0 _ => (.num s 0 0, 0)
    | .num neg a k => (.num (neg ^^ s) a k, 0)
    | v => (v, 0)
def cosOp : FVal → FVal × Flags
  | .nan _ => (.nan false, 0)
  | .inf _ => (.nan false, flagIV)
  | .num _ m e => (turnTrig true m e, 0)

/-- A function of one operand, rounded once. -/
def fun1 (f : FVal → FVal × Flags) (_ : RMode) : List FVal → FVal × Flags
  | [a] => f a
  | _ => (.nan false, 0)

/-- a × 2^b (R102). -/
def scaleOp (b : Int) : FVal → FVal × Flags
  | .nan _ => (.nan false, 0)
  | .inf s => (.inf s, 0)
  | .num s m e => (.num s m (if m = 0 then e else e + b), 0)

/-- The class mask of R101. -/
def classOf (f : FFmt) (x : Nat) : Nat :=
  match decodeF f x with
  | .nan sig => if sig then 256 else 512
  | .inf s => if s then 1 else 128
  | .num s m _ =>
    if m = 0 then (if s then 8 else 16)
    else if x % 2 ^ (f.width - 1) < 2 ^ (f.p - 1) then (if s then 4 else 32)
    else (if s then 2 else 64)

/-- FRINT of one code (R102). -/
def rintF (f : FFmt) (mode : RMode) (rnd : Word) (x : Nat) : Nat × Flags :=
  match decodeF f x with
  | .nan _ => (f.nan, readFlags f x)
  | .inf _ => (x, 0)
  | .num s m e =>
    let r := roundIntegral mode rnd s m e
    ((roundTo f .rtz 0 false (.num s r.1 0)).1, if r.2 then flagNX else 0)

/-- A rounded operation of a type on two or three register operands. -/
def Cx.fp2 (c : Cx) (t : FType) (rm : Rnd) (r : RndSrc) (d a b : BitVec 8)
    (op : RMode → List FVal → FVal × Flags) : Eff :=
  c.fpEff d t.words (c.labV a t.words ||| c.labV b t.words ||| c.labRnd rm r)
    (fun l => c.fpOp t rm r l [c.fraw t l a, c.fraw t l b] op)

/-- A rounded function of one register operand. -/
def Cx.fp1 (c : Cx) (t : FType) (rm : Rnd) (r : RndSrc) (d a : BitVec 8) (f : FVal → FVal × Flags) : Eff :=
  c.fpEff d t.words (c.labV a t.words ||| c.labRnd rm r) (fun l => c.fpOp t rm r l [c.fraw t l a] (fun1 f))

/-- An F32 operation on a register and an immediate, under RNE (R91). -/
def Cx.fpImm (c : Cx) (d a : BitVec 8) (imm : BitVec 32) (op : RMode → List FVal → FVal × Flags) : Eff :=
  c.fpEff d 1 (c.labV a 1) (fun l => c.fpOp .f32 .rne ⟨false, 0⟩ l [c.fraw .f32 l a, imm.toNat] op)

/-- A minimum or maximum of two codes by element (R100). -/
def minMax2 (larger : Bool) (f : FFmt) : List Nat → Nat × Flags
  | [x, y] => minMaxF larger f x y
  | _ => (0, 0)

/-- The absolute value, or the negation, of an element (R101). -/
def absOrNeg (neg : Bool) (f : FFmt) : List Nat → Nat × Flags
  | [x] => signF neg f x
  | _ => (0, 0)

/-! ## Meanings -/

/-- FADD: a + b, rounded once (R74, R98, R99). -/
def execFadd (h : Hdr) (t : FType) (rm : Rnd) (r : RndSrc) (d a b : BitVec 8) (s : State) : Host.Outcome State Fault Refusal :=
  issue (.fadd h t rm r d a b) s (fun cx => cx.fp2 t rm r d a b addOp)

/-- FADD of F32 with an immediate (R91). -/
def execFaddImm (h : Hdr) (imm : BitVec 32) (d a : BitVec 8) (s : State) : Host.Outcome State Fault Refusal :=
  issue (.faddImm h imm d a) s (fun cx => cx.fpImm d a imm addOp)

/-- FSUB: a − b, rounded once (R74, R98, R99). -/
def execFsub (h : Hdr) (t : FType) (rm : Rnd) (r : RndSrc) (d a b : BitVec 8) (s : State) : Host.Outcome State Fault Refusal :=
  issue (.fsub h t rm r d a b) s (fun cx => cx.fp2 t rm r d a b subOp)

/-- FSUB of F32 with an immediate (R91). -/
def execFsubImm (h : Hdr) (imm : BitVec 32) (d a : BitVec 8) (s : State) : Host.Outcome State Fault Refusal :=
  issue (.fsubImm h imm d a) s (fun cx => cx.fpImm d a imm subOp)

/-- FMUL: a × b, rounded once (R74, R98, R99). -/
def execFmul (h : Hdr) (t : FType) (rm : Rnd) (r : RndSrc) (d a b : BitVec 8) (s : State) : Host.Outcome State Fault Refusal :=
  issue (.fmul h t rm r d a b) s (fun cx => cx.fp2 t rm r d a b mulOp)

/-- FMUL of F32 with an immediate (R91). -/
def execFmulImm (h : Hdr) (imm : BitVec 32) (d a : BitVec 8) (s : State) : Host.Outcome State Fault Refusal :=
  issue (.fmulImm h imm d a) s (fun cx => cx.fpImm d a imm mulOp)

/-- FMA: a × b + c with one rounding (R74, R98). -/
def execFma (h : Hdr) (t : FType) (rm : Rnd) (r : RndSrc) (d a b c : BitVec 8) (s : State) : Host.Outcome State Fault Refusal :=
  issue (.fma h t rm r d a b c) s (fun cx => cx.fpEff d t.words
    (cx.labV a t.words ||| cx.labV b t.words ||| cx.labV c t.words ||| cx.labRnd rm r)
    (fun l => cx.fpOp t rm r l [cx.fraw t l a, cx.fraw t l b, cx.fraw t l c] fmaOp))

/-- FMIN (R100). -/
def execFmin (h : Hdr) (t : FType) (d a b : BitVec 8) (s : State) : Host.Outcome State Fault Refusal :=
  issue (.fmin h t d a b) s (fun cx => cx.fpEff d t.words (cx.labV a t.words ||| cx.labV b t.words)
    (fun l => cx.fpExact t [cx.fraw t l a, cx.fraw t l b] (minMax2 false)))

/-- FMIN of F32 with an immediate (R91, R100). -/
def execFminImm (h : Hdr) (imm : BitVec 32) (d a : BitVec 8) (s : State) : Host.Outcome State Fault Refusal :=
  issue (.fminImm h imm d a) s (fun cx => cx.fpEff d 1 (cx.labV a 1)
    (fun l => cx.fpExact .f32 [cx.fraw .f32 l a, imm.toNat] (minMax2 false)))

/-- FMAX (R100). -/
def execFmax (h : Hdr) (t : FType) (d a b : BitVec 8) (s : State) : Host.Outcome State Fault Refusal :=
  issue (.fmax h t d a b) s (fun cx => cx.fpEff d t.words (cx.labV a t.words ||| cx.labV b t.words)
    (fun l => cx.fpExact t [cx.fraw t l a, cx.fraw t l b] (minMax2 true)))

/-- FMAX of F32 with an immediate (R91, R100). -/
def execFmaxImm (h : Hdr) (imm : BitVec 32) (d a : BitVec 8) (s : State) : Host.Outcome State Fault Refusal :=
  issue (.fmaxImm h imm d a) s (fun cx => cx.fpEff d 1 (cx.labV a 1)
    (fun l => cx.fpExact .f32 [cx.fraw .f32 l a, imm.toNat] (minMax2 true)))

/-- FABS (R101). -/
def execFabs (h : Hdr) (t : FType) (d a : BitVec 8) (s : State) : Host.Outcome State Fault Refusal :=
  issue (.fabs h t d a) s (fun cx => cx.fpEff d t.words (cx.labV a t.words)
    (fun l => cx.fpExact t [cx.fraw t l a] (absOrNeg false)))

/-- FNEG (R101). -/
def execFneg (h : Hdr) (t : FType) (d a : BitVec 8) (s : State) : Host.Outcome State Fault Refusal :=
  issue (.fneg h t d a) s (fun cx => cx.fpEff d t.words (cx.labV a t.words)
    (fun l => cx.fpExact t [cx.fraw t l a] (absOrNeg true)))

/-- FRCP, correctly rounded (R75, R76). -/
def execFrcp (h : Hdr) (t : FType) (rm : Rnd) (r : RndSrc) (d a : BitVec 8) (s : State) : Host.Outcome State Fault Refusal :=
  issue (.frcp h t rm r d a) s (fun cx => cx.fp1 t rm r d a recipOp)

/-- FSQRT, correctly rounded (R75, R76). -/
def execFsqrt (h : Hdr) (t : FType) (rm : Rnd) (r : RndSrc) (d a : BitVec 8) (s : State) : Host.Outcome State Fault Refusal :=
  issue (.fsqrt h t rm r d a) s (fun cx => cx.fp1 t rm r d a sqrtOp)

/-- FRSQ, correctly rounded (R75, R76). -/
def execFrsq (h : Hdr) (t : FType) (rm : Rnd) (r : RndSrc) (d a : BitVec 8) (s : State) : Host.Outcome State Fault Refusal :=
  issue (.frsq h t rm r d a) s (fun cx => cx.fp1 t rm r d a rsqrtOp)

/-- FEXP2, correctly rounded (R75, R76). -/
def execFexp2 (h : Hdr) (t : FType) (rm : Rnd) (r : RndSrc) (d a : BitVec 8) (s : State) : Host.Outcome State Fault Refusal :=
  issue (.fexp2 h t rm r d a) s (fun cx => cx.fp1 t rm r d a exp2Op)

/-- FLOG2, correctly rounded (R75, R76). -/
def execFlog2 (h : Hdr) (t : FType) (rm : Rnd) (r : RndSrc) (d a : BitVec 8) (s : State) : Host.Outcome State Fault Refusal :=
  issue (.flog2 h t rm r d a) s (fun cx => cx.fp1 t rm r d a log2Op)

/-- FSIN, correctly rounded (R75, R76). -/
def execFsin (h : Hdr) (t : FType) (rm : Rnd) (r : RndSrc) (d a : BitVec 8) (s : State) : Host.Outcome State Fault Refusal :=
  issue (.fsin h t rm r d a) s (fun cx => cx.fp1 t rm r d a sinOp)

/-- FCOS, correctly rounded (R75, R76). -/
def execFcos (h : Hdr) (t : FType) (rm : Rnd) (r : RndSrc) (d a : BitVec 8) (s : State) : Host.Outcome State Fault Refusal :=
  issue (.fcos h t rm r d a) s (fun cx => cx.fp1 t rm r d a cosOp)

/-- FCLASS writes the class mask of its unflushed input (R101). -/
def execFclass (h : Hdr) (t : FType) (d a : BitVec 8) (s : State) : Host.Outcome State Fault Refusal :=
  issue (.fclass h t d a) s (fun cx => cx.fpEff d 1 (cx.labV a t.words)
    (fun l => (classOf t.fmt (t.elem (cx.fraw t l a) 0), 0)))

/-- FDOT2 (R102). -/
def execFdot2 (h : Hdr) (t : FType) (rm : Rnd) (r : RndSrc) (d a b c : BitVec 8) (s : State) : Host.Outcome State Fault Refusal :=
  issue (.fdot2 h t rm r d a b c) s (fun cx => cx.fpEff d 1 (cx.labV a 1 ||| cx.labV b 1 ||| cx.labV c 1 ||| cx.labRnd rm r)
    (fun l =>
      let x := cx.fraw t l a
      let y := cx.fraw t l b
      let ins := [readIn cx.ftz t.fmt (t.elem x 0), readIn cx.ftz t.fmt (t.elem y 0), readIn cx.ftz t.fmt (t.elem x 1),
        readIn cx.ftz t.fmt (t.elem y 1), readIn cx.ftz .f32 (cx.v l c.toNat).toNat]
      let m := cx.mode rm
      let o := dotOp m (ins.map (·.1))
      let z := roundTo .f32 m (cx.rnd rm r l 0 0) cx.ftz o.1
      (z.1, z.2 ||| o.2 ||| ins.foldl (fun f i => f ||| i.2) 0)))

/-- FSCALE: a × 2^b, rounded once (R102). -/
def execFscale (h : Hdr) (t : FType) (rm : Rnd) (r : RndSrc) (d a b : BitVec 8) (s : State) : Host.Outcome State Fault Refusal :=
  issue (.fscale h t rm r d a b) s (fun cx => cx.fpEff d t.words (cx.labV a t.words ||| cx.labV b 1 ||| cx.labRnd rm r)
    (fun l => cx.fpOp t rm r l [cx.fraw t l a] (fun1 (scaleOp (cx.v l b.toNat).toInt))))

/-- FRINT rounds to an integral value (R102). -/
def execFrint (h : Hdr) (t : FType) (rm : Rnd) (r : RndSrc) (d a : BitVec 8) (s : State) : Host.Outcome State Fault Refusal :=
  issue (.frint h t rm r d a) s (fun cx => cx.fpEff d t.words (cx.labV a t.words ||| cx.labRnd rm r)
    (fun l => rintF t.fmt (cx.mode rm) (cx.rnd rm r l 0 0) (ftzCode cx.ftz t.fmt (t.elem (cx.fraw t l a) 0))))

end Sys2Proof.Machine
end

