-- ==== Sys2Proof/Machine/Int.lean ====
section
/-! DEFINITION. The integer group: moves, arithmetic, logic, shifts, bit fields, 64-bit forms (R57, R87-R97). -/

namespace Sys2Proof.Machine

/-! ## Shared computations -/

/-- A shift of 32 raw bits (R94). -/
def shl32 (a b : Nat) : Nat := if b < 32 then a * 2 ^ b % 2 ^ 32 else 0
def shr32 (a b : Nat) : Nat := if b < 32 then a / 2 ^ b else 0
def sar32 (a b : Nat) : Nat := wrap 32 (intVal 32 true a / ((2 ^ min b 31 : Nat) : Int))
def rotl32 (a b : Nat) : Nat := (a * 2 ^ (b % 32) + a / 2 ^ (32 - b % 32)) % 2 ^ 32

/-- The truth-table function of three operands, bit by bit (R95). -/
def tableOf (n : Nat) (tt : BitVec 8) (a b c : Nat) : Nat :=
  (List.range n).foldl (fun x i =>
    x + (tt.getLsbD ((a.testBit i).toNat + 2 * (b.testBit i).toNat + 4 * (c.testBit i).toNat)).toNat * 2 ^ i) 0

/-- The position and length fields of R96: the field's first bit and its length within the register, if any. -/
def fieldOf (x : Nat) : Option (Nat × Nat) :=
  let pos := x % 256
  let len := x / 256 % 256
  if 32 ≤ pos ∨ len = 0 then none else some (pos, min len (32 - pos))

/-- BFX (R96), as an exact value of the type. -/
def bfxOf (signed : Bool) (a b : Nat) : Int :=
  match fieldOf b with
  | none => 0
  | some (pos, l) => intVal l signed (a >>> pos)

/-- BFI (R96). -/
def bfiOf (a b c : Nat) : Nat :=
  match fieldOf c with
  | none => a
  | some (pos, l) => a - (a >>> pos % 2 ^ l) <<< pos + (b % 2 ^ l) <<< pos

/-- Number of 1 bits of the low n bits. -/
def popcOf (n a : Nat) : Nat := (List.range n).foldl (fun x i => x + (a.testBit i).toNat) 0

/-- Leading zeros of the low n bits. -/
def clzOf (n a : Nat) : Nat := n - (if a % 2 ^ n = 0 then 0 else Nat.log2 (a % 2 ^ n) + 1)

/-- Bit reversal of the low n bits. -/
def brevOf (n a : Nat) : Nat := (List.range n).foldl (fun x i => x + (a.testBit i).toNat * 2 ^ (n - 1 - i)) 0

/-- BPERM (R95). -/
def bpermOf (a b c : Nat) : Nat :=
  (List.range 4).foldl (fun x k =>
    let s := b >>> (4 * k) % 16
    let j := s % 8
    let byte := (if j < 4 then a >>> (8 * j) else c >>> (8 * (j - 4))) % 256
    x + (if s < 8 then byte else if 128 ≤ byte then 255 else 0) * 2 ^ (8 * k)) 0

/-- One 32-bit operand and a 32-bit amount without a type. -/
def Cx.shift (c : Cx) (u : Bool) (d a b : BitVec 8) (f : Nat → Nat → Nat) : Eff :=
  c.intEff u 1 d (c.labI u a 1 ||| c.labI u b 1) (fun l => f (c.raw32 u l a) (c.raw32 u l b))

/-- The same with an immediate amount. -/
def Cx.shiftImm (c : Cx) (u : Bool) (d a : BitVec 8) (imm : BitVec 32) (f : Nat → Nat → Nat) : Eff :=
  c.intEff u 1 d (c.labI u a 1) (fun l => f (c.raw32 u l a) imm.toNat)

/-- One operand of a logic type and a plain 32-bit count. -/
def Cx.count (c : Cx) (u : Bool) (t : IType) (d a : BitVec 8) (f : Nat → Nat → Nat) : Eff :=
  c.intEff u 1 d (c.labI u a t.words) (fun l => f t.width (c.iraw u t.words l a % 2 ^ t.width))

/-! ## Meanings -/

/-- NOP has no effect (R92). -/
def execNop (h : Hdr) (s : State) : Host.Outcome State Fault Refusal :=
  issue (.nop h) s (fun cx => { s := cx.s })

/-- MOV copies a register, pair or quad (R92). -/
def execMov (h : Hdr) (u : Bool) (t : IType) (d a : BitVec 8) (s : State) : Host.Outcome State Fault Refusal :=
  issue (.mov h u t d a) s (fun cx => cx.intEff u t.words d (cx.labI u a t.words)
    (fun l => if t = .b128 then cx.vn l a.toNat 4 else intWrite t u (cx.ival u t l a)))

/-- MOVI writes the immediate, sign-extended under U (R91). -/
def execMovi (h : Hdr) (u : Bool) (imm : BitVec 32) (d : BitVec 8) (s : State) : Host.Outcome State Fault Refusal :=
  issue (.movi h u imm d) s (fun cx => cx.intEff u 1 d 0 (fun _ => if u then (imm.signExtend 64).toNat else imm.toNat))

/-- IADD: a + b (R92). -/
def execIadd (h : Hdr) (u : Bool) (t : IType) (d a b : BitVec 8) (s : State) : Host.Outcome State Fault Refusal :=
  issue (.iadd h u t d a b) s (fun cx => cx.int2 u t d a b (fun x y => x + y))

/-- IADD with an immediate (R91, R92). -/
def execIaddImm (h : Hdr) (u : Bool) (imm : BitVec 32) (d a : BitVec 8) (s : State) : Host.Outcome State Fault Refusal :=
  issue (.iaddImm h u imm d a) s (fun cx => cx.intImm u d a imm (fun x y => x + y))

/-- ISUB: a − b (R92). -/
def execIsub (h : Hdr) (u : Bool) (t : IType) (d a b : BitVec 8) (s : State) : Host.Outcome State Fault Refusal :=
  issue (.isub h u t d a b) s (fun cx => cx.int2 u t d a b (fun x y => x - y))

/-- ISUB with an immediate (R91, R92). -/
def execIsubImm (h : Hdr) (u : Bool) (imm : BitVec 32) (d a : BitVec 8) (s : State) : Host.Outcome State Fault Refusal :=
  issue (.isubImm h u imm d a) s (fun cx => cx.intImm u d a imm (fun x y => x - y))

/-- IMUL: the low n bits of a × b (R92). -/
def execImul (h : Hdr) (u : Bool) (t : IType) (d a b : BitVec 8) (s : State) : Host.Outcome State Fault Refusal :=
  issue (.imul h u t d a b) s (fun cx => cx.int2 u t d a b (fun x y => x * y))

/-- IMUL with an immediate (R91, R92). -/
def execImulImm (h : Hdr) (u : Bool) (imm : BitVec 32) (d a : BitVec 8) (s : State) : Host.Outcome State Fault Refusal :=
  issue (.imulImm h u imm d a) s (fun cx => cx.intImm u d a imm (fun x y => x * y))

/-- IMULH: ⌊a × b ÷ 2^n⌋ (R92). -/
def execImulh (h : Hdr) (u : Bool) (t : IType) (d a b : BitVec 8) (s : State) : Host.Outcome State Fault Refusal :=
  issue (.imulh h u t d a b) s (fun cx => cx.int2 u t d a b (fun x y => x * y / ((2 ^ t.width : Nat) : Int)))

/-- IMAD: a × b + c (R92). -/
def execImad (h : Hdr) (u : Bool) (t : IType) (d a b c : BitVec 8) (s : State) : Host.Outcome State Fault Refusal :=
  issue (.imad h u t d a b c) s (fun cx => cx.intEff u t.words d
    (cx.labI u a t.words ||| cx.labI u b t.words ||| cx.labI u c t.words)
    (fun l => intWrite t u (cx.ival u t l a * cx.ival u t l b + cx.ival u t l c)))

/-- IDIV: the quotient of R57. -/
def execIdiv (h : Hdr) (u : Bool) (t : IType) (d a b : BitVec 8) (s : State) : Host.Outcome State Fault Refusal :=
  issue (.idiv h u t d a b) s (fun cx => cx.int2 u t d a b (divInt t.width t.signed))

/-- IREM: the remainder of R57. -/
def execIrem (h : Hdr) (u : Bool) (t : IType) (d a b : BitVec 8) (s : State) : Host.Outcome State Fault Refusal :=
  issue (.irem h u t d a b) s (fun cx => cx.int2 u t d a b (remInt))

/-- IMIN: the smaller (R92). -/
def execImin (h : Hdr) (u : Bool) (t : IType) (d a b : BitVec 8) (s : State) : Host.Outcome State Fault Refusal :=
  issue (.imin h u t d a b) s (fun cx => cx.int2 u t d a b (min))

/-- IMIN with an immediate (R91, R92). -/
def execIminImm (h : Hdr) (u : Bool) (imm : BitVec 32) (d a : BitVec 8) (s : State) : Host.Outcome State Fault Refusal :=
  issue (.iminImm h u imm d a) s (fun cx => cx.intImm u d a imm (min))

/-- IMAX: the larger (R92). -/
def execImax (h : Hdr) (u : Bool) (t : IType) (d a b : BitVec 8) (s : State) : Host.Outcome State Fault Refusal :=
  issue (.imax h u t d a b) s (fun cx => cx.int2 u t d a b (max))

/-- IMAX with an immediate (R91, R92). -/
def execImaxImm (h : Hdr) (u : Bool) (imm : BitVec 32) (d a : BitVec 8) (s : State) : Host.Outcome State Fault Refusal :=
  issue (.imaxImm h u imm d a) s (fun cx => cx.intImm u d a imm (max))

/-- IABS: |a|, the most negative value giving itself (R92). -/
def execIabs (h : Hdr) (u : Bool) (t : IType) (d a : BitVec 8) (s : State) : Host.Outcome State Fault Refusal :=
  issue (.iabs h u t d a) s (fun cx => cx.intEff u t.words d (cx.labI u a t.words)
    (fun l => intWrite t u (cx.ival u t l a).natAbs))

/-- SADD: a + b, saturated (R56, R92). -/
def execSadd (h : Hdr) (u : Bool) (t : IType) (d a b : BitVec 8) (s : State) : Host.Outcome State Fault Refusal :=
  issue (.sadd h u t d a b) s (fun cx => cx.int2 u t d a b (fun x y => clampTo t.width t.signed (x + y)))

/-- SADD with an immediate (R56, R91). -/
def execSaddImm (h : Hdr) (u : Bool) (imm : BitVec 32) (d a : BitVec 8) (s : State) : Host.Outcome State Fault Refusal :=
  issue (.saddImm h u imm d a) s (fun cx => cx.intImm u d a imm (fun x y => clampTo 32 true (x + y)))

/-- SSUB: a − b, saturated (R56, R92). -/
def execSsub (h : Hdr) (u : Bool) (t : IType) (d a b : BitVec 8) (s : State) : Host.Outcome State Fault Refusal :=
  issue (.ssub h u t d a b) s (fun cx => cx.int2 u t d a b (fun x y => clampTo t.width t.signed (x - y)))

/-- AND of two registers, bit by bit (R92). -/
def execAnd (h : Hdr) (u : Bool) (t : IType) (d a b : BitVec 8) (s : State) : Host.Outcome State Fault Refusal :=
  issue (.and h u t d a b) s (fun cx => cx.intEff u t.words d (cx.labI u a t.words ||| cx.labI u b t.words)
    (fun l => intWrite t u ((cx.iraw u t.words l a &&& cx.iraw u t.words l b : Nat) : Int)))

/-- AND with an immediate (R91, R92). -/
def execAndImm (h : Hdr) (u : Bool) (imm : BitVec 32) (d a : BitVec 8) (s : State) : Host.Outcome State Fault Refusal :=
  issue (.andImm h u imm d a) s (fun cx => cx.intEff u 1 d (cx.labI u a 1)
    (fun l => intWrite .i32 u ((cx.raw32 u l a &&& imm.toNat : Nat) : Int)))

/-- OR of two registers, bit by bit (R92). -/
def execOr (h : Hdr) (u : Bool) (t : IType) (d a b : BitVec 8) (s : State) : Host.Outcome State Fault Refusal :=
  issue (.or h u t d a b) s (fun cx => cx.intEff u t.words d (cx.labI u a t.words ||| cx.labI u b t.words)
    (fun l => intWrite t u ((cx.iraw u t.words l a ||| cx.iraw u t.words l b : Nat) : Int)))

/-- OR with an immediate (R91, R92). -/
def execOrImm (h : Hdr) (u : Bool) (imm : BitVec 32) (d a : BitVec 8) (s : State) : Host.Outcome State Fault Refusal :=
  issue (.orImm h u imm d a) s (fun cx => cx.intEff u 1 d (cx.labI u a 1)
    (fun l => intWrite .i32 u ((cx.raw32 u l a ||| imm.toNat : Nat) : Int)))

/-- XOR of two registers, bit by bit (R92). -/
def execXor (h : Hdr) (u : Bool) (t : IType) (d a b : BitVec 8) (s : State) : Host.Outcome State Fault Refusal :=
  issue (.xor h u t d a b) s (fun cx => cx.intEff u t.words d (cx.labI u a t.words ||| cx.labI u b t.words)
    (fun l => intWrite t u ((cx.iraw u t.words l a ^^^ cx.iraw u t.words l b : Nat) : Int)))

/-- XOR with an immediate (R91, R92). -/
def execXorImm (h : Hdr) (u : Bool) (imm : BitVec 32) (d a : BitVec 8) (s : State) : Host.Outcome State Fault Refusal :=
  issue (.xorImm h u imm d a) s (fun cx => cx.intEff u 1 d (cx.labI u a 1)
    (fun l => intWrite .i32 u ((cx.raw32 u l a ^^^ imm.toNat : Nat) : Int)))

/-- TTAB: the truth-table function of three operands (R95). -/
def execTtab (h : Hdr) (u : Bool) (t : IType) (tt : BitVec 8) (d a b c : BitVec 8) (s : State) : Host.Outcome State Fault Refusal :=
  issue (.ttab h u t tt d a b c) s (fun cx => cx.intEff u t.words d
    (cx.labI u a t.words ||| cx.labI u b t.words ||| cx.labI u c t.words)
    (fun l => intWrite t u
      ((tableOf t.width tt (cx.iraw u t.words l a) (cx.iraw u t.words l b) (cx.iraw u t.words l c) : Nat) : Int)))

/-- SHL by a register amount (R94). -/
def execShl (h : Hdr) (u : Bool) (d a b : BitVec 8) (s : State) : Host.Outcome State Fault Refusal :=
  issue (.shl h u d a b) s (fun cx => cx.shift u d a b shl32)

/-- SHL by an immediate amount (R91, R94). -/
def execShlImm (h : Hdr) (u : Bool) (imm : BitVec 32) (d a : BitVec 8) (s : State) : Host.Outcome State Fault Refusal :=
  issue (.shlImm h u imm d a) s (fun cx => cx.shiftImm u d a imm shl32)

/-- SHR by a register amount (R94). -/
def execShr (h : Hdr) (u : Bool) (d a b : BitVec 8) (s : State) : Host.Outcome State Fault Refusal :=
  issue (.shr h u d a b) s (fun cx => cx.shift u d a b shr32)

/-- SHR by an immediate amount (R91, R94). -/
def execShrImm (h : Hdr) (u : Bool) (imm : BitVec 32) (d a : BitVec 8) (s : State) : Host.Outcome State Fault Refusal :=
  issue (.shrImm h u imm d a) s (fun cx => cx.shiftImm u d a imm shr32)

/-- SAR by a register amount (R94). -/
def execSar (h : Hdr) (u : Bool) (d a b : BitVec 8) (s : State) : Host.Outcome State Fault Refusal :=
  issue (.sar h u d a b) s (fun cx => cx.shift u d a b sar32)

/-- SAR by an immediate amount (R91, R94). -/
def execSarImm (h : Hdr) (u : Bool) (imm : BitVec 32) (d a : BitVec 8) (s : State) : Host.Outcome State Fault Refusal :=
  issue (.sarImm h u imm d a) s (fun cx => cx.shiftImm u d a imm sar32)

/-- ROTL by a register amount (R94). -/
def execRotl (h : Hdr) (u : Bool) (d a b : BitVec 8) (s : State) : Host.Outcome State Fault Refusal :=
  issue (.rotl h u d a b) s (fun cx => cx.shift u d a b rotl32)

/-- ROTL by an immediate amount (R91, R94). -/
def execRotlImm (h : Hdr) (u : Bool) (imm : BitVec 32) (d a : BitVec 8) (s : State) : Host.Outcome State Fault Refusal :=
  issue (.rotlImm h u imm d a) s (fun cx => cx.shiftImm u d a imm rotl32)

/-- BFX extracts a bit field (R96). -/
def execBfx (h : Hdr) (u : Bool) (t : IType) (d a b : BitVec 8) (s : State) : Host.Outcome State Fault Refusal :=
  issue (.bfx h u t d a b) s (fun cx => cx.intEff u 1 d (cx.labI u a 1 ||| cx.labI u b 1)
    (fun l => intWrite t u (bfxOf t.signed (cx.raw32 u l a) (cx.raw32 u l b))))

/-- BFI inserts a bit field (R96). -/
def execBfi (h : Hdr) (u : Bool) (d a b c : BitVec 8) (s : State) : Host.Outcome State Fault Refusal :=
  issue (.bfi h u d a b c) s (fun cx => cx.intEff u 1 d (cx.labI u a 1 ||| cx.labI u b 1 ||| cx.labI u c 1)
    (fun l => bfiOf (cx.raw32 u l a) (cx.raw32 u l b) (cx.raw32 u l c)))

/-- POPC counts the 1 bits (R92). -/
def execPopc (h : Hdr) (u : Bool) (t : IType) (d a : BitVec 8) (s : State) : Host.Outcome State Fault Refusal :=
  issue (.popc h u t d a) s (fun cx => cx.count u t d a popcOf)

/-- CLZ counts the leading zeros (R92). -/
def execClz (h : Hdr) (u : Bool) (t : IType) (d a : BitVec 8) (s : State) : Host.Outcome State Fault Refusal :=
  issue (.clz h u t d a) s (fun cx => cx.count u t d a clzOf)

/-- BREV reverses the bits (R92). -/
def execBrev (h : Hdr) (u : Bool) (t : IType) (d a : BitVec 8) (s : State) : Host.Outcome State Fault Refusal :=
  issue (.brev h u t d a) s (fun cx => cx.intEff u t.words d (cx.labI u a t.words)
    (fun l => intWrite t u ((brevOf t.width (cx.iraw u t.words l a) : Nat) : Int)))

/-- BPERM chooses result bytes (R95). -/
def execBperm (h : Hdr) (u : Bool) (d a b c : BitVec 8) (s : State) : Host.Outcome State Fault Refusal :=
  issue (.bperm h u d a b c) s (fun cx => cx.intEff u 1 d (cx.labI u a 1 ||| cx.labI u b 1 ||| cx.labI u c 1)
    (fun l => bpermOf (cx.raw32 u l a) (cx.raw32 u l b) (cx.raw32 u l c)))

/-- ADD64: (a + b) mod 2^64 (R97). -/
def execAdd64 (h : Hdr) (u : Bool) (d a b : BitVec 8) (s : State) : Host.Outcome State Fault Refusal :=
  issue (.add64 h u d a b) s (fun cx => cx.intEff u 2 d (cx.labI u a 2 ||| cx.labI u b 2)
    (fun l => (cx.iraw u 2 l a + cx.iraw u 2 l b) % 2 ^ 64))

/-- ADD64 with a sign-extended immediate (R97). -/
def execAdd64Imm (h : Hdr) (u : Bool) (imm : BitVec 32) (d a : BitVec 8) (s : State) : Host.Outcome State Fault Refusal :=
  issue (.add64Imm h u imm d a) s (fun cx => cx.intEff u 2 d (cx.labI u a 2)
    (fun l => (cx.iraw u 2 l a + (imm.signExtend 64).toNat) % 2 ^ 64))

/-- MAD64: (a × b + c) mod 2^64 (R97). -/
def execMad64 (h : Hdr) (u : Bool) (t : IType) (d a b c : BitVec 8) (s : State) : Host.Outcome State Fault Refusal :=
  issue (.mad64 h u t d a b c) s (fun cx => cx.intEff u 2 d (cx.labI u a 1 ||| cx.labI u b 1 ||| cx.labI u c 2)
    (fun l => wrap 64 (intVal 32 t.signed (cx.raw32 u l a) * intVal 32 t.signed (cx.raw32 u l b) + (cx.iraw u 2 l c : Nat))))

/-- SHL64 of a pair (R97). -/
def execShl64 (h : Hdr) (u : Bool) (d a b : BitVec 8) (s : State) : Host.Outcome State Fault Refusal :=
  issue (.shl64 h u d a b) s (fun cx => cx.intEff u 2 d (cx.labI u a 2 ||| cx.labI u b 1)
    (fun l => if cx.raw32 u l b < 64 then cx.iraw u 2 l a * 2 ^ cx.raw32 u l b % 2 ^ 64 else 0))

/-- SHR64 of a pair, logical or sign-filling (R97). -/
def execShr64 (h : Hdr) (u sx : Bool) (d a b : BitVec 8) (s : State) : Host.Outcome State Fault Refusal :=
  issue (.shr64 h u sx d a b) s (fun cx => cx.intEff u 2 d (cx.labI u a 2 ||| cx.labI u b 1)
    (fun l => wrap 64 (intVal 64 sx (cx.iraw u 2 l a) / ((2 ^ min (cx.raw32 u l b) 64 : Nat) : Int))))

end Sys2Proof.Machine
end

