-- ==== Sys2Proof/Machine/Crosslane.lean ====
section
/-! DEFINITION. Instructions that move values across lanes (R77, R170-R177). -/

namespace Sys2Proof.Machine

/-! ## Folds (R77, R173, R174) -/

/-- One step of an integer fold on raw values. -/
def intStep (op : IFold) (t : IType) (a b : Nat) : Nat :=
  let n := t.width
  let va := intVal n t.signed a
  let vb := intVal n t.signed b
  match op with
  | .add => wrap n (va + vb)
  | .min => wrap n (min va vb)
  | .max => wrap n (max va vb)
  | .and => a &&& b
  | .or => a ||| b
  | .xor => a ^^^ b

/-- One step of a fold. -/
def Cx.foldStep (c : Cx) (op : FoldOp) (lane a b : Nat) : Nat × Flags :=
  match op with
  | .int o t => (intStep o t a b, 0)
  | .flt .fadd t rm => c.fpOp t rm ⟨false, 0⟩ lane [a, b] addOp
  | .flt .fmin t _ => c.fpExact t [a, b] (minMax2 false)
  | .flt .fmax t _ => c.fpExact t [a, b] (minMax2 true)

/-- The value a fold starts from: the lowest lane's, flushed. A NaN there keeps its bits in the first prefix of a SCAN: R77's
pseudocode says so and R60 is read as speaking of the NaNs that a step produces (log 76). -/
def Cx.foldFirst (c : Cx) (op : FoldOp) (x : Nat) : Nat :=
  match op with
  | .int _ _ => x
  | .flt _ t _ => ftzCode c.ftz t.fmt x

/-- The result of lane 0 of an exclusive SCAN (R173). -/
def foldIdentity : FoldOp → Nat
  | .int .add _ | .int .or _ | .int .xor _ => 0
  | .int .min t => wrap t.width (maxOf t.width t.signed)
  | .int .max t => wrap t.width (minOf t.width t.signed)
  | .int .and t => 2 ^ t.width - 1
  | .flt .fadd t _ => 2 ^ (t.fmt.width - 1)
  | .flt .fmin t _ => t.fmt.infCode.getD 0
  | .flt .fmax t _ => t.fmt.signed true (t.fmt.infCode.getD 0)

/-- The prefixes of the 32 lanes with the flags of the steps that formed each. -/
def Cx.prefixes (c : Cx) (op : FoldOp) (a : BitVec 8) : List (Nat × Flags) :=
  ((List.range 32).foldl (fun (acc : List (Nat × Flags)) l =>
    let v := c.vn l a.toNat (foldWords op)
    match acc with
    | [] => [(c.foldFirst op v, 0)]
    | p :: _ =>
      let r := c.foldStep op l p.1 v
      (r.1, p.2 ||| r.2) :: acc) []).reverse

/-- The result of a lane: of all 32 lanes for REDUX, of the lanes to or before it for SCAN. -/
def foldPick (ps : List (Nat × Flags)) (identity : Nat) (scan excl : Bool) (lane : Nat) : Nat × Flags :=
  if !scan then ps.getD 31 (0, 0)
  else if !excl then ps.getD lane (0, 0)
  else if lane = 0 then (identity, 0)
  else ps.getD (lane - 1) (0, 0)

/-- REDUX and SCAN. -/
def Cx.foldEff (c : Cx) (op : FoldOp) (d a : BitVec 8) (scan excl : Bool) : Eff :=
  let ps := c.prefixes op a
  c.fpEff d (foldWords op) (c.labV a (foldWords op)) (foldPick ps (foldIdentity op) scan excl)

/-! ## Meanings -/

/-- The source lane of an exchange (R171). -/
def exchangeFrom (mode : XMode) (s b l : Nat) : Nat :=
  let base := l - l % s
  match mode with
  | .pick => base + b % s
  | .rise => if base + b ≤ l then l - b else l
  | .fall => if l + b < base + s then l + b else l
  | .flip => base + ((l - base) ^^^ (b % s))
  | .roll => base + (l - base + b) % s

/-- LXCH exchanges values between the lanes of a segment (R171). -/
def execLxch (h : Hdr) (mode : XMode) (t : IType) (seg : BitVec 8) (d a b : BitVec 8) (s : State) :
    Host.Outcome State Fault Refusal :=
  issue (.lxch h mode t seg d a b) s (fun cx =>
    { s := cx.s
      wr := vWrites d t.words (cx.lanesA.map (fun l =>
        (l, cx.vn (exchangeFrom mode seg.toNat (cx.v l b.toNat).toNat l) a.toNat t.words)))
        (cx.labV a t.words ||| cx.labV b 1) })

/-- POLL combines a predicate across the 32 lanes (R172). -/
def execPoll (h : Hdr) (f : PollForm) (d : BitVec 8) (a : BitVec 3) (s : State) : Host.Outcome State Fault Refusal :=
  issue (.poll h f d a) s (fun cx =>
    let on := (List.range 32).filter (fun l => cx.p l a.toNat)
    let lab := cx.labP a.toNat
    let pred (b : Bool) : Eff := { s := cx.s, wr := [pWrite d.toNat (cx.lanesA.map (fun l => (l, b))) lab] }
    let word (x : Nat) : Eff := { s := cx.s, wr := vWrites d 1 (cx.lanesA.map (fun l => (l, x))) lab }
    match f with
    | .every => pred (on.length == 32)
    | .any => pred (!on.isEmpty)
    | .same => pred (on.isEmpty || on.length == 32)
    | .mask => word (lanesOf on).toNat
    | .count => word on.length)

/-- REDUX delivers the fold of the 32 lanes to every lane (R174). -/
def execRedux (h : Hdr) (op : FoldOp) (d a : BitVec 8) (s : State) : Host.Outcome State Fault Refusal :=
  issue (.redux h op d a) s (fun cx => cx.foldEff op d a false false)

/-- SCAN delivers the prefixes of the fold (R174). -/
def execScan (h : Hdr) (excl : Bool) (op : FoldOp) (d a : BitVec 8) (s : State) : Host.Outcome State Fault Refusal :=
  issue (.scan h excl op d a) s (fun cx => cx.foldEff op d a true excl)

/-- ELECT picks the lowest active lane (R175). -/
def execElect (h : Hdr) (d : BitVec 3) (s : State) : Host.Outcome State Fault Refusal :=
  issue (.elect h d) s (fun cx =>
    { s := cx.s
      wr := [pWrite d.toNat (cx.lanesA.map (fun l => (l, l == cx.lanesA.headD 32))) 0] })

/-- KIN groups the lanes by equal value (R176). -/
def execKin (h : Hdr) (f : KinForm) (t : IType) (d a : BitVec 8) (s : State) : Host.Outcome State Fault Refusal :=
  issue (.kin h f t d a) s (fun cx =>
    let v (l : Nat) : Nat := cx.vn l a.toNat t.words
    let kin (l : Nat) : List Nat := (List.range 32).filter (fun j => v j == v l)
    let lab := cx.labV a t.words
    match f with
    | .mask => { s := cx.s, wr := vWrites d 1 (cx.lanesA.map (fun l => (l, (lanesOf (kin l)).toNat))) lab }
    | .whole => { s := cx.s, wr := [pWrite d.toNat (cx.lanesA.map (fun l => (l, (kin 0).length == 32))) lab] }
    | .lead => { s := cx.s, wr := vWrites d 1 (cx.lanesA.map (fun l => (l, (kin l).headD l))) lab })

/-- UMOV moves values between a lane's V registers and W registers (R177). -/
def execUmov (h : Hdr) (f : UmovForm) (n : BitVec 8) (d a : BitVec 8) (s : State) : Host.Outcome State Fault Refusal :=
  issue (.umov h f n d a) s (fun cx =>
    match f with
    | .toW => { s := cx.s, wr := [wWrite d ((cx.v n.toNat a.toNat).setWidth 64) (cx.labV a 1)] }
    | .toW64 => { s := cx.s, wr := [wWrite d (cx.v2 n.toNat a.toNat) (cx.labV a 2)] }
    | .toV => { s := cx.s, wr := vWrites d 1 (cx.lanesA.map (fun l => (l, field (cx.w a.toNat) 31 0))) (cx.labW a.toNat) }
    | .toV64 => { s := cx.s, wr := vWrites d 2 (cx.lanesA.map (fun l => (l, (cx.w a.toNat).toNat))) (cx.labW a.toNat) })

end Sys2Proof.Machine
end

