-- ==== Sys2Proof/Machine/Power.lean ====
section
/-! DEFINITION. Errors in arrays, scrubbing, retention sleep, the cast-on sequence, power and the management controller (R230,
R231, R233, R357, R358, R435-R437). -/

namespace Sys2Proof.Machine

/-! ## Uncorrectable errors (R357, R358) -/

/-- The end of a context by an SRAM error in an array: 1 pool, 2 L1, 3 L2, 4 operand memory, 5 accumulator (R359). -/
def State.sramError (s : State) (ctx array : Nat) : State := s.endContext ctx { reason := 2, detail10 := array }

/-- The context that holds an owner handle. -/
def State.holderOf (s : State) (handle : Nat) : Option Nat :=
  (List.find? (fun (c : Nat × Context) => c.2.handle == some handle) s.contexts).map (·.1)

/-- Poisons a line (R230, R414). -/
def State.poisonLine (s : State) (line : Nat) : State :=
  { s with poison := if s.poison.contains line then s.poison else s.poison ++ [line] }

/-- Ends the context that holds an owner handle. -/
def State.ownerEnds (s : State) (handle array : Nat) : State :=
  match s.holderOf handle with
  | some k => s.sramError k array
  | none => s

/-- Ends the context of a team that is placed on a core. -/
def State.teamEnds (s : State) (core k array : Nat) : State :=
  if (Cells.find? s.teams k).isSome && (s.team k).core == core then s.sramError (s.team k).ctx array else s

/-- An error in a line that an L1 holds: a clean one goes, to be fetched again; the bytes of a lane-local one that are not
written back are lost, and its owner's context ends with them, or without an owner they read as zero. -/
def State.l1Error (s : State) (core line : Nat) : State :=
  match Cells.find? (s.core core).l1 line with
  | none => s
  | some x =>
    if x.dirty ≠ 0 ∧ x.owner = 0 then
      s.onCore core (fun c => { c with l1 := Cells.put c.l1 line { x with data := [] } })
    else
      let s := s.onCore core (fun c => { c with l1 := Cells.erase c.l1 line })
      if x.dirty = 0 then s else s.ownerEnds x.owner 2

/-- The bytes of a line at its home are lost: those of a host line go, those of a device line read as zero. -/
def State.loseLine (s : State) (line : Nat) : State :=
  let s := s.dropCopies line
  if line < 2 ^ 46 then { s with mem := Cells.clear s.mem (128 * line) 128 }
  else
    let h := 2 * (line - 2 ^ 46)
    { s with
      hostHalves := Cells.erase (Cells.erase s.hostHalves h) (h + 1)
      hostBy := Cells.erase (Cells.erase s.hostBy h) (h + 1)
      hostData := Cells.clear s.hostData (64 * h) 128 }

/-- An error in a line that an L2 slice holds: a clean one goes, a host line's halves with it; a dirty one is lost, and goes to
its memory poisoned and ends its owner's context, or without an owner is zeroed. -/
def State.l2Error (s : State) (line : Nat) : State :=
  match (Cells.get (s.die (lineDie line)).l2 (lineSet line)).find? (fun x => x.line == line) with
  | none => s
  | some x =>
    let s := s.l2Drop (fun y => y == line)
    if !x.dirty then
      (if line < 2 ^ 46 then s
       else (s.hostDrop (2 * (line - 2 ^ 46))).hostDrop (2 * (line - 2 ^ 46) + 1))
    else if x.owner = 0 then s.loseLine line
    else ((s.loseLine line).poisonLine line).ownerEnds x.owner 3

/-- An uncorrectable error in a line, by its array (R357). The pool and the accumulators: the context of the team `item` ends.
Operand memory: the context of the holder of slot `item` ends, and a free slot is zeroed. DRAM, and data from the host: the line
is poisoned, unless a dirty copy in L2 is to replace it whole. -/
def State.lineError (s : State) (l : ArrayLine) : State :=
  match l.kind with
  | .pool => s.teamEnds l.owner l.item 1
  | .accum => s.teamEnds l.owner l.item 5
  | .l1 => s.l1Error l.owner l.line
  | .l2 => s.l2Error l.line
  | .opmem =>
    (match (Cells.get (s.core l.owner).slots l.item).holder with
     | some k => s.sramError (s.team k).ctx 4
     | none => s.onCore l.owner (fun c => { c with slots := Cells.erase c.slots l.item }))
  | .dram =>
    if (Cells.get (s.die (lineDie l.line)).l2 (lineSet l.line)).any (fun x => x.line == l.line && x.dirty) then s
    else s.poisonLine l.line
  | .host => s.poisonLine l.line

/-- UNCORRECTABLE_ERROR: found by an access or by the scrubber. -/
def execUncorrectableError (l : ArrayLine) (s : State) : Host.Outcome State Fault Refusal := .next (s.lineError l)

/-- SCRUB_VISIT: a line is read and corrected in place; its value, label and tag stay. The reads of L2 and DRAM lines are
charged to the scrubber (R231, R421). -/
def execScrubVisit (l : ArrayLine) (s : State) : Host.Outcome State Fault Refusal :=
  let pay (k inst : Nat) : State := if s.mayCharge 32 k inst then s.charge 32 k inst 2 else s.waitCharge 32
  match l.kind with
  | .l2 => .next (pay 1 (homeDie (128 * l.line) * 96 + homeSlice (128 * l.line)))
  | .dram => .next (pay 0 (homeDie (128 * l.line)))
  | .pool | .l1 | .opmem | .accum | .host => .next s

/-! ## Retention sleep (R233) -/

/-- RETENTION_SLEEP_ENTER: a core without a resident warp sleeps; updates already on their way to it arrive first. -/
def execRetentionSleepEnter (core : Nat) (s : State) : Host.Outcome State Fault Refusal :=
  if s.teams.any (fun t => t.2.core == core) || (s.core core).sleep.isSome then .next s
  else
    let s1 := s.updates.foldl (fun (s : State) u => if u.core = core then s.l1Write core u.pa u.bytes u.lab else s) s
    let s1 := { s1 with updates := s1.updates.filter (fun u => u.core != core) }
    .next (s1.onCore core (fun c => { c with
      sleep := some { gen0 := (s.die (dieOf core)).gen, count := 0, lines := [], overflow := false } }))

/-- RETENTION_WAKE: the core wakes with an L1 that holds current values only. -/
def execRetentionWake (core : Nat) (s : State) : Host.Outcome State Fault Refusal := .next (s.wakeCore core)

/-! ## The cast-on sequence (R435, R436) -/

end Sys2Proof.Machine

namespace Sys2Proof

/-- Is every value of an image in its range (R160, R313, R386, R436)? -/
def Image.inRange (i : Image) : Bool :=
  decide (2 ≤ i.nModules) && decide (i.nModules ≤ 16) && decide (i.moduleId < i.nModules) &&
  decide (1 ≤ i.vfs) && decide (i.vfs ≤ 32) && decide (8 ≤ i.govLimit8) && decide (i.govLimit8 ≤ 32) &&
  decide (256 ≤ i.govIdle) && decide (i.govIdle ≤ 2048) && decide (64 ≤ i.govRamp) && decide (i.govRamp ≤ 256) &&
  decide (256 ≤ i.binTimer) && decide (i.binTimer ≤ 65536) && decide (i.scrubMin < 2 ^ 32) &&
  i.grants.all (fun g => decide (g < 2 ^ 32)) && i.bindings.all (fun b => decide (b.1 < 16) && decide (b.2.length = 32))

/-- The stage at which a cast-on sequence stops, 5 when it ends well. -/
def CastOn.stage (c : CastOn) : Nat :=
  if !c.islandsOk then 1
  else if !c.stacksOk then 2
  else if !c.imageOk || !c.image.inRange then 3
  else if !c.cxlOk then 4
  else 5

end Sys2Proof

namespace Sys2Proof.Machine

/-- CAST_ON: the module comes up with every frame zero, or stays at the stage that fails with its command ports closed. A Surel
link whose far end announces another module or port stays down (R386). What is outside the module, and the model's own counters,
stay. -/
def execCastOn (c : CastOn) (s : State) : Host.Outcome State Fault Refusal :=
  let stage := c.stage
  let img := if stage < 4 then s.power.image else c.image
  let cells : Cells Origin := img.bindings.foldl (fun (m : Cells Origin) b => Cells.put m b.1 { st := .bound, key := b.2 }) []
  let links := (List.range 15).map (fun p => (p, c.links.getD p none == some ((img.moduleId + p + 1) % 16, 14 - p)))
  let t := State.castOn img links (if stage < 4 then [] else cells)
  .next { t with
    agenda := s.agenda, free := s.free, nextId := s.nextId, hostMem := s.hostMem, out := s.out
    power := { t.power with stage := stage, cause := if stage = 5 then 0 else stage, portsOpen := stage == 5 } }

/-! ## Power and management (R437) -/

/-- POWER_OUT_OF_RANGE: outside 48 to 54 V the islands are held unpowered. -/
def execPowerOutOfRange (millivolts : Nat) (s : State) : Host.Outcome State Fault Refusal :=
  if 48000 ≤ millivolts ∧ millivolts ≤ 54000 then .next s
  else .next { s with power := { s.power with on := false, portsOpen := false } }

/-- MANAGEMENT_REQUEST: frequencies and grants only fall, the governor only tightens (R313, R423). -/
def execManagementRequest (r : MgmtReq) (s : State) : Host.Outcome State Fault Refusal :=
  match r with
  | .lowerFrequency island mhz =>
    let old := Cells.find? s.power.frequency island
    let notLower : Bool := match old with | some f => decide (f ≤ mhz) | none => false
    if decide (512 ≤ island) || notLower then .next s
    else .next { s with power := { s.power with frequency := Cells.put s.power.frequency island mhz } }
  | .tightenGovernor l i r =>
    if 8 ≤ l ∧ l ≤ s.power.limit8 ∧ 256 ≤ i ∧ i ≤ s.power.idle ∧ s.power.ramp ≤ r ∧ r ≤ 256 then
      .next { s with power := { s.power with limit8 := l, idle := i, ramp := r } }
    else .next s
  | .lowerGrant a k g =>
    if 38 ≤ a ∨ 5 ≤ k ∨ s.grantNext a k ≤ g then .next s else .next (s.setGrant a k g)

end Sys2Proof.Machine
end

