-- ==== Sys2Proof/Machine/Dispatch.lean ====
section
/-! DEFINITION. One arm for each instruction and event: the meaning of each. -/

namespace Sys2Proof.Machine

open Sys2Proof

def exec (i : Instr) (s : State) : Host.Outcome State Fault Refusal :=
  match i with
  | .nop h => Sys2Proof.Machine.execNop h s
  | .mov h u t d a => Sys2Proof.Machine.execMov h u t d a s
  | .movi h u imm d => Sys2Proof.Machine.execMovi h u imm d s
  | .iadd h u t d a b => Sys2Proof.Machine.execIadd h u t d a b s
  | .iaddImm h u imm d a => Sys2Proof.Machine.execIaddImm h u imm d a s
  | .isub h u t d a b => Sys2Proof.Machine.execIsub h u t d a b s
  | .isubImm h u imm d a => Sys2Proof.Machine.execIsubImm h u imm d a s
  | .imul h u t d a b => Sys2Proof.Machine.execImul h u t d a b s
  | .imulImm h u imm d a => Sys2Proof.Machine.execImulImm h u imm d a s
  | .imulh h u t d a b => Sys2Proof.Machine.execImulh h u t d a b s
  | .imad h u t d a b c => Sys2Proof.Machine.execImad h u t d a b c s
  | .idiv h u t d a b => Sys2Proof.Machine.execIdiv h u t d a b s
  | .irem h u t d a b => Sys2Proof.Machine.execIrem h u t d a b s
  | .imin h u t d a b => Sys2Proof.Machine.execImin h u t d a b s
  | .iminImm h u imm d a => Sys2Proof.Machine.execIminImm h u imm d a s
  | .imax h u t d a b => Sys2Proof.Machine.execImax h u t d a b s
  | .imaxImm h u imm d a => Sys2Proof.Machine.execImaxImm h u imm d a s
  | .iabs h u t d a => Sys2Proof.Machine.execIabs h u t d a s
  | .sadd h u t d a b => Sys2Proof.Machine.execSadd h u t d a b s
  | .saddImm h u imm d a => Sys2Proof.Machine.execSaddImm h u imm d a s
  | .ssub h u t d a b => Sys2Proof.Machine.execSsub h u t d a b s
  | .and h u t d a b => Sys2Proof.Machine.execAnd h u t d a b s
  | .andImm h u imm d a => Sys2Proof.Machine.execAndImm h u imm d a s
  | .or h u t d a b => Sys2Proof.Machine.execOr h u t d a b s
  | .orImm h u imm d a => Sys2Proof.Machine.execOrImm h u imm d a s
  | .xor h u t d a b => Sys2Proof.Machine.execXor h u t d a b s
  | .xorImm h u imm d a => Sys2Proof.Machine.execXorImm h u imm d a s
  | .ttab h u t tt d a b c => Sys2Proof.Machine.execTtab h u t tt d a b c s
  | .shl h u d a b => Sys2Proof.Machine.execShl h u d a b s
  | .shlImm h u imm d a => Sys2Proof.Machine.execShlImm h u imm d a s
  | .shr h u d a b => Sys2Proof.Machine.execShr h u d a b s
  | .shrImm h u imm d a => Sys2Proof.Machine.execShrImm h u imm d a s
  | .sar h u d a b => Sys2Proof.Machine.execSar h u d a b s
  | .sarImm h u imm d a => Sys2Proof.Machine.execSarImm h u imm d a s
  | .rotl h u d a b => Sys2Proof.Machine.execRotl h u d a b s
  | .rotlImm h u imm d a => Sys2Proof.Machine.execRotlImm h u imm d a s
  | .bfx h u t d a b => Sys2Proof.Machine.execBfx h u t d a b s
  | .bfi h u d a b c => Sys2Proof.Machine.execBfi h u d a b c s
  | .popc h u t d a => Sys2Proof.Machine.execPopc h u t d a s
  | .clz h u t d a => Sys2Proof.Machine.execClz h u t d a s
  | .brev h u t d a => Sys2Proof.Machine.execBrev h u t d a s
  | .bperm h u d a b c => Sys2Proof.Machine.execBperm h u d a b c s
  | .add64 h u d a b => Sys2Proof.Machine.execAdd64 h u d a b s
  | .add64Imm h u imm d a => Sys2Proof.Machine.execAdd64Imm h u imm d a s
  | .mad64 h u t d a b c => Sys2Proof.Machine.execMad64 h u t d a b c s
  | .shl64 h u d a b => Sys2Proof.Machine.execShl64 h u d a b s
  | .shr64 h u sx d a b => Sys2Proof.Machine.execShr64 h u sx d a b s
  | .fadd h t rm r d a b => Sys2Proof.Machine.execFadd h t rm r d a b s
  | .faddImm h imm d a => Sys2Proof.Machine.execFaddImm h imm d a s
  | .fsub h t rm r d a b => Sys2Proof.Machine.execFsub h t rm r d a b s
  | .fsubImm h imm d a => Sys2Proof.Machine.execFsubImm h imm d a s
  | .fmul h t rm r d a b => Sys2Proof.Machine.execFmul h t rm r d a b s
  | .fmulImm h imm d a => Sys2Proof.Machine.execFmulImm h imm d a s
  | .fma h t rm r d a b c => Sys2Proof.Machine.execFma h t rm r d a b c s
  | .fmin h t d a b => Sys2Proof.Machine.execFmin h t d a b s
  | .fminImm h imm d a => Sys2Proof.Machine.execFminImm h imm d a s
  | .fmax h t d a b => Sys2Proof.Machine.execFmax h t d a b s
  | .fmaxImm h imm d a => Sys2Proof.Machine.execFmaxImm h imm d a s
  | .fabs h t d a => Sys2Proof.Machine.execFabs h t d a s
  | .fneg h t d a => Sys2Proof.Machine.execFneg h t d a s
  | .frcp h t rm r d a => Sys2Proof.Machine.execFrcp h t rm r d a s
  | .fsqrt h t rm r d a => Sys2Proof.Machine.execFsqrt h t rm r d a s
  | .frsq h t rm r d a => Sys2Proof.Machine.execFrsq h t rm r d a s
  | .fexp2 h t rm r d a => Sys2Proof.Machine.execFexp2 h t rm r d a s
  | .flog2 h t rm r d a => Sys2Proof.Machine.execFlog2 h t rm r d a s
  | .fsin h t rm r d a => Sys2Proof.Machine.execFsin h t rm r d a s
  | .fcos h t rm r d a => Sys2Proof.Machine.execFcos h t rm r d a s
  | .fclass h t d a => Sys2Proof.Machine.execFclass h t d a s
  | .fdot2 h t rm r d a b c => Sys2Proof.Machine.execFdot2 h t rm r d a b c s
  | .fscale h t rm r d a b => Sys2Proof.Machine.execFscale h t rm r d a b s
  | .frint h t rm r d a => Sys2Proof.Machine.execFrint h t rm r d a s
  | .cvt h dt st rm r d a => Sys2Proof.Machine.execCvt h dt st rm r d a s
  | .cvtn h dt st rm r d a => Sys2Proof.Machine.execCvtn h dt st rm r d a s
  | .cvtw h dt st rm r d a => Sys2Proof.Machine.execCvtw h dt st rm r d a s
  | .scfit h t d a => Sys2Proof.Machine.execScfit h t d a s
  | .scapp h t rm r d a b => Sys2Proof.Machine.execScapp h t rm r d a b s
  | .cbdec h d a => Sys2Proof.Machine.execCbdec h d a s
  | .icmp h cmp t d a b c => Sys2Proof.Machine.execIcmp h cmp t d a b c s
  | .fcmp h cmp t d a b c => Sys2Proof.Machine.execFcmp h cmp t d a b c s
  | .sel h t d a b c => Sys2Proof.Machine.execSel h t d a b c s
  | .plog h tt d a b c => Sys2Proof.Machine.execPlog h tt d a b c s
  | .pmov h f d a => Sys2Proof.Machine.execPmov h f d a s
  | .bra h ofs => Sys2Proof.Machine.execBra h ofs s
  | .brx h a => Sys2Proof.Machine.execBrx h a s
  | .call h ofs d => Sys2Proof.Machine.execCall h ofs d s
  | .ret h a => Sys2Proof.Machine.execRet h a s
  | .jpush h ofs => Sys2Proof.Machine.execJpush h ofs s
  | .join h => Sys2Proof.Machine.execJoin h s
  | .regang h => Sys2Proof.Machine.execRegang h s
  | .loop h n a => Sys2Proof.Machine.execLoop h n a s
  | .exit h => Sys2Proof.Machine.execExit h s
  | .doze h n => Sys2Proof.Machine.execDoze h n s
  | .trap h n => Sys2Proof.Machine.execTrap h n s
  | .brk h n => Sys2Proof.Machine.execBrk h n s
  | .yield h => Sys2Proof.Machine.execYield h s
  | .ld h m d => Sys2Proof.Machine.execLd h m d s
  | .st h m b => Sys2Proof.Machine.execSt h m b s
  | .atom h m op d b => Sys2Proof.Machine.execAtom h m op d b s
  | .cas h m d b c => Sys2Proof.Machine.execCas h m d b c s
  | .red h m op b => Sys2Proof.Machine.execRed h m op b s
  | .fence h all dom scp => Sys2Proof.Machine.execFence h all dom scp s
  | .bridge h frm dst scp => Sys2Proof.Machine.execBridge h frm dst scp s
  | .stf h m b c => Sys2Proof.Machine.execStf h m b c s
  | .waitge h m d b => Sys2Proof.Machine.execWaitge h m d b s
  | .ldpf h m => Sys2Proof.Machine.execLdpf h m s
  | .cmaint h m op => Sys2Proof.Machine.execCmaint h m op s
  | .release h d a b c => Sys2Proof.Machine.execRelease h d a b c s
  | .lxch h mode t seg d a b => Sys2Proof.Machine.execLxch h mode t seg d a b s
  | .poll h f d a => Sys2Proof.Machine.execPoll h f d a s
  | .redux h op d a => Sys2Proof.Machine.execRedux h op d a s
  | .scan h excl op d a => Sys2Proof.Machine.execScan h excl op d a s
  | .elect h d => Sys2Proof.Machine.execElect h d s
  | .kin h f t d a => Sys2Proof.Machine.execKin h f t d a s
  | .umov h f n d a => Sys2Proof.Machine.execUmov h f n d a s
  | .meet h pass id count => Sys2Proof.Machine.execMeet h pass id count s
  | .cmeet h pass id count => Sys2Proof.Machine.execCmeet h pass id count s
  | .launch h wait d a => Sys2Proof.Machine.execLaunch h wait d a s
  | .evset h clr n => Sys2Proof.Machine.execEvset h clr n s
  | .evwait h n => Sys2Proof.Machine.execEvwait h n s
  | .spawn h wait a b c => Sys2Proof.Machine.execSpawn h wait a b c s
  | .binfl h a => Sys2Proof.Machine.execBinfl h a s
  | .sclaim h n => Sys2Proof.Machine.execSclaim h n s
  | .srel h n => Sys2Proof.Machine.execSrel h n s
  | .mma h z kq fa fb sa sb t => Sys2Proof.Machine.execMma h z kq fa fb sa sb t s
  | .mscac h z ws p t => Sys2Proof.Machine.execMscac h z ws p t s
  | .mxwait h all t => Sys2Proof.Machine.execMxwait h all t s
  | .aclr h t => Sys2Proof.Machine.execAclr h t s
  | .accrd h ty rm row tile d => Sys2Proof.Machine.execAccrd h ty rm row tile d s
  | .accwr h ty row tile a => Sys2Proof.Machine.execAccwr h ty row tile a s
  | .accst h ty rm tile a => Sys2Proof.Machine.execAccst h ty rm tile a s
  | .accld h ty tile a => Sys2Proof.Machine.execAccld h ty tile a s
  | .gset h d a => Sys2Proof.Machine.execGset h d a s
  | .gdraw h raw t d a b c => Sys2Proof.Machine.execGdraw h raw t d a b c s
  | .gres h t a b => Sys2Proof.Machine.execGres h t a b s
  | .cbload h dom scp a => Sys2Proof.Machine.execCbload h dom scp a s
  | .copy h scp dom wf wd wc shp ch => Sys2Proof.Machine.execCopy h scp dom wf wd wc shp ch s
  | .chwait h wv ch => Sys2Proof.Machine.execChwait h wv ch s
  | .chrst h ch => Sys2Proof.Machine.execChrst h ch s
  | .lbrd h k d a => Sys2Proof.Machine.execLbrd h k d a s
  | .lbchk h pf k d a b => Sys2Proof.Machine.execLbchk h pf k d a b s
  | .lbfloor h k a => Sys2Proof.Machine.execLbfloor h k a s
  | .srd h srn d => Sys2Proof.Machine.execSrd h srn d s
  | .swr h srn a => Sys2Proof.Machine.execSwr h srn a s
  | .tret h => Sys2Proof.Machine.execTret h s
  | .vrdx h d a => Sys2Proof.Machine.execVrdx h d a s
  | .vwrx h a b => Sys2Proof.Machine.execVwrx h a b s
  | .isync h => Sys2Proof.Machine.execIsync h s
  | .iinv h a b => Sys2Proof.Machine.execIinv h a b s
  | .illegalOpcode w => Sys2Proof.Machine.execIllegalOpcode w s
  | .instructionFetchFault => Sys2Proof.Machine.execInstructionFetchFault s
  | .faultQueueEntryWrite vf ctx => Sys2Proof.Machine.execFaultQueueEntryWrite vf ctx s
  | .resultReturn team warp id lanes => Sys2Proof.Machine.execResultReturn team warp id lanes s
  | .storePerform id => Sys2Proof.Machine.execStorePerform id s
  | .updateApply id core => Sys2Proof.Machine.execUpdateApply id core s
  | .atomicGroupPerform id => Sys2Proof.Machine.execAtomicGroupPerform id s
  | .stfFlagAdd id => Sys2Proof.Machine.execStfFlagAdd id s
  | .copyDelivery core ch n => Sys2Proof.Machine.execCopyDelivery core ch n s
  | .mmaStart core => Sys2Proof.Machine.execMmaStart core s
  | .mmaComplete core => Sys2Proof.Machine.execMmaComplete core s
  | .mscacComplete core => Sys2Proof.Machine.execMscacComplete core s
  | .dozeEnd team warp slice entry => Sys2Proof.Machine.execDozeEnd team warp slice entry s
  | .spawnBinTimerExpiry core bin => Sys2Proof.Machine.execSpawnBinTimerExpiry core bin s
  | .warpRetire team warp => Sys2Proof.Machine.execWarpRetire team warp s
  | .launchComplete launch => Sys2Proof.Machine.execLaunchComplete launch s
  | .clusterPlace => Sys2Proof.Machine.execClusterPlace s
  | .commitPoint launch => Sys2Proof.Machine.execCommitPoint launch s
  | .orderPointPass id => Sys2Proof.Machine.execOrderPointPass id s
  | .badCommand fn bytes => Sys2Proof.Machine.execBadCommand fn bytes s
  | .launchCmd fn cmd => Sys2Proof.Machine.execLaunchCmd fn cmd s
  | .evsetCmd fn cmd => Sys2Proof.Machine.execEvsetCmd fn cmd s
  | .evsetClrCmd fn cmd => Sys2Proof.Machine.execEvsetClrCmd fn cmd s
  | .contextCreate fn cmd => Sys2Proof.Machine.execContextCreate fn cmd s
  | .bindOff fn cmd => Sys2Proof.Machine.execBindOff fn cmd s
  | .faultResumeRetry fn cmd => Sys2Proof.Machine.execFaultResumeRetry fn cmd s
  | .faultResumeDeliver fn cmd => Sys2Proof.Machine.execFaultResumeDeliver fn cmd s
  | .faultResumeKill fn cmd => Sys2Proof.Machine.execFaultResumeKill fn cmd s
  | .preempt fn cmd => Sys2Proof.Machine.execPreempt fn cmd s
  | .resume fn cmd => Sys2Proof.Machine.execResume fn cmd s
  | .invalidateVa fn cmd => Sys2Proof.Machine.execInvalidateVa fn cmd s
  | .invalidateVaComplete fn seq => Sys2Proof.Machine.execInvalidateVaComplete fn seq s
  | .biasFlipToHost fn cmd => Sys2Proof.Machine.execBiasFlipToHost fn cmd s
  | .biasFlipToDevice fn cmd => Sys2Proof.Machine.execBiasFlipToDevice fn cmd s
  | .biasFlipComplete fn seq => Sys2Proof.Machine.execBiasFlipComplete fn seq s
  | .watchSet fn cmd => Sys2Proof.Machine.execWatchSet fn cmd s
  | .watchRemove fn cmd => Sys2Proof.Machine.execWatchRemove fn cmd s
  | .policyInstall fn cmd dmaOk => Sys2Proof.Machine.execPolicyInstall fn cmd dmaOk s
  | .policyRemove fn cmd => Sys2Proof.Machine.execPolicyRemove fn cmd s
  | .jointContext fn cmd dmaOk => Sys2Proof.Machine.execJointContext fn cmd dmaOk s
  | .checkpointEnrol fn cmd => Sys2Proof.Machine.execCheckpointEnrol fn cmd s
  | .checkpointWithdraw fn cmd => Sys2Proof.Machine.execCheckpointWithdraw fn cmd s
  | .checkpointAdopt fn cmd => Sys2Proof.Machine.execCheckpointAdopt fn cmd s
  | .placeSet fn cmd => Sys2Proof.Machine.execPlaceSet fn cmd s
  | .contextSaveComplete vf ctx => Sys2Proof.Machine.execContextSaveComplete vf ctx s
  | .restoreComplete vf ctx => Sys2Proof.Machine.execRestoreComplete vf ctx s
  | .sfadd vf x whole => Sys2Proof.Machine.execSfadd vf x whole s
  | .suspendSet vf => Sys2Proof.Machine.execSuspendSet vf s
  | .suspendClear vf => Sys2Proof.Machine.execSuspendClear vf s
  | .tenancyWrite vf off width x => Sys2Proof.Machine.execTenancyWrite vf off width x s
  | .grantWrite a k x => Sys2Proof.Machine.execGrantWrite a k x s
  | .unbind slot => Sys2Proof.Machine.execUnbind slot s
  | .originUnbindComplete slot => Sys2Proof.Machine.execOriginUnbindComplete slot s
  | .bindOrigin key => Sys2Proof.Machine.execBindOrigin key s
  | .registerWrite fn off width x => Sys2Proof.Machine.execRegisterWrite fn off width x s
  | .budgetPeriod => Sys2Proof.Machine.execBudgetPeriod s
  | .updateGenerationAdvance die => Sys2Proof.Machine.execUpdateGenerationAdvance die s
  | .scrubVisit l => Sys2Proof.Machine.execScrubVisit l s
  | .retentionSleepEnter core => Sys2Proof.Machine.execRetentionSleepEnter core s
  | .retentionWake core => Sys2Proof.Machine.execRetentionWake core s
  | .flitReceive f => Sys2Proof.Machine.execFlitReceive f s
  | .flitAck dst vn seq => Sys2Proof.Machine.execFlitAck dst vn seq s
  | .livenessSend => Sys2Proof.Machine.execLivenessSend s
  | .linkLivenessTimeout port => Sys2Proof.Machine.execLinkLivenessTimeout port s
  | .linkRetryExhausted port => Sys2Proof.Machine.execLinkRetryExhausted port s
  | .linkUp port => Sys2Proof.Machine.execLinkUp port s
  | .moduleDeadDeclare m => Sys2Proof.Machine.execModuleDeadDeclare m s
  | .moduleDeadAnnounce m => Sys2Proof.Machine.execModuleDeadAnnounce m s
  | .checkpointBegin group => Sys2Proof.Machine.execCheckpointBegin group s
  | .beginReceive group n => Sys2Proof.Machine.execBeginReceive group n s
  | .drained group => Sys2Proof.Machine.execDrained group s
  | .drainedReceive group n src => Sys2Proof.Machine.execDrainedReceive group n src s
  | .cutReceive group n => Sys2Proof.Machine.execCutReceive group n s
  | .sound group => Sys2Proof.Machine.execSound group s
  | .soundReceive group n src => Sys2Proof.Machine.execSoundReceive group n src s
  | .commitReceive group n => Sys2Proof.Machine.execCommitReceive group n s
  | .preImageCopy group frame => Sys2Proof.Machine.execPreImageCopy group frame s
  | .rollbackRestore group => Sys2Proof.Machine.execRollbackRestore group s
  | .hostMemRead pa n => Sys2Proof.Machine.execHostMemRead pa n s
  | .hostMemWrite pa bytes => Sys2Proof.Machine.execHostMemWrite pa bytes s
  | .hostAtomic pa op => Sys2Proof.Machine.execHostAtomic pa op s
  | .hostSnoop hpa remove => Sys2Proof.Machine.execHostSnoop hpa remove s
  | .backInvalidateComplete half => Sys2Proof.Machine.execBackInvalidateComplete half s
  | .cxlCacheRequestFail hpa => Sys2Proof.Machine.execCxlCacheRequestFail hpa s
  | .uncorrectableError l => Sys2Proof.Machine.execUncorrectableError l s
  | .castOn c => Sys2Proof.Machine.execCastOn c s
  | .functionLevelReset vf => Sys2Proof.Machine.execFunctionLevelReset vf s
  | .powerOutOfRange millivolts => Sys2Proof.Machine.execPowerOutOfRange millivolts s
  | .managementRequest r => Sys2Proof.Machine.execManagementRequest r s
  | .spdmSession auth summary => Sys2Proof.Machine.execSpdmSession auth summary s

end Sys2Proof.Machine
end

