-- ==== Sys2Proof/Machine/Ports.lean ====
section
/-! DEFINITION. The issue logic of a partition: ports, register banks, the two units that issue in a cycle, and contention
(R209-R212; log 3). -/

namespace Sys2Proof.Machine

/-- The port that an instruction issues on (R90, R113, R166, R209, R257, R317). What is no instruction of a program holds
none. -/
def Instr.port : Instr → Option IssuePort
  | .frcp .. | .fsqrt .. | .frsq .. | .fexp2 .. | .flog2 .. | .fsin .. | .fcos .. => some .xfn
  | .fadd .. | .faddImm .. | .fsub .. | .fsubImm .. | .fmul .. | .fmulImm .. | .fma .. | .fmin .. | .fminImm .. | .fmax ..
  | .fmaxImm .. | .fabs .. | .fneg .. | .fclass .. | .fdot2 .. | .fscale .. | .frint .. | .cvt .. | .cvtn .. | .cvtw ..
  | .scfit .. | .scapp .. | .cbdec .. | .fcmp .. | .gdraw .. => some .falu
  | .ld .. | .st .. | .atom .. | .cas .. | .red .. | .fence .. | .bridge .. | .stf .. | .waitge .. | .ldpf .. | .cmaint ..
  | .release .. | .iinv .. => some .mem
  | .lxch .. | .poll .. | .redux .. | .scan .. | .elect .. | .kin .. | .umov .. => some .xlane
  | .sclaim .. | .srel .. | .mma .. | .mscac .. | .mxwait .. | .aclr .. | .accrd .. | .accwr .. | .accst .. | .accld ..
  | .gset .. | .gres .. | .cbload .. | .copy .. | .chwait .. | .chrst .. => some .mxc
  | .nop .. | .mov .. | .movi .. | .iadd .. | .iaddImm .. | .isub .. | .isubImm .. | .imul .. | .imulImm .. | .imulh ..
  | .imad .. | .idiv .. | .irem .. | .imin .. | .iminImm .. | .imax .. | .imaxImm .. | .iabs .. | .sadd .. | .saddImm ..
  | .ssub .. | .and .. | .andImm .. | .or .. | .orImm .. | .xor .. | .xorImm .. | .ttab .. | .shl .. | .shlImm ..
  | .shr .. | .shrImm .. | .sar .. | .sarImm .. | .rotl .. | .rotlImm .. | .bfx .. | .bfi .. | .popc .. | .clz ..
  | .brev .. | .bperm .. | .add64 .. | .add64Imm .. | .mad64 .. | .shl64 .. | .shr64 .. | .icmp .. | .sel .. | .plog ..
  | .pmov .. | .bra .. | .brx .. | .call .. | .ret .. | .jpush .. | .join .. | .regang .. | .loop .. | .exit .. | .doze ..
  | .trap .. | .brk .. | .yield .. | .meet .. | .cmeet .. | .launch .. | .evset .. | .evwait .. | .spawn .. | .binfl ..
  | .lbrd .. | .lbchk .. | .lbfloor .. | .srd .. | .swr .. | .tret .. | .vrdx .. | .vwrx .. | .isync .. => some .ialu
  | _ => none

/-- The V registers that a use reads, VZ apart: a pair or a quad counts each (R211). -/
def Use.vregs : Use → List Nat
  | .v r n => if r = 255 then [] else (List.range n).map (fun i => r.toNat + i)
  | .s r => if r = 255 then [] else [r.toNat]
  | .w _ _ | .p _ | .t _ => []

/-- How many registers of each bank an instruction reads (R211). -/
def Instr.banks (i : Instr) : List Nat :=
  let rs := i.sources.flatMap Use.vregs
  (List.range 4).map (fun b => (rs.filter (fun r => r % 4 == b)).length)

/-- Do the reads of two instructions overflow a bank (R211)? -/
def overflows (a b : List Nat) : Bool := (List.range 4).any (fun k => decide (4 < a.getD k 0 + b.getD k 0))

/-- A unit that is ready, with what arbitration asks of it: last-issue time, warp slot, slice, losses in a row, and the port and
banks of its next instruction. -/
structure Cand where
  unit : IssueUnit
  last : Nat
  slot : Nat
  slice : Nat
  lost : Nat
  port : Option IssuePort
  banks : List Nat
  lanes : Nat
  deriving DecidableEq, Repr

/-- The last-issue time of a unit: that of its latest member; a strand that has issued nothing counts as 0. -/
def Warp.lastIssue (w : Warp) (us : List (Nat × Nat)) : Nat := us.foldl (fun n u => max n (w.strand u.1 u.2).last) 0

/-- The next instruction of a unit; none when its word cannot be read or is no instruction. -/
def State.nextInstr (s : State) (k w : Nat) (us : List (Nat × Nat)) : Option Instr :=
  let x := match us with | u :: _ => (s.warp k w).strand u.1 u.2 | [] => default
  match s.fetchStrand (s.team k).core (s.team k).ctx x with
  | (_, .word v) => (decode v).toOption
  | (_, .fault _ _) | (_, .poison) => none

/-- Losses in a row of a unit. -/
def State.lossOf (s : State) (u : IssueUnit) : Nat := ((s.losses.find? (fun l => l.unit == u)).map (·.count)).getD 0

/-- A unit as a candidate, when it is ready (R209). -/
def State.candOf (s : State) (k w : Nat) (slice : Option Nat) : Option Cand :=
  (s.unitsOf k w slice).map (fun us =>
    let wp := s.warp k w
    let i := s.nextInstr k w us
    { unit := (k, w, slice), last := wp.lastIssue us, slot := (s.team k).slots.getD w 0,
      slice := us.foldl (fun m u => min m u.1) 8, lost := s.lossOf (k, w, slice), port := i.bind Instr.port,
      banks := (i.map Instr.banks).getD [], lanes := (laneList (wp.unitLanes us)).length })

/-- The ready units of a partition. In Almanac mode a warp is one unit (R277). -/
def State.cands (s : State) (core part : Nat) : List Cand :=
  (s.allWarps.filter (fun x => (s.team x.1).core == core && x.2 % 4 == part)).flatMap (fun x =>
    (if s.almanac x.1 then [none] else none :: (List.range 8).map some).filterMap (s.candOf x.1 x.2))

/-- Is a candidate before another: the older last issue, then the lower warp slot, then the lower slice (R210)? -/
def Cand.before (a b : Cand) : Bool :=
  decide (a.last < b.last) ||
  (a.last == b.last && (decide (a.slot < b.slot) || (a.slot == b.slot && decide (a.slice < b.slice))))

/-- The first of some candidates. -/
def oldestCand (xs : List Cand) : Option Cand :=
  xs.foldl (fun b x => match b with
    | none => some x
    | some y => if x.before y then some x else b) none

/-- Do two instructions want one port or one bank (R212)? -/
def clash (p q : Option IssuePort) (a b : List Nat) : Bool := (p.isSome && p == q) || overflows a b

/-- The instructions that issued in this cycle in a partition. -/
def State.issuedNow (s : State) (core part : Nat) : List Issued :=
  s.issues.filter (fun i => i.core == core && i.part == part && i.cycle == s.cycle)

/-- May a candidate of a partition issue beside what has issued already: it has not issued in this cycle, its port is free,
and no bank overflows (R209-R211)? -/
def State.open (s : State) (core part : Nat) (x : Cand) : Bool :=
  !((s.issuedNow core part).any (fun i => i.unit == x.unit || overflows i.banks x.banks)) &&
  !(s.issues.any (fun i => i.core == core && (i.part == part || x.port == some .mxc) && x.port.isSome && i.port == x.port &&
      decide (s.cycle ≤ i.till)))

/-- The candidates that a partition may still issue in this cycle: two issue at most. -/
def State.openCands (s : State) (core part : Nat) : List Cand :=
  if 2 ≤ (s.issuedNow core part).length then [] else (s.cands core part).filter (s.open core part)

/-- The candidate that issues next among some: the oldest, unless one that has lost 4 times in a row wants its port or bank
(R210, R212). -/
def pickOf (xs : List Cand) : Option Cand :=
  (oldestCand xs).bind (fun a =>
    if 4 ≤ a.lost then some a
    else (oldestCand (xs.filter (fun b => decide (4 ≤ b.lost) && clash a.port b.port a.banks b.banks))).orElse
      (fun _ => some a))

/-- Does a contender of one partition win the MXC port over one of another (R211, R212; log 3)? -/
def Cand.beats (b a : Cand) (q p : Nat) : Bool :=
  if decide (4 ≤ b.lost) != decide (4 ≤ a.lost) then decide (4 ≤ b.lost)
  else decide (b.last < a.last) || (b.last == a.last && decide (q < p))

/-- The unit that a partition issues next in this cycle; one that loses the MXC port to another partition retries in the next
cycle. -/
def State.pick (s : State) (core part : Nat) : Option Cand :=
  let xs := s.openCands core part
  match pickOf xs with
  | none => none
  | some a =>
    if a.port = some .mxc ∧ ((List.range 4).any (fun q => q != part && (match pickOf (s.openCands core q) with
        | some b => b.port == some .mxc && b.beats a q part
        | none => false))) = true then pickOf (xs.filter (fun b => b.port != some .mxc))
    else some a

/-- A unit's name: in Almanac mode a warp is one unit. -/
def State.unitName (s : State) (k w : Nat) (slice : Option Nat) : IssueUnit := (k, w, if s.almanac k then none else slice)

/-- The unit as a candidate, if its partition issues it next in this cycle (R210). -/
def State.mayIssue (s : State) (k w : Nat) (slice : Option Nat) : Option Cand :=
  match s.pick (s.team k).core (w % 4) with
  | some c => if c.unit = s.unitName k w slice then some c else none
  | none => none

/-- A loss more of a unit, once a cycle. -/
def State.noteLoss (s : State) (u : IssueUnit) : State :=
  match s.losses.find? (fun l => l.unit == u) with
  | none => { s with losses := s.losses ++ [{ unit := u, count := 1, cycle := s.cycle }] }
  | some l =>
    if l.cycle = s.cycle then s
    else { s with losses := s.losses.map (fun x => if x.unit = u then { x with count := x.count + 1, cycle := s.cycle } else x) }

/-- Notes an issue: its port is held for the cycle, XFN for one cycle for every 8 lanes (R209); the units that wanted the port
or a bank have lost once more (R212). -/
def State.noteIssue (s : State) (c : Cand) : State :=
  let core := (s.team c.unit.1).core
  let part := c.unit.2.1 % 4
  let lost := ((s.cands core part).filter (fun x => x.unit != c.unit && !((s.issuedNow core part).any (fun i => i.unit == x.unit)) &&
      clash c.port x.port c.banks x.banks)).map (·.unit)
  let rivals := if c.port = some .mxc then
      (List.range 4).flatMap (fun q => if q = part then [] else
        ((s.openCands core q).filter (fun x => x.port == some .mxc)).map (·.unit))
    else []
  let s := (lost ++ rivals).foldl State.noteLoss s
  { s with
    issues := s.issues.filter (fun i => decide (s.cycle ≤ i.till)) ++
      [{ core, part, unit := c.unit, port := c.port, banks := c.banks, cycle := s.cycle,
         till := s.cycle + (if c.port = some .xfn then (c.lanes + 7) / 8 - 1 else 0) }]
    losses := s.losses.filter (fun l => l.unit != c.unit && (Cells.find? s.teams l.unit.1).isSome) }

end Sys2Proof.Machine
end

