-- ==== Sys2Proof/Machine/Turns.lean ====
section
/-! DEFINITION. Which agent moves next: time, an issue of a warp, an event of the device, and the order in which this model
lets them move when the agenda names none (R18, R149, R209, R210; log 3). -/

namespace Sys2Proof.Machine

/-! ## Time -/

/-- Cycles of a budget period (R421). -/
def periodCycles : Nat := 10800

/-- Lets cycles pass, up to the last of the budget period; each array counts those in which the governor holds its next
MMA back (R313). -/
def State.pass (s : State) (n : Nat) : State :=
  let n := min n (periodCycles - 1 - s.cycle % periodCycles)
  { s with
    cycle := s.cycle + n
    cores := s.cores.map (fun c =>
      if c.2.matrix.isEmpty then c else (c.1, { c.2 with mxgov := c.2.mxgov + BitVec.ofNat 32 (s.govWait c.1 n) })) }

/-! ## What follows of itself -/

/-- Settles the module: flits that wait (R385), open checks, warps, the acknowledgements that are due (R388), arrays that stop
or stand before an MSCAC (R306, R314), bind-offs, PREEMPT entries, command ports, and SUSPENDED (R361, R362, R373, R374). -/
def State.settleAll (s : State) : State :=
  let s := s.settleFlits.settleChecks.settle.payAcks
  let s := (Cells.keys s.cores).foldl (fun (s : State) c => (s.stopArray c).startMscac c) s
  let s := s.settleUnbinding.settlePreempts.pumpAll
  ((List.filter (fun (v : Nat × Vf) => v.2.suspend) s.vfs).map (·.1)).foldl State.noteSuspended s

/-! ## Issue (R149, R210, R340) -/

/-- A fetch from a poisoned line ends the context (R358). -/
def State.fetchPoison (s : State) (k w : Nat) (n : Now) : State :=
  { s.endContext (s.team k).ctx
      { reason := 3, va := n.pc, global := s.warpGlobal k w, pc := n.pc, lab := (s.warp k w).lbfloor,
        serial := (s.launch (s.team k).launch).serial } with now := none }

/-- Issues a unit, when its partition issues it next in this cycle: its word is fetched and executed (R210). -/
def State.issueUnit (s : State) (k w : Nat) (slice : Option Nat) : Host.Outcome State Fault Refusal :=
  match s.unitsOf k w slice, s.mayIssue k w slice with
  | none, _ | _, none => .next s
  | some us, some c =>
    let s := s.noteIssue c
    let r := s.nowOf k w us
    let wp := r.1.warp k w
    let x := match us with | u :: _ => wp.strand u.1 u.2 | [] => default
    match r.1.fetchStrand (s.team k).core (s.team k).ctx x with
    | (s1, .word v) =>
      (match decode v with
       | .ok i => exec i { s1 with now := some { r.2 with word := v } }
       | .error _ =>
         trapWord { s1 with now := some { r.2 with word := v } } .illegalField (hdrOf v)
           ([0x104, 0x105, 0x106, 0x107].contains (field v 9 0) && field v 62 60 != 7))
    | (_, .fault _ _) => exec .instructionFetchFault { r.1 with now := some r.2 }
    | (s1, .poison) => .next (s1.fetchPoison k w r.2)

/-- Lets an agent move. -/
def State.act (s : State) (a : Act) : Host.Outcome State Fault Refusal :=
  match a with
  | .issue k w slice => s.issueUnit k w slice
  | .event i => exec i s

/-! ## The order when the agenda is empty (log 3) -/

/-- The unit that the first partition with one to issue issues next in this cycle. -/
def State.nextUnit (s : State) : Option IssueUnit :=
  (((s.teams.map (fun t => t.2.core)).eraseDups).flatMap (fun c => (List.range 4).map (fun p => (c, p)))).findSome?
    (fun x => (s.pick x.1 x.2).map (·.unit))

/-- Would a read be performed now with an effect: is it ready, within budget, and not a WAITGE below its threshold? -/
def State.readDue (s : State) (id : Nat) : Bool :=
  match s.accesses.find? (fun a => a.id == id) with
  | none => false
  | some a => s.ready a && s.budgetFor a && (match a.op with | .testGe t => decide (t.toNat ≤ s.loadValue a) | _ => true)

/-- Has a result all it waits for, or a read to perform? -/
def State.resultDue (s : State) (k w : Nat) (r : Result) : Bool :=
  (match r.kind with
   | .done | .iinv _ => true
   | .fence ids => !(ids.any (fun x => s.pendingAt k x.1 x.2))
   | .mem _ _ _ got _ want | .ge _ _ got _ want => gathered got want
   | .bulk _ got _ want => decide (want ≤ got.length)
   | .matrix => false) ||
  (s.readsOf k w r.id 0xFFFFFFFF true).any s.readDue

/-- Can a channel move? -/
def State.chanDue (s : State) (core ch : Nat) : Bool :=
  match s.chanXfers core ch with
  | [] => false
  | x :: _ =>
    !x.stuck && x.wire.isNone && !s.chrstDue core ch &&
    (if x.lag ≠ 0 ∧ !s.updating x.id x.scp x.team then true
     else if x.total ≤ x.done then
      x.flag == 0 || (match placeIn x.flagMap x.flag.toNat with
        | some p => s.halfFree p 8 true && !s.preImageDue p
        | none => true)
     else decide (x.at_ < x.total) && !s.copyBlocked x)

/-- The event of an access that waits. -/
def Access.event (a : Access) : Instr :=
  match a.op with
  | .store _ => .storePerform a.id
  | .rmw _ _ _ | .cas _ _ => .atomicGroupPerform a.id
  | .flagAdd => .stfFlagAdd a.id
  | .load | .line | .label | .testGe _ => .resultReturn a.team a.warp a.res 0xFFFFFFFF#32

/-- Events of warps: results, ends of DOZE, retirement. -/
def State.warpEvents (s : State) : List Instr :=
  s.allWarps.flatMap (fun x =>
    let w := s.warp x.1 x.2
    ((w.results.filter (fun r => s.resultDue x.1 x.2 r)).map (fun r => Instr.resultReturn x.1 x.2 r.id 0xFFFFFFFF#32)) ++
    (w.allStrands.filterMap (fun y => match y.2.2.st with
      | .waiting (.doze _ _) => some (Instr.dozeEnd x.1 x.2 y.1 y.2.1)
      | _ => none)) ++
    (if w.exited = 0xFFFFFFFF#32 then [Instr.warpRetire x.1 x.2] else []))

/-- Events of memory: order points, stores, atomics, flags, updates. -/
def State.memoryEvents (s : State) : List Instr :=
  (s.accesses.filterMap (fun a => if a.window.isSome && !a.passed then some (Instr.orderPointPass a.id) else none)) ++
  (s.accesses.filterMap (fun a => if !a.op.loads && s.ready a then some a.event else none)) ++
  (s.updates.map (fun u => Instr.updateApply u.id u.core)) ++
  (s.halves.filterMap (fun h => if h.2 == .dev then none else some (Instr.backInvalidateComplete h.1)))

/-- Events of cores: channels, the array, bins. -/
def State.coreEvents (s : State) : List Instr :=
  s.cores.flatMap (fun c =>
    ((List.range 4).filterMap (fun ch => if s.chanDue c.1 ch then some (Instr.copyDelivery c.1 ch 256) else none)) ++
    (if c.2.matrix.isEmpty then [] else [Instr.mmaStart c.1, Instr.mmaComplete c.1, Instr.mscacComplete c.1]) ++
    (c.2.bins.filterMap (fun b => if b.2.timer.isSome then some (Instr.spawnBinTimerExpiry c.1 b.1) else none)) ++
    (if c.2.sleep.isSome && !s.order.isEmpty then [Instr.retentionWake c.1] else []))

/-- The frames that writes which wait are to write. -/
def State.framesWaiting (s : State) : List Nat :=
  let frame (p : Place) : List Nat := match p with | .dev pa => [pa / 4096] | .peer _ _ _ | .host _ _ | .scr _ _ => []
  (s.accesses.flatMap (fun a => if a.writes then frame a.place else [])) ++
  (s.fabric.held.flatMap (fun f => match f.body with
    | .request _ _ pa _ _ _ => [pa.toNat / 4096]
    | .response _ _ _ _ | .update _ _ | .window _ _ _ _ | .stage _ _ _ _ _ _ | .enrol _ _ _ _ | .check _ _ _ | .dead _
    | .live _ => [])) ++
  (s.contexts.filterMap (fun c => c.2.fqDue.map (fun e => c.2.fqSlot e.seq / 4096))) ++
  (s.cores.flatMap (fun c => c.2.chans.flatMap (fun ch => ch.2.xfers.flatMap (fun x =>
    (x.dstMap ++ x.flagMap).flatMap (fun m => frame m.place)))))

/-- Events of contexts, launches, commands and groups. -/
def State.contextEvents (s : State) : List Instr :=
  (s.contexts.flatMap (fun c =>
    [Instr.faultQueueEntryWrite c.2.vf c.2.num] ++
    (match c.2.st with
     | .saving => [Instr.contextSaveComplete c.2.vf c.2.num]
     | .restoring => [Instr.restoreComplete c.2.vf c.2.num]
     | .live | .saved | .ended => []))) ++
  ((Cells.keys s.launches).map Instr.launchComplete) ++
  (if s.order.isEmpty && !s.teams.any (fun t => t.2.leaving) then [] else [Instr.clusterPlace]) ++
  (((Cells.keys s.launches).filter (fun l => s.commitDue l || (s.launch l).commit.isSome)).map Instr.commitPoint) ++
  (s.invals.map (fun v => Instr.invalidateVaComplete (if v.1.1 = 0 then .pf else .vf (v.1.1 - 1)) v.1.2)) ++
  (s.flips.map (fun f => Instr.biasFlipComplete (if f.port = 0 then .pf else .vf (f.port - 1)) f.jseq)) ++
  ((s.origins.filter (fun o => o.2.st == .unbinding)).map (fun o => Instr.originUnbindComplete o.1)) ++
  (s.fabric.groups.flatMap (fun g =>
    [Instr.drained g.1, Instr.sound g.1, Instr.rollbackRestore g.1, Instr.checkpointBegin g.1] ++
    (s.framesWaiting.map (fun f => Instr.preImageCopy g.1 f))))

/-- Does an event change the state? -/
def State.changes (s : State) (i : Instr) : Bool :=
  match exec i s with
  | .next t => decide (t ≠ s)
  | .fault _ | .refused _ => false

/-- A commit point that moves something beside its own count. -/
def State.useful (s : State) (i : Instr) : Bool :=
  match i with
  | .commitPoint _ =>
    (match exec i s with
     | .next t => decide ({ t with launches := s.launches } ≠ s)
     | .fault _ | .refused _ => false)
  | _ => s.changes i

/-- Events at the end of a budget period (R232, R422). -/
def State.periodEvents (s : State) : List Instr :=
  if s.periodEnds then
    ((List.filter (fun (d : Nat × Die) => s.genDue d.1) s.dies).map (fun d => Instr.updateGenerationAdvance d.1)) ++ [Instr.budgetPeriod]
  else []

/-- The first event that has an effect. -/
def State.dueEvent (s : State) : Option Instr :=
  (s.periodEvents.find? s.changes).orElse (fun _ =>
    (s.warpEvents ++ s.memoryEvents ++ s.coreEvents ++ s.contextEvents).find? s.useful)

/-- The move that this model makes when the agenda is empty: an event that has an effect; else the issue of a unit that its
partition issues in this cycle; else none, and a cycle passes. -/
def State.nextTurn (s : State) : Option Turn :=
  match s.dueEvent with
  | some i => some { act := .event i }
  | none => s.nextUnit.map (fun u => { act := .issue u.1 u.2.1 u.2.2 })

/-- What follows of itself after a move. -/
def State.settled (o : Host.Outcome State Fault Refusal) : Host.Outcome State Fault Refusal :=
  match o with
  | .next s => .next s.settleAll
  | .fault f => .fault f
  | .refused r => .refused r

/-! ## A program placed from outside (log 21) -/

/-- A launch header with some fields, as offset, bytes and value. -/
def headerOf (fs : List (Nat × Nat × Nat)) : Header :=
  BitVec.ofNat 1536 (fs.foldl (fun n f => n + (f.2.2 % 2 ^ (8 * f.2.1)) * 2 ^ (8 * f.1)) 0)

/-- The launch that holds a single word at 0x1_0000: one team of one warp, every resource a core has for it. -/
def wordHeader : Header :=
  headerOf [(0, 4, 1), (4, 4, 0x1000), (8, 8, 0x10000), (16, 1, 5), (22, 1, 1), (23, 1, 1), (24, 4, 32), (28, 4, 1),
    (32, 4, 1), (36, 4, 1), (40, 4, 1), (44, 4, 1), (48, 4, 255 * 2 ^ 21 + 32 * 2 ^ 14 + 62 * 2 ^ 7 + 2), (52, 1, 1),
    (53, 1, 1), (55, 1, 8), (128, 8, 0x800000), (136, 4, 1024), (144, 8, 0x40000), (152, 8, 1), (160, 8, 0x18000),
    (168, 8, 0x20000)]

/-- A page table that maps the first GiB of the virtual space onto the first GiB of die 0, for every use. -/
def wordTables (m : Memory) : Memory :=
  Cells.writeLE (Cells.writeLE (Cells.writeLE m 0x1000 8 0x2001) 0x2000 8 0x3001) 0x3000 8 0x7F

/-- The context of the placed program. -/
def wordContext : Context := { vf := 0, num := 0, root := 0x1000, fq := 0x80000, serial := 2, handle := some 1 }

/-- Places one running warp whose next word is at 0x1_0000, as a launch would (R207, R217). -/
def State.placeWord (s : State) (w : Nat) : State :=
  let l := s.nextId
  let s1 : State := { s with
    mem := Cells.writeLE (wordTables s.mem) 0x10000 8 w
    contexts := Cells.put s.contexts 0 wordContext
    launches := Cells.put s.launches l
      { ctx := 0, hdr := wordHeader, hdrVa := 0, serial := 1, port := 1, jseq := 1, w0Lab := 0, ready := some 0, placed := 1 }
    nextId := l + 1
    agenda := [{ act := .issue (l + 1) 0 none }] }
  s1.newTeam l 0 0 0

end Sys2Proof.Machine
end

