-- ==== Sys2Proof/Machine/Step.lean ====
section
/-! DEFINITION. One step of the module: the next turn of the agenda, or the move that the model makes by itself. -/

namespace Sys2Proof.Machine

/-- One step (log 3). Without power only CAST_ON moves. -/
def step (s : State) : Host.Outcome State Fault Refusal :=
  if s.power.on then
    match s.agenda with
    | t :: rest => State.settled (({ s with agenda := rest }.pass t.wait).act t.act)
    | [] =>
      match s.nextTurn with
      | some t => State.settled ((s.pass t.wait).act t.act)
      | none => .next ((s.pass 1).settleAll)
  else
    match s.agenda with
    | { act := .event (.castOn c), .. } :: rest => exec (.castOn c) { s with agenda := rest }
    | _ => .fault .unpowered

/-- The state with one word where the next step fetches it (log 21). -/
def State.withFetchWord (s : State) (_nbits w : Nat) : State := s.placeWord w

end Sys2Proof.Machine
end

