-- ==== Sys2Proof/Machine/Axioms.lean ====
section
/-! DEFINITION. The axioms of the memory model, over finite executions: which outcomes of several agents the spec allows
(R235, R236, R238-R248). The machine's step makes single executions; this file says of any candidate execution whether
it is allowed (log 26). -/

namespace Sys2Proof.Machine.Consistency

/-- What an agent is (R235). -/
inductive AgentKind where
  | lane | channel | host
  deriving DecidableEq, Repr

/-- An agent and where it acts. A copy channel carries the place of the lane whose COPY it serves. The numbers of dies,
clusters and teams are distinct across the fabric (R235). -/
structure Agent where
  id : Nat
  kind : AgentKind
  module : Nat
  die : Nat
  cluster : Nat
  team : Nat
  deriving DecidableEq, Repr

/-- The instance of scope `s` for agent `l` contains agent `a`; `reach` lists the modules that the VF's place table
reaches (R235). -/
def Agent.sees (reach : List Nat) (l : Agent) (s : Scope) (a : Agent) : Bool :=
  match s with
  | .team => a.kind != .host && l.team == a.team
  | .clus => a.kind != .host && (l.team == a.team || (a.kind == .lane && l.cluster == a.cluster))
  | .die => a.kind != .host && l.die == a.die
  | .pkg => a.kind != .host && l.module == a.module
  | .fab => a.kind != .host && (l.module == a.module || reach.contains a.module)
  | .sys => a.kind == .host || l.module == a.module || reach.contains a.module

/-- What an access does (R238, R239). `rmw` is an ATOM or a CAS that writes, with a destination; `red` is a RED, or one
whose destination is VZ; `failed` is a CAS whose compare fails, with or without a destination. -/
inductive Effect where
  | read | write | rmw | red
  | failed (dest : Bool)
  deriving DecidableEq, Repr

/-- Where an access goes, as far as ordering asks (R235). -/
inductive Place where
  | memory | scratchpad | laneLocal
  deriving DecidableEq, Repr

/-- One access of one agent (R238). Accesses of one agent are in program order by `pos`; the accesses of one copy
transfer share one `pos`. `instr` numbers the instruction that several lanes issued together, with the lane's index. `addr`, `data` and `ctrl` number the accesses that it depends on (R240). `completion` marks
the increment of a completion object (R255). -/
structure Event where
  agent : Agent
  pos : Nat
  effect : Effect
  dom : Dom
  scope : Scope
  place : Place := .memory
  base : Nat
  bytes : Nat
  release : Bool := false
  acquire : Bool := false
  completion : Bool := false
  instr : Option (Nat × Nat) := none
  addr : List Nat := []
  data : List Nat := []
  ctrl : List Nat := []
  deriving DecidableEq, Repr

/-- The access reads (R238). -/
def Event.isRead (e : Event) : Bool :=
  match e.effect with
  | .write => false
  | .read | .rmw | .red | .failed _ => true

/-- The access writes (R238). -/
def Event.isWrite (e : Event) : Bool :=
  match e.effect with
  | .write | .rmw | .red => true
  | .read | .failed _ => false

/-- The access is an atomic that wrote (R241, R248). -/
def Event.isAtomic (e : Event) : Bool :=
  match e.effect with
  | .rmw | .red => true
  | .read | .write | .failed _ => false

/-- It counts as a read for preserved program order (R239, R261). -/
def Event.ordersAsRead (e : Event) : Bool :=
  match e.effect with
  | .read | .rmw | .failed _ => true
  | .write | .red => false

/-- It counts as a write for preserved program order (R239, R261). -/
def Event.ordersAsWrite (e : Event) : Bool :=
  match e.effect with
  | .write | .rmw | .red => true
  | .failed dest => dest
  | .read => false

/-- The byte is one of those that the access covers. -/
def Event.covers (e : Event) (byte : Nat) : Bool := e.base ≤ byte && byte < e.base + e.bytes

/-- The scope that the access acts at: a scope wider than the cluster acts on scratchpad as cluster scope (R235). -/
def Event.actsAt (e : Event) : Scope :=
  match e.place, e.scope with
  | .scratchpad, .team => .team
  | .scratchpad, _ => .clus
  | _, s => s

/-- An ordering instruction at its point of program order (R242, R263). -/
inductive Barrier where
  | fence (d : Dom)
  | fenceAll
  | bridge (src tgt : Dom)
  deriving DecidableEq, Repr

/-- A FENCE or BRIDGE, with the lanes that issued it together, each at its point of program order. It orders the accesses of all
of them, as the chain of R291 does; R242 speaks of the accesses of one lane (log 26). -/
structure Fence where
  lanes : List (Agent × Nat)
  barrier : Barrier
  scope : Scope
  deriving DecidableEq, Repr

/-- Any other ordering edge of R242 or R255: a barrier phase, a LAUNCH, an event operation, a launch completion, the
bytes of a transfer before its flag or behind CHWAIT. `issuers` are the lanes that issued its instructions. -/
structure Given where
  earlier : List Nat
  later : List Nat
  scope : Scope
  issuers : List Agent
  deriving DecidableEq, Repr

/-- Where one byte of a read comes from: a write, or the initial value (R238). -/
structure Source where
  read : Nat
  byte : Nat
  write : Option Nat
  deriving DecidableEq, Repr

/-- A candidate execution (R238). -/
structure Candidate where
  events : List Event
  fences : List Fence := []
  given : List Given := []
  sources : List Source
  /-- The writes of each byte in coherence order. -/
  order : List (Nat × List Nat)
  reach : List Nat := []
  deriving DecidableEq, Repr

/-- An edge of happens-before from one access to another, with the instances that it holds for (R243). -/
structure Edge where
  src : Nat
  tgt : Nat
  instances : List (Agent × Scope) := []
  deriving DecidableEq, Repr

/-- The numbers of the accesses. -/
def Candidate.ids (c : Candidate) : List Nat := List.range c.events.length

/-- Every pair of accesses. -/
def Candidate.pairs (c : Candidate) : List (Nat × Nat) :=
  c.ids.flatMap (fun a => c.ids.map (fun b => (a, b)))

/-- The pairs of accesses that a test holds of. -/
def Candidate.pairsThat (c : Candidate) (test : Nat → Event → Nat → Event → Bool) : List (Nat × Nat) :=
  c.pairs.filter (fun x =>
    match c.events[x.1]?, c.events[x.2]? with
    | some a, some b => test x.1 a x.2 b
    | _, _ => false)

/-- Program order: one agent, an earlier point (R238). -/
def Event.before (a b : Event) : Bool := a.agent == b.agent && a.pos < b.pos

/-- Common scope (R236). -/
def Candidate.common (c : Candidate) (a b : Event) : Bool :=
  a.agent.sees c.reach a.actsAt b.agent && b.agent.sees c.reach b.actsAt a.agent

/-- The pairs that a domain preserves (R239). -/
def Event.preserved (a b : Event) : Bool :=
  a.dom == b.dom &&
  match a.dom with
  | .sc => true
  | .tso | .co => (a.ordersAsRead && (b.ordersAsRead || b.ordersAsWrite)) || (a.ordersAsWrite && b.ordersAsWrite)
  | .rc | .bu => false

/-- `b` depends on the value of read `a` (R240). -/
def Event.dependsOn (i : Nat) (a b : Event) : Bool :=
  a.isRead && (b.addr.contains i || (b.isWrite && (b.data.contains i || b.ctrl.contains i)))

/-- Preserved program order with its dependencies; lane-local accesses keep program order whatever their domain (R215,
R235, R239, R240). -/
def Candidate.ppo (c : Candidate) : List (Nat × Nat) :=
  c.pairsThat (fun i a _ b => a.before b &&
    (a.preserved b || a.dependsOn i b || (a.place == .laneLocal && b.place == .laneLocal)))

/-- The dependencies alone (R240, R247). -/
def Candidate.deps (c : Candidate) : List (Nat × Nat) :=
  c.pairsThat (fun i a _ b => a.before b && a.dependsOn i b)

/-- The earlier and later accesses that an ordering instruction relates (R242). -/
def Barrier.relates (f : Barrier) (a b : Dom) : Bool :=
  match f with
  | .fence d => a == d && b == d
  | .fenceAll => true
  | .bridge src tgt => a == src && b == tgt

/-- Does an access stand before a FENCE or BRIDGE in the program of one of its lanes? -/
def Fence.after (f : Fence) (e : Event) : Bool := f.lanes.any (fun l => l.1 == e.agent && e.pos < l.2)

/-- Does an access stand after it? -/
def Fence.before (f : Fence) (e : Event) : Bool := f.lanes.any (fun l => l.1 == e.agent && l.2 < e.pos)

/-- The edges of R242. -/
def Candidate.orderingEdges (c : Candidate) : List Edge :=
  c.fences.flatMap (fun f =>
    (c.pairsThat (fun _ a _ b => f.after a && f.before b && f.barrier.relates a.dom b.dom)).map (fun x =>
      { src := x.1, tgt := x.2, instances := f.lanes.map (fun l => (l.1, f.scope)) })) ++
  (c.pairsThat (fun _ a _ b => a.before b && a.dom == .rc && b.dom == .rc && b.release)).flatMap (fun x =>
    match c.events[x.2]? with
    | some b => [{ src := x.1, tgt := x.2, instances := [(b.agent, b.actsAt)] }]
    | none => []) ++
  (c.pairsThat (fun _ a _ b => a.before b && a.dom == .rc && b.dom == .rc && a.acquire)).flatMap (fun x =>
    match c.events[x.1]? with
    | some a => [{ src := x.1, tgt := x.2, instances := [(a.agent, a.actsAt)] }]
    | none => []) ++
  c.given.flatMap (fun g => g.earlier.flatMap (fun a => g.later.map (fun b =>
    { src := a, tgt := b, instances := g.issuers.map (fun l => (l, g.scope)) })))

/-- The writes that an access reads from. -/
def Candidate.readsFrom (c : Candidate) (r : Nat) : List Nat :=
  c.sources.filterMap (fun s => if s.read == r then s.write else none)

/-- Reads-from, over the accesses. -/
def Candidate.rf (c : Candidate) : List (Nat × Nat) :=
  c.sources.filterMap (fun s => s.write.map (fun w => (w, s.read)))

/-- The writes that a chain of atomics, ending with access `w`, read from (R241). -/
def Candidate.chain (c : Candidate) : Nat → Nat → List Nat
  | 0, _ => []
  | n + 1, w =>
    match c.events[w]? with
    | some e => if e.isAtomic then (c.readsFrom w).flatMap (fun x => x :: c.chain n x) else []
    | none => []

/-- The first two cases of R241. -/
def Event.pairsWith (w r : Event) : Bool :=
  (w.dom == r.dom && (w.dom == .sc || w.dom == .tso || w.dom == .co)) ||
  (w.dom == .rc && w.release && r.dom == .rc && r.acquire)

/-- The last case of R241: a completion object, and a read that may acquire it. -/
def Event.completes (w r : Event) : Bool :=
  w.completion && (r.acquire || r.dom == .sc || r.dom == .tso || r.dom == .co)

/-- Synchronises-with (R241). -/
def Candidate.sw (c : Candidate) : List Edge :=
  c.rf.flatMap (fun x =>
    match c.events[x.1]?, c.events[x.2]? with
    | some w, some r =>
      if w.agent != r.agent && c.common w r then
        (if w.pairsWith r || w.completes r then [x.1] else []) ++
        ((c.chain c.events.length x.1).filter (fun i =>
          match c.events[i]? with
          | some first => first.pairsWith r && first.agent != r.agent
          | none => false))
        |>.flatMap (fun i =>
          match c.events[i]? with
          | some first =>
            [{ src := i, tgt := x.2, instances := [(first.agent, first.actsAt), (r.agent, r.actsAt)] }]
          | none => [])
      else []
    | _, _ => [])

/-- Every edge that happens-before is made of (R243). -/
def Candidate.edges (c : Candidate) : List Edge :=
  c.ppo.map (fun x => { src := x.1, tgt := x.2 }) ++ c.orderingEdges ++ c.sw

/-- What a set of accesses reaches in at most `n` more edges. -/
def reached (es : List (Nat × Nat)) : Nat → List Nat → List Nat
  | 0, xs => xs
  | n + 1, xs => reached es n (xs ++ ((es.filter (fun e => xs.contains e.1 && !xs.contains e.2)).map Prod.snd))

/-- A chain of edges, of at least one edge, leads from `a` to `b`; `n` bounds the number of accesses. -/
def leads (es : List (Nat × Nat)) (n a b : Nat) : Bool :=
  (reached es n ((es.filter (fun e => e.1 == a)).map Prod.snd)).contains b

/-- No access leads back to itself. -/
def acyclic (es : List (Nat × Nat)) (n : Nat) : Bool := (List.range n).all (fun a => !leads es n a a)

/-- The edges whose instances contain both agents (R243). -/
def Candidate.edgesFor (c : Candidate) (a b : Agent) : List (Nat × Nat) :=
  (c.edges.filter (fun e => e.instances.all (fun x => x.1.sees c.reach x.2 a && x.1.sees c.reach x.2 b))).map
    (fun e => (e.src, e.tgt))

/-- Happens-before (R243). -/
def Candidate.hb (c : Candidate) (a b : Nat) : Bool :=
  match c.events[a]?, c.events[b]? with
  | some x, some y => leads (c.edgesFor x.agent y.agent) c.events.length a b
  | _, _ => false

/-- The writes of a byte in coherence order. -/
def Candidate.writesOf (c : Candidate) (byte : Nat) : List Nat :=
  match c.order.find? (fun x => x.1 == byte) with
  | some x => x.2
  | none => []

/-- The place of a write in the coherence order of a byte: the initial value is 0, the first write is 1. -/
def Candidate.rank (c : Candidate) (byte : Nat) (w : Option Nat) : Nat :=
  match w with
  | some x => (c.writesOf byte).idxOf x + 1
  | none => 0

/-- Where a byte of a read comes from, when the candidate says it. -/
def Candidate.sourceOf (c : Candidate) (r byte : Nat) : Option (Option Nat) :=
  (c.sources.find? (fun s => s.read == r && s.byte == byte)).map Source.write

/-- The bytes that two accesses both cover. -/
def Event.shared (a b : Event) : List Nat := ((List.range a.bytes).map (a.base + ·)).filter b.covers

/-- The candidate is well formed: each byte of each read has one source, a write to that byte or the initial value;
the coherence order of each byte holds exactly the writes to it; and accesses are single-copy atomic (R238). -/
def Candidate.wf (c : Candidate) : Bool :=
  c.sources.all (fun s =>
    (match c.events[s.read]? with | some r => r.isRead && r.covers s.byte | none => false) &&
    (match s.write with
      | none => true
      | some w => w != s.read && (match c.events[w]? with | some e => e.isWrite && e.covers s.byte | none => false))) &&
  c.ids.all (fun i =>
    match c.events[i]? with
    | some e =>
      ((List.range e.bytes).all (fun k =>
        (!e.isRead || (c.sources.filter (fun s => s.read == i && s.byte == e.base + k)).length == 1) &&
        (!e.isWrite || (c.writesOf (e.base + k)).count i == 1)))
    | none => false) &&
  c.order.all (fun x => (c.order.filter (fun y => y.1 == x.1)).length == 1 &&
    x.2.all (fun w => match c.events[w]? with | some e => e.isWrite && e.covers x.1 | none => false)) &&
  c.sources.all (fun s =>
    match s.write with
    | none => true
    | some w =>
      match c.events[w]?, c.events[s.read]? with
      | some e, some r => (e.shared r).all (fun byte => c.sourceOf s.read byte == some (some w))
      | _, _ => false)

/-- Coherence order, over the accesses (R238). -/
def Candidate.co (c : Candidate) : List (Nat × Nat) :=
  c.pairsThat (fun i a j b => i != j && a.isWrite && b.isWrite &&
    (a.shared b).any (fun byte => c.rank byte (some i) < c.rank byte (some j)))

/-- From-read, over the accesses (R238). -/
def Candidate.fr (c : Candidate) : List (Nat × Nat) :=
  c.pairsThat (fun i a j b => i != j && a.isRead && b.isWrite &&
    (a.shared b).any (fun byte =>
      match c.sourceOf i byte with
      | some w => c.rank byte w < c.rank byte (some j)
      | none => false))

/-- Causality (R244). -/
def Candidate.causal (c : Candidate) : Bool := c.ids.all (fun a => !c.hb a a)

/-- What coherence asks of two related accesses at one byte (R245). -/
def Candidate.coherentAt (c : Candidate) (i : Nat) (a : Event) (j : Nat) (b : Event) (byte : Nat) : Bool :=
  (!(a.isWrite && b.isWrite) || c.rank byte (some i) < c.rank byte (some j)) &&
  (!(a.isWrite && b.isRead) ||
    (match c.sourceOf j byte with | some w => c.rank byte (some i) ≤ c.rank byte w | none => false)) &&
  (!(a.isRead && b.isWrite) ||
    (match c.sourceOf i byte with | some w => c.rank byte w < c.rank byte (some j) | none => false)) &&
  (!(a.isRead && b.isRead) ||
    (match c.sourceOf i byte, c.sourceOf j byte with
      | some w, some x => c.rank byte w ≤ c.rank byte x
      | _, _ => false))

/-- Two lanes of one instruction act in ascending lane order (R123, R238). -/
def Event.laneBefore (a b : Event) : Bool :=
  match a.instr, b.instr with
  | some x, some y => x.1 == y.1 && x.2 < y.2
  | _, _ => false

/-- Coherence (R245), and the order of the lanes of one instruction at a common byte (R238). -/
def Candidate.coherent (c : Candidate) : Bool :=
  (c.pairsThat (fun i a j b => i != j &&
    ((a.before b && a.dom == b.dom && !(a.dom == .bu && a.effect == .read && b.effect == .read)) || c.hb i j || a.laneBefore b) &&
    !(a.shared b).all (fun byte => c.coherentAt i a j b byte))).isEmpty

/-- The relation whose cycles R246 forbids, for one domain: edges between agents join accesses of common scope. -/
def Candidate.global (c : Candidate) (d : Dom) : List (Nat × Nat) :=
  (c.ppo ++ c.orderingEdges.map (fun e => (e.src, e.tgt)) ++
    c.rf.filter (fun x =>
      match c.events[x.1]?, c.events[x.2]? with
      | some a, some b => a.agent != b.agent
      | _, _ => false) ++ c.co ++ c.fr).filter (fun x =>
    match c.events[x.1]?, c.events[x.2]? with
    | some a, some b => a.dom == d && b.dom == d && (a.agent == b.agent || c.common a b)
    | _, _ => false)

/-- Global order of SC and of TSO (R246). -/
def Candidate.globallyOrdered (c : Candidate) : Bool :=
  acyclic (c.global .sc) c.events.length && acyclic (c.global .tso) c.events.length

/-- No value appears from nothing (R247). -/
def Candidate.grounded (c : Candidate) : Bool := acyclic (c.rf ++ c.deps) c.events.length

/-- Atomicity: an atomic's write follows, in the coherence order of each byte, the write that it reads from (R248). -/
def Candidate.atomic (c : Candidate) : Bool :=
  c.ids.all (fun i =>
    match c.events[i]? with
    | some e => !e.isAtomic || (List.range e.bytes).all (fun k =>
        match c.sourceOf i (e.base + k) with
        | some w => c.rank (e.base + k) (some i) == c.rank (e.base + k) w + 1
        | none => false)
    | none => false)

/-- The execution is allowed: it meets every axiom (R238-R248). -/
def Candidate.allowed (c : Candidate) : Bool :=
  c.wf && c.causal && c.coherent && c.globallyOrdered && c.grounded && c.atomic

/-! The litmus outcomes of R249. Party `n` is one lane of a module; x is at address 0 and y at address 8, both 32 bits. -/

/-- A party: lanes of different dies, clusters and teams of one module. -/
def party (n : Nat) : Agent := { id := n, kind := .lane, module := 0, die := n, cluster := n, team := n }

/-- A plain 32-bit access of a party at package scope. -/
def plain (n pos : Nat) (effect : Effect) (d : Dom) (base : Nat) : Event :=
  { agent := party n, pos, effect, dom := d, scope := .pkg, base, bytes := 4 }

/-- A candidate from its accesses, the write (or none) that each read reads, and the writes of each word in order. -/
def outcome (events : List Event) (reads : List (Nat × Nat × Option Nat)) (writes : List (Nat × List Nat)) : Candidate where
  events := events
  sources := reads.flatMap (fun x => (List.range 4).map (fun k => { read := x.1, byte := x.2.1 + k, write := x.2.2 }))
  order := writes.flatMap (fun x => (List.range 4).map (fun k => (x.1 + k, x.2)))

/-- SB: both reads return 0. -/
def sb (d : Dom) : Candidate :=
  outcome [plain 0 0 .write d 0, plain 0 2 .read d 8, plain 1 0 .write d 8, plain 1 2 .read d 0]
    [(1, 8, none), (3, 0, none)] [(0, [0]), (8, [2])]

/-- MP: the flag is read and the data is not; with `data`, the data is read too. -/
def mp (d : Dom) (data : Bool) : Candidate :=
  outcome [plain 0 0 .write d 0, plain 0 2 .write d 8, plain 1 0 .read d 8, plain 1 2 .read d 0]
    [(2, 8, some 1), (3, 0, if data then some 0 else none)] [(0, [0]), (8, [1])]

/-- LB: both reads return 1. -/
def lb (d : Dom) : Candidate :=
  outcome [plain 0 0 .read d 0, plain 0 2 .write d 8, plain 1 0 .read d 8, plain 1 2 .write d 0]
    [(0, 0, some 3), (2, 8, some 1)] [(0, [3]), (8, [1])]

/-- IRIW: two readers see the two writes in different orders. -/
def iriw (d : Dom) : Candidate :=
  outcome [plain 0 0 .write d 0, plain 1 0 .write d 8, plain 2 0 .read d 0, plain 2 2 .read d 8, plain 3 0 .read d 8,
      plain 3 2 .read d 0]
    [(2, 0, some 0), (3, 8, none), (4, 8, some 1), (5, 0, none)] [(0, [0]), (8, [1])]

/-- WRC: a write that one party saw is missing for a party that it signalled. -/
def wrc (d : Dom) : Candidate :=
  outcome [plain 0 0 .write d 0, plain 1 0 .read d 0, plain 1 2 .write d 8, plain 2 0 .read d 8, plain 2 2 .read d 0]
    [(1, 0, some 0), (3, 8, some 2), (4, 0, none)] [(0, [0]), (8, [2])]

/-- The five outcomes of the table for a domain. -/
def outcomes (d : Dom) : List Candidate := [sb d, mp d false, lb d, iriw d, wrc d]

/-- A FENCE.RC of package scope between the two accesses of each party. -/
def Candidate.fenced (c : Candidate) : Candidate :=
  { c with fences := (List.range 4).map (fun n => { lanes := [(party n, 1)], barrier := .fence .rc, scope := .pkg }) }

/-- Every write a release, every read an acquire. -/
def Candidate.releasing (c : Candidate) : Candidate :=
  { c with events := c.events.map (fun e => { e with release := e.isWrite, acquire := e.isRead }) }

/-- The tile and flag of R249: x is stored in BU, f released and acquired in RC at a scope, with or without each side's
bridge; f reads 1 and x reads 0. -/
def tileFlag (bridgeA bridgeB : Bool) (s : Scope) : Candidate :=
  { outcome [plain 0 0 .write .bu 0, { plain 0 2 .write .rc 8 with release := true, scope := s },
        { plain 1 0 .read .rc 8 with acquire := true, scope := s }, plain 1 2 .read .bu 0]
      [(2, 8, some 1), (3, 0, none)] [(0, [0]), (8, [1])] with
    fences := (if bridgeA then [{ lanes := [(party 0, 1)], barrier := .bridge .bu .rc, scope := .pkg }] else []) ++
      (if bridgeB then [{ lanes := [(party 1, 1)], barrier := .bridge .rc .bu, scope := .pkg }] else []) }

/-- Lane `n` of the warp of a party. -/
def laneOf (p n : Nat) : Agent := { party p with id := 100 * (p + 1) + n }

/-- The tile copy of R290 in two lanes, 0 and 3: each producer lane stores a unit of 16 bytes in BU, lane 0 releases the flag at
`sp`; each consumer lane acquires it at `sc` and loads its unit. With `stale`, lane 3's load reads zero (R291, R292). -/
def tileCopy (bridgeP bridgeC stale : Bool) (sp sc : Scope) : Candidate :=
  let lanes (p : Nat) : List (Agent × Nat) := [(laneOf p 0, 1), (laneOf p 3, 1)]
  let unit (p n : Nat) (e : Effect) (pos : Nat) : Event :=
    { agent := laneOf p n, pos, effect := e, dom := .bu, scope := .pkg, base := 16 * n, bytes := 16 }
  let flag (p n : Nat) (e : Effect) (pos : Nat) (s : Scope) : Event :=
    { agent := laneOf p n, pos, effect := e, dom := .rc, scope := s, base := 64, bytes := 4,
      release := e == .write, acquire := e == .read }
  { events := [unit 0 0 .write 0, unit 0 3 .write 0, flag 0 0 .write 2 sp, flag 1 0 .read 0 sc, flag 1 3 .read 0 sc,
      unit 1 0 .read 2, unit 1 3 .read 2]
    fences := (if bridgeP then [{ lanes := lanes 0, barrier := .bridge .bu .rc, scope := .pkg }] else []) ++
      (if bridgeC then [{ lanes := lanes 1, barrier := .bridge .rc .bu, scope := .pkg }] else [])
    sources := (List.range 4).map (fun k => { read := 3, byte := 64 + k, write := some 2 }) ++
      (List.range 4).map (fun k => { read := 4, byte := 64 + k, write := some 2 }) ++
      (List.range 16).map (fun k => { read := 5, byte := k, write := some 0 }) ++
      (List.range 16).map (fun k => { read := 6, byte := 48 + k, write := if stale then none else some 1 })
    order := (List.range 16).map (fun k => (k, [0])) ++ (List.range 16).map (fun k => (48 + k, [1])) ++
      (List.range 4).map (fun k => (64 + k, [2])) }

/-- One lane stores x in BU and loads the initial value in SC, with or without a bridge between. -/
def twoDomains (bridged : Bool) : Candidate :=
  { outcome [plain 0 0 .write .bu 0, plain 0 2 .read .sc 0] [(1, 0, none)] [(0, [0])] with
    fences := if bridged then [{ lanes := [(party 0, 1)], barrier := .bridge .bu .sc, scope := .team }] else [] }

/-- Three parties, the first two of one cluster: the first write is at a scope that may leave out the third (R249). -/
def narrow (s : Scope) : Candidate :=
  let b : Agent := { party 1 with die := 0, cluster := 0 }
  outcome [{ plain 0 0 .write .sc 0 with scope := s }, { plain 1 0 .read .sc 0 with scope := .clus, agent := b },
      { plain 1 2 .write .sc 8 with agent := b }, plain 2 0 .read .sc 8, plain 2 2 .read .sc 0]
    [(1, 0, some 0), (3, 8, some 2), (4, 0, none)] [(0, [0]), (8, [2])]

end Sys2Proof.Machine.Consistency
end

