-- ==== Sys2Proof/WellFormed.lean ====
section
/-! DEFINITION. Well-formed instructions: those whose fields pass the decode checks of R47 in the largest allocation. -/

namespace Sys2Proof

/-- Every field holds a value that the instruction's entry accepts, with 255 V registers and 16 tiles. -/
def Instr.WellFormed (i : Instr) : Bool := i.legal 255 16 && i.guardOk

end Sys2Proof
end

