-- ==== Sys2Proof/Safety.lean ====
section
/-! DEFINITION. The terms that claims about the machine use: when an instruction executes, what its writes leave in the
registers and labels of its warp, and what it leaves unchanged. -/

namespace Sys2Proof.Machine

/-! ## When an instruction executes -/

/-- What the instruction in issue sees. -/
def ctxOf (i : Instr) (s : State) (n : Now) : Cx := s.cx n (i.hdr.getD default) (some i)

/-- No slice of a warp has spilled join entries (R151). -/
def Warp.unspilled (w : Warp) : Bool := (List.range 8).all (fun k => decide ((w.slice k).spilled = 0))

/-- The instruction is the one in issue and executes: its guard leaves an active lane (R15), no decode check of R47 traps,
no register that it reads is still to come from an earlier result (R24), a synchronising instruction of an Almanac launch
stands at its commit point (R279), its team is placed, and its warp has no spilled join entries. -/
def Issues (i : Instr) (s : State) (n : Now) : Bool :=
  decide (s.now = some n) && i.guardOk && decide ((ctxOf i s n).act ≠ 0) && decide ((ctxOf i s n).decodeTrap i = none) &&
  (ctxOf i s n).settled i &&
  !((ctxOf i s n).hdr.almanac && i.synchronising && !n.commit) && (Cells.find? s.teams n.team).isSome &&
  (s.warp n.team n.warp).unspilled

/-- Nothing of a strand's state is settled by itself: it is at no JOIN or REGANG, on no fault, and waits for no marker
and no trap. -/
def StrandSt.calm : StrandSt → Bool
  | .ready | .waiting _ => true
  | .held .marker | .held .trap | .atJoin | .atRegang | .onFault _ => false
  | .held _ => true

/-- A slice with empty reconvergence stack, no pending trap and calm strands. -/
def Slice.calm (x : Slice) : Bool :=
  x.recon.isEmpty && x.pending.isEmpty && decide (x.spilled = 0) && x.strands.all (fun y => y.2.st.calm)

/-- A warp whose slices are calm. -/
def Warp.calm (w : Warp) : Bool := w.slices.all (fun k => k.2.calm)

/-- The issuing strands: each in one of the eight slices, alone there, with some lane; no two in one slice. -/
def Warp.alone (w : Warp) (units : List (Nat × Nat)) : Bool :=
  decide ((units.map (·.1)).Nodup) &&
  units.all (fun u => decide (u.1 < 8) && (match (w.slice u.1).strands with
    | [y] => y.1 == u.2 && decide (y.2.mask ≠ 0)
    | _ => false))

/-- The warp is calm, the issuing strands stand alone, and the instruction carries no switch marker. -/
def Steady (i : Instr) (s : State) (n : Now) : Bool :=
  (s.warp n.team n.warp).calm && (s.warp n.team n.warp).alone n.units && !(i.hdr.getD default).s

/-- Every lane of the issuing strands is active. -/
def Cx.whole (c : Cx) : Bool :=
  c.n.units.all (fun u => decide (laneMask u.1 c.act = (c.warp.strand u.1 u.2).mask))

/-- An issuing strand after its issue, its issue counted. -/
def movedStrand (s : State) (n : Now) (u : Nat × Nat) : Strand :=
  let x := (s.warp n.team n.warp).strand u.1 u.2
  { x with last := s.cycle, run := x.run + 1, mark := false, st := .ready }

/-- The same at the next instruction: PC + 8, or the first word of its live loop (R17, R117). -/
def nextStrand (s : State) (n : Now) (u : Nat × Nat) : Strand :=
  let x := ((s.warp n.team n.warp).strand u.1 u.2).seqNext
  { movedStrand s n u with pc := x.1, loop := x.2.1, buf := x.2.2 }

/-! ## What writes leave -/

/-- The value that a write gives a register in a lane, if it writes it. -/
def Wr.valueAt (x : Wr) (r : Reg) (lane : Nat) : Option DWord :=
  if x.none || x.reg != r then Option.none
  else x.vals.foldl (fun o y => if y.1 = lane then some y.2 else o) Option.none

/-- The value of a register in a lane after writes, the last one deciding. -/
def valueAfter (wr : List Wr) (r : Reg) (lane : Nat) (old : DWord) : DWord :=
  wr.foldl (fun o x => (x.valueAt r lane).getD o) old

/-- The label of a register after writes (R26): a write by the full gang in all 32 lanes replaces it, another widens it;
each brings the label of its sources, the guard's and the floor. -/
def labelAfter (c : Cx) (wr : List Wr) (r : Reg) (old : Label) : Label :=
  wr.foldl (fun l x =>
    if x.none || x.reg != r then l
    else if c.full && x.lanes = 0xFFFFFFFF#32 then x.lab ||| c.ambient
    else l ||| (x.lab ||| c.ambient)) old

/-- The registers and labels of a warp after writes: the named lanes of the named registers hold the values given, every
other lane of every register what it held before, and labels follow R26. -/
def RegsAfter (c : Cx) (wr : List Wr) (a b : Warp) : Prop :=
  (∀ r l, l < 32 → Cells.get b.v (r * 32 + l) =
    (valueAfter wr (.v r) l ((Cells.get a.v (r * 32 + l)).setWidth 64)).setWidth 32) ∧
  (∀ r l, l < 32 → (Cells.get b.p r).getLsbD l =
    (valueAfter wr (.p r) l (if (Cells.get a.p r).getLsbD l then 1 else 0)).getLsbD 0) ∧
  (∀ r, Cells.get b.w r = valueAfter wr (.w r) 0 (Cells.get a.w r)) ∧
  (∀ r, Cells.get b.vLab r = labelAfter c wr (.v r) (Cells.get a.vLab r)) ∧
  (∀ r, Cells.get b.pLab r = labelAfter c wr (.p r) (Cells.get a.pLab r)) ∧
  (∀ r, Cells.get b.wLab r = labelAfter c wr (.w r) (Cells.get a.wLab r)) ∧
  (∀ r, Cells.get b.gLab r = labelAfter c wr (.g r) (Cells.get a.gLab r))

/-! ## What stays -/

/-- The rest of a warp: its G registers, special registers, trap registers, hash, clamp, floor, edges and commit buffer
stay; its strands, results in flight, dependencies and quantum clock move on. -/
def WarpFrame (a b : Warp) : Prop :=
  b = { a with v := b.v, p := b.p, w := b.w, vLab := b.vLab, pLab := b.pLab, wLab := b.wLab, gLab := b.gLab,
               slices := b.slices, gang := b.gang, results := b.results, deps := b.deps, qclock := b.qclock,
               atQuantum := b.atQuantum }

/-- The same where lanes may have exited. -/
def WarpFrameX (a b : Warp) : Prop := WarpFrame { a with exited := b.exited } b

/-- The rest of the machine: every other warp and team, every memory, journal, context and device stays; the issue has
ended, and lines of other modules that were read for the warp are forgotten (log 73). Every byte of device memory, of host memory and of every scratchpad reads as before. -/
def StateFrame (base t : State) (k w : Nat) : Prop :=
  t = { base.setWarp k w (t.warp k w) with now := none, nextId := t.nextId, free := t.free, remote := t.remote } ∧
  (∀ a, Cells.get t.mem a = Cells.get base.mem a) ∧ (∀ a, Cells.get t.hostMem a = Cells.get base.hostMem a) ∧
  (∀ j a, Cells.get (t.team j).scratch a = Cells.get (base.team j).scratch a)

/-- The slice of an issuing strand that stood alone in it holds the strand `p`, or none, but for the count of issues since
it was chosen, which rules 1 to 3 of R149 may restart. -/
def StrandBecomes (w : Warp) (u : Nat × Nat) (p : Option Strand) : Prop :=
  ∃ run, (w.slice u.1).strands = (p.map (fun q => (u.2, { q with run := run }))).toList

/-- The instruction answers a next state, in which its warp holds the writes over what `base` holds, and everything else is
as in `base`; in a steady warp the issuing strands stand at their next instruction. -/
def Completes (i : Instr) (s : State) (n : Now) (base : State) (wr : List Wr) : Prop :=
  ∃ t, exec i s = .next t ∧ RegsAfter (ctxOf i s n) wr (base.warp n.team n.warp) (t.warp n.team n.warp) ∧
    WarpFrame (base.warp n.team n.warp) (t.warp n.team n.warp) ∧ StateFrame base t n.team n.warp ∧
    (Steady i base n = true → ∀ u ∈ n.units, StrandBecomes (t.warp n.team n.warp) u (some (nextStrand base n u)))

/-- Every lane that does not go on plainly branches, exits or returns from its handler: none traps or faults. -/
def plainEnds (ends : List (Nat × LaneEnd)) : Bool :=
  ends.all (fun x => match x.2 with
    | .goto _ | .exit | .resume _ => true
    | .trap _ _ | .fault _ => false)

/-- The instruction answers a next state: its issuing strands, each alone in its slice, become the strands that `part`
gives, the lanes `gone` have exited, its warp holds the writes over what `base` holds, and everything else is as in
`base`. -/
def Moves (i : Instr) (s : State) (n : Now) (base : State) (wr : List Wr) (gone : Lanes)
    (part : Nat × Nat → Option Strand) : Prop :=
  ∃ t, exec i s = .next t ∧ RegsAfter (ctxOf i s n) wr (base.warp n.team n.warp) (t.warp n.team n.warp) ∧
    (∀ u ∈ n.units, StrandBecomes (t.warp n.team n.warp) u (part u)) ∧
    (t.warp n.team n.warp).exited = (base.warp n.team n.warp).exited ||| gone ∧
    WarpFrameX (base.warp n.team n.warp) (t.warp n.team n.warp) ∧ StateFrame base t n.team n.warp

/-! ## Shapes of results -/

/-- An integer result: a V register of each active lane, or a W register under U (R88, R93). -/
def ResultI (i : Instr) (u : Bool) (words : Nat) (d : BitVec 8) (lab : Cx → Label) (f : Cx → Nat → Nat) : Prop :=
  ∀ (s : State) (n : Now), Issues i s n = true →
    Completes i s n s
      (if u then [wWrite d (BitVec.ofNat 64 (f (ctxOf i s n) 0)) (lab (ctxOf i s n))]
       else vWrites d words ((ctxOf i s n).lanesA.map (fun l => (l, f (ctxOf i s n) l))) (lab (ctxOf i s n)))

/-- Writes of registers, given what the issue sees. -/
def ResultR (i : Instr) (wr : Cx → List Wr) : Prop :=
  ∀ (s : State) (n : Now), Issues i s n = true → Completes i s n s (wr (ctxOf i s n))

/-- The sticky flags of each active lane gain the flags of its result (R20, R73). -/
def flagged (s : State) (n : Now) (c : Cx) (f : Nat → Nat × Flags) : State :=
  s.onWarp n.team n.warp (fun w =>
    { w with fpflags := c.lanesA.foldl (fun m l => Cells.modify m l (· ||| (f l).2)) w.fpflags })

/-- A floating result: while no active lane's flags meet an enabled trap (R73), each lane's result is written and its
sticky flags gain those it raised. -/
def ResultF (i : Instr) (f : Cx → Nat → Nat × Flags) (wr : Cx → List (Nat × Nat) → List Wr) : Prop :=
  ∀ (s : State) (n : Now), Issues i s n = true →
    (∀ l ∈ (ctxOf i s n).lanesA, (ctxOf i s n).trapping (f (ctxOf i s n) l).2 = false) →
    Completes i s n (flagged s n (ctxOf i s n) (f (ctxOf i s n)))
      (wr (ctxOf i s n) ((ctxOf i s n).lanesA.map (fun l => (l, (f (ctxOf i s n) l).1))))

/-- The floating result of a V register, pair or quad. -/
def ResultFV (i : Instr) (d : BitVec 8) (words : Nat) (lab : Cx → Label) (f : Cx → Nat → Nat × Flags) : Prop :=
  ResultF i f (fun c vals => vWrites d words vals (lab c))

/-- The machine answers the state in which the instruction in issue has ended with the effect given. -/
def Finishes (i : Instr) (s : State) (n : Now) (e : Eff) : Prop :=
  exec i s = .next ((ctxOf i s n).finish i.needsFull e)

/-! ## Results in flight, waits, accesses -/

/-- The result that an instruction leaves in flight last. -/
def Leaves (i : Instr) (s : State) (n : Now) (r : Result) : Prop :=
  ∃ t, exec i s = .next t ∧ (t.warp n.team n.warp).results.getLast? = some r

/-- The instruction is over, and its strands wait at the next one. -/
def Parks (i : Instr) (s : State) (n : Now) (base : State) (st : StrandSt) : Prop :=
  Moves i s n base [] 0 (fun u => some { nextStrand base n u with st := st })

/-- The strands stay at the instruction in a wait or hold. -/
def Stays (i : Instr) (s : State) (n : Now) (base : State) (st : StrandSt) : Prop :=
  Moves i s n base [] 0 (fun u => some { movedStrand base n u with st := st })

/-- What an access does and carries, its number and its order apart. -/
def Access.brief (a : Access) : List Nat × Place × DWord × Nat × AccOp × Label × Dom × Scope :=
  (a.lanes, a.place, a.va, a.size, a.op, a.lab, a.dom, a.scp)

/-- Does an instruction act at its own scope and at once: its scope is within the cap (R251), and its launch neither
buffers, records nor replays? -/
def Cx.direct (c : Cx) (scp : Scope) : Bool :=
  decide (scp.rank ≤ c.s.scopeCap (c.s.context c.ctx)) && !c.hdr.almanac && !c.hdr.record && !c.hdr.replay

/-- The state with accesses queued, and nothing else changed but the queues' numbers and the warp's running hash. -/
def Queued (s t : State) (k w : Nat) : Prop :=
  t = { s.setWarp k w (t.warp k w) with accesses := t.accesses, nextId := t.nextId } ∧
  t.warp k w = { s.warp k w with hashQ := (t.warp k w).hashQ, sthash := (t.warp k w).sthash,
                                 sthashLab := (t.warp k w).sthashLab, slices := (t.warp k w).slices }

/-- An instruction of the array without the marks that overlaps leave on it. -/
def MatEnt.bare (m : MatEnt) : MatEnt := { m with torn := false, extra := 0 }

/-- Does a warp wait at a quantum's end with nothing buffered, no synchronising instruction to execute, no result in flight,
some lane that has not exited, and every strand ready? -/
def Warp.restsAt (w : Warp) (clock : Nat) : Bool :=
  w.atEnd clock && w.cbuf.isEmpty && w.sync.isNone && w.results.isEmpty && w.exited != 0xFFFFFFFF#32 &&
  w.allStrands.all (fun x => x.2.2.st == .ready)

/-- Do all places lie on this module? -/
def localSpots (xs : List Spot) : Bool := xs.all (fun y => !y.place.remote)

/-- Host memory stays, but for halves held dirty that leave their home slice for another line: their data goes back to the
host (R219, R413). -/
def HostKept (a b : State) : Prop :=
  ∀ p, Cells.get a.hostMem p = Cells.get b.hostMem p ∨
    (Cells.get b.hostHalves (p / 64) = .dirty ∧ Cells.get a.hostMem p = Cells.get b.hostData p)

/-- Every byte of device memory, host memory and every scratchpad reads alike. -/
def SameBytes (a b : State) : Prop :=
  (∀ p, Cells.get a.mem p = Cells.get b.mem p) ∧ (∀ p, Cells.get a.hostMem p = Cells.get b.hostMem p) ∧
  (∀ j p, Cells.get (a.team j).scratch p = Cells.get (b.team j).scratch p)

/-- Every byte of device memory and of every scratchpad reads alike, and host memory but for dirty halves that went back. -/
def SameHome (a b : State) : Prop :=
  (∀ p, Cells.get a.mem p = Cells.get b.mem p) ∧ HostKept a b ∧
  (∀ j p, Cells.get (a.team j).scratch p = Cells.get (b.team j).scratch p)

/-- A write of device memory: every other byte of device memory and of every scratchpad stays, host memory but for dirty halves
that went back, and its frame's label alone is widened (R28). -/
def WroteDev (s t : State) (pa n : Nat) (lab : Label) : Prop :=
  (∀ p, p < pa ∨ pa + n ≤ p → Cells.get t.mem p = Cells.get s.mem p) ∧
  (∀ f, Cells.get t.frameLab f = if f = pa / 4096 then Cells.get s.frameLab f ||| lab else Cells.get s.frameLab f) ∧
  HostKept t s ∧
  (∀ j p, Cells.get (t.team j).scratch p = Cells.get (s.team j).scratch p)

/-- A write of device memory by the host: every other byte of device memory and of every scratchpad stays, host memory but for
dirty halves that went back, and each frame that it reaches gains the origin of the window that holds it, no other (R411). -/
def HostWrote (s t : State) (pa n : Nat) : Prop :=
  (∀ p, p < pa ∨ pa + n ≤ p → Cells.get t.mem p = Cells.get s.mem p) ∧
  (∀ f, Cells.get t.frameLab f = if f = pa / 4096 ∨ (pa / 4096 < f ∧ 4096 * f < pa + n) then
      Cells.get s.frameLab f ||| s.windowOrigin (pa + 4096 * (f - pa / 4096)) else Cells.get s.frameLab f) ∧
  HostKept t s ∧
  (∀ j p, Cells.get (t.team j).scratch p = Cells.get (s.team j).scratch p)

/-! ## Host commands -/

/-- Does a port process a command at once: ports are open, this one exists, is not stopped and holds nothing before it, the
command is of a type that it takes, keeps its layout and its operands' ranges, and the journal has room (R187-R191, R197,
R373)? -/
def Takes (s : State) (fn : Fn) (c : BitVec 512) : Bool :=
  s.power.portsOpen && s.hasPort fn && !s.portHeld fn && (s.port fn.port).queue.isEmpty && portTakes fn c && commonOk c && operandsOk fn c &&
  s.journalRoom fn.port

/-- The state with a command's journal entry, Accepted (R195). -/
def State.recorded (s : State) (fn : Fn) (c : BitVec 512) : State :=
  s.journalAdd fn.port
    { seq := 0, time := s.nanos, type := cmdType c, st := .accepted, status := .ok, tag := cmdTag c,
      ctx := if namesContext (cmdType c) then cmdNum c else 0, operands := cmdOperands c }

/-- The machine goes on, and CMDSTAT shows the command's tag and status (R187). -/
def Answers (i : Instr) (s t : State) (fn : Fn) (c : BitVec 512) (st : Status) : Prop :=
  exec i s = .next t ∧ (t.port fn.port).tag = cmdTag c ∧ (t.port fn.port).status = st

/-- The command's entry stands in the journal, in a state and with a status (R195, R196). -/
def Recorded (s t : State) (fn : Fn) (c : BitVec 512) (js : JState) (st : Status) : Prop :=
  ∃ e ∈ (t.port fn.port).journal, e.seq = (s.port fn.port).tail ∧ e.st = js ∧ e.status = st ∧ e.type = cmdType c ∧
    e.tag = cmdTag c ∧ e.operands = cmdOperands c

end Sys2Proof.Machine
end

