-- ==== Sys2Proof/Certificates/Slice0/Obligations.lean ====
section
/-! DEFINITION. The statements about the machine, from the numbered rules of the spec. -/

open Sys2Proof Sys2Proof.Machine

/-- Integer arithmetic on registers (R92, R93, R57, R97): in every lane the exact result on the typed operand values, reduced to the
type and extended to the register; under U one result for the warp in a W register; and the 64-bit instructions. -/
def Obligations.IntegerResults : Prop :=
  (∀ (h : Hdr) (u : Bool) (t : IType) (d a b c : BitVec 8),
  ResultI (.mov h u t d a) u t.words d (fun x => x.labI u a t.words)
    (fun x l => if t = .b128 then x.vn l a.toNat 4 else intWrite t u (x.ival u t l a)) ∧
  ResultI (.iadd h u t d a b) u t.words d (fun x => x.labI u a t.words ||| x.labI u b t.words)
    (fun x l => intWrite t u (x.ival u t l a + x.ival u t l b)) ∧
  ResultI (.isub h u t d a b) u t.words d (fun x => x.labI u a t.words ||| x.labI u b t.words)
    (fun x l => intWrite t u (x.ival u t l a - x.ival u t l b)) ∧
  ResultI (.imul h u t d a b) u t.words d (fun x => x.labI u a t.words ||| x.labI u b t.words)
    (fun x l => intWrite t u (x.ival u t l a * x.ival u t l b)) ∧
  ResultI (.imulh h u t d a b) u t.words d (fun x => x.labI u a t.words ||| x.labI u b t.words)
    (fun x l => intWrite t u (x.ival u t l a * x.ival u t l b / ((2 ^ t.width : Nat) : Int))) ∧
  ResultI (.imad h u t d a b c) u t.words d
    (fun x => x.labI u a t.words ||| x.labI u b t.words ||| x.labI u c t.words)
    (fun x l => intWrite t u (x.ival u t l a * x.ival u t l b + x.ival u t l c)) ∧
  ResultI (.idiv h u t d a b) u t.words d (fun x => x.labI u a t.words ||| x.labI u b t.words)
    (fun x l => intWrite t u (if x.ival u t l b = 0 then (if t.signed then -1 else ((2 ^ t.width : Nat) : Int) - 1)
      else (x.ival u t l a).tdiv (x.ival u t l b))) ∧
  ResultI (.irem h u t d a b) u t.words d (fun x => x.labI u a t.words ||| x.labI u b t.words)
    (fun x l => intWrite t u (if x.ival u t l b = 0 then x.ival u t l a else x.ival u t l a - x.ival u t l b * (x.ival u t l a).tdiv (x.ival u t l b))) ∧
  ResultI (.imin h u t d a b) u t.words d (fun x => x.labI u a t.words ||| x.labI u b t.words)
    (fun x l => intWrite t u (min (x.ival u t l a) (x.ival u t l b))) ∧
  ResultI (.imax h u t d a b) u t.words d (fun x => x.labI u a t.words ||| x.labI u b t.words)
    (fun x l => intWrite t u (max (x.ival u t l a) (x.ival u t l b))) ∧
  ResultI (.iabs h u t d a) u t.words d (fun x => x.labI u a t.words)
    (fun x l => intWrite t u ((x.ival u t l a).natAbs : Int)) ∧
  ResultI (.sadd h u t d a b) u t.words d (fun x => x.labI u a t.words ||| x.labI u b t.words)
    (fun x l => intWrite t u (clampTo t.width t.signed (x.ival u t l a + x.ival u t l b))) ∧
  ResultI (.ssub h u t d a b) u t.words d (fun x => x.labI u a t.words ||| x.labI u b t.words)
    (fun x l => intWrite t u (clampTo t.width t.signed (x.ival u t l a - x.ival u t l b)))) ∧
  (∀ (h : Hdr) (u sx : Bool) (t : IType) (d a b c : BitVec 8),
  ResultI (.add64 h u d a b) u 2 d (fun x => x.labI u a 2 ||| x.labI u b 2)
    (fun x l => (x.iraw u 2 l a + x.iraw u 2 l b) % 2 ^ 64) ∧
  ResultI (.mad64 h u t d a b c) u 2 d (fun x => x.labI u a 1 ||| x.labI u b 1 ||| x.labI u c 2)
    (fun x l => wrap 64 (intVal 32 t.signed (x.raw32 u l a) * intVal 32 t.signed (x.raw32 u l b) + (x.iraw u 2 l c : Nat))) ∧
  ResultI (.shl64 h u d a b) u 2 d (fun x => x.labI u a 2 ||| x.labI u b 1)
    (fun x l => if x.raw32 u l b < 64 then x.iraw u 2 l a * 2 ^ x.raw32 u l b % 2 ^ 64 else 0) ∧
  ResultI (.shr64 h u sx d a b) u 2 d (fun x => x.labI u a 2 ||| x.labI u b 1)
    (fun x l => wrap 64 (intVal 64 sx (x.iraw u 2 l a) / ((2 ^ min (x.raw32 u l b) 64 : Nat) : Int))))

/-- Floating addition, subtraction, multiplication and fused multiply-add (R74, R98, R99): each element is computed exactly
from the values read, rounded once in the mode selected, and the flags raised join the lane's sticky flags. -/
def Obligations.FloatArithmeticResults : Prop :=
  ∀ (h : Hdr) (t : FType) (rm : Rnd) (r : RndSrc) (imm : BitVec 32) (d a b c : BitVec 8),
  ResultFV (.fadd h t rm r d a b) d t.words (fun x => x.labV a t.words ||| x.labV b t.words ||| x.labRnd rm r)
    (fun x l => x.fpOp t rm r l [x.fraw t l a, x.fraw t l b] addOp) ∧
  ResultFV (.fsub h t rm r d a b) d t.words (fun x => x.labV a t.words ||| x.labV b t.words ||| x.labRnd rm r)
    (fun x l => x.fpOp t rm r l [x.fraw t l a, x.fraw t l b] subOp) ∧
  ResultFV (.fmul h t rm r d a b) d t.words (fun x => x.labV a t.words ||| x.labV b t.words ||| x.labRnd rm r)
    (fun x l => x.fpOp t rm r l [x.fraw t l a, x.fraw t l b] mulOp) ∧
  ResultFV (.faddImm h imm d a) d 1 (fun x => x.labV a 1)
    (fun x l => x.fpOp .f32 .rne ⟨false, 0⟩ l [x.fraw .f32 l a, imm.toNat] addOp) ∧
  ResultFV (.fsubImm h imm d a) d 1 (fun x => x.labV a 1)
    (fun x l => x.fpOp .f32 .rne ⟨false, 0⟩ l [x.fraw .f32 l a, imm.toNat] subOp) ∧
  ResultFV (.fmulImm h imm d a) d 1 (fun x => x.labV a 1)
    (fun x l => x.fpOp .f32 .rne ⟨false, 0⟩ l [x.fraw .f32 l a, imm.toNat] mulOp) ∧
  ResultFV (.fma h t rm r d a b c) d t.words
    (fun x => x.labV a t.words ||| x.labV b t.words ||| x.labV c t.words ||| x.labRnd rm r)
    (fun x l => x.fpOp t rm r l [x.fraw t l a, x.fraw t l b, x.fraw t l c] fmaOp)

/-- Logic, shifts, bit fields and counts on registers (R92, R94, R95, R96), and the immediate forms of the integer group (R91):
type .I32, the immediate taken as a signed 32-bit value, by the logic and shift forms as bits. -/
def Obligations.LogicShiftAndImmediateResults : Prop :=
  (∀ (h : Hdr) (u : Bool) (t : IType) (tt d a b c : BitVec 8),
  ResultI (.and h u t d a b) u t.words d (fun x => x.labI u a t.words ||| x.labI u b t.words)
    (fun x l => intWrite t u ((x.iraw u t.words l a &&& x.iraw u t.words l b : Nat) : Int)) ∧
  ResultI (.or h u t d a b) u t.words d (fun x => x.labI u a t.words ||| x.labI u b t.words)
    (fun x l => intWrite t u ((x.iraw u t.words l a ||| x.iraw u t.words l b : Nat) : Int)) ∧
  ResultI (.xor h u t d a b) u t.words d (fun x => x.labI u a t.words ||| x.labI u b t.words)
    (fun x l => intWrite t u ((x.iraw u t.words l a ^^^ x.iraw u t.words l b : Nat) : Int)) ∧
  ResultI (.ttab h u t tt d a b c) u t.words d
    (fun x => x.labI u a t.words ||| x.labI u b t.words ||| x.labI u c t.words)
    (fun x l => intWrite t u ((tableOf t.width tt (x.iraw u t.words l a) (x.iraw u t.words l b) (x.iraw u t.words l c) : Nat) : Int)) ∧
  ResultI (.shl h u d a b) u 1 d (fun x => x.labI u a 1 ||| x.labI u b 1)
    (fun x l => if x.raw32 u l b < 32 then x.raw32 u l a * 2 ^ x.raw32 u l b % 2 ^ 32 else 0) ∧
  ResultI (.shr h u d a b) u 1 d (fun x => x.labI u a 1 ||| x.labI u b 1)
    (fun x l => if x.raw32 u l b < 32 then x.raw32 u l a / 2 ^ x.raw32 u l b else 0) ∧
  ResultI (.sar h u d a b) u 1 d (fun x => x.labI u a 1 ||| x.labI u b 1)
    (fun x l => wrap 32 (intVal 32 true (x.raw32 u l a) / ((2 ^ min (x.raw32 u l b) 31 : Nat) : Int))) ∧
  ResultI (.rotl h u d a b) u 1 d (fun x => x.labI u a 1 ||| x.labI u b 1)
    (fun x l => (x.raw32 u l a * 2 ^ (x.raw32 u l b % 32) + x.raw32 u l a / 2 ^ (32 - x.raw32 u l b % 32)) % 2 ^ 32) ∧
  ResultI (.bfx h u t d a b) u 1 d (fun x => x.labI u a 1 ||| x.labI u b 1)
    (fun x l => intWrite t u (bfxOf t.signed (x.raw32 u l a) (x.raw32 u l b))) ∧
  ResultI (.bfi h u d a b c) u 1 d (fun x => x.labI u a 1 ||| x.labI u b 1 ||| x.labI u c 1)
    (fun x l => bfiOf (x.raw32 u l a) (x.raw32 u l b) (x.raw32 u l c)) ∧
  ResultI (.popc h u t d a) u 1 d (fun x => x.labI u a t.words)
    (fun x l => popcOf t.width (x.iraw u t.words l a % 2 ^ t.width)) ∧
  ResultI (.clz h u t d a) u 1 d (fun x => x.labI u a t.words)
    (fun x l => clzOf t.width (x.iraw u t.words l a % 2 ^ t.width)) ∧
  ResultI (.brev h u t d a) u t.words d (fun x => x.labI u a t.words)
    (fun x l => intWrite t u ((brevOf t.width (x.iraw u t.words l a) : Nat) : Int)) ∧
  ResultI (.bperm h u d a b c) u 1 d (fun x => x.labI u a 1 ||| x.labI u b 1 ||| x.labI u c 1)
    (fun x l => bpermOf (x.raw32 u l a) (x.raw32 u l b) (x.raw32 u l c))) ∧
  (∀ (h : Hdr) (u : Bool) (imm : BitVec 32) (d a : BitVec 8),
  ResultI (.movi h u imm d) u 1 d (fun _ => 0) (fun _ _ => if u then (imm.signExtend 64).toNat else imm.toNat) ∧
  ResultI (.iaddImm h u imm d a) u 1 d (fun x => x.labI u a 1)
    (fun x l => intWrite .i32 u (x.ival u .i32 l a + imm.toInt)) ∧
  ResultI (.isubImm h u imm d a) u 1 d (fun x => x.labI u a 1)
    (fun x l => intWrite .i32 u (x.ival u .i32 l a - imm.toInt)) ∧
  ResultI (.imulImm h u imm d a) u 1 d (fun x => x.labI u a 1)
    (fun x l => intWrite .i32 u (x.ival u .i32 l a * imm.toInt)) ∧
  ResultI (.iminImm h u imm d a) u 1 d (fun x => x.labI u a 1)
    (fun x l => intWrite .i32 u (min (x.ival u .i32 l a) imm.toInt)) ∧
  ResultI (.imaxImm h u imm d a) u 1 d (fun x => x.labI u a 1)
    (fun x l => intWrite .i32 u (max (x.ival u .i32 l a) imm.toInt)) ∧
  ResultI (.saddImm h u imm d a) u 1 d (fun x => x.labI u a 1)
    (fun x l => intWrite .i32 u (clampTo 32 true (x.ival u .i32 l a + imm.toInt))) ∧
  ResultI (.andImm h u imm d a) u 1 d (fun x => x.labI u a 1)
    (fun x l => intWrite .i32 u (((x.raw32 u l a &&& imm.toNat : Nat) : Int))) ∧
  ResultI (.orImm h u imm d a) u 1 d (fun x => x.labI u a 1)
    (fun x l => intWrite .i32 u (((x.raw32 u l a ||| imm.toNat : Nat) : Int))) ∧
  ResultI (.xorImm h u imm d a) u 1 d (fun x => x.labI u a 1)
    (fun x l => intWrite .i32 u (((x.raw32 u l a ^^^ imm.toNat : Nat) : Int))) ∧
  ResultI (.shlImm h u imm d a) u 1 d (fun x => x.labI u a 1)
    (fun x l => if imm.toNat < 32 then x.raw32 u l a * 2 ^ imm.toNat % 2 ^ 32 else 0) ∧
  ResultI (.shrImm h u imm d a) u 1 d (fun x => x.labI u a 1)
    (fun x l => if imm.toNat < 32 then x.raw32 u l a / 2 ^ imm.toNat else 0) ∧
  ResultI (.sarImm h u imm d a) u 1 d (fun x => x.labI u a 1)
    (fun x l => wrap 32 (intVal 32 true (x.raw32 u l a) / ((2 ^ min imm.toNat 31 : Nat) : Int))) ∧
  ResultI (.rotlImm h u imm d a) u 1 d (fun x => x.labI u a 1)
    (fun x l => (x.raw32 u l a * 2 ^ (imm.toNat % 32) + x.raw32 u l a / 2 ^ (32 - imm.toNat % 32)) % 2 ^ 32) ∧
  ResultI (.add64Imm h u imm d a) u 2 d (fun x => x.labI u a 2)
    (fun x l => (x.iraw u 2 l a + (imm.signExtend 64).toNat) % 2 ^ 64))

/-- Floating minimum, maximum, absolute value, negation and class (R100, R101), the elementary functions, the scaled dot product,
scaling and rounding to an integral value (R75, R76, R102). -/
def Obligations.FloatExactAndFunctionResults : Prop :=
  (∀ (h : Hdr) (t : FType) (imm : BitVec 32) (d a b : BitVec 8),
  ResultFV (.fmin h t d a b) d t.words (fun x => x.labV a t.words ||| x.labV b t.words)
    (fun x l => x.fpExact t [x.fraw t l a, x.fraw t l b] (minMax2 false)) ∧
  ResultFV (.fmax h t d a b) d t.words (fun x => x.labV a t.words ||| x.labV b t.words)
    (fun x l => x.fpExact t [x.fraw t l a, x.fraw t l b] (minMax2 true)) ∧
  ResultFV (.fminImm h imm d a) d 1 (fun x => x.labV a 1)
    (fun x l => x.fpExact .f32 [x.fraw .f32 l a, imm.toNat] (minMax2 false)) ∧
  ResultFV (.fmaxImm h imm d a) d 1 (fun x => x.labV a 1)
    (fun x l => x.fpExact .f32 [x.fraw .f32 l a, imm.toNat] (minMax2 true)) ∧
  ResultFV (.fabs h t d a) d t.words (fun x => x.labV a t.words)
    (fun x l => x.fpExact t [x.fraw t l a] (absOrNeg false)) ∧
  ResultFV (.fneg h t d a) d t.words (fun x => x.labV a t.words)
    (fun x l => x.fpExact t [x.fraw t l a] (absOrNeg true)) ∧
  ResultFV (.fclass h t d a) d 1 (fun x => x.labV a t.words)
    (fun x l => (classOf t.fmt (t.elem (x.fraw t l a) 0), 0))) ∧
  (∀ (h : Hdr) (t : FType) (rm : Rnd) (r : RndSrc) (d a b c : BitVec 8),
  ResultFV (.frcp h t rm r d a) d t.words (fun x => x.labV a t.words ||| x.labRnd rm r)
    (fun x l => x.fpOp t rm r l [x.fraw t l a] (fun1 recipOp)) ∧
  ResultFV (.fsqrt h t rm r d a) d t.words (fun x => x.labV a t.words ||| x.labRnd rm r)
    (fun x l => x.fpOp t rm r l [x.fraw t l a] (fun1 sqrtOp)) ∧
  ResultFV (.frsq h t rm r d a) d t.words (fun x => x.labV a t.words ||| x.labRnd rm r)
    (fun x l => x.fpOp t rm r l [x.fraw t l a] (fun1 rsqrtOp)) ∧
  ResultFV (.fexp2 h t rm r d a) d t.words (fun x => x.labV a t.words ||| x.labRnd rm r)
    (fun x l => x.fpOp t rm r l [x.fraw t l a] (fun1 exp2Op)) ∧
  ResultFV (.flog2 h t rm r d a) d t.words (fun x => x.labV a t.words ||| x.labRnd rm r)
    (fun x l => x.fpOp t rm r l [x.fraw t l a] (fun1 log2Op)) ∧
  ResultFV (.fsin h t rm r d a) d t.words (fun x => x.labV a t.words ||| x.labRnd rm r)
    (fun x l => x.fpOp t rm r l [x.fraw t l a] (fun1 sinOp)) ∧
  ResultFV (.fcos h t rm r d a) d t.words (fun x => x.labV a t.words ||| x.labRnd rm r)
    (fun x l => x.fpOp t rm r l [x.fraw t l a] (fun1 cosOp)) ∧
  ResultFV (.fdot2 h t rm r d a b c) d 1 (fun x => x.labV a 1 ||| x.labV b 1 ||| x.labV c 1 ||| x.labRnd rm r)
    (fun x l =>
      let ins := [readIn x.ftz t.fmt (t.elem (x.fraw t l a) 0), readIn x.ftz t.fmt (t.elem (x.fraw t l b) 0),
        readIn x.ftz t.fmt (t.elem (x.fraw t l a) 1), readIn x.ftz t.fmt (t.elem (x.fraw t l b) 1),
        readIn x.ftz .f32 (x.v l c.toNat).toNat]
      let o := dotOp (x.mode rm) (ins.map (·.1))
      let z := roundTo .f32 (x.mode rm) (x.rnd rm r l 0 0) x.ftz o.1
      (z.1, z.2 ||| o.2 ||| ins.foldl (fun f i => f ||| i.2) 0)) ∧
  ResultFV (.fscale h t rm r d a b) d t.words (fun x => x.labV a t.words ||| x.labV b 1 ||| x.labRnd rm r)
    (fun x l => x.fpOp t rm r l [x.fraw t l a] (fun1 (scaleOp (x.v l b.toNat).toInt))) ∧
  ResultFV (.frint h t rm r d a) d t.words (fun x => x.labV a t.words ||| x.labRnd rm r)
    (fun x l => rintF t.fmt (x.mode rm) (x.rnd rm r l 0 0) (ftzCode x.ftz t.fmt (t.elem (x.fraw t l a) 0))))

/-- Conversions between formats and integers, block scales and codebook decoding (R103-R107). -/
def Obligations.ConversionResults : Prop :=
  ∀ (h : Hdr) (t src : FType) (ti : IType) (rm : Rnd) (r : RndSrc) (d a b : BitVec 8),
  ResultFV (.cvt h t src rm r d a) d ((cvtShape t src).getD (1, 1, 1)).2.2
    (fun x => x.labV a ((cvtShape t src).getD (1, 1, 1)).2.1 ||| x.labRnd rm r)
    (fun x l => x.convert t src rm r l ((cvtShape t src).getD (1, 1, 1)).1
      (x.vn l a.toNat ((cvtShape t src).getD (1, 1, 1)).2.1)) ∧
  ResultFV (.cvtn h ti src rm r d a) d ti.words (fun x => x.labV a src.words ||| x.labRnd rm r)
    (fun x l =>
      let y := toInteger ti (x.mode rm) (x.rnd rm r l 0 0) (readIn x.ftz src.fmt (src.elem (x.fraw src l a) 0)).1
      (intWrite ti false y.1, y.2)) ∧
  ResultFV (.cvtw h t ti rm r d a) d t.words (fun x => x.labV a ti.words ||| x.labRnd rm r)
    (fun x l => roundTo t.fmt (x.mode rm) (x.rnd rm r l 0 0) x.ftz
      (.num (decide (x.ival false ti l a < 0)) (x.ival false ti l a).natAbs 0)) ∧
  ResultFV (.scfit h t d a) d 1 (fun x => x.labV a 1) (fun x l => scfitOf x.ftz t.maxValue (x.v l a.toNat).toNat) ∧
  ResultFV (.scapp h t rm r d a b) d 1 (fun x => x.labV a 4 ||| x.labV b 1 ||| x.labRnd rm r)
    (fun x l => packElems ((List.range 4).map (fun k =>
      let i := readIn x.ftz .f32 (x.vn l a.toNat 4 >>> (32 * k) % 2 ^ 32)
      let q := quotient i.1 ((x.v l b.toNat).toNat % 4096)
      let y := roundTo t.fmt (x.mode rm) (x.rnd rm r l k (8 * k)) x.ftz q.1
      (y.1, y.2 ||| q.2 ||| i.2))) t.stride) ∧
  ResultFV (.cbdec h d a) d 4
    (fun x => x.labV a 1 ||| (x.s.team x.n.team).codebookLab ||| x.warp.earlyLab codebookReg)
    (fun x l =>
      if x.warp.early codebookReg l then ((x.free (9000 + 2 * l + 1) ++ x.free (9000 + 2 * l)).toNat, 0)
      else (cbQuad (Cells.readLE (x.s.team x.n.team).codebook (4 * ((x.v l a.toNat).toNat % 65536 / 256)) 4)
        ((x.v l a.toNat).toNat % 65536), 0))

/-- Comparisons, selection and predicate instructions (R108-R111), and the election of a lane (R175). -/
def Obligations.ComparisonAndPredicateResults : Prop :=
  ∀ (h : Hdr) (k : Cmp) (t : IType) (ft : FType) (tt d a b : BitVec 8) (p q r o : BitVec 3),
  ResultR (.icmp h k t p a b q) (fun x => [pWrite p.toNat (x.lanesA.map (fun l => (l, cmpInt k (x.ival false t l a) (x.ival false t l b) && x.p l q.toNat))) (x.labV a t.words ||| x.labV b t.words ||| x.labP q.toNat)]) ∧
  ResultF (.fcmp h k ft p a b q)
    (fun x l =>
      let v := readIn x.ftz ft.fmt (ft.elem (x.fraw ft l a) 0)
      let w := readIn x.ftz ft.fmt (ft.elem (x.fraw ft l b) 0)
      let y := cmpFlt k v.1 w.1
      ((y.1 && x.p l q.toNat).toNat, v.2 ||| w.2 ||| (if y.2 && (v.1.isNan || w.1.isNan) then flagIV else 0)))
    (fun x vals => [pWrite p.toNat (vals.map (fun v => (v.1, v.2 != 0)))
      (x.labV a ft.words ||| x.labV b ft.words ||| x.labP q.toNat)]) ∧
  ResultR (.sel h t d a b q) (fun x => vWrites d t.words
      (x.lanesA.map (fun l => (l, if x.p l q.toNat then x.vn l a.toNat t.words else x.vn l b.toNat t.words)))
      (x.labV a t.words ||| x.labV b t.words ||| x.labP q.toNat)) ∧
  ResultR (.plog h tt p q r o) (fun x => [pWrite p.toNat (x.lanesA.map (fun l => (l, tt.getLsbD ((x.p l q.toNat).toNat + 2 * (x.p l r.toNat).toNat + 4 * (x.p l o.toNat).toNat)))) (x.labP q.toNat ||| x.labP r.toNat ||| x.labP o.toNat)]) ∧
  ResultR (.pmov h .move d a) (fun x => [pWrite d.toNat (x.lanesA.map (fun l => (l, x.p l a.toNat))) (x.labP a.toNat)]) ∧
  ResultR (.pmov h .toV d a) (fun x => vWrites d 1
      (x.lanesA.map (fun l => (l, (List.range 7).foldl (fun y k => y + (x.p l k).toNat * 2 ^ k) 0)))
      ((List.range 7).foldl (fun y k => y ||| x.labP k) 0)) ∧
  ResultR (.pmov h .fromV d a) (fun x => (List.range 7).map (fun k =>
      pWrite k (x.lanesA.map (fun l => (l, (x.v l a.toNat).getLsbD k))) (x.labV a 1))) ∧
  ResultR (.elect h p) (fun x => [pWrite p.toNat (x.lanesA.map (fun l => (l, l == x.lanesA.headD 32))) (0)])

/-- Exchanges, polls, folds, groups by value and uniform moves (R171-R177). -/
def Obligations.CrosslaneResults : Prop :=
  ∀ (h : Hdr) (mode : XMode) (t : IType) (op : FoldOp) (ex : Bool) (seg n d a b : BitVec 8) (q : BitVec 3),
  ResultR (.lxch h mode t seg d a b) (fun x => vWrites d t.words (x.lanesA.map (fun l =>
      (l, x.vn (exchangeFrom mode seg.toNat (x.v l b.toNat).toNat l) a.toNat t.words))) (x.labV a t.words ||| x.labV b 1)) ∧
  ResultR (.poll h .every d q) (fun x => [pWrite d.toNat
      (x.lanesA.map (fun l => (l, (List.range 32).all (fun j => x.p j q.toNat)))) (x.labP q.toNat)]) ∧
  ResultR (.poll h .any d q) (fun x => [pWrite d.toNat
      (x.lanesA.map (fun l => (l, (List.range 32).any (fun j => x.p j q.toNat)))) (x.labP q.toNat)]) ∧
  ResultR (.poll h .same d q) (fun x => [pWrite d.toNat
      (x.lanesA.map (fun l => (l, (List.range 32).all (fun j => x.p j q.toNat == x.p 0 q.toNat)))) (x.labP q.toNat)]) ∧
  ResultR (.poll h .mask d q) (fun x => vWrites d 1 (x.lanesA.map (fun l => (l, (lanesOf ((List.range 32).filter (fun j => x.p j q.toNat))).toNat))) (x.labP q.toNat)) ∧
  ResultR (.poll h .count d q) (fun x => vWrites d 1 (x.lanesA.map (fun l => (l, ((List.range 32).filter (fun j => x.p j q.toNat)).length))) (x.labP q.toNat)) ∧
  ResultFV (.redux h op d a) d (foldWords op) (fun x => x.labV a (foldWords op))
    (fun x _ => (x.prefixes op a).getD 31 (0, 0)) ∧
  ResultFV (.scan h ex op d a) d (foldWords op) (fun x => x.labV a (foldWords op))
    (fun x l => if ex then (if l = 0 then (foldIdentity op, 0) else (x.prefixes op a).getD (l - 1) (0, 0))
      else (x.prefixes op a).getD l (0, 0)) ∧
  ResultR (.kin h .mask t d a) (fun x => vWrites d 1 (x.lanesA.map (fun l =>
      (l, (lanesOf ((List.range 32).filter (fun j => x.vn j a.toNat t.words == x.vn l a.toNat t.words))).toNat)))
      (x.labV a t.words)) ∧
  ResultR (.kin h .whole t d a) (fun x => [pWrite d.toNat (x.lanesA.map (fun l =>
      (l, (List.range 32).all (fun j => x.vn j a.toNat t.words == x.vn 0 a.toNat t.words)))) (x.labV a t.words)]) ∧
  ResultR (.kin h .lead t d a) (fun x => vWrites d 1 (x.lanesA.map (fun l =>
      (l, ((List.range 32).filter (fun j => x.vn j a.toNat t.words == x.vn l a.toNat t.words)).headD l)))
      (x.labV a t.words)) ∧
  ResultR (.umov h .toW n d a) (fun x => [wWrite d ((x.v n.toNat a.toNat).setWidth 64) (x.labV a 1)]) ∧
  ResultR (.umov h .toW64 n d a) (fun x => [wWrite d (x.v2 n.toNat a.toNat) (x.labV a 2)]) ∧
  ResultR (.umov h .toV n d a) (fun x => vWrites d 1 (x.lanesA.map (fun l => (l, (x.w a.toNat).toNat % 2 ^ 32))) (x.labW a.toNat)) ∧
  ResultR (.umov h .toV64 n d a) (fun x => vWrites d 2 (x.lanesA.map (fun l => (l, (x.w a.toNat).toNat))) (x.labW a.toNat))

/-- An instruction whose guard leaves no active lane (R15) answers a next state in which no register, no label and no byte of
memory has changed; in a steady warp its strands stand at their next instruction. -/
def Obligations.GuardFalseOnlyAdvances : Prop :=
  ∀ (i : Instr) (s : State) (n : Now), i.hdr.isSome = true → s.now = some n → i.guardOk = true →
    (ctxOf i s n).act = 0 → (Cells.find? s.teams n.team).isSome = true → (s.warp n.team n.warp).unspilled = true →
    Completes i s n s []

/-- Transfers of control in every form (R114-R122, R150, R153, R157): how each active lane ends, or what the issuing strands
wait for, and what else changes.
EXIT ends every active lane: a strand all of whose lanes were active is gone (R119). YIELD, and DOZE of no cycles, leave
the strand Ready at its next instruction; DOZE n otherwise leaves it waiting there, with the cycle it was issued in (R120,
R121). A LOOP whose count is 0 goes past its body with its loop dead (R116). -/
def Obligations.ControlInstructionsFinish : Prop :=
  (∀ (h : Hdr) (ofs imm : BitVec 32) (k d a : BitVec 8),
  (∀ (s : State) (n : Now), Issues (.bra h ofs) s n = true →
    let x := ctxOf (.bra h ofs) s n
    Finishes (.bra h ofs) s n
      { s := x.strictFloor s x.guardLab, ends := x.lanesA.map (fun l => (l, branchEnd l (n.pc + ofs.signExtend 64) (0))) }) ∧
  (∀ (s : State) (n : Now), Issues (.brx h a) s n = true →
    let x := ctxOf (.brx h a) s n
    Finishes (.brx h a) s n
      { s := x.strictFloor s (x.labV a 2 ||| x.guardLab), ends := x.lanesA.map (fun l => (l, branchEnd l (x.v2 l a.toNat) (x.labV a 2))) }) ∧
  (∀ (s : State) (n : Now), Issues (.ret h a) s n = true →
    let x := ctxOf (.ret h a) s n
    Finishes (.ret h a) s n
      { s := x.strictFloor s (x.labV a 2 ||| x.guardLab), ends := x.lanesA.map (fun l => (l, branchEnd l (x.v2 l a.toNat) (x.labV a 2))) }) ∧
  (∀ (s : State) (n : Now), Issues (.call h ofs d) s n = true →
    let x := ctxOf (.call h ofs d) s n
    Finishes (.call h ofs d) s n
      { s := x.strictFloor s x.guardLab
        ends := x.lanesA.map (fun l => (l, branchEnd l (n.pc + ofs.signExtend 64) 0))
        wr := vWrites d 2 ((x.lanesA.map (fun l => (l, branchEnd l (n.pc + ofs.signExtend 64) 0))).filterMap (fun y =>
          match y.2 with
          | .goto _ => some (y.1, (n.pc + 8).toNat)
          | _ => none)) 0 }) ∧
  (∀ (s : State) (n : Now), Issues (.exit h) s n = true →
    let x := ctxOf (.exit h) s n
    Finishes (.exit h) s n
      { s := s, ends := x.lanesA.map (fun l => (l, .exit)) }) ∧
  (∀ (s : State) (n : Now), Issues (.yield h) s n = true →
    Finishes (.yield h) s n
      { s := s, after := { yield := true } }) ∧
  (∀ (s : State) (n : Now), Issues (.doze h imm) s n = true →
    let x := ctxOf (.doze h imm) s n
    Finishes (.doze h imm) s n
      (if imm = 0 ∨ x.hdr.almanac = true then { s := s, after := { yield := true } }
       else { s := s, after := { st := .waiting (.doze s.cycle imm.toNat) } })) ∧
  (∀ (s : State) (n : Now), Issues (.regang h) s n = true →
    Finishes (.regang h) s n
      { s := s, after := { st := .atRegang, keep := true } }) ∧
  (∀ (s : State) (n : Now), Issues (.trap h imm) s n = true →
    let x := ctxOf (.trap h imm) s n
    Finishes (.trap h imm) s n
      { s := s
        ends := x.lanesA.map (fun l => (l, .trap { lane := l, cause := .software, detail := imm.setWidth 64 } true)) }) ∧
  (∀ (s : State) (n : Now), Issues (.brk h imm) s n = true →
    let x := ctxOf (.brk h imm) s n
    Finishes (.brk h imm) s n
      { s := s
        ends := x.lanesA.map (fun l => (l, .trap { lane := l, cause := .breakpoint, detail := imm.setWidth 64 } false)) }) ∧
  (∀ (s : State) (n : Now), Issues (.loop h k a) s n = true →
    let x := ctxOf (.loop h k a) s n
    let s1 := x.strictFloor s (x.labV a 1)
    let count := x.v ((laneList x.lanes).headD 0) a.toNat
    (count = 0 → Finishes (.loop h k a) s n
      { s := s1, after := { dead := true, jump := some (n.pc + BitVec.ofNat 64 (8 * (k.toNat + 1))) } }) ∧
    (count ≠ 0 →
      let r := s1.copyWords (s1.team n.team).core (s1.team n.team).ctx (n.pc + 8) k.toNat
      Finishes (.loop h k a) s n
        { s := r.1, after := { loop := some ({ live := true, count := count - 1, first := n.pc + 8,
                                               last := n.pc + BitVec.ofNat 64 (8 * k.toNat) }, r.2) } }))) ∧
  (∀ (h : Hdr) (imm : BitVec 32) (k a : BitVec 8),
  (∀ (s : State) (n : Now), Issues (.exit h) s n = true → Steady (.exit h) s n = true →
    let x := ctxOf (.exit h) s n
    x.whole = true → Moves (.exit h) s n s [] x.act
      (fun _ => none)) ∧
  (∀ (s : State) (n : Now), Issues (.yield h) s n = true → Steady (.yield h) s n = true →
    Moves (.yield h) s n s [] 0
      (fun u => some (nextStrand s n u))) ∧
  (∀ (s : State) (n : Now), Issues (.doze h imm) s n = true → Steady (.doze h imm) s n = true →
    let x := ctxOf (.doze h imm) s n
    imm = 0 ∨ x.hdr.almanac = true → Moves (.doze h imm) s n s [] 0
      (fun u => some (nextStrand s n u))) ∧
  (∀ (s : State) (n : Now), Issues (.doze h imm) s n = true → Steady (.doze h imm) s n = true →
    let x := ctxOf (.doze h imm) s n
    imm ≠ 0 → x.hdr.almanac = false → Moves (.doze h imm) s n s [] 0
      (fun u => some { nextStrand s n u with st := .waiting (.doze s.cycle imm.toNat) })) ∧
  (∀ (s : State) (n : Now), Issues (.loop h k a) s n = true → Steady (.loop h k a) s n = true →
    let x := ctxOf (.loop h k a) s n
    x.v ((laneList x.lanes).headD 0) a.toNat = 0 →
    Moves (.loop h k a) s n (x.strictFloor s (x.labV a 1)) [] 0
      (fun u => some { movedStrand s n u with
        pc := n.pc + BitVec.ofNat 64 (8 * (k.toNat + 1)), buf := []
        loop := { ((s.warp n.team n.warp).strand u.1 u.2).loop with live := false } })))

/-- A word with an unassigned opcode traps ILLEGAL_OPCODE in every active lane, with detail 0 (R47); a fetch for the issue in
progress that fails parks every lane of the issuing strands on its fault, at the PC, with access type 3 and no
instruction issued (R340, R349).
The checks of R47 before an instruction's own: a guard field that names no guard traps ILLEGAL_FIELD in every lane of the
issuing strands; then a field that the launch does not allow, or an instruction that a trap strand may not issue, traps
ILLEGAL_FIELD in every active lane; then an instruction of the full gang outside it, or with a lane inactive, traps
PARTIAL_GANG. The trap's detail is 0. -/
def Obligations.DecodeAndFetchChecksTrap : Prop :=
  (∀ (w : BitVec 64) (s : State) (n : Now), s.now = some n →
    (decode w = .ok (.illegalOpcode w) →
      exec (.illegalOpcode w) s = .next ((s.cx n (hdrOf w) none).finish false
        { s := s, ends := (s.cx n (hdrOf w) none).lanesA.map (fun l =>
          (l, .trap { lane := l, cause := .illegalOpcode } false)) })) ∧
    (∀ (u : Nat × Nat) (us : List (Nat × Nat)) (s1 : State) (k : Nat) (m : Bool), n.units = u :: us →
      s.fetchStrand (s.team n.team).core (s.team n.team).ctx ((s.warp n.team n.warp).strand u.1 u.2) = (s1, .fault k m) →
      exec .instructionFetchFault s =
        .next (({ s.cx { n with commit := true } default none with
            act := (s.cx { n with commit := true } default none).lanes } : Cx).finish false
          { s := s1
            ends := (laneList (s.cx { n with commit := true } default none).lanes).map (fun l =>
              (l, .fault { kind := k, access := 3, va := n.pc, malformed := m })) }))) ∧
  (∀ (i : Instr) (s : State) (n : Now), i.hdr.isSome = true → s.now = some n →
    (i.guardOk = false → exec i s = .next ((ctxOf i s n).finish false
      { s := s, ends := (laneList (ctxOf i s n).lanes).map (fun l => (l, .trap { lane := l, cause := .illegalField } false)) })) ∧
    (i.guardOk = true → (ctxOf i s n).act ≠ 0 → (ctxOf i s n).vetoed i = false →
      i.legal (ctxOf i s n).hdr.vregs (ctxOf i s n).hdr.tiles = false ∨ (i.notInTrap && (ctxOf i s n).inTrap) = true →
      exec i s = .next ((ctxOf i s n).finish false
        { s := s, ends := (ctxOf i s n).lanesA.map (fun l => (l, .trap { lane := l, cause := .illegalField } false)) })) ∧
    (i.guardOk = true → (ctxOf i s n).act ≠ 0 → (ctxOf i s n).vetoed i = false → i.legal (ctxOf i s n).hdr.vregs (ctxOf i s n).hdr.tiles = true →
      (i.notInTrap && (ctxOf i s n).inTrap) = false → i.needsFull = true →
      (ctxOf i s n).full = false ∨ (ctxOf i s n).act ≠ 0xFFFFFFFF#32 →
      exec i s = .next ((ctxOf i s n).finish false
        { s := s, ends := (ctxOf i s n).lanesA.map (fun l => (l, .trap { lane := l, cause := .partialGang } false)) })))

/-- In a steady warp whose issuing strands have every lane active, a branch to an aligned target below 2^60 leaves each strand
whole at that target, and CALL writes PC + 8 to its register pair (R114, R115); nothing else changes but the floor that
STRICTLABEL widens (R27).
A branch lane whose target is not a multiple of 8 traps MISALIGNED_PC, and one whose aligned target has a bit of [63:60]
set traps BAD_SPACE, each with the target as detail (R114, R17). -/
def Obligations.BranchesReachOrTrap : Prop :=
  (∀ (h : Hdr) (ofs : BitVec 32) (d a : BitVec 8) (t : DWord),
  (∀ (s : State) (n : Now), Issues (.bra h ofs) s n = true → Steady (.bra h ofs) s n = true →
    let x := ctxOf (.bra h ofs) s n
    x.whole = true → (n.pc + ofs.signExtend 64).toNat % 8 = 0 → field (n.pc + ofs.signExtend 64) 63 60 = 0 → 
    Moves (.bra h ofs) s n (x.strictFloor s x.guardLab) [] 0
      (fun u => some { movedStrand s n u with pc := n.pc + ofs.signExtend 64 })) ∧
  (∀ (s : State) (n : Now), Issues (.call h ofs d) s n = true → Steady (.call h ofs d) s n = true →
    let x := ctxOf (.call h ofs d) s n
    x.whole = true → (n.pc + ofs.signExtend 64).toNat % 8 = 0 → field (n.pc + ofs.signExtend 64) 63 60 = 0 → 
    Moves (.call h ofs d) s n (x.strictFloor s x.guardLab) (vWrites d 2 (x.lanesA.map (fun l => (l, (n.pc + 8).toNat))) 0) 0
      (fun u => some { movedStrand s n u with pc := n.pc + ofs.signExtend 64 })) ∧
  (∀ (s : State) (n : Now), Issues (.brx h a) s n = true → Steady (.brx h a) s n = true →
    let x := ctxOf (.brx h a) s n
    x.whole = true → (∀ l ∈ x.lanesA, x.v2 l a.toNat = t) →
    (t).toNat % 8 = 0 → field (t) 63 60 = 0 → Moves (.brx h a) s n (x.strictFloor s (x.labV a 2 ||| x.guardLab)) [] 0
      (fun u => some { movedStrand s n u with pc := t })) ∧
  (∀ (s : State) (n : Now), Issues (.ret h a) s n = true → Steady (.ret h a) s n = true →
    let x := ctxOf (.ret h a) s n
    x.whole = true → (∀ l ∈ x.lanesA, x.v2 l a.toNat = t) →
    (t).toNat % 8 = 0 → field (t) 63 60 = 0 → Moves (.ret h a) s n (x.strictFloor s (x.labV a 2 ||| x.guardLab)) [] 0
      (fun u => some { movedStrand s n u with pc := t }))) ∧
  (∀ (h : Hdr) (ofs : BitVec 32) (a : BitVec 8) (s : State) (n : Now),
    (Issues (.bra h ofs) s n = true → (n.pc + ofs.signExtend 64).toNat % 8 ≠ 0 →
      Finishes (.bra h ofs) s n
      { s := (ctxOf (.bra h ofs) s n).strictFloor s (ctxOf (.bra h ofs) s n).guardLab
        ends := (ctxOf (.bra h ofs) s n).lanesA.map (fun l =>
          (l, .trap { lane := l, cause := .misalignedPc, detail := n.pc + ofs.signExtend 64 } false)) }) ∧
    (Issues (.brx h a) s n = true →
      (∀ l ∈ (ctxOf (.brx h a) s n).lanesA, ((ctxOf (.brx h a) s n).v2 l a.toNat).toNat % 8 = 0 ∧
        field ((ctxOf (.brx h a) s n).v2 l a.toNat) 63 60 ≠ 0) →
      Finishes (.brx h a) s n
      { s := (ctxOf (.brx h a) s n).strictFloor s ((ctxOf (.brx h a) s n).labV a 2 ||| (ctxOf (.brx h a) s n).guardLab)
        ends := (ctxOf (.brx h a) s n).lanesA.map (fun l =>
          (l, .trap { lane := l, cause := .badSpace, detail := (ctxOf (.brx h a) s n).v2 l a.toNat,
                      lab := (ctxOf (.brx h a) s n).labV a 2 } false)) }))

/-- How a strand of a slice splits when its instruction ends (R148), unless every active lane faults: an exited lane is in no
part; a lane that branches is in a part at its target; a lane that traps is in a part held for its trap at the
instruction, one that faults in a part parked on the fault there; a lane that a TRET returns is in a part of the
interrupted strand; the other lanes are in a part at the next instruction. No lane is in two parts. -/
def Obligations.StrandsSplitByLaneEnd : Prop :=
  ∀ (k : Nat) (x : Strand) (act : BitVec 4) (h : Hdr) (wide : Bool) (ends : List (Nat × LaneEnd)) (tick : Nat) (n : Now)
    (busy : BitVec 4 → Bool), k < 8 →
    (pickLanes k (x.mask &&& ~~~(pickLanes k x.mask ends (fun e => e == some .exit))) ends
      (fun e => match e with | some (.fault _) => true | _ => false) = 0 ∨
     pickLanes k (x.mask &&& ~~~(pickLanes k x.mask ends (fun e => e == some .exit))) ends
      (fun e => match e with | some (.fault _) => true | _ => false) ≠ act) →
    let ps := partsOf k x act h wide {} ends tick n busy
    (∀ j < 4, x.mask.getLsbD j = true →
      (match endOf ends (4 * k + j) with
       | some .exit => ∀ p ∈ ps, p.mask.getLsbD j = false
       | some (.goto t) => ∃ p ∈ ps, p.mask.getLsbD j = true ∧ p.pc = t ∧ p.trap = x.trap
       | some (.trap _ _) => ∃ p ∈ ps, p.mask.getLsbD j = true ∧ p.pc = x.pc ∧ p.st = .held .trap
       | some (.fault _) => ∃ p ∈ ps, p.mask.getLsbD j = true ∧ p.pc = x.pc ∧ p.faulted = true
       | some (.resume t) => ∃ p ∈ ps, p.mask.getLsbD j = true ∧ p.pc = t ∧ p.trap = false ∧ p.loop = x.saved
       | none => ∃ p ∈ ps, p.mask.getLsbD j = true ∧ p.pc = x.seqNext.1 ∧ p.loop = x.seqNext.2.1)) ∧
    (∀ p ∈ ps, ∀ q ∈ ps, ∀ j < 4, p.mask.getLsbD j = true → q.mask.getLsbD j = true → p = q)

/-- LD and the memory form of LBRD queue one read for each active lane, change no register, no label and no byte of memory, and
leave in flight the result that will write D (R125, R132); WAITGE queues one read for each lane and parks its strands at
itself until the result returns (R268). The lanes pass every check of R258, and their places are on this module. -/
def Obligations.LoadsQueueReads : Prop :=
  ∀ (h : Hdr) (m : MemOp) (d a : BitVec 8) (s s1 : State) (n : Now) (xs : List Spot),
  (Issues (.ld h m d) s n = true → (ctxOf (.ld h m d) s n).direct m.scp = true →
    let x := ctxOf (.ld h m d) s n
    x.checkLanes s (x.checked m .read 0 false none) = (s1, xs, []) → localSpots xs = true →
    ∃ base, Completes (.ld h m d) s n base [] ∧ SameBytes base s1 ∧
      base = { s1 with accesses := base.accesses, nextId := base.nextId } ∧
      base.accesses.map Access.brief = s1.accesses.map Access.brief ++
        xs.map (fun y => ([y.lane], y.place, y.va, m.sz.bytes, .load, 0, m.dom, m.scp)) ∧
      Leaves (.ld h m d) s n
        (x.gather s1.nextId d m.sz (m.sz == .i8 || m.sz == .i16) (lanesOf (xs.map (·.lane))) (x.labA m))) ∧
  (Issues (.lbrd h .mem d a) s n = true → (ctxOf (.lbrd h .mem d a) s n).hdr.almanac = false →
    let x := ctxOf (.lbrd h .mem d a) s n
    x.checkLanes s (x.labelSpot a) = (s1, xs, []) → localSpots xs = true →
    ∃ base, Completes (.lbrd h .mem d a) s n base [] ∧ SameBytes base s1 ∧
      base = { s1 with accesses := base.accesses, nextId := base.nextId } ∧
      base.accesses.map Access.brief = s1.accesses.map Access.brief ++
        xs.map (fun y => ([y.lane], y.place, y.va, 1, .label, 0, .bu, .team)) ∧
      Leaves (.lbrd h .mem d a) s n (x.gather s1.nextId d .n16 false (lanesOf (xs.map (·.lane))) (x.labV a 2))) ∧
  (Issues (.waitge h m d a) s n = true → Steady (.waitge h m d a) s n = true →
    (ctxOf (.waitge h m d a) s n).direct m.scp = true →
    let x := ctxOf (.waitge h m d a) s n
    x.checkLanes s (x.checked m .read 0 false none) = (s1, xs, []) →
    ∃ base, Stays (.waitge h m d a) s n base (.waiting (.ge s1.nextId)) ∧ SameBytes base s1 ∧
      base = { s1 with accesses := base.accesses, nextId := base.nextId, late := base.late } ∧
      base.accesses.map Access.brief = s1.accesses.map Access.brief ++
        xs.map (fun y => ([y.lane], y.place, y.va, m.sz.bytes, .testGe (x.operand m a y.lane), 0, m.dom, m.scp)))

/-- ST and STF queue one store for each active lane with the low bytes of its register, pair or quad, and STF with a flag one
increment of it behind each; nothing is written yet, no register changes, and no result stays in flight (R126, R260, R265,
R267). The lanes pass every check of R258, and their places are on this module. -/
def Obligations.StoresQueueWrites : Prop :=
  ∀ (h : Hdr) (m : MemOp) (b c : BitVec 8) (s s1 : State) (n : Now),
  (∀ xs : List Spot, Issues (.st h m b) s n = true → (ctxOf (.st h m b) s n).direct m.scp = true →
    let x := ctxOf (.st h m b) s n
    x.checkLanes s (x.checked m .write 1 true (some (x.storeLab m b))) = (s1, xs, []) →
    ∃ base, Completes (.st h m b) s n base [] ∧ SameBytes base s1 ∧ Queued s1 base n.team n.warp ∧
      base.accesses.map Access.brief = s1.accesses.map Access.brief ++
        xs.map (fun y => ([y.lane], y.place, y.va, m.sz.bytes, .store (x.data m b y.lane), x.storeLab m b, m.dom, m.scp))) ∧
  (∀ xs : List (Spot × Option Spot), Issues (.stf h m b c) s n = true → (ctxOf (.stf h m b c) s n).direct m.scp = true →
    let x := ctxOf (.stf h m b c) s n
    x.checkLanes s (x.checkStf m c (x.storeLab m b)) = (s1, xs, []) →
    ∃ base, Completes (.stf h m b c) s n base [] ∧ SameBytes base s1 ∧ Queued s1 base n.team n.warp ∧
      base.accesses.map Access.brief = s1.accesses.map Access.brief ++
        xs.flatMap (fun y =>
          ([y.1.lane], y.1.place, y.1.va, m.sz.bytes, .store (x.data m b y.1.lane), x.storeLab m b, m.dom, m.scp) ::
          (match y.2 with
           | some f => [([f.lane], f.place, f.va, 8, .flagAdd, x.labV c 2 ||| x.labA m ||| x.ambient, m.dom, m.scp)]
           | none => [])))

/-- ATOM, CAS and RED queue one read-modify-write for each group of lanes with the same place, lanes in ascending order with
their operands (R131, R261, R262); no byte and no register changes yet, and unless D is VZ, ATOM and CAS leave in flight
the result that will write the old values to D. The lanes pass every check of R258, and their places are on this module. -/
def Obligations.AtomicsQueueGroups : Prop :=
  ∀ (h : Hdr) (m : MemOp) (op : Aop) (d b c : BitVec 8) (s s1 : State) (n : Now) (xs : List Spot), localSpots xs = true →
  (Issues (.atom h m op d b) s n = true → (ctxOf (.atom h m op d b) s n).direct m.scp = true →
    let x := ctxOf (.atom h m op d b) s n
    x.checkLanes s (x.checked m .rmw 2 false (some (x.storeLab m b))) = (s1, xs, []) →
    ∃ base, Completes (.atom h m op d b) s n base [] ∧ SameBytes base s1 ∧ Queued s1 base n.team n.warp ∧
      base.accesses.map Access.brief = s1.accesses.map Access.brief ++ (groupSpots xs).map (fun g =>
        (g.2, g.1.place, g.1.va, m.sz.bytes, .rmw op m.o (g.2.map (fun l => (l, x.operand m b l))), x.storeLab m b, m.dom, m.scp)) ∧
      (d ≠ 255 → Leaves (.atom h m op d b) s n (x.gather s1.nextId d m.sz false (lanesOf (xs.map (·.lane))) (x.labA m)))) ∧
  (Issues (.cas h m d b c) s n = true → (ctxOf (.cas h m d b c) s n).direct m.scp = true →
    let x := ctxOf (.cas h m d b c) s n
    x.checkLanes s (x.checked m .rmw 2 false (some (x.storeLab m b ||| x.labV c m.sz.words))) = (s1, xs, []) →
    ∃ base, Completes (.cas h m d b c) s n base [] ∧ SameBytes base s1 ∧ Queued s1 base n.team n.warp ∧
      base.accesses.map Access.brief = s1.accesses.map Access.brief ++ (groupSpots xs).map (fun g =>
        (g.2, g.1.place, g.1.va, m.sz.bytes, .cas (g.2.map (fun l => (l, x.operand m b l, x.operand m c l)))
          (x.labV c m.sz.words), x.storeLab m b, m.dom, m.scp)) ∧
      (d ≠ 255 → Leaves (.cas h m d b c) s n (x.gather s1.nextId d m.sz false (lanesOf (xs.map (·.lane))) (x.labA m)))) ∧
  (Issues (.red h m op b) s n = true → (ctxOf (.red h m op b) s n).direct m.scp = true →
    let x := ctxOf (.red h m op b) s n
    x.checkLanes s (x.checked m .rmw 2 false (some (x.storeLab m b))) = (s1, xs, []) →
    ∃ base, Completes (.red h m op b) s n base [] ∧ SameBytes base s1 ∧ Queued s1 base n.team n.warp ∧
      base.accesses.map Access.brief = s1.accesses.map Access.brief ++ (groupSpots xs).map (fun g =>
        (g.2, g.1.place, g.1.va, m.sz.bytes, .rmw op m.o (g.2.map (fun l => (l, x.operand m b l))), x.storeLab m b, m.dom, m.scp)))

/-- FENCE and BRIDGE leave in flight a result that returns once the earlier accesses of their lanes in the source domains are
performed, and hold later accesses of the target domains until then (R242, R263, R264); in Almanac mode they have no effect
(R278). LDPF and CMAINT write no register, touch no byte of a scratchpad and no label, and queue no access of a lane; host
memory stays but for what caches give back (R270, R271). -/
def Obligations.OrderingInstructionsComplete : Prop :=
  ∀ (h : Hdr) (all : Bool) (dom dst : Dom) (scp : Scope) (m : MemOp) (op : MaintOp) (s : State) (n : Now),
  (Issues (.fence h all dom scp) s n = true → (ctxOf (.fence h all dom scp) s n).direct scp = true →
    let x := ctxOf (.fence h all dom scp) s n
    let ds : DomSet := if all then .all else .one dom
    let ids := s.earlierIds n.team n.warp x.act ds scp
    Completes (.fence h all dom scp) s n (s.fresh.onWarp n.team n.warp (fun w =>
      if ids.isEmpty then w else { w with edges := w.edges ++ [{ lanes := x.act, reach := ds, ids := ids }] })) [] ∧
    Leaves (.fence h all dom scp) s n { id := s.nextId, lanes := x.act, full := x.full, kind := .fence ids }) ∧
  (Issues (.bridge h dom dst scp) s n = true → (ctxOf (.bridge h dom dst scp) s n).direct scp = true →
    let x := ctxOf (.bridge h dom dst scp) s n
    let ids := s.earlierIds n.team n.warp x.act (.one dom) scp
    Completes (.bridge h dom dst scp) s n (s.fresh.onWarp n.team n.warp (fun w =>
      if ids.isEmpty then w else { w with edges := w.edges ++ [{ lanes := x.act, reach := .one dst, ids := ids }] })) [] ∧
    Leaves (.bridge h dom dst scp) s n { id := s.nextId, lanes := x.act, full := x.full, kind := .fence ids }) ∧
  (Issues (.fence h all dom scp) s n = true → (ctxOf (.fence h all dom scp) s n).hdr.almanac = true →
    scp.rank ≤ s.scopeCap (s.context (s.team n.team).ctx) → Completes (.fence h all dom scp) s n s []) ∧
  (∀ i, (i = .ldpf h m ∨ i = .cmaint h m op) → Issues i s n = true → ∃ base, Completes i s n base [] ∧
    (∀ f, Cells.get base.frameLab f = Cells.get s.frameLab f) ∧ base.teams = s.teams ∧
    (base.accesses.map Access.brief).filter (fun a => a.1 != []) = (s.accesses.map Access.brief).filter (fun a => a.1 != []) ∧
    (s.cores.all (fun c => c.2.l1.all (fun l => decide (l.2.dirty = 0))) = true → HostKept base s))

/-- Where the cap of its context is below its scope, a memory instruction traps SCOPE_DENIED in every active lane under the
strict bit, with its scope as detail, and does nothing else (R251); without the strict bit FENCE completes at the cap,
with bit 0 of SR.SCOPECLAMP set.
The checks of R258 in their order: a misaligned address traps MISALIGNED_ADDR and an aligned one in no space traps
BAD_SPACE, each with the address as detail; a virtual address whose page has no valid entry parks its lane on a fault of
kind 1, one without the permission on kind 2, with the translated address (R213, R224, R258, R349). -/
def Obligations.AddressesAndScopesAreChecked : Prop :=
  (∀ (i : Instr) (scp : Scope) (s : State) (n : Now) (h : Hdr) (m : MemOp) (op : Aop) (all : Bool) (dom dst : Dom)
    (d b c : BitVec 8),
  (i = .ld h m d ∨ i = .st h m b ∨ i = .atom h m op d b ∨ i = .cas h m d b c ∨ i = .red h m op b ∨ i = .stf h m b c ∨
    i = .waitge h m d b) ∧ scp = m.scp ∨ i = .fence h all dom scp ∨ i = .bridge h dom dst scp →
  Issues i s n = true → s.scopeCap (s.context (s.team n.team).ctx) < scp.rank →
  (s.strictBit (s.context (s.team n.team).ctx) = true →
    Finishes i s n { s := s, ends := (ctxOf i s n).lanesA.map (fun l =>
      (l, .trap { lane := l, cause := .scopeDenied, detail := BitVec.ofNat 64 scp.rank } false)) }) ∧
  (s.strictBit (s.context (s.team n.team).ctx) = false → i = .fence h all dom scp →
    ∃ t, exec i s = .next t ∧ (t.warp n.team n.warp).scopeclamp = (s.warp n.team n.warp).scopeclamp ||| 1)) ∧
  (∀ (c : Cx) (s : State) (lane size align access : Nat) (va : DWord) (need : Need) (lab : Label),
  (va.toNat % align ≠ 0 → c.resolve s lane va size align need access lab =
    (s, .error (.trap { lane := lane, cause := .misalignedAddr, detail := va, lab := lab } false))) ∧
  (va.toNat % align = 0 → s.formOf c.n.team c.n.warp lane va size = .bad → c.resolve s lane va size align need access lab =
    (s, .error (.trap { lane := lane, cause := .badSpace, detail := va, lab := lab } false))) ∧
  (va.toNat % align = 0 → field va 63 57 = 0 →
    let p := c.resolve s lane va size align need access lab
    (∀ bad, (s.leafFor c.core c.ctx va.toNat need).2 = .error bad →
      p.2 = .error (.fault { kind := 1, access := access, va := va, malformed := bad, lab := lab })) ∧
    (∀ e, (s.leafFor c.core c.ctx va.toNat need).2 = .ok e →
      (need.permits e.leaf = false →
        p.2 = .error (.fault { kind := 2, access := access, va := va, lab := lab })) ∧
      (need.permits e.leaf = true → leafApt e.leaf = 0 →
        p.2 = .ok { lane := lane, va := va, place := .dev (leafAddr e va.toNat), leaf := some e.leaf }))))

/-- A translation changes no byte of memory but those of the page-table entry that its walk ends at, which gains at most the
ACCESSED and DIRTY bits (R226); teams, labels and accesses stay, and host memory but for dirty halves that leave their home
slice to make room (R219, R413). -/
def Obligations.TranslationMarksItsEntry : Prop :=
  ∀ (s : State) (core ctx : Nat) (va : DWord) (need : Need),
    let t := (s.translate core ctx va need).1
    let w := (s.walkFor core ctx va.toNat).2
    t.teams = s.teams ∧ (∀ f, Cells.get t.frameLab f = Cells.get s.frameLab f) ∧ t.accesses = s.accesses ∧ HostKept t s ∧
    (∀ a, (∀ leaf level at_, w = .ok (leaf, level, at_) → a < at_ ∨ at_ + 8 ≤ a) →
      Cells.get t.mem a = Cells.get s.mem a) ∧
    (∀ leaf level at_, w = .ok (leaf, level, at_) →
      Cells.readLE t.mem at_ 8 = Cells.readLE s.mem at_ 8 ∨
      Cells.readLE t.mem at_ 8 = Cells.readLE s.mem at_ 8 ||| 0x20 ∨
      Cells.readLE t.mem at_ 8 = Cells.readLE s.mem at_ 8 ||| 0x60)

/-- NOP only advances (R90). MEET and CMEET park their strands at the barrier (R178); EVWAIT, CHWAIT and MXWAIT go on at once
when what they wait for holds, and park their strands otherwise (R184, R322, R334). -/
def Obligations.WaitsParkOrPass : Prop :=
  ∀ (h : Hdr) (pass all : Bool) (id count k : BitVec 8) (wv : BitVec 6) (ch : BitVec 2) (t : BitVec 4) (s : State) (n : Now),
  (Issues (.nop h) s n = true → Completes (.nop h) s n s []) ∧
  (Issues (.meet h pass id count) s n = true → Steady (.meet h pass id count) s n = true →
    Parks (.meet h pass id count) s n s (.waiting (.meet false id.toNat count.toNat pass none false))) ∧
  (Issues (.cmeet h pass id count) s n = true → Steady (.cmeet h pass id count) s n = true →
    Parks (.cmeet h pass id count) s n s (.waiting (.meet true id.toNat count.toNat pass none false))) ∧
  (Issues (.evwait h k) s n = true →
    let set := (s.context (s.team n.team).ctx).events.getLsbD k.toNat
    (set = true → Completes (.evwait h k) s n s []) ∧
    (set = false → Steady (.evwait h k) s n = true → Parks (.evwait h k) s n s (.waiting (.event k.toNat)))) ∧
  (Issues (.chwait h wv ch) s n = true →
    let v := (ctxOf (.chwait h wv ch) s n).w wv.toNat
    let ptr := s.chanView n.team ch.toNat
    (v.toNat ≤ ptr.toNat → Completes (.chwait h wv ch) s n s []) ∧
    (ptr.toNat < v.toNat → Steady (.chwait h wv ch) s n = true → Parks (.chwait h wv ch) s n s (.waiting (.chan ch.toNat v)))) ∧
  (Issues (.mxwait h all t) s n = true →
    let ids := (ctxOf (.mxwait h all t) s n).warp.tileIds all t.toNat
    (ids = [] → Completes (.mxwait h all t) s n s []) ∧
    (ids ≠ [] → Steady (.mxwait h all t) s n = true → Parks (.mxwait h all t) s n s (.waiting (.matrix ids))))

/-- LAUNCH (R182): a misaligned header address traps; a header that is not valid, names more vector blocks than there are, or
finds no room answers its status in D and clears the predicate; LAUNCH.W without room parks at itself; otherwise the
launch enters the store with the next serial number of the context, ready when its wait mask holds, its journal entry is
the next of the port, and D takes the serial number in its high half. -/
def Obligations.LaunchesFromTheDevice : Prop :=
  ∀ (h : Hdr) (wait : Bool) (d a : BitVec 8) (s s0 s1 : State) (n : Now) (as : List Access) (hd : Header) (lh : Label),
  Issues (.launch h wait d a) s n = true →
  let i := Instr.launch h wait d a
  let x := ctxOf i s n
  let va := x.w a.toNat
  let lab := x.labW a.toNat
  let vf := (s1.context x.ctx).vf
  (va.toNat % 64 ≠ 0 → Finishes i s n { s := s, ends := x.lanesA.map (fun l =>
    (l, .trap { lane := l, cause := .misalignedAddr, detail := va, lab := lab } false)) }) ∧
  (va.toNat % 64 = 0 → field va 63 57 = 0 →
    s.earlierIds n.team n.warp 0xFFFFFFFF (.one .sc) .pkg = [] → (s.warp n.team n.warp).edges = [] →
    x.headerReads s va lab = (s0, .ok as) → x.askLines s0 as = none → as.find? s0.readsPoison = none →
    as.find? s0.refusedLine = none → s0.headerOf as = (s1, hd, lh) →
    (hd.valid = false → Completes i s n s1 (wWrite d 2 lab :: x.clearP x.lanesA lab)) ∧
    (hd.valid = true → 2 ≤ hd.nbv → Completes i s n s1 (wWrite d 3 lab :: x.clearP x.lanesA lab)) ∧
    (hd.valid = true → hd.nbv < 2 → s1.storeRoom vf (vf + 1) = false →
      (wait = false → Completes i s n s1 (wWrite d 1 lab :: x.clearP x.lanesA lab)) ∧
      (wait = true → Steady i s n = true → Stays i s n s1 (.waiting .launch))) ∧
    (hd.valid = true → hd.nbv < 2 → s1.storeRoom vf (vf + 1) = true → (Cells.find? s1.contexts x.ctx).isSome = true →
      ∃ base, Completes i s n base [wWrite d (BitVec.ofNat 64 ((s1.context x.ctx).serial % 2 ^ 32 * 2 ^ 32)) lab] ∧
        SameBytes base s1 ∧ base.teams = s1.teams ∧ (base.port (vf + 1)).tail = (s1.port (vf + 1)).tail + 1 ∧
        (base.context x.ctx).serial = (s1.context x.ctx).serial + 1 ∧
        (base.launch s1.nextId).hdr = hd ∧ (base.launch s1.nextId).ctx = x.ctx ∧ (base.launch s1.nextId).hdrVa = va ∧
        (base.launch s1.nextId).serial = (s1.context x.ctx).serial ∧ (base.launch s1.nextId).placed = 0 ∧
        (base.launch s1.nextId).jseq = (s1.port (vf + 1)).tail ∧
        (base.launch s1.nextId).waits = s1.arrivalIds n.team n.warp .pkg ∧
        ((base.launch s1.nextId).ready.isSome = true ↔ hd.waitMask &&& (s1.context x.ctx).events = hd.waitMask)))

/-- EVSET sets its bit of the event vector once the warp's earlier accesses are performed, and EVSET.CLR clears it at once
(R184). SPAWN stores one record for each active lane in lane order and clears the predicate in the lanes whose record
found no room (R185). BINFL makes the bins of its entry PCs start a warp (R186).
A spawn record joins the oldest bin of its team with its entry PC while that holds fewer than 64, is not stored when that
is full, and otherwise takes the lowest empty bin, whose timer starts; with no bin empty it is not stored (R159, R160). -/
def Obligations.EventsSpawnsAndFlushes : Prop :=
  (∀ (h : Hdr) (clr wait : Bool) (k a b c : BitVec 8) (s s1 : State) (n : Now),
  (Issues (.evset h clr k) s n = true → (ctxOf (.evset h clr k) s n).hdr.almanac = false → s.deferred = [] →
    (Cells.find? s.contexts (s.team n.team).ctx).isSome = true →
    clr = true ∨ (s.arrivalIds n.team n.warp .pkg).any (fun y => s.pendingAt goneTeam y.1 y.2) = false →
    ∃ base, Completes (.evset h clr k) s n base [] ∧ SameBytes base s ∧ base.teams = s.teams ∧ base.deferred = [] ∧
      (base.context (s.team n.team).ctx).events =
        (if clr then (s.context (s.team n.team).ctx).events &&& ~~~(1#256 <<< k.toNat)
         else (s.context (s.team n.team).ctx).events ||| (1#256 <<< k.toNat))) ∧
  (Issues (.evset h false k) s n = true → (ctxOf (.evset h false k) s n).hdr.almanac = false →
    (s.arrivalIds n.team n.warp .pkg).any (fun y => s.pendingAt goneTeam y.1 y.2) = true → s.deferred = [] →
    Completes (.evset h false k) s n
      { s with deferred := [{ ctx := (s.team n.team).ctx, bit := k.toNat, clr := false, team := n.team, warp := n.warp,
                              ids := s.arrivalIds n.team n.warp .pkg }] } []) ∧
  (∀ recs : List (Nat × SpawnRec), Issues (.spawn h wait a b c) s n = true →
    let x := ctxOf (.spawn h wait a b c) s n
    x.hdr.almanac = false → x.lanesA.map (fun l => (l, x.spawnRec a b c l)) = recs.map (fun r => (r.1, .ok r.2)) →
    (wait = true → s.offerAll x.core n.team recs = (s1, []) → Completes (.spawn h wait a b c) s n s1 []) ∧
    (wait = false → s.offerAll x.core n.team recs = (s1, []) → Completes (.spawn h wait a b c) s n s1 []) ∧
    (∀ r rs, wait = false → s.offerAll x.core n.team recs = (s1, r :: rs) →
      Completes (.spawn h wait a b c) s n s1 (x.clearP ((r :: rs).map (·.1)) (recsLab (r :: rs))))) ∧
  (Issues (.binfl h a) s n = true → (ctxOf (.binfl h a) s n).hdr.almanac = false →
    let x := ctxOf (.binfl h a) s n
    Completes (.binfl h a) s n (s.flushBins x.core n.team (x.lanesA.map (fun l => x.v2 l a.toNat)).eraseDups) [])) ∧
  (∀ (s : State) (core k : Nat) (r : SpawnRec),
    let same := List.find? (fun (b : Nat × Bin) => b.2.team == k && b.2.pc == r.pc && !b.2.recs.isEmpty) (s.core core).bins
    let empty := (List.range 8).find? (fun j => (Cells.get (s.core core).bins j).recs.isEmpty)
    (∀ b, same = some b → b.2.recs.length < 64 → ∃ t, s.offer core k r = some t ∧ t.teams = s.teams ∧ t.mem = s.mem ∧
      Cells.get (t.core core).bins b.1 = { b.2 with recs := b.2.recs ++ [r] } ∧
      (∀ j, j ≠ b.1 → Cells.get (t.core core).bins j = Cells.get (s.core core).bins j)) ∧
    (∀ b, same = some b → 64 ≤ b.2.recs.length → s.offer core k r = none) ∧
    (∀ j, same = none → empty = some j → ∃ t, s.offer core k r = some t ∧ t.teams = s.teams ∧ t.mem = s.mem ∧
      Cells.get (t.core core).bins j = {
        team := k, pc := r.pc, recs := [r],
        timer := if s.almanac k then none else some (s.cycle + s.power.image.binTimer) } ∧
      (∀ i, i ≠ j → Cells.get (t.core core).bins i = Cells.get (s.core core).bins i)) ∧
    (same = none → empty = none → s.offer core k r = none))

/-- SCLAIM claims a free slot while the team holds fewer than its allowance, does nothing to one the team holds, and clears the
predicate otherwise; SREL frees a slot of the team once nothing uses it, parks until then, and clears the predicate for
a slot the team does not hold (R299, R318). -/
def Obligations.SlotsClaimedAndReleased : Prop :=
  ∀ (h : Hdr) (k : BitVec 3) (s : State) (n : Now),
  let c := (s.team n.team).core
  let holder := (Cells.get (s.core c).slots k.toNat).holder
  (Issues (.sclaim h k) s n = true →
    let x := ctxOf (.sclaim h k) s n
    (holder = none → (s.core c).held n.team < x.hdr.slots →
      Completes (.sclaim h k) s n (s.onCore c (fun y =>
        { y with slots := Cells.set y.slots k.toNat { holder := some n.team } })) []) ∧
    (holder = none → x.hdr.slots ≤ (s.core c).held n.team → Completes (.sclaim h k) s n s (x.clearP x.lanesA)) ∧
    (holder = some n.team → Completes (.sclaim h k) s n s []) ∧
    (∀ j, holder = some j → j ≠ n.team → Completes (.sclaim h k) s n s (x.clearP x.lanesA))) ∧
  (Issues (.srel h k) s n = true →
    let x := ctxOf (.srel h k) s n
    let ids := ((s.core c).matrix.filter (fun m => m.readsSlot k.toNat)).map (·.id) ++
      ((s.core c).xfers.filter (fun y => y.slot == some k.toNat)).map (·.id)
    (holder ≠ some n.team → Completes (.srel h k) s n s (x.clearP x.lanesA)) ∧
    (holder = some n.team → ids = [] → Completes (.srel h k) s n (s.onCore c (fun y =>
      { y with slots := Cells.modify y.slots k.toNat (fun (o : OpSlot) => { o with holder := none }) })) []) ∧
    (holder = some n.team → ids ≠ [] → Steady (.srel h k) s n = true →
      Parks (.srel h k) s n s (.held (.srel k.toNat ids))))

/-- MMA and MSCAC enter the array's queue behind what is there, with their generators as they stand, and leave in flight the
result that the array will return (R303, R306, R319, R320); no register and no byte of memory changes. The scale words of an
MSCAC are two BU reads of its warp, or in Almanac mode are read at issue. An MMA that names
a slot its team does not hold traps SLOT_NOT_CLAIMED with the slot as detail (R319); an MSCAC address that is misaligned
or not in scratchpad traps (R320). -/
def Obligations.MatrixInstructionsQueue : Prop :=
  ∀ (h : Hdr) (z : Bool) (kq : BitVec 3) (fa fb : MFmt) (sa sb p t : BitVec 4) (ws : BitVec 8) (s : State) (n : Now),
  let c := (s.team n.team).core
  (Issues (.mma h z kq fa fb sa sb t) s n = true →
    let i := Instr.mma h z kq fa fb sa sb t
    let x := ctxOf i s n
    let named := (slotOf sa).toList ++ (slotOf sb).toList
    let gen (y : BitVec 4) : BitVec 256 := if y.toNat < 8 then 0 else x.g (y.toNat - 8)
    let lab (y : BitVec 4) : Label := if y.toNat < 8 then 0 else x.labG (y.toNat - 8)
    ((∀ j ∈ named, (Cells.get (s.core c).slots j).holder = some n.team) →
      let m : MatEnt :=
        { id := s.nextId, team := n.team, warp := n.warp, tile := t.toNat, guardLab := x.ambient,
          op := .mma z kq.toNat fa fb sa sb (gen sa) (gen sb) (lab sa) (lab sb)
            (BitVec.ofNat 32 (x.scopeKey (gen sa)), BitVec.ofNat 32 (x.scopeKey (gen sb))) }
      ∃ base, Completes i s n base [] ∧ SameBytes base s ∧
        (base.core c).matrix.map MatEnt.bare = (s.core c).matrix.map MatEnt.bare ++ [m] ∧
        ((s.core c).matrix = [] → (s.team n.team).warps.all (fun w => w.2.results.isEmpty && w.2.cbuf.isEmpty) = true →
          base.teams = s.teams ∧
          ((s.core c).xfers = [] → s.tableRaces n.team n.warp = false → (base.core c).matrix = [m])) ∧
        ∃ clash, Leaves i s n { id := s.nextId, lanes := x.act, full := x.full, kind := .matrix,
                                regs := [(.tile t.toNat, 0)], clash := clash }) ∧
    (∀ j, named.find? (fun j => (Cells.get (s.core c).slots j).holder != some n.team) = some j →
      Finishes i s n { s := s, ends := x.lanesA.map (fun l =>
        (l, .trap { lane := l, cause := .slotNotClaimed, detail := BitVec.ofNat 64 j } false)) })) ∧
  (Issues (.mscac h z ws p t) s n = true →
    let i := Instr.mscac h z ws p t
    let x := ctxOf i s n
    let a := x.w ws.toNat
    let b := x.w (ws.toNat + 1)
    (∀ ka oa kb ob, a.toNat % 2 = 0 → b.toNat % 2 = 0 →
      s.formOf n.team n.warp 0 a 128 = .scr ka oa → s.formOf n.team n.warp 0 b 128 = .scr kb ob →
      let now := x.scalesNow (.scr ka oa) (.scr kb ob)
      let m : MatEnt :=
        { id := s.nextId, team := n.team, warp := n.warp, tile := t.toNat,
          guardLab := x.ambient ||| x.labW ws.toNat ||| x.labW (ws.toNat + 1),
          op := .mscac z p.toNat a b (.scr ka oa, .scr kb ob), ready := x.buffers,
          codebook := if x.buffers then now.1 else [], codebookLab := if x.buffers then now.2 else 0 }
      ∃ base, Completes i s n base [] ∧ SameBytes base s ∧
        (base.core c).matrix.map MatEnt.bare = (s.core c).matrix.map MatEnt.bare ++ [m] ∧
        ((s.core c).matrix = [] → (s.team n.team).warps.all (fun w => w.2.results.isEmpty && w.2.cbuf.isEmpty) = true →
          base.teams = s.teams ∧ (base.core c).matrix = [m] ∧
          base.accesses.map Access.brief = s.accesses.map Access.brief ++ (if x.buffers then [] else
            [(32 :: List.range 32, .scr ka oa, a, 128, .load, 0, .bu, .team),
             (List.range 32, .scr kb ob, b, 128, .load, 0, .bu, .team)])) ∧
        ∃ clash, Leaves i s n { id := s.nextId, lanes := x.act, full := x.full, kind := .matrix, clash := clash,
                                regs := (.tile t.toNat, 0) :: (if p = t then [] else [(.tile p.toNat, 0)]) }) ∧
    (a.toNat % 2 ≠ 0 → Finishes i s n { s := s, ends := x.lanesA.map (fun l =>
      (l, .trap { lane := l, cause := .misalignedAddr, detail := a, lab := x.labW ws.toNat } false)) }))

/-- ACLR zeroes a tile; ACCRD writes a row of it, rounded to the named type, to the lanes; ACCWR writes a row from the lanes
(R323, R324). No other element and no byte of memory changes, and a result stays in flight. No array instruction that
names the tile has still to return (R321). While an ACCLD of the core has still to return, the port holds them (R321). -/
def Obligations.TilePortResults : Prop :=
  ∀ (h : Hdr) (ty : TileTy) (rm : Rnd) (row a d : BitVec 8) (t : BitVec 4) (s : State) (n : Now),
  (s.portBusy (s.team n.team).core = true → ∀ i, (i = .aclr h t ∨ i = .accrd h ty rm row t d ∨ i = .accwr h ty row t a) →
    Issues i s n = true → Steady i s n = true → Stays i s n s (.held .port)) ∧
  (s.portBusy (s.team n.team).core = false →
  (s.core (s.team n.team).core).matrix.any (fun m => m.team == n.team && m.namesTile t.toNat) = false →
  (Issues (.aclr h t) s n = true →
    let x := ctxOf (.aclr h t) s n
    ∃ base, Completes (.aclr h t) s n base [] ∧ SameBytes base s ∧
      base = s.fresh.onTeam n.team (fun m =>
        { m with tiles := (base.team n.team).tiles, tileLab := (base.team n.team).tileLab }) ∧
      (∀ e < 4096, Cells.get (base.team n.team).tiles (4096 * t.toNat + e) = 0) ∧
      (∀ e, e < 4096 * t.toNat ∨ 4096 * t.toNat + 4096 ≤ e →
        Cells.get (base.team n.team).tiles e = Cells.get (s.team n.team).tiles e) ∧
      Cells.get (base.team n.team).tileLab t.toNat = x.ambient ∧
      Leaves (.aclr h t) s n { id := s.nextId, lanes := x.act, full := x.full, kind := .done, regs := [(.tile t.toNat, 0)] }) ∧
  (Issues (.accrd h ty rm row t d) s n = true →
    let x := ctxOf (.accrd h ty rm row t d) s n
    let e (l j : Nat) : Nat :=
      tileToImage ty (x.mode rm) (Cells.get (s.team n.team).tiles (4096 * t.toNat + 64 * row.toNat + 2 * l + j))
    Completes (.accrd h ty rm row t d) s n s.fresh
      (vWrites d (tileRowWords ty) (x.lanesA.map (fun l => (l, e l 0 + e l 1 * 2 ^ (8 * tileBytes ty))))
        (Cells.get (s.team n.team).tileLab t.toNat))) ∧
  (Issues (.accwr h ty row t a) s n = true →
    let x := ctxOf (.accwr h ty row t a) s n
    let part (l j : Nat) : DWord := tileOfImage ty (x.vn l a.toNat (tileRowWords ty) >>> (8 * tileBytes ty * j) % 2 ^ (8 * tileBytes ty))
    ∃ base, Completes (.accwr h ty row t a) s n base [] ∧ SameBytes base s ∧
      base = s.fresh.onTeam n.team (fun m =>
        { m with tiles := (base.team n.team).tiles, tileLab := (base.team n.team).tileLab }) ∧
      (∀ l ∈ x.lanesA, ∀ j < 2,
        Cells.get (base.team n.team).tiles (4096 * t.toNat + 64 * row.toNat + 2 * l + j) = part l j) ∧
      (∀ e, (∀ l ∈ x.lanesA, ∀ j < 2, e ≠ 4096 * t.toNat + 64 * row.toNat + 2 * l + j) →
        Cells.get (base.team n.team).tiles e = Cells.get (s.team n.team).tiles e) ∧
      Cells.get (base.team n.team).tileLab t.toNat =
        Cells.get (s.team n.team).tileLab t.toNat ||| (x.labV a (tileRowWords ty) ||| x.ambient)))

/-- ACCST queues the stores of a tile's image to scratchpad, one for each line of 128 bytes, and ACCLD the loads of one; CBLOAD
queues the loads of the eight lines of the team's codebook (R256, R307, R325, R329). No register and no byte of memory changes yet, and a
result stays in flight until the last piece is there. -/
def Obligations.ImagesAndCodebooksMove : Prop :=
  ∀ (h : Hdr) (ty : TileTy) (rm : Rnd) (dom : Dom) (scp : Scope) (t : BitVec 4) (a : BitVec 8) (s : State) (n : Now) (k o : Nat),
  (Issues (.accst h ty rm t a) s n = true → s.portBusy (s.team n.team).core = false → (ctxOf (.accst h ty rm t a) s n).hdr.almanac = false →
    (s.core (s.team n.team).core).matrix.any (fun m => m.team == n.team && m.namesTile t.toNat) = false →
    let x := ctxOf (.accst h ty rm t a) s n
    let image (i : Nat) : Nat := (List.range (128 / tileBytes ty)).foldl (fun y j => y +
      tileToImage ty (x.mode rm) (Cells.get (s.team n.team).tiles (4096 * t.toNat + (128 / tileBytes ty * i + j))) <<<
        (8 * tileBytes ty * j)) 0
    (x.w a.toNat).toNat % 128 = 0 → s.formOf n.team n.warp 0 (x.w a.toNat) (4096 * tileBytes ty) = .scr k o →
    ∃ base, Completes (.accst h ty rm t a) s n base [] ∧ SameBytes base s ∧
      base = { s with accesses := base.accesses, nextId := base.nextId } ∧
      (base.accesses.drop s.accesses.length).map (fun y => (y.place, y.size, y.op)) =
        (List.range (32 * tileBytes ty)).map (fun i => (Place.scr k (o + 128 * i), 128, AccOp.store (BitVec.ofNat 1024 (image i))))) ∧
  (Issues (.accld h ty t a) s n = true → s.portBusy (s.team n.team).core = false → (ctxOf (.accld h ty t a) s n).hdr.almanac = false →
    (s.core (s.team n.team).core).matrix.any (fun m => m.team == n.team && m.namesTile t.toNat) = false →
    let x := ctxOf (.accld h ty t a) s n
    (x.w a.toNat).toNat % 128 = 0 → s.formOf n.team n.warp 0 (x.w a.toNat) (4096 * tileBytes ty) = .scr k o →
    ∃ base, Completes (.accld h ty t a) s n base [] ∧ SameBytes base s ∧
      base = { s with accesses := base.accesses, nextId := base.nextId } ∧
      (base.accesses.drop s.accesses.length).map (fun y => (y.place, y.size, y.op)) =
        (List.range (32 * tileBytes ty)).map (fun i => (Place.scr k (o + 128 * i), 128, AccOp.load)) ∧
      Leaves (.accld h ty t a) s n { id := s.nextId, lanes := x.act, full := x.full, regs := [(.tile t.toNat, 0)],
                                     kind := .bulk (.tile t.toNat ty) [] 0 (32 * tileBytes ty),
                                     src := x.labW a.toNat ||| x.ambient }) ∧
  (∀ (s1 : State) (lines : List Spot), Issues (.cbload h dom scp a) s n = true →
    (ctxOf (.cbload h dom scp a) s n).direct scp = true →
    let x := ctxOf (.cbload h dom scp a) s n
    let va := x.w a.toNat
    va.toNat % 128 = 0 → field va 63 60 = 0 ∨ field va 63 60 = 8 ∨ field va 63 60 = 9 →
    x.codebookLines s va dom (x.labW a.toNat) = (s1, .ok lines) → localSpots lines = true →
    ∃ base, Completes (.cbload h dom scp a) s n base [] ∧ SameBytes base s1 ∧
      base.warp n.team n.warp = s1.warp n.team n.warp ∧
      (base.accesses.drop s1.accesses.length).map (fun y => (y.place, y.size, y.op, y.dom, y.scp)) =
        lines.map (fun y => (y.place, 128, AccOp.load, dom, scp)) ∧
      Leaves (.cbload h dom scp a) s n { id := s1.nextId, lanes := x.act, full := x.full,
                                         regs := [(codebookReg, (s.team n.team).codebookLab)],
                                         kind := .bulk .codebook [] 0 8, src := x.labW a.toNat ||| x.ambient })

/-- GSET loads a G register from four W registers, and traps ILLEGAL_FIELD when a reserved field is not zero or a code is not
defined (R308, R326). GDRAW writes one drawn value to each lane (R327). GRES records a free range of rows, and answers an
overlap or a full registry with a trap or a cleared predicate (R289, R328). -/
def Obligations.GeneratorResults : Prop :=
  ∀ (h : Hdr) (raw t : Bool) (ty : FType) (g : BitVec 3) (d a b c : BitVec 8) (s : State) (n : Now),
  (Issues (.gset h g a) s n = true →
    let x := ctxOf (.gset h g a) s n
    let v := x.w (a.toNat + 3) ++ x.w (a.toNat + 2) ++ x.w (a.toNat + 1) ++ x.w a.toNat
    (gsetOk v = true → Completes (.gset h g a) s n
      (s.onWarp n.team n.warp (fun w => { w with g := Cells.set w.g g.toNat v }))
      [{ reg := .g g.toNat, vals := (List.range 32).map (fun l => (l, 0))
         lab := x.labW a.toNat ||| x.labW (a.toNat + 1) ||| x.labW (a.toNat + 2) ||| x.labW (a.toNat + 3) }]) ∧
    (gsetOk v = false → Finishes (.gset h g a) s n { s := s, ends := x.lanesA.map (fun l =>
      (l, .trap { lane := l, cause := .illegalField } false)) })) ∧
  ResultR (.gdraw h raw ty d g b c) (fun x => vWrites d (if raw then 1 else ty.words)
    (x.lanesA.map (fun l => (l,
      if raw then (purlU (x.g g.toNat) (x.scopeKey (x.g g.toNat)) (x.v l b.toNat).toNat (x.v l c.toNat).toNat).1
      else genCode ty.genFmt (x.g g.toNat) (x.scopeKey (x.g g.toNat)) (x.v l b.toNat).toNat (x.v l c.toNat).toNat)))
    (x.labG g.toNat ||| x.labV b 1 ||| x.labV c 1)) ∧
  (Issues (.gres h t g b) s n = true →
    let x := ctxOf (.gres h t g b) s n
    let v := x.g g.toNat
    let first := field (x.w b.toNat) 31 0
    let count := field (x.w b.toNat) 63 32
    let ctx := (s.team n.team).ctx
    let draws := (s.context ctx).draws
    let key : Word := BitVec.ofNat 32 (x.scopeKey v)
    let clash := draws.any (fun y => y.overlaps (BitVec.ofNat 64 (field v 63 0)) (BitVec.ofNat 32 (field v 95 64)) key first count) ||
      decide (256 ≤ draws.length)
    (first + count ≤ 2 ^ 32 → count = 0 → Completes (.gres h t g b) s n s []) ∧
    (first + count ≤ 2 ^ 32 → count ≠ 0 → clash = false → Completes (.gres h t g b) s n
      (s.onContext ctx (fun y => { y with draws := y.draws ++
        [{ seed := BitVec.ofNat 64 (field v 63 0), stream := BitVec.ofNat 32 (field v 95 64), key := key
           first := first, count := count }] })) []) ∧
    (first + count ≤ 2 ^ 32 → count ≠ 0 → clash = true →
      (t = false → Completes (.gres h t g b) s n s (x.clearP x.lanesA (x.labG g.toNat ||| x.labW b.toNat))) ∧
      (t = true → Finishes (.gres h t g b) s n { s := s, ends := x.lanesA.map (fun l =>
        (l, .trap { lane := l, cause := .generatorOverlap } false)) })) ∧
    (2 ^ 32 < first + count → Finishes (.gres h t g b) s n { s := s, ends := x.lanesA.map (fun l =>
      (l, .trap { lane := l, cause := .illegalField } false)) }))

/-- COPY onto a channel with fewer than 16 accepted transfers that have not ended, whose descriptors are legal and whose ranges pass every check of
R332, is accepted behind what is there with its ranges, flag and labels, and no byte moves yet (R330-R333); a full channel
holds its strands at it. CHRST of an idle channel sets its pointer and the team's view of it to 0, and waits for the
transfers accepted before it otherwise (R335). -/
def Obligations.ChannelInstructions : Prop :=
  ∀ (h : Hdr) (scp : Scope) (dom : Dom) (wf wd wc : BitVec 6) (shp : Shape) (ch : BitVec 2) (s : State) (n : Now),
  let c := (s.team n.team).core
  let old := s.accepted c ch.toNat
  (Issues (.copy h scp dom wf wd wc shp ch) s n = true → (ctxOf (.copy h scp dom wf wd wc shp ch) s n).direct scp = true →
    let i := Instr.copy h scp dom wf wd wc shp ch
    let x := ctxOf i s n
    let flag := x.w wf.toNat
    (16 ≤ old.length → Steady i s n = true → Stays i s n s (.held (.chan ch.toNat))) ∧
    (old.length < 16 → copyRanges shp (x.w wc.toNat) (x.w (wc.toNat + 1)) (x.w wd.toNat) (x.w (wd.toNat + 1)) = none →
      Finishes i s n { s := s, ends := x.lanesA.map (fun l => (l, .trap { lane := l, cause := .illegalField } false)) }) ∧
    (∀ (sr dr : Rows) (s1 s2 s3 : State) (sm dm fm : List (PageMap × Option DWord)), old.length < 16 →
      copyRanges shp (x.w wc.toNat) (x.w (wc.toNat + 1)) (x.w wd.toNat) (x.w (wd.toNat + 1)) = some (sr, dr) →
      flag.toNat % 8 = 0 → s.rangeOk n.team n.warp sr false = true → s.rangeOk n.team n.warp dr true = true →
      field flag 63 57 = 0 →
      (field dr.base 63 60 = 12 → (Cells.get (s.core c).slots (field dr.base 18 16)).holder = some n.team) →
      x.mapPages s sr .read 4 (x.labW wc.toNat) = (s1, .ok sm) →
      x.mapPages s1 dr .write 5 (x.labW wd.toNat) = (s2, .ok dm) →
      x.mapPages s2 { base := flag, rows := if flag = 0 then 0 else 1, stride := 0, bytes := 8 } .flag 6 (x.labW wf.toNat) =
        (s3, .ok fm) →
      (∀ y ∈ sm ++ dm, peerOf y.2 = none ∧ floorBars dom y.2 = false) → (∀ y ∈ fm, peerOf y.2 = none) →
      (∀ y ∈ dm, y.1.mask = 0xFFFF) →
      ∃ base z, Completes i s n base [] ∧ SameBytes base s3 ∧
        (Cells.get (base.core c).chans ch.toNat).xfers = (Cells.get (s.core c).chans ch.toNat).xfers ++ [z] ∧
        (Cells.get (base.core c).chans ch.toNat).ptr = (Cells.get (s.core c).chans ch.toNat).ptr ∧
        z.src = sr.base ∧ z.sstr = sr.stride ∧ z.rows = sr.rows ∧ z.rb = sr.bytes ∧ z.dst = dr.base ∧ z.dstr = dr.stride ∧
        z.flag = flag ∧ z.shape = shp ∧ z.dom = dom ∧ z.scp = scp ∧ z.team = n.team ∧ z.done = 0 ∧ z.pc = n.pc ∧
        z.srcMap = sm.map (·.1) ∧ z.dstMap = dm.map (·.1) ∧ z.flagMap = fm.map (·.1) ∧
        z.lab = x.labW wc.toNat ||| x.labW (wc.toNat + 1) ||| x.labW wd.toNat ||| x.labW (wd.toNat + 1) ||| x.ambient)) ∧
  (Issues (.chrst h ch) s n = true →
    (old = [] → ∃ base, Completes (.chrst h ch) s n base [] ∧ SameBytes base s ∧
      (Cells.get (base.core c).chans ch.toNat).ptr = 0 ∧ base.chanView n.team ch.toNat = 0) ∧
    (old ≠ [] → (∀ z ∈ old, z.stuck = false) → Steady (.chrst h ch) s n = true →
      ∃ base, Parks (.chrst h ch) s n base (.held (.chrst ch.toNat (old.map (·.id)))) ∧ SameBytes base s ∧
        base.teams = s.teams))

/-- LBRD reads the label of a register as a number, with that label (R132); LBCHK tests it against a set, into a predicate or
by a LABEL_CHECK trap in the lanes that fail (R133); LBFLOOR widens the warp's floor (R134). -/
def Obligations.LabelInstructions : Prop :=
  ∀ (h : Hdr) (k : LbKind) (d a b : BitVec 8),
  (k ≠ .mem → ResultR (.lbrd h k d a) (fun x =>
    vWrites d 1 (x.lanesA.map (fun l => (l, (x.labelOf k a).toNat))) (x.labelOf k a))) ∧
  ResultR (.lbchk h true k d a b) (fun x => [pWrite d.toNat
    (x.lanesA.map (fun l => (l, x.labelOf k a &&& ~~~((x.v l b.toNat).setWidth 16) == 0))) (x.labV b 1)]) ∧
  (∀ (s : State) (n : Now), Issues (.lbchk h false k d a b) s n = true →
    let x := ctxOf (.lbchk h false k d a b) s n
    ((∀ l ∈ x.lanesA, x.labelOf k a &&& ~~~((x.v l b.toNat).setWidth 16) = 0) →
      Completes (.lbchk h false k d a b) s n s []) ∧
    ((∀ l ∈ x.lanesA, x.labelOf k a &&& ~~~((x.v l b.toNat).setWidth 16) ≠ 0) →
      Finishes (.lbchk h false k d a b) s n { s := s, ends := x.lanesA.map (fun l =>
        (l, .trap { lane := l, cause := .labelCheck, detail := (x.labelOf k a).setWidth 64, lab := x.labelOf k a } false)) })) ∧
  (∀ (s : State) (n : Now), Issues (.lbfloor h k a) s n = true →
    let x := ctxOf (.lbfloor h k a) s n
    Completes (.lbfloor h k a) s n (s.onWarp n.team n.warp (fun w => { w with
      lbfloor := w.lbfloor ||| x.labelOf k a |||
        (if k = .v then x.lanesA.foldl (fun (l : Label) j => l ||| (x.v j a.toNat).setWidth 16) 0 else 0) })) [])

/-- SRD writes what a special register reads to each active lane, in one register or a pair (R18, R19, R135); a read of the
running hash waits at the instruction while earlier records are outstanding (R287).
SWR writes SR.TVEC and SR.TFRAME whole from lane 0's pair, and SR.FPCTL from lane 0 when the value is one it takes; it
clears the bits of SR.FPFLAGS lane by lane, and those of SR.MXSTAT and SR.SCOPECLAMP that any lane names (R19, R20, R136).
A value that SR.FPCTL does not take traps ILLEGAL_FIELD and writes nothing. STRICTLABEL widens the floor first (R27). -/
def Obligations.SpecialRegisters : Prop :=
  (∀ (h : Hdr) (r : BitVec 16) (d : BitVec 8) (s : State) (n : Now), Issues (.srd h r d) s n = true →
    let x := ctxOf (.srd h r d) s n
    (isHash r = false ∨ (s.warp n.team n.warp).hashQ = [] → Completes (.srd h r d) s n s
      (vWrites d (if r.getLsbD 15 then 2 else 1) (x.lanesA.map (fun l => (l, x.special r l)))
        (if isHash r then (s.warp n.team n.warp).sthashLab else 0))) ∧
    (isHash r = true → (s.warp n.team n.warp).hashQ ≠ [] → Steady (.srd h r d) s n = true →
      Stays (.srd h r d) s n s (.held .hash)) ∧
    (∀ l, x.special 0x0000 l = l ∧ x.special 0x0001 l = l / 4 ∧ x.special 0x0002 l = n.warp ∧
      x.special 0x0003 l = (s.hdr n.team).warps ∧ x.special 0x0020 l = (s.warp n.team n.warp).fpctl.toNat ∧
      x.special 0x8010 l = s.cycle % 2 ^ 64 ∧ x.special 0x8030 l = (s.warp n.team n.warp).tvec.toNat ∧
      x.special 0x8032 l = (s.warp n.team n.warp).tframe.toNat ∧ x.special 0x0050 l = (s.warp n.team n.warp).mxstat.toNat ∧
      x.special 0x8060 l = (s.warp n.team n.warp).sthash.toNat ∧
      x.special 0x0070 l = (s.warp n.team n.warp).scopeclamp.toNat ∧ x.special 0x0071 l = (s.warp n.team n.warp).lbfloor.toNat)) ∧
  (∀ (h : Hdr) (a : BitVec 8) (s : State) (n : Now),
  let done (r : BitVec 16) (words : Nat) (f : Cx → Warp → Warp) : Prop := Issues (.swr h r a) s n = true →
    let x := ctxOf (.swr h r a) s n
    Completes (.swr h r a) s n ((x.strictFloor s (x.labV a words)).onWarp n.team n.warp (f x)) []
  let any (x : Cx) : Word := (List.range 32).foldl (fun (m : Word) l => m ||| x.v l a.toNat) 0
  done 0x8030 2 (fun x w => { w with tvec := x.v2 0 a.toNat }) ∧
  done 0x8032 2 (fun x w => { w with tframe := x.v2 0 a.toNat }) ∧
  done 0x0030 1 (fun x w => { w with tvec := (w.tvec >>> 32).setWidth 32 ++ x.v 0 a.toNat }) ∧
  done 0x0031 1 (fun x w => { w with tvec := x.v 0 a.toNat ++ w.tvec.setWidth 32 }) ∧
  done 0x0032 1 (fun x w => { w with tframe := (w.tframe >>> 32).setWidth 32 ++ x.v 0 a.toNat }) ∧
  done 0x0033 1 (fun x w => { w with tframe := x.v 0 a.toNat ++ w.tframe.setWidth 32 }) ∧
  done 0x0050 1 (fun x w => { w with mxstat := w.mxstat &&& ~~~(any x) }) ∧
  done 0x0070 1 (fun x w => { w with scopeclamp := w.scopeclamp &&& ~~~(any x) }) ∧
  (fpctlOk ((ctxOf (.swr h 0x0020 a) s n).v 0 a.toNat) = true → done 0x0020 1 (fun x w => { w with fpctl := x.v 0 a.toNat })) ∧
  (Issues (.swr h 0x0020 a) s n = true → fpctlOk ((ctxOf (.swr h 0x0020 a) s n).v 0 a.toNat) = false →
    Finishes (.swr h 0x0020 a) s n { s := s, ends := (ctxOf (.swr h 0x0020 a) s n).lanesA.map (fun l =>
      (l, .trap { lane := l, cause := .illegalField } false)) }) ∧
  ((∀ l ∈ (ctxOf (.swr h 0x0021 a) s n).lanesA, field ((ctxOf (.swr h 0x0021 a) s n).v l a.toNat) 31 5 = 0) →
    done 0x0021 1 (fun x w => { w with fpflags := clearFlags w.fpflags (x.lanesA.map (fun l => (l, x.v l a.toNat))) })))

/-- VRDX reads and VWRX writes the V register that a lane's index names, when every index is in the allocation or VZ (R138); an
index beyond the allocation traps ILLEGAL_FIELD in its lane. ISYNC empties the loop buffers of the warp's strands (R142).
IINV leaves in flight the result that drops its ranges of lines from every instruction cache (R139). -/
def Obligations.IndexedRegistersAndCode : Prop :=
  ∀ (h : Hdr) (d a b : BitVec 8) (s : State) (n : Now),
  let inside (x : Cx) (l : Nat) : Prop := x.index a l < x.hdr.vregs ∨ x.index a l = 255
  (Issues (.vrdx h d a) s n = true →
    let x := ctxOf (.vrdx h d a) s n
    (∀ l ∈ x.lanesA, inside x l) → Completes (.vrdx h d a) s n s
      (vWrites d 1 (x.lanesA.map (fun l => (l, (x.v l (x.index a l)).toNat)))
        (x.lanesA.foldl (fun (m : Label) l => m ||| x.labV (BitVec.ofNat 8 (x.index a l)) 1) (x.labV a 1)))) ∧
  (Issues (.vrdx h d a) s n = true →
    let x := ctxOf (.vrdx h d a) s n
    (∀ l ∈ x.lanesA, ¬ inside x l) → ∃ wr, Finishes (.vrdx h d a) s n { s := s, wr := wr, ends := x.lanesA.map (fun l =>
      (l, .trap { lane := l, cause := .illegalField } false)) } ∧ ∀ y ∈ wr, y.vals = []) ∧
  (Issues (.vwrx h a b) s n = true →
    let x := ctxOf (.vwrx h a b) s n
    (∀ l ∈ x.lanesA, inside x l) → ∃ wr, Completes (.vwrx h a b) s n s wr ∧
      (∀ l ∈ x.lanesA, x.index a l ≠ 255 → ∀ old, valueAfter wr (.v (x.index a l)) l old = (x.v l b.toNat).setWidth 64) ∧
      (∀ r l old, (∀ j ∈ x.lanesA, j ≠ l ∨ x.index a j ≠ r) → valueAfter wr (.v r) l old = old) ∧
      (∀ r l old, valueAfter wr (.p r) l old = old ∧ valueAfter wr (.w r) l old = old)) ∧
  (Issues (.isync h) s n = true → Completes (.isync h) s n
    (s.onWarp n.team n.warp (fun w => w.mapStrands (fun _ y => { y with buf := [], savedBuf := [] }))) []) ∧
  (Issues (.iinv h a b) s n = true →
    let x := ctxOf (.iinv h a b) s n
    (∀ l ∈ x.lanesA, field (x.v2 l a.toNat) 63 60 = 0) →
    Completes (.iinv h a b) s n s.fresh [] ∧
    Leaves (.iinv h a b) s n { id := s.nextId, lanes := x.act, full := x.full, kind := .iinv ((x.lanesA.filter (fun l => (x.v l b.toNat).toNat != 0)).map (fun l =>
        (codeLine x.ctx (x.v2 l a.toNat).toNat,
         ((x.v2 l a.toNat).toNat + (x.v l b.toNat).toNat - 1) / 128 - (x.v2 l a.toNat).toNat / 128 + 1))) })

/-- RELEASE of a malformed region answers 4 and clears the predicate (R272); with earlier accesses outstanding it waits at
itself (R272); a region whose frames are all local gets the gate's answer, and D takes the record's number in its high half
when the gate opens (R273, R274).
The release gate opens only under a policy whose set is the union of the region's labels and lies within the context's
origins, and whose limits hold; then every frame of the region carries {DST} alone, and one release record is added.
Otherwise no label changes and no record is added (R274, R433, R434). -/
def Obligations.ReleaseAndItsGate : Prop :=
  (∀ (h : Hdr) (d a b c : BitVec 8) (s s1 : State) (n : Now) (ps : List Place), Issues (.release h d a b c) s n = true →
    let i := Instr.release h d a b c
    let x := ctxOf i s n
    let base := x.w a.toNat
    let len := (x.w b.toNat).toNat
    let lab := x.labW a.toNat ||| x.labW b.toNat ||| x.labW c.toNat
    let ids := s.earlierIds n.team n.warp 0xFFFFFFFF .all .pkg
    let bad := base.toNat % 4096 ≠ 0 ∨ len = 0 ∨ len % 4096 ≠ 0 ∨ field base 63 57 ≠ 0 ∨ 2 ^ 57 < base.toNat + len
    (bad → Completes i s n s (wWrite d 4 lab :: x.clearP x.lanesA lab)) ∧
    (¬ bad → ids.any (fun y => s.pendingAt n.team y.1 y.2) = true → Steady i s n = true →
      Stays i s n s (.held (.drain ids))) ∧
    (¬ bad → ids.any (fun y => s.pendingAt n.team y.1 y.2) = false →
      x.regionPages s base (x.labW a.toNat) (len / 4096) = (s1, .ok ps) → (∀ p ∈ ps, ∃ pa, p = .dev pa) →
      let g := s1.gateStep x.ctx base len (field (x.w c.toNat) 31 0) (ps.filterMap Place.frame?)
      (g.2.1 = 0 → Completes i s n g.1 [wWrite d (BitVec.ofNat 64 (g.2.2 % 2 ^ 32 * 2 ^ 32)) lab]) ∧
      (g.2.1 ≠ 0 → Completes i s n g.1 (wWrite d (BitVec.ofNat 64 g.2.1) lab :: x.clearP x.lanesA lab)))) ∧
  (∀ (s : State) (ctx : Nat) (base : DWord) (len pid : Nat) (frames : List Nat),
    let g := s.gateStep ctx base len pid frames
    let l := frames.foldl (fun (l : Label) f => l ||| Cells.get s.frameLab f) 0
    (g.2.1 = 0 → ∃ p ∈ s.policies, p.id = pid ∧ p.set = l ∧ p.set &&& ~~~(s.origins_ (s.context ctx)) = 0 ∧
      (p.rolled s.period).allows len = true ∧
      (∀ f, Cells.get g.1.frameLab f = if f ∈ frames then 1#16 <<< p.dest else Cells.get s.frameLab f) ∧
      g.2.2 = s.nextRecord ∧ g.1.nextRecord = s.nextRecord + 1 ∧
      ∃ r, g.1.records = s.records ++ [r] ∧ r.n = s.nextRecord ∧ r.policy = pid ∧ r.set = l ∧ r.dest = p.dest ∧ r.base = base) ∧
    (g.2.1 ≠ 0 → g.1.frameLab = s.frameLab ∧ g.1.records = s.records ∧ g.1.nextRecord = s.nextRecord) ∧
    g.1.mem = s.mem ∧ g.1.teams = s.teams)

/-- JPUSH pushes an entry with the join PC and the strand's lanes in each member slice (R150); a push beyond 40 entries traps
ILLEGAL_FIELD. JOIN parks the strands of the slices whose stack holds an entry that expects them, and lets the others go on
(R153). A slice all of whose strands stand at the JOIN of its entry, with every other expected lane exited, merges them
into one strand at the instruction after the JOIN (R117, JOIN + 8 outside a live loop), with the loop of the strand of the
lowest lane (R118), and drops the entry. -/
def Obligations.ReconvergencePushesAndMerges : Prop :=
  (∀ (h : Hdr) (ofs : BitVec 32) (s : State) (n : Now), Issues (.jpush h ofs) s n = true →
    let w := s.warp n.team n.warp
    (n.pc + ofs.signExtend 64).toNat % 8 = 0 → field (n.pc + ofs.signExtend 64) 63 60 = 0 → (n.units.map (·.1)).Nodup →
    ((∀ u ∈ n.units, (w.slice u.1).recon.length < 8 ∧ (w.slice u.1).spilled = 0) → Finishes (.jpush h ofs) s n
      { s := n.units.foldl (fun (t : State) u => t.onWarp n.team n.warp (fun v => v.onSlice u.1 (fun x =>
          { x with recon := { pc := n.pc + ofs.signExtend 64, mask := (w.strand u.1 u.2).mask } :: x.recon }))) s }) ∧
    (s.scPending n.team n.warp (ctxOf (.jpush h ofs) s n).lanes = [] →
      (∀ u ∈ n.units, 40 ≤ (w.slice u.1).recon.length + (w.slice u.1).spilled) → Finishes (.jpush h ofs) s n
      { s := s, ends := n.units.flatMap (fun u => ((ctxOf (.jpush h ofs) s n).unitLanes u).map (fun l =>
          (l, .trap { lane := l, cause := .illegalField } false))) })) ∧
  (∀ (h : Hdr) (s : State) (n : Now), Issues (.join h) s n = true →
    let w := s.warp n.team n.warp
    let meets (u : Nat × Nat) : Bool := (w.slice u.1).recon.any (fun e =>
      decide (e.pc = n.pc) && decide ((w.strand u.1 u.2).mask &&& ~~~e.mask = 0))
    (∀ u ∈ n.units, (w.slice u.1).spilled = 0) → Finishes (.join h) s n
      { s := s, after := { slices := n.units.foldl (fun m u => if meets u then m ||| (1#8 <<< u.1) else m) 0,
                           st := .atJoin, keep := true } }) ∧
  (∀ (x : Slice) (e : Recon) (exited : BitVec 4), x.recon = [e] → x.spilled = 0 → x.strands ≠ [] →
    (∀ y ∈ x.strands, y.2.st = .atJoin ∧ y.2.pc = e.pc ∧ y.2.mask &&& ~~~e.mask = 0 ∧ y.2.mark = false) →
    e.mask &&& ~~~(x.strands.foldl (fun m y => m ||| y.2.mask) exited) = 0 →
    (x.settleJoins exited).recon = [] ∧ ∃ k q y, (x.settleJoins exited).strands = [(k, q)] ∧ (k, y) ∈ x.strands ∧
      (∀ z ∈ x.strands, lowest4 y.mask ≤ lowest4 z.2.mask) ∧ q.pc = y.seqNext.1 ∧ q.loop = y.seqNext.2.1 ∧
      (y.loop.live = false → q.pc = e.pc + 8) ∧ q.st = .ready ∧
      q.mask = x.strands.foldl (fun m y => m ||| y.2.mask) 0)

/-- TRET (R137) outside a trap strand traps ILLEGAL_FIELD. In a trap strand, with its frame read, it writes the allocated
registers among V0-V7 and the predicates P0-P6 of its active lanes from the frame, and those lanes go on at the frame's
next PC in the interrupted strand, with its saved loop; a next PC that is misaligned traps. -/
def Obligations.TrapReturnRestores : Prop :=
  ∀ (h : Hdr) (s s1 : State) (n : Now) (u : Nat × Nat) (xs : List (Nat × Nat)) (lab : Label), Issues (.tret h) s n = true →
    let x := ctxOf (.tret h) s n
    let next : DWord := BitVec.ofNat 64 (readAt xs 24 + readAt xs 28 * 2 ^ 32)
    (x.inTrap = false → Finishes (.tret h) s n { s := s, ends := x.lanesA.map (fun l =>
      (l, .trap { lane := l, cause := .illegalField } false)) }) ∧
    (x.inTrap = true → n.units = [u] → s.earlierIds n.team n.warp x.act (.one .sc) .team = [] →
      (s.warp n.team n.warp).edges = [] → (∀ l ∈ x.lanesA, l / 4 = u.1) →
      x.askLines s (x.frameAsks s) = none → x.frameRead s (x.warp.frame u.1) (tretReads x.hdr.vregs x.lanesA) = (s1, .ok (xs, lab, none)) →
      let wr := (List.range (min x.hdr.vregs 8)).map (fun k => ({ reg := .v k, lab := lab, vals := x.lanesA.map (fun l =>
          (l, BitVec.ofNat 64 (readAt xs (96 + 32 * (l % 4) + 4 * k)))) } : Wr)) ++
        (List.range 7).map (fun k => pWrite k (x.lanesA.map (fun l => (l, (readAt xs (80 + l % 4)).testBit k))) lab)
      (next.toNat % 8 = 0 → field next 63 60 = 0 →
        Finishes (.tret h) s n { s := s1, wr := wr, ends := x.lanesA.map (fun l => (l, .resume next)) }) ∧
      (next.toNat % 8 ≠ 0 → Finishes (.tret h) s n { s := s1, wr := wr, ends := x.lanesA.map (fun l =>
        (l, .trap { lane := l, cause := .misalignedPc, detail := next, lab := lab } false)) }))

/-- Taking a trap (R341-R344): the strand goes to SR.TVEC as a trap strand, Ready, with its loop state saved and a dead loop;
its record leaves the queue of the slice; the frame at SR.TFRAME + 256 times the slice holds the cause at +0, the PC at +8,
the word at +16 and the next PC at +24; no byte outside the 256 bytes of the frame changes. A vector or frame address that
fails its checks ends the context instead (R347).
A software trap pends a record in the slice of its strand with the PC, the word, the next PC after the instruction, and each
lane's cause and detail (R341, R342); a trap raised by a trap strand ends the context with reason 1 (R347, R359).
No trap of a value and no change of a sticky flag arises in a lane whose operand is read early, SWR's own write of flags apart
(R7, R24). -/
def Obligations.TrapsAreRaisedAndEntered : Prop :=
  (∀ (s s1 : State) (k w slice pa : Nat) (t : TrapRec) (rest : List TrapRec) (x : LaneTrap) (xs : List LaneTrap) (leaf : DWord),
    let wp := s.warp k w
    (wp.slice slice).pending = t :: rest →
    (wp.trapAddrOk slice = true → t.lanes = x :: xs →
      s.translate (s.team k).core (s.team k).ctx (wp.frame slice) .write = (s1, .ok (.dev pa, leaf)) →
      (Cells.find? (wp.slice slice).strands t.entry).isSome = true →
      let r := s.takeTrap k w slice
      let y := (wp.slice slice).strand t.entry
      ((r.warp k w).slice slice).strand t.entry =
        { y with pc := wp.tvec, trap := true, st := .ready, saved := y.loop, savedBuf := y.buf, loop := {}, buf := [], run := 0 } ∧
      ((r.warp k w).slice slice).pending = rest ∧ ((r.warp k w).slice slice).cur = t.entry ∧
      (∀ q, (∀ z ∈ t.lanes, z.lane = 4 * slice + z.lane % 4) → q < pa ∨ pa + 256 ≤ q → Cells.get r.mem q = Cells.get s1.mem q) ∧
      Cells.readLE r.mem pa 1 = x.cause.code ∧ Cells.readLE r.mem (pa + 8) 8 = t.pc.toNat ∧
      Cells.readLE r.mem (pa + 16) 8 = t.word.toNat ∧ Cells.readLE r.mem (pa + 24) 8 = t.next.toNat ∧
      (r.warp k w).v = wp.v ∧ (r.warp k w).p = wp.p ∧ (r.warp k w).w = wp.w) ∧
    (wp.trapAddrOk slice = false → s.takeTrap k w slice = s.doubleTrap k w slice t)) ∧
  (∀ (s : State) (n : Now) (u : Nat × Nat) (l : Nat) (t : LaneTrap) (after : Bool), n.units = [u] → u.1 < 8 → l / 4 = u.1 →
    t.lane = l → (Cells.find? s.teams n.team).isSome = true →
    let x := (s.warp n.team n.warp).slice u.1
    x.strands = [(u.2, x.strand u.2)] →
    let r := s.raiseTraps n [(l, .trap t after)]
    let rec_ : TrapRec := { entry := u.2, mask := 1#4 <<< (l % 4), pc := n.pc, word := n.word,
                            next := if after then n.pc + 8 else n.pc, gang := n.gang,
                            delayed := (x.strand u.2).trap || !x.pending.isEmpty, lanes := [t] }
    ((x.strand u.2).trap = false →
      ((r.warp n.team n.warp).slice u.1).pending = x.pending ++ [rec_] ∧ r.mem = s.mem ∧
      (r.warp n.team n.warp).v = (s.warp n.team n.warp).v) ∧
    ((x.strand u.2).trap = true → r = s.doubleTrap n.team n.warp u.1 rec_)) ∧
  (∀ (c : Cx) (i : Instr) (body : Cx → Eff) (l : Nat), (c.softLanes i i.sources).getLsbD l = true →
    (∀ (t : LaneTrap) (after : Bool), (l, LaneEnd.trap t after) ∈ (c.bounded i body).ends → t.cause.ofValue = false) ∧
    ((∀ h n a, i ≠ .swr h n a) →
      Cells.get ((c.bounded i body).s.warp c.n.team c.n.warp).fpflags l = Cells.get (c.s.warp c.n.team c.n.warp).fpflags l))

/-- Queueing a fault of a parked strand (R349-R353): the context's fault queue gains one unwritten entry with the next sequence
number, the fault's kind and address, and a body with the sequence number at +0, the kind at +8, the access type at +10,
the address at +16 and the PC at +32; a context's end queues an entry of kind 0x20 with its reason at +48 (R359).
Ending a context (R359): it is Ended, no team of it stays placed and no launch of it stays in the store, and its one entry in
the fault queue is of kind 0x20 with the reason at +48. A context that has ended, or is none, is left as it is.
FAULT_QUEUE_ENTRY_WRITE (R352, R419): the oldest unwritten entry whose slot is free is written as one 64-byte write at FQ +
64 × (sequence number mod 4096), counts as written, and raises the function's vector 0; no other byte changes. -/
def Obligations.FaultsAndEndsAreQueued : Prop :=
  (∀ (s : State) (k w : Nat) (f : Nat × Nat × Strand × ParkRec),
    let ctx := (s.team k).ctx
    let c := s.context ctx
    (Cells.find? s.contexts ctx).isSome = true → f.2.2.2.info.kind < 256 → f.2.2.2.info.access < 65536 → f.1 < 8 →
    c.fqNext < 2 ^ 64 → (s.warpGlobal k w) < 2 ^ 64 → (s.launch (s.team k).launch).serial < 2 ^ 32 → f.2.1 < 4 →
    ∃ e, ((s.queueFor k w f).context ctx).entries = c.entries ++ [e] ∧ ((s.queueFor k w f).context ctx).fqNext = c.fqNext + 1 ∧
      e.seq = c.fqNext ∧ e.kind = f.2.2.2.info.kind ∧ e.va = f.2.2.2.info.va ∧ e.written = false ∧
      field e.body 63 0 = c.fqNext ∧ field e.body 71 64 = f.2.2.2.info.kind ∧ field e.body 95 80 = f.2.2.2.info.access ∧
      field e.body 191 128 = f.2.2.2.info.va.toNat ∧ field e.body 319 256 = f.2.2.1.pc.toNat ∧
      (s.queueFor k w f).mem = s.mem ∧ (s.queueFor k w f).teams = s.teams) ∧
  (∀ (s : State) (ctx : Nat) (i : EndInfo),
    ((s.context ctx).st ≠ .ended → (Cells.find? s.contexts ctx).isSome = true →
      let t := s.endContext ctx i
      (t.context ctx).st = .ended ∧ (∀ k x, (k, x) ∈ t.teams → x.ctx ≠ ctx) ∧ (∀ k x, (k, x) ∈ t.launches → x.ctx ≠ ctx) ∧
      ∃ e, (t.context ctx).entries = [e] ∧ e.kind = 0x20 ∧ e.written = false ∧
        (i.reason < 2 ^ 64 → field e.body 447 384 = i.reason)) ∧
    ((s.context ctx).st = .ended ∨ (Cells.find? s.contexts ctx).isNone = true → s.endContext ctx i = s)) ∧
  (∀ (s : State) (vf n k : Nat) (e : FqEntry), s.ctxKey vf n = some k → (s.context k).fqDue = some e →
  let pa := (s.context k).fqSlot e.seq
  (s.mayWrite pa 64 = true → rangeInDram pa 64 = true → ∃ t, exec (.faultQueueEntryWrite vf n) s = .next t ∧
    WroteDev s t pa 64 e.lab ∧ Cells.readLE t.mem pa 64 = e.body.toNat ∧
    (∀ f ∈ (t.context k).entries, f.seq = e.seq → f.written = true) ∧
    .msix ((s.context k).vf + 1) 0 ∈ t.out) ∧
  (s.mayWrite pa 64 = false → exec (.faultQueueEntryWrite vf n) s = .next s))

/-- STORE_PERFORM, STF_FLAG_ADD and ATOMIC_GROUP_PERFORM (R218, R262, R267): an access that waits for nothing reaches its home.
A store writes its data, a flag rises by 1, a group runs lane after lane on the value found and gives its result the old
value of each lane; the frame's label is widened and no other byte changes. An access that still waits does nothing, and
one to a peer leaves as a flit.
The increment of a poisoned flag ends its context (R358).
An access that something must be performed before, that an order point still holds, or whose half the host still holds, is
not performed (R239, R285, R416). -/
def Obligations.AccessesArePerformed : Prop :=
  (∀ (s : State) (id pa : Nat) (a : Access),
  s.accesses.find? (fun x => x.id == id) = some a → s.ready a = true → s.budgetFor a = true → a.priv = false →
  (a.place = .dev pa →
    let given (k : ResKind) : ResKind := (groupRun a (Cells.readLE s.mem pa a.size)).2.1.foldl
      (fun k o => k.give o.1 o.2 (Cells.get s.frameLab (pa / 4096))) k
    (∀ d, a.op = .store d → ∃ t, exec (.storePerform id) s = .next t ∧ WroteDev s t pa a.size a.lab ∧
      Cells.readLE t.mem pa a.size = d.toNat % 2 ^ (8 * a.size) ∧
      t.accesses = s.accesses.filter (fun x => x.id != id)) ∧
    (a.op = .flagAdd → a.size = 8 → s.poisoned a.place 8 = true → a.team ≠ goneTeam →
      exec (.stfFlagAdd id) s = .next (s.poisonEnd a)) ∧
    (a.op = .flagAdd → a.size = 8 → s.poisoned a.place 8 = false → ∃ t, exec (.stfFlagAdd id) s = .next t ∧ WroteDev s t pa 8 a.lab ∧
      Cells.readLE t.mem pa 8 = (Cells.readLE s.mem pa 8 + 1) % 2 ^ 64 ∧
      t.accesses = s.accesses.filter (fun x => x.id != id)) ∧
    (s.poisoned a.place a.size = false → s.straddles a.place a.size = false →
      (∀ op sg ops, a.op = .rmw op sg ops → ops ≠ [] → ∃ t, exec (.atomicGroupPerform id) s = .next t ∧
        WroteDev s t pa a.size a.lab ∧
        Cells.readLE t.mem pa a.size = ops.foldl (fun v x => atomNew op sg (8 * a.size) v x.2.toNat)
          (Cells.readLE s.mem pa a.size) % 2 ^ (8 * a.size) ∧
        (a.res ≠ 0 → (Cells.find? s.teams a.team).isSome = true →
          (t.warp a.team a.warp).results = (s.warp a.team a.warp).results.map (fun r => if r.id = a.res then
            { r with kind := given r.kind } else r)) ∧
        t.accesses = s.accesses.filter (fun x => x.id != id)) ∧
      (∀ l e b labC, a.op = .cas [(l, b, e)] labC → ∃ t, exec (.atomicGroupPerform id) s = .next t ∧
        (Cells.readLE s.mem pa a.size = e.toNat → WroteDev s t pa a.size (a.lab ||| labC) ∧
          Cells.readLE t.mem pa a.size = b.toNat % 2 ^ (8 * a.size)) ∧
        (Cells.readLE s.mem pa a.size ≠ e.toNat → t.mem = s.mem ∧ t.frameLab = s.frameLab) ∧
        t.accesses = s.accesses.filter (fun x => x.id != id)))) ∧
  (∀ k o d, a.place = .scr k o → (Cells.find? s.teams k).isSome = true → a.op = .store d →
    ∃ t, exec (.storePerform id) s = .next t ∧ t.mem = s.mem ∧
      Cells.readLE (t.team k).scratch o a.size = d.toNat % 2 ^ (8 * a.size) ∧
      (∀ p, p < o ∨ o + a.size ≤ p → Cells.get (t.team k).scratch p = Cells.get (s.team k).scratch p) ∧
      Cells.get (t.team k).scratchLab (o / 128) = Cells.get (s.team k).scratchLab (o / 128) ||| a.lab) ∧
  (∀ m v d, a.place = .peer m v pa → a.op = .store d → ∃ t, exec (.storePerform id) s = .next t ∧ t.mem = s.mem ∧
    { a with sent := true } ∈ t.accesses ∧
    ∃ f, t.fabric.sent = s.fabric.sent ++ [f] ∧ f.dst = m ∧ f.vn = domNet a.dom ∧ f.lab = a.lab)) ∧
  (∀ (s : State) (id : Nat) (a : Access), s.accesses.find? (fun x => x.id == id) = some a → s.ready a = false →
  exec (.storePerform id) s = .next s ∧ exec (.stfFlagAdd id) s = .next s ∧ exec (.atomicGroupPerform id) s = .next s)

/-- RESULT_RETURN (R23): a result whose registers are written leaves the marker; a load's gathered values are written to the
lanes that no later instruction has written (R24), with the labels gathered; a load of one lane that may be performed
returns what stands in memory.
UPDATE_APPLY (R218, R384): the oldest update that a home slice sent a sharer enters its sharer's copy, and no other core changes. DOZE_END (R121): after
its cycles the strand may issue. SPAWN_BIN_TIMER_EXPIRY (R160): the bin is told to start, and no other bin changes. -/
def Obligations.ResultsUpdatesAndTimers : Prop :=
  (∀ (s : State) (k w id : Nat) (r : Result) (lanes : Lanes),
  (Cells.find? s.teams k).isSome = true → (s.warp k w).result? id = some r →
  ((∀ a ∈ s.accesses, a.res ≠ id) →
    (r.kind = .done → ∃ t, exec (.resultReturn k w id lanes) s = .next t ∧ SameBytes t s ∧
      (t.warp k w).results = (s.warp k w).results.filter (fun x => x.id != id) ∧ (t.warp k w).v = (s.warp k w).v) ∧
    (∀ d size sg got lab want, r.kind = .mem d size sg got lab want → gathered got want = true →
      d + sizeWords size ≤ 255 → (got.map (·.1)).Nodup → (∀ g ∈ got, g.1 < 32) →
      ∃ t, exec (.resultReturn k w id lanes) s = .next t ∧ SameBytes t s ∧
        (∀ i g, i < sizeWords size → g ∈ got → r.stale.any (fun o => o.1 == .v (d + i) && o.2.getLsbD g.1) = false →
          Cells.get (t.warp k w).v ((d + i) * 32 + g.1) =
            BitVec.ofNat 32 (extendTo size sg g.2.toNat >>> (32 * i)) ∧
          Cells.get (t.warp k w).vLab (d + i) &&& (lab ||| r.src) = (lab ||| r.src)) ∧
        (∀ q l, l < 32 → (d ≤ q ∧ q < d + sizeWords size → ∀ g ∈ got, g.1 ≠ l) →
          Cells.get (t.warp k w).v (q * 32 + l) = Cells.get (s.warp k w).v (q * 32 + l)))) ∧
  (∀ a pa d lane, s.accesses = [a] → a.team = k → a.warp = w → a.res = id → a.lanes = [lane] → lane < 32 →
    a.op = .load → a.place = .dev pa → a.priv = false → a.nol1 = true → a.size = 4 → s.ready a = true →
    s.budgetFor a = true → s.poisoned a.place 4 = false → r.kind = .mem d 4 false [] 0 (1#32 <<< lane) → r.stale = [] →
    d < 255 → lanes.getLsbD lane = true → s.straddles a.place 4 = false → s.onArray k w id = false →
    ∃ t, exec (.resultReturn k w id lanes) s = .next t ∧ SameHome t s ∧ t.accesses = [] ∧
      Cells.get (t.warp k w).v (d * 32 + lane) = BitVec.ofNat 32 (Cells.readLE s.mem pa 4) ∧
      Cells.get (t.warp k w).vLab d &&& Cells.get s.frameLab (pa / 4096) = Cells.get s.frameLab (pa / 4096))) ∧
  (∀ (s : State),
  (∀ id core u, s.updates.find? (fun x => x.id == id && x.core == core) = some u →
    (s.updates.takeWhile (fun v => v != u)).any (fun v => v.core == core && updateHome v.pa == updateHome u.pa) = false →
    ∃ t, exec (.updateApply id core) s = .next t ∧ t.updates = s.updates.erase u ∧ t.mem = s.mem ∧
      (∀ c, c ≠ core → t.core c = s.core c) ∧
      (∀ l, Cells.find? (s.core core).l1 (u.pa / 128) = some l →
        ∃ m, Cells.find? (t.core core).l1 (u.pa / 128) = some m ∧
          (∀ i b, u.bytes[i]? = some b → Cells.get m.data (u.pa % 128 + i) = b) ∧
          (∀ o, o < u.pa % 128 ∨ u.pa % 128 + u.bytes.length ≤ o → Cells.get m.data o = Cells.get l.data o))) ∧
  (∀ k w j e x since n, Cells.find? s.teams k ≠ none → Cells.find? (s.team k).warps w = some x →
    (x.strand j e).st = .waiting (.doze since n) →
    (since + n ≤ s.cycle → ∃ t, exec (.dozeEnd k w j e) s = .next t ∧ SameBytes t s ∧
      (t.warp k w).strand j e = (x.strand j e).wake) ∧
    (s.cycle < since + n → exec (.dozeEnd k w j e) s = .next s)) ∧
  (∀ core n due, (Cells.get (s.core core).bins n).timer = some due →
    (due ≤ s.cycle → (Cells.get (s.core core).bins n).recs ≠ [] →
      ∃ t, exec (.spawnBinTimerExpiry core n) s = .next t ∧ t.teams = s.teams ∧ t.mem = s.mem ∧
        Cells.get (t.core core).bins n = { Cells.get (s.core core).bins n with timer := none, start := true } ∧
        (∀ j, j ≠ n → Cells.get (t.core core).bins j = Cells.get (s.core core).bins j)) ∧
    (s.cycle < due → exec (.spawnBinTimerExpiry core n) s = .next s)))

/-- MMA_START (R305, R313): the array's next MMA starts when the window admits it and runs 32 cycles for each KQ + 1, with a
ramp after idleness; else it waits. MMA_COMPLETE (R304, R305): every element of the tile becomes the product of its row
and column over the old element, and a row with nine escapes or more sets SR.MXSTAT[0] (R63). MSCAC_COMPLETE (R320): every element gains the scaled partial sum. Each returns, and no
other tile changes. -/
def Obligations.MatrixArrayRuns : Prop :=
  ∀ (s : State) (core : Nat) (m : MatEnt) (rest : List MatEnt), (s.core core).matrix = m :: rest →
  (∀ z kq fa fb sa sb ga gb la lb key, m.op = .mma z kq fa fb sa sb ga gb la lb key →
    (m.start = none → m.steps = 0 → s.runs m.team = true → s.arrayBudget core m = true →
      ((s.core core).recent s.cycle + (kq + 1) ≤ s.power.limit8 →
        ∃ t m1, exec (.mmaStart core) s = .next t ∧ (t.core core).matrix = m1 :: rest ∧ m1.id = m.id ∧
          m1.op = m.op ∧ m1.start = some s.cycle ∧ m1.codebook = (s.team m.team).codebook ∧
          m1.finish = s.cycle + 32 * (kq + 1) +
            (if s.ramps core then min (32 * (kq + 1)) (s.power.ramp / 2) else 0) ∧ t.teams = s.teams ∧ t.mem = s.mem) ∧
      (s.power.limit8 < (s.core core).recent s.cycle + (kq + 1) → exec (.mmaStart core) s = .next s)) ∧
    (m.start.isSome = true → m.finish ≤ s.cycle → m.finish ≤ m.stopAt.getD m.finish → s.clashed m = false →
      let n := depthOf kq fa fb
      let row (i : Nat) := (operandRow (s.core core).slots m.codebook sa ga key.1 fa false i n).1
      let col (j : Nat) := (operandRow (s.core core).slots m.codebook sb gb key.2 fb true j n).1
      let old (e : Nat) := Cells.get (s.team m.team).tiles e
      ∃ t, exec (.mmaComplete core) s = .next t ∧ SameBytes t s ∧ (t.core core).matrix = rest ∧
        (∀ i j, i < 64 → j < 64 → Cells.get (t.team m.team).tiles (4096 * m.tile + 64 * i + j) =
          mmaElem (fa == .int8) z (row i) (col j) (old (4096 * m.tile + 64 * i + j))) ∧
        (∀ e, e < 4096 * m.tile ∨ 4096 * m.tile + 4096 ≤ e → Cells.get (t.team m.team).tiles e = old e) ∧
        Cells.get (t.team m.team).tileLab m.tile = s.mmaLab core m ∧
        (m.torn = false → (Cells.find? s.teams m.team).isSome = true →
          (t.warp m.team m.warp).mxstat = (if (mmaCompute (s.core core).slots m.codebook (fun e => old (4096 * m.tile + e))
            z kq fa fb sa sb ga gb key).2 then (s.warp m.team m.warp).mxstat ||| 1 else (s.warp m.team m.warp).mxstat)) ∧
        (t.warp m.team m.warp).results = (s.warp m.team m.warp).results.filter (fun r => r.id != m.id))) ∧
  (∀ z p sa sb pl, m.op = .mscac z p sa sb pl → m.start.isSome = true → m.finish ≤ s.cycle → m.finish ≤ m.stopAt.getD m.finish → s.clashed m = false →
    let old (e : Nat) := Cells.get (s.team m.team).tiles e
    ∃ t, exec (.mscacComplete core) s = .next t ∧ SameBytes t s ∧ (t.core core).matrix = rest ∧
      (∀ i j, i < 64 → j < 64 → Cells.get (t.team m.team).tiles (4096 * m.tile + 64 * i + j) =
        BitVec.ofNat 64 (scaleAccumulate (if z then 0 else (old (4096 * m.tile + 64 * i + j)).toNat)
          (Cells.readLE m.codebook (2 * i) 2) (Cells.readLE m.codebook (128 + 2 * j) 2)
          (old (4096 * p + 64 * i + j)).toNat)) ∧
      (∀ e, e < 4096 * m.tile ∨ 4096 * m.tile + 4096 ≤ e → Cells.get (t.team m.team).tiles e = old e) ∧
      (t.warp m.team m.warp).results = (s.warp m.team m.warp).results.filter (fun r => r.id != m.id))

/-- COPY_DELIVERY (R333): a channel that may move the last byte of its one transfer writes the source byte at its destination,
widens the destination's label by the source's and the instruction's (R254), passes its write pointer over it and ends
the transfer. A byte whose label the destination does not admit is not written, and the transfer stops (R430). -/
def Obligations.CopiesDeliver : Prop :=
  ∀ (s : State) (core ch : Nat) (x : Xfer) (p q : Nat) (pg : PageMap),
  s.chanXfers core ch = [x] → x.done + 1 = x.total → x.flag = 0 → x.stuck = false → x.wire = none → x.overlap = false →
  x.toSlot = false → x.inbuf = [] → x.lag = 0 → x.fromAt x.done = some (.dev p) → pageOf x.dstMap (x.dstAt x.done) = some pg →
  pg.place.add (x.dstAt x.done % 4096) = .dev q → s.copyBlocked x = false → s.poisoned (.dev p) 1 = false →
  s.straddles (.dev p) 1 = false → s.chrstDue core ch = false → (s.context x.ctx).unbinding = false →
  (Cells.get s.frameLab (p / 4096) &&& ~~~pg.mask = 0 → s.updating x.id x.scp x.team = false →
    (∀ y ∈ s.fabric.peerLines, y.1 ≠ q / 128) →
    ∃ t, exec (.copyDelivery core ch 1) s = .next t ∧
      WroteDev s t q 1 (Cells.get s.frameLab (p / 4096) ||| x.lab) ∧ Cells.get t.mem q = Cells.get s.mem p ∧
      t.chanXfers core ch = [] ∧
      (Cells.get (t.core core).chans ch).ptr = (Cells.get (s.core core).chans ch).ptr + 1) ∧
  (Cells.get s.frameLab (p / 4096) &&& ~~~pg.mask ≠ 0 →
    ∃ t, exec (.copyDelivery core ch 1) s = .next t ∧ t.mem = s.mem ∧ t.frameLab = s.frameLab ∧
      ∃ y, t.chanXfers core ch = [y] ∧ y.stuck = true ∧ y.done = x.done ∧ y.id = x.id)

/-- CLUSTER_PLACE (R207): the head launch's next cluster is placed on a core of a permitted group that holds it, every warp at
the entry point. WARP_RETIRE (R119): a warp that has exited and holds no result frees its index. LAUNCH_COMPLETE (R204):
a launch with nothing left sets its set-mask bits, its journal entry is Completed, and its store entry frees. -/
def Obligations.LaunchesRunAndRetire : Prop :=
  ∀ (s : State),
  (∀ l rest s1, s.order = l :: rest → s.firstCheck l = .go s1 → s1.displacedOf l = none →
    (s1.context (s1.launch l).ctx).handle.isSome = true → (s1.launch l).hdr.teamsPer = 1 →
    Cells.find? s1.teams s1.nextId = none →
    (∃ g ∈ s1.groupsFor (s1.launch l).ctx (s1.launch l).hdr, ∃ c ∈ groupCores g, s1.fits (s1.launch l).hdr c = true) →
    ∃ t x, exec .clusterPlace s = .next t ∧ Cells.find? t.teams s1.nextId = some x ∧ x.launch = l ∧
      x.cluster = (s1.launch l).placed ∧ s1.fits (s1.launch l).hdr x.core = true ∧
      groupOf x.core ∈ s1.groupsFor (s1.launch l).ctx (s1.launch l).hdr ∧
      Cells.keys x.warps = List.range (((s1.launch l).hdr.threads + 31) / 32) ∧
      (∀ w ∈ x.warps, ∀ y ∈ w.2.allStrands, y.2.2.pc = (s1.launch l).hdr.entry) ∧ t.reserved = none ∧
      (s1.cores.all (fun c => c.2.sleep.isNone) = true → SameBytes t s1)) ∧
  (∀ k w, (Cells.find? s.teams k).isSome = true → (Cells.find? (s.team k).warps w).isSome = true → s.almanac k = false →
    (s.warpOver k w = true → ∃ t, exec (.warpRetire k w) s = .next t ∧ Cells.find? (t.team k).warps w = none ∧
      (∀ j, j ≠ w → Cells.find? t.teams k ≠ none → Cells.find? (t.team k).warps j = Cells.find? (s.team k).warps j)) ∧
    (s.warpOver k w = false → exec (.warpRetire k w) s = .next s)) ∧
  (∀ l c, (Cells.find? s.launches l).isSome = true → Cells.find? s.contexts (s.launch l).ctx = some c →
    s.launchOver l = true →
    ∃ t, exec (.launchComplete l) s = .next t ∧ Cells.find? t.launches l = none ∧ SameBytes t s ∧
      (t.context (s.launch l).ctx).events = c.events ||| (s.launch l).hdr.setMask ∧
      (∀ e ∈ (s.port (s.launch l).port).journal, e.seq = (s.launch l).jseq → e.st.final = false →
        { e with st := .completed, status := .ok } ∈ (t.port (s.launch l).port).journal))

/-- ORDER_POINT_PASS (R285, R286): in a recording launch a request that reaches its order point passes, and the window counts
it and its run; a request that does not reach it waits. COMMIT_POINT (R280): when every warp waits at the quantum's end with
nothing in its commit buffer, no strand in a wait and nothing on its way, the next quantum begins: every warp goes on and
nothing else changes; a launch whose warps have not all come to it does not commit. -/
def Obligations.OrderPointsAndCommitPoints : Prop :=
  (∀ (s : State) (id : Nat) (a : Access) (win : Nat), s.accesses.find? (fun x => x.id == id) = some a → a.window = some win →
    let l := (s.team a.team).launch
    (s.reaches l win a = false → exec (.orderPointPass id) s = .next s) ∧
    (∀ g, (s.launch l).hdr.record = true → (Cells.find? s.launches l).isSome = true → s.heldAt l win a = true →
      s.reaches l win a = true → s.logMay (s.launch l).ctx ((s.launch l).hdr.log + 8) = true → s.gate l win = g →
      (g.passed + 1) % 1024 ≠ 0 → (g.run = none ∨ ∃ n, g.run = some (s.warpGlobal a.team a.warp, n) ∧ n + 1 ≠ 65535) →
      ∃ t, exec (.orderPointPass id) s = .next t ∧ SameBytes t s ∧
        (∃ b ∈ t.accesses, b.id = id ∧ b.passed = true ∧ b.op = a.op) ∧ (t.gate l win).passed = g.passed + 1 ∧
        (t.gate l win).run = some (s.warpGlobal a.team a.warp, (g.run.map (·.2)).getD 0 + 1))) ∧
  (∀ (s : State) (l : Nat) (x : Launch), Cells.find? s.launches l = some x → x.commit = none →
    (s.commitDue l = false → exec (.commitPoint l) s = .next s) ∧
    (s.commitDue l = true → s.commitOpen l = false → s.deferred = [] → s.clusters = [] → (Cells.keys s.teams).Nodup →
      (s.launchWarps l).length < 10000 → (∀ p ∈ s.teams, p.2.launch = l → p.2.bars = [] ∧ p.2.warps ≠ []) →
      (∀ p ∈ s.cores, ∀ b ∈ p.2.bins, b.2.recs = []) → (∀ a ∈ s.accesses, ∀ y ∈ s.launchWarps l, a.team ≠ y.1) →
      (∀ y ∈ s.launchWarps l, (s.warp y.1 y.2).restsAt (s.commitClock l) = true) →
      ∃ t, exec (.commitPoint l) s = .next t ∧ SameBytes t s ∧ t.accesses = s.accesses ∧
        (t.launch l).quantum = x.quantum + 1 ∧ (t.launch l).commit = none ∧
        (∀ y ∈ s.launchWarps l, t.warp y.1 y.2 = { s.warp y.1 y.2 with atQuantum := false }) ∧
        (∀ k w, (k, w) ∉ s.launchWarps l → t.warp k w = s.warp k w)))

/-- Commands that a port takes and that act on a context as a whole: LAUNCH (R192), EVSET (R193), CONTEXT_CREATE (R194),
BIND_OFF (R374), PREEMPT and RESUME (R371). A command for a context that is not there ends with NO_CONTEXT. -/
def Obligations.CommandsSteerContexts : Prop :=
  ∀ (s : State) (n : Nat) (c : BitVec 512), Takes s (.vf n) c = true →
  let fn := Fn.vf n
  (cmdType c = 3 →
    ((s.vf n).ovalid = false → ∃ t, Answers (.contextCreate fn c) s t fn c .denied ∧ Recorded s t fn c .failed .denied ∧
      t.contexts = s.contexts) ∧
    (∀ m, (s.vf n).ovalid = true → s.freeNumber n = some m →
      ∃ t, Answers (.contextCreate fn c) s t fn c .ok ∧ Recorded s t fn c .completed .ok ∧
        Cells.find? t.contexts (contextKey n m) =
          some { vf := n, num := m, root := (cmdOp c 0).toNat, fq := (cmdOp c 1).toNat })) ∧
  (s.namedContext fn c = none →
    (cmdType c = 6 → ∃ t, Answers (.preempt fn c) s t fn c .noContext ∧ Recorded s t fn c .failed .noContext) ∧
    (cmdType c = 7 → ∃ t, Answers (.resume fn c) s t fn c .noContext ∧ Recorded s t fn c .failed .noContext)) ∧
  (∀ k x, s.namedContext fn c = some k → Cells.find? s.contexts k = some x →
    (cmdType c = 1 → s.commandAsk fn (some c) = none →
      let va := cmdOp c 0
      (va.toNat % 64 ≠ 0 ∨ field va 63 57 ≠ 0 → ∃ t, Answers (.launchCmd fn c) s t fn c .headerFault ∧
        Recorded s t fn c .failed .headerFault ∧ t.launches = s.launches) ∧
      (∀ s2, va.toNat % 64 = 0 → field va 63 57 = 0 → (s.recorded fn c).hostHeader k va = (s2, none) →
        ∃ t, Answers (.launchCmd fn c) s t fn c .headerFault ∧ t.launches = s2.launches) ∧
      (∀ s2 h lab, va.toNat % 64 = 0 → field va 63 57 = 0 → (s.recorded fn c).hostHeader k va = (s2, some (h, lab)) →
        (h.valid = false → ∃ t, Answers (.launchCmd fn c) s t fn c .headerInvalid ∧ t.launches = s2.launches) ∧
        (h.valid = true → h.nbv < 2 → s2.storeFree (s2.context k).vf = true →
          ∃ t l, Answers (.launchCmd fn c) s t fn c .ok ∧ Cells.find? t.launches s2.nextId = some l ∧ l.ctx = k ∧
            l.hdr = h ∧ l.w0Lab = lab ∧ l.serial = (s2.context k).serial ∧ l.placed = 0 ∧
            (l.ready.isSome = true ↔ h.waitMask &&& (s2.context k).events = h.waitMask)))) ∧
    (cmdType c = 2 → s.deferred = [] →
      let b := field (cmdOp c 0) 7 0
      (bit (cmdOp c 0) 8 = false → ∃ t, Answers (.evsetCmd fn c) s t fn c .ok ∧ Recorded s t fn c .completed .ok ∧
        (t.context k).events = x.events ||| 1#256 <<< b) ∧
      (bit (cmdOp c 0) 8 = true → ∃ t, Answers (.evsetClrCmd fn c) s t fn c .ok ∧ Recorded s t fn c .completed .ok ∧
        (t.context k).events = x.events &&& ~~~(1#256 <<< b))) ∧
    (cmdType c = 4 → (∀ a ∈ s.accesses, a.ctx ≠ k) →
      (∀ y ∈ s.cores, ∀ ch ∈ y.2.chans, ∀ z ∈ ch.2.xfers, z.ctx ≠ k) → (∀ y ∈ s.contexts, y.2.unbinding = false) →
      ∃ t, Answers (.bindOff fn c) s t fn c .ok ∧ Cells.find? t.contexts k = none ∧
      (∀ a, x.fq ≤ a → a < x.fq + 262144 → Cells.get t.mem a = 0) ∧
      (∀ y ∈ t.cores, ∀ e ∈ y.2.tlb, e.ctx ≠ k) ∧ (∀ y ∈ t.teams, y.2.ctx ≠ k)) ∧
    (cmdType c = 6 → s.rolledBack k = false →
      (x.st = .live → ∃ t, Answers (.preempt fn c) s t fn c .ok ∧ Recorded s t fn c .accepted .ok ∧
        (t.context k).st = .saving) ∧
      (x.st = .saved → x.suspendedFrom ≠ some .restoring → ∃ t, Answers (.preempt fn c) s t fn c .ok ∧ Recorded s t fn c .completed .ok ∧
        (t.context k).st = .saved)) ∧
    (cmdType c = 7 → s.rolledBack k = false →
      (x.st = .live → ∃ t, Answers (.resume fn c) s t fn c .ok ∧ Recorded s t fn c .completed .ok ∧
        t.contexts = s.contexts) ∧
      (x.st = .saved → s.ctxSuspended k = false → ∃ t, Answers (.resume fn c) s t fn c .ok ∧ Recorded s t fn c .running .ok ∧
        (t.context k).st = .restoring)))

/-- FAULT_RESUME answers a fault-queue entry (R354, R355): its slot frees; parked lanes that retry are Ready at their PC, killed
lanes have exited, and the answer to strands that are not placed waits for them. -/
def Obligations.CommandsAnswerFaults : Prop :=
  ∀ (s : State) (n k : Nat) (c : BitVec 512) (x : Context) (e : FqEntry), Takes s (.vf n) c = true →
  let fn := Fn.vf n
  cmdType c = 5 → s.namedContext fn c = some k → Cells.find? s.contexts k = some x → bit (cmdOp c 1) 2 = false →
  x.entries.find? (fun f => f.seq == (cmdOp c 0).toNat && f.kind != 0x20) = some e →
  (s.parkedUnder k e.seq = [] → ∀ i, (field (cmdOp c 1) 1 0 = 0 ∧ i = .faultResumeRetry fn c) ∨
      (field (cmdOp c 1) 1 0 = 1 ∧ i = .faultResumeDeliver fn c) ∨ (field (cmdOp c 1) 1 0 = 2 ∧ i = .faultResumeKill fn c) →
    ∃ t, Answers i s t fn c .ok ∧ Recorded s t fn c .completed .ok ∧
      (t.context k).entries = x.entries.filter (fun f => f.seq != e.seq) ∧
      (t.context k).answered = x.answered ++ [(e.seq, field (cmdOp c 1) 1 0)] ∧ t.teams = s.teams) ∧
  (∀ y, x.st = .live → s.parkedUnder k e.seq = [y] → y.strand.st = .onFault y.info → y.info.deliver = false →
    (Cells.find? s.teams y.team).isSome = true → (s.warp y.team y.warp).strand y.slice y.entry = y.strand →
    (field (cmdOp c 1) 1 0 = 0 → ∃ t, Answers (.faultResumeRetry fn c) s t fn c .ok ∧
      (t.context k).entries = x.entries.filter (fun f => f.seq != e.seq) ∧
      ((t.warp y.team y.warp).strand y.slice y.entry).st = .ready ∧
      ((t.warp y.team y.warp).strand y.slice y.entry).pc = y.strand.pc) ∧
    (field (cmdOp c 1) 1 0 = 2 → (s.warp y.team y.warp).slices.all (fun z =>
        z.2.recon.isEmpty && z.2.pending.isEmpty && decide (z.2.spilled = 0) &&
        z.2.strands.all (fun q => q.2.st != .atRegang)) = true →
      ∃ t, Answers (.faultResumeKill fn c) s t fn c .ok ∧
      (t.context k).entries = x.entries.filter (fun f => f.seq != e.seq) ∧
      (t.warp y.team y.warp).exited = (s.warp y.team y.warp).exited ||| sliceLanes y.slice y.strand.mask))

/-- INVALIDATE_VA drops a context's translations of a range and is Running until what may have used them is performed (R229).
BIAS_FLIP queues a flip, Running until it is complete, and is Completed at once for a frame already in that bias (R418).
WATCH_SET enables or removes a window (R284). -/
def Obligations.CommandsOnPagesAndWindows : Prop :=
  ∀ (s : State) (n k : Nat) (c : BitVec 512) (x : Context), Cells.find? s.contexts k = some x →
  let fn := Fn.vf n
  (Takes s fn c = true → s.namedContext fn c = some k →
    (cmdType c = 8 → 4096 ≤ (cmdOp c 1).toNat → ∃ t, Answers (.invalidateVa fn c) s t fn c .ok ∧
      Recorded s t fn c .running .ok ∧ t.mem = s.mem ∧
      (∀ y ∈ t.cores, ∀ e ∈ y.2.tlb, e.ctx = k →
        e.vpage + e.pages ≤ (cmdOp c 0).toNat / 4096 ∨
        (cmdOp c 0).toNat / 4096 + (cmdOp c 1).toNat / 4096 ≤ e.vpage) ∧
      ∃ v, t.invals = s.invals ++ [v] ∧ v.1 = (fn.port, (s.port fn.port).tail) ∧ v.2.2.2.2 = s.inFlight k) ∧
    (cmdType c = 10 →
      let others := x.windows.filter (fun w => w.n != field (cmdOp c 0) 2 0)
      (bit (cmdOp c 0) 7 = false → ∃ t, Answers (.watchRemove fn c) s t fn c .ok ∧ Recorded s t fn c .completed .ok ∧
        (t.context k).windows = others) ∧
      (bit (cmdOp c 0) 7 = true →
        (∀ w ∈ others, (cmdOp c 1).toNat + (cmdOp c 2).toNat ≤ w.base.toNat ∨ w.base.toNat + w.len ≤ (cmdOp c 1).toNat) →
        ∃ t, Answers (.watchSet fn c) s t fn c .ok ∧ Recorded s t fn c .completed .ok ∧
          (t.context k).windows =
            others ++ [{ n := field (cmdOp c 0) 2 0, base := cmdOp c 1, len := (cmdOp c 2).toNat }]))) ∧
  (∀ seq v, s.invals.find? (fun v => v.1 == (fn.port, seq)) = some v →
    (v.2.2.2.2.any (s.onTheWay v.2.1) = false → ∃ t, exec (.invalidateVaComplete fn seq) s = .next t ∧
      t.invals = s.invals.erase v ∧ t.mem = s.mem ∧
      (∀ e ∈ (s.port v.1.1).journal, e.seq = v.1.2 → e.st.final = false →
        { e with st := .completed, status := .ok } ∈ (t.port v.1.1).journal)) ∧
    (v.2.2.2.2.any (s.onTheWay v.2.1) = true → exec (.invalidateVaComplete fn seq) s = .next s)) ∧
  (Takes s .pf c = true → cmdType c = 9 → s.flips = [] →
    let f := (cmdOp c 0).toNat
    let i := if bit (cmdOp c 1) 0 then Instr.biasFlipToDevice .pf c else Instr.biasFlipToHost .pf c
    (s.bias.contains (f / 4096) = bit (cmdOp c 1) 0 → ∃ t, Answers i s t .pf c .ok ∧ Recorded s t .pf c .running .ok ∧
      t.flips = [{ port := 0, jseq := (s.port 0).tail, frame := f, toDevice := bit (cmdOp c 1) 0 }] ∧ t.bias = s.bias) ∧
    (s.bias.contains (f / 4096) ≠ bit (cmdOp c 1) 0 → ∃ t, Answers i s t .pf c .ok ∧ Recorded s t .pf c .completed .ok ∧
      t.flips = [] ∧ t.bias = s.bias)) ∧
  (∀ seq f, s.flips = [f] → f.port = fn.port → f.jseq = seq → (f.toDevice = false → s.midLine f.frame = false) →
    ∃ t, exec (.biasFlipComplete fn seq) s = .next t ∧ t.flips = [] ∧ t.mem = s.mem ∧
      t.bias.contains (f.frame / 4096) = !f.toDevice ∧
      (f.toDevice = true → ∀ i, i < 64 → Cells.get t.halves (f.frame / 64 + i) = .dev))

/-- POLICY_INSTALL and its removal (R432), JOINT_CONTEXT (R428), the forms of CHECKPOINT_ENROL (R398, R399, R405), PLACE_SET
(R393), and BAD_COMMAND, which counts in CMDSTAT and does nothing else (R188). -/
def Obligations.CommandsOfTenants : Prop :=
  ∀ (s : State) (n : Nat) (c : BitVec 512),
  let fn := Fn.vf n
  (Takes s fn c = true → cmdType c = 11 → bit (cmdOp c 1) 0 = false →
    let b := s.hostBytes n (cmdOp c 0).toNat 64
    let p := policyOf b s.period
    policyOk b = true → (p.dest :: slotsOf p.set).all (fun x => (s.origin x).st == .bound) = true →
    s.policies.all (fun q => q.id != p.id) = true → s.policies.length < 256 →
    if s.policySigned b (s.hostBytes n ((cmdOp c 0).toNat + 64) (64 * (slotsOf p.set).length)) (slotsOf p.set) = true then
      ∃ t, Answers (.policyInstall fn c true) s t fn c .ok ∧ Recorded s t fn c .completed .ok ∧
        t.policies = s.policies ++ [p]
    else ∃ t, Answers (.policyInstall fn c true) s t fn c .denied ∧ Recorded s t fn c .failed .denied ∧
        t.policies = s.policies) ∧
  (∀ p, Takes s fn c = true → cmdType c = 11 → bit (cmdOp c 1) 0 = true →
    s.policies.find? (fun p => p.id == field (cmdOp c 2) 31 0 && (p.set &&& s.originOf n != 0)) = some p →
    ∃ t, Answers (.policyRemove fn c) s t fn c .ok ∧ Recorded s t fn c .completed .ok ∧ t.policies = s.policies.erase p) ∧
  (Takes s fn c = true → cmdType c = 12 →
    let q := s.hostBytes n (cmdOp c 0).toNat 128
    let lead := tenancyField q 16 1
    let partner := tenancyField q 17 1
    let held := (s.vf lead).suspend || (s.vf partner).suspend
    joinOk q n s.power.image.vfs = true → (s.vf lead).ovalid = true → (s.vf partner).ovalid = true →
    if Config.ed25519 (s.origin (s.vf n).origin).key (q.take 64) (q.drop 64) = true then
    ((s.vf (if n = lead then partner else lead)).join = none → (s.vf n).join = none →
      ∃ t, Answers (.jointContext fn c true) s t fn c .ok ∧ Recorded s t fn c .running .ok ∧
        ((t.vf n).join.map (·.req)) = some (q.take 64)) ∧
    (∀ j nl np, (s.vf (if n = lead then partner else lead)).join = some j → j.req = q.take 64 →
      s.freeNumber lead = some nl → s.freeNumber partner = some np →
      ∃ t, Answers (.jointContext fn c true) s t fn c .ok ∧ Recorded s t fn c .completed .ok ∧
        Cells.find? t.contexts (contextKey lead nl) = some { vf := lead, num := nl, partner := some (partner, np),
                                                             root := tenancyField q 24 8, fq := tenancyField q 32 8,
                                                             st := if held then .saving else .live,
                                                             suspendedFrom := if held then some .live else none })
    else ∃ t, Answers (.jointContext fn c true) s t fn c .denied ∧ Recorded s t fn c .failed .denied ∧
      t.contexts = s.contexts) ∧
  (∀ k, Takes s fn c = true → cmdType c = 13 → s.namedContext fn c = some k →
    let key := field (cmdOp c 0) 63 32
    (field (cmdOp c 0) 1 0 = 0 → s.enrolled k = false → (Cells.find? s.fabric.groups key) = none → s.fabric.reports = [] →
      s.placesFit (s.context k).vf (BitVec.ofNat 16 (field (cmdOp c 2) 15 0)) (field (cmdOp c 2) 19 16) = true →
      ∃ t g, Answers (.checkpointEnrol fn c) s t fn c .ok ∧ Cells.find? t.fabric.groups key = some g ∧ g.ctx = k ∧
        g.interval = field (cmdOp c 1) 31 0 ∧ (g.st = .enrolling ∨ g.st = .running)) ∧
    (∀ g, field (cmdOp c 0) 1 0 = 1 → Cells.find? s.fabric.groups key = some g → g.ctx = k →
      (g.st = .running → g.n = g.committed → ∃ t, Answers (.checkpointWithdraw fn c) s t fn c .ok ∧
        Recorded s t fn c .completed .ok ∧ Cells.find? t.fabric.groups key = none) ∧
      (g.st = .copying → ∃ t, Answers (.checkpointWithdraw fn c) s t fn c .ok ∧ Recorded s t fn c .running .ok ∧
        ((Cells.find? t.fabric.groups key).map (·.dissolve)) = some true))) ∧
  (∀ v, Takes s .pf c = true → cmdType c = 13 → field (cmdOp c 0) 1 0 = 2 →
    (List.range 32).find? (fun v => (s.vf v).suspended &&
      s.placesFit v (BitVec.ofNat 16 (field (cmdOp c 2) 15 0)) (field (cmdOp c 2) 19 16)) = some v →
    s.ctxKey v (cmdNum c) = none → Cells.find? s.fabric.groups (field (cmdOp c 0) 63 32) = none →
    ∃ t g, Answers (.checkpointAdopt .pf c) s t .pf c .ok ∧ Recorded s t .pf c .running .ok ∧
      (t.context (contextKey v (cmdNum c))).st = .saved ∧
      Cells.find? t.fabric.groups (field (cmdOp c 0) 63 32) = some g ∧ g.st = .rollback ∧ g.adopt = true) ∧
  (Takes s .pf c = true → cmdType c = 14 → field (cmdOp c 0) 9 8 = 0 → bit (cmdOp c 0) 24 = true → s.fabric.groups = [] →
    let v := field (cmdOp c 0) 4 0
    let m := field (cmdOp c 1) 3 0
    m ≠ s.self → m < s.power.image.nModules →
    ((s.vf v).suspended = true → ∃ t, Answers (.placeSet .pf c) s t .pf c .ok ∧ Recorded s t .pf c .completed .ok ∧
      Cells.find? (t.vf v).peers (field (cmdOp c 0) 19 16) = some (m, field (cmdOp c 1) 12 8)) ∧
    ((s.vf v).suspended = false → ∃ t, Answers (.placeSet .pf c) s t .pf c .denied ∧
      Recorded s t .pf c .failed .denied ∧ t.vfs = s.vfs)) ∧
  (∀ bytes, s.hasPort fn = true → s.portHeld fn = false → (s.port fn.port).queue = [] →
    (bytes.length ≠ 64 ∨ (bytes.length = 64 ∧ c = BitVec.ofNat 512 (ofBytes bytes) ∧ operandsOk fn c = false)) →
    let tag := if bytes.length = 64 then cmdTag c else 0
    ∃ t, exec (.badCommand fn bytes) s = .next t ∧ t = s.onPort fn.port (fun p =>
      { p with tag := tag, status := .badCommand, count := (p.count + 1) % 65536 }))

/-- CONTEXT_SAVE_COMPLETE (R365, R367), RESTORE_COMPLETE (R370), SUSPEND_SET and SUSPEND_CLEAR (R373), SFADD (R366): a save
takes every team of the context off its core into frames of its VF, or stalls; a restore makes the context Live; a suspension
brings every Live context to a save and its end restores it; a frame in DRAM joins the free list. -/
def Obligations.SavesAndSuspensions : Prop :=
  ∀ (s : State),
  (∀ vf n k c, s.ctxKey vf n = some k → Cells.find? s.contexts k = some c → c.st = .saving → c.suspendedFrom = none →
    s.stopped k = true → c.save = none → c.stalled = false → c.resumeJ = [] →
    let need := s.framesNeeded ((s.teamsOf k).map s.toSave)
    (need ≤ (s.vf c.vf).free.length → ∃ t sv, exec (.contextSaveComplete vf n) s = .next t ∧ (t.context k).st = .saved ∧
      (t.context k).save = some sv ∧ sv.frames = (s.vf c.vf).free.take need ∧ sv.teams.map (·.key) = s.teamsOf k ∧
      (∀ y ∈ t.teams, y.1 ∉ s.teamsOf k)) ∧
    ((s.vf c.vf).free.length < need → ∃ t, exec (.contextSaveComplete vf n) s = .next t ∧ (t.context k).st = .saving ∧
      (t.vf c.vf).stalled = true ∧ (t.vf c.vf).exhausted = true ∧ t.teams = s.teams)) ∧
  (∀ vf n k c u, s.ctxKey vf n = some k → Cells.find? s.contexts k = some c → c.st = .restoring →
    (s.saveIntact (c.save.getD {}) = false → ∃ t, exec (.restoreComplete vf n) s = .next t ∧ (t.context k).st = .saved ∧
      t.teams = s.teams) ∧
    (s.saveIntact (c.save.getD {}) = true → c.handle.isSome = true → c.again = false →
      s.putSave (c.save.getD {}) = some u → Cells.find? u.contexts k = some c → c.answered = [] →
      ∃ t, exec (.restoreComplete vf n) s = .next t ∧ (t.context k).st = .live ∧ (t.context k).save = none ∧
        t.teams = u.teams)) ∧
  (∀ vf, (s.vf vf).suspend = false → ∃ t, exec (.suspendSet vf) s = .next t ∧ (t.vf vf).suspend = true ∧
    (∀ c ∈ s.contexts, c.2.ofVf vf = true → c.2.st = .live → c.2.suspendedFrom = none →
      (c.1, { c.2 with st := .saving, suspendedFrom := some .live }) ∈ t.contexts) ∧
    (∀ c ∈ s.contexts, c.2.ofVf vf = false → c ∈ t.contexts)) ∧
  (∀ vf, (s.vf vf).suspend = true → (s.port (vf + 1)).queue = [] →
    ∃ t, exec (.suspendClear vf) s = .next t ∧ (t.vf vf).suspend = false ∧ (t.vf vf).suspended = false ∧
    (∀ k c, Cells.find? s.contexts k = some c → c.vf = vf → c.partner = none → c.st = .saved →
      c.suspendedFrom = some .live → (t.context k).st = .restoring)) ∧
  (∀ vf x whole,
    (whole = true → field x 11 0 = 0 → rangeInDram x.toNat 4096 = true → (s.vf vf).free.length < 65536 →
      ∃ t, exec (.sfadd vf x whole) s = .next t ∧ t.vf vf = { s.vf vf with free := (s.vf vf).free ++ [x.toNat / 4096] }) ∧
    (whole = false ∨ field x 11 0 ≠ 0 ∨ rangeInDram x.toNat 4096 = false →
      ∃ t, exec (.sfadd vf x whole) s = .next t ∧ t.vf vf = { s.vf vf with badadd := true }))

/-- TENANCY_WRITE (R410), GRANT_WRITE (R423), UNBIND, ORIGIN_UNBIND_COMPLETE, BIND_ORIGIN and SPDM_SESSION (R424-R427),
REGISTER_WRITE (R5, R366, R427), FUNCTION_LEVEL_RESET (R187). A write of a whole register takes it or sets TENERR; a grant
written is the next period's, the scrubber's never below its minimum. -/
def Obligations.TenancyOriginsAndRegisters : Prop :=
  (∀ (s : State) (vf : Nat) (x : BitVec 64), vf < 32 →
    (field x 63 12 = 0 → field x 7 5 = 0 → field x 10 8 < 6 → s.hasContext vf = false →
      (bit x 4 = true → (s.origin (field x 3 0)).st = .bound) →
      ∃ t, exec (.tenancyWrite vf 0 8 x) s = .next t ∧ t = s.onVf vf (fun v =>
        { v with strict := bit x 11, cap := field x 10 8, ovalid := bit x 4, origin := field x 3 0 })) ∧
    (6 ≤ field x 10 8 ∨ field x 63 12 ≠ 0 → exec (.tenancyWrite vf 0 8 x) s = .next (s.onVf vf (fun v => { v with tenerr := true }))) ∧
    (field x 63 1 = 0 → exec (.tenancyWrite vf 24 8 x) s =
      .next (s.onVf vf (fun v => { v with tenerr := v.tenerr && !bit x 0 })))) ∧
  (∀ (s : State) (a k : Nat) (x : BitVec 64), a < 38 → k < 5 →
    ∃ t, exec (.grantWrite a { off := 8 * k, width := 4 } x) s = .next t ∧ t = { s with budgets := t.budgets } ∧
      t.grantNext a k = (if a = 32 then max (x.toNat % 2 ^ 32) s.power.image.scrubMin else x.toNat % 2 ^ 32) ∧
      (∀ b, (Cells.get t.budgets b).grant = (Cells.get s.budgets b).grant) ∧
      (∀ b j, b ≠ a ∨ j ≠ k → t.grantNext b j = s.grantNext b j)) ∧
  (∀ (s : State) (slot : Nat),
    let named := s.contexts.any (fun c => c.2.st != .ended && (s.origins_ c.2).getLsbD slot)
    ((s.origin slot).st = .bound → named = false → ∃ t, exec (.unbind slot) s = .next t ∧
      t.origin slot = { s.origin slot with st := .unbinding } ∧
      t.policies = s.policies.filter (fun p => !p.set.getLsbD slot && p.dest != slot) ∧ SameBytes t s) ∧
    ((s.origin slot).st ≠ .bound ∨ named = true → exec (.unbind slot) s = .next s)) ∧
  (∀ (s : State) (slot : Nat),
    ((s.origin slot).st = .unbinding → s.teams = [] →
      ∃ t, exec (.originUnbindComplete slot) s = .next t ∧ t.origin slot = {} ∧
        (∀ f, (Cells.get t.frameLab f).getLsbD slot = false) ∧
        (∀ a, (Cells.get s.frameLab (a / 4096)).getLsbD slot = true → Cells.get t.mem a = 0)) ∧
    ((s.origin slot).st ≠ .unbinding → exec (.originUnbindComplete slot) s = .next s)) ∧
  (∀ (s : State) (key : List Byte),
    (s.spdm = none → exec (.bindOrigin key) s = .next { s with out := .refused :: s.out }) ∧
    (∀ sum n, s.spdm = some sum → (List.range 16).find? (fun n => (s.origin n).st == .free) = some n →
      (key.length = 32 → ∃ t, exec (.bindOrigin key) s = .next t ∧
        t.origin n = { s.origin n with st := .bound, key := key, summary := sum } ∧ .bound n ∈ t.out) ∧
      (key.length ≠ 32 → exec (.bindOrigin key) s = .next { s with out := .doeError :: s.out })) ∧
    (∀ sum, s.spdm = some sum → (∀ n, n < 16 → (s.origin n).st ≠ .free) →
      exec (.bindOrigin key) s = .next { s with out := .doeError :: s.out })) ∧
  (∀ (s : State) (auth : Bool) (sum : List Byte),
    exec (.spdmSession auth sum) s = .next { s with spdm := if auth then some sum else none }) ∧
  (∀ (s : State) (n : Nat) (x : BitVec 64),
    (n < 32 → exec (.registerWrite .pf (0x100010 + 64 * n) 8 x) s = .next (s.onVf n (fun v =>
      { v with badadd := v.badadd && !bit x 2, exhausted := v.exhausted && !bit x 1 }))) ∧
    (n < 16 → bit x 7 = true → bit x 6 = false → exec (.registerWrite .pf (0x800000 + 64 * n) 8 x) s =
      .next (s.onOrigin n (fun o => { o with hostwb := false })))) ∧
  (∀ (s : State) (vf : Nat), (∀ y ∈ s.contexts, y.2.unbinding = false) →
    ((∀ y ∈ s.contexts, y.2.ofVf vf = false) → ∃ t, exec (.functionLevelReset vf) s = .next t ∧
      Cells.find? t.ports (vf + 1) = none ∧ (t.vf vf).join = none ∧ t.teams = s.teams ∧ SameBytes t s) ∧
    (∀ k, (s.contexts.filter (fun c => c.2.ofVf vf)).map (·.1) = [k] → (∀ a ∈ s.accesses, a.ctx ≠ k) →
      (∀ y ∈ s.cores, ∀ ch ∈ y.2.chans, ∀ z ∈ ch.2.xfers, z.ctx ≠ k) →
      ∃ t, exec (.functionLevelReset vf) s = .next t ∧ Cells.find? t.ports (vf + 1) = none ∧
        Cells.find? t.contexts k = none))

/-- BUDGET_PERIOD (R422) and UPDATE_GENERATION_ADVANCE (R232) act at the end of a period only; SCRUB_VISIT changes no value,
label or poison (R231); UNCORRECTABLE_ERROR follows R357; a core sleeps without a resident warp and wakes, dropping its L1
whole when a count or filter overflowed (R233). -/
def Obligations.PeriodsErrorsAndSleep : Prop :=
  ∀ (s : State),
  (s.periodEnds = true → ∃ t, exec .budgetPeriod s = .next t ∧ t.cycle = s.cycle + 1 ∧ SameBytes t s ∧
    (∀ a b, Cells.find? s.budgets a = some b → ∃ c, Cells.find? t.budgets a = some c ∧ c.next = [] ∧ c.used = [] ∧
      (∀ k g, b.next = [(k, g)] → Cells.find? c.grant k = some g)) ∧
    (∀ d, d < 8 → (t.die d).forwarded = false ∧
      (t.die d).gen = if s.genDue d then ((s.die d).gen + 1) % 65536 else (s.die d).gen)) ∧
  (s.periodEnds = false → exec .budgetPeriod s = .next s ∧ ∀ d, exec (.updateGenerationAdvance d) s = .next s) ∧
  (∀ d, s.periodEnds = true → (s.genDue d = true → ∃ t, exec (.updateGenerationAdvance d) s = .next t ∧
      (t.die d).gen = ((s.die d).gen + 1) % 65536 ∧ t.genDue d = false ∧ SameBytes t s) ∧
    (s.genDue d = false → exec (.updateGenerationAdvance d) s = .next s)) ∧
  (∀ l, ∃ t, exec (.scrubVisit l) s = .next t ∧ t = { s with budgets := t.budgets }) ∧
  (∀ l, (l.kind = .dram →
      let dirty := (Cells.get (s.die (lineDie l.line)).l2 (lineSet l.line)).any (fun x => x.line == l.line && x.dirty)
      (dirty = false → ∃ t, exec (.uncorrectableError l) s = .next t ∧ l.line ∈ t.poison ∧ SameBytes t s ∧
        t.contexts = s.contexts) ∧ (dirty = true → exec (.uncorrectableError l) s = .next s)) ∧
    (l.kind = .opmem → (Cells.get (s.core l.owner).slots l.item).holder = none →
      ∃ t, exec (.uncorrectableError l) s = .next t ∧ Cells.get (t.core l.owner).slots l.item = default ∧
        t.contexts = s.contexts) ∧
    (l.kind = .opmem → ∀ k, (Cells.get (s.core l.owner).slots l.item).holder = some k →
      exec (.uncorrectableError l) s = .next (s.endContext (s.team k).ctx { reason := 2, detail10 := 4 })) ∧
    (l.kind = .l1 → (∀ x, Cells.find? (s.core l.owner).l1 l.line = some x → x.dirty = 0) →
      ∃ t, exec (.uncorrectableError l) s = .next t ∧ Cells.find? (t.core l.owner).l1 l.line = none ∧ SameBytes t s ∧
        t.contexts = s.contexts)) ∧
  (∀ core, (s.teams.any (fun x => x.2.core == core) = true → exec (.retentionSleepEnter core) s = .next s) ∧
    (s.teams.any (fun x => x.2.core == core) = false → (s.core core).sleep = none →
      ∃ t, exec (.retentionSleepEnter core) s = .next t ∧ SameBytes t s ∧
        (t.core core).sleep = some { gen0 := (s.die (dieOf core)).gen, count := 0, lines := [], overflow := false } ∧
        ∀ u ∈ t.updates, u.core ≠ core) ∧
    (∀ z, (s.core core).sleep = some z →
      (32768 ≤ z.count ∨ z.overflow = true → ∃ t, exec (.retentionWake core) s = .next t ∧ (t.core core).sleep = none ∧
        (t.core core).l1 = [] ∧ SameBytes t s) ∧
      (z.count < 32768 → z.overflow = false → z.lines = [] → ∃ t, exec (.retentionWake core) s = .next t ∧
        t.core core = { s.core core with sleep := none } ∧ SameBytes t s) ∧
      (∀ l g y, z.count < 32768 → z.overflow = false → z.lines = [(l, g)] → l < 2 ^ 46 →
        Cells.find? (s.core core).l1 l = some y → ∃ t x, exec (.retentionWake core) s = .next t ∧
        (t.core core).sleep = none ∧ Cells.find? (t.core core).l1 l = some x ∧ x.data = s.lineBytes (.dev (128 * l)) ∧
        x.mark = y.mark)))

/-- CAST_ON (R435): a sequence that ends well leaves every frame zero and unlabelled, no context and the ports open; one that
fails stays at its stage with the ports closed. POWER_OUT_OF_RANGE: outside 48 to 54 V nothing is powered.
MANAGEMENT_REQUEST only lowers frequencies and grants and only tightens the governor (R437). -/
def Obligations.PowerAndManagement : Prop :=
  ∀ (s : State),
  (∀ c, c.islandsOk = true → c.stacksOk = true → c.imageOk = true → c.image.inRange = true → c.cxlOk = true →
    ∃ t, exec (.castOn c) s = .next t ∧ t.power.on = true ∧ t.power.portsOpen = true ∧ t.power.stage = 5 ∧ t.mem = [] ∧
      t.frameLab = [] ∧ t.contexts = [] ∧ t.teams = [] ∧ t.power.image = c.image ∧
      (∀ n b, c.image.bindings = [(n, b)] → (t.origin n).st = .bound ∧ (t.origin n).key = b)) ∧
  (∀ c, c.islandsOk = false ∨ c.stacksOk = false ∨ c.imageOk = false ∨ c.image.inRange = false ∨ c.cxlOk = false →
    ∃ t, exec (.castOn c) s = .next t ∧ t.power.portsOpen = false ∧ t.power.stage < 5) ∧
  (∀ mv, (mv < 48000 ∨ 54000 < mv → ∃ t, exec (.powerOutOfRange mv) s = .next t ∧ t.power.on = false ∧
      t.power.portsOpen = false ∧ (t.agenda = [] → step t = .fault .unpowered)) ∧
    (48000 ≤ mv → mv ≤ 54000 → exec (.powerOutOfRange mv) s = .next s)) ∧
  (∀ island mhz, island < 512 → (∀ f, Cells.find? s.power.frequency island = some f → mhz < f) →
    ∃ t, exec (.managementRequest (.lowerFrequency island mhz)) s = .next t ∧
      Cells.find? t.power.frequency island = some mhz) ∧
  (∀ l i r, ∃ t, exec (.managementRequest (.tightenGovernor l i r)) s = .next t ∧ t.power.limit8 ≤ s.power.limit8 ∧
    t.power.idle ≤ s.power.idle ∧ s.power.ramp ≤ t.power.ramp) ∧
  (∀ a k g, a < 32 → k < 5 → g < s.grantOf a k → g < 2 ^ 32 → Cells.find? (Cells.get s.budgets a).next k = none →
    ∃ t, exec (.managementRequest (.lowerGrant a k g)) s = .next t ∧
      Cells.find? (Cells.get t.budgets a).next k = some g)

/-- FLIT_RECEIVE (R388): the next flit of a network is delivered once, a store with its data and label at its home; a
duplicate is discarded and acknowledged again, a later one is held. FLIT_ACK: the sender releases the flit and its store is
performed. LIVENESS_SEND: every 1 µs each module that is not dead gets a liveness flit on VN7.
A used link goes down after 16 µs without a liveness flit or when a flit's retries are used up, and comes up after 1 ms of clean
liveness flits (R389, R390). A module silent for 64 µs is dead: it is announced to those that can be reached, raises
MODULE_LOST, and its flits go (R396). -/
def Obligations.FlitsAndLinks : Prop :=
  (∀ (s : State),
  (∀ port f, s.portUsed port = true → (s.link port).trained = true → (s.link port).up = true → s.liveOf port f = false →
    f.dst = s.self → f.src ≠ s.self → s.fabric.dead.contains f.src = false → ordered f.vn = true → s.fabric.held = [] →
    let key := f.src * 8 + f.vn
    (f.seq < Cells.get s.fabric.expect key → ∃ t, exec (.flitReceive { port, flit := f }) s = .next t ∧ t = { s with out := t.out } ∧
      (s.fabric.stages = [] → s.fabric.owed = [] → t.out = .flitAck f.src f.vn f.seq :: s.out)) ∧
    (Cells.get s.fabric.expect key < f.seq → ∃ t, exec (.flitReceive { port, flit := f }) s = .next t ∧
      t = { s with fabric := { s.fabric with held := [f] } }) ∧
    (∀ tag pvf pa o scp n x, f.seq = Cells.get s.fabric.expect key → f.vn ≠ 2 →
      f.body = .request tag pvf pa o scp (.store n x) →
      s.mayServe { src := f.src, tag, vf := pvf, vn := f.vn, scp, lab := f.lab } pa.toNat n true = true →
      ∃ t, exec (.flitReceive { port, flit := f }) s = .next t ∧ WroteDev s t pa.toNat n f.lab ∧
        Cells.readLE t.mem pa.toNat n = x.toNat % 2 ^ (8 * n) ∧ t.fabric.held = [] ∧
        Cells.get t.fabric.expect key = f.seq + 1)) ∧
  (∀ dst vn seq f tag pvf pa o scp n x a,
    s.fabric.sent.find? (fun f => f.dst == dst && f.vn == vn && f.seq == seq) = some f →
    f.body = .request tag pvf pa o scp (.store n x) → s.accesses.find? (fun a => a.id == tag && a.sent) = some a →
    (∃ d, a.op = .store d) →
    ∃ t, exec (.flitAck dst vn seq) s = .next t ∧ t.fabric.sent = s.fabric.sent.erase f ∧
      t.accesses = s.accesses.filter (fun x => x.id != a.id) ∧ t.mem = s.mem) ∧
  ((∀ a, s.fabric.liveAt = some a → a + 2700 ≤ s.cycle) → ∃ t, exec .livenessSend s = .next t ∧ SameBytes t s ∧
    t.fabric.liveAt = some s.cycle ∧
    ∀ m, m < s.power.image.nModules → m ≠ s.self → s.fabric.dead.contains m = false →
      ∃ f ∈ t.fabric.sent, f.dst = m ∧ f.vn = 7 ∧ f.src = s.self ∧ f.body = .live s.downTo) ∧
  (∀ a, s.fabric.liveAt = some a → s.cycle < a + 2700 → exec .livenessSend s = .next s)) ∧
  (∀ (s : State),
  (∀ p, s.portUsed p = true → (s.link p).trained = true →
    let l := s.link p
    (l.up = true → l.lastLive + 43200 ≤ s.cycle → ∃ t, exec (.linkLivenessTimeout p) s = .next t ∧
      t.link p = { l with up := false, downAt := s.cycle, clean := s.cycle } ∧ SameBytes t s) ∧
    (s.cycle < l.lastLive + 43200 → exec (.linkLivenessTimeout p) s = .next s) ∧
    (l.up = true → ∃ t, exec (.linkRetryExhausted p) s = .next t ∧
      t.link p = { l with up := false, downAt := s.cycle, clean := s.cycle } ∧ SameBytes t s) ∧
    (l.up = false → l.clean + 2700000 ≤ s.cycle → s.cycle < l.lastLive + 43200 → ∃ t, exec (.linkUp p) s = .next t ∧
      t.link p = { l with up := true, lastLive := s.cycle } ∧ SameBytes t s) ∧
    (s.cycle < l.clean + 2700000 ∨ l.lastLive + 43200 ≤ s.cycle → exec (.linkUp p) s = .next s)) ∧
  (∀ m, m < s.power.image.nModules → m ≠ s.self → s.fabric.dead.contains m = false → s.fabric.groups = [] →
    (∀ k, s.lostAccess k m = none) →
    (Cells.get s.fabric.silentFrom m + 172800 ≤ s.cycle → ∃ t, exec (.moduleDeadDeclare m) s = .next t ∧
      t.fabric.dead = s.fabric.dead ++ [m] ∧ .msix 0 1 ∈ t.out ∧ t.contexts = s.contexts ∧
      (∀ f ∈ t.fabric.sent, f.dst ≠ m) ∧
      (∀ k ∈ s.reachable, k ≠ m → ∃ f ∈ t.fabric.sent, f.dst = k ∧ f.vn = 7 ∧ f.body = .dead m)) ∧
    (s.cycle < Cells.get s.fabric.silentFrom m + 172800 → exec (.moduleDeadDeclare m) s = .next s) ∧
    (∃ t, exec (.moduleDeadAnnounce m) s = .next t ∧ t.fabric.dead = s.fabric.dead ++ [m] ∧ .msix 0 1 ∈ t.out ∧
      t.contexts = s.contexts ∧ (∀ f ∈ t.fabric.sent, f.dst ≠ m))))

/-- The steps of a checkpoint up to its cut (R400, R401, R403): the leader begins it and tells the others; each member quiesces,
reports DRAINED once its context has stopped, and at CUT takes the cut, whose pages' first later writes wait for a copy of
what they held.
The end of a checkpoint (R400, R403): a member whose copy is acknowledged reports SOUND, and at COMMIT the checkpoint is
the last committed one. After a rollback with every lost member replaced, the context is restored (R405). -/
def Obligations.CheckpointSteps : Prop :=
  (∀ (s : State) (key : Nat) (g : Group), Cells.find? s.fabric.groups key = some g →
  (g.st = .running → g.n = g.committed → s.leads g = true → g.due ≤ s.cycle → g.dissolve = false →
    ∃ t, exec (.checkpointBegin key) s = .next t ∧ (t.group key).st = .quiescing ∧ (t.group key).n = g.n + 1 ∧
      (t.group key).due = s.cycle + msCycles g.interval ∧
      (∀ m ∈ s.others g, ∃ f ∈ t.fabric.sent, f.dst = m ∧ f.vn = 7 ∧ f.body = .check .begin key (g.n + 1))) ∧
  (s.cycle < g.due → exec (.checkpointBegin key) s = .next s) ∧
  (g.st = .running → g.n = g.committed → ∃ t, exec (.beginReceive key (g.n + 1)) s = .next t ∧
    (t.group key).st = .quiescing ∧ (t.group key).n = g.n + 1 ∧ t.mem = s.mem) ∧
  (g.st = .quiescing → s.drainedOf g.ctx = true → s.leads g = false → s.self ∉ g.drainedBy →
    ∃ t, exec (.drained key) s = .next t ∧ (t.group key).st = .draining ∧
      (t.group key).drainedBy = g.drainedBy ++ [s.self] ∧
      (∀ m ∈ s.others g, ∃ f ∈ t.fabric.sent, f.dst = m ∧ f.body = .check .drained key g.n)) ∧
  (∀ src m, src ∉ g.drainedBy → m ∈ g.phys → m ∉ g.drainedBy → m ≠ src →
    ∃ t, exec (.drainedReceive key g.n src) s = .next t ∧ (t.group key).drainedBy = g.drainedBy ++ [src] ∧
      (t.group key).st = g.st) ∧
  (g.st = .draining →
    let vf := (s.context g.ctx).vf
    let need := s.framesNeeded (s.imageTeams g.ctx)
    (need ≤ (s.vf vf).free.length → ∃ t, exec (.cutReceive key g.n) s = .next t ∧ (t.group key).st = .copying ∧
      (t.group key).cutN = g.n ∧ (t.group key).written = [] ∧ ∃ i ∈ (t.group key).images, i.n = g.n ∧
        i.frames = (s.vf vf).free.take need) ∧
    ((s.vf vf).free.length < need → ∃ t, exec (.cutReceive key g.n) s = .next t ∧ (t.group key).st = .draining ∧
      (t.group key).stalled = true ∧ (t.vf vf).exhausted = true ∧ t.mem = s.mem)) ∧
  (∀ frame h rest, g.owesPreImage frame = true → (s.vf (s.context g.ctx).vf).free = h :: rest → h ≠ frame →
    ∃ t, exec (.preImageCopy key frame) s = .next t ∧
      (∃ i ∈ (t.group key).pre, i.n = g.cutN ∧ i.pa = 4096 * frame ∧ i.data = s.frameBytes frame ∧
        i.lab = Cells.get s.frameLab frame ∧ i.held = some h) ∧
      (∀ a, a < 4096 → Cells.get t.mem (4096 * h + a) = Cells.get s.mem (4096 * frame + a)) ∧
      (∀ a, a < 4096 * h ∨ 4096 * h + 4096 ≤ a → Cells.get t.mem a = Cells.get s.mem a))) ∧
  (∀ (s : State) (key : Nat) (g : Group), Cells.find? s.fabric.groups key = some g →
  (g.st = .copying → g.unacked = [] → s.leads g = false → s.self ∉ g.soundBy →
    ∃ t, exec (.sound key) s = .next t ∧ (t.group key).st = .sound ∧
      (t.group key).soundBy = g.soundBy ++ [s.self] ∧
      (∀ m ∈ s.others g, ∃ f ∈ t.fabric.sent, f.dst = m ∧ f.body = .check .sound key g.n)) ∧
  (g.unacked ≠ [] → exec (.sound key) s = .next s) ∧
  (∀ src m, src ∉ g.soundBy → m ∈ g.phys → m ∉ g.soundBy → m ≠ src →
    ∃ t, exec (.soundReceive key g.n src) s = .next t ∧ (t.group key).soundBy = g.soundBy ++ [src] ∧
      (t.group key).st = g.st) ∧
  (g.st = .sound → g.cutN = g.n → (g.dissolve = false → ∃ t, exec (.commitReceive key g.n) s = .next t ∧ (t.group key).st = .running ∧
      (t.group key).committed = g.n ∧ (∀ i ∈ (t.group key).images, g.n ≤ i.n) ∧ (∀ i ∈ (t.group key).pre, g.n ≤ i.n) ∧
      (t.group key).staging = []) ∧
    (g.dissolve = true → ∃ t, exec (.commitReceive key g.n) s = .next t ∧ Cells.find? t.fabric.groups key = none)) ∧
  (g.st = .rollback → g.unacked = [] → g.lost = [] → g.adopt = false → (s.vf (s.context g.ctx).vf).suspend = false →
    (Cells.find? s.contexts g.ctx).isSome = true → (s.context g.ctx).again = false →
    ∃ t, exec (.rollbackRestore key) s = .next t ∧ (t.group key).st = .running ∧ (t.group key).due = s.cycle ∧
      (t.context g.ctx).st = .restoring ∧ t.mem = s.mem) ∧
  (g.st = .rollback → g.adopt = false → g.lost ≠ [] → exec (.rollbackRestore key) s = .next s))

/-- HOST_MEM_READ, HOST_MEM_WRITE, HOST_ATOMIC (R411, R417): a read answers memory's bytes when the window's origin covers the
frame's label and the line is not poisoned, and a poisoned completion otherwise; a write adds the window's origin;
an atomic runs at its home and answers the old value.
HOST_SNOOP (R413): a half goes back or is shared after its dirty bytes reach host memory, and stays dirty when that fails
(R414). BACK_INVALIDATE_COMPLETE (R416): a half returns for a write and is shared for a read. CXL_CACHE_REQUEST_FAIL: the
next request for the half fails. -/
def Obligations.HostAccessesAndHalves : Prop :=
  (∀ (s : State) (pa : Nat),
  (∀ n, s.hostWaits pa n false = false →
    (s.hostRefused pa n = false → ∃ t, exec (.hostMemRead pa n) s = .next t ∧ SameBytes t s ∧
      t.out = .memData pa (bytesOf n (Cells.readLE s.mem pa n)) :: s.out) ∧
    (rangeInDram pa n = false ∨ s.poisoned (.dev pa) n = true ∨
        (0 < n ∧ Cells.get s.frameLab (pa / 4096) &&& ~~~(s.windowOrigin pa) ≠ 0) →
      ∃ t, exec (.hostMemRead pa n) s = .next t ∧ t = { s with out := .poisoned pa :: s.out })) ∧
  (∀ n, s.hostWaits pa n false = true → exec (.hostMemRead pa n) s = .next s) ∧
  (∀ bytes, s.hostWaits pa bytes.length true = false → rangeInDram pa bytes.length = true →
    ∃ t, exec (.hostMemWrite pa bytes) s = .next t ∧ HostWrote s t pa bytes.length ∧
      Cells.readLE t.mem pa bytes.length = ofBytes bytes) ∧
  (∀ bytes, s.hostWaits pa bytes.length true = true ∨ rangeInDram pa bytes.length = false →
    exec (.hostMemWrite pa bytes) s = .next s) ∧
  (∀ op n sg b, s.hostWaits pa n true = false → s.hostRefused pa n = false →
    ∃ t, exec (.hostAtomic pa (.rmw op n sg b)) s = .next t ∧ HostWrote s t pa n ∧
      Cells.readLE t.mem pa n =
        atomNew op sg (8 * n) (Cells.readLE s.mem pa n) (b.toNat % 2 ^ (8 * n)) % 2 ^ (8 * n) ∧
      t.out = .atomicOld (BitVec.ofNat 64 (Cells.readLE s.mem pa n)) :: s.out) ∧
  (∀ n e x, s.hostWaits pa n true = false → s.hostRefused pa n = false → Cells.readLE s.mem pa n ≠ e.toNat % 2 ^ (8 * n) →
    ∃ t, exec (.hostAtomic pa (.cas n e x)) s = .next t ∧ SameBytes t s ∧
      t.out = .atomicOld (BitVec.ofNat 64 (Cells.readLE s.mem pa n)) :: s.out) ∧
  exec (.hostAtomic pa .fence) s = .next s) ∧
  (∀ (s : State) (h : Nat),
  let k := h / 64
  (∀ remove, Cells.get s.hostHalves k ≠ .invalid →
    (Cells.get s.hostHalves k = .dirty ∧ s.hostFail.contains k = true → ∃ t, exec (.hostSnoop h remove) s = .next t ∧
      t.hostHalves = s.hostHalves ∧ t.hostMem = s.hostMem ∧ t.hostFail = s.hostFail.filter (· != k)) ∧
    (Cells.get s.hostHalves k ≠ .dirty ∨ s.hostFail.contains k = false → ∃ t, exec (.hostSnoop h remove) s = .next t ∧
      Cells.get t.hostHalves k = (if remove then .invalid else .shared) ∧ t.mem = s.mem ∧
      (Cells.get s.hostHalves k = .dirty →
        Cells.readLE t.hostMem (64 * k) 64 = Cells.readLE s.hostData (64 * k) 64) ∧
      (∀ a, a < 64 * k ∨ 64 * k + 64 ≤ a → Cells.get t.hostMem a = Cells.get s.hostMem a))) ∧
  (∀ remove, Cells.get s.hostHalves k = .invalid → exec (.hostSnoop h remove) s = .next s) ∧
  (Cells.get s.halves h ≠ .dev → s.wantsHalf h = some true → ∃ t, exec (.backInvalidateComplete h) s = .next t ∧
    Cells.get t.halves h = .dev ∧ SameBytes t s) ∧
  (Cells.get s.halves h = .host → s.wantsHalf h = some false → ∃ t, exec (.backInvalidateComplete h) s = .next t ∧
    Cells.get t.halves h = .shared ∧ SameBytes t s) ∧
  (s.wantsHalf h = none → exec (.backInvalidateComplete h) s = .next s) ∧
  (∃ t, exec (.cxlCacheRequestFail h) s = .next t ∧ t.hostFail.contains k = true ∧ SameBytes t s))

/-- VZ and PT (R12, R13, R14): VZ reads as zero in every width, PT as 1 in every lane, both carry the empty label, and a write of
either changes no register and no label; an instruction whose destination is VZ or PT completes and leaves its warp's registers
as they were. -/
def Obligations.HardWiredRegistersReadConstants : Prop :=
  (∀ (c : Cx) (l : Nat) (w : Warp) (full : Bool) (amb : Label) (x : Wr),
    c.v l 255 = 0 ∧ c.v2 l 255 = 0 ∧ c.v4 l 255 = 0 ∧ c.p l 7 = true ∧ w.lab (.v 255) = 0 ∧ w.lab (.p 7) = 0 ∧
    (x.reg = .v 255 ∨ x.reg = .p 7 → ∀ id, w.write full amb id x = w)) ∧
  (∀ (h : Hdr) (t : IType) (tt a b : BitVec 8) (pa pb pc : BitVec 3) (s : State) (n : Now),
    (Issues (.iadd h false t 255 a b) s n = true → Completes (.iadd h false t 255 a b) s n s []) ∧
    (Issues (.plog h tt 7 pa pb pc) s n = true → Completes (.plog h tt 7 pa pb pc) s n s []))

/-- What reset leaves (R435, R187; that reset is the end of the cast-on sequence is this model's choice, log 1): the ports are open,
each port's journal is empty, JHEAD and JTAIL are 1 and CMDSTAT is zero, every byte of device memory reads zero without a label
and without poison, no context, launch or team exists, and memory has its canonical form. That host memory reads zero is this
model's choice (log 2). -/
def Obligations.ResetIsTheEndOfCastOn : Prop :=
  State.reset.power.on = true ∧ State.reset.power.portsOpen = true ∧ State.reset.power.stage = 5 ∧
  (∀ p, (State.reset.port p).journal = [] ∧ (State.reset.port p).head = 1 ∧ (State.reset.port p).tail = 1 ∧
    (State.reset.port p).tag = 0 ∧ (State.reset.port p).status = .ok ∧ (State.reset.port p).count = 0) ∧
  (∀ pa, Cells.get State.reset.mem pa = 0 ∧ Cells.get State.reset.frameLab (pa / 4096) = 0 ∧
    State.reset.poison.contains (pa / 128) = false) ∧
  (∀ k, Cells.find? State.reset.contexts k = none ∧ Cells.find? State.reset.launches k = none ∧
    Cells.find? State.reset.teams k = none) ∧
  (∀ pa, Cells.get State.reset.hostMem pa = 0) ∧
  Memory.wf State.reset.mem = true ∧ Memory.wf State.reset.hostMem = true

/-- The words that the specification prints beside their assembly decode to those instructions (R30, R33-R41), a word with a reserved
code is refused (R43, R44), and one with an unassigned opcode is the ILLEGAL_OPCODE row (R47). -/
def Obligations.WordsDecodeAsTheSpecPrintsThem : Prop :=
  decode 0x73A000100C080411 = .ok (.ttab ⟨false, 7, false⟩ false .i32 0xE8 1 2 3 4) ∧
  decode 0x1BFFFFFFFC1C1C22 = .ok (.iaddImm ⟨false, 1, true⟩ false 0xFFFFFFFF 7 7) ∧
  decode 0x7409402C28242043 = .ok (.fma ⟨false, 7, false⟩ .f32 .rsto ⟨true, 2⟩ 8 9 10 11) ∧
  decode 0x7000000000181448 = .ok (.frcp ⟨false, 7, false⟩ .f32 .rne ⟨false, 0⟩ 5 6) ∧
  decode 0x7000000008180107 = .ok (.loop ⟨false, 7, false⟩ 2 6) ∧
  decode 0x70000000E0000104 = .ok (.jpush ⟨false, 7, false⟩ 0x38) ∧
  decode 0xF071001000081140 = .ok (.ld ⟨true, 7, false⟩ ⟨false, .dflt, .pkg, .sc, false, .b32, 4, 2⟩ 4) ∧
  decode 0x7087018014080147 = .ok (.stf ⟨false, 7, false⟩ ⟨false, .dflt, .fab, .rc, true, .b32, 0, 2⟩ 5 6) ∧
  decode 0xF071001834083942 = .ok (.atom ⟨true, 7, false⟩ ⟨false, .dflt, .pkg, .sc, false, .b32, 0, 2⟩ .exch 14 13) ∧
  decode 0x7064000000000146 = .ok (.bridge ⟨false, 7, false⟩ .bu .rc .pkg) ∧
  decode 0x70A2000000000145 = .ok (.fence ⟨false, 7, false⟩ true .bu .sys) ∧
  decode 0x700000181410214B = .ok (.release ⟨false, 7, false⟩ 8 4 5 6) ∧
  decode 0x7000C08018141180 = .ok (.lxch ⟨false, 7, false⟩ .flip .i32 32 4 5 6) ∧
  decode 0x70000C0000082581 = .ok (.poll ⟨false, 7, false⟩ .mask 9 2) ∧
  decode 0x70000003C0060A02 = .ok (.mma ⟨false, 7, false⟩ true 7 .e4m3 .e4m3 8 1 2) ∧
  decode 0x7000006200009203 = .ok (.mscac ⟨false, 7, false⟩ true 24 2 4) ∧
  decode 0x706000180A041640 = .ok (.copy ⟨false, 7, false⟩ .pkg .bu 12 10 8 .d2 1) ∧
  decode 0xF000020180003AC0 = .ok (.srd ⟨true, 7, false⟩ 0x8060 14) ∧
  decode 0x700000001C1402C4 = .ok (.vwrx ⟨false, 7, false⟩ 5 7) ∧
  decode 0xF075001000081140 = .error .reservedCode ∧
  decode 0x7000000000000300 = .ok (.illegalOpcode 0x7000000000000300)

/-- A step in which an issue unit moves that its partition issues next (R210) fetches the word at its strand's PC, decodes it and
executes it, then lets follow what follows of itself (R30, R47, R139, R149); which agent moves is this model's choice (log 3).
Outside a live loop buffer and with its line not in the core's instruction cache, the word is the eight bytes, little-endian, at
the place that its PC translates to; a cached word that has been rewritten is read as the old or the new one (R141; log 75). -/
def Obligations.StepRunsTheDecodedInstruction : Prop :=
  (∀ (s : State) (t : Turn) (rest : List Turn) (k w : Nat) (slice : Option Nat) (us : List (Nat × Nat)) (s1 : State) (v : DWord)
      (c : Cand) (i : Instr),
    s.power.on = true → s.agenda = t :: rest → t.act = .issue k w slice →
    let b := { s with agenda := rest }.pass t.wait
    b.unitsOf k w slice = some us → b.mayIssue k w slice = some c →
    let r := (b.noteIssue c).nowOf k w us
    r.1.fetchStrand (b.team k).core (b.team k).ctx
      (match us with | u :: _ => (r.1.warp k w).strand u.1 u.2 | [] => default) = (s1, .word v) →
    decode v = .ok i →
    step s = State.settled (exec i { s1 with now := some { r.2 with word := v } })) ∧
  (∀ (s : State) (core ctx : Nat) (x : Strand) (s2 : State) (pa : Nat) (lab : DWord), x.loop.live = false →
    s.translate core ctx x.pc .fetch = (s2, .ok (.dev pa, lab)) →
    Cells.find? (s2.core core).icache (codeLine ctx x.pc.toNat) = none → s2.badLine (.dev pa) = false →
    x.pc.toNat % 8 = 0 → pa % 128 = x.pc.toNat % 128 →
    (s.fetchStrand core ctx x).2 = .word (BitVec.ofNat 64 (Cells.readLE s2.mem pa 8))) ∧
  (∀ (s : State) (core ctx : Nat) (x : Strand) (s2 : State) (pa : Nat) (lab : DWord) (ws : List DWord), x.loop.live = false →
    s.translate core ctx x.pc .fetch = (s2, .ok (.dev pa, lab)) →
    Cells.find? (s2.core core).icache (codeLine ctx x.pc.toNat) = some ws →
    (s.fetchStrand core ctx x).2 = .word (ws.getD (x.pc.toNat / 8 % 16) 0) ∨
    (s.fetchStrand core ctx x).2 = .word (BitVec.ofNat 64 (Cells.readLE s2.mem pa 8)))

/-- In every state with power a step answers a next state, whatever moves: no instruction and no event stops the machine. Without power
a step stops unless CAST_ON is the next turn (R437; log 3). -/
def Obligations.PoweredMachineNeverStops : Prop :=
  (∀ s : State, s.power.on = true → ∃ t, step s = .next t) ∧
  (∀ s : State, s.power.on = false → (∀ t rest c, s.agenda = t :: rest → t.act ≠ .event (.castOn c)) →
    step s = .fault .unpowered) ∧
  (∀ (s : State) (t : Turn) (rest : List Turn) (c : Instr), s.power.on = false → s.agenda = t :: rest →
    t.act = .event c → (∃ x, c = .castOn x) → ∃ u, step s = .next u)

/-- Decoding and encoding agree (R30-R46): every instruction that is well formed and has a word of its own is read back from it with every
operand, and every word that decodes is the one word of its instruction, so no bit of a word is ignored (R31). -/
def Obligations.EncodingRoundTrips : Prop :=
  (∀ (i : Instr) (w : BitVec 64), i.WellFormed = true → (∀ v, i ≠ .illegalOpcode v) → encode i = some w → decode w = .ok i) ∧
  (∀ (w : BitVec 64) (i : Instr), decode w = .ok i → encode i = some w)

/-- Every step keeps the canonical form of device memory and of host memory: addresses strictly rising, and no entry equal to what an
unlisted address reads as. -/
def Obligations.MemoryStaysCanonical : Prop :=
  ∀ s t : State, Memory.wf s.mem = true → Memory.wf s.hostMem = true → step s = .next t →
    Memory.wf t.mem = true ∧ Memory.wf t.hostMem = true

/-- The outcomes that the axioms of the memory model allow and forbid (R249): SB, MP, LB, IRIW and WRC in each domain, in RC with
fences and with releases and acquires, and the examples of a tile and flag, of one lane in two domains, and of a write at
package scope. The outcomes of the tile copy (R291, R292): with both bridges and the flag at a scope that holds both cores every
lane reads the tile; without a bridge, or at team scope on the release, zeroes are allowed. And in every allowed execution, a read that follows in preserved program order a read that synchronised
with a later write of another agent does not read what was there before that agent's earlier write (R243, R245). The example
of a write at cluster scope is left out: R245's rule for two reads forbids what the example allows (log 26). -/
def Obligations.LitmusOutcomesAndVisibility : Prop :=

  ((Consistency.outcomes .sc).map Consistency.Candidate.allowed = [false, false, false, false, false] ∧
    (Consistency.outcomes .tso).map Consistency.Candidate.allowed = [true, false, false, false, false] ∧
    (Consistency.outcomes .co).map Consistency.Candidate.allowed = [true, false, false, true, false] ∧
    (Consistency.outcomes .rc).map Consistency.Candidate.allowed = [true, true, true, true, true] ∧
    (Consistency.outcomes .bu).map Consistency.Candidate.allowed = [true, true, true, true, true] ∧
    (Consistency.outcomes .rc).map (fun c => c.fenced.allowed) = [true, true, true, true, true] ∧
    (Consistency.outcomes .rc).map (fun c => c.releasing.allowed) = [true, false, false, true, false] ∧
    (Consistency.tileFlag true true .pkg).allowed = false ∧ (Consistency.tileFlag false true .pkg).allowed = true ∧
    (Consistency.tileFlag true false .pkg).allowed = true ∧ (Consistency.tileFlag true true .team).allowed = true ∧
    (Consistency.tileCopy true true true .pkg .pkg).allowed = false ∧ (Consistency.tileCopy true true false .pkg .pkg).allowed = true ∧
    (Consistency.tileCopy false true true .pkg .pkg).allowed = true ∧ (Consistency.tileCopy true false true .pkg .pkg).allowed = true ∧
    (Consistency.tileCopy true true true .team .team).allowed = true ∧ (Consistency.tileCopy true true true .pkg .team).allowed = true ∧
    (Consistency.twoDomains false).allowed = true ∧ (Consistency.twoDomains true).allowed = false ∧
    (Consistency.narrow .pkg).allowed = false) ∧
  (∀ (c : Consistency.Candidate) (w w' r r' byte : Nat) (x y : Consistency.Event) (e : Consistency.Edge),
    c.allowed = true → c.events[w]? = some x → c.events[r']? = some y → x.isWrite = true → y.isRead = true →
    x.covers byte = true → y.covers byte = true → (w, w') ∈ c.ppo → e ∈ c.sw → e.src = w' → e.tgt = r → (r, r') ∈ c.ppo →
    (∀ i ∈ e.instances, i.1.sees c.reach i.2 x.agent = true ∧ i.1.sees c.reach i.2 y.agent = true) →
    ∃ v, c.sourceOf r' byte = some (some v) ∧ c.rank byte (some w) ≤ c.rank byte (some v))
end

