-- ==== Sys2Proof/Laws/Cells.lean ====
section
/-! SUPPORT. The sparse stores: reading after writing, and the canonical form that every write keeps. -/

namespace Sys2Proof

variable {α : Type}

/-! ## Reading after writing -/

theorem Cells.get_put [Inhabited α] (m : Cells α) (k j : Nat) (x : α) :
    Cells.get (Cells.put m k x) j = if k = j then x else Cells.get m j := by
  induction m with
  | nil => simp [Cells.put, Cells.get]
  | cons c rest ih =>
    obtain ⟨a, v⟩ := c
    simp only [Cells.put]
    split
    · simp only [Cells.get]
    · split
      · subst k; simp only [Cells.get]; split <;> rfl
      · simp only [Cells.get, ih]
        by_cases h : a = j <;> by_cases g : k = j <;> simp_all

@[simp] theorem Cells.get_put_self [Inhabited α] (m : Cells α) (k : Nat) (x : α) :
    Cells.get (Cells.put m k x) k = x := by simp [Cells.get_put]

theorem Cells.get_put_ne [Inhabited α] (m : Cells α) {k j : Nat} (x : α) (h : k ≠ j) :
    Cells.get (Cells.put m k x) j = Cells.get m j := by simp [Cells.get_put, h]

theorem Cells.get_erase [Inhabited α] (m : Cells α) (k j : Nat) :
    Cells.get (Cells.erase m k) j = if k = j then default else Cells.get m j := by
  induction m with
  | nil => simp [Cells.erase, Cells.get]
  | cons c rest ih =>
    obtain ⟨a, v⟩ := c
    simp only [Cells.erase]
    by_cases h : a = k <;> by_cases g : k = j <;> simp_all [Cells.get]

theorem Cells.get_set [Inhabited α] [DecidableEq α] (m : Cells α) (k j : Nat) (x : α) :
    Cells.get (Cells.set m k x) j = if k = j then x else Cells.get m j := by
  unfold Cells.set
  split
  · subst x; rw [Cells.get_erase]
  · rw [Cells.get_put]

@[simp] theorem Cells.get_set_self [Inhabited α] [DecidableEq α] (m : Cells α) (k : Nat) (x : α) :
    Cells.get (Cells.set m k x) k = x := by simp [Cells.get_set]

theorem Cells.get_set_ne [Inhabited α] [DecidableEq α] (m : Cells α) {k j : Nat} (x : α) (h : k ≠ j) :
    Cells.get (Cells.set m k x) j = Cells.get m j := by simp [Cells.get_set, h]

theorem Cells.get_modify [Inhabited α] [DecidableEq α] (m : Cells α) (k j : Nat) (f : α → α) :
    Cells.get (Cells.modify m k f) j = if k = j then f (Cells.get m j) else Cells.get m j := by
  unfold Cells.modify; rw [Cells.get_set]; split <;> simp_all

theorem Cells.find?_put (m : Cells α) (k j : Nat) (x : α) :
    Cells.find? (Cells.put m k x) j = if k = j then some x else Cells.find? m j := by
  induction m with
  | nil => simp [Cells.put, Cells.find?]
  | cons c rest ih =>
    obtain ⟨a, v⟩ := c
    simp only [Cells.put]
    split
    · simp only [Cells.find?]
    · split
      · subst k; simp only [Cells.find?]; split <;> rfl
      · simp only [Cells.find?, ih]
        by_cases h : a = j <;> by_cases g : k = j <;> simp_all

theorem Cells.find?_erase (m : Cells α) (k j : Nat) :
    Cells.find? (Cells.erase m k) j = if k = j then none else Cells.find? m j := by
  induction m with
  | nil => simp [Cells.erase, Cells.find?]
  | cons c rest ih =>
    obtain ⟨a, v⟩ := c
    simp only [Cells.erase]
    by_cases h : a = k <;> by_cases g : k = j <;> simp_all [Cells.find?]

theorem Cells.get_eq_find? [Inhabited α] (m : Cells α) (k : Nat) :
    Cells.get m k = (Cells.find? m k).getD default := by
  induction m with
  | nil => simp [Cells.get, Cells.find?]
  | cons c rest ih =>
    obtain ⟨a, v⟩ := c
    simp only [Cells.get, Cells.find?]
    split <;> simp_all

theorem Cells.find?_adjust (m : Cells α) (k j : Nat) (f : α → α) :
    Cells.find? (Cells.adjust m k f) j = if k = j then (Cells.find? m j).map f else Cells.find? m j := by
  induction m with
  | nil => simp [Cells.adjust, Cells.find?]
  | cons c rest ih =>
    obtain ⟨a, v⟩ := c
    simp only [Cells.adjust] at ih
    simp only [Cells.adjust, List.map_cons]
    by_cases h : a = k <;> by_cases g : a = j <;> simp_all [Cells.find?]
    intro e; exact absurd e.symm h

/-- A function changes the value at a listed key. -/
theorem Cells.get_adjust_listed [Inhabited α] (m : Cells α) (k : Nat) (f : α → α) (h : (Cells.find? m k).isSome) :
    Cells.get (Cells.adjust m k f) k = f (Cells.get m k) := by
  obtain ⟨v, hv⟩ := Option.isSome_iff_exists.mp h
  simp [Cells.get_eq_find?, Cells.find?_adjust, hv]

theorem Cells.get_adjust_ne [Inhabited α] (m : Cells α) {k j : Nat} (f : α → α) (h : k ≠ j) :
    Cells.get (Cells.adjust m k f) j = Cells.get m j := by
  simp [Cells.get_eq_find?, Cells.find?_adjust, h]

theorem Cells.put_put (m : Cells α) (k : Nat) (x y : α) : Cells.put (Cells.put m k x) k y = Cells.put m k y := by
  induction m with
  | nil => simp [Cells.put]
  | cons c rest ih =>
    obtain ⟨a, v⟩ := c
    simp only [Cells.put]
    split
    · simp [Cells.put]
    · split
      · simp [Cells.put]
      · simp_all [Cells.put]

/-! ## The canonical form -/

theorem Cells.sortedFrom_mono {m : Cells α} {a b : Nat} (h : Cells.sortedFrom b m = true) (hab : a ≤ b) :
    Cells.sortedFrom a m = true := by
  cases m with
  | nil => rfl
  | cons c rest => simp only [Cells.sortedFrom, Bool.and_eq_true, decide_eq_true_eq] at *; exact ⟨by omega, h.2⟩

theorem Cells.sortedFrom_erase {m : Cells α} {lo : Nat} (k : Nat) (h : Cells.sortedFrom lo m = true) :
    Cells.sortedFrom lo (Cells.erase m k) = true := by
  induction m generalizing lo with
  | nil => rfl
  | cons c rest ih =>
    obtain ⟨a, v⟩ := c
    simp only [Cells.sortedFrom, Bool.and_eq_true, decide_eq_true_eq] at h
    simp only [Cells.erase]
    split
    · exact Cells.sortedFrom_mono (ih h.2) (by omega)
    · simp only [Cells.sortedFrom, Bool.and_eq_true, decide_eq_true_eq]; exact ⟨h.1, ih h.2⟩

theorem Cells.sortedFrom_put {m : Cells α} {lo : Nat} (k : Nat) (x : α) (hk : lo ≤ k)
    (h : Cells.sortedFrom lo m = true) : Cells.sortedFrom lo (Cells.put m k x) = true := by
  induction m generalizing lo with
  | nil => simp [Cells.put, Cells.sortedFrom, hk]
  | cons c rest ih =>
    obtain ⟨a, v⟩ := c
    simp only [Cells.sortedFrom, Bool.and_eq_true, decide_eq_true_eq] at h
    simp only [Cells.put]
    split
    · simp only [Cells.sortedFrom, Bool.and_eq_true, decide_eq_true_eq]; exact ⟨hk, by omega, h.2⟩
    · split
      · simp only [Cells.sortedFrom, Bool.and_eq_true, decide_eq_true_eq]; subst k; exact ⟨hk, h.2⟩
      · simp only [Cells.sortedFrom, Bool.and_eq_true, decide_eq_true_eq]; exact ⟨h.1, ih (by omega) h.2⟩

theorem Cells.all_erase {m : Cells α} (p : Nat × α → Bool) (k : Nat) (h : m.all p = true) :
    (Cells.erase m k).all p = true := by
  induction m with
  | nil => rfl
  | cons c rest ih =>
    obtain ⟨a, v⟩ := c
    simp only [List.all_cons, Bool.and_eq_true] at h
    simp only [Cells.erase]
    split
    · exact ih h.2
    · simp only [List.all_cons, Bool.and_eq_true]; exact ⟨h.1, ih h.2⟩

theorem Cells.all_put {m : Cells α} (p : Nat × α → Bool) (k : Nat) (x : α) (hx : p (k, x) = true) (h : m.all p = true) :
    (Cells.put m k x).all p = true := by
  induction m with
  | nil => simp [Cells.put, hx]
  | cons c rest ih =>
    obtain ⟨a, v⟩ := c
    simp only [List.all_cons, Bool.and_eq_true] at h
    simp only [Cells.put]
    split
    · simp only [List.all_cons, Bool.and_eq_true]; exact ⟨hx, h⟩
    · split
      · simp only [List.all_cons, Bool.and_eq_true]; exact ⟨hx, h.2⟩
      · simp only [List.all_cons, Bool.and_eq_true]; exact ⟨h.1, ih h.2⟩

/-- A write keeps the canonical form. -/
theorem Cells.set_wf [Inhabited α] [DecidableEq α] {m : Cells α} (k : Nat) (x : α) (h : Cells.wf m = true) :
    Cells.wf (Cells.set m k x) = true := by
  simp only [Cells.wf, Bool.and_eq_true] at h ⊢
  unfold Cells.set
  split
  · exact ⟨Cells.sortedFrom_erase k h.1, Cells.all_erase _ k h.2⟩
  · exact ⟨Cells.sortedFrom_put k x (Nat.zero_le k) h.1, Cells.all_put _ k x (by simpa) h.2⟩

theorem Cells.modify_wf [Inhabited α] [DecidableEq α] {m : Cells α} (k : Nat) (f : α → α) (h : Cells.wf m = true) :
    Cells.wf (Cells.modify m k f) = true := Cells.set_wf k _ h

/-- A write of several bytes keeps the canonical form. -/
theorem Cells.writeLE_wf {m : Cells Byte} (key n x : Nat) (h : Cells.wf m = true) :
    Cells.wf (Cells.writeLE m key n x) = true := by
  induction n generalizing m key x with
  | zero => exact h
  | succ n ih => exact ih (key + 1) (x / 256) (Cells.set_wf key _ h)

theorem Cells.sortedFrom_filter {m : Cells α} {lo : Nat} (p : Nat × α → Bool) (h : Cells.sortedFrom lo m = true) :
    Cells.sortedFrom lo (m.filter p) = true := by
  induction m generalizing lo with
  | nil => rfl
  | cons c rest ih =>
    simp only [Cells.sortedFrom, Bool.and_eq_true, decide_eq_true_eq] at h
    simp only [List.filter_cons]
    split
    · simp only [Cells.sortedFrom, Bool.and_eq_true, decide_eq_true_eq]; exact ⟨h.1, ih h.2⟩
    · exact Cells.sortedFrom_mono (ih h.2) (by omega)

/-- Dropping entries keeps the canonical form. -/
theorem Cells.filter_wf [Inhabited α] [DecidableEq α] {m : Cells α} (p : Nat × α → Bool) (h : Cells.wf m = true) :
    Cells.wf (m.filter p) = true := by
  simp only [Cells.wf, Bool.and_eq_true] at h ⊢
  refine ⟨Cells.sortedFrom_filter p h.1, ?_⟩
  rw [List.all_eq_true] at *
  intro x hx
  exact h.2 x (List.mem_filter.mp hx).1

theorem Cells.clear_wf [Inhabited α] [DecidableEq α] {m : Cells α} (base n : Nat) (h : Cells.wf m = true) :
    Cells.wf (Cells.clear m base n) = true := Cells.filter_wf _ h

theorem Cells.sortedFrom_append {a b : Cells α} {lo mid : Nat} (ha : Cells.sortedFrom lo a = true)
    (hm : ∀ c ∈ a, c.1 < mid) (hl : lo ≤ mid) (hb : Cells.sortedFrom mid b = true) : Cells.sortedFrom lo (a ++ b) = true := by
  induction a generalizing lo with
  | nil => exact Cells.sortedFrom_mono hb hl
  | cons c rest ih =>
    simp only [Cells.sortedFrom, Bool.and_eq_true, decide_eq_true_eq, List.cons_append] at ha ⊢
    have hc := hm c (by simp)
    exact ⟨ha.1, ih ha.2 (fun d hd => hm d (by simp [hd])) hc⟩

/-- The entries of a store made from a function. -/
theorem Cells.mem_ofFn [Inhabited α] [DecidableEq α] {base n : Nat} {f : Nat → α} {c : Nat × α} :
    c ∈ Cells.ofFn base n f ↔ ∃ i < n, f i ≠ default ∧ c = (base + i, f i) := by
  unfold Cells.ofFn
  simp only [List.mem_filterMap, List.mem_range]
  constructor
  · rintro ⟨i, hi, h⟩
    split at h
    · cases h
    · exact ⟨i, hi, ‹_›, (Option.some.inj h).symm⟩
  · rintro ⟨i, hi, hd, rfl⟩
    exact ⟨i, hi, by simp [hd]⟩

theorem Cells.ofFn_succ [Inhabited α] [DecidableEq α] (base n : Nat) (f : Nat → α) :
    Cells.ofFn base (n + 1) f = Cells.ofFn base n f ++ (if f n = default then [] else [(base + n, f n)]) := by
  unfold Cells.ofFn
  rw [List.range_succ, List.filterMap_append]
  split <;> simp_all

theorem Cells.sortedFrom_ofFn [Inhabited α] [DecidableEq α] (base n : Nat) (f : Nat → α) :
    Cells.sortedFrom base (Cells.ofFn base n f) = true := by
  induction n with
  | zero => rfl
  | succ n ih =>
    rw [Cells.ofFn_succ]
    refine Cells.sortedFrom_append (mid := base + n) ih ?_ (by omega) ?_
    · intro c hc; obtain ⟨i, hi, _, rfl⟩ := Cells.mem_ofFn.mp hc; simp only; omega
    · split <;> simp [Cells.sortedFrom]

/-- The upper part of a sorted store is sorted from its bound. -/
theorem Cells.sortedFrom_upper {m : Cells α} {lo b : Nat} (h : Cells.sortedFrom lo m = true) :
    Cells.sortedFrom b (m.filter (fun c => decide (b ≤ c.1))) = true := by
  induction m generalizing lo with
  | nil => rfl
  | cons c rest ih =>
    simp only [Cells.sortedFrom, Bool.and_eq_true, decide_eq_true_eq] at h
    simp only [List.filter_cons]
    split
    · rename_i hb
      simp only [Cells.sortedFrom, Bool.and_eq_true]
      exact ⟨hb, Cells.sortedFrom_filter _ h.2⟩
    · exact ih h.2

/-- Replacing a range keeps the canonical form. -/
theorem Cells.fill_wf [Inhabited α] [DecidableEq α] {m : Cells α} (base n : Nat) (f : Nat → α) (h : Cells.wf m = true) :
    Cells.wf (Cells.fill m base n f) = true := by
  have h1 := h
  simp only [Cells.wf, Bool.and_eq_true] at h ⊢
  unfold Cells.fill
  constructor
  · rw [List.append_assoc]
    refine Cells.sortedFrom_append (mid := base) (Cells.sortedFrom_filter _ h.1) ?_ (Nat.zero_le _) ?_
    · intro c hc; simpa using (List.mem_filter.mp hc).2
    · refine Cells.sortedFrom_append (mid := base + n) (Cells.sortedFrom_ofFn base n f) ?_ (by omega) (Cells.sortedFrom_upper h.1)
      intro c hc; obtain ⟨i, hi, _, rfl⟩ := Cells.mem_ofFn.mp hc; simp only; omega
  · have hd := h.2
    rw [List.all_eq_true] at hd ⊢
    intro c hc
    simp only [List.mem_append] at hc
    rcases hc with (hc | hc) | hc
    · exact hd c (List.mem_filter.mp hc).1
    · obtain ⟨i, _, hi, rfl⟩ := Cells.mem_ofFn.mp hc; simpa using hi
    · exact hd c (List.mem_filter.mp hc).1

/-! ## Bytes as numbers -/

theorem Cells.get_writeLE (m : Cells Byte) (key n x a : Nat) :
    Cells.get (Cells.writeLE m key n x) a =
      if key ≤ a ∧ a < key + n then BitVec.ofNat 8 (x / 256 ^ (a - key)) else Cells.get m a := by
  induction n generalizing m key x with
  | zero => simp only [Cells.writeLE]; rw [if_neg (by omega)]
  | succ n ih =>
    simp only [Cells.writeLE, ih, Cells.get_set]
    by_cases h1 : key = a
    · subst a; rw [if_neg (by omega), if_pos rfl, if_pos (by omega)]; simp
    · by_cases h2 : key + 1 ≤ a ∧ a < key + 1 + n
      · rw [if_pos h2, if_pos (by omega), Nat.div_div_eq_div_mul,
          show a - key = (a - (key + 1)) + 1 by omega, Nat.pow_succ, Nat.mul_comm]
      · rw [if_neg h2, if_neg h1, if_neg (by omega)]

/-- Bytes outside a write read as before. -/
theorem Cells.get_writeLE_out (m : Cells Byte) {key n x a : Nat} (h : a < key ∨ key + n ≤ a) :
    Cells.get (Cells.writeLE m key n x) a = Cells.get m a := by
  rw [Cells.get_writeLE, if_neg (by omega)]

end Sys2Proof
end

