-- ==== Sys2Proof/Laws/Encoding.lean ====
section
/-! SUPPORT. Fields of a format read back from its bits, codes read back from their bits, header and opcode of a word. -/

namespace Sys2Proof

/-- The low field of an appended pair. -/
theorem low_append {n w start len : Nat} (x : BitVec n) (y : BitVec w) (h : start + len ≤ w) :
    (x ++ y).extractLsb' start len = y.extractLsb' start len := BitVec.extractLsb'_append_eq_of_add_le h
/-- The high field of an appended pair. -/
theorem high_append {n w start len : Nat} (x : BitVec n) (y : BitVec w) (h : w ≤ start) :
    (x ++ y).extractLsb' start len = x.extractLsb' (start - w) len := BitVec.extractLsb'_append_eq_of_le h

/-- A low bit of an appended pair. -/
theorem low_bit {n w i : Nat} (x : BitVec n) (y : BitVec w) (h : i < w) : (x ++ y).getLsbD i = y.getLsbD i := by
  simp [BitVec.getLsbD_append, h]
/-- A high bit of an appended pair. -/
theorem high_bit {n w i : Nat} (x : BitVec n) (y : BitVec w) (h : w ≤ i) :
    (x ++ y).getLsbD i = x.getLsbD (i - w) := by
  simp [BitVec.getLsbD_append, Nat.not_lt.mpr h]

@[simp] theorem FmtA.unpack_pack (f : FmtA) : FmtA.unpack f.pack = f := by
  cases f
  simp only [FmtA.unpack, FmtA.pack, FmtA.mk.injEq]
  repeat' apply And.intro
  all_goals
    repeat' first
      | exact BitVec.extractLsb'_eq_self
      | refine Eq.trans (low_append _ _ (by decide)) ?_
      | refine Eq.trans (high_append _ _ (by decide)) ?_

@[simp] theorem FmtI.unpack_pack (f : FmtI) : FmtI.unpack f.pack = f := by
  cases f
  simp only [FmtI.unpack, FmtI.pack, FmtI.mk.injEq]
  repeat' apply And.intro
  all_goals
    repeat' first
      | exact BitVec.extractLsb'_eq_self
      | refine Eq.trans (low_append _ _ (by decide)) ?_
      | refine Eq.trans (high_append _ _ (by decide)) ?_

@[simp] theorem FmtM.unpack_pack (f : FmtM) : FmtM.unpack f.pack = f := by
  cases f
  simp only [FmtM.unpack, FmtM.pack, FmtM.mk.injEq]
  repeat' apply And.intro
  all_goals
    repeat' first
      | exact BitVec.extractLsb'_eq_self
      | refine Eq.trans (low_append _ _ (by decide)) ?_
      | refine Eq.trans (high_append _ _ (by decide)) ?_

@[simp] theorem FmtMA.unpack_pack (f : FmtMA) : FmtMA.unpack f.pack = f := by
  cases f
  simp only [FmtMA.unpack, FmtMA.pack, FmtMA.mk.injEq]
  repeat' apply And.intro
  all_goals
    repeat' first
      | exact BitVec.extractLsb'_eq_self
      | refine Eq.trans (low_append _ _ (by decide)) ?_
      | refine Eq.trans (high_append _ _ (by decide)) ?_

@[simp] theorem FmtB.unpack_pack (f : FmtB) : FmtB.unpack f.pack = f := by
  cases f
  simp only [FmtB.unpack, FmtB.pack, FmtB.mk.injEq]
  repeat' apply And.intro
  all_goals
    repeat' first
      | exact BitVec.extractLsb'_eq_self
      | refine Eq.trans (low_append _ _ (by decide)) ?_
      | refine Eq.trans (high_append _ _ (by decide)) ?_

@[simp] theorem FmtX.unpack_pack (f : FmtX) : FmtX.unpack f.pack = f := by
  cases f
  simp only [FmtX.unpack, FmtX.pack, FmtX.mk.injEq]
  repeat' apply And.intro
  all_goals
    repeat' first
      | exact BitVec.extractLsb'_eq_self
      | refine Eq.trans (low_append _ _ (by decide)) ?_
      | refine Eq.trans (high_append _ _ (by decide)) ?_

@[simp] theorem FmtC.unpack_pack (f : FmtC) : FmtC.unpack f.pack = f := by
  cases f
  simp only [FmtC.unpack, FmtC.pack, FmtC.mk.injEq]
  repeat' apply And.intro
  all_goals
    repeat' first
      | exact BitVec.extractLsb'_eq_self
      | refine Eq.trans (low_append _ _ (by decide)) ?_
      | refine Eq.trans (high_append _ _ (by decide)) ?_

@[simp] theorem FmtS.unpack_pack (f : FmtS) : FmtS.unpack f.pack = f := by
  cases f
  simp only [FmtS.unpack, FmtS.pack, FmtS.mk.injEq]
  repeat' apply And.intro
  all_goals
    repeat' first
      | exact BitVec.extractLsb'_eq_self
      | refine Eq.trans (low_append _ _ (by decide)) ?_
      | refine Eq.trans (high_append _ _ (by decide)) ?_

@[simp] theorem IType.ofCode_code (x : IType) : IType.ofCode x.code = some x := by cases x <;> rfl
@[simp] theorem FType.ofCode_code (x : FType) : FType.ofCode x.code = some x := by cases x <;> rfl
@[simp] theorem Rnd.ofCode_code (x : Rnd) : Rnd.ofCode x.code = some x := by cases x <;> rfl
@[simp] theorem Cmp.ofCode_code (x : Cmp) : Cmp.ofCode x.code = some x := by cases x <;> rfl
@[simp] theorem Dom.ofCode_code (x : Dom) : Dom.ofCode x.code = some x := by cases x <;> rfl
@[simp] theorem Scope.ofCode_code (x : Scope) : Scope.ofCode x.code = some x := by cases x <;> rfl
@[simp] theorem Pol.ofCode_code (x : Pol) : Pol.ofCode x.code = some x := by cases x <;> rfl
@[simp] theorem Aop.ofCode_code (x : Aop) : Aop.ofCode x.code = some x := by cases x <;> rfl
@[simp] theorem Size.ofCode_code (x : Size) : Size.ofCode x.code = some x := by cases x <;> rfl
@[simp] theorem MFmt.ofCode_code (x : MFmt) : MFmt.ofCode x.code = some x := by cases x <;> rfl
@[simp] theorem XMode.ofCode_code (x : XMode) : XMode.ofCode x.code = some x := by cases x <;> rfl
@[simp] theorem PollForm.ofCode_code (x : PollForm) : PollForm.ofCode x.code = some x := by cases x <;> rfl
@[simp] theorem KinForm.ofCode_code (x : KinForm) : KinForm.ofCode x.code = some x := by cases x <;> rfl
@[simp] theorem UmovForm.ofCode_code (x : UmovForm) : UmovForm.ofCode x.code = some x := by cases x <;> rfl
@[simp] theorem PmovForm.ofCode_code (x : PmovForm) : PmovForm.ofCode x.code = some x := by cases x <;> rfl
@[simp] theorem LbKind.ofCode_code (x : LbKind) : LbKind.ofCode x.code = some x := by cases x <;> rfl
@[simp] theorem TileTy.ofCode_code (x : TileTy) : TileTy.ofCode x.code = some x := by cases x <;> rfl
@[simp] theorem Shape.ofCode_code (x : Shape) : Shape.ofCode x.code = some x := by cases x <;> rfl
@[simp] theorem MaintOp.ofCode_code (x : MaintOp) : MaintOp.ofCode x.code = some x := by cases x <;> rfl

@[simp] theorem isOne_one (b : Bool) : isOne (one b) = b := by cases b <;> rfl

@[simp] theorem pcode_wide (x : BitVec 3) : pcode (wide x) = some x := by
  unfold pcode wide
  rw [high_append _ _ (by decide), low_append _ _ (by decide)]
  simp

@[simp] theorem tcode_tile (x : BitVec 4) : tcode (0#4 ++ x) = some x := by
  unfold tcode
  rw [high_append _ _ (by decide), low_append _ _ (by decide)]
  simp

/-- The opcode of a word. -/
@[simp] theorem wordOf_op (h : Hdr) (op : BitVec 10) (b : BitVec 49) : (wordOf h op b).extractLsb' 0 10 = op := by
  unfold wordOf
  repeat' first
    | exact BitVec.extractLsb'_eq_self
    | refine Eq.trans (low_append _ _ (by decide)) ?_
    | refine Eq.trans (high_append _ _ (by decide)) ?_

/-- The body of a word. -/
@[simp] theorem wordOf_body (h : Hdr) (op : BitVec 10) (b : BitVec 49) : (wordOf h op b).extractLsb' 10 49 = b := by
  unfold wordOf
  repeat' first
    | exact BitVec.extractLsb'_eq_self
    | refine Eq.trans (low_append _ _ (by decide)) ?_
    | refine Eq.trans (high_append _ _ (by decide)) ?_

/-- The header of a word. -/
@[simp] theorem wordOf_hdr (h : Hdr) (op : BitVec 10) (b : BitVec 49) : hdrOf (wordOf h op b) = h := by
  have hg : (wordOf h op b).extractLsb' 60 3 = h.g := by
    unfold wordOf
    repeat' first
      | exact BitVec.extractLsb'_eq_self
      | refine Eq.trans (low_append _ _ (by decide)) ?_
      | refine Eq.trans (high_append _ _ (by decide)) ?_
  have hs : (wordOf h op b).getLsbD 63 = h.s := by
    unfold wordOf
    repeat' first
      | exact isOne_one _
      | refine Eq.trans (low_bit _ _ (by decide)) ?_
      | refine Eq.trans (high_bit _ _ (by decide)) ?_
  have hn : (wordOf h op b).getLsbD 59 = h.gn := by
    unfold wordOf
    repeat' first
      | exact isOne_one _
      | refine Eq.trans (low_bit _ _ (by decide)) ?_
      | refine Eq.trans (high_bit _ _ (by decide)) ?_
  cases h; simp_all [hdrOf]

/-- A word decodes to what its body and opcode give. -/
theorem decode_wordOf (h : Hdr) (op : BitVec 10) (b : BitVec 49) (r : Dec) (hb : decodeBody h b op.toNat = some r) : decode (wordOf h op b) = r := by
  unfold decode; rw [wordOf_hdr, wordOf_body, wordOf_op, hb]
theorem field_hi_3_4 (x : BitVec 3) (y : BitVec 4) : (x ++ y : BitVec 7).extractLsb' 4 3 = x :=
  (high_append _ _ (by decide)).trans BitVec.extractLsb'_eq_self
theorem field_lo_3_4 (x : BitVec 3) (y : BitVec 4) : (x ++ y : BitVec 7).extractLsb' 0 4 = y :=
  (low_append _ _ (by decide)).trans BitVec.extractLsb'_eq_self
theorem field_hi_4_4 (x : BitVec 4) (y : BitVec 4) : (x ++ y : BitVec 8).extractLsb' 4 4 = x :=
  (high_append _ _ (by decide)).trans BitVec.extractLsb'_eq_self
theorem field_lo_4_4 (x : BitVec 4) (y : BitVec 4) : (x ++ y : BitVec 8).extractLsb' 0 4 = y :=
  (low_append _ _ (by decide)).trans BitVec.extractLsb'_eq_self
theorem field_hi_6_1 (x : BitVec 6) (y : BitVec 1) : (x ++ y : BitVec 7).extractLsb' 1 6 = x :=
  (high_append _ _ (by decide)).trans BitVec.extractLsb'_eq_self
theorem field_lo_6_1 (x : BitVec 6) (y : BitVec 1) : (x ++ y : BitVec 7).extractLsb' 0 1 = y :=
  (low_append _ _ (by decide)).trans BitVec.extractLsb'_eq_self
theorem field_hi_3_5 (x : BitVec 3) (y : BitVec 5) : (x ++ y : BitVec 8).extractLsb' 5 3 = x :=
  (high_append _ _ (by decide)).trans BitVec.extractLsb'_eq_self
theorem field_lo_3_5 (x : BitVec 3) (y : BitVec 5) : (x ++ y : BitVec 8).extractLsb' 0 5 = y :=
  (low_append _ _ (by decide)).trans BitVec.extractLsb'_eq_self
theorem field_hi_1_4 (x : BitVec 1) (y : BitVec 4) : (x ++ y : BitVec 5).extractLsb' 4 1 = x :=
  (high_append _ _ (by decide)).trans BitVec.extractLsb'_eq_self
theorem field_lo_1_4 (x : BitVec 1) (y : BitVec 4) : (x ++ y : BitVec 5).extractLsb' 0 4 = y :=
  (low_append _ _ (by decide)).trans BitVec.extractLsb'_eq_self
theorem field_hi_24_8 (x : BitVec 24) (y : BitVec 8) : (x ++ y : BitVec 32).extractLsb' 8 24 = x :=
  (high_append _ _ (by decide)).trans BitVec.extractLsb'_eq_self
theorem field_lo_24_8 (x : BitVec 24) (y : BitVec 8) : (x ++ y : BitVec 32).extractLsb' 0 8 = y :=
  (low_append _ _ (by decide)).trans BitVec.extractLsb'_eq_self
theorem field_hi_23_9 (x : BitVec 23) (y : BitVec 9) : (x ++ y : BitVec 32).extractLsb' 9 23 = x :=
  (high_append _ _ (by decide)).trans BitVec.extractLsb'_eq_self
theorem field_lo_23_9 (x : BitVec 23) (y : BitVec 9) : (x ++ y : BitVec 32).extractLsb' 0 9 = y :=
  (low_append _ _ (by decide)).trans BitVec.extractLsb'_eq_self
theorem field_hi_1_8 (x : BitVec 1) (y : BitVec 8) : (x ++ y : BitVec 9).extractLsb' 8 1 = x :=
  (high_append _ _ (by decide)).trans BitVec.extractLsb'_eq_self
theorem field_lo_1_8 (x : BitVec 1) (y : BitVec 8) : (x ++ y : BitVec 9).extractLsb' 0 8 = y :=
  (low_append _ _ (by decide)).trans BitVec.extractLsb'_eq_self
theorem field_hi_5_3 (x : BitVec 5) (y : BitVec 3) : (x ++ y : BitVec 8).extractLsb' 3 5 = x :=
  (high_append _ _ (by decide)).trans BitVec.extractLsb'_eq_self
theorem field_lo_5_3 (x : BitVec 5) (y : BitVec 3) : (x ++ y : BitVec 8).extractLsb' 0 3 = y :=
  (low_append _ _ (by decide)).trans BitVec.extractLsb'_eq_self
theorem field_hi_5_2 (x : BitVec 5) (y : BitVec 2) : (x ++ y : BitVec 7).extractLsb' 2 5 = x :=
  (high_append _ _ (by decide)).trans BitVec.extractLsb'_eq_self
theorem field_lo_5_2 (x : BitVec 5) (y : BitVec 2) : (x ++ y : BitVec 7).extractLsb' 0 2 = y :=
  (low_append _ _ (by decide)).trans BitVec.extractLsb'_eq_self
theorem field_hi_4_3 (x : BitVec 4) (y : BitVec 3) : (x ++ y : BitVec 7).extractLsb' 3 4 = x :=
  (high_append _ _ (by decide)).trans BitVec.extractLsb'_eq_self
theorem field_lo_4_3 (x : BitVec 4) (y : BitVec 3) : (x ++ y : BitVec 7).extractLsb' 0 3 = y :=
  (low_append _ _ (by decide)).trans BitVec.extractLsb'_eq_self
theorem field_hi_1_2 (x : BitVec 1) (y : BitVec 2) : (x ++ y : BitVec 3).extractLsb' 2 1 = x :=
  (high_append _ _ (by decide)).trans BitVec.extractLsb'_eq_self
theorem field_lo_1_2 (x : BitVec 1) (y : BitVec 2) : (x ++ y : BitVec 3).extractLsb' 0 2 = y :=
  (low_append _ _ (by decide)).trans BitVec.extractLsb'_eq_self
theorem field_hi_1_6 (x : BitVec 1) (y : BitVec 6) : (x ++ y : BitVec 7).extractLsb' 6 1 = x :=
  (high_append _ _ (by decide)).trans BitVec.extractLsb'_eq_self
theorem field_lo_1_6 (x : BitVec 1) (y : BitVec 6) : (x ++ y : BitVec 7).extractLsb' 0 6 = y :=
  (low_append _ _ (by decide)).trans BitVec.extractLsb'_eq_self
theorem field_hi_3_3 (x : BitVec 3) (y : BitVec 3) : (x ++ y : BitVec 6).extractLsb' 3 3 = x :=
  (high_append _ _ (by decide)).trans BitVec.extractLsb'_eq_self
theorem field_lo_3_3 (x : BitVec 3) (y : BitVec 3) : (x ++ y : BitVec 6).extractLsb' 0 3 = y :=
  (low_append _ _ (by decide)).trans BitVec.extractLsb'_eq_self
theorem field_hi_2_5 (x : BitVec 2) (y : BitVec 5) : (x ++ y : BitVec 7).extractLsb' 5 2 = x :=
  (high_append _ _ (by decide)).trans BitVec.extractLsb'_eq_self
theorem field_lo_2_5 (x : BitVec 2) (y : BitVec 5) : (x ++ y : BitVec 7).extractLsb' 0 5 = y :=
  (low_append _ _ (by decide)).trans BitVec.extractLsb'_eq_self

theorem bit_6_1 (x : BitVec 6) (b : Bool) : (x ++ one b : BitVec 7).getLsbD 0 = b :=
  (low_bit _ _ (by decide)).trans (isOne_one _)
theorem bit_1_8 (x : BitVec 23) (b : Bool) (n : BitVec 8) : (x ++ (one b ++ n) : BitVec 32).getLsbD 8 = b :=
  (low_bit _ _ (by decide)).trans ((high_bit _ _ (by decide)).trans (isOne_one _))
theorem imm_1_8 (x : BitVec 23) (b : BitVec 1) (n : BitVec 8) : (x ++ (b ++ n) : BitVec 32).extractLsb' 0 8 = n :=
  (low_append _ _ (by decide)).trans ((low_append _ _ (by decide)).trans BitVec.extractLsb'_eq_self)
theorem bit_1_4 (x : BitVec 3) (b : Bool) (n : BitVec 4) : (x ++ (one b ++ n) : BitVec 8).getLsbD 4 = b :=
  (low_bit _ _ (by decide)).trans ((high_bit _ _ (by decide)).trans (isOne_one _))
theorem fold_1_4 (x : BitVec 3) (b : BitVec 1) (n : BitVec 4) : (x ++ (b ++ n) : BitVec 8).extractLsb' 0 4 = n :=
  (low_append _ _ (by decide)).trans ((low_append _ _ (by decide)).trans BitVec.extractLsb'_eq_self)
theorem raw_1_4 (x : BitVec 2) (b : Bool) (n : BitVec 4) : (x ++ (one b ++ n) : BitVec 7).getLsbD 4 = b :=
  (low_bit _ _ (by decide)).trans ((high_bit _ _ (by decide)).trans (isOne_one _))
theorem rawt_1_4 (x : BitVec 2) (b : BitVec 1) (n : BitVec 4) : (x ++ (b ++ n) : BitVec 7).extractLsb' 0 4 = n :=
  (low_append _ _ (by decide)).trans ((low_append _ _ (by decide)).trans BitVec.extractLsb'_eq_self)
theorem pf_1_2 (x : BitVec 4) (b : Bool) (n : BitVec 2) : (x ++ (one b ++ n) : BitVec 7).getLsbD 2 = b :=
  (low_bit _ _ (by decide)).trans ((high_bit _ _ (by decide)).trans (isOne_one _))
theorem pfk_1_2 (x : BitVec 4) (b : BitVec 1) (n : BitVec 2) : (x ++ (b ++ n) : BitVec 7).extractLsb' 0 2 = n :=
  (low_append _ _ (by decide)).trans ((low_append _ _ (by decide)).trans BitVec.extractLsb'_eq_self)
theorem sc_dm (x : BitVec 1) (b n : BitVec 3) : (x ++ (b ++ n) : BitVec 7).extractLsb' 0 3 = n :=
  (low_append _ _ (by decide)).trans ((low_append _ _ (by decide)).trans BitVec.extractLsb'_eq_self)
theorem sc_sc (x : BitVec 1) (b n : BitVec 3) : (x ++ (b ++ n) : BitVec 7).extractLsb' 3 3 = b :=
  (low_append _ _ (by decide)).trans ((high_append _ _ (by decide)).trans BitVec.extractLsb'_eq_self)

/-- A random source is read back from its fields. -/
theorem RndSrc.read_back (r : RndSrc) : RndSrc.mk (isOne (one r.rg)) r.tt = r := by cases r; simp
/-- A fold is read back from its code and modifier. -/
theorem FoldOp.ofCode_m (op : FoldOp) : FoldOp.ofCode op.code op.m = some op := by
  cases op with
  | int o t => cases o <;> simp [FoldOp.ofCode, FoldOp.code, FoldOp.m, field_hi_3_4, field_lo_3_4]
  | flt o t rm => cases o <;> simp [FoldOp.ofCode, FoldOp.code, FoldOp.m, field_hi_3_4, field_lo_3_4]
/-- The memory fields are read back from their codes. -/
theorem memOpOf_code (m : MemOp) : memOpOf (one m.aw) m.pol.code m.scp.code m.dom.code (one m.o) m.sz.code m.off m.a = some m := by
  cases m; simp [memOpOf]
theorem memOpOf_code_offless (m : MemOp) (h : m.off = 0#12) : memOpOf (one m.aw) m.pol.code m.scp.code m.dom.code (one m.o) m.sz.code 0#12 m.a = some m := by
  rw [← h]; exact memOpOf_code m
/-- The decoder accepts the random source that the entry accepts. -/
theorem rndOk_source (rm : Rnd) (r : RndSrc) (h : rndOk rm r = true) : rm = .rsto ∨ one r.rg = 0#1 ∧ r.tt = 0#8 := by
  unfold rndOk at h
  split at h
  · exact .inl ‹_›
  · obtain rfl := of_decide_eq_true h; exact .inr ⟨rfl, rfl⟩

theorem field_hi_3_1_4 (x : BitVec 3) (b : Bool) (n : BitVec 4) : (x ++ (one b ++ n) : BitVec 8).extractLsb' 5 3 = x :=
  (high_append _ _ (by decide)).trans BitVec.extractLsb'_eq_self
theorem field_hi_23_1_8 (x : BitVec 23) (b : Bool) (n : BitVec 8) : (x ++ (one b ++ n) : BitVec 32).extractLsb' 9 23 = x :=
  (high_append _ _ (by decide)).trans BitVec.extractLsb'_eq_self
theorem field_hi_2_1_4 (x : BitVec 2) (b : Bool) (n : BitVec 4) : (x ++ (one b ++ n) : BitVec 7).extractLsb' 5 2 = x :=
  (high_append _ _ (by decide)).trans BitVec.extractLsb'_eq_self
theorem field_hi_1_3_3 (x : BitVec 1) (b n : BitVec 3) : (x ++ (b ++ n) : BitVec 7).extractLsb' 6 1 = x :=
  (high_append _ _ (by decide)).trans BitVec.extractLsb'_eq_self
theorem field_hi_4_1_2 (x : BitVec 4) (b : Bool) (n : BitVec 2) : (x ++ (one b ++ n) : BitVec 7).extractLsb' 3 4 = x :=
  (high_append _ _ (by decide)).trans BitVec.extractLsb'_eq_self

end Sys2Proof
end

