-- ==== Sys2Proof/Laws/Issue.lean ====
section
/-! SUPPORT. The shared operations of an issue, once each: writes, settling joins, finishing, issuing. -/

namespace Sys2Proof.Machine

/-! ## Warps by key -/

@[simp] theorem State.warp_setWarp (s : State) (k w : Nat) (x : Warp) : (s.setWarp k w x).warp k w = x := by
  simp [State.setWarp, State.warp, State.team, State.setTeam]

@[simp] theorem State.setWarp_setWarp (s : State) (k w : Nat) (x y : Warp) :
    (s.setWarp k w x).setWarp k w y = s.setWarp k w y := by
  simp [State.setWarp, State.team, State.setTeam, Cells.put_put]

theorem State.team_setWarp (s : State) (k w : Nat) (x : Warp) :
    (s.setWarp k w x).team k = { s.team k with warps := Cells.put (s.team k).warps w x } := by
  simp [State.setWarp, State.team, State.setTeam]

theorem State.team_setWarp_ne (s : State) {k j : Nat} (w : Nat) (x : Warp) (h : k ≠ j) :
    (s.setWarp k w x).team j = s.team j := by
  simp [State.setWarp, State.team, State.setTeam, Cells.get_put_ne _ _ h]

theorem State.warp_setWarp_ne (s : State) {k w j v : Nat} (x : Warp) (h : k ≠ j ∨ w ≠ v) :
    (s.setWarp k w x).warp j v = s.warp j v := by
  by_cases g : k = j
  · subst g
    have hw : w ≠ v := by simpa using h
    simp [State.warp, State.team_setWarp, Cells.get_put_ne _ _ hw]
  · simp [State.warp, State.team_setWarp_ne s w x g]

theorem State.scratch_setWarp (s : State) (k w j : Nat) (x : Warp) :
    ((s.setWarp k w x).team j).scratch = (s.team j).scratch := by
  by_cases g : k = j
  · subst g; rw [State.team_setWarp]
  · rw [State.team_setWarp_ne _ _ _ g]

/-! ## Writing registers -/

/-- A write names lanes below 32, and a W register by one value from lane 0 on. -/
def Wr.sound (x : Wr) : Prop :=
  (∀ y ∈ x.vals, y.1 < 32) ∧ (∀ r, x.reg = .w r → ∃ v, x.vals = (List.range 32).map (fun l => (l, v)))

theorem foldl_set_get (n : Nat) (vals : List (Nat × DWord)) (m : Cells Word) (r l : Nat) (hl : l < 32)
    (hv : ∀ y ∈ vals, y.1 < 32) :
    Cells.get (vals.foldl (fun v y => Cells.set v (n * 32 + y.1) (y.2.setWidth 32)) m) (r * 32 + l) =
      if n = r then ((vals.foldl (fun (o : Option DWord) (y : Nat × DWord) => if y.1 = l then some y.2 else o) none).map (·.setWidth 32)).getD
        (Cells.get m (r * 32 + l)) else Cells.get m (r * 32 + l) := by
  suffices H : ∀ (m : Cells Word) (o : Option DWord) (base : Word),
      (n = r → Cells.get m (r * 32 + l) = (o.map (·.setWidth 32)).getD base) →
      (n ≠ r → Cells.get m (r * 32 + l) = base) →
      Cells.get (vals.foldl (fun v y => Cells.set v (n * 32 + y.1) (y.2.setWidth 32)) m) (r * 32 + l) =
        if n = r then ((vals.foldl (fun (o : Option DWord) (y : Nat × DWord) => if y.1 = l then some y.2 else o) o).map (·.setWidth 32)).getD base
        else base by
    exact H m none _ (by simp) (by simp)
  induction vals with
  | nil => intro m o base h1 h2; simp only [List.foldl_nil]; split <;> simp_all
  | cons y ys ih =>
    intro m o base h1 h2
    simp only [List.foldl_cons]
    have hy : y.1 < 32 := hv y (by simp)
    apply ih (fun z hz => hv z (by simp [hz]))
    · intro h; subst h
      rw [Cells.get_set]
      by_cases e : y.1 = l
      · simp [e]
      · rw [if_neg (by omega), if_neg e]; exact h1 rfl
    · intro h
      rw [Cells.get_set, if_neg (by omega)]; exact h2 h

theorem bit_if (b : Bool) : (if b = true then (1 : DWord) else 0).getLsbD 0 = b := by cases b <;> rfl

theorem foldl_bits (vals : List (Nat × DWord)) (m : Lanes) (l : Nat) (hl : l < 32) (hv : ∀ y ∈ vals, y.1 < 32) :
    (vals.foldl (fun m y => if y.2.getLsbD 0 then m ||| (1#32 <<< y.1) else m &&& ~~~(1#32 <<< y.1)) m).getLsbD l =
      ((vals.foldl (fun (o : Option DWord) (y : Nat × DWord) => if y.1 = l then some y.2 else o) none).getD (if m.getLsbD l then 1 else 0)).getLsbD 0 := by
  suffices H : ∀ (m : Lanes) (o : Option DWord) (old : DWord), m.getLsbD l = (o.getD old).getLsbD 0 →
      (vals.foldl (fun m y => if y.2.getLsbD 0 then m ||| (1#32 <<< y.1) else m &&& ~~~(1#32 <<< y.1)) m).getLsbD l =
      ((vals.foldl (fun (o : Option DWord) (y : Nat × DWord) => if y.1 = l then some y.2 else o) o).getD old).getLsbD 0 by
    apply H; simp only [Option.getD_none]; split <;> simp_all
  induction vals with
  | nil => intro m o old h; simpa using h
  | cons y ys ih =>
    intro m o old h
    simp only [List.foldl_cons]
    have hy : y.1 < 32 := hv y (by simp)
    apply ih (fun z hz => hv z (by simp [hz]))
    have one (a b : Nat) (ha : a < 32) : (1#32 <<< b).getLsbD a = decide (a = b) := by
      simp only [BitVec.getLsbD_shiftLeft, BitVec.getLsbD_one]
      by_cases e : a = b
      · subst e; simp [ha]
      · simp only [ha, decide_true, Bool.true_and]
        by_cases g : a < b
        · simp [g, e]
        · simp [g, e]; omega
    have get (b : Bool) : (if b then m ||| (1#32 <<< y.1) else m &&& ~~~(1#32 <<< y.1)).getLsbD l =
        if y.1 = l then b else m.getLsbD l := by
      by_cases e : y.1 = l
      · rw [if_pos e]
        cases b <;> simp only [Bool.false_eq_true, if_true, if_false, BitVec.getLsbD_or, BitVec.getLsbD_and,
          BitVec.getLsbD_not, one _ _ hl, e] <;> simp
      · have e' : ¬ l = y.1 := fun h => e h.symm
        rw [if_neg e]
        cases b <;> simp only [Bool.false_eq_true, if_true, if_false, BitVec.getLsbD_or, BitVec.getLsbD_and,
          BitVec.getLsbD_not, one _ _ hl, e', hl] <;> simp
    rw [get]
    by_cases e : y.1 = l
    · rw [if_pos e, if_pos e]; rfl
    · rw [if_neg e, if_neg e]; exact h

/-! ## One write and several -/

theorem Warp.overtake_frame (w : Warp) (id : Nat) (r : Reg) (ls : Lanes) : ∃ x, w.overtake id r ls = { w with results := x } := ⟨_, rfl⟩

/-- What one write changes: registers, labels, and results in flight. -/
theorem Warp.write_frame (w : Warp) (full : Bool) (amb : Label) (id : Nat) (x : Wr) :
    WarpFrame w (w.write full amb id x) := by
  unfold Warp.write WarpFrame
  split
  · rfl
  · cases h : x.reg <;> simp only [Warp.putVals, Warp.putLab, Warp.overtake, h] <;> try rfl
    cases x.vals <;> rfl

theorem WarpFrame.refl (a : Warp) : WarpFrame a a := rfl

theorem WarpFrame.trans {a b c : Warp} (h : WarpFrame a b) (g : WarpFrame b c) : WarpFrame a c := by
  unfold WarpFrame at *; rw [g, h]

/-- A sound write leaves its values and its label. -/
theorem Warp.write_regs (c : Cx) (w : Warp) (id : Nat) (x : Wr) (hx : x.sound) :
    RegsAfter c [x] w (w.write c.full c.ambient id x) := by
  unfold Warp.write
  by_cases hn : x.none = true
  · rw [if_pos hn]
    simp only [RegsAfter, valueAfter, labelAfter, Wr.valueAt, hn, List.foldl_cons, List.foldl_nil, Bool.true_or, if_true,
      Option.getD_none, bit_if, and_self, implies_true, and_true]
    intro r l _; simp
  · rw [if_neg hn]
    obtain ⟨reg, vals, lab⟩ := x
    obtain ⟨hl, hw⟩ := hx
    simp only [RegsAfter, valueAfter, labelAfter, List.foldl_cons, List.foldl_nil, Wr.valueAt, hn, Bool.false_or]
    cases reg with
    | v n =>
      refine ⟨?_, ?_, ?_, ?_, ?_, ?_, ?_⟩
      · intro r l hl'
        simp only [Warp.putVals, Warp.putLab, Warp.overtake]
        rw [foldl_set_get n vals _ r l hl' hl]
        by_cases e : n = r
        · subst e
          cases vals.foldl (fun (o : Option DWord) y => if y.1 = l then some y.2 else o) none <;> simp
        · have : (Reg.v n != Reg.v r) = true := by simp [e]
          simp [this, e]
      · intro r l _; exact (bit_if _).symm
      · intro r; simp [Warp.putVals, Warp.putLab, Warp.overtake]
      · intro r
        simp only [Warp.putVals, Warp.putLab, Warp.overtake, Cells.get_set, Warp.rawLab]
        by_cases e : n = r
        · subst e; simp
        · have : (Reg.v n != Reg.v r) = true := by simp [e]
          simp [this, e]
      · intro r; simp [Warp.putVals, Warp.putLab, Warp.overtake]
      · intro r; simp [Warp.putVals, Warp.putLab, Warp.overtake]
      · intro r; simp [Warp.putVals, Warp.putLab, Warp.overtake]
    | p n =>
      refine ⟨?_, ?_, ?_, ?_, ?_, ?_, ?_⟩
      · intro r l hl'; simp [Warp.putVals, Warp.putLab, Warp.overtake]
      · intro r l hl'
        simp only [Warp.putVals, Warp.putLab, Warp.overtake, Cells.get_set]
        by_cases e : n = r
        · subst e
          simpa using foldl_bits vals _ l hl' hl
        · have : (Reg.p n != Reg.p r) = true := by simp [e]
          simp only [this, e, if_true, if_false, Option.getD_none, bit_if]
      · intro r; simp [Warp.putVals, Warp.putLab, Warp.overtake]
      · intro r; simp [Warp.putVals, Warp.putLab, Warp.overtake]
      · intro r
        simp only [Warp.putVals, Warp.putLab, Warp.overtake, Cells.get_set, Warp.rawLab]
        by_cases e : n = r
        · subst e; simp
        · have : (Reg.p n != Reg.p r) = true := by simp [e]
          simp [this, e]
      · intro r; simp [Warp.putVals, Warp.putLab, Warp.overtake]
      · intro r; simp [Warp.putVals, Warp.putLab, Warp.overtake]
    | w n =>
      obtain ⟨v, hv⟩ := hw n rfl
      simp only at hv
      subst hv
      have hr : (List.range 32).map (fun l => (l, v)) = (0, v) :: (List.range' 1 31).map (fun l => (l, v)) := by
        simp [List.range_eq_range']; rfl
      have h0 : ((List.range 32).map (fun l => (l, v))).foldl
          (fun (o : Option DWord) y => if y.1 = 0 then some y.2 else o) none = some v := by
        simp [List.range_succ]
      refine ⟨?_, ?_, ?_, ?_, ?_, ?_, ?_⟩
      · intro r l hl'; simp [hr, Warp.putVals, Warp.putLab, Warp.overtake]
      · intro r l _; exact (bit_if _).symm
      · intro r
        by_cases e : n = r
        · subst e; rw [h0]; simp [hr, Warp.putVals, Warp.putLab, Warp.overtake]
        · have : (Reg.w n != Reg.w r) = true := by simp [e]
          simp [hr, Warp.putVals, Warp.putLab, Warp.overtake, Cells.get_set, e]
      · intro r; simp [hr, Warp.putVals, Warp.putLab, Warp.overtake]
      · intro r; simp [hr, Warp.putVals, Warp.putLab, Warp.overtake]
      · intro r
        by_cases e : n = r
        · subst e; simp [hr, Warp.putVals, Warp.putLab, Warp.overtake, Warp.rawLab]
        · have : (Reg.w n != Reg.w r) = true := by simp [e]
          simp [hr, Warp.putVals, Warp.putLab, Warp.overtake, Cells.get_set, e]
      · intro r; simp [hr, Warp.putVals, Warp.putLab, Warp.overtake]
    | g n =>
      refine ⟨?_, ?_, ?_, ?_, ?_, ?_, ?_⟩
      · intro r l hl'; simp [Warp.putVals, Warp.putLab, Warp.overtake]
      · intro r l _; exact (bit_if _).symm
      · intro r; simp [Warp.putVals, Warp.putLab, Warp.overtake]
      · intro r; simp [Warp.putVals, Warp.putLab, Warp.overtake]
      · intro r; simp [Warp.putVals, Warp.putLab, Warp.overtake]
      · intro r; simp [Warp.putVals, Warp.putLab, Warp.overtake]
      · intro r
        simp only [Warp.putVals, Warp.putLab, Warp.overtake, Cells.get_set, Warp.rawLab]
        by_cases e : n = r
        · subst e; simp
        · have : (Reg.g n != Reg.g r) = true := by simp [e]
          simp [this, e]
    | tile n =>
      refine ⟨?_, ?_, ?_, ?_, ?_, ?_, ?_⟩
      · intro r l hl'; simp [Warp.putVals, Warp.putLab, Warp.overtake]
      · intro r l _; exact (bit_if _).symm
      all_goals intro r; simp [Warp.putVals, Warp.putLab, Warp.overtake]

theorem RegsAfter.refl (c : Cx) (a : Warp) : RegsAfter c [] a a := by
  simp only [RegsAfter, valueAfter, labelAfter, List.foldl_nil, bit_if, implies_true, and_true]
  intro r l _; simp

/-- Writes one after another. -/
theorem RegsAfter.append {c : Cx} {xs ys : List Wr} {a b d : Warp} (h : RegsAfter c xs a b) (g : RegsAfter c ys b d) :
    RegsAfter c (xs ++ ys) a d := by
  obtain ⟨h1, h2, h3, h4, h5, h6, h7⟩ := h
  obtain ⟨g1, g2, g3, g4, g5, g6, g7⟩ := g
  have fold (r : Reg) (l : Nat) (o : DWord) : valueAfter (xs ++ ys) r l o = valueAfter ys r l (valueAfter xs r l o) := by
    simp [valueAfter]
  have foldL (r : Reg) (o : Label) : labelAfter c (xs ++ ys) r o = labelAfter c ys r (labelAfter c xs r o) := by
    simp [labelAfter]
  have low (zs : List Wr) (r : Reg) (l : Nat) (f : DWord → DWord) (hf : ∀ x, f (f x) = f x) (o : DWord) :
      f (valueAfter zs r l (f o)) = f (valueAfter zs r l o) := by
    induction zs generalizing o with
    | nil => simp [valueAfter, hf]
    | cons z zs ih =>
      simp only [valueAfter, List.foldl_cons] at ih ⊢
      cases z.valueAt r l with
      | none => simpa using ih o
      | some v => simp
  refine ⟨?_, ?_, ?_, ?_, ?_, ?_, ?_⟩
  · intro r l hl
    rw [g1 r l hl, h1 r l hl, fold]
    have e (x : DWord) : (x.setWidth 32).setWidth 64 = x &&& 0xFFFFFFFF#64 := by
      apply BitVec.eq_of_getLsbD_eq; intro i hi
      simp only [BitVec.getLsbD_setWidth, BitVec.getLsbD_and, hi, decide_true, Bool.true_and]
      by_cases hi' : i < 32
      · have : (0xFFFFFFFF#64).getLsbD i = true := by
          have : i ∈ List.range 32 := by simpa using hi'
          revert i; decide
        simp [hi', this]
      · have : (0xFFFFFFFF#64).getLsbD i = false := by
          simp only [BitVec.getLsbD_ofNat, Bool.and_eq_false_iff]; right
          exact Nat.testBit_lt_two_pow (Nat.lt_of_lt_of_le (by decide) (Nat.pow_le_pow_right (by decide) (Nat.le_of_not_lt hi')))
        simp [hi', this]
    have := congrArg (·.setWidth 32) (low ys (.v r) l (fun x => (x.setWidth 32).setWidth 64) (by intro x; simp)
      (valueAfter xs (.v r) l ((Cells.get a.v (r * 32 + l)).setWidth 64)))
    simpa using this
  · intro r l hl
    rw [g2 r l hl, h2 r l hl, fold]
    generalize valueAfter xs (.p r) l _ = o
    have := congrArg (BitVec.getLsbD · 0) (low ys (.p r) l (fun x => if x.getLsbD 0 = true then 1 else 0)
      (by intro x; cases x.getLsbD 0 <;> rfl) o)
    simpa only [bit_if] using this
  · intro r; rw [g3, h3, fold]
  · intro r; rw [g4, h4, foldL]
  · intro r; rw [g5, h5, foldL]
  · intro r; rw [g6, h6, foldL]
  · intro r; rw [g7, h7, foldL]

/-- Sound writes leave what `RegsAfter` says. -/
theorem Warp.writes_regs (c : Cx) (id : Nat) (wr : List Wr) (h : ∀ x ∈ wr, x.sound) (w : Warp) :
    RegsAfter c wr w (wr.foldl (fun w x => w.write c.full c.ambient id x) w) ∧
    WarpFrame w (wr.foldl (fun w x => w.write c.full c.ambient id x) w) := by
  induction wr generalizing w with
  | nil => exact ⟨.refl c w, .refl w⟩
  | cons x xs ih =>
    have hx := Warp.write_regs c w id x (h x (by simp))
    have hf := Warp.write_frame w c.full c.ambient id x
    obtain ⟨r, f⟩ := ih (fun y hy => h y (by simp [hy])) (w.write c.full c.ambient id x)
    exact ⟨hx.append r, hf.trans f⟩

/-- The registers of two warps agree, and so does the rest but for strands, gang and results. -/
def Warp.movedTo (a b : Warp) : Prop :=
  b = { a with slices := b.slices, gang := b.gang, results := b.results, deps := b.deps, qclock := b.qclock,
               atQuantum := b.atQuantum }

theorem Warp.movedTo.refl (a : Warp) : a.movedTo a := rfl
theorem Warp.movedTo.results (a : Warp) (x : List Result) : a.movedTo { a with results := x } := rfl
theorem Warp.movedTo.trans {a b c : Warp} (h : a.movedTo b) (g : b.movedTo c) : a.movedTo c := by
  unfold Warp.movedTo at *; rw [g, h]

theorem Warp.movedTo.frame {a b : Warp} (h : a.movedTo b) : WarpFrame a b := by
  unfold WarpFrame; rw [h]

theorem Warp.movedTo.regs {c : Cx} {wr : List Wr} {a b d : Warp} (h : RegsAfter c wr a b) (g : b.movedTo d) :
    RegsAfter c wr a d := by
  rw [g]; exact h

/-- Retiring an instruction writes its registers. -/
theorem Cx.retire_regs (c : Cx) (e : Eff) (w : Warp) (id : Nat) (h : ∀ x ∈ e.wr, x.sound) :
    RegsAfter c e.wr w (c.retire e w id) ∧ WarpFrame w (c.retire e w id) := by
  have H := Warp.writes_regs c id e.wr h w
  unfold Cx.retire
  cases e.result with
  | none =>
    simp only
    split
    · exact H
    · exact ⟨Warp.movedTo.regs H.1 rfl, H.2.trans rfl⟩
  | some r => exact ⟨Warp.movedTo.regs H.1 (Warp.movedTo.results _ _), H.2.trans (Warp.movedTo.results _ _).frame⟩

theorem Warp.write_slices (w : Warp) (full : Bool) (amb : Label) (id : Nat) (x : Wr) :
    (w.write full amb id x).slices = w.slices := by
  unfold Warp.write
  split
  · rfl
  · cases h : x.reg <;> simp only [Warp.putVals, Warp.putLab, Warp.overtake, h]
    cases x.vals <;> rfl

theorem Cx.retire_slices (c : Cx) (e : Eff) (w : Warp) (id : Nat) : (c.retire e w id).slices = w.slices := by
  have h : (e.wr.foldl (fun w x => w.write c.full c.ambient id x) w).slices = w.slices := by
    generalize e.wr = l
    induction l generalizing w with
    | nil => rfl
    | cons x xs ih => simp only [List.foldl_cons]; rw [ih, Warp.write_slices]
  unfold Cx.retire
  split
  · exact h
  · dsimp only
    split <;> exact h

/-! ## Strands move, registers stay -/

theorem Warp.moveStrands_moved (w : Warp) (n : Now) (act : Lanes) (h : Hdr) (wide : Bool) (after : After)
    (ends : List (Nat × LaneEnd)) (tick : Nat) :
    ∃ x, w.moveStrands n act h wide after ends tick = { w with slices := x } := by
  unfold Warp.moveStrands
  generalize n.units = us
  induction us generalizing w with
  | nil => exact ⟨_, rfl⟩
  | cons u us ih =>
    simp only [List.foldl_cons]
    obtain ⟨y, hy⟩ := ih { w with slices := _ }
    exact ⟨y, by rw [hy]⟩

/-- Settling rules 1 to 3 leaves the count of spilled entries of a slice. -/
theorem Slice.rechoose_spilled (x : Slice) : x.rechoose.spilled = x.spilled := by
  unfold Slice.rechoose
  repeat' split
  all_goals rfl

theorem Slice.afterIssue_spilled (x : Slice) (e : Nat) (ps : List Strand) (y : Bool) :
    (x.afterIssue e ps y).spilled = x.spilled := by
  unfold Slice.afterIssue
  dsimp only
  repeat' (first | split | (dsimp only; split))
  all_goals first | rfl | exact Slice.rechoose_spilled _

theorem Slice.merge_spilled (x : Slice) (es : List (Nat × Strand)) (f : Strand → Strand) :
    (x.merge es f).spilled = x.spilled := by
  unfold Slice.merge
  split <;> rfl

theorem Slice.settleOnce_spilled (x : Slice) (ex : BitVec 4) : (x.settleOnce ex).spilled = x.spilled := by
  unfold Slice.settleOnce
  split
  · rfl
  · rw [Slice.merge_spilled]

theorem Slice.settleJoins_spilled (x : Slice) (ex : BitVec 4) : (x.settleJoins ex).spilled = x.spilled := by
  unfold Slice.settleJoins
  generalize List.range _ = l
  induction l generalizing x with
  | nil => rfl
  | cons a l ih => simp only [List.foldl_cons]; rw [ih, Slice.settleOnce_spilled]

theorem Warp.unspilled_iff (w : Warp) : w.unspilled = true ↔ ∀ k < 8, (w.slice k).spilled = 0 := by
  simp [Warp.unspilled]

theorem Warp.moveStrands_spilled (w : Warp) (n : Now) (act : Lanes) (h : Hdr) (wide : Bool) (after : After)
    (ends : List (Nat × LaneEnd)) (tick k : Nat) :
    ((w.moveStrands n act h wide after ends tick).slice k).spilled = (w.slice k).spilled := by
  unfold Warp.moveStrands
  generalize n.units = us
  induction us generalizing w with
  | nil => rfl
  | cons u us ih =>
    simp only [List.foldl_cons]
    rw [ih]
    simp only [Warp.slice, Cells.get_put]
    split
    · rename_i e; subst e; rw [Slice.afterIssue_spilled]
    · rfl

theorem Warp.settleJoins_moved (w : Warp) : ∃ x, w.settleJoins = { w with slices := x } := ⟨_, rfl⟩

theorem Cells.get_map_spilled (m : Cells Slice) (f : Nat × Slice → Nat × Slice) (hk : ∀ c, (f c).1 = c.1)
    (hs : ∀ c, (f c).2.spilled = c.2.spilled) (k : Nat) :
    (Cells.get (m.map f) k : Slice).spilled = (Cells.get m k : Slice).spilled := by
  induction m with
  | nil => rfl
  | cons c rest ih =>
    obtain ⟨a, v⟩ := c
    have h1 := hk (a, v)
    have h2 := hs (a, v)
    cases hf : f (a, v) with
    | mk b u =>
      rw [hf] at h1 h2
      simp only at h1 h2
      subst h1
      simp only [List.map_cons, hf, Cells.get]
      split
      · exact h2
      · exact ih

theorem Warp.settleJoins_spilled (w : Warp) (k : Nat) : (w.settleJoins.slice k).spilled = (w.slice k).spilled := by
  unfold Warp.settleJoins Warp.slice
  apply Cells.get_map_spilled
  · intro c; split <;> rfl
  · intro c; split
    · rfl
    · rw [Slice.settleJoins_spilled]

theorem Warp.regroup_moved (w : Warp) (pc : DWord) : ∃ g, w.regroup pc = { w with gang := g } := by
  unfold Warp.regroup
  split <;> exact ⟨_, rfl⟩

theorem Warp.settleRegang_moved (w : Warp) : ∃ x g, w.settleRegang = { w with slices := x, gang := g } := by
  unfold Warp.settleRegang
  split
  · exact ⟨w.slices, w.gang, rfl⟩
  · dsimp only
    split
    · exact ⟨_, w.gang, rfl⟩
    · obtain ⟨g, hg⟩ := Warp.regroup_moved _ _
      exact ⟨_, g, hg⟩

theorem Warp.unmark_moved (w : Warp) : ∃ x, w.unmark = { w with slices := x } := ⟨_, rfl⟩

theorem Cells.get_put_spilled (m : Cells Slice) (j i : Nat) (x : Slice) (h : x.spilled = (Cells.get m j : Slice).spilled) :
    (Cells.get (Cells.put m j x) i : Slice).spilled = (Cells.get m i : Slice).spilled := by
  rw [Cells.get_put]; split
  · rename_i e; subst e; exact h
  · rfl

/-- The slices of a warp that has spilled no entry keep their stacks. -/
theorem State.settleSlices_unspilled (s : State) (k w : Nat) (search : BitVec 8) (h : (s.warp k w).unspilled = true)
    (l : List Nat) (hl : ∀ j ∈ l, j < 8) :
    l.foldl (fun (s : State) j =>
      if ((s.warp k w).slice j).spilled = 0 then s else s.settleSpilled k w j (search.getLsbD j)) s = s := by
  induction l with
  | nil => rfl
  | cons j l ih =>
    simp only [List.foldl_cons]
    rw [if_pos ((Warp.unspilled_iff _).mp h j (hl j (by simp)))]
    exact ih (fun i hi => hl i (by simp [hi]))

/-- What a warp without spilled entries does when its joins settle: strands and gang move, nothing else. -/
theorem State.settleStack_moved (s : State) (k w : Nat) (search : BitVec 8) (h : (s.warp k w).unspilled = true) :
    ∃ x g, s.settleStack k w search = s.setWarp k w { s.warp k w with slices := x, gang := g } := by
  obtain ⟨y, hy⟩ := Warp.settleJoins_moved (s.warp k w)
  have hu : ((s.setWarp k w (s.warp k w).settleJoins).warp k w).unspilled = true := by
    rw [State.warp_setWarp, Warp.unspilled_iff]
    intro i hi
    rw [Warp.settleJoins_spilled]
    exact (Warp.unspilled_iff _).mp h i hi
  have hp : (Cells.find? (s.setWarp k w (s.warp k w).settleJoins).teams k).isNone = false := by
    simp [State.setWarp, State.setTeam, Cells.find?_put]
  have hf := State.settleSlices_unspilled _ k w search hu (List.range 8) (by simp)
  obtain ⟨x, g, hr⟩ := Warp.settleRegang_moved (s.warp k w).settleJoins
  refine ⟨x, g, ?_⟩
  unfold State.settleStack State.onWarp
  dsimp only at hf ⊢
  rw [hf, hp]
  simp only [Bool.false_eq_true, if_false, State.warp_setWarp, State.setWarp_setWarp]
  rw [hr, hy]

/-- Lines that a warp's hardware has read are forgotten: nothing else changes. -/
theorem State.forgetLines_remote (s : State) (k w : Nat) : ∃ r, s.forgetLines k w = { s with remote := r } := by
  unfold State.forgetLines
  split
  · exact ⟨s.remote, rfl⟩
  · exact ⟨_, rfl⟩

/-! ## Finishing and issuing -/

theorem Warp.movedTo.exited0 (a : Warp) (d : List Dep) (q : Nat) (b : Bool) :
    a.movedTo { a with exited := a.exited ||| exitLanes [], deps := d, qclock := q, atQuantum := b } := by
  unfold Warp.movedTo exitLanes; simp

theorem StateFrame.of_eq {base t : State} {k w : Nat} (x : Warp)
    (h : t = { base.setWarp k w x with now := none, nextId := t.nextId, free := t.free, remote := t.remote }) :
    StateFrame base t k w := by
  have hw : t.warp k w = x := by
    rw [h]; exact State.warp_setWarp base k w x
  refine ⟨by rw [hw]; exact h, ?_, ?_, ?_⟩
  · intro a; rw [h]; rfl
  · intro a; rw [h]; rfl
  · intro j a; rw [h]; exact congrArg (Cells.get · a) (State.scratch_setWarp base k w j x)

/-- The warp of an instruction that has retired and moved its strands, before anything settles. -/
def Cx.movedWarp (c : Cx) (wide : Bool) (e : Eff) : Warp :=
  let wp := (c.retire e (e.s.warp c.n.team c.n.warp) e.s.nextId).moveStrands c.n c.act c.h wide e.after e.ends e.s.cycle
  { wp with exited := wp.exited ||| exitLanes e.ends, deps := c.depsAfter e (e.s.warp c.n.team c.n.warp)
            qclock := if c.counts e then wp.qclock + 1 else wp.qclock
            atQuantum := wp.atQuantum || (c.counts e && decide ((wp.qclock + 1) % c.hdr.quantum = 0)) }

/-- The warp once the gang has been taken again and markers have been looked at. -/
def Cx.regangWarp (c : Cx) (v : Warp) : Warp := (if v.gang &&& unitMask c.n.units = 0 then v else v.regroup c.n.pc).unmark

theorem Cx.regangWarp_moved (c : Cx) (v : Warp) : v.movedTo (c.regangWarp v) := by
  unfold Cx.regangWarp
  show Warp.movedTo v (Warp.unmark _)
  split
  · rfl
  · obtain ⟨g, hg⟩ := Warp.regroup_moved v c.n.pc
    rw [hg]; rfl

/-- The end of an instruction of a placed team that loses nothing: what is left once its stack has settled, whatever that
gives the warp. -/
theorem Cx.finish_settled (c : Cx) (wide : Bool) (e : Eff) (v : Warp)
    (ht : (Cells.find? e.s.teams c.n.team).isSome = true) (hl : lostFault e.ends = none)
    (hs : (e.s.setWarp c.n.team c.n.warp (c.movedWarp wide e)).settleStack c.n.team c.n.warp e.after.search =
      e.s.setWarp c.n.team c.n.warp v) :
    ∃ t, t = { e.s.setWarp c.n.team c.n.warp (c.regangWarp v) with
        now := none, nextId := e.s.nextId + 1, free := e.s.free + 65536, remote := t.remote } ∧
      c.finish wide e = if e.ends.isEmpty then t
        else ((t.enterFaults c.n.team c.n.warp).raiseTraps c.n e.ends).takeTraps c.n.team c.n.warp := by
  have hn : (Cells.find? e.s.teams c.n.team).isNone = false := by simpa using ht
  obtain ⟨r, hr⟩ : ∃ r, (if e.after.again then e.s.setWarp c.n.team c.n.warp v
      else (e.s.setWarp c.n.team c.n.warp v).forgetLines c.n.team c.n.warp) =
        { e.s.setWarp c.n.team c.n.warp v with remote := r } := by
    split
    · exact ⟨_, rfl⟩
    · exact State.forgetLines_remote _ _ _
  have hp : (Cells.find? ({ e.s.setWarp c.n.team c.n.warp v with remote := r } : State).teams c.n.team).isNone = false := by
    simp [State.setWarp, State.setTeam, Cells.find?_put]
  have hw : (({ e.s.setWarp c.n.team c.n.warp v with remote := r } : State).onWarp c.n.team c.n.warp (fun wp =>
      (if wp.gang &&& unitMask c.n.units = 0 then wp else wp.regroup c.n.pc).unmark)) =
      { e.s.setWarp c.n.team c.n.warp (c.regangWarp v) with remote := r } := by
    show ({ (e.s.setWarp c.n.team c.n.warp v).setWarp c.n.team c.n.warp
      (c.regangWarp ((e.s.setWarp c.n.team c.n.warp v).warp c.n.team c.n.warp)) with remote := r } : State) = _
    rw [State.warp_setWarp, State.setWarp_setWarp]
  refine ⟨{ e.s.setWarp c.n.team c.n.warp (c.regangWarp v) with
        now := none, nextId := e.s.nextId + 1, free := e.s.free + 65536, remote := r }, rfl, ?_⟩
  · unfold Cx.finish
    simp only [hn, hl, Bool.false_eq_true, if_false]
    have hs' := hs
    unfold Cx.movedWarp at hs'
    dsimp only at hs'
    rw [hs', hr]
    simp only [hp, Bool.false_eq_true, if_false, hw]
    rfl

/-- An instruction whose lanes all go on plainly: its registers are written, its strands move, nothing else changes. -/
theorem Cx.finish_plain (c : Cx) (wide : Bool) (e : Eff) (he : e.ends = [])
    (ht : (Cells.find? e.s.teams c.n.team).isSome = true) (hu : (e.s.warp c.n.team c.n.warp).unspilled = true)
    (hw : ∀ x ∈ e.wr, x.sound) :
    RegsAfter c e.wr (e.s.warp c.n.team c.n.warp) ((c.finish wide e).warp c.n.team c.n.warp) ∧
    WarpFrame (e.s.warp c.n.team c.n.warp) ((c.finish wide e).warp c.n.team c.n.warp) ∧
    StateFrame e.s (c.finish wide e) c.n.team c.n.warp := by
  obtain ⟨hr, hf⟩ := Cx.retire_regs c e (e.s.warp c.n.team c.n.warp) e.s.nextId hw
  obtain ⟨x1, h1⟩ := Warp.moveStrands_moved (c.retire e (e.s.warp c.n.team c.n.warp) e.s.nextId) c.n c.act c.h wide
    e.after e.ends e.s.cycle
  have hwp : (c.retire e (e.s.warp c.n.team c.n.warp) e.s.nextId).movedTo (c.movedWarp wide e) := by
    unfold Cx.movedWarp
    rw [h1, he]
    exact Warp.movedTo.trans (b := { c.retire e (e.s.warp c.n.team c.n.warp) e.s.nextId with slices := x1 }) rfl
      (Warp.movedTo.exited0 _ _ _ _)
  have hu2 : ((e.s.setWarp c.n.team c.n.warp (c.movedWarp wide e)).warp c.n.team c.n.warp).unspilled = true := by
    rw [State.warp_setWarp, Warp.unspilled_iff]
    intro k hk
    have := Warp.moveStrands_spilled (c.retire e (e.s.warp c.n.team c.n.warp) e.s.nextId) c.n c.act c.h wide e.after e.ends
      e.s.cycle k
    refine this.trans ?_
    unfold Warp.slice
    rw [Cx.retire_slices]
    exact (Warp.unspilled_iff _).mp hu k hk
  obtain ⟨x2, g2, h2⟩ := State.settleStack_moved _ c.n.team c.n.warp e.after.search hu2
  rw [State.warp_setWarp, State.setWarp_setWarp] at h2
  obtain ⟨t, e1, e2⟩ := c.finish_settled wide e _ ht (by rw [he]; rfl) h2
  rw [he, List.isEmpty_nil, if_pos rfl] at e2
  have hm : (c.retire e (e.s.warp c.n.team c.n.warp) e.s.nextId).movedTo
      (c.regangWarp { c.movedWarp wide e with slices := x2, gang := g2 }) :=
    (hwp.trans (b := c.movedWarp wide e) (c := { c.movedWarp wide e with slices := x2, gang := g2 }) rfl).trans
      (c.regangWarp_moved _)
  have hwarp : (c.finish wide e).warp c.n.team c.n.warp = c.regangWarp { c.movedWarp wide e with slices := x2, gang := g2 } := by
    rw [e2, e1]; exact State.warp_setWarp _ _ _ _
  refine ⟨?_, ?_, StateFrame.of_eq _ (by rw [e2]; exact e1.trans (by rw [e1]))⟩
  · rw [hwarp]; exact Warp.movedTo.regs hr hm
  · rw [hwarp]; exact hf.trans hm.frame

theorem issues_placed {i : Instr} {s : State} {n : Now} (h : Issues i s n = true) :
    (Cells.find? s.teams n.team).isSome = true := by
  simp only [Issues, Bool.and_eq_true] at h; exact h.1.2

theorem issues_unspilled {i : Instr} {s : State} {n : Now} (h : Issues i s n = true) :
    (s.warp n.team n.warp).unspilled = true := by
  simp only [Issues, Bool.and_eq_true] at h; exact h.2

/-- An instruction all of whose operands stand is not bounded. -/
theorem Cx.bounded_settled (c : Cx) (i : Instr) (body : Cx → Eff) (h : c.settled i = true) : c.bounded i body = body c := by
  simp only [Cx.settled, Bool.and_eq_true, beq_iff_eq] at h
  unfold Cx.bounded
  rw [if_pos h.1]

/-- An instruction that executes runs its body. -/
theorem issue_runs {i : Instr} {s : State} {n : Now} (body : Cx → Eff) (h : Issues i s n = true)
    (hb : (body (ctxOf i s n)).bufferFull = false) :
    issue i s body = .next ((ctxOf i s n).finish i.needsFull (body (ctxOf i s n))) := by
  simp only [Issues, Bool.and_eq_true, decide_eq_true_eq, Bool.not_eq_true'] at h
  obtain ⟨⟨⟨⟨⟨⟨⟨h1, h2⟩, h3⟩, h4⟩, hst⟩, h5⟩, _⟩, _⟩ := h
  have hv : (ctxOf i s n).vetoed i = false := by
    simp only [Cx.settled, Bool.and_eq_true, Bool.not_eq_true'] at hst
    exact hst.2
  have hbd := Cx.bounded_settled (ctxOf i s n) i body hst
  unfold issue
  rw [h1]
  dsimp only
  simp only [ctxOf] at h3 h4 h5 hb hv hbd ⊢
  rw [if_neg (by simp [h2]), if_neg (by simpa [hv] using h3), h4]
  dsimp only
  rw [if_neg (by simp [h5]), hbd, if_neg (by simp [hb])]

/-! ## Sound writes -/

theorem laneList_lt {m : Lanes} {l : Nat} (h : l ∈ laneList m) : l < 32 := by
  simp [laneList] at h; exact h.1

theorem Cx.lanesA_lt {c : Cx} {l : Nat} (h : l ∈ c.lanesA) : l < 32 := laneList_lt h

theorem vWrites_sound (d : BitVec 8) (words : Nat) (vals : List (Nat × Nat)) (lab : Label)
    (h : ∀ y ∈ vals, y.1 < 32) : ∀ x ∈ vWrites d words vals lab, x.sound := by
  intro x hx
  simp only [vWrites, List.mem_map] at hx
  obtain ⟨i, _, rfl⟩ := hx
  refine ⟨?_, by intro r hr; simp at hr⟩
  intro y hy
  simp only [List.mem_map] at hy
  obtain ⟨z, hz, rfl⟩ := hy
  exact h z hz

theorem pWrite_sound (d : Nat) (vals : List (Nat × Bool)) (lab : Label) (h : ∀ y ∈ vals, y.1 < 32) :
    (pWrite d vals lab).sound := by
  refine ⟨?_, by intro r hr; simp [pWrite] at hr⟩
  intro y hy
  simp only [pWrite, List.mem_map] at hy
  obtain ⟨z, hz, rfl⟩ := hy
  exact h z hz

theorem wWrite_sound (d : BitVec 8) (x : DWord) (lab : Label) : (wWrite d x lab).sound := by
  refine ⟨?_, fun r _ => ⟨x, rfl⟩⟩
  intro y hy
  simp only [wWrite, List.mem_map, List.mem_range] at hy
  obtain ⟨l, hl, rfl⟩ := hy
  exact hl

theorem Cx.lanes_vals_lt {α : Type} (c : Cx) (f : Nat → α) : ∀ y ∈ c.lanesA.map (fun l => (l, f l)), y.1 < 32 := by
  intro y hy
  simp only [List.mem_map] at hy
  obtain ⟨l, hl, rfl⟩ := hy
  exact Cx.lanesA_lt hl

theorem Cx.intEff_sound (c : Cx) (u : Bool) (words : Nat) (d : BitVec 8) (lab : Label) (f : Nat → Nat) :
    ∀ x ∈ (c.intEff u words d lab f).wr, x.sound := by
  cases u
  · exact vWrites_sound d words _ lab (c.lanes_vals_lt f)
  · intro x hx
    simp only [Cx.intEff, if_true, List.mem_singleton] at hx
    subst hx; exact wWrite_sound _ _ _

end Sys2Proof.Machine
end

