-- ==== Sys2Proof/Laws/Strands.lean ====
section
/-! SUPPORT. The strands of a calm warp after an instruction whose issuing strands each stay whole. -/

namespace Sys2Proof.Machine

/-- Two stores of strands that differ in counts of issues alone. -/
def runEq (a b : Cells Strand) : Prop :=
  a.map (fun y => (y.1, { y.2 with run := 0 })) = b.map (fun y => (y.1, { y.2 with run := 0 }))

theorem runEq.refl (a : Cells Strand) : runEq a a := rfl
theorem runEq.trans {a b c : Cells Strand} (h : runEq a b) (g : runEq b c) : runEq a c := Eq.trans h g

theorem runEq_adjust (a : Cells Strand) (e : Nat) : runEq (Cells.adjust a e (fun y => { y with run := 0 })) a := by
  unfold runEq Cells.adjust
  rw [List.map_map]
  apply List.map_congr_left
  intro y _
  simp only [Function.comp_apply]
  split <;> rfl

theorem Slice.choose_run (x : Slice) (e : Nat) : runEq (x.choose e).strands x.strands := runEq_adjust _ _

theorem Slice.rechoose_run (x : Slice) : runEq x.rechoose.strands x.strands := by
  unfold Slice.rechoose
  repeat' split
  all_goals first | exact runEq.refl _ | exact Slice.choose_run _ _

theorem Slice.afterIssue_run (x : Slice) (e : Nat) (p : Option Strand) (y : Bool) :
    runEq (x.afterIssue e p.toList y).strands x.strands := by
  unfold Slice.afterIssue
  cases p with
  | none => exact Slice.rechoose_run x
  | some p =>
  dsimp only [Option.toList]
  repeat' split
  all_goals first
    | exact Slice.rechoose_run _
    | exact Slice.choose_run _ _
    | exact runEq.refl _
    | exact Slice.rechoose_run { x with cur := _ }

/-- A calm slice keeps its stack, its pending traps and its spilled entries when rules 1 to 3 apply. -/
theorem Slice.rechoose_rest (x : Slice) : x.rechoose.recon = x.recon ∧ x.rechoose.pending = x.pending ∧
    x.rechoose.spilled = x.spilled := by
  unfold Slice.rechoose
  repeat' split
  all_goals exact ⟨rfl, rfl, rfl⟩

theorem Slice.afterIssue_rest (x : Slice) (e : Nat) (p : Option Strand) (y : Bool) :
    (x.afterIssue e p.toList y).recon = x.recon ∧ (x.afterIssue e p.toList y).pending = x.pending ∧
    (x.afterIssue e p.toList y).spilled = x.spilled := by
  unfold Slice.afterIssue
  cases p with
  | none => exact Slice.rechoose_rest x
  | some p =>
  dsimp only [Option.toList]
  repeat' split
  all_goals first
    | exact ⟨rfl, rfl, rfl⟩
    | exact Slice.rechoose_rest _
    | exact Slice.rechoose_rest { x with cur := _ }

theorem runEq_all {a b : Cells Strand} (h : runEq a b) (f : Strand → Bool) (hf : ∀ x : Strand, f { x with run := 0 } = f x) :
    a.all (fun y => f y.2) = b.all (fun y => f y.2) := by
  have e (c : Cells Strand) : c.all (fun y => f y.2) = (c.map (fun y => (y.1, { y.2 with run := 0 }))).all (fun y => f y.2) := by
    rw [List.all_map]; congr 1; funext y; exact (hf y.2).symm
  rw [e a, e b, h]

theorem runEq_single {a : Cells Strand} {e : Nat} {p : Strand} (h : runEq a [(e, p)]) :
    ∃ run, a = [(e, { p with run := run })] := by
  unfold runEq at h
  simp only [List.map_cons, List.map_nil] at h
  rw [List.map_eq_singleton_iff] at h
  obtain ⟨⟨e', q⟩, rfl, hq⟩ := h
  simp only [Prod.mk.injEq] at hq
  obtain ⟨rfl, hq⟩ := hq
  refine ⟨q.run, ?_⟩
  cases q; cases p
  simp only [Strand.mk.injEq] at hq ⊢
  simp_all

theorem runEq_option {a : Cells Strand} {e : Nat} {p : Option Strand} (h : runEq a (p.map (fun q => (e, q))).toList) :
    ∃ run, a = (p.map (fun q => (e, { q with run := run }))).toList := by
  cases p with
  | none =>
    refine ⟨0, ?_⟩
    unfold runEq at h
    simpa using h
  | some p => exact runEq_single h

theorem Slice.rechoose_calm (x : Slice) (h : x.calm = true) : x.rechoose.calm = true := by
  obtain ⟨a, b, c⟩ := Slice.rechoose_rest x
  unfold Slice.calm at *
  rw [a, b, c, runEq_all (Slice.rechoose_run x) (fun y => y.st.calm) (fun _ => rfl)]
  exact h

theorem Slice.afterIssue_calm (x : Slice) (e : Nat) (p : Option Strand) (y : Bool) (h : x.calm = true) :
    (x.afterIssue e p.toList y).calm = true := by
  obtain ⟨a, b, c⟩ := Slice.afterIssue_rest x e p y
  unfold Slice.calm at *
  rw [a, b, c, runEq_all (Slice.afterIssue_run x e p y) (fun y => y.st.calm) (fun _ => rfl)]
  exact h

theorem Cells.mem_put {α : Type} {m : Cells α} {k : Nat} {x : α} {c : Nat × α} (h : c ∈ Cells.put m k x) :
    c = (k, x) ∨ c ∈ m := by
  induction m with
  | nil => simpa [Cells.put] using h
  | cons d rest ih =>
    obtain ⟨a, v⟩ := d
    simp only [Cells.put] at h
    split at h
    · simpa using h
    · split at h
      · simp only [List.mem_cons] at h ⊢; rcases h with h | h
        · exact .inl h
        · exact .inr (.inr h)
      · simp only [List.mem_cons] at h ⊢; rcases h with h | h
        · exact .inr (.inl h)
        · rcases ih h with h | h
          · exact .inl h
          · exact .inr (.inr h)

theorem Cells.get_mem {α : Type} [Inhabited α] (m : Cells α) (k : Nat) : (k, Cells.get m k) ∈ m ∨ Cells.get m k = default := by
  induction m with
  | nil => exact .inr rfl
  | cons c rest ih =>
    obtain ⟨a, v⟩ := c
    simp only [Cells.get]
    split
    · rename_i e; subst e; exact .inl (by simp)
    · rcases ih with h | h
      · exact .inl (by simp [h])
      · exact .inr h

theorem Warp.calm_slice {w : Warp} (h : w.calm = true) (k : Nat) : (w.slice k).calm = true := by
  rcases Cells.get_mem w.slices k with g | g
  · exact List.all_eq_true.mp h _ g
  · unfold Warp.slice; rw [g]; rfl

theorem Warp.calm_unspilled {w : Warp} (h : w.calm = true) : w.unspilled = true := by
  rw [Warp.unspilled_iff]
  intro k _
  have := Warp.calm_slice h k
  simp only [Slice.calm, Bool.and_eq_true, decide_eq_true_eq] at this
  exact this.1.2

/-- In a calm warp no join, spilled entry, refill or REGANG settles. -/
theorem Warp.settleJoins_calm {w : Warp} (h : w.calm = true) : w.settleJoins = w := by
  unfold Warp.settleJoins
  have : w.slices.map (fun k => if k.2.recon.isEmpty || k.2.spilled != 0 then k
      else (k.1, k.2.settleJoins (laneMask k.1 w.exited))) = w.slices := by
    rw [List.map_congr_left (g := id) ?_, List.map_id]
    intro k hk
    have := List.all_eq_true.mp h k hk
    simp only [Slice.calm, Bool.and_eq_true] at this
    simp [this.1.1.1]
  rw [this]

theorem Warp.settleRegang_calm {w : Warp} (h : w.calm = true) : w.settleRegang = w := by
  unfold Warp.settleRegang
  have : w.slices.any (fun k => k.2.strands.any (fun y => y.2.st == .atRegang)) = false := by
    rw [List.any_eq_false]
    intro k hk
    have := List.all_eq_true.mp h k hk
    simp only [Slice.calm, Bool.and_eq_true] at this
    rw [Bool.not_eq_true, List.any_eq_false]
    intro y hy e
    have c := List.all_eq_true.mp this.2 y hy
    rw [beq_iff_eq] at e
    rw [e] at c
    exact absurd c (by decide)
  rw [this]
  rfl

theorem State.settleStack_calm (s : State) (k w : Nat) (search : BitVec 8) (h : (s.warp k w).calm = true) :
    s.settleStack k w search = s.setWarp k w (s.warp k w) := by
  have hf := State.settleSlices_unspilled (s.setWarp k w (s.warp k w)) k w search
    (by rw [State.warp_setWarp]; exact Warp.calm_unspilled h) (List.range 8) (by simp)
  have hp : (Cells.find? (s.setWarp k w (s.warp k w)).teams k).isNone = false := by
    simp [State.setWarp, State.setTeam, Cells.find?_put]
  unfold State.settleStack State.onWarp
  dsimp only at hf ⊢
  rw [Warp.settleJoins_calm h, hf, hp]
  simp only [Bool.false_eq_true, if_false, State.warp_setWarp, State.setWarp_setWarp, Warp.settleRegang_calm h]

/-- In a calm warp a settled marker changes counts of issues at most. -/
theorem Warp.unmark_calm {w : Warp} (h : w.calm = true) (k : Nat) :
    w.unmark.calm = true ∧ runEq (w.unmark.slice k).strands (w.slice k).strands := by
  have same (j : Nat) (x : Slice) (hx : x.calm = true) :
      x.strands.map (fun y => if y.2.st = .held .marker ∧ w.quiet j y.2 then (y.1, { y.2 with st := .ready }) else y) =
        x.strands := by
    rw [List.map_congr_left (g := id) ?_, List.map_id]
    intro y hy
    simp only [Slice.calm, Bool.and_eq_true] at hx
    have c := List.all_eq_true.mp hx.2 y hy
    have : ¬ (y.2.st = .held .marker) := by intro e; rw [e] at c; exact absurd c (by decide)
    simp [this]
  have whole : w.unmark.slices = w.slices.map (fun k => (k.1, k.2.rechoose)) := by
    unfold Warp.unmark
    apply List.map_congr_left
    intro c hc
    dsimp only
    rw [same c.1 c.2 (List.all_eq_true.mp h c hc)]
  constructor
  · unfold Warp.calm
    rw [whole, List.all_map, List.all_eq_true]
    intro c hc
    exact Slice.rechoose_calm c.2 (List.all_eq_true.mp h c hc)
  · unfold Warp.slice
    rw [whole]
    generalize w.slices = m
    induction m with
    | nil => exact runEq.refl _
    | cons c rest ih =>
      obtain ⟨a, v⟩ := c
      simp only [List.map_cons, Cells.get]
      split
      · exact Slice.rechoose_run v
      · exact ih

/-! ## One part per strand -/

theorem sound_pick (p : Strand) (h : p.mask ≠ 0) : lowest4 p.mask < 4 := by
  have H : ∀ m : BitVec 4, m ≠ 0 → lowest4 m < 4 := by decide
  exact H _ h

/-- A strand that stays whole keeps its entry. -/
theorem placeParts_single (e : Nat) (x p : Strand) (h : p.mask ≠ 0) (ht : p.trap = x.trap) :
    placeParts [(e, x)] e [p] = [(e, p)] := by
  have hl := sound_pick p h
  have by4 : (List.range 4).filterMap (fun j => [p].find? (fun p => lowest4 p.mask == j)) = [p] := by
    have : lowest4 p.mask = 0 ∨ lowest4 p.mask = 1 ∨ lowest4 p.mask = 2 ∨ lowest4 p.mask = 3 := by omega
    rcases this with g | g | g | g <;> simp [List.range_succ, List.find?, g]
  unfold placeParts
  simp only [by4]
  simp [Cells.find?, ht, Cells.put]

theorem Warp.alone_spec {w : Warp} {units : List (Nat × Nat)} (h : w.alone units = true) :
    (units.map (·.1)).Nodup ∧ ∀ u ∈ units, (w.slice u.1).strands = [(u.2, w.strand u.1 u.2)] ∧ u.1 < 8 ∧
      (w.strand u.1 u.2).mask ≠ 0 := by
  simp only [Warp.alone, Bool.and_eq_true, decide_eq_true_eq] at h
  refine ⟨h.1, ?_⟩
  intro u hu
  have := List.all_eq_true.mp h.2 u hu
  simp only [Bool.and_eq_true, decide_eq_true_eq] at this
  obtain ⟨h8, this⟩ := this
  split at this
  · rename_i y hy
    obtain ⟨a, v⟩ := y
    simp only [Bool.and_eq_true, beq_iff_eq, decide_eq_true_eq] at this
    obtain ⟨rfl, hm⟩ := this
    have e : w.strand u.1 u.2 = v := by simp only [Warp.strand, Slice.strand, hy, Cells.get, if_true]
    rw [e]
    exact ⟨hy, h8, hm⟩
  · exact absurd this (by decide)

/-- A strand all of whose lanes exit leaves its slice. -/
theorem placeParts_none (e : Nat) (x : Strand) : placeParts [(e, x)] e [] = [] := by
  have h : (List.range 4).filterMap (fun (_ : Nat) => (none : Option Strand)) = [] := rfl
  simp [placeParts, Cells.erase, h]

theorem placeParts_option (e : Nat) (x : Strand) (p : Option Strand)
    (h : ∀ q, p = some q → q.mask ≠ 0 ∧ q.trap = x.trap) :
    placeParts [(e, x)] e p.toList = (p.map (fun q => (e, q))).toList := by
  cases p with
  | none => exact placeParts_none e x
  | some q => exact placeParts_single e x q (h q rfl).1 (h q rfl).2

/-- The strands move, each whole. -/
theorem Warp.moveStrands_single (w : Warp) (n : Now) (act : Lanes) (h : Hdr) (wide : Bool) (after : After)
    (ends : List (Nat × LaneEnd)) (tick : Nat) (part : Nat × Nat → Option Strand)
    (hc : w.calm = true) (ha : w.alone n.units = true)
    (hp : ∀ u ∈ n.units, partsOf u.1 (w.strand u.1 u.2) (laneMask u.1 act) h wide after ends tick n
        (fun m => !w.quietLanes u.1 m) = (part u).toList ∧
      ∀ q, part u = some q → q.st.calm = true ∧ q.mask ≠ 0 ∧ q.trap = (w.strand u.1 u.2).trap) :
    (w.moveStrands n act h wide after ends tick).calm = true ∧
    (∀ u ∈ n.units, runEq ((w.moveStrands n act h wide after ends tick).slice u.1).strands
      ((part u).map (fun q => (u.2, q))).toList) ∧
    (∀ k, (∀ u ∈ n.units, u.1 ≠ k) → (w.moveStrands n act h wide after ends tick).slice k = w.slice k) := by
  obtain ⟨hd, hs⟩ := Warp.alone_spec ha
  have P : ∀ u ∈ n.units, (w.slice u.1).strands = [(u.2, w.strand u.1 u.2)] ∧
      partsOf u.1 (w.strand u.1 u.2) (laneMask u.1 act) h wide after ends tick n
        (fun m => !w.quietLanes u.1 m) = (part u).toList ∧
      ∀ q, part u = some q → q.st.calm = true ∧ q.mask ≠ 0 ∧ q.trap = (w.strand u.1 u.2).trap :=
    fun u hu => ⟨(hs u hu).1, hp u hu⟩
  unfold Warp.moveStrands
  clear ha hs hp
  generalize n.units = us at hd P ⊢
  induction us generalizing w with
  | nil => exact ⟨hc, by simp, by simp⟩
  | cons u us ih =>
    simp only [List.foldl_cons]
    simp only [List.map_cons, List.nodup_cons] at hd
    obtain ⟨p1, p2, p3⟩ := P u (by simp)
    have st : (w.slice u.1).strand u.2 = w.strand u.1 u.2 := rfl
    rw [st, p2, p1, placeParts_option _ _ _ (fun q hq => (p3 q hq).2)]
    generalize hb : (after.yield || _) = back
    let x : Slice := { w.slice u.1 with strands := ((part u).map (fun q => (u.2, q))).toList }
    have hx : x.calm = true := by
      have := Warp.calm_slice hc u.1
      simp only [Slice.calm, Bool.and_eq_true] at this ⊢
      refine ⟨this.1, ?_⟩
      cases hq : part u with
      | none => simp [x, hq]
      | some q => simp [x, hq, (p3 q hq).1]
    have hy : (x.afterIssue u.2 (part u).toList back).calm = true := Slice.afterIssue_calm _ _ _ _ hx
    let w2 : Warp := { w with slices := Cells.put w.slices u.1 (x.afterIssue u.2 (part u).toList back) }
    have c2 : w2.calm = true := by
      unfold Warp.calm
      rw [List.all_eq_true]
      intro c hcm
      rcases Cells.mem_put hcm with rfl | hcm
      · exact hy
      · exact List.all_eq_true.mp hc c hcm
    have other (k : Nat) (hk : u.1 ≠ k) : w2.slice k = w.slice k := Cells.get_put_ne _ _ hk
    have str (v : Nat × Nat) (hv : v ∈ us) : w2.strand v.1 v.2 = w.strand v.1 v.2 := by
      have : u.1 ≠ v.1 := by intro e; exact hd.1 (e ▸ List.mem_map_of_mem hv)
      simp only [Warp.strand, other _ this]
    obtain ⟨i1, i2, i3⟩ := ih w2 c2 hd.2 (by
      intro v hv
      have ne : u.1 ≠ v.1 := by intro e; exact hd.1 (e ▸ List.mem_map_of_mem hv)
      rw [str v hv, other _ ne]
      exact P v (by simp [hv]))
    refine ⟨i1, ?_, ?_⟩
    · intro v hv
      simp only [List.mem_cons] at hv
      rcases hv with rfl | hv
      · have := i3 v.1 (fun z hz e => hd.1 (e ▸ List.mem_map_of_mem hz))
        rw [this]
        have g : w2.slice v.1 = x.afterIssue v.2 (part v).toList back := Cells.get_put_self _ _ _
        rw [g]
        exact Slice.afterIssue_run _ _ _ _
      · exact i2 v hv
    · intro k hk
      rw [i3 k (fun z hz => hk z (by simp [hz])), other k (hk u (by simp))]

theorem Cells.mem_of_get? {α : Type} {m : List α} {f : α → Bool} (h : m.all f = true) : ∀ x ∈ m, f x = true :=
  List.all_eq_true.mp h

theorem endOf_mem {ends : List (Nat × LaneEnd)} {l : Nat} {x : LaneEnd} (h : endOf ends l = some x) :
    ∃ j, (j, x) ∈ ends := by
  unfold endOf at h
  cases g : ends.find? (fun e => e.1 == l) with
  | none => rw [g] at h; exact absurd h (by simp)
  | some y =>
    rw [g] at h
    simp only [Option.map_some, Option.some.injEq] at h
    exact ⟨y.1, by rw [← h]; exact List.mem_of_find?_eq_some g⟩

theorem plainEnds_lost {ends : List (Nat × LaneEnd)} (h : plainEnds ends = true) : lostFault ends = none := by
  unfold lostFault
  rw [List.findSome?_eq_none_iff]
  intro x hx
  have := List.all_eq_true.mp h x hx
  split at this <;> first | rfl | exact absurd this (by decide) | skip
  all_goals (rename_i e; rw [e])

/-- A calm warp with nothing ending in a trap or fault enters no fault, raises and takes no trap. -/
theorem State.calm_ends (s : State) (n : Now) (ends : List (Nat × LaneEnd)) (hc : (s.warp n.team n.warp).calm = true)
    (he : plainEnds ends = true) :
    ((s.enterFaults n.team n.warp).raiseTraps n ends).takeTraps n.team n.warp = s := by
  have u0 : (s.warp n.team n.warp).unentered = [] := by
    unfold Warp.unentered
    rw [List.flatMap_eq_nil_iff]
    intro k hk
    rw [List.filterMap_eq_nil_iff]
    intro y hy
    have := List.all_eq_true.mp hc k hk
    simp only [Slice.calm, Bool.and_eq_true] at this
    have c := List.all_eq_true.mp this.2 y hy
    cases hst : y.2.st <;> simp_all [StrandSt.calm]
  have e1 : s.enterFaults n.team n.warp = s := by
    unfold State.enterFaults
    simp only [u0, List.filter_nil, List.foldl_nil]
  have e2 : s.raiseTraps n ends = s := by
    unfold State.raiseTraps
    generalize n.units = us
    induction us with
    | nil => rfl
    | cons u us ih =>
      simp only [List.foldl_cons]
      generalize hL : List.filterMap _ (List.range 4) = L
      have : L = [] := by
        rw [← hL, List.filterMap_eq_nil_iff]
        intro j _
        split
        · rename_i t a ht
          obtain ⟨l, hl⟩ := endOf_mem ht
          have := List.all_eq_true.mp he _ hl
          exact absurd this (by simp)
        · rfl
      rw [this]
      exact ih
  have e3 : s.takeTraps n.team n.warp = s := by
    unfold State.takeTraps
    generalize List.range 8 = l
    induction l with
    | nil => rfl
    | cons j l ih =>
      simp only [List.foldl_cons]
      have : s.trapDue n.team n.warp j = false := by
        have := Warp.calm_slice hc j
        simp only [Slice.calm, Bool.and_eq_true] at this
        unfold State.trapDue Warp.trapDue
        have e : ((s.warp n.team n.warp).slice j).pending = [] := by simpa using this.1.1.2
        simp only [e, Bool.false_and]
      rw [this]
      exact ih
  rw [e1, e2, e3]

theorem WarpFrameX.of_moved {a v f : Warp} {x : Lanes} (hf : WarpFrame a v)
    (hm : ({ v with exited := x } : Warp).movedTo f) : WarpFrameX a f := by
  unfold WarpFrameX WarpFrame at *
  rw [hm, hf]

/-- An instruction none of whose lanes traps or faults, in a calm warp, whose strands stay whole. -/
theorem Cx.finish_single (c : Cx) (wide : Bool) (e : Eff) (part : Nat × Nat → Option Strand)
    (ht : (Cells.find? e.s.teams c.n.team).isSome = true) (hc : (e.s.warp c.n.team c.n.warp).calm = true)
    (ha : (e.s.warp c.n.team c.n.warp).alone c.n.units = true) (he : plainEnds e.ends = true)
    (hp : ∀ u ∈ c.n.units, partsOf u.1 ((e.s.warp c.n.team c.n.warp).strand u.1 u.2) (laneMask u.1 c.act) c.h wide e.after
        e.ends e.s.cycle c.n
        (fun m => !(c.retire e (e.s.warp c.n.team c.n.warp) e.s.nextId).quietLanes u.1 m) = (part u).toList ∧
        ∀ q, part u = some q → q.st.calm = true ∧ q.mask ≠ 0 ∧ q.trap = ((e.s.warp c.n.team c.n.warp).strand u.1 u.2).trap)
    (hw : ∀ x ∈ e.wr, x.sound) :
    RegsAfter c e.wr (e.s.warp c.n.team c.n.warp) ((c.finish wide e).warp c.n.team c.n.warp) ∧
    (∀ u ∈ c.n.units, StrandBecomes ((c.finish wide e).warp c.n.team c.n.warp) u (part u)) ∧
    ((c.finish wide e).warp c.n.team c.n.warp).exited = (e.s.warp c.n.team c.n.warp).exited ||| exitLanes e.ends ∧
    WarpFrameX (e.s.warp c.n.team c.n.warp) ((c.finish wide e).warp c.n.team c.n.warp) ∧
    StateFrame e.s (c.finish wide e) c.n.team c.n.warp := by
  obtain ⟨hr, hf⟩ := Cx.retire_regs c e (e.s.warp c.n.team c.n.warp) e.s.nextId hw
  have hl := plainEnds_lost he
  let v0 := c.retire e (e.s.warp c.n.team c.n.warp) e.s.nextId
  have hsl : v0.slices = (e.s.warp c.n.team c.n.warp).slices := Cx.retire_slices _ _ _ _
  have hc0 : v0.calm = true := by unfold Warp.calm; rw [hsl]; exact hc
  have hslice (k : Nat) : v0.slice k = (e.s.warp c.n.team c.n.warp).slice k := by unfold Warp.slice; rw [hsl]
  have ha0 : v0.alone c.n.units = true := by unfold Warp.alone; simp only [hslice]; exact ha
  obtain ⟨m1, m2, _⟩ := Warp.moveStrands_single v0 c.n c.act c.h wide e.after e.ends e.s.cycle part hc0 ha0
    (by intro u hu
        have : v0.strand u.1 u.2 = (e.s.warp c.n.team c.n.warp).strand u.1 u.2 := by unfold Warp.strand; rw [hslice]
        rw [this]; exact hp u hu)
  obtain ⟨x1, h1⟩ := Warp.moveStrands_moved v0 c.n c.act c.h wide e.after e.ends e.s.cycle
  have hcw : (c.movedWarp wide e).calm = true := m1
  have h2 := State.settleStack_calm (e.s.setWarp c.n.team c.n.warp (c.movedWarp wide e)) c.n.team c.n.warp e.after.search
    (by rw [State.warp_setWarp]; exact hcw)
  rw [State.warp_setWarp, State.setWarp_setWarp] at h2
  obtain ⟨t, e1, e2⟩ := c.finish_settled wide e _ ht hl h2
  obtain ⟨g, hg⟩ : ∃ g, (if (c.movedWarp wide e).gang &&& unitMask c.n.units = 0 then c.movedWarp wide e
      else (c.movedWarp wide e).regroup c.n.pc) = { c.movedWarp wide e with gang := g } := by
    split
    · exact ⟨_, rfl⟩
    · exact Warp.regroup_moved _ _
  have hcr : ({ c.movedWarp wide e with gang := g } : Warp).calm = true := hcw
  have hrg : c.regangWarp (c.movedWarp wide e) = ({ c.movedWarp wide e with gang := g } : Warp).unmark := by
    unfold Cx.regangWarp; rw [hg]
  have ct : (t.warp c.n.team c.n.warp).calm = true := by
    rw [e1]
    show ((e.s.setWarp c.n.team c.n.warp _).warp c.n.team c.n.warp).calm = true
    rw [State.warp_setWarp, hrg]
    exact (Warp.unmark_calm hcr 0).1
  rw [State.calm_ends t c.n e.ends ct he, ite_self] at e2
  have hwarp : (c.finish wide e).warp c.n.team c.n.warp = ({ c.movedWarp wide e with gang := g } : Warp).unmark := by
    rw [e2, e1, ← hrg]; exact State.warp_setWarp _ _ _ _
  have hm : ({ v0 with exited := (c.movedWarp wide e).exited } : Warp).movedTo
      ({ c.movedWarp wide e with gang := g } : Warp).unmark := by
    have : c.movedWarp wide e = { v0.moveStrands c.n c.act c.h wide e.after e.ends e.s.cycle with
        exited := (c.movedWarp wide e).exited, deps := (c.movedWarp wide e).deps, qclock := (c.movedWarp wide e).qclock,
        atQuantum := (c.movedWarp wide e).atQuantum } := rfl
    rw [this, h1]
    rfl
  rw [hwarp]
  refine ⟨?_, ?_, ?_, ?_, StateFrame.of_eq _ (by rw [e2]; exact e1.trans (by rw [e1]))⟩
  · rw [hm]; exact hr
  · intro u hu
    apply runEq_option
    exact (Warp.unmark_calm hcr u.1).2.trans (m2 u hu)
  · rw [hm]
    show (v0.moveStrands c.n c.act c.h wide e.after e.ends e.s.cycle).exited ||| exitLanes e.ends = _
    have hx : (v0.moveStrands c.n c.act c.h wide e.after e.ends e.s.cycle).exited = v0.exited :=
      (congrArg Warp.exited h1).trans rfl
    rw [hx]
    have h9 : v0 = _ := hf
    have hy : v0.exited = (e.s.warp c.n.team c.n.warp).exited := (congrArg Warp.exited h9).trans rfl
    rw [hy]
  · exact WarpFrameX.of_moved hf hm

/-- What the machine does when the instruction in issue executes in a calm warp and its strands stay whole. -/
theorem moves_of_issue {i : Instr} {s : State} {n : Now} (body : Cx → Eff) (part : Nat × Nat → Option Strand)
    (h : Issues i s n = true) (hx : exec i s = issue i s body) (hb : (body (ctxOf i s n)).bufferFull = false)
    (ht : (Cells.find? (body (ctxOf i s n)).s.teams n.team).isSome = true)
    (hc : ((body (ctxOf i s n)).s.warp n.team n.warp).calm = true)
    (ha : ((body (ctxOf i s n)).s.warp n.team n.warp).alone n.units = true)
    (he : plainEnds (body (ctxOf i s n)).ends = true)
    (hp : ∀ u ∈ n.units, partsOf u.1 (((body (ctxOf i s n)).s.warp n.team n.warp).strand u.1 u.2)
        (laneMask u.1 (ctxOf i s n).act) (ctxOf i s n).h i.needsFull (body (ctxOf i s n)).after
        (body (ctxOf i s n)).ends (body (ctxOf i s n)).s.cycle n
        (fun m => !((ctxOf i s n).retire (body (ctxOf i s n)) ((body (ctxOf i s n)).s.warp n.team n.warp)
          (body (ctxOf i s n)).s.nextId).quietLanes u.1 m) = (part u).toList ∧
        ∀ q, part u = some q → q.st.calm = true ∧ q.mask ≠ 0 ∧
          q.trap = (((body (ctxOf i s n)).s.warp n.team n.warp).strand u.1 u.2).trap)
    (hw : ∀ x ∈ (body (ctxOf i s n)).wr, x.sound) :
    Moves i s n (body (ctxOf i s n)).s (body (ctxOf i s n)).wr (exitLanes (body (ctxOf i s n)).ends) part := by
  refine ⟨_, hx.trans (issue_runs body h hb), ?_⟩
  exact (ctxOf i s n).finish_single i.needsFull (body (ctxOf i s n)) part ht hc ha he hp hw

end Sys2Proof.Machine
end

