-- ==== Sys2Proof/Laws/Parts.lean ====
section
/-! SUPPORT. The parts of a strand after an instruction whose lanes all end alike. -/

namespace Sys2Proof.Machine

/-- The lanes that a predicate picks. -/
theorem pick_bit (k : Nat) (m : BitVec 4) (ends : List (Nat × LaneEnd)) (f : Option LaneEnd → Bool) (j : Nat) :
    (pickLanes k m ends f).getLsbD j = (decide (j < 4) && m.getLsbD j && f (endOf ends (4 * k + j))) := by
  have H : ∀ (a b c d : Bool) (j : Nat), j < 4 →
      ((if d then (if c then (if b then (if a then (0#4 ||| 1#4 <<< 0) else 0#4) ||| 1#4 <<< 1
          else (if a then (0#4 ||| 1#4 <<< 0) else 0#4)) ||| 1#4 <<< 2
        else (if b then (if a then (0#4 ||| 1#4 <<< 0) else 0#4) ||| 1#4 <<< 1
          else (if a then (0#4 ||| 1#4 <<< 0) else 0#4))) ||| 1#4 <<< 3
       else (if c then (if b then (if a then (0#4 ||| 1#4 <<< 0) else 0#4) ||| 1#4 <<< 1
          else (if a then (0#4 ||| 1#4 <<< 0) else 0#4)) ||| 1#4 <<< 2
        else (if b then (if a then (0#4 ||| 1#4 <<< 0) else 0#4) ||| 1#4 <<< 1
          else (if a then (0#4 ||| 1#4 <<< 0) else 0#4)))).getLsbD j) =
      (if j = 0 then a else if j = 1 then b else if j = 2 then c else d) := by
    intro a b c d j hj
    have : j = 0 ∨ j = 1 ∨ j = 2 ∨ j = 3 := by omega
    rcases this with rfl | rfl | rfl | rfl <;> cases a <;> cases b <;> cases c <;> cases d <;> decide
  by_cases hj : j < 4
  · have h := H (m.getLsbD 0 && f (endOf ends (4 * k + 0))) (m.getLsbD 1 && f (endOf ends (4 * k + 1)))
      (m.getLsbD 2 && f (endOf ends (4 * k + 2))) (m.getLsbD 3 && f (endOf ends (4 * k + 3))) j hj
    refine Eq.trans (b := _) ?_ (h.trans ?_)
    · rfl
    · have : j = 0 ∨ j = 1 ∨ j = 2 ∨ j = 3 := by omega
      rcases this with rfl | rfl | rfl | rfl <;> simp
  · have : (pickLanes k m ends f).getLsbD j = false := BitVec.getLsbD_of_ge _ _ (by omega)
    rw [this]; simp [hj]

theorem pick_all {k : Nat} {m : BitVec 4} {ends : List (Nat × LaneEnd)} {f : Option LaneEnd → Bool}
    (h : ∀ j, m.getLsbD j = true → f (endOf ends (4 * k + j)) = true) : pickLanes k m ends f = m := by
  apply BitVec.eq_of_getLsbD_eq
  intro j hj
  rw [pick_bit]
  cases g : m.getLsbD j
  · simp
  · simp [hj, h j g]

theorem pick_none {k : Nat} {m : BitVec 4} {ends : List (Nat × LaneEnd)} {f : Option LaneEnd → Bool}
    (h : ∀ j, m.getLsbD j = true → f (endOf ends (4 * k + j)) = false) : pickLanes k m ends f = 0 := by
  apply BitVec.eq_of_getLsbD_eq
  intro j hj
  rw [pick_bit]
  cases g : m.getLsbD j
  · simp
  · simp [h j g]

theorem mask_keep (m : BitVec 4) : m &&& ~~~(0 : BitVec 4) = m := by
  have H : ∀ m : BitVec 4, m &&& ~~~(0 : BitVec 4) = m := by decide
  exact H m

theorem lowest4_bit (m : BitVec 4) (h : m ≠ 0) : m.getLsbD (lowest4 m) = true := by
  have H : ∀ m : BitVec 4, m ≠ 0 → m.getLsbD (lowest4 m) = true := by decide
  exact H m h

/-- The parts of a strand none of whose lanes ends otherwise: one, at the next PC or where `after` sends it. -/
theorem partsOf_plain (k : Nat) (x : Strand) (act : BitVec 4) (h : Hdr) (wide : Bool) (after : After)
    (ends : List (Nat × LaneEnd)) (tick : Nat) (n : Now) (busy : BitVec 4 → Bool) (hm : x.mask ≠ 0) (hk : after.slices.getLsbD k = true)
    (hs : ∀ rs, after.st ≠ .waiting (.spawn rs))
    (he : ∀ j, x.mask.getLsbD j = true → endOf ends (4 * k + j) = none) :
    partsOf k x act h wide after ends tick n busy =
      [let y : Strand := { x with last := tick, run := x.run + 1, mark := h.s }
       let go : DWord × LoopState × List DWord :=
         if after.keep then (x.pc, x.loop, x.buf)
         else match after.jump, (if after.dead then some ({ x.loop with live := false }, []) else after.loop) with
           | some t, some l => (t, l.1, l.2)
           | some t, none => (t, x.loop, x.buf)
           | none, some l => (x.pc + 8, l.1, l.2)
           | none, none => x.seqNext
       { y with pc := go.1, loop := go.2.1, buf := go.2.2,
                st := match after.st with
                  | .ready => if h.s && busy x.mask then .held .marker else .ready
                  | z => z }] := by
  have p0 (f : Option LaneEnd → Bool) (hf : f none = false) : pickLanes k x.mask ends f = 0 :=
    pick_none (fun j hj => by rw [he j hj]; exact hf)
  have p1 : pickLanes k x.mask ends (fun e => e == none) = x.mask := pick_all (fun j hj => by rw [he j hj]; rfl)
  have m0 : x.mask &&& ~~~(0 : BitVec 4) = x.mask := mask_keep _
  have lane (j : Nat) : (if x.mask.getLsbD j = true then endOf ends (4 * k + j) else none) = none := by
    split
    · rename_i g; exact he j g
    · rfl
  have nil (l : List Nat) : l.filterMap (fun (_ : Nat) => (none : Option Strand)) = [] := by
    induction l with
    | nil => rfl
    | cons a l ih => simp
  unfold partsOf
  simp only [p0 (fun e => e == some .exit) rfl, m0]
  simp only [hk, if_true]
  rw [p1, p0 _ rfl, p0 _ rfl]
  simp only [hm, if_false, ne_eq, not_true_eq_false, false_and, List.append_nil, if_true, lane, nil, List.any_nil,
    Bool.false_eq_true]
  congr 2
  cases hst : after.st with
  | waiting w => cases w <;> first | rfl | (exact absurd hst (hs _))
  | _ => rfl

/-- The parts of a strand all of whose lanes branch to one target. -/
theorem partsOf_goto (k : Nat) (x : Strand) (act : BitVec 4) (h : Hdr) (wide : Bool) (after : After)
    (ends : List (Nat × LaneEnd)) (tick : Nat) (n : Now) (busy : BitVec 4 → Bool) (t : DWord) (hm : x.mask ≠ 0)
    (he : ∀ j, x.mask.getLsbD j = true → endOf ends (4 * k + j) = some (.goto t)) :
    partsOf k x act h wide after ends tick n busy =
      [{ x with pc := t, last := tick, run := x.run + 1, mark := h.s, st := if h.s && busy x.mask then .held .marker else .ready }] := by
  have p0 (f : Option LaneEnd → Bool) (hf : f (some (.goto t)) = false) : pickLanes k x.mask ends f = 0 :=
    pick_none (fun j hj => by rw [he j hj]; exact hf)
  have p1 : pickLanes k x.mask ends (fun e => e == some (.goto t)) = x.mask :=
    pick_all (fun j hj => by rw [he j hj]; simp)
  have m0 : x.mask &&& ~~~(0 : BitVec 4) = x.mask := mask_keep _
  have lane (j : Nat) : (if x.mask.getLsbD j = true then endOf ends (4 * k + j) else none) =
      if x.mask.getLsbD j = true then some (.goto t) else none := by
    split
    · rename_i g; exact he j g
    · rfl
  have nil (l : List Nat) : l.filterMap (fun (_ : Nat) => (none : Option Strand)) = [] := by
    induction l with
    | nil => rfl
    | cons a l ih => simp
  have lows (y : Strand) : (List.range 4).filterMap (fun j =>
      if x.mask.getLsbD j = true then (if lowest4 x.mask = j then some y else none) else none) = [y] := by
    have b := lowest4_bit x.mask hm
    have l4 := sound_pick x hm
    have : lowest4 x.mask = 0 ∨ lowest4 x.mask = 1 ∨ lowest4 x.mask = 2 ∨ lowest4 x.mask = 3 := by omega
    rcases this with g | g | g | g <;> rw [g] at b <;> simp [List.range_succ, g, b]
  unfold partsOf
  simp only [p0 (fun e => e == some .exit) rfl, m0]
  rw [p0 _ rfl, p0 _ rfl, p0 _ rfl]
  simp only [if_false, ne_eq, not_true_eq_false, false_and, List.append_nil, if_true, lane]
  simp only [show List.range 4 = [0, 1, 2, 3] from rfl, List.filterMap_cons, List.filterMap_nil]
  have z : x.mask.getLsbD 0 = false → x.mask.getLsbD 1 = false → x.mask.getLsbD 2 = false → x.mask.getLsbD 3 = false →
      x.mask = 0 := by
    have H : ∀ m : BitVec 4, m.getLsbD 0 = false → m.getLsbD 1 = false → m.getLsbD 2 = false → m.getLsbD 3 = false →
      m = 0 := by decide
    exact H _
  cases b0 : x.mask.getLsbD 0 <;> cases b1 : x.mask.getLsbD 1 <;> cases b2 : x.mask.getLsbD 2 <;>
    cases b3 : x.mask.getLsbD 3 <;>
    first
    | exact absurd (z b0 b1 b2 b3) hm
    | simp only [Bool.false_eq_true, if_false, if_true, p1, lowest4, b0, b1, b2, b3, Nat.reduceEqDiff,
        List.append_nil, reduceCtorEq, Nat.zero_ne_one]

/-- A strand all of whose lanes exit has no part left. -/
theorem partsOf_exit (k : Nat) (x : Strand) (act : BitVec 4) (h : Hdr) (wide : Bool) (after : After)
    (ends : List (Nat × LaneEnd)) (tick : Nat) (n : Now) (busy : BitVec 4 → Bool)
    (he : ∀ j, x.mask.getLsbD j = true → endOf ends (4 * k + j) = some .exit) :
    partsOf k x act h wide after ends tick n busy = [] := by
  have p1 : pickLanes k x.mask ends (fun e => e == some .exit) = x.mask :=
    pick_all (fun j hj => by rw [he j hj]; rfl)
  have m0 : x.mask &&& ~~~x.mask = 0 := by
    have H : ∀ m : BitVec 4, m &&& ~~~m = 0 := by decide
    exact H _
  have p0 (f : Option LaneEnd → Bool) : pickLanes k 0 ends f = 0 := pick_none (fun j hj => by simp at hj)
  unfold partsOf
  simp only [p1, m0, p0]
  have b (j : Nat) : (0 : BitVec 4).getLsbD j = false := by simp
  have nil (l : List Nat) : l.filterMap (fun (_ : Nat) => (none : Option Strand)) = [] := by
    induction l with
    | nil => rfl
    | cons a l ih => simp
  simp only [b, ne_eq, not_true_eq_false, false_and, if_false, if_true, Bool.false_eq_true, nil, List.append_nil]

/-! ## Ends given lane by lane -/

theorem laneList_mem {m : Lanes} {l : Nat} : l ∈ laneList m ↔ m.getLsbD l = true := by
  simp only [laneList, List.mem_filter, List.mem_range]
  constructor
  · exact fun h => h.2
  · intro h
    refine ⟨?_, h⟩
    apply Classical.byContradiction
    intro g
    rw [BitVec.getLsbD_of_ge _ _ (by omega)] at h
    exact absurd h (by decide)

/-- The end of a lane in a list that gives every active lane its end. -/
theorem endOf_lanes (c : Cx) (f : Nat → LaneEnd) (l : Nat) :
    endOf (c.lanesA.map (fun l => (l, f l))) l = if c.act.getLsbD l = true then some (f l) else none := by
  have H (xs : List Nat) : endOf (xs.map (fun l => (l, f l))) l = if l ∈ xs then some (f l) else none := by
    induction xs with
    | nil => rfl
    | cons a xs ih =>
      unfold endOf at ih ⊢
      simp only [List.map_cons, List.find?_cons]
      by_cases e : a = l
      · subst e; simp
      · have e' : ¬ l = a := fun h => e h.symm
        simp only [e', List.mem_cons, false_or]
        have : (a == l) = false := by simpa using e
        rw [this]
        exact ih
  rw [H]
  unfold Cx.lanesA
  simp only [laneList_mem]

theorem laneMask_bit (k : Nat) (m : Lanes) (j : Nat) (hj : j < 4) :
    (laneMask k m).getLsbD j = m.getLsbD (4 * k + j) := by
  simp [laneMask, hj]

/-- The ends of the lanes of a strand all of whose lanes are active. -/
theorem ends_whole (c : Cx) (f : Nat → LaneEnd) (k : Nat) (m : BitVec 4) (h : laneMask k c.act = m) (j : Nat)
    (hj : m.getLsbD j = true) : endOf (c.lanesA.map (fun l => (l, f l))) (4 * k + j) = some (f (4 * k + j)) := by
  have j4 : j < 4 := by
    apply Classical.byContradiction
    intro g
    rw [BitVec.getLsbD_of_ge _ _ (by omega)] at hj
    exact absurd hj (by decide)
  rw [endOf_lanes, ← laneMask_bit k c.act j j4, h, hj]; rfl

end Sys2Proof.Machine
end

