-- ==== Sys2Proof/Laws/PerInstr.lean ====
section
/-! SUPPORT. The law of headers, instruction by instruction: the word of an instruction carries its header. -/

namespace Sys2Proof.Laws.Header

/-- The word of an instruction carries its header in bits [63:59] (R30); the row of unassigned opcodes is any word. -/
def Statement (i : Instr) : Prop :=
  ∀ w, encode i = some w → i.hdr = some (hdrOf w) ∨ ∃ v, i = .illegalOpcode v

/-- An instruction whose word is built from its header. -/
theorem of_word {i : Instr} {h : Hdr} {op : BitVec 10} {b : BitVec 49} (hd : i.hdr = some h)
    (he : encode i = some (wordOf h op b)) : Statement i := by
  intro w hw
  obtain rfl := Option.some.inj (he.symm.trans hw)
  exact .inl (by rw [hd, wordOf_hdr])

theorem nop (h : Hdr) : Statement (.nop h) := of_word rfl rfl
theorem mov (h : Hdr) (u : Bool) (t : IType) (d a : BitVec 8) : Statement (.mov h u t d a) := of_word rfl rfl
theorem movi (h : Hdr) (u : Bool) (imm : BitVec 32) (d : BitVec 8) : Statement (.movi h u imm d) := of_word rfl rfl
theorem iadd (h : Hdr) (u : Bool) (t : IType) (d a b : BitVec 8) : Statement (.iadd h u t d a b) := of_word rfl rfl
theorem iaddImm (h : Hdr) (u : Bool) (imm : BitVec 32) (d a : BitVec 8) : Statement (.iaddImm h u imm d a) := of_word rfl rfl
theorem isub (h : Hdr) (u : Bool) (t : IType) (d a b : BitVec 8) : Statement (.isub h u t d a b) := of_word rfl rfl
theorem isubImm (h : Hdr) (u : Bool) (imm : BitVec 32) (d a : BitVec 8) : Statement (.isubImm h u imm d a) := of_word rfl rfl
theorem imul (h : Hdr) (u : Bool) (t : IType) (d a b : BitVec 8) : Statement (.imul h u t d a b) := of_word rfl rfl
theorem imulImm (h : Hdr) (u : Bool) (imm : BitVec 32) (d a : BitVec 8) : Statement (.imulImm h u imm d a) := of_word rfl rfl
theorem imulh (h : Hdr) (u : Bool) (t : IType) (d a b : BitVec 8) : Statement (.imulh h u t d a b) := of_word rfl rfl
theorem imad (h : Hdr) (u : Bool) (t : IType) (d a b c : BitVec 8) : Statement (.imad h u t d a b c) := of_word rfl rfl
theorem idiv (h : Hdr) (u : Bool) (t : IType) (d a b : BitVec 8) : Statement (.idiv h u t d a b) := of_word rfl rfl
theorem irem (h : Hdr) (u : Bool) (t : IType) (d a b : BitVec 8) : Statement (.irem h u t d a b) := of_word rfl rfl
theorem imin (h : Hdr) (u : Bool) (t : IType) (d a b : BitVec 8) : Statement (.imin h u t d a b) := of_word rfl rfl
theorem iminImm (h : Hdr) (u : Bool) (imm : BitVec 32) (d a : BitVec 8) : Statement (.iminImm h u imm d a) := of_word rfl rfl
theorem imax (h : Hdr) (u : Bool) (t : IType) (d a b : BitVec 8) : Statement (.imax h u t d a b) := of_word rfl rfl
theorem imaxImm (h : Hdr) (u : Bool) (imm : BitVec 32) (d a : BitVec 8) : Statement (.imaxImm h u imm d a) := of_word rfl rfl
theorem iabs (h : Hdr) (u : Bool) (t : IType) (d a : BitVec 8) : Statement (.iabs h u t d a) := of_word rfl rfl
theorem sadd (h : Hdr) (u : Bool) (t : IType) (d a b : BitVec 8) : Statement (.sadd h u t d a b) := of_word rfl rfl
theorem saddImm (h : Hdr) (u : Bool) (imm : BitVec 32) (d a : BitVec 8) : Statement (.saddImm h u imm d a) := of_word rfl rfl
theorem ssub (h : Hdr) (u : Bool) (t : IType) (d a b : BitVec 8) : Statement (.ssub h u t d a b) := of_word rfl rfl
theorem and (h : Hdr) (u : Bool) (t : IType) (d a b : BitVec 8) : Statement (.and h u t d a b) := of_word rfl rfl
theorem andImm (h : Hdr) (u : Bool) (imm : BitVec 32) (d a : BitVec 8) : Statement (.andImm h u imm d a) := of_word rfl rfl
theorem or (h : Hdr) (u : Bool) (t : IType) (d a b : BitVec 8) : Statement (.or h u t d a b) := of_word rfl rfl
theorem orImm (h : Hdr) (u : Bool) (imm : BitVec 32) (d a : BitVec 8) : Statement (.orImm h u imm d a) := of_word rfl rfl
theorem xor (h : Hdr) (u : Bool) (t : IType) (d a b : BitVec 8) : Statement (.xor h u t d a b) := of_word rfl rfl
theorem xorImm (h : Hdr) (u : Bool) (imm : BitVec 32) (d a : BitVec 8) : Statement (.xorImm h u imm d a) := of_word rfl rfl
theorem ttab (h : Hdr) (u : Bool) (t : IType) (tt : BitVec 8) (d a b c : BitVec 8) : Statement (.ttab h u t tt d a b c) := of_word rfl rfl
theorem shl (h : Hdr) (u : Bool) (d a b : BitVec 8) : Statement (.shl h u d a b) := of_word rfl rfl
theorem shlImm (h : Hdr) (u : Bool) (imm : BitVec 32) (d a : BitVec 8) : Statement (.shlImm h u imm d a) := of_word rfl rfl
theorem shr (h : Hdr) (u : Bool) (d a b : BitVec 8) : Statement (.shr h u d a b) := of_word rfl rfl
theorem shrImm (h : Hdr) (u : Bool) (imm : BitVec 32) (d a : BitVec 8) : Statement (.shrImm h u imm d a) := of_word rfl rfl
theorem sar (h : Hdr) (u : Bool) (d a b : BitVec 8) : Statement (.sar h u d a b) := of_word rfl rfl
theorem sarImm (h : Hdr) (u : Bool) (imm : BitVec 32) (d a : BitVec 8) : Statement (.sarImm h u imm d a) := of_word rfl rfl
theorem rotl (h : Hdr) (u : Bool) (d a b : BitVec 8) : Statement (.rotl h u d a b) := of_word rfl rfl
theorem rotlImm (h : Hdr) (u : Bool) (imm : BitVec 32) (d a : BitVec 8) : Statement (.rotlImm h u imm d a) := of_word rfl rfl
theorem bfx (h : Hdr) (u : Bool) (t : IType) (d a b : BitVec 8) : Statement (.bfx h u t d a b) := of_word rfl rfl
theorem bfi (h : Hdr) (u : Bool) (d a b c : BitVec 8) : Statement (.bfi h u d a b c) := of_word rfl rfl
theorem popc (h : Hdr) (u : Bool) (t : IType) (d a : BitVec 8) : Statement (.popc h u t d a) := of_word rfl rfl
theorem clz (h : Hdr) (u : Bool) (t : IType) (d a : BitVec 8) : Statement (.clz h u t d a) := of_word rfl rfl
theorem brev (h : Hdr) (u : Bool) (t : IType) (d a : BitVec 8) : Statement (.brev h u t d a) := of_word rfl rfl
theorem bperm (h : Hdr) (u : Bool) (d a b c : BitVec 8) : Statement (.bperm h u d a b c) := of_word rfl rfl
theorem add64 (h : Hdr) (u : Bool) (d a b : BitVec 8) : Statement (.add64 h u d a b) := of_word rfl rfl
theorem add64Imm (h : Hdr) (u : Bool) (imm : BitVec 32) (d a : BitVec 8) : Statement (.add64Imm h u imm d a) := of_word rfl rfl
theorem mad64 (h : Hdr) (u : Bool) (t : IType) (d a b c : BitVec 8) : Statement (.mad64 h u t d a b c) := of_word rfl rfl
theorem shl64 (h : Hdr) (u : Bool) (d a b : BitVec 8) : Statement (.shl64 h u d a b) := of_word rfl rfl
theorem shr64 (h : Hdr) (u sx : Bool) (d a b : BitVec 8) : Statement (.shr64 h u sx d a b) := of_word rfl rfl
theorem fadd (h : Hdr) (t : FType) (rm : Rnd) (r : RndSrc) (d a b : BitVec 8) : Statement (.fadd h t rm r d a b) := of_word rfl rfl
theorem faddImm (h : Hdr) (imm : BitVec 32) (d a : BitVec 8) : Statement (.faddImm h imm d a) := of_word rfl rfl
theorem fsub (h : Hdr) (t : FType) (rm : Rnd) (r : RndSrc) (d a b : BitVec 8) : Statement (.fsub h t rm r d a b) := of_word rfl rfl
theorem fsubImm (h : Hdr) (imm : BitVec 32) (d a : BitVec 8) : Statement (.fsubImm h imm d a) := of_word rfl rfl
theorem fmul (h : Hdr) (t : FType) (rm : Rnd) (r : RndSrc) (d a b : BitVec 8) : Statement (.fmul h t rm r d a b) := of_word rfl rfl
theorem fmulImm (h : Hdr) (imm : BitVec 32) (d a : BitVec 8) : Statement (.fmulImm h imm d a) := of_word rfl rfl
theorem fma (h : Hdr) (t : FType) (rm : Rnd) (r : RndSrc) (d a b c : BitVec 8) : Statement (.fma h t rm r d a b c) := of_word rfl rfl
theorem fmin (h : Hdr) (t : FType) (d a b : BitVec 8) : Statement (.fmin h t d a b) := of_word rfl rfl
theorem fminImm (h : Hdr) (imm : BitVec 32) (d a : BitVec 8) : Statement (.fminImm h imm d a) := of_word rfl rfl
theorem fmax (h : Hdr) (t : FType) (d a b : BitVec 8) : Statement (.fmax h t d a b) := of_word rfl rfl
theorem fmaxImm (h : Hdr) (imm : BitVec 32) (d a : BitVec 8) : Statement (.fmaxImm h imm d a) := of_word rfl rfl
theorem fabs (h : Hdr) (t : FType) (d a : BitVec 8) : Statement (.fabs h t d a) := of_word rfl rfl
theorem fneg (h : Hdr) (t : FType) (d a : BitVec 8) : Statement (.fneg h t d a) := of_word rfl rfl
theorem frcp (h : Hdr) (t : FType) (rm : Rnd) (r : RndSrc) (d a : BitVec 8) : Statement (.frcp h t rm r d a) := of_word rfl rfl
theorem fsqrt (h : Hdr) (t : FType) (rm : Rnd) (r : RndSrc) (d a : BitVec 8) : Statement (.fsqrt h t rm r d a) := of_word rfl rfl
theorem frsq (h : Hdr) (t : FType) (rm : Rnd) (r : RndSrc) (d a : BitVec 8) : Statement (.frsq h t rm r d a) := of_word rfl rfl
theorem fexp2 (h : Hdr) (t : FType) (rm : Rnd) (r : RndSrc) (d a : BitVec 8) : Statement (.fexp2 h t rm r d a) := of_word rfl rfl
theorem flog2 (h : Hdr) (t : FType) (rm : Rnd) (r : RndSrc) (d a : BitVec 8) : Statement (.flog2 h t rm r d a) := of_word rfl rfl
theorem fsin (h : Hdr) (t : FType) (rm : Rnd) (r : RndSrc) (d a : BitVec 8) : Statement (.fsin h t rm r d a) := of_word rfl rfl
theorem fcos (h : Hdr) (t : FType) (rm : Rnd) (r : RndSrc) (d a : BitVec 8) : Statement (.fcos h t rm r d a) := of_word rfl rfl
theorem fclass (h : Hdr) (t : FType) (d a : BitVec 8) : Statement (.fclass h t d a) := of_word rfl rfl
theorem fdot2 (h : Hdr) (t : FType) (rm : Rnd) (r : RndSrc) (d a b c : BitVec 8) : Statement (.fdot2 h t rm r d a b c) := of_word rfl rfl
theorem fscale (h : Hdr) (t : FType) (rm : Rnd) (r : RndSrc) (d a b : BitVec 8) : Statement (.fscale h t rm r d a b) := of_word rfl rfl
theorem frint (h : Hdr) (t : FType) (rm : Rnd) (r : RndSrc) (d a : BitVec 8) : Statement (.frint h t rm r d a) := of_word rfl rfl
theorem cvt (h : Hdr) (dt st : FType) (rm : Rnd) (r : RndSrc) (d a : BitVec 8) : Statement (.cvt h dt st rm r d a) := of_word rfl rfl
theorem cvtn (h : Hdr) (dt : IType) (st : FType) (rm : Rnd) (r : RndSrc) (d a : BitVec 8) : Statement (.cvtn h dt st rm r d a) := of_word rfl rfl
theorem cvtw (h : Hdr) (dt : FType) (st : IType) (rm : Rnd) (r : RndSrc) (d a : BitVec 8) : Statement (.cvtw h dt st rm r d a) := of_word rfl rfl
theorem scfit (h : Hdr) (t : FType) (d a : BitVec 8) : Statement (.scfit h t d a) := of_word rfl rfl
theorem scapp (h : Hdr) (t : FType) (rm : Rnd) (r : RndSrc) (d a b : BitVec 8) : Statement (.scapp h t rm r d a b) := of_word rfl rfl
theorem cbdec (h : Hdr) (d a : BitVec 8) : Statement (.cbdec h d a) := of_word rfl rfl
theorem icmp (h : Hdr) (cmp : Cmp) (t : IType) (d : BitVec 3) (a b : BitVec 8) (c : BitVec 3) : Statement (.icmp h cmp t d a b c) := of_word rfl rfl
theorem fcmp (h : Hdr) (cmp : Cmp) (t : FType) (d : BitVec 3) (a b : BitVec 8) (c : BitVec 3) : Statement (.fcmp h cmp t d a b c) := of_word rfl rfl
theorem sel (h : Hdr) (t : IType) (d a b : BitVec 8) (c : BitVec 3) : Statement (.sel h t d a b c) := of_word rfl rfl
theorem plog (h : Hdr) (tt : BitVec 8) (d a b c : BitVec 3) : Statement (.plog h tt d a b c) := of_word rfl rfl
theorem pmov (h : Hdr) (f : PmovForm) (d a : BitVec 8) : Statement (.pmov h f d a) := of_word rfl rfl
theorem bra (h : Hdr) (ofs : BitVec 32) : Statement (.bra h ofs) := of_word rfl rfl
theorem brx (h : Hdr) (a : BitVec 8) : Statement (.brx h a) := of_word rfl rfl
theorem call (h : Hdr) (ofs : BitVec 32) (d : BitVec 8) : Statement (.call h ofs d) := of_word rfl rfl
theorem ret (h : Hdr) (a : BitVec 8) : Statement (.ret h a) := of_word rfl rfl
theorem jpush (h : Hdr) (ofs : BitVec 32) : Statement (.jpush h ofs) := of_word rfl rfl
theorem join (h : Hdr) : Statement (.join h) := of_word rfl rfl
theorem regang (h : Hdr) : Statement (.regang h) := of_word rfl rfl
theorem loop (h : Hdr) (n : BitVec 8) (a : BitVec 8) : Statement (.loop h n a) := of_word rfl rfl
theorem exit (h : Hdr) : Statement (.exit h) := of_word rfl rfl
theorem doze (h : Hdr) (n : BitVec 32) : Statement (.doze h n) := of_word rfl rfl
theorem trap (h : Hdr) (n : BitVec 32) : Statement (.trap h n) := of_word rfl rfl
theorem brk (h : Hdr) (n : BitVec 32) : Statement (.brk h n) := of_word rfl rfl
theorem yield (h : Hdr) : Statement (.yield h) := of_word rfl rfl
theorem ld (h : Hdr) (m : MemOp) (d : BitVec 8) : Statement (.ld h m d) := of_word rfl rfl
theorem st (h : Hdr) (m : MemOp) (b : BitVec 8) : Statement (.st h m b) := of_word rfl rfl
theorem atom (h : Hdr) (m : MemOp) (op : Aop) (d b : BitVec 8) : Statement (.atom h m op d b) := of_word rfl rfl
theorem cas (h : Hdr) (m : MemOp) (d b c : BitVec 8) : Statement (.cas h m d b c) := of_word rfl rfl
theorem red (h : Hdr) (m : MemOp) (op : Aop) (b : BitVec 8) : Statement (.red h m op b) := of_word rfl rfl
theorem fence (h : Hdr) (all : Bool) (dom : Dom) (scp : Scope) : Statement (.fence h all dom scp) := of_word rfl rfl
theorem bridge (h : Hdr) (frm dst : Dom) (scp : Scope) : Statement (.bridge h frm dst scp) := of_word rfl rfl
theorem stf (h : Hdr) (m : MemOp) (b c : BitVec 8) : Statement (.stf h m b c) := of_word rfl rfl
theorem waitge (h : Hdr) (m : MemOp) (d b : BitVec 8) : Statement (.waitge h m d b) := of_word rfl rfl
theorem ldpf (h : Hdr) (m : MemOp) : Statement (.ldpf h m) := of_word rfl rfl
theorem cmaint (h : Hdr) (m : MemOp) (op : MaintOp) : Statement (.cmaint h m op) := of_word rfl rfl
theorem release (h : Hdr) (d a b c : BitVec 8) : Statement (.release h d a b c) := of_word rfl rfl
theorem lxch (h : Hdr) (mode : XMode) (t : IType) (seg : BitVec 8) (d a b : BitVec 8) : Statement (.lxch h mode t seg d a b) := of_word rfl rfl
theorem poll (h : Hdr) (f : PollForm) (d : BitVec 8) (a : BitVec 3) : Statement (.poll h f d a) := of_word rfl rfl
theorem redux (h : Hdr) (op : FoldOp) (d a : BitVec 8) : Statement (.redux h op d a) := of_word rfl rfl
theorem scan (h : Hdr) (excl : Bool) (op : FoldOp) (d a : BitVec 8) : Statement (.scan h excl op d a) := of_word rfl rfl
theorem elect (h : Hdr) (d : BitVec 3) : Statement (.elect h d) := of_word rfl rfl
theorem kin (h : Hdr) (f : KinForm) (t : IType) (d a : BitVec 8) : Statement (.kin h f t d a) := of_word rfl rfl
theorem umov (h : Hdr) (f : UmovForm) (n : BitVec 8) (d a : BitVec 8) : Statement (.umov h f n d a) := of_word rfl rfl
theorem meet (h : Hdr) (pass : Bool) (id count : BitVec 8) : Statement (.meet h pass id count) := of_word rfl rfl
theorem cmeet (h : Hdr) (pass : Bool) (id count : BitVec 8) : Statement (.cmeet h pass id count) := of_word rfl rfl
theorem launch (h : Hdr) (wait : Bool) (d a : BitVec 8) : Statement (.launch h wait d a) := of_word rfl rfl
theorem evset (h : Hdr) (clr : Bool) (n : BitVec 8) : Statement (.evset h clr n) := of_word rfl rfl
theorem evwait (h : Hdr) (n : BitVec 8) : Statement (.evwait h n) := of_word rfl rfl
theorem spawn (h : Hdr) (wait : Bool) (a b c : BitVec 8) : Statement (.spawn h wait a b c) := of_word rfl rfl
theorem binfl (h : Hdr) (a : BitVec 8) : Statement (.binfl h a) := of_word rfl rfl
theorem sclaim (h : Hdr) (n : BitVec 3) : Statement (.sclaim h n) := of_word rfl rfl
theorem srel (h : Hdr) (n : BitVec 3) : Statement (.srel h n) := of_word rfl rfl
theorem mma (h : Hdr) (z : Bool) (kq : BitVec 3) (fa fb : MFmt) (sa sb t : BitVec 4) : Statement (.mma h z kq fa fb sa sb t) := of_word rfl rfl
theorem mscac (h : Hdr) (z : Bool) (ws : BitVec 8) (p t : BitVec 4) : Statement (.mscac h z ws p t) := of_word rfl rfl
theorem mxwait (h : Hdr) (all : Bool) (t : BitVec 4) : Statement (.mxwait h all t) := of_word rfl rfl
theorem aclr (h : Hdr) (t : BitVec 4) : Statement (.aclr h t) := of_word rfl rfl
theorem accrd (h : Hdr) (ty : TileTy) (rm : Rnd) (row : BitVec 8) (tile : BitVec 4) (d : BitVec 8) : Statement (.accrd h ty rm row tile d) := of_word rfl rfl
theorem accwr (h : Hdr) (ty : TileTy) (row : BitVec 8) (tile : BitVec 4) (a : BitVec 8) : Statement (.accwr h ty row tile a) := of_word rfl rfl
theorem accst (h : Hdr) (ty : TileTy) (rm : Rnd) (tile : BitVec 4) (a : BitVec 8) : Statement (.accst h ty rm tile a) := of_word rfl rfl
theorem accld (h : Hdr) (ty : TileTy) (tile : BitVec 4) (a : BitVec 8) : Statement (.accld h ty tile a) := of_word rfl rfl
theorem gset (h : Hdr) (d : BitVec 3) (a : BitVec 8) : Statement (.gset h d a) := of_word rfl rfl
theorem gdraw (h : Hdr) (raw : Bool) (t : FType) (d : BitVec 8) (a : BitVec 3) (b c : BitVec 8) : Statement (.gdraw h raw t d a b c) := of_word rfl rfl
theorem gres (h : Hdr) (t : Bool) (a : BitVec 3) (b : BitVec 8) : Statement (.gres h t a b) := of_word rfl rfl
theorem cbload (h : Hdr) (dom : Dom) (scp : Scope) (a : BitVec 8) : Statement (.cbload h dom scp a) := of_word rfl rfl
theorem copy (h : Hdr) (scp : Scope) (dom : Dom) (wf wd wc : BitVec 6) (shp : Shape) (ch : BitVec 2) : Statement (.copy h scp dom wf wd wc shp ch) := of_word rfl rfl
theorem chwait (h : Hdr) (wv : BitVec 6) (ch : BitVec 2) : Statement (.chwait h wv ch) := of_word rfl rfl
theorem chrst (h : Hdr) (ch : BitVec 2) : Statement (.chrst h ch) := of_word rfl rfl
theorem lbrd (h : Hdr) (k : LbKind) (d a : BitVec 8) : Statement (.lbrd h k d a) := of_word rfl rfl
theorem lbchk (h : Hdr) (pf : Bool) (k : LbKind) (d a b : BitVec 8) : Statement (.lbchk h pf k d a b) := of_word rfl rfl
theorem lbfloor (h : Hdr) (k : LbKind) (a : BitVec 8) : Statement (.lbfloor h k a) := of_word rfl rfl
theorem srd (h : Hdr) (srn : BitVec 16) (d : BitVec 8) : Statement (.srd h srn d) := of_word rfl rfl
theorem swr (h : Hdr) (srn : BitVec 16) (a : BitVec 8) : Statement (.swr h srn a) := of_word rfl rfl
theorem tret (h : Hdr) : Statement (.tret h) := of_word rfl rfl
theorem vrdx (h : Hdr) (d a : BitVec 8) : Statement (.vrdx h d a) := of_word rfl rfl
theorem vwrx (h : Hdr) (a b : BitVec 8) : Statement (.vwrx h a b) := of_word rfl rfl
theorem isync (h : Hdr) : Statement (.isync h) := of_word rfl rfl
theorem iinv (h : Hdr) (a b : BitVec 8) : Statement (.iinv h a b) := of_word rfl rfl
theorem illegalOpcode (w : BitVec 64) : Statement (.illegalOpcode w) := fun _ _ => .inr ⟨w, rfl⟩
theorem instructionFetchFault : Statement (.instructionFetchFault) := fun _ h => nomatch h
theorem faultQueueEntryWrite (vf ctx : Nat) : Statement (.faultQueueEntryWrite vf ctx) := fun _ h => nomatch h
theorem resultReturn (team warp id : Nat) (lanes : BitVec 32) : Statement (.resultReturn team warp id lanes) := fun _ h => nomatch h
theorem storePerform (id : Nat) : Statement (.storePerform id) := fun _ h => nomatch h
theorem updateApply (id core : Nat) : Statement (.updateApply id core) := fun _ h => nomatch h
theorem atomicGroupPerform (id : Nat) : Statement (.atomicGroupPerform id) := fun _ h => nomatch h
theorem stfFlagAdd (id : Nat) : Statement (.stfFlagAdd id) := fun _ h => nomatch h
theorem copyDelivery (core ch n : Nat) : Statement (.copyDelivery core ch n) := fun _ h => nomatch h
theorem mmaStart (core : Nat) : Statement (.mmaStart core) := fun _ h => nomatch h
theorem mmaComplete (core : Nat) : Statement (.mmaComplete core) := fun _ h => nomatch h
theorem mscacComplete (core : Nat) : Statement (.mscacComplete core) := fun _ h => nomatch h
theorem dozeEnd (team warp slice entry : Nat) : Statement (.dozeEnd team warp slice entry) := fun _ h => nomatch h
theorem spawnBinTimerExpiry (core bin : Nat) : Statement (.spawnBinTimerExpiry core bin) := fun _ h => nomatch h
theorem warpRetire (team warp : Nat) : Statement (.warpRetire team warp) := fun _ h => nomatch h
theorem launchComplete (launch : Nat) : Statement (.launchComplete launch) := fun _ h => nomatch h
theorem clusterPlace : Statement (.clusterPlace) := fun _ h => nomatch h
theorem commitPoint (launch : Nat) : Statement (.commitPoint launch) := fun _ h => nomatch h
theorem orderPointPass (id : Nat) : Statement (.orderPointPass id) := fun _ h => nomatch h
theorem badCommand (fn : Fn) (bytes : List Byte) : Statement (.badCommand fn bytes) := fun _ h => nomatch h
theorem launchCmd (fn : Fn) (cmd : BitVec 512) : Statement (.launchCmd fn cmd) := fun _ h => nomatch h
theorem evsetCmd (fn : Fn) (cmd : BitVec 512) : Statement (.evsetCmd fn cmd) := fun _ h => nomatch h
theorem evsetClrCmd (fn : Fn) (cmd : BitVec 512) : Statement (.evsetClrCmd fn cmd) := fun _ h => nomatch h
theorem contextCreate (fn : Fn) (cmd : BitVec 512) : Statement (.contextCreate fn cmd) := fun _ h => nomatch h
theorem bindOff (fn : Fn) (cmd : BitVec 512) : Statement (.bindOff fn cmd) := fun _ h => nomatch h
theorem faultResumeRetry (fn : Fn) (cmd : BitVec 512) : Statement (.faultResumeRetry fn cmd) := fun _ h => nomatch h
theorem faultResumeDeliver (fn : Fn) (cmd : BitVec 512) : Statement (.faultResumeDeliver fn cmd) := fun _ h => nomatch h
theorem faultResumeKill (fn : Fn) (cmd : BitVec 512) : Statement (.faultResumeKill fn cmd) := fun _ h => nomatch h
theorem preempt (fn : Fn) (cmd : BitVec 512) : Statement (.preempt fn cmd) := fun _ h => nomatch h
theorem resume (fn : Fn) (cmd : BitVec 512) : Statement (.resume fn cmd) := fun _ h => nomatch h
theorem invalidateVa (fn : Fn) (cmd : BitVec 512) : Statement (.invalidateVa fn cmd) := fun _ h => nomatch h
theorem invalidateVaComplete (fn : Fn) (seq : Nat) : Statement (.invalidateVaComplete fn seq) := fun _ h => nomatch h
theorem biasFlipToHost (fn : Fn) (cmd : BitVec 512) : Statement (.biasFlipToHost fn cmd) := fun _ h => nomatch h
theorem biasFlipToDevice (fn : Fn) (cmd : BitVec 512) : Statement (.biasFlipToDevice fn cmd) := fun _ h => nomatch h
theorem biasFlipComplete (fn : Fn) (seq : Nat) : Statement (.biasFlipComplete fn seq) := fun _ h => nomatch h
theorem watchSet (fn : Fn) (cmd : BitVec 512) : Statement (.watchSet fn cmd) := fun _ h => nomatch h
theorem watchRemove (fn : Fn) (cmd : BitVec 512) : Statement (.watchRemove fn cmd) := fun _ h => nomatch h
theorem policyInstall (fn : Fn) (cmd : BitVec 512) (dmaOk : Bool) : Statement (.policyInstall fn cmd dmaOk) := fun _ h => nomatch h
theorem policyRemove (fn : Fn) (cmd : BitVec 512) : Statement (.policyRemove fn cmd) := fun _ h => nomatch h
theorem jointContext (fn : Fn) (cmd : BitVec 512) (dmaOk : Bool) : Statement (.jointContext fn cmd dmaOk) := fun _ h => nomatch h
theorem checkpointEnrol (fn : Fn) (cmd : BitVec 512) : Statement (.checkpointEnrol fn cmd) := fun _ h => nomatch h
theorem checkpointWithdraw (fn : Fn) (cmd : BitVec 512) : Statement (.checkpointWithdraw fn cmd) := fun _ h => nomatch h
theorem checkpointAdopt (fn : Fn) (cmd : BitVec 512) : Statement (.checkpointAdopt fn cmd) := fun _ h => nomatch h
theorem placeSet (fn : Fn) (cmd : BitVec 512) : Statement (.placeSet fn cmd) := fun _ h => nomatch h
theorem contextSaveComplete (vf ctx : Nat) : Statement (.contextSaveComplete vf ctx) := fun _ h => nomatch h
theorem restoreComplete (vf ctx : Nat) : Statement (.restoreComplete vf ctx) := fun _ h => nomatch h
theorem sfadd (vf : Nat) (x : BitVec 64) (whole : Bool) : Statement (.sfadd vf x whole) := fun _ h => nomatch h
theorem suspendSet (vf : Nat) : Statement (.suspendSet vf) := fun _ h => nomatch h
theorem suspendClear (vf : Nat) : Statement (.suspendClear vf) := fun _ h => nomatch h
theorem tenancyWrite (vf off width : Nat) (x : BitVec 64) : Statement (.tenancyWrite vf off width x) := fun _ h => nomatch h
theorem grantWrite (a : Nat) (k : RegPart) (x : BitVec 64) : Statement (.grantWrite a k x) := fun _ h => nomatch h
theorem unbind (slot : Nat) : Statement (.unbind slot) := fun _ h => nomatch h
theorem originUnbindComplete (slot : Nat) : Statement (.originUnbindComplete slot) := fun _ h => nomatch h
theorem bindOrigin (key : List Byte) : Statement (.bindOrigin key) := fun _ h => nomatch h
theorem registerWrite (fn : Fn) (off width : Nat) (x : BitVec 64) : Statement (.registerWrite fn off width x) := fun _ h => nomatch h
theorem budgetPeriod : Statement (.budgetPeriod) := fun _ h => nomatch h
theorem updateGenerationAdvance (die : Nat) : Statement (.updateGenerationAdvance die) := fun _ h => nomatch h
theorem scrubVisit (l : ArrayLine) : Statement (.scrubVisit l) := fun _ h => nomatch h
theorem retentionSleepEnter (core : Nat) : Statement (.retentionSleepEnter core) := fun _ h => nomatch h
theorem retentionWake (core : Nat) : Statement (.retentionWake core) := fun _ h => nomatch h
theorem flitReceive (f : Arrival) : Statement (.flitReceive f) := fun _ h => nomatch h
theorem flitAck (dst vn seq : Nat) : Statement (.flitAck dst vn seq) := fun _ h => nomatch h
theorem livenessSend : Statement (.livenessSend) := fun _ h => nomatch h
theorem linkLivenessTimeout (port : Nat) : Statement (.linkLivenessTimeout port) := fun _ h => nomatch h
theorem linkRetryExhausted (port : Nat) : Statement (.linkRetryExhausted port) := fun _ h => nomatch h
theorem linkUp (port : Nat) : Statement (.linkUp port) := fun _ h => nomatch h
theorem moduleDeadDeclare (m : Nat) : Statement (.moduleDeadDeclare m) := fun _ h => nomatch h
theorem moduleDeadAnnounce (m : Nat) : Statement (.moduleDeadAnnounce m) := fun _ h => nomatch h
theorem checkpointBegin (group : Nat) : Statement (.checkpointBegin group) := fun _ h => nomatch h
theorem beginReceive (group n : Nat) : Statement (.beginReceive group n) := fun _ h => nomatch h
theorem drained (group : Nat) : Statement (.drained group) := fun _ h => nomatch h
theorem drainedReceive (group n src : Nat) : Statement (.drainedReceive group n src) := fun _ h => nomatch h
theorem cutReceive (group n : Nat) : Statement (.cutReceive group n) := fun _ h => nomatch h
theorem sound (group : Nat) : Statement (.sound group) := fun _ h => nomatch h
theorem soundReceive (group n src : Nat) : Statement (.soundReceive group n src) := fun _ h => nomatch h
theorem commitReceive (group n : Nat) : Statement (.commitReceive group n) := fun _ h => nomatch h
theorem preImageCopy (group frame : Nat) : Statement (.preImageCopy group frame) := fun _ h => nomatch h
theorem rollbackRestore (group : Nat) : Statement (.rollbackRestore group) := fun _ h => nomatch h
theorem hostMemRead (pa n : Nat) : Statement (.hostMemRead pa n) := fun _ h => nomatch h
theorem hostMemWrite (pa : Nat) (bytes : List Byte) : Statement (.hostMemWrite pa bytes) := fun _ h => nomatch h
theorem hostAtomic (pa : Nat) (op : HostAtom) : Statement (.hostAtomic pa op) := fun _ h => nomatch h
theorem hostSnoop (hpa : Nat) (remove : Bool) : Statement (.hostSnoop hpa remove) := fun _ h => nomatch h
theorem backInvalidateComplete (half : Nat) : Statement (.backInvalidateComplete half) := fun _ h => nomatch h
theorem cxlCacheRequestFail (hpa : Nat) : Statement (.cxlCacheRequestFail hpa) := fun _ h => nomatch h
theorem uncorrectableError (l : ArrayLine) : Statement (.uncorrectableError l) := fun _ h => nomatch h
theorem castOn (c : CastOn) : Statement (.castOn c) := fun _ h => nomatch h
theorem functionLevelReset (vf : Nat) : Statement (.functionLevelReset vf) := fun _ h => nomatch h
theorem powerOutOfRange (millivolts : Nat) : Statement (.powerOutOfRange millivolts) := fun _ h => nomatch h
theorem managementRequest (r : MgmtReq) : Statement (.managementRequest r) := fun _ h => nomatch h
theorem spdmSession (auth : Bool) (summary : List Byte) : Statement (.spdmSession auth summary) := fun _ h => nomatch h

end Sys2Proof.Laws.Header
end

