-- ==== Sys2Proof/Laws/Results.lean ====
section
/-! SUPPORT. The shapes of results: integer, register and floating bodies leave what their shape says. -/

namespace Sys2Proof.Machine

/-- What the machine does when the instruction in issue executes and its lanes go on plainly. -/
theorem completes_of_issue {i : Instr} {s : State} {n : Now} (body : Cx → Eff) (h : Issues i s n = true)
    (hx : exec i s = issue i s body) (hb : (body (ctxOf i s n)).bufferFull = false)
    (he : (body (ctxOf i s n)).ends = []) (ha : (body (ctxOf i s n)).after = {})
    (ht : (Cells.find? (body (ctxOf i s n)).s.teams n.team).isSome = true)
    (hu : ((body (ctxOf i s n)).s.warp n.team n.warp).unspilled = true)
    (hw : ∀ x ∈ (body (ctxOf i s n)).wr, x.sound) :
    Completes i s n (body (ctxOf i s n)).s (body (ctxOf i s n)).wr := by
  obtain ⟨r, f, g⟩ := (ctxOf i s n).finish_plain i.needsFull (body (ctxOf i s n)) he ht hu hw
  refine ⟨_, hx.trans (issue_runs body h hb), r, f, g, ?_⟩
  intro hs
  simp only [Steady, Bool.and_eq_true, Bool.not_eq_true'] at hs
  obtain ⟨⟨hc, hal⟩, hm⟩ := hs
  have hal' := Warp.alone_spec hal
  obtain ⟨_, q, _⟩ := (ctxOf i s n).finish_single i.needsFull (body (ctxOf i s n))
    (fun u => some (nextStrand (body (ctxOf i s n)).s n u)) ht hc hal (by rw [he]; rfl)
    (by intro u hu
        obtain ⟨_, h8, hmask⟩ := hal'.2 u hu
        refine ⟨?_, ?_⟩
        · rw [ha]
          refine (partsOf_plain _ _ _ _ _ _ _ _ _ _ hmask ?_ ?_ ?_).trans ?_
          · have : ∀ k, k < 8 → (255 : BitVec 8).getLsbD k = true := by decide
            exact this _ h8
          · intro rs; simp
          · intro j _; rw [he]; rfl
          · have hm' : (ctxOf i s n).h.s = false := hm
            simp only [hm', Bool.false_and, Bool.false_eq_true, if_false]
            rfl
        · rintro _ ⟨⟩
          exact ⟨rfl, hmask, rfl⟩) hw
  exact q

/-- The same for a body that changes registers alone. -/
theorem completes_regs {i : Instr} {s : State} {n : Now} (body : Cx → Eff) (h : Issues i s n = true)
    (hx : exec i s = issue i s body) (hs : (body (ctxOf i s n)).s = s) (hb : (body (ctxOf i s n)).bufferFull = false)
    (he : (body (ctxOf i s n)).ends = []) (ha : (body (ctxOf i s n)).after = {})
    (hw : ∀ x ∈ (body (ctxOf i s n)).wr, x.sound) :
    Completes i s n s (body (ctxOf i s n)).wr := by
  have := completes_of_issue body h hx hb he ha (by rw [hs]; exact issues_placed h) (by rw [hs]; exact issues_unspilled h) hw
  rwa [hs] at this

/-- A body that writes registers and nothing else. -/
theorem resultR_of {i : Instr} (body : Cx → Eff) (wr : Cx → List Wr) (hx : ∀ s, exec i s = issue i s body)
    (hb : ∀ c, body c = { s := c.s, wr := wr c }) (hw : ∀ c, ∀ x ∈ wr c, x.sound) : ResultR i wr := by
  intro s n hi
  have := completes_regs body hi (hx s) (by rw [hb]; rfl) (by rw [hb]) (by rw [hb]) (by rw [hb]) (by rw [hb]; exact hw _)
  rwa [hb] at this

/-- An integer body. -/
theorem resultI_of {i : Instr} {u : Bool} {words : Nat} {d : BitVec 8} {lab : Cx → Label} {f : Cx → Nat → Nat}
    (hx : ∀ s, exec i s = issue i s (fun c => c.intEff u words d (lab c) (f c))) : ResultI i u words d lab f :=
  fun s _ hi => completes_regs _ hi (hx s) rfl rfl rfl rfl (Cx.intEff_sound _ _ _ _ _ _)

/-- The floating end of lanes none of which traps. -/
theorem Cx.fpEnd_calm (c : Cx) (f : Nat → Nat × Flags) (mk : List (Nat × Nat) → List Wr)
    (h : ∀ l ∈ c.lanesA, c.trapping (f l).2 = false) :
    c.fpEnd (c.lanesA.map (fun l => (l, f l))) mk =
      { s := c.s.onWarp c.n.team c.n.warp (fun w =>
          { w with fpflags := c.lanesA.foldl (fun m l => Cells.modify m l (· ||| (f l).2)) w.fpflags })
        wr := mk (c.lanesA.map (fun l => (l, (f l).1))) } := by
  have bad : (c.lanesA.map (fun l => (l, f l))).filter (fun r => c.trapping r.2.2) = [] := by
    rw [List.filter_eq_nil_iff]
    intro r hr
    simp only [List.mem_map] at hr
    obtain ⟨l, hl, rfl⟩ := hr
    simp [h l hl]
  have good : (c.lanesA.map (fun l => (l, f l))).filter (fun r => !c.trapping r.2.2) = c.lanesA.map (fun l => (l, f l)) := by
    rw [List.filter_eq_self]
    intro r hr
    simp only [List.mem_map] at hr
    obtain ⟨l, hl, rfl⟩ := hr
    simp [h l hl]
  unfold Cx.fpEnd
  simp only [bad, good, List.map_nil, List.map_map, List.foldl_map, Function.comp_def]

/-- A floating body. -/
theorem resultF_of {i : Instr} (f : Cx → Nat → Nat × Flags) (wr : Cx → List (Nat × Nat) → List Wr)
    (hx : ∀ s, exec i s = issue i s (fun c => c.fpEnd (c.lanesA.map (fun l => (l, f c l))) (wr c)))
    (hw : ∀ c (vals : List (Nat × Nat)), (∀ y ∈ vals, y.1 < 32) → ∀ x ∈ wr c vals, x.sound) : ResultF i f wr := by
  intro s n hi hc
  have e := (ctxOf i s n).fpEnd_calm (f (ctxOf i s n)) (wr (ctxOf i s n)) hc
  have := completes_of_issue (fun c => c.fpEnd (c.lanesA.map (fun l => (l, f c l))) (wr c)) hi (hx s)
  rw [e] at this
  refine this rfl rfl rfl ?_ ?_ (hw _ _ ((ctxOf i s n).lanes_vals_lt _))
  · show (Cells.find? (Cells.put s.teams n.team _) n.team).isSome = true
    simp [Cells.find?_put]
  · show ((State.setWarp s n.team n.warp _).warp n.team n.warp).unspilled = true
    rw [State.warp_setWarp]; exact issues_unspilled hi

theorem resultFV_of {i : Instr} {d : BitVec 8} {words : Nat} {lab : Cx → Label} {f : Cx → Nat → Nat × Flags}
    (hx : ∀ s, exec i s = issue i s (fun c => c.fpEff d words (lab c) (f c))) : ResultFV i d words lab f :=
  resultF_of f _ hx (fun _ vals h => vWrites_sound d words vals _ h)

end Sys2Proof.Machine
end

