-- ==== Sys2Proof/Laws/State.lean ====
section
/-! SUPPORT. What each update of the state leaves in every field: one lemma per field per update, by definition. -/

namespace Sys2Proof.Machine

/-! ## setTeam -/

@[simp] theorem State.setTeam_cycle (s : State) (k : Nat) (x : Team) : (s.setTeam k x).cycle = s.cycle := rfl
@[simp] theorem State.setTeam_issues (s : State) (k : Nat) (x : Team) : (s.setTeam k x).issues = s.issues := rfl
@[simp] theorem State.setTeam_losses (s : State) (k : Nat) (x : Team) : (s.setTeam k x).losses = s.losses := rfl
@[simp] theorem State.setTeam_agenda (s : State) (k : Nat) (x : Team) : (s.setTeam k x).agenda = s.agenda := rfl
@[simp] theorem State.setTeam_now (s : State) (k : Nat) (x : Team) : (s.setTeam k x).now = s.now := rfl
@[simp] theorem State.setTeam_nextId (s : State) (k : Nat) (x : Team) : (s.setTeam k x).nextId = s.nextId := rfl
@[simp] theorem State.setTeam_free (s : State) (k : Nat) (x : Team) : (s.setTeam k x).free = s.free := rfl
@[simp] theorem State.setTeam_mem (s : State) (k : Nat) (x : Team) : (s.setTeam k x).mem = s.mem := rfl
@[simp] theorem State.setTeam_poison (s : State) (k : Nat) (x : Team) : (s.setTeam k x).poison = s.poison := rfl
@[simp] theorem State.setTeam_frameLab (s : State) (k : Nat) (x : Team) : (s.setTeam k x).frameLab = s.frameLab := rfl
@[simp] theorem State.setTeam_clusters (s : State) (k : Nat) (x : Team) : (s.setTeam k x).clusters = s.clusters := rfl
@[simp] theorem State.setTeam_cores (s : State) (k : Nat) (x : Team) : (s.setTeam k x).cores = s.cores := rfl
@[simp] theorem State.setTeam_dies (s : State) (k : Nat) (x : Team) : (s.setTeam k x).dies = s.dies := rfl
@[simp] theorem State.setTeam_accesses (s : State) (k : Nat) (x : Team) : (s.setTeam k x).accesses = s.accesses := rfl
@[simp] theorem State.setTeam_remote (s : State) (k : Nat) (x : Team) : (s.setTeam k x).remote = s.remote := rfl
@[simp] theorem State.setTeam_updates (s : State) (k : Nat) (x : Team) : (s.setTeam k x).updates = s.updates := rfl
@[simp] theorem State.setTeam_echoes (s : State) (k : Nat) (x : Team) : (s.setTeam k x).echoes = s.echoes := rfl
@[simp] theorem State.setTeam_late (s : State) (k : Nat) (x : Team) : (s.setTeam k x).late = s.late := rfl
@[simp] theorem State.setTeam_launches (s : State) (k : Nat) (x : Team) : (s.setTeam k x).launches = s.launches := rfl
@[simp] theorem State.setTeam_reserved (s : State) (k : Nat) (x : Team) : (s.setTeam k x).reserved = s.reserved := rfl
@[simp] theorem State.setTeam_contexts (s : State) (k : Nat) (x : Team) : (s.setTeam k x).contexts = s.contexts := rfl
@[simp] theorem State.setTeam_ports (s : State) (k : Nat) (x : Team) : (s.setTeam k x).ports = s.ports := rfl
@[simp] theorem State.setTeam_vfs (s : State) (k : Nat) (x : Team) : (s.setTeam k x).vfs = s.vfs := rfl
@[simp] theorem State.setTeam_origins (s : State) (k : Nat) (x : Team) : (s.setTeam k x).origins = s.origins := rfl
@[simp] theorem State.setTeam_policies (s : State) (k : Nat) (x : Team) : (s.setTeam k x).policies = s.policies := rfl
@[simp] theorem State.setTeam_records (s : State) (k : Nat) (x : Team) : (s.setTeam k x).records = s.records := rfl
@[simp] theorem State.setTeam_nextRecord (s : State) (k : Nat) (x : Team) : (s.setTeam k x).nextRecord = s.nextRecord := rfl
@[simp] theorem State.setTeam_budgets (s : State) (k : Nat) (x : Team) : (s.setTeam k x).budgets = s.budgets := rfl
@[simp] theorem State.setTeam_spdm (s : State) (k : Nat) (x : Team) : (s.setTeam k x).spdm = s.spdm := rfl
@[simp] theorem State.setTeam_hostMem (s : State) (k : Nat) (x : Team) : (s.setTeam k x).hostMem = s.hostMem := rfl
@[simp] theorem State.setTeam_hostHalves (s : State) (k : Nat) (x : Team) : (s.setTeam k x).hostHalves = s.hostHalves := rfl
@[simp] theorem State.setTeam_hostData (s : State) (k : Nat) (x : Team) : (s.setTeam k x).hostData = s.hostData := rfl
@[simp] theorem State.setTeam_hostBy (s : State) (k : Nat) (x : Team) : (s.setTeam k x).hostBy = s.hostBy := rfl
@[simp] theorem State.setTeam_hostFail (s : State) (k : Nat) (x : Team) : (s.setTeam k x).hostFail = s.hostFail := rfl
@[simp] theorem State.setTeam_bias (s : State) (k : Nat) (x : Team) : (s.setTeam k x).bias = s.bias := rfl
@[simp] theorem State.setTeam_halves (s : State) (k : Nat) (x : Team) : (s.setTeam k x).halves = s.halves := rfl
@[simp] theorem State.setTeam_backInv (s : State) (k : Nat) (x : Team) : (s.setTeam k x).backInv = s.backInv := rfl
@[simp] theorem State.setTeam_flips (s : State) (k : Nat) (x : Team) : (s.setTeam k x).flips = s.flips := rfl
@[simp] theorem State.setTeam_invals (s : State) (k : Nat) (x : Team) : (s.setTeam k x).invals = s.invals := rfl
@[simp] theorem State.setTeam_deferred (s : State) (k : Nat) (x : Team) : (s.setTeam k x).deferred = s.deferred := rfl
@[simp] theorem State.setTeam_fabric (s : State) (k : Nat) (x : Team) : (s.setTeam k x).fabric = s.fabric := rfl
@[simp] theorem State.setTeam_power (s : State) (k : Nat) (x : Team) : (s.setTeam k x).power = s.power := rfl
@[simp] theorem State.setTeam_out (s : State) (k : Nat) (x : Team) : (s.setTeam k x).out = s.out := rfl
@[simp] theorem State.setTeam_core (s : State) (k : Nat) (x : Team) (j : Nat) : (s.setTeam k x).core j = s.core j := rfl
@[simp] theorem State.setTeam_die (s : State) (k : Nat) (x : Team) (j : Nat) : (s.setTeam k x).die j = s.die j := rfl
@[simp] theorem State.setTeam_launch (s : State) (k : Nat) (x : Team) (j : Nat) : (s.setTeam k x).launch j = s.launch j := rfl
@[simp] theorem State.setTeam_context (s : State) (k : Nat) (x : Team) (j : Nat) : (s.setTeam k x).context j = s.context j := rfl
@[simp] theorem State.setTeam_port (s : State) (k : Nat) (x : Team) (j : Nat) : (s.setTeam k x).port j = s.port j := rfl
@[simp] theorem State.setTeam_vf (s : State) (k : Nat) (x : Team) (j : Nat) : (s.setTeam k x).vf j = s.vf j := rfl
@[simp] theorem State.setTeam_origin (s : State) (k : Nat) (x : Team) (j : Nat) : (s.setTeam k x).origin j = s.origin j := rfl

/-! ## onTeam -/

@[simp] theorem State.onTeam_cycle (s : State) (k : Nat) (f : Team → Team) : (s.onTeam k f).cycle = s.cycle := rfl
@[simp] theorem State.onTeam_issues (s : State) (k : Nat) (f : Team → Team) : (s.onTeam k f).issues = s.issues := rfl
@[simp] theorem State.onTeam_losses (s : State) (k : Nat) (f : Team → Team) : (s.onTeam k f).losses = s.losses := rfl
@[simp] theorem State.onTeam_agenda (s : State) (k : Nat) (f : Team → Team) : (s.onTeam k f).agenda = s.agenda := rfl
@[simp] theorem State.onTeam_now (s : State) (k : Nat) (f : Team → Team) : (s.onTeam k f).now = s.now := rfl
@[simp] theorem State.onTeam_nextId (s : State) (k : Nat) (f : Team → Team) : (s.onTeam k f).nextId = s.nextId := rfl
@[simp] theorem State.onTeam_free (s : State) (k : Nat) (f : Team → Team) : (s.onTeam k f).free = s.free := rfl
@[simp] theorem State.onTeam_mem (s : State) (k : Nat) (f : Team → Team) : (s.onTeam k f).mem = s.mem := rfl
@[simp] theorem State.onTeam_poison (s : State) (k : Nat) (f : Team → Team) : (s.onTeam k f).poison = s.poison := rfl
@[simp] theorem State.onTeam_frameLab (s : State) (k : Nat) (f : Team → Team) : (s.onTeam k f).frameLab = s.frameLab := rfl
@[simp] theorem State.onTeam_clusters (s : State) (k : Nat) (f : Team → Team) : (s.onTeam k f).clusters = s.clusters := rfl
@[simp] theorem State.onTeam_cores (s : State) (k : Nat) (f : Team → Team) : (s.onTeam k f).cores = s.cores := rfl
@[simp] theorem State.onTeam_dies (s : State) (k : Nat) (f : Team → Team) : (s.onTeam k f).dies = s.dies := rfl
@[simp] theorem State.onTeam_accesses (s : State) (k : Nat) (f : Team → Team) : (s.onTeam k f).accesses = s.accesses := rfl
@[simp] theorem State.onTeam_remote (s : State) (k : Nat) (f : Team → Team) : (s.onTeam k f).remote = s.remote := rfl
@[simp] theorem State.onTeam_updates (s : State) (k : Nat) (f : Team → Team) : (s.onTeam k f).updates = s.updates := rfl
@[simp] theorem State.onTeam_echoes (s : State) (k : Nat) (f : Team → Team) : (s.onTeam k f).echoes = s.echoes := rfl
@[simp] theorem State.onTeam_late (s : State) (k : Nat) (f : Team → Team) : (s.onTeam k f).late = s.late := rfl
@[simp] theorem State.onTeam_launches (s : State) (k : Nat) (f : Team → Team) : (s.onTeam k f).launches = s.launches := rfl
@[simp] theorem State.onTeam_reserved (s : State) (k : Nat) (f : Team → Team) : (s.onTeam k f).reserved = s.reserved := rfl
@[simp] theorem State.onTeam_contexts (s : State) (k : Nat) (f : Team → Team) : (s.onTeam k f).contexts = s.contexts := rfl
@[simp] theorem State.onTeam_ports (s : State) (k : Nat) (f : Team → Team) : (s.onTeam k f).ports = s.ports := rfl
@[simp] theorem State.onTeam_vfs (s : State) (k : Nat) (f : Team → Team) : (s.onTeam k f).vfs = s.vfs := rfl
@[simp] theorem State.onTeam_origins (s : State) (k : Nat) (f : Team → Team) : (s.onTeam k f).origins = s.origins := rfl
@[simp] theorem State.onTeam_policies (s : State) (k : Nat) (f : Team → Team) : (s.onTeam k f).policies = s.policies := rfl
@[simp] theorem State.onTeam_records (s : State) (k : Nat) (f : Team → Team) : (s.onTeam k f).records = s.records := rfl
@[simp] theorem State.onTeam_nextRecord (s : State) (k : Nat) (f : Team → Team) : (s.onTeam k f).nextRecord = s.nextRecord := rfl
@[simp] theorem State.onTeam_budgets (s : State) (k : Nat) (f : Team → Team) : (s.onTeam k f).budgets = s.budgets := rfl
@[simp] theorem State.onTeam_spdm (s : State) (k : Nat) (f : Team → Team) : (s.onTeam k f).spdm = s.spdm := rfl
@[simp] theorem State.onTeam_hostMem (s : State) (k : Nat) (f : Team → Team) : (s.onTeam k f).hostMem = s.hostMem := rfl
@[simp] theorem State.onTeam_hostHalves (s : State) (k : Nat) (f : Team → Team) : (s.onTeam k f).hostHalves = s.hostHalves := rfl
@[simp] theorem State.onTeam_hostData (s : State) (k : Nat) (f : Team → Team) : (s.onTeam k f).hostData = s.hostData := rfl
@[simp] theorem State.onTeam_hostBy (s : State) (k : Nat) (f : Team → Team) : (s.onTeam k f).hostBy = s.hostBy := rfl
@[simp] theorem State.onTeam_hostFail (s : State) (k : Nat) (f : Team → Team) : (s.onTeam k f).hostFail = s.hostFail := rfl
@[simp] theorem State.onTeam_bias (s : State) (k : Nat) (f : Team → Team) : (s.onTeam k f).bias = s.bias := rfl
@[simp] theorem State.onTeam_halves (s : State) (k : Nat) (f : Team → Team) : (s.onTeam k f).halves = s.halves := rfl
@[simp] theorem State.onTeam_backInv (s : State) (k : Nat) (f : Team → Team) : (s.onTeam k f).backInv = s.backInv := rfl
@[simp] theorem State.onTeam_flips (s : State) (k : Nat) (f : Team → Team) : (s.onTeam k f).flips = s.flips := rfl
@[simp] theorem State.onTeam_invals (s : State) (k : Nat) (f : Team → Team) : (s.onTeam k f).invals = s.invals := rfl
@[simp] theorem State.onTeam_deferred (s : State) (k : Nat) (f : Team → Team) : (s.onTeam k f).deferred = s.deferred := rfl
@[simp] theorem State.onTeam_fabric (s : State) (k : Nat) (f : Team → Team) : (s.onTeam k f).fabric = s.fabric := rfl
@[simp] theorem State.onTeam_power (s : State) (k : Nat) (f : Team → Team) : (s.onTeam k f).power = s.power := rfl
@[simp] theorem State.onTeam_out (s : State) (k : Nat) (f : Team → Team) : (s.onTeam k f).out = s.out := rfl
@[simp] theorem State.onTeam_core (s : State) (k : Nat) (f : Team → Team) (j : Nat) : (s.onTeam k f).core j = s.core j := rfl
@[simp] theorem State.onTeam_die (s : State) (k : Nat) (f : Team → Team) (j : Nat) : (s.onTeam k f).die j = s.die j := rfl
@[simp] theorem State.onTeam_launch (s : State) (k : Nat) (f : Team → Team) (j : Nat) : (s.onTeam k f).launch j = s.launch j := rfl
@[simp] theorem State.onTeam_context (s : State) (k : Nat) (f : Team → Team) (j : Nat) : (s.onTeam k f).context j = s.context j := rfl
@[simp] theorem State.onTeam_port (s : State) (k : Nat) (f : Team → Team) (j : Nat) : (s.onTeam k f).port j = s.port j := rfl
@[simp] theorem State.onTeam_vf (s : State) (k : Nat) (f : Team → Team) (j : Nat) : (s.onTeam k f).vf j = s.vf j := rfl
@[simp] theorem State.onTeam_origin (s : State) (k : Nat) (f : Team → Team) (j : Nat) : (s.onTeam k f).origin j = s.origin j := rfl

/-! ## setWarp -/

@[simp] theorem State.setWarp_cycle (s : State) (k w : Nat) (x : Warp) : (s.setWarp k w x).cycle = s.cycle := rfl
@[simp] theorem State.setWarp_issues (s : State) (k w : Nat) (x : Warp) : (s.setWarp k w x).issues = s.issues := rfl
@[simp] theorem State.setWarp_losses (s : State) (k w : Nat) (x : Warp) : (s.setWarp k w x).losses = s.losses := rfl
@[simp] theorem State.setWarp_agenda (s : State) (k w : Nat) (x : Warp) : (s.setWarp k w x).agenda = s.agenda := rfl
@[simp] theorem State.setWarp_now (s : State) (k w : Nat) (x : Warp) : (s.setWarp k w x).now = s.now := rfl
@[simp] theorem State.setWarp_nextId (s : State) (k w : Nat) (x : Warp) : (s.setWarp k w x).nextId = s.nextId := rfl
@[simp] theorem State.setWarp_free (s : State) (k w : Nat) (x : Warp) : (s.setWarp k w x).free = s.free := rfl
@[simp] theorem State.setWarp_mem (s : State) (k w : Nat) (x : Warp) : (s.setWarp k w x).mem = s.mem := rfl
@[simp] theorem State.setWarp_poison (s : State) (k w : Nat) (x : Warp) : (s.setWarp k w x).poison = s.poison := rfl
@[simp] theorem State.setWarp_frameLab (s : State) (k w : Nat) (x : Warp) : (s.setWarp k w x).frameLab = s.frameLab := rfl
@[simp] theorem State.setWarp_clusters (s : State) (k w : Nat) (x : Warp) : (s.setWarp k w x).clusters = s.clusters := rfl
@[simp] theorem State.setWarp_cores (s : State) (k w : Nat) (x : Warp) : (s.setWarp k w x).cores = s.cores := rfl
@[simp] theorem State.setWarp_dies (s : State) (k w : Nat) (x : Warp) : (s.setWarp k w x).dies = s.dies := rfl
@[simp] theorem State.setWarp_accesses (s : State) (k w : Nat) (x : Warp) : (s.setWarp k w x).accesses = s.accesses := rfl
@[simp] theorem State.setWarp_remote (s : State) (k w : Nat) (x : Warp) : (s.setWarp k w x).remote = s.remote := rfl
@[simp] theorem State.setWarp_updates (s : State) (k w : Nat) (x : Warp) : (s.setWarp k w x).updates = s.updates := rfl
@[simp] theorem State.setWarp_echoes (s : State) (k w : Nat) (x : Warp) : (s.setWarp k w x).echoes = s.echoes := rfl
@[simp] theorem State.setWarp_late (s : State) (k w : Nat) (x : Warp) : (s.setWarp k w x).late = s.late := rfl
@[simp] theorem State.setWarp_launches (s : State) (k w : Nat) (x : Warp) : (s.setWarp k w x).launches = s.launches := rfl
@[simp] theorem State.setWarp_reserved (s : State) (k w : Nat) (x : Warp) : (s.setWarp k w x).reserved = s.reserved := rfl
@[simp] theorem State.setWarp_contexts (s : State) (k w : Nat) (x : Warp) : (s.setWarp k w x).contexts = s.contexts := rfl
@[simp] theorem State.setWarp_ports (s : State) (k w : Nat) (x : Warp) : (s.setWarp k w x).ports = s.ports := rfl
@[simp] theorem State.setWarp_vfs (s : State) (k w : Nat) (x : Warp) : (s.setWarp k w x).vfs = s.vfs := rfl
@[simp] theorem State.setWarp_origins (s : State) (k w : Nat) (x : Warp) : (s.setWarp k w x).origins = s.origins := rfl
@[simp] theorem State.setWarp_policies (s : State) (k w : Nat) (x : Warp) : (s.setWarp k w x).policies = s.policies := rfl
@[simp] theorem State.setWarp_records (s : State) (k w : Nat) (x : Warp) : (s.setWarp k w x).records = s.records := rfl
@[simp] theorem State.setWarp_nextRecord (s : State) (k w : Nat) (x : Warp) : (s.setWarp k w x).nextRecord = s.nextRecord := rfl
@[simp] theorem State.setWarp_budgets (s : State) (k w : Nat) (x : Warp) : (s.setWarp k w x).budgets = s.budgets := rfl
@[simp] theorem State.setWarp_spdm (s : State) (k w : Nat) (x : Warp) : (s.setWarp k w x).spdm = s.spdm := rfl
@[simp] theorem State.setWarp_hostMem (s : State) (k w : Nat) (x : Warp) : (s.setWarp k w x).hostMem = s.hostMem := rfl
@[simp] theorem State.setWarp_hostHalves (s : State) (k w : Nat) (x : Warp) : (s.setWarp k w x).hostHalves = s.hostHalves := rfl
@[simp] theorem State.setWarp_hostData (s : State) (k w : Nat) (x : Warp) : (s.setWarp k w x).hostData = s.hostData := rfl
@[simp] theorem State.setWarp_hostBy (s : State) (k w : Nat) (x : Warp) : (s.setWarp k w x).hostBy = s.hostBy := rfl
@[simp] theorem State.setWarp_hostFail (s : State) (k w : Nat) (x : Warp) : (s.setWarp k w x).hostFail = s.hostFail := rfl
@[simp] theorem State.setWarp_bias (s : State) (k w : Nat) (x : Warp) : (s.setWarp k w x).bias = s.bias := rfl
@[simp] theorem State.setWarp_halves (s : State) (k w : Nat) (x : Warp) : (s.setWarp k w x).halves = s.halves := rfl
@[simp] theorem State.setWarp_backInv (s : State) (k w : Nat) (x : Warp) : (s.setWarp k w x).backInv = s.backInv := rfl
@[simp] theorem State.setWarp_flips (s : State) (k w : Nat) (x : Warp) : (s.setWarp k w x).flips = s.flips := rfl
@[simp] theorem State.setWarp_invals (s : State) (k w : Nat) (x : Warp) : (s.setWarp k w x).invals = s.invals := rfl
@[simp] theorem State.setWarp_deferred (s : State) (k w : Nat) (x : Warp) : (s.setWarp k w x).deferred = s.deferred := rfl
@[simp] theorem State.setWarp_fabric (s : State) (k w : Nat) (x : Warp) : (s.setWarp k w x).fabric = s.fabric := rfl
@[simp] theorem State.setWarp_power (s : State) (k w : Nat) (x : Warp) : (s.setWarp k w x).power = s.power := rfl
@[simp] theorem State.setWarp_out (s : State) (k w : Nat) (x : Warp) : (s.setWarp k w x).out = s.out := rfl
@[simp] theorem State.setWarp_core (s : State) (k w : Nat) (x : Warp) (j : Nat) : (s.setWarp k w x).core j = s.core j := rfl
@[simp] theorem State.setWarp_die (s : State) (k w : Nat) (x : Warp) (j : Nat) : (s.setWarp k w x).die j = s.die j := rfl
@[simp] theorem State.setWarp_launch (s : State) (k w : Nat) (x : Warp) (j : Nat) : (s.setWarp k w x).launch j = s.launch j := rfl
@[simp] theorem State.setWarp_context (s : State) (k w : Nat) (x : Warp) (j : Nat) : (s.setWarp k w x).context j = s.context j := rfl
@[simp] theorem State.setWarp_port (s : State) (k w : Nat) (x : Warp) (j : Nat) : (s.setWarp k w x).port j = s.port j := rfl
@[simp] theorem State.setWarp_vf (s : State) (k w : Nat) (x : Warp) (j : Nat) : (s.setWarp k w x).vf j = s.vf j := rfl
@[simp] theorem State.setWarp_origin (s : State) (k w : Nat) (x : Warp) (j : Nat) : (s.setWarp k w x).origin j = s.origin j := rfl

/-! ## onWarp -/

@[simp] theorem State.onWarp_cycle (s : State) (k w : Nat) (f : Warp → Warp) : (s.onWarp k w f).cycle = s.cycle := rfl
@[simp] theorem State.onWarp_issues (s : State) (k w : Nat) (f : Warp → Warp) : (s.onWarp k w f).issues = s.issues := rfl
@[simp] theorem State.onWarp_losses (s : State) (k w : Nat) (f : Warp → Warp) : (s.onWarp k w f).losses = s.losses := rfl
@[simp] theorem State.onWarp_agenda (s : State) (k w : Nat) (f : Warp → Warp) : (s.onWarp k w f).agenda = s.agenda := rfl
@[simp] theorem State.onWarp_now (s : State) (k w : Nat) (f : Warp → Warp) : (s.onWarp k w f).now = s.now := rfl
@[simp] theorem State.onWarp_nextId (s : State) (k w : Nat) (f : Warp → Warp) : (s.onWarp k w f).nextId = s.nextId := rfl
@[simp] theorem State.onWarp_free (s : State) (k w : Nat) (f : Warp → Warp) : (s.onWarp k w f).free = s.free := rfl
@[simp] theorem State.onWarp_mem (s : State) (k w : Nat) (f : Warp → Warp) : (s.onWarp k w f).mem = s.mem := rfl
@[simp] theorem State.onWarp_poison (s : State) (k w : Nat) (f : Warp → Warp) : (s.onWarp k w f).poison = s.poison := rfl
@[simp] theorem State.onWarp_frameLab (s : State) (k w : Nat) (f : Warp → Warp) : (s.onWarp k w f).frameLab = s.frameLab := rfl
@[simp] theorem State.onWarp_clusters (s : State) (k w : Nat) (f : Warp → Warp) : (s.onWarp k w f).clusters = s.clusters := rfl
@[simp] theorem State.onWarp_cores (s : State) (k w : Nat) (f : Warp → Warp) : (s.onWarp k w f).cores = s.cores := rfl
@[simp] theorem State.onWarp_dies (s : State) (k w : Nat) (f : Warp → Warp) : (s.onWarp k w f).dies = s.dies := rfl
@[simp] theorem State.onWarp_accesses (s : State) (k w : Nat) (f : Warp → Warp) : (s.onWarp k w f).accesses = s.accesses := rfl
@[simp] theorem State.onWarp_remote (s : State) (k w : Nat) (f : Warp → Warp) : (s.onWarp k w f).remote = s.remote := rfl
@[simp] theorem State.onWarp_updates (s : State) (k w : Nat) (f : Warp → Warp) : (s.onWarp k w f).updates = s.updates := rfl
@[simp] theorem State.onWarp_echoes (s : State) (k w : Nat) (f : Warp → Warp) : (s.onWarp k w f).echoes = s.echoes := rfl
@[simp] theorem State.onWarp_late (s : State) (k w : Nat) (f : Warp → Warp) : (s.onWarp k w f).late = s.late := rfl
@[simp] theorem State.onWarp_launches (s : State) (k w : Nat) (f : Warp → Warp) : (s.onWarp k w f).launches = s.launches := rfl
@[simp] theorem State.onWarp_reserved (s : State) (k w : Nat) (f : Warp → Warp) : (s.onWarp k w f).reserved = s.reserved := rfl
@[simp] theorem State.onWarp_contexts (s : State) (k w : Nat) (f : Warp → Warp) : (s.onWarp k w f).contexts = s.contexts := rfl
@[simp] theorem State.onWarp_ports (s : State) (k w : Nat) (f : Warp → Warp) : (s.onWarp k w f).ports = s.ports := rfl
@[simp] theorem State.onWarp_vfs (s : State) (k w : Nat) (f : Warp → Warp) : (s.onWarp k w f).vfs = s.vfs := rfl
@[simp] theorem State.onWarp_origins (s : State) (k w : Nat) (f : Warp → Warp) : (s.onWarp k w f).origins = s.origins := rfl
@[simp] theorem State.onWarp_policies (s : State) (k w : Nat) (f : Warp → Warp) : (s.onWarp k w f).policies = s.policies := rfl
@[simp] theorem State.onWarp_records (s : State) (k w : Nat) (f : Warp → Warp) : (s.onWarp k w f).records = s.records := rfl
@[simp] theorem State.onWarp_nextRecord (s : State) (k w : Nat) (f : Warp → Warp) : (s.onWarp k w f).nextRecord = s.nextRecord := rfl
@[simp] theorem State.onWarp_budgets (s : State) (k w : Nat) (f : Warp → Warp) : (s.onWarp k w f).budgets = s.budgets := rfl
@[simp] theorem State.onWarp_spdm (s : State) (k w : Nat) (f : Warp → Warp) : (s.onWarp k w f).spdm = s.spdm := rfl
@[simp] theorem State.onWarp_hostMem (s : State) (k w : Nat) (f : Warp → Warp) : (s.onWarp k w f).hostMem = s.hostMem := rfl
@[simp] theorem State.onWarp_hostHalves (s : State) (k w : Nat) (f : Warp → Warp) : (s.onWarp k w f).hostHalves = s.hostHalves := rfl
@[simp] theorem State.onWarp_hostData (s : State) (k w : Nat) (f : Warp → Warp) : (s.onWarp k w f).hostData = s.hostData := rfl
@[simp] theorem State.onWarp_hostBy (s : State) (k w : Nat) (f : Warp → Warp) : (s.onWarp k w f).hostBy = s.hostBy := rfl
@[simp] theorem State.onWarp_hostFail (s : State) (k w : Nat) (f : Warp → Warp) : (s.onWarp k w f).hostFail = s.hostFail := rfl
@[simp] theorem State.onWarp_bias (s : State) (k w : Nat) (f : Warp → Warp) : (s.onWarp k w f).bias = s.bias := rfl
@[simp] theorem State.onWarp_halves (s : State) (k w : Nat) (f : Warp → Warp) : (s.onWarp k w f).halves = s.halves := rfl
@[simp] theorem State.onWarp_backInv (s : State) (k w : Nat) (f : Warp → Warp) : (s.onWarp k w f).backInv = s.backInv := rfl
@[simp] theorem State.onWarp_flips (s : State) (k w : Nat) (f : Warp → Warp) : (s.onWarp k w f).flips = s.flips := rfl
@[simp] theorem State.onWarp_invals (s : State) (k w : Nat) (f : Warp → Warp) : (s.onWarp k w f).invals = s.invals := rfl
@[simp] theorem State.onWarp_deferred (s : State) (k w : Nat) (f : Warp → Warp) : (s.onWarp k w f).deferred = s.deferred := rfl
@[simp] theorem State.onWarp_fabric (s : State) (k w : Nat) (f : Warp → Warp) : (s.onWarp k w f).fabric = s.fabric := rfl
@[simp] theorem State.onWarp_power (s : State) (k w : Nat) (f : Warp → Warp) : (s.onWarp k w f).power = s.power := rfl
@[simp] theorem State.onWarp_out (s : State) (k w : Nat) (f : Warp → Warp) : (s.onWarp k w f).out = s.out := rfl
@[simp] theorem State.onWarp_core (s : State) (k w : Nat) (f : Warp → Warp) (j : Nat) : (s.onWarp k w f).core j = s.core j := rfl
@[simp] theorem State.onWarp_die (s : State) (k w : Nat) (f : Warp → Warp) (j : Nat) : (s.onWarp k w f).die j = s.die j := rfl
@[simp] theorem State.onWarp_launch (s : State) (k w : Nat) (f : Warp → Warp) (j : Nat) : (s.onWarp k w f).launch j = s.launch j := rfl
@[simp] theorem State.onWarp_context (s : State) (k w : Nat) (f : Warp → Warp) (j : Nat) : (s.onWarp k w f).context j = s.context j := rfl
@[simp] theorem State.onWarp_port (s : State) (k w : Nat) (f : Warp → Warp) (j : Nat) : (s.onWarp k w f).port j = s.port j := rfl
@[simp] theorem State.onWarp_vf (s : State) (k w : Nat) (f : Warp → Warp) (j : Nat) : (s.onWarp k w f).vf j = s.vf j := rfl
@[simp] theorem State.onWarp_origin (s : State) (k w : Nat) (f : Warp → Warp) (j : Nat) : (s.onWarp k w f).origin j = s.origin j := rfl

/-! ## setCore -/

@[simp] theorem State.setCore_cycle (s : State) (c : Nat) (x : Core) : (s.setCore c x).cycle = s.cycle := rfl
@[simp] theorem State.setCore_issues (s : State) (c : Nat) (x : Core) : (s.setCore c x).issues = s.issues := rfl
@[simp] theorem State.setCore_losses (s : State) (c : Nat) (x : Core) : (s.setCore c x).losses = s.losses := rfl
@[simp] theorem State.setCore_agenda (s : State) (c : Nat) (x : Core) : (s.setCore c x).agenda = s.agenda := rfl
@[simp] theorem State.setCore_now (s : State) (c : Nat) (x : Core) : (s.setCore c x).now = s.now := rfl
@[simp] theorem State.setCore_nextId (s : State) (c : Nat) (x : Core) : (s.setCore c x).nextId = s.nextId := rfl
@[simp] theorem State.setCore_free (s : State) (c : Nat) (x : Core) : (s.setCore c x).free = s.free := rfl
@[simp] theorem State.setCore_mem (s : State) (c : Nat) (x : Core) : (s.setCore c x).mem = s.mem := rfl
@[simp] theorem State.setCore_poison (s : State) (c : Nat) (x : Core) : (s.setCore c x).poison = s.poison := rfl
@[simp] theorem State.setCore_frameLab (s : State) (c : Nat) (x : Core) : (s.setCore c x).frameLab = s.frameLab := rfl
@[simp] theorem State.setCore_teams (s : State) (c : Nat) (x : Core) : (s.setCore c x).teams = s.teams := rfl
@[simp] theorem State.setCore_clusters (s : State) (c : Nat) (x : Core) : (s.setCore c x).clusters = s.clusters := rfl
@[simp] theorem State.setCore_dies (s : State) (c : Nat) (x : Core) : (s.setCore c x).dies = s.dies := rfl
@[simp] theorem State.setCore_accesses (s : State) (c : Nat) (x : Core) : (s.setCore c x).accesses = s.accesses := rfl
@[simp] theorem State.setCore_remote (s : State) (c : Nat) (x : Core) : (s.setCore c x).remote = s.remote := rfl
@[simp] theorem State.setCore_updates (s : State) (c : Nat) (x : Core) : (s.setCore c x).updates = s.updates := rfl
@[simp] theorem State.setCore_echoes (s : State) (c : Nat) (x : Core) : (s.setCore c x).echoes = s.echoes := rfl
@[simp] theorem State.setCore_late (s : State) (c : Nat) (x : Core) : (s.setCore c x).late = s.late := rfl
@[simp] theorem State.setCore_launches (s : State) (c : Nat) (x : Core) : (s.setCore c x).launches = s.launches := rfl
@[simp] theorem State.setCore_reserved (s : State) (c : Nat) (x : Core) : (s.setCore c x).reserved = s.reserved := rfl
@[simp] theorem State.setCore_contexts (s : State) (c : Nat) (x : Core) : (s.setCore c x).contexts = s.contexts := rfl
@[simp] theorem State.setCore_ports (s : State) (c : Nat) (x : Core) : (s.setCore c x).ports = s.ports := rfl
@[simp] theorem State.setCore_vfs (s : State) (c : Nat) (x : Core) : (s.setCore c x).vfs = s.vfs := rfl
@[simp] theorem State.setCore_origins (s : State) (c : Nat) (x : Core) : (s.setCore c x).origins = s.origins := rfl
@[simp] theorem State.setCore_policies (s : State) (c : Nat) (x : Core) : (s.setCore c x).policies = s.policies := rfl
@[simp] theorem State.setCore_records (s : State) (c : Nat) (x : Core) : (s.setCore c x).records = s.records := rfl
@[simp] theorem State.setCore_nextRecord (s : State) (c : Nat) (x : Core) : (s.setCore c x).nextRecord = s.nextRecord := rfl
@[simp] theorem State.setCore_budgets (s : State) (c : Nat) (x : Core) : (s.setCore c x).budgets = s.budgets := rfl
@[simp] theorem State.setCore_spdm (s : State) (c : Nat) (x : Core) : (s.setCore c x).spdm = s.spdm := rfl
@[simp] theorem State.setCore_hostMem (s : State) (c : Nat) (x : Core) : (s.setCore c x).hostMem = s.hostMem := rfl
@[simp] theorem State.setCore_hostHalves (s : State) (c : Nat) (x : Core) : (s.setCore c x).hostHalves = s.hostHalves := rfl
@[simp] theorem State.setCore_hostData (s : State) (c : Nat) (x : Core) : (s.setCore c x).hostData = s.hostData := rfl
@[simp] theorem State.setCore_hostBy (s : State) (c : Nat) (x : Core) : (s.setCore c x).hostBy = s.hostBy := rfl
@[simp] theorem State.setCore_hostFail (s : State) (c : Nat) (x : Core) : (s.setCore c x).hostFail = s.hostFail := rfl
@[simp] theorem State.setCore_bias (s : State) (c : Nat) (x : Core) : (s.setCore c x).bias = s.bias := rfl
@[simp] theorem State.setCore_halves (s : State) (c : Nat) (x : Core) : (s.setCore c x).halves = s.halves := rfl
@[simp] theorem State.setCore_backInv (s : State) (c : Nat) (x : Core) : (s.setCore c x).backInv = s.backInv := rfl
@[simp] theorem State.setCore_flips (s : State) (c : Nat) (x : Core) : (s.setCore c x).flips = s.flips := rfl
@[simp] theorem State.setCore_invals (s : State) (c : Nat) (x : Core) : (s.setCore c x).invals = s.invals := rfl
@[simp] theorem State.setCore_deferred (s : State) (c : Nat) (x : Core) : (s.setCore c x).deferred = s.deferred := rfl
@[simp] theorem State.setCore_fabric (s : State) (c : Nat) (x : Core) : (s.setCore c x).fabric = s.fabric := rfl
@[simp] theorem State.setCore_power (s : State) (c : Nat) (x : Core) : (s.setCore c x).power = s.power := rfl
@[simp] theorem State.setCore_out (s : State) (c : Nat) (x : Core) : (s.setCore c x).out = s.out := rfl
@[simp] theorem State.setCore_team (s : State) (c : Nat) (x : Core) (j : Nat) : (s.setCore c x).team j = s.team j := rfl
@[simp] theorem State.setCore_die (s : State) (c : Nat) (x : Core) (j : Nat) : (s.setCore c x).die j = s.die j := rfl
@[simp] theorem State.setCore_launch (s : State) (c : Nat) (x : Core) (j : Nat) : (s.setCore c x).launch j = s.launch j := rfl
@[simp] theorem State.setCore_context (s : State) (c : Nat) (x : Core) (j : Nat) : (s.setCore c x).context j = s.context j := rfl
@[simp] theorem State.setCore_port (s : State) (c : Nat) (x : Core) (j : Nat) : (s.setCore c x).port j = s.port j := rfl
@[simp] theorem State.setCore_vf (s : State) (c : Nat) (x : Core) (j : Nat) : (s.setCore c x).vf j = s.vf j := rfl
@[simp] theorem State.setCore_origin (s : State) (c : Nat) (x : Core) (j : Nat) : (s.setCore c x).origin j = s.origin j := rfl

/-! ## onCore -/

@[simp] theorem State.onCore_cycle (s : State) (c : Nat) (f : Core → Core) : (s.onCore c f).cycle = s.cycle := rfl
@[simp] theorem State.onCore_issues (s : State) (c : Nat) (f : Core → Core) : (s.onCore c f).issues = s.issues := rfl
@[simp] theorem State.onCore_losses (s : State) (c : Nat) (f : Core → Core) : (s.onCore c f).losses = s.losses := rfl
@[simp] theorem State.onCore_agenda (s : State) (c : Nat) (f : Core → Core) : (s.onCore c f).agenda = s.agenda := rfl
@[simp] theorem State.onCore_now (s : State) (c : Nat) (f : Core → Core) : (s.onCore c f).now = s.now := rfl
@[simp] theorem State.onCore_nextId (s : State) (c : Nat) (f : Core → Core) : (s.onCore c f).nextId = s.nextId := rfl
@[simp] theorem State.onCore_free (s : State) (c : Nat) (f : Core → Core) : (s.onCore c f).free = s.free := rfl
@[simp] theorem State.onCore_mem (s : State) (c : Nat) (f : Core → Core) : (s.onCore c f).mem = s.mem := rfl
@[simp] theorem State.onCore_poison (s : State) (c : Nat) (f : Core → Core) : (s.onCore c f).poison = s.poison := rfl
@[simp] theorem State.onCore_frameLab (s : State) (c : Nat) (f : Core → Core) : (s.onCore c f).frameLab = s.frameLab := rfl
@[simp] theorem State.onCore_teams (s : State) (c : Nat) (f : Core → Core) : (s.onCore c f).teams = s.teams := rfl
@[simp] theorem State.onCore_clusters (s : State) (c : Nat) (f : Core → Core) : (s.onCore c f).clusters = s.clusters := rfl
@[simp] theorem State.onCore_dies (s : State) (c : Nat) (f : Core → Core) : (s.onCore c f).dies = s.dies := rfl
@[simp] theorem State.onCore_accesses (s : State) (c : Nat) (f : Core → Core) : (s.onCore c f).accesses = s.accesses := rfl
@[simp] theorem State.onCore_remote (s : State) (c : Nat) (f : Core → Core) : (s.onCore c f).remote = s.remote := rfl
@[simp] theorem State.onCore_updates (s : State) (c : Nat) (f : Core → Core) : (s.onCore c f).updates = s.updates := rfl
@[simp] theorem State.onCore_echoes (s : State) (c : Nat) (f : Core → Core) : (s.onCore c f).echoes = s.echoes := rfl
@[simp] theorem State.onCore_late (s : State) (c : Nat) (f : Core → Core) : (s.onCore c f).late = s.late := rfl
@[simp] theorem State.onCore_launches (s : State) (c : Nat) (f : Core → Core) : (s.onCore c f).launches = s.launches := rfl
@[simp] theorem State.onCore_reserved (s : State) (c : Nat) (f : Core → Core) : (s.onCore c f).reserved = s.reserved := rfl
@[simp] theorem State.onCore_contexts (s : State) (c : Nat) (f : Core → Core) : (s.onCore c f).contexts = s.contexts := rfl
@[simp] theorem State.onCore_ports (s : State) (c : Nat) (f : Core → Core) : (s.onCore c f).ports = s.ports := rfl
@[simp] theorem State.onCore_vfs (s : State) (c : Nat) (f : Core → Core) : (s.onCore c f).vfs = s.vfs := rfl
@[simp] theorem State.onCore_origins (s : State) (c : Nat) (f : Core → Core) : (s.onCore c f).origins = s.origins := rfl
@[simp] theorem State.onCore_policies (s : State) (c : Nat) (f : Core → Core) : (s.onCore c f).policies = s.policies := rfl
@[simp] theorem State.onCore_records (s : State) (c : Nat) (f : Core → Core) : (s.onCore c f).records = s.records := rfl
@[simp] theorem State.onCore_nextRecord (s : State) (c : Nat) (f : Core → Core) : (s.onCore c f).nextRecord = s.nextRecord := rfl
@[simp] theorem State.onCore_budgets (s : State) (c : Nat) (f : Core → Core) : (s.onCore c f).budgets = s.budgets := rfl
@[simp] theorem State.onCore_spdm (s : State) (c : Nat) (f : Core → Core) : (s.onCore c f).spdm = s.spdm := rfl
@[simp] theorem State.onCore_hostMem (s : State) (c : Nat) (f : Core → Core) : (s.onCore c f).hostMem = s.hostMem := rfl
@[simp] theorem State.onCore_hostHalves (s : State) (c : Nat) (f : Core → Core) : (s.onCore c f).hostHalves = s.hostHalves := rfl
@[simp] theorem State.onCore_hostData (s : State) (c : Nat) (f : Core → Core) : (s.onCore c f).hostData = s.hostData := rfl
@[simp] theorem State.onCore_hostBy (s : State) (c : Nat) (f : Core → Core) : (s.onCore c f).hostBy = s.hostBy := rfl
@[simp] theorem State.onCore_hostFail (s : State) (c : Nat) (f : Core → Core) : (s.onCore c f).hostFail = s.hostFail := rfl
@[simp] theorem State.onCore_bias (s : State) (c : Nat) (f : Core → Core) : (s.onCore c f).bias = s.bias := rfl
@[simp] theorem State.onCore_halves (s : State) (c : Nat) (f : Core → Core) : (s.onCore c f).halves = s.halves := rfl
@[simp] theorem State.onCore_backInv (s : State) (c : Nat) (f : Core → Core) : (s.onCore c f).backInv = s.backInv := rfl
@[simp] theorem State.onCore_flips (s : State) (c : Nat) (f : Core → Core) : (s.onCore c f).flips = s.flips := rfl
@[simp] theorem State.onCore_invals (s : State) (c : Nat) (f : Core → Core) : (s.onCore c f).invals = s.invals := rfl
@[simp] theorem State.onCore_deferred (s : State) (c : Nat) (f : Core → Core) : (s.onCore c f).deferred = s.deferred := rfl
@[simp] theorem State.onCore_fabric (s : State) (c : Nat) (f : Core → Core) : (s.onCore c f).fabric = s.fabric := rfl
@[simp] theorem State.onCore_power (s : State) (c : Nat) (f : Core → Core) : (s.onCore c f).power = s.power := rfl
@[simp] theorem State.onCore_out (s : State) (c : Nat) (f : Core → Core) : (s.onCore c f).out = s.out := rfl
@[simp] theorem State.onCore_team (s : State) (c : Nat) (f : Core → Core) (j : Nat) : (s.onCore c f).team j = s.team j := rfl
@[simp] theorem State.onCore_die (s : State) (c : Nat) (f : Core → Core) (j : Nat) : (s.onCore c f).die j = s.die j := rfl
@[simp] theorem State.onCore_launch (s : State) (c : Nat) (f : Core → Core) (j : Nat) : (s.onCore c f).launch j = s.launch j := rfl
@[simp] theorem State.onCore_context (s : State) (c : Nat) (f : Core → Core) (j : Nat) : (s.onCore c f).context j = s.context j := rfl
@[simp] theorem State.onCore_port (s : State) (c : Nat) (f : Core → Core) (j : Nat) : (s.onCore c f).port j = s.port j := rfl
@[simp] theorem State.onCore_vf (s : State) (c : Nat) (f : Core → Core) (j : Nat) : (s.onCore c f).vf j = s.vf j := rfl
@[simp] theorem State.onCore_origin (s : State) (c : Nat) (f : Core → Core) (j : Nat) : (s.onCore c f).origin j = s.origin j := rfl

/-! ## onDie -/

@[simp] theorem State.onDie_cycle (s : State) (d : Nat) (f : Die → Die) : (s.onDie d f).cycle = s.cycle := rfl
@[simp] theorem State.onDie_issues (s : State) (d : Nat) (f : Die → Die) : (s.onDie d f).issues = s.issues := rfl
@[simp] theorem State.onDie_losses (s : State) (d : Nat) (f : Die → Die) : (s.onDie d f).losses = s.losses := rfl
@[simp] theorem State.onDie_agenda (s : State) (d : Nat) (f : Die → Die) : (s.onDie d f).agenda = s.agenda := rfl
@[simp] theorem State.onDie_now (s : State) (d : Nat) (f : Die → Die) : (s.onDie d f).now = s.now := rfl
@[simp] theorem State.onDie_nextId (s : State) (d : Nat) (f : Die → Die) : (s.onDie d f).nextId = s.nextId := rfl
@[simp] theorem State.onDie_free (s : State) (d : Nat) (f : Die → Die) : (s.onDie d f).free = s.free := rfl
@[simp] theorem State.onDie_mem (s : State) (d : Nat) (f : Die → Die) : (s.onDie d f).mem = s.mem := rfl
@[simp] theorem State.onDie_poison (s : State) (d : Nat) (f : Die → Die) : (s.onDie d f).poison = s.poison := rfl
@[simp] theorem State.onDie_frameLab (s : State) (d : Nat) (f : Die → Die) : (s.onDie d f).frameLab = s.frameLab := rfl
@[simp] theorem State.onDie_teams (s : State) (d : Nat) (f : Die → Die) : (s.onDie d f).teams = s.teams := rfl
@[simp] theorem State.onDie_clusters (s : State) (d : Nat) (f : Die → Die) : (s.onDie d f).clusters = s.clusters := rfl
@[simp] theorem State.onDie_cores (s : State) (d : Nat) (f : Die → Die) : (s.onDie d f).cores = s.cores := rfl
@[simp] theorem State.onDie_accesses (s : State) (d : Nat) (f : Die → Die) : (s.onDie d f).accesses = s.accesses := rfl
@[simp] theorem State.onDie_remote (s : State) (d : Nat) (f : Die → Die) : (s.onDie d f).remote = s.remote := rfl
@[simp] theorem State.onDie_updates (s : State) (d : Nat) (f : Die → Die) : (s.onDie d f).updates = s.updates := rfl
@[simp] theorem State.onDie_echoes (s : State) (d : Nat) (f : Die → Die) : (s.onDie d f).echoes = s.echoes := rfl
@[simp] theorem State.onDie_late (s : State) (d : Nat) (f : Die → Die) : (s.onDie d f).late = s.late := rfl
@[simp] theorem State.onDie_launches (s : State) (d : Nat) (f : Die → Die) : (s.onDie d f).launches = s.launches := rfl
@[simp] theorem State.onDie_reserved (s : State) (d : Nat) (f : Die → Die) : (s.onDie d f).reserved = s.reserved := rfl
@[simp] theorem State.onDie_contexts (s : State) (d : Nat) (f : Die → Die) : (s.onDie d f).contexts = s.contexts := rfl
@[simp] theorem State.onDie_ports (s : State) (d : Nat) (f : Die → Die) : (s.onDie d f).ports = s.ports := rfl
@[simp] theorem State.onDie_vfs (s : State) (d : Nat) (f : Die → Die) : (s.onDie d f).vfs = s.vfs := rfl
@[simp] theorem State.onDie_origins (s : State) (d : Nat) (f : Die → Die) : (s.onDie d f).origins = s.origins := rfl
@[simp] theorem State.onDie_policies (s : State) (d : Nat) (f : Die → Die) : (s.onDie d f).policies = s.policies := rfl
@[simp] theorem State.onDie_records (s : State) (d : Nat) (f : Die → Die) : (s.onDie d f).records = s.records := rfl
@[simp] theorem State.onDie_nextRecord (s : State) (d : Nat) (f : Die → Die) : (s.onDie d f).nextRecord = s.nextRecord := rfl
@[simp] theorem State.onDie_budgets (s : State) (d : Nat) (f : Die → Die) : (s.onDie d f).budgets = s.budgets := rfl
@[simp] theorem State.onDie_spdm (s : State) (d : Nat) (f : Die → Die) : (s.onDie d f).spdm = s.spdm := rfl
@[simp] theorem State.onDie_hostMem (s : State) (d : Nat) (f : Die → Die) : (s.onDie d f).hostMem = s.hostMem := rfl
@[simp] theorem State.onDie_hostHalves (s : State) (d : Nat) (f : Die → Die) : (s.onDie d f).hostHalves = s.hostHalves := rfl
@[simp] theorem State.onDie_hostData (s : State) (d : Nat) (f : Die → Die) : (s.onDie d f).hostData = s.hostData := rfl
@[simp] theorem State.onDie_hostBy (s : State) (d : Nat) (f : Die → Die) : (s.onDie d f).hostBy = s.hostBy := rfl
@[simp] theorem State.onDie_hostFail (s : State) (d : Nat) (f : Die → Die) : (s.onDie d f).hostFail = s.hostFail := rfl
@[simp] theorem State.onDie_bias (s : State) (d : Nat) (f : Die → Die) : (s.onDie d f).bias = s.bias := rfl
@[simp] theorem State.onDie_halves (s : State) (d : Nat) (f : Die → Die) : (s.onDie d f).halves = s.halves := rfl
@[simp] theorem State.onDie_backInv (s : State) (d : Nat) (f : Die → Die) : (s.onDie d f).backInv = s.backInv := rfl
@[simp] theorem State.onDie_flips (s : State) (d : Nat) (f : Die → Die) : (s.onDie d f).flips = s.flips := rfl
@[simp] theorem State.onDie_invals (s : State) (d : Nat) (f : Die → Die) : (s.onDie d f).invals = s.invals := rfl
@[simp] theorem State.onDie_deferred (s : State) (d : Nat) (f : Die → Die) : (s.onDie d f).deferred = s.deferred := rfl
@[simp] theorem State.onDie_fabric (s : State) (d : Nat) (f : Die → Die) : (s.onDie d f).fabric = s.fabric := rfl
@[simp] theorem State.onDie_power (s : State) (d : Nat) (f : Die → Die) : (s.onDie d f).power = s.power := rfl
@[simp] theorem State.onDie_out (s : State) (d : Nat) (f : Die → Die) : (s.onDie d f).out = s.out := rfl
@[simp] theorem State.onDie_team (s : State) (d : Nat) (f : Die → Die) (j : Nat) : (s.onDie d f).team j = s.team j := rfl
@[simp] theorem State.onDie_core (s : State) (d : Nat) (f : Die → Die) (j : Nat) : (s.onDie d f).core j = s.core j := rfl
@[simp] theorem State.onDie_launch (s : State) (d : Nat) (f : Die → Die) (j : Nat) : (s.onDie d f).launch j = s.launch j := rfl
@[simp] theorem State.onDie_context (s : State) (d : Nat) (f : Die → Die) (j : Nat) : (s.onDie d f).context j = s.context j := rfl
@[simp] theorem State.onDie_port (s : State) (d : Nat) (f : Die → Die) (j : Nat) : (s.onDie d f).port j = s.port j := rfl
@[simp] theorem State.onDie_vf (s : State) (d : Nat) (f : Die → Die) (j : Nat) : (s.onDie d f).vf j = s.vf j := rfl
@[simp] theorem State.onDie_origin (s : State) (d : Nat) (f : Die → Die) (j : Nat) : (s.onDie d f).origin j = s.origin j := rfl

/-! ## onLaunch -/

@[simp] theorem State.onLaunch_cycle (s : State) (k : Nat) (f : Launch → Launch) : (s.onLaunch k f).cycle = s.cycle := rfl
@[simp] theorem State.onLaunch_issues (s : State) (k : Nat) (f : Launch → Launch) : (s.onLaunch k f).issues = s.issues := rfl
@[simp] theorem State.onLaunch_losses (s : State) (k : Nat) (f : Launch → Launch) : (s.onLaunch k f).losses = s.losses := rfl
@[simp] theorem State.onLaunch_agenda (s : State) (k : Nat) (f : Launch → Launch) : (s.onLaunch k f).agenda = s.agenda := rfl
@[simp] theorem State.onLaunch_now (s : State) (k : Nat) (f : Launch → Launch) : (s.onLaunch k f).now = s.now := rfl
@[simp] theorem State.onLaunch_nextId (s : State) (k : Nat) (f : Launch → Launch) : (s.onLaunch k f).nextId = s.nextId := rfl
@[simp] theorem State.onLaunch_free (s : State) (k : Nat) (f : Launch → Launch) : (s.onLaunch k f).free = s.free := rfl
@[simp] theorem State.onLaunch_mem (s : State) (k : Nat) (f : Launch → Launch) : (s.onLaunch k f).mem = s.mem := rfl
@[simp] theorem State.onLaunch_poison (s : State) (k : Nat) (f : Launch → Launch) : (s.onLaunch k f).poison = s.poison := rfl
@[simp] theorem State.onLaunch_frameLab (s : State) (k : Nat) (f : Launch → Launch) : (s.onLaunch k f).frameLab = s.frameLab := rfl
@[simp] theorem State.onLaunch_teams (s : State) (k : Nat) (f : Launch → Launch) : (s.onLaunch k f).teams = s.teams := rfl
@[simp] theorem State.onLaunch_clusters (s : State) (k : Nat) (f : Launch → Launch) : (s.onLaunch k f).clusters = s.clusters := rfl
@[simp] theorem State.onLaunch_cores (s : State) (k : Nat) (f : Launch → Launch) : (s.onLaunch k f).cores = s.cores := rfl
@[simp] theorem State.onLaunch_dies (s : State) (k : Nat) (f : Launch → Launch) : (s.onLaunch k f).dies = s.dies := rfl
@[simp] theorem State.onLaunch_accesses (s : State) (k : Nat) (f : Launch → Launch) : (s.onLaunch k f).accesses = s.accesses := rfl
@[simp] theorem State.onLaunch_remote (s : State) (k : Nat) (f : Launch → Launch) : (s.onLaunch k f).remote = s.remote := rfl
@[simp] theorem State.onLaunch_updates (s : State) (k : Nat) (f : Launch → Launch) : (s.onLaunch k f).updates = s.updates := rfl
@[simp] theorem State.onLaunch_echoes (s : State) (k : Nat) (f : Launch → Launch) : (s.onLaunch k f).echoes = s.echoes := rfl
@[simp] theorem State.onLaunch_late (s : State) (k : Nat) (f : Launch → Launch) : (s.onLaunch k f).late = s.late := rfl
@[simp] theorem State.onLaunch_reserved (s : State) (k : Nat) (f : Launch → Launch) : (s.onLaunch k f).reserved = s.reserved := rfl
@[simp] theorem State.onLaunch_contexts (s : State) (k : Nat) (f : Launch → Launch) : (s.onLaunch k f).contexts = s.contexts := rfl
@[simp] theorem State.onLaunch_ports (s : State) (k : Nat) (f : Launch → Launch) : (s.onLaunch k f).ports = s.ports := rfl
@[simp] theorem State.onLaunch_vfs (s : State) (k : Nat) (f : Launch → Launch) : (s.onLaunch k f).vfs = s.vfs := rfl
@[simp] theorem State.onLaunch_origins (s : State) (k : Nat) (f : Launch → Launch) : (s.onLaunch k f).origins = s.origins := rfl
@[simp] theorem State.onLaunch_policies (s : State) (k : Nat) (f : Launch → Launch) : (s.onLaunch k f).policies = s.policies := rfl
@[simp] theorem State.onLaunch_records (s : State) (k : Nat) (f : Launch → Launch) : (s.onLaunch k f).records = s.records := rfl
@[simp] theorem State.onLaunch_nextRecord (s : State) (k : Nat) (f : Launch → Launch) : (s.onLaunch k f).nextRecord = s.nextRecord := rfl
@[simp] theorem State.onLaunch_budgets (s : State) (k : Nat) (f : Launch → Launch) : (s.onLaunch k f).budgets = s.budgets := rfl
@[simp] theorem State.onLaunch_spdm (s : State) (k : Nat) (f : Launch → Launch) : (s.onLaunch k f).spdm = s.spdm := rfl
@[simp] theorem State.onLaunch_hostMem (s : State) (k : Nat) (f : Launch → Launch) : (s.onLaunch k f).hostMem = s.hostMem := rfl
@[simp] theorem State.onLaunch_hostHalves (s : State) (k : Nat) (f : Launch → Launch) : (s.onLaunch k f).hostHalves = s.hostHalves := rfl
@[simp] theorem State.onLaunch_hostData (s : State) (k : Nat) (f : Launch → Launch) : (s.onLaunch k f).hostData = s.hostData := rfl
@[simp] theorem State.onLaunch_hostBy (s : State) (k : Nat) (f : Launch → Launch) : (s.onLaunch k f).hostBy = s.hostBy := rfl
@[simp] theorem State.onLaunch_hostFail (s : State) (k : Nat) (f : Launch → Launch) : (s.onLaunch k f).hostFail = s.hostFail := rfl
@[simp] theorem State.onLaunch_bias (s : State) (k : Nat) (f : Launch → Launch) : (s.onLaunch k f).bias = s.bias := rfl
@[simp] theorem State.onLaunch_halves (s : State) (k : Nat) (f : Launch → Launch) : (s.onLaunch k f).halves = s.halves := rfl
@[simp] theorem State.onLaunch_backInv (s : State) (k : Nat) (f : Launch → Launch) : (s.onLaunch k f).backInv = s.backInv := rfl
@[simp] theorem State.onLaunch_flips (s : State) (k : Nat) (f : Launch → Launch) : (s.onLaunch k f).flips = s.flips := rfl
@[simp] theorem State.onLaunch_invals (s : State) (k : Nat) (f : Launch → Launch) : (s.onLaunch k f).invals = s.invals := rfl
@[simp] theorem State.onLaunch_deferred (s : State) (k : Nat) (f : Launch → Launch) : (s.onLaunch k f).deferred = s.deferred := rfl
@[simp] theorem State.onLaunch_fabric (s : State) (k : Nat) (f : Launch → Launch) : (s.onLaunch k f).fabric = s.fabric := rfl
@[simp] theorem State.onLaunch_power (s : State) (k : Nat) (f : Launch → Launch) : (s.onLaunch k f).power = s.power := rfl
@[simp] theorem State.onLaunch_out (s : State) (k : Nat) (f : Launch → Launch) : (s.onLaunch k f).out = s.out := rfl
@[simp] theorem State.onLaunch_team (s : State) (k : Nat) (f : Launch → Launch) (j : Nat) : (s.onLaunch k f).team j = s.team j := rfl
@[simp] theorem State.onLaunch_core (s : State) (k : Nat) (f : Launch → Launch) (j : Nat) : (s.onLaunch k f).core j = s.core j := rfl
@[simp] theorem State.onLaunch_die (s : State) (k : Nat) (f : Launch → Launch) (j : Nat) : (s.onLaunch k f).die j = s.die j := rfl
@[simp] theorem State.onLaunch_context (s : State) (k : Nat) (f : Launch → Launch) (j : Nat) : (s.onLaunch k f).context j = s.context j := rfl
@[simp] theorem State.onLaunch_port (s : State) (k : Nat) (f : Launch → Launch) (j : Nat) : (s.onLaunch k f).port j = s.port j := rfl
@[simp] theorem State.onLaunch_vf (s : State) (k : Nat) (f : Launch → Launch) (j : Nat) : (s.onLaunch k f).vf j = s.vf j := rfl
@[simp] theorem State.onLaunch_origin (s : State) (k : Nat) (f : Launch → Launch) (j : Nat) : (s.onLaunch k f).origin j = s.origin j := rfl

/-! ## onContext -/

@[simp] theorem State.onContext_cycle (s : State) (k : Nat) (f : Context → Context) : (s.onContext k f).cycle = s.cycle := rfl
@[simp] theorem State.onContext_issues (s : State) (k : Nat) (f : Context → Context) : (s.onContext k f).issues = s.issues := rfl
@[simp] theorem State.onContext_losses (s : State) (k : Nat) (f : Context → Context) : (s.onContext k f).losses = s.losses := rfl
@[simp] theorem State.onContext_agenda (s : State) (k : Nat) (f : Context → Context) : (s.onContext k f).agenda = s.agenda := rfl
@[simp] theorem State.onContext_now (s : State) (k : Nat) (f : Context → Context) : (s.onContext k f).now = s.now := rfl
@[simp] theorem State.onContext_nextId (s : State) (k : Nat) (f : Context → Context) : (s.onContext k f).nextId = s.nextId := rfl
@[simp] theorem State.onContext_free (s : State) (k : Nat) (f : Context → Context) : (s.onContext k f).free = s.free := rfl
@[simp] theorem State.onContext_mem (s : State) (k : Nat) (f : Context → Context) : (s.onContext k f).mem = s.mem := rfl
@[simp] theorem State.onContext_poison (s : State) (k : Nat) (f : Context → Context) : (s.onContext k f).poison = s.poison := rfl
@[simp] theorem State.onContext_frameLab (s : State) (k : Nat) (f : Context → Context) : (s.onContext k f).frameLab = s.frameLab := rfl
@[simp] theorem State.onContext_teams (s : State) (k : Nat) (f : Context → Context) : (s.onContext k f).teams = s.teams := rfl
@[simp] theorem State.onContext_clusters (s : State) (k : Nat) (f : Context → Context) : (s.onContext k f).clusters = s.clusters := rfl
@[simp] theorem State.onContext_cores (s : State) (k : Nat) (f : Context → Context) : (s.onContext k f).cores = s.cores := rfl
@[simp] theorem State.onContext_dies (s : State) (k : Nat) (f : Context → Context) : (s.onContext k f).dies = s.dies := rfl
@[simp] theorem State.onContext_accesses (s : State) (k : Nat) (f : Context → Context) : (s.onContext k f).accesses = s.accesses := rfl
@[simp] theorem State.onContext_remote (s : State) (k : Nat) (f : Context → Context) : (s.onContext k f).remote = s.remote := rfl
@[simp] theorem State.onContext_updates (s : State) (k : Nat) (f : Context → Context) : (s.onContext k f).updates = s.updates := rfl
@[simp] theorem State.onContext_echoes (s : State) (k : Nat) (f : Context → Context) : (s.onContext k f).echoes = s.echoes := rfl
@[simp] theorem State.onContext_late (s : State) (k : Nat) (f : Context → Context) : (s.onContext k f).late = s.late := rfl
@[simp] theorem State.onContext_launches (s : State) (k : Nat) (f : Context → Context) : (s.onContext k f).launches = s.launches := rfl
@[simp] theorem State.onContext_reserved (s : State) (k : Nat) (f : Context → Context) : (s.onContext k f).reserved = s.reserved := rfl
@[simp] theorem State.onContext_ports (s : State) (k : Nat) (f : Context → Context) : (s.onContext k f).ports = s.ports := rfl
@[simp] theorem State.onContext_vfs (s : State) (k : Nat) (f : Context → Context) : (s.onContext k f).vfs = s.vfs := rfl
@[simp] theorem State.onContext_origins (s : State) (k : Nat) (f : Context → Context) : (s.onContext k f).origins = s.origins := rfl
@[simp] theorem State.onContext_policies (s : State) (k : Nat) (f : Context → Context) : (s.onContext k f).policies = s.policies := rfl
@[simp] theorem State.onContext_records (s : State) (k : Nat) (f : Context → Context) : (s.onContext k f).records = s.records := rfl
@[simp] theorem State.onContext_nextRecord (s : State) (k : Nat) (f : Context → Context) : (s.onContext k f).nextRecord = s.nextRecord := rfl
@[simp] theorem State.onContext_budgets (s : State) (k : Nat) (f : Context → Context) : (s.onContext k f).budgets = s.budgets := rfl
@[simp] theorem State.onContext_spdm (s : State) (k : Nat) (f : Context → Context) : (s.onContext k f).spdm = s.spdm := rfl
@[simp] theorem State.onContext_hostMem (s : State) (k : Nat) (f : Context → Context) : (s.onContext k f).hostMem = s.hostMem := rfl
@[simp] theorem State.onContext_hostHalves (s : State) (k : Nat) (f : Context → Context) : (s.onContext k f).hostHalves = s.hostHalves := rfl
@[simp] theorem State.onContext_hostData (s : State) (k : Nat) (f : Context → Context) : (s.onContext k f).hostData = s.hostData := rfl
@[simp] theorem State.onContext_hostBy (s : State) (k : Nat) (f : Context → Context) : (s.onContext k f).hostBy = s.hostBy := rfl
@[simp] theorem State.onContext_hostFail (s : State) (k : Nat) (f : Context → Context) : (s.onContext k f).hostFail = s.hostFail := rfl
@[simp] theorem State.onContext_bias (s : State) (k : Nat) (f : Context → Context) : (s.onContext k f).bias = s.bias := rfl
@[simp] theorem State.onContext_halves (s : State) (k : Nat) (f : Context → Context) : (s.onContext k f).halves = s.halves := rfl
@[simp] theorem State.onContext_backInv (s : State) (k : Nat) (f : Context → Context) : (s.onContext k f).backInv = s.backInv := rfl
@[simp] theorem State.onContext_flips (s : State) (k : Nat) (f : Context → Context) : (s.onContext k f).flips = s.flips := rfl
@[simp] theorem State.onContext_invals (s : State) (k : Nat) (f : Context → Context) : (s.onContext k f).invals = s.invals := rfl
@[simp] theorem State.onContext_deferred (s : State) (k : Nat) (f : Context → Context) : (s.onContext k f).deferred = s.deferred := rfl
@[simp] theorem State.onContext_fabric (s : State) (k : Nat) (f : Context → Context) : (s.onContext k f).fabric = s.fabric := rfl
@[simp] theorem State.onContext_power (s : State) (k : Nat) (f : Context → Context) : (s.onContext k f).power = s.power := rfl
@[simp] theorem State.onContext_out (s : State) (k : Nat) (f : Context → Context) : (s.onContext k f).out = s.out := rfl
@[simp] theorem State.onContext_team (s : State) (k : Nat) (f : Context → Context) (j : Nat) : (s.onContext k f).team j = s.team j := rfl
@[simp] theorem State.onContext_core (s : State) (k : Nat) (f : Context → Context) (j : Nat) : (s.onContext k f).core j = s.core j := rfl
@[simp] theorem State.onContext_die (s : State) (k : Nat) (f : Context → Context) (j : Nat) : (s.onContext k f).die j = s.die j := rfl
@[simp] theorem State.onContext_launch (s : State) (k : Nat) (f : Context → Context) (j : Nat) : (s.onContext k f).launch j = s.launch j := rfl
@[simp] theorem State.onContext_port (s : State) (k : Nat) (f : Context → Context) (j : Nat) : (s.onContext k f).port j = s.port j := rfl
@[simp] theorem State.onContext_vf (s : State) (k : Nat) (f : Context → Context) (j : Nat) : (s.onContext k f).vf j = s.vf j := rfl
@[simp] theorem State.onContext_origin (s : State) (k : Nat) (f : Context → Context) (j : Nat) : (s.onContext k f).origin j = s.origin j := rfl

/-! ## onPort -/

@[simp] theorem State.onPort_cycle (s : State) (n : Nat) (f : Port → Port) : (s.onPort n f).cycle = s.cycle := rfl
@[simp] theorem State.onPort_issues (s : State) (n : Nat) (f : Port → Port) : (s.onPort n f).issues = s.issues := rfl
@[simp] theorem State.onPort_losses (s : State) (n : Nat) (f : Port → Port) : (s.onPort n f).losses = s.losses := rfl
@[simp] theorem State.onPort_agenda (s : State) (n : Nat) (f : Port → Port) : (s.onPort n f).agenda = s.agenda := rfl
@[simp] theorem State.onPort_now (s : State) (n : Nat) (f : Port → Port) : (s.onPort n f).now = s.now := rfl
@[simp] theorem State.onPort_nextId (s : State) (n : Nat) (f : Port → Port) : (s.onPort n f).nextId = s.nextId := rfl
@[simp] theorem State.onPort_free (s : State) (n : Nat) (f : Port → Port) : (s.onPort n f).free = s.free := rfl
@[simp] theorem State.onPort_mem (s : State) (n : Nat) (f : Port → Port) : (s.onPort n f).mem = s.mem := rfl
@[simp] theorem State.onPort_poison (s : State) (n : Nat) (f : Port → Port) : (s.onPort n f).poison = s.poison := rfl
@[simp] theorem State.onPort_frameLab (s : State) (n : Nat) (f : Port → Port) : (s.onPort n f).frameLab = s.frameLab := rfl
@[simp] theorem State.onPort_teams (s : State) (n : Nat) (f : Port → Port) : (s.onPort n f).teams = s.teams := rfl
@[simp] theorem State.onPort_clusters (s : State) (n : Nat) (f : Port → Port) : (s.onPort n f).clusters = s.clusters := rfl
@[simp] theorem State.onPort_cores (s : State) (n : Nat) (f : Port → Port) : (s.onPort n f).cores = s.cores := rfl
@[simp] theorem State.onPort_dies (s : State) (n : Nat) (f : Port → Port) : (s.onPort n f).dies = s.dies := rfl
@[simp] theorem State.onPort_accesses (s : State) (n : Nat) (f : Port → Port) : (s.onPort n f).accesses = s.accesses := rfl
@[simp] theorem State.onPort_remote (s : State) (n : Nat) (f : Port → Port) : (s.onPort n f).remote = s.remote := rfl
@[simp] theorem State.onPort_updates (s : State) (n : Nat) (f : Port → Port) : (s.onPort n f).updates = s.updates := rfl
@[simp] theorem State.onPort_echoes (s : State) (n : Nat) (f : Port → Port) : (s.onPort n f).echoes = s.echoes := rfl
@[simp] theorem State.onPort_late (s : State) (n : Nat) (f : Port → Port) : (s.onPort n f).late = s.late := rfl
@[simp] theorem State.onPort_launches (s : State) (n : Nat) (f : Port → Port) : (s.onPort n f).launches = s.launches := rfl
@[simp] theorem State.onPort_reserved (s : State) (n : Nat) (f : Port → Port) : (s.onPort n f).reserved = s.reserved := rfl
@[simp] theorem State.onPort_contexts (s : State) (n : Nat) (f : Port → Port) : (s.onPort n f).contexts = s.contexts := rfl
@[simp] theorem State.onPort_vfs (s : State) (n : Nat) (f : Port → Port) : (s.onPort n f).vfs = s.vfs := rfl
@[simp] theorem State.onPort_origins (s : State) (n : Nat) (f : Port → Port) : (s.onPort n f).origins = s.origins := rfl
@[simp] theorem State.onPort_policies (s : State) (n : Nat) (f : Port → Port) : (s.onPort n f).policies = s.policies := rfl
@[simp] theorem State.onPort_records (s : State) (n : Nat) (f : Port → Port) : (s.onPort n f).records = s.records := rfl
@[simp] theorem State.onPort_nextRecord (s : State) (n : Nat) (f : Port → Port) : (s.onPort n f).nextRecord = s.nextRecord := rfl
@[simp] theorem State.onPort_budgets (s : State) (n : Nat) (f : Port → Port) : (s.onPort n f).budgets = s.budgets := rfl
@[simp] theorem State.onPort_spdm (s : State) (n : Nat) (f : Port → Port) : (s.onPort n f).spdm = s.spdm := rfl
@[simp] theorem State.onPort_hostMem (s : State) (n : Nat) (f : Port → Port) : (s.onPort n f).hostMem = s.hostMem := rfl
@[simp] theorem State.onPort_hostHalves (s : State) (n : Nat) (f : Port → Port) : (s.onPort n f).hostHalves = s.hostHalves := rfl
@[simp] theorem State.onPort_hostData (s : State) (n : Nat) (f : Port → Port) : (s.onPort n f).hostData = s.hostData := rfl
@[simp] theorem State.onPort_hostBy (s : State) (n : Nat) (f : Port → Port) : (s.onPort n f).hostBy = s.hostBy := rfl
@[simp] theorem State.onPort_hostFail (s : State) (n : Nat) (f : Port → Port) : (s.onPort n f).hostFail = s.hostFail := rfl
@[simp] theorem State.onPort_bias (s : State) (n : Nat) (f : Port → Port) : (s.onPort n f).bias = s.bias := rfl
@[simp] theorem State.onPort_halves (s : State) (n : Nat) (f : Port → Port) : (s.onPort n f).halves = s.halves := rfl
@[simp] theorem State.onPort_backInv (s : State) (n : Nat) (f : Port → Port) : (s.onPort n f).backInv = s.backInv := rfl
@[simp] theorem State.onPort_flips (s : State) (n : Nat) (f : Port → Port) : (s.onPort n f).flips = s.flips := rfl
@[simp] theorem State.onPort_invals (s : State) (n : Nat) (f : Port → Port) : (s.onPort n f).invals = s.invals := rfl
@[simp] theorem State.onPort_deferred (s : State) (n : Nat) (f : Port → Port) : (s.onPort n f).deferred = s.deferred := rfl
@[simp] theorem State.onPort_fabric (s : State) (n : Nat) (f : Port → Port) : (s.onPort n f).fabric = s.fabric := rfl
@[simp] theorem State.onPort_power (s : State) (n : Nat) (f : Port → Port) : (s.onPort n f).power = s.power := rfl
@[simp] theorem State.onPort_out (s : State) (n : Nat) (f : Port → Port) : (s.onPort n f).out = s.out := rfl
@[simp] theorem State.onPort_team (s : State) (n : Nat) (f : Port → Port) (j : Nat) : (s.onPort n f).team j = s.team j := rfl
@[simp] theorem State.onPort_core (s : State) (n : Nat) (f : Port → Port) (j : Nat) : (s.onPort n f).core j = s.core j := rfl
@[simp] theorem State.onPort_die (s : State) (n : Nat) (f : Port → Port) (j : Nat) : (s.onPort n f).die j = s.die j := rfl
@[simp] theorem State.onPort_launch (s : State) (n : Nat) (f : Port → Port) (j : Nat) : (s.onPort n f).launch j = s.launch j := rfl
@[simp] theorem State.onPort_context (s : State) (n : Nat) (f : Port → Port) (j : Nat) : (s.onPort n f).context j = s.context j := rfl
@[simp] theorem State.onPort_vf (s : State) (n : Nat) (f : Port → Port) (j : Nat) : (s.onPort n f).vf j = s.vf j := rfl
@[simp] theorem State.onPort_origin (s : State) (n : Nat) (f : Port → Port) (j : Nat) : (s.onPort n f).origin j = s.origin j := rfl

/-! ## onVf -/

@[simp] theorem State.onVf_cycle (s : State) (n : Nat) (f : Vf → Vf) : (s.onVf n f).cycle = s.cycle := rfl
@[simp] theorem State.onVf_issues (s : State) (n : Nat) (f : Vf → Vf) : (s.onVf n f).issues = s.issues := rfl
@[simp] theorem State.onVf_losses (s : State) (n : Nat) (f : Vf → Vf) : (s.onVf n f).losses = s.losses := rfl
@[simp] theorem State.onVf_agenda (s : State) (n : Nat) (f : Vf → Vf) : (s.onVf n f).agenda = s.agenda := rfl
@[simp] theorem State.onVf_now (s : State) (n : Nat) (f : Vf → Vf) : (s.onVf n f).now = s.now := rfl
@[simp] theorem State.onVf_nextId (s : State) (n : Nat) (f : Vf → Vf) : (s.onVf n f).nextId = s.nextId := rfl
@[simp] theorem State.onVf_free (s : State) (n : Nat) (f : Vf → Vf) : (s.onVf n f).free = s.free := rfl
@[simp] theorem State.onVf_mem (s : State) (n : Nat) (f : Vf → Vf) : (s.onVf n f).mem = s.mem := rfl
@[simp] theorem State.onVf_poison (s : State) (n : Nat) (f : Vf → Vf) : (s.onVf n f).poison = s.poison := rfl
@[simp] theorem State.onVf_frameLab (s : State) (n : Nat) (f : Vf → Vf) : (s.onVf n f).frameLab = s.frameLab := rfl
@[simp] theorem State.onVf_teams (s : State) (n : Nat) (f : Vf → Vf) : (s.onVf n f).teams = s.teams := rfl
@[simp] theorem State.onVf_clusters (s : State) (n : Nat) (f : Vf → Vf) : (s.onVf n f).clusters = s.clusters := rfl
@[simp] theorem State.onVf_cores (s : State) (n : Nat) (f : Vf → Vf) : (s.onVf n f).cores = s.cores := rfl
@[simp] theorem State.onVf_dies (s : State) (n : Nat) (f : Vf → Vf) : (s.onVf n f).dies = s.dies := rfl
@[simp] theorem State.onVf_accesses (s : State) (n : Nat) (f : Vf → Vf) : (s.onVf n f).accesses = s.accesses := rfl
@[simp] theorem State.onVf_remote (s : State) (n : Nat) (f : Vf → Vf) : (s.onVf n f).remote = s.remote := rfl
@[simp] theorem State.onVf_updates (s : State) (n : Nat) (f : Vf → Vf) : (s.onVf n f).updates = s.updates := rfl
@[simp] theorem State.onVf_echoes (s : State) (n : Nat) (f : Vf → Vf) : (s.onVf n f).echoes = s.echoes := rfl
@[simp] theorem State.onVf_late (s : State) (n : Nat) (f : Vf → Vf) : (s.onVf n f).late = s.late := rfl
@[simp] theorem State.onVf_launches (s : State) (n : Nat) (f : Vf → Vf) : (s.onVf n f).launches = s.launches := rfl
@[simp] theorem State.onVf_reserved (s : State) (n : Nat) (f : Vf → Vf) : (s.onVf n f).reserved = s.reserved := rfl
@[simp] theorem State.onVf_contexts (s : State) (n : Nat) (f : Vf → Vf) : (s.onVf n f).contexts = s.contexts := rfl
@[simp] theorem State.onVf_ports (s : State) (n : Nat) (f : Vf → Vf) : (s.onVf n f).ports = s.ports := rfl
@[simp] theorem State.onVf_origins (s : State) (n : Nat) (f : Vf → Vf) : (s.onVf n f).origins = s.origins := rfl
@[simp] theorem State.onVf_policies (s : State) (n : Nat) (f : Vf → Vf) : (s.onVf n f).policies = s.policies := rfl
@[simp] theorem State.onVf_records (s : State) (n : Nat) (f : Vf → Vf) : (s.onVf n f).records = s.records := rfl
@[simp] theorem State.onVf_nextRecord (s : State) (n : Nat) (f : Vf → Vf) : (s.onVf n f).nextRecord = s.nextRecord := rfl
@[simp] theorem State.onVf_budgets (s : State) (n : Nat) (f : Vf → Vf) : (s.onVf n f).budgets = s.budgets := rfl
@[simp] theorem State.onVf_spdm (s : State) (n : Nat) (f : Vf → Vf) : (s.onVf n f).spdm = s.spdm := rfl
@[simp] theorem State.onVf_hostMem (s : State) (n : Nat) (f : Vf → Vf) : (s.onVf n f).hostMem = s.hostMem := rfl
@[simp] theorem State.onVf_hostHalves (s : State) (n : Nat) (f : Vf → Vf) : (s.onVf n f).hostHalves = s.hostHalves := rfl
@[simp] theorem State.onVf_hostData (s : State) (n : Nat) (f : Vf → Vf) : (s.onVf n f).hostData = s.hostData := rfl
@[simp] theorem State.onVf_hostBy (s : State) (n : Nat) (f : Vf → Vf) : (s.onVf n f).hostBy = s.hostBy := rfl
@[simp] theorem State.onVf_hostFail (s : State) (n : Nat) (f : Vf → Vf) : (s.onVf n f).hostFail = s.hostFail := rfl
@[simp] theorem State.onVf_bias (s : State) (n : Nat) (f : Vf → Vf) : (s.onVf n f).bias = s.bias := rfl
@[simp] theorem State.onVf_halves (s : State) (n : Nat) (f : Vf → Vf) : (s.onVf n f).halves = s.halves := rfl
@[simp] theorem State.onVf_backInv (s : State) (n : Nat) (f : Vf → Vf) : (s.onVf n f).backInv = s.backInv := rfl
@[simp] theorem State.onVf_flips (s : State) (n : Nat) (f : Vf → Vf) : (s.onVf n f).flips = s.flips := rfl
@[simp] theorem State.onVf_invals (s : State) (n : Nat) (f : Vf → Vf) : (s.onVf n f).invals = s.invals := rfl
@[simp] theorem State.onVf_deferred (s : State) (n : Nat) (f : Vf → Vf) : (s.onVf n f).deferred = s.deferred := rfl
@[simp] theorem State.onVf_fabric (s : State) (n : Nat) (f : Vf → Vf) : (s.onVf n f).fabric = s.fabric := rfl
@[simp] theorem State.onVf_power (s : State) (n : Nat) (f : Vf → Vf) : (s.onVf n f).power = s.power := rfl
@[simp] theorem State.onVf_out (s : State) (n : Nat) (f : Vf → Vf) : (s.onVf n f).out = s.out := rfl
@[simp] theorem State.onVf_team (s : State) (n : Nat) (f : Vf → Vf) (j : Nat) : (s.onVf n f).team j = s.team j := rfl
@[simp] theorem State.onVf_core (s : State) (n : Nat) (f : Vf → Vf) (j : Nat) : (s.onVf n f).core j = s.core j := rfl
@[simp] theorem State.onVf_die (s : State) (n : Nat) (f : Vf → Vf) (j : Nat) : (s.onVf n f).die j = s.die j := rfl
@[simp] theorem State.onVf_launch (s : State) (n : Nat) (f : Vf → Vf) (j : Nat) : (s.onVf n f).launch j = s.launch j := rfl
@[simp] theorem State.onVf_context (s : State) (n : Nat) (f : Vf → Vf) (j : Nat) : (s.onVf n f).context j = s.context j := rfl
@[simp] theorem State.onVf_port (s : State) (n : Nat) (f : Vf → Vf) (j : Nat) : (s.onVf n f).port j = s.port j := rfl
@[simp] theorem State.onVf_origin (s : State) (n : Nat) (f : Vf → Vf) (j : Nat) : (s.onVf n f).origin j = s.origin j := rfl

/-! ## onOrigin -/

@[simp] theorem State.onOrigin_cycle (s : State) (n : Nat) (f : Origin → Origin) : (s.onOrigin n f).cycle = s.cycle := rfl
@[simp] theorem State.onOrigin_issues (s : State) (n : Nat) (f : Origin → Origin) : (s.onOrigin n f).issues = s.issues := rfl
@[simp] theorem State.onOrigin_losses (s : State) (n : Nat) (f : Origin → Origin) : (s.onOrigin n f).losses = s.losses := rfl
@[simp] theorem State.onOrigin_agenda (s : State) (n : Nat) (f : Origin → Origin) : (s.onOrigin n f).agenda = s.agenda := rfl
@[simp] theorem State.onOrigin_now (s : State) (n : Nat) (f : Origin → Origin) : (s.onOrigin n f).now = s.now := rfl
@[simp] theorem State.onOrigin_nextId (s : State) (n : Nat) (f : Origin → Origin) : (s.onOrigin n f).nextId = s.nextId := rfl
@[simp] theorem State.onOrigin_free (s : State) (n : Nat) (f : Origin → Origin) : (s.onOrigin n f).free = s.free := rfl
@[simp] theorem State.onOrigin_mem (s : State) (n : Nat) (f : Origin → Origin) : (s.onOrigin n f).mem = s.mem := rfl
@[simp] theorem State.onOrigin_poison (s : State) (n : Nat) (f : Origin → Origin) : (s.onOrigin n f).poison = s.poison := rfl
@[simp] theorem State.onOrigin_frameLab (s : State) (n : Nat) (f : Origin → Origin) : (s.onOrigin n f).frameLab = s.frameLab := rfl
@[simp] theorem State.onOrigin_teams (s : State) (n : Nat) (f : Origin → Origin) : (s.onOrigin n f).teams = s.teams := rfl
@[simp] theorem State.onOrigin_clusters (s : State) (n : Nat) (f : Origin → Origin) : (s.onOrigin n f).clusters = s.clusters := rfl
@[simp] theorem State.onOrigin_cores (s : State) (n : Nat) (f : Origin → Origin) : (s.onOrigin n f).cores = s.cores := rfl
@[simp] theorem State.onOrigin_dies (s : State) (n : Nat) (f : Origin → Origin) : (s.onOrigin n f).dies = s.dies := rfl
@[simp] theorem State.onOrigin_accesses (s : State) (n : Nat) (f : Origin → Origin) : (s.onOrigin n f).accesses = s.accesses := rfl
@[simp] theorem State.onOrigin_remote (s : State) (n : Nat) (f : Origin → Origin) : (s.onOrigin n f).remote = s.remote := rfl
@[simp] theorem State.onOrigin_updates (s : State) (n : Nat) (f : Origin → Origin) : (s.onOrigin n f).updates = s.updates := rfl
@[simp] theorem State.onOrigin_echoes (s : State) (n : Nat) (f : Origin → Origin) : (s.onOrigin n f).echoes = s.echoes := rfl
@[simp] theorem State.onOrigin_late (s : State) (n : Nat) (f : Origin → Origin) : (s.onOrigin n f).late = s.late := rfl
@[simp] theorem State.onOrigin_launches (s : State) (n : Nat) (f : Origin → Origin) : (s.onOrigin n f).launches = s.launches := rfl
@[simp] theorem State.onOrigin_reserved (s : State) (n : Nat) (f : Origin → Origin) : (s.onOrigin n f).reserved = s.reserved := rfl
@[simp] theorem State.onOrigin_contexts (s : State) (n : Nat) (f : Origin → Origin) : (s.onOrigin n f).contexts = s.contexts := rfl
@[simp] theorem State.onOrigin_ports (s : State) (n : Nat) (f : Origin → Origin) : (s.onOrigin n f).ports = s.ports := rfl
@[simp] theorem State.onOrigin_vfs (s : State) (n : Nat) (f : Origin → Origin) : (s.onOrigin n f).vfs = s.vfs := rfl
@[simp] theorem State.onOrigin_policies (s : State) (n : Nat) (f : Origin → Origin) : (s.onOrigin n f).policies = s.policies := rfl
@[simp] theorem State.onOrigin_records (s : State) (n : Nat) (f : Origin → Origin) : (s.onOrigin n f).records = s.records := rfl
@[simp] theorem State.onOrigin_nextRecord (s : State) (n : Nat) (f : Origin → Origin) : (s.onOrigin n f).nextRecord = s.nextRecord := rfl
@[simp] theorem State.onOrigin_budgets (s : State) (n : Nat) (f : Origin → Origin) : (s.onOrigin n f).budgets = s.budgets := rfl
@[simp] theorem State.onOrigin_spdm (s : State) (n : Nat) (f : Origin → Origin) : (s.onOrigin n f).spdm = s.spdm := rfl
@[simp] theorem State.onOrigin_hostMem (s : State) (n : Nat) (f : Origin → Origin) : (s.onOrigin n f).hostMem = s.hostMem := rfl
@[simp] theorem State.onOrigin_hostHalves (s : State) (n : Nat) (f : Origin → Origin) : (s.onOrigin n f).hostHalves = s.hostHalves := rfl
@[simp] theorem State.onOrigin_hostData (s : State) (n : Nat) (f : Origin → Origin) : (s.onOrigin n f).hostData = s.hostData := rfl
@[simp] theorem State.onOrigin_hostBy (s : State) (n : Nat) (f : Origin → Origin) : (s.onOrigin n f).hostBy = s.hostBy := rfl
@[simp] theorem State.onOrigin_hostFail (s : State) (n : Nat) (f : Origin → Origin) : (s.onOrigin n f).hostFail = s.hostFail := rfl
@[simp] theorem State.onOrigin_bias (s : State) (n : Nat) (f : Origin → Origin) : (s.onOrigin n f).bias = s.bias := rfl
@[simp] theorem State.onOrigin_halves (s : State) (n : Nat) (f : Origin → Origin) : (s.onOrigin n f).halves = s.halves := rfl
@[simp] theorem State.onOrigin_backInv (s : State) (n : Nat) (f : Origin → Origin) : (s.onOrigin n f).backInv = s.backInv := rfl
@[simp] theorem State.onOrigin_flips (s : State) (n : Nat) (f : Origin → Origin) : (s.onOrigin n f).flips = s.flips := rfl
@[simp] theorem State.onOrigin_invals (s : State) (n : Nat) (f : Origin → Origin) : (s.onOrigin n f).invals = s.invals := rfl
@[simp] theorem State.onOrigin_deferred (s : State) (n : Nat) (f : Origin → Origin) : (s.onOrigin n f).deferred = s.deferred := rfl
@[simp] theorem State.onOrigin_fabric (s : State) (n : Nat) (f : Origin → Origin) : (s.onOrigin n f).fabric = s.fabric := rfl
@[simp] theorem State.onOrigin_power (s : State) (n : Nat) (f : Origin → Origin) : (s.onOrigin n f).power = s.power := rfl
@[simp] theorem State.onOrigin_out (s : State) (n : Nat) (f : Origin → Origin) : (s.onOrigin n f).out = s.out := rfl
@[simp] theorem State.onOrigin_team (s : State) (n : Nat) (f : Origin → Origin) (j : Nat) : (s.onOrigin n f).team j = s.team j := rfl
@[simp] theorem State.onOrigin_core (s : State) (n : Nat) (f : Origin → Origin) (j : Nat) : (s.onOrigin n f).core j = s.core j := rfl
@[simp] theorem State.onOrigin_die (s : State) (n : Nat) (f : Origin → Origin) (j : Nat) : (s.onOrigin n f).die j = s.die j := rfl
@[simp] theorem State.onOrigin_launch (s : State) (n : Nat) (f : Origin → Origin) (j : Nat) : (s.onOrigin n f).launch j = s.launch j := rfl
@[simp] theorem State.onOrigin_context (s : State) (n : Nat) (f : Origin → Origin) (j : Nat) : (s.onOrigin n f).context j = s.context j := rfl
@[simp] theorem State.onOrigin_port (s : State) (n : Nat) (f : Origin → Origin) (j : Nat) : (s.onOrigin n f).port j = s.port j := rfl
@[simp] theorem State.onOrigin_vf (s : State) (n : Nat) (f : Origin → Origin) (j : Nat) : (s.onOrigin n f).vf j = s.vf j := rfl

/-! ## onGroup -/

@[simp] theorem State.onGroup_cycle (s : State) (n : Nat) (f : Group → Group) : (s.onGroup n f).cycle = s.cycle := rfl
@[simp] theorem State.onGroup_issues (s : State) (n : Nat) (f : Group → Group) : (s.onGroup n f).issues = s.issues := rfl
@[simp] theorem State.onGroup_losses (s : State) (n : Nat) (f : Group → Group) : (s.onGroup n f).losses = s.losses := rfl
@[simp] theorem State.onGroup_agenda (s : State) (n : Nat) (f : Group → Group) : (s.onGroup n f).agenda = s.agenda := rfl
@[simp] theorem State.onGroup_now (s : State) (n : Nat) (f : Group → Group) : (s.onGroup n f).now = s.now := rfl
@[simp] theorem State.onGroup_nextId (s : State) (n : Nat) (f : Group → Group) : (s.onGroup n f).nextId = s.nextId := rfl
@[simp] theorem State.onGroup_free (s : State) (n : Nat) (f : Group → Group) : (s.onGroup n f).free = s.free := rfl
@[simp] theorem State.onGroup_mem (s : State) (n : Nat) (f : Group → Group) : (s.onGroup n f).mem = s.mem := rfl
@[simp] theorem State.onGroup_poison (s : State) (n : Nat) (f : Group → Group) : (s.onGroup n f).poison = s.poison := rfl
@[simp] theorem State.onGroup_frameLab (s : State) (n : Nat) (f : Group → Group) : (s.onGroup n f).frameLab = s.frameLab := rfl
@[simp] theorem State.onGroup_teams (s : State) (n : Nat) (f : Group → Group) : (s.onGroup n f).teams = s.teams := rfl
@[simp] theorem State.onGroup_clusters (s : State) (n : Nat) (f : Group → Group) : (s.onGroup n f).clusters = s.clusters := rfl
@[simp] theorem State.onGroup_cores (s : State) (n : Nat) (f : Group → Group) : (s.onGroup n f).cores = s.cores := rfl
@[simp] theorem State.onGroup_dies (s : State) (n : Nat) (f : Group → Group) : (s.onGroup n f).dies = s.dies := rfl
@[simp] theorem State.onGroup_accesses (s : State) (n : Nat) (f : Group → Group) : (s.onGroup n f).accesses = s.accesses := rfl
@[simp] theorem State.onGroup_remote (s : State) (n : Nat) (f : Group → Group) : (s.onGroup n f).remote = s.remote := rfl
@[simp] theorem State.onGroup_updates (s : State) (n : Nat) (f : Group → Group) : (s.onGroup n f).updates = s.updates := rfl
@[simp] theorem State.onGroup_echoes (s : State) (n : Nat) (f : Group → Group) : (s.onGroup n f).echoes = s.echoes := rfl
@[simp] theorem State.onGroup_late (s : State) (n : Nat) (f : Group → Group) : (s.onGroup n f).late = s.late := rfl
@[simp] theorem State.onGroup_launches (s : State) (n : Nat) (f : Group → Group) : (s.onGroup n f).launches = s.launches := rfl
@[simp] theorem State.onGroup_reserved (s : State) (n : Nat) (f : Group → Group) : (s.onGroup n f).reserved = s.reserved := rfl
@[simp] theorem State.onGroup_contexts (s : State) (n : Nat) (f : Group → Group) : (s.onGroup n f).contexts = s.contexts := rfl
@[simp] theorem State.onGroup_ports (s : State) (n : Nat) (f : Group → Group) : (s.onGroup n f).ports = s.ports := rfl
@[simp] theorem State.onGroup_vfs (s : State) (n : Nat) (f : Group → Group) : (s.onGroup n f).vfs = s.vfs := rfl
@[simp] theorem State.onGroup_origins (s : State) (n : Nat) (f : Group → Group) : (s.onGroup n f).origins = s.origins := rfl
@[simp] theorem State.onGroup_policies (s : State) (n : Nat) (f : Group → Group) : (s.onGroup n f).policies = s.policies := rfl
@[simp] theorem State.onGroup_records (s : State) (n : Nat) (f : Group → Group) : (s.onGroup n f).records = s.records := rfl
@[simp] theorem State.onGroup_nextRecord (s : State) (n : Nat) (f : Group → Group) : (s.onGroup n f).nextRecord = s.nextRecord := rfl
@[simp] theorem State.onGroup_budgets (s : State) (n : Nat) (f : Group → Group) : (s.onGroup n f).budgets = s.budgets := rfl
@[simp] theorem State.onGroup_spdm (s : State) (n : Nat) (f : Group → Group) : (s.onGroup n f).spdm = s.spdm := rfl
@[simp] theorem State.onGroup_hostMem (s : State) (n : Nat) (f : Group → Group) : (s.onGroup n f).hostMem = s.hostMem := rfl
@[simp] theorem State.onGroup_hostHalves (s : State) (n : Nat) (f : Group → Group) : (s.onGroup n f).hostHalves = s.hostHalves := rfl
@[simp] theorem State.onGroup_hostData (s : State) (n : Nat) (f : Group → Group) : (s.onGroup n f).hostData = s.hostData := rfl
@[simp] theorem State.onGroup_hostBy (s : State) (n : Nat) (f : Group → Group) : (s.onGroup n f).hostBy = s.hostBy := rfl
@[simp] theorem State.onGroup_hostFail (s : State) (n : Nat) (f : Group → Group) : (s.onGroup n f).hostFail = s.hostFail := rfl
@[simp] theorem State.onGroup_bias (s : State) (n : Nat) (f : Group → Group) : (s.onGroup n f).bias = s.bias := rfl
@[simp] theorem State.onGroup_halves (s : State) (n : Nat) (f : Group → Group) : (s.onGroup n f).halves = s.halves := rfl
@[simp] theorem State.onGroup_backInv (s : State) (n : Nat) (f : Group → Group) : (s.onGroup n f).backInv = s.backInv := rfl
@[simp] theorem State.onGroup_flips (s : State) (n : Nat) (f : Group → Group) : (s.onGroup n f).flips = s.flips := rfl
@[simp] theorem State.onGroup_invals (s : State) (n : Nat) (f : Group → Group) : (s.onGroup n f).invals = s.invals := rfl
@[simp] theorem State.onGroup_deferred (s : State) (n : Nat) (f : Group → Group) : (s.onGroup n f).deferred = s.deferred := rfl
@[simp] theorem State.onGroup_power (s : State) (n : Nat) (f : Group → Group) : (s.onGroup n f).power = s.power := rfl
@[simp] theorem State.onGroup_out (s : State) (n : Nat) (f : Group → Group) : (s.onGroup n f).out = s.out := rfl
@[simp] theorem State.onGroup_team (s : State) (n : Nat) (f : Group → Group) (j : Nat) : (s.onGroup n f).team j = s.team j := rfl
@[simp] theorem State.onGroup_core (s : State) (n : Nat) (f : Group → Group) (j : Nat) : (s.onGroup n f).core j = s.core j := rfl
@[simp] theorem State.onGroup_die (s : State) (n : Nat) (f : Group → Group) (j : Nat) : (s.onGroup n f).die j = s.die j := rfl
@[simp] theorem State.onGroup_launch (s : State) (n : Nat) (f : Group → Group) (j : Nat) : (s.onGroup n f).launch j = s.launch j := rfl
@[simp] theorem State.onGroup_context (s : State) (n : Nat) (f : Group → Group) (j : Nat) : (s.onGroup n f).context j = s.context j := rfl
@[simp] theorem State.onGroup_port (s : State) (n : Nat) (f : Group → Group) (j : Nat) : (s.onGroup n f).port j = s.port j := rfl
@[simp] theorem State.onGroup_vf (s : State) (n : Nat) (f : Group → Group) (j : Nat) : (s.onGroup n f).vf j = s.vf j := rfl
@[simp] theorem State.onGroup_origin (s : State) (n : Nat) (f : Group → Group) (j : Nat) : (s.onGroup n f).origin j = s.origin j := rfl

/-! ## send -/

@[simp] theorem State.send_cycle (s : State) (o : Out) : (s.send o).cycle = s.cycle := rfl
@[simp] theorem State.send_issues (s : State) (o : Out) : (s.send o).issues = s.issues := rfl
@[simp] theorem State.send_losses (s : State) (o : Out) : (s.send o).losses = s.losses := rfl
@[simp] theorem State.send_agenda (s : State) (o : Out) : (s.send o).agenda = s.agenda := rfl
@[simp] theorem State.send_now (s : State) (o : Out) : (s.send o).now = s.now := rfl
@[simp] theorem State.send_nextId (s : State) (o : Out) : (s.send o).nextId = s.nextId := rfl
@[simp] theorem State.send_free (s : State) (o : Out) : (s.send o).free = s.free := rfl
@[simp] theorem State.send_mem (s : State) (o : Out) : (s.send o).mem = s.mem := rfl
@[simp] theorem State.send_poison (s : State) (o : Out) : (s.send o).poison = s.poison := rfl
@[simp] theorem State.send_frameLab (s : State) (o : Out) : (s.send o).frameLab = s.frameLab := rfl
@[simp] theorem State.send_teams (s : State) (o : Out) : (s.send o).teams = s.teams := rfl
@[simp] theorem State.send_clusters (s : State) (o : Out) : (s.send o).clusters = s.clusters := rfl
@[simp] theorem State.send_cores (s : State) (o : Out) : (s.send o).cores = s.cores := rfl
@[simp] theorem State.send_dies (s : State) (o : Out) : (s.send o).dies = s.dies := rfl
@[simp] theorem State.send_accesses (s : State) (o : Out) : (s.send o).accesses = s.accesses := rfl
@[simp] theorem State.send_remote (s : State) (o : Out) : (s.send o).remote = s.remote := rfl
@[simp] theorem State.send_updates (s : State) (o : Out) : (s.send o).updates = s.updates := rfl
@[simp] theorem State.send_echoes (s : State) (o : Out) : (s.send o).echoes = s.echoes := rfl
@[simp] theorem State.send_late (s : State) (o : Out) : (s.send o).late = s.late := rfl
@[simp] theorem State.send_launches (s : State) (o : Out) : (s.send o).launches = s.launches := rfl
@[simp] theorem State.send_reserved (s : State) (o : Out) : (s.send o).reserved = s.reserved := rfl
@[simp] theorem State.send_contexts (s : State) (o : Out) : (s.send o).contexts = s.contexts := rfl
@[simp] theorem State.send_ports (s : State) (o : Out) : (s.send o).ports = s.ports := rfl
@[simp] theorem State.send_vfs (s : State) (o : Out) : (s.send o).vfs = s.vfs := rfl
@[simp] theorem State.send_origins (s : State) (o : Out) : (s.send o).origins = s.origins := rfl
@[simp] theorem State.send_policies (s : State) (o : Out) : (s.send o).policies = s.policies := rfl
@[simp] theorem State.send_records (s : State) (o : Out) : (s.send o).records = s.records := rfl
@[simp] theorem State.send_nextRecord (s : State) (o : Out) : (s.send o).nextRecord = s.nextRecord := rfl
@[simp] theorem State.send_budgets (s : State) (o : Out) : (s.send o).budgets = s.budgets := rfl
@[simp] theorem State.send_spdm (s : State) (o : Out) : (s.send o).spdm = s.spdm := rfl
@[simp] theorem State.send_hostMem (s : State) (o : Out) : (s.send o).hostMem = s.hostMem := rfl
@[simp] theorem State.send_hostHalves (s : State) (o : Out) : (s.send o).hostHalves = s.hostHalves := rfl
@[simp] theorem State.send_hostData (s : State) (o : Out) : (s.send o).hostData = s.hostData := rfl
@[simp] theorem State.send_hostBy (s : State) (o : Out) : (s.send o).hostBy = s.hostBy := rfl
@[simp] theorem State.send_hostFail (s : State) (o : Out) : (s.send o).hostFail = s.hostFail := rfl
@[simp] theorem State.send_bias (s : State) (o : Out) : (s.send o).bias = s.bias := rfl
@[simp] theorem State.send_halves (s : State) (o : Out) : (s.send o).halves = s.halves := rfl
@[simp] theorem State.send_backInv (s : State) (o : Out) : (s.send o).backInv = s.backInv := rfl
@[simp] theorem State.send_flips (s : State) (o : Out) : (s.send o).flips = s.flips := rfl
@[simp] theorem State.send_invals (s : State) (o : Out) : (s.send o).invals = s.invals := rfl
@[simp] theorem State.send_deferred (s : State) (o : Out) : (s.send o).deferred = s.deferred := rfl
@[simp] theorem State.send_fabric (s : State) (o : Out) : (s.send o).fabric = s.fabric := rfl
@[simp] theorem State.send_power (s : State) (o : Out) : (s.send o).power = s.power := rfl
@[simp] theorem State.send_team (s : State) (o : Out) (j : Nat) : (s.send o).team j = s.team j := rfl
@[simp] theorem State.send_core (s : State) (o : Out) (j : Nat) : (s.send o).core j = s.core j := rfl
@[simp] theorem State.send_die (s : State) (o : Out) (j : Nat) : (s.send o).die j = s.die j := rfl
@[simp] theorem State.send_launch (s : State) (o : Out) (j : Nat) : (s.send o).launch j = s.launch j := rfl
@[simp] theorem State.send_context (s : State) (o : Out) (j : Nat) : (s.send o).context j = s.context j := rfl
@[simp] theorem State.send_port (s : State) (o : Out) (j : Nat) : (s.send o).port j = s.port j := rfl
@[simp] theorem State.send_vf (s : State) (o : Out) (j : Nat) : (s.send o).vf j = s.vf j := rfl
@[simp] theorem State.send_origin (s : State) (o : Out) (j : Nat) : (s.send o).origin j = s.origin j := rfl

/-! ## fresh -/

@[simp] theorem State.fresh_cycle (s : State) : (s.fresh).cycle = s.cycle := rfl
@[simp] theorem State.fresh_issues (s : State) : (s.fresh).issues = s.issues := rfl
@[simp] theorem State.fresh_losses (s : State) : (s.fresh).losses = s.losses := rfl
@[simp] theorem State.fresh_agenda (s : State) : (s.fresh).agenda = s.agenda := rfl
@[simp] theorem State.fresh_now (s : State) : (s.fresh).now = s.now := rfl
@[simp] theorem State.fresh_free (s : State) : (s.fresh).free = s.free := rfl
@[simp] theorem State.fresh_mem (s : State) : (s.fresh).mem = s.mem := rfl
@[simp] theorem State.fresh_poison (s : State) : (s.fresh).poison = s.poison := rfl
@[simp] theorem State.fresh_frameLab (s : State) : (s.fresh).frameLab = s.frameLab := rfl
@[simp] theorem State.fresh_teams (s : State) : (s.fresh).teams = s.teams := rfl
@[simp] theorem State.fresh_clusters (s : State) : (s.fresh).clusters = s.clusters := rfl
@[simp] theorem State.fresh_cores (s : State) : (s.fresh).cores = s.cores := rfl
@[simp] theorem State.fresh_dies (s : State) : (s.fresh).dies = s.dies := rfl
@[simp] theorem State.fresh_accesses (s : State) : (s.fresh).accesses = s.accesses := rfl
@[simp] theorem State.fresh_remote (s : State) : (s.fresh).remote = s.remote := rfl
@[simp] theorem State.fresh_updates (s : State) : (s.fresh).updates = s.updates := rfl
@[simp] theorem State.fresh_echoes (s : State) : (s.fresh).echoes = s.echoes := rfl
@[simp] theorem State.fresh_late (s : State) : (s.fresh).late = s.late := rfl
@[simp] theorem State.fresh_launches (s : State) : (s.fresh).launches = s.launches := rfl
@[simp] theorem State.fresh_reserved (s : State) : (s.fresh).reserved = s.reserved := rfl
@[simp] theorem State.fresh_contexts (s : State) : (s.fresh).contexts = s.contexts := rfl
@[simp] theorem State.fresh_ports (s : State) : (s.fresh).ports = s.ports := rfl
@[simp] theorem State.fresh_vfs (s : State) : (s.fresh).vfs = s.vfs := rfl
@[simp] theorem State.fresh_origins (s : State) : (s.fresh).origins = s.origins := rfl
@[simp] theorem State.fresh_policies (s : State) : (s.fresh).policies = s.policies := rfl
@[simp] theorem State.fresh_records (s : State) : (s.fresh).records = s.records := rfl
@[simp] theorem State.fresh_nextRecord (s : State) : (s.fresh).nextRecord = s.nextRecord := rfl
@[simp] theorem State.fresh_budgets (s : State) : (s.fresh).budgets = s.budgets := rfl
@[simp] theorem State.fresh_spdm (s : State) : (s.fresh).spdm = s.spdm := rfl
@[simp] theorem State.fresh_hostMem (s : State) : (s.fresh).hostMem = s.hostMem := rfl
@[simp] theorem State.fresh_hostHalves (s : State) : (s.fresh).hostHalves = s.hostHalves := rfl
@[simp] theorem State.fresh_hostData (s : State) : (s.fresh).hostData = s.hostData := rfl
@[simp] theorem State.fresh_hostBy (s : State) : (s.fresh).hostBy = s.hostBy := rfl
@[simp] theorem State.fresh_hostFail (s : State) : (s.fresh).hostFail = s.hostFail := rfl
@[simp] theorem State.fresh_bias (s : State) : (s.fresh).bias = s.bias := rfl
@[simp] theorem State.fresh_halves (s : State) : (s.fresh).halves = s.halves := rfl
@[simp] theorem State.fresh_backInv (s : State) : (s.fresh).backInv = s.backInv := rfl
@[simp] theorem State.fresh_flips (s : State) : (s.fresh).flips = s.flips := rfl
@[simp] theorem State.fresh_invals (s : State) : (s.fresh).invals = s.invals := rfl
@[simp] theorem State.fresh_deferred (s : State) : (s.fresh).deferred = s.deferred := rfl
@[simp] theorem State.fresh_fabric (s : State) : (s.fresh).fabric = s.fabric := rfl
@[simp] theorem State.fresh_power (s : State) : (s.fresh).power = s.power := rfl
@[simp] theorem State.fresh_out (s : State) : (s.fresh).out = s.out := rfl
@[simp] theorem State.fresh_team (s : State) (j : Nat) : (s.fresh).team j = s.team j := rfl
@[simp] theorem State.fresh_core (s : State) (j : Nat) : (s.fresh).core j = s.core j := rfl
@[simp] theorem State.fresh_die (s : State) (j : Nat) : (s.fresh).die j = s.die j := rfl
@[simp] theorem State.fresh_launch (s : State) (j : Nat) : (s.fresh).launch j = s.launch j := rfl
@[simp] theorem State.fresh_context (s : State) (j : Nat) : (s.fresh).context j = s.context j := rfl
@[simp] theorem State.fresh_port (s : State) (j : Nat) : (s.fresh).port j = s.port j := rfl
@[simp] theorem State.fresh_vf (s : State) (j : Nat) : (s.fresh).vf j = s.vf j := rfl
@[simp] theorem State.fresh_origin (s : State) (j : Nat) : (s.fresh).origin j = s.origin j := rfl

end Sys2Proof.Machine
end

