-- ==== Sys2Proof/Machine/Registers.lean ====
section
/-! DEFINITION. What the registers of the CXL.io memory BARs read: command ports and journals, fault-queue registers, release
records, save-frame, tenancy and budget blocks, origin slots (R187, R195, R366, R392, R409, R410, R420, R423, R427, R434).
A read changes nothing, so no turn is a read. -/

namespace Sys2Proof.Machine

/-! ## Codes -/

/-- Status codes (R190, R406). -/
def Status.code : Status → Nat
  | .ok => 0
  | .storeFull => 1
  | .headerInvalid => 2
  | .nbvUnsupported => 3
  | .badCommand => 4
  | .noContext => 5
  | .denied => 6
  | .headerFault => 7
  | .contextEnded => 8
  | .cancelled => 9
  | .journalFull => 10
  | .noResource => 11
  | .rolledBack => 12

/-- State codes of a journal entry (R196). -/
def JState.code : JState → Nat
  | .accepted => 0
  | .pending => 1
  | .running => 2
  | .completed => 3
  | .failed => 4
  | .cancelled => 5

/-- State codes of an origin slot (R427). -/
def OriginSt.code : OriginSt → Nat
  | .free => 0
  | .bound => 1
  | .unbinding => 2

/-! ## Entries of 64 bytes, as numbers -/

/-- Puts fields together, each as a bit position and a value. -/
def packed (fs : List (Nat × Nat)) : Nat := fs.foldl (fun n f => n + f.2 * 2 ^ f.1) 0

/-- A journal entry (R195, R406). -/
def JEntry.image (e : JEntry) : Nat :=
  packed [(0, e.seq), (64, e.time), (128, e.type), (136, e.st.code), (144, e.status.code),
    (152, e.device.toNat + 2 * e.notice.toNat + 4 * e.reissued.toNat), (160, e.tag), (192, e.ctx), (224, e.detail % 2 ^ 32),
    (256, e.operands.toNat)]

/-- A release record (R434). -/
def RelRecord.image (r : RelRecord) : Nat :=
  packed [(0, r.n), (64, r.time), (128, r.policy), (160, r.set.toNat), (176, r.dest), (192, r.vf), (200, r.ctx),
    (256, r.base.toNat), (320, r.len.toNat), (384, r.total)]

/-! ## Registers of 8 bytes -/

/-- CMDSTAT (R187). -/
def Port.stat (p : Port) : Nat := packed [(32, p.tag), (16, p.status.code), (0, p.count)]

/-- The journal window of a port: the 8 bytes at an offset (R195). -/
def State.journalWindow (s : State) (port off : Nat) : Nat :=
  let p := s.port port
  match p.journal.find? (fun e => decide (e.seq % 65536 = off / 64)) with
  | some e => e.image >>> (8 * (off % 64)) % 2 ^ 64
  | none => 0

/-- FQTAIL and FQOPEN of context c of a VF (R420). -/
def State.faultRegs (s : State) (vf off : Nat) : Nat :=
  match s.ctxKey vf (off / 16) with
  | none => 0
  | some k =>
    let c := s.context k
    let open_ := (c.entries.filter (fun e => e.kind != 0x20)).foldl (fun n e => min n e.seq) c.fqNext
    if off % 16 = 0 then c.fqNext else open_

/-- The release record window of a VF: a record shows when the VF's origin is in its set or is its destination (R434). -/
def State.recordWindow (s : State) (vf off : Nat) : Nat :=
  let mine (r : RelRecord) : Bool := (s.vf vf).ovalid && (r.set.getLsbD (s.vf vf).origin || r.dest == (s.vf vf).origin)
  match s.records.reverse.find? (fun r => decide (r.n % 65536 = off / 64)) with
  | some r => if mine r then r.image >>> (8 * (off % 64)) % 2 ^ 64 else 0
  | none => 0

/-- The save-frame block of a VF (R366). -/
def Vf.saveRegs (v : Vf) (off : Nat) : Nat :=
  match off with
  | 0x08 => v.free.length
  | 0x10 => v.badadd.toNat * 4 + v.exhausted.toNat * 2 + v.stalled.toNat
  | 0x18 => v.suspended.toNat * 2 + v.suspend.toNat
  | _ => 0

/-- The tenancy block of a VF (R410). -/
def Vf.tenancyRegs (v : Vf) (off : Nat) : Nat :=
  match off with
  | 0x00 => v.word0
  | 0x08 => v.wbase
  | 0x10 => v.wsize
  | 0x18 => v.tenerr.toNat
  | _ => 0

/-- The budget block of an activity (R423). -/
def State.budgetRegs (s : State) (a off : Nat) : Nat :=
  let b := Cells.get s.budgets a
  let k := off / 8
  if a < 38 ∧ k < 5 then
    let used := (List.filter (fun (u : Nat × Nat) => u.1 / 65536 == k) b.used).foldl (fun n u => max n u.2) 0
    packed [(32, used), (0, s.grantNext a k)]
  else if a < 38 ∧ k = 5 then b.stalls
  else 0

/-- An origin slot (R427). -/
def Origin.regs (o : Origin) (off : Nat) : Nat :=
  if off = 0 then o.hostwb.toNat * 128 + o.st.code
  else if 8 ≤ off ∧ off < 0x28 then ofBytes ((o.key.drop (off - 8)).take 8)
  else 0

/-- What the 8 bytes at a register's offset read through a function's BAR; offsets without a register read as zero. -/
def State.barWord (s : State) (fn : Fn) (off : Nat) : Nat :=
  let port :=
    if off = 0x40 then (s.port fn.port).stat
    else if off = 0x48 then (s.port fn.port).head
    else if off = 0x50 then (s.port fn.port).tail
    else if 0x400000 ≤ off ∧ off < 0x800000 then s.journalWindow fn.port (off - 0x400000)
    else 0
  match fn with
  | .vf n =>
    if 0x100 ≤ off ∧ off < 0x500 then s.faultRegs n (off - 0x100)
    else if 0x800000 ≤ off ∧ off < 0xC00000 then s.recordWindow n (off - 0x800000)
    else port
  | .pf =>
    if 0x100000 ≤ off ∧ off < 0x100800 then (s.vf ((off - 0x100000) / 64)).saveRegs (off % 64)
    else if 0x200000 ≤ off ∧ off < 0x200800 then (s.vf ((off - 0x200000) / 64)).tenancyRegs (off % 64)
    else if 0x300000 ≤ off ∧ off < 0x300980 then s.budgetRegs ((off - 0x300000) / 64) (off % 64)
    else if 0x800000 ≤ off ∧ off < 0x800400 then (s.origin ((off - 0x800000) / 64)).regs (off % 64)
    else port

/-- A read of some bytes through a BAR. -/
def State.barRead (s : State) (fn : Fn) (off n : Nat) : Nat :=
  ofBytes ((List.range n).map (fun i => BitVec.ofNat 8 (s.barWord fn ((off + i) / 8 * 8) >>> (8 * ((off + i) % 8)))))

end Sys2Proof.Machine
end

