-- ==== Sys2Proof/Tests/Slice0.lean ====
section
/-! SUPPORT. Tests of the model: words written out from the encoding tables, ill-formed terms, states that meet the hypotheses of the
statements, and single steps whose results come from the spec. -/

namespace Sys2Proof.Tests

set_option Elab.async false

open Sys2Proof Sys2Proof.Machine

/-! ## Words of R30-R46 -/

/-- Guarded by PT, without a marker: G = 7, GN = 0, S = 0. -/
def hPT : Hdr := ⟨false, 7, false⟩

/-- Does a word decode to an instruction? -/
def reads (w : BitVec 64) (i : Instr) : Bool :=
  match decode w with
  | .ok j => j == i
  | .error _ => false

/-- Words of the integer, logic and shift instructions (R91-R97), each field at its place. -/
def wordsInteger : List (BitVec 64 × Instr) :=
  [(0x7000000000000000, .nop hPT),
   (0x70002C0000201001, .mov hPT false .b64 4 8),
   (0x7600000004002421, .movi hPT true 0x80000001 9),
   (0x7000080030201002, .iadd hPT false .i64 4 8 12),
   (0x73FFFFFFC0201022, .iaddImm hPT false 0xFFFFFFF0 4 8),
   (0x7000140030201003, .isub hPT false .n16 4 8 12),
   (0x73FFFFFFC0201023, .isubImm hPT false 0xFFFFFFF0 4 8),
   (0x7000180030201004, .imul hPT false .i8 4 8 12),
   (0x73FFFFFFC0201024, .imulImm hPT false 0xFFFFFFF0 4 8),
   (0x70000C0030201005, .imulh hPT false .n64 4 8 12),
   (0x700200100C080406, .imad hPT true .i32 1 2 3 4),
   (0x7000000030201007, .idiv hPT false .i32 4 8 12),
   (0x7000040030201008, .irem hPT false .n32 4 8 12),
   (0x7000100030201009, .imin hPT false .i16 4 8 12),
   (0x73FFFFFFC0201029, .iminImm hPT false 0xFFFFFFF0 4 8),
   (0x70001C003020100A, .imax hPT false .n8 4 8 12),
   (0x73FFFFFFC020102A, .imaxImm hPT false 0xFFFFFFF0 4 8),
   (0x700008000020100B, .iabs hPT false .i64 4 8),
   (0x700010003020100C, .sadd hPT false .i16 4 8 12),
   (0x73FFFFFFC020102C, .saddImm hPT false 0xFFFFFFF0 4 8),
   (0x700004003020100D, .ssub hPT false .n32 4 8 12),
   (0x700028003020100E, .and hPT false .b32 4 8 12),
   (0x73FFFFFFC020102E, .andImm hPT false 0xFFFFFFF0 4 8),
   (0x70002C003020100F, .or hPT false .b64 4 8 12),
   (0x73FFFFFFC020102F, .orImm hPT false 0xFFFFFFF0 4 8),
   (0x7000000030201010, .xor hPT false .i32 4 8 12)] ++
  [(0x73FFFFFFC0201030, .xorImm hPT false 0xFFFFFFF0 4 8),
   (0x73A0284030201011, .ttab hPT false .b32 0xE8 4 8 12 16),
   (0x7000000030201012, .shl hPT false 4 8 12),
   (0x7000000014201032, .shlImm hPT false 5 4 8),
   (0x7000000030201013, .shr hPT false 4 8 12),
   (0x7000000014201033, .shrImm hPT false 5 4 8),
   (0x7000000030201014, .sar hPT false 4 8 12),
   (0x7000000014201034, .sarImm hPT false 5 4 8),
   (0x7000000030201015, .rotl hPT false 4 8 12),
   (0x7000000014201035, .rotlImm hPT false 5 4 8),
   (0x7000040030201016, .bfx hPT false .n32 4 8 12),
   (0x7000004030201017, .bfi hPT false 4 8 12 16),
   (0x70002C0000201018, .popc hPT false .b64 4 8),
   (0x7000000000201019, .clz hPT false .i32 4 8),
   (0x700028000020101A, .brev hPT false .b32 4 8),
   (0x700000403020101B, .bperm hPT false 4 8 12 16),
   (0x700200003020101C, .add64 hPT true 4 8 12),
   (0x73FFFFFFFC20103C, .add64Imm hPT false 0xFFFFFFFF 4 8),
   (0x700004403020101D, .mad64 hPT false .n32 4 8 12 16),
   (0x700000003020101E, .shl64 hPT false 4 8 12),
   (0x700004003020101F, .shr64 hPT false true 4 8 12)]

theorem test_words_integer : wordsInteger.all (fun x => reads x.1 x.2 && encode x.2 == some x.1) = true := by
  decide +kernel

/-- Words of the floating-point and conversion instructions (R98-R107), each field at its place. -/
def wordsFloat : List (BitVec 64 × Instr) :=
  [(0x7000440030201040, .fadd hPT .f64 .rtz ⟨false, 0⟩ 4 8 12),
   (0x70FE000000201060, .faddImm hPT 0x3F800000 4 8),
   (0x7000140030201041, .fsub hPT .x2bf16 .rne ⟨false, 0⟩ 4 8 12),
   (0x70FE000000201061, .fsubImm hPT 0x3F800000 4 8),
   (0x7001880030201042, .fmul hPT .f16 .rdyn ⟨false, 0⟩ 4 8 12),
   (0x70FE000000201062, .fmulImm hPT 0x3F800000 4 8),
   (0x7051404030201043, .fma hPT .f32 .rsto ⟨false, 20⟩ 4 8 12 16),
   (0x70000C0030201044, .fmin hPT .bf16 4 8 12),
   (0x70FE000000201064, .fminImm hPT 0x3F800000 4 8),
   (0x7000100030201045, .fmax hPT .x2f16 4 8 12),
   (0x70FE000000201065, .fmaxImm hPT 0x3F800000 4 8),
   (0x7000040000201046, .fabs hPT .f64 4 8),
   (0x7000000000201047, .fneg hPT .f32 4 8),
   (0x7000840000201048, .frcp hPT .f64 .rup ⟨false, 0⟩ 4 8),
   (0x7000C00000201049, .fsqrt hPT .f32 .rdn ⟨false, 0⟩ 4 8),
   (0x700100000020104A, .frsq hPT .f32 .rna ⟨false, 0⟩ 4 8),
   (0x700000000020104B, .fexp2 hPT .f32 .rne ⟨false, 0⟩ 4 8),
   (0x700040000020104C, .flog2 hPT .f32 .rtz ⟨false, 0⟩ 4 8),
   (0x700000000020104D, .fsin hPT .f32 .rne ⟨false, 0⟩ 4 8),
   (0x740D40000020104E, .fcos hPT .f32 .rsto ⟨true, 3⟩ 4 8),
   (0x700008000020104F, .fclass hPT .f16 4 8),
   (0x7000104030201050, .fdot2 hPT .x2f16 .rne ⟨false, 0⟩ 4 8 12 16),
   (0x7000800030201051, .fscale hPT .f32 .rup ⟨false, 0⟩ 4 8 12),
   (0x70004C0000201052, .frint hPT .bf16 .rtz ⟨false, 0⟩ 4 8),
   (0x7000500000201080, .cvt hPT .x2f16 .f32 .rtz ⟨false, 0⟩ 4 8),
   (0x7000CC0800201081, .cvtn hPT .n64 .f16 .rdn ⟨false, 0⟩ 4 8)] ++
  [(0x7000041000201082, .cvtw hPT .f64 .i16 .rne ⟨false, 0⟩ 4 8),
   (0x7000200000201083, .scfit hPT .e2m1 4 8),
   (0x7000180030201084, .scapp hPT .e4m3 .rne ⟨false, 0⟩ 4 8 12),
   (0x70000C2400201085, .cbdec hPT 4 8)]

theorem test_words_float : wordsFloat.all (fun x => reads x.1 x.2 && encode x.2 == some x.1) = true := by
  decide +kernel

/-- Words of the comparison, predicate and control instructions (R108-R122, R150-R157), each field at its place. -/
def wordsPredicate : List (BitVec 64 × Instr) :=
  [(0x7000840C302014C0, .icmp hPT .lt .n32 5 8 12 3),
   (0x7001841C302004C1, .fcmp hPT .un .f64 1 8 12 7),
   (0x70002C08302010C2, .sel hPT .b64 4 8 12 2),
   (0x7200000C080400C3, .plog hPT 0x80 0 1 2 3),
   (0x70000800002000C4, .pmov hPT .fromV 0 8),
   (0x73FFFFFFE0000100, .bra hPT 0xFFFFFFF8),
   (0x7000000000200101, .brx hPT 8),
   (0x7000000100001102, .call hPT 64 4),
   (0x7000000000200103, .ret hPT 8),
   (0x70000000E0000104, .jpush hPT 0x38),
   (0x7000000000000105, .join hPT),
   (0x7000000000000106, .regang hPT),
   (0x7000000100200107, .loop hPT 64 8),
   (0x7000000000000108, .exit hPT),
   (0x7000000190000109, .doze hPT 100),
   (0x700000001C00010A, .trap hPT 7),
   (0x700000002400010B, .brk hPT 9),
   (0x700000000000010C, .yield hPT)]

theorem test_words_predicate : wordsPredicate.all (fun x => reads x.1 x.2 && encode x.2 == some x.1) = true := by
  decide +kernel

/-- Words of the memory and ordering instructions (R125-R142, R260-R272), each field at its place. -/
def wordsMemory : List (BitVec 64 × Instr) :=
  [(0x7306FFF000081140, .ld hPT ⟨false, .nol1, .team, .rc, true, .i16, 0xffc, 2⟩ 4),
   (0x7467800C20080141, .st hPT ⟨true, .dflt, .pkg, .rc, true, .b128, 0x3, 2⟩ 8),
   (0x7073400820081142, .atom hPT ⟨false, .dflt, .pkg, .sc, true, .b64, 0, 2⟩ .max 4 8),
   (0x704D030020081143, .cas hPT ⟨false, .dflt, .die, .tso, false, .b32, 0, 2⟩ 4 8 12),
   (0x7001002420080144, .red hPT ⟨false, .dflt, .team, .bu, false, .b32, 0, 2⟩ .faddF32 8),
   (0x7042000000000145, .fence hPT true .bu .die),
   (0x7070000000000146, .bridge hPT .bu .sc .pkg),
   (0x7067010020080147, .stf hPT ⟨false, .dflt, .pkg, .rc, true, .b32, 0, 2⟩ 8 4),
   (0x7067400030082948, .waitge hPT ⟨false, .dflt, .pkg, .rc, true, .b64, 0x0, 2⟩ 10 12),
   (0x7261000400080149, .ldpf hPT ⟨false, .keep, .pkg, .bu, false, .b32, 1, 2⟩),
   (0x706100000C08014A, .cmaint hPT ⟨false, .dflt, .pkg, .bu, false, .b32, 0, 2⟩ .demote),
   (0x700000181410214B, .release hPT 8 4 5 6)]

theorem test_words_memory : wordsMemory.all (fun x => reads x.1 x.2 && encode x.2 == some x.1) = true := by
  decide +kernel

/-- Words of the cross-lane and coordination instructions (R171-R186), each field at its place. -/
def wordsCrosslane : List (BitVec 64 × Instr) :=
  [(0x70006C1030201180, .lxch hPT .rise .b64 4 4 8 12),
   (0x7000080000040D81, .poll hPT .same 3 1),
   (0x7000080800201182, .redux hPT (.int .max .i64) 4 8),
   (0x7000006000201183, .scan hPT true (.flt .fadd .f32 .rne) 4 8),
   (0x7000000000001184, .elect hPT 4),
   (0x7000A80000201185, .kin hPT .lead .b32 4 8),
   (0x700000007C201186, .umov hPT .toW 31 4 8),
   (0x70000410003C01C0, .meet hPT true 15 4),
   (0x70000008000C01C1, .cmeet hPT false 3 2),
   (0x70000400001021C2, .launch hPT true 8 4),
   (0x70000007FC0001C3, .evset hPT true 0xFF),
   (0x700000001C0001C4, .evwait hPT 7),
   (0x70000040302001C5, .spawn hPT false 8 12 16),
   (0x70000000002001C6, .binfl hPT 8)]

theorem test_words_crosslane : wordsCrosslane.all (fun x => reads x.1 x.2 && encode x.2 == some x.1) = true := by
  decide +kernel

/-- Words of the matrix, generator and copy-channel instructions (R317-R335), each field at its place. -/
def wordsMatrix : List (BitVec 64 × Instr) :=
  [(0x70000000001C0200, .sclaim hPT 7),
   (0x70000000000C0201, .srel hPT 3),
   (0x7000000288064E02, .mma hPT true 2 .e4m3 .e2m1 9 1 3),
   (0x7000002800009203, .mscac hPT false 10 2 4),
   (0x7000000200000204, .mxwait hPT true 0),
   (0x7000000000003E05, .aclr hPT 15),
   (0x700040FC0C001206, .accrd hPT .f32 .rtz 63 3 4),
   (0x700004140C200207, .accwr hPT .f64 5 3 8),
   (0x70010C000C180208, .accst hPT .bf16 .rna 3 6),
   (0x70000C000C180209, .accld hPT .bf16 3 6),
   (0x700000000020160A, .gset hPT 5 8),
   (0x700040403008120B, .gdraw hPT true .f32 4 2 12 16),
   (0x700004002008020C, .gres hPT true 2 8),
   (0x700064000020020D, .cbload hPT .rc .pkg 8),
   (0x708400180A042E40, .copy hPT .fab .rc 12 10 8 .t8 3),
   (0x70000000000A0A41, .chwait hPT 20 2),
   (0x7000000000000642, .chrst hPT 1)]

theorem test_words_matrix : wordsMatrix.all (fun x => reads x.1 x.2 && encode x.2 == some x.1) = true := by
  decide +kernel

/-- Words of the label, special-register and system instructions (R132-R142), each field at its place. -/
def wordsSystem : List (BitVec 64 × Instr) :=
  [(0x70000400000C1280, .lbrd hPT .p 4 3),
   (0x7000180030200E81, .lbchk hPT true .w 3 8 12),
   (0x7000000000200282, .lbfloor hPT .v 8),
   (0x70000200400012C0, .srd hPT 0x8010 4),
   (0x70000200C82002C1, .swr hPT 0x8032 8),
   (0x70000000000002C2, .tret hPT),
   (0x70000000002012C3, .vrdx hPT 4 8),
   (0x70000000302002C4, .vwrx hPT 8 12),
   (0x70000000000002C5, .isync hPT),
   (0x70000000302002C6, .iinv hPT 8 12)]

theorem test_words_system : wordsSystem.all (fun x => reads x.1 x.2 && encode x.2 == some x.1) = true := by
  decide +kernel

/-- Every constructor with a word, once. -/
def words : List (BitVec 64 × Instr) := wordsInteger ++ wordsFloat ++ wordsPredicate ++ wordsMemory ++ wordsCrosslane ++ wordsMatrix ++ wordsSystem

theorem test_words_printed : (reads 0x707100002C082942 (.atom hPT ⟨false, .dflt, .pkg, .sc, false, .b32, 0, 2⟩ .add 10 11) &&
    reads 0x7045000014080144 (.red hPT ⟨false, .dflt, .die, .rc, false, .b32, 0, 2⟩ .add 5) &&
    reads 0x7067400030082948 (.waitge hPT ⟨false, .dflt, .pkg, .rc, true, .b64, 0, 2⟩ 10 12) &&
    reads 0x1067100040080141 (.st ⟨false, 1, false⟩ ⟨false, .dflt, .pkg, .rc, true, .b32, 0x400, 2⟩ 16) &&
    reads 0x700000000020060A (.gset hPT 1 8) &&
    reads 0x7000007848607D4B (.release hPT 31 24 18 30) &&
    reads 0x7071000800283940 (.ld hPT ⟨false, .dflt, .pkg, .sc, false, .b32, 2, 10⟩ 14) &&
    reads 0x7060000004000146 (.bridge hPT .rc .bu .pkg)) = true := by decide +kernel

/-! ## Ill-formed words and terms -/

/-- Words with a nonzero reserved field (R31). -/
theorem test_reserved_fields_refused :
    [0x7000000000000400#64, 0x7400000000080002, 0x7000000000000508, 0x7000000400000143, 0x70000400000000C3, 0x7400000000000100].all (fun w =>
      match decode w with | .error .reservedField => true | _ => false) = true := by decide +kernel

/-- Words with a reserved code: DOM 5, SCP 6, SZ 7, a type code, a rounding code, FA 7, SHP 4 (R43, R44). -/
theorem test_reserved_codes_refused :
    [0x7075010000080940#64, 0x70D1010000080940, 0x7071C10000080940, 0x7000340000081002, 0x7001C00000081040, 0x7000000001C00202,
     0x7000000000004240].all (fun w => match decode w with | .error .reservedCode => true | _ => false) = true := by decide +kernel

/-- Unassigned opcodes: none from 0x300 on, and none among a few below (R45). -/
theorem test_unassigned_opcodes : ([0x020, 0x025, 0x053, 0x086, 0x0C5, 0x10D, 0x14C, 0x187, 0x1C7, 0x20E, 0x243, 0x283, 0x2C7, 0x300, 0x3FF].all
    (fun (n : Nat) => reads (BitVec.ofNat 64 (0x7000000000000000 + n)) (.illegalOpcode (BitVec.ofNat 64 (0x7000000000000000 + n))))) = true := by
  decide +kernel

/-- A term for each check of `Instr.accepts`, of the register fields and of the guard field, which the check refuses. -/
def illFormed : List Instr :=
  [.mov hPT true .b128 4 8,
   .mov hPT false .i64 4 8,
   .iadd hPT false .b32 4 8 12,
   .imad hPT false .b64 4 8 12 16,
   .imulh hPT false .i16 4 8 12,
   .iabs hPT false .n32 4 8,
   .xor hPT false .n16 4 8 12,
   .ttab hPT false .i64 0 4 8 12 16,
   .brev hPT false .i16 4 8,
   .bfx hPT false .i64 4 8 12,
   .mad64 hPT false .i64 4 8 12 16,
   .fadd hPT .cb2 .rne ⟨false, 0⟩ 4 8 12,
   .fadd hPT .f32 .rne ⟨false, 1⟩ 4 8 12,
   .fadd hPT .f32 .rsto ⟨true, 8⟩ 4 8 12,
   .fma hPT .e4m3 .rne ⟨false, 0⟩ 4 8 12 16,
   .fmin hPT .sc12 4 8 12,
   .fabs hPT .e5m2 4 8,
   .frcp hPT .f16 .rne ⟨false, 0⟩ 4 8,
   .fexp2 hPT .f64 .rne ⟨false, 0⟩ 4 8,
   .fclass hPT .x2f16 4 8,
   .fdot2 hPT .f32 .rne ⟨false, 0⟩ 4 8 12 16,
   .fscale hPT .bf16 .rne ⟨false, 0⟩ 4 8 12] ++
  [.frint hPT .x2bf16 .rne ⟨false, 0⟩ 4 8,
   .cvt hPT .x2f16 .f64 .rne ⟨false, 0⟩ 4 8,
   .cvtn hPT .b32 .f32 .rne ⟨false, 0⟩ 4 8,
   .cvtw hPT .f32 .b64 .rne ⟨false, 0⟩ 4 8,
   .scfit hPT .f32 4 8,
   .scapp hPT .f16 .rne ⟨false, 0⟩ 4 8 12,
   .icmp hPT .un .i32 0 4 8 7,
   .fcmp hPT .eq .x2f16 0 4 8 7,
   .sel hPT .i16 4 8 12 0,
   .pmov hPT .toV 4 1,
   .pmov hPT .fromV 1 4,
   .loop hPT 0 4,
   .loop hPT 65 4,
   .ld hPT ⟨false, .dflt, .pkg, .sc, true, .b32, 0, 2⟩ 4,
   .stf hPT ⟨false, .dflt, .pkg, .rc, true, .b32, 4, 2⟩ 4 6,
   .atom hPT ⟨false, .dflt, .pkg, .sc, false, .n16, 0, 2⟩ .add 4 8,
   .atom hPT ⟨false, .dflt, .pkg, .sc, true, .b32, 0, 2⟩ .and 4 8,
   .red hPT ⟨false, .dflt, .pkg, .sc, false, .b32, 0, 2⟩ .faddF64 8,
   .cas hPT ⟨false, .dflt, .pkg, .sc, false, .b128, 0, 2⟩ 4 8 12,
   .waitge hPT ⟨false, .stream, .pkg, .sc, false, .b32, 0, 2⟩ 4 8,
   .ldpf hPT ⟨false, .dflt, .pkg, .rc, true, .b32, 0, 2⟩,
   .cmaint hPT ⟨false, .keep, .pkg, .rc, false, .b32, 0, 2⟩ .evl1] ++
  [.fence hPT true .rc .pkg,
   .lxch hPT .pick .i64 4 4 8 12,
   .lxch hPT .pick .b32 3 4 8 12,
   .redux hPT (.int .add .i16) 4 8,
   .redux hPT (.int .xor .n32) 4 8,
   .scan hPT true (.flt .fadd .f32 .rsto) 4 8,
   .scan hPT true (.flt .fmin .f64 .rtz) 4 8,
   .kin hPT .mask .n32 4 8,
   .umov hPT .toW 32 4 8,
   .umov hPT .toV 1 4 8,
   .meet hPT false 16 1,
   .meet hPT false 0 33,
   .cmeet hPT false 4 1,
   .cmeet hPT false 0 17,
   .mma hPT false 0 .bf16 .fp16 0 1 2,
   .mma hPT false 0 .e4m3 .e4m3 8 9 2,
   .mma hPT false 0 .cb2 .e4m3 8 1 2,
   .mxwait hPT true 1,
   .accrd hPT .f32 .rne 64 0 4,
   .accrd hPT .bf16 .rne 0 0 4,
   .accwr hPT .bf16 0 0 4,
   .accst hPT .f64 .rtz 0 4] ++
  [.gdraw hPT true .f64 4 0 8 12,
   .gdraw hPT false .x2f16 4 0 8 12,
   .lbchk hPT false .v 1 4 8,
   .lbfloor hPT .mem 4,
   .srd hPT 0x0022 4,
   .swr hPT 0x8010 4,
   .mov hPT false .b64 5 8,
   .mov hPT false .b64 4 254,
   .mov hPT false .b128 6 8,
   .mov hPT true .b32 64 0,
   .pmov hPT .move 8 0,
   .gset hPT 0 61,
   .mscac hPT false 63 0 1,
   .ld hPT ⟨false, .dflt, .pkg, .sc, false, .b32, 0, 3⟩ 4,
   .ld hPT ⟨true, .dflt, .pkg, .sc, false, .b32, 0, 64⟩ 4,
   .loop ⟨false, 1, false⟩ 2 6,
   .jpush ⟨false, 0, false⟩ 8,
   .join ⟨false, 0, true⟩,
   .regang ⟨false, 3, false⟩]

theorem test_ill_formed_terms_refused : illFormed.all (fun i => !i.WellFormed) = true := by decide +kernel

theorem test_words_well_formed : words.all (fun x => x.2.WellFormed) = true := by decide +kernel

/-- A register at or beyond the launch's allocation, and a tile beyond its tiles (R12, R39). -/
theorem test_allocation_bounds : ((Instr.iadd hPT false .i32 15 0 0).legal 16 1 && !(Instr.iadd hPT false .i32 16 0 0).legal 16 1 &&
    (Instr.aclr hPT 0).legal 16 1 && !(Instr.aclr hPT 1).legal 16 1) = true := by decide +kernel

/-! ## States that meet the hypotheses of the statements -/

/-- The placed program of log 21, its agenda empty. -/
def base : State := { State.reset.withFetchWord 64 0x7000000000000000 with agenda := [] }

/-- The gang of the placed warp. -/
def units : List (Nat × Nat) := (base.unitsOf 2 0 none).getD []

/-- Its issue. -/
def n0 : Now := (base.nowOf 2 0 units).2

/-- A state in which the gang issues, after a change of it. -/
def at_ (f : State → State) : State := { f (base.nowOf 2 0 units).1 with now := some n0 }

/-- The same without a change. -/
def s0 : State := at_ id

/-- A change of the placed warp, of its context, of its core. -/
def onW (f : Warp → Warp) (s : State) : State := s.onWarp 2 0 f
def onC (f : Context → Context) (s : State) : State := s.onContext 0 f
def onK (f : Core → Core) (s : State) : State := s.onCore 0 f

/-- A V register by lane, and a W register. -/
def setV (r : Nat) (f : Nat → Word) (s : State) : State :=
  onW (fun w => { w with v := (List.range 32).foldl (fun c l => Cells.set c (r * 32 + l) (f l)) w.v }) s
def setW (r : Nat) (x : DWord) (s : State) : State := onW (fun w => { w with w := Cells.set w.w r x }) s

/-- The launch's header with more fields set, and its virtual function. -/
def setHdr (fs : List (Nat × Nat × Nat)) (s : State) : State :=
  s.onLaunch 1 (fun l => { l with hdr := l.hdr ||| headerOf fs })
def setVf (f : Vf → Vf) (s : State) : State := s.onVf 0 f

/-- An address of every lane in a register pair, `step` bytes apart. -/
def setVa (r : Nat) (va step : Nat) (s : State) : State :=
  setV (r + 1) (fun l => BitVec.ofNat 32 ((va + step * l) / 2 ^ 32)) (setV r (fun l => BitVec.ofNat 32 (va + step * l)) s)

/-- Every instruction with a word issues somewhere: the hypothesis of the statements of results, and in a steady warp, whole. -/
theorem witness_Issues : (words.all (fun x => Issues x.2 s0 n0 && Steady x.2 s0 n0) && (ctxOf (.nop hPT) s0 n0).whole) = true := by
  decide +kernel

/-- No flag meets an enabled trap while SR.FPCTL enables none (R73): the other hypothesis of the floating results. -/
theorem witness_ResultF : ((List.range 32).all (fun f => !(ctxOf (.nop hPT) s0 n0).trapping (BitVec.ofNat 5 f)) &&
    (ctxOf (.nop hPT) (at_ (onW (fun w => { w with fpctl := 0x20 }))) n0).trapping 1) = true := by decide +kernel

theorem witness_GuardFalseOnlyAdvances :
    (let i := Instr.nop ⟨false, 7, true⟩
     i.hdr.isSome && s0.now == some n0 && i.guardOk && (ctxOf i s0 n0).act == 0 && (Cells.find? s0.teams n0.team).isSome &&
     (s0.warp n0.team n0.warp).unspilled) = true := by decide +kernel

/-- LOOP of no iteration, of some; DOZE in a launch of Almanac mode and outside. -/
theorem witness_ControlInstructionsFinish :
    ((ctxOf (.loop hPT 2 8) s0 n0).v ((laneList (ctxOf (.loop hPT 2 8) s0 n0).lanes).headD 0) 8 == 0 &&
     (let s := at_ (setV 8 (fun _ => 3))
      Issues (.loop hPT 2 8) s n0 && (ctxOf (.loop hPT 2 8) s n0).v ((laneList (ctxOf (.loop hPT 2 8) s n0).lanes).headD 0) 8 == 3) &&
     !(ctxOf (.doze hPT 5) s0 n0).hdr.almanac &&
     (let s := at_ (setHdr [(4, 4, 1)]); Issues (.doze hPT 5) s n0 && Steady (.doze hPT 5) s n0 && (ctxOf (.doze hPT 5) s n0).hdr.almanac))
    = true := by decide +kernel

/-- Half a gang, and a trap strand, as the checks of R47 meet them; a fetch from an address that no page maps. -/
theorem witness_DecodeAndFetchChecksTrap :
    (reads 0x7000000000000300 (.illegalOpcode 0x7000000000000300) &&
     (let s := at_ (onC (fun c => { c with root := 0x5000 }))
      (s.fetchStrand (s.team 2).core (s.team 2).ctx ((s.warp 2 0).strand 0 0)).2 == .fault 1 false) &&
     !(Instr.join ⟨false, 0, false⟩).guardOk &&
     !(Instr.mov hPT false .i64 4 8).legal (ctxOf (.nop hPT) s0 n0).hdr.vregs (ctxOf (.nop hPT) s0 n0).hdr.tiles &&
     (let s := at_ (onW (fun w => w.mapStrands (fun _ x => { x with trap := true })))
      (Instr.meet hPT false 0 1).notInTrap && (ctxOf (.meet hPT false 0 1) s n0).inTrap && (ctxOf (.meet hPT false 0 1) s n0).act != 0 &&
      !(ctxOf (.meet hPT false 0 1) s n0).vetoed (.meet hPT false 0 1)) &&
     !(ctxOf (.mov hPT false .i64 4 8) s0 n0).vetoed (.mov hPT false .i64 4 8) &&
     (let n := { n0 with gang := false, units := [(3, 0)] }
      let s := { s0 with now := some n }
      (Instr.movi hPT true 1 2).needsFull && !(ctxOf (.movi hPT true 1 2) s n).full && (ctxOf (.movi hPT true 1 2) s n).act != 0 &&
      !(ctxOf (.movi hPT true 1 2) s n).vetoed (.movi hPT true 1 2)))
    = true := by decide +kernel

theorem witness_BranchesReachOrTrap :
    ((n0.pc + (0x40#32).signExtend 64) == 0x10040 && (n0.pc + (4#32).signExtend 64).toNat % 8 == 4 &&
     (let s := at_ (setVa 8 0x10080 0)
      Issues (.brx hPT 8) s n0 && Issues (.ret hPT 8) s n0 && Steady (.brx hPT 8) s n0 && (ctxOf (.brx hPT 8) s n0).whole &&
      (ctxOf (.brx hPT 8) s n0).lanesA.all (fun l => (ctxOf (.brx hPT 8) s n0).v2 l 8 == 0x10080)) &&
     (let s := at_ (setVa 8 0x1000000000010080 0)
      Issues (.brx hPT 8) s n0 && (ctxOf (.brx hPT 8) s n0).lanesA.all (fun l =>
        ((ctxOf (.brx hPT 8) s n0).v2 l 8).toNat % 8 == 0 && field ((ctxOf (.brx hPT 8) s n0).v2 l 8) 63 60 != 0))) = true := by
  decide +kernel

/-- A strand whose four lanes exit, branch, trap and fault. -/
theorem witness_StrandsSplitByLaneEnd :
    (let x : Strand := { pc := 0x10000, mask := 0xF }
     let ends : List (Nat × LaneEnd) := [(12, .exit), (13, .goto 0x10040), (14, .trap { lane := 14, cause := .software } true),
       (15, .fault { kind := 1, access := 1, va := 0 })]
     let faulting := pickLanes 3 (x.mask &&& ~~~(pickLanes 3 x.mask ends (fun e => e == some .exit))) ends
       (fun e => match e with | some (.fault _) => true | _ => false)
     faulting != 0xF && (partsOf 3 x 0xF hPT false {} ends 1 n0 (fun _ => false)).map (·.mask) == [2, 4, 8]) = true := by decide +kernel

/-- Lane addresses from 0x20000 on in V2:V3, from 0x21000 on in V4:V5, a value in V8, a page of virtual space in W8. -/
def sMem : State := at_ (fun s => setW 8 0x20000 (setV 8 (fun l => BitVec.ofNat 32 (100 + l)) (setVa 4 0x21000 8 (setVa 2 0x20000 4 s))))

/-- A memory operand on V2:V3. -/
def mem32 (dom : Dom) (scp : Scope) : MemOp := ⟨false, .dflt, scp, dom, false, .b32, 0, 2⟩

/-- All lanes pass, at places of this module. -/
def passes (xs : List Spot) (ends : List (Nat × LaneEnd)) : Bool := xs.length == 32 && ends.isEmpty && localSpots xs

theorem witness_LoadsQueueReads :
    (let i := Instr.ld hPT (mem32 .bu .pkg) 4
     let x := ctxOf i sMem n0
     let r := x.checkLanes sMem (x.checked (mem32 .bu .pkg) .read 0 false none)
     let q := x.checkLanes sMem (x.labelSpot 2)
     Issues i sMem n0 && x.direct .pkg && passes r.2.1 r.2.2 &&
     Issues (.lbrd hPT .mem 4 2) sMem n0 && !x.hdr.almanac && passes q.2.1 q.2.2 &&
     Issues (.waitge hPT (mem32 .rc .pkg) 4 8) sMem n0 && Steady (.waitge hPT (mem32 .rc .pkg) 4 8) sMem n0) = true := by
  decide +kernel

theorem witness_StoresQueueWrites :
    (let i := Instr.st hPT (mem32 .bu .pkg) 8
     let j := Instr.stf hPT (mem32 .rc .pkg) 8 4
     let x := ctxOf i sMem n0
     let r := x.checkLanes sMem (x.checked (mem32 .bu .pkg) .write 1 true (some (x.storeLab (mem32 .bu .pkg) 8)))
     let q := x.checkLanes sMem (x.checkStf (mem32 .rc .pkg) 4 (x.storeLab (mem32 .rc .pkg) 8))
     let z := x.checkLanes sMem (x.checkStf (mem32 .rc .pkg) 255 (x.storeLab (mem32 .rc .pkg) 8))
     Issues i sMem n0 && Issues j sMem n0 && x.direct .pkg && passes r.2.1 r.2.2 &&
     q.2.1.length == 32 && q.2.2.isEmpty && q.2.1.all (fun y => y.2.isSome) && z.2.1.length == 32 && z.2.2.isEmpty &&
     z.2.1.all (fun y => y.2.isNone)) = true := by
  decide +kernel

/-- Every lane at one place, and each at its own. -/
theorem witness_AtomicsQueueGroups :
    ([sMem, at_ (fun s => setV 8 (fun l => BitVec.ofNat 32 l) (setVa 2 0x20000 0 s))].all (fun s =>
      let m := mem32 .sc .pkg
      let x := ctxOf (.nop hPT) s n0
      let r := x.checkLanes s (x.checked m .rmw 2 false (some (x.storeLab m 8)))
      let q := x.checkLanes s (x.checked m .rmw 2 false (some (x.storeLab m 8 ||| x.labV 12 m.sz.words)))
      Issues (.atom hPT m .add 4 8) s n0 && Issues (.cas hPT m 4 8 12) s n0 && Issues (.red hPT m .add 8) s n0 && x.direct .pkg &&
      passes r.2.1 r.2.2 && passes q.2.1 q.2.2)) = true := by
  decide +kernel

theorem witness_OrderingInstructionsComplete :
    ((ctxOf (.nop hPT) s0 n0).direct .pkg && Issues (.fence hPT false .rc .pkg) s0 n0 && Issues (.bridge hPT .rc .bu .pkg) s0 n0 &&
     (let s := at_ (setHdr [(4, 4, 1)])
      Issues (.fence hPT true .bu .pkg) s n0 && (ctxOf (.fence hPT true .bu .pkg) s n0).hdr.almanac &&
      decide (Scope.pkg.rank ≤ s.scopeCap (s.context (s.team n0.team).ctx)))) = true := by
  decide +kernel

/-- A window of scope TEAM, strict and not; a misaligned address, one in no space; pages without an entry, without the
permission and with it. -/
theorem witness_AddressesAndScopesAreChecked :
    ([true, false].all (fun b =>
      let s := at_ (setVf (fun v => { v with strict := b, cap := 0 }))
      Issues (.fence hPT false .rc .pkg) s n0 && Issues (.ld hPT (mem32 .bu .pkg) 4) s n0 &&
      decide (s.scopeCap (s.context (s.team n0.team).ctx) < Scope.pkg.rank) && s.strictBit (s.context (s.team n0.team).ctx) == b) &&
     (0x20002#64).toNat % 4 != 0 && s0.formOf 2 0 0 0x3000000000000000 4 == .bad && field (0x20000#64) 63 57 == 0 &&
     (match (s0.leafFor 0 0 0x40000000 .read).2 with | .error b => !b | .ok _ => false) &&
     (let s := at_ (fun s => { s with mem := Cells.writeLE s.mem 0x3000 8 0x77 })
      match (s.leafFor 0 0 0x20000 .write).2 with | .error _ => false | .ok e => !Need.write.permits e.leaf) &&
     (match (s0.leafFor 0 0 0x20000 .read).2 with | .error _ => false | .ok e => Need.read.permits e.leaf && leafApt e.leaf == 0)) = true := by
  decide +kernel

theorem witness_TranslationMarksItsEntry :
    (match (s0.walkFor 0 0 0x20000).2 with
     | .ok (_, _, a) => decide (a = 0x3000)
     | .error _ => false) = true := by decide +kernel

/-- An event that is set, a channel past and short of its threshold, a tile that a result in flight names. -/
theorem witness_WaitsParkOrPass :
    (let s := at_ (fun s => setW 20 5 (onC (fun c => { c with events := 1#256 <<< 7 })
        (onW (fun w => { w with results := [{ id := 99, lanes := 0xFFFFFFFF, full := true, kind := .matrix, regs := [(.tile 3, 0)] }] }) s)))
     words.all (fun x => Issues x.2 s n0) && Steady (.nop hPT) s n0 &&
     (s.context 0).events.getLsbD 7 && !(s.context 0).events.getLsbD 8 && s.chanView 2 1 == 0 &&
     (ctxOf (.nop hPT) s n0).w 20 == 5 && (ctxOf (.nop hPT) s n0).w 21 == 0 &&
     (ctxOf (.nop hPT) s n0).warp.tileIds false 3 == [99] && (ctxOf (.nop hPT) s n0).warp.tileIds false 4 == []) = true := by
  decide +kernel

/-- A header in memory where W4 points. -/
def withHeader (h : Header) : State := at_ (fun s => setW 4 0x40000 { s with mem := Cells.writeLE s.mem 0x40000 192 h.toNat })

/-- A header address that is misaligned; headers that are not valid, of two vector blocks, and valid, with room and without. -/
theorem witness_LaunchesFromTheDevice :
    (let i := Instr.launch hPT false 8 4
     let ok (s : State) : Bool :=
       Issues i s n0 && (Cells.find? s.contexts 0).isSome && s.earlierIds 2 0 0xFFFFFFFF (.one .sc) .pkg == [] && (s.warp 2 0).edges.isEmpty
     let h (s : State) : Option (Header × Label) :=
       let x := ctxOf i s n0
       (match (x.headerReads s (x.w 4) (x.labW 4)).2 with
        | .ok as =>
          let t := (x.headerReads s (x.w 4) (x.labW 4)).1
          if (x.askLines t as).isNone && (as.find? t.readsPoison).isNone && (as.find? t.refusedLine).isNone then some (t.headerOf as).2 else none
        | .error _ => none)
     let valid := wordHeader
     let two := wordHeader ||| headerOf [(4, 4, 0x3000)]
     let full : State := { withHeader valid with launches := (List.range 2200).map (fun k => (k, (default : Launch))) }
     (let s := at_ (setW 4 0x40020); Issues i s n0 && ((ctxOf i s n0).w 4).toNat % 64 != 0) &&
     (let s := at_ (setW 4 0x40000); ok s && h s == some (0, 0) && !(0 : Header).valid) &&
     (ok (withHeader two) && h (withHeader two) == some (two, 0) && two.valid && decide (2 ≤ two.nbv)) &&
     (ok (withHeader valid) && h (withHeader valid) == some (valid, 0) && valid.valid && decide (valid.nbv < 2) &&
       (withHeader valid).storeRoom 0 1) &&
     !full.storeRoom 0 1) = true := by decide +kernel

/-- A store of the warp that is not performed. -/
def pendingStore : Access :=
  { id := 77, team := 2, warp := 0, core := 0, ctx := 0, lanes := [0], dom := .bu, scp := .pkg, place := .dev 0x20000, va := 0x20000,
    size := 4, op := .store 5 }

/-- Records of one entry PC, and a full set of bins of others. -/
def aRec (pc : DWord) : SpawnRec := { pc, w0 := 1, w1 := 2, lab := 0 }
def fullBins (n : Nat) : Cells Bin := (List.range 8).map (fun j => (j, { team := 2, pc := BitVec.ofNat 64 (64 * j), recs := List.replicate n (aRec 0) }))

theorem witness_EventsSpawnsAndFlushes :
    (let p := at_ (fun s => { s with accesses := [pendingStore] })
     s0.deferred.isEmpty && (Cells.find? s0.contexts 0).isSome && !(s0.arrivalIds 2 0 .pkg).any (fun y => s0.pendingAt goneTeam y.1 y.2) &&
     Issues (.evset hPT false 7) p n0 && (p.arrivalIds 2 0 .pkg).any (fun y => p.pendingAt goneTeam y.1 y.2) && p.deferred.isEmpty &&
     (let s := at_ (setVa 8 0x10000 0)
      let x := ctxOf (.spawn hPT false 8 12 16) s n0
      let recs := (List.range 32).map (fun l => (l, ({ pc := 0x10000, w0 := 0, w1 := 0, lab := 0 } : SpawnRec)))
      Issues (.spawn hPT false 8 12 16) s n0 && !x.hdr.almanac &&
      x.lanesA.all (fun l => match x.spawnRec 8 12 16 l with | .ok r => recs.contains (l, r) | .error _ => false) &&
      (s.offerAll 0 2 recs).2.isEmpty &&
      ((onK (fun c => { c with bins := fullBins 3 }) s).offerAll 0 2 (recs.map (fun r => (r.1, { r.2 with pc := 0x9000 })))).2.length == 32) &&
     (s0.offer 0 2 (aRec 0x40)).isSome && ((onK (fun c => { c with bins := fullBins 3 }) s0).offer 0 2 (aRec 0x40)).isSome &&
     ((onK (fun c => { c with bins := fullBins 64 }) s0).offer 0 2 (aRec 0x40)).isNone &&
     ((onK (fun c => { c with bins := fullBins 3 }) s0).offer 0 2 (aRec 0x9000)).isNone) = true := by decide +kernel

/-- Slot 0 of the team, slot 1 of another, slot 2 free, slot 3 of the team and in use; a team that holds its eight. -/
def slotsOf4 : Cells OpSlot := [(0, { holder := some 2 }), (1, { holder := some 5 }), (3, { holder := some 2 })]

/-- An MMA in the array that reads slot 3. -/
def mma3 : MatEnt :=
  { id := 90, team := 2, warp := 0, tile := 0, guardLab := 0, op := .mma false 0 .e4m3 .e4m3 3 0 0 0 0 0 (0, 0) }

theorem witness_SlotsClaimedAndReleased :
    (let s := at_ (onK (fun c => { c with slots := slotsOf4, matrix := [mma3] }))
     let f := at_ (onK (fun c => { c with slots := (List.range 8).map (fun k => (k, { holder := if k = 7 then none else some 2 })) }) ∘
       fun s => s.onLaunch 1 (fun l => { l with hdr := headerOf [(48, 4, 16 * 2 ^ 21 + 1), (55, 1, 7)] }))
     let holder (k : Nat) := (Cells.get (s.core 0).slots k).holder
     let ids (k : Nat) := ((s.core 0).matrix.filter (fun m => m.readsSlot k)).map (·.id) ++
       ((s.core 0).xfers.filter (fun y => y.slot == some k)).map (·.id)
     Issues (.sclaim hPT 2) s n0 && holder 2 == none && decide ((s.core 0).held 2 < (ctxOf (.sclaim hPT 2) s n0).hdr.slots) &&
     holder 0 == some 2 && holder 1 == some 5 && ids 0 == [90] && ids 3 == [90] &&
     Issues (.srel hPT 0) s n0 && Steady (.srel hPT 0) s n0 &&
     (let t := at_ (onK (fun c => { c with slots := slotsOf4 })); ((t.core 0).matrix.filter (fun m => m.readsSlot 0)).isEmpty &&
       ((t.core 0).xfers.filter (fun y => y.slot == some 0)).isEmpty && Issues (.srel hPT 0) t n0) &&
     Issues (.sclaim hPT 7) f n0 && (Cells.get (f.core 0).slots 7).holder == none &&
     decide ((ctxOf (.sclaim hPT 7) f n0).hdr.slots ≤ (f.core 0).held 2)) = true := by decide +kernel

theorem witness_MatrixInstructionsQueue :
    (let s := at_ (onK (fun c => { c with slots := slotsOf4 }) ∘ setW 11 0x8000000000000100 ∘ setW 10 0x8000000000000080)
     Issues (.mma hPT true 2 .e4m3 .e2m1 0 3 5) s n0 && Issues (.mma hPT true 2 .e4m3 .e2m1 9 3 5) s n0 &&
     ((slotOf 0).toList ++ (slotOf 3).toList).all (fun j => (Cells.get (s.core 0).slots j).holder == some 2) &&
     ((slotOf 9).toList ++ (slotOf 1).toList).find? (fun j => (Cells.get (s.core 0).slots j).holder != some 2) == some 1 &&
     (s.core 0).matrix.isEmpty && (s.core 0).xfers.isEmpty && !s.tableRaces 2 0 && !(ctxOf (.nop hPT) s n0).buffers && (s.team 2).warps.all (fun w => w.2.results.isEmpty && w.2.cbuf.isEmpty) &&
     Issues (.mscac hPT false 10 2 4) s n0 && s.formOf 2 0 0 0x8000000000000080 128 == .scr 2 0x80 &&
     s.formOf 2 0 0 0x8000000000000100 128 == .scr 2 0x100 && (ctxOf (.mscac hPT false 10 2 4) s n0).w 10 == 0x8000000000000080 &&
     (let t := at_ (setW 10 3); Issues (.mscac hPT false 10 2 4) t n0 && ((ctxOf (.mscac hPT false 10 2 4) t n0).w 10).toNat % 2 == 1)) = true := by
  decide +kernel

theorem witness_TilePortResults :
    (!s0.portBusy (s0.team n0.team).core &&
     (let b := at_ (onW (fun w => { w with results := [{ id := 99, lanes := 0xFFFFFFFF, full := true, kind := .bulk (.tile 3 .bf16) [] 0 64, regs := [(.tile 3, 0)] }] }))
      b.portBusy 0 && [Instr.aclr hPT 4, .accrd hPT .f64 .rne 63 4 4, .accwr hPT .f32 5 4 8].all (fun i => Issues i b n0 && Steady i b n0)) &&
     (s0.core (s0.team n0.team).core).matrix.isEmpty && Issues (.aclr hPT 3) s0 n0 && Issues (.accrd hPT .f64 .rne 63 3 4) s0 n0 &&
     Issues (.accwr hPT .f32 5 3 8) s0 n0) = true := by decide +kernel

theorem witness_ImagesAndCodebooksMove :
    (let s := at_ (setW 8 0x20080 ∘ setW 6 0x8000000000000080)
     Issues (.accst hPT .bf16 .rna 3 6) s n0 && Issues (.accld hPT .f32 3 6) s n0 && !(ctxOf (.nop hPT) s n0).hdr.almanac && !s.portBusy 0 &&
     (s.core 0).matrix.isEmpty && s.formOf 2 0 0 ((ctxOf (.nop hPT) s n0).w 6) (4096 * 4) == .scr 2 0x80 && s.formOf 2 0 0 ((ctxOf (.nop hPT) s n0).w 6) (4096 * 2) == .scr 2 0x80 &&
     Issues (.cbload hPT .bu .pkg 8) s n0 && (ctxOf (.nop hPT) s n0).direct .pkg &&
     (match ((ctxOf (.cbload hPT .bu .pkg 8) s n0).codebookLines s 0x20080 .bu 0).2 with
      | .ok l => l.length == 8 && localSpots l
      | .error _ => false)) = true := by decide +kernel

/-- A launch of 16 V registers. -/
def small (s : State) : State := s.onLaunch 1 (fun l => { l with hdr := headerOf [(4, 4, 0x1000), (48, 4, 16 * 2 ^ 21 + 32 * 2 ^ 14 + 62 * 2 ^ 7 + 2)] })

/-- A generator with legal fields and one with a reserved field; ranges that are empty, free, in conflict, and past 2^32. -/
theorem witness_GeneratorResults :
    (let bad := at_ (setW 11 0xFFF0000000000000)
     let free := at_ (setW 8 0x1000000000)
     let held := at_ (onC (fun c => { c with draws := [{ seed := 0, stream := 0, key := BitVec.ofNat 32 ((ctxOf (.gres hPT true 2 8) s0 n0).scopeKey 0), first := 0, count := 9 }] }) ∘
       setW 8 0x1000000000)
     let past := at_ (setW 8 0x2FFFFFFFF)
     let g (s : State) := (ctxOf (.gset hPT 5 8) s n0).w 11 ++ (ctxOf (.gset hPT 5 8) s n0).w 10 ++ (ctxOf (.gset hPT 5 8) s n0).w 9 ++ (ctxOf (.gset hPT 5 8) s n0).w 8
     let clash (s : State) := (s.context 0).draws.any (fun y => y.overlaps 0 0 (BitVec.ofNat 32 ((ctxOf (.gres hPT true 2 8) s n0).scopeKey 0)) 0 16)
     Issues (.gset hPT 5 8) s0 n0 && gsetOk (g s0) && Issues (.gset hPT 5 8) bad n0 && !gsetOk (g bad) &&
     [s0, free, held, past].all (fun s => Issues (.gres hPT true 2 8) s n0 && Issues (.gres hPT false 2 8) s n0) &&
     (ctxOf (.gres hPT true 2 8) free n0).w 8 == 0x1000000000 && field (0x1000000000#64) 63 32 == 16 && !clash free && clash held &&
     decide (2 ^ 32 < field (0x2FFFFFFFF#64) 31 0 + field (0x2FFFFFFFF#64) 63 32)) = true := by decide +kernel

/-- A transfer on a channel. -/
def xfer0 : Xfer :=
  { id := 60, team := 2, warp := 0, core := 0, ctx := 0, shape := .d1, dom := .bu, scp := .pkg, src := 0x20000, sstr := 0, rows := 1, rb := 4,
    dst := 0x21000, dstr := 0, flag := 0, srcMap := [{ vpage := 0x20, place := .dev 0x20000, mask := 0xFFFF }],
    dstMap := [{ vpage := 0x21, place := .dev 0x21000, mask := 0xFFFF }], flagMap := [], lab := 0, flagLab := 0, egress := false, overlap := false }

/-- Descriptors of a plain copy of 64 bytes with a flag, of one of no byte; a channel of 16 transfers. -/
theorem witness_ChannelInstructions :
    (let i := Instr.copy hPT .pkg .bu 12 10 8 .d1 1
     let s := at_ (setW 12 0x22000 ∘ setW 10 0x21000 ∘ setW 9 64 ∘ setW 8 0x20000)
     let x := ctxOf i s n0
     let full := at_ (onK (fun c => { c with chans := [(1, { xfers := List.replicate 16 xfer0 })] }))
     Issues i s n0 && x.direct .pkg && Issues i full n0 && Steady i full n0 && (ctxOf i full n0).direct .pkg &&
     decide (16 ≤ (full.accepted 0 1).length) &&
     copyRanges .d1 ((ctxOf i s0 n0).w 8) ((ctxOf i s0 n0).w 9) ((ctxOf i s0 n0).w 10) ((ctxOf i s0 n0).w 11) == none &&
     (match copyRanges .d1 (x.w 8) (x.w 9) (x.w 10) (x.w 11) with
      | none => false
      | some (sr, dr) =>
        let a := x.mapPages s sr .read 4 0
        let b := x.mapPages a.1 dr .write 5 0
        let c := x.mapPages b.1 { base := 0x22000, rows := 1, stride := 0, bytes := 8 } .flag 6 0
        s.rangeOk 2 0 sr false && s.rangeOk 2 0 dr true && field (x.w 12) 63 57 == 0 && field dr.base 63 60 != 12 &&
        (match a.2, b.2, c.2 with
         | .ok sm, .ok dm, .ok fm => (sm ++ dm).length == 2 && fm.length == 1 &&
           (sm ++ dm).all (fun y => peerOf y.2 == none && !floorBars .bu y.2) && fm.all (fun y => peerOf y.2 == none) &&
           dm.all (fun y => y.1.mask == 0xFFFF)
         | _, _, _ => false)) &&
     Issues (.chrst hPT 1) s0 n0 && (s0.accepted 0 1).isEmpty && Issues (.chrst hPT 1) full n0 &&
     Steady (.chrst hPT 1) full n0 && (full.accepted 0 1).all (fun z => !z.stuck)) = true := by decide +kernel

/-- A label within the set named, and one outside it. -/
theorem witness_LabelInstructions :
    (let s := at_ (onW (fun w => { w with vLab := Cells.set w.vLab 8 3 }))
     Issues (.lbchk hPT false .v 0 8 12) s0 n0 && Issues (.lbchk hPT false .v 0 8 12) s n0 &&
     (ctxOf (.nop hPT) s0 n0).lanesA.all (fun l => (ctxOf (.nop hPT) s0 n0).labelOf .v 8 &&& ~~~(((ctxOf (.nop hPT) s0 n0).v l 12).setWidth 16) == 0) &&
     (ctxOf (.nop hPT) s n0).lanesA.all (fun l => (ctxOf (.nop hPT) s n0).labelOf .v 8 &&& ~~~(((ctxOf (.nop hPT) s n0).v l 12).setWidth 16) != 0))
    = true := by decide +kernel

/-- Each special register; a running hash with records outstanding; values that SR.FPCTL and SR.FPFLAGS take and refuse. -/
theorem witness_SpecialRegisters :
    (let q := at_ (onW (fun w => { w with hashQ := [{ instr := 1, lab := 0, wait := [4], recs := [] }] }))
     let bad := at_ (setV 8 (fun _ => 0x400))
     [0x0000#16, 0x0020, 0x8010, 0x8030, 0x8060].all (fun r => Issues (.srd hPT r 4) s0 n0) && (s0.warp 2 0).hashQ.isEmpty &&
     Issues (.srd hPT 0x8060 4) q n0 && Steady (.srd hPT 0x8060 4) q n0 && isHash 0x8060 && !isHash 0x8010 && !(q.warp 2 0).hashQ.isEmpty &&
     [0x8030#16, 0x8032, 0x0030, 0x0031, 0x0032, 0x0033, 0x0050, 0x0070, 0x0020, 0x0021].all (fun r => Issues (.swr hPT r 8) s0 n0) &&
     fpctlOk ((ctxOf (.swr hPT 0x0020 8) s0 n0).v 0 8) && Issues (.swr hPT 0x0020 8) bad n0 && !fpctlOk ((ctxOf (.swr hPT 0x0020 8) bad n0).v 0 8) &&
     (ctxOf (.swr hPT 0x0021 8) s0 n0).lanesA.all (fun l => field ((ctxOf (.swr hPT 0x0021 8) s0 n0).v l 8) 31 5 == 0)) = true := by
  decide +kernel

theorem witness_IndexedRegistersAndCode :
    (let s := at_ (setV 8 (fun l => BitVec.ofNat 32 (if l = 3 then 255 else l % 16)) ∘ small)
     let t := at_ (setV 8 (fun l => BitVec.ofNat 32 (16 + l)) ∘ small)
     let inside (s : State) (l : Nat) : Bool := decide ((ctxOf (.vrdx hPT 4 8) s n0).index 8 l < 16) || decide ((ctxOf (.vrdx hPT 4 8) s n0).index 8 l = 255)
     (ctxOf (.vrdx hPT 4 8) s n0).hdr.vregs == 16 && Issues (.vrdx hPT 4 8) s n0 && Issues (.vwrx hPT 8 12) s n0 && (List.range 32).all (inside s) &&
     Issues (.vrdx hPT 4 8) t n0 && (List.range 32).all (fun l => !inside t l) && Issues (.isync hPT) s0 n0 &&
     (let u := at_ (setVa 8 0x10000 128)
      Issues (.iinv hPT 8 12) u n0 && (List.range 32).all (fun l => field ((ctxOf (.iinv hPT 8 12) u n0).v2 l 8) 63 60 == 0))) = true := by
  decide +kernel

/-- A region of one page; one of none; a store outstanding; a policy for its label within the context's origins. -/
theorem witness_ReleaseAndItsGate :
    (let i := Instr.release hPT 8 4 5 6
     let s := at_ (setW 6 9 ∘ setW 5 4096 ∘ setW 4 0x20000 ∘ (fun s => { s with
       policies := [{ id := 9, set := 2, dest := 3, byteLimit := 8192, rateLimit := 8192, regionLimit := 8192 }], frameLab := [(0x20, 2)] }) ∘
       setVf (fun v => { v with ovalid := true, origin := 1 }))
     let p : State := { s with accesses := [pendingStore] }
     let x := ctxOf i s n0
     let g := s.gateStep 0 0x20000 4096 9 [0x20]
     Issues i s n0 && (x.w 5) == 4096 && (s.earlierIds 2 0 0xFFFFFFFF .all .pkg).isEmpty &&
     (match (x.regionPages s 0x20000 0 1).2 with | .ok ps => ps == [.dev 0x20000] | .error _ => false) && g.2.1 == 0 && g.2.2 == 1 &&
     (s.gateStep 0 0x20000 4096 8 [0x20]).2.1 != 0 && Issues i s0 n0 && (ctxOf i s0 n0).w 5 == 0 &&
     Issues i p n0 && Steady i p n0 && (p.earlierIds 2 0 0xFFFFFFFF .all .pkg).any (fun y => p.pendingAt 2 y.1 y.2)) = true := by
  decide +kernel

/-- Empty stacks, full ones, one whose entry expects the strand; a slice all of whose strands stand at the JOIN. -/
theorem witness_ReconvergencePushesAndMerges :
    (let full := at_ (onW (fun w => { w with slices := w.slices.map (fun k => (k.1, { k.2 with recon := List.replicate 40 { pc := 0x10040, mask := 0xF } })) }))
     let j := at_ (onW (fun w => { w with slices := w.slices.map (fun k => (k.1, { k.2 with recon := [{ pc := 0x10000, mask := 0xF }] })) }))
     (units.map (·.1)).Nodup && Issues (.jpush hPT 0x38) s0 n0 && units.all (fun u => decide (((s0.warp 2 0).slice u.1).recon.length < 8)) &&
     Issues (.jpush hPT 0x38) full n0 && units.all (fun u => decide (40 ≤ ((full.warp 2 0).slice u.1).recon.length)) &&
     Issues (.join hPT) j n0 && units.all (fun u => decide (((j.warp 2 0).slice u.1).spilled = 0)) &&
     (let x : Slice := { recon := [{ pc := 0x10040, mask := 7 }],
                         strands := [(0, { pc := 0x10040, mask := 1, st := .atJoin }), (1, { pc := 0x10040, mask := 2, st := .atJoin })] }
      x.strands.all (fun y => y.2.st == .atJoin && y.2.pc == 0x10040 && y.2.mask &&& ~~~(7#4) == 0 && !y.2.mark) &&
      (7#4 &&& ~~~(x.strands.foldl (fun (m : BitVec 4) y => m ||| y.2.mask) 4)) == 0)) = true := by decide +kernel

/-- A trap strand alone at its TRET, its frame's next PC aligned, and misaligned. -/
theorem witness_TrapReturnRestores :
    (let n : Now := { n0 with gang := false, units := [(3, 0)] }
     let st (next : Nat) : State := { at_ (fun s => onW (fun w => w.mapStrands (fun _ x => { x with trap := true }))
       { s with mem := Cells.writeLE s.mem (0x20000 + 3 * 256 + 24) 8 next }) with now := some n }
     let i := Instr.tret hPT
     Issues i s0 n0 && !(ctxOf i s0 n0).inTrap &&
     [0x10040, 0x10044].all (fun next =>
       let s := st next
       let x := ctxOf i s n
       Issues i s n && x.inTrap && (s.earlierIds 2 0 x.act (.one .sc) .team).isEmpty && (s.warp 2 0).edges.isEmpty &&
       x.lanesA.all (fun l => l / 4 == 3) && x.lanesA == [12, 13, 14, 15] && (x.askLines s (x.frameAsks s)).isNone &&
       (match (x.frameRead s (x.warp.frame 3) (tretReads x.hdr.vregs x.lanesA)).2 with
        | .ok (xs, _, none) => readAt xs 24 + readAt xs 28 * 2 ^ 32 == next
        | _ => false))) = true := by decide +kernel

/-- The placed program when nobody issues. -/
def idle (f : State → State) : State := { f s0 with now := none }

/-- A pending software trap of slice 3; a vector that is misaligned; a strand that traps, plain and in a trap. -/
theorem witness_TrapsAreRaisedAndEntered :
    (let t : TrapRec := { entry := 0, mask := 0xF, pc := 0x10000, word := 0, next := 0x10008, gang := true, delayed := false,
                          lanes := [{ lane := 12, cause := .software, detail := 7 }] }
     let s := idle (onW (fun w => w.onSlice 3 (fun x => { x with pending := [t] })))
     let m := idle (onW (fun w => { w.onSlice 3 (fun x => { x with pending := [t] }) with tvec := 4 }))
     ((s.warp 2 0).slice 3).pending == [t] && (s.warp 2 0).trapAddrOk 3 && !(m.warp 2 0).trapAddrOk 3 &&
     (match (s.translate 0 0 ((s.warp 2 0).frame 3) .write).2 with | .ok (.dev pa, _) => pa == 0x20300 | _ => false) &&
     (Cells.find? ((s.warp 2 0).slice 3).strands 0).isSome && (Cells.find? s.teams 2).isSome &&
     [false, true].all (fun b => let u := idle (onW (fun w => w.mapStrands (fun _ x => { x with trap := b })))
       ((u.warp 2 0).slice 3).strands.length == 1 && (((u.warp 2 0).slice 3).strand 0).trap == b)) = true := by decide +kernel

/-- An entry that waits to be written. -/
def entry7 : FqEntry := { seq := 7, kind := 1, va := 0x5000, body := 7, lab := 2, written := false }

theorem witness_FaultsAndEndsAreQueued :
    ((Cells.find? s0.contexts 0).isSome && decide ((s0.context 0).fqNext < 2 ^ 64) && decide (s0.warpGlobal 2 0 < 2 ^ 64) &&
     decide ((s0.launch (s0.team 2).launch).serial < 2 ^ 32) && (s0.context 0).st != .ended &&
     ((onC (fun c => { c with st := .ended }) s0).context 0).st == .ended && (Cells.find? s0.contexts 5).isNone &&
     (let s := idle (onC (fun c => { c with entries := [entry7] }))
      let b : State := { s with halves := [((0x80000 + 448) / 64, .host)] }
      s.ctxKey 0 0 == some 0 && (s.context 0).fqDue == some entry7 && s.mayWrite ((s.context 0).fqSlot 7) 64 &&
      rangeInDram ((s.context 0).fqSlot 7) 64 && !b.mayWrite ((b.context 0).fqSlot 7) 64)) = true := by decide +kernel

/-- One access in flight. -/
def with1 (a : Access) : State := idle (fun s => { s with accesses := [a] })

/-- A store, a flag's increment, a group of two lanes, a compare and swap, one to a scratchpad, one to a peer, one that waits. -/
theorem witness_AccessesArePerformed :
    ([{ pendingStore with op := .store 5 }, { pendingStore with op := .flagAdd, size := 8 },
      { pendingStore with op := .rmw .add false [(0, 1), (1, 2)] }, { pendingStore with op := .cas [(0, 1, 0)] 0 },
      { pendingStore with op := .cas [(0, 1, 9)] 0 }, { pendingStore with place := .scr 2 0x40 },
      { pendingStore with place := .peer 1 0 0x1000 }].all (fun a =>
        (with1 a).accesses.find? (fun x => x.id == 77) == some a && (with1 a).ready a && (with1 a).budgetFor a && !a.priv &&
        !(with1 a).poisoned a.place a.size && !(with1 a).straddles a.place a.size) &&
     (let a := { pendingStore with op := .flagAdd, size := 8 }
      ({ with1 a with poison := [0x20000 / 128] } : State).poisoned a.place 8) &&
     (Cells.find? s0.teams 2).isSome && Cells.readLE s0.mem 0x20000 4 == 0 &&
     (let a := { pendingStore with after := [(78, .pkg)] }
      let s : State := { with1 a with accesses := [a, { pendingStore with id := 78 }] }
      s.accesses.find? (fun x => x.id == 77) == some a && !s.ready a)) = true := by decide +kernel

/-- A warp's results. -/
def withResults (rs : List Result) (s : State) : State := onW (fun w => { w with results := rs }) s

theorem witness_ResultsReturn :
    (let done : Result := { id := 50, lanes := 0xFFFFFFFF, full := true, kind := .done }
     let whole : Result := { id := 50, lanes := 3, full := true, kind := .mem 4 4 false [(0, 5), (1, 6)] 2 3 }
     let one : Result := { id := 50, lanes := 1, full := true, kind := .mem 4 4 false [] 0 1 }
     let a : Access := { pendingStore with op := .load, res := 50, nol1 := true }
     let s := idle (withResults [one] ∘ fun s => { s with accesses := [a] })
     (idle (withResults [done])).accesses.isEmpty && ((idle (withResults [done])).warp 2 0).result? 50 == some done &&
     ((idle (withResults [whole])).warp 2 0).result? 50 == some whole && gathered [(0, 5), (1, 6)] 3 && decide (4 + sizeWords 4 ≤ 255) &&
     (Cells.find? s.teams 2).isSome && (s.warp 2 0).result? 50 == some one && s.accesses == [a] && s.ready a && s.budgetFor a &&
     !s.poisoned a.place 4 && !s.straddles a.place 4 && !s.onArray 2 0 50 && (1#32).getLsbD 0) = true := by decide +kernel

theorem witness_UpdatesAndTimers :
    (let u : Update := { id := 40, team := 2, core := 5, pa := 0x20004, bytes := [1, 2] }
     let s := idle (fun s => { s with updates := [u], cycle := 100, cores := [(5, { l1 := [(0x400, {})] }),
       (6, { bins := [(1, { team := 2, pc := 0x40, recs := [aRec 0x40], timer := some 90 }), (2, { team := 2, pc := 0x40, timer := some 900 })] })] })
     let d (n : Nat) := onW (fun w => w.mapStrands (fun _ x => { x with st := .waiting (.doze 20 n) })) s
     s.updates.find? (fun x => x.id == 40 && x.core == 5) == some u && (Cells.find? (s.core 5).l1 0x400).isSome &&
     (s.updates.takeWhile (fun v => v != u)).isEmpty &&
     (((d 80).warp 2 0).strand 3 0).st == .waiting (.doze 20 80) && decide (20 + 80 ≤ (d 80).cycle) && decide ((d 81).cycle < 20 + 81) &&
     (Cells.get (s.core 6).bins 1).timer == some 90 && decide (90 ≤ s.cycle) && decide (s.cycle < 900) &&
     (Cells.get (s.core 6).bins 2).timer == some 900) = true := by decide +kernel

theorem witness_MatrixArrayRuns :
    (let a (m : MatEnt) (l : Nat) := idle (onK (fun c => { c with matrix := [m] }) ∘ withResults [{ id := 90, lanes := 0xFFFFFFFF, full := true, kind := .matrix }] ∘
       fun s => { s with cycle := 500, power := { s.power with limit8 := l } })
     let m : MatEnt := { mma3 with op := .mma true 2 .e4m3 .e2m1 0 3 0 0 0 0 (0, 0) }
     let run : MatEnt := { m with start := some 100, finish := 400, steps := 3 }
     let sc : MatEnt := { m with op := .mscac false 1 0x8000000000000080 0x8000000000000100 (.scr 2 0x80, .scr 2 0x100), start := some 1, finish := 2 }
     (a m 32).arrayBudget 0 m && decide (((a m 32).core 0).recent 500 + 3 ≤ 32) && decide (2 < ((a m 2).core 0).recent 500 + 3) &&
     (a m 32).runs m.team && (Cells.find? (a run 32).teams 2).isSome && !run.torn && !(a run 32).clashed run && run.stopAt.isNone && decide (run.finish ≤ (a run 32).cycle) && !(a sc 32).clashed sc && decide (sc.finish ≤ (a sc 32).cycle)) = true := by
  decide +kernel

/-- The last byte of a transfer, its destination admitting the source's label, and not. -/
theorem witness_CopiesDeliver :
    (let x : Xfer := { xfer0 with done := 3 }
     let n : Xfer := { x with dstMap := [{ vpage := 0x21, place := .dev 0x21000, mask := 1 }] }
     let s (y : Xfer) := idle (onK (fun c => { c with chans := [(1, { xfers := [y] })] }) ∘ fun s => { s with frameLab := [(0x20, 2)] })
     [x, n].all (fun y => (s y).chanXfers 0 1 == [y] && y.done + 1 == y.total && y.flag == 0 && !y.toSlot && y.fromAt y.done == some (.dev 0x20003) &&
       !y.stuck && y.wire.isNone && !y.overlap && y.inbuf.isEmpty && y.lag == 0 && !(s y).straddles (.dev 0x20003) 1 && !(s y).chrstDue 0 1 &&
       !((s y).context y.ctx).unbinding && !(s y).updating y.id y.scp y.team && (s y).fabric.peerLines.isEmpty &&
       (pageOf y.dstMap (y.dstAt y.done)).isSome && !(s y).copyBlocked y && !(s y).poisoned (.dev 0x20003) 1) &&
     Cells.get (s x).frameLab 0x20 &&& ~~~(0xFFFF#16) == 0 && Cells.get (s n).frameLab 0x20 &&& ~~~(1#16) != 0) = true := by decide +kernel

/-- A launch that waits for a place; a warp that is over and one that is not; a launch that is over. -/
theorem witness_LaunchesRunAndRetire :
    (let s := idle (fun s => { s with teams := [], cores := [], launches := s.launches.map (fun l => (l.1, { l.2 with placed := 0 })) })
     let w := idle (onW (fun w => { w with exited := 0xFFFFFFFF, slices := [] }))
     let o := idle (fun s => { s with teams := [], launches := s.launches.map (fun l => (l.1, { l.2 with retired := 1, keys := [2] })) })
     s.order == [1] && (match s.firstCheck 1 with
       | .fail _ | .wait _ => false
       | .go t => t.displacedOf 1 == none && (t.context (t.launch 1).ctx).handle.isSome && (t.launch 1).hdr.teamsPer == 1 &&
         (Cells.find? t.teams t.nextId).isNone && (t.groupsFor (t.launch 1).ctx (t.launch 1).hdr).contains 0 && t.fits (t.launch 1).hdr 0) &&
     (Cells.find? (w.team 2).warps 0).isSome && !w.almanac 2 && w.warpOver 2 0 && !s0.warpOver 2 0 &&
     (Cells.find? o.launches 1).isSome && (Cells.find? o.contexts (o.launch 1).ctx).isSome && o.launchOver 1) = true := by decide +kernel

/-- A request in a recording launch that reaches its order point, and one behind another; quanta that have ended, and not. -/
theorem witness_OrderPointsAndCommitPoints :
    (let a : Access := { pendingStore with window := some 1 }
     let b : Access := { a with id := 78 }
     let s := idle (setHdr [(4, 4, 2), (176, 8, 0x90000)] ∘ fun s => { s with accesses := [a, b] })
     let c (q : Bool) := idle (setHdr [(4, 4, 1)] ∘ onW (fun w => { w with atQuantum := q }))
     s.accesses.find? (fun x => x.id == 77) == some a && s.accesses.find? (fun x => x.id == 78) == some b &&
     s.reaches 1 1 a && !s.reaches 1 1 b && (s.launch 1).hdr.record && s.heldAt 1 1 a && s.logMay 0 ((s.launch 1).hdr.log + 8) &&
     (s.gate 1 1).run == none && ((s.gate 1 1).passed + 1) % 1024 != 0 &&
     (let q : State := { c true with cores := [], deferred := [], clusters := [] }
      q.commitDue 1 && !(c false).commitDue 1 && (q.warp 2 0).atQuantum && q.launchWarps 1 == [(2, 0)] && (Cells.find? q.launches 1).isSome &&
      (q.launch 1).commit.isNone && !q.commitOpen 1 && (Cells.keys q.teams).Nodup && q.teams.all (fun p => p.2.bars.isEmpty && !p.2.warps.isEmpty) &&
      q.accesses.isEmpty && (q.warp 2 0).restsAt (q.commitClock 1))) = true := by
  decide +kernel

/-- A command: type, context number, operand words. -/
def command (type num : Nat) (ops : List Nat) : BitVec 512 :=
  BitVec.ofNat 512 (type + 0xABCD * 2 ^ 32 + num * 2 ^ 64 + ops.zipIdx.foldl (fun n x => n + x.1 * 2 ^ (128 + 64 * x.2)) 0)

/-- VF 0 with an origin slot bound. -/
def host (f : State → State) : State :=
  idle (fun s => f (setVf (fun v => { v with ovalid := true, origin := 1 }) { s with origins := [(1, { st := .bound }), (2, { st := .bound })] }))

/-- Takes the command, which names context 0. -/
def takesFor (s : State) (c : BitVec 512) : Bool := Takes s (.vf 0) c && s.namedContext (.vf 0) c == some 0

theorem witness_CommandsSteerContexts :
    (let s := host id
     let saved := host (onC (fun c => { c with st := .saved }))
     Takes s (.vf 0) (command 3 0 [0x1000, 0x2000]) && Takes s0 (.vf 0) (command 3 0 []) && !(s0.vf 0).ovalid && (s.vf 0).ovalid &&
     s.freeNumber 0 == some 1 && Takes s (.vf 0) (command 6 9 []) && s.namedContext (.vf 0) (command 6 9 []) == none &&
     Takes s (.vf 0) (command 7 9 []) && s.namedContext (.vf 0) (command 7 9 []) == none &&
     [command 1 0 [0x40000], command 1 0 [0x40020], command 2 0 [7], command 2 0 [0x107], command 4 0 [], command 6 0 [], command 7 0 []].all (takesFor s) &&
     s.deferred.isEmpty && !s.rolledBack 0 && takesFor saved (command 6 0 []) && takesFor saved (command 7 0 []) && !saved.rolledBack 0 &&
     (s.commandAsk (.vf 0) (some (command 1 0 [0x40000]))).isNone && ((s.recorded (.vf 0) (command 1 0 [0x40000])).hostHeader 0 0x40000).2 == some (0, 0) &&
     (let t := host (onC (fun c => { c with root := 0x5000 }))
      takesFor t (command 1 0 [0x40000]) && (t.commandAsk (.vf 0) (some (command 1 0 [0x40000]))).isNone &&
      (((t.recorded (.vf 0) (command 1 0 [0x40000])).hostHeader 0 0x40000).2).isNone) &&
     (s.context 0).st == .live && (saved.context 0).suspendedFrom.isNone && !saved.ctxSuspended 0 && s.accesses.isEmpty &&
     s.cores.all (fun y => y.2.chans.all (fun c => c.2.xfers.isEmpty)) && s.contexts.all (fun y => !y.2.unbinding) &&
     (let t := host (fun s => { s with mem := Cells.writeLE s.mem 0x40000 192 wordHeader.toNat })
      takesFor t (command 1 0 [0x40000]) && (t.commandAsk (.vf 0) (some (command 1 0 [0x40000]))).isNone && ((t.recorded (.vf 0) (command 1 0 [0x40000])).hostHeader 0 0x40000).2 == some (wordHeader, 0) &&
      wordHeader.valid && decide (wordHeader.nbv < 2) && t.storeFree 0)) = true := by decide +kernel

/-- An entry whose strands are not placed, and one under which a strand of slice 3 is parked. -/
theorem witness_CommandsAnswerFaults :
    (let e : FqEntry := { entry7 with written := true }
     let p : ParkRec := { info := { kind := 1, access := 1, va := 0x5000 }, seq := 7, warpWide := false, multi := false }
     let s := host (onC (fun c => { c with entries := [e] }))
     let q := host (onC (fun c => { c with entries := [e] }) ∘ onW (fun w => w.onStrand 3 0 (fun x => { x with st := .onFault p })))
     [0, 1, 2].all (fun a => takesFor s (command 5 0 [7, a]) && takesFor q (command 5 0 [7, a])) &&
     (s.context 0).entries.find? (fun f => f.seq == 7 && f.kind != 0x20) == some e && (s.parkedUnder 0 7).isEmpty &&
     (match q.parkedUnder 0 7 with
      | [y] => y.strand.st == .onFault y.info && !y.info.deliver && (Cells.find? q.teams y.team).isSome &&
        (q.warp y.team y.warp).strand y.slice y.entry == y.strand && (q.warp y.team y.warp).slices.all (fun z =>
          z.2.recon.isEmpty && z.2.pending.isEmpty && decide (z.2.spilled = 0) &&
          z.2.strands.all (fun q => q.2.st != .atRegang))
      | _ => false)) = true := by decide +kernel

theorem witness_CommandsOnPagesAndWindows :
    (let s := host id
     let inval (ids : List Nat) := host (fun s => { s with invals := [((1, 5), 0, 0x20, 1, ids)], accesses := [pendingStore] })
     let flip (b : Bool) := host (fun s => { s with flips := [{ port := 1, jseq := 5, frame := 0x4000, toDevice := b }] })
     takesFor s (command 8 0 [0x20000, 0x1000]) && takesFor s (command 10 0 [2]) && takesFor s (command 10 0 [0x82, 0x20000, 0x100]) &&
     (s.context 0).windows.isEmpty && (inval []).invals.find? (fun v => v.1 == (1, 5)) == some ((1, 5), 0, 0x20, 1, []) &&
     [77].any ((inval [77]).onTheWay 0) && !(([] : List Nat).any ((inval []).onTheWay 0)) &&
     [0, 1].all (fun b => Takes s .pf (command 9 0 [0x4000, b])) && s.flips.isEmpty && !s.bias.contains 4 &&
     [true, false].all (fun b => (flip b).flips == [{ port := 1, jseq := 5, frame := 0x4000, toDevice := b }] && !(flip b).midLine 0x4000)) = true := by
  decide +kernel

/-- A policy blob and a join request in host memory, at host physical address 0x4000. -/
def blob (n : Nat) (s : State) : State := { s with hostMem := Cells.writeLE s.hostMem 0x4000 128 n }
def policyBlob : Nat := 1 + 2 * 2 ^ 32 + 2 * 2 ^ 48 + 9 * 2 ^ 64 + 8192 * 2 ^ 128 + 8192 * 2 ^ 192 + 8192 * 2 ^ 256
def joinBlob : Nat := 1 + 1 * 2 ^ (8 * 17) + 0x5000 * 2 ^ (8 * 24) + 0x6000 * 2 ^ (8 * 32)
def enrolOps (op : Nat) : List Nat := [op + 6 * 2 ^ 32, 100, 3 + 1 * 2 ^ 20]

/-- A group of modules 0 and 1 that this module belongs to. -/
def group1 : Group :=
  { interval := 100, phys := [0, 1], members := 3, self := 0, buddy := 1, ctx := 0, port := 1, jseq := 1, st := .running, n := 4, committed := 4 }
def withGroup (g : Group) (s : State) : State := { s with fabric := { s.fabric with groups := [(6, g)] } }

theorem witness_CommandsOfTenants :
    (let s := host (blob policyBlob)
     let b := s.hostBytes 0 0x4000 64
     let p := policyOf b s.period
     Takes s (.vf 0) (command 11 0 [0x4000]) && policyOk b && (p.dest :: slotsOf p.set).all (fun x => (s.origin x).st == .bound) && s.policies.isEmpty &&
     (let r := host (fun s => { s with policies := [p] })
      Takes r (.vf 0) (command 11 0 [0, 1, 9]) && r.policies.find? (fun p => p.id == 9 && (p.set &&& r.originOf 0 != 0)) == some p) &&
     (let j := host (fun s => (blob joinBlob s).onVf 1 (fun v => { v with ovalid := true, origin := 2 }))
      let q := j.hostBytes 0 0x4000 128
      let k := j.onVf 1 (fun v => { v with join := some { req := q.take 64, port := 2, jseq := 1 } })
      Takes j (.vf 0) (command 12 0 [0x4000]) && joinOk q 0 32 && (j.vf 0).ovalid && (j.vf 1).ovalid && (j.vf 1).join == none && (j.vf 0).join == none &&
      Takes k (.vf 0) (command 12 0 [0x4000]) && k.freeNumber 0 == some 1 && k.freeNumber 1 == some 0 &&
      (k.vf 1).join.map (·.req) == some (q.take 64)) &&
     (let e := host (setVf (fun v => { v with peers := [(1, (1, 2))] }))
      let g := host (withGroup group1)
      let c := host (withGroup { group1 with st := .copying })
      takesFor e (command 13 0 (enrolOps 0)) && !e.enrolled 0 && (Cells.find? e.fabric.groups 6).isNone && e.fabric.reports.isEmpty && e.placesFit 0 3 0 &&
      takesFor g (command 13 0 (enrolOps 1)) && takesFor c (command 13 0 (enrolOps 1)) && (Cells.find? c.fabric.groups 6).isSome) &&
     (let a := host (fun s => s.onVf 3 (fun v => { v with suspended := true, peers := [(1, (1, 2))] }))
      Takes a .pf (command 13 0 (enrolOps 2)) && (List.range 32).find? (fun v => (a.vf v).suspended && a.placesFit v 3 0) == some 3 &&
      a.ctxKey 3 0 == none && (Cells.find? a.fabric.groups 6).isNone &&
      [0, 3].all (fun v => Takes a .pf (command 14 0 [v + 2 ^ 16 + 2 ^ 24, 1 + 2 * 2 ^ 8])) && !(a.vf 0).suspended && a.self == 0 && decide (1 < a.power.image.nModules)) &&
     s.hasPort (.vf 0) && !s.portHeld (.vf 0) && !operandsOk (.vf 0) (command 2 0 [512])) = true := by decide +kernel

theorem witness_SavesAndSuspensions :
    (let fr (n : Nat) := setVf (fun v => { v with free := List.range n })
     let sv (n : Nat) := host (fr n ∘ onC (fun c => { c with st := .saving }))
     let re (f : Context → Context) := host ((fun s => { s with teams := [] }) ∘ onC (fun c => f { c with st := .restoring, save := some {} }))
     (sv 600).ctxKey 0 0 == some 0 && (sv 600).stopped 0 && ((sv 600).context 0).save == none && !((sv 600).context 0).stalled && ((sv 600).context 0).suspendedFrom.isNone && ((sv 600).context 0).resumeJ == [] &&
     decide ((sv 600).framesNeeded (((sv 600).teamsOf 0).map (sv 600).toSave) ≤ ((sv 600).vf 0).free.length) &&
     decide (((sv 0).vf 0).free.length < (sv 0).framesNeeded (((sv 0).teamsOf 0).map (sv 0).toSave)) &&
     (re id).saveIntact {} && ((re id).context 0).handle.isSome && !((re id).context 0).again && ((re id).context 0).answered.isEmpty && (match (re id).putSave {} with
       | some u => Cells.find? u.contexts 0 == Cells.find? (re id).contexts 0
       | none => false) &&
     (let t : State := { re id with mem := Cells.writeLE [] 0x10010 8 5 }; !t.saveIntact { frames := [0x10] }) &&
     !((host id).vf 0).suspend && ((host (setVf (fun v => { v with suspend := true }))).port 1).queue.isEmpty &&
     field (0x5000#64) 11 0 == 0 && rangeInDram 0x5000 4096 && field (0x5008#64) 11 0 != 0) = true := by decide +kernel

theorem witness_TenancyOriginsAndRegisters :
    (let o (st : OriginSt) := idle (fun s => { s with origins := [(1, { st })] })
     let e : State := { o .unbinding with teams := [] }
     field (0x11A#64) 63 12 == 0 && field (0x110#64) 7 5 == 0 && decide (field (0x111#64) 10 8 < 6) && bit (0x111#64) 4 && field (0x111#64) 3 0 == 1 &&
     !(o .bound).hasContext 3 && ((o .bound).origin 1).st == .bound && !bit (0x100#64) 4 && decide (6 ≤ field (0x600#64) 10 8) &&
     !(o .bound).contexts.any (fun c => c.2.st != .ended && ((o .bound).origins_ c.2).getLsbD 1) &&
     (let b := setVf (fun v => { v with ovalid := true, origin := 1 }) (o .bound)
      b.contexts.any (fun c => c.2.st != .ended && (b.origins_ c.2).getLsbD 1)) &&
     (e.origin 1).st == .unbinding && e.teams.isEmpty && s0.spdm == none && (List.range 16).find? (fun n => (s0.origin n).st == .free) == some 0 &&
     (s0.origin 0).st != .unbinding && (o .unbinding).spdm.isNone &&
     (let f := idle (fun s => { s with spdm := some [], origins := (List.range 16).map (fun n => (n, { st := .bound })) })
      f.spdm == some [] && (List.range 16).all (fun n => (f.origin n).st != .free)) &&
     (List.replicate 32 (7#8)).length == 32 && bit (0x80#64) 7 && !bit (0x80#64) 6 && field (1#64) 63 1 == 0 &&
     s0.contexts.all (fun y => !y.2.unbinding && !y.2.ofVf 9) && s0.accesses.isEmpty && s0.cores.all (fun y => y.2.chans.all (fun c => c.2.xfers.isEmpty)) &&
     (s0.contexts.filter (fun c => c.2.ofVf 0)).map (·.1) == [0]) = true := by decide +kernel

theorem witness_PeriodsErrorsAndSleep :
    (let p := idle (fun s => { s with cycle := 10799, dies := [(2, { forwarded := true })], budgets := [(0, { next := [(1, 5)] })] })
     let k := idle (onK (fun c => { c with slots := slotsOf4 }))
     let z := idle (onK (fun c => { c with sleep := some { gen0 := 0, count := 32768, lines := [], overflow := false } }))
     p.periodEnds && !s0.periodEnds && p.genDue 2 && !p.genDue 3 &&
     (let d (b : Bool) := idle (fun s => { s with dies := [(lineDie 9, { l2 := [(lineSet 9, [{ line := 9, dirty := b }])] })] })
      [true, false].all (fun b => (Cells.get ((d b).die (lineDie 9)).l2 (lineSet 9)).any (fun x => x.line == 9 && x.dirty) == b)) &&
     (let w (c : Nat) (o : Bool) (ls : List (Nat × Dom)) := idle (onK (fun k => { k with l1 := [(5, {})], sleep := some { gen0 := 0, count := c, lines := ls, overflow := o } }))
      [w 5 false [(5, .bu)], w 5 false [], w 5 true [], w 32768 false []].all (fun s => (s.core 0).sleep.isSome && (Cells.find? (s.core 0).l1 5).isSome)) && (Cells.find? p.budgets 0).isSome &&
     (Cells.get (k.core 0).slots 2).holder == none && (Cells.get (k.core 0).slots 1).holder == some 5 &&
     (Cells.find? (s0.core 0).l1 9).all (fun x => x.dirty == 0) && s0.teams.any (fun x => x.2.core == 0) && !s0.teams.any (fun x => x.2.core == 1) &&
     (s0.core 1).sleep == none && (z.core 0).sleep.isSome) = true := by decide +kernel

/-- What a cast-on sequence meets when all is well, with one binding. -/
def goodCastOn : CastOn :=
  { islandsOk := true, stacksOk := true, links := [], image := { Image.atReset with bindings := [(3, List.replicate 32 9)] }, imageOk := true, cxlOk := true }

theorem witness_PowerAndManagement :
    (goodCastOn.image.inRange && !({ goodCastOn.image with vfs := 0 } : Image).inRange && decide (47999 < 48000) && decide (54000 < 54001) &&
     s0.power.frequency.isEmpty && decide (9 < s0.grantOf 0 1) && (Cells.find? (Cells.get s0.budgets 0).next 1).isNone) = true := by decide +kernel

/-- A flit of module 1 to this one. -/
def flit1 (vn seq : Nat) (body : FlitBody) : Flit := { vn, src := 1, dst := 0, seq, lab := 2, tokens := [], body }
def aStore : FlitBody := .request 77 0 0x20000 0 .pkg (.store 4 5)

theorem witness_FlitsAndLinks :
    (let s := idle (fun s => { s with fabric := { s.fabric with expect := [(8, 3)] } })
     let q := idle (fun s => { s with fabric := { s.fabric with sent := [{ flit1 0 6 aStore with src := 0, dst := 1 }] }, accesses := [{ pendingStore with sent := true }] })
     let l (k : Link) (c : Nat) := idle (fun s => { s with cycle := c, fabric := { s.fabric with links := [(0, k)] } })
     s.self == 0 && ordered 0 && !s.fabric.dead.contains 1 && s.fabric.held.isEmpty && Cells.get s.fabric.expect (1 * 8 + 0) == 3 &&
     s.mayServe { src := 1, tag := 77, vf := 0, vn := 0, scp := .pkg, lab := 2 } 0x20000 4 true && (s.link 0).trained && (s.link 0).up && !s.liveOf 0 (flit1 0 3 aStore) && s.fabric.liveAt.isNone && (q.fabric.sent.find? (fun f => f.dst == 1 && f.vn == 0 && f.seq == 6)).isSome &&
     (q.accesses.find? (fun a => a.id == 77 && a.sent)).isSome && s.reachable == [1] && (List.range 15).any s.portUsed &&
     (match (List.range 15).find? s.portUsed with
      | some p => (l {} 50000).portUsed p && ((l {} 50000).link p).trained && ((l {} 50000).link p).up && !((l { up := false, lastLive := 2990000 } 3000000).link 0).up &&
         decide (0 + 2700000 ≤ (l { up := false, lastLive := 2990000 } 3000000).cycle) && decide ((l { up := false, lastLive := 2990000 } 3000000).cycle < 2990000 + 43200)
      | none => false) &&
     decide (0 + 43200 ≤ 50000) && decide (0 + 2700000 ≤ 3000000) && decide (1 < s.power.image.nModules) && s.fabric.groups.isEmpty &&
     (s.lostAccess 0 1).isNone && decide (Cells.get (l {} 200000).fabric.silentFrom 1 + 172800 ≤ (l {} 200000).cycle) &&
     decide ((l {} 5).cycle < Cells.get (l {} 5).fabric.silentFrom 1 + 172800)) = true := by decide +kernel

theorem lostAccess_none_of_empty (k : Nat) : s0.lostAccess k 1 = none := rfl

/-- A group of modules 0 and 1 in each state of a checkpoint, led by this module, and by module 0 of two others. -/
theorem witness_CheckpointSteps :
    (let s (g : Group) (n : Nat) := idle (withGroup g ∘ setVf (fun v => { v with free := List.range n }) ∘ fun s => { s with teams := [] })
     let q : Group := { group1 with st := .quiescing, n := 5 }
     let far (s : State) : State := { s with power := { s.power with image := { s.power.image with moduleId := 1 } } }
     let c : Group := { group1 with st := .copying, n := 5, cutN := 5, ranges := [(0x20000, 0x1000)] }
     Cells.find? (s group1 0).fabric.groups 6 == some group1 && (s group1 0).leads group1 && decide (group1.due ≤ (s group1 0).cycle) && !group1.dissolve &&
     decide ((s { group1 with due := 9 } 0).cycle < 9) && (s q 0).drainedOf 0 && !(far (s q 0)).leads q &&
     !q.drainedBy.contains (far (s q 0)).self && (far (s q 0)).self == 1 && q.phys.contains 0 && !q.drainedBy.contains 0 &&
     decide ((s q 600).framesNeeded ((s q 600).imageTeams 0) ≤ ((s q 600).vf 0).free.length) &&
     decide (((s q 0).vf 0).free.length < (s q 0).framesNeeded ((s q 0).imageTeams 0)) && (let c : Group := { group1 with st := .sound, n := 5, cutN := 5 }; c.st == .sound && c.cutN == c.n) &&
     c.owesPreImage 0x20 && ((s c 600).vf 0).free.head? == some 0 && c.unacked.isEmpty && !(far (s c 0)).leads c && !c.soundBy.contains 1 &&
     !(s { group1 with st := .rollback } 0).enrolled 5 && !((s { group1 with st := .rollback } 0).vf 0).suspend && !((s group1 0).context 0).again &&
     group1.lost.isEmpty && !group1.adopt) = true := by decide +kernel

theorem witness_HostAccessesAndHalves :
    (let f := idle (fun s => { s with flips := [{ port := 0, jseq := 1, frame := 0x20000, toDevice := true }] })
     let l := idle (fun s => { s with frameLab := [(0x20, 2)] })
     let h (x : HostHalf) (bad : List Nat) := idle (fun s => { s with hostHalves := [(5, x)], hostFail := bad })
     let d (x : Half) (op : AccOp) := idle (fun s => { s with halves := [(0x800, x)], accesses := [{ pendingStore with op }] })
     !s0.hostWaits 0x20000 64 false && !s0.hostWaits 0x20000 64 true && !s0.hostRefused 0x20000 64 && f.hostWaits 0x20000 64 false && f.hostWaits 0x20000 64 true &&
     l.hostRefused 0x20000 64 && !rangeInDram 0x9000000000 64 && Cells.get l.frameLab 0x20 &&& ~~~(l.windowOrigin 0x20000) != 0 &&
     Cells.readLE s0.mem 0x20000 4 != (9#64).toNat % 2 ^ 32 &&
     Cells.get (h .dirty [5]).hostHalves (320 / 64) == .dirty && (h .dirty [5]).hostFail.contains 5 && Cells.get (h .clean []).hostHalves 5 == .clean &&
     Cells.get s0.hostHalves 5 == .invalid && (d .host (.store 5)).wantsHalf 0x800 == some true && (d .host .load).wantsHalf 0x800 == some false &&
     Cells.get (d .host .load).halves 0x800 == .host && s0.wantsHalf 0x800 == none) = true := by decide +kernel

/-- A step that issues the word NOP placed by `withFetchWord`. -/
theorem witness_StepRunsTheDecodedInstruction :
    (let s := State.reset.withFetchWord 64 0x7000000000000000
     let b := ({ s with agenda := [] } : State).pass 0
     let x := (b.warp 2 0).strand 0 0
     s.power.on && s.agenda == [{ act := .issue 2 0 none }] && b.unitsOf 2 0 none == some units &&
     ((b.nowOf 2 0 units).1.fetchStrand 0 0 (((b.nowOf 2 0 units).1.warp 2 0).strand 0 0)).2 == .word 0x7000000000000000 &&
     (b.mayIssue 2 0 none).isSome && (match b.mayIssue 2 0 none with
       | some c => ((b.noteIssue c).nowOf 2 0 units).1.fetchStrand 0 0 ((((b.noteIssue c).nowOf 2 0 units).1.warp 2 0).strand 0 0) |>.2 |> (· == .word 0x7000000000000000)
       | none => false) &&
     (let c := { b with cores := [(0, { (b.core 0) with icache := [(codeLine 0 0x10000, [7])] })] }
      (Cells.find? (c.core 0).icache (codeLine 0 x.pc.toNat)) == some [(7 : DWord)]) && !(b.translate 0 0 x.pc .fetch).1.badLine (.dev 0x10000) &&
     reads 0x7000000000000000 (.nop hPT) && !x.loop.live && (match (b.translate 0 0 x.pc .fetch).2 with | .ok (.dev pa, _) => pa == 0x10000 | _ => false) &&
     (Cells.find? ((b.translate 0 0 x.pc .fetch).1.core 0).icache (codeLine 0 x.pc.toNat)).isNone && x.pc.toNat % 8 == 0) = true := by decide +kernel

theorem witness_PoweredMachineNeverStops :
    (State.reset.power.on && (match exec (.powerOutOfRange 0) State.reset with
      | .next t => !t.power.on && t.agenda.isEmpty
      | _ => false)) = true := by decide +kernel

theorem witness_EncodingRoundTrips :
    words.all (fun x => x.2.WellFormed && encode x.2 == some x.1 && (match x.2 with | .illegalOpcode _ => false | _ => true)) = true := by decide +kernel

theorem witness_MemoryStaysCanonical :
    (let s := State.reset.withFetchWord 64 0x7000000000000000
     Memory.wf s.mem && Memory.wf s.hostMem && (match step s with | .next _ => true | _ => false)) = true := by decide +kernel

/-- MP in CO with both reads fresh: allowed, and the chain of the statement is there. -/
theorem witness_LitmusOutcomesAndVisibility :
    (let c := Consistency.mp .co true
     c.allowed && c.ppo.contains (0, 1) && c.ppo.contains (2, 3) && (Consistency.party 0).sees [] .pkg (Consistency.party 1) &&
     c.sw.contains { src := 1, tgt := 2, instances := [(Consistency.party 0, .pkg), (Consistency.party 1, .pkg)] } &&
     c.sw.all (fun e => e.instances.all (fun i => i.1.sees c.reach i.2 (Consistency.party 0) && i.1.sees c.reach i.2 (Consistency.party 1))) &&
     c.sourceOf 3 0 == some (some 0) && (c.events[0]?).any (fun x => x.isWrite && x.covers 0) &&
     (c.events[3]?).any (fun y => y.isRead && y.covers 0)) = true := by decide +kernel

/-! ## Single steps, with results that the spec states or that follow from it by hand -/

/-- The state after an instruction of the gang. -/
def run (i : Instr) (s : State) : State := match exec i s with | .next t => t | _ => s

/-- A lane of a V register, a W register, a predicate, and the sticky flags of a lane. -/
def vOf (r l : Nat) (s : State) : Word := Cells.get (s.warp 2 0).v (r * 32 + l)
def wOf (r : Nat) (s : State) : DWord := Cells.get (s.warp 2 0).w r
def pOf (r l : Nat) (s : State) : Bool := (Cells.get (s.warp 2 0).p r).getLsbD l
def flagsOf (l : Nat) (s : State) : BitVec 5 := Cells.get (s.warp 2 0).fpflags l

/-- The strand of slice 0 issues alone; V4, V8 and V12 hold values in its lanes, and V5 to V7 follow V4. -/
def quad (a b c : Word) (more : List Word) : State :=
  { at_ (onW (fun w => { w with v := ((4, a) :: more.zipIdx.map (fun (x : Word × Nat) => (5 + x.2, x.1)) ++ [(8, b), (12, c)]).flatMap (fun (x : Nat × Word) =>
      if x.2 = 0 then [] else (List.range 4).map (fun l => (x.1 * 32 + l, x.2))) })) with
    now := some { n0 with gang := false, units := [(0, 0)] } }
def abc (a b c : Word) : State := quad a b c []

/-- What an instruction writes into V16, lane 3, and the flags it raises there. -/
def gives (i : Instr) (s : State) : Word := vOf 16 3 (run i s)

theorem test_iadd_wraps : gives (.iadd hPT false .i32 16 4 8) (abc 0xFFFFFFFF 2 0) = 1 := by decide +kernel
theorem test_iadd_i8_extends : gives (.iadd hPT false .i8 16 4 8) (abc 0x7F 1 0) = 0xFFFFFF80 := by decide +kernel
theorem test_imulh_signed : gives (.imulh hPT false .i32 16 4 8) (abc 0xFFFFFFFF 2 0) = 0xFFFFFFFF := by decide +kernel
theorem test_imad : gives (.imad hPT false .i32 16 4 8 12) (abc 3 5 7) = 22 := by decide +kernel
/-- R57. -/
theorem test_idiv_by_zero : gives (.idiv hPT false .n32 16 4 8) (abc 9 0 0) = 0xFFFFFFFF := by decide +kernel
theorem test_idiv_overflow : gives (.idiv hPT false .i32 16 4 8) (abc 0x80000000 0xFFFFFFFF 0) = 0x80000000 := by decide +kernel
theorem test_irem_sign : gives (.irem hPT false .i32 16 4 8) (abc 0xFFFFFFF9 2 0) = 0xFFFFFFFF := by decide +kernel
theorem test_sadd_saturates : gives (.sadd hPT false .i32 16 4 8) (abc 0x7FFFFFFF 1 0) = 0x7FFFFFFF := by decide +kernel
theorem test_iabs_of_most_negative : gives (.iabs hPT false .i32 16 4) (abc 0x80000000 0 0) = 0x80000000 := by decide +kernel
/-- R94. -/
theorem test_shl_by_32 : gives (.shl hPT false 16 4 8) (abc 1 32 0) = 0 := by decide +kernel
theorem test_sar_by_40 : gives (.sar hPT false 16 4 8) (abc 0x80000000 40 0) = 0xFFFFFFFF := by decide +kernel
theorem test_rotl_by_33 : gives (.rotl hPT false 16 4 8) (abc 0x80000001 33 0) = 3 := by decide +kernel
/-- R95: the majority of three. -/
theorem test_ttab_majority : gives (.ttab hPT false .b32 0xE8 16 4 8 12) (abc 0b0011 0b0101 0b1001) = 0b0001 := by decide +kernel
theorem test_bperm_signs : gives (.bperm hPT false 16 4 8 12) (abc 0x00008000 0x00000491 0x000000AB) = 0x00ABFF80 := by decide +kernel
/-- R96. -/
theorem test_bfx_signed : gives (.bfx hPT false .i32 16 4 8) (abc 0x00000F00 0x0408 0) = 0xFFFFFFFF := by decide +kernel
theorem test_bfi : gives (.bfi hPT false 16 4 8 12) (abc 0 0xFF 0x0404) = 0xF0 := by decide +kernel
theorem test_clz_of_zero : gives (.clz hPT false .b32 16 4) (abc 0 0 0) = 32 := by decide +kernel
theorem test_popc : gives (.popc hPT false .b32 16 4) (abc 0xF0F 0 0) = 8 := by decide +kernel
theorem test_brev : gives (.brev hPT false .b32 16 4) (abc 1 0 0) = 0x80000000 := by decide +kernel
theorem test_add64_carry : vOf 17 3 (run (.add64Imm hPT false 1 16 4) (abc 0xFFFFFFFF 0 0)) = 1 := by decide +kernel
theorem test_shr64_sign : vOf 17 3 (run (.shr64 hPT false true 16 4 8) (quad 0 70 0 [0x80000000])) = 0xFFFFFFFF := by
  decide +kernel
theorem test_movi_uniform : wOf 9 (run (.movi hPT true 0x80000001 9) s0) = 0xFFFFFFFF80000001 := by decide +kernel

/-! Floating point: 1.0 is 0x3F800000. -/

theorem test_fadd_rounds_to_even : gives (.fadd hPT .f32 .rne ⟨false, 0⟩ 16 4 8) (abc 0x3F800000 0x33800000 0) = 0x3F800000 := by decide +kernel
theorem test_fadd_rounds_up : gives (.fadd hPT .f32 .rup ⟨false, 0⟩ 16 4 8) (abc 0x3F800000 0x33800000 0) = 0x3F800001 := by decide +kernel
theorem test_fadd_cancels_down : gives (.fadd hPT .f32 .rdn ⟨false, 0⟩ 16 4 8) (abc 0x3F800000 0xBF800000 0) = 0x80000000 := by decide +kernel
theorem test_fma : gives (.fma hPT .f32 .rne ⟨false, 0⟩ 16 4 8 12) (abc 0x40000000 0x40400000 0x3F800000) = 0x40E00000 := by decide +kernel
theorem test_fmin_of_zeros : gives (.fmin hPT .f32 16 4 8) (abc 0 0x80000000 0) = 0x80000000 := by decide +kernel
theorem test_fmax_of_nan : gives (.fmax hPT .f32 16 4 8) (abc 0x7FC00000 0x3F800000 0) = 0x3F800000 := by decide +kernel
/-- R101: +0 is class 4. -/
theorem test_fclass : gives (.fclass hPT .f32 16 4) (abc 0 0 0) = 0x10 := by decide +kernel
theorem test_fsqrt : gives (.fsqrt hPT .f32 .rne ⟨false, 0⟩ 16 4) (abc 0x40800000 0 0) = 0x40000000 := by decide +kernel
theorem test_fexp2 : gives (.fexp2 hPT .f32 .rne ⟨false, 0⟩ 16 4) (abc 0x40400000 0 0) = 0x41000000 := by decide +kernel
theorem test_flog2 : gives (.flog2 hPT .f32 .rne ⟨false, 0⟩ 16 4) (abc 0x41000000 0 0) = 0x40400000 := by decide +kernel
/-- R104. -/
theorem test_cvtn_ties_to_even : gives (.cvtn hPT .i32 .f32 .rne ⟨false, 0⟩ 16 4) (abc 0x40200000 0 0) = 2 := by decide +kernel
theorem test_cvtn_below_range : gives (.cvtn hPT .i32 .f32 .rne ⟨false, 0⟩ 16 4) (abc 0xCF32D05E 0 0) = 0x80000000 := by decide +kernel
/-- R105, R106: the worked example. -/
theorem test_scfit : gives (.scfit hPT .e4m3 16 4) (abc 0x447A0000 0 0) = 0x802 := by decide +kernel
theorem test_scapp : gives (.scapp hPT .e4m3 .rne ⟨false, 0⟩ 16 4 8)
    (quad 0x447A0000 0x802 0 [0xC0400000, 0x3DCCCCCD, 0x43FA0000]) = 0x7613BB7E := by decide +kernel

/-! Comparisons, predicates, cross-lane. -/

theorem test_icmp_unsigned : pOf 1 3 (run (.icmp hPT .lt .n32 1 4 8 7) (abc 1 0xFFFFFFFF 0)) = true := by decide +kernel
theorem test_fcmp_unordered : pOf 1 3 (run (.fcmp hPT .un .f32 1 4 8 7) (abc 0x7FC00000 0 0)) = true := by decide +kernel
theorem test_sel : gives (.sel hPT .b32 16 4 8 0) (abc 1 2 0) = 2 := by decide +kernel
theorem test_pt_discards : (run (.plog hPT 0x00 7 7 7 7) s0).warp 2 0 = (run (.nop hPT) s0).warp 2 0 := by decide +kernel
theorem test_lxch_rise : vOf 16 5 (run (.lxch hPT .rise .b32 32 16 4 8) (at_ (setV 8 (fun _ => 1) ∘ setV 4 (fun l => BitVec.ofNat 32 l)))) = 4 := by
  decide +kernel
theorem test_redux_add : gives (.redux hPT (.int .add .i32) 16 4) (at_ (setV 4 (fun l => BitVec.ofNat 32 l))) = 496 := by decide +kernel
theorem test_scan_exclusive : vOf 16 3 (run (.scan hPT true (.int .add .i32) 16 4) (at_ (setV 4 (fun l => BitVec.ofNat 32 l)))) = 3 := by decide +kernel
theorem test_kin_lead : vOf 16 9 (run (.kin hPT .lead .b32 16 4) (at_ (setV 4 (fun l => BitVec.ofNat 32 (l % 4))))) = 1 := by decide +kernel
theorem test_umov : wOf 3 (run (.umov hPT .toW 7 3 4) (at_ (setV 4 (fun l => BitVec.ofNat 32 l)))) = 7 := by decide +kernel
theorem test_poll_mask : gives (.poll hPT .mask 16 7) s0 = 0xFFFFFFFF := by decide +kernel

/-! Control, memory, labels. -/

/-- PC and state of the strand of slice 0. -/
def strandOf (s : State) : DWord × StrandSt := (((s.warp 2 0).strand 0 0).pc, ((s.warp 2 0).strand 0 0).st)

theorem test_nop_advances : strandOf (run (.nop hPT) s0) = (0x10008, .ready) := by decide +kernel
theorem test_bra_back : strandOf (run (.bra hPT 0xFFFFFFF0) s0) = (0xFFF0, .ready) := by decide +kernel
theorem test_call_links : vOf 4 3 (run (.call hPT 64 4) s0) = 0x10008 := by decide +kernel
theorem test_exit_ends_the_warp : ((run (.exit hPT) s0).warp 2 0).exited = 0xFFFFFFFF := by decide +kernel
/-- The vector that the launch header gives (R341). -/
theorem test_trap_vectors : (strandOf (run (.trap hPT 7) s0).settleAll).1 = 0x18000 := by decide +kernel
theorem test_ld_queues : (run (.ld hPT (mem32 .bu .pkg) 4) sMem).accesses.length = 32 := by decide +kernel
theorem test_st_performs : Cells.readLE (run (.storePerform (run (.st hPT (mem32 .bu .pkg) 8) sMem).accesses.head!.id)
    (run (.st hPT (mem32 .bu .pkg) 8) sMem)).mem 0x20000 4 = 100 := by decide +kernel
theorem test_atom_groups : (run (.atom hPT (mem32 .sc .pkg) .add 4 8) (at_ (setVa 2 0x20000 0))).accesses.length = 1 := by decide +kernel
/-- A store of a lane is performed while core 5 holds the line: its update is on the way there. -/
def sharedStore (d : Dom) (nol1 : Bool) : State :=
  let a := { pendingStore with dom := d, nol1 }
  (idle (fun s => { s with accesses := [a], cores := [(0, { l1 := [(0x400, {})] }), (5, { l1 := [(0x400, {})] })] })).performAny a

/-- R239, R218 (MP of R249 in CO is forbidden): a later store waits for the sharers of the first; in RC, only a release. -/
theorem test_store_waits_for_sharers :
    (let b (d : Dom) (r : Bool) : Access := { pendingStore with id := 90, dom := d, rel := r, place := .dev 0x21000 }
     ((sharedStore .co false).waitsFor (b .co false), (sharedStore .rc false).waitsFor (b .rc false),
      (sharedStore .rc false).waitsFor (b .rc true), (sharedStore .co false).pendingAt 2 77 .pkg, (sharedStore .co false).pendingAt 2 77 .team)) =
      ([(77, .pkg)], [], [(77, .pkg)], true, false) := by decide +kernel

/-- R127, R245: the storing lane reads its own store under NOL1, in its domain; a lane of another core still reads the old word. -/
theorem test_lane_reads_own_store :
    (let s := sharedStore .bu true
     let l : Access := { pendingStore with id := 91, op := .load }
     ((s.catchUp l).loadValue l, (s.catchUp { l with core := 5, warp := 1 }).loadValue { l with core := 5, warp := 1 })) = (5, 0) := by decide +kernel

theorem test_guard_false : (run (.movi ⟨false, 7, true⟩ false 5 16) s0).warp 2 0 = (run (.nop hPT) s0).warp 2 0 := by decide +kernel
theorem test_srd_lane : vOf 16 9 (run (.srd hPT 0x0000 16) s0) = 9 := by decide +kernel
theorem test_lbfloor : ((run (.lbfloor hPT .v 4) (abc 2 0 0)).warp 2 0).lbfloor = 2 := by decide +kernel
theorem test_label_follows : (Cells.get ((run (.iadd hPT false .i32 16 4 8)
    (at_ (onW (fun w => { w with vLab := [(4, 1), (8, 4)] })))).warp 2 0).vLab 16) = 5 := by decide +kernel

end Sys2Proof.Tests
end

section
/-! PROOFS. Stores of values: what bytes, parts of lines and whole ranges read after a write (R4, R21). -/

namespace Sys2Proof

/-! ## Bytes -/

/-- A byte of a number that memory holds. -/
theorem Cells.byte_readLE (m : Cells Byte) (key n i : Nat) (hi : i < n) :
    BitVec.ofNat 8 (Cells.readLE m key n / 256 ^ i) = Cells.get m (key + i) := by
  induction n generalizing key i with
  | zero => exact absurd hi (Nat.not_lt_zero _)
  | succ n ih =>
    have hb := (Cells.get m key).isLt
    cases i with
    | zero =>
      apply BitVec.eq_of_toNat_eq
      simp only [Cells.readLE, Nat.pow_zero, Nat.div_one, BitVec.toNat_ofNat, Nat.add_zero]
      omega
    | succ i =>
      have hd : ((Cells.get m key).toNat + 256 * Cells.readLE m (key + 1) n) / 256 = Cells.readLE m (key + 1) n := by omega
      rw [Cells.readLE, Nat.pow_succ', ← Nat.div_div_eq_div_mul, hd, ih (key + 1) i (by omega),
        show key + 1 + i = key + (i + 1) by omega]

/-- A range copied from another store. -/
theorem Cells.get_copyLE (a b : Cells Byte) (key n p : Nat) :
    Cells.get (Cells.writeLE a key n (Cells.readLE b key n)) p =
      if key ≤ p ∧ p < key + n then Cells.get b p else Cells.get a p := by
  rw [Cells.get_writeLE]
  split
  · rename_i h
    rw [Cells.byte_readLE b key n (p - key) (by omega), show key + (p - key) = p by omega]
  · rfl

/-! ## Ranges and listed keys -/

theorem Cells.get_clear {α : Type} [Inhabited α] (m : Cells α) (base n k : Nat) :
    Cells.get (Cells.clear m base n) k = if base ≤ k ∧ k < base + n then default else Cells.get m k := by
  induction m with
  | nil => simp [Cells.clear, Cells.get]
  | cons c rest ih =>
    obtain ⟨a, v⟩ := c
    simp only [Cells.clear] at ih ⊢
    by_cases hc : a < base ∨ base + n ≤ a
    · rw [List.filter_cons_of_pos (by simpa using hc)]
      simp only [Cells.get, ih]
      split
      · rw [if_neg (by omega)]
      · rfl
    · rw [List.filter_cons_of_neg (by simpa using hc), ih]
      simp only [Cells.get]
      by_cases hk : a = k
      · rw [if_pos (by omega), if_pos (by omega)]
      · rw [if_neg hk]

theorem Cells.mem_of_mem_erase {α : Type} {m : Cells α} {k : Nat} {c : Nat × α} (h : c ∈ Cells.erase m k) : c ∈ m := by
  induction m with
  | nil => exact h
  | cons d rest ih =>
    obtain ⟨a, v⟩ := d
    simp only [Cells.erase] at h
    split at h
    · exact List.mem_cons_of_mem _ (ih h)
    · rcases List.mem_cons.mp h with rfl | h
      · exact List.mem_cons_self
      · exact List.mem_cons_of_mem _ (ih h)

theorem Cells.mem_set {α : Type} [Inhabited α] [DecidableEq α] {m : Cells α} {k : Nat} {x : α} {c : Nat × α}
    (h : c ∈ Cells.set m k x) : c = (k, x) ∨ c ∈ m := by
  unfold Cells.set at h
  split at h
  · exact .inr (Cells.mem_of_mem_erase h)
  · exact Machine.Cells.mem_put h

/-- A key that reads as something else than the default is listed. -/
theorem Cells.listed_of_get {α : Type} [Inhabited α] {m : Cells α} {k : Nat} (h : Cells.get m k ≠ default) :
    (Cells.find? m k).isSome = true := by
  rw [Cells.get_eq_find?] at h
  cases hf : Cells.find? m k with
  | none => rw [hf] at h; exact absurd rfl h
  | some v => rfl

theorem Cells.get_of_find? {α : Type} [Inhabited α] {m : Cells α} {k : Nat} {v : α} (h : Cells.find? m k = some v) :
    Cells.get m k = v := by
  rw [Cells.get_eq_find?, h]; rfl

/-- Bytes set one after another. -/
theorem Cells.get_setRange (bs : List Byte) (m : Cells Byte) (off j a : Nat) :
    Cells.get ((bs.zipIdx j).foldl (fun d b => Cells.set d (off + b.2) b.1) m) a =
      if off + j ≤ a ∧ a < off + j + bs.length then bs.getD (a - (off + j)) 0 else Cells.get m a := by
  induction bs generalizing m j with
  | nil =>
    rw [List.length_nil, if_neg (by omega)]
    rfl
  | cons b bs ih =>
    rw [List.zipIdx_cons, List.foldl_cons, ih, Cells.get_set, List.length_cons]
    by_cases h0 : off + j = a
    · subst h0
      rw [if_neg (by omega), if_pos rfl, if_pos (by omega), Nat.sub_self]
      rfl
    · by_cases h1 : off + (j + 1) ≤ a ∧ a < off + (j + 1) + bs.length
      · rw [if_pos h1, if_pos (by omega), show a - (off + j) = (a - (off + (j + 1))) + 1 by omega]
        rfl
      · rw [if_neg h1, if_neg h0, if_neg (by omega)]

end Sys2Proof
end

section
/-! PROOFS. How an instruction in issue ends when it writes nothing, stays, or changes registers of its warp alone. -/

namespace Sys2Proof.Machine

/-! ## Parts of the state by key -/

@[simp] theorem State.warp_onWarp (s : State) (k w : Nat) (f : Warp → Warp) : (s.onWarp k w f).warp k w = f (s.warp k w) :=
  State.warp_setWarp _ _ _ _

theorem State.placed_onWarp (s : State) (k w : Nat) (f : Warp → Warp) :
    (Cells.find? (s.onWarp k w f).teams k).isSome = true := by
  simp [State.onWarp, State.setWarp, State.setTeam, Cells.find?_put]

theorem State.warp_of_teams {s t : State} (h : t.teams = s.teams) (k w : Nat) : t.warp k w = s.warp k w := by
  unfold State.warp State.team; rw [h]

theorem State.core_onCore (s : State) (c j : Nat) (f : Core → Core) :
    (s.onCore c f).core j = if c = j then f (s.core c) else s.core j := Cells.get_set _ _ _ _

theorem SameBytes.refl (s : State) : SameBytes s s := ⟨fun _ => rfl, fun _ => rfl, fun _ _ => rfl⟩

theorem SameBytes.trans {a b c : State} (h : SameBytes a b) (g : SameBytes b c) : SameBytes a c := by
  obtain ⟨h1, h2, h3⟩ := h
  obtain ⟨g1, g2, g3⟩ := g
  exact ⟨fun p => (h1 p).trans (g1 p), fun p => (h2 p).trans (g2 p), fun j p => (h3 j p).trans (g3 j p)⟩

theorem SameBytes.onWarp (s : State) (k w : Nat) (f : Warp → Warp) : SameBytes (s.onWarp k w f) s :=
  ⟨fun _ => rfl, fun _ => rfl, fun j p => congrArg (Cells.get · p) (s.scratch_setWarp k w j _)⟩

/-! ## Writes that change nothing -/

/-- Writes that change no register and no label leave what no write leaves. -/
theorem RegsAfter.of_none {c : Cx} {wr : List Wr} {a b : Warp} (hn : ∀ x ∈ wr, x.none = true) (h : RegsAfter c wr a b) :
    RegsAfter c [] a b := by
  have value (r : Reg) (l : Nat) (o : DWord) : valueAfter wr r l o = valueAfter [] r l o :=
    List.foldlRecOn wr _ (motive := fun v => v = o) rfl (fun v hv x hx => by simp [Wr.valueAt, hn x hx, hv])
  have label (r : Reg) (o : Label) : labelAfter c wr r o = labelAfter c [] r o :=
    List.foldlRecOn wr _ (motive := fun v => v = o) rfl (fun v hv x hx => by simp [hn x hx, hv])
  simpa only [RegsAfter, value, label] using h

theorem Completes.of_none {i : Instr} {s : State} {n : Now} {base : State} {wr : List Wr} (hn : ∀ x ∈ wr, x.none = true)
    (h : Completes i s n base wr) : Completes i s n base [] := by
  obtain ⟨t, hx, hr, hw⟩ := h
  exact ⟨t, hx, hr.of_none hn, hw⟩

/-! ## Ends of an instruction -/

/-- Every instruction with a header is issued by `issue`: the other rows of the table are events. -/
theorem exec_eq_issue (i : Instr) (hi : i.hdr.isSome = true) (s : State) : ∃ body, exec i s = issue i s body := by
  cases i <;> cases hi <;> exact ⟨_, rfl⟩

/-- An instruction that executes ends with the effect that its body gives. -/
theorem finishes_of_issue {i : Instr} {s : State} {n : Now} {e : Eff} (body : Cx → Eff) (hi : Issues i s n = true)
    (hx : exec i s = issue i s body) (hb : body (ctxOf i s n) = e) (hf : e.bufferFull = false) : Finishes i s n e := by
  subst hb
  exact hx.trans (issue_runs body hi hf)

theorem allSlices_bit {k : Nat} (h : k < 8) : (255 : BitVec 8).getLsbD k = true := by
  have all : ∀ k < 8, (255 : BitVec 8).getLsbD k = true := by decide
  exact all k h

/-- The end of an instruction without any effect: its strands alone move on. -/
theorem completes_of_finish {i : Instr} {s : State} {n : Now} {wide : Bool}
    (hx : exec i s = .next ((ctxOf i s n).finish wide { s })) (ht : (Cells.find? s.teams n.team).isSome = true)
    (hu : (s.warp n.team n.warp).unspilled = true) : Completes i s n s [] := by
  obtain ⟨hr, hw, hf⟩ := (ctxOf i s n).finish_plain wide { s } rfl ht hu (by simp)
  refine ⟨_, hx, hr, hw, hf, fun hs => ?_⟩
  simp only [Steady, Bool.and_eq_true, Bool.not_eq_true'] at hs
  obtain ⟨⟨hcalm, halone⟩, hmark⟩ := hs
  have hmark : (ctxOf i s n).h.s = false := hmark
  refine ((ctxOf i s n).finish_single wide { s } (fun u => some (nextStrand s n u)) ht hcalm halone rfl (fun u hu => ?_)
    (by simp)).2.1
  obtain ⟨-, h8, hmask⟩ := (Warp.alone_spec halone).2 u hu
  refine ⟨(partsOf_plain _ _ _ _ _ _ _ _ _ _ hmask (allSlices_bit h8) (by simp) (fun _ _ => rfl)).trans ?_, ?_⟩
  · rw [hmark]; rfl
  · rintro _ ⟨⟩
    exact ⟨rfl, hmask, rfl⟩

/-- The strands of an instruction that is to issue again stay where they are, held. -/
theorem stays_of_issue {i : Instr} {s : State} {n : Now} {x : Hold} (body : Cx → Eff) (hi : Issues i s n = true)
    (hx : exec i s = issue i s body) (hs : Steady i s n = true) (hc : (StrandSt.held x).calm = true)
    (hb : body (ctxOf i s n) = { s := s, after := { st := .held x, keep := true } }) : Stays i s n s (.held x) := by
  simp only [Steady, Bool.and_eq_true, Bool.not_eq_true'] at hs
  obtain ⟨⟨hcalm, halone⟩, hmark⟩ := hs
  have hmark : (ctxOf i s n).h.s = false := hmark
  have := moves_of_issue (n := n) body (fun u => some { movedStrand s n u with st := .held x }) hi hx
  rw [hb] at this
  refine this rfl (issues_placed hi) hcalm halone rfl (fun u hu => ?_) (by simp)
  obtain ⟨-, h8, hmask⟩ := (Warp.alone_spec halone).2 u hu
  refine ⟨(partsOf_plain _ _ _ _ _ _ _ _ _ _ hmask (allSlices_bit h8) (by simp) (fun _ _ => rfl)).trans ?_, ?_⟩
  · rw [hmark]; rfl
  · rintro _ ⟨⟩
    exact ⟨hc, hmask, rfl⟩

theorem Cx.strictFloor_slices (c : Cx) (s : State) (l : Label) :
    ((c.strictFloor s l).warp c.n.team c.n.warp).slices = (s.warp c.n.team c.n.warp).slices := by
  unfold Cx.strictFloor
  split
  · rw [State.warp_onWarp]
  · rfl

/-- An instruction that widens the floor under STRICTLABEL (R27) and then changes what its warp holds beside its strands. -/
theorem completes_onWarp {i : Instr} {s : State} {n : Now} (body : Cx → Eff) (hi : Issues i s n = true)
    (hx : exec i s = issue i s body) (l : Label) (f : Warp → Warp) (hf : ∀ w, (f w).slices = w.slices)
    (hb : body (ctxOf i s n) = { s := ((ctxOf i s n).strictFloor s l).onWarp n.team n.warp f }) :
    Completes i s n (((ctxOf i s n).strictFloor s l).onWarp n.team n.warp f) [] := by
  have hslices : ((((ctxOf i s n).strictFloor s l).onWarp n.team n.warp f).warp n.team n.warp).slices =
      (s.warp n.team n.warp).slices := by
    rw [State.warp_onWarp, hf]
    exact (ctxOf i s n).strictFloor_slices s l
  have hu := issues_unspilled hi
  unfold Warp.unspilled Warp.slice at hu
  have := completes_of_issue body hi hx
  rw [hb] at this
  refine this rfl rfl rfl (State.placed_onWarp _ _ _ _) ?_ (by simp)
  unfold Warp.unspilled Warp.slice
  rw [hslices, hu]

end Sys2Proof.Machine
end

section
/-! PROOFS. What reading memory at its home moves: lines of caches and their accounts, never a byte or a label (R218-R220,
R413, R421). -/

namespace Sys2Proof.Machine

/-! ## What stays when lines move -/

/-- Host memory as it was, but for dirty halves that went back to the host; and what is dirty now was dirty before, with the
same data (R413). -/
def HostCarried (s t : State) : Prop :=
  HostKept t s ∧ ∀ p, Cells.get t.hostHalves (p / 64) = .dirty →
    Cells.get s.hostHalves (p / 64) = .dirty ∧ Cells.get t.hostData p = Cells.get s.hostData p

theorem HostCarried.of_same {s t : State} (h1 : t.hostMem = s.hostMem) (h2 : t.hostHalves = s.hostHalves)
    (h3 : t.hostData = s.hostData) : HostCarried s t :=
  ⟨fun _ => .inl (by rw [h1]), fun _ h => ⟨by rw [← h2]; exact h, by rw [h3]⟩⟩

theorem HostCarried.trans {s t u : State} (h : HostCarried s t) (g : HostCarried t u) : HostCarried s u := by
  obtain ⟨hk, hd⟩ := h
  obtain ⟨gk, gd⟩ := g
  refine ⟨fun p => ?_, fun p hp => ?_⟩
  · rcases gk p with e | ⟨hp, e⟩
    · rw [e]; exact hk p
    · exact .inr ⟨(hd p hp).1, e.trans (hd p hp).2⟩
  · obtain ⟨hp, e⟩ := gd p hp
    exact ⟨(hd p hp).1, e.trans (hd p hp).2⟩

/-- Every line that an L1 holds was held under its key before, with the same bytes not written back (R215). -/
def LinesFrom (s t : State) : Prop :=
  ∀ c ∈ t.cores, ∀ key l, Cells.find? c.2.l1 key = some l →
    ∃ d ∈ s.cores, ∃ m, Cells.find? d.2.l1 key = some m ∧ m.dirty = l.dirty

theorem LinesFrom.of_same {s t : State} (h : t.cores = s.cores) : LinesFrom s t :=
  fun c hc _ l hl => ⟨c, by rw [← h]; exact hc, l, hl, rfl⟩

theorem LinesFrom.trans {s t u : State} (h : LinesFrom s t) (g : LinesFrom t u) : LinesFrom s u := by
  intro c hc key l hl
  obtain ⟨d, hd, m, hm, e⟩ := g c hc key l hl
  obtain ⟨d', hd', m', hm', e'⟩ := h d hd key m hm
  exact ⟨d', hd', m', hm', e'.trans e⟩

/-- A change of one core whose lines were there before. -/
theorem LinesFrom.onCore (s : State) (c : Nat) (f : Core → Core)
    (hf : ∀ x key l, Cells.find? (f x).l1 key = some l → ∃ m, Cells.find? x.l1 key = some m ∧ m.dirty = l.dirty) :
    LinesFrom s (s.onCore c f) := by
  intro d hd key l hl
  rcases Cells.mem_set hd with rfl | hd
  · obtain ⟨m, hm, e⟩ := hf _ key l hl
    rcases Cells.get_mem s.cores c with h | h
    · exact ⟨_, h, m, hm, e⟩
    · rw [State.core, h] at hm
      exact absurd (show none = some m from hm) (by simp)
  · exact ⟨d, hd, l, hl, rfl⟩

/-- Lines moved through the caches and were charged: memory, labels, teams and queues stay, dirty host data went home. -/
structure CacheMove (s t : State) : Prop where
  mem : t.mem = s.mem
  frameLab : t.frameLab = s.frameLab
  teams : t.teams = s.teams
  accesses : t.accesses = s.accesses
  host : HostCarried s t
  lines : LinesFrom s t

theorem CacheMove.refl (s : State) : CacheMove s s := ⟨rfl, rfl, rfl, rfl, .of_same rfl rfl rfl, .of_same rfl⟩

theorem CacheMove.trans {s t u : State} (h : CacheMove s t) (g : CacheMove t u) : CacheMove s u :=
  ⟨g.mem.trans h.mem, g.frameLab.trans h.frameLab, g.teams.trans h.teams, g.accesses.trans h.accesses,
    h.host.trans g.host, h.lines.trans g.lines⟩

theorem CacheMove.foldl {α : Type} {f : State → α → State} (hf : ∀ s x, CacheMove s (f s x)) (l : List α) (s : State) :
    CacheMove s (l.foldl f s) :=
  List.foldlRecOn l f (motive := CacheMove s) (.refl s) (fun _ h x _ => h.trans (hf _ x))

theorem CacheMove.ite {p : Prop} [Decidable p] {s t u : State} (h : CacheMove s t) (g : CacheMove s u) :
    CacheMove s (if p then t else u) := by
  split
  · exact h
  · exact g

/-! ## Charges, L2 and host halves -/

theorem CacheMove.readEchoes (s : State) (a : Access) (seen : List (Nat × Scope)) : CacheMove s (s.readEchoes a seen) :=
  ⟨rfl, rfl, rfl, rfl, .of_same rfl rfl rfl, .of_same rfl⟩

theorem CacheMove.afterLook (s : State) (p : Place) (n : Nat) : CacheMove s (s.afterLook p n) :=
  CacheMove.ite ⟨rfl, rfl, rfl, rfl, .of_same rfl rfl rfl, .of_same rfl⟩ (.refl s)

theorem CacheMove.charge (s : State) (a k inst n : Nat) : CacheMove s (s.charge a k inst n) :=
  ⟨rfl, rfl, rfl, rfl, .of_same rfl rfl rfl, .of_same rfl⟩

theorem CacheMove.chargeTo (s : State) (a : Option Nat) (k inst n : Nat) : CacheMove s (s.chargeTo a k inst n) := by
  cases a with
  | none => exact .refl s
  | some a => exact .charge s a k inst n

theorem CacheMove.chargeAccess (s : State) (a : Access) : CacheMove s (s.chargeAccess a) :=
  CacheMove.foldl (fun s _ => .charge s _ _ _ _) _ s

theorem CacheMove.onDie (s : State) (d : Nat) (f : Die → Die) : CacheMove s (s.onDie d f) :=
  ⟨rfl, rfl, rfl, rfl, .of_same rfl rfl rfl, .of_same rfl⟩

theorem CacheMove.refuseWriteBack (s : State) (half : Nat) : CacheMove s (s.refuseWriteBack half) :=
  CacheMove.ite ⟨rfl, rfl, rfl, rfl, .of_same rfl rfl rfl, .of_same rfl⟩ ⟨rfl, rfl, rfl, rfl, .of_same rfl rfl rfl, .of_same rfl⟩

theorem CacheMove.hostWriteBack (s : State) (half : Nat) : CacheMove s (s.hostWriteBack half) := by
  unfold State.hostWriteBack
  split
  · rename_i hdirty
    refine ⟨rfl, rfl, rfl, rfl, ⟨fun p => ?_, fun p hp => ?_⟩, .of_same rfl⟩
    · by_cases hr : 64 * half ≤ p ∧ p < 64 * half + 64
      · refine .inr ⟨?_, (Cells.get_copyLE _ _ _ _ _).trans (if_pos hr)⟩
        rw [show p / 64 = half by omega, hdirty]
      · exact .inl ((Cells.get_copyLE _ _ _ _ _).trans (if_neg hr))
    · replace hp : Cells.get (Cells.set s.hostHalves half .clean) (p / 64) = .dirty := hp
      rw [Cells.get_set] at hp
      split at hp
      · exact absurd hp (by decide)
      · exact ⟨hp, rfl⟩
  · exact .refl s

theorem CacheMove.dropCopies (s : State) (line : Nat) : CacheMove s (s.dropCopies line) := by
  refine ⟨rfl, rfl, rfl, rfl, .of_same rfl rfl rfl, fun c hc key l hl => ?_⟩
  obtain ⟨d, hd, rfl⟩ := List.mem_map.mp hc
  rw [Cells.find?_erase] at hl
  split at hl
  · exact absurd hl (by simp)
  · exact ⟨d, hd, l, hl, rfl⟩

/-- A half that is held no longer is not dirty. -/
theorem CacheMove.forgetHalf (s : State) (half : Nat) (poison : List Nat) (held : Cells Nat) :
    CacheMove s { s with hostHalves := Cells.erase s.hostHalves half, poison := poison, hostBy := held,
                         hostData := Cells.clear s.hostData (64 * half) 64 } := by
  refine ⟨rfl, rfl, rfl, rfl, ⟨fun _ => .inl rfl, fun p hp => ?_⟩, .of_same rfl⟩
  replace hp : Cells.get (Cells.erase s.hostHalves half) (p / 64) = .dirty := hp
  rw [Cells.get_erase] at hp
  split at hp
  · exact absurd hp (by decide)
  · exact ⟨hp, (Cells.get_clear _ _ _ _).trans (if_neg (by omega))⟩

/-- A half that goes back takes its dirty data to the host (R413, R414). -/
theorem CacheMove.hostDrop (s : State) (half : Nat) : CacheMove s (s.hostDrop half) :=
  CacheMove.ite (.refuseWriteBack s half)
    (((CacheMove.hostWriteBack s half).trans (.dropCopies _ _)).trans (.forgetHalf _ half _ _))

/-- A line that leaves its slice (R219, R413). -/
theorem CacheMove.l2Evict (s : State) (act : Option Nat) (l : L2Line) : CacheMove s (s.l2Evict act l) := by
  refine CacheMove.ite ((CacheMove.ite (.chargeTo s act 0 _ 2) (.refl s)).trans (.onDie _ _ _)) ?_
  have home := (CacheMove.hostDrop s (2 * (l.line - 2 ^ 46))).trans (.hostDrop _ (2 * (l.line - 2 ^ 46) + 1))
  exact CacheMove.ite (home.trans (.onDie _ _ _)) home

theorem CacheMove.l2Room (s : State) (act : Option Nat) (line : Nat) : CacheMove s (s.l2Room act line) :=
  CacheMove.foldl (fun s l => .ite (.refl s) (.l2Evict s act l)) _ s

theorem CacheMove.l2Touch (s : State) (who : Who) (line : Nat) (write : Bool) : CacheMove s (s.l2Touch who line write) := by
  unfold State.l2Touch
  exact (CacheMove.ite (.refl s) ((CacheMove.ite (.chargeTo s who.act 0 _ 2) (.refl s)).trans (.l2Room _ _ _))).trans (.onDie _ _ _)

theorem CacheMove.l2Reach (s : State) (who : Who) (p : Place) (n : Nat) (write : Bool) :
    CacheMove s (s.l2Reach who p n write) := by
  cases p with
  | dev _ | host _ _ => exact CacheMove.foldl (fun s l => .l2Touch s who l write) _ s
  | peer _ _ _ | scr _ _ => exact .refl s

/-! ## Copies in L1 -/

theorem CacheMove.l1Write (s : State) (core key : Nat) (bytes : List Byte) (lab : Label) :
    CacheMove s (s.l1Write core key bytes lab) := by
  refine ⟨rfl, rfl, rfl, rfl, .of_same rfl rfl rfl, .onCore s core _ (fun x k l hl => ?_)⟩
  rw [Cells.find?_adjust] at hl
  split at hl
  · obtain ⟨m, hm, rfl⟩ := Option.map_eq_some_iff.mp hl
    exact ⟨m, hm, rfl⟩
  · exact ⟨l, hl, rfl⟩

/-- Updates on their way reach a copy (R245, R384). -/
theorem CacheMove.applyBefore (s : State) (core key n : Nat) : CacheMove s (s.applyBefore core key n) := by
  have fold (f : Update → Bool) : CacheMove s (s.updates.foldl
      (fun (t : State) u => if f u then t.l1Write core u.pa u.bytes u.lab else t) s) :=
    CacheMove.foldl (fun t u => .ite (.l1Write t _ _ _ _) (.refl t)) _ s
  exact (fold _).trans ⟨rfl, rfl, rfl, rfl, .of_same rfl rfl rfl, .of_same rfl⟩

/-- Some core holds a lane-local line of a number with bytes that it has not written back, as `f` asks of its marks (R215). -/
def State.heldDirty (s : State) (line : Nat) (f : BitVec 128 → Bool) : Prop :=
  ∃ c ∈ s.cores, ∃ l, Cells.find? c.2.l1 (privKey line) = some l ∧ f l.dirty = true

theorem LinesFrom.heldDirty {s t : State} (h : LinesFrom s t) {line : Nat} {f : BitVec 128 → Bool}
    (ht : t.heldDirty line f) : s.heldDirty line f := by
  obtain ⟨c, hc, l, hl, hf⟩ := ht
  obtain ⟨d, hd, m, hm, e⟩ := h c hc _ l hl
  exact ⟨d, hd, m, hm, by rw [e, hf]⟩

theorem State.unwritten_dev (s : State) (pa : Nat) :
    s.unwritten (.dev pa) ≠ [] ↔ s.heldDirty (pa / 128) (fun m => m.getLsbD (pa % 128)) := by
  constructor
  · intro h
    obtain ⟨b, hb⟩ := List.exists_mem_of_ne_nil _ h
    obtain ⟨c, hc, hb⟩ := List.mem_filterMap.mp hb
    obtain ⟨l, hl, hb⟩ := Option.bind_eq_some_iff.mp hb
    refine ⟨c, hc, l, hl, ?_⟩
    split at hb
    · assumption
    · exact nomatch hb
  · rintro ⟨c, hc, l, hl, hd⟩
    exact List.ne_nil_of_mem (List.mem_filterMap.mpr ⟨c, hc, Option.bind_eq_some_iff.mpr ⟨l, hl, if_pos hd⟩⟩)

theorem State.straddles_dev (s : State) (pa n : Nat) :
    s.straddles (.dev pa) n = true ↔ (∃ line ∈ linesOf pa n, s.heldDirty line (· != 0)) ∧
      ∃ i < n, s.heldDirty ((pa + i) / 128) (fun m => m.getLsbD ((pa + i) % 128)) := by
  have hu (i : Nat) : (!(s.unwritten ((Place.dev pa).add i)).isEmpty) = true ↔
      s.heldDirty ((pa + i) / 128) (fun m => m.getLsbD ((pa + i) % 128)) := by
    rw [← State.unwritten_dev, Bool.not_eq_true', List.isEmpty_eq_false_iff]
    rfl
  simp only [State.straddles, Bool.and_eq_true, List.any_eq_true, hu, List.mem_range]
  refine and_congr_left fun _ => ⟨?_, ?_⟩
  · rintro ⟨c, hc, line, hline, hd⟩
    cases hf : Cells.find? c.2.l1 (privKey line) with
    | none => simp [hf] at hd
    | some l => exact ⟨line, hline, c, hc, l, hf, by simpa [hf] using hd⟩
  · rintro ⟨line, hline, c, hc, l, hf, hd⟩
    exact ⟨c, hc, line, hline, by rw [hf]; exact hd⟩

/-- Bytes of device memory that no lane-local copy held alone are still held by none (R215). -/
theorem CacheMove.straddles {s t : State} (h : CacheMove s t) {pa n : Nat} (hs : s.straddles (.dev pa) n = false) :
    t.straddles (.dev pa) n = false := by
  rw [← Bool.not_eq_true, State.straddles_dev] at hs ⊢
  rintro ⟨⟨line, hline, hd⟩, i, hi, hb⟩
  exact hs ⟨⟨line, hline, h.lines.heldDirty hd⟩, i, hi, h.lines.heldDirty hb⟩

end Sys2Proof.Machine
end

section
/-! PROOFS. What a load's result leaves in registers and labels when it returns (R23, R24, R26). -/

namespace Sys2Proof.Machine

/-! ## Values and labels of several writes -/

theorem foldl_lane_absent {vals : List (Nat × DWord)} {l : Nat} (o : Option DWord) (h : ∀ y ∈ vals, y.1 ≠ l) :
    vals.foldl (fun o y => if y.1 = l then some y.2 else o) o = o :=
  List.foldlRecOn vals _ (motive := fun x => x = o) rfl (fun _ hx y hy => by rw [if_neg (h y hy), hx])

theorem foldl_lane_mem {vals : List (Nat × DWord)} {l : Nat} {v : DWord} (o : Option DWord)
    (hd : (vals.map (·.1)).Nodup) (h : (l, v) ∈ vals) :
    vals.foldl (fun o y => if y.1 = l then some y.2 else o) o = some v := by
  induction vals generalizing o with
  | nil => exact absurd h (by simp)
  | cons y ys ih =>
    rw [List.map_cons, List.nodup_cons] at hd
    rw [List.foldl_cons]
    rcases List.mem_cons.mp h with rfl | h
    · rw [if_pos rfl]
      exact foldl_lane_absent _ (fun z hz e => hd.1 (e ▸ List.mem_map_of_mem (f := (·.1)) hz))
    · exact ih _ hd.2 h

/-- A register's value after writes of which one gives it that value and no other gives another. -/
theorem valueAfter_of_agree {wr : List Wr} {r : Reg} {l : Nat} {v : DWord} (old : DWord)
    (hx : ∃ x ∈ wr, x.valueAt r l = some v) (ha : ∀ x ∈ wr, x.valueAt r l = some v ∨ x.valueAt r l = none) :
    valueAfter wr r l old = v := by
  have keep (ys : List Wr) (hy : ∀ x ∈ ys, x.valueAt r l = some v ∨ x.valueAt r l = none) : valueAfter ys r l v = v :=
    List.foldlRecOn ys _ (motive := fun o => o = v) rfl (fun o ho x hx => by rcases hy x hx with h | h <;> simp [h, ho])
  obtain ⟨x, hx, hv⟩ := hx
  obtain ⟨ys, zs, rfl⟩ := List.append_of_mem hx
  have split : valueAfter (ys ++ x :: zs) r l old = valueAfter zs r l ((x.valueAt r l).getD (valueAfter ys r l old)) := by
    simp [valueAfter]
  rw [split, hv]
  exact keep zs (fun z hz => ha z (by simp [hz]))

theorem valueAfter_of_absent {wr : List Wr} {r : Reg} {l : Nat} (old : DWord) (h : ∀ x ∈ wr, x.valueAt r l = none) :
    valueAfter wr r l old = old :=
  List.foldlRecOn wr _ (motive := fun o => o = old) rfl (fun o ho x hx => by simp [h x hx, ho])

theorem label_or_left (a b : Label) : (a ||| b) &&& a = a := by
  ext i hi; simp only [BitVec.getElem_and, BitVec.getElem_or]; cases a[i] <;> simp

theorem label_contains_or {a b c : Label} (h : a &&& (b ||| c) = b ||| c) : a &&& b = b := by
  have := label_or_left b c
  rw [BitVec.and_comm] at this
  rw [← this, ← BitVec.and_assoc, BitVec.and_comm a b, BitVec.and_assoc, h, this]

/-- A register that some write names has the label that all writes bring (R26). -/
theorem labelAfter_contains {c : Cx} {wr : List Wr} {r : Reg} {m : Label} (old : Label) (hm : ∀ x ∈ wr, x.lab = m)
    (hx : old &&& m = m ∨ ∃ x ∈ wr, (x.none || x.reg != r) = false) : labelAfter c wr r old &&& m = m := by
  induction wr generalizing old with
  | nil => exact hx.elim id (fun h => absurd h (by simp))
  | cons x xs ih =>
    refine ih _ (fun y hy => hm y (List.mem_cons_of_mem _ hy)) ?_
    cases hn : x.none || x.reg != r with
    | true =>
      refine hx.imp (fun h => by simpa [hn] using h) ?_
      rintro ⟨y, hy, hyn⟩
      rcases List.mem_cons.mp hy with rfl | hy
      · exact absurd (hn.symm.trans hyn) (by decide)
      · exact ⟨y, hy, hyn⟩
    | false =>
      left
      simp only [hn, Bool.false_eq_true, if_false, hm x List.mem_cons_self]
      split
      · exact label_or_left _ _
      · rw [BitVec.or_comm old, BitVec.or_assoc]
        exact label_or_left _ _

/-! ## The writes of a result -/

/-- A context that adds no label to a write: no guard and an empty floor. -/
def plainCx (full : Bool) : Cx where
  s := State.reset
  n := default
  h := ⟨false, 7, false⟩
  i := none
  warp := {}
  hdr := default
  lanes := 0
  act := 0
  full := full

theorem plainCx_ambient (full : Bool) : (plainCx full).ambient = 0 := by
  simp [plainCx, Cx.ambient, Cx.guardLab]

/-- A write in the lanes that no later instruction has written (R24). -/
def Result.live (r : Result) (x : Wr) : Wr :=
  { x with vals := x.vals.filter (fun y => !(r.stale.any (fun o => o.1 == x.reg && o.2.getLsbD y.1))) }

theorem Warp.returnMem_eq (w : Warp) (r : Result) (wr : List Wr) :
    w.returnMem r wr = (wr.map r.live).foldl (fun w x => w.write (plainCx r.full).full (plainCx r.full).ambient r.id x)
      { w with results := w.results.filter (fun x => x.id != r.id) } := by
  rw [List.foldl_map, plainCx_ambient]; rfl

theorem Result.live_sound (r : Result) {x : Wr} (h : ∀ y ∈ x.vals, y.1 < 32) (hw : ∀ n, x.reg ≠ .w n) : (r.live x).sound :=
  ⟨fun y hy => h y ((List.mem_filter.mp hy).1), fun n hn => absurd hn (hw n)⟩

/-- A result's sound writes leave what `RegsAfter` says, and nothing else of the warp moves. -/
theorem Warp.returnMem_regs (w : Warp) (r : Result) (wr : List Wr) (h : ∀ x ∈ wr, (r.live x).sound) :
    RegsAfter (plainCx r.full) (wr.map r.live) w (w.returnMem r wr) ∧ WarpFrame w (w.returnMem r wr) := by
  rw [Warp.returnMem_eq]
  obtain ⟨hr, hf⟩ := Warp.writes_regs (plainCx r.full) r.id (wr.map r.live) (by simpa using h)
    { w with results := w.results.filter (fun x => x.id != r.id) }
  exact ⟨hr, (Warp.movedTo.results w _).frame.trans hf⟩

/-! ## Gathered values -/

/-- The write of the register `d + i` of a load (R21, R23). -/
def gatheredWrite (d size : Nat) (sg : Bool) (got : List (Nat × BitVec 128)) (lab : Label) (i : Nat) : Wr where
  reg := .v (d + i)
  vals := got.map (fun g => (g.1, BitVec.ofNat 64 (extendTo size sg g.2.toNat >>> (32 * i) % 2 ^ 32)))
  lab := lab

theorem gatheredWrites_eq {d : Nat} (size : Nat) (sg : Bool) (got : List (Nat × BitVec 128)) (lab : Label) (h : d < 255) :
    gatheredWrites d size sg got lab = (List.range (sizeWords size)).map (gatheredWrite d size sg got lab) := by
  simp only [gatheredWrites, if_neg (Nat.not_le.mpr h)]
  rfl

theorem sizeWords_pos (size : Nat) : 0 < sizeWords size := by
  unfold sizeWords; split <;> omega

section
variable {d size : Nat} {sg : Bool} {got : List (Nat × BitVec 128)} {lab : Label} {r : Result}

theorem live_gatheredWrite_sound (hl : ∀ g ∈ got, g.1 < 32) (i : Nat) :
    (r.live (gatheredWrite d size sg got lab i)).sound := by
  refine r.live_sound (fun y hy => ?_) (by simp [gatheredWrite])
  obtain ⟨g, hg, rfl⟩ := List.mem_map.mp hy
  exact hl g hg

/-- The values that a result still writes are those that were gathered in lanes not overtaken. -/
theorem live_gatheredWrite_mem {i : Nat} {g : Nat × BitVec 128} (hg : g ∈ got)
    (hs : r.stale.any (fun o => o.1 == .v (d + i) && o.2.getLsbD g.1) = false) :
    (g.1, BitVec.ofNat 64 (extendTo size sg g.2.toNat >>> (32 * i) % 2 ^ 32)) ∈
      (r.live (gatheredWrite d size sg got lab i)).vals := by
  refine List.mem_filter.mpr ⟨List.mem_map_of_mem hg, ?_⟩
  simpa [gatheredWrite] using hs

theorem live_gatheredWrite_keeps {i : Nat} {g : Nat × BitVec 128} (hd : d + i < 255) (hg : g ∈ got)
    (hs : r.stale.any (fun o => o.1 == .v (d + i) && o.2.getLsbD g.1) = false) :
    (r.live (gatheredWrite d size sg got lab i)).none = false := by
  have := List.ne_nil_of_mem (live_gatheredWrite_mem (lab := lab) (size := size) (sg := sg) hg hs)
  have hreg : (r.live (gatheredWrite d size sg got lab i)).reg = .v (d + i) := rfl
  simp [Wr.none, hreg, this, hd]

theorem live_gatheredWrite_valueAt {i : Nat} {g : Nat × BitVec 128} (hd : d + i < 255) (hn : (got.map (·.1)).Nodup)
    (hg : g ∈ got) (hs : r.stale.any (fun o => o.1 == .v (d + i) && o.2.getLsbD g.1) = false) :
    (r.live (gatheredWrite d size sg got lab i)).valueAt (.v (d + i)) g.1 =
      some (BitVec.ofNat 64 (extendTo size sg g.2.toNat >>> (32 * i) % 2 ^ 32)) := by
  have hk := live_gatheredWrite_keeps (lab := lab) (size := size) (sg := sg) hd hg hs
  unfold Wr.valueAt
  rw [if_neg (by rw [hk]; simp [Result.live, gatheredWrite])]
  refine foldl_lane_mem _ (hn.sublist ?_) (live_gatheredWrite_mem hg hs)
  refine (List.Sublist.map _ List.filter_sublist).trans ?_
  rw [gatheredWrite, List.map_map]
  exact List.Sublist.refl _

theorem live_gatheredWrite_valueAt_none {i q l : Nat} (h : d + i = q → ∀ g ∈ got, g.1 ≠ l) :
    (r.live (gatheredWrite d size sg got lab i)).valueAt (.v q) l = none := by
  unfold Wr.valueAt
  split
  · rfl
  · rename_i hq
    refine foldl_lane_absent _ (fun y hy => ?_)
    have he : Reg.v (d + i) = .v q := by
      have := (Bool.or_eq_false_iff.mp (Bool.eq_false_iff.mpr hq)).2
      rwa [bne_eq_false_iff_eq] at this
    obtain ⟨g, hg, rfl⟩ := List.mem_map.mp ((List.mem_filter.mp hy).1)
    exact h (Reg.v.inj he) g hg

/-- The writes of a load's result, as they are when it returns. -/
theorem gatheredWrites_live (h : d < 255) :
    (gatheredWrites d size sg got lab).map r.live =
      (List.range (sizeWords size)).map (fun i => r.live (gatheredWrite d size sg got lab i)) := by
  rw [gatheredWrites_eq size sg got lab h, List.map_map]
  rfl

theorem returnMem_gathered_regs (w : Warp) (hd : d + sizeWords size ≤ 255) (hl : ∀ g ∈ got, g.1 < 32) :
    RegsAfter (plainCx r.full) ((List.range (sizeWords size)).map (fun i => r.live (gatheredWrite d size sg got lab i))) w
      (w.returnMem r (gatheredWrites d size sg got lab)) := by
  have hp := sizeWords_pos size
  rw [← gatheredWrites_live (by omega)]
  refine (w.returnMem_regs r _ (fun x hx => ?_)).1
  rw [gatheredWrites_eq size sg got lab (by omega)] at hx
  obtain ⟨i, _, rfl⟩ := List.mem_map.mp hx
  exact live_gatheredWrite_sound hl i

/-- A value gathered for a lane that no later instruction has written stands in its register. -/
theorem returnMem_value (w : Warp) (hd : d + sizeWords size ≤ 255) (hn : (got.map (·.1)).Nodup) (hl : ∀ g ∈ got, g.1 < 32)
    {i : Nat} {g : Nat × BitVec 128} (hi : i < sizeWords size) (hg : g ∈ got)
    (hs : r.stale.any (fun o => o.1 == .v (d + i) && o.2.getLsbD g.1) = false) :
    Cells.get (w.returnMem r (gatheredWrites d size sg got lab)).v ((d + i) * 32 + g.1) =
      BitVec.ofNat 32 (extendTo size sg g.2.toNat >>> (32 * i)) := by
  obtain ⟨hv, -⟩ := returnMem_gathered_regs (r := r) (sg := sg) (lab := lab) w hd hl
  have mine := live_gatheredWrite_valueAt (size := size) (sg := sg) (lab := lab) (r := r) (by omega) hn hg hs
  rw [hv _ _ (hl g hg), valueAfter_of_agree (v := BitVec.ofNat 64 (extendTo size sg g.2.toNat >>> (32 * i) % 2 ^ 32)) _
    ⟨_, List.mem_map_of_mem (List.mem_range.mpr hi), mine⟩ ?_]
  · apply BitVec.eq_of_toNat_eq
    simp only [BitVec.toNat_setWidth, BitVec.toNat_ofNat]
    omega
  · intro x hx
    obtain ⟨j, -, rfl⟩ := List.mem_map.mp hx
    by_cases e : j = i
    · exact .inl (e ▸ mine)
    · exact .inr (live_gatheredWrite_valueAt_none (fun h => absurd h (by omega)))

/-- The label of a register that takes a gathered value holds the labels gathered. -/
theorem returnMem_label (w : Warp) (hd : d + sizeWords size ≤ 255) (hl : ∀ g ∈ got, g.1 < 32)
    {i : Nat} {g : Nat × BitVec 128} (hi : i < sizeWords size) (hg : g ∈ got)
    (hs : r.stale.any (fun o => o.1 == .v (d + i) && o.2.getLsbD g.1) = false) :
    Cells.get (w.returnMem r (gatheredWrites d size sg got lab)).vLab (d + i) &&& lab = lab := by
  obtain ⟨-, -, -, hv, -⟩ := returnMem_gathered_regs (r := r) (sg := sg) (lab := lab) w hd hl
  rw [hv]
  refine labelAfter_contains _ (fun x hx => ?_) (.inr ⟨_, List.mem_map_of_mem (List.mem_range.mpr hi), ?_⟩)
  · obtain ⟨j, -, rfl⟩ := List.mem_map.mp hx
    rfl
  · rw [live_gatheredWrite_keeps (by omega) hg hs]
    simp [Result.live, gatheredWrite]

/-- Where nothing was gathered, registers stay. -/
theorem returnMem_other (w : Warp) (hd : d + sizeWords size ≤ 255) (hl : ∀ g ∈ got, g.1 < 32) {q l : Nat} (hl32 : l < 32)
    (ho : d ≤ q ∧ q < d + sizeWords size → ∀ g ∈ got, g.1 ≠ l) :
    Cells.get (w.returnMem r (gatheredWrites d size sg got lab)).v (q * 32 + l) = Cells.get w.v (q * 32 + l) := by
  obtain ⟨hv, -⟩ := returnMem_gathered_regs (r := r) (sg := sg) (lab := lab) w hd hl
  rw [hv _ _ hl32, valueAfter_of_absent _ (fun x hx => ?_)]
  · simp
  · obtain ⟨i, hi, rfl⟩ := List.mem_map.mp hx
    have := List.mem_range.mp hi
    exact live_gatheredWrite_valueAt_none (fun h => ho (by omega))

end

end Sys2Proof.Machine
end

section
/-! PROOFS. An instruction without an active lane only advances (R15; O8). -/

namespace Sys2Proof.Machine

/-- An instruction whose guard leaves no active lane ends with no effect (R15). -/
theorem issue_inactive {i : Instr} {s : State} {n : Now} (body : Cx → Eff) (hn : s.now = some n) (hg : i.guardOk = true)
    (ha : (ctxOf i s n).act = 0) : issue i s body = .next ((ctxOf i s n).finish false { s }) := by
  have hc : ({ ctxOf i s n with act := 0 } : Cx) = ctxOf i s n := by rw [← ha]
  unfold issue
  rw [hn]
  dsimp only
  rw [if_neg (by simp [hg])]
  simp only [ctxOf] at ha hc ⊢
  rw [if_pos (by simp [ha]), hc]

/-- Settles O8: every instruction with a header is issued by `issue`, which ends an inactive one at once. -/
theorem guardFalseOnlyAdvances : Obligations.GuardFalseOnlyAdvances := by
  unfold Obligations.GuardFalseOnlyAdvances
  intro i s n hi hn hg ha ht hu
  obtain ⟨body, hb⟩ := exec_eq_issue i hi s
  exact completes_of_finish (hb.trans (issue_inactive body hn hg ha)) ht hu

end Sys2Proof.Machine
end

section
/-! PROOFS. VZ and PT read as constants and discard writes (R12-R14; O53). -/

namespace Sys2Proof.Machine

theorem Wr.none_of_vz {x : Wr} (h : x.reg = .v 255) : x.none = true := by simp [Wr.none, h]
theorem Wr.none_of_pt {x : Wr} (h : x.reg = .p 7) : x.none = true := by simp [Wr.none, h]

theorem vWrites_vz_none (words : Nat) (vals : List (Nat × Nat)) (lab : Label) :
    ∀ x ∈ vWrites 255 words vals lab, x.none = true := by
  intro x hx
  obtain ⟨i, _, rfl⟩ := List.mem_map.mp hx
  exact Wr.none_of_vz (congrArg Reg.v (if_pos rfl))

/-- IADD writes its destination's registers (R92). -/
theorem iadd_completes {h : Hdr} {t : IType} {d a b : BitVec 8} {s : State} {n : Now}
    (hi : Issues (.iadd h false t d a b) s n = true) :
    ∃ vals lab, Completes (.iadd h false t d a b) s n s (vWrites d t.words vals lab) :=
  ⟨_, _, completes_regs (fun c => c.int2 false t d a b (· + ·)) hi rfl rfl rfl rfl rfl (Cx.intEff_sound _ _ _ _ _ _)⟩

/-- PLOG writes its destination predicate (R110). -/
theorem plog_completes {h : Hdr} {tt : BitVec 8} {d a b c : BitVec 3} {s : State} {n : Now}
    (hi : Issues (.plog h tt d a b c) s n = true) :
    ∃ vals lab, Completes (.plog h tt d a b c) s n s [pWrite d.toNat vals lab] := by
  refine ⟨_, _, completes_regs _ hi rfl rfl rfl rfl rfl ?_⟩
  intro x hx
  obtain rfl := List.mem_singleton.mp hx
  exact pWrite_sound _ _ _ (Cx.lanes_vals_lt _ _)

/-- Settles O53: VZ and PT are the out-of-range indices of every reader, and a write of either is one that changes
nothing. -/
theorem hardWiredRegistersReadConstants : Obligations.HardWiredRegistersReadConstants := by
  unfold Obligations.HardWiredRegistersReadConstants
  refine ⟨fun c l w full amb x => ⟨rfl, rfl, rfl, rfl, rfl, rfl, fun hx id => ?_⟩,
    fun h t tt a b pa pb pc s n => ⟨fun hi => ?_, fun hi => ?_⟩⟩
  · exact if_pos (hx.elim Wr.none_of_vz Wr.none_of_pt)
  · obtain ⟨vals, lab, hc⟩ := iadd_completes hi
    exact hc.of_none (vWrites_vz_none _ _ _)
  · obtain ⟨vals, lab, hc⟩ := plog_completes hi
    exact hc.of_none (fun x hx => Wr.none_of_pt (by rw [List.mem_singleton.mp hx]; rfl))

end Sys2Proof.Machine
end

section
/-! PROOFS. SRD and SWR (R18-R20, R135, R136, R287; O29). -/

namespace Sys2Proof.Machine

/-! ## SRD -/

/-- What SRD does in the active lanes (R135, R287). -/
def srdBody (r : BitVec 16) (d : BitVec 8) (c : Cx) : Eff :=
  if isHash r && !c.warp.hashQ.isEmpty then { s := c.s, after := { st := .held .hash, keep := true } }
  else
    { s := c.s
      wr := vWrites d (if r.getLsbD 15 then 2 else 1) (c.lanesA.map (fun l => (l, c.special r l)))
        (if isHash r then c.warp.sthashLab else 0) }

theorem exec_srd (h : Hdr) (r : BitVec 16) (d : BitVec 8) (s : State) :
    exec (.srd h r d) s = issue (.srd h r d) s (srdBody r d) := rfl

/-- SRD reads unless it names the hash and earlier records are outstanding. -/
theorem srdBody_reads {r : BitVec 16} {c : Cx} (d : BitVec 8) (h : isHash r = false ∨ c.warp.hashQ = []) :
    srdBody r d c =
      { s := c.s
        wr := vWrites d (if r.getLsbD 15 then 2 else 1) (c.lanesA.map (fun l => (l, c.special r l)))
          (if isHash r then c.warp.sthashLab else 0) } :=
  if_neg (by rcases h with h | h <;> simp [h])

theorem srdBody_waits {r : BitVec 16} {c : Cx} (d : BitVec 8) (h : isHash r = true) (hq : c.warp.hashQ ≠ []) :
    srdBody r d c = { s := c.s, after := { st := .held .hash, keep := true } } :=
  if_pos (by simp [h, hq])

theorem srd_completes {h : Hdr} {r : BitVec 16} {d : BitVec 8} {s : State} {n : Now} (hi : Issues (.srd h r d) s n = true)
    (hq : isHash r = false ∨ (s.warp n.team n.warp).hashQ = []) :
    Completes (.srd h r d) s n s (vWrites d (if r.getLsbD 15 then 2 else 1)
      ((ctxOf (.srd h r d) s n).lanesA.map (fun l => (l, (ctxOf (.srd h r d) s n).special r l)))
      (if isHash r then (s.warp n.team n.warp).sthashLab else 0)) := by
  have hb := srdBody_reads (c := ctxOf (.srd h r d) s n) d hq
  have := completes_regs (srdBody r d) hi (exec_srd h r d s)
  rw [hb] at this
  exact this rfl rfl rfl rfl (vWrites_sound _ _ _ _ (Cx.lanes_vals_lt _ _))

theorem srd_stays {h : Hdr} {r : BitVec 16} {d : BitVec 8} {s : State} {n : Now} (hi : Issues (.srd h r d) s n = true)
    (hr : isHash r = true) (hq : (s.warp n.team n.warp).hashQ ≠ []) (hs : Steady (.srd h r d) s n = true) :
    Stays (.srd h r d) s n s (.held .hash) :=
  stays_of_issue (srdBody r d) hi (exec_srd h r d s) hs rfl (srdBody_waits d hr hq)

/-! ## SWR -/

theorem putHalf_low (old : DWord) (x : Word) :
    putHalf false false old (x.setWidth 64) = (old >>> 32).setWidth 32 ++ x := by
  simp [putHalf]

theorem putHalf_high (old : DWord) (x : Word) : putHalf false true old (x.setWidth 64) = x ++ old.setWidth 32 := by
  simp [putHalf]

/-- SWR of SR.FPFLAGS: lanes whose values name sticky flags alone clear them, the others trap (R20, R136). -/
def swrFlags (a : BitVec 8) (c : Cx) : Eff :=
  let vals := c.lanesA.map (fun l => (l, c.v l a.toNat))
  { s := (c.strictFloor c.s (c.labV a 1)).onWarp c.n.team c.n.warp (fun w =>
      { w with fpflags := clearFlags w.fpflags (vals.filter (fun y => decide (field y.2 31 5 = 0))) })
    ends := (vals.filter (fun y => decide (field y.2 31 5 ≠ 0))).map (fun y =>
      (y.1, .trap { lane := y.1, cause := .illegalField } false)) }

theorem swrFlags_kept {a : BitVec 8} {c : Cx} (h : ∀ l ∈ c.lanesA, field (c.v l a.toNat) 31 5 = 0) :
    swrFlags a c = { s := (c.strictFloor c.s (c.labV a 1)).onWarp c.n.team c.n.warp (fun w =>
      { w with fpflags := clearFlags w.fpflags (c.lanesA.map (fun l => (l, c.v l a.toNat))) }) } := by
  have hv : ∀ y ∈ c.lanesA.map (fun l => (l, c.v l a.toNat)), field y.2 31 5 = 0 := by simpa using h
  unfold swrFlags
  dsimp only
  rw [List.filter_eq_self.mpr (fun y hy => decide_eq_true (hv y hy)),
    List.filter_eq_nil_iff.mpr (fun y hy => by simp [hv y hy])]
  rfl

theorem exec_swr_flags (h : Hdr) (a : BitVec 8) (s : State) : exec (.swr h 0x0021 a) s = issue (.swr h 0x0021 a) s (swrFlags a) := rfl

/-- SWR of a value that SR.FPCTL takes. -/
theorem swr_fpctl {h : Hdr} {a : BitVec 8} {s : State} {n : Now} (hi : Issues (.swr h 0x0020 a) s n = true)
    (hv : fpctlOk ((ctxOf (.swr h 0x0020 a) s n).v 0 a.toNat) = true) :
    Completes (.swr h 0x0020 a) s n
      (((ctxOf (.swr h 0x0020 a) s n).strictFloor s ((ctxOf (.swr h 0x0020 a) s n).labV a 1)).onWarp n.team n.warp
        (fun w => { w with fpctl := (ctxOf (.swr h 0x0020 a) s n).v 0 a.toNat })) [] :=
  completes_onWarp _ hi rfl _ _ (fun _ => rfl) (if_pos hv)

/-- SWR of a value that SR.FPCTL does not take (R20). -/
theorem swr_fpctl_refused {h : Hdr} {a : BitVec 8} {s : State} {n : Now} (hi : Issues (.swr h 0x0020 a) s n = true)
    (hv : fpctlOk ((ctxOf (.swr h 0x0020 a) s n).v 0 a.toNat) = false) :
    Finishes (.swr h 0x0020 a) s n { s := s, ends := (ctxOf (.swr h 0x0020 a) s n).lanesA.map (fun l =>
      (l, .trap { lane := l, cause := .illegalField } false)) } :=
  finishes_of_issue _ hi rfl (if_neg (Bool.eq_false_iff.mp hv)) rfl

/-- Settles O29: SRD runs `srdBody`; SWR widens the floor and sets one register of its warp. -/
theorem specialRegisters : Obligations.SpecialRegisters := by
  unfold Obligations.SpecialRegisters
  refine ⟨fun h r d s n hi => ⟨srd_completes hi, srd_stays hi, fun l => ?_⟩, fun h a s n => ?_⟩
  · exact ⟨rfl, rfl, rfl, rfl, rfl, rfl, rfl, rfl, rfl, rfl, rfl, rfl⟩
  · simp only [← putHalf_low, ← putHalf_high]
    refine ⟨?_, ?_, ?_, ?_, ?_, ?_, ?_, ?_, fun hv hi => swr_fpctl hi hv, swr_fpctl_refused,
      fun hv hi => completes_onWarp _ hi (exec_swr_flags h a s) _ _ (fun _ => rfl) (swrFlags_kept hv)⟩
    all_goals exact fun hi => completes_onWarp _ hi rfl _ _ (fun _ => rfl) rfl

end Sys2Proof.Machine
end

section
/-! PROOFS. RESULT_RETURN, UPDATE_APPLY, DOZE_END and SPAWN_BIN_TIMER_EXPIRY (R23, R24, R121, R160, R218, R384; O37). -/

namespace Sys2Proof.Machine

/-! ## What RESULT_RETURN performs first -/

/-- The reads that a result waits for are tried, then it returns if it has what it waits for (R23). -/
theorem exec_resultReturn {s : State} {k w id : Nat} {r : Result} (lanes : Lanes)
    (ht : (Cells.find? s.teams k).isSome = true) (hr : (s.warp k w).result? id = some r) :
    ∃ bulk, exec (.resultReturn k w id lanes) s =
      .next (((s.readsOf k w id lanes bulk).foldl (fun s i => s.tryPerform i) s).returnResult k w id) := by
  have hn : (Cells.find? s.teams k).isNone = false := by simpa using ht
  simp only [exec, execResultReturn, hn, hr, Bool.false_eq_true, if_false]
  exact ⟨_, rfl⟩

theorem readsOf_nil {s : State} {id : Nat} (h : ∀ a ∈ s.accesses, a.res ≠ id) (k w : Nat) (lanes : Lanes) (bulk : Bool) :
    s.readsOf k w id lanes bulk = [] := by
  unfold State.readsOf
  split
  · rfl
  · rw [List.map_eq_nil_iff, List.filter_eq_nil_iff]
    intro a ha
    simp [h a ha]

/-! ## What a result that has all it waits for does -/

theorem returnResult_done {s : State} {k w id : Nat} {r : Result} (hr : (s.warp k w).result? id = some r)
    (hk : r.kind = .done) : s.returnResult k w id =
      s.onWarp k w (fun wp => ({ wp with results := wp.results.filter (fun x => x.id != id) } : Warp).unmark) := by
  simp only [State.returnResult, hr, hk]

theorem returnResult_mem {s : State} {k w id d size : Nat} {r : Result} {sg : Bool} {got : List (Nat × BitVec 128)}
    {lab : Label} {want : Lanes} (hr : (s.warp k w).result? id = some r) (hk : r.kind = .mem d size sg got lab want)
    (hg : gathered got want = true) : s.returnResult k w id =
      s.onWarp k w (fun wp => (wp.returnMem r (gatheredWrites d size sg got (lab ||| r.src))).unmark) := by
  simp only [State.returnResult, hr, hk, hg, if_true]

/-- The values gathered stand in the registers of the lanes that no later instruction has written, with the labels
gathered; other lanes stay (R24). -/
theorem returnResult_mem_registers {s : State} {k w id d size : Nat} {r : Result} {sg : Bool} {got : List (Nat × BitVec 128)}
    {lab : Label} {want : Lanes} (hr : (s.warp k w).result? id = some r) (hk : r.kind = .mem d size sg got lab want)
    (hg : gathered got want = true) (hd : d + sizeWords size ≤ 255) (hn : (got.map (·.1)).Nodup) (hl : ∀ g ∈ got, g.1 < 32) :
    (∀ i g, i < sizeWords size → g ∈ got → r.stale.any (fun o => o.1 == .v (d + i) && o.2.getLsbD g.1) = false →
      Cells.get ((s.returnResult k w id).warp k w).v ((d + i) * 32 + g.1) =
        BitVec.ofNat 32 (extendTo size sg g.2.toNat >>> (32 * i)) ∧
      Cells.get ((s.returnResult k w id).warp k w).vLab (d + i) &&& (lab ||| r.src) = (lab ||| r.src)) ∧
    (∀ q l, l < 32 → (d ≤ q ∧ q < d + sizeWords size → ∀ g ∈ got, g.1 ≠ l) →
      Cells.get ((s.returnResult k w id).warp k w).v (q * 32 + l) = Cells.get (s.warp k w).v (q * 32 + l)) := by
  have hw : (s.returnResult k w id).warp k w =
      ((s.warp k w).returnMem r (gatheredWrites d size sg got (lab ||| r.src))).unmark := by
    rw [returnResult_mem hr hk hg]
    exact s.warp_onWarp k w _
  rw [hw]
  exact ⟨fun i g hi hgot hs => ⟨returnMem_value _ hd hn hl hi hgot hs, returnMem_label _ hd hl hi hgot hs⟩,
    fun q l hl32 ho => returnMem_other _ hd hl hl32 ho⟩

/-! ## A load of one lane -/

theorem oneLane_bit {lane l : Nat} (hl : l < 32) : (1#32 <<< lane).getLsbD l = decide (l = lane) := by
  rw [BitVec.getLsbD_shiftLeft, BitVec.getLsbD_one]
  by_cases e : l = lane
  · subst e; simp [hl]
  · have : l < lane ∨ l - lane ≠ 0 := by omega
    rcases this with h | h <;> simp [h, e]

theorem gathered_oneLane (lane : Nat) (x : BitVec 128) : gathered [(lane, x)] (1#32 <<< lane) = true := by
  refine List.all_eq_true.mpr (fun l hl => ?_)
  have hb := laneList_mem.mp hl
  rw [oneLane_bit (laneList_lt hl)] at hb
  simpa using (of_decide_eq_true hb).symm

theorem namesLane {lanes : Lanes} {lane : Nat} (hl : lane < 32) (h : lanes.getLsbD lane = true) :
    lanes &&& lanesOf [lane] ≠ 0#32 := by
  have hb : (lanes &&& lanesOf [lane]).getLsbD lane = true := by
    rw [BitVec.getLsbD_and, h, show lanesOf [lane] = 0 ||| 1#32 <<< lane from rfl, BitVec.getLsbD_or, oneLane_bit hl]
    simp
  intro e
  rw [e] at hb
  simp at hb

/-- A load of one lane from device memory past its L1, the only access in flight, that may be performed now: it waits for
nothing, its budget allows it, its line is not poisoned, and no lane-local copy alone holds some of its bytes. -/
structure LoneLoad (s : State) (a : Access) (pa lane : Nat) : Prop where
  queue : s.accesses = [a]
  lanes : a.lanes = [lane]
  lane_lt : lane < 32
  op : a.op = .load
  place : a.place = .dev pa
  priv : a.priv = false
  nol1 : a.nol1 = true
  ready : s.ready a = true
  budget : s.budgetFor a = true
  clean : s.poisoned a.place a.size = false
  home : s.straddles a.place a.size = false

section
variable {s : State} {a : Access} {pa lane : Nat}

/-- The one read in flight is the one that its result waits for. -/
theorem LoneLoad.readsOf (h : LoneLoad s a pa lane) {lanes : Lanes} (hn : lanes.getLsbD lane = true)
    (harr : s.onArray a.team a.warp a.res = false) (bulk : Bool) :
    s.readsOf a.team a.warp a.res lanes bulk = [a.id] := by
  unfold State.readsOf
  rw [harr, h.queue, if_neg Bool.false_ne_true,
    List.filter_cons_of_pos (by simp [h.lanes, h.op, AccOp.loads, namesLane h.lane_lt hn])]
  rfl

/-- It fetches its line at the home (R127, R219). -/
theorem LoneLoad.fetch (h : LoneLoad s a pa lane) : CacheMove s (((s.chargeAccess a).fetchFor a).catchUp a) := by
  have fetch (t : State) : CacheMove t (t.fetchFor a) := by
    simp only [State.fetchFor, h.place, h.priv, h.nol1, Bool.false_eq_true, if_false, if_true]
    exact .l2Reach t _ _ _ _
  have catchUp (t : State) : CacheMove t (t.catchUp a) := by
    simp only [State.catchUp, h.place]
    exact .ite (.applyBefore t _ _ _) (.refl t)
  exact ((CacheMove.chargeAccess s a).trans (fetch _)).trans (catchUp _)

/-- It finds what stands at the home, also once lines have moved. -/
theorem LoneLoad.loadValue (h : LoneLoad s a pa lane) {t : State} (hm : CacheMove s t) :
    t.loadValue a = Cells.readLE s.mem pa a.size := by
  have hst : t.straddles (.dev pa) a.size = false := hm.straddles (h.place ▸ h.home)
  simp [State.loadValue, hm.accesses, h.queue, h.op, State.look, h.place, h.priv, h.nol1, hst, State.readHome, hm.mem]

theorem LoneLoad.loadLab (h : LoneLoad s a pa lane) {t : State} (hm : CacheMove s t) :
    t.loadLab a = Cells.get s.frameLab (pa / 4096) := by
  simp [State.loadLab, hm.accesses, h.queue, h.op, Access.forwardsTo, h.place, State.unitLab, hm.frameLab]

/-- Performed, it gives its result what stands in memory, with the label of its frame (R28, R125). -/
theorem LoneLoad.tryPerform (h : LoneLoad s a pa lane) :
    ∃ t, CacheMove s t ∧ s.tryPerform a.id = (t.unqueue a.id).deliver a.team a.warp a.res lane
      (Cells.readLE s.mem pa a.size) (Cells.get s.frameLab (pa / 4096)) := by
  have hm := h.fetch
  have hread := hm.trans ((CacheMove.readEchoes _ a ((((s.chargeAccess a).fetchFor a).catchUp a).seenWrites a)).trans
    (.afterLook _ a.place a.size))
  have hfind : s.accesses.find? (fun b => b.id == a.id) = some a := by simp [h.queue]
  have hlocal : a.place.remote = false := by rw [h.place]; rfl
  refine ⟨_, hread, ?_⟩
  simp only [State.tryPerform, hfind, h.ready, h.budget, State.performAny, State.performLoad, h.op, h.clean, h.lanes, hlocal,
    Bool.not_true, Bool.false_eq_true, Bool.false_and, if_false, if_true, h.loadValue hm, h.loadLab hm]
  rfl

end

theorem Warp.result?_id {w : Warp} {id : Nat} {r : Result} (h : w.result? id = some r) : r.id = id := by
  simpa using List.find?_some h

theorem Warp.result?_map {w : Warp} {id : Nat} {r : Result} (f : Result → Result) (hf : ∀ x, (f x).id = x.id)
    (h : w.result? id = some r) : ({ w with results := w.results.map f } : Warp).result? id = some (f r) := by
  unfold Warp.result? at h ⊢
  rw [List.find?_map, show ((fun x : Result => x.id == id) ∘ f) = fun x => x.id == id from funext fun x => by simp [hf], h]
  rfl

/-- A value delivered to a result joins what it has gathered. -/
theorem State.result?_deliver {s : State} {k w id : Nat} {r : Result} (lane x : Nat) (lab : Label)
    (ht : (Cells.find? s.teams k).isSome = true) (hr : (s.warp k w).result? id = some r) :
    ((s.deliver k w id lane x lab).warp k w).result? id = some { r with kind := r.kind.give lane x lab } := by
  have hn : (Cells.find? s.teams k).isNone = false := by simpa using ht
  unfold State.deliver
  rw [hn, if_neg Bool.false_ne_true, State.warp_onWarp]
  refine (Warp.result?_map _ (fun x => ?_) hr).trans ?_
  · split <;> rfl
  · rw [if_pos (Warp.result?_id hr)]

theorem SameBytes.deliver (s : State) (k w id lane x : Nat) (lab : Label) : SameBytes (s.deliver k w id lane x lab) s := by
  unfold State.deliver
  split
  · exact .refl s
  · exact .onWarp s k w _

/-- Bytes stay at their homes when lines move, and when nothing but them is looked at afterwards. -/
theorem SameHome.of_move {s t u : State} (h : CacheMove s t) (g : SameBytes u t) : SameHome u s := by
  obtain ⟨g1, g2, g3⟩ := g
  refine ⟨fun p => by rw [g1, h.mem], fun p => by rw [g2]; exact h.host.1 p, fun j p => ?_⟩
  rw [g3, State.team, State.team, h.teams]

theorem deliver_accesses (s : State) (k w id lane x : Nat) (lab : Label) :
    (s.deliver k w id lane x lab).accesses = s.accesses := by
  unfold State.deliver
  split <;> rfl

theorem extendTo_word (x : Nat) : BitVec.ofNat 32 (extendTo 4 false (BitVec.ofNat 128 x).toNat >>> (32 * 0)) = BitVec.ofNat 32 x := by
  apply BitVec.eq_of_toNat_eq
  simp only [extendTo, BitVec.toNat_ofNat, Bool.false_and, Bool.false_eq_true, if_false, Nat.mul_zero, Nat.shiftRight_zero]
  omega

/-! ## The clauses of RESULT_RETURN -/

/-- A result whose registers are written leaves the marker (R23). -/
theorem resultReturn_done {s : State} {k w id : Nat} {r : Result} (lanes : Lanes)
    (ht : (Cells.find? s.teams k).isSome = true) (hr : (s.warp k w).result? id = some r) (ha : ∀ a ∈ s.accesses, a.res ≠ id)
    (hk : r.kind = .done) : ∃ t, exec (.resultReturn k w id lanes) s = .next t ∧ SameBytes t s ∧
      (t.warp k w).results = (s.warp k w).results.filter (fun x => x.id != id) ∧ (t.warp k w).v = (s.warp k w).v := by
  obtain ⟨bulk, hx⟩ := exec_resultReturn lanes ht hr
  rw [readsOf_nil ha, List.foldl_nil, returnResult_done hr hk] at hx
  refine ⟨_, hx, .onWarp s k w _, ?_, ?_⟩ <;> rw [State.warp_onWarp] <;> rfl

/-- A load's result that has gathered its values writes them (R23, R24). -/
theorem resultReturn_gathered {s : State} {k w id : Nat} {r : Result} (lanes : Lanes)
    (ht : (Cells.find? s.teams k).isSome = true) (hr : (s.warp k w).result? id = some r) (ha : ∀ a ∈ s.accesses, a.res ≠ id)
    {d size : Nat} {sg : Bool} {got : List (Nat × BitVec 128)} {lab : Label} {want : Lanes}
    (hk : r.kind = .mem d size sg got lab want) (hg : gathered got want = true) :
    exec (.resultReturn k w id lanes) s = .next (s.returnResult k w id) ∧ SameBytes (s.returnResult k w id) s := by
  obtain ⟨bulk, hx⟩ := exec_resultReturn lanes ht hr
  rw [readsOf_nil ha, List.foldl_nil] at hx
  exact ⟨hx, by rw [returnResult_mem hr hk hg]; exact .onWarp s k w _⟩

/-- The load of one lane that a result waits for is performed, and the result returns with what stands in memory. -/
theorem resultReturn_load {s : State} {r : Result} {a : Access} {pa d lane : Nat} {lanes : Lanes} (h : LoneLoad s a pa lane)
    (ht : (Cells.find? s.teams a.team).isSome = true) (hr : (s.warp a.team a.warp).result? a.res = some r)
    (hsize : a.size = 4) (hk : r.kind = .mem d 4 false [] 0 (1#32 <<< lane)) (hstale : r.stale = []) (hd : d < 255)
    (hn : lanes.getLsbD lane = true) (harr : s.onArray a.team a.warp a.res = false) :
    ∃ t, exec (.resultReturn a.team a.warp a.res lanes) s = .next t ∧ SameHome t s ∧ t.accesses = [] ∧
      Cells.get (t.warp a.team a.warp).v (d * 32 + lane) = BitVec.ofNat 32 (Cells.readLE s.mem pa 4) ∧
      Cells.get (t.warp a.team a.warp).vLab d &&& Cells.get s.frameLab (pa / 4096) = Cells.get s.frameLab (pa / 4096) := by
  obtain ⟨bulk, hx⟩ := exec_resultReturn lanes ht hr
  obtain ⟨t, hm, hperf⟩ := h.tryPerform
  rw [hsize] at hperf
  rw [h.readsOf hn harr, List.foldl_cons, List.foldl_nil, hperf] at hx
  have htu : (Cells.find? (t.unqueue a.id).teams a.team).isSome = true := by
    show (Cells.find? t.teams a.team).isSome = true
    rw [hm.teams, ht]
  have hru : ((t.unqueue a.id).warp a.team a.warp).result? a.res = some r := by
    rw [show (t.unqueue a.id).warp a.team a.warp = s.warp a.team a.warp from State.warp_of_teams hm.teams _ _, hr]
  have hrd := State.result?_deliver lane (Cells.readLE s.mem pa 4) (Cells.get s.frameLab (pa / 4096)) htu hru
  rw [hk] at hrd
  have hg := gathered_oneLane lane (BitVec.ofNat 128 (Cells.readLE s.mem pa 4))
  obtain ⟨hreg, -⟩ := returnResult_mem_registers hrd rfl hg (show d + 1 ≤ 255 by omega) (by simp) (by simpa using h.lane_lt)
  obtain ⟨hv, hlab⟩ := hreg 0 _ (by decide) (List.mem_singleton.mpr rfl) (by simp [hstale])
  have hret := returnResult_mem hrd rfl hg
  refine ⟨_, hx, .of_move hm ?_, ?_, hv.trans (extendTo_word _), ?_⟩
  · rw [hret]
    exact ((SameBytes.onWarp _ _ _ _).trans (.deliver _ _ _ _ _ _ _)).trans (.refl t)
  · rw [hret]
    refine (deliver_accesses _ _ _ _ _ _ _).trans ?_
    simp [State.unqueue, hm.accesses, h.queue]
  · simpa using label_contains_or hlab

/-! ## UPDATE_APPLY -/

theorem L1Line.put_get (l : L1Line) (off : Nat) (bs : List Byte) (o : Nat) :
    Cells.get (l.put off bs).data o = if off ≤ o ∧ o < off + bs.length then bs.getD (o - off) 0 else Cells.get l.data o :=
  Cells.get_setRange bs l.data off 0 o

theorem State.core_l1Write_ne (s : State) {core c : Nat} (key : Nat) (bs : List Byte) (lab : Label) (h : c ≠ core) :
    (s.l1Write core key bs lab).core c = s.core c :=
  (State.core_onCore _ _ _ _).trans (if_neg (Ne.symm h))

theorem State.l1Write_line {s : State} {core key : Nat} {l : L1Line} (bs : List Byte) (lab : Label)
    (h : Cells.find? (s.core core).l1 (key / 128) = some l) :
    ∃ m, Cells.find? ((s.l1Write core key bs lab).core core).l1 (key / 128) = some m ∧
      m.data = (l.put (key % 128) bs).data := by
  refine ⟨{ l.put (key % 128) bs with gen := s.genOf core, lab := l.lab ||| lab }, ?_, rfl⟩
  rw [State.l1Write, State.core_onCore, if_pos rfl, Cells.find?_adjust, if_pos rfl, h]
  rfl

/-- The oldest update of its home reaches its sharer's copy, and no other core changes (R218, R384). -/
theorem updateApply_applies {s : State} {id core : Nat} {u : Update}
    (hu : s.updates.find? (fun x => x.id == id && x.core == core) = some u)
    (ho : (s.updates.takeWhile (fun v => v != u)).any (fun v => v.core == core && updateHome v.pa == updateHome u.pa) = false) :
    ∃ t, exec (.updateApply id core) s = .next t ∧ t.updates = s.updates.erase u ∧ t.mem = s.mem ∧
      (∀ c, c ≠ core → t.core c = s.core c) ∧
      (∀ l, Cells.find? (s.core core).l1 (u.pa / 128) = some l →
        ∃ m, Cells.find? (t.core core).l1 (u.pa / 128) = some m ∧
          (∀ i b, u.bytes[i]? = some b → Cells.get m.data (u.pa % 128 + i) = b) ∧
          (∀ o, o < u.pa % 128 ∨ u.pa % 128 + u.bytes.length ≤ o → Cells.get m.data o = Cells.get l.data o)) := by
  have hx : exec (.updateApply id core) s =
      .next { s.l1Write core u.pa u.bytes u.lab with updates := s.updates.erase u } := by
    simp only [exec, execUpdateApply, hu, ho, Bool.false_eq_true, if_false]
  refine ⟨_, hx, rfl, rfl, fun c hc => ?_, fun l hl => ?_⟩
  · exact State.core_l1Write_ne s _ _ _ hc
  · obtain ⟨m, hm, hdata⟩ := State.l1Write_line u.bytes u.lab hl
    refine ⟨m, hm, fun i b hb => ?_, fun o hout => ?_⟩ <;> rw [hdata, L1Line.put_get]
    · obtain ⟨hi, -⟩ := List.getElem?_eq_some_iff.mp hb
      rw [if_pos (by omega), Nat.add_sub_cancel_left, List.getD_eq_getElem?_getD, hb]
      rfl
    · rw [if_neg (by omega)]

/-! ## Timers -/

/-- After its cycles a dozing strand may issue, and not before (R121). -/
theorem dozeEnd_wakes {s : State} {k w j e since n : Nat} {x : Warp} (hk : Cells.find? s.teams k ≠ none)
    (hw : Cells.find? (s.team k).warps w = some x) (hst : (x.strand j e).st = .waiting (.doze since n)) :
    (since + n ≤ s.cycle → ∃ t, exec (.dozeEnd k w j e) s = .next t ∧ SameBytes t s ∧
      (t.warp k w).strand j e = (x.strand j e).wake) ∧
    (s.cycle < since + n → exec (.dozeEnd k w j e) s = .next s) := by
  have hwarp : s.warp k w = x := Cells.get_of_find? hw
  have hx : exec (.dozeEnd k w j e) s =
      if since + n ≤ s.cycle then .next (s.onWarp k w (fun w => w.onStrand j e Strand.wake)) else .next s := by
    have hn : (Cells.find? s.teams k).isNone = false := by simpa [Option.isSome_iff_ne_none] using hk
    simp only [exec, execDozeEnd, hn, hw, hwarp, hst, Option.isNone_some, Bool.or_self, Bool.false_eq_true, if_false]
  refine ⟨fun hle => ⟨_, hx.trans (if_pos hle), .onWarp s k w _, ?_⟩, fun hlt => hx.trans (if_neg (by omega))⟩
  have listed : (Cells.find? (x.slice j).strands e).isSome = true := by
    refine Cells.listed_of_get (fun hdef => ?_)
    rw [Warp.strand, Slice.strand, hdef] at hst
    exact absurd (show StrandSt.ready = _ from hst) (by simp)
  rw [State.warp_onWarp, hwarp]
  simp only [Warp.strand, Warp.onStrand, Warp.onSlice, Warp.slice, Slice.strand, Slice.onStrand, Cells.get_put_self]
  exact Cells.get_adjust_listed _ _ _ listed

/-- A bin whose timer has counted out is told to start, and no other bin changes (R160). -/
theorem spawnBinTimerExpiry_starts {s : State} {core n due : Nat} (ht : (Cells.get (s.core core).bins n).timer = some due) :
    (due ≤ s.cycle → (Cells.get (s.core core).bins n).recs ≠ [] →
      ∃ t, exec (.spawnBinTimerExpiry core n) s = .next t ∧ t.teams = s.teams ∧ t.mem = s.mem ∧
        Cells.get (t.core core).bins n = { Cells.get (s.core core).bins n with timer := none, start := true } ∧
        (∀ j, j ≠ n → Cells.get (t.core core).bins j = Cells.get (s.core core).bins j)) ∧
    (s.cycle < due → exec (.spawnBinTimerExpiry core n) s = .next s) := by
  refine ⟨fun hle hrecs => ?_, fun hlt => ?_⟩
  · have hx : exec (.spawnBinTimerExpiry core n) s = .next (s.onCore core (fun c =>
        { c with bins := Cells.put c.bins n { Cells.get (s.core core).bins n with timer := none, start := true } })) := by
      simp [exec, execSpawnBinTimerExpiry, ht, hle, hrecs]
    refine ⟨_, hx, rfl, rfl, ?_, fun j hj => ?_⟩
    · rw [State.core_onCore, if_pos rfl]
      exact Cells.get_put_self _ _ _
    · rw [State.core_onCore, if_pos rfl]
      exact Cells.get_put_ne _ _ (Ne.symm hj)
  · simp [exec, execSpawnBinTimerExpiry, ht, Nat.not_le.mpr hlt]

/-- Settles O37: a returning result's writes are read back register by register (`returnResult_mem_registers`), and the
load that it waits for moves lines of caches only (`CacheMove`) before it reads its home. -/
theorem resultsUpdatesAndTimers : Obligations.ResultsUpdatesAndTimers := by
  unfold Obligations.ResultsUpdatesAndTimers
  refine ⟨fun s k w id r lanes ht hr => ⟨fun ha => ⟨resultReturn_done lanes ht hr ha, ?_⟩, ?_⟩,
    fun s => ⟨fun id core u => updateApply_applies, fun k w j e x since n => dozeEnd_wakes,
      fun core n due => spawnBinTimerExpiry_starts⟩⟩
  · intro d size sg got lab want hk hg hd hn hl
    obtain ⟨hx, hsame⟩ := resultReturn_gathered lanes ht hr ha hk hg
    exact ⟨_, hx, hsame, returnResult_mem_registers hr hk hg hd hn hl⟩
  · rintro a pa d lane hs rfl rfl rfl hlanes hl hop hp hpriv hnol1 hsize hready hbudget hpoison hk hstale hd hn hst harr
    have h : LoneLoad s a pa lane :=
      ⟨hs, hlanes, hl, hop, hp, hpriv, hnol1, hready, hbudget, hsize ▸ hpoison, hsize ▸ hst⟩
    exact resultReturn_load h ht hr hsize hk hstale hd hn harr

end Sys2Proof.Machine
end

section
/-! PROOFS. The bits of a word are the bits of its fields, and a code that is read is the code of what it names (R30-R46). -/

namespace Sys2Proof

/-! ## Fields that fill a vector -/

theorem append_split {n w : Nat} (x : BitVec (n + w)) : x.extractLsb' w n ++ x.extractLsb' 0 w = x := by
  rw [BitVec.extractLsb'_append_extractLsb'_eq_extractLsb' (by simp)]
  simp

/-- A vector of two fields is the one whose high and low bits they are. -/
theorem append_eq_iff {n w : Nat} {a : BitVec n} {b : BitVec w} {x : BitVec (n + w)} :
    a ++ b = x ↔ x.extractLsb' w n = a ∧ x.extractLsb' 0 w = b := by
  constructor
  · rintro rfl
    exact ⟨(high_append _ _ (Nat.le_refl w)).trans (by simp),
      (low_append _ _ (by simp)).trans BitVec.extractLsb'_eq_self⟩
  · rintro ⟨rfl, rfl⟩
    exact append_split x

theorem eq_append_iff {n w : Nat} {a : BitVec n} {b : BitVec w} {x : BitVec (n + w)} :
    x = a ++ b ↔ x.extractLsb' w n = a ∧ x.extractLsb' 0 w = b := eq_comm.trans append_eq_iff

theorem extract_extract {m n a s l : Nat} {x : BitVec m} (h : s + l ≤ n) :
    (x.extractLsb' a n).extractLsb' s l = x.extractLsb' (a + s) l := by
  apply BitVec.eq_of_getLsbD_eq
  intro i hi
  simp only [BitVec.getLsbD_extractLsb', hi, decide_true, Bool.true_and, Nat.add_assoc, show s + i < n by omega]

@[simp] theorem one_isOne (x : BitVec 1) : one (isOne x) = x := by
  obtain rfl | rfl := BitVec.eq_zero_or_eq_one x <;> rfl

theorem one_getLsbD {n : Nat} (x : BitVec n) (k : Nat) : one (x.getLsbD k) = x.extractLsb' k 1 := by
  apply BitVec.eq_of_getLsbD_eq
  intro j hj
  obtain rfl : j = 0 := by omega
  simp [one]

/-! ## Words and formats -/

/-- A word is its header, its body and its opcode (R30). -/
theorem wordOf_parts (w : BitVec 64) : wordOf (hdrOf w) (w.extractLsb' 0 10) (w.extractLsb' 10 49) = w := by
  simp only [wordOf, hdrOf, one_getLsbD]
  repeat' rw [BitVec.extractLsb'_append_extractLsb'_eq_extractLsb' (by rfl)]
  simp

theorem FmtA.pack_unpack (x : BitVec 49) : (FmtA.unpack x).pack = x := by
  simp only [FmtA.unpack, FmtA.pack]
  repeat' rw [BitVec.extractLsb'_append_extractLsb'_eq_extractLsb' (by rfl)]
  simp

theorem FmtI.pack_unpack (x : BitVec 49) : (FmtI.unpack x).pack = x := by
  simp only [FmtI.unpack, FmtI.pack]
  repeat' rw [BitVec.extractLsb'_append_extractLsb'_eq_extractLsb' (by rfl)]
  simp

theorem FmtM.pack_unpack (x : BitVec 49) : (FmtM.unpack x).pack = x := by
  simp only [FmtM.unpack, FmtM.pack]
  repeat' rw [BitVec.extractLsb'_append_extractLsb'_eq_extractLsb' (by rfl)]
  simp

theorem FmtMA.pack_unpack (x : BitVec 49) : (FmtMA.unpack x).pack = x := by
  simp only [FmtMA.unpack, FmtMA.pack]
  repeat' rw [BitVec.extractLsb'_append_extractLsb'_eq_extractLsb' (by rfl)]
  simp

theorem FmtB.pack_unpack (x : BitVec 49) : (FmtB.unpack x).pack = x := by
  simp only [FmtB.unpack, FmtB.pack]
  repeat' rw [BitVec.extractLsb'_append_extractLsb'_eq_extractLsb' (by rfl)]
  simp

theorem FmtX.pack_unpack (x : BitVec 49) : (FmtX.unpack x).pack = x := by
  simp only [FmtX.unpack, FmtX.pack]
  repeat' rw [BitVec.extractLsb'_append_extractLsb'_eq_extractLsb' (by rfl)]
  simp

theorem FmtC.pack_unpack (x : BitVec 49) : (FmtC.unpack x).pack = x := by
  simp only [FmtC.unpack, FmtC.pack]
  repeat' rw [BitVec.extractLsb'_append_extractLsb'_eq_extractLsb' (by rfl)]
  simp

theorem FmtS.pack_unpack (x : BitVec 49) : (FmtS.unpack x).pack = x := by
  simp only [FmtS.unpack, FmtS.pack]
  repeat' rw [BitVec.extractLsb'_append_extractLsb'_eq_extractLsb' (by rfl)]
  simp

/-- Packing and unpacking are inverse, so that either side of an equation can move to the other. -/
theorem pack_eq_iff_eq_unpack {F : Type} {pack : F → BitVec 49} {unpack : BitVec 49 → F}
    (hup : ∀ f, unpack (pack f) = f) (hpu : ∀ x, pack (unpack x) = x) {f : F} {x : BitVec 49} :
    pack f = x ↔ f = unpack x :=
  ⟨fun h => by rw [← h, hup], fun h => by rw [h, hpu]⟩

theorem FmtA.pack_eq_iff {f : FmtA} {x : BitVec 49} :
    f.pack = x ↔
      f.rg = (FmtA.unpack x).rg ∧ f.tt = (FmtA.unpack x).tt ∧ f.u = (FmtA.unpack x).u ∧ f.m = (FmtA.unpack x).m ∧
      f.c = (FmtA.unpack x).c ∧ f.b = (FmtA.unpack x).b ∧ f.a = (FmtA.unpack x).a ∧ f.d = (FmtA.unpack x).d := by
  rw [pack_eq_iff_eq_unpack FmtA.unpack_pack FmtA.pack_unpack]
  cases f
  exact FmtA.mk.injEq .. ▸ Iff.rfl

theorem FmtI.pack_eq_iff {f : FmtI} {x : BitVec 49} :
    f.pack = x ↔
      f.u = (FmtI.unpack x).u ∧ f.imm = (FmtI.unpack x).imm ∧ f.a = (FmtI.unpack x).a ∧ f.d = (FmtI.unpack x).d := by
  rw [pack_eq_iff_eq_unpack FmtI.unpack_pack FmtI.pack_unpack]
  cases f
  exact FmtI.mk.injEq .. ▸ Iff.rfl

theorem FmtM.pack_eq_iff {f : FmtM} {x : BitVec 49} :
    f.pack = x ↔
      f.aw = (FmtM.unpack x).aw ∧ f.pol = (FmtM.unpack x).pol ∧ f.scp = (FmtM.unpack x).scp ∧
      f.dom = (FmtM.unpack x).dom ∧ f.o = (FmtM.unpack x).o ∧ f.sz = (FmtM.unpack x).sz ∧
      f.off = (FmtM.unpack x).off ∧ f.b = (FmtM.unpack x).b ∧ f.a = (FmtM.unpack x).a ∧ f.d = (FmtM.unpack x).d := by
  rw [pack_eq_iff_eq_unpack FmtM.unpack_pack FmtM.pack_unpack]
  cases f
  exact FmtM.mk.injEq .. ▸ Iff.rfl

theorem FmtMA.pack_eq_iff {f : FmtMA} {x : BitVec 49} :
    f.pack = x ↔
      f.aw = (FmtMA.unpack x).aw ∧ f.pol = (FmtMA.unpack x).pol ∧ f.scp = (FmtMA.unpack x).scp ∧
      f.dom = (FmtMA.unpack x).dom ∧ f.o = (FmtMA.unpack x).o ∧ f.sz = (FmtMA.unpack x).sz ∧
      f.c = (FmtMA.unpack x).c ∧ f.aop = (FmtMA.unpack x).aop ∧ f.b = (FmtMA.unpack x).b ∧ f.a = (FmtMA.unpack x).a ∧
      f.d = (FmtMA.unpack x).d := by
  rw [pack_eq_iff_eq_unpack FmtMA.unpack_pack FmtMA.pack_unpack]
  cases f
  exact FmtMA.mk.injEq .. ▸ Iff.rfl

theorem FmtB.pack_eq_iff {f : FmtB} {x : BitVec 49} :
    f.pack = x ↔
      f.r = (FmtB.unpack x).r ∧ f.ofs = (FmtB.unpack x).ofs ∧ f.a = (FmtB.unpack x).a ∧ f.d = (FmtB.unpack x).d := by
  rw [pack_eq_iff_eq_unpack FmtB.unpack_pack FmtB.pack_unpack]
  cases f
  exact FmtB.mk.injEq .. ▸ Iff.rfl

theorem FmtX.pack_eq_iff {f : FmtX} {x : BitVec 49} :
    f.pack = x ↔
      f.r = (FmtX.unpack x).r ∧ f.ws = (FmtX.unpack x).ws ∧ f.z = (FmtX.unpack x).z ∧ f.kq = (FmtX.unpack x).kq ∧
      f.fb = (FmtX.unpack x).fb ∧ f.fa = (FmtX.unpack x).fa ∧ f.bs = (FmtX.unpack x).bs ∧ f.sa = (FmtX.unpack x).sa ∧
      f.t = (FmtX.unpack x).t := by
  rw [pack_eq_iff_eq_unpack FmtX.unpack_pack FmtX.pack_unpack]
  cases f
  exact FmtX.mk.injEq .. ▸ Iff.rfl

theorem FmtC.pack_eq_iff {f : FmtC} {x : BitVec 49} :
    f.pack = x ↔
      f.r3 = (FmtC.unpack x).r3 ∧ f.scp = (FmtC.unpack x).scp ∧ f.dom = (FmtC.unpack x).dom ∧
      f.r2 = (FmtC.unpack x).r2 ∧ f.wf = (FmtC.unpack x).wf ∧ f.r1 = (FmtC.unpack x).r1 ∧ f.wd = (FmtC.unpack x).wd ∧
      f.r0 = (FmtC.unpack x).r0 ∧ f.wc = (FmtC.unpack x).wc ∧ f.shp = (FmtC.unpack x).shp ∧
      f.ch = (FmtC.unpack x).ch := by
  rw [pack_eq_iff_eq_unpack FmtC.unpack_pack FmtC.pack_unpack]
  cases f
  exact FmtC.mk.injEq .. ▸ Iff.rfl

theorem FmtS.pack_eq_iff {f : FmtS} {x : BitVec 49} :
    f.pack = x ↔
      f.r = (FmtS.unpack x).r ∧ f.srn = (FmtS.unpack x).srn ∧ f.a = (FmtS.unpack x).a ∧ f.d = (FmtS.unpack x).d := by
  rw [pack_eq_iff_eq_unpack FmtS.unpack_pack FmtS.pack_unpack]
  cases f
  exact FmtS.mk.injEq .. ▸ Iff.rfl

/-! ## Codes -/

theorem IType.ofCode_eq_some {c : BitVec 4} {x : IType} : IType.ofCode c = some x ↔ c = x.code := by
  refine ⟨fun h => ?_, fun h => h ▸ ofCode_code x⟩
  unfold ofCode at h
  split at h <;> cases h <;> exact BitVec.eq_of_toNat_eq ‹_›

theorem FType.ofCode_eq_some {c : BitVec 4} {x : FType} : FType.ofCode c = some x ↔ c = x.code := by
  refine ⟨fun h => ?_, fun h => h ▸ ofCode_code x⟩
  unfold ofCode at h
  split at h <;> cases h <;> exact BitVec.eq_of_toNat_eq ‹_›

theorem Rnd.ofCode_eq_some {c : BitVec 3} {x : Rnd} : Rnd.ofCode c = some x ↔ c = x.code := by
  refine ⟨fun h => ?_, fun h => h ▸ ofCode_code x⟩
  unfold ofCode at h
  split at h <;> cases h <;> exact BitVec.eq_of_toNat_eq ‹_›

theorem Cmp.ofCode_eq_some {c : BitVec 3} {x : Cmp} : Cmp.ofCode c = some x ↔ c = x.code := by
  refine ⟨fun h => ?_, fun h => h ▸ ofCode_code x⟩
  unfold ofCode at h
  split at h <;> cases h <;> exact BitVec.eq_of_toNat_eq ‹_›

theorem Dom.ofCode_eq_some {c : BitVec 3} {x : Dom} : Dom.ofCode c = some x ↔ c = x.code := by
  refine ⟨fun h => ?_, fun h => h ▸ ofCode_code x⟩
  unfold ofCode at h
  split at h <;> cases h <;> exact BitVec.eq_of_toNat_eq ‹_›

theorem Scope.ofCode_eq_some {c : BitVec 3} {x : Scope} : Scope.ofCode c = some x ↔ c = x.code := by
  refine ⟨fun h => ?_, fun h => h ▸ ofCode_code x⟩
  unfold ofCode at h
  split at h <;> cases h <;> exact BitVec.eq_of_toNat_eq ‹_›

theorem Pol.ofCode_eq_some {c : BitVec 2} {x : Pol} : Pol.ofCode c = some x ↔ c = x.code := by
  refine ⟨fun h => ?_, fun h => h ▸ ofCode_code x⟩
  unfold ofCode at h
  split at h <;> cases h <;> exact BitVec.eq_of_toNat_eq ‹_›

theorem Aop.ofCode_eq_some {c : BitVec 4} {x : Aop} : Aop.ofCode c = some x ↔ c = x.code := by
  refine ⟨fun h => ?_, fun h => h ▸ ofCode_code x⟩
  unfold ofCode at h
  split at h <;> cases h <;> exact BitVec.eq_of_toNat_eq ‹_›

theorem Size.ofCode_eq_some {c : BitVec 3} {x : Size} : Size.ofCode c = some x ↔ c = x.code := by
  refine ⟨fun h => ?_, fun h => h ▸ ofCode_code x⟩
  unfold ofCode at h
  split at h <;> cases h <;> exact BitVec.eq_of_toNat_eq ‹_›

theorem MFmt.ofCode_eq_some {c : BitVec 4} {x : MFmt} : MFmt.ofCode c = some x ↔ c = x.code := by
  refine ⟨fun h => ?_, fun h => h ▸ ofCode_code x⟩
  unfold ofCode at h
  split at h <;> cases h <;> exact BitVec.eq_of_toNat_eq ‹_›

theorem XMode.ofCode_eq_some {c : BitVec 3} {x : XMode} : XMode.ofCode c = some x ↔ c = x.code := by
  refine ⟨fun h => ?_, fun h => h ▸ ofCode_code x⟩
  unfold ofCode at h
  split at h <;> cases h <;> exact BitVec.eq_of_toNat_eq ‹_›

theorem PollForm.ofCode_eq_some {c : BitVec 7} {x : PollForm} : PollForm.ofCode c = some x ↔ c = x.code := by
  refine ⟨fun h => ?_, fun h => h ▸ ofCode_code x⟩
  unfold ofCode at h
  split at h <;> cases h <;> exact BitVec.eq_of_toNat_eq ‹_›

theorem KinForm.ofCode_eq_some {c : BitVec 3} {x : KinForm} : KinForm.ofCode c = some x ↔ c = x.code := by
  refine ⟨fun h => ?_, fun h => h ▸ ofCode_code x⟩
  unfold ofCode at h
  split at h <;> cases h <;> exact BitVec.eq_of_toNat_eq ‹_›

theorem UmovForm.ofCode_eq_some {c : BitVec 7} {x : UmovForm} : UmovForm.ofCode c = some x ↔ c = x.code := by
  refine ⟨fun h => ?_, fun h => h ▸ ofCode_code x⟩
  unfold ofCode at h
  split at h <;> cases h <;> exact BitVec.eq_of_toNat_eq ‹_›

theorem PmovForm.ofCode_eq_some {c : BitVec 7} {x : PmovForm} : PmovForm.ofCode c = some x ↔ c = x.code := by
  refine ⟨fun h => ?_, fun h => h ▸ ofCode_code x⟩
  unfold ofCode at h
  split at h <;> cases h <;> exact BitVec.eq_of_toNat_eq ‹_›

theorem LbKind.ofCode_eq_some {c : BitVec 2} {x : LbKind} : LbKind.ofCode c = some x ↔ c = x.code := by
  refine ⟨fun h => ?_, fun h => h ▸ ofCode_code x⟩
  unfold ofCode at h
  split at h <;> cases h <;> exact BitVec.eq_of_toNat_eq ‹_›

theorem TileTy.ofCode_eq_some {c : BitVec 4} {x : TileTy} : TileTy.ofCode c = some x ↔ c = x.code := by
  refine ⟨fun h => ?_, fun h => h ▸ ofCode_code x⟩
  unfold ofCode at h
  split at h <;> cases h <;> exact BitVec.eq_of_toNat_eq ‹_›

theorem Shape.ofCode_eq_some {c : BitVec 3} {x : Shape} : Shape.ofCode c = some x ↔ c = x.code := by
  refine ⟨fun h => ?_, fun h => h ▸ ofCode_code x⟩
  unfold ofCode at h
  split at h <;> cases h <;> exact BitVec.eq_of_toNat_eq ‹_›

theorem MaintOp.ofCode_eq_some {c : BitVec 8} {x : MaintOp} : MaintOp.ofCode c = some x ↔ c = x.code := by
  refine ⟨fun h => ?_, fun h => h ▸ ofCode_code x⟩
  unfold ofCode at h
  split at h <;> cases h <;> exact BitVec.eq_of_toNat_eq ‹_›

theorem pcode_eq_some {x : BitVec 8} {p : BitVec 3} : pcode x = some p ↔ x = wide p := by
  rw [wide, eq_append_iff (n := 5) (w := 3)]
  simp [pcode]

theorem tcode_eq_some {x : BitVec 8} {t : BitVec 4} : tcode x = some t ↔ x = 0#4 ++ t := by
  rw [eq_append_iff (n := 4) (w := 4)]
  simp [tcode]

theorem intFold_eq_some {o : IFold} {m : BitVec 7} {op : FoldOp} :
    (if m.extractLsb' 4 3 = 0 then (IType.ofCode (m.extractLsb' 0 4)).map (.int o) else none) = some op ↔
      ∃ t, .int o t = op ∧ m = t.m := by
  simp only [Option.ite_none_right_eq_some, Option.map_eq_some_iff, IType.ofCode_eq_some, IType.m,
    eq_append_iff (n := 3) (w := 4), BitVec.ofNat_eq_ofNat]
  grind

theorem fltFold_eq_some {o : FFold} {m : BitVec 7} {op : FoldOp} :
    (FType.ofCode (m.extractLsb' 0 4)).bind (fun t => (Rnd.ofCode (m.extractLsb' 4 3)).map (.flt o t)) = some op ↔
      ∃ t rm, .flt o t rm = op ∧ m = rm.code ++ t.code := by
  simp only [Option.bind_eq_some_iff, Option.map_eq_some_iff, FType.ofCode_eq_some, Rnd.ofCode_eq_some,
    eq_append_iff (n := 3) (w := 4)]
  grind

/-- The code and the modifier of a fold (R173). -/
theorem FoldOp.ofCode_eq_some {c : BitVec 4} {m : BitVec 7} {op : FoldOp} :
    FoldOp.ofCode c m = some op ↔ c = op.code ∧ m = op.m := by
  refine ⟨fun h => ?_, fun ⟨hc, hm⟩ => hc ▸ hm ▸ FoldOp.ofCode_m op⟩
  unfold FoldOp.ofCode at h
  extract_lets it ft at h
  split at h
  case h_1 | h_2 | h_3 | h_4 | h_5 | h_6 =>
    obtain ⟨t, rfl, rfl⟩ := intFold_eq_some.mp h
    exact ⟨BitVec.eq_of_toNat_eq ‹_›, rfl⟩
  case h_7 | h_8 | h_9 =>
    obtain ⟨t, rm, rfl, rfl⟩ := fltFold_eq_some.mp h
    exact ⟨BitVec.eq_of_toNat_eq ‹_›, rfl⟩
  case h_10 => cases h

/-- The fields of a memory operand (R35, R44). -/
theorem memOpOf_eq_some {aw o : BitVec 1} {pol : BitVec 2} {scp dom sz : BitVec 3} {off : BitVec 12} {a : BitVec 8}
    {m : MemOp} :
    memOpOf aw pol scp dom o sz off a = some m ↔
      aw = one m.aw ∧ pol = m.pol.code ∧ scp = m.scp.code ∧ dom = m.dom.code ∧ o = one m.o ∧ sz = m.sz.code ∧
        off = m.off ∧ a = m.a := by
  constructor
  · simp only [memOpOf, Option.bind_eq_some_iff, Option.map_eq_some_iff, Pol.ofCode_eq_some, Scope.ofCode_eq_some,
      Dom.ofCode_eq_some, Size.ofCode_eq_some]
    rintro ⟨p, rfl, s, rfl, d, rfl, z, rfl, rfl⟩
    simp only [one_isOne, and_self]
  · rintro ⟨rfl, rfl, rfl, rfl, rfl, rfl, rfl, rfl⟩
    exact memOpOf_code m

/-! ## What the decoder's checks let pass -/

theorem need_eq_ok {b : Bool} {x : Dec} {i : Instr} : need b x = .ok i ↔ b = true ∧ x = .ok i := by
  cases b <;> simp [need]

theorem withCode_eq_ok {α : Type} {x : Option α} {k : α → Dec} {i : Instr} :
    withCode x k = .ok i ↔ ∃ a, x = some a ∧ k a = .ok i := by
  cases x <;> simp [withCode]

theorem FmtA.plain_eq_true {f : FmtA} {ub uc : Bool} :
    f.plain ub uc = true ↔ f.rg = 0 ∧ f.tt = 0 ∧ (ub = false → f.b = 0) ∧ (uc = false → f.c = 0) := by
  cases ub <;> cases uc <;> simp [FmtA.plain, and_assoc]

theorem FmtA.noU_eq_true {f : FmtA} {ub uc : Bool} : f.noU ub uc = true ↔ f.u = 0 ∧ f.plain ub uc = true := by
  simp [FmtA.noU, and_comm]

theorem FmtA.ity_eq_ok {f : FmtA} {k : IType → Dec} {i : Instr} :
    f.ity k = .ok i ↔ ∃ t, f.m = t.m ∧ k t = .ok i := by
  simp [FmtA.ity, need_eq_ok, withCode_eq_ok, IType.ofCode_eq_some, IType.m, eq_append_iff (n := 3) (w := 4), and_assoc]

theorem FmtA.fty_eq_ok {f : FmtA} {k : FType → Dec} {i : Instr} :
    f.fty k = .ok i ↔ ∃ t, f.m = t.m ∧ k t = .ok i := by
  simp [FmtA.fty, need_eq_ok, withCode_eq_ok, FType.ofCode_eq_some, FType.m, eq_append_iff (n := 3) (w := 4), and_assoc]

theorem FmtA.srcF_eq_ok {f : FmtA} {k : FType → Dec} {i : Instr} :
    f.srcF k = .ok i ↔ ∃ t : FType, f.c = 0#4 ++ t.code ∧ k t = .ok i := by
  simp [FmtA.srcF, need_eq_ok, withCode_eq_ok, FType.ofCode_eq_some, eq_append_iff (n := 4) (w := 4), and_assoc]

theorem FmtA.srcI_eq_ok {f : FmtA} {k : IType → Dec} {i : Instr} :
    f.srcI k = .ok i ↔ ∃ t : IType, f.c = 0#4 ++ t.code ∧ k t = .ok i := by
  simp [FmtA.srcI, need_eq_ok, withCode_eq_ok, IType.ofCode_eq_some, eq_append_iff (n := 4) (w := 4), and_assoc]

/-- Outside stochastic rounding the fields of the random source are zero, as those of the source that is read (R43). -/
theorem FmtA.rounded_eq_ok {f : FmtA} {k : FType → Rnd → RndSrc → Dec} {i : Instr} :
    f.rounded k = .ok i ↔ ∃ (t : FType) (rm : Rnd), f.m = rm.code ++ t.code ∧
      (rm = .rsto ∨ f.rg = 0 ∧ f.tt = 0) ∧ k t rm ⟨isOne f.rg, f.tt⟩ = .ok i := by
  simp only [FmtA.rounded, need_eq_ok, withCode_eq_ok, FType.ofCode_eq_some, Rnd.ofCode_eq_some,
    eq_append_iff (n := 3) (w := 4), Bool.or_eq_true, Bool.and_eq_true, decide_eq_true_eq]
  grind

end Sys2Proof
end

section
/-! PROOFS. Decode and encode are inverse (R30-R46; O58). -/

namespace Sys2Proof

/-! ## From words to instructions and back -/

/-- An instruction's word has the body x if the body that it is built from is x. -/
theorem encodes_to {i : Instr} {h : Hdr} {op : BitVec 10} {b x : BitVec 49} (he : encode i = some (wordOf h op b))
    (hb : b = x) : encode i = some (wordOf h op x) := hb ▸ he

/-- What a body decodes to is encoded as that body: each arm of the decoder fixes every field, by a check, by a code that
it reads or as an operand, and these are the fields that the word of its instruction is built from. -/
theorem encode_of_decodeBody {h : Hdr} {x : BitVec 49} {op : Nat} {i : Instr} (H : decodeBody h x op = some (.ok i)) :
    encode i = some (wordOf h (.ofNat 10 op) x) := by
  unfold decodeBody decodeGroup0 decodeGroup1 decodeGroup2 decodeGroup3 decodeGroup4 decodeGroup5 decodeGroup6
    decodeGroup7 decodeGroup8 decodeGroup9 decodeGroupA decodeGroupB at H
  split at H
  case h_13 => cases H
  -- No instruction comes from an unassigned opcode of a group.
  all_goals
    split at H
    all_goals try contradiction
  -- The checks of an arm, as equations of fields; the same equations say that the packed fields are the body.
  all_goals
    revert H
    simp only [Option.some.injEq, Except.ok.injEq, need_eq_ok, withCode_eq_ok, FmtA.noU_eq_true, FmtA.plain_eq_true,
      FmtA.ity_eq_ok, FmtA.fty_eq_ok, FmtA.srcF_eq_ok, FmtA.srcI_eq_ok, FmtA.rounded_eq_ok, memOpOf_eq_some,
      pcode_eq_some, tcode_eq_some, FoldOp.ofCode_eq_some, IType.ofCode_eq_some, FType.ofCode_eq_some,
      Rnd.ofCode_eq_some, Cmp.ofCode_eq_some, Dom.ofCode_eq_some, Scope.ofCode_eq_some, Aop.ofCode_eq_some,
      MFmt.ofCode_eq_some, XMode.ofCode_eq_some, PollForm.ofCode_eq_some, KinForm.ofCode_eq_some,
      UmovForm.ofCode_eq_some, PmovForm.ofCode_eq_some, LbKind.ofCode_eq_some, TileTy.ofCode_eq_some,
      Shape.ofCode_eq_some, MaintOp.ofCode_eq_some, Bool.and_eq_true, Bool.or_eq_true, decide_eq_true_eq,
      Bool.true_eq_false, false_implies, true_implies, forall_exists_index, and_imp]
    intros
    subst_vars
    refine encodes_to rfl ?_
    simp only [FmtA.pack_eq_iff, FmtI.pack_eq_iff, FmtM.pack_eq_iff, FmtMA.pack_eq_iff, FmtB.pack_eq_iff,
      FmtX.pack_eq_iff, FmtC.pack_eq_iff, FmtS.pack_eq_iff, one_isOne, one_getLsbD, wide,
      append_eq_iff (n := 6) (w := 1), append_eq_iff (n := 5) (w := 2), append_eq_iff (n := 4) (w := 3),
      append_eq_iff (n := 3) (w := 4), append_eq_iff (n := 2) (w := 5), append_eq_iff (n := 1) (w := 6),
      append_eq_iff (n := 5) (w := 3), append_eq_iff (n := 4) (w := 4), append_eq_iff (n := 3) (w := 5),
      append_eq_iff (n := 24) (w := 8), append_eq_iff (n := 23) (w := 9), eq_append_iff (n := 1) (w := 2),
      eq_append_iff (n := 3) (w := 3), eq_append_iff (n := 1) (w := 4), eq_append_iff (n := 1) (w := 8),
      extract_extract, Nat.reduceAdd, Nat.reduceLeDiff, BitVec.ofNat_eq_ofNat, *, and_self]

/-- Every word that decodes is the word of its instruction, a word of no instruction that of its row (R31, R47). -/
theorem encode_of_decode {w : BitVec 64} {i : Instr} (h : decode w = .ok i) : encode i = some w := by
  unfold decode at h
  split at h
  · rename_i hb
    subst h
    have := encode_of_decodeBody hb
    rwa [BitVec.ofNat_toNat, BitVec.setWidth_eq, wordOf_parts] at this
  · cases h
    rfl

/-! ## From instructions to words and back -/

@[simp] theorem need_true (x : Dec) : need true x = x := rfl
@[simp] theorem withCode_some {α : Type} (a : α) (k : α → Dec) : withCode (some a) k = k a := rfl

theorem wide_high (x : BitVec 3) : (wide x).extractLsb' 3 5 = 0 := field_hi_5_3 0#5 x
theorem wide_low (x : BitVec 3) : (wide x).extractLsb' 0 3 = x := field_lo_5_3 0#5 x

theorem decodes_to {h : Hdr} {op : BitVec 10} {b : BitVec 49} {r : Dec} {i : Instr}
    (hb : decodeBody h b op.toNat = some r) (hr : r = .ok i) : decode (wordOf h op b) = .ok i :=
  (decode_wordOf h op b r hb).trans hr

/-- The decoder's check of the random source passes what the entries accept (R43). -/
theorem source_accepted {rm : Rnd} {r : RndSrc} (h : rndOk rm r = true) :
    (decide (rm = .rsto) || (decide (one r.rg = 0#1) && decide (r.tt = 0#8))) = true := by
  simpa using rndOk_source rm r h

/-- The decoder reads each field of a word back as the operand that it was built from. What the entry accepts is needed for
two operands: a random source is read back only under stochastic rounding, and an atomic has no bits for an offset. -/
theorem decode_of_encode {i : Instr} {w : BitVec 64} (hi : ∀ v, i ≠ .illegalOpcode v) (ha : i.accepts = true)
    (he : encode i = some w) : decode w = .ok i := by
  cases i
  case illegalOpcode v => exact absurd rfl (hi v)
  case' fadd | fsub | fmul | fma | frcp | fsqrt | frsq | fexp2 | flog2 | fsin | fcos | fdot2 | fscale | frint | cvt |
      cvtn | cvtw | scapp =>
    have source := source_accepted (Bool.and_eq_true_iff.mp ha).2
  case' atom | cas | red | stf =>
    have offset := memOpOf_code_offless _ (eq_of_beq (Bool.and_eq_true_iff.mp ha).2)
  -- An event has no word; the word of an instruction is what it is built from.
  all_goals cases he
  all_goals
    refine decodes_to rfl ?_
    clear ha hi
    simp [-Nat.reduceAdd, -BitVec.getLsbD_eq_getElem, FmtA.noU, FmtA.plain, FmtA.ity, FmtA.fty,
      FmtA.srcF, FmtA.srcI, FmtA.rounded, IType.m, FType.m, memOpOf_code,
      FoldOp.ofCode_m, field_hi_3_4, field_lo_3_4, field_hi_4_4, field_lo_4_4, field_hi_6_1, bit_6_1, field_hi_24_8,
      field_lo_24_8, field_hi_5_2, field_lo_5_2, field_hi_3_1_4, bit_1_4, fold_1_4, field_hi_23_1_8, bit_1_8, imm_1_8,
      field_hi_2_1_4, raw_1_4, rawt_1_4, field_hi_1_3_3, sc_dm, sc_sc, field_hi_4_1_2, pf_1_2, pfk_1_2, wide_high,
      wide_low, *]

/-- Settles O58: an arm of the decoder fixes every field of its word, and a field is read back as what it was built from. -/
theorem encodingRoundTrips : Obligations.EncodingRoundTrips := by
  unfold Obligations.EncodingRoundTrips
  refine ⟨fun i w hwf hi he => decode_of_encode hi ?_ he, fun w i => encode_of_decode⟩
  simp only [Instr.WellFormed, Instr.legal, Bool.and_eq_true] at hwf
  obtain ⟨⟨haccepts, -⟩, -⟩ := hwf
  exact haccepts

end Sys2Proof
end

section
/-! PROOFS. The words that the specification prints (R30-R47; O55). -/

namespace Sys2Proof

/-- Settles O55: the decoder is evaluated on each word. -/
theorem wordsDecodeAsTheSpecPrintsThem : Obligations.WordsDecodeAsTheSpecPrintsThem := by
  unfold Obligations.WordsDecodeAsTheSpecPrintsThem
  refine ⟨?_, ?_, ?_, ?_, ?_, ?_, ?_, ?_, ?_, ?_, ?_, ?_, ?_, ?_, ?_, ?_, ?_, ?_, ?_, ?_, ?_⟩
  all_goals rfl

end Sys2Proof
end

section
/-! PROOFS. The checks before an instruction's own, words that are no instruction, and failed fetches (R47, R340, R349;
O10). -/

namespace Sys2Proof.Machine

/-! ## Words and fetches -/

/-- A word with an unassigned opcode traps in its active lanes (R47). -/
theorem exec_illegalOpcode {w : DWord} {s : State} {n : Now} (hn : s.now = some n)
    (hd : decode w = .ok (.illegalOpcode w)) :
    exec (.illegalOpcode w) s = .next ((s.cx n (hdrOf w) none).finish false
      { s, ends := trapAll (s.cx n (hdrOf w) none).act .illegalOpcode 0 0 }) := by
  show execIllegalOpcode w s = _
  simp only [execIllegalOpcode, hd, trapWord, hn, Bool.false_eq_true, if_false]

/-- A fetch that fails parks every lane of the issuing strands on its fault (R340, R349). -/
theorem exec_instructionFetchFault {s s1 : State} {n : Now} {u : Nat × Nat} {us : List (Nat × Nat)} {k : Nat} {m : Bool}
    (hn : s.now = some n) (hu : n.units = u :: us)
    (hf : s.fetchStrand (s.team n.team).core (s.team n.team).ctx ((s.warp n.team n.warp).strand u.1 u.2) =
      (s1, .fault k m)) :
    exec .instructionFetchFault s =
      .next (({ s.cx { n with commit := true } default none with
          act := (s.cx { n with commit := true } default none).lanes } : Cx).finish false
        { s := s1
          ends := (laneList (s.cx { n with commit := true } default none).lanes).map (fun l =>
            (l, .fault { kind := k, access := 3, va := n.pc, malformed := m })) }) := by
  have hf' : s.fetchStrand (s.team n.team).core (s.team n.team).ctx
      ((s.cx { n with commit := true } default none).warp.strand u.1 u.2) = (s1, .fault k m) := hf
  show execInstructionFetchFault s = _
  simp only [execInstructionFetchFault, hn, hu] at hf' ⊢
  simp only [hf']

/-! ## The checks of R47 -/

/-- A guard field that names no guard traps in every lane of the issuing strands (R47). -/
theorem issue_bad_guard {i : Instr} {s : State} {n : Now} (body : Cx → Eff) (hn : s.now = some n)
    (hg : i.guardOk = false) :
    issue i s body = .next ((ctxOf i s n).finish false { s, ends := trapAll (ctxOf i s n).lanes .illegalField 0 0 }) := by
  simp only [issue, hn, hg, Bool.not_false, if_true]
  rfl

/-- A check of order 2 or 3 of R47 that fails traps in every active lane. -/
theorem issue_decodeTrap {i : Instr} {s : State} {n : Now} {cause : Cause} (body : Cx → Eff) (hn : s.now = some n)
    (hg : i.guardOk = true) (ha : (ctxOf i s n).act ≠ 0) (hv : (ctxOf i s n).vetoed i = false)
    (ht : (ctxOf i s n).decodeTrap i = some cause) :
    issue i s body = .next ((ctxOf i s n).finish false { s, ends := trapAll (ctxOf i s n).act cause 0 0 }) := by
  unfold issue
  rw [hn]
  simp only [ctxOf] at ha hv ht ⊢
  rw [if_neg (by simp [hg]), if_neg (by simpa [hv] using ha), ht]

theorem Cx.decodeTrap_illegalField {c : Cx} {i : Instr}
    (h : i.legal c.hdr.vregs c.hdr.tiles = false ∨ (i.notInTrap && c.inTrap) = true) :
    c.decodeTrap i = some .illegalField :=
  if_pos (by simpa using h)

theorem Cx.decodeTrap_partialGang {c : Cx} {i : Instr} (hl : i.legal c.hdr.vregs c.hdr.tiles = true)
    (ht : (i.notInTrap && c.inTrap) = false) (hf : i.needsFull = true) (h : c.full = false ∨ c.act ≠ 0xFFFFFFFF#32) :
    c.decodeTrap i = some .partialGang := by
  unfold Cx.decodeTrap
  have hgang : (c.full && c.act == 0xFFFFFFFF#32) = false := by
    rcases h with h | h
    · rw [h, Bool.false_and]
    · rw [beq_eq_false_iff_ne.mpr h, Bool.and_false]
  rw [hl, ht, hf, hgang]
  rfl

/-- Settles O10: the two events are evaluated, and every instruction with a header meets the checks of `issue`. -/
theorem decodeAndFetchChecksTrap : Obligations.DecodeAndFetchChecksTrap := by
  unfold Obligations.DecodeAndFetchChecksTrap
  refine ⟨fun w s n hn => ⟨exec_illegalOpcode hn, fun u us s1 k m => exec_instructionFetchFault hn⟩,
    fun i s n hi hn => ?_⟩
  obtain ⟨body, hx⟩ := exec_eq_issue i hi s
  refine ⟨fun hg => ?_, fun hg ha hv h => ?_, fun hg ha hv hl ht hf h => ?_⟩
  · exact hx.trans (issue_bad_guard body hn hg)
  · exact hx.trans (issue_decodeTrap body hn hg ha hv (Cx.decodeTrap_illegalField h))
  · exact hx.trans (issue_decodeTrap body hn hg ha hv (Cx.decodeTrap_partialGang hl ht hf h))

end Sys2Proof.Machine
end

section
/-! PROOFS. A step that issues fetches, decodes and executes (R30, R47, R139, R141, R210; O56). -/

namespace Sys2Proof.Machine

/-! ## Issuing -/

theorem State.teams_noteLoss (s : State) (u : IssueUnit) : (s.noteLoss u).teams = s.teams := by
  unfold State.noteLoss
  split
  · rfl
  · split <;> rfl

/-- Noting an issue moves no team. -/
theorem State.teams_noteIssue (s : State) (c : Cand) : (s.noteIssue c).teams = s.teams :=
  List.foldlRecOn _ State.noteLoss (motive := fun t => t.teams = s.teams) rfl
    (fun t h u _ => (t.teams_noteLoss u).trans h)

theorem State.team_noteIssue (s : State) (c : Cand) (k : Nat) : (s.noteIssue c).team k = s.team k := by
  unfold State.team
  rw [State.teams_noteIssue]

/-- The unit that its partition issues next executes the instruction that its word decodes to (R47, R210). -/
theorem State.issueUnit_executes {s s1 : State} {k w : Nat} {slice : Option Nat} {us : List (Nat × Nat)} {c : Cand}
    {r : State × Now} {v : DWord} {i : Instr} (hu : s.unitsOf k w slice = some us) (hc : s.mayIssue k w slice = some c)
    (hr : (s.noteIssue c).nowOf k w us = r)
    (hf : r.1.fetchStrand (s.team k).core (s.team k).ctx
      (us.head?.elim default (fun u => (r.1.warp k w).strand u.1 u.2)) = (s1, .word v))
    (hd : decode v = .ok i) :
    s.issueUnit k w slice = exec i { s1 with now := some { r.2 with word := v } } := by
  unfold State.issueUnit
  simp only [hu, hc, State.team_noteIssue, hr]
  cases us with
  | nil | cons _ _ =>
    simp only [List.head?_nil, List.head?_cons, Option.elim_none, Option.elim_some] at hf
    simp only [hf, hd]

/-! ## Fetching -/

theorem State.fetchStrand_of_no_loop {s : State} {core ctx : Nat} {x : Strand} (h : x.loop.live = false) :
    s.fetchStrand core ctx x = s.fetch core ctx x.pc :=
  if_neg (by simp [h])

/-- A word of a line that is read whole for the instruction cache (R139). -/
theorem State.lineWords_dev (s : State) {pa off j : Nat} (hj : j < 16) :
    (s.lineWords (.dev pa) off).getD j 0 = BitVec.ofNat 64 (Cells.readLE s.mem (pa - off + 8 * j) 8) := by
  simp [State.lineWords, hj]
  rfl

/-- A word whose line the instruction cache does not hold is read at its home (R139). -/
theorem State.fetch_uncached {s s2 : State} {core ctx pa : Nat} {pc lab : DWord}
    (ht : s.translate core ctx pc .fetch = (s2, .ok (.dev pa, lab)))
    (hc : Cells.find? (s2.core core).icache (codeLine ctx pc.toNat) = none) (hb : s2.badLine (.dev pa) = false)
    (ha : pc.toNat % 8 = 0) (hl : pa % 128 = pc.toNat % 128) :
    (s.fetch core ctx pc).2 = .word (BitVec.ofNat 64 (Cells.readLE s2.mem pa 8)) := by
  have hmem := (CacheMove.l2Reach s2 (s2.whoOf ctx) (.dev pa) 8 false).mem
  have hat : pa - pc.toNat % 128 + 8 * (pc.toNat / 8 % 16) = pa := by omega
  simp only [State.fetch, ht, hc, hb, Bool.false_eq_true, if_false]
  rw [State.lineWords_dev _ (by omega), hat]
  exact congrArg (fun m => Fetched.word (BitVec.ofNat 64 (Cells.readLE m pa 8))) hmem

/-- A word whose line the instruction cache holds is the word held or the one at its home (R141). -/
theorem State.fetch_cached {s s2 : State} {core ctx pa : Nat} {pc lab : DWord} {ws : List DWord}
    (ht : s.translate core ctx pc .fetch = (s2, .ok (.dev pa, lab)))
    (hc : Cells.find? (s2.core core).icache (codeLine ctx pc.toNat) = some ws) :
    (s.fetch core ctx pc).2 = .word (ws.getD (pc.toNat / 8 % 16) 0) ∨
      (s.fetch core ctx pc).2 = .word (BitVec.ofNat 64 (Cells.readLE s2.mem pa 8)) := by
  simp only [State.fetch, ht, hc]
  split
  · exact .inl rfl
  · split
    · exact .inr rfl
    · exact .inl rfl

/-- Settles O56: a step with power carries out its turn's issue, and a fetch reads the cache or the home. -/
theorem stepRunsTheDecodedInstruction : Obligations.StepRunsTheDecodedInstruction := by
  unfold Obligations.StepRunsTheDecodedInstruction
  refine ⟨?_, fun s core ctx x s2 pa lab hloop ht hc hb ha hl => ?_,
    fun s core ctx x s2 pa lab ws hloop ht hc => ?_⟩
  · intro s t rest k w slice us s1 v c i hp hagenda hact b hu hc r hf hd
    have hr : (b.noteIssue c).nowOf k w us = r := rfl
    clear_value r
    have hrun : b.issueUnit k w slice = exec i { s1 with now := some { r.2 with word := v } } :=
      State.issueUnit_executes hu hc hr (by cases us <;> exact hf) hd
    unfold step
    rw [if_pos hp, hagenda]
    simp only [hact]
    exact congrArg State.settled hrun
  · rw [State.fetchStrand_of_no_loop hloop]
    exact State.fetch_uncached ht hc hb ha hl
  · rw [State.fetchStrand_of_no_loop hloop]
    exact State.fetch_cached ht hc

end Sys2Proof.Machine
end

section
/-! PROOFS. Floating addition, subtraction, multiplication and fused multiply-add (R74, R91, R98, R99; O2). -/

namespace Sys2Proof.Machine

/-- An instruction that issues a rounded operation on two registers leaves its result, element by element (R98, R99). -/
theorem resultFV_of_fp2 {i : Instr} {t : FType} {rm : Rnd} {r : RndSrc} {d a b : BitVec 8}
    {op : RMode → List FVal → FVal × Flags} (hx : ∀ s, exec i s = issue i s (fun c => c.fp2 t rm r d a b op)) :
    ResultFV i d t.words (fun x => x.labV a t.words ||| x.labV b t.words ||| x.labRnd rm r)
      (fun x l => x.fpOp t rm r l [x.fraw t l a, x.fraw t l b] op) :=
  resultFV_of hx

/-- An instruction that issues a rounded operation on a register and an immediate leaves its F32 result under RNE (R91). -/
theorem resultFV_of_fpImm {i : Instr} {imm : BitVec 32} {d a : BitVec 8} {op : RMode → List FVal → FVal × Flags}
    (hx : ∀ s, exec i s = issue i s (fun c => c.fpImm d a imm op)) :
    ResultFV i d 1 (fun x => x.labV a 1) (fun x l => x.fpOp .f32 .rne ⟨false, 0⟩ l [x.fraw .f32 l a, imm.toNat] op) :=
  resultFV_of hx

/-- Settles O2: the register forms issue `Cx.fp2`, the immediate forms `Cx.fpImm`, and FMA the floating skeleton itself;
each leaves what `resultFV_of` says of that skeleton. -/
theorem floatArithmeticResults : Obligations.FloatArithmeticResults := by
  unfold Obligations.FloatArithmeticResults
  intro h t rm r imm d a b c
  have fadd := resultFV_of_fp2 (i := .fadd h t rm r d a b) (op := addOp) (fun _ => rfl)
  have fsub := resultFV_of_fp2 (i := .fsub h t rm r d a b) (op := subOp) (fun _ => rfl)
  have fmul := resultFV_of_fp2 (i := .fmul h t rm r d a b) (op := mulOp) (fun _ => rfl)
  have faddImm := resultFV_of_fpImm (i := .faddImm h imm d a) (op := addOp) (fun _ => rfl)
  have fsubImm := resultFV_of_fpImm (i := .fsubImm h imm d a) (op := subOp) (fun _ => rfl)
  have fmulImm := resultFV_of_fpImm (i := .fmulImm h imm d a) (op := mulOp) (fun _ => rfl)
  exact ⟨fadd, fsub, fmul, faddImm, fsubImm, fmulImm, resultFV_of (fun _ => rfl)⟩

end Sys2Proof.Machine
end

section
/-! PROOFS. Integer arithmetic, logic, shifts, bit fields, counts and immediate forms (R57, R91-R97; O1, O3). -/

namespace Sys2Proof.Machine

section Shapes

variable {i : Instr} {u : Bool} {t : IType} {d a b : BitVec 8} {imm : BitVec 32}

/-- Two registers of one type (R93). -/
theorem resultI_of_int2 (f : IType → Int → Int → Int) (hx : ∀ s, exec i s = issue i s (fun c => c.int2 u t d a b (f t))) :
    ResultI i u t.words d (fun x => x.labI u a t.words ||| x.labI u b t.words)
      (fun x l => intWrite t u (f t (x.ival u t l a) (x.ival u t l b))) :=
  resultI_of hx

/-- A register and an immediate, as .I32 (R91). -/
theorem resultI_of_intImm (f : Int → Int → Int) (hx : ∀ s, exec i s = issue i s (fun c => c.intImm u d a imm f)) :
    ResultI i u 1 d (fun x => x.labI u a 1) (fun x l => intWrite .i32 u (f (x.ival u .i32 l a) imm.toInt)) :=
  resultI_of hx

/-- A 32-bit operand and an amount in a register (R94). -/
theorem resultI_of_shift (f : Nat → Nat → Nat) (hx : ∀ s, exec i s = issue i s (fun c => c.shift u d a b f)) :
    ResultI i u 1 d (fun x => x.labI u a 1 ||| x.labI u b 1) (fun x l => f (x.raw32 u l a) (x.raw32 u l b)) :=
  resultI_of hx

/-- A 32-bit operand and an immediate amount (R91, R94). -/
theorem resultI_of_shiftImm (f : Nat → Nat → Nat) (hx : ∀ s, exec i s = issue i s (fun c => c.shiftImm u d a imm f)) :
    ResultI i u 1 d (fun x => x.labI u a 1) (fun x l => f (x.raw32 u l a) imm.toNat) :=
  resultI_of hx

/-- A count over the bits of a type (R92). -/
theorem resultI_of_count (f : Nat → Nat → Nat) (hx : ∀ s, exec i s = issue i s (fun c => c.count u t d a f)) :
    ResultI i u 1 d (fun x => x.labI u a t.words) (fun x l => f t.width (x.iraw u t.words l a % 2 ^ t.width)) :=
  resultI_of hx

end Shapes

/-- Settles O1: the two-register forms issue `Cx.int2` with the operation named; MOV, IMAD, IABS and the 64-bit forms issue
the integer skeleton itself. -/
theorem integerResults : Obligations.IntegerResults := by
  unfold Obligations.IntegerResults
  refine ⟨fun h u t d a b c => ?_, fun h u sx t d a b c => ?_⟩
  · have mov := resultI_of (i := .mov h u t d a) (fun _ => rfl)
    have iadd := resultI_of_int2 (i := .iadd h u t d a b) (fun _ x y => x + y) (fun _ => rfl)
    have isub := resultI_of_int2 (i := .isub h u t d a b) (fun _ x y => x - y) (fun _ => rfl)
    have imul := resultI_of_int2 (i := .imul h u t d a b) (fun _ x y => x * y) (fun _ => rfl)
    have imulh := resultI_of_int2 (i := .imulh h u t d a b) (fun t x y => x * y / ((2 ^ t.width : Nat) : Int)) (fun _ => rfl)
    have imad := resultI_of (i := .imad h u t d a b c) (fun _ => rfl)
    have idiv := resultI_of_int2 (i := .idiv h u t d a b) (fun t => divInt t.width t.signed) (fun _ => rfl)
    have irem := resultI_of_int2 (i := .irem h u t d a b) (fun _ => remInt) (fun _ => rfl)
    have imin := resultI_of_int2 (i := .imin h u t d a b) (fun _ => min) (fun _ => rfl)
    have imax := resultI_of_int2 (i := .imax h u t d a b) (fun _ => max) (fun _ => rfl)
    have iabs := resultI_of (i := .iabs h u t d a) (fun _ => rfl)
    have sadd := resultI_of_int2 (i := .sadd h u t d a b) (fun t x y => clampTo t.width t.signed (x + y)) (fun _ => rfl)
    have ssub := resultI_of_int2 (i := .ssub h u t d a b) (fun t x y => clampTo t.width t.signed (x - y)) (fun _ => rfl)
    exact ⟨mov, iadd, isub, imul, imulh, imad, idiv, irem, imin, imax, iabs, sadd, ssub⟩
  · have add64 := resultI_of (i := .add64 h u d a b) (fun _ => rfl)
    have mad64 := resultI_of (i := .mad64 h u t d a b c) (fun _ => rfl)
    have shl64 := resultI_of (i := .shl64 h u d a b) (fun _ => rfl)
    have shr64 := resultI_of (i := .shr64 h u sx d a b) (fun _ => rfl)
    exact ⟨add64, mad64, shl64, shr64⟩

/-- Settles O3: the shifts issue `Cx.shift` and `Cx.shiftImm`, the counts `Cx.count`, the signed immediate forms `Cx.intImm`,
each with the operation named; every other form issues the integer skeleton itself. -/
theorem logicShiftAndImmediateResults : Obligations.LogicShiftAndImmediateResults := by
  unfold Obligations.LogicShiftAndImmediateResults
  refine ⟨fun h u t tt d a b c => ?_, fun h u imm d a => ?_⟩
  · have and := resultI_of (i := .and h u t d a b) (fun _ => rfl)
    have or := resultI_of (i := .or h u t d a b) (fun _ => rfl)
    have xor := resultI_of (i := .xor h u t d a b) (fun _ => rfl)
    have ttab := resultI_of (i := .ttab h u t tt d a b c) (fun _ => rfl)
    have shl := resultI_of_shift (i := .shl h u d a b) shl32 (fun _ => rfl)
    have shr := resultI_of_shift (i := .shr h u d a b) shr32 (fun _ => rfl)
    have sar := resultI_of_shift (i := .sar h u d a b) sar32 (fun _ => rfl)
    have rotl := resultI_of_shift (i := .rotl h u d a b) rotl32 (fun _ => rfl)
    have bfx := resultI_of (i := .bfx h u t d a b) (fun _ => rfl)
    have bfi := resultI_of (i := .bfi h u d a b c) (fun _ => rfl)
    have popc := resultI_of_count (i := .popc h u t d a) popcOf (fun _ => rfl)
    have clz := resultI_of_count (i := .clz h u t d a) clzOf (fun _ => rfl)
    have brev := resultI_of (i := .brev h u t d a) (fun _ => rfl)
    have bperm := resultI_of (i := .bperm h u d a b c) (fun _ => rfl)
    exact ⟨and, or, xor, ttab, shl, shr, sar, rotl, bfx, bfi, popc, clz, brev, bperm⟩
  · have movi := resultI_of (i := .movi h u imm d) (fun _ => rfl)
    have iadd := resultI_of_intImm (i := .iaddImm h u imm d a) (fun x y => x + y) (fun _ => rfl)
    have isub := resultI_of_intImm (i := .isubImm h u imm d a) (fun x y => x - y) (fun _ => rfl)
    have imul := resultI_of_intImm (i := .imulImm h u imm d a) (fun x y => x * y) (fun _ => rfl)
    have imin := resultI_of_intImm (i := .iminImm h u imm d a) min (fun _ => rfl)
    have imax := resultI_of_intImm (i := .imaxImm h u imm d a) max (fun _ => rfl)
    have sadd := resultI_of_intImm (i := .saddImm h u imm d a) (fun x y => clampTo 32 true (x + y)) (fun _ => rfl)
    have and := resultI_of (i := .andImm h u imm d a) (fun _ => rfl)
    have or := resultI_of (i := .orImm h u imm d a) (fun _ => rfl)
    have xor := resultI_of (i := .xorImm h u imm d a) (fun _ => rfl)
    have shl := resultI_of_shiftImm (i := .shlImm h u imm d a) shl32 (fun _ => rfl)
    have shr := resultI_of_shiftImm (i := .shrImm h u imm d a) shr32 (fun _ => rfl)
    have sar := resultI_of_shiftImm (i := .sarImm h u imm d a) sar32 (fun _ => rfl)
    have rotl := resultI_of_shiftImm (i := .rotlImm h u imm d a) rotl32 (fun _ => rfl)
    have add64 := resultI_of (i := .add64Imm h u imm d a) (fun _ => rfl)
    exact ⟨movi, iadd, isub, imul, imin, imax, sadd, and, or, xor, shl, shr, sar, rotl, add64⟩

end Sys2Proof.Machine
end

section
/-! PROOFS. Exact floating operations, elementary functions, conversions (R75, R76, R100-R107; O4, O5). -/

namespace Sys2Proof.Machine

/-- An instruction that issues a rounded function of one register leaves its result, element by element (R75, R76). -/
theorem resultFV_of_fp1 {i : Instr} {t : FType} {rm : Rnd} {r : RndSrc} {d a : BitVec 8} (f : FVal → FVal × Flags)
    (hx : ∀ s, exec i s = issue i s (fun c => c.fp1 t rm r d a f)) :
    ResultFV i d t.words (fun x => x.labV a t.words ||| x.labRnd rm r)
      (fun x l => x.fpOp t rm r l [x.fraw t l a] (fun1 f)) :=
  resultFV_of hx

/-- Settles O4: the elementary functions issue `Cx.fp1` with the function named, the others the floating skeleton itself;
each leaves what `resultFV_of` says of that skeleton. -/
theorem floatExactAndFunctionResults : Obligations.FloatExactAndFunctionResults := by
  unfold Obligations.FloatExactAndFunctionResults
  refine ⟨fun h t imm d a b => ?_, fun h t rm r d a b c => ?_⟩
  · have fmin := resultFV_of (i := .fmin h t d a b) (fun _ => rfl)
    have fmax := resultFV_of (i := .fmax h t d a b) (fun _ => rfl)
    have fminImm := resultFV_of (i := .fminImm h imm d a) (fun _ => rfl)
    have fmaxImm := resultFV_of (i := .fmaxImm h imm d a) (fun _ => rfl)
    have fabs := resultFV_of (i := .fabs h t d a) (fun _ => rfl)
    have fneg := resultFV_of (i := .fneg h t d a) (fun _ => rfl)
    have fclass := resultFV_of (i := .fclass h t d a) (fun _ => rfl)
    exact ⟨fmin, fmax, fminImm, fmaxImm, fabs, fneg, fclass⟩
  · have frcp := resultFV_of_fp1 (i := .frcp h t rm r d a) recipOp (fun _ => rfl)
    have fsqrt := resultFV_of_fp1 (i := .fsqrt h t rm r d a) sqrtOp (fun _ => rfl)
    have frsq := resultFV_of_fp1 (i := .frsq h t rm r d a) rsqrtOp (fun _ => rfl)
    have fexp2 := resultFV_of_fp1 (i := .fexp2 h t rm r d a) exp2Op (fun _ => rfl)
    have flog2 := resultFV_of_fp1 (i := .flog2 h t rm r d a) log2Op (fun _ => rfl)
    have fsin := resultFV_of_fp1 (i := .fsin h t rm r d a) sinOp (fun _ => rfl)
    have fcos := resultFV_of_fp1 (i := .fcos h t rm r d a) cosOp (fun _ => rfl)
    have fdot2 := resultFV_of (i := .fdot2 h t rm r d a b c) (fun _ => rfl)
    have fscale := resultFV_of (i := .fscale h t rm r d a b) (fun _ => rfl)
    have frint := resultFV_of (i := .frint h t rm r d a) (fun _ => rfl)
    exact ⟨frcp, fsqrt, frsq, fexp2, flog2, fsin, fcos, fdot2, fscale, frint⟩

/-- Settles O5: every conversion issues the floating skeleton, and leaves what `resultFV_of` says of it. -/
theorem conversionResults : Obligations.ConversionResults := by
  unfold Obligations.ConversionResults
  intro h t src ti rm r d a b
  have cvt := resultFV_of (i := .cvt h t src rm r d a) (fun _ => rfl)
  have cvtn := resultFV_of (i := .cvtn h ti src rm r d a) (fun _ => rfl)
  have cvtw := resultFV_of (i := .cvtw h t ti rm r d a) (fun _ => rfl)
  have scfit := resultFV_of (i := .scfit h t d a) (fun _ => rfl)
  have scapp := resultFV_of (i := .scapp h t rm r d a b) (fun _ => rfl)
  have cbdec := resultFV_of (i := .cbdec h d a) (fun _ => rfl)
  exact ⟨cvt, cvtn, cvtw, scfit, scapp, cbdec⟩

end Sys2Proof.Machine
end

section
/-! PROOFS. Comparisons, selection, predicate instructions and election (R108-R111, R175; O6). -/

namespace Sys2Proof.Machine

/-- An instruction that writes one predicate by lane. -/
theorem resultR_of_pWrite {i : Instr} {p : Nat} {lab : Cx → Label} {val : Cx → Nat → Bool}
    (hx : ∀ s, exec i s = issue i s (fun c => { s := c.s, wr := [pWrite p (c.lanesA.map (fun l => (l, val c l))) (lab c)] })) :
    ResultR i (fun x => [pWrite p (x.lanesA.map (fun l => (l, val x l))) (lab x)]) := by
  refine resultR_of _ _ hx (fun _ => rfl) (fun c x hm => ?_)
  obtain rfl := List.mem_singleton.mp hm
  exact pWrite_sound _ _ _ (c.lanes_vals_lt _)

/-- An instruction that writes a V register, pair or quad by lane. -/
theorem resultR_of_vWrites {i : Instr} {d : BitVec 8} {words : Nat} {lab : Cx → Label} {val : Cx → Nat → Nat}
    (hx : ∀ s, exec i s = issue i s (fun c => { s := c.s, wr := vWrites d words (c.lanesA.map (fun l => (l, val c l))) (lab c) })) :
    ResultR i (fun x => vWrites d words (x.lanesA.map (fun l => (l, val x l))) (lab x)) :=
  resultR_of _ _ hx (fun _ => rfl) (fun c => vWrites_sound _ _ _ _ (c.lanes_vals_lt _))

/-- An instruction that writes one predicate by lane, with flags: the predicate is set where the result is not 0. -/
theorem resultF_of_pWrite {i : Instr} {p : Nat} {lab : Cx → Label} {f : Cx → Nat → Nat × Flags}
    (hx : ∀ s, exec i s = issue i s (fun c =>
      c.fpEnd (c.lanesA.map (fun l => (l, f c l))) (fun vals => [pWrite p (vals.map (fun v => (v.1, v.2 != 0))) (lab c)]))) :
    ResultF i f (fun x vals => [pWrite p (vals.map (fun v => (v.1, v.2 != 0))) (lab x)]) := by
  refine resultF_of f _ hx (fun c vals hv x hm => ?_)
  obtain rfl := List.mem_singleton.mp hm
  refine pWrite_sound _ _ _ (fun y hy => ?_)
  obtain ⟨v, hmem, rfl⟩ := List.mem_map.mp hy
  exact hv v hmem

/-- SEL reads one of its two registers, chosen by lane (R109). -/
theorem sel_result (h : Hdr) (t : IType) (d a b : BitVec 8) (q : BitVec 3) :
    ResultR (.sel h t d a b q) (fun x => vWrites d t.words
      (x.lanesA.map (fun l => (l, if x.p l q.toNat then x.vn l a.toNat t.words else x.vn l b.toNat t.words)))
      (x.labV a t.words ||| x.labV b t.words ||| x.labP q.toNat)) := by
  have read (x : Cx) (l : Nat) := apply_ite (fun r => x.vn l r t.words) (x.p l q.toNat = true) a.toNat b.toNat
  simp only [← read]
  exact resultR_of_vWrites (fun _ => rfl)

/-- PMOV from a V register writes all seven predicates (R111). -/
theorem pmov_fromV_result (h : Hdr) (d a : BitVec 8) :
    ResultR (.pmov h .fromV d a) (fun x => (List.range 7).map (fun k =>
      pWrite k (x.lanesA.map (fun l => (l, (x.v l a.toNat).getLsbD k))) (x.labV a 1))) := by
  refine resultR_of _ _ (fun _ => rfl) (fun _ => rfl) (fun c x hm => ?_)
  obtain ⟨k, -, rfl⟩ := List.mem_map.mp hm
  exact pWrite_sound _ _ _ (c.lanes_vals_lt _)

/-- Settles O6: each instruction writes one predicate, one register, or (PMOV from V) every predicate; FCMP alone has flags. -/
theorem comparisonAndPredicateResults : Obligations.ComparisonAndPredicateResults := by
  unfold Obligations.ComparisonAndPredicateResults
  intro h k t ft tt d a b p q r o
  have icmp := resultR_of_pWrite (i := .icmp h k t p a b q) (fun _ => rfl)
  have fcmp := resultF_of_pWrite (i := .fcmp h k ft p a b q) (fun _ => rfl)
  have plog := resultR_of_pWrite (i := .plog h tt p q r o) (fun _ => rfl)
  have move := resultR_of_pWrite (i := .pmov h .move d a) (fun _ => rfl)
  have toV := resultR_of_vWrites (i := .pmov h .toV d a) (fun _ => rfl)
  have elect := resultR_of_pWrite (i := .elect h p) (fun _ => rfl)
  exact ⟨icmp, fcmp, sel_result h t d a b q, plog, move, toV, pmov_fromV_result h d a, elect⟩

end Sys2Proof.Machine
end

section
/-! PROOFS. NOP, barriers and waits (R90, R178, R184, R322, R334; O19). -/

namespace Sys2Proof.Machine

section Waits

variable {i : Instr} {s : State} {n : Now} {x : Wait}

/-- An instruction without effect: its strands alone move on. -/
theorem passes_of_issue (body : Cx → Eff) (hi : Issues i s n = true) (hx : exec i s = issue i s body)
    (hb : body (ctxOf i s n) = { s := s }) : Completes i s n s [] :=
  completes_of_finish (finishes_of_issue body hi hx hb rfl) (issues_placed hi) (issues_unspilled hi)

/-- The strands of an instruction that waits, for anything but room for records (R159), wait at the next instruction. -/
theorem parks_of_issue (body : Cx → Eff) (hi : Issues i s n = true) (hx : exec i s = issue i s body)
    (hs : Steady i s n = true) (hw : ∀ rs, x ≠ .spawn rs)
    (hb : body (ctxOf i s n) = { s := s, after := { st := .waiting x } }) : Parks i s n s (.waiting x) := by
  simp only [Steady, Bool.and_eq_true, Bool.not_eq_true'] at hs
  obtain ⟨⟨hcalm, halone⟩, hmark⟩ := hs
  have hmark : (ctxOf i s n).h.s = false := hmark
  have := moves_of_issue (n := n) body (fun u => some { nextStrand s n u with st := .waiting x }) hi hx
  rw [hb] at this
  refine this rfl (issues_placed hi) hcalm halone rfl (fun u hu => ?_) (by simp)
  obtain ⟨-, h8, hmask⟩ := (Warp.alone_spec halone).2 u hu
  refine ⟨(partsOf_plain _ _ _ _ _ _ _ _ _ _ hmask (allSlices_bit h8) (fun rs => by simp [hw rs]) (fun _ _ => rfl)).trans ?_, ?_⟩
  · rw [hmark]; rfl
  · rintro _ ⟨⟩
    exact ⟨rfl, hmask, rfl⟩

/-- An instruction that waits unless a condition holds goes on at once where it holds, and parks its strands elsewhere. -/
theorem passes_or_parks {p : Prop} [Decidable p] (body : Cx → Eff) (hi : Issues i s n = true) (hx : exec i s = issue i s body)
    (hw : ∀ rs, x ≠ .spawn rs)
    (hb : body (ctxOf i s n) = if p then { s := s } else { s := s, after := { st := .waiting x } }) :
    (p → Completes i s n s []) ∧ (¬p → Steady i s n = true → Parks i s n s (.waiting x)) :=
  ⟨fun hp => passes_of_issue body hi hx (hb.trans (if_pos hp)),
    fun hp hs => parks_of_issue body hi hx hs hw (hb.trans (if_neg hp))⟩

end Waits

/-- Settles O19: NOP passes, the barriers park, and each of the three waits passes where its condition holds and parks
elsewhere. -/
theorem waitsParkOrPass : Obligations.WaitsParkOrPass := by
  unfold Obligations.WaitsParkOrPass
  intro h pass all id count k wv ch t s n
  refine ⟨fun hi => passes_of_issue _ hi rfl rfl, fun hi hs => parks_of_issue _ hi rfl hs nofun rfl,
    fun hi hs => parks_of_issue _ hi rfl hs nofun rfl, fun hi => ?_, fun hi => ?_, fun hi => ?_⟩
  · obtain ⟨passes, parks⟩ := passes_or_parks (x := .event k.toNat) _ hi rfl nofun rfl
    exact ⟨passes, fun hset => parks (Bool.eq_false_iff.mp hset)⟩
  · obtain ⟨passes, parks⟩ := passes_or_parks (x := .chan ch.toNat _) _ hi rfl nofun rfl
    exact ⟨passes, fun hlt => parks (Nat.not_le.mpr hlt)⟩
  · obtain ⟨passes, parks⟩ := passes_or_parks (x := .matrix _) _ hi rfl nofun rfl
    exact ⟨fun hnil => passes (List.isEmpty_iff.mpr hnil), fun hids => parks (mt List.isEmpty_iff.mp hids)⟩

end Sys2Proof.Machine
end

section
/-! PROOFS. The reconvergence stack: JPUSH, JOIN and the merge at a join (R117, R118, R150, R153; O32). -/

namespace Sys2Proof.Machine

/-! ## JPUSH -/

theorem Warp.slice_onSlice_ne (w : Warp) {j k : Nat} (f : Slice → Slice) (h : j ≠ k) : (w.onSlice j f).slice k = w.slice k :=
  Cells.get_put_ne _ _ h

/-- A push onto a stack with room (R150). -/
theorem Cx.push_room {c : Cx} {s : State} {u : Nat × Nat} (t : DWord)
    (hl : ((s.warp c.n.team c.n.warp).slice u.1).recon.length < 8)
    (hs : ((s.warp c.n.team c.n.warp).slice u.1).spilled = 0) :
    c.push t s u = (s.onWarp c.n.team c.n.warp (fun v => v.onSlice u.1 (fun x =>
      { x with recon := { pc := t, mask := ((s.warp c.n.team c.n.warp).strand u.1 u.2).mask } :: x.recon })), []) := by
  unfold Cx.push
  rw [if_neg (by omega), if_pos hl]
  rfl

/-- A push beyond 40 entries (R150). -/
theorem Cx.push_full {c : Cx} {s : State} {u : Nat × Nat} (t : DWord)
    (h : 40 ≤ ((s.warp c.n.team c.n.warp).slice u.1).recon.length + ((s.warp c.n.team c.n.warp).slice u.1).spilled) :
    c.push t s u = (s, (c.unitLanes u).map (fun l => (l, .trap { lane := l, cause := .illegalField } false))) :=
  if_pos h

/-- The pushes of one JPUSH, slice by slice: the state, and the ends of the lanes for which nothing is pushed. -/
def Cx.pushes (c : Cx) (t : DWord) (acc : State × List (Nat × LaneEnd)) (us : List (Nat × Nat)) : State × List (Nat × LaneEnd) :=
  us.foldl (fun acc u => ((c.push t acc.1 u).1, acc.2 ++ (c.push t acc.1 u).2)) acc

/-- Pushes onto the stacks of distinct slices with room: each sees its slice as it stood before them all. -/
theorem Cx.pushes_room {c : Cx} {w : Warp} (t : DWord) {us : List (Nat × Nat)} (hd : (us.map (·.1)).Nodup) (s : State)
    (hw : ∀ u ∈ us, (s.warp c.n.team c.n.warp).slice u.1 = w.slice u.1)
    (h : ∀ u ∈ us, (w.slice u.1).recon.length < 8 ∧ (w.slice u.1).spilled = 0) :
    c.pushes t (s, []) us =
      (us.foldl (fun (s : State) u => s.onWarp c.n.team c.n.warp (fun v => v.onSlice u.1 (fun x =>
        { x with recon := { pc := t, mask := (w.strand u.1 u.2).mask } :: x.recon }))) s, []) := by
  induction us generalizing s with
  | nil => rfl
  | cons u us ih =>
    obtain ⟨hu, hd⟩ := List.nodup_cons.mp hd
    obtain ⟨hl, hs⟩ := h u List.mem_cons_self
    have hx := hw u List.mem_cons_self
    have hm : (s.warp c.n.team c.n.warp).strand u.1 u.2 = w.strand u.1 u.2 := congrArg (Slice.strand · u.2) hx
    simp only [Cx.pushes, List.foldl_cons, Cx.push_room t (hx ▸ hl) (hx ▸ hs), hm]
    refine ih hd _ (fun v hv => ?_) (fun v hv => h v (List.mem_cons_of_mem _ hv))
    have hne : u.1 ≠ v.1 := fun e => hu (List.mem_map.mpr ⟨v, hv, e.symm⟩)
    rw [State.warp_onWarp, Warp.slice_onSlice_ne _ _ hne]
    exact hw v (List.mem_cons_of_mem _ hv)

/-- Pushes onto full stacks change nothing, and every lane of their strands traps. -/
theorem Cx.pushes_full {c : Cx} {s : State} (t : DWord) {us : List (Nat × Nat)} (ends : List (Nat × LaneEnd))
    (h : ∀ u ∈ us, 40 ≤ ((s.warp c.n.team c.n.warp).slice u.1).recon.length + ((s.warp c.n.team c.n.warp).slice u.1).spilled) :
    c.pushes t (s, ends) us =
      (s, ends ++ us.flatMap (fun u => (c.unitLanes u).map (fun l =>
        (l, .trap { lane := l, cause := .illegalField } false)))) := by
  induction us generalizing ends with
  | nil => simp [Cx.pushes]
  | cons u us ih =>
    simp only [Cx.pushes, List.foldl_cons, Cx.push_full t (h u List.mem_cons_self)]
    rw [List.flatMap_cons, ← List.append_assoc]
    exact ih _ (fun v hv => h v (List.mem_cons_of_mem _ hv))

theorem Cx.drainFirst_none {c : Cx} {s : State} {e : Eff} (h : s.scPending c.n.team c.n.warp c.lanes = []) :
    c.drainFirst s e = e := by
  simp [Cx.drainFirst, h]

theorem branchEnd_goto {l : Nat} {t : DWord} {lab : Label} (h8 : t.toNat % 8 = 0) (h60 : field t 63 60 = 0) :
    branchEnd l t lab = .goto t := by
  simp [branchEnd, h8, h60]

/-- JPUSH with an aligned target pushes, after its lanes' SC accesses when a stack would spill (R150-R152, R239). -/
theorem finishes_jpush {h : Hdr} {ofs : BitVec 32} {s s' : State} {n : Now} {ends : List (Nat × LaneEnd)}
    (hi : Issues (.jpush h ofs) s n = true)
    (h8 : (n.pc + ofs.signExtend 64).toNat % 8 = 0) (h60 : field (n.pc + ofs.signExtend 64) 63 60 = 0)
    (hq : (∀ u ∈ n.units, ((s.warp n.team n.warp).slice u.1).recon.length ≠ 8) ∨
      s.scPending n.team n.warp (ctxOf (.jpush h ofs) s n).lanes = [])
    (hp : (ctxOf (.jpush h ofs) s n).pushes (n.pc + ofs.signExtend 64) (s, []) n.units = (s', ends)) :
    Finishes (.jpush h ofs) s n { s := s', ends } := by
  have undrained (e : Eff) :
      (if n.units.any (fun u => decide (((s.warp n.team n.warp).slice u.1).recon.length = 8)) then
        (ctxOf (.jpush h ofs) s n).drainFirst s e else e) = e := by
    rcases hq with hne | hsc
    · exact if_neg (by simpa using hne)
    · rw [Cx.drainFirst_none hsc, ite_self]
  refine finishes_of_issue _ hi rfl (Eq.trans ?_ (congrArg (fun r => ({ s := r.1, ends := r.2 } : Eff)) hp)) rfl
  show (match branchEnd 0 (n.pc + ofs.signExtend 64) 0 with | .goto t => _ | _ => _) = _
  rw [branchEnd_goto h8 h60]
  exact undrained _

/-! ## JOIN -/

/-- With nothing spilled, a slice parks at a JOIN exactly when a resident entry has its PC and expects the strand (R153). -/
theorem Cx.joinSearch_resident {c : Cx} (s : State) {u : Nat × Nat} (h : (c.warp.slice u.1).spilled = 0) :
    (c.joinSearch s u).2 = .ok ((c.warp.slice u.1).recon.any (fun e =>
      decide (e.pc = c.n.pc) && decide ((c.warp.strand u.1 u.2).mask &&& ~~~e.mask = 0)), false) := by
  unfold Cx.joinSearch
  simp only [h, State.spillFind, Option.isSome_none]
  split
  · next hany => exact congrArg (fun b => Except.ok (b, false)) hany.symm
  · next hany => exact congrArg (fun b => Except.ok (b, false)) (Bool.eq_false_iff.mpr hany).symm

theorem Cx.withStack_resident {c : Cx} (h : c.spilled = false) (e : Eff)
    (find : State → Nat × Nat → State × Except FaultInfo Bool) (leave : Nat × Nat → Warp → Warp) :
    c.withStack e find leave = e := by
  simp [Cx.withStack, h]

theorem join_parks {h : Hdr} {s : State} {n : Now} (hi : Issues (.join h) s n = true)
    (hs : ∀ u ∈ n.units, ((s.warp n.team n.warp).slice u.1).spilled = 0) :
    Finishes (.join h) s n
      { s := s, after := {
          slices := n.units.foldl (fun m u =>
            if ((s.warp n.team n.warp).slice u.1).recon.any (fun e =>
              decide (e.pc = n.pc) && decide (((s.warp n.team n.warp).strand u.1 u.2).mask &&& ~~~e.mask = 0))
            then m ||| (1#8 <<< u.1) else m) 0,
          st := .atJoin, keep := true } } := by
  have hc : (ctxOf (.join h) s n).spilled = false := List.any_eq_false.mpr (fun u hu => by
    have : ((ctxOf (.join h) s n).warp.slice u.1).spilled = 0 := hs u hu
    simp [this])
  refine finishes_of_issue _ hi rfl ((Cx.withStack_resident hc _ _ _).trans ?_) rfl
  congr 2
  refine List.foldl_rel (r := Eq) rfl (fun u hu m _ hm => ?_)
  subst hm
  exact congrArg (fun r : Except FaultInfo (Bool × Bool) =>
    if (match r with | .ok r => r.1 | .error _ => false) = true then m ||| (1#8 <<< u.1) else m)
    (Cx.joinSearch_resident _ (hs u hu))

/-! ## The merge at a join -/

/-- The strand that `Slice.merge` keeps is one of those merged, with the lowest lane (R118). -/
theorem lowest_spec (rest : List (Nat × Strand)) (e : Nat × Strand) :
    rest.foldl (fun (b : Nat × Strand) y => if lowest4 y.2.mask < lowest4 b.2.mask then y else b) e ∈ e :: rest ∧
    ∀ z ∈ e :: rest, lowest4 (rest.foldl (fun (b : Nat × Strand) y =>
      if lowest4 y.2.mask < lowest4 b.2.mask then y else b) e).2.mask ≤ lowest4 z.2.mask := by
  induction rest generalizing e with
  | nil => simp
  | cons y rest ih =>
    rw [List.foldl_cons]
    split
    · next hlt =>
      obtain ⟨hmem, hmin⟩ := ih y
      have := hmin y List.mem_cons_self
      exact ⟨List.mem_cons_of_mem _ hmem, List.forall_mem_cons.mpr ⟨by omega, hmin⟩⟩
    · next hge =>
      obtain ⟨hmem, hmin⟩ := ih e
      obtain ⟨he, hrest⟩ := List.forall_mem_cons.mp hmin
      refine ⟨?_, List.forall_mem_cons.mpr ⟨he, List.forall_mem_cons.mpr ⟨by omega, hrest⟩⟩⟩
      exact (List.sublist_cons_self y rest).cons_cons e |>.subset hmem

theorem Cells.key_ne_of_mem_erase {α : Type} {m : Cells α} {k : Nat} {c : Nat × α} (h : c ∈ Cells.erase m k) : c.1 ≠ k := by
  induction m with
  | nil => exact absurd h List.not_mem_nil
  | cons d rest ih =>
    obtain ⟨a, v⟩ := d
    simp only [Cells.erase] at h
    split at h
    · exact ih h
    · next hk => exact (List.mem_cons.mp h).elim (fun e => e ▸ hk) ih

/-- A table from which each of its own keys is erased is empty. -/
theorem Cells.erase_all {α : Type} (m : Cells α) : m.foldl (fun t y => Cells.erase t y.1) m = [] := by
  have mem (es t : Cells α) (c : Nat × α) (h : c ∈ es.foldl (fun t y => Cells.erase t y.1) t) :
      c ∈ t ∧ ∀ y ∈ es, c.1 ≠ y.1 := by
    induction es generalizing t with
    | nil => exact ⟨h, by simp⟩
    | cons e es ih =>
      obtain ⟨ht, hes⟩ := ih _ h
      exact ⟨Cells.mem_of_mem_erase ht, List.forall_mem_cons.mpr ⟨Cells.key_ne_of_mem_erase ht, hes⟩⟩
  refine List.eq_nil_iff_forall_not_mem.mpr (fun c hc => ?_)
  obtain ⟨hm, hne⟩ := mem m m c hc
  exact hne c hm rfl

/-- The merge of all strands of a slice: the entry and loop of the strand with the lowest lane, and the lanes of all (R118). -/
theorem Slice.merge_strands {x : Slice} (h : x.strands ≠ []) (f : Strand → Strand) :
    ∃ k y last, (k, y) ∈ x.strands ∧ (∀ z ∈ x.strands, lowest4 y.mask ≤ lowest4 z.2.mask) ∧
      (x.merge x.strands f).strands =
        [(k, f { y with mask := x.strands.foldl (fun m y => m ||| y.2.mask) 0, mark := x.strands.any (fun y => y.2.mark), last })] := by
  obtain ⟨e, rest, hx⟩ := List.exists_cons_of_ne_nil h
  obtain ⟨hmem, hmin⟩ := lowest_spec rest e
  refine ⟨_, _, x.strands.foldl (fun m y => max m y.2.last) 0, hx ▸ hmem, hx ▸ hmin, ?_⟩
  have gone := Cells.erase_all x.strands
  rw [hx] at gone ⊢
  simp only [Slice.merge, hx, gone, Cells.put]

/-- All strands of a slice that stand at its entry's JOIN have arrived there (R153). -/
theorem Slice.arrived_all {x : Slice} {e : Recon}
    (h : ∀ y ∈ x.strands, y.2.st = .atJoin ∧ y.2.pc = e.pc ∧ y.2.mask &&& ~~~e.mask = 0) : x.arrived [] e = x.strands :=
  List.filter_eq_self.mpr (fun y hy => by
    obtain ⟨hst, hpc, hmask⟩ := h y hy
    simp [hst, hpc, hmask])

/-- A slice whose one entry is satisfied drops it and merges the strands that have arrived. -/
theorem Slice.settleJoins_satisfied {x : Slice} {e : Recon} {exited : BitVec 4} (hr : x.recon = [e])
    (h : x.satisfied [] exited e = true) :
    x.settleJoins exited = ({ x with recon := [] } : Slice).merge (x.arrived [] e) Strand.passed := by
  show (List.range x.recon.length).foldl _ x = _
  simp [hr, List.range_succ, Slice.settleOnce, Slice.firstSatisfied, h]

theorem Slice.merge_recon (x : Slice) (es : List (Nat × Strand)) (f : Strand → Strand) : (x.merge es f).recon = x.recon := by
  cases es <;> rfl

/-- The merge at a join (R117, R118, R153). -/
theorem Slice.settleJoins_merges {x : Slice} {e : Recon} {exited : BitVec 4} (hr : x.recon = [e]) (hne : x.strands ≠ [])
    (h : ∀ y ∈ x.strands, y.2.st = .atJoin ∧ y.2.pc = e.pc ∧ y.2.mask &&& ~~~e.mask = 0)
    (hall : e.mask &&& ~~~(x.strands.foldl (fun m y => m ||| y.2.mask) exited) = 0) :
    (x.settleJoins exited).recon = [] ∧ ∃ k y last, (k, y) ∈ x.strands ∧
      (∀ z ∈ x.strands, lowest4 y.mask ≤ lowest4 z.2.mask) ∧
      (x.settleJoins exited).strands = [(k, Strand.passed { y with
        mask := x.strands.foldl (fun m y => m ||| y.2.mask) 0, mark := x.strands.any (fun y => y.2.mark), last })] := by
  have harr := Slice.arrived_all h
  have hsat : x.satisfied [] exited e = true := by
    unfold Slice.satisfied
    rw [harr, hall]
    rfl
  rw [Slice.settleJoins_satisfied hr hsat, harr]
  exact ⟨Slice.merge_recon _ _ _, Slice.merge_strands (x := { x with recon := [] }) hne _⟩

/-- Settles O32: the pushes of `Cx.pushes`, the search of the resident entries, and the merge of every strand of a slice. -/
theorem reconvergencePushesAndMerges : Obligations.ReconvergencePushesAndMerges := by
  unfold Obligations.ReconvergencePushesAndMerges
  refine ⟨fun h ofs s n hi h8 h60 hd => ⟨fun hr => ?_, fun hsc hr => ?_⟩, fun h s n hi hs => join_parks hi hs,
    fun x e exited hr _ hne h hall => ?_⟩
  · exact finishes_jpush hi h8 h60 (.inl (fun u hu => Nat.ne_of_lt (hr u hu).1))
      (Cx.pushes_room (c := ctxOf (.jpush h ofs) s n) _ hd s (fun _ _ => rfl) hr)
  · exact finishes_jpush hi h8 h60 (.inr hsc) (Cx.pushes_full (c := ctxOf (.jpush h ofs) s n) _ [] hr)
  · have unmarked : x.strands.any (fun y => y.2.mark) = false := List.any_eq_false.mpr (fun y hy => by
      obtain ⟨-, -, -, hmark⟩ := h y hy
      simp [hmark])
    obtain ⟨hempty, k, y, last, hy, hlow, hstr⟩ := Slice.settleJoins_merges hr hne
      (fun y hy => let ⟨hst, hpc, hmask, _⟩ := h y hy; ⟨hst, hpc, hmask⟩) hall
    obtain ⟨-, hpc, -⟩ : _ ∧ y.pc = e.pc ∧ _ := h _ hy
    rw [unmarked] at hstr
    refine ⟨hempty, k, _, y, hstr, hy, hlow, rfl, rfl, fun hdead => ?_, rfl, rfl⟩
    simp [Strand.passed, Strand.seqNext, hdead, hpc]

end Sys2Proof.Machine
end

section
/-! PROOFS. The parts of a strand whose lanes end differently (R148; O12): one for each way in which a lane that has not exited
ends, except that the lanes that go on join those that branch to the place where they go on. -/

namespace Sys2Proof.Machine

/-! ## The part of an end -/

/-- The ends of lanes that share a part with a lane that ends in one way. -/
def alikeEnds : Option LaneEnd → Option LaneEnd → Bool
  | some (.trap _ _) => fun e => match e with | some (.trap _ _) => true | _ => false
  | some (.fault _) => fun e => match e with | some (.fault _) => true | _ => false
  | o => fun e => e == o

theorem alikeEnds_refl (e : Option LaneEnd) : alikeEnds e e = true := by
  rcases e with _ | _ | _ | _ | _ | _ <;> simp [alikeEnds]

theorem alikeEnds_none {o : Option LaneEnd} : alikeEnds none o = true ↔ o = none := beq_iff_eq

theorem alikeEnds_goto {t : DWord} {o : Option LaneEnd} : alikeEnds (some (.goto t)) o = true ↔ o = some (.goto t) := beq_iff_eq

theorem alikeEnds_resume {t : DWord} {o : Option LaneEnd} : alikeEnds (some (.resume t)) o = true ↔ o = some (.resume t) :=
  beq_iff_eq

/-- A lane is picked exactly when it is in the mask and its end satisfies the predicate. -/
theorem pick_true {k : Nat} {m : BitVec 4} {ends : List (Nat × LaneEnd)} {f : Option LaneEnd → Bool} {j : Nat} :
    (pickLanes k m ends f).getLsbD j = true ↔ m.getLsbD j = true ∧ f (endOf ends (4 * k + j)) = true := by
  rw [pick_bit, Bool.and_eq_true, Bool.and_eq_true, decide_eq_true_eq, and_assoc]
  exact and_iff_right_of_imp (fun h => BitVec.lt_of_getLsbD h.1)

/-- What `partsOf` splits: a strand of a slice, and how its lanes end. -/
structure Split where
  slice : Nat
  strand : Strand
  hdr : Hdr
  wide : Bool
  ends : List (Nat × LaneEnd)
  tick : Nat
  now : Now
  busy : BitVec 4 → Bool

namespace Split

variable (d : Split)

/-- The lanes that have not exited. -/
def rest : BitVec 4 := d.strand.mask &&& ~~~(pickLanes d.slice d.strand.mask d.ends (fun e => e == some .exit))

/-- How a lane of the slice ends, if not plainly. -/
def ended (j : Nat) : Option LaneEnd := endOf d.ends (4 * d.slice + j)

/-- The lanes left that end alike. -/
def lanesLike (e : Option LaneEnd) : BitVec 4 := pickLanes d.slice d.rest d.ends (alikeEnds e)

/-- The state of lanes that go on: a marker holds them while results of theirs are out (R23). -/
def goesOn (m : BitVec 4) : StrandSt := if d.hdr.s && d.busy m then .held .marker else .ready

/-- The strand after its issue, with the lanes of an end. -/
def issued (e : Option LaneEnd) : Strand :=
  { d.strand with last := d.tick, run := d.strand.run + 1, mark := d.hdr.s, mask := d.lanesLike e }

/-- The lanes of an end, apart from all others. -/
def own : Option LaneEnd → Strand
  | none =>
    { d.issued none with
      pc := d.strand.seqNext.1, loop := d.strand.seqNext.2.1, buf := d.strand.seqNext.2.2, st := d.goesOn (d.lanesLike none) }
  | some (.goto t) => { d.issued (some (.goto t)) with pc := t, st := d.goesOn (d.lanesLike (some (.goto t))) }
  | some (.resume t) =>
    { d.issued (some (.resume t)) with
      pc := t, st := d.goesOn (d.lanesLike (some (.resume t))), trap := false, loop := d.strand.saved, buf := d.strand.savedBuf,
      saved := {}, savedBuf := [] }
  | some (.trap t a) => { d.issued (some (.trap t a)) with st := .held .trap }
  | some (.fault f) =>
    { d.issued (some (.fault f)) with
      st := .onFault (parkOf d.slice (d.lanesLike (some (.fault f))) d.ends d.wide d.now) }
  | some .exit => d.issued (some .exit)

/-- The branch to the place where the strand goes on. -/
def onward : Option LaneEnd := some (.goto d.strand.seqNext.1)

/-- Do lanes that go on meet lanes that branch there, with the same loop? -/
def rejoins : Bool :=
  decide (d.lanesLike none ≠ 0 ∧ d.lanesLike d.onward ≠ 0 ∧ d.strand.loop = d.strand.seqNext.2.1)

/-- The part of both. -/
def merged : Strand := { d.own d.onward with mask := d.lanesLike d.onward ||| d.lanesLike none }

/-- The part in which a lane that ends in one way stands. -/
def part (e : Option LaneEnd) : Strand :=
  if d.rejoins = true ∧ (e = none ∨ e = d.onward) then d.merged else d.own e

variable {d}

theorem rest_bit {j : Nat} : d.rest.getLsbD j = true ↔ d.strand.mask.getLsbD j = true ∧ d.ended j ≠ some .exit := by
  simp only [rest, ended, BitVec.getLsbD_and, BitVec.getLsbD_not, Bool.and_eq_true, Bool.not_eq_true', pick_true,
    ← Bool.not_eq_true, decide_eq_true_eq, beq_iff_eq]
  constructor
  · exact fun ⟨hm, _, hx⟩ => ⟨hm, fun h => hx ⟨hm, h⟩⟩
  · exact fun ⟨hm, hx⟩ => ⟨hm, BitVec.lt_of_getLsbD hm, fun h => hx h.2⟩

theorem lanesLike_bit {e : Option LaneEnd} {j : Nat} :
    (d.lanesLike e).getLsbD j = true ↔ d.rest.getLsbD j = true ∧ alikeEnds e (d.ended j) = true := pick_true

theorem lanesLike_ne_zero {e : Option LaneEnd} :
    d.lanesLike e ≠ 0 ↔ ∃ j, d.rest.getLsbD j = true ∧ alikeEnds e (d.ended j) = true := by
  constructor
  · exact fun h => ⟨_, lanesLike_bit.mp (lowest4_bit _ h)⟩
  · rintro ⟨j, hj⟩ h0
    have := lanesLike_bit.mpr hj
    rw [h0] at this
    simp at this

theorem own_mask (e : Option LaneEnd) : (d.own e).mask = d.lanesLike e := by
  rcases e with _ | _ | _ | _ | _ | _ <;> rfl

theorem part_onward (h : d.rejoins = true) : d.part d.onward = d.merged := if_pos ⟨h, .inr rfl⟩

theorem part_none (h : d.rejoins = true) : d.part none = d.merged := if_pos ⟨h, .inl rfl⟩

/-- Lanes that end alike stand in one part. -/
theorem part_of_alike {e o : Option LaneEnd} (h : alikeEnds e o = true) : d.part o = d.part e := by
  match e, o, h with
  | some (.trap _ _), some (.trap _ _), _ => simp [part, onward, own, issued, lanesLike, alikeEnds]
  | some (.fault _), some (.fault _), _ => simp [part, onward, own, issued, lanesLike, alikeEnds]
  | none, o, h => rw [alikeEnds_none.mp h]
  | some .exit, o, h => rw [beq_iff_eq.mp h]
  | some (.goto _), o, h => rw [alikeEnds_goto.mp h]
  | some (.resume _), o, h => rw [alikeEnds_resume.mp h]

/-- The lanes of a part are lanes left, and it is the part in which each of them stands. -/
theorem part_lane {e : Option LaneEnd} {j : Nat} (h : (d.part e).mask.getLsbD j = true) :
    d.rest.getLsbD j = true ∧ d.part (d.ended j) = d.part e := by
  have of_like {o : Option LaneEnd} (ho : d.part o = d.part e) (h : (d.lanesLike o).getLsbD j = true) :
      d.rest.getLsbD j = true ∧ d.part (d.ended j) = d.part e := by
    obtain ⟨hr, ha⟩ := lanesLike_bit.mp h
    exact ⟨hr, (part_of_alike ha).trans ho⟩
  by_cases hc : d.rejoins = true ∧ (e = none ∨ e = d.onward)
  · have he : d.part e = d.merged := if_pos hc
    rw [he] at h
    simp only [merged, BitVec.getLsbD_or, Bool.or_eq_true] at h
    rcases h with h | h
    · exact of_like ((part_onward hc.1).trans he.symm) h
    · exact of_like ((part_none hc.1).trans he.symm) h
  · rw [show d.part e = d.own e from if_neg hc, own_mask] at h
    exact of_like rfl h

/-- A lane left is in its part. -/
theorem part_self {j : Nat} (h : d.rest.getLsbD j = true) : (d.part (d.ended j)).mask.getLsbD j = true := by
  have hl : (d.lanesLike (d.ended j)).getLsbD j = true := lanesLike_bit.mpr ⟨h, alikeEnds_refl _⟩
  unfold part
  split
  · next hc =>
    simp only [merged, BitVec.getLsbD_or, Bool.or_eq_true]
    rcases hc.2 with he | he
    · exact .inr (he ▸ hl)
    · exact .inl (he ▸ hl)
  · exact (own_mask _).symm ▸ hl

/-! ## The parts that the machine makes -/

/-- One strand for each target among the ends that `sel` selects, made at the lowest of its lanes. -/
def targets (d : Split) (sel : Option LaneEnd → Option DWord) (c : DWord → LaneEnd) : List Strand :=
  (List.range 4).filterMap (fun j => (sel (if d.rest.getLsbD j = true then d.ended j else none)).bind (fun t =>
    if lowest4 (d.lanesLike (some (c t))) = j then some (d.own (some (c t))) else none))

theorem mem_targets {sel : Option LaneEnd → Option DWord} {c : DWord → LaneEnd} {p : Strand}
    (hsel : ∀ o t, sel o = some t ↔ o = some (c t)) (hc : ∀ {t o}, alikeEnds (some (c t)) o = true ↔ o = some (c t)) :
    p ∈ d.targets sel c ↔ ∃ j t, d.rest.getLsbD j = true ∧ d.ended j = some (c t) ∧ p = d.own (some (c t)) := by
  simp only [targets, List.mem_filterMap, Option.bind_eq_some_iff, hsel, List.mem_range, Option.ite_none_right_eq_some,
    Option.some.injEq]
  constructor
  · rintro ⟨j, -, t, ⟨hr, he⟩, -, rfl⟩
    exact ⟨j, t, hr, he, rfl⟩
  · rintro ⟨j, t, hr, he, rfl⟩
    have hne : d.lanesLike (some (c t)) ≠ 0 := lanesLike_ne_zero.mpr ⟨j, hr, hc.mpr he⟩
    obtain ⟨hr, ha⟩ := lanesLike_bit.mp (lowest4_bit _ hne)
    exact ⟨_, BitVec.lt_of_getLsbD hr, t, ⟨hr, hc.mp ha⟩, rfl, rfl⟩

def gotoOf : Option LaneEnd → Option DWord
  | some (.goto t) => some t
  | _ => none

def resumeOf : Option LaneEnd → Option DWord
  | some (.resume t) => some t
  | _ => none

theorem gotoOf_eq_some (o : Option LaneEnd) (t : DWord) : gotoOf o = some t ↔ o = some (.goto t) := by
  rcases o with _ | _ | _ | _ | _ | _ <;> simp [gotoOf]

theorem resumeOf_eq_some (o : Option LaneEnd) (t : DWord) : resumeOf o = some t ↔ o = some (.resume t) := by
  rcases o with _ | _ | _ | _ | _ | _ <;> simp [resumeOf]

/-- The lanes of an end, if there are any. -/
def ownList (d : Split) (e : Option LaneEnd) : List Strand := if d.lanesLike e = 0 then [] else [d.own e]

theorem mem_ownList {e : Option LaneEnd} {p : Strand} :
    p ∈ d.ownList e ↔ ∃ j, d.rest.getLsbD j = true ∧ alikeEnds e (d.ended j) = true ∧ p = d.own e := by
  simp only [← and_assoc, exists_and_right, ← lanesLike_ne_zero]
  unfold ownList
  split <;> simp_all

/-- Lanes that go on join a strand that branches to the same place in the same loop. -/
def rejoined (seq gone : List Strand) : List Strand :=
  match seq with
  | [] => gone
  | q :: _ =>
    if gone.any (fun g => g.pc = q.pc && g.loop = q.loop) then
      gone.map (fun g => if g.pc = q.pc && g.loop = q.loop then { g with mask := g.mask ||| q.mask } else g)
    else q :: gone

/-- The strands that branch, and the lanes that go on. -/
def moved (d : Split) : List Strand := rejoined (d.ownList none) (d.targets gotoOf .goto)

/-- The machine's parts, unless every active lane faults (R148). -/
theorem partsOf_eq {act : BitVec 4} (hk : d.slice < 8)
    (hf : d.lanesLike (some (.fault default)) = 0 ∨ d.lanesLike (some (.fault default)) ≠ act) :
    partsOf d.slice d.strand act d.hdr d.wide {} d.ends d.tick d.now d.busy =
      d.moved ++ d.targets resumeOf .resume ++ d.ownList (some (.trap default false)) ++ d.ownList (some (.fault default)) := by
  have hgone : d.targets gotoOf .goto = (List.range 4).filterMap (fun j =>
      match (if d.rest.getLsbD j then d.ended j else none) with
      | some (.goto t) => if lowest4 (d.lanesLike (some (.goto t))) = j then some (d.own (some (.goto t))) else none
      | _ => none) := by
    refine congrArg (List.filterMap · _) (funext fun j => ?_)
    generalize (if d.rest.getLsbD j = true then d.ended j else none) = o
    rcases o with _ | _ | _ | _ | _ | _ <;> rfl
  have hback : d.targets resumeOf .resume = (List.range 4).filterMap (fun j =>
      match (if d.rest.getLsbD j then d.ended j else none) with
      | some (.resume t) => if lowest4 (d.lanesLike (some (.resume t))) = j then some (d.own (some (.resume t))) else none
      | _ => none) := by
    refine congrArg (List.filterMap · _) (funext fun j => ?_)
    generalize (if d.rest.getLsbD j = true then d.ended j else none) = o
    rcases o with _ | _ | _ | _ | _ | _ <;> rfl
  unfold moved
  rw [hgone, hback]
  unfold partsOf
  simp only [allSlices_bit hk, if_true]
  exact if_neg (fun h => hf.elim h.1 (fun g => g h.2))

theorem part_resume (t : DWord) : d.part (some (.resume t)) = d.own (some (.resume t)) := if_neg (by simp [onward])

theorem part_trap (t : LaneTrap) (a : Bool) : d.part (some (.trap t a)) = d.own (some (.trap t a)) := if_neg (by simp [onward])

theorem part_fault (f : FaultInfo) : d.part (some (.fault f)) = d.own (some (.fault f)) := if_neg (by simp [onward])

/-- The part of a branch, when the lanes that go on join those that branch to where they go. -/
theorem part_goto (h : d.rejoins = true) (t : DWord) :
    d.part (some (.goto t)) =
      (let g := d.own (some (.goto t))
       let q := d.own none
       if g.pc = q.pc && g.loop = q.loop then { g with mask := g.mask ||| q.mask } else g) := by
  obtain ⟨-, -, hloop⟩ := of_decide_eq_true h
  have hl : (d.own (some (.goto t))).loop = (d.own none).loop := hloop
  by_cases ht : t = d.strand.seqNext.1
  · subst ht
    exact (part_onward h).trans (if_pos (by rw [hl]; simp [own])).symm
  · have hp : (d.own (some (.goto t))).pc ≠ (d.own none).pc := ht
    exact (if_neg (by simp [onward, ht])).trans (if_neg (by simp [hp])).symm

/-- The test by which the machine joins the lanes that go on, when there are any, to a strand that branches. -/
theorem any_onward (hne : d.lanesLike none ≠ 0) :
    (d.targets gotoOf .goto).any (fun g => g.pc = (d.own none).pc && g.loop = (d.own none).loop) = d.rejoins := by
  rw [Bool.eq_iff_iff, List.any_eq_true, rejoins, decide_eq_true_eq, lanesLike_ne_zero (e := d.onward)]
  simp only [mem_targets gotoOf_eq_some alikeEnds_goto, Bool.and_eq_true, decide_eq_true_eq]
  constructor
  · rintro ⟨_, ⟨j, t, hr, he, rfl⟩, hp, hl⟩
    have ht : t = d.strand.seqNext.1 := hp
    exact ⟨hne, ⟨j, hr, alikeEnds_goto.mpr (ht ▸ he)⟩, hl⟩
  · rintro ⟨-, ⟨j, hr, ha⟩, hl⟩
    exact ⟨d.own d.onward, ⟨j, _, hr, alikeEnds_goto.mp ha, rfl⟩, rfl, hl⟩

theorem moved_apart (h : d.rejoins = false) : d.moved = d.ownList none ++ d.targets gotoOf .goto := by
  by_cases hne : d.lanesLike none = 0
  · simp only [moved, ownList, if_pos hne, rejoined, List.nil_append]
  · simp only [moved, ownList, if_neg hne, rejoined, any_onward hne, h, Bool.false_eq_true, if_false, List.singleton_append]

theorem moved_joined (h : d.rejoins = true) : d.moved = (d.targets gotoOf .goto).map (fun g =>
    if g.pc = (d.own none).pc && g.loop = (d.own none).loop then { g with mask := g.mask ||| (d.own none).mask } else g) := by
  have hne : d.lanesLike none ≠ 0 := (of_decide_eq_true h).1
  simp only [moved, ownList, if_neg hne, rejoined, any_onward hne, h, if_true]

/-- The lanes that go on and those that branch stand in their parts, joined or not. -/
theorem mem_moved {p : Strand} :
    p ∈ d.moved ↔ ∃ j, d.rest.getLsbD j = true ∧ (d.ended j = none ∨ ∃ t, d.ended j = some (.goto t)) ∧ p = d.part (d.ended j) := by
  have hgone (p : Strand) := mem_targets (d := d) (p := p) gotoOf_eq_some alikeEnds_goto
  cases h : d.rejoins with
  | false =>
    have hpart (e : Option LaneEnd) : d.part e = d.own e := if_neg (fun hc => Bool.false_ne_true (h ▸ hc.1))
    simp only [moved_apart h, List.mem_append, mem_ownList, alikeEnds_none, hgone, hpart]
    constructor
    · rintro (⟨j, hr, he, rfl⟩ | ⟨j, t, hr, he, rfl⟩)
      · exact ⟨j, hr, .inl he, by rw [he]⟩
      · exact ⟨j, hr, .inr ⟨t, he⟩, by rw [he]⟩
    · rintro ⟨j, hr, he | ⟨t, he⟩, rfl⟩
      · exact .inl ⟨j, hr, he, by rw [he]⟩
      · exact .inr ⟨j, t, hr, he, by rw [he]⟩
  | true =>
    obtain ⟨o, ho, ha⟩ := lanesLike_ne_zero.mp (of_decide_eq_true h).2.1
    have ha : d.ended o = d.onward := alikeEnds_goto.mp ha
    simp only [moved_joined h, List.mem_map, hgone]
    constructor
    · rintro ⟨_, ⟨j, t, hr, he, rfl⟩, rfl⟩
      exact ⟨j, hr, .inr ⟨t, he⟩, by rw [he]; exact (part_goto h t).symm⟩
    · rintro ⟨j, hr, he | ⟨t, he⟩, rfl⟩
      · refine ⟨_, ⟨o, _, ho, ha, rfl⟩, ?_⟩
        rw [he, part_none h, ← part_onward h]
        exact (part_goto h _).symm
      · exact ⟨_, ⟨j, t, hr, he, rfl⟩, by rw [he]; exact (part_goto h t).symm⟩

/-- The machine's parts are those in which the lanes left stand (R148). -/
theorem mem_partsOf {act : BitVec 4} {p : Strand} (hk : d.slice < 8)
    (hf : d.lanesLike (some (.fault default)) = 0 ∨ d.lanesLike (some (.fault default)) ≠ act) :
    p ∈ partsOf d.slice d.strand act d.hdr d.wide {} d.ends d.tick d.now d.busy ↔
      ∃ j, d.rest.getLsbD j = true ∧ p = d.part (d.ended j) := by
  rw [partsOf_eq hk hf, List.mem_append, List.mem_append, List.mem_append, mem_moved,
    mem_targets resumeOf_eq_some alikeEnds_resume, mem_ownList, mem_ownList]
  constructor
  · rintro (((⟨j, hr, -, rfl⟩ | ⟨j, t, hr, he, rfl⟩) | ⟨j, hr, ha, rfl⟩) | ⟨j, hr, ha, rfl⟩)
    · exact ⟨j, hr, rfl⟩
    · exact ⟨j, hr, by rw [he, part_resume]⟩
    · exact ⟨j, hr, by rw [part_of_alike ha, part_trap]⟩
    · exact ⟨j, hr, by rw [part_of_alike ha, part_fault]⟩
  · rintro ⟨j, hr, rfl⟩
    match he : d.ended j with
    | none => exact .inl (.inl (.inl ⟨j, hr, .inl he, by rw [he]⟩))
    | some (.goto t) => exact .inl (.inl (.inl ⟨j, hr, .inr ⟨t, he⟩, by rw [he]⟩))
    | some (.resume t) => exact .inl (.inl (.inr ⟨j, t, hr, he, part_resume t⟩))
    | some (.trap t a) => exact .inl (.inr ⟨j, hr, by rw [he]; rfl, part_of_alike rfl |>.trans (part_trap _ _)⟩)
    | some (.fault f) => exact .inr ⟨j, hr, by rw [he]; rfl, part_of_alike rfl |>.trans (part_fault _)⟩
    | some .exit => exact absurd he (rest_bit.mp hr).2

/-- Where a lane that goes on stands. -/
theorem part_none_at : (d.part none).pc = d.strand.seqNext.1 ∧ (d.part none).loop = d.strand.seqNext.2.1 := by
  unfold part
  split
  · next h => exact ⟨rfl, (of_decide_eq_true h.1).2.2⟩
  · exact ⟨rfl, rfl⟩

/-- Where a lane that branches stands. -/
theorem part_goto_at (t : DWord) : (d.part (some (.goto t))).pc = t ∧ (d.part (some (.goto t))).trap = d.strand.trap := by
  unfold part
  split
  · next h =>
    have ht : t = d.strand.seqNext.1 := by simpa [onward] using h.2
    exact ⟨ht.symm, rfl⟩
  · exact ⟨rfl, rfl⟩

end Split

/-- Settles O12: the parts are those of `Split.part`, and a lane of a part stands in that one alone. -/
theorem strandsSplitByLaneEnd : Obligations.StrandsSplitByLaneEnd := by
  unfold Obligations.StrandsSplitByLaneEnd
  intro k x act h wide ends tick n busy hk hf
  let d : Split := ⟨k, x, h, wide, ends, tick, n, busy⟩
  have parts (p : Strand) : p ∈ partsOf k x act h wide {} ends tick n busy ↔ ∃ j, d.rest.getLsbD j = true ∧ p = d.part (d.ended j) :=
    Split.mem_partsOf (d := d) hk hf
  refine ⟨fun j hj hm => ?_, fun p hp q hq j hj hpj hqj => ?_⟩
  · have stands (hx : d.ended j ≠ some .exit) : d.part (d.ended j) ∈ partsOf k x act h wide {} ends tick n busy ∧
        (d.part (d.ended j)).mask.getLsbD j = true := by
      have hr := Split.rest_bit.mpr ⟨hm, hx⟩
      exact ⟨(parts _).mpr ⟨j, hr, rfl⟩, Split.part_self hr⟩
    change match d.ended j with
      | some .exit => _ | some (.goto _) => _ | some (.trap _ _) => _ | some (.fault _) => _ | some (.resume _) => _ | none => _
    match he : d.ended j with
    | some .exit =>
      intro p hp
      obtain ⟨i, -, rfl⟩ := (parts p).mp hp
      exact Bool.eq_false_iff.mpr (fun h => (Split.rest_bit.mp (Split.part_lane h).1).2 he)
    | some (.goto t) =>
      obtain ⟨hp, hb⟩ := stands (by simp [he])
      exact ⟨_, hp, hb, he ▸ Split.part_goto_at t⟩
    | some (.trap t a) =>
      obtain ⟨hp, hb⟩ := stands (by simp [he])
      exact ⟨_, hp, hb, by rw [he, Split.part_trap]; exact ⟨rfl, rfl⟩⟩
    | some (.fault f) =>
      obtain ⟨hp, hb⟩ := stands (by simp [he])
      exact ⟨_, hp, hb, by rw [he, Split.part_fault]; exact ⟨rfl, rfl⟩⟩
    | some (.resume t) =>
      obtain ⟨hp, hb⟩ := stands (by simp [he])
      exact ⟨_, hp, hb, by rw [he, Split.part_resume]; exact ⟨rfl, rfl, rfl⟩⟩
    | none =>
      obtain ⟨hp, hb⟩ := stands (by simp [he])
      exact ⟨_, hp, hb, he ▸ Split.part_none_at⟩
  · obtain ⟨i, -, rfl⟩ := (parts p).mp hp
    obtain ⟨i', -, rfl⟩ := (parts q).mp hq
    exact (Split.part_lane hpj).2.symm.trans (Split.part_lane hqj).2

end Sys2Proof.Machine
end

section
/-! PROOFS. Exchanges, polls, folds, groups by value and uniform moves (R171-R177; O7). -/

namespace Sys2Proof.Machine

/-! ## What the lanes agree on -/

/-- All 32 lanes are selected when as many lanes are. -/
theorem length_filter_lanes (p : Nat → Bool) : (((List.range 32).filter p).length == 32) = (List.range 32).all p := by
  have h := List.length_filter_eq_length_iff (p := p) (l := List.range 32)
  rw [List.length_range] at h
  rw [Bool.eq_iff_iff, beq_iff_eq, h, List.all_eq_true]

/-- Some lane is selected when the selection is not empty. -/
theorem not_isEmpty_filter_lanes (p : Nat → Bool) : (!((List.range 32).filter p).isEmpty) = (List.range 32).any p := by
  rw [Bool.eq_iff_iff, Bool.not_eq_true', List.isEmpty_eq_false_iff_exists_mem, List.any_eq_true]
  exact exists_congr (fun _ => List.mem_filter)

/-- The lanes agree with lane 0 when none or all of them are selected (R172). -/
theorem none_or_all_lanes (p : Nat → Bool) :
    (((List.range 32).filter p).isEmpty || ((List.range 32).filter p).length == 32) =
      (List.range 32).all (fun j => p j == p 0) := by
  have h0 : 0 ∈ List.range 32 := List.mem_range.mpr (by decide)
  rw [length_filter_lanes, Bool.eq_iff_iff, Bool.or_eq_true, List.isEmpty_iff, List.filter_eq_nil_iff]
  simp only [List.all_eq_true, beq_iff_eq]
  constructor
  · rintro (none | all) j hj
    · rw [Bool.eq_false_iff.mpr (none j hj), Bool.eq_false_iff.mpr (none 0 h0)]
    · rw [all j hj, all 0 h0]
  · intro same
    cases hp : p 0 with
    | false => exact .inl (fun j hj => by rw [same j hj, hp]; decide)
    | true => exact .inr (fun j hj => (same j hj).trans hp)

/-! ## Folds -/

theorem foldPick_redux (ps : List (Nat × Flags)) (identity lane : Nat) :
    foldPick ps identity false false lane = ps.getD 31 (0, 0) := rfl

theorem foldPick_scan (ps : List (Nat × Flags)) (identity : Nat) (excl : Bool) (lane : Nat) :
    foldPick ps identity true excl lane =
      if excl then (if lane = 0 then (identity, 0) else ps.getD (lane - 1) (0, 0)) else ps.getD lane (0, 0) := by
  cases excl <;> rfl

/-! ## The instructions -/

theorem poll_results (h : Hdr) (d : BitVec 8) (q : BitVec 3) :
    ResultR (.poll h .every d q) (fun x => [pWrite d.toNat
      (x.lanesA.map (fun l => (l, (List.range 32).all (fun j => x.p j q.toNat)))) (x.labP q.toNat)]) ∧
    ResultR (.poll h .any d q) (fun x => [pWrite d.toNat
      (x.lanesA.map (fun l => (l, (List.range 32).any (fun j => x.p j q.toNat)))) (x.labP q.toNat)]) ∧
    ResultR (.poll h .same d q) (fun x => [pWrite d.toNat
      (x.lanesA.map (fun l => (l, (List.range 32).all (fun j => x.p j q.toNat == x.p 0 q.toNat)))) (x.labP q.toNat)]) := by
  refine ⟨?_, ?_, ?_⟩
  · simp only [← length_filter_lanes]
    exact resultR_of_pWrite (fun _ => rfl)
  · simp only [← not_isEmpty_filter_lanes]
    exact resultR_of_pWrite (fun _ => rfl)
  · have same (x : Cx) := none_or_all_lanes (fun j => x.p j q.toNat)
    simp only [← same]
    exact resultR_of_pWrite (fun _ => rfl)

theorem kin_whole_result (h : Hdr) (t : IType) (d a : BitVec 8) :
    ResultR (.kin h .whole t d a) (fun x => [pWrite d.toNat (x.lanesA.map (fun l =>
      (l, (List.range 32).all (fun j => x.vn j a.toNat t.words == x.vn 0 a.toNat t.words)))) (x.labV a t.words)]) := by
  simp only [← length_filter_lanes]
  exact resultR_of_pWrite (fun _ => rfl)

theorem scan_result (h : Hdr) (excl : Bool) (op : FoldOp) (d a : BitVec 8) :
    ResultFV (.scan h excl op d a) d (foldWords op) (fun x => x.labV a (foldWords op))
      (fun x l => if excl then (if l = 0 then (foldIdentity op, 0) else (x.prefixes op a).getD (l - 1) (0, 0))
        else (x.prefixes op a).getD l (0, 0)) := by
  simp only [← foldPick_scan]
  exact resultFV_of (fun _ => rfl)

/-- An instruction that writes one W register. -/
theorem resultR_of_wWrite {i : Instr} {d : BitVec 8} {val : Cx → DWord} {lab : Cx → Label}
    (hx : ∀ s, exec i s = issue i s (fun c => { s := c.s, wr := [wWrite d (val c) (lab c)] })) :
    ResultR i (fun x => [wWrite d (val x) (lab x)]) := by
  refine resultR_of _ _ hx (fun _ => rfl) (fun c x hm => ?_)
  obtain rfl := List.mem_singleton.mp hm
  exact wWrite_sound _ _ _

/-- Settles O7: each instruction writes one predicate, one V destination or one W register, and a fold is the floating
skeleton; a selection of lanes is counted where the statement asks whether all, some or alike lanes are selected. -/
theorem crosslaneResults : Obligations.CrosslaneResults := by
  unfold Obligations.CrosslaneResults
  intro h mode t op ex seg n d a b q
  obtain ⟨every, any, same⟩ := poll_results h d q
  have lxch := resultR_of_vWrites (i := .lxch h mode t seg d a b) (fun _ => rfl)
  have mask := resultR_of_vWrites (i := .poll h .mask d q) (fun _ => rfl)
  have count := resultR_of_vWrites (i := .poll h .count d q) (fun _ => rfl)
  have redux := resultFV_of (i := .redux h op d a) (fun _ => rfl)
  have kinMask := resultR_of_vWrites (i := .kin h .mask t d a) (fun _ => rfl)
  have kinLead := resultR_of_vWrites (i := .kin h .lead t d a) (fun _ => rfl)
  have toW := resultR_of_wWrite (i := .umov h .toW n d a) (fun _ => rfl)
  have toW64 := resultR_of_wWrite (i := .umov h .toW64 n d a) (fun _ => rfl)
  have toV := resultR_of_vWrites (i := .umov h .toV n d a) (fun _ => rfl)
  have toV64 := resultR_of_vWrites (i := .umov h .toV64 n d a) (fun _ => rfl)
  exact ⟨lxch, every, any, same, mask, count, redux, scan_result h ex op d a, kinMask, kin_whole_result h t d a, kinLead,
    toW, toW64, toV, toV64⟩

end Sys2Proof.Machine
end

section
/-! PROOFS. Writes to memory, fills of L1 and translations move no team: no register, no strand and no scratchpad (R215, R218,
R219, R224-R227, R413). -/

namespace Sys2Proof.Machine

/-- Moves each of which keeps the teams keep them together. -/
theorem State.teams_foldl {α : Type} {f : State → α → State} (hf : ∀ s x, (f s x).teams = s.teams) (l : List α) (s : State) :
    (l.foldl f s).teams = s.teams :=
  List.foldlRecOn l f (motive := fun t => t.teams = s.teams) rfl (fun t h x _ => (hf t x).trans h)

theorem State.teams_ite {s t u : State} {p : Prop} [Decidable p] (ht : t.teams = s.teams) (hu : u.teams = s.teams) :
    (if p then t else u).teams = s.teams := by
  split
  · exact ht
  · exact hu

/-! ## Host halves and the home -/

theorem State.teams_hostShare (s : State) (half : Nat) : (s.hostShare half).teams = s.teams :=
  State.teams_ite rfl rfl

theorem State.teams_hostOwn (s : State) (half : Nat) : (s.hostOwn half).teams = s.teams :=
  State.teams_ite (s.teams_hostShare half) (s.teams_hostShare half)

theorem State.teams_hostGet (s : State) (p : Place) (n : Nat) (own : Bool) (who : Who) :
    (s.hostGet p n own who).teams = s.teams := by
  cases p with
  | dev _ | peer _ _ _ | scr _ _ => rfl
  | host v h =>
    refine (CacheMove.l2Reach _ _ _ _ _).teams.trans (State.teams_foldl (fun t k => ?_) _ s)
    cases own
    · exact t.teams_hostShare k
    · exact t.teams_hostOwn k

/-- A write at the home of memory: the scratchpad alone lies in a team. -/
theorem State.teams_writeHome (s : State) {p : Place} (hp : ∀ t o, p ≠ .scr t o) (n x : Nat) (lab : Label) (who : Who) :
    (s.writeHome p n x lab who).teams = s.teams := by
  cases p with
  | dev pa => exact (CacheMove.l2Reach (s.noteWrite pa) _ _ _ _).teams
  | host v h =>
    refine (State.teams_foldl (fun _ _ => ?_) (halvesOf h n) _).trans ?_
    · rfl
    · rfl
  | peer _ _ _ => rfl
  | scr t o => exact absurd rfl (hp t o)

/-! ## Holders of a line -/

theorem State.teams_forwardOut (s : State) (id key : Nat) (bs : List Byte) : (s.forwardOut id key bs).teams = s.teams :=
  State.teams_foldl (fun t x => by split <;> rfl) s.fabric.peerLines s

theorem State.teams_forward (s : State) (w : Writer) (key n x : Nat) (lab : Label) :
    (s.forward w key n x lab).teams = s.teams := by
  have out := s.teams_forwardOut w.id key (bytesOf n x)
  refine (State.teams_foldl (fun t c => ?_) _ _).trans (State.teams_ite out out)
  split
  · rfl
  · exact State.teams_ite ((CacheMove.applyBefore t c key n).trans (.l1Write _ _ _ _ _)).teams rfl

theorem State.teams_store (s : State) (w : Writer) {p : Place} (hp : ∀ t o, p ≠ .scr t o) (n x : Nat) (lab : Label) :
    (s.store w p n x lab).teams = s.teams := by
  have home := ((s.hostGet p n true w.who).teams_writeHome hp n x lab w.who).trans (s.teams_hostGet p n true w.who)
  cases p with
  | dev _ | host _ _ => exact (State.teams_forward _ _ _ _ _ _).trans home
  | peer _ _ _ | scr _ _ => exact home

/-! ## Lines of an L1 -/

theorem placeOfLine_add_ne_scr (line member i t o : Nat) : (placeOfLine line member).add i ≠ .scr t o := by
  unfold placeOfLine
  split <;> simp [Place.add]

theorem State.teams_privBack (s : State) (line : Nat) (l : L1Line) : (s.privBack line l).teams = s.teams := by
  refine State.teams_foldl (fun t i => State.teams_ite ?_ rfl) _ s
  exact (State.teams_foldl (fun u c => (CacheMove.l1Write u c _ _ _).teams) _ _).trans
    ((State.teams_writeHome _ (placeOfLine_add_ne_scr _ _ _) _ _ _ _).trans (t.teams_hostGet _ _ _ _))

theorem State.teams_l1Put (s : State) (core key : Nat) (l : L1Line) : (s.l1Put core key l).teams = s.teams := by
  refine State.teams_ite rfl ?_
  split
  · rfl
  · exact State.teams_ite rfl (State.teams_privBack _ _ _)

theorem State.teams_l1Fill (s : State) (core : Nat) (p : Place) (mark : Evict) (who : Who) :
    (s.l1Fill core p mark who).teams = s.teams :=
  (State.teams_l1Put _ _ _ _).trans ((CacheMove.l2Reach _ _ _ _ _).teams.trans (s.teams_hostGet _ _ _ _))

theorem State.teams_privFill (s : State) (core : Nat) (p : Place) (mark : Evict) (who : Who) :
    (s.privFill core p mark who).teams = s.teams :=
  State.teams_ite rfl
    ((State.teams_l1Put _ _ _ _).trans ((CacheMove.l2Reach _ _ _ _ _).teams.trans (s.teams_hostGet _ _ _ _)))

theorem State.teams_markLine (s : State) (core key : Nat) (m : Evict) : (s.markLine core key m).teams = s.teams :=
  State.teams_ite rfl rfl

/-! ## Reads -/

theorem State.teams_fetchFor (s : State) (a : Access) : (s.fetchFor a).teams = s.teams := by
  have fill := s.teams_l1Fill a.core a.place a.mark (s.whoOf a.ctx)
  have mark (t : State) (key : Nat) := t.teams_markLine a.core key a.mark
  have priv := (mark _ (privKey a.place.lineKey)).trans (s.teams_privFill a.core a.place a.mark (s.whoOf a.ctx))
  have home := (CacheMove.l2Reach _ (s.whoOf a.ctx) a.place a.size false).teams.trans
    (s.teams_hostGet a.place a.size false (s.whoOf a.ctx))
  unfold State.fetchFor
  split
  case h_1 | h_2 => exact State.teams_ite priv (State.teams_ite home (State.teams_ite (mark s _) fill))
  case h_3 => exact mark s _
  case h_4 => rfl

theorem State.teams_catchUp (s : State) (a : Access) : (s.catchUp a).teams = s.teams := by
  unfold State.catchUp
  split
  case h_1 | h_2 => exact State.teams_ite (CacheMove.applyBefore s _ _ _).teams rfl
  case h_3 | h_4 => rfl

/-! ## Translation -/

theorem State.teams_pteOr (s : State) (at_ bits : Nat) : (s.pteOr at_ bits).teams = s.teams := by
  have notScratch (t o : Nat) : Place.dev at_ ≠ .scr t o := nofun
  unfold State.pteOr
  exact s.teams_store {} notScratch 8 _ 0

/-- A leaf that is marked and enters the TLBs (R226, R227). -/
theorem State.teams_tlbFill_pteOr (s : State) (core at_ bits : Nat) (e : TlbEnt) :
    ((s.pteOr at_ bits).tlbFill core e).teams = s.teams := by
  rw [State.tlbFill, State.onDie_teams, State.onCore_teams, State.teams_pteOr]

theorem State.teams_walkFor (s : State) (core ctx va : Nat) : (s.walkFor core ctx va).1.teams = s.teams := by
  unfold State.walkFor
  dsimp only
  split <;> rfl

theorem State.teams_leafFor (s : State) (core ctx va : Nat) (need : Need) : (s.leafFor core ctx va need).1.teams = s.teams := by
  have walked := s.teams_walkFor core ctx va
  unfold State.leafFor
  dsimp only
  split
  · split
    · split
      · next h => rw [h] at walked; exact walked
      · next h => rw [h] at walked; exact (State.teams_tlbFill_pteOr _ _ _ _ _).trans walked
    · rfl
  · split
    · next h => rw [h] at walked; exact walked
    · next h => rw [h] at walked; exact (State.teams_tlbFill_pteOr _ _ _ _ _).trans walked

theorem State.teams_leafPlace (s : State) (ctx a : Nat) (need : Need) (e : TlbEnt) {drop : State → State}
    (hd : (drop s).teams = s.teams) : (s.leafPlace ctx a need e drop).1.teams = s.teams := by
  unfold State.leafPlace
  dsimp only
  repeat' split
  all_goals simp only [hd]

theorem State.teams_translate (s : State) (core ctx : Nat) (va : DWord) (need : Need) :
    (s.translate core ctx va need).1.teams = s.teams := by
  have leaf := s.teams_leafFor core ctx va.toNat need
  unfold State.translate
  split
  · next h => rw [h] at leaf; exact leaf
  · next h => rw [h] at leaf; exact (State.teams_leafPlace _ _ _ _ _ rfl).trans leaf

end Sys2Proof.Machine
end

section
/-! PROOFS. Bodies that leave the teams where they are: an instruction that ends plainly in another state, or that waits at
itself there (R113, R182). -/

namespace Sys2Proof.Machine

section

variable {i : Instr} {s base : State} {n : Now} (body : Cx → Eff)

/-- An instruction that changes no team before it writes its registers. -/
theorem completes_of_body {wr : List Wr} (hi : Issues i s n = true) (hx : exec i s = issue i s body)
    (hb : body (ctxOf i s n) = { s := base, wr }) (ht : base.teams = s.teams) (hw : ∀ x ∈ wr, x.sound) :
    Completes i s n base wr := by
  have ends := completes_of_issue body hi hx
  rw [hb] at ends
  exact ends rfl rfl rfl (ht ▸ issues_placed hi) (State.warp_of_teams ht _ _ ▸ issues_unspilled hi) hw

/-- The strands of an instruction that is to issue again once a wait is over stay where they are. -/
theorem stays_of_body {x : Wait} (hi : Issues i s n = true) (hx : exec i s = issue i s body)
    (hb : body (ctxOf i s n) = { s := base, after := { st := .waiting x, keep := true } }) (ht : base.teams = s.teams)
    (hw : ∀ rs, x ≠ .spawn rs) (hs : Steady i s n = true) : Stays i s n base (.waiting x) := by
  have hwarp := State.warp_of_teams ht n.team n.warp
  simp only [Steady, Bool.and_eq_true, Bool.not_eq_true', ← hwarp] at hs
  obtain ⟨⟨hcalm, halone⟩, hmark⟩ := hs
  have hmark : (ctxOf i s n).h.s = false := hmark
  have := moves_of_issue (n := n) body (fun u => some { movedStrand base n u with st := .waiting x }) hi hx
  rw [hb] at this
  refine this rfl (ht ▸ issues_placed hi) hcalm halone rfl (fun u hu => ?_) (by simp)
  obtain ⟨-, h8, hmask⟩ := (Warp.alone_spec halone).2 u hu
  refine ⟨(partsOf_plain _ _ _ _ _ _ _ _ _ _ hmask (allSlices_bit h8) (fun rs => by simp [hw rs]) (fun _ _ => rfl)).trans ?_, ?_⟩
  · rw [hmark]; rfl
  · rintro _ ⟨⟩
    exact ⟨rfl, hmask, rfl⟩

end

/-- The guard's predicate is cleared in lanes of the warp. -/
theorem Cx.clearP_sound (c : Cx) {lanes : List Nat} (lab : Label) (h : ∀ l ∈ lanes, l < 32) :
    ∀ x ∈ c.clearP lanes lab, x.sound := by
  intro x hx
  unfold Cx.clearP at hx
  split at hx
  · exact absurd hx List.not_mem_nil
  · obtain rfl := List.mem_singleton.mp hx
    refine pWrite_sound _ _ _ (fun y hy => ?_)
    obtain ⟨l, hl, rfl⟩ := List.mem_map.mp hy
    exact h l hl

end Sys2Proof.Machine
end

section
/-! PROOFS. LAUNCH from the device (R182; O20). -/

namespace Sys2Proof.Machine

/-! ## The reads of the header -/

theorem Cx.teams_headerReads (c : Cx) (s : State) (va : DWord) (lab : Label) :
    (c.headerReads s va lab).1.teams = s.teams := by
  refine List.foldlRecOn (List.range 3) _ (motive := fun (acc : State × Except LaneEnd (List Access)) =>
    acc.1.teams = s.teams) rfl (fun acc h i _ => ?_)
  dsimp only
  split
  · exact h
  · have moved := acc.1.teams_translate c.core c.ctx (va + BitVec.ofNat 64 (64 * i)) .read
    split
    · next e => rw [e] at moved; exact moved.trans h
    · next e => rw [e] at moved; exact moved.trans h

theorem State.teams_headerOf (s : State) (as : List Access) : (s.headerOf as).1.teams = s.teams := by
  refine List.foldlRecOn as.zipIdx _ (motive := fun (acc : State × Header × Label) => acc.1.teams = s.teams) rfl
    (fun acc h a _ => ?_)
  exact (CacheMove.afterLook _ _ _).teams.trans ((State.teams_catchUp _ _).trans ((State.teams_fetchFor _ _).trans
    ((CacheMove.chargeAccess _ _).teams.trans h)))

/-! ## How a launch whose header stands ends -/

/-- The launch that enters the store, with its journal entry (R182, R195, R202). -/
def Cx.launched (c : Cx) (va : DWord) (lab : Label) (s : State) (hd : Header) (lh : Label) : State :=
  let vf := (s.context c.ctx).vf
  let s1 := s.journalDevice (vf + 1) (s.context c.ctx).num (s.context c.ctx).serial va
  s1.enterLaunch c.ctx hd va (vf + 1) (s.port (vf + 1)).tail (lh ||| lab ||| c.warp.lbfloor)
    (s1.arrivalIds c.n.team c.n.warp .pkg)

/-- A launch that is refused answers its status and clears the predicate. -/
def Cx.launchRefused (c : Cx) (d : BitVec 8) (lab : Label) (s : State) (st : DWord) : Eff :=
  { s, wr := wWrite d st lab :: c.clearP c.lanesA lab }

/-- The end of LAUNCH once its header has been read (R182). -/
def Cx.launchEnd (c : Cx) (wait : Bool) (d : BitVec 8) (va : DWord) (lab : Label) (s : State) (hd : Header) (lh : Label) : Eff :=
  let vf := (s.context c.ctx).vf
  if !hd.valid then c.launchRefused d lab s 2
  else if 2 ≤ hd.nbv then c.launchRefused d lab s 3
  else if !s.storeRoom vf (vf + 1) then
    if wait then { s, after := { st := .waiting .launch, keep := true } } else c.launchRefused d lab s 1
  else
    { s := c.launched va lab s hd lh
      wr := [wWrite d (BitVec.ofNat 64 ((s.context c.ctx).serial % 2 ^ 32 * 2 ^ 32)) lab] }

theorem launch_misaligned {h : Hdr} {wait : Bool} {d a : BitVec 8} {s : State} {n : Now}
    (hi : Issues (.launch h wait d a) s n = true) (h64 : ((ctxOf (.launch h wait d a) s n).w a.toNat).toNat % 64 ≠ 0) :
    Finishes (.launch h wait d a) s n { s := s, ends := (ctxOf (.launch h wait d a) s n).lanesA.map (fun l =>
      (l, .trap { lane := l, cause := .misalignedAddr, detail := (ctxOf (.launch h wait d a) s n).w a.toNat,
                  lab := (ctxOf (.launch h wait d a) s n).labW a.toNat } false)) } :=
  finishes_of_issue _ hi rfl (if_pos h64) rfl

/-- With an aligned virtual address, no SC access of the warp outstanding and no read of the header refused, LAUNCH ends as
its header says. -/
theorem launch_body {h : Hdr} {wait : Bool} {d a : BitVec 8} {s s0 s1 : State} {n : Now} {as : List Access} {hd : Header}
    {lh : Label} {c : Cx} (hc : ctxOf (.launch h wait d a) s n = c) (h64 : (c.w a.toNat).toNat % 64 = 0)
    (h57 : field (c.w a.toNat) 63 57 = 0) (hsc : s.earlierIds n.team n.warp 0xFFFFFFFF (.one .sc) .pkg = [])
    (hedges : (s.warp n.team n.warp).edges = [])
    (hreads : c.headerReads s (c.w a.toNat) (c.labW a.toNat) = (s0, .ok as)) (hask : c.askLines s0 as = none)
    (hpoison : as.find? s0.readsPoison = none) (hegress : as.find? s0.refusedLine = none)
    (hhead : s0.headerOf as = (s1, hd, lh)) :
    ∃ body, exec (.launch h wait d a) s = issue (.launch h wait d a) s body ∧
      body c = c.launchEnd wait d (c.w a.toNat) (c.labW a.toNat) s1 hd lh := by
  have hs : c.s = s := hc ▸ rfl
  have hn : c.n = n := hc ▸ rfl
  have hw : c.warp.edges = [] := hc ▸ hedges
  refine ⟨_, rfl, ?_⟩
  simp only [hs, hn, hw, h64, h57, hsc, hreads, hask, hpoison, hegress, hhead, ne_eq, not_true_eq_false, if_false,
    List.flatMap_nil, List.append_nil, List.any_nil, Bool.false_eq_true]
  simp only [Cx.launchEnd, Cx.launched, hn]
  rfl

section

variable {c : Cx} {wait : Bool} {d : BitVec 8} {va : DWord} {lab : Label} {s : State} {hd : Header} {lh : Label}

theorem Cx.launchEnd_invalid (hv : hd.valid = false) : c.launchEnd wait d va lab s hd lh = c.launchRefused d lab s 2 :=
  if_pos (by simp [hv])

theorem Cx.launchEnd_tooManyBlocks (hv : hd.valid = true) (hnbv : 2 ≤ hd.nbv) :
    c.launchEnd wait d va lab s hd lh = c.launchRefused d lab s 3 := by
  simp [Cx.launchEnd, hv, hnbv]

theorem Cx.launchEnd_noRoom (hv : hd.valid = true) (hnbv : hd.nbv < 2)
    (hroom : s.storeRoom (s.context c.ctx).vf ((s.context c.ctx).vf + 1) = false) :
    c.launchEnd wait d va lab s hd lh =
      if wait then { s, after := { st := .waiting .launch, keep := true } } else c.launchRefused d lab s 1 := by
  simp [Cx.launchEnd, hv, Nat.not_le.mpr hnbv, hroom]

theorem Cx.launchEnd_enters (hv : hd.valid = true) (hnbv : hd.nbv < 2)
    (hroom : s.storeRoom (s.context c.ctx).vf ((s.context c.ctx).vf + 1) = true) :
    c.launchEnd wait d va lab s hd lh =
      { s := c.launched va lab s hd lh
        wr := [wWrite d (BitVec.ofNat 64 ((s.context c.ctx).serial % 2 ^ 32 * 2 ^ 32)) lab] } := by
  simp [Cx.launchEnd, hv, Nat.not_le.mpr hnbv, hroom]

end

/-! ## What entering the store changes -/

section

variable (c : Cx) (va : DWord) (lab : Label) (s : State) (hd : Header) (lh : Label)

theorem Cx.launched_sameBytes : SameBytes (c.launched va lab s hd lh) s := ⟨fun _ => rfl, fun _ => rfl, fun _ _ => rfl⟩

theorem Cx.launched_teams : (c.launched va lab s hd lh).teams = s.teams := rfl

theorem Cx.launched_port : ((c.launched va lab s hd lh).port ((s.context c.ctx).vf + 1)).tail =
    (s.port ((s.context c.ctx).vf + 1)).tail + 1 :=
  congrArg Port.tail (Cells.get_set_self _ _ _)

theorem Cx.launched_serial (hp : (Cells.find? s.contexts c.ctx).isSome = true) :
    ((c.launched va lab s hd lh).context c.ctx).serial = (s.context c.ctx).serial + 1 :=
  congrArg Context.serial (Cells.get_adjust_listed s.contexts c.ctx (fun c => { c with serial := c.serial + 1 }) hp)

theorem Cx.launched_launch : (c.launched va lab s hd lh).launch s.nextId =
    { ctx := c.ctx, hdr := hd, hdrVa := va, serial := (s.context c.ctx).serial, port := (s.context c.ctx).vf + 1,
      jseq := (s.port ((s.context c.ctx).vf + 1)).tail, w0Lab := lh ||| lab ||| c.warp.lbfloor,
      waits := s.arrivalIds c.n.team c.n.warp .pkg,
      ready := if hd.waitMask &&& (s.context c.ctx).events = hd.waitMask then some s.nextId else none } :=
  Cells.get_put_self _ _ _

end

/-- Settles O20: the reads of the header move no team, and then `Cx.launchEnd` says how the instruction ends. -/
theorem launchesFromTheDevice : Obligations.LaunchesFromTheDevice := by
  unfold Obligations.LaunchesFromTheDevice
  intro h wait d a s s0 s1 n as hd lh hi
  refine ⟨launch_misaligned hi, fun h64 h57 hsc hedges hreads hask hpoison hegress hhead => ?_⟩
  generalize hc : ctxOf (.launch h wait d a) s n = c at *
  have ht : s1.teams = s.teams := by
    have read := c.teams_headerReads s (c.w a.toNat) (c.labW a.toNat)
    have looked := s0.teams_headerOf as
    rw [hreads] at read
    rw [hhead] at looked
    exact looked.trans read
  obtain ⟨body, hx, hend⟩ := launch_body hc h64 h57 hsc hedges hreads hask hpoison hegress hhead
  have hb {e : Eff} (he : c.launchEnd wait d (c.w a.toNat) (c.labW a.toNat) s1 hd lh = e) :
      body (ctxOf (.launch h wait d a) s n) = e := by rw [hc, hend, he]
  have refused {st : DWord} (hr : c.launchEnd wait d (c.w a.toNat) (c.labW a.toNat) s1 hd lh =
      c.launchRefused d (c.labW a.toNat) s1 st) :
      Completes (.launch h wait d a) s n s1 (wWrite d st (c.labW a.toNat) :: c.clearP c.lanesA (c.labW a.toNat)) :=
    completes_of_body body hi hx (hb hr) ht (List.forall_mem_cons.mpr
      ⟨wWrite_sound _ _ _, c.clearP_sound _ (fun _ => Cx.lanesA_lt)⟩)
  refine ⟨fun hv => refused (Cx.launchEnd_invalid hv), fun hv hnbv => refused (Cx.launchEnd_tooManyBlocks hv hnbv),
    fun hv hnbv hroom => ⟨fun hwait => ?_, fun hwait hs => ?_⟩, fun hv hnbv hroom hp => ?_⟩
  · exact refused ((Cx.launchEnd_noRoom hv hnbv hroom).trans (if_neg (by simp [hwait])))
  · exact stays_of_body body hi hx (hb ((Cx.launchEnd_noRoom hv hnbv hroom).trans (if_pos hwait))) ht nofun hs
  · have hn : c.n = n := hc ▸ rfl
    refine ⟨_, completes_of_body body hi hx (hb (Cx.launchEnd_enters hv hnbv hroom)) ((c.launched_teams _ _ _ _ _).trans ht)
      (fun x hm => List.mem_singleton.mp hm ▸ wWrite_sound _ _ _), c.launched_sameBytes _ _ _ _ _, c.launched_teams _ _ _ _ _,
      c.launched_port _ _ _ _ _, c.launched_serial _ _ _ _ _ hp, ?_⟩
    rw [c.launched_launch, hn]
    exact ⟨rfl, rfl, rfl, rfl, rfl, rfl, rfl, Option.isSome_ite⟩

end Sys2Proof.Machine
end

section
/-! PROOFS. EVSET, SPAWN, BINFL, and the bin that a spawn record finds (R159, R160, R184-R186; O21). -/

namespace Sys2Proof.Machine

theorem Cx.buffers_of_not_almanac {c : Cx} (h : c.hdr.almanac = false) : c.buffers = false := by simp [Cx.buffers, h]

/-! ## Events -/

/-- The operation that EVSET leaves to be performed: EVSET.CLR waits for no access. -/
def eventOf (s : State) (n : Now) (bit : Nat) (clr : Bool) : EventOp :=
  { ctx := (s.team n.team).ctx, bit, clr, team := n.team, warp := n.warp,
    ids := if clr then [] else s.arrivalIds n.team n.warp .pkg }

/-- One event operation is still to be performed. -/
def State.owesEvent (s : State) (d : EventOp) : State := { s with deferred := [d] }

/-- The event operation has been performed, and no other is left. -/
def State.didEvent (s : State) (d : EventOp) : State := { s.eventBit d.ctx d.bit d.clr with deferred := [] }

/-- An event operation waits while an access before it is outstanding, and is performed once none is (R184). -/
theorem State.settleEvents_owesEvent (s : State) (d : EventOp) : (s.owesEvent d).settleEvents =
    if d.ids.any (fun y => s.pendingAt goneTeam y.1 y.2) then s.owesEvent d else s.didEvent d := by
  have owed : (s.owesEvent d).deferred = [d] := rfl
  have pending (y : Nat × Scope) : (s.owesEvent d).pendingAt goneTeam y.1 y.2 = s.pendingAt goneTeam y.1 y.2 := rfl
  simp only [State.settleEvents, owed, pending, List.foldl_cons, List.foldl_nil, List.any_nil, Bool.or_false, List.nil_append]
  split <;> rfl

theorem State.didEvent_sameBytes (s : State) (d : EventOp) : SameBytes (s.didEvent d) s :=
  ⟨fun _ => rfl, fun _ => rfl, fun _ _ => rfl⟩

theorem State.didEvent_events {s : State} {d : EventOp} (h : (Cells.find? s.contexts d.ctx).isSome = true) :
    ((s.didEvent d).context d.ctx).events =
      if d.clr then (s.context d.ctx).events &&& ~~~(1#256 <<< d.bit) else (s.context d.ctx).events ||| (1#256 <<< d.bit) :=
  congrArg Context.events (Cells.get_adjust_listed s.contexts d.ctx (fun c => { c with
    events := if d.clr then c.events &&& ~~~(1#256 <<< d.bit) else c.events ||| (1#256 <<< d.bit) }) h)

section

variable {h : Hdr} {clr : Bool} {k : BitVec 8} {s : State} {n : Now}

/-- EVSET defers its operation behind the warp's accesses, and settles it at once when none is outstanding. -/
theorem evset_completes (hi : Issues (.evset h clr k) s n = true) (ha : (ctxOf (.evset h clr k) s n).hdr.almanac = false)
    (hd : s.deferred = []) :
    Completes (.evset h clr k) s n (s.owesEvent (eventOf s n k.toNat clr)).settleEvents [] := by
  refine completes_of_body _ hi rfl ((if_neg ?_).trans ?_) ?_ (by simp)
  · rw [Cx.buffers_of_not_almanac ha]
    exact Bool.false_ne_true
  · show ({ s := ({ s with deferred := s.deferred ++ [eventOf s n k.toNat clr] } : State).settleEvents } : Eff) = _
    rw [hd]
    rfl
  · rw [State.settleEvents_owesEvent]
    exact State.teams_ite rfl rfl

theorem evset_performs (hi : Issues (.evset h clr k) s n = true) (ha : (ctxOf (.evset h clr k) s n).hdr.almanac = false)
    (hd : s.deferred = [])
    (hp : clr = true ∨ (s.arrivalIds n.team n.warp .pkg).any (fun y => s.pendingAt goneTeam y.1 y.2) = false) :
    Completes (.evset h clr k) s n (s.didEvent (eventOf s n k.toNat clr)) [] := by
  have idle : (eventOf s n k.toNat clr).ids.any (fun y => s.pendingAt goneTeam y.1 y.2) = false := by
    cases clr with
    | true => rfl
    | false => exact hp.resolve_left Bool.false_ne_true
  have ends := evset_completes hi ha hd
  rwa [State.settleEvents_owesEvent, idle, if_neg Bool.false_ne_true] at ends

theorem evset_waits (hi : Issues (.evset h false k) s n = true) (ha : (ctxOf (.evset h false k) s n).hdr.almanac = false)
    (hp : (s.arrivalIds n.team n.warp .pkg).any (fun y => s.pendingAt goneTeam y.1 y.2) = true) (hd : s.deferred = []) :
    Completes (.evset h false k) s n (s.owesEvent (eventOf s n k.toNat false)) [] := by
  have pending : (eventOf s n k.toNat false).ids.any (fun y => s.pendingAt goneTeam y.1 y.2) = true := hp
  have ends := evset_completes hi ha hd
  rwa [State.settleEvents_owesEvent, if_pos pending] at ends

end

/-! ## The bin of a record -/

/-- The oldest bin of a team with an entry PC that holds records. -/
def State.openBin (s : State) (core k : Nat) (pc : DWord) : Option (Nat × Bin) :=
  List.find? (fun (b : Nat × Bin) => b.2.team == k && b.2.pc == pc && !b.2.recs.isEmpty) (s.core core).bins

/-- The lowest bin that holds no record. -/
def State.emptyBin (s : State) (core : Nat) : Option Nat :=
  (List.range 8).find? (fun n => (Cells.get (s.core core).bins n).recs.isEmpty)

/-- A core with another bin in place of one. -/
def State.putBin (s : State) (core j : Nat) (b : Bin) : State :=
  s.onCore core (fun c => { c with bins := Cells.put c.bins j b })

theorem State.putBin_bins (s : State) (core j i : Nat) (b : Bin) :
    Cells.get ((s.putBin core j b).core core).bins i = if j = i then b else Cells.get (s.core core).bins i := by
  rw [State.putBin, State.core_onCore, if_pos rfl]
  exact Cells.get_put _ _ _ _

section

variable {s : State} {core k : Nat} {r : SpawnRec}

theorem State.offer_joins {b : Nat × Bin} (h : s.openBin core k r.pc = some b) (hl : b.2.recs.length < 64) :
    s.offer core k r = some (s.putBin core b.1 { b.2 with recs := b.2.recs ++ [r] }) := by
  unfold State.openBin at h
  simp only [State.offer, h, if_neg (Nat.not_le.mpr hl)]
  rfl

theorem State.offer_full {b : Nat × Bin} (h : s.openBin core k r.pc = some b) (hl : 64 ≤ b.2.recs.length) :
    s.offer core k r = none := by
  unfold State.openBin at h
  simp only [State.offer, h, if_pos hl]

theorem State.offer_opens {j : Nat} (h : s.openBin core k r.pc = none) (he : s.emptyBin core = some j) :
    s.offer core k r = some (s.putBin core j {
      team := k, pc := r.pc, recs := [r], timer := if s.almanac k then none else some (s.cycle + s.power.image.binTimer) }) := by
  unfold State.openBin at h
  unfold State.emptyBin at he
  simp only [State.offer, h, he]
  rfl

theorem State.offer_noBin (h : s.openBin core k r.pc = none) (he : s.emptyBin core = none) : s.offer core k r = none := by
  unfold State.openBin at h
  unfold State.emptyBin at he
  simp only [State.offer, h, he]

/-- A record that is stored changes one bin. -/
theorem State.offer_stores {t : State} (h : s.offer core k r = some t) : ∃ j b, t = s.putBin core j b := by
  cases ho : s.openBin core k r.pc with
  | some b =>
    by_cases hl : 64 ≤ b.2.recs.length
    · rw [State.offer_full ho hl] at h
      exact nomatch h
    · rw [State.offer_joins ho (Nat.not_le.mp hl)] at h
      exact ⟨_, _, (Option.some.inj h).symm⟩
  | none =>
    cases he : s.emptyBin core with
    | some j =>
      rw [State.offer_opens ho he] at h
      exact ⟨_, _, (Option.some.inj h).symm⟩
    | none =>
      rw [State.offer_noBin ho he] at h
      exact nomatch h

/-- Another bin in place of one changes no team, no byte of device memory and no other bin. -/
theorem State.putBin_changes_one (s : State) (core j : Nat) (b : Bin) :
    (s.putBin core j b).teams = s.teams ∧ (s.putBin core j b).mem = s.mem ∧
      Cells.get ((s.putBin core j b).core core).bins j = b ∧
      ∀ i, i ≠ j → Cells.get ((s.putBin core j b).core core).bins i = Cells.get (s.core core).bins i :=
  ⟨rfl, rfl, by rw [State.putBin_bins, if_pos rfl], fun i hi => by rw [State.putBin_bins, if_neg (Ne.symm hi)]⟩

end

/-! ## SPAWN and BINFL -/

/-- Records offered one after another move no team, and those left over are among those offered. -/
theorem State.offerAll_spec (s : State) (core k : Nat) (rs : List (Nat × SpawnRec)) :
    (s.offerAll core k rs).1.teams = s.teams ∧ ∀ x ∈ (s.offerAll core k rs).2, x ∈ rs := by
  refine List.foldlRecOn rs _ (motive := fun (acc : State × List (Nat × SpawnRec)) =>
    acc.1.teams = s.teams ∧ ∀ x ∈ acc.2, x ∈ rs) ⟨rfl, by simp⟩ (fun acc ih r hr => ?_)
  obtain ⟨ht, hl⟩ := ih
  split
  · next t hoff =>
    obtain ⟨j, b, rfl⟩ := State.offer_stores hoff
    exact ⟨ht, hl⟩
  · refine ⟨ht, fun x hx => ?_⟩
    rcases List.mem_append.mp hx with hx | hx
    · exact hl x hx
    · exact List.mem_singleton.mp hx ▸ hr

/-- The end of a SPAWN whose records have been offered (R159, R185). -/
def Cx.spawnEnd (c : Cx) (wait : Bool) (r : State × List (Nat × SpawnRec)) : Eff :=
  if wait then { s := r.1, after := if r.2.isEmpty then {} else { st := .waiting (.spawn r.2) } }
  else { s := r.1, wr := if r.2.isEmpty then [] else c.clearP (r.2.map (·.1)) (recsLab r.2) }

/-- SPAWN in lanes each of which has a record offers them in lane order. -/
theorem spawn_body {h : Hdr} {wait : Bool} {a b d : BitVec 8} {s : State} {n : Now} {c : Cx} {recs : List (Nat × SpawnRec)}
    (hc : ctxOf (.spawn h wait a b d) s n = c) (ha : c.hdr.almanac = false)
    (hr : c.lanesA.map (fun l => (l, c.spawnRec a b d l)) = recs.map (fun r => (r.1, .ok r.2))) :
    ∃ body, exec (.spawn h wait a b d) s = issue (.spawn h wait a b d) s body ∧
      body c = c.spawnEnd wait (s.offerAll c.core n.team recs) := by
  have hs : c.s = s := hc ▸ rfl
  have hn : c.n = n := hc ▸ rfl
  have stored : recs.filterMap (fun r => some (r.1, r.2)) = recs := List.filterMap_some
  have trapped : recs.filterMap (fun _ => (none : Option (Nat × LaneEnd))) = [] := by simp
  refine ⟨_, rfl, ?_⟩
  simp only [hr, List.filterMap_map, Function.comp_def, stored, trapped, Cx.buffers_of_not_almanac ha, hs, hn,
    Bool.false_eq_true, if_false]
  cases recs with
  | nil => cases wait <;> rfl
  | cons r rs => rfl

section

variable {h : Hdr} {wait : Bool} {a b d : BitVec 8} {s : State} {n : Now} {c : Cx} {recs : List (Nat × SpawnRec)}

/-- SPAWN goes on when its records are all stored, and without .W also when some are not. -/
theorem spawn_completes (hi : Issues (.spawn h wait a b d) s n = true) (hc : ctxOf (.spawn h wait a b d) s n = c)
    (ha : c.hdr.almanac = false)
    (hr : c.lanesA.map (fun l => (l, c.spawnRec a b d l)) = recs.map (fun r => (r.1, .ok r.2))) {t : State}
    {left : List (Nat × SpawnRec)} (ho : s.offerAll c.core n.team recs = (t, left)) (hl : wait = true → left = []) :
    Completes (.spawn h wait a b d) s n t (if left.isEmpty then [] else c.clearP (left.map (·.1)) (recsLab left)) := by
  obtain ⟨body, hx, hb⟩ := spawn_body hc ha hr
  obtain ⟨ht, hleft⟩ := s.offerAll_spec c.core n.team recs
  rw [ho] at hb ht hleft
  have lane {r : Nat × SpawnRec} (hm : r ∈ recs) : r.1 < 32 := by
    have hm := List.mem_map_of_mem (f := fun r => (r.1, Except.ok (ε := LaneEnd) r.2)) hm
    rw [← hr] at hm
    obtain ⟨l, hl, he⟩ := List.mem_map.mp hm
    exact congrArg Prod.fst he ▸ Cx.lanesA_lt hl
  refine completes_of_body body hi hx ((congrArg body hc).trans (hb.trans ?_)) ht ?_
  · cases wait with
    | false => rfl
    | true => rw [hl rfl]; rfl
  · split
    · simp
    · refine c.clearP_sound _ (fun l hm => ?_)
      obtain ⟨r, hin, rfl⟩ := List.mem_map.mp hm
      exact lane (hleft r hin)

end

/-- BINFL marks the bins that its lanes name (R186). -/
theorem binfl_completes {h : Hdr} {a : BitVec 8} {s : State} {n : Now} (hi : Issues (.binfl h a) s n = true)
    (ha : (ctxOf (.binfl h a) s n).hdr.almanac = false) :
    Completes (.binfl h a) s n (s.flushBins (ctxOf (.binfl h a) s n).core n.team
      ((ctxOf (.binfl h a) s n).lanesA.map (fun l => (ctxOf (.binfl h a) s n).v2 l a.toNat)).eraseDups) [] := by
  refine completes_of_body _ hi rfl (if_neg ?_) rfl (by simp)
  rw [Cx.buffers_of_not_almanac ha]
  exact Bool.false_ne_true

/-- Settles O21: EVSET runs `State.settleEvents` on its one operation, SPAWN offers its records by `State.offerAll`, and an
offer puts one bin in its place or stores nothing. -/
theorem eventsSpawnsAndFlushes : Obligations.EventsSpawnsAndFlushes := by
  unfold Obligations.EventsSpawnsAndFlushes
  refine ⟨fun h clr wait k a b c s s1 n => ⟨fun hi ha hd hctx hp => ?_, evset_waits, fun recs hi ha hr => ?_,
    binfl_completes⟩, fun s core k r => ⟨fun b hb hl => ?_, fun b hb hl => ?_, fun j hs he => ?_, fun hs he => ?_⟩⟩
  · exact ⟨_, evset_performs hi ha hd hp, s.didEvent_sameBytes _, rfl, rfl,
      State.didEvent_events (d := eventOf s n k.toNat clr) hctx⟩
  · refine ⟨fun hw ho => ?_, fun hw ho => ?_, fun r rs hw ho => ?_⟩
    · exact spawn_completes hi rfl ha hr ho (fun _ => rfl)
    · exact spawn_completes hi rfl ha hr ho (fun _ => rfl)
    · have ends := spawn_completes hi rfl ha hr ho (fun h => absurd (hw.symm.trans h) Bool.false_ne_true)
      rwa [List.isEmpty_cons, if_neg Bool.false_ne_true] at ends
  · exact ⟨_, State.offer_joins hb hl, State.putBin_changes_one _ _ _ _⟩
  · exact State.offer_full hb hl
  · exact ⟨_, State.offer_opens hs he, State.putBin_changes_one _ _ _ _⟩
  · exact State.offer_noBin hs he

end Sys2Proof.Machine
end

section
/-! PROOFS. The journal and the command ports: what processing a command that a port takes comes to (R187-R191, R195-R197,
R441). -/

namespace Sys2Proof.Machine

/-! ## The journal -/

/-- Ports and messages to the host moved, and nothing else. -/
def JournalMove (s t : State) : Prop := ∃ ports out, t = { s with ports, out }

theorem JournalMove.refl (s : State) : JournalMove s s := ⟨s.ports, s.out, rfl⟩

theorem JournalMove.trans {s t u : State} (h : JournalMove s t) (g : JournalMove t u) : JournalMove s u := by
  obtain ⟨_, _, rfl⟩ := h
  obtain ⟨p, o, rfl⟩ := g
  exact ⟨p, o, rfl⟩

theorem JournalMove.foldl {α : Type} {f : State → α → State} (hf : ∀ s x, JournalMove s (f s x)) (l : List α) (s : State) :
    JournalMove s (l.foldl f s) :=
  List.foldlRecOn l f (motive := JournalMove s) (.refl s) (fun _ h x _ => h.trans (hf _ x))

/-- What looks at no port and at no message reads as before. -/
theorem JournalMove.same {α : Type} {s t : State} (h : JournalMove s t) (f : State → α)
    (hf : ∀ (s : State) ports out, f { s with ports, out } = f s) : f t = f s := by
  obtain ⟨p, o, rfl⟩ := h
  exact hf s p o

theorem JournalMove.journalSet (s : State) (r : JRef) (st : JState) (status : Status) (detail : Option Nat) :
    JournalMove s (s.journalSet r st status detail) := by
  unfold State.journalSet
  dsimp only
  split
  · split
    · exact ⟨_, _, rfl⟩
    · exact ⟨_, _, rfl⟩
  · exact .refl s

theorem JournalMove.cmdStat (s : State) (p tag : Nat) (st : Status) : JournalMove s (s.cmdStat p tag st) := ⟨_, _, rfl⟩

theorem State.port_onPort (s : State) (n : Nat) (f : Port → Port) : (s.onPort n f).port n = f (s.port n) :=
  Cells.get_set_self _ _ _

/-- An open entry takes its new state and status (R196). -/
theorem State.mem_journalSet {s : State} {r : JRef} {e : JEntry} (he : e ∈ (s.port r.1).journal) (hseq : e.seq = r.2)
    (hopen : e.st.final = false) (st : JState) (status : Status) (detail : Option Nat) :
    { e with st, status, detail := detail.getD e.detail } ∈ ((s.journalSet r st status detail).port r.1).journal := by
  have hany : (s.port r.1).journal.any (fun e => e.seq == r.2 && !e.st.final) = true :=
    List.any_eq_true.mpr ⟨e, he, by simp [hseq, hopen]⟩
  have hmem : { e with st, status, detail := detail.getD e.detail } ∈ ((s.onPort r.1 (fun p => { p with
      journal := p.journal.map (fun e =>
        if e.seq = r.2 then { e with st, status, detail := detail.getD e.detail } else e) })).port r.1).journal := by
    rw [State.port_onPort]
    exact List.mem_map.mpr ⟨e, he, if_pos hseq⟩
  unfold State.journalSet
  dsimp only
  rw [if_pos hany]
  split
  · exact hmem
  · exact hmem

/-! ## The entry of a command -/

section

variable {s t u : State} {fn : Fn} {c : BitVec 512} {js : JState} {st : Status}

/-- The entry that a port's next command gets (R195). -/
def State.entryRef (s : State) (fn : Fn) : JRef := (fn.port, (s.port fn.port).tail)

theorem recorded_recorded (s : State) (fn : Fn) (c : BitVec 512) : Recorded s (s.recorded fn c) fn c .accepted .ok := by
  unfold Recorded State.recorded State.journalAdd
  rw [State.port_onPort]
  exact ⟨_, List.mem_append_right _ List.mem_cons_self, rfl, rfl, rfl, rfl, rfl, rfl⟩

theorem Recorded.of_port (h : Recorded s t fn c js st) (hp : u.port fn.port = t.port fn.port) : Recorded s u fn c js st := by
  unfold Recorded
  rw [hp]
  exact h

theorem Recorded.journalSet (h : Recorded s t fn c js st) (hopen : js.final = false) (js' : JState) (st' : Status)
    (detail : Option Nat) : Recorded s (t.journalSet (s.entryRef fn) js' st' detail) fn c js' st' := by
  obtain ⟨e, he, hseq, rfl, -, htype, htag, hops⟩ := h
  exact ⟨_, State.mem_journalSet (r := s.entryRef fn) he hseq hopen js' st' detail, hseq, rfl, rfl, htype, htag, hops⟩

theorem Recorded.journalCtx (h : Recorded s t fn c js st) (num : Nat) :
    Recorded s (t.journalCtx (s.entryRef fn) num) fn c js st := by
  obtain ⟨e, he, hseq, hst, hstatus, htype, htag, hops⟩ := h
  refine ⟨{ e with ctx := num }, ?_, hseq, hst, hstatus, htype, htag, hops⟩
  rw [State.journalCtx, State.entryRef, State.port_onPort]
  exact List.mem_map.mpr ⟨e, he, if_pos hseq⟩

theorem Recorded.cmdStat (h : Recorded s t fn c js st) (tag : Nat) (st' : Status) :
    Recorded s (t.cmdStat fn.port tag st') fn c js st := by
  unfold Recorded State.cmdStat
  rw [State.port_onPort]
  exact h

/-! ## Commands that a port takes -/

theorem rejects_of_takes (h : Takes s fn c = true) : s.rejects fn c = none := by
  simp only [Takes, Bool.and_eq_true] at h
  obtain ⟨⟨⟨⟨⟨⟨⟨hopen, -⟩, -⟩, -⟩, htakes⟩, hcommon⟩, hops⟩, hroom⟩ := h
  simp [State.rejects, hopen, htakes, hcommon, hops, hroom]

/-- Only a LAUNCH may wait for another module's line (R192). -/
theorem commandAsk_of_type (h : cmdType c ≠ 1) : s.commandAsk fn (some c) = none :=
  if_neg (by simp [h])

theorem submit_of_takes (h : Takes s fn c = true) (hask : s.commandAsk fn (some c) = none) (dmaOk : Bool) :
    s.submit fn (some c) dmaOk = s.consume fn (some c) dmaOk := by
  simp only [Takes, Bool.and_eq_true] at h
  obtain ⟨⟨⟨⟨⟨⟨⟨-, hport⟩, hheld⟩, hempty⟩, -⟩, -⟩, -⟩, -⟩ := h
  unfold State.submit
  rw [if_neg (by simp [hport]), if_pos (by rw [hempty, hheld, hask]; rfl)]

/-- A command that a port takes at once answers with what processing it comes to. -/
theorem answers_of_process {i : Instr} {ok : Bool} (h : Takes s fn c = true) (hask : s.commandAsk fn (some c) = none)
    (hx : exec i s = hostCommand fn c true ok s) (hok : ok = true) (hp : s.process fn c true = (t, st)) :
    Answers i s (t.cmdStat fn.port (cmdTag c) st) fn c st := by
  have hnext : exec i s = .next (t.cmdStat fn.port (cmdTag c) st) := by
    rw [hx, hostCommand, if_pos hok, submit_of_takes h hask, State.consume, hp]
  refine ⟨hnext, ?_, ?_⟩
  · rw [State.cmdStat, State.port_onPort]
  · rw [State.cmdStat, State.port_onPort]

end

/-- What a command that has its entry comes to (R441 steps 4 and 5). -/
def State.answerTo (s : State) (fn : Fn) (c : BitVec 512) (dmaOk : Bool) : Answer :=
  if namesContext (cmdType c) && !isAdopt fn c then
    (match s.namedContext fn c with
     | none => (s.recorded fn c).denied (s.entryRef fn) .noContext
     | some k => (s.recorded fn c).contextCommand (s.entryRef fn) k c)
  else (s.recorded fn c).plainCommand (s.entryRef fn) fn c dmaOk

theorem process_of_takes {s t : State} {fn : Fn} {c : BitVec 512} {st : Status} {dmaOk : Bool} (h : Takes s fn c = true)
    (ha : s.answerTo fn c dmaOk = some (t, st)) : s.process fn c dmaOk = (t, st) := by
  unfold State.process
  rw [rejects_of_takes h]
  show (match s.answerTo fn c dmaOk with | none => (s, Status.badCommand) | some x => x) = _
  rw [ha]

section

variable {s : State} {n : Nat} {c : BitVec 512} {dmaOk : Bool}

theorem answerTo_context {k : Nat} (hnames : namesContext (cmdType c) = true) (hk : s.namedContext (.vf n) c = some k) :
    s.answerTo (.vf n) c dmaOk = (s.recorded (.vf n) c).contextCommand (s.entryRef (.vf n)) k c := by
  unfold State.answerTo
  rw [hnames, hk]
  rfl

theorem answerTo_noContext (hnames : namesContext (cmdType c) = true) (hk : s.namedContext (.vf n) c = none) :
    s.answerTo (.vf n) c dmaOk = (s.recorded (.vf n) c).denied (s.entryRef (.vf n)) .noContext := by
  unfold State.answerTo
  rw [hnames, hk]
  rfl

theorem answerTo_create (htype : cmdType c = 3) :
    s.answerTo (.vf n) c dmaOk = (s.recorded (.vf n) c).cmdCreate (s.entryRef (.vf n)) n c := by
  unfold State.answerTo State.plainCommand
  rw [htype]
  rfl

end

end Sys2Proof.Machine
end

section
/-! PROOFS. Commands that act on a context as a whole: what each comes to by the state of its context (R192-R194, R371). -/

namespace Sys2Proof.Machine

section

variable {s : State} {r : JRef} {k : Nat} {c : BitVec 512} {x : Context}

theorem State.context_of_find? (hx : Cells.find? s.contexts k = some x) : s.context k = x := Cells.get_of_find? hx

theorem State.context_onContext (hx : Cells.find? s.contexts k = some x) (f : Context → Context) :
    (s.onContext k f).context k = f x := by
  rw [← State.context_of_find? hx]
  exact Cells.get_adjust_listed s.contexts k f (by rw [hx]; rfl)

/-! ## LAUNCH (R192) -/

theorem cmdLaunch_badVa (h : (cmdOp c 0).toNat % 64 ≠ 0 ∨ field (cmdOp c 0) 63 57 ≠ 0) :
    s.cmdLaunch r k c = s.denied r .headerFault :=
  if_pos (by rcases h with h | h <;> simp [headerVaOk, h])

theorem headerVaOk_of (h64 : (cmdOp c 0).toNat % 64 = 0) (h57 : field (cmdOp c 0) 63 57 = 0) :
    headerVaOk (cmdOp c 0) = true := by
  simp [headerVaOk, h64, h57]

theorem cmdLaunch_unread {s2 : State} (hva : headerVaOk (cmdOp c 0) = true)
    (hh : s.hostHeader k (cmdOp c 0) = (s2, none)) : s.cmdLaunch r k c = s2.denied r .headerFault := by
  simp [State.cmdLaunch, hva, hh]

section

variable {s2 : State} {h : Header} {lab : Label}

theorem cmdLaunch_invalid (hva : headerVaOk (cmdOp c 0) = true)
    (hh : s.hostHeader k (cmdOp c 0) = (s2, some (h, lab))) (hv : h.valid = false) :
    s.cmdLaunch r k c = s2.denied r .headerInvalid := by
  simp [State.cmdLaunch, hva, hh, hv]

theorem cmdLaunch_enters (hva : headerVaOk (cmdOp c 0) = true)
    (hh : s.hostHeader k (cmdOp c 0) = (s2, some (h, lab))) (hv : h.valid = true) (hnbv : h.nbv < 2)
    (hfree : s2.storeFree (s2.context k).vf = true) :
    s.cmdLaunch r k c = some ((s2.enterLaunch k h (cmdOp c 0) r.1 r.2 lab []).journalSet r .pending .ok
      (some (s2.context k).serial), .ok) := by
  simp [State.cmdLaunch, hva, hh, hv, Nat.not_le.mpr hnbv, hfree]

end

/-- The launch that enters the store for a command. -/
def State.commandedLaunch (s : State) (r : JRef) (k : Nat) (c : BitVec 512) (h : Header) (lab : Label) : Launch :=
  { ctx := k, hdr := h, hdrVa := cmdOp c 0, serial := (s.context k).serial, port := r.1, jseq := r.2, w0Lab := lab, waits := []
    ready := if h.waitMask &&& (s.context k).events = h.waitMask then some s.nextId else none }

theorem State.enterLaunch_find? (h : Header) (lab : Label) :
    Cells.find? (s.enterLaunch k h (cmdOp c 0) r.1 r.2 lab []).launches s.nextId =
      some (s.commandedLaunch r k c h lab) :=
  (Cells.find?_put _ _ _ _).trans (if_pos rfl)

/-! ## EVSET (R193) -/

theorem State.settleEvents_nil (h : s.deferred = []) : s.settleEvents = { s with deferred := [] } := by
  unfold State.settleEvents
  rw [h]
  rfl

/-- The event operation that a command names: it waits for nothing. -/
def hostEvent (k : Nat) (c : BitVec 512) : EventOp :=
  { ctx := k, bit := field (cmdOp c 0) 7 0, clr := bit (cmdOp c 0) 8, team := 0, warp := 0, ids := [] }

theorem cmdEvset_eq (hd : s.deferred = []) :
    s.cmdEvset r k c = some ((s.didEvent (hostEvent k c)).journalSet r .completed .ok none, .ok) := by
  have hd' : (s.eventBit k (field (cmdOp c 0) 7 0) (bit (cmdOp c 0) 8)).deferred = [] := hd
  rw [State.cmdEvset, State.settleEvents_nil hd']
  rfl

/-! ## CONTEXT_CREATE (R194) -/

theorem cmdCreate_unbound {n : Nat} (hv : (s.vf n).ovalid = false) : s.cmdCreate r n c = s.denied r .denied :=
  if_pos (by rw [hv]; rfl)

/-- The context that a CONTEXT_CREATE names, at its start. -/
def createdContext (n m : Nat) (c : BitVec 512) : Context :=
  { vf := n, num := m, root := (cmdOp c 0).toNat, fq := (cmdOp c 1).toNat }

/-- The state with a new context. -/
def State.withContext (s : State) (n m : Nat) (c : BitVec 512) : State :=
  { s with contexts := Cells.put s.contexts (contextKey n m) (createdContext n m c) }

theorem cmdCreate_free {n m : Nat} (hv : (s.vf n).ovalid = true) (hm : s.freeNumber n = some m) :
    s.cmdCreate r n c = some (((s.withContext n m c).journalCtx r m).journalSet r .completed .ok (some m), .ok) := by
  unfold State.cmdCreate
  rw [if_neg (by simp [hv]), hm]
  rfl

/-! ## PREEMPT and RESUME (R362, R371) -/

theorem cmdPreempt_live (hr : s.rolledBack k = false) (hst : (s.context k).st = .live) :
    s.cmdPreempt r k = some (s.onContext k (fun c => { c with st := .saving, saveJ := c.saveJ ++ [r] }), .ok) := by
  simp [State.cmdPreempt, hr, hst]

theorem cmdPreempt_saved (hr : s.rolledBack k = false) (hst : (s.context k).st = .saved)
    (hf : (s.context k).suspendedFrom ≠ some .restoring) :
    s.cmdPreempt r k = some ((s.onContext k (fun c => { c with suspendedFrom := none })).journalSet r .completed .ok (some 0),
      .ok) := by
  simp [State.cmdPreempt, hr, hst, hf, State.done]

theorem cmdResume_live (hr : s.rolledBack k = false) (hst : (s.context k).st = .live) :
    s.cmdResume r k = some (s.journalSet r .completed .ok none, .ok) := by
  simp [State.cmdResume, hr, hst, State.done]

theorem cmdResume_saved (hr : s.rolledBack k = false) (hst : (s.context k).st = .saved) (hs : s.ctxSuspended k = false) :
    s.cmdResume r k = some ((s.onContext k (fun c => { c with st := .restoring, resumeJ := c.resumeJ ++ [r] })).journalSet r
      .running .ok none, .ok) := by
  simp [State.cmdResume, hr, hst, hs, State.goesOn]

end

end Sys2Proof.Machine
end

section
/-! PROOFS. LAUNCH, EVSET, CONTEXT_CREATE, PREEMPT and RESUME as a port takes them (R190, R192-R195, R371; O42). -/

namespace Sys2Proof.Machine

/-! ## The command that a type stands for -/

section

variable {s : State} {r : JRef} {k : Nat} {c : BitVec 512}

theorem contextCommand_launch (h : cmdType c = 1) : s.contextCommand r k c = s.cmdLaunch r k c := by
  simp only [State.contextCommand, h]
theorem contextCommand_evset (h : cmdType c = 2) : s.contextCommand r k c = s.cmdEvset r k c := by
  simp only [State.contextCommand, h]
theorem contextCommand_bindOff (h : cmdType c = 4) : s.contextCommand r k c = s.cmdBindOff r k := by
  simp only [State.contextCommand, h]
theorem contextCommand_preempt (h : cmdType c = 6) : s.contextCommand r k c = s.cmdPreempt r k := by
  simp only [State.contextCommand, h]
theorem contextCommand_resume (h : cmdType c = 7) : s.contextCommand r k c = s.cmdResume r k := by
  simp only [State.contextCommand, h]

end

/-! ## Answers of a port -/

section

variable {s t : State} {n k : Nat} {c : BitVec 512} {i : Instr} {ok : Bool} {st : Status}

/-- A command for a context that is there answers with what it does for that context. -/
theorem answers_of_contextCommand (h : Takes s (.vf n) c = true) (hask : s.commandAsk (.vf n) (some c) = none)
    (hnames : namesContext (cmdType c) = true) (hk : s.namedContext (.vf n) c = some k)
    (hx : exec i s = hostCommand (.vf n) c true ok s) (hok : ok = true)
    (ha : (s.recorded (.vf n) c).contextCommand (s.entryRef (.vf n)) k c = some (t, st)) :
    Answers i s (t.cmdStat (Fn.vf n).port (cmdTag c) st) (.vf n) c st :=
  answers_of_process h hask hx hok (process_of_takes h ((answerTo_context hnames hk).trans ha))

/-- The same where the command's entry changes with its effect. -/
theorem steers_of_contextCommand {u : State} {js : JState} {st' : Status} {detail : Option Nat}
    (h : Takes s (.vf n) c = true) (hask : s.commandAsk (.vf n) (some c) = none)
    (hnames : namesContext (cmdType c) = true) (hk : s.namedContext (.vf n) c = some k)
    (hx : exec i s = hostCommand (.vf n) c true ok s) (hok : ok = true)
    (ha : (s.recorded (.vf n) c).contextCommand (s.entryRef (.vf n)) k c =
      some (u.journalSet (s.entryRef (.vf n)) js st' detail, st))
    (hu : u.ports = (s.recorded (.vf n) c).ports) :
    ∃ t, Answers i s t (.vf n) c st ∧ Recorded s t (.vf n) c js st' ∧ JournalMove u t := by
  have hnew : Recorded s u (.vf n) c .accepted .ok :=
    (recorded_recorded s _ c).of_port (congrArg (fun p => Cells.get p (Fn.vf n).port) hu)
  exact ⟨_, answers_of_contextCommand h hask hnames hk hx hok ha, (hnew.journalSet rfl _ _ _).cmdStat _ _,
    (JournalMove.journalSet u _ _ _ _).trans (.cmdStat _ _ _ _)⟩

/-- A command for a context that is not there fails with NO_CONTEXT. -/
theorem noContext_of_takes (h : Takes s (.vf n) c = true) (hask : s.commandAsk (.vf n) (some c) = none)
    (hnames : namesContext (cmdType c) = true) (hk : s.namedContext (.vf n) c = none)
    (hx : exec i s = hostCommand (.vf n) c true ok s) (hok : ok = true) :
    ∃ t, Answers i s t (.vf n) c .noContext ∧ Recorded s t (.vf n) c .failed .noContext :=
  ⟨_, answers_of_process h hask hx hok (process_of_takes h (answerTo_noContext hnames hk)),
    ((recorded_recorded s _ c).journalSet rfl _ _ _).cmdStat _ _⟩

end

/-! ## The commands -/

section

variable {s : State} {n : Nat} {c : BitVec 512} (h : Takes s (.vf n) c = true)

include h

theorem contextCreate_unbound (htype : cmdType c = 3) (hv : (s.vf n).ovalid = false) :
    ∃ t, Answers (.contextCreate (.vf n) c) s t (.vf n) c .denied ∧ Recorded s t (.vf n) c .failed .denied ∧
      t.contexts = s.contexts := by
  refine ⟨_, answers_of_process h (commandAsk_of_type (by simp [htype])) rfl (by simp [htype])
    (process_of_takes h ((answerTo_create htype).trans (cmdCreate_unbound hv))),
    ((recorded_recorded s _ c).journalSet rfl _ _ _).cmdStat _ _, ?_⟩
  exact (JournalMove.journalSet (s.recorded (.vf n) c) _ _ _ _).same State.contexts (fun _ _ _ => rfl)

theorem contextCreate_created {m : Nat} (htype : cmdType c = 3) (hv : (s.vf n).ovalid = true)
    (hm : s.freeNumber n = some m) :
    ∃ t, Answers (.contextCreate (.vf n) c) s t (.vf n) c .ok ∧ Recorded s t (.vf n) c .completed .ok ∧
      Cells.find? t.contexts (contextKey n m) = some (createdContext n m c) := by
  have hnew : Recorded s ((s.recorded (.vf n) c).withContext n m c) (.vf n) c .accepted .ok :=
    (recorded_recorded s _ c).of_port rfl
  refine ⟨_, answers_of_process h (commandAsk_of_type (by simp [htype])) rfl (by simp [htype])
    (process_of_takes h ((answerTo_create htype).trans (cmdCreate_free hv hm))),
    (((hnew.journalCtx m).journalSet rfl _ _ _).cmdStat _ _), ?_⟩
  refine ((JournalMove.journalSet _ _ _ _ _).same (fun u => Cells.find? u.contexts (contextKey n m))
    (fun _ _ _ => rfl)).trans ?_
  exact (Cells.find?_put _ _ _ _).trans (if_pos rfl)

variable {k : Nat} {x : Context} (hk : s.namedContext (.vf n) c = some k)

include hk

theorem launchCmd_badVa (htype : cmdType c = 1) (hask : s.commandAsk (.vf n) (some c) = none)
    (hva : (cmdOp c 0).toNat % 64 ≠ 0 ∨ field (cmdOp c 0) 63 57 ≠ 0) :
    ∃ t, Answers (.launchCmd (.vf n) c) s t (.vf n) c .headerFault ∧ Recorded s t (.vf n) c .failed .headerFault ∧
      t.launches = s.launches := by
  obtain ⟨t, ha, hr, hm⟩ := steers_of_contextCommand (i := .launchCmd (.vf n) c) h hask (by rw [htype]; rfl) hk rfl
    (by simp [htype]) ((contextCommand_launch htype).trans (cmdLaunch_badVa hva)) rfl
  exact ⟨t, ha, hr, hm.same State.launches (fun _ _ _ => rfl)⟩

/-- A LAUNCH whose header fails its reads or its check leaves the store as it was. -/
theorem launchCmd_refused {s2 : State} {st : Status} (htype : cmdType c = 1) (hask : s.commandAsk (.vf n) (some c) = none)
    (hl : (s.recorded (.vf n) c).cmdLaunch (s.entryRef (.vf n)) k c = s2.denied (s.entryRef (.vf n)) st) :
    ∃ t, Answers (.launchCmd (.vf n) c) s t (.vf n) c st ∧ t.launches = s2.launches := by
  refine ⟨_, answers_of_contextCommand h hask (by rw [htype]; rfl) hk rfl (by simp [htype])
    ((contextCommand_launch htype).trans hl), ?_⟩
  exact (JournalMove.journalSet s2 _ _ _ _).same State.launches (fun _ _ _ => rfl)

theorem launchCmd_enters {s2 : State} {hd : Header} {lab : Label} (htype : cmdType c = 1)
    (hask : s.commandAsk (.vf n) (some c) = none) (hva : headerVaOk (cmdOp c 0) = true)
    (hh : (s.recorded (.vf n) c).hostHeader k (cmdOp c 0) = (s2, some (hd, lab))) (hv : hd.valid = true) (hnbv : hd.nbv < 2)
    (hfree : s2.storeFree (s2.context k).vf = true) :
    ∃ t l, Answers (.launchCmd (.vf n) c) s t (.vf n) c .ok ∧ Cells.find? t.launches s2.nextId = some l ∧ l.ctx = k ∧
      l.hdr = hd ∧ l.w0Lab = lab ∧ l.serial = (s2.context k).serial ∧ l.placed = 0 ∧
      (l.ready.isSome = true ↔ hd.waitMask &&& (s2.context k).events = hd.waitMask) := by
  refine ⟨_, s2.commandedLaunch (s.entryRef (.vf n)) k c hd lab, answers_of_contextCommand h hask (by rw [htype]; rfl) hk rfl
    (by simp [htype]) ((contextCommand_launch htype).trans (cmdLaunch_enters hva hh hv hnbv hfree)), ?_, rfl, rfl, rfl, rfl,
    rfl, Option.isSome_ite⟩
  exact ((JournalMove.journalSet _ _ _ _ _).same (fun u => Cells.find? u.launches s2.nextId) (fun _ _ _ => rfl)).trans
    (s2.enterLaunch_find? hd lab)

variable (hx : Cells.find? s.contexts k = some x)

include hx

theorem evset_events {i : Instr} {ok : Bool} (htype : cmdType c = 2) (hd : s.deferred = [])
    (hi : exec i s = hostCommand (.vf n) c true ok s) (hok : ok = true) :
    ∃ t, Answers i s t (.vf n) c .ok ∧ Recorded s t (.vf n) c .completed .ok ∧
      (t.context k).events =
        if bit (cmdOp c 0) 8 then x.events &&& ~~~(1#256 <<< field (cmdOp c 0) 7 0)
        else x.events ||| 1#256 <<< field (cmdOp c 0) 7 0 := by
  obtain ⟨t, ha, hr, hm⟩ := steers_of_contextCommand (i := i) h (commandAsk_of_type (by simp [htype])) (by rw [htype]; rfl) hk hi
    hok ((contextCommand_evset htype).trans (cmdEvset_eq hd)) rfl
  refine ⟨t, ha, hr, (hm.same (fun u => (u.context k).events) (fun _ _ _ => rfl)).trans ?_⟩
  rw [← State.context_of_find? hx]
  exact State.didEvent_events (s := s.recorded (.vf n) c) (d := hostEvent k c) (congrArg Option.isSome hx)

theorem preempt_live (htype : cmdType c = 6) (hr : s.rolledBack k = false) (hst : x.st = .live) :
    ∃ t, Answers (.preempt (.vf n) c) s t (.vf n) c .ok ∧ Recorded s t (.vf n) c .accepted .ok ∧
      (t.context k).st = .saving := by
  rw [← State.context_of_find? hx] at hst
  refine ⟨_, answers_of_contextCommand h (commandAsk_of_type (by simp [htype])) (by rw [htype]; rfl) hk rfl (by simp [htype])
    ((contextCommand_preempt htype).trans (cmdPreempt_live hr hst)),
    ((recorded_recorded s _ c).of_port rfl).cmdStat _ _, ?_⟩
  refine ((JournalMove.cmdStat _ _ _ _).same (fun u => (u.context k).st) (fun _ _ _ => rfl)).trans ?_
  exact (congrArg Context.st (State.context_onContext (s := s.recorded (.vf n) c) hx _)).trans rfl

theorem preempt_saved (htype : cmdType c = 6) (hr : s.rolledBack k = false) (hst : x.st = .saved)
    (hf : x.suspendedFrom ≠ some .restoring) :
    ∃ t, Answers (.preempt (.vf n) c) s t (.vf n) c .ok ∧ Recorded s t (.vf n) c .completed .ok ∧
      (t.context k).st = .saved := by
  rw [← State.context_of_find? hx] at hst hf
  obtain ⟨t, ha, hr, hm⟩ := steers_of_contextCommand (i := .preempt (.vf n) c) h (commandAsk_of_type (by simp [htype]))
    (by rw [htype]; rfl) hk rfl (by simp [htype]) ((contextCommand_preempt htype).trans (cmdPreempt_saved hr hst hf)) rfl
  refine ⟨t, ha, hr, (hm.same (fun u => (u.context k).st) (fun _ _ _ => rfl)).trans ?_⟩
  rw [State.context_of_find? hx] at hst
  exact (congrArg Context.st (State.context_onContext (s := s.recorded (.vf n) c) hx _)).trans hst

theorem resume_live (htype : cmdType c = 7) (hr : s.rolledBack k = false) (hst : x.st = .live) :
    ∃ t, Answers (.resume (.vf n) c) s t (.vf n) c .ok ∧ Recorded s t (.vf n) c .completed .ok ∧
      t.contexts = s.contexts := by
  rw [← State.context_of_find? hx] at hst
  obtain ⟨t, ha, hr, hm⟩ := steers_of_contextCommand (i := .resume (.vf n) c) h (commandAsk_of_type (by simp [htype]))
    (by rw [htype]; rfl) hk rfl (by simp [htype]) ((contextCommand_resume htype).trans (cmdResume_live hr hst)) rfl
  exact ⟨t, ha, hr, hm.same State.contexts (fun _ _ _ => rfl)⟩

theorem resume_saved (htype : cmdType c = 7) (hr : s.rolledBack k = false) (hst : x.st = .saved)
    (hs : s.ctxSuspended k = false) :
    ∃ t, Answers (.resume (.vf n) c) s t (.vf n) c .ok ∧ Recorded s t (.vf n) c .running .ok ∧
      (t.context k).st = .restoring := by
  rw [← State.context_of_find? hx] at hst
  obtain ⟨t, ha, hr, hm⟩ := steers_of_contextCommand (i := .resume (.vf n) c) h (commandAsk_of_type (by simp [htype]))
    (by rw [htype]; rfl) hk rfl (by simp [htype]) ((contextCommand_resume htype).trans (cmdResume_saved hr hst hs)) rfl
  refine ⟨t, ha, hr, (hm.same (fun u => (u.context k).st) (fun _ _ _ => rfl)).trans ?_⟩
  exact (congrArg Context.st (State.context_onContext (s := s.recorded (.vf n) c) hx _)).trans rfl

end

end Sys2Proof.Machine
end

section
/-! PROOFS. Moving lines, zeroing frames and taking teams off their cores draw no number, change no context and bring no context
anything on its way (R215, R219, R374). -/

namespace Sys2Proof.Machine

/-! ## What brings no new work -/

theorem State.unbound_iff (s : State) (k : Nat) : s.unbound k = true ↔
    (∀ a ∈ s.accesses, a.ctx ≠ k) ∧ ∀ c ∈ s.cores, ∀ ch ∈ c.2.chans, ∀ x ∈ ch.2.xfers, x.ctx ≠ k := by
  simp [State.unbound]

/-- No number was drawn, every context stayed, and a context that had nothing on its way has nothing on its way. -/
structure NoNewWork (s t : State) : Prop where
  nextId : t.nextId = s.nextId
  contexts : t.contexts = s.contexts
  unbound : ∀ k, s.unbound k = true → t.unbound k = true

theorem NoNewWork.refl (s : State) : NoNewWork s s := ⟨rfl, rfl, fun _ h => h⟩

theorem NoNewWork.trans {s t u : State} (h : NoNewWork s t) (g : NoNewWork t u) : NoNewWork s u :=
  ⟨g.nextId.trans h.nextId, g.contexts.trans h.contexts, fun k hk => g.unbound k (h.unbound k hk)⟩

theorem NoNewWork.foldl {α : Type} {f : State → α → State} (hf : ∀ s x, NoNewWork s (f s x)) (l : List α) (s : State) :
    NoNewWork s (l.foldl f s) :=
  List.foldlRecOn l f (motive := NoNewWork s) (.refl s) (fun _ h x _ => h.trans (hf _ x))

theorem NoNewWork.ite {p : Prop} [Decidable p] {s t u : State} (h : NoNewWork s t) (g : NoNewWork s u) :
    NoNewWork s (if p then t else u) := by
  split
  · exact h
  · exact g

/-- Accesses were dropped at most, and every core's channels stood before. -/
theorem NoNewWork.of_chans {s t : State} (hn : t.nextId = s.nextId) (hc : t.contexts = s.contexts)
    (ha : ∀ a ∈ t.accesses, a ∈ s.accesses) (hx : ∀ c ∈ t.cores, c.2.chans = [] ∨ ∃ d ∈ s.cores, c.2.chans = d.2.chans) :
    NoNewWork s t := by
  refine ⟨hn, hc, fun k hk => ?_⟩
  rw [State.unbound_iff] at hk ⊢
  obtain ⟨hacc, hxf⟩ := hk
  refine ⟨fun a h => hacc a (ha a h), fun c h ch hch x hmem => ?_⟩
  rcases hx c h with e | ⟨d, hd, e⟩
  · rw [e] at hch
    exact absurd hch List.not_mem_nil
  · exact hxf d hd ch (e ▸ hch) x hmem

theorem NoNewWork.of_same {s t : State} (hn : t.nextId = s.nextId) (hc : t.contexts = s.contexts)
    (ha : t.accesses = s.accesses) (hx : t.cores = s.cores) : NoNewWork s t :=
  .of_chans hn hc (fun _ h => ha ▸ h) (fun c h => .inr ⟨c, hx ▸ h, rfl⟩)

theorem NoNewWork.onCore (s : State) (c : Nat) {f : Core → Core} (hf : ∀ x, (f x).chans = x.chans := by intro _; rfl) :
    NoNewWork s (s.onCore c f) := by
  refine .of_chans rfl rfl (fun _ h => h) (fun d hd => ?_)
  rcases Cells.mem_set hd with rfl | hd
  · rcases Cells.get_mem s.cores c with h | h
    · exact .inr ⟨_, h, hf _⟩
    · exact .inl ((hf _).trans (congrArg Core.chans h))
  · exact .inr ⟨d, hd, rfl⟩

/-- Every core changes, but no channel. -/
theorem NoNewWork.of_map {s t : State} {f : Core → Core} (hf : ∀ x, (f x).chans = x.chans) (hn : t.nextId = s.nextId)
    (hc : t.contexts = s.contexts) (ha : t.accesses = s.accesses) (hx : t.cores = s.cores.map (fun c => (c.1, f c.2))) :
    NoNewWork s t := by
  refine .of_chans hn hc (fun _ h => ha ▸ h) (fun c h => ?_)
  rw [hx] at h
  obtain ⟨d, hd, rfl⟩ := List.mem_map.mp h
  exact .inr ⟨d, hd, hf _⟩

/-! ## Lines of L2, host halves and the home -/

theorem NoNewWork.charge (s : State) (a k inst n : Nat) : NoNewWork s (s.charge a k inst n) := .of_same rfl rfl rfl rfl

theorem NoNewWork.chargeTo (s : State) (a : Option Nat) (k inst n : Nat) : NoNewWork s (s.chargeTo a k inst n) := by
  cases a with
  | none => exact .refl s
  | some a => exact .charge s a k inst n

theorem NoNewWork.onDie (s : State) (d : Nat) (f : Die → Die) : NoNewWork s (s.onDie d f) := .of_same rfl rfl rfl rfl

theorem NoNewWork.refuseWriteBack (s : State) (half : Nat) : NoNewWork s (s.refuseWriteBack half) :=
  .ite (.of_same rfl rfl rfl rfl) (.of_same rfl rfl rfl rfl)

theorem NoNewWork.hostWriteBack (s : State) (half : Nat) : NoNewWork s (s.hostWriteBack half) :=
  .ite (.of_same rfl rfl rfl rfl) (.refl s)

theorem NoNewWork.dropCopies (s : State) (line : Nat) : NoNewWork s (s.dropCopies line) :=
  .of_map (f := fun c => { c with l1 := Cells.erase c.l1 line }) (fun _ => rfl) rfl rfl rfl rfl

theorem NoNewWork.hostDrop (s : State) (half : Nat) : NoNewWork s (s.hostDrop half) :=
  .ite (.refuseWriteBack s half)
    (((NoNewWork.hostWriteBack s half).trans (.dropCopies _ _)).trans (.of_same rfl rfl rfl rfl))

theorem NoNewWork.l2Evict (s : State) (act : Option Nat) (l : L2Line) : NoNewWork s (s.l2Evict act l) := by
  refine .ite ((NoNewWork.ite (.chargeTo s act 0 _ 2) (.refl s)).trans (.onDie _ _ _)) ?_
  have home := (NoNewWork.hostDrop s (2 * (l.line - 2 ^ 46))).trans (.hostDrop _ (2 * (l.line - 2 ^ 46) + 1))
  exact .ite (home.trans (.onDie _ _ _)) home

theorem NoNewWork.l2Room (s : State) (act : Option Nat) (line : Nat) : NoNewWork s (s.l2Room act line) :=
  .foldl (fun s l => .ite (.refl s) (.l2Evict s act l)) _ s

theorem NoNewWork.l2Touch (s : State) (who : Who) (line : Nat) (write : Bool) : NoNewWork s (s.l2Touch who line write) := by
  unfold State.l2Touch
  exact (NoNewWork.ite (.refl s) ((NoNewWork.ite (.chargeTo s who.act 0 _ 2) (.refl s)).trans (.l2Room _ _ _))).trans
    (.onDie _ _ _)

theorem NoNewWork.l2Reach (s : State) (who : Who) (p : Place) (n : Nat) (write : Bool) :
    NoNewWork s (s.l2Reach who p n write) := by
  cases p with
  | dev _ | host _ _ => exact .foldl (fun s l => .l2Touch s who l write) _ s
  | peer _ _ _ | scr _ _ => exact .refl s

theorem NoNewWork.hostShare (s : State) (half : Nat) : NoNewWork s (s.hostShare half) :=
  .ite (.of_same rfl rfl rfl rfl) (.refl s)

theorem NoNewWork.hostOwn (s : State) (half : Nat) : NoNewWork s (s.hostOwn half) :=
  (NoNewWork.hostShare s half).trans (.ite (.of_same rfl rfl rfl rfl) (.refl _))

theorem NoNewWork.hostGet (s : State) (p : Place) (n : Nat) (own : Bool) (who : Who) :
    NoNewWork s (s.hostGet p n own who) := by
  cases p with
  | dev _ | peer _ _ _ | scr _ _ => exact .refl s
  | host v h =>
    have held : NoNewWork s ((halvesOf h n).foldl (fun s k => if own then s.hostOwn k else s.hostShare k) s) :=
      .foldl (fun t k => .ite (.hostOwn t k) (.hostShare t k)) _ s
    exact held.trans (.l2Reach _ who (.host v h) n own)

theorem NoNewWork.writeHome (s : State) (p : Place) (n x : Nat) (lab : Label) (who : Who) :
    NoNewWork s (s.writeHome p n x lab who) := by
  cases p with
  | dev pa =>
    have noted : NoNewWork s (s.noteWrite pa) := .of_same rfl rfl rfl rfl
    exact (noted.trans (.l2Reach _ _ _ _ _)).trans (.of_same rfl rfl rfl rfl)
  | host v h =>
    have data : NoNewWork s { s with hostData := Cells.writeLE s.hostData h n x } := .of_same rfl rfl rfl rfl
    refine data.trans (.foldl (fun _ _ => ?_) (halvesOf h n) _)
    exact .of_same rfl rfl rfl rfl
  | peer _ _ _ => exact .of_same rfl rfl rfl rfl
  | scr t o => exact .ite (.refl s) (.of_same rfl rfl rfl rfl)

/-! ## Lines of an L1 -/

theorem NoNewWork.l1Write (s : State) (core key : Nat) (bytes : List Byte) (lab : Label) :
    NoNewWork s (s.l1Write core key bytes lab) := .onCore s core

theorem NoNewWork.privBack (s : State) (line : Nat) (l : L1Line) : NoNewWork s (s.privBack line l) :=
  .foldl (fun s _ => .ite (((NoNewWork.hostGet s _ _ _ _).trans (.writeHome _ _ _ _ _ _)).trans
    (.foldl (fun t c => .l1Write t c _ _ _) _ _)) (.refl s)) _ s

theorem NoNewWork.writeBackLocal (s : State) (core : Nat) (pick : Nat → Bool) : NoNewWork s (s.writeBackLocal core pick) := by
  unfold State.writeBackLocal
  refine .foldl (fun t l => ?_) _ s
  have erased (u : State) : NoNewWork u (u.onCore core (fun c => { c with l1 := Cells.erase c.l1 l.1 })) := .onCore u core
  exact (NoNewWork.privBack t _ l.2).trans (erased _)

theorem NoNewWork.l1Put (s : State) (core key : Nat) (l : L1Line) : NoNewWork s (s.l1Put core key l) := by
  have put (t : State) : NoNewWork t (t.onCore core (fun c => { c with
      l1 := Cells.put c.l1 key { l with gen := t.genOf core } })) := .onCore t core
  refine NoNewWork.trans (.ite (.refl s) ?_) (put _)
  split
  · exact .refl s
  · rename_i v _
    have erased : NoNewWork s (s.onCore core (fun c => { c with l1 := Cells.erase c.l1 v.1 })) := .onCore s core
    exact .ite erased (erased.trans (.privBack _ _ _))

theorem NoNewWork.l1Fill (s : State) (core : Nat) (p : Place) (mark : Evict) (who : Who) :
    NoNewWork s (s.l1Fill core p mark who) := by
  have read := (NoNewWork.hostGet s (placeOfLine p.lineKey 0) 128 false who).trans (.l2Reach _ who p 1 false)
  refine read.trans (NoNewWork.trans ?_ (.l1Put _ core p.lineKey _))
  exact .of_same rfl rfl rfl rfl

theorem NoNewWork.wakeCore (s : State) (core : Nat) : NoNewWork s (s.wakeCore core) := by
  unfold State.wakeCore
  split
  · exact .refl s
  · have awake : NoNewWork s (s.onCore core (fun c => { c with sleep := none })) := .onCore s core
    refine awake.trans (.ite (.onCore _ core) (.foldl (fun t l => ?_) _ _))
    split
    · exact .onCore t core
    · split
      · exact .l1Fill _ _ _ _ _
      · exact .refl t

/-! ## Frames -/

theorem NoNewWork.zeroRange (s : State) (base n : Nat) : NoNewWork s (s.zeroRange base n) :=
  .of_map (f := fun c => { c with
    l1 := Cells.clear (Cells.clear c.l1 (base / 128) (n / 128)) (privKey (base / 128)) (n / 128) })
    (fun _ => rfl) rfl rfl rfl rfl

theorem NoNewWork.zeroFrame (s : State) (frame : Nat) : NoNewWork s (s.zeroFrame frame) :=
  NoNewWork.trans (t := s.noteWrite (4096 * frame)) (.of_same rfl rfl rfl rfl) (.zeroRange _ _ _)

theorem NoNewWork.freeFrames (s : State) (vf : Nat) (frames : List Nat) : NoNewWork s (s.freeFrames vf frames) :=
  NoNewWork.trans (.foldl .zeroFrame frames s) (.of_same rfl rfl rfl rfl)

theorem NoNewWork.dropGroup (s : State) (key : Nat) : NoNewWork s (s.dropGroup key) := by
  unfold State.dropGroup
  split
  · exact .refl s
  · exact ((NoNewWork.freeFrames s _ _).trans (.foldl (fun t f => .freeFrames t _ _) _ _)).trans (.of_same rfl rfl rfl rfl)

theorem NoNewWork.dropGroupsOf (s : State) (ctx : Nat) : NoNewWork s (s.dropGroupsOf ctx) := .foldl .dropGroup _ s

/-! ## Teams -/

theorem NoNewWork.stayTeam (s : State) (k : Nat) : NoNewWork s (s.stayTeam k) :=
  .ite (.refl s) (.of_same rfl rfl rfl rfl)

/-- A team leaves with its reads, its late checks and its echoes. -/
theorem NoNewWork.eraseTeam (s : State) (k : Nat) : NoNewWork s { s with
    teams := Cells.erase s.teams k
    accesses := s.accesses.filter (fun a => !(a.team == k && a.op.loads))
    late := s.late.filter (fun l => l.now.team != k)
    echoes := s.echoes.filter (fun e => e.team != k) } :=
  .of_chans rfl rfl (fun _ h => (List.mem_filter.mp h).1) (fun c h => .inr ⟨c, h, rfl⟩)

theorem NoNewWork.removeTeam (s : State) (k : Nat) : NoNewWork s (s.removeTeam k) :=
  ((NoNewWork.stayTeam s k).trans (.onCore _ ((s.stayTeam k).team k).core)).trans (.eraseTeam _ k)

end Sys2Proof.Machine
end

section
/-! PROOFS. Ending a context for good: BIND_OFF of a context with nothing on its way (R361, R374; O42). -/

namespace Sys2Proof.Machine

/-! ## What the steps of a bind-off leave -/

/-- No core holds a translation of a context. -/
def State.untranslated (s : State) (k : Nat) : Prop := ∀ c ∈ s.cores, ∀ e ∈ c.2.tlb, e.ctx ≠ k

/-- Frames were zeroed, translations and contexts dropped: no team moved, no zero byte was written, and no context gained work,
a translation or its entry. -/
structure Clearing (s t : State) : Prop where
  teams : t.teams = s.teams
  zero : ∀ a, Cells.get s.mem a = 0 → Cells.get t.mem a = 0
  unbound : ∀ k, s.unbound k = true → t.unbound k = true
  untranslated : ∀ k, s.untranslated k → t.untranslated k
  gone : ∀ k, Cells.find? s.contexts k = none → Cells.find? t.contexts k = none

theorem Clearing.refl (s : State) : Clearing s s := ⟨rfl, fun _ h => h, fun _ h => h, fun _ h => h, fun _ h => h⟩

theorem Clearing.trans {s t u : State} (h : Clearing s t) (g : Clearing t u) : Clearing s u :=
  ⟨g.teams.trans h.teams, fun a ha => g.zero a (h.zero a ha), fun k hk => g.unbound k (h.unbound k hk),
    fun k hk => g.untranslated k (h.untranslated k hk), fun k hk => g.gone k (h.gone k hk)⟩

theorem Clearing.foldl {α : Type} {f : State → α → State} (hf : ∀ s x, Clearing s (f s x)) (l : List α) (s : State) :
    Clearing s (l.foldl f s) :=
  List.foldlRecOn l f (motive := Clearing s) (.refl s) (fun _ h x _ => h.trans (hf _ x))

/-- A change that no field named here sees. -/
theorem Clearing.of_same {s t : State} (ht : t.teams = s.teams) (hm : t.mem = s.mem) (ha : t.accesses = s.accesses)
    (hx : t.cores = s.cores) (hc : t.contexts = s.contexts) : Clearing s t := by
  refine ⟨ht, fun a h => hm ▸ h, fun k h => ?_, fun k h => ?_, fun k h => hc ▸ h⟩
  · rw [State.unbound_iff] at h ⊢
    rwa [ha, hx]
  · exact fun c hcore => h c (hx ▸ hcore)

theorem Clearing.of_journalMove {s t : State} (h : JournalMove s t) : Clearing s t := by
  obtain ⟨_, _, rfl⟩ := h
  exact .of_same rfl rfl rfl rfl rfl

theorem Clearing.onVf (s : State) (vf : Nat) (f : Vf → Vf) : Clearing s (s.onVf vf f) := .of_same rfl rfl rfl rfl rfl

/-- The cores change: their channels stay, and their translations are dropped at most. -/
theorem Clearing.of_cores {s t : State} (ht : t.teams = s.teams) (hm : ∀ a, Cells.get s.mem a = 0 → Cells.get t.mem a = 0)
    (ha : t.accesses = s.accesses) (hc : t.contexts = s.contexts) (hn : t.nextId = s.nextId)
    (hx : ∀ c ∈ t.cores, ∃ d ∈ s.cores, c.2.chans = d.2.chans ∧ ∀ e ∈ c.2.tlb, e ∈ d.2.tlb) : Clearing s t := by
  refine ⟨ht, hm, (NoNewWork.of_chans hn hc (fun _ h => ha ▸ h) (fun c h => ?_)).unbound, fun k h c hmem e he => ?_,
    fun k h => hc ▸ h⟩
  · obtain ⟨d, hd, hchans, -⟩ := hx c h
    exact .inr ⟨d, hd, hchans⟩
  · obtain ⟨d, hd, -, htlb⟩ := hx c hmem
    exact h d hd e (htlb e he)

theorem State.mem_zeroRange (s : State) (base n a : Nat) :
    Cells.get (s.zeroRange base n).mem a = if base ≤ a ∧ a < base + n then 0 else Cells.get s.mem a :=
  Cells.get_clear s.mem base n a

theorem Clearing.zeroRange (s : State) (base n : Nat) : Clearing s (s.zeroRange base n) := by
  refine .of_cores rfl (fun a h => ?_) rfl rfl rfl (fun c hmem => ?_)
  · rw [State.mem_zeroRange, h, ite_self]
  · obtain ⟨d, hd, rfl⟩ := List.mem_map.mp hmem
    exact ⟨d, hd, rfl, fun _ he => he⟩

theorem Clearing.zeroFrame (s : State) (frame : Nat) : Clearing s (s.zeroFrame frame) := by
  have noted : Clearing s (s.noteWrite (4096 * frame)) := .of_same rfl rfl rfl rfl rfl
  exact noted.trans (.zeroRange _ _ _)

theorem Clearing.freeFrames (s : State) (vf : Nat) (frames : List Nat) : Clearing s (s.freeFrames vf frames) :=
  (Clearing.foldl .zeroFrame frames s).trans (.onVf _ _ _)

theorem Clearing.dropTranslations (s : State) (k : Nat) : Clearing s (s.dropTranslations k) := by
  refine .of_cores rfl (fun _ h => h) rfl rfl rfl (fun c hmem => ?_)
  obtain ⟨d, hd, rfl⟩ := List.mem_map.mp hmem
  exact ⟨d, hd, rfl, fun _ he => (List.mem_filter.mp he).1⟩

theorem State.dropTranslations_untranslated (s : State) (k : Nat) : (s.dropTranslations k).untranslated k := by
  intro c hmem e he
  obtain ⟨d, -, rfl⟩ := List.mem_map.mp hmem
  simpa using (List.mem_filter.mp he).2

theorem Clearing.dropOwner (s : State) (h : Nat) : Clearing s (s.dropOwner h) := by
  refine .of_cores rfl (fun _ h => h) rfl rfl rfl (fun c hmem => ?_)
  obtain ⟨d, hd, rfl⟩ := List.mem_map.mp hmem
  exact ⟨d, hd, rfl, fun _ he => he⟩

theorem JournalMove.cancelJournal (s : State) (c : Context) (keep : Option JRef) : JournalMove s (s.cancelJournal c keep) := by
  refine .foldl (fun t p => .foldl (fun u e => ?_) p.2.journal t) s.ports s
  split
  · split
    · exact .journalSet _ _ _ _ _
    · exact .journalSet _ _ _ _ _
  · exact .refl u

/-! ## The end of a bind-off -/

/-- The state once the journal entries of an ended context are closed and the frames that it names are zeroed. -/
def State.wiped (s : State) (k : Nat) : State :=
  let c := s.context k
  let t := s.cancelJournal c c.unbindJ
  ((t.localRanges k).foldl (fun (u : State) r => u.zeroRange r.1 r.2) t).zeroRange c.fq 262144

/-- The state once its save frames, its translations and its owner handle are given up. -/
def State.forgotten (s : State) (k : Nat) (c : Context) : State :=
  let t := (s.freeFrames c.vf ((c.save.map (·.frames)).getD [] ++ c.displaced.flatMap (·.frames))).dropTranslations k
  match c.handle with
  | some h => t.dropOwner h
  | none => t

/-- The state once its number is free and its command is answered. -/
def State.closed (s : State) (k : Nat) (c : Context) : State :=
  let t := ({ s with contexts := Cells.erase s.contexts k } : State).unstall c.vf
  match c.unbindJ with
  | some r => t.journalSet r .completed .ok none
  | none => t

theorem State.endBindOff_eq (s : State) (k : Nat) :
    s.endBindOff k = ((s.wiped k).forgotten k (s.context k)).closed k (s.context k) := rfl

section

variable (s : State) (k : Nat) (c : Context)

theorem Clearing.wiped : Clearing s (s.wiped k) := by
  unfold State.wiped
  dsimp only
  have cancelled := Clearing.of_journalMove (.cancelJournal s (s.context k) (s.context k).unbindJ)
  have zeroed (ranges : List (Nat × Nat)) (t : State) := Clearing.foldl (fun t r => .zeroRange t r.1 r.2) ranges t
  exact (cancelled.trans (zeroed _ _)).trans (Clearing.zeroRange _ _ _)

theorem State.wiped_zero {a : Nat} (h : (s.context k).fq ≤ a) (h' : a < (s.context k).fq + 262144) :
    Cells.get (s.wiped k).mem a = 0 :=
  (State.mem_zeroRange _ _ _ _).trans (if_pos ⟨h, h'⟩)

theorem Clearing.forgotten : Clearing s (s.forgotten k c) := by
  have dropped := (Clearing.freeFrames s c.vf ((c.save.map (·.frames)).getD [] ++ c.displaced.flatMap (·.frames))).trans
    (.dropTranslations _ k)
  unfold State.forgotten
  split
  · exact dropped.trans (.dropOwner _ _)
  · exact dropped

theorem State.forgotten_untranslated : (s.forgotten k c).untranslated k := by
  unfold State.forgotten
  split
  · exact (Clearing.dropOwner _ _).untranslated k (State.dropTranslations_untranslated _ k)
  · exact State.dropTranslations_untranslated _ k

/-- The context has its entry no more, and neither has any that had none. -/
theorem Clearing.erased : Clearing s (({ s with contexts := Cells.erase s.contexts k } : State).unstall c.vf) := by
  refine ⟨rfl, fun _ h => h, fun _ h => h, fun _ h => h, fun j h => (Cells.find?_erase s.contexts k j).trans ?_⟩
  rw [h, ite_self]

theorem Clearing.closed : Clearing s (s.closed k c) := by
  unfold State.closed
  split
  · exact (Clearing.erased s k c).trans (.of_journalMove (.journalSet _ _ _ _ _))
  · exact .erased s k c

theorem State.closed_gone : Cells.find? (s.closed k c).contexts k = none := by
  have gone : Cells.find? (({ s with contexts := Cells.erase s.contexts k } : State).unstall c.vf).contexts k = none :=
    (Cells.find?_erase s.contexts k k).trans (if_pos rfl)
  unfold State.closed
  split
  · exact (Clearing.of_journalMove (.journalSet _ _ _ _ _)).gone k gone
  · exact gone

theorem Clearing.endBindOff : Clearing s (s.endBindOff k) :=
  ((Clearing.wiped s k).trans (.forgotten _ k _)).trans (.closed _ k _)

end

/-- What stays of a context whose fault queue stood at an address: no number, nothing in its queue, no translation, no team. -/
structure BoundOff (k fq : Nat) (s : State) : Prop where
  gone : Cells.find? s.contexts k = none
  zero : ∀ a, fq ≤ a → a < fq + 262144 → Cells.get s.mem a = 0
  untranslated : s.untranslated k
  teamless : ∀ y ∈ s.teams, y.2.ctx ≠ k

theorem BoundOff.clearing {k fq : Nat} {s t : State} (h : BoundOff k fq s) (g : Clearing s t) : BoundOff k fq t :=
  ⟨g.gone k h.gone, fun a ha ha' => g.zero a (h.zero a ha ha'), g.untranslated k h.untranslated, g.teams ▸ h.teamless⟩

theorem endBindOff_boundOff {s : State} {k : Nat} (h : ∀ y ∈ s.teams, y.2.ctx ≠ k) :
    BoundOff k (s.context k).fq (s.endBindOff k) := by
  rw [State.endBindOff_eq]
  have forgot := Clearing.forgotten (s.wiped k) k (s.context k)
  have closed := Clearing.closed ((s.wiped k).forgotten k (s.context k)) k (s.context k)
  refine ⟨State.closed_gone _ k _, fun a ha ha' => ?_, closed.untranslated k (State.forgotten_untranslated _ k _), ?_⟩
  · exact closed.zero a (forgot.zero a (s.wiped_zero k ha ha'))
  · rw [closed.teams, forgot.teams, (Clearing.wiped s k).teams]
    exact h

/-! ## Bind-offs that may end -/

/-- What settling does for one context that is unbinding. -/
def State.settleOne (s : State) (k : Nat) : State :=
  let t := (Cells.keys s.cores).foldl (fun (s : State) c => (List.range 4).foldl (fun (s : State) ch =>
    if (s.chanXfers c ch).any (fun x => x.ctx == k) then s.chanFinish c ch else s) s) s
  if t.unbound k then t.endBindOff k else t

theorem State.settleUnbinding_eq (s : State) : s.settleUnbinding =
    ((List.filter (fun (c : Nat × Context) => c.2.unbinding) s.contexts).map (·.1)).foldl State.settleOne s := rfl

theorem State.chanXfers_of_unbound {s : State} {k : Nat} (h : s.unbound k = true) (c ch : Nat) :
    (s.chanXfers c ch).any (fun x => x.ctx == k) = false := by
  obtain ⟨-, hx⟩ := (s.unbound_iff k).mp h
  rw [List.any_eq_false]
  intro x hmem
  rw [beq_iff_eq]
  unfold State.chanXfers at hmem
  rcases Cells.get_mem (s.core c).chans ch with hch | hch
  · rcases Cells.get_mem s.cores c with hc | hc
    · exact hx _ hc _ hch x hmem
    · rw [State.core, hc] at hch
      exact absurd hch List.not_mem_nil
  · rw [hch] at hmem
    exact absurd hmem List.not_mem_nil

theorem State.settleOne_of_unbound {s : State} {k : Nat} (h : s.unbound k = true) : s.settleOne k = s.endBindOff k := by
  have idle : (Cells.keys s.cores).foldl (fun (t : State) c => (List.range 4).foldl (fun (t : State) ch =>
      if (t.chanXfers c ch).any (fun x => x.ctx == k) then t.chanFinish c ch else t) t) s = s := by
    refine List.foldlRecOn _ _ (motive := fun t => t = s) rfl (fun t ht c _ => ?_)
    subst ht
    refine List.foldlRecOn _ _ (motive := fun u => u = t) rfl (fun u hu ch _ => ?_)
    subst hu
    rw [State.chanXfers_of_unbound h, if_neg Bool.false_ne_true]
  unfold State.settleOne
  rw [idle]
  exact if_pos h

/-- A bind-off ends at once where it is the only one and nothing of its context is on its way. -/
theorem settleUnbinding_boundOff {s : State} {k : Nat} (hu : s.unbound k = true) (ht : ∀ y ∈ s.teams, y.2.ctx ≠ k)
    (honly : ∀ y ∈ s.contexts, y.2.unbinding = true → y.1 = k) (hk : ∃ y ∈ s.contexts, y.2.unbinding = true) :
    BoundOff k (s.context k).fq s.settleUnbinding := by
  rw [State.settleUnbinding_eq]
  have keys : ∀ j ∈ (List.filter (fun (c : Nat × Context) => c.2.unbinding) s.contexts).map (·.1), j = k := by
    intro j hj
    obtain ⟨y, hy, rfl⟩ := List.mem_map.mp hj
    obtain ⟨hy, hb⟩ := List.mem_filter.mp hy
    exact honly y hy hb
  have listed : (List.filter (fun (c : Nat × Context) => c.2.unbinding) s.contexts).map (·.1) ≠ [] := by
    obtain ⟨y, hy, hb⟩ := hk
    exact List.ne_nil_of_mem (List.mem_map_of_mem (List.mem_filter.mpr ⟨hy, hb⟩))
  obtain ⟨j, rest, hlist⟩ := List.exists_cons_of_ne_nil listed
  rw [hlist] at keys ⊢
  obtain ⟨rfl, keys⟩ := List.forall_mem_cons.mp keys
  rw [List.foldl_cons, State.settleOne_of_unbound hu]
  refine (List.foldlRecOn rest _ (motive := fun t => BoundOff j (s.context j).fq t ∧ t.unbound j = true)
    ⟨endBindOff_boundOff ht, (Clearing.endBindOff s j).unbound j hu⟩ (fun t h i hi => ?_)).1
  rw [keys i hi, State.settleOne_of_unbound h.2]
  exact ⟨h.1.clearing (.endBindOff t j), (Clearing.endBindOff t j).unbound j h.2⟩

/-! ## The beginning of a bind-off -/

theorem NoNewWork.dropContext (s : State) (k : Nat) : NoNewWork s (s.dropContext k) := by
  have left : NoNewWork s ((s.teamsOf k).foldl (fun (t : State) j =>
      (t.writeBackLocal (t.team j).core (fun _ => true)).removeTeam j) s) :=
    .foldl (fun t j => (NoNewWork.writeBackLocal t _ _).trans (.removeTeam _ j)) _ s
  exact left.trans (.of_same rfl rfl rfl rfl)

theorem State.teams_writeBackLocal (s : State) (core : Nat) (pick : Nat → Bool) :
    (s.writeBackLocal core pick).teams = s.teams := by
  unfold State.writeBackLocal
  refine State.teams_foldl (fun t l => ?_) _ s
  rw [State.onCore_teams, State.teams_privBack]

/-- A team that is left once another is taken off its core was there before, and is not that one. -/
theorem State.mem_teams_removeTeam {s : State} {k : Nat} {y : Nat × Team} (h : y ∈ (s.removeTeam k).teams) :
    y.1 ≠ k ∧ y ∈ s.teams := by
  have hne : y.1 ≠ k := Cells.key_ne_of_mem_erase h
  have hstay : y ∈ (s.stayTeam k).teams := Cells.mem_of_mem_erase h
  refine ⟨hne, ?_⟩
  unfold State.stayTeam at hstay
  dsimp only at hstay
  split at hstay
  · exact hstay
  · rcases Cells.mem_put hstay with rfl | hy
    · exact absurd rfl hne
    · exact hy

theorem dropContext_teamless (s : State) (k : Nat) : ∀ y ∈ (s.dropContext k).teams, y.2.ctx ≠ k := by
  have left (ks : List Nat) (t : State) (ht : ∀ y ∈ t.teams, y.2.ctx = k → y.1 ∈ ks) :
      ∀ y ∈ (ks.foldl (fun (t : State) j => (t.writeBackLocal (t.team j).core (fun _ => true)).removeTeam j) t).teams,
        y.2.ctx ≠ k := by
    induction ks generalizing t with
    | nil => exact fun y hy hc => List.not_mem_nil (ht y hy hc)
    | cons j ks ih =>
      refine ih _ (fun y hy hc => ?_)
      obtain ⟨hne, hy⟩ := State.mem_teams_removeTeam hy
      rw [State.teams_writeBackLocal] at hy
      exact (List.mem_cons.mp (ht y hy hc)).resolve_left hne
  refine left (s.teamsOf k) s (fun y hy hc => ?_)
  exact List.mem_map_of_mem (List.mem_filter.mpr ⟨hy, beq_iff_eq.mpr hc⟩)

/-- The context that a bind-off ends, while it is unbinding. -/
def Context.unbindingFor (keep : Option JRef) (c : Context) : Context :=
  { c with st := .ended, unbinding := true, unbindJ := keep }

/-- The state in which a bind-off drops what its context has placed. -/
def State.unplaced (s : State) (k : Nat) (keep : Option JRef) : State :=
  ((s.dropGroupsOf k).onContext k (Context.unbindingFor keep)).dropContext k

section

variable (s : State) (k : Nat) (keep : Option JRef)

theorem bindOff_teamless : ∀ y ∈ (s.bindOff k keep).teams, y.2.ctx ≠ k :=
  dropContext_teamless ((s.dropGroupsOf k).onContext k (Context.unbindingFor keep)) k

theorem bindOff_contexts : (s.bindOff k keep).contexts = Cells.adjust s.contexts k (Context.unbindingFor keep) :=
  (NoNewWork.dropContext ((s.dropGroupsOf k).onContext k (Context.unbindingFor keep)) k).contexts.trans
    (congrArg (fun m => Cells.adjust m k (Context.unbindingFor keep)) (NoNewWork.dropGroupsOf s k).contexts)

theorem bindOff_unbound (h : s.unbound k = true) : (s.bindOff k keep).unbound k = true := by
  have dropped : (s.unplaced k keep).unbound k = true :=
    (NoNewWork.dropContext _ k).unbound k ((NoNewWork.dropGroupsOf s k).unbound k h)
  obtain ⟨hacc, hx⟩ := (State.unbound_iff _ k).mp dropped
  refine (State.unbound_iff _ k).mpr ⟨fun a ha => ?_, fun c hc ch hch x hmem => ?_⟩
  · obtain ⟨b, hb, rfl⟩ := List.mem_map.mp ha
    have hb := hacc b (List.mem_filter.mp hb).1
    rwa [if_neg hb]
  · obtain ⟨d, hd, rfl⟩ := List.mem_map.mp hc
    obtain ⟨e, he, rfl⟩ := List.mem_map.mp hch
    refine hx d hd e he x ?_
    dsimp only at hmem
    split at hmem
    · exact absurd hmem List.not_mem_nil
    · next y rest hxs =>
      rw [hxs]
      exact (List.mem_cons.mp hmem).elim (fun h => h ▸ List.mem_cons_self)
        (fun h => List.mem_cons_of_mem _ (List.mem_filter.mp h).1)

end

theorem Cells.mem_of_find? {α : Type} {m : Cells α} {k : Nat} {x : α} (h : Cells.find? m k = some x) : (k, x) ∈ m := by
  induction m with
  | nil => exact nomatch h
  | cons c rest ih =>
    obtain ⟨a, v⟩ := c
    simp only [Cells.find?] at h
    split at h
    · next e => cases h; exact e ▸ List.mem_cons_self
    · exact List.mem_cons_of_mem _ (ih h)

/-- BIND_OFF of a context with nothing on its way, while no other unbinds. -/
theorem cmdBindOff_boundOff {s : State} {k : Nat} {x : Context} (keep : Option JRef) (hx : Cells.find? s.contexts k = some x)
    (hu : s.unbound k = true) (hidle : ∀ y ∈ s.contexts, y.2.unbinding = false) :
    BoundOff k x.fq (s.bindOff k keep).settleUnbinding := by
  have hctx : (s.bindOff k keep).context k = x.unbindingFor keep := by
    rw [State.context, bindOff_contexts, ← State.context_of_find? hx]
    exact Cells.get_adjust_listed s.contexts k _ (congrArg Option.isSome hx)
  have hmem := Cells.mem_of_find? hx
  have ends := settleUnbinding_boundOff (bindOff_unbound s k keep hu) (bindOff_teamless s k keep) ?_ ?_
  · rwa [hctx] at ends
  · intro y hy hb
    rw [bindOff_contexts] at hy
    obtain ⟨z, hz, rfl⟩ := List.mem_map.mp hy
    by_cases e : z.1 = k
    · rw [if_pos e]
      exact e
    · rw [if_neg e, hidle z hz] at hb
      exact absurd hb Bool.false_ne_true
  · rw [bindOff_contexts]
    exact ⟨_, List.mem_map.mpr ⟨_, hmem, if_pos rfl⟩, rfl⟩

end Sys2Proof.Machine
end

section
/-! PROOFS. Commands that act on a context as a whole (R190, R192-R194, R371, R374; O42). -/

namespace Sys2Proof.Machine

theorem bindOff_answers {s : State} {n k : Nat} {c : BitVec 512} {x : Context} (h : Takes s (.vf n) c = true)
    (hk : s.namedContext (.vf n) c = some k) (hx : Cells.find? s.contexts k = some x) (htype : cmdType c = 4)
    (hu : s.unbound k = true) (hidle : ∀ y ∈ s.contexts, y.2.unbinding = false) :
    ∃ t, Answers (.bindOff (.vf n) c) s t (.vf n) c .ok ∧ BoundOff k x.fq t := by
  have ends := cmdBindOff_boundOff (s := s.recorded (.vf n) c) (some (s.entryRef (.vf n))) hx hu hidle
  exact ⟨_, answers_of_contextCommand h (commandAsk_of_type (by simp [htype])) (by rw [htype]; rfl) hk rfl (by simp [htype])
    (contextCommand_bindOff htype), ends.clearing (.of_journalMove (.cmdStat _ _ _ _))⟩

/-- Settles O42: a port that takes a command records it and carries it out (`answers_of_contextCommand`), and each command's
effect is that of its own operation on the context's state. -/
theorem commandsSteerContexts : Obligations.CommandsSteerContexts := by
  unfold Obligations.CommandsSteerContexts
  intro s n c h
  refine ⟨fun htype => ⟨contextCreate_unbound h htype, fun m hv hm => contextCreate_created h htype hv hm⟩,
    fun hk => ⟨fun htype => ?_, fun htype => ?_⟩, fun k x hk hx => ⟨fun htype hask => ?_, fun htype hd => ?_,
      fun htype hacc hchans hidle => ?_, fun htype hr => ?_, fun htype hr => ?_⟩⟩
  · exact noContext_of_takes h (commandAsk_of_type (by simp [htype])) (by rw [htype]; rfl) hk rfl (by simp [htype])
  · exact noContext_of_takes h (commandAsk_of_type (by simp [htype])) (by rw [htype]; rfl) hk rfl (by simp [htype])
  · refine ⟨launchCmd_badVa h hk htype hask, fun s2 h64 h57 hh => ?_, fun s2 hd lab h64 h57 hh => ⟨fun hv => ?_,
      fun hv hnbv hfree => ?_⟩⟩
    · exact launchCmd_refused h hk htype hask (cmdLaunch_unread (headerVaOk_of h64 h57) hh)
    · exact launchCmd_refused h hk htype hask (cmdLaunch_invalid (headerVaOk_of h64 h57) hh hv)
    · exact launchCmd_enters h hk htype hask (headerVaOk_of h64 h57) hh hv hnbv hfree
  · refine ⟨fun hbit => ?_, fun hbit => ?_⟩
    · have steered := evset_events (i := .evsetCmd (.vf n) c) h hk hx htype hd rfl (by rw [htype, hbit]; rfl)
      rwa [hbit, if_neg Bool.false_ne_true] at steered
    · have steered := evset_events (i := .evsetClrCmd (.vf n) c) h hk hx htype hd rfl (by rw [htype, hbit]; rfl)
      rwa [hbit, if_pos rfl] at steered
  · obtain ⟨t, ha, hgone, hzero, htlb, hteams⟩ := bindOff_answers h hk hx htype ((s.unbound_iff k).mpr ⟨hacc, hchans⟩) hidle
    exact ⟨t, ha, hgone, hzero, htlb, hteams⟩
  · exact ⟨preempt_live h hk hx htype hr, preempt_saved h hk hx htype hr⟩
  · exact ⟨resume_live h hk hx htype hr, resume_saved h hk hx htype hr⟩

end Sys2Proof.Machine
end

section
/-! PROOFS. Placing the next cluster of a launch (R143-R145, R205-R208; O40). -/

namespace Sys2Proof.Machine

/-! ## Changes that keep every byte -/

theorem SameBytes.of_journalMove {s t : State} (h : JournalMove s t) : SameBytes t s := by
  obtain ⟨_, _, rfl⟩ := h
  exact .refl s

theorem SameBytes.setTeam (s : State) (k : Nat) {x : Team} (hx : x.scratch = (s.team k).scratch) :
    SameBytes (s.setTeam k x) s := by
  refine ⟨fun _ => rfl, fun _ => rfl, fun j p => congrArg (Cells.get · p) ?_⟩
  refine (congrArg Team.scratch (Cells.get_put s.teams k j x)).trans ?_
  split
  · next e => exact e ▸ hx
  · rfl

theorem SameBytes.onTeam (s : State) (k : Nat) {f : Team → Team} (hf : ∀ x, (f x).scratch = x.scratch := by intro _; rfl) :
    SameBytes (s.onTeam k f) s :=
  .setTeam s k (hf _)

theorem SameBytes.onVf (s : State) (vf : Nat) (f : Vf → Vf) : SameBytes (s.onVf vf f) s :=
  ⟨fun _ => rfl, fun _ => rfl, fun _ _ => rfl⟩

theorem SameBytes.onLaunch (s : State) (l : Nat) (f : Launch → Launch) : SameBytes (s.onLaunch l f) s :=
  ⟨fun _ => rfl, fun _ => rfl, fun _ _ => rfl⟩

theorem SameBytes.foldl {α : Type} {f : State → α → State} (hf : ∀ s x, SameBytes (f s x) s) (l : List α) (s : State) :
    SameBytes (l.foldl f s) s :=
  List.foldlRecOn l f (motive := fun t => SameBytes t s) (.refl s) (fun t h x _ => (hf t x).trans h)

theorem SameBytes.forgetLines (s : State) (k w : Nat) : SameBytes (s.forgetLines k w) s := by
  obtain ⟨r, e⟩ := s.forgetLines_remote k w
  rw [e]
  exact ⟨fun _ => rfl, fun _ => rfl, fun _ _ => rfl⟩

theorem State.teams_forgetLines (s : State) (k w : Nat) : (s.forgetLines k w).teams = s.teams := by
  obtain ⟨r, e⟩ := s.forgetLines_remote k w
  rw [e]

/-! ## Teams that stay (R372) -/

theorem SameBytes.stayTeam (s : State) (k : Nat) : SameBytes (s.stayTeam k) s := by
  unfold State.stayTeam
  dsimp only
  split
  · exact .refl s
  · exact (SameBytes.onVf _ _ _).trans ((SameBytes.onTeam _ k).trans (.onVf _ _ _))

theorem SameBytes.stay (s : State) (leaving : List Nat) : SameBytes (s.stay leaving) s := by
  refine .foldl (fun t k => ?_) _ s
  split
  · exact .refl t
  · exact .stayTeam t k

/-- A team that is not to leave stays as it is, whichever team is no longer to leave. -/
theorem State.stayTeam_find? {s : State} {k : Nat} {x : Team} (hx : Cells.find? s.teams k = some x)
    (hl : x.leaving = false) (j : Nat) : Cells.find? (s.stayTeam j).teams k = some x := by
  unfold State.stayTeam
  dsimp only
  split
  · exact hx
  · next hleaves =>
    refine (Cells.find?_put _ _ _ _).trans ?_
    split
    · next e =>
      subst e
      rw [State.team, Cells.get_of_find? hx, hl] at hleaves
      exact absurd rfl hleaves
    · exact hx

theorem State.stay_find? {s : State} {k : Nat} {x : Team} (hx : Cells.find? s.teams k = some x) (hl : x.leaving = false)
    (leaving : List Nat) : Cells.find? (s.stay leaving).teams k = some x := by
  refine List.foldlRecOn _ _ (motive := fun t : State => Cells.find? t.teams k = some x) hx (fun t h j _ => ?_)
  split
  · exact h
  · exact State.stayTeam_find? h hl j

/-! ## A team at its placement -/

theorem State.wakeCore_awake {s : State} (h : s.cores.all (fun c => c.2.sleep.isNone) = true) (core : Nat) :
    s.wakeCore core = s := by
  have awake : (s.core core).sleep = none := by
    rcases Cells.get_mem s.cores core with hc | hc
    · exact Option.isNone_iff_eq_none.mp (List.all_eq_true.mp h _ hc)
    · rw [State.core, hc]
      rfl
  unfold State.wakeCore
  rw [awake]

/-- A warp starts with every strand at its entry point (R145). -/
theorem State.newWarp_pc (s : State) (k w : Nat) (pc : DWord) (live : Lanes) (spawned : Bool) :
    ∀ y ∈ (s.newWarp k w pc live spawned).allStrands, y.2.2.pc = pc := by
  intro y hy
  obtain ⟨z, hz, hy⟩ := List.mem_flatMap.mp hy
  obtain ⟨u, hu, rfl⟩ := List.mem_map.mp hy
  obtain ⟨j, -, hj⟩ := List.mem_filterMap.mp hz
  dsimp only at hj
  split at hj
  · exact nomatch hj
  · cases hj
    rw [List.mem_singleton.mp hu]

/-- A team of a launch's cluster as it starts on a core: every warp of the header, at its entry point (R143-R145). -/
structure Team.StartsFor (x : Team) (h : Header) (l core cluster : Nat) : Prop where
  launch : x.launch = l
  core : x.core = core
  cluster : x.cluster = cluster
  stays : x.leaving = false
  warps : Cells.keys x.warps = List.range ((h.threads + 31) / 32)
  entry : ∀ w ∈ x.warps, ∀ y ∈ w.2.allStrands, y.2.2.pc = h.entry

section

variable (s : State) (l core cluster sibling : Nat)

/-- The team that a launch places on a core, before it has its warps. -/
def State.startingTeam : Team :=
  let h := (s.launch l).hdr
  { launch := l, ctx := (s.launch l).ctx, core, cluster, linear := cluster * h.teamsPer + sibling, sibling
    teamId := h.teamId (cluster * h.teamsPer + sibling), placedAt := (s.wakeCore core).nextId
    slots := (s.wakeCore core).freeSlots core h.warps }

/-- The state with that team on its awake core. -/
def State.withStartingTeam : State :=
  (s.wakeCore core).fresh.setTeam (s.wakeCore core).nextId (s.startingTeam l core cluster sibling)

/-- The warps that the team starts with. -/
def State.startingWarps : Cells Warp :=
  let h := (s.launch l).hdr
  (List.range ((h.threads + 31) / 32)).map (fun w =>
    (w, (s.withStartingTeam l core cluster sibling).newWarp (s.wakeCore core).nextId w h.entry (h.lanesOfWarp w) false))

theorem newTeam_eq : s.newTeam l core cluster sibling =
    ((s.withStartingTeam l core cluster sibling).onTeam (s.wakeCore core).nextId
      (fun t => { t with warps := s.startingWarps l core cluster sibling })).onLaunch l
        (fun y => { y with keys := y.keys ++ [(s.wakeCore core).nextId] }) := rfl

theorem newTeam_starts : ∃ x, Cells.find? (s.newTeam l core cluster sibling).teams s.nextId = some x ∧
    x.StartsFor (s.launch l).hdr l core cluster := by
  have entered : (s.withStartingTeam l core cluster sibling).team (s.wakeCore core).nextId =
      s.startingTeam l core cluster sibling := Cells.get_put_self _ _ _
  rw [← (NoNewWork.wakeCore s core).nextId, newTeam_eq, State.onLaunch_teams, State.onTeam, entered]
  refine ⟨_, (Cells.find?_put _ _ _ _).trans (if_pos rfl), rfl, rfl, rfl, rfl, ?_, fun w hw y hy => ?_⟩
  · exact (List.map_map ..).trans (List.map_id _)
  · obtain ⟨i, -, rfl⟩ := List.mem_map.mp hw
    exact State.newWarp_pc _ _ _ _ _ _ y hy

variable {s}

theorem newTeam_sameBytes (hawake : s.cores.all (fun c => c.2.sleep.isNone) = true)
    (hnew : Cells.find? s.teams s.nextId = none) : SameBytes (s.newTeam l core cluster sibling) s := by
  have blank : (s.team s.nextId).scratch = [] := by
    rw [State.team, Cells.get_eq_find?, hnew]
    rfl
  have fresh : SameBytes s.fresh s := ⟨fun _ => rfl, fun _ => rfl, fun _ _ => rfl⟩
  have entered : SameBytes (s.withStartingTeam l core cluster sibling) s.fresh := by
    rw [State.withStartingTeam, State.wakeCore_awake hawake]
    exact .setTeam s.fresh s.nextId blank.symm
  rw [newTeam_eq]
  exact (SameBytes.onLaunch _ _ _).trans ((SameBytes.onTeam _ _).trans (entered.trans fresh))

end

/-! ## The next cluster of a launch -/

section

variable {s : State} {l : Nat}

/-- A cluster of one team goes to the first core of a group that it fits. -/
theorem State.placeOn_single (h : (s.launch l).hdr.teamsPer = 1) (g : Nat) :
    s.placeOn l g = ((groupCores g).find? (fun c => s.fits (s.launch l).hdr c)).map
      (fun c => s.newTeam l c (s.launch l).placed 0) := by
  unfold State.placeOn
  dsimp only
  rw [h]
  unfold State.placeTeams
  cases (groupCores g).find? (fun c => s.fits (s.launch l).hdr c) with
  | none => rfl
  | some c => rfl

theorem groupOf_of_mem_groupCores {g c : Nat} (h : c ∈ groupCores g) : groupOf c = g := by
  obtain ⟨i, hi, rfl⟩ := List.mem_map.mp h
  have := List.mem_range.mp hi
  unfold groupOf
  omega

theorem JournalMove.noteRunning (s : State) (l : Nat) : ∃ t, JournalMove s t ∧
    s.noteRunning l = t.onLaunch l (fun y => { y with placed := y.placed + 1 }) :=
  ⟨_, .journalSet _ _ _ _ _, rfl⟩

/-- A launch with a handle and no displaced cluster places its next cluster of one team on a core that it fits, in a permitted
group, if there is one (R207). -/
theorem State.tryPlace_single (hd : s.displacedOf l = none) (hh : (s.context (s.launch l).ctx).handle.isSome = true)
    (ht : (s.launch l).hdr.teamsPer = 1) {gs : List Nat}
    (hfit : ∃ g ∈ gs, ∃ c ∈ groupCores g, s.fits (s.launch l).hdr c = true) :
    ∃ g ∈ gs, ∃ c ∈ groupCores g, s.fits (s.launch l).hdr c = true ∧ s.tryPlace l gs =
      some (((s.newTeam l c (s.launch l).placed 0).noteRunning l).forgetLines goneTeam l) := by
  have put (g : Nat) : s.putNext l g = ((groupCores g).find? (fun c => s.fits (s.launch l).hdr c)).map
      (fun c => (s.newTeam l c (s.launch l).placed 0).noteRunning l) := by
    unfold State.putNext
    rw [hd]
    dsimp only
    rw [State.placeOn_single ht, Option.map_map]
    rfl
  have found : (gs.findSome? (fun g => s.putNext l g)).isSome = true := by
    obtain ⟨g, hg, c, hc, hf⟩ := hfit
    refine List.findSome?_isSome_iff.mpr ⟨g, hg, ?_⟩
    rw [put, Option.isSome_map]
    exact List.find?_isSome.mpr ⟨c, hc, hf⟩
  obtain ⟨t, hfound⟩ := Option.isSome_iff_exists.mp found
  obtain ⟨g, hg, hput⟩ := List.exists_of_findSome?_eq_some hfound
  rw [put] at hput
  obtain ⟨c, hc, rfl⟩ := Option.map_eq_some_iff.mp hput
  refine ⟨g, hg, c, List.mem_of_find?_eq_some hc, List.find?_some hc, ?_⟩
  unfold State.tryPlace
  rw [State.takeHandle, if_pos hh]
  dsimp only
  rw [hfound]
  rfl

/-- What CLUSTER_PLACE does for a launch at the head of the order whose next cluster finds a core. -/
theorem clusterPlace_places {s1 : State} {rest : List Nat} (horder : s.order = l :: rest) (hcheck : s.firstCheck l = .go s1)
    {t : State} (ht : s1.tryPlace l (s1.groupsFor (s1.launch l).ctx (s1.launch l).hdr) = some t) :
    exec .clusterPlace s = .next { t.stay [] with reserved := none } := by
  show execClusterPlace s = _
  unfold execClusterPlace
  rw [horder]
  dsimp only
  rw [hcheck]
  dsimp only
  unfold State.placeHead
  dsimp only
  rw [ht]

end

end Sys2Proof.Machine
end

section
/-! PROOFS. Warps and teams that retire, the log that a recording launch closes with its last team, and launches that
complete (R119, R162, R204, R294; O40). -/

namespace Sys2Proof.Machine

/-! ## Writes of a launch's log (R286) -/

theorem State.teams_walkPlace (s : State) (ctx : Nat) (va : DWord) (need : Need) :
    (s.walkPlace ctx va need).1.teams = s.teams := by
  unfold State.walkPlace
  dsimp only
  split
  · rfl
  · split
    · rfl
    · next leaf level at_ _ =>
      have marked (bits : Nat) := s.teams_pteOr at_ bits
      have placed (bits : Nat) := State.teams_leafPlace (s.pteOr at_ bits) ctx va.toNat need
        (tlbOf ctx (va.toNat >>> 12) leaf level) (drop := id) rfl
      split
      · exact marked _
      · split
        · next h => exact (congrArg (fun r => r.1.teams) h).symm.trans ((placed _).trans (marked _))
        · next h => exact (congrArg (fun r => r.1.teams) h).symm.trans ((placed _).trans (marked _))

/-- A leaf leads to device memory, to another module or to the host. -/
theorem State.leafPlace_ne_scr {s : State} {ctx a : Nat} {need : Need} {e : TlbEnt} {drop : State → State} {p : Place}
    {leaf : DWord} (h : (s.leafPlace ctx a need e drop).2 = .ok (p, leaf)) (t o : Nat) : p ≠ .scr t o := by
  rintro rfl
  unfold State.leafPlace at h
  dsimp only at h
  repeat' split at h
  all_goals simp at h

theorem State.walkPlace_ne_scr {s : State} {ctx : Nat} {va : DWord} {need : Need} {p : Place}
    (h : (s.walkPlace ctx va need).2 = some p) (t o : Nat) : p ≠ .scr t o := by
  unfold State.walkPlace at h
  dsimp only at h
  split at h
  · exact nomatch h
  · split at h
    · exact nomatch h
    · split at h
      · exact nomatch h
      · split at h
        · next hp =>
          cases h
          exact State.leafPlace_ne_scr (congrArg Prod.snd hp) t o
        · exact nomatch h

theorem State.teams_logWrite (s : State) (l : Nat) (va : DWord) (x : Nat) : (s.logWrite l va x).teams = s.teams := by
  have walked := s.teams_walkPlace (s.launch l).ctx va .write
  unfold State.logWrite
  dsimp only
  split
  · next h => exact (congrArg (fun r => r.1.teams) h).symm.trans walked
  · next u p h =>
    have hscr := State.walkPlace_ne_scr (congrArg Prod.snd h)
    have hu : u.teams = s.teams := (congrArg (fun r => r.1.teams) h).symm.trans walked
    have charged : (match accessSlice p with | some i => u.charge logActivity 1 i 1 | none => u).teams = s.teams := by
      split
      · exact hu
      · exact hu
    split
    · exact charged
    all_goals exact (State.teams_store _ _ hscr _ _ _).trans charged

theorem State.teams_logAppend (s : State) (l chunk : Nat) : (s.logAppend l chunk).teams = s.teams := by
  unfold State.logAppend
  dsimp only
  split
  · rfl
  · split
    · exact State.teams_logWrite _ _ _ _
    · exact (State.teams_logWrite _ _ _ _).trans (s.teams_logWrite _ _ _)

theorem State.teams_closeRuns (s : State) (l : Nat) : (s.closeRuns l).teams = s.teams := by
  refine State.teams_ite (State.teams_foldl (fun t win => ?_) _ s) rfl
  unfold State.closeRun
  split
  · rfl
  · exact t.teams_logAppend l _

/-! ## Retiring (R119) -/

/-- A team that retires is placed no more, and otherwise no team moves. -/
theorem State.retireTeam_teams (s : State) (k : Nat) :
    (s.retireTeam k).teams = s.teams ∨ Cells.find? (s.retireTeam k).teams k = none := by
  unfold State.retireTeam
  dsimp only
  split
  · exact .inl rfl
  · have gone : Cells.find? (s.removeTeam k).teams k = none := (Cells.find?_erase _ _ _).trans (if_pos rfl)
    right
    split
    · rw [State.teams_closeRuns]
      exact gone
    · exact gone

/-- A team whose warp has left: its index is free, and its arrivals at barriers stay counted (R179). -/
def Team.leftBy (x : Team) (w own : Nat) : Team :=
  { x with warps := Cells.erase x.warps w, bars := x.bars.map (fun b => (b.1, b.2.leave w own)) }

/-- A warp that retires is listed no more, and every other warp of its team stays as long as the team does. -/
theorem State.retireWarp_warps (s : State) (k w : Nat) :
    Cells.find? ((s.retireWarp k w).team k).warps w = none ∧
    ∀ j, j ≠ w → Cells.find? (s.retireWarp k w).teams k ≠ none →
      Cells.find? ((s.retireWarp k w).team k).warps j = Cells.find? (s.team k).warps j := by
  have written : ((s.writeBackLocal (s.team k).core (fun _ => true)).forgetLines k w).teams = s.teams :=
    (State.teams_forgetLines _ k w).trans (s.teams_writeBackLocal _ _)
  obtain ⟨u, own, hretire, hu⟩ : ∃ u own, s.retireWarp k w = State.retireTeam u k ∧
      u.team k = (s.team k).leftBy w own := by
    let v := (s.writeBackLocal (s.team k).core (fun _ => true)).forgetLines k w
    exact ⟨_, 64 + v.nextId, rfl, (Cells.get_put_self _ _ _).trans
      (congrArg (fun m => (Cells.get m k).leftBy w (64 + v.nextId)) written)⟩
  rw [hretire]
  rcases State.retireTeam_teams u k with h | h
  · rw [State.team, h, ← State.team, hu]
    exact ⟨(Cells.find?_erase _ _ _).trans (if_pos rfl), fun j hj _ => (Cells.find?_erase _ _ _).trans (if_neg hj.symm)⟩
  · rw [State.team, Cells.get_eq_find?, h]
    exact ⟨rfl, fun _ _ hplaced => absurd rfl hplaced⟩

theorem warpRetire_retires {s : State} {k w : Nat} (hk : (Cells.find? s.teams k).isSome = true)
    (hw : (Cells.find? (s.team k).warps w).isSome = true) (ha : s.almanac k = false) :
    exec (.warpRetire k w) s = .next (if s.warpOver k w then s.retireWarp k w else s) := by
  have listed {α : Type} {o : Option α} (h : o.isSome = true) : o.isNone = false := by rw [← Option.not_isSome, h]; rfl
  show execWarpRetire k w s = _
  unfold execWarpRetire
  rw [listed hk, listed hw, ha]
  cases s.warpOver k w with
  | true => rfl
  | false => rfl

/-! ## Completing (R204) -/

theorem Cells.find?_map_vals {α β : Type} (m : Cells α) {f : Nat × α → Nat × β} (hf : ∀ e, (f e).1 = e.1) {k : Nat}
    (h : Cells.find? m k = none) : Cells.find? (m.map f) k = none := by
  induction m with
  | nil => rfl
  | cons e m ih =>
    simp only [Cells.find?, List.map_cons, hf] at h ⊢
    split at h
    · exact nomatch h
    · next hk => exact (if_neg hk).trans (ih h)

/-- An operation on an event vector lists no new launch. -/
theorem State.launches_eventOp {s : State} {l : Nat} (h : Cells.find? s.launches l = none) (ctx : Nat)
    (f : BitVec 256 → BitVec 256) : Cells.find? (s.eventOp ctx f).launches l = none := by
  refine Cells.find?_map_vals _ (fun e => ?_) h
  split
  · rfl
  · rfl

/-- The state without a launch: no cluster of it waits and no line is remembered for it. -/
def State.withoutLaunch (s : State) (l : Nat) : State :=
  { s.forgetLines goneTeam l with
    launches := Cells.erase s.launches l, clusters := s.clusters.filter (fun c => c.launch != l) }

/-- That state with the set mask's bits in the event vector (R203). -/
def State.withSetMask (s : State) (l : Nat) : State :=
  (s.withoutLaunch l).eventOp (s.launch l).ctx (fun e => e ||| (s.launch l).hdr.setMask)

section

variable {s : State} {l : Nat}

theorem launchComplete_completes (hl : (Cells.find? s.launches l).isSome = true) (hover : s.launchOver l = true) :
    exec (.launchComplete l) s = .next ((s.withSetMask l).journalSet ((s.launch l).port, (s.launch l).jseq)
      .completed .ok none) := by
  show execLaunchComplete l s = _
  unfold execLaunchComplete
  rw [← Option.not_isSome, hl, hover]
  rfl

theorem State.withSetMask_launches : Cells.find? (s.withSetMask l).launches l = none :=
  State.launches_eventOp ((Cells.find?_erase s.launches l l).trans (if_pos rfl)) _ _

theorem State.withSetMask_sameBytes : SameBytes (s.withSetMask l) s :=
  SameBytes.trans ⟨fun _ => rfl, fun _ => rfl, fun _ _ => rfl⟩ (.forgetLines s goneTeam l)

theorem State.withSetMask_events {c : Context} (hc : Cells.find? s.contexts (s.launch l).ctx = some c) :
    ((s.withSetMask l).context (s.launch l).ctx).events = c.events ||| (s.launch l).hdr.setMask := by
  obtain ⟨r, hr⟩ := s.forgetLines_remote goneTeam l
  have kept : (s.withoutLaunch l).contexts = s.contexts := by rw [State.withoutLaunch, hr]
  exact congrArg Context.events (State.context_onContext (kept.symm ▸ hc)
    (fun x => { x with events := x.events ||| (s.launch l).hdr.setMask }))

theorem State.withSetMask_ports : (s.withSetMask l).ports = s.ports := by
  obtain ⟨r, hr⟩ := s.forgetLines_remote goneTeam l
  show (s.forgetLines goneTeam l).ports = s.ports
  rw [hr]

end

/-! ## The obligation -/

section

variable {s : State} {l : Nat}

/-- What CLUSTER_PLACE promises of a launch at the head of the order (R207). -/
theorem clusterPlace_fits {s1 : State} {rest : List Nat} (horder : s.order = l :: rest) (hcheck : s.firstCheck l = .go s1)
    (hd : s1.displacedOf l = none) (hh : (s1.context (s1.launch l).ctx).handle.isSome = true)
    (hteams : (s1.launch l).hdr.teamsPer = 1)
    (hfit : ∃ g ∈ s1.groupsFor (s1.launch l).ctx (s1.launch l).hdr, ∃ c ∈ groupCores g,
      s1.fits (s1.launch l).hdr c = true) :
    ∃ t x core, exec .clusterPlace s = .next t ∧ Cells.find? t.teams s1.nextId = some x ∧
      x.StartsFor (s1.launch l).hdr l core (s1.launch l).placed ∧ s1.fits (s1.launch l).hdr core = true ∧
      groupOf core ∈ s1.groupsFor (s1.launch l).ctx (s1.launch l).hdr ∧ t.reserved = none ∧
      SameBytes t (s1.newTeam l core (s1.launch l).placed 0) := by
  obtain ⟨g, hg, core, hcore, hfits, hplace⟩ := State.tryPlace_single hd hh hteams hfit
  obtain ⟨x, hx, starts⟩ := newTeam_starts s1 l core (s1.launch l).placed 0
  obtain ⟨u, hmove, hnote⟩ := JournalMove.noteRunning (s1.newTeam l core (s1.launch l).placed 0) l
  have noted : Cells.find? (((s1.newTeam l core (s1.launch l).placed 0).noteRunning l).forgetLines goneTeam l).teams
      s1.nextId = some x := by
    rw [State.teams_forgetLines, hnote, State.onLaunch_teams, hmove.same State.teams (fun _ _ _ => rfl)]
    exact hx
  have bytes : SameBytes ((s1.newTeam l core (s1.launch l).placed 0).noteRunning l)
      (s1.newTeam l core (s1.launch l).placed 0) :=
    hnote ▸ (SameBytes.onLaunch u l _).trans (.of_journalMove hmove)
  refine ⟨_, x, core, clusterPlace_places horder hcheck hplace, State.stay_find? noted starts.stays [], starts, hfits,
    (groupOf_of_mem_groupCores hcore).symm ▸ hg, rfl, ?_⟩
  have stayed := SameBytes.stay (((s1.newTeam l core (s1.launch l).placed 0).noteRunning l).forgetLines goneTeam l) []
  exact SameBytes.trans ⟨fun _ => rfl, fun _ => rfl, fun _ _ => rfl⟩ (stayed.trans ((SameBytes.forgetLines _ _ _).trans bytes))

end

/-- Settles O40: a cluster of one team takes the first core of a permitted group that it fits, a warp leaves only its own
index free, and a completed launch is off the list before its journal entry says so. -/
theorem launchesRunAndRetire : Obligations.LaunchesRunAndRetire := by
  unfold Obligations.LaunchesRunAndRetire
  refine fun s => ⟨fun l rest s1 horder hcheck hd hh hteams hnew hfit => ?_, fun k w hk hw ha => ?_,
    fun l c hl hc hover => ?_⟩
  · obtain ⟨t, x, core, hexec, hx, starts, hfits, hgroup, hreserved, hbytes⟩ :=
      clusterPlace_fits horder hcheck hd hh hteams hfit
    refine ⟨t, x, hexec, hx, starts.launch, starts.cluster, starts.core ▸ hfits, starts.core ▸ hgroup, starts.warps,
      starts.entry, hreserved, fun hawake => hbytes.trans (newTeam_sameBytes l core _ 0 hawake hnew)⟩
  · have hexec := warpRetire_retires hk hw ha
    refine ⟨fun hover => ⟨_, ?_, s.retireWarp_warps k w⟩, fun hover => ?_⟩
    · rw [hexec, if_pos hover]
    · rw [hexec, hover]
      rfl
  · have moved := JournalMove.journalSet (s.withSetMask l) ((s.launch l).port, (s.launch l).jseq) .completed .ok none
    refine ⟨_, launchComplete_completes hl hover, ?_, (SameBytes.of_journalMove moved).trans State.withSetMask_sameBytes,
      ?_, fun e he hseq hopen => ?_⟩
    · rw [moved.same State.launches (fun _ _ _ => rfl)]
      exact State.withSetMask_launches
    · rw [moved.same (fun t => (t.context (s.launch l).ctx).events) (fun _ _ _ => rfl)]
      exact State.withSetMask_events hc
    · refine State.mem_journalSet (r := ((s.launch l).port, (s.launch l).jseq)) ?_ hseq hopen .completed .ok none
      rw [State.port, State.withSetMask_ports]
      exact he

end Sys2Proof.Machine
end

section
/-! PROOFS. What a write of memory comes to: bytes at their home, their frame's label, and lines that move through the caches
(R28, R218, R219, R232-R236). -/

namespace Sys2Proof

/-! ## Numbers read back -/

theorem Cells.readLE_writeLE (m : Cells Byte) (key n x : Nat) :
    Cells.readLE (Cells.writeLE m key n x) key n = x % 2 ^ (8 * n) := by
  rw [Nat.pow_mul]
  induction n generalizing m key x with
  | zero => simp [Cells.readLE, Nat.mod_one]
  | succ n ih =>
    simp only [Cells.readLE, Cells.writeLE]
    rw [ih, Cells.get_writeLE_out _ (.inl (Nat.lt_succ_self key)), Cells.get_set_self, Nat.pow_succ' (n := n), Nat.mod_mul,
      BitVec.toNat_ofNat]

theorem Cells.readLE_lt (m : Cells Byte) (key n : Nat) : Cells.readLE m key n < 2 ^ (8 * n) := by
  induction n generalizing key with
  | zero => exact Nat.one_pos
  | succ n ih =>
    have hb := (Cells.get m key).isLt
    have hr := ih (key + 1)
    rw [Cells.readLE, Nat.mul_succ, Nat.pow_add]
    omega

namespace Machine

/-! ## Lines that move -/

theorem CacheMove.of_same {s t : State} (hm : t.mem = s.mem) (hl : t.frameLab = s.frameLab) (ht : t.teams = s.teams)
    (ha : t.accesses = s.accesses) (h1 : t.hostMem = s.hostMem) (h2 : t.hostHalves = s.hostHalves)
    (h3 : t.hostData = s.hostData) (hc : t.cores = s.cores) : CacheMove s t :=
  ⟨hm, hl, ht, ha, .of_same h1 h2 h3, .of_same hc⟩

/-- A change of one core that drops or takes in no line. -/
theorem CacheMove.onCore (s : State) (c : Nat) {f : Core → Core} (hf : ∀ x, (f x).l1 = x.l1 := by intro _; rfl) :
    CacheMove s (s.onCore c f) :=
  ⟨rfl, rfl, rfl, rfl, .of_same rfl rfl rfl, .onCore s c f (fun x _ l hl => ⟨l, hf x ▸ hl, rfl⟩)⟩

theorem CacheMove.markLine (s : State) (core key : Nat) (m : Evict) : CacheMove s (s.markLine core key m) := by
  refine .ite (.refl s) ⟨rfl, rfl, rfl, rfl, .of_same rfl rfl rfl, .onCore s core _ (fun x k l hl => ?_)⟩
  rw [Cells.find?_adjust] at hl
  split at hl
  · obtain ⟨d, hd, rfl⟩ := Option.map_eq_some_iff.mp hl
    exact ⟨d, hd, rfl⟩
  · exact ⟨l, hl, rfl⟩

theorem CacheMove.catchUp (s : State) (a : Access) : CacheMove s (s.catchUp a) := by
  unfold State.catchUp
  split
  case h_1 | h_2 => exact .ite (.applyBefore s _ _ _) (.refl s)
  case h_3 | h_4 => exact .refl s

theorem CacheMove.writeEchoes (s : State) (a : Access) : CacheMove s (s.writeEchoes a) :=
  .ite (.refl s) (.of_same rfl rfl rfl rfl rfl rfl rfl rfl)

theorem CacheMove.noteWrite (s : State) (pa : Nat) : CacheMove s (s.noteWrite pa) :=
  .of_same rfl rfl rfl rfl rfl rfl rfl rfl

theorem CacheMove.noteForward (s : State) (die : Nat) : CacheMove s (s.noteForward die) := .onDie s die _

theorem CacheMove.sendFlit (s : State) (dst vn : Nat) (lab : Label) (tokens : List (Nat × Nat)) (body : FlitBody) :
    CacheMove s (s.sendFlit dst vn lab tokens body) := .of_same rfl rfl rfl rfl rfl rfl rfl rfl

theorem CacheMove.forwardOut (s : State) (id key : Nat) (bs : List Byte) : CacheMove s (s.forwardOut id key bs) :=
  .foldl (fun t _ => .ite ((CacheMove.noteForward t _).trans (.sendFlit _ _ _ _ _ _)) (.refl t)) _ s

/-- The holders of a line take an update, miss it asleep, or have it on its way to them (R218, R233, R236). -/
theorem CacheMove.forward (s : State) (w : Writer) (key n x : Nat) (lab : Label) : CacheMove s (s.forward w key n x lab) := by
  have out := CacheMove.forwardOut s w.id key (bytesOf n x)
  refine (CacheMove.ite out (out.trans (.noteForward _ _))).trans (.foldl (fun t c => ?_) _ _)
  split
  · exact .onCore t c
  · exact .ite ((CacheMove.applyBefore t c key n).trans (.l1Write _ _ _ _ _)) (.of_same rfl rfl rfl rfl rfl rfl rfl rfl)

/-! ## Writes at the home -/

/-- Bytes of device memory were written with their frame's label widened, and beside that lines moved at most. -/
structure HomeWrite (s t : State) (pa n x : Nat) (lab : Label) : Prop where
  mem : t.mem = Cells.writeLE s.mem pa n x
  frameLab : t.frameLab = Cells.modify s.frameLab (pa / 4096) (· ||| lab)
  teams : t.teams = s.teams
  accesses : t.accesses = s.accesses
  host : HostCarried s t

section

variable {s t u : State} {pa n x : Nat} {lab : Label}

theorem HomeWrite.before (h : HomeWrite t u pa n x lab) (g : CacheMove s t) : HomeWrite s u pa n x lab :=
  ⟨by rw [h.mem, g.mem], by rw [h.frameLab, g.frameLab], h.teams.trans g.teams, h.accesses.trans g.accesses,
    g.host.trans h.host⟩

theorem HomeWrite.after (h : HomeWrite s t pa n x lab) (g : CacheMove t u) : HomeWrite s u pa n x lab :=
  ⟨g.mem.trans h.mem, g.frameLab.trans h.frameLab, g.teams.trans h.teams, g.accesses.trans h.accesses,
    h.host.trans g.host⟩

theorem HomeWrite.writeHome (s : State) (pa n x : Nat) (lab : Label) (who : Who) :
    HomeWrite s (s.writeHome (.dev pa) n x lab who) pa n x lab := by
  have moved := (CacheMove.noteWrite s pa).trans (.l2Reach _ who (.dev pa) n true)
  refine HomeWrite.before ?_ moved
  exact ⟨rfl, rfl, rfl, rfl, .of_same rfl rfl rfl⟩

/-- What every write of device memory does (R218, R228). -/
theorem HomeWrite.store (s : State) (w : Writer) (pa n x : Nat) (lab : Label) :
    HomeWrite s (s.store w (.dev pa) n x lab) pa n x lab :=
  (HomeWrite.writeHome s pa n x lab w.who).after (.forward _ _ _ _ _ _)

theorem HomeWrite.get_out (h : HomeWrite s t pa n x lab) {p : Nat} (hp : p < pa ∨ pa + n ≤ p) :
    Cells.get t.mem p = Cells.get s.mem p := by
  rw [h.mem, Cells.get_writeLE_out _ hp]

theorem HomeWrite.readLE (h : HomeWrite s t pa n x lab) : Cells.readLE t.mem pa n = x % 2 ^ (8 * n) := by
  rw [h.mem, Cells.readLE_writeLE]

theorem HomeWrite.get_frameLab (h : HomeWrite s t pa n x lab) (f : Nat) :
    Cells.get t.frameLab f = if f = pa / 4096 then Cells.get s.frameLab f ||| lab else Cells.get s.frameLab f := by
  rw [h.frameLab, Cells.get_modify]
  by_cases hf : f = pa / 4096
  · rw [if_pos hf, if_pos hf.symm]
  · rw [if_neg hf, if_neg (Ne.symm hf)]

end

end Machine
end Sys2Proof
end

section
/-! PROOFS. A translation writes at most the ACCESSED and DIRTY bits of the entry that its walk ends at (R219, R226, R413;
O18). -/

namespace Sys2Proof.Machine

/-! ## What a translation moves -/

theorem CacheMove.tlbForget (s : State) (core ctx vpage : Nat) : CacheMove s (s.tlbForget core ctx vpage) :=
  (CacheMove.onCore s core).trans (.onDie _ _ _)

theorem CacheMove.tlbFill (s : State) (core : Nat) (e : TlbEnt) : CacheMove s (s.tlbFill core e) :=
  (CacheMove.onCore s core).trans (.onDie _ _ _)

theorem CacheMove.walkFor (s : State) (core ctx va : Nat) : CacheMove s (s.walkFor core ctx va).1 := by
  unfold State.walkFor
  dsimp only
  split
  · exact .refl s
  · dsimp only
    exact .onDie s _ _

/-- Where a leaf leads moves what its failure takes out of the TLBs, and nothing else (R356). -/
theorem CacheMove.leafPlace (s : State) (ctx a : Nat) (need : Need) (e : TlbEnt) {drop : State → State}
    (hd : CacheMove s (drop s)) : CacheMove s (s.leafPlace ctx a need e drop).1 := by
  have failed : CacheMove s { s with hostFail := s.hostFail.filter (· != leafAddr e a / 64) } :=
    .of_same rfl rfl rfl rfl rfl rfl rfl rfl
  unfold State.leafPlace
  dsimp only
  split
  · exact hd
  · split
    · exact .refl s
    · split
      · exact hd
      · split
        · exact hd
        · split
          · exact hd
          · split
            · exact .refl s
            · split
              · exact hd
              · exact .refl s
    · split
      · exact failed
      · exact .refl s

/-- Lines moved, and the entry that a walk ends at was marked at most: ACCESSED, or ACCESSED and DIRTY (R226). -/
def MarksEntry (s t : State) (w : Except Bool (DWord × Nat × Nat)) : Prop :=
  CacheMove s t ∨ ∃ leaf level at_ bits, w = .ok (leaf, level, at_) ∧ (bits = 0x20 ∨ bits = 0x60) ∧
    HomeWrite s t at_ 8 (Cells.readLE s.mem at_ 8 ||| bits) 0

section

variable {s t u : State} {w : Except Bool (DWord × Nat × Nat)}

theorem MarksEntry.after (h : MarksEntry s t w) (g : CacheMove t u) : MarksEntry s u w := by
  rcases h with h | ⟨leaf, level, at_, bits, hw, hbits, h⟩
  · exact .inl (h.trans g)
  · exact .inr ⟨leaf, level, at_, bits, hw, hbits, h.after g⟩

/-- A leaf that is marked after its walk enters the TLBs. -/
theorem MarksEntry.marked {leaf : DWord} {level at_ bits : Nat} (h : CacheMove s t) (hbits : bits = 0x20 ∨ bits = 0x60)
    (core : Nat) (e : TlbEnt) : MarksEntry s ((t.pteOr at_ bits).tlbFill core e) (.ok (leaf, level, at_)) := by
  refine .inr ⟨leaf, level, at_, bits, rfl, hbits, HomeWrite.after ?_ (.tlbFill _ _ _)⟩
  rw [← h.mem]
  exact (HomeWrite.store t {} at_ 8 _ 0).before h

theorem MarksEntry.leafFor (s : State) (core ctx va : Nat) (need : Need) :
    MarksEntry s (s.leafFor core ctx va need).1 (s.walkFor core ctx va).2 := by
  have walked := CacheMove.walkFor s core ctx va
  have mark (p : Prop) [Decidable p] : (if p then 0x60 else 0x20) = 0x20 ∨ (if p then 0x60 else 0x20) = 0x60 := by
    split
    · exact .inr rfl
    · exact .inl rfl
  unfold State.leafFor
  dsimp only
  split
  · split
    · split
      · next h => rw [h] at walked; exact .inl (walked.trans (.tlbForget _ _ _ _))
      · next h => rw [h] at walked ⊢; exact .marked walked (mark _) _ _
    · exact .inl (.refl s)
  · split
    · next h => rw [h] at walked; exact .inl walked
    · next h => rw [h] at walked ⊢; exact .marked walked (mark _) _ _

theorem MarksEntry.translate (s : State) (core ctx : Nat) (va : DWord) (need : Need) :
    MarksEntry s (s.translate core ctx va need).1 (s.walkFor core ctx va.toNat).2 := by
  have leaf := MarksEntry.leafFor s core ctx va.toNat need
  unfold State.translate
  split
  · next h => rw [h] at leaf; exact leaf
  · next h => rw [h] at leaf; exact leaf.after (.leafPlace _ _ _ _ _ (.tlbForget _ _ _ _))

/-! ## What the marking of an entry leaves -/

theorem MarksEntry.teams (h : MarksEntry s t w) : t.teams = s.teams := by
  rcases h with h | ⟨_, _, _, _, _, _, h⟩
  · exact h.teams
  · exact h.teams

theorem MarksEntry.accesses (h : MarksEntry s t w) : t.accesses = s.accesses := by
  rcases h with h | ⟨_, _, _, _, _, _, h⟩
  · exact h.accesses
  · exact h.accesses

theorem MarksEntry.hostKept (h : MarksEntry s t w) : HostKept t s := by
  rcases h with h | ⟨_, _, _, _, _, _, h⟩
  · exact h.host.1
  · exact h.host.1

/-- A marked entry carries no label into its frame. -/
theorem MarksEntry.frameLab (h : MarksEntry s t w) (f : Nat) : Cells.get t.frameLab f = Cells.get s.frameLab f := by
  rcases h with h | ⟨_, _, _, _, _, _, h⟩
  · rw [h.frameLab]
  · rw [h.get_frameLab, show Cells.get s.frameLab f ||| 0 = Cells.get s.frameLab f from BitVec.or_zero, ite_self]

theorem MarksEntry.get_out (h : MarksEntry s t w) {p : Nat}
    (hp : ∀ leaf level at_, w = .ok (leaf, level, at_) → p < at_ ∨ at_ + 8 ≤ p) : Cells.get t.mem p = Cells.get s.mem p := by
  rcases h with h | ⟨leaf, level, at_, _, hw, _, h⟩
  · rw [h.mem]
  · exact h.get_out (hp leaf level at_ hw)

theorem MarksEntry.entry {leaf : DWord} {level at_ : Nat} (h : MarksEntry s t (.ok (leaf, level, at_))) :
    Cells.readLE t.mem at_ 8 = Cells.readLE s.mem at_ 8 ∨
    Cells.readLE t.mem at_ 8 = Cells.readLE s.mem at_ 8 ||| 0x20 ∨
    Cells.readLE t.mem at_ 8 = Cells.readLE s.mem at_ 8 ||| 0x60 := by
  rcases h with h | ⟨_, _, _, bits, hw, hbits, h⟩
  · exact .inl (by rw [h.mem])
  · cases hw
    have small : bits < 2 ^ (8 * 8) := by rcases hbits with rfl | rfl <;> decide
    rw [h.readLE, Nat.mod_eq_of_lt (Nat.or_lt_two_pow (Cells.readLE_lt _ _ _) small)]
    rcases hbits with rfl | rfl
    · exact .inr (.inl rfl)
    · exact .inr (.inr rfl)

end

/-- Settles O18: a translation moves lines, and of memory it writes at most the entry that its walk ends at
(`MarksEntry.translate`). -/
theorem translationMarksItsEntry : Obligations.TranslationMarksItsEntry := by
  unfold Obligations.TranslationMarksItsEntry
  intro s core ctx va need
  have marks := MarksEntry.translate s core ctx va need
  refine ⟨marks.teams, marks.frameLab, marks.accesses, marks.hostKept, fun p hp => marks.get_out hp,
    fun leaf level at_ hw => ?_⟩
  rw [show (s.walkFor core ctx va.toNat).2 = .ok (leaf, level, at_) from hw] at marks
  exact marks.entry

end Sys2Proof.Machine
end

section
/-! PROOFS. STORE_PERFORM, STF_FLAG_ADD and ATOMIC_GROUP_PERFORM (R218, R239, R262, R267, R285, R358, R384, R416; O36). -/

namespace Sys2Proof.Machine

/-! ## When an access is performed -/

section

variable {s : State} {id : Nat} {a : Access} (hfind : s.accesses.find? (fun x => x.id == id) = some a)

include hfind

theorem id_of_find : a.id = id := by simpa using List.find?_some hfind

/-- An access that waits for nothing is performed by the event of its kind (R239, R285, R416, R422). -/
theorem performWhen_ready (hready : s.ready a = true) (hbudget : s.budgetFor a = true) {f : AccOp → Bool}
    (hf : f a.op = true) : s.performWhen id f = s.performAny a := by
  simp only [State.performWhen, State.tryPerform, hfind, hf, hready, hbudget, Bool.not_true, Bool.false_eq_true, if_false,
    if_true]

theorem performWhen_waits (hready : s.ready a = false) (f : AccOp → Bool) : s.performWhen id f = s := by
  simp only [State.performWhen, State.tryPerform, hfind, hready, Bool.not_false, if_true, ite_self]

section

variable (hready : s.ready a = true) (hbudget : s.budgetFor a = true)

include hready hbudget

theorem exec_storePerform {d : BitVec 1024} (hop : a.op = .store d) : exec (.storePerform id) s = .next (s.performAny a) := by
  show execStorePerform id s = _
  rw [execStorePerform, performWhen_ready hfind hready hbudget (by rw [hop])]

theorem exec_stfFlagAdd (hop : a.op = .flagAdd) : exec (.stfFlagAdd id) s = .next (s.performAny a) := by
  show execStfFlagAdd id s = _
  rw [execStfFlagAdd, performWhen_ready hfind hready hbudget (by rw [hop]; rfl)]

theorem exec_rmwPerform {op : Aop} {sg : Bool} {ops : List (Nat × DWord)} (hop : a.op = .rmw op sg ops) :
    exec (.atomicGroupPerform id) s = .next (s.performGroup a) := by
  show execAtomicGroupPerform id s = _
  rw [execAtomicGroupPerform, performWhen_ready hfind hready hbudget (by rw [hop]), State.performAny, hop]

theorem exec_casPerform {ops : List (Nat × DWord × DWord)} {labC : Label} (hop : a.op = .cas ops labC) :
    exec (.atomicGroupPerform id) s = .next (s.performGroup a) := by
  show execAtomicGroupPerform id s = _
  rw [execAtomicGroupPerform, performWhen_ready hfind hready hbudget (by rw [hop]), State.performAny, hop]

end

/-- An access that still waits stays where it is, whichever event names it. -/
theorem exec_waits (hready : s.ready a = false) : exec (.storePerform id) s = .next s ∧ exec (.stfFlagAdd id) s = .next s ∧
    exec (.atomicGroupPerform id) s = .next s :=
  ⟨congrArg Host.Outcome.next (performWhen_waits hfind hready _),
    congrArg Host.Outcome.next (performWhen_waits hfind hready _),
    congrArg Host.Outcome.next (performWhen_waits hfind hready _)⟩

end

/-! ## The value of an access at its home -/

section

variable {s : State} {a : Access} {pa : Nat}

/-- Beside its write an access marks its line and notes what it has written. -/
theorem CacheMove.putValue (s : State) (hpriv : a.priv = false) (x : Nat) (lab : Label) :
    CacheMove (s.store (s.writerOf a) a.place a.size x lab) (s.putValue a x lab) := by
  simp only [State.putValue, hpriv, Bool.false_eq_true, if_false]
  exact (CacheMove.markLine _ _ _ _).trans (.writeEchoes _ _)

theorem HomeWrite.putValue (s : State) (hp : a.place = .dev pa) (hpriv : a.priv = false) (x : Nat) (lab : Label) :
    HomeWrite s (s.putValue a x lab) pa a.size x lab := by
  refine HomeWrite.after ?_ (.putValue s hpriv x lab)
  rw [hp]
  exact .store s _ pa a.size x lab

theorem HomeWrite.performStore {d : BitVec 1024} (hp : a.place = .dev pa) (hpriv : a.priv = false) (hop : a.op = .store d) :
    ∃ t, s.performAny a = t.unqueue a.id ∧ HomeWrite s t pa a.size d.toNat a.lab := by
  refine ⟨(s.chargeAccess a).putValue a d.toNat a.lab, ?_, .before (.putValue _ hp hpriv _ _) (.chargeAccess s a)⟩
  simp only [State.performAny, State.performStore, hop, hp]

/-- A flag that is not poisoned rises by 1 (R267). -/
theorem HomeWrite.performFlag (hp : a.place = .dev pa) (hpriv : a.priv = false) (hop : a.op = .flagAdd)
    (hclean : s.poisoned a.place 8 = false) :
    ∃ t, s.performAny a = t.unqueue a.id ∧
      HomeWrite s t pa a.size ((Cells.readLE s.mem pa 8 + 1) % 2 ^ 64) a.lab := by
  refine ⟨(s.chargeAccess a).putValue a ((Cells.readLE s.mem pa 8 + 1) % 2 ^ 64) a.lab, ?_,
    .before (.putValue _ hp hpriv _ _) (.chargeAccess s a)⟩
  rw [hp] at hclean
  simp only [State.performAny, State.performStore, State.hostGet, State.readHome, hop, hp, hclean, Bool.false_eq_true,
    if_false]

/-- The increment of a poisoned flag ends its context (R358). -/
theorem performFlag_poisoned (hp : a.place = .dev pa) (hop : a.op = .flagAdd) (hpoison : s.poisoned a.place 8 = true)
    (hteam : a.team ≠ goneTeam) : s.performAny a = s.poisonEnd a := by
  rw [hp] at hpoison
  simp only [State.performAny, State.performStore, State.flagPoison, hop, hp, hpoison, if_true, if_neg hteam]

end

/-! ## What is done once a write stands at its home -/

/-- Warps moved, but no byte, no label and no queue. -/
structure Settled (s t : State) : Prop where
  mem : t.mem = s.mem
  hostMem : t.hostMem = s.hostMem
  frameLab : t.frameLab = s.frameLab
  accesses : t.accesses = s.accesses
  scratch : ∀ j, (t.team j).scratch = (s.team j).scratch

theorem Settled.refl (s : State) : Settled s s := ⟨rfl, rfl, rfl, rfl, fun _ => rfl⟩

theorem Settled.trans {s t u : State} (h : Settled s t) (g : Settled t u) : Settled s u :=
  ⟨g.mem.trans h.mem, g.hostMem.trans h.hostMem, g.frameLab.trans h.frameLab, g.accesses.trans h.accesses,
    fun j => (g.scratch j).trans (h.scratch j)⟩

theorem Settled.onWarp (s : State) (k w : Nat) (f : Warp → Warp) : Settled s (s.onWarp k w f) :=
  ⟨rfl, rfl, rfl, rfl, fun j => s.scratch_setWarp k w j _⟩

theorem Settled.ite {p : Prop} [Decidable p] {s t u : State} (h : Settled s t) (g : Settled s u) :
    Settled s (if p then t else u) := by
  split
  · exact h
  · exact g

theorem Settled.deliver (s : State) (k w id lane x : Nat) (lab : Label) : Settled s (s.deliver k w id lane x lab) :=
  .ite (.refl s) (.onWarp s k w _)

theorem Settled.settleHash (s : State) (k w access : Nat) (recs : List (Nat × DWord × DWord)) :
    Settled s (s.settleHash k w access recs) :=
  .ite (.refl s) (.onWarp s k w _)

section

variable {s t u : State} {pa n x id : Nat} {lab : Label}

/-- An access that has written its home and left its queue: the bytes, the frame's label and the queue. -/
theorem HomeWrite.performed (h : HomeWrite s t pa n x lab) (g : Settled (t.unqueue id) u) :
    WroteDev s u pa n lab ∧ Cells.readLE u.mem pa n = x % 2 ^ (8 * n) ∧
      u.accesses = s.accesses.filter (fun y => y.id != id) := by
  have hmem : u.mem = t.mem := g.mem
  have hlab : u.frameLab = t.frameLab := g.frameLab
  have hhost : u.hostMem = t.hostMem := g.hostMem
  refine ⟨⟨fun p hp => ?_, fun f => ?_, fun p => ?_, fun j p => ?_⟩, ?_, ?_⟩
  · rw [hmem]; exact h.get_out hp
  · rw [hlab]; exact h.get_frameLab f
  · rw [hhost]; exact h.host.1 p
  · rw [g.scratch]; exact congrArg (fun m => Cells.get (Cells.get m j).scratch p) h.teams
  · rw [hmem]; exact h.readLE
  · rw [g.accesses, ← h.accesses]; rfl

end

/-! ## Groups of an atomic (R253, R262) -/

/-- Each lane of a group acts on the value that the one before it leaves. -/
theorem groupRun_rmw {a : Access} {op : Aop} {sg : Bool} {ops : List (Nat × DWord)} (hop : a.op = .rmw op sg ops) (v : Nat) :
    (groupRun a v).1 = ops.foldl (fun v x => atomNew op sg (8 * a.size) v x.2.toNat) v := by
  simp only [groupRun, hop]
  exact (List.foldl_hom Prod.fst (fun _ _ => rfl)).symm

theorem groupRun_rmw_writes {a : Access} {op : Aop} {sg : Bool} {ops : List (Nat × DWord)} (hop : a.op = .rmw op sg ops)
    (hne : ops ≠ []) (v : Nat) : (groupRun a v).2.2.isEmpty = false := by
  obtain ⟨y, rest, rfl⟩ := List.exists_cons_of_ne_nil hne
  simp only [groupRun, hop, List.foldl_cons]
  exact List.foldlRecOn rest _ (motive := fun acc : Nat × List (Nat × Nat) × List (Nat × Nat) => acc.2.2.isEmpty = false)
    (by simp) (fun acc _ z _ => by simp)

/-- A compare and swap of one lane. -/
theorem groupRun_cas {a : Access} {l : Nat} {b e : DWord} {labC : Label} (hop : a.op = .cas [(l, b, e)] labC) (v : Nat) :
    groupRun a v = if v = e.toNat then (b.toNat, [(l, v)], [(l, b.toNat)]) else (v, [(l, v)], []) := by
  simp only [groupRun, hop, List.foldl_cons, List.foldl_nil, List.nil_append]

/-- The label of what a group compares with. -/
def Access.comparedLab (a : Access) : Label := match a.op with | .cas _ l => l | _ => 0

theorem Access.comparedLab_cas {a : Access} {ops : List (Nat × DWord × DWord)} {labC : Label} (hop : a.op = .cas ops labC) :
    a.comparedLab = labC := by
  rw [Access.comparedLab, hop]

/-- What an atomic writes carries its operands' labels alone. -/
theorem Access.comparedLab_rmw {a : Access} {op : Aop} {sg : Bool} {ops : List (Nat × DWord)} (hop : a.op = .rmw op sg ops) :
    a.lab ||| a.comparedLab = a.lab := by
  rw [Access.comparedLab, hop]
  exact BitVec.or_zero

/-- The state once a group's final value stands at its home, if some lane writes. -/
def State.groupWritten (s : State) (a : Access) (r : Nat × List (Nat × Nat) × List (Nat × Nat)) : State :=
  if r.2.2.isEmpty then s else s.putValue a r.1 (a.lab ||| a.comparedLab)

/-- The old values of a group given to its result, with the label of the unit they stood in. -/
def State.groupAnswered (s : State) (a : Access) (old : List (Nat × Nat)) (lab : Label) : State :=
  if a.res = 0 then s else old.foldl (fun s o => s.deliver a.team a.warp a.res o.1 o.2 lab) s

theorem Settled.groupAnswered (s : State) (a : Access) (old : List (Nat × Nat)) (lab : Label) :
    Settled s (s.groupAnswered a old lab) := by
  refine .ite (.refl s) ?_
  exact List.foldlRecOn old _ (motive := Settled s) (.refl s) (fun t h o _ => h.trans (.deliver t _ _ _ _ _ _))

section

variable {s : State} {a : Access} {pa : Nat}

/-- The state in which a group finds its value: it is charged, and its core's copy has caught up (R245). -/
def State.beforeGroup (s : State) (a : Access) : State :=
  ((s.chargeAccess a).hostGet a.place a.size true (s.whoOf a.ctx)).catchUp { a with nol1 := true }

/-- What a group does once it has run: it writes, leaves its queue, answers its result and settles the running hash. -/
def State.afterGroup (s : State) (a : Access) (r : Nat × List (Nat × Nat) × List (Nat × Nat)) : State :=
  let t := s.groupWritten a r
  let t := ((if a.res = 0 then t else t.readEchoes a (s.seenWrites a)).afterLook a.place a.size).unqueue a.id
  (t.groupAnswered a r.2.1 (s.unitLab a.place)).settleHash a.team a.warp a.id
    (r.2.2.map (fun o => (o.1, a.va, BitVec.ofNat 64 o.2)))

theorem performGroup_eq (hp : a.place = .dev pa) (hclean : s.poisoned a.place a.size = false) : s.performGroup a =
    (s.beforeGroup a).afterGroup a (groupRun a ((s.beforeGroup a).look a.core a.priv true a.place a.size)) := by
  unfold State.performGroup
  split
  · next h => rw [hp] at h; exact nomatch h
  · rw [hclean, if_neg Bool.false_ne_true]
    rfl

theorem CacheMove.beforeGroup (hp : a.place = .dev pa) : CacheMove s (s.beforeGroup a) := by
  simp only [State.beforeGroup, State.hostGet, hp]
  exact (CacheMove.chargeAccess s a).trans (.catchUp _ _)

/-- A group finds what stands at its home, where no lane-local copy alone holds bytes of it (R215, R262). -/
theorem beforeGroup_look (hp : a.place = .dev pa) (hpriv : a.priv = false) (hhome : s.straddles a.place a.size = false) :
    (s.beforeGroup a).look a.core a.priv true a.place a.size = Cells.readLE s.mem pa a.size := by
  have moved := CacheMove.beforeGroup (s := s) hp
  rw [hp] at hhome ⊢
  simp [State.look, hpriv, moved.straddles hhome, State.readHome, moved.mem]

/-- Between its write and its answer a group's lines move at most. -/
theorem afterGroup_eq (s : State) (a : Access) (r : Nat × List (Nat × Nat) × List (Nat × Nat)) :
    ∃ v, CacheMove (s.groupWritten a r) v ∧ s.afterGroup a r =
      ((v.unqueue a.id).groupAnswered a r.2.1 (s.unitLab a.place)).settleHash a.team a.warp a.id
        (r.2.2.map (fun o => (o.1, a.va, BitVec.ofNat 64 o.2))) :=
  ⟨_, (CacheMove.ite (p := a.res = 0) (.refl _) (.readEchoes _ a (s.seenWrites a))).trans (.afterLook _ a.place a.size), rfl⟩

/-- A group at its home: it runs on what stands there, lines move, and it answers and leaves its queue (R253, R262). -/
theorem performGroup_moves (hp : a.place = .dev pa) (hpriv : a.priv = false) (hclean : s.poisoned a.place a.size = false)
    (hhome : s.straddles a.place a.size = false) :
    let r := groupRun a (Cells.readLE s.mem pa a.size)
    ∃ u v, CacheMove s u ∧ CacheMove (u.groupWritten a r) v ∧
      s.performGroup a = ((v.unqueue a.id).groupAnswered a r.2.1 (Cells.get s.frameLab (pa / 4096))).settleHash a.team a.warp
        a.id (r.2.2.map (fun o => (o.1, a.va, BitVec.ofNat 64 o.2))) := by
  have moved := CacheMove.beforeGroup (s := s) hp
  have label : (s.beforeGroup a).unitLab a.place = Cells.get s.frameLab (pa / 4096) := by
    rw [hp, State.unitLab, moved.frameLab]
  obtain ⟨v, after, hx⟩ := afterGroup_eq (s.beforeGroup a) a (groupRun a (Cells.readLE s.mem pa a.size))
  refine ⟨_, v, moved, after, ?_⟩
  rw [performGroup_eq hp hclean, beforeGroup_look hp hpriv hhome, hx, label]

theorem HomeWrite.groupWritten {r : Nat × List (Nat × Nat) × List (Nat × Nat)} (s : State) (hp : a.place = .dev pa)
    (hpriv : a.priv = false) (hw : r.2.2.isEmpty = false) :
    HomeWrite s (s.groupWritten a r) pa a.size r.1 (a.lab ||| a.comparedLab) := by
  rw [State.groupWritten, hw, if_neg Bool.false_ne_true]
  exact .putValue s hp hpriv _ _

end

/-! ## What a group answers (R253) -/

theorem Warp.drain_results (w : Warp) : w.drain.results = w.results := by
  unfold Warp.drain
  dsimp only
  split
  · rfl
  · rfl

theorem State.settleHash_results (s : State) (k w access : Nat) (recs : List (Nat × DWord × DWord)) :
    ((s.settleHash k w access recs).warp k w).results = (s.warp k w).results := by
  unfold State.settleHash
  split
  · rfl
  · rw [State.warp_onWarp, Warp.drain_results]

theorem State.deliver_results {s : State} {k : Nat} (ht : (Cells.find? s.teams k).isSome = true) (w id lane x : Nat)
    (lab : Label) : ((s.deliver k w id lane x lab).warp k w).results =
      (s.warp k w).results.map (fun r => if r.id = id then { r with kind := r.kind.give lane x lab } else r) ∧
    (Cells.find? (s.deliver k w id lane x lab).teams k).isSome = true := by
  have hn : (Cells.find? s.teams k).isNone = false := by simpa using ht
  unfold State.deliver
  rw [hn, if_neg Bool.false_ne_true, State.warp_onWarp]
  exact ⟨rfl, State.placed_onWarp _ _ _ _⟩

/-- A result of the group gathers the old value of each lane, and the others stay. -/
theorem State.groupAnswered_results {s : State} {a : Access} (hres : a.res ≠ 0)
    (ht : (Cells.find? s.teams a.team).isSome = true) (old : List (Nat × Nat)) (lab : Label) :
    ((s.groupAnswered a old lab).warp a.team a.warp).results = (s.warp a.team a.warp).results.map (fun r =>
      if r.id = a.res then { r with kind := old.foldl (fun k o => k.give o.1 o.2 lab) r.kind } else r) := by
  rw [State.groupAnswered, if_neg hres]
  induction old generalizing s with
  | nil => simp
  | cons o rest ih =>
    obtain ⟨given, listed⟩ := State.deliver_results ht a.warp a.res o.1 o.2 lab
    rw [List.foldl_cons, ih listed, given, List.map_map]
    refine List.map_congr_left (fun r _ => ?_)
    by_cases h : r.id = a.res
    · simp [h]
    · simp [h]

/-! ## The groups of RMW and CAS -/

section

variable {s : State} {a : Access} {pa : Nat} (hp : a.place = .dev pa) (hpriv : a.priv = false)
  (hclean : s.poisoned a.place a.size = false) (hhome : s.straddles a.place a.size = false)

include hp hpriv hclean hhome

/-- A group some lane of which writes: its final value stands at the home, and it has left its queue. -/
theorem performGroup_writes {r : Nat × List (Nat × Nat) × List (Nat × Nat)}
    (hr : groupRun a (Cells.readLE s.mem pa a.size) = r) (hw : r.2.2.isEmpty = false) :
    WroteDev s (s.performGroup a) pa a.size (a.lab ||| a.comparedLab) ∧
    Cells.readLE (s.performGroup a).mem pa a.size = r.1 % 2 ^ (8 * a.size) ∧
    (s.performGroup a).accesses = s.accesses.filter (fun y => y.id != a.id) := by
  obtain ⟨u, v, hu, hv, hx⟩ := performGroup_moves hp hpriv hclean hhome
  rw [hr] at hv hx
  rw [hx]
  exact (((HomeWrite.groupWritten u hp hpriv hw).before hu).after hv).performed
    ((Settled.groupAnswered _ _ _ _).trans (.settleHash _ _ _ _ _))

/-- A group no lane of which writes. -/
theorem performGroup_keeps {r : Nat × List (Nat × Nat) × List (Nat × Nat)}
    (hr : groupRun a (Cells.readLE s.mem pa a.size) = r) (hw : r.2.2.isEmpty = true) :
    (s.performGroup a).mem = s.mem ∧ (s.performGroup a).frameLab = s.frameLab ∧
    (s.performGroup a).accesses = s.accesses.filter (fun y => y.id != a.id) := by
  obtain ⟨u, v, hu, hv, hx⟩ := performGroup_moves hp hpriv hclean hhome
  rw [hr] at hv hx
  rw [State.groupWritten, if_pos hw] at hv
  have moved := hu.trans hv
  have ended := (Settled.groupAnswered (v.unqueue a.id) a r.2.1 (Cells.get s.frameLab (pa / 4096))).trans
    (.settleHash _ a.team a.warp a.id (r.2.2.map (fun o => (o.1, a.va, BitVec.ofNat 64 o.2))))
  rw [hx]
  refine ⟨ended.mem.trans moved.mem, ended.frameLab.trans moved.frameLab, ended.accesses.trans ?_⟩
  rw [← moved.accesses]
  rfl

/-- The result of a group gathers the old value of each lane. -/
theorem performGroup_results (hres : a.res ≠ 0) (ht : (Cells.find? s.teams a.team).isSome = true) :
    ((s.performGroup a).warp a.team a.warp).results = (s.warp a.team a.warp).results.map (fun r => if r.id = a.res then
      { r with kind := ((groupRun a (Cells.readLE s.mem pa a.size)).2.1.foldl
          (fun k o => k.give o.1 o.2 (Cells.get s.frameLab (pa / 4096))) r.kind) } else r) := by
  obtain ⟨u, v, hu, hv, hx⟩ := performGroup_moves hp hpriv hclean hhome
  have teams : (v.unqueue a.id).teams = s.teams := by
    refine hv.teams.trans (Eq.trans ?_ hu.teams)
    cases hw : (groupRun a (Cells.readLE s.mem pa a.size)).2.2.isEmpty with
    | true => rw [State.groupWritten, if_pos hw]
    | false => exact (HomeWrite.groupWritten u hp hpriv hw).teams
  rw [hx, State.settleHash_results, State.groupAnswered_results hres (teams ▸ ht), State.warp_of_teams teams]

end

/-! ## Stores to a scratchpad and to another module -/

section

variable {s : State} {a : Access} {d : BitVec 1024}

/-- A store to the scratchpad of a placed team: its bytes, its unit's label, and no byte of memory (R126). -/
theorem performStore_scratch {k o : Nat} (hp : a.place = .scr k o) (hpriv : a.priv = false) (hop : a.op = .store d)
    (ht : (Cells.find? s.teams k).isSome = true) : (s.performAny a).mem = s.mem ∧
      ((s.performAny a).team k).scratch = Cells.writeLE (s.team k).scratch o a.size d.toNat ∧
      ((s.performAny a).team k).scratchLab = Cells.modify (s.team k).scratchLab (o / 128) (· ||| a.lab) := by
  have charged := CacheMove.chargeAccess s a
  have hn : ¬(Cells.find? (s.chargeAccess a).teams k).isNone = true := by
    rw [charged.teams, Bool.not_eq_true]; simpa using ht
  have put := CacheMove.putValue (s.chargeAccess a) hpriv d.toNat a.lab
  have stored : (s.chargeAccess a).store ((s.chargeAccess a).writerOf a) a.place a.size d.toNat a.lab =
      (s.chargeAccess a).onTeam k (fun tm => { tm with
        scratch := Cells.writeLE tm.scratch o a.size d.toNat
        scratchLab := Cells.modify tm.scratchLab (o / 128) (· ||| a.lab) }) := by
    rw [hp]
    exact if_neg hn
  have hx : s.performAny a = ((s.chargeAccess a).putValue a d.toNat a.lab).unqueue a.id := by
    simp only [State.performAny, State.performStore, hop, hp]
  rw [stored] at put
  have team : (s.performAny a).team k = { s.team k with
      scratch := Cells.writeLE (s.team k).scratch o a.size d.toNat
      scratchLab := Cells.modify (s.team k).scratchLab (o / 128) (· ||| a.lab) } := by
    rw [hx]
    refine (congrArg (Cells.get · k) put.teams).trans ((Cells.get_put_self _ _ _).trans ?_)
    rw [State.team, charged.teams]
    rfl
  refine ⟨?_, by rw [team], by rw [team]⟩
  rw [hx]
  exact put.mem.trans charged.mem

theorem State.chargeAccess_fabric (s : State) (a : Access) : (s.chargeAccess a).fabric = s.fabric :=
  List.foldlRecOn _ _ (motive := fun t : State => t.fabric = s.fabric) rfl (fun _ h _ _ => h)

/-- An access to another module leaves as a flit on its domain's network and waits for the answer (R384, R395). -/
theorem performStore_peer {m v pa : Nat} (hp : a.place = .peer m v pa) (hop : a.op = .store d) (ha : a ∈ s.accesses) :
    (s.performAny a).mem = s.mem ∧ { a with sent := true } ∈ (s.performAny a).accesses ∧
      ∃ f, (s.performAny a).fabric.sent = s.fabric.sent ++ [f] ∧ f.dst = m ∧ f.vn = domNet a.dom ∧ f.lab = a.lab := by
  have hx : s.performAny a = s.sendAccess a := by simp only [State.performAny, State.performStore, hop, hp]
  have marked : { a with sent := true } ∈
      s.accesses.map (fun (y : Access) => if y.id = a.id then { y with sent := true } else y) :=
    List.mem_map.mpr ⟨a, ha, if_pos rfl⟩
  unfold State.sendAccess at hx
  rw [hp] at hx
  dsimp only at hx
  generalize s.accesses.map (fun (y : Access) => if y.id = a.id then { y with sent := true } else y) = queue at marked hx
  have charged := CacheMove.chargeAccess { s with accesses := queue } a
  have fabric := State.chargeAccess_fabric { s with accesses := queue } a
  rw [hx]
  refine ⟨charged.mem, ?_, _, congrArg (fun f => f.sent ++ _) fabric, rfl, rfl, rfl⟩
  exact charged.accesses ▸ marked

end

/-- Settles O36: a write at its home (`HomeWrite`) is all that a store, a flag or a group does to memory, lines that move
(`CacheMove`) and warps that are told (`Settled`) apart. -/
theorem accessesArePerformed : Obligations.AccessesArePerformed := by
  unfold Obligations.AccessesArePerformed
  refine ⟨fun s id pa a hfind hready hbudget hpriv => ?_, fun s id a hfind hready => exec_waits hfind hready⟩
  obtain rfl := id_of_find hfind
  refine ⟨fun hp => ⟨fun d hop => ?_, fun hop hsize hpoison hteam => ?_, fun hop hsize hclean => ?_,
    fun hclean hhome => ⟨fun op sg ops hop hne => ?_, fun l e b labC hop => ?_⟩⟩, fun k o d hp ht hop => ?_,
    fun m v d hp hop => ?_⟩
  · obtain ⟨t, hx, h⟩ := HomeWrite.performStore hp hpriv hop
    exact ⟨_, hx ▸ exec_storePerform hfind hready hbudget hop, h.performed (.refl _)⟩
  · rw [exec_stfFlagAdd hfind hready hbudget hop, performFlag_poisoned hp hop hpoison hteam]
  · obtain ⟨t, hx, h⟩ := HomeWrite.performFlag hp hpriv hop hclean
    rw [hsize] at h
    obtain ⟨hwrote, hread, hqueue⟩ := h.performed (.refl (t.unqueue a.id))
    exact ⟨_, hx ▸ exec_stfFlagAdd hfind hready hbudget hop, hwrote, hread.trans (Nat.mod_mod _ _), hqueue⟩
  · have writes := performGroup_writes hp hpriv hclean hhome rfl (groupRun_rmw_writes hop hne _)
    rw [groupRun_rmw hop, Access.comparedLab_rmw hop] at writes
    obtain ⟨hwrote, hread, hqueue⟩ := writes
    exact ⟨_, exec_rmwPerform hfind hready hbudget hop, hwrote, hread, performGroup_results hp hpriv hclean hhome, hqueue⟩
  · have run := groupRun_cas hop (Cells.readLE s.mem pa a.size)
    refine ⟨_, exec_casPerform hfind hready hbudget hop, ?_⟩
    by_cases heq : Cells.readLE s.mem pa a.size = e.toNat
    · rw [if_pos heq] at run
      obtain ⟨hwrote, hread, hqueue⟩ := performGroup_writes hp hpriv hclean hhome run rfl
      rw [Access.comparedLab_cas hop] at hwrote
      exact ⟨fun _ => ⟨hwrote, hread⟩, fun hne => absurd heq hne, hqueue⟩
    · rw [if_neg heq] at run
      obtain ⟨hmem, hlab, hqueue⟩ := performGroup_keeps hp hpriv hclean hhome run rfl
      exact ⟨fun h => absurd h heq, fun _ => ⟨hmem, hlab⟩, hqueue⟩
  · obtain ⟨hmem, hbytes, hlab⟩ := performStore_scratch hp hpriv hop ht
    refine ⟨_, exec_storePerform hfind hready hbudget hop, hmem, ?_, fun p hout => ?_, ?_⟩
    · rw [hbytes, Cells.readLE_writeLE]
    · rw [hbytes, Cells.get_writeLE_out _ hout]
    · rw [hlab, Cells.get_modify, if_pos rfl]
  · exact ⟨_, exec_storePerform hfind hready hbudget hop, performStore_peer hp hop (List.mem_of_find?_eq_some hfind)⟩

end Sys2Proof.Machine
end

section
/-! PROOFS. INVALIDATE_VA, BIAS_FLIP and WATCH_SET by command, and how the first two end (R229, R284, R418; O44). -/

namespace Sys2Proof.Machine

/-! ## Commands that name no context -/

section

variable {s u : State} {fn : Fn} {c : BitVec 512} {i : Instr} {ok : Bool} {js : JState} {st st' : Status}
  {detail : Option Nat}

/-- A command whose effect leaves its entry for the end answers, and its entry shows how far it has come (R190, R196). -/
theorem answers_of_entry (h : Takes s fn c = true) (hask : s.commandAsk fn (some c) = none)
    (hx : exec i s = hostCommand fn c true ok s) (hok : ok = true)
    (ha : s.answerTo fn c true = some (u.journalSet (s.entryRef fn) js st' detail, st))
    (hu : u.ports = (s.recorded fn c).ports) :
    ∃ t, Answers i s t fn c st ∧ Recorded s t fn c js st' ∧ JournalMove u t := by
  have hnew : Recorded s u fn c .accepted .ok :=
    (recorded_recorded s _ c).of_port (congrArg (fun p => Cells.get p fn.port) hu)
  exact ⟨_, answers_of_process h hask hx hok (process_of_takes h ha), (hnew.journalSet rfl _ _ _).cmdStat _ _,
    (JournalMove.journalSet u _ _ _ _).trans (.cmdStat _ _ _ _)⟩

end

/-! ## INVALIDATE_VA (R229) -/

/-- The context, first page and number of pages of an INVALIDATE_VA with the accesses that it waits for. -/
def State.invalidation (s : State) (r : JRef) (k : Nat) (c : BitVec 512) : JRef × Nat × Nat × Nat × List Nat :=
  (r, k, (cmdOp c 0).toNat / 4096, (cmdOp c 1).toNat / 4096, s.inFlight k)

theorem cmdInvalidate_range {s : State} {r : JRef} {k : Nat} {c : BitVec 512} (h : 4096 ≤ (cmdOp c 1).toNat) :
    s.cmdInvalidate r k c = some (({ s.dropRange k ((cmdOp c 0).toNat / 4096) ((cmdOp c 1).toNat / 4096) with
      invals := s.invals ++ [s.invalidation r k c] } : State).journalSet r .running .ok none, .ok) := by
  have pages : (cmdOp c 1).toNat / 4096 ≠ 0 := by omega
  simp only [State.cmdInvalidate, State.goesOn, State.invalidation, if_neg pages]

/-- No core keeps a translation of a context that reaches into a range that was dropped. -/
theorem State.dropRange_tlb (s : State) (k first pages : Nat) :
    ∀ y ∈ (s.dropRange k first pages).cores, ∀ e ∈ y.2.tlb, e.ctx = k →
      e.vpage + e.pages ≤ first ∨ first + pages ≤ e.vpage := by
  intro y hy e he hctx
  obtain ⟨d, -, rfl⟩ := List.mem_map.mp hy
  have kept := (List.mem_filter.mp he).2
  simp only [hctx, beq_self_eq_true, Bool.true_and, Bool.not_eq_true', Bool.and_eq_false_iff, decide_eq_false_iff_not] at kept
  omega

section

variable {s : State} {n k : Nat} {c : BitVec 512} {x : Context}

theorem contextCommand_invalidate {r : JRef} (h : cmdType c = 8) : s.contextCommand r k c = s.cmdInvalidate r k c := by
  simp only [State.contextCommand, h]

theorem contextCommand_watch {r : JRef} (h : cmdType c = 10) : s.contextCommand r k c = s.cmdWatch r k c := by
  simp only [State.contextCommand, h]

theorem invalidateVa_runs (h : Takes s (.vf n) c = true) (hk : s.namedContext (.vf n) c = some k) (htype : cmdType c = 8)
    (hrange : 4096 ≤ (cmdOp c 1).toNat) : ∃ t, Answers (.invalidateVa (.vf n) c) s t (.vf n) c .ok ∧
      Recorded s t (.vf n) c .running .ok ∧ t.mem = s.mem ∧
      (∀ y ∈ t.cores, ∀ e ∈ y.2.tlb, e.ctx = k → e.vpage + e.pages ≤ (cmdOp c 0).toNat / 4096 ∨
        (cmdOp c 0).toNat / 4096 + (cmdOp c 1).toNat / 4096 ≤ e.vpage) ∧
      t.invals = s.invals ++ [s.invalidation (s.entryRef (.vf n)) k c] := by
  obtain ⟨t, ha, hr, hm⟩ := steers_of_contextCommand (i := .invalidateVa (.vf n) c) h (commandAsk_of_type (by simp [htype]))
    (by rw [htype]; rfl) hk rfl (by simp [htype]) ((contextCommand_invalidate htype).trans (cmdInvalidate_range hrange)) rfl
  refine ⟨t, ha, hr, hm.same State.mem (fun _ _ _ => rfl), ?_, hm.same State.invals (fun _ _ _ => rfl)⟩
  rw [hm.same State.cores (fun _ _ _ => rfl)]
  exact (s.recorded (.vf n) c).dropRange_tlb k _ _

/-- The state in which an INVALIDATE_VA ends: its range is dropped once more, and it is listed no longer. -/
def State.invalidated (s : State) (v : JRef × Nat × Nat × Nat × List Nat) : State :=
  { s.dropRange v.2.1 v.2.2.1 v.2.2.2.1 with invals := s.invals.erase v }

/-- INVALIDATE_VA_COMPLETE, once nothing that may have used an old entry is on its way: its entry is Completed. -/
theorem invalidateVaComplete_completes {fn : Fn} {seq : Nat} {v : JRef × Nat × Nat × Nat × List Nat}
    (hv : s.invals.find? (fun v => v.1 == (fn.port, seq)) = some v) (hidle : v.2.2.2.2.any (s.onTheWay v.2.1) = false) :
    ∃ t, exec (.invalidateVaComplete fn seq) s = .next t ∧ t.invals = s.invals.erase v ∧ t.mem = s.mem ∧
      (∀ e ∈ (s.port v.1.1).journal, e.seq = v.1.2 → e.st.final = false →
        { e with st := .completed, status := .ok } ∈ (t.port v.1.1).journal) := by
  have hx : exec (.invalidateVaComplete fn seq) s = .next ((s.invalidated v).journalSet v.1 .completed .ok none) := by
    simp only [exec, execInvalidateVaComplete, hv, hidle, State.invalidated, Bool.false_eq_true, if_false]
  have moved := JournalMove.journalSet (s.invalidated v) v.1 .completed .ok none
  exact ⟨_, hx, moved.same State.invals (fun _ _ _ => rfl), moved.same State.mem (fun _ _ _ => rfl),
    fun e he hseq hopen => State.mem_journalSet (s := s.invalidated v) he hseq hopen .completed .ok none⟩

theorem invalidateVaComplete_waits {fn : Fn} {seq : Nat} {v : JRef × Nat × Nat × Nat × List Nat}
    (hv : s.invals.find? (fun v => v.1 == (fn.port, seq)) = some v) (hbusy : v.2.2.2.2.any (s.onTheWay v.2.1) = true) :
    exec (.invalidateVaComplete fn seq) s = .next s := by
  simp only [exec, execInvalidateVaComplete, hv, hbusy, if_true]

/-! ## WATCH_SET (R284) -/

/-- The windows of a context but the one that a WATCH_SET names. -/
def Context.otherWindows (x : Context) (c : BitVec 512) := x.windows.filter (fun w => w.n != field (cmdOp c 0) 2 0)

theorem cmdWatch_removes {r : JRef} (h : bit (cmdOp c 0) 7 = false) : s.cmdWatch r k c =
    some ((s.onContext k (fun x => { x with windows := (s.context k).otherWindows c })).journalSet r .completed .ok none,
      .ok) := by
  simp only [State.cmdWatch, h, State.done, Context.otherWindows, Bool.not_false, if_true]

theorem cmdWatch_enables {r : JRef} (h : bit (cmdOp c 0) 7 = true)
    (hfree : ∀ w ∈ (s.context k).otherWindows c, (cmdOp c 1).toNat + (cmdOp c 2).toNat ≤ w.base.toNat ∨
      w.base.toNat + w.len ≤ (cmdOp c 1).toNat) : s.cmdWatch r k c =
    some ((s.onContext k (fun x => { x with windows := (s.context k).otherWindows c ++
      [{ n := field (cmdOp c 0) 2 0, base := cmdOp c 1, len := (cmdOp c 2).toNat }] })).journalSet r .completed .ok none,
      .ok) := by
  have apart : ((s.context k).otherWindows c).any (fun w => decide (w.base.toNat < (cmdOp c 1).toNat + (cmdOp c 2).toNat) &&
      decide ((cmdOp c 1).toNat < w.base.toNat + w.len)) = false := by
    refine List.any_eq_false.mpr (fun w hw => ?_)
    have := hfree w hw
    simp only [Bool.and_eq_true, decide_eq_true_eq]
    omega
  unfold Context.otherWindows at apart
  simp only [State.cmdWatch, h, State.done, Context.otherWindows, apart, Bool.not_true, Bool.false_eq_true, if_false]

section

variable (h : Takes s (.vf n) c = true) (hk : s.namedContext (.vf n) c = some k) (hx : Cells.find? s.contexts k = some x)
  (htype : cmdType c = 10)

include h hk hx htype

/-- A WATCH_SET that sets the windows of its context is Completed at once. -/
theorem watch_sets {i : Instr} {ok : Bool} (hi : exec i s = hostCommand (.vf n) c true ok s) (hok : ok = true)
    {ws : List Window}
    (ha : (s.recorded (.vf n) c).cmdWatch (s.entryRef (.vf n)) k c =
      some (((s.recorded (.vf n) c).onContext k (fun x => { x with windows := ws })).journalSet (s.entryRef (.vf n))
        .completed .ok none, .ok)) :
    ∃ t, Answers i s t (.vf n) c .ok ∧ Recorded s t (.vf n) c .completed .ok ∧ (t.context k).windows = ws := by
  obtain ⟨t, ha, hr, hm⟩ := steers_of_contextCommand (i := i) h (commandAsk_of_type (by simp [htype]))
    (by rw [htype]; rfl) hk hi hok ((contextCommand_watch htype).trans ha) rfl
  refine ⟨t, ha, hr, (hm.same (fun u => (u.context k).windows) (fun _ _ _ => rfl)).trans ?_⟩
  exact congrArg Context.windows (State.context_onContext (s := s.recorded (.vf n) c) hx _)

theorem watchRemove_removes (hbit : bit (cmdOp c 0) 7 = false) :
    ∃ t, Answers (.watchRemove (.vf n) c) s t (.vf n) c .ok ∧ Recorded s t (.vf n) c .completed .ok ∧
      (t.context k).windows = x.otherWindows c := by
  rw [← State.context_of_find? hx]
  exact watch_sets h hk hx htype (i := .watchRemove (.vf n) c) rfl (by rw [htype, hbit]; rfl) (cmdWatch_removes hbit)

theorem watchSet_enables (hbit : bit (cmdOp c 0) 7 = true)
    (hfree : ∀ w ∈ x.otherWindows c, (cmdOp c 1).toNat + (cmdOp c 2).toNat ≤ w.base.toNat ∨
      w.base.toNat + w.len ≤ (cmdOp c 1).toNat) :
    ∃ t, Answers (.watchSet (.vf n) c) s t (.vf n) c .ok ∧ Recorded s t (.vf n) c .completed .ok ∧
      (t.context k).windows = x.otherWindows c ++
        [{ n := field (cmdOp c 0) 2 0, base := cmdOp c 1, len := (cmdOp c 2).toNat }] := by
  rw [← State.context_of_find? hx] at hfree ⊢
  exact watch_sets h hk hx htype (i := .watchSet (.vf n) c) rfl (by rw [htype, hbit]; rfl) (cmdWatch_enables hbit hfree)

end

end

/-! ## BIAS_FLIP (R418) -/

section

variable {s : State} {c : BitVec 512}

/-- A BIAS_FLIP that the physical function's port takes names a frame of the device's memory. -/
theorem flipFrame_inDram (h : Takes s .pf c = true) (htype : cmdType c = 9) :
    rangeInDram (cmdOp c 0).toNat 4096 = true := by
  simp only [Takes, Bool.and_eq_true] at h
  obtain ⟨⟨-, hops⟩, -⟩ := h
  simp only [operandsOk, htype, Bool.and_eq_true] at hops
  exact hops.2

theorem answerTo_biasFlip (htype : cmdType c = 9) :
    s.answerTo .pf c true = (s.recorded .pf c).cmdBiasFlip (s.entryRef .pf) .pf c := by
  unfold State.answerTo State.plainCommand
  rw [htype]
  rfl

/-- The state with one flip queued, that of a command's entry. -/
def State.withFlip (s : State) (r : JRef) (c : BitVec 512) : State :=
  { s with flips := [{ port := r.1, jseq := r.2, frame := (cmdOp c 0).toNat, toDevice := bit (cmdOp c 1) 0 }] }

/-- A flip is queued while no other is, unless its frame has the bias that it asks for. -/
theorem cmdBiasFlip_idle {r : JRef} (hdram : rangeInDram (cmdOp c 0).toNat 4096 = true) (hidle : s.flips = []) :
    s.cmdBiasFlip r .pf c = if (!s.bias.contains ((cmdOp c 0).toNat / 4096)) = bit (cmdOp c 1) 0 then s.done r none
      else (s.withFlip r c).goesOn r := by
  simp only [State.cmdBiasFlip, State.withFlip, hdram, hidle, Bool.not_true, Bool.false_eq_true, if_false, List.filter_nil,
    List.getLast?_nil, List.isEmpty_nil, and_true, List.nil_append]

/-- The event of a BIAS_FLIP is that of the bias that it asks for. -/
def flipEvent (fn : Fn) (c : BitVec 512) : Instr :=
  if bit (cmdOp c 1) 0 then .biasFlipToDevice fn c else .biasFlipToHost fn c

theorem exec_flipEvent (fn : Fn) (htype : cmdType c = 9) :
    exec (flipEvent fn c) s = hostCommand fn c true true s := by
  unfold flipEvent
  split
  · next h => simp only [exec, execBiasFlipToDevice, htype, h, beq_self_eq_true, Bool.and_self]
  · next h => simp only [exec, execBiasFlipToHost, htype, h, beq_self_eq_true, Bool.not_false, Bool.and_self]

section

variable (h : Takes s .pf c = true) (htype : cmdType c = 9) (hidle : s.flips = [])

include h htype hidle

theorem biasFlip_queues (hbias : s.bias.contains ((cmdOp c 0).toNat / 4096) = bit (cmdOp c 1) 0) :
    ∃ t, Answers (flipEvent .pf c) s t .pf c .ok ∧ Recorded s t .pf c .running .ok ∧
      t.flips = [{ port := 0, jseq := (s.port 0).tail, frame := (cmdOp c 0).toNat, toDevice := bit (cmdOp c 1) 0 }] ∧
      t.bias = s.bias := by
  have flips := (cmdBiasFlip_idle (s := s.recorded .pf c) (r := s.entryRef .pf) (flipFrame_inDram h htype) hidle).trans
    (if_neg (fun h => Bool.not_eq.mp h hbias))
  obtain ⟨t, ha, hr, hm⟩ := answers_of_entry h (commandAsk_of_type (by simp [htype])) (exec_flipEvent .pf htype) rfl
    ((answerTo_biasFlip htype).trans flips) rfl
  exact ⟨t, ha, hr, hm.same State.flips (fun _ _ _ => rfl), hm.same State.bias (fun _ _ _ => rfl)⟩

theorem biasFlip_done (hbias : s.bias.contains ((cmdOp c 0).toNat / 4096) ≠ bit (cmdOp c 1) 0) :
    ∃ t, Answers (flipEvent .pf c) s t .pf c .ok ∧ Recorded s t .pf c .completed .ok ∧ t.flips = [] ∧ t.bias = s.bias := by
  have flips := (cmdBiasFlip_idle (s := s.recorded .pf c) (r := s.entryRef .pf) (flipFrame_inDram h htype) hidle).trans
    (if_pos (Bool.not_eq.mpr hbias))
  obtain ⟨t, ha, hr, hm⟩ := answers_of_entry h (commandAsk_of_type (by simp [htype])) (exec_flipEvent .pf htype) rfl
    ((answerTo_biasFlip htype).trans flips) rfl
  exact ⟨t, ha, hr, (hm.same State.flips (fun _ _ _ => rfl)).trans hidle, hm.same State.bias (fun _ _ _ => rfl)⟩

end

/-! ## The end of a flip -/

theorem State.setBias_contains (s : State) (frame : Nat) (toDevice : Bool) :
    (s.setBias frame toDevice).bias.contains (frame / 4096) = !toDevice := by
  cases toDevice with
  | true => simp [State.setBias]
  | false =>
    by_cases h : frame / 4096 ∈ s.bias
    · simp [State.setBias, State.l2Clean, h]
    · simp [State.setBias, State.l2Clean, h]

theorem State.setBias_mem (s : State) (frame : Nat) (toDevice : Bool) : (s.setBias frame toDevice).mem = s.mem := by
  cases toDevice <;> rfl

/-- No half of a frame in device bias stays with the host. -/
theorem State.setBias_halves (s : State) (frame : Nat) {i : Nat} (hi : i < 64) :
    Cells.get (s.setBias frame true).halves (frame / 64 + i) = .dev :=
  (Cells.get_clear s.halves (frame / 64) 64 _).trans (if_pos ⟨Nat.le_add_right _ _, by omega⟩)

/-- BIAS_FLIP_COMPLETE of the only flip, with no channel inside a line of its frame. -/
theorem biasFlipComplete_flips {fn : Fn} {seq : Nat} {f : Flip} (hf : s.flips = [f]) (hport : f.port = fn.port)
    (hseq : f.jseq = seq) (hline : f.toDevice = false → s.midLine f.frame = false) :
    exec (.biasFlipComplete fn seq) s = .next (({ s.setBias f.frame f.toDevice with flips := [] } : State).journalSet
      (f.port, f.jseq) .completed .ok none) := by
  have alone : s.flips.takeWhile (fun g => g != f) = [] := by simp [hf]
  have found : s.flips.find? (fun f => f.port == fn.port && f.jseq == seq) = some f := by simp [hf, hport, hseq]
  have atLine : (!f.toDevice && s.midLine f.frame) = false := by
    cases hd : f.toDevice with
    | true => rfl
    | false => exact hline hd
  have gone : s.flips.erase f = [] := by simp [hf]
  simp only [exec, execBiasFlipComplete, found, alone, List.any_nil, atLine, gone, Bool.or_self, Bool.false_eq_true, if_false]

end

/-- Settles O44: each command's entry and answer are those of its own operation on translations, flips or windows
(`steers_of_contextCommand`, `answers_of_entry`). -/
theorem commandsOnPagesAndWindows : Obligations.CommandsOnPagesAndWindows := by
  unfold Obligations.CommandsOnPagesAndWindows
  intro s n k c x hx
  refine ⟨fun h hk => ⟨fun htype hrange => ?_, fun htype => ⟨fun hbit => watchRemove_removes h hk hx htype hbit,
      fun hbit hfree => watchSet_enables h hk hx htype hbit hfree⟩⟩,
    fun seq v hv => ⟨invalidateVaComplete_completes hv, invalidateVaComplete_waits hv⟩,
    fun h htype hidle => ⟨biasFlip_queues h htype hidle, biasFlip_done h htype hidle⟩,
    fun seq f hf hport hseq hline => ?_⟩
  · obtain ⟨t, ha, hr, hmem, htlb, hinv⟩ := invalidateVa_runs h hk htype hrange
    exact ⟨t, ha, hr, hmem, htlb, _, hinv, rfl, rfl⟩
  · have moved (t : State) := JournalMove.journalSet t (f.port, f.jseq) .completed .ok none
    refine ⟨_, biasFlipComplete_flips hf hport hseq hline, (moved _).same State.flips (fun _ _ _ => rfl),
      ((moved _).same State.mem (fun _ _ _ => rfl)).trans (s.setBias_mem _ _), ?_, fun hdev i hi => ?_⟩
    · rw [(moved _).same State.bias (fun _ _ _ => rfl)]
      exact s.setBias_contains _ _
    · rw [(moved _).same State.halves (fun _ _ _ => rfl), hdev]
      exact s.setBias_halves _ hi

end Sys2Proof.Machine
end

section
/-! PROOFS. The scope cap of a memory instruction, and the checks of one lane's address: alignment, space, translation, permission
(R213, R224, R251, R258, R349; O17). -/

namespace Sys2Proof.Machine

/-! ## Scope caps (R251) -/

/-- A context whose VF caps scopes below an instruction's, as the instruction goes on: bit 0 of SR.SCOPECLAMP is set. -/
def Cx.clamped (c : Cx) : Cx :=
  { c with s := c.s.onWarp c.n.team c.n.warp (fun w => { w with scopeclamp := w.scopeclamp ||| 1 }) }

section

variable {c : Cx} {scp : Scope} (f : Cx → Scope → Eff) (hcap : c.s.scopeCap (c.s.context c.ctx) < scp.rank)

include hcap

theorem Cx.scoped_denied (hstrict : c.s.strictBit (c.s.context c.ctx) = true) :
    c.scoped scp f = { s := c.s, ends := trapAll c.act .scopeDenied (BitVec.ofNat 64 scp.rank) 0 } := by
  unfold Cx.scoped
  exact (if_neg (Nat.not_le.mpr hcap)).trans (if_pos hstrict)

theorem Cx.scoped_clamped (hstrict : c.s.strictBit (c.s.context c.ctx) = false) :
    c.scoped scp f = f c.clamped (scopeOf (c.s.scopeCap (c.s.context c.ctx))) := by
  unfold Cx.scoped
  exact (if_neg (Nat.not_le.mpr hcap)).trans (if_neg (by simp [hstrict]))

end

/-- An instruction whose body runs under the scope cap traps in every active lane when the strict bit is set. -/
theorem scopeDenied_of_issue {i : Instr} {s : State} {n : Now} {scp : Scope} {f : Cx → Scope → Eff} (hi : Issues i s n = true)
    (hx : exec i s = issue i s (fun cx => cx.scoped scp f)) (hcap : s.scopeCap (s.context (s.team n.team).ctx) < scp.rank)
    (hstrict : s.strictBit (s.context (s.team n.team).ctx) = true) :
    Finishes i s n { s := s, ends := (ctxOf i s n).lanesA.map (fun l =>
      (l, .trap { lane := l, cause := .scopeDenied, detail := BitVec.ofNat 64 scp.rank } false)) } :=
  finishes_of_issue _ hi hx (Cx.scoped_denied (c := ctxOf i s n) f hcap hstrict) rfl

/-! ## FENCE at the cap (R251, R263) -/

/-- The edge of a FENCE or BRIDGE ends its instruction plainly, and changes no more of its warp than the edges. -/
theorem Cx.edge_plain (c : Cx) (frm dst : DomSet) (scp : Scope)
    (hplaced : (Cells.find? c.s.teams c.n.team).isSome = true) :
    ∃ u r, c.edge frm dst scp = { s := u, result := r } ∧ (Cells.find? u.teams c.n.team).isSome = true ∧
      u.warp c.n.team c.n.warp = { c.s.warp c.n.team c.n.warp with edges := (u.warp c.n.team c.n.warp).edges } := by
  unfold Cx.edge
  split
  · exact ⟨c.s, none, rfl, hplaced, rfl⟩
  · refine ⟨_, _, rfl, State.placed_onWarp _ _ _ _, ?_⟩
    rw [State.warp_onWarp]
    split <;> rfl

theorem WarpFrame.scopeclamp {a b : Warp} (h : WarpFrame a b) : b.scopeclamp = a.scopeclamp := by
  unfold WarpFrame at h
  rw [h]

/-- FENCE above the cap, without the strict bit, ends plainly and leaves bit 0 of SR.SCOPECLAMP set. -/
theorem fence_clamps {h : Hdr} {all : Bool} {dom : Dom} {scp : Scope} {s : State} {n : Now}
    (hi : Issues (.fence h all dom scp) s n = true) (hcap : s.scopeCap (s.context (s.team n.team).ctx) < scp.rank)
    (hstrict : s.strictBit (s.context (s.team n.team).ctx) = false) :
    ∃ t, exec (.fence h all dom scp) s = .next t ∧
      (t.warp n.team n.warp).scopeclamp = (s.warp n.team n.warp).scopeclamp ||| 1 := by
  have clamps : (ctxOf (.fence h all dom scp) s n).clamped.s.warp n.team n.warp =
      { s.warp n.team n.warp with scopeclamp := (s.warp n.team n.warp).scopeclamp ||| 1 } := State.warp_onWarp _ _ _ _
  obtain ⟨u, r, hedge, hplaced, hwarp⟩ := Cx.edge_plain (ctxOf (.fence h all dom scp) s n).clamped _ _ _
    (State.placed_onWarp _ _ _ _)
  have hwarp := hwarp.trans (congrArg (fun w : Warp => { w with edges := (u.warp n.team n.warp).edges }) clamps)
  have hu : (u.warp n.team n.warp).unspilled = true := hwarp ▸ issues_unspilled hi
  have done := completes_of_issue _ hi rfl
  dsimp only at done
  rw [(Cx.scoped_clamped (c := ctxOf (.fence h all dom scp) s n) _ hcap hstrict).trans hedge] at done
  obtain ⟨t, ht, -, hframe, -⟩ := done rfl rfl rfl hplaced hu (by simp)
  exact ⟨t, ht, hframe.scopeclamp.trans (congrArg Warp.scopeclamp hwarp)⟩

/-! ## Alignment and space (R213, R258) -/

/-- An address whose upper seven bits are zero is a virtual address (R213). -/
theorem State.formOf_virt {s : State} {k w lane size : Nat} {va : DWord} (h : field va 63 57 = 0) :
    s.formOf k w lane va size = .virt va false := by
  have htag : field va 63 60 = 0 := by simp only [field, Nat.shiftRight_eq_div_pow] at h ⊢; omega
  have hhigh : field va 59 57 = 0 := by simp only [field, Nat.shiftRight_eq_div_pow] at h ⊢; omega
  unfold State.formOf
  simp only [htag, hhigh, if_true]

section

variable {c : Cx} {s : State} {lane size align access : Nat} {va : DWord} {need : Need} {lab : Label}

theorem Cx.resolve_misaligned (h : va.toNat % align ≠ 0) : c.resolve s lane va size align need access lab =
    (s, .error (addrTrap lane .misalignedAddr va lab)) := by
  unfold Cx.resolve Cx.formCheck
  rw [if_pos h]

theorem Cx.resolve_noSpace (h : va.toNat % align = 0) (hbad : s.formOf c.n.team c.n.warp lane va size = .bad) :
    c.resolve s lane va size align need access lab = (s, .error (addrTrap lane .badSpace va lab)) := by
  unfold Cx.resolve Cx.formCheck
  rw [if_neg (Decidable.not_not.mpr h), hbad]

theorem Cx.resolve_virt (h : va.toNat % align = 0) (hvirt : field va 63 57 = 0) :
    c.resolve s lane va size align need access lab = c.locate s lane va (.virt va false) need access lab := by
  unfold Cx.resolve Cx.formCheck
  rw [if_neg (Decidable.not_not.mpr h), State.formOf_virt hvirt]
  dsimp only
  rw [if_neg (Decidable.not_not.mpr h)]

/-! ## Translation and permission (R224, R258, R349) -/

theorem State.leafPlace_forbidden {ctx a : Nat} {e : TlbEnt} {drop : State → State} (h : need.permits e.leaf = false) :
    (s.leafPlace ctx a need e drop).2 = .error (2, false) := by
  simp [State.leafPlace, h]

theorem State.leafPlace_dram {ctx a : Nat} {e : TlbEnt} {drop : State → State} (h : need.permits e.leaf = true)
    (hapt : leafApt e.leaf = 0) : (s.leafPlace ctx a need e drop).2 = .ok (.dev (leafAddr e a), e.leaf) := by
  simp [State.leafPlace, h, hapt]

theorem State.translate_noLeaf {core ctx : Nat} {m : Bool} (h : (s.leafFor core ctx va.toNat need).2 = .error m) :
    (s.translate core ctx va need).2 = .error (1, m) := by
  have hl : s.leafFor core ctx va.toNat need = ((s.leafFor core ctx va.toNat need).1, .error m) := Prod.ext rfl h
  unfold State.translate
  rw [hl]

/-- A page with a leaf lies where its leaf leads. -/
theorem State.translate_leaf {core ctx : Nat} {e : TlbEnt} (h : (s.leafFor core ctx va.toNat need).2 = .ok e) :
    ∃ (t : State) (drop : State → State), s.translate core ctx va need = t.leafPlace ctx va.toNat need e drop := by
  have hl : s.leafFor core ctx va.toNat need = ((s.leafFor core ctx va.toNat need).1, .ok e) := Prod.ext rfl h
  unfold State.translate
  rw [hl]
  exact ⟨_, _, rfl⟩

theorem Cx.locate_fault {a : DWord} {priv m : Bool} {k : Nat} (h : (s.translate c.core c.ctx a need).2 = .error (k, m)) :
    (c.locate s lane va (.virt a priv) need access lab).2 =
      .error (.fault { kind := k, access := access, va := a, malformed := m, lab := lab }) := by
  have ht : s.translate c.core c.ctx a need = ((s.translate c.core c.ctx a need).1, .error (k, m)) := Prod.ext rfl h
  unfold Cx.locate
  dsimp only
  rw [ht]

theorem Cx.locate_place {a leaf : DWord} {priv : Bool} {p : Place} (h : (s.translate c.core c.ctx a need).2 = .ok (p, leaf)) :
    (c.locate s lane va (.virt a priv) need access lab).2 =
      .ok { lane := lane, va := va, place := p, priv := priv, leaf := some leaf } := by
  have ht : s.translate c.core c.ctx a need = ((s.translate c.core c.ctx a need).1, .ok (p, leaf)) := Prod.ext rfl h
  unfold Cx.locate
  dsimp only
  rw [ht]

end

/-- Settles O17: every instruction it names runs its body under the scope cap (`Cx.scoped`), and `Cx.resolve` makes the checks of
R258 in their order. -/
theorem addressesAndScopesAreChecked : Obligations.AddressesAndScopesAreChecked := by
  unfold Obligations.AddressesAndScopesAreChecked
  refine ⟨fun i scp s n h m op all dom dst d b c hmem hi hcap => ⟨fun hstrict => ?_, fun hstrict hf => ?_⟩,
    fun c s lane size align access va need lab =>
      ⟨Cx.resolve_misaligned, Cx.resolve_noSpace, fun halign hvirt => ⟨fun bad hleaf => ?_, fun e hleaf => ?_⟩⟩⟩
  · rcases hmem with ⟨rfl | rfl | rfl | rfl | rfl | rfl | rfl, rfl⟩ | rfl | rfl
    all_goals exact scopeDenied_of_issue hi rfl hcap hstrict
  · subst hf
    exact fence_clamps hi hcap hstrict
  · rw [Cx.resolve_virt halign hvirt]
    exact Cx.locate_fault (State.translate_noLeaf hleaf)
  · obtain ⟨t, drop, ht⟩ := State.translate_leaf hleaf
    rw [Cx.resolve_virt halign hvirt]
    refine ⟨fun hdenied => Cx.locate_fault ?_, fun hpermits hapt => Cx.locate_place ?_⟩
    · rw [ht]
      exact State.leafPlace_forbidden hdenied
    · rw [ht]
      exact State.leafPlace_dram hpermits hapt

end Sys2Proof.Machine
end

section
/-! PROOFS. What the axioms of the memory model allow: the litmus outcomes of R249, the tile copy of R291 and R292, and a reader that
has synchronised (R243-R245; O60). -/

namespace Sys2Proof.Machine.Consistency

/-! ## Chains of edges -/

section

variable {es : List (Nat × Nat)} {a b d : Nat}

theorem mem_reached_succ (n : Nat) {xs : List Nat} (h : a ∈ reached es n xs) : a ∈ reached es (n + 1) xs := by
  induction n generalizing xs with
  | zero => exact List.mem_append_left _ h
  | succ n ih => exact ih h

theorem mem_reached_edge (n : Nat) {xs : List Nat} (h : a ∈ reached es n xs) (he : (a, b) ∈ es) : b ∈ reached es (n + 1) xs := by
  induction n generalizing xs with
  | zero =>
    have h : a ∈ xs := h
    by_cases hb : b ∈ xs
    · exact List.mem_append_left _ hb
    · exact List.mem_append_right _ (List.mem_map.mpr ⟨(a, b), List.mem_filter.mpr ⟨he, by simp [h, hb]⟩, rfl⟩)
  | succ n ih => exact ih h

theorem leads_mono {m n : Nat} (hmn : m ≤ n) (h : leads es m a b = true) : leads es n a b = true := by
  simp only [leads, List.contains_iff_mem] at h ⊢
  induction hmn with
  | refl => exact h
  | step _ ih => exact mem_reached_succ _ ih

theorem leads_edge (h : (a, b) ∈ es) : leads es 0 a b = true := by
  simp only [leads, reached, List.contains_iff_mem]
  exact List.mem_map.mpr ⟨(a, b), List.mem_filter.mpr ⟨h, by simp⟩, rfl⟩

theorem leads_extend {n : Nat} (h : leads es n a b = true) (he : (b, d) ∈ es) : leads es (n + 1) a d = true := by
  simp only [leads, List.contains_iff_mem] at h ⊢
  exact mem_reached_edge n h he

end

/-! ## The relations of a candidate -/

section

variable {c : Candidate} {i j : Nat} {a b : Event}

theorem Candidate.mem_ids (h : c.events[i]? = some a) : i ∈ c.ids :=
  List.mem_range.mpr (List.getElem?_eq_some_iff.mp h).1

theorem Candidate.mem_pairsThat {test : Nat → Event → Nat → Event → Bool} :
    (i, j) ∈ c.pairsThat test ↔ ∃ a b, c.events[i]? = some a ∧ c.events[j]? = some b ∧ test i a j b = true := by
  constructor
  · intro h
    have holds := (List.mem_filter.mp h).2
    dsimp only at holds
    split at holds
    · next a b ha hb => exact ⟨a, b, ha, hb, holds⟩
    · exact absurd holds Bool.false_ne_true
  · rintro ⟨a, b, ha, hb, ht⟩
    refine List.mem_filter.mpr ⟨List.mem_flatMap.mpr ⟨i, mem_ids ha, List.mem_map.mpr ⟨j, mem_ids hb, rfl⟩⟩, ?_⟩
    simp only [ha, hb, ht]

/-- Preserved program order joins two accesses. -/
theorem Candidate.two_le_of_ppo (h : (i, j) ∈ c.ppo) : 2 ≤ c.events.length := by
  obtain ⟨a, b, ha, hb, ht⟩ := mem_pairsThat.mp h
  simp only [Event.before, Bool.and_eq_true, decide_eq_true_eq] at ht
  obtain ⟨⟨-, hpos⟩, -⟩ := ht
  have hne : i ≠ j := by
    rintro rfl
    obtain rfl := Option.some.inj (ha.symm.trans hb)
    exact Nat.lt_irrefl _ hpos
  have hi := (List.getElem?_eq_some_iff.mp ha).1
  have hj := (List.getElem?_eq_some_iff.mp hb).1
  omega

theorem Candidate.edgesFor_of_ppo (h : (i, j) ∈ c.ppo) (l m : Agent) : (i, j) ∈ c.edgesFor l m :=
  List.mem_map.mpr ⟨{ src := i, tgt := j }, List.mem_filter.mpr
    ⟨List.mem_append_left _ (List.mem_append_left _ (List.mem_map.mpr ⟨(i, j), h, rfl⟩)), rfl⟩, rfl⟩

theorem Candidate.edgesFor_of_sw {e : Edge} {l m : Agent} (h : e ∈ c.sw)
    (hsees : ∀ x ∈ e.instances, x.1.sees c.reach x.2 l = true ∧ x.1.sees c.reach x.2 m = true) :
    (e.src, e.tgt) ∈ c.edgesFor l m :=
  List.mem_map.mpr ⟨e, List.mem_filter.mpr ⟨List.mem_append_right _ h,
    List.all_eq_true.mpr (fun x hx => Bool.and_eq_true_iff.mpr (hsees x hx))⟩, rfl⟩

theorem Candidate.hb_iff (ha : c.events[i]? = some a) (hb : c.events[j]? = some b) :
    c.hb i j = leads (c.edgesFor a.agent b.agent) c.events.length i j := by
  simp only [Candidate.hb, ha, hb]

theorem Event.mem_shared {byte : Nat} (ha : a.covers byte = true) (hb : b.covers byte = true) : byte ∈ a.shared b := by
  simp only [Event.covers, Bool.and_eq_true, decide_eq_true_eq] at ha
  obtain ⟨hlow, hhigh⟩ := ha
  exact List.mem_filter.mpr ⟨List.mem_map.mpr ⟨byte - a.base, List.mem_range.mpr (by omega), by omega⟩, hb⟩

/-! ## What the axioms ask of accesses that are ordered (R244, R245) -/

theorem Candidate.not_hb_self (hc : c.causal = true) (ha : c.events[i]? = some a) : c.hb i i = false := by
  simpa using List.all_eq_true.mp hc i (mem_ids ha)

/-- Coherence holds at each byte that two accesses in happens-before share. -/
theorem Candidate.coherentAt_of_hb {byte : Nat} (hc : c.coherent = true) (ha : c.events[i]? = some a)
    (hb : c.events[j]? = some b) (hne : i ≠ j) (hhb : c.hb i j = true) (hbyte : byte ∈ a.shared b) :
    c.coherentAt i a j b byte = true := by
  refine Decidable.byContradiction fun hbad => ?_
  have none := List.isEmpty_iff.mp hc
  refine List.not_mem_nil (a := (i, j)) (none ▸ mem_pairsThat.mpr ⟨a, b, ha, hb, ?_⟩)
  have broken : (a.shared b).all (fun byte => c.coherentAt i a j b byte) = false :=
    List.all_eq_false.mpr ⟨byte, hbyte, hbad⟩
  simp [hne, hhb, broken]

/-- A read that an earlier write happens before reads that write or a later one. -/
theorem Candidate.reads_of_hb {byte : Nat} (hc : c.allowed = true) (ha : c.events[i]? = some a) (hb : c.events[j]? = some b)
    (hw : a.isWrite = true) (hr : b.isRead = true) (hca : a.covers byte = true) (hcb : b.covers byte = true)
    (hhb : c.hb i j = true) : ∃ v, c.sourceOf j byte = some (some v) ∧ c.rank byte (some i) ≤ c.rank byte (some v) := by
  simp only [Candidate.allowed, Bool.and_eq_true] at hc
  obtain ⟨⟨⟨⟨⟨-, hcausal⟩, hcoherent⟩, -⟩, -⟩, -⟩ := hc
  have hne : i ≠ j := by
    rintro rfl
    exact Bool.false_ne_true ((not_hb_self hcausal ha).symm.trans hhb)
  have hat := coherentAt_of_hb hcoherent ha hb hne hhb (Event.mem_shared hca hcb)
  simp only [Candidate.coherentAt, hw, hr, Bool.and_true, Bool.not_true, Bool.false_or, Bool.and_eq_true] at hat
  obtain ⟨⟨⟨-, hread⟩, -⟩, -⟩ := hat
  match hs : c.sourceOf j byte with
  | none => simp [hs] at hread
  | some none => simp [hs, Candidate.rank] at hread
  | some (some v) => exact ⟨v, rfl, by simpa [hs] using hread⟩

end

/-- A write happens before a read that follows, in preserved program order, a read that synchronised with a later write of its
agent (R243). -/
theorem Candidate.hb_of_sw {c : Candidate} {w r' : Nat} {x y : Event} {e : Edge} (hx : c.events[w]? = some x)
    (hy : c.events[r']? = some y) (hbefore : (w, e.src) ∈ c.ppo) (hsw : e ∈ c.sw) (hafter : (e.tgt, r') ∈ c.ppo)
    (hsees : ∀ i ∈ e.instances, i.1.sees c.reach i.2 x.agent = true ∧ i.1.sees c.reach i.2 y.agent = true) :
    c.hb w r' = true := by
  rw [hb_iff hx hy]
  exact leads_mono (two_le_of_ppo hbefore) (leads_extend (leads_extend (leads_edge (edgesFor_of_ppo hbefore _ _))
    (edgesFor_of_sw hsw hsees)) (edgesFor_of_ppo hafter _ _))

/-! ## Litmus outcomes (R249)

Each candidate is a closed finite execution, and the axioms are evaluated on it. -/

theorem outcomes_sc : (outcomes .sc).map Candidate.allowed = [false, false, false, false, false] := by decide +kernel

theorem outcomes_tso : (outcomes .tso).map Candidate.allowed = [true, false, false, false, false] := by decide +kernel

theorem outcomes_co : (outcomes .co).map Candidate.allowed = [true, false, false, true, false] := by decide +kernel

theorem outcomes_rc : (outcomes .rc).map Candidate.allowed = [true, true, true, true, true] := by decide +kernel

theorem outcomes_bu : (outcomes .bu).map Candidate.allowed = [true, true, true, true, true] := by decide +kernel

theorem outcomes_rc_fenced : (outcomes .rc).map (fun c => c.fenced.allowed) = [true, true, true, true, true] := by
  decide +kernel

theorem outcomes_rc_releasing : (outcomes .rc).map (fun c => c.releasing.allowed) = [true, false, false, true, false] := by
  decide +kernel

theorem tileFlag_outcomes : (tileFlag true true .pkg).allowed = false ∧ (tileFlag false true .pkg).allowed = true ∧
    (tileFlag true false .pkg).allowed = true ∧ (tileFlag true true .team).allowed = true := by decide +kernel

theorem twoDomains_outcomes : (twoDomains false).allowed = true ∧ (twoDomains true).allowed = false := by decide +kernel

theorem narrow_forbidden : (narrow .pkg).allowed = false := by decide +kernel

/-! ## The tile copy (R291, R292) -/

theorem tileCopy_stale_forbidden : (tileCopy true true true .pkg .pkg).allowed = false := by decide +kernel

theorem tileCopy_fresh_allowed : (tileCopy true true false .pkg .pkg).allowed = true := by decide +kernel

theorem tileCopy_unbridged_allowed :
    (tileCopy false true true .pkg .pkg).allowed = true ∧ (tileCopy true false true .pkg .pkg).allowed = true := by decide +kernel

theorem tileCopy_teamScope_allowed :
    (tileCopy true true true .team .team).allowed = true ∧ (tileCopy true true true .pkg .team).allowed = true := by
  decide +kernel

/-- Settles O60: the outcomes one by one, and the chain of preserved program order, synchronises-with and preserved program order
(`Candidate.hb_of_sw`) under coherence. -/
theorem litmusOutcomesAndVisibility : Obligations.LitmusOutcomesAndVisibility := by
  unfold Obligations.LitmusOutcomesAndVisibility
  obtain ⟨flagBridged, flagNoProducer, flagNoConsumer, flagTeam⟩ := tileFlag_outcomes
  obtain ⟨copyNoProducer, copyNoConsumer⟩ := tileCopy_unbridged_allowed
  obtain ⟨copyTeam, copyTeamAcquire⟩ := tileCopy_teamScope_allowed
  obtain ⟨unbridged, bridged⟩ := twoDomains_outcomes
  refine ⟨⟨outcomes_sc, outcomes_tso, outcomes_co, outcomes_rc, outcomes_bu, outcomes_rc_fenced, outcomes_rc_releasing,
    flagBridged, flagNoProducer, flagNoConsumer, flagTeam, tileCopy_stale_forbidden, tileCopy_fresh_allowed, copyNoProducer,
    copyNoConsumer, copyTeam, copyTeamAcquire, unbridged, bridged, narrow_forbidden⟩, ?_⟩
  rintro c w _ _ r' byte x y e hc hx hy hw hr hcx hcy hbefore hsw rfl rfl hafter hsees
  exact Candidate.reads_of_hb hc hx hy hw hr hcx hcy (Candidate.hb_of_sw hx hy hbefore hsw hafter hsees)

end Sys2Proof.Machine.Consistency
end

section
/-! PROOFS. RELEASE and the release gate (R272-R274, R433, R434; O31). -/

namespace Sys2Proof.Machine

/-! ## The gate -/

/-- Each key of a list set to one value, one after another. -/
theorem Cells.get_foldl_set {α : Type} [Inhabited α] [DecidableEq α] (ks : List Nat) (m : Cells α) (x : α) (j : Nat) :
    Cells.get (ks.foldl (fun m k => Cells.set m k x) m) j = if j ∈ ks then x else Cells.get m j := by
  induction ks generalizing m with
  | nil => simp
  | cons k ks ih =>
    rw [List.foldl_cons, ih, Cells.get_set]
    by_cases hk : k = j
    · simp [hk]
    · simp [hk, Ne.symm hk]

/-- The policy of a number that the origins of a context admit. -/
def State.policyFor (s : State) (ctx pid : Nat) : Option Policy :=
  s.policies.find? (fun p => p.id == pid && (p.set &&& ~~~(s.origins_ (s.context ctx)) == 0))

theorem State.policyFor_spec {s : State} {ctx pid : Nat} {p : Policy} (h : s.policyFor ctx pid = some p) :
    p ∈ s.policies ∧ p.id = pid ∧ p.set &&& ~~~(s.origins_ (s.context ctx)) = 0 := by
  have hnamed := List.find?_some h
  simp only [Bool.and_eq_true, beq_iff_eq] at hnamed
  exact ⟨List.mem_of_find?_eq_some h, hnamed⟩

/-- The union of the labels of some frames. -/
def State.labelsOf (s : State) (frames : List Nat) : Label := frames.foldl (fun l f => l ||| Cells.get s.frameLab f) 0

/-- The state once a region is charged: its bytes to the policy, whose window is current, and its label writes to the gate's
activity (R421, R433). -/
def State.gateCharged (s : State) (len : Nat) (frames : List Nat) (p : Policy) : State :=
  frames.foldl (fun s f => s.charge gateActivity 1 (homeDie (4096 * f) * 96 + homeSlice (4096 * f)) 1)
    { s with policies := s.policies.map (fun x =>
        if x.id = p.id then { p with total := p.total + len, window := p.window + len } else x) }

theorem State.gateCharged_eq (s : State) (len : Nat) (frames : List Nat) (p : Policy) :
    ∃ ps bs, s.gateCharged len frames p = { s with policies := ps, budgets := bs } :=
  List.foldlRecOn frames _ (motive := fun t : State => ∃ ps bs, t = { s with policies := ps, budgets := bs }) ⟨_, _, rfl⟩
    (fun _ ⟨_, _, ht⟩ _ _ => ht ▸ ⟨_, _, rfl⟩)

/-- The record of a release of a region under a policy (R434). -/
def State.releaseRecord (s : State) (ctx : Nat) (base : DWord) (len pid : Nat) (p : Policy) : RelRecord where
  n := s.nextRecord
  time := s.nanos
  policy := pid
  set := p.set
  dest := p.dest
  vf := (s.context ctx).vf
  ctx := (s.context ctx).num
  base := base
  len := BitVec.ofNat 64 len
  total := p.total + len

/-- What the gate answers on a region: it stays shut with a status, and at most the policies' counters move; or it opens under a
policy, and then every frame carries the destination alone and one record is added (R274, R433, R434). -/
inductive State.GateAnswer (s : State) (ctx : Nat) (base : DWord) (len pid : Nat) (frames : List Nat) : State × Nat × Nat → Prop
  | shut (ps : List Policy) {status : Nat} (hstatus : status ≠ 0) :
      GateAnswer s ctx base len pid frames ({ s with policies := ps }, status, 0)
  | opens (ps : List Policy) (bs : Cells Budget) {p : Policy} (hp : p ∈ s.policies) (hid : p.id = pid)
      (hset : p.set = s.labelsOf frames) (hwithin : p.set &&& ~~~(s.origins_ (s.context ctx)) = 0)
      (hlimits : (p.rolled s.period).allows len = true) :
      GateAnswer s ctx base len pid frames
        ({ s with
            policies := ps
            budgets := bs
            frameLab := frames.foldl (fun m f => Cells.set m f (1#16 <<< p.dest)) s.frameLab
            records := s.records ++ [s.releaseRecord ctx base len pid p]
            nextRecord := s.nextRecord + 1 }, 0, s.nextRecord)

section

variable {s : State} {ctx len pid : Nat} {base : DWord} {frames : List Nat} {p : Policy}

theorem Policy.rolled_eq (p : Policy) (period : Nat) :
    ∃ w t, p.rolled period = { p with window := w, start := t } := by
  unfold Policy.rolled
  split
  · exact ⟨_, _, rfl⟩
  · exact ⟨_, _, rfl⟩

theorem State.gateStep_noPolicy (hfind : s.policyFor ctx pid = none) : s.gateStep ctx base len pid frames = (s, 3, 0) := by
  unfold State.policyFor at hfind
  simp only [State.gateStep, hfind]

variable (hfind : s.policyFor ctx pid = some p)

include hfind

theorem State.gateStep_otherLabels (hset : s.labelsOf frames ≠ p.set) : s.gateStep ctx base len pid frames = (s, 1, 0) := by
  unfold State.policyFor at hfind
  simp only [State.gateStep, hfind]
  exact if_pos hset

theorem State.gateStep_overLimit (hset : s.labelsOf frames = p.set) (hlimits : (p.rolled s.period).allows len = false) :
    ∃ ps, s.gateStep ctx base len pid frames = ({ s with policies := ps }, 2, 0) := by
  unfold State.policyFor at hfind
  simp only [State.gateStep, hfind]
  exact ⟨_, (if_neg (not_not_intro hset)).trans (if_pos (by simp [hlimits]))⟩

theorem State.gateStep_opens (hset : s.labelsOf frames = p.set) (hlimits : (p.rolled s.period).allows len = true) :
    s.GateAnswer ctx base len pid frames (s.gateStep ctx base len pid frames) := by
  obtain ⟨hp, hid, hwithin⟩ := State.policyFor_spec hfind
  obtain ⟨ps, bs, hcharged⟩ := s.gateCharged_eq len frames (p.rolled s.period)
  obtain ⟨w, t, hrolled⟩ := p.rolled_eq s.period
  have opened : s.gateStep ctx base len pid frames =
      ({ s.gateCharged len frames (p.rolled s.period) with
          frameLab := frames.foldl (fun m f => Cells.set m f (1#16 <<< (p.rolled s.period).dest))
            (s.gateCharged len frames (p.rolled s.period)).frameLab
          records := (s.gateCharged len frames (p.rolled s.period)).records ++
            [s.releaseRecord ctx base len pid (p.rolled s.period)]
          nextRecord := s.nextRecord + 1 }, 0, s.nextRecord) := by
    unfold State.policyFor at hfind
    simp only [State.gateStep, hfind]
    exact (if_neg (not_not_intro hset)).trans (if_neg (by simp [hlimits]))
  rw [opened, hcharged, hrolled]
  exact .opens (p := p) ps bs hp hid hset.symm hwithin hlimits

end

theorem State.gateStep_answers (s : State) (ctx : Nat) (base : DWord) (len pid : Nat) (frames : List Nat) :
    s.GateAnswer ctx base len pid frames (s.gateStep ctx base len pid frames) := by
  cases hfind : s.policyFor ctx pid with
  | none => exact State.gateStep_noPolicy hfind ▸ .shut s.policies (by decide)
  | some p =>
    by_cases hset : s.labelsOf frames = p.set
    · cases hlimits : (p.rolled s.period).allows len with
      | false =>
        obtain ⟨ps, shut⟩ := State.gateStep_overLimit hfind hset hlimits
        exact shut ▸ .shut ps (by decide)
      | true => exact State.gateStep_opens hfind hset hlimits
    · exact State.gateStep_otherLabels hfind hset ▸ .shut s.policies (by decide)

theorem State.gateStep_teams (s : State) (ctx : Nat) (base : DWord) (len pid : Nat) (frames : List Nat) :
    (s.gateStep ctx base len pid frames).1.teams = s.teams := by
  have answer := s.gateStep_answers ctx base len pid frames
  generalize s.gateStep ctx base len pid frames = g at answer ⊢
  cases answer <;> rfl

/-! ## The pages of the region -/

theorem Cx.regionPages_teams (c : Cx) (s : State) (base : DWord) (lab : Label) (pages : Nat) :
    (c.regionPages s base lab pages).1.teams = s.teams := by
  induction pages with
  | zero => rfl
  | succ k ih =>
    unfold Cx.regionPages
    split
    · next h => exact (congrArg (·.1.teams) h).symm.trans ih
    · next s' _ h =>
      have read : s'.teams = s.teams := (congrArg (·.1.teams) h).symm.trans ih
      have moved := s'.teams_translate c.core c.ctx (base + BitVec.ofNat 64 (4096 * k)) .write
      dsimp only
      split
      · next e => exact (congrArg (·.1.teams) e).symm.trans (moved.trans read)
      · next e => exact (congrArg (·.1.teams) e).symm.trans (moved.trans read)

/-- Local places each have a frame. -/
theorem length_frames {ps : List Place} (h : ∀ p ∈ ps, ∃ pa, p = .dev pa) : (ps.filterMap Place.frame?).length = ps.length := by
  rw [List.filterMap_length_eq_length]
  intro p hp
  obtain ⟨pa, rfl⟩ := h p hp
  rfl

/-! ## RELEASE -/

/-- A region that is not whole pages of the virtual space (R272). -/
abbrev malformedRegion (base : DWord) (len : Nat) : Prop :=
  base.toNat % 4096 ≠ 0 ∨ len = 0 ∨ len % 4096 ≠ 0 ∨ field base 63 57 ≠ 0 ∨ 2 ^ 57 < base.toNat + len

/-- What D and the predicate take from an answer: the record's number, or a status (R273, R274). -/
def Cx.releaseWrites (c : Cx) (d : BitVec 8) (lab : Label) (status record : Nat) : List Wr :=
  wWrite d (if status = 0 then BitVec.ofNat 64 (record % 2 ^ 32 * 2 ^ 32) else BitVec.ofNat 64 status) lab ::
    if status = 0 then [] else c.clearP c.lanesA lab

theorem Cx.releaseWrites_sound (c : Cx) (d : BitVec 8) (lab : Label) (status record : Nat) :
    ∀ x ∈ c.releaseWrites d lab status record, x.sound := by
  refine List.forall_mem_cons.mpr ⟨wWrite_sound _ _ _, ?_⟩
  split
  · exact fun _ hx => absurd hx List.not_mem_nil
  · exact c.clearP_sound lab (fun _ => Cx.lanesA_lt)

theorem Cx.releaseWrites_opened (c : Cx) (d : BitVec 8) (lab : Label) (record : Nat) :
    c.releaseWrites d lab 0 record = [wWrite d (BitVec.ofNat 64 (record % 2 ^ 32 * 2 ^ 32)) lab] := rfl

theorem Cx.releaseWrites_refused (c : Cx) (d : BitVec 8) (lab : Label) {status : Nat} (record : Nat) (h : status ≠ 0) :
    c.releaseWrites d lab status record = wWrite d (BitVec.ofNat 64 status) lab :: c.clearP c.lanesA lab := by
  simp only [Cx.releaseWrites, if_neg h]

section

variable {h : Hdr} {d a b c : BitVec 8} {s : State} {n : Now} {x : Cx} (hi : Issues (.release h d a b c) s n = true)
  (hc : ctxOf (.release h d a b c) s n = x)

include hi hc

theorem release_malformed (hbad : malformedRegion (x.w a.toNat) (x.w b.toNat).toNat) :
    Completes (.release h d a b c) s n s
      (x.releaseWrites d (x.labW a.toNat ||| x.labW b.toNat ||| x.labW c.toNat) 4 0) := by
  subst hc
  exact completes_of_body _ hi rfl (if_pos hbad) rfl (Cx.releaseWrites_sound _ _ _ _ _)

theorem release_waits (hgood : ¬ malformedRegion (x.w a.toNat) (x.w b.toNat).toNat)
    (hpending : (s.earlierIds n.team n.warp 0xFFFFFFFF .all .pkg).any (fun y => s.pendingAt n.team y.1 y.2) = true)
    (hs : Steady (.release h d a b c) s n = true) :
    Stays (.release h d a b c) s n s (.held (.drain (s.earlierIds n.team n.warp 0xFFFFFFFF .all .pkg))) := by
  subst hc
  exact stays_of_issue _ hi rfl hs rfl ((if_neg hgood).trans (if_pos hpending))

/-- With no earlier access outstanding and every page local, RELEASE ends with the gate's answer (R273, R274). -/
theorem release_asksGate {s1 : State} {ps : List Place} (hgood : ¬ malformedRegion (x.w a.toNat) (x.w b.toNat).toNat)
    (hdone : (s.earlierIds n.team n.warp 0xFFFFFFFF .all .pkg).any (fun y => s.pendingAt n.team y.1 y.2) = false)
    (hpages : x.regionPages s (x.w a.toNat) (x.labW a.toNat) ((x.w b.toNat).toNat / 4096) = (s1, .ok ps))
    (hlocal : ∀ p ∈ ps, ∃ pa, p = .dev pa) {g : State × Nat × Nat}
    (hg : s1.gateStep x.ctx (x.w a.toNat) (x.w b.toNat).toNat (field (x.w c.toNat) 31 0) (ps.filterMap Place.frame?) = g) :
    Completes (.release h d a b c) s n g.1
      (x.releaseWrites d (x.labW a.toNat ||| x.labW b.toNat ||| x.labW c.toNat) g.2.1 g.2.2) := by
  have hteams : g.1.teams = s.teams := by
    have read := x.regionPages_teams s (x.w a.toNat) (x.labW a.toNat) ((x.w b.toNat).toNat / 4096)
    rw [hpages] at read
    exact hg ▸ (s1.gateStep_teams _ _ _ _ _).trans read
  subst hc hg
  refine completes_of_body _ hi rfl ((if_neg hgood).trans ((if_neg (Bool.eq_false_iff.mp hdone)).trans ?_)) hteams
    (Cx.releaseWrites_sound _ _ _ _ _)
  dsimp only
  split
  · next e => exact absurd (hpages.symm.trans e) (by simp)
  · next e =>
    obtain ⟨rfl, hok⟩ := Prod.mk.inj (hpages.symm.trans e)
    obtain rfl := Except.ok.inj hok
    exact if_neg (length_frames hlocal).not_lt

end

/-- Settles O31: RELEASE is refused, waits, or ends with the gate's answer (`release_asksGate`), and `State.GateAnswer` says what
the gate can answer. -/
theorem releaseAndItsGate : Obligations.ReleaseAndItsGate := by
  unfold Obligations.ReleaseAndItsGate
  refine ⟨fun h d a b c s s1 n ps hi => ⟨fun hbad => release_malformed hi rfl hbad,
    fun hgood hpending hs => release_waits hi rfl hgood hpending hs, fun hgood hdone hpages hlocal => ?_⟩,
    fun s ctx base len pid frames => ?_⟩
  · have ends := release_asksGate hi rfl hgood hdone hpages hlocal rfl
    refine ⟨fun hopened => ?_, fun hrefused => ?_⟩
    · rwa [hopened, Cx.releaseWrites_opened] at ends
    · rwa [Cx.releaseWrites_refused _ _ _ _ hrefused] at ends
  · have answer := s.gateStep_answers ctx base len pid frames
    generalize s.gateStep ctx base len pid frames = g at answer ⊢
    cases answer with
    | shut ps hstatus => exact ⟨fun h => absurd h hstatus, fun _ => ⟨rfl, rfl, rfl⟩, rfl, rfl⟩
    | opens ps bs hp hid hset hwithin hlimits =>
      exact ⟨fun _ => ⟨_, hp, hid, hset, hwithin, hlimits, fun f => Cells.get_foldl_set frames s.frameLab _ f, rfl, rfl,
        _, rfl, rfl, rfl, hset, rfl, rfl⟩, fun h => absurd rfl h, rfl, rfl⟩

end Sys2Proof.Machine
end

section
/-! PROOFS. What reset leaves (R187, R435; O54); with power every step answers a next state (R437; O57). -/

namespace Sys2Proof.Machine

theorem issue_answers (i : Instr) (s : State) (body : Cx → Eff) : ∃ t, issue i s body = .next t := by
  unfold issue
  split
  · exact ⟨_, rfl⟩
  · dsimp only
    repeat' split
    all_goals exact ⟨_, rfl⟩

theorem hostCommand_answers (fn : Fn) (c : BitVec 512) (dmaOk ok : Bool) (s : State) :
    ∃ t, hostCommand fn c dmaOk ok s = .next t := by
  cases ok <;> exact ⟨_, rfl⟩

theorem trapWord_answers (s : State) (cause : Cause) (h : Hdr) (all : Bool) : ∃ t, trapWord s cause h all = .next t := by
  unfold trapWord
  split <;> exact ⟨_, rfl⟩

/-- Every instruction and every event answers a next state. -/
theorem exec_answers (i : Instr) (s : State) : ∃ t, exec i s = .next t := by
  cases hi : i.hdr.isSome with
  | true =>
    obtain ⟨body, hb⟩ := exec_eq_issue i hi s
    exact hb ▸ issue_answers i s body
  | false =>
    cases i with
    | launchCmd | evsetCmd | evsetClrCmd | contextCreate | bindOff | faultResumeRetry | faultResumeDeliver | faultResumeKill
      | preempt | resume | invalidateVa | biasFlipToHost | biasFlipToDevice | watchSet | watchRemove | policyInstall
      | policyRemove | jointContext | checkpointEnrol | checkpointWithdraw | checkpointAdopt | placeSet =>
      exact hostCommand_answers ..
    | storePerform | atomicGroupPerform | stfFlagAdd | copyDelivery | cxlCacheRequestFail | spdmSession | unbind | suspendSet
      | sfadd | beginReceive | drainedReceive | cutReceive | soundReceive | commitReceive | moduleDeadAnnounce | suspendClear
      | uncorrectableError | retentionWake =>
      exact ⟨_, rfl⟩
    | illegalOpcode =>
      simp only [exec, execIllegalOpcode]
      split
      · exact trapWord_answers ..
      · exact ⟨_, rfl⟩
    | badCommand =>
      simp only [exec, execBadCommand]
      split
      · exact ⟨_, rfl⟩
      · exact hostCommand_answers ..
    | mmaStart | mmaComplete | mscacComplete | instructionFetchFault | faultQueueEntryWrite | resultReturn
      | updateApply | dozeEnd | spawnBinTimerExpiry | orderPointPass | clusterPlace | warpRetire | launchComplete
      | commitPoint | hostMemRead | hostMemWrite | hostAtomic | backInvalidateComplete | biasFlipComplete | hostSnoop
      | invalidateVaComplete | tenancyWrite | grantWrite | updateGenerationAdvance | budgetPeriod | bindOrigin
      | originUnbindComplete | functionLevelReset | contextSaveComplete | restoreComplete | preImageCopy | checkpointBegin
      | sound | drained | rollbackRestore | moduleDeadDeclare | livenessSend | linkLivenessTimeout | linkRetryExhausted
      | linkUp | flitReceive | flitAck | registerWrite | scrubVisit | retentionSleepEnter | castOn | powerOutOfRange
      | managementRequest =>
      simp only [exec, execMmaStart, execMmaComplete, execMscacComplete, execInstructionFetchFault,
        execFaultQueueEntryWrite, execResultReturn, execUpdateApply, execDozeEnd, execSpawnBinTimerExpiry,
        execOrderPointPass, execClusterPlace, execWarpRetire, execLaunchComplete, execCommitPoint, execHostMemRead,
        execHostMemWrite, execHostAtomic, execBackInvalidateComplete, execBiasFlipComplete, execHostSnoop,
        execInvalidateVaComplete, execTenancyWrite, execGrantWrite, execUpdateGenerationAdvance, execBudgetPeriod,
        execBindOrigin, execOriginUnbindComplete, execFunctionLevelReset, execContextSaveComplete, execRestoreComplete,
        execPreImageCopy, execCheckpointBegin, execSound, execDrained, execRollbackRestore, execModuleDeadDeclare,
        execLivenessSend, execLinkLivenessTimeout, execLinkRetryExhausted, execLinkUp, execFlitReceive, execFlitAck,
        execRegisterWrite, execScrubVisit, execRetentionSleepEnter, execCastOn, execPowerOutOfRange, execManagementRequest]
      repeat' split
      all_goals exact ⟨_, rfl⟩
    | _ => cases hi

theorem State.issueUnit_answers (s : State) (k w : Nat) (slice : Option Nat) : ∃ t, s.issueUnit k w slice = .next t := by
  unfold State.issueUnit
  split
  · exact ⟨_, rfl⟩
  · exact ⟨_, rfl⟩
  · dsimp only
    split
    · split
      · exact exec_answers _ _
      · exact trapWord_answers _ _ _ _
    · exact exec_answers _ _
    · exact ⟨_, rfl⟩

theorem State.act_answers (s : State) (a : Act) : ∃ t, s.act a = .next t := by
  cases a with
  | issue k w slice => exact s.issueUnit_answers k w slice
  | event i => exact exec_answers i s

theorem State.settled_answers {o : Host.Outcome State Fault Refusal} (h : ∃ t, o = .next t) : ∃ t, State.settled o = .next t := by
  obtain ⟨t, rfl⟩ := h
  exact ⟨_, rfl⟩

theorem step_unpowered {s : State} (hp : s.power.on = false)
    (h : ∀ t rest c, s.agenda = t :: rest → t.act ≠ .event (.castOn c)) : step s = .fault .unpowered := by
  rw [step, hp, if_neg Bool.false_ne_true]
  split
  · next c rest heq => exact absurd rfl (h _ rest c heq)
  · rfl

/-- Settles O57: no instruction and no event stops the machine (`exec_answers`), and `step` alone can raise the fault. -/
theorem poweredMachineNeverStops : Obligations.PoweredMachineNeverStops := by
  unfold Obligations.PoweredMachineNeverStops
  refine ⟨fun s hp => ?_, fun s hp h => step_unpowered hp h, fun s t rest c hp ha hc hx => ?_⟩
  · rw [step, hp, if_pos rfl]
    split
    · exact State.settled_answers (State.act_answers _ _)
    · split
      · exact State.settled_answers (State.act_answers _ _)
      · exact ⟨_, rfl⟩
  · obtain ⟨x, rfl⟩ := hx
    obtain ⟨wait, act⟩ := t
    obtain rfl : act = .event (.castOn x) := hc
    rw [step, hp, if_neg Bool.false_ne_true, ha]
    exact exec_answers _ _

/-- Settles O54: every part of the reset state is the constant that cast-on leaves there. -/
theorem resetIsTheEndOfCastOn : Obligations.ResetIsTheEndOfCastOn := by
  unfold Obligations.ResetIsTheEndOfCastOn
  exact ⟨rfl, rfl, rfl, fun _ => ⟨rfl, rfl, rfl, rfl, rfl, rfl⟩, fun _ => ⟨rfl, rfl, rfl⟩, fun _ => ⟨rfl, rfl, rfl⟩, fun _ => rfl, rfl, rfl⟩

end Sys2Proof.Machine
end

section
/-! PROOFS. How an instruction in issue ends that changes more than its warp's registers: what it leaves in flight (R23), and
strands that it holds at the next instruction (R147). -/

namespace Sys2Proof.Machine

/-! ## Results in flight -/

theorem Cx.regangWarp_results (c : Cx) (v : Warp) : (c.regangWarp v).results = v.results := by
  unfold Cx.regangWarp
  split
  · rfl
  · obtain ⟨g, hg⟩ := Warp.regroup_moved v c.n.pc
    rw [hg]
    rfl

/-- The results of a warp after an instruction whose lanes all go on plainly are those that retiring it leaves. -/
theorem Cx.finish_results (c : Cx) (wide : Bool) (e : Eff) (he : e.ends = [])
    (ht : (Cells.find? e.s.teams c.n.team).isSome = true) (hu : (e.s.warp c.n.team c.n.warp).unspilled = true) :
    ((c.finish wide e).warp c.n.team c.n.warp).results = (c.retire e (e.s.warp c.n.team c.n.warp) e.s.nextId).results := by
  obtain ⟨x1, h1⟩ := Warp.moveStrands_moved (c.retire e (e.s.warp c.n.team c.n.warp) e.s.nextId) c.n c.act c.h wide
    e.after e.ends e.s.cycle
  have hu2 : ((e.s.setWarp c.n.team c.n.warp (c.movedWarp wide e)).warp c.n.team c.n.warp).unspilled = true := by
    rw [State.warp_setWarp, Warp.unspilled_iff]
    intro k hk
    refine (Warp.moveStrands_spilled (c.retire e (e.s.warp c.n.team c.n.warp) e.s.nextId) c.n c.act c.h wide e.after e.ends
      e.s.cycle k).trans ?_
    unfold Warp.slice
    rw [Cx.retire_slices]
    exact (Warp.unspilled_iff _).mp hu k hk
  obtain ⟨x2, g2, h2⟩ := State.settleStack_moved _ c.n.team c.n.warp e.after.search hu2
  rw [State.warp_setWarp, State.setWarp_setWarp] at h2
  obtain ⟨t, e1, e2⟩ := c.finish_settled wide e _ ht (by rw [he]; rfl) h2
  rw [he, List.isEmpty_nil, if_pos rfl] at e2
  have hwarp : (c.finish wide e).warp c.n.team c.n.warp = c.regangWarp { c.movedWarp wide e with slices := x2, gang := g2 } := by
    rw [e2, e1]
    exact State.warp_setWarp _ _ _ _
  rw [hwarp, Cx.regangWarp_results]
  exact show (Warp.moveStrands _ _ _ _ _ _ _ _).results = _ by rw [h1]

section

variable {i : Instr} {s base : State} {n : Now} (body : Cx → Eff)

/-- An instruction that writes its registers, and may leave a result of its own in flight. -/
theorem completes_of_eff {wr : List Wr} {result : Option Result} (hi : Issues i s n = true) (hx : exec i s = issue i s body)
    (hb : body (ctxOf i s n) = { s := base, wr, result }) (ht : (Cells.find? base.teams n.team).isSome = true)
    (hu : (base.warp n.team n.warp).unspilled = true) (hw : ∀ x ∈ wr, x.sound) : Completes i s n base wr := by
  have ends := completes_of_issue body hi hx
  rw [hb] at ends
  exact ends rfl rfl rfl ht hu hw

/-- The result that an instruction gives stands last among those of its warp. -/
theorem leaves_of_eff {r : Result} {wr : List Wr} (hi : Issues i s n = true) (hx : exec i s = issue i s body)
    (hb : body (ctxOf i s n) = { s := base, wr, result := some r }) (ht : (Cells.find? base.teams n.team).isSome = true)
    (hu : (base.warp n.team n.warp).unspilled = true) : Leaves i s n r := by
  refine ⟨_, finishes_of_issue body hi hx hb rfl, ?_⟩
  have hres := (ctxOf i s n).finish_results i.needsFull { s := base, wr, result := some r } rfl ht hu
  exact (congrArg List.getLast? hres).trans (List.getLast?_concat ..)

/-! ## Strands that wait at the next instruction -/

/-- The strands of an instruction that holds them once it has issued wait at the next instruction. -/
theorem parks_of_body {x : Hold} (hi : Issues i s n = true) (hx : exec i s = issue i s body) (hs : Steady i s n = true)
    (hb : body (ctxOf i s n) = { s := base, after := { st := .held x } }) (ht : base.teams = s.teams)
    (hc : (StrandSt.held x).calm = true) : Parks i s n base (.held x) := by
  have hwarp := State.warp_of_teams ht n.team n.warp
  simp only [Steady, Bool.and_eq_true, Bool.not_eq_true', ← hwarp] at hs
  obtain ⟨⟨hcalm, halone⟩, hmark⟩ := hs
  have hmark : (ctxOf i s n).h.s = false := hmark
  have := moves_of_issue (n := n) body (fun u => some { nextStrand base n u with st := .held x }) hi hx
  rw [hb] at this
  refine this rfl (ht ▸ issues_placed hi) hcalm halone rfl (fun u hu => ?_) (by simp)
  obtain ⟨-, h8, hmask⟩ := (Warp.alone_spec halone).2 u hu
  refine ⟨(partsOf_plain _ _ _ _ _ _ _ _ _ _ hmask (allSlices_bit h8) (by simp) (fun _ _ => rfl)).trans ?_, ?_⟩
  · rw [hmark]; rfl
  · rintro _ ⟨⟩
    exact ⟨hc, hmask, rfl⟩

end

end Sys2Proof.Machine
end

section
/-! PROOFS. SCLAIM and SREL (R299, R318; O22). -/

namespace Sys2Proof.Machine

section

variable {h : Hdr} {k : BitVec 3} {s : State} {n : Now}

/-- The team that holds a slot of the issuing team's core. -/
abbrev slotHolder (s : State) (n : Now) (k : BitVec 3) : Option Nat :=
  (Cells.get (s.core (s.team n.team).core).slots k.toNat).holder

theorem sclaim_claims (hi : Issues (.sclaim h k) s n = true) (hfree : slotHolder s n k = none)
    (hroom : (s.core (s.team n.team).core).held n.team < (ctxOf (.sclaim h k) s n).hdr.slots) :
    Completes (.sclaim h k) s n (s.onCore (s.team n.team).core (fun y =>
      { y with slots := Cells.set y.slots k.toNat { holder := some n.team } })) [] := by
  refine completes_of_body _ hi rfl ?_ rfl nofun
  dsimp only
  split
  · next t ht => exact absurd (hfree.symm.trans ht) nofun
  · exact if_pos hroom

theorem sclaim_refused (hi : Issues (.sclaim h k) s n = true) (hfree : slotHolder s n k = none)
    (hfull : (ctxOf (.sclaim h k) s n).hdr.slots ≤ (s.core (s.team n.team).core).held n.team) :
    Completes (.sclaim h k) s n s ((ctxOf (.sclaim h k) s n).clearP (ctxOf (.sclaim h k) s n).lanesA) := by
  refine completes_of_body _ hi rfl ?_ rfl (Cx.clearP_sound _ _ (fun _ => Cx.lanesA_lt))
  dsimp only
  split
  · next t ht => exact absurd (hfree.symm.trans ht) nofun
  · exact if_neg (Nat.not_lt.mpr hfull)

theorem sclaim_held {j : Nat} (hi : Issues (.sclaim h k) s n = true) (hheld : slotHolder s n k = some j) :
    (j = n.team → Completes (.sclaim h k) s n s []) ∧
    (j ≠ n.team → Completes (.sclaim h k) s n s ((ctxOf (.sclaim h k) s n).clearP (ctxOf (.sclaim h k) s n).lanesA)) := by
  constructor
  · rintro rfl
    refine completes_of_body _ hi rfl ?_ rfl nofun
    dsimp only
    split
    · next t ht => exact if_pos (Option.some.inj (ht.symm.trans hheld))
    · next ht => exact absurd (hheld.symm.trans ht) nofun
  · intro hj
    refine completes_of_body _ hi rfl ?_ rfl (Cx.clearP_sound _ _ (fun _ => Cx.lanesA_lt))
    dsimp only
    split
    · next t ht => exact if_neg (Option.some.inj (ht.symm.trans hheld) ▸ hj)
    · next ht => exact absurd (hheld.symm.trans ht) nofun

end

/-- Settles O22: SCLAIM by the slot's holder (`sclaim_claims`, `sclaim_refused`, `sclaim_held`), SREL by its holder and by what
still uses the slot. -/
theorem slotsClaimedAndReleased : Obligations.SlotsClaimedAndReleased := by
  unfold Obligations.SlotsClaimedAndReleased
  refine fun h k s n => ⟨fun hi => ⟨sclaim_claims hi, sclaim_refused hi, fun hown => (sclaim_held hi hown).1 rfl,
    fun j hj => (sclaim_held hi hj).2⟩, fun hi => ⟨fun hother => ?_, fun hown hids => ?_, fun hown hids hs => ?_⟩⟩
  · exact completes_of_body _ hi rfl (if_pos hother) rfl (Cx.clearP_sound _ _ (fun _ => Cx.lanesA_lt))
  · exact completes_of_body _ hi rfl ((if_neg (not_not_intro hown)).trans (if_pos (List.isEmpty_iff.mpr hids))) rfl nofun
  · exact parks_of_body _ hi rfl hs ((if_neg (not_not_intro hown)).trans (if_neg (mt List.isEmpty_iff.mp hids))) rfl rfl

end Sys2Proof.Machine
end

section
/-! PROOFS. GSET, GDRAW and GRES (R289, R308, R326-R328; O26). -/

namespace Sys2Proof.Machine

section

variable {h : Hdr} {g : BitVec 3} {a : BitVec 8} {s : State} {n : Now}

/-- A warp whose slices are those of an unspilled warp is unspilled. -/
theorem unspilled_of_slices {v w : Warp} (h : v.slices = w.slices) (hw : w.unspilled = true) : v.unspilled = true := by
  unfold Warp.unspilled Warp.slice at hw ⊢
  rw [h, hw]

/-- The value that GSET loads: four W registers, the lowest first (R326). -/
def Cx.gsetValue (c : Cx) (a : BitVec 8) : BitVec 256 :=
  c.w (a.toNat + 3) ++ c.w (a.toNat + 2) ++ c.w (a.toNat + 1) ++ c.w a.toNat

theorem gset_completes (hi : Issues (.gset h g a) s n = true)
    (hok : gsetOk ((ctxOf (.gset h g a) s n).gsetValue a) = true) :
    Completes (.gset h g a) s n
      (s.onWarp n.team n.warp (fun w => { w with g := Cells.set w.g g.toNat ((ctxOf (.gset h g a) s n).gsetValue a) }))
      [{ reg := .g g.toNat, vals := (List.range 32).map (fun l => (l, 0))
         lab := (ctxOf (.gset h g a) s n).labW a.toNat ||| (ctxOf (.gset h g a) s n).labW (a.toNat + 1) |||
           (ctxOf (.gset h g a) s n).labW (a.toNat + 2) ||| (ctxOf (.gset h g a) s n).labW (a.toNat + 3) }] := by
  refine completes_of_eff (result := none) _ hi rfl (if_neg (ne_true_of_eq_false (congrArg (!·) hok))) (State.placed_onWarp _ _ _ _)
    (unspilled_of_slices (congrArg Warp.slices (State.warp_onWarp ..)) (issues_unspilled hi)) ?_
  intro x hx
  obtain rfl := List.mem_singleton.mp hx
  refine ⟨fun y hy => ?_, nofun⟩
  obtain ⟨l, hl, rfl⟩ := List.mem_map.mp hy
  exact List.mem_range.mp hl

theorem gset_refused (hi : Issues (.gset h g a) s n = true)
    (hbad : gsetOk ((ctxOf (.gset h g a) s n).gsetValue a) = false) :
    Finishes (.gset h g a) s n { s := s, ends := (ctxOf (.gset h g a) s n).lanesA.map (fun l =>
      (l, .trap { lane := l, cause := .illegalField } false)) } :=
  finishes_of_issue _ hi rfl (if_pos (congrArg (!·) hbad)) rfl

end

/-- Settles O26: GSET by whether its value is well formed, GDRAW as the write of a register, GRES in the order of its checks. -/
theorem generatorResults : Obligations.GeneratorResults := by
  unfold Obligations.GeneratorResults
  refine fun h raw t ty g d a b c s n => ⟨fun hi => ⟨gset_completes hi, gset_refused hi⟩,
    resultR_of_vWrites (fun _ => rfl), fun hi => ⟨fun hle hzero => ?_, fun hle hpos hfree => ?_, fun hle hpos hclash =>
      ⟨fun ht => ?_, fun ht => ?_⟩, fun hgt => ?_⟩⟩
  · exact completes_of_body _ hi rfl ((if_neg (Nat.not_lt.mpr hle)).trans (if_pos hzero)) rfl nofun
  · exact completes_of_body _ hi rfl ((if_neg (Nat.not_lt.mpr hle)).trans ((if_neg hpos).trans
      (if_neg (Bool.eq_false_iff.mp hfree)))) rfl nofun
  · exact completes_of_body _ hi rfl ((if_neg (Nat.not_lt.mpr hle)).trans ((if_neg hpos).trans ((if_pos hclash).trans
      (if_neg (Bool.eq_false_iff.mp ht))))) rfl (Cx.clearP_sound _ _ (fun _ => Cx.lanesA_lt))
  · exact finishes_of_issue _ hi rfl ((if_neg (Nat.not_lt.mpr hle)).trans ((if_neg hpos).trans ((if_pos hclash).trans
      (if_pos ht)))) rfl
  · exact finishes_of_issue _ hi rfl (if_pos hgt) rfl

end Sys2Proof.Machine
end

section
/-! PROOFS. The tile port: ACLR, ACCRD and ACCWR (R321, R323, R324; O24). -/

namespace Sys2Proof.Machine

/-! ## Stretches of a store -/

section

variable {α : Type}

theorem Cells.find?_append (m q : Cells α) (k : Nat) :
    Cells.find? (m ++ q) k = (Cells.find? m k).or (Cells.find? q k) := by
  induction m with
  | nil => rfl
  | cons c rest ih =>
    by_cases hk : c.1 = k
    · simp [Cells.find?, hk]
    · simp [Cells.find?, hk, ih]

theorem Cells.find?_filter (m : Cells α) (f : Nat → Bool) (k : Nat) :
    Cells.find? (m.filter (fun c => f c.1)) k = if f k then Cells.find? m k else none := by
  induction m with
  | nil => simp [Cells.find?]
  | cons c rest ih =>
    obtain ⟨a, v⟩ := c
    rw [List.filter_cons]
    by_cases hf : f a = true
    · rw [if_pos hf]
      by_cases hk : a = k
      · simp [Cells.find?, ← hk, hf]
      · simp [Cells.find?, hk, ih]
    · rw [if_neg hf, ih]
      by_cases hk : a = k
      · simp [← hk, hf]
      · simp [Cells.find?, hk]

variable [Inhabited α] [DecidableEq α]

theorem Cells.find?_ofFn (base n : Nat) (f : Nat → α) (k : Nat) :
    Cells.find? (Cells.ofFn base n f) k =
      if base ≤ k ∧ k < base + n ∧ f (k - base) ≠ default then some (f (k - base)) else none := by
  induction n with
  | zero => rw [if_neg (by omega)]; rfl
  | succ n ih =>
    have hcut : Cells.ofFn base (n + 1) f = Cells.ofFn base n f ++ (if f n = default then [] else [(base + n, f n)]) := by
      unfold Cells.ofFn
      rw [List.range_succ, List.filterMap_append]
      by_cases h : f n = default <;> simp [h]
    have hlast : Cells.find? (if f n = default then [] else [(base + n, f n)]) k =
        if k = base + n ∧ f n ≠ default then some (f n) else none := by
      by_cases h : f n = default
      · simp [h, Cells.find?]
      · simp [h, Cells.find?, eq_comm]
    rw [hcut, Cells.find?_append, ih, hlast]
    by_cases hk : k = base + n
    · subst hk
      simp
    · rw [if_neg (fun h : k = base + n ∧ _ => hk h.1), Option.or_none]
      exact if_congr (by have : k < base + (n + 1) ↔ k < base + n := by omega
                         rw [this]) rfl rfl

theorem Cells.get_fill (m : Cells α) (base n : Nat) (f : Nat → α) (k : Nat) :
    Cells.get (Cells.fill m base n f) k = if base ≤ k ∧ k < base + n then f (k - base) else Cells.get m k := by
  unfold Cells.fill
  rw [List.append_assoc, Cells.get_eq_find?, Cells.find?_append, Cells.find?_append,
    Cells.find?_filter m (fun a => decide (a < base)), Cells.find?_ofFn, Cells.find?_filter m (fun a => decide (base + n ≤ a)),
    Cells.get_eq_find? m]
  by_cases h1 : k < base
  · have h2 : ¬ base ≤ k := by omega
    have h3 : ¬ base + n ≤ k := by omega
    simp [h1, h2, h3]
  · by_cases h2 : base + n ≤ k
    · have h3 : ¬ k < base + n := by omega
      simp [h1, h2, h3]
    · have h3 : base ≤ k := by omega
      have h4 : k < base + n := by omega
      by_cases hd : f (k - base) = default
      · simp [h1, h2, h3, h4, hd]
      · simp [h1, h3, h4, hd]

end

/-! ## The port -/

section

variable {s : State} {n : Now} {t : BitVec 4}

theorem State.team_onTeam (s : State) (k : Nat) (f : Team → Team) : (s.onTeam k f).team k = f (s.team k) :=
  Cells.get_put_self ..

theorem State.team_fresh_onTeam (s : State) (k : Nat) (f : Team → Team) : (s.onTeam k f).fresh.team k = f (s.team k) :=
  Cells.get_put_self ..

theorem labelOr_zero (l : Label) : l ||| (0 : Label) = l := BitVec.or_zero

/-- No array instruction of the team names the tile: nothing is overlapped at the port. -/
def quietTile (s : State) (n : Now) (t : BitVec 4) : Prop :=
  (s.core (s.team n.team).core).matrix.any (fun m => m.team == n.team && m.namesTile t.toNat) = false

theorem State.clashArray_quiet {s : State} {core k : Nat} {f : MatEnt → Bool} (torn : Bool) (lab : Label)
    (h : (s.core core).matrix.any (fun m => m.team == k && f m) = false) : s.clashArray core k torn lab f = (s, none) := by
  have hnil : (s.core core).matrix.filter (fun m => m.team == k && f m) = [] :=
    List.filter_eq_nil_iff.mpr (fun m hm => by simpa using (List.any_eq_false.mp h) m hm)
  exact if_pos (List.isEmpty_iff.mpr hnil)

theorem port_quiet {i : Instr} (h : quietTile s n t) (lab : Label) : (ctxOf i s n).port t.toNat lab = (s, false, 0) := by
  have hc : s.clashArray (ctxOf i s n).core n.team false lab (fun m => m.namesTile t.toNat) = (s, none) :=
    State.clashArray_quiet false lab h
  exact congrArg (fun r : State × Option Label => (r.1, r.2.isSome, r.2.getD 0)) hc

theorem atPort_free {i : Instr} (h : s.portBusy (s.team n.team).core = false) (e : Eff) : (ctxOf i s n).atPort e = e :=
  if_neg (ne_true_of_eq_false h)

theorem atPort_busy {i : Instr} (h : s.portBusy (s.team n.team).core = true) (e : Eff) :
    (ctxOf i s n).atPort e = { s := s, after := { st := .held .port, keep := true } } :=
  if_pos h

/-- A tile-port instruction that changes its team's tiles and leaves its result. -/
theorem ends_at_port {i : Instr} {body : Cx → Eff} {tiles : Cells DWord} {labs : Cells Label} {r : Result} {base : State}
    (hi : Issues i s n = true) (hx : exec i s = issue i s body)
    (hbase : base = s.fresh.onTeam n.team (fun m => { m with tiles := tiles, tileLab := labs }))
    (hb : body (ctxOf i s n) = { s := base, result := some r }) :
    (Completes i s n base [] ∧ SameBytes base s ∧ base = s.fresh.onTeam n.team (fun m =>
      { m with tiles := (base.team n.team).tiles, tileLab := (base.team n.team).tileLab })) ∧ Leaves i s n r := by
  subst hbase
  have ht : (Cells.find? (s.fresh.onTeam n.team (fun m => { m with tiles := tiles, tileLab := labs })).teams n.team).isSome = true := by
    exact Option.isSome_iff_exists.mpr ⟨_, (Cells.find?_put ..).trans (if_pos rfl)⟩
  have hu : ((s.fresh.onTeam n.team (fun m => { m with tiles := tiles, tileLab := labs })).warp n.team n.warp).unspilled = true := by
    unfold State.warp
    rw [State.team_onTeam]
    exact issues_unspilled hi
  refine ⟨⟨completes_of_eff _ hi hx hb ht hu nofun, (SameBytes.onTeam s.fresh _).trans (.refl _), ?_⟩, leaves_of_eff _ hi hx hb ht hu⟩
  rw [State.team_onTeam]

end

/-- Writes a pair of neighbours for each lane. -/
def setPairs (b : Nat) (part : Nat → Nat → DWord) (m : Cells DWord) (l : Nat) : Cells DWord :=
  Cells.set (Cells.set m (b + 2 * l) (part l 0)) (b + 2 * l + 1) (part l 1)

theorem get_setPairs (b : Nat) (part : Nat → Nat → DWord) (m : Cells DWord) (l e : Nat) :
    Cells.get (setPairs b part m l) e =
      if e = b + 2 * l + 1 then part l 1 else if e = b + 2 * l then part l 0 else Cells.get m e := by
  unfold setPairs
  rw [Cells.get_set, Cells.get_set]
  simp only [eq_comm]

theorem get_foldl_setPairs (b : Nat) (part : Nat → Nat → DWord) (ls : List Nat) (m : Cells DWord) :
    (∀ l ∈ ls, ∀ j < 2, Cells.get (ls.foldl (setPairs b part) m) (b + 2 * l + j) = part l j) ∧
    (∀ e, (∀ l ∈ ls, ∀ j < 2, e ≠ b + 2 * l + j) → Cells.get (ls.foldl (setPairs b part) m) e = Cells.get m e) := by
  induction ls generalizing m with
  | nil => exact ⟨nofun, fun _ _ => rfl⟩
  | cons a ls ih =>
    obtain ⟨hin, hout⟩ := ih (setPairs b part m a)
    refine ⟨fun l hl j hj => ?_, fun e he => ?_⟩
    · by_cases hmem : l ∈ ls
      · exact hin l hmem j hj
      · obtain rfl : l = a := (List.mem_cons.mp hl).resolve_right hmem
        rw [List.foldl_cons, hout _ (fun y hy i hi => by
          have : y ≠ l := fun h => hmem (h ▸ hy)
          omega), get_setPairs]
        obtain rfl | rfl : j = 0 ∨ j = 1 := by omega
        · rw [if_neg (by omega), if_pos (by omega)]
        · rw [if_pos (by omega)]
    · rw [List.foldl_cons, hout e (fun y hy => he y (List.mem_cons_of_mem _ hy)), get_setPairs,
        if_neg (he a List.mem_cons_self 1 (by omega)),
        if_neg (show e ≠ b + 2 * a from he a List.mem_cons_self 0 (by omega))]

section

variable {h : Hdr} {ty : TileTy} {rm : Rnd} {row a d : BitVec 8} {t : BitVec 4} {s : State} {n : Now}

theorem aclr_base (hport : s.portBusy (s.team n.team).core = false) (hq : quietTile s n t) (hi : Issues (.aclr h t) s n = true) :
    let x := ctxOf (.aclr h t) s n
    let base := (s.tileWrite n.team t.toNat x.ambient (fun _ => 0)).fresh
    (Completes (.aclr h t) s n base [] ∧ SameBytes base s ∧ base = s.fresh.onTeam n.team (fun m =>
      { m with tiles := (base.team n.team).tiles, tileLab := (base.team n.team).tileLab })) ∧
    Leaves (.aclr h t) s n
      { id := s.nextId, lanes := x.act, full := x.full, kind := .done, regs := [(.tile t.toNat, 0)] } := by
  refine ends_at_port hi (body := _) rfl (tiles := Cells.fill (s.team n.team).tiles (4096 * t.toNat) 4096 (fun _ => 0))
    (labs := Cells.set (s.team n.team).tileLab t.toNat (ctxOf (.aclr h t) s n).ambient) rfl ?_
  refine (atPort_free hport _).trans ?_
  rw [port_quiet hq]
  rfl

theorem accrd_completes (hport : s.portBusy (s.team n.team).core = false) (hq : quietTile s n t)
    (hi : Issues (.accrd h ty rm row t d) s n = true) :
    let x := ctxOf (.accrd h ty rm row t d) s n
    let e (l j : Nat) : Nat :=
      tileToImage ty (x.mode rm) (Cells.get (s.team n.team).tiles (4096 * t.toNat + 64 * row.toNat + 2 * l + j))
    Completes (.accrd h ty rm row t d) s n s.fresh
      (vWrites d (tileRowWords ty) (x.lanesA.map (fun l => (l, e l 0 + e l 1 * 2 ^ (8 * tileBytes ty))))
        (Cells.get (s.team n.team).tileLab t.toNat)) := by
  intro x e
  let wr := vWrites d (tileRowWords ty) (x.lanesA.map (fun l => (l, e l 0 + e l 1 * 2 ^ (8 * tileBytes ty))))
    (Cells.get (s.team n.team).tileLab t.toNat)
  refine completes_of_eff (base := s.fresh) (wr := wr)
    (result := some (x.portResult s.nextId t.toNat .done (wrRegs x.warp wr) 0 false)) _ hi rfl
    (Eq.trans (atPort_free hport _) ?_) (issues_placed hi) (issues_unspilled hi) (vWrites_sound _ _ _ _ ?_)
  · simp only [port_quiet hq, labelOr_zero, Nat.add_assoc, e, wr]
    rfl
  · intro y hy
    obtain ⟨l, hl, rfl⟩ := List.mem_map.mp hy
    exact Cx.lanesA_lt hl

theorem accwr_base (hport : s.portBusy (s.team n.team).core = false) (hq : quietTile s n t)
    (hi : Issues (.accwr h ty row t a) s n = true) :
    let x := ctxOf (.accwr h ty row t a) s n
    let part (l j : Nat) : DWord := tileOfImage ty (x.vn l a.toNat (tileRowWords ty) >>> (8 * tileBytes ty * j) % 2 ^ (8 * tileBytes ty))
    let base := (s.onTeam n.team (fun m => { m with
      tiles := x.lanesA.foldl (setPairs (4096 * t.toNat + 64 * row.toNat) part) m.tiles
      tileLab := Cells.modify m.tileLab t.toNat (· ||| (x.labV a (tileRowWords ty) ||| x.ambient)) })).fresh
    Completes (.accwr h ty row t a) s n base [] ∧ SameBytes base s ∧ base = s.fresh.onTeam n.team (fun m =>
      { m with tiles := (base.team n.team).tiles, tileLab := (base.team n.team).tileLab }) := by
  intro x part base
  refine (ends_at_port (r := x.portResult s.nextId t.toNat .done [] 0 false) hi (body := _) rfl (base := base) rfl ?_).1
  refine (atPort_free hport _).trans ?_
  simp only [port_quiet hq, labelOr_zero, ← Nat.add_assoc]
  rfl

end

/-- Settles O24: behind an ACCLD the port holds its instructions; else each one acts on the tiles of its team
(`aclr_base`, `accrd_completes`, `accwr_base`). -/
theorem tilePortResults : Obligations.TilePortResults := by
  unfold Obligations.TilePortResults
  refine fun h ty rm row a d t s n => ⟨?_, fun hport hq => ⟨fun hi => ?_, accrd_completes hport hq, fun hi => ?_⟩⟩
  · rintro hport i (rfl | rfl | rfl) hi hs
    all_goals exact stays_of_issue _ hi rfl hs rfl (atPort_busy hport _)
  · obtain ⟨⟨hc, hb, he⟩, hl⟩ := aclr_base hport hq hi
    have hteam := State.team_fresh_onTeam s n.team (fun tm => { tm with
      tiles := Cells.fill tm.tiles (4096 * t.toNat) 4096 (fun _ => 0)
      tileLab := Cells.set tm.tileLab t.toNat (ctxOf (.aclr h t) s n).ambient })
    refine ⟨_, hc, hb, he, fun e h => ?_, fun e h => ?_, ?_, hl⟩
    · exact (congrArg (fun x : Team => Cells.get x.tiles _) hteam).trans ((Cells.get_fill ..).trans (if_pos (by omega)))
    · exact (congrArg (fun x : Team => Cells.get x.tiles e) hteam).trans ((Cells.get_fill ..).trans (if_neg (by omega)))
    · exact (congrArg (fun x : Team => Cells.get x.tileLab _) hteam).trans (Cells.get_set_self ..)
  · obtain ⟨hc, hb, he⟩ := accwr_base hport hq hi
    refine ⟨_, hc, hb, he, fun l hl j hj => ?_, fun e h => ?_, ?_⟩
    · exact (congrArg (fun x : Team => Cells.get x.tiles _) (State.team_fresh_onTeam ..)).trans
        ((get_foldl_setPairs ..).1 l hl j hj)
    · exact (congrArg (fun x : Team => Cells.get x.tiles e) (State.team_fresh_onTeam ..)).trans
        ((get_foldl_setPairs ..).2 e h)
    · exact (congrArg (fun x : Team => Cells.get x.tileLab _) (State.team_fresh_onTeam ..)).trans
        (by simp only [Cells.get_modify, if_true])

end Sys2Proof.Machine
end

section
/-! PROOFS. ACCST, ACCLD and CBLOAD queue the lines of their images (R256, R307, R325, R329; O25). -/

namespace Sys2Proof.Machine

/-! ## Accesses queued one behind the other -/

/-- An access without its number and without what it waits for. -/
def Access.unposted (a : Access) : Access := { a with id := 0, after := [] }

/-- Queueing accesses adds them behind what is there, and touches nothing else but the numbers. -/
theorem State.foldl_queue (as : List Access) (s : State) :
    ∃ xs id, as.foldl State.queue s = { s with accesses := s.accesses ++ xs, nextId := id } ∧
      xs.map Access.unposted = as.map Access.unposted := by
  induction as generalizing s with
  | nil => exact ⟨[], s.nextId, by rw [List.append_nil]; rfl, rfl⟩
  | cons a as ih =>
    obtain ⟨xs, id, hs, hx⟩ := ih (s.queue a)
    refine ⟨{ a with id := s.nextId, after := a.after ++ s.fresh.waitsFor { a with id := s.nextId } } :: xs, id, hs.trans ?_,
      (List.map_cons ..).trans (congrArg₂ List.cons rfl hx)⟩
    simp only [State.queue, State.enqueue, State.fresh, List.append_assoc, List.singleton_append]

theorem map_of_unposted {β : Type} {xs as : List Access} (g : Access → β) (hg : ∀ a, g a.unposted = g a)
    (h : xs.map Access.unposted = as.map Access.unposted) : xs.map g = as.map g := by
  have := congrArg (List.map g) h
  simpa only [List.map_map, Function.comp_def, hg] using this

/-- A fold that queues an access for each step, whatever it notes beside it. -/
theorem foldl_queue_fst {α β : Type} (f : α → Access) (g : State → β → α → β) (l : List α) (s : State) (y : β) :
    (l.foldl (fun (acc : State × β) a => (acc.1.queue (f a), g acc.1 acc.2 a)) (s, y)).1 = (l.map f).foldl State.queue s := by
  induction l generalizing s y with
  | nil => rfl
  | cons a l ih => exact ih _ _

/-- What a state with queued accesses shares with the one before. -/
theorem queued_shape {s base : State} {xs as : List Access} {id : Nat}
    (hb : base = { s with accesses := s.accesses ++ xs, nextId := id }) (hx : xs.map Access.unposted = as.map Access.unposted) :
    SameBytes base s ∧ base = { s with accesses := base.accesses, nextId := base.nextId } ∧
    ∀ {β : Type} (g : Access → β), (∀ a, g a.unposted = g a) → (base.accesses.drop s.accesses.length).map g = as.map g := by
  subst hb
  refine ⟨⟨fun _ => rfl, fun _ => rfl, fun _ _ => rfl⟩, rfl, fun g hg => ?_⟩
  exact (congrArg (List.map g) List.drop_left).trans (map_of_unposted g hg hx)

/-! ## Loads sent -/

theorem Cx.await_nil (c : Cx) (s : State) (ends : List (Nat × LaneEnd)) (r : Option Result) :
    c.await s ends [] r = { s, ends, result := r } := rfl

/-- A noted list of queued loads holds the loads themselves but for their numbers. -/
theorem foldl_queue_snd (as : List Access) (s : State) (ys : List Access) :
    ∀ y ∈ (as.foldl (fun (acc : State × List Access) a =>
      (acc.1.queue a, acc.2 ++ [{ a with id := acc.1.nextId }])) (s, ys)).2, y ∈ ys ∨ ∃ a ∈ as, y = { a with id := y.id } := by
  induction as generalizing s ys with
  | nil => exact fun y hy => .inl hy
  | cons a as ih =>
    intro y hy
    obtain h | ⟨b, hb, e⟩ := ih _ _ y hy
    · obtain h | h := List.mem_append.mp h
      · exact .inl h
      · obtain rfl := List.mem_singleton.mp h
        exact .inr ⟨a, List.mem_cons_self, rfl⟩
    · exact .inr ⟨b, List.mem_cons_of_mem _ hb, e⟩

/-- Loads of this module, outside Almanac mode and outside a replayed window, are queued and leave their result at once. -/
theorem Cx.sendLoads_queues {c : Cx} {s : State} {as : List Access} {r : Result} (hne : as ≠ [])
    (halm : c.hdr.almanac = false) (hopen : ∀ a ∈ as, a.window = none ∧ a.place.remote = false) :
    c.sendLoads s as [] r = { s := as.foldl State.queue s, result := some r } := by
  have hbuf : c.buffers = false := by simp [Cx.buffers, halm]
  have hids : c.openIds (as.foldl (fun (acc : State × List Access) a =>
      (acc.1.queue a, acc.2 ++ [{ a with id := acc.1.nextId }])) (s, [])).2 = [] := by
    refine List.map_eq_nil_iff.mpr (List.filter_eq_nil_iff.mpr fun y hy => ?_)
    obtain h | ⟨a, ha, e⟩ := foldl_queue_snd as s [] y hy
    · exact absurd h List.not_mem_nil
    · obtain ⟨hw, hp⟩ := hopen a ha
      rw [e]
      dsimp only
      rw [hw]
      cases hplace : a.place with
      | peer m v p => rw [hplace] at hp; exact absurd hp nofun
      | dev _ => simp
      | host _ _ => simp
      | scr _ _ => simp
  unfold Cx.sendLoads
  rw [if_neg (by simpa using hne), if_neg (by simp [hbuf])]
  dsimp only
  rw [hids, Cx.await_nil]
  refine congrArg (fun t : State => ({ s := t, result := some r } : Eff)) ?_
  exact (foldl_queue_fst (fun a => a) (fun s ys a => ys ++ [{ a with id := s.nextId }]) as s []).trans (by rw [List.map_id'])

/-! ## Tiles and their images -/

section

variable {h : Hdr} {ty : TileTy} {rm : Rnd} {t : BitVec 4} {a : BitVec 8} {s : State} {n : Now} {k o : Nat}

theorem Cx.padPlace_scr {c : Cx} {va : DWord} {align bytes : Nat} (lab : Label) (hal : va.toNat % align = 0)
    (hf : c.s.formOf c.n.team c.n.warp 0 va bytes = .scr k o) : c.padPlace va align bytes lab = .ok (.scr k o) := by
  unfold Cx.padPlace
  rw [if_neg (not_not_intro hal), hf]

theorem tileBytes_pos (ty : TileTy) : 0 < 32 * tileBytes ty := by cases ty <;> decide

/-- A line of a tile's image: its elements, the lowest first (R325). -/
def Cx.imageLine (c : Cx) (ty : TileTy) (rm : Rnd) (t i : Nat) : Nat :=
  (List.range (128 / tileBytes ty)).foldl (fun y j => y +
    tileToImage ty (c.mode rm) (Cells.get (c.s.team c.n.team).tiles (4096 * t + (128 / tileBytes ty * i + j))) <<<
      (8 * tileBytes ty * j)) 0

/-- The store of a line of a tile's image. -/
def Cx.tileStore (c : Cx) (ty : TileTy) (rm : Rnd) (t : Nat) (pl : Place) (va : DWord) (aim lab : Label) (i : Nat) : Access :=
  { c.portAccess c.s.nextId i pl va (.store (BitVec.ofNat 1024 (c.imageLine ty rm t i))) aim with lab := lab }

theorem accst_completes (hi : Issues (.accst h ty rm t a) s n = true) (hport : s.portBusy (s.team n.team).core = false)
    (halm : (ctxOf (.accst h ty rm t a) s n).hdr.almanac = false) (hq : quietTile s n t)
    (hal : ((ctxOf (.accst h ty rm t a) s n).w a.toNat).toNat % 128 = 0)
    (hf : s.formOf n.team n.warp 0 ((ctxOf (.accst h ty rm t a) s n).w a.toNat) (4096 * tileBytes ty) = .scr k o) :
    let x := ctxOf (.accst h ty rm t a) s n
    ∃ lab, Completes (.accst h ty rm t a) s n (((List.range (32 * tileBytes ty)).map
      (x.tileStore ty rm t.toNat (.scr k o) (x.w a.toNat) (x.labW a.toNat) lab)).foldl State.queue s.fresh) [] := by
  intro x
  let lab := Cells.get (s.team n.team).tileLab t.toNat ||| x.labW a.toNat ||| x.ambient
  refine ⟨lab, ?_⟩
  let store := x.tileStore ty rm t.toNat (.scr k o) (x.w a.toNat) (x.labW a.toNat) lab
  let q := (List.range (32 * tileBytes ty)).foldl (fun (acc : State × List (Nat × Scope)) i =>
    (acc.1.queue (store i), acc.2 ++ [(acc.1.nextId, Scope.team)])) (s.fresh, [])
  have hq1 : ((List.range (32 * tileBytes ty)).map store).foldl State.queue s.fresh = q.1 :=
    (foldl_queue_fst store (fun s y _ => y ++ [(s.nextId, Scope.team)]) _ s.fresh []).symm
  have hteams : q.1.teams = s.teams := by
    obtain ⟨xs, id, hs, -⟩ := State.foldl_queue ((List.range (32 * tileBytes ty)).map store) s.fresh
    rw [← hq1, hs]
    rfl
  have hbuf : x.buffers = false := by simp [Cx.buffers, halm, x]
  refine (congrArg (Completes _ s n · []) hq1).mpr (completes_of_eff
    (result := some (x.portResult s.nextId t.toNat (.fence q.2) [] 0 false)) _ hi rfl ?_
    ((congrArg (fun ts => (Cells.find? ts n.team).isSome) hteams).trans (issues_placed hi))
    (unspilled_of_slices (congrArg Warp.slices (State.warp_of_teams hteams ..)) (issues_unspilled hi)) nofun)
  dsimp only
  rw [Cx.padPlace_scr (c := ctxOf (.accst h ty rm t a) s n) _ hal hf]
  refine (atPort_free hport _).trans ?_
  simp only [port_quiet hq, labelOr_zero]
  exact if_neg (Bool.eq_false_iff.mp hbuf)

/-- The loads of a tile's image. -/
def Cx.tileLoads (c : Cx) (ty : TileTy) (pl : Place) (va : DWord) (aim : Label) : List Access :=
  (List.range (32 * tileBytes ty)).map (fun i => c.portAccess c.s.nextId i pl va .load aim)

/-- Loads queued from a state leave the team placed and its warp unspilled. -/
theorem teams_foldl_queue (as : List Access) (s : State) : (as.foldl State.queue s).teams = s.teams := by
  obtain ⟨xs, id, hs, -⟩ := State.foldl_queue as s
  rw [hs]

theorem accld_completes (hi : Issues (.accld h ty t a) s n = true) (hport : s.portBusy (s.team n.team).core = false)
    (halm : (ctxOf (.accld h ty t a) s n).hdr.almanac = false) (hq : quietTile s n t)
    (hal : ((ctxOf (.accld h ty t a) s n).w a.toNat).toNat % 128 = 0)
    (hf : s.formOf n.team n.warp 0 ((ctxOf (.accld h ty t a) s n).w a.toNat) (4096 * tileBytes ty) = .scr k o) :
    let x := ctxOf (.accld h ty t a) s n
    Completes (.accld h ty t a) s n
      ((x.tileLoads ty (.scr k o) (x.w a.toNat) (x.labW a.toNat)).foldl State.queue s.fresh) [] ∧
    Leaves (.accld h ty t a) s n
      { id := s.nextId, lanes := x.act, full := x.full, regs := [(.tile t.toNat, 0)]
        kind := .bulk (.tile t.toNat ty) [] 0 (32 * tileBytes ty), src := x.labW a.toNat ||| x.ambient } := by
  intro x
  have hne : x.tileLoads ty (.scr k o) (x.w a.toNat) (x.labW a.toNat) ≠ [] := by
    have := tileBytes_pos ty
    unfold Cx.tileLoads
    rw [Ne, List.map_eq_nil_iff, List.range_eq_nil]
    omega
  have hlocal : ∀ y ∈ x.tileLoads ty (.scr k o) (x.w a.toNat) (x.labW a.toNat), y.window = none ∧ y.place.remote = false := by
    intro y hy
    obtain ⟨i, -, rfl⟩ := List.mem_map.mp hy
    exact ⟨rfl, rfl⟩
  have hteams := teams_foldl_queue (x.tileLoads ty (.scr k o) (x.w a.toNat) (x.labW a.toNat)) s.fresh
  have hplaced := (congrArg (fun ts => (Cells.find? ts n.team).isSome) hteams).trans (issues_placed hi)
  have hwarp := unspilled_of_slices (congrArg Warp.slices (State.warp_of_teams hteams n.team n.warp)) (issues_unspilled hi)
  have hb := Cx.sendLoads_queues (s := s.fresh) (r := x.portResult s.nextId t.toNat
    (.bulk (.tile t.toNat ty) [] 0 (32 * tileBytes ty)) [] (x.labW a.toNat ||| x.ambient) false) hne halm hlocal
  refine ⟨completes_of_eff _ hi rfl (Eq.trans ?_ hb) hplaced hwarp nofun, leaves_of_eff _ hi rfl (Eq.trans ?_ hb) hplaced hwarp⟩
  all_goals
    dsimp only
    rw [Cx.padPlace_scr (c := ctxOf (.accld h ty t a) s n) _ hal hf]
    refine (atPort_free hport _).trans ?_
    simp only [port_quiet hq, labelOr_zero]
    rfl

end

/-! ## What an overlap with the array leaves as it is -/

/-- The state after marking a result as overlapped: the bytes, the placement, and the other warps stay. -/
structure Marked (k w : Nat) (s t : State) : Prop where
  bytes : SameBytes t s
  placed : (Cells.find? s.teams k).isSome = true → (Cells.find? t.teams k).isSome = true
  warp : t.warp k w = s.warp k w
  accesses : t.accesses = s.accesses
  nextId : t.nextId = s.nextId

theorem Marked.refl {k w : Nat} (s : State) : Marked k w s s := ⟨.refl s, id, rfl, rfl, rfl⟩

theorem Marked.trans {k w : Nat} {s t u : State} (h : Marked k w s t) (g : Marked k w t u) : Marked k w s u :=
  ⟨g.bytes.trans h.bytes, g.placed ∘ h.placed, g.warp.trans h.warp, g.accesses.trans h.accesses, g.nextId.trans h.nextId⟩

theorem State.clashResult_marked {k w j v : Nat} (s : State) (id : Nat) (h : j ≠ k ∨ v ≠ w) : Marked k w s (s.clashResult j v id) := by
  unfold State.clashResult
  split
  · exact .refl s
  · refine ⟨.onWarp .., fun hp => ?_, State.warp_setWarp_ne s _ h, rfl, rfl⟩
    simp only [State.onWarp, State.setWarp, State.setTeam, Cells.find?_put]
    split
    · rfl
    · exact hp

/-- Overlaps with array instructions of other warps leave a warp as it is. -/
theorem State.clashArray_marked {k w : Nat} (s : State) (core : Nat) (torn : Bool) (lab : Label) {f : MatEnt → Bool}
    (hf : ∀ m, f m = true → m.warp ≠ w) : Marked k w s (s.clashArray core k torn lab f).1 := by
  unfold State.clashArray
  dsimp only
  split
  · exact .refl s
  · refine Marked.trans (t := List.foldl _ s _) (List.foldlRecOn _ _ (motive := fun t => Marked k w s t) (.refl s)
      (fun t ht m hm => ht.trans (t.clashResult_marked m.id (.inr ?_)))) ⟨⟨fun _ => rfl, fun _ => rfl, fun _ _ => rfl⟩, id, rfl, rfl, rfl⟩
    have := (List.mem_filter.mp hm).2
    exact hf m (Bool.and_eq_true_iff.mp this).2

/-! ## The codebook's lines -/

section

variable {h : Hdr} {dom : Dom} {scp : Scope} {a : BitVec 8} {s s1 : State} {n : Now} {lines : List Spot}

theorem Cx.teams_locate (c : Cx) (s : State) (lane : Nat) (va : DWord) (f : Form) (need : Need) (access : Nat) (lab : Label) :
    (c.locate s lane va f need access lab).1.teams = s.teams := by
  unfold Cx.locate
  split
  · rfl
  · rfl
  · next v priv =>
    have ht := s.teams_translate c.core c.ctx v need
    split
    · next e => rw [e] at ht; exact ht
    · next e => rw [e] at ht; exact ht

/-- A fold of checks that ends well has passed each of them: one answer for each step, and the teams where they were. -/
theorem checks_passed {ε α : Type} {f : State × Except ε (List α) → Nat → State × Except ε (List α)}
    (hf : ∀ acc i, (f acc i).1.teams = acc.1.teams ∧ ∀ ys, (f acc i).2 = .ok ys → ∃ xs, acc.2 = .ok xs ∧ ys.length = xs.length + 1)
    (l : List Nat) (acc : State × Except ε (List α)) :
    (l.foldl f acc).1.teams = acc.1.teams ∧
      ∀ ys, (l.foldl f acc).2 = .ok ys → ∃ xs, acc.2 = .ok xs ∧ ys.length = xs.length + l.length := by
  induction l generalizing acc with
  | nil => exact ⟨rfl, fun ys h => ⟨ys, h, rfl⟩⟩
  | cons i l ih =>
    obtain ⟨ht, hok⟩ := ih (f acc i)
    obtain ⟨ht1, hok1⟩ := hf acc i
    refine ⟨ht.trans ht1, fun ys h => ?_⟩
    obtain ⟨xs, hx, hlen⟩ := hok ys h
    obtain ⟨zs, hz, hlen1⟩ := hok1 xs hx
    exact ⟨zs, hz, by rw [hlen, hlen1, List.length_cons]; omega⟩

theorem checks_passed_all {ε α : Type} {f : State × Except ε (List α) → Nat → State × Except ε (List α)} {l : List Nat}
    {t : State} {ys : List α} (h : l.foldl f (s, .ok []) = (t, .ok ys))
    (hf : ∀ acc i, (f acc i).1.teams = acc.1.teams ∧
      ∀ ys, (f acc i).2 = .ok ys → ∃ xs, acc.2 = .ok xs ∧ ys.length = xs.length + 1) :
    t.teams = s.teams ∧ ys.length = l.length := by
  have key := checks_passed hf l (s, .ok [])
  rw [h] at key
  obtain ⟨ht, hok⟩ := key
  obtain ⟨xs, hx, hlen⟩ := hok ys rfl
  obtain rfl := Except.ok.inj hx
  exact ⟨ht, by simpa using hlen⟩

theorem Cx.codebookLines_ok {c : Cx} {va : DWord} {lab : Label} (h : c.codebookLines s va dom lab = (s1, .ok lines)) :
    s1.teams = s.teams ∧ lines.length = 8 := by
  unfold Cx.codebookLines at h
  have key := checks_passed_all h fun acc i => ?_
  · exact ⟨key.1, key.2.trans List.length_range⟩
  split
  · exact ⟨rfl, fun _ hy => by cases hy⟩
  · next xs hxs =>
    dsimp only
    generalize acc.1.formOf c.n.team c.n.warp 0 (va + BitVec.ofNat 64 (128 * i)) 128 = f
    have located := c.teams_locate acc.1 0 (va + BitVec.ofNat 64 (128 * i)) f .read 12 lab
    obtain ⟨v, _ | _⟩ | ⟨k, o⟩ | _ := f
    case virt.true => exact ⟨rfl, fun _ hy => by cases hy⟩
    case bad => exact ⟨rfl, fun _ hy => by cases hy⟩
    all_goals
      revert located
      dsimp only
      generalize c.locate acc.1 0 (va + BitVec.ofNat 64 (128 * i)) _ .read 12 lab = r
      obtain ⟨t, e | y⟩ := r
      · exact fun located => ⟨located, fun _ hy => by cases hy⟩
      · dsimp only
        cases Cx.barred t y dom false none lab with
        | some e => exact fun located => ⟨located, fun _ hy => by cases hy⟩
        | none => exact fun located => ⟨located, fun ys hy => ⟨xs, hxs, by rw [← Except.ok.inj hy, List.length_append]; rfl⟩⟩

theorem Cx.scoped_direct {c : Cx} (f : Cx → Scope → Eff) (hd : c.direct scp = true) : c.scoped scp f = f c scp := by
  simp only [Cx.direct, Bool.and_eq_true, decide_eq_true_eq] at hd
  obtain ⟨⟨⟨hcap, -⟩, -⟩, -⟩ := hd
  exact if_pos hcap

/-- The load of a line of the codebook. -/
def Cx.tableLoad (c : Cx) (s : State) (va : DWord) (dom : Dom) (scp : Scope) (lab : Label) (x : Spot × Nat) : Access :=
  let pol := match x.1.leaf with | some l => polOf (field l 56 55) | none => .nol1
  { c.portAccess s.nextId x.2 x.1.place va .load lab with
    place := x.1.place, dom := dom, scp := scp, nol1 := pol == .nol1, mark := Evict.ofPol pol
    share := x.1.keeps && pol != .nol1, after := (List.range 32).flatMap (fun l => c.waitOn l false) }

theorem cbload_completes (hi : Issues (.cbload h dom scp a) s n = true)
    (hd : (ctxOf (.cbload h dom scp a) s n).direct scp = true)
    (hal : ((ctxOf (.cbload h dom scp a) s n).w a.toNat).toNat % 128 = 0)
    (htag : field ((ctxOf (.cbload h dom scp a) s n).w a.toNat) 63 60 = 0 ∨
      field ((ctxOf (.cbload h dom scp a) s n).w a.toNat) 63 60 = 8 ∨ field ((ctxOf (.cbload h dom scp a) s n).w a.toNat) 63 60 = 9)
    (hl : (ctxOf (.cbload h dom scp a) s n).codebookLines s ((ctxOf (.cbload h dom scp a) s n).w a.toNat) dom
      ((ctxOf (.cbload h dom scp a) s n).labW a.toNat) = (s1, .ok lines)) (hlocal : localSpots lines = true) :
    let x := ctxOf (.cbload h dom scp a) s n
    ∃ t, Marked n.team n.warp s1 t ∧
      let base := (lines.zipIdx.map (x.tableLoad s1 (x.w a.toNat) dom scp (x.labW a.toNat))).foldl State.queue t.fresh
      Completes (.cbload h dom scp a) s n base [] ∧
      Leaves (.cbload h dom scp a) s n
        { id := s1.nextId, lanes := x.act, full := x.full, regs := [(codebookReg, (s.team n.team).codebookLab)]
          kind := .bulk .codebook [] 0 8, src := x.labW a.toNat ||| x.ambient } := by
  intro x
  obtain ⟨hs1, hlen⟩ := Cx.codebookLines_ok hl
  let as := lines.zipIdx.map (x.tableLoad s1 (x.w a.toNat) dom scp (x.labW a.toNat))
  let due := as.foldl (fun (l : Label) y => l ||| s1.unitLab y.place) (x.labW a.toNat ||| x.ambient)
  let r : Result := { id := s1.nextId, lanes := x.act, full := x.full, regs := [(codebookReg, (s.team n.team).codebookLab)]
                      kind := .bulk .codebook [] 0 8, src := x.labW a.toNat ||| x.ambient }
  let t := (s1.clashArray x.core n.team false due (fun m => m.warp != n.warp && m.usesTable)).1
  have ht : Marked n.team n.warp s1 t := s1.clashArray_marked _ _ _ fun m hm => by
    simpa using (Bool.and_eq_true_iff.mp hm).1
  have hne : as ≠ [] := by
    intro e
    have := congrArg List.length e
    simp [as, hlen] at this
  have hopen : ∀ y ∈ as, y.window = none ∧ y.place.remote = false := by
    intro y hy
    obtain ⟨z, hz, rfl⟩ := List.mem_map.mp hy
    obtain ⟨z1, i⟩ := z
    have hmem := (List.mem_zipIdx hz).2.2 ▸ List.getElem_mem _
    exact ⟨rfl, show z1.place.remote = false by simpa using List.all_eq_true.mp hlocal z1 hmem⟩
  have halm : x.hdr.almanac = false := by
    simp only [Cx.direct, Bool.and_eq_true, Bool.not_eq_true'] at hd
    exact hd.1.1.2
  have hteams := teams_foldl_queue as t.fresh
  have hplaced : (Cells.find? (as.foldl State.queue t.fresh).teams n.team).isSome = true := by
    rw [hteams]
    exact ht.placed (hs1 ▸ issues_placed hi)
  have hunspilled : ((as.foldl State.queue t.fresh).warp n.team n.warp).unspilled = true :=
    unspilled_of_slices (congrArg Warp.slices ((State.warp_of_teams hteams ..).trans (ht.warp.trans (State.warp_of_teams hs1 ..))))
      (issues_unspilled hi)
  have hb := Cx.sendLoads_queues (s := t.fresh) (r := r) hne halm hopen
  refine ⟨t, ht, completes_of_eff _ hi rfl (Eq.trans ?_ hb) hplaced hunspilled nofun,
    leaves_of_eff _ hi rfl (Eq.trans ?_ hb) hplaced hunspilled⟩
  all_goals
    refine (if_neg (not_not_intro hal)).trans ((if_neg (by omega)).trans ?_)
    split
    · refine (Cx.scoped_direct _ hd).trans ?_
      dsimp only
      rw [show (ctxOf (.cbload h dom scp a) s n).codebookLines (ctxOf (.cbload h dom scp a) s n).s _ _ _ = _ from hl]
      rfl
    · dsimp only
      rw [show (ctxOf (.cbload h dom scp a) s n).codebookLines (ctxOf (.cbload h dom scp a) s n).s _ _ _ = _ from hl]
      rfl

end

/-- Settles O25: the three instructions queue the accesses of their lines (`accst_completes`, `accld_completes`,
`cbload_completes`), and `queued_shape` says what a state with queued accesses shares with the one before. -/
theorem imagesAndCodebooksMove : Obligations.ImagesAndCodebooksMove := by
  unfold Obligations.ImagesAndCodebooksMove
  refine fun h ty rm dom scp t a s n k o => ⟨fun hi hport halm hq hal hf => ?_, fun hi hport halm hq hal hf => ?_,
    fun s1 lines hi hd hal htag hl hlocal => ?_⟩
  · obtain ⟨lab, hc⟩ := accst_completes hi hport halm hq hal hf
    obtain ⟨xs, id, hs, hx⟩ := State.foldl_queue ((List.range (32 * tileBytes ty)).map
      ((ctxOf (.accst h ty rm t a) s n).tileStore ty rm t.toNat (.scr k o) _ _ lab)) s.fresh
    obtain ⟨hbytes, hbase, hget⟩ := queued_shape (s := s) hs hx
    exact ⟨_, hc, hbytes, hbase, (hget _ fun _ => rfl).trans (List.map_map ..)⟩
  · obtain ⟨hc, hleaves⟩ := accld_completes hi hport halm hq hal hf
    obtain ⟨xs, id, hs, hx⟩ := State.foldl_queue ((ctxOf (.accld h ty t a) s n).tileLoads ty (.scr k o) _ _) s.fresh
    obtain ⟨hbytes, hbase, hget⟩ := queued_shape (s := s) hs hx
    exact ⟨_, hc, hbytes, hbase, (hget _ fun _ => rfl).trans (List.map_map ..), hleaves⟩
  · obtain ⟨t, ht, hc, hleaves⟩ := cbload_completes hi hd hal htag hl hlocal
    obtain ⟨xs, id, hs, hx⟩ := State.foldl_queue (lines.zipIdx.map ((ctxOf (.cbload h dom scp a) s n).tableLoad s1 _ dom scp _)) t.fresh
    obtain ⟨hbytes, hbase, hget⟩ := queued_shape (s := t) hs hx
    refine ⟨_, hc, hbytes.trans ht.bytes, (State.warp_of_teams (teams_foldl_queue _ _) ..).trans ht.warp, ?_, hleaves⟩
    rw [← ht.accesses]
    refine (hget _ fun _ => rfl).trans ((List.map_map ..).trans ?_)
    exact (List.map_map (f := Prod.fst) (g := fun y : Spot => (y.place, 128, AccOp.load, dom, scp)) ..).symm.trans
      (congrArg (List.map _) (List.zipIdx_map_fst 0 lines))

end Sys2Proof.Machine
end

section
/-! PROOFS. MMA and MSCAC enter the array's queue (R256, R303, R306, R319-R321; O23). -/

namespace Sys2Proof.Machine

/-! ## What overlaps leave as it is -/

/-- What overlaps on a tile or a slot leave as it is, as one warp and one core see it: every byte, the team's placement, the
warp's slices, and the array's queue but for the marks on it. -/
structure Overlapped (k w c : Nat) (s t : State) : Prop where
  bytes : SameBytes t s
  placed : (Cells.find? s.teams k).isSome = true → (Cells.find? t.teams k).isSome = true
  slices : (t.warp k w).slices = (s.warp k w).slices
  matrix : (t.core c).matrix.map MatEnt.bare = (s.core c).matrix.map MatEnt.bare

/-- A change of every warp that touches no slice. -/
theorem slices_map_warps (m : Cells Warp) (f : Nat × Warp → Nat × Warp)
    (hf : ∀ y, (f y).1 = y.1 ∧ (f y).2.slices = y.2.slices) (w : Nat) :
    (Cells.get (m.map f : Cells Warp) w).slices = (Cells.get m w).slices := by
  induction m with
  | nil => rfl
  | cons y m ih =>
    obtain ⟨hk, hs⟩ := hf y
    rw [List.map_cons, show f y = (y.1, (f y).2) from Prod.ext hk rfl]
    obtain ⟨v, x⟩ := y
    simp only [Cells.get]
    split
    · exact hs
    · exact ih

namespace Overlapped

section

variable {k w c : Nat} {s t u : State}

theorem refl (s : State) : Overlapped k w c s s := ⟨.refl s, id, rfl, rfl⟩

theorem trans (h : Overlapped k w c s t) (g : Overlapped k w c t u) : Overlapped k w c s u :=
  ⟨g.bytes.trans h.bytes, g.placed ∘ h.placed, g.slices.trans h.slices, g.matrix.trans h.matrix⟩

theorem foldl {α : Type} {f : State → α → State} (hf : ∀ s x, Overlapped k w c s (f s x)) (l : List α) (s : State) :
    Overlapped k w c s (l.foldl f s) :=
  List.foldlRecOn l f (motive := fun t => Overlapped k w c s t) (.refl s) (fun t h x _ => h.trans (hf t x))

theorem ite {p : Prop} [Decidable p] (h : Overlapped k w c s t) (g : Overlapped k w c s u) :
    Overlapped k w c s (if p then t else u) := by
  split
  · exact h
  · exact g

/-- The placement, the bytes and the warps stay, and so does the array's queue but for its marks. -/
theorem of_matrix (hm : t.mem = s.mem) (hh : t.hostMem = s.hostMem) (ht : t.teams = s.teams)
    (hq : (t.core c).matrix.map MatEnt.bare = (s.core c).matrix.map MatEnt.bare) : Overlapped k w c s t := by
  refine ⟨⟨fun _ => by rw [hm], fun _ => by rw [hh], fun j p => ?_⟩, fun h => ht ▸ h, ?_, hq⟩
  · unfold State.team; rw [ht]
  · rw [State.warp_of_teams ht]

theorem withFree (s : State) (as : List Access) (v : Nat) : Overlapped k w c s { s with accesses := as, free := v } :=
  .of_matrix rfl rfl rfl rfl

theorem onCore (s : State) (j : Nat) {f : Core → Core}
    (hf : ∀ x, (f x).matrix.map MatEnt.bare = x.matrix.map MatEnt.bare := by intro _; rfl) :
    Overlapped k w c s (s.onCore j f) := by
  refine of_matrix rfl rfl rfl ?_
  rw [State.core_onCore]
  split
  · next e => rw [hf, e]
  · rfl

theorem onTeam (s : State) (j : Nat) {f : Team → Team} (hb : ∀ x, (f x).scratch = x.scratch := by intro _; rfl)
    (hw : ∀ x, (Cells.get (f x).warps w).slices = (Cells.get x.warps w).slices := by intro _; rfl) :
    Overlapped k w c s (s.onTeam j f) := by
  refine ⟨.onTeam s j hb, fun h => ?_, ?_, rfl⟩
  · simp only [State.onTeam, State.setTeam, Cells.find?_put]
    split
    · rfl
    · exact h
  · simp only [State.warp, State.team, State.onTeam, State.setTeam, Cells.get_put]
    split
    · next e => rw [hw, e]
    · rfl

theorem onWarp (s : State) (j v : Nat) {f : Warp → Warp} (hf : ∀ x, (f x).slices = x.slices := by intro _; rfl) :
    Overlapped k w c s (s.onWarp j v f) := by
  refine onTeam s j (f := fun x => { x with warps := Cells.put x.warps v (f (Cells.get x.warps v)) }) (fun _ => rfl) (fun x => ?_)
  simp only [Cells.get_put]
  split
  · next e => rw [hf, e]
  · rfl

theorem clashResult (s : State) (j v id : Nat) : Overlapped k w c s (s.clashResult j v id) := by
  unfold State.clashResult
  split
  · exact .refl s
  · exact .onWarp s j v

theorem clashArray (s : State) (core j : Nat) (torn : Bool) (lab : Label) (f : MatEnt → Bool) :
    Overlapped k w c s (s.clashArray core j torn lab f).1 := by
  unfold State.clashArray
  dsimp only
  split
  · exact .refl s
  · generalize hX : List.foldl _ s _ = X
    have results : Overlapped k w c s X := hX ▸ .foldl (fun t m => .clashResult t ..) _ s
    refine results.trans ?_
    dsimp only
    refine .onCore X core fun x => ?_
    rw [List.map_map]
    refine List.map_congr_left fun m _ => ?_
    dsimp only [Function.comp]
    split <;> rfl

theorem tileWrite (s : State) (j t : Nat) (lab : Label) (f : Nat → DWord) : Overlapped k w c s (s.tileWrite j t lab f) :=
  .onTeam s j

theorem tileFree (s : State) (j t : Nat) (lab : Label) : Overlapped k w c s (s.tileFree j t lab) :=
  (tileWrite s j t lab _).trans (.withFree _ _ _)

/-- A fold that changes registers of a warp changes no slice. -/
theorem slices_foldl {α : Type} {f : Warp → α → Warp} (hf : ∀ x y, (f x y).slices = x.slices) (l : List α)
    (x : Warp) : (l.foldl f x).slices = x.slices :=
  List.foldlRecOn l f (motive := fun y => y.slices = x.slices) rfl (fun y h z _ => (hf y z).trans h)

theorem clashPort (s : State) (j v t : Nat) (lab : Label) (r : Result) : Overlapped k w c s (s.clashPort j v t lab r) := by
  unfold State.clashPort
  dsimp only
  generalize hX : s.onWarp j v _ = X
  have regs : Overlapped k w c s X := by
    subst hX
    refine .onWarp s j v (fun x => slices_foldl (fun x y => ?_) _ x)
    split <;> rfl
  refine regs.trans (Overlapped.trans (.withFree X X.accesses (s.free + 65536)) ?_)
  refine .ite (.refl _) (.ite (.tileFree ..) ?_)
  generalize hZ : State.onWarp _ j v _ = Z
  have buffer : Overlapped k w c { X with free := s.free + 65536 } Z := by
    subst hZ
    exact .onWarp _ j v
  exact buffer.trans (.withFree Z _ _)

theorem clashPorts (s : State) (j t : Nat) (lab : Label) : Overlapped k w c s (s.clashPorts j t lab).1 := by
  unfold State.clashPorts
  dsimp only
  split
  · exact .refl s
  · exact .foldl (fun s x => (clashPort s ..).trans (.clashResult ..)) _ s

theorem slotByte (s : State) (core slot : Nat) (outlier : Bool) (off : Nat) (b : Byte) (lab : Label) :
    Overlapped k w c s (s.slotByte core slot outlier off b lab) :=
  .onCore s core

theorem clashXfers (s : State) (core j n : Nat) (lab : Label) : Overlapped k w c s (s.clashXfers core j n lab).1 := by
  unfold State.clashXfers
  dsimp only
  generalize hX : List.foldl _ s _ = X
  have drained : Overlapped k w c s X := by
    subst hX
    refine .foldl (fun t x => ?_) _ s
    generalize hY : List.foldl _ t _ = Y
    have bytes : Overlapped k w c t Y := hY ▸ .foldl (fun t i => .slotByte t ..) _ t
    exact bytes.trans (.withFree Y Y.accesses _)
  refine drained.trans ?_
  split
  · refine (Overlapped.onCore _ core).trans (.onTeam _ j (fun _ => rfl) fun x => ?_)
    dsimp only
    refine slices_map_warps _ _ (fun _ => ?_) w
    exact ⟨rfl, rfl⟩
  · exact .onCore _ core

end

end Overlapped

/-! ## Overlaps with nothing -/

section

variable {k c : Nat} {s t u : State}

/-- The teams and the queue of a core's array stay. -/
def Still (c : Nat) (s t : State) : Prop := t.teams = s.teams ∧ (t.core c).matrix = (s.core c).matrix

theorem Still.refl (s : State) : Still c s s := ⟨rfl, rfl⟩

theorem Still.trans (h : Still c s t) (g : Still c t u) : Still c s u := ⟨g.1.trans h.1, g.2.trans h.2⟩

theorem Still.foldl {α : Type} {f : State → α → State} (hf : ∀ s x, Still c s (f s x)) (l : List α) (s : State) :
    Still c s (l.foldl f s) :=
  List.foldlRecOn l f (motive := fun t => Still c s t) (.refl s) (fun t h x _ => h.trans (hf t x))

theorem Still.onCore (s : State) (j : Nat) {f : Core → Core} (hf : ∀ x, (f x).matrix = x.matrix := by intro _; rfl) :
    Still c s (s.onCore j f) := by
  refine ⟨rfl, ?_⟩
  rw [State.core_onCore]
  split
  · next e => rw [hf, e]
  · rfl

/-- Every warp of a team has no result in flight and nothing in its commit buffer. -/
def idleTeam (s : State) (k : Nat) : Bool := (s.team k).warps.all (fun w => w.2.results.isEmpty && w.2.cbuf.isEmpty)

theorem idleTeam_of_teams (h : t.teams = s.teams) (k : Nat) : idleTeam t k = idleTeam s k := by
  unfold idleTeam State.team
  rw [h]

theorem State.clashPorts_idle (h : idleTeam s k = true) (t : Nat) (lab : Label) : s.clashPorts k t lab = (s, none) := by
  refine if_pos (List.isEmpty_iff.mpr (List.flatMap_eq_nil_iff.mpr fun w hw => ?_))
  have hw := (Bool.and_eq_true_iff.mp (List.all_eq_true.mp h w hw)).1
  rw [List.isEmpty_iff.mp hw]
  rfl

theorem State.clashXfers_idle (h : idleTeam s k = true) (n : Nat) (lab : Label) :
    Still c s (s.clashXfers c k n lab).1 ∧
      ((s.core c).xfers = [] → (s.clashXfers c k n lab).2 = false ∧ ((s.clashXfers c k n lab).1.core c).xfers = []) := by
  unfold State.clashXfers
  dsimp only
  generalize hX : List.foldl _ s _ = X
  have hs : Still c s X := by
    subst hX
    refine .foldl (fun t x => ?_) _ s
    generalize hY : List.foldl _ t _ = Y
    have bytes : Still c t Y := hY ▸ .foldl (fun t i => .onCore t c) _ t
    exact ⟨bytes.1, bytes.2⟩
  have hnone (g : CEntry → Bool) : (X.team k).warps.any (fun w => w.2.cbuf.any g) = false := by
    refine List.any_eq_false.mpr fun w hw => ?_
    have hw := (Bool.and_eq_true_iff.mp (List.all_eq_true.mp ((idleTeam_of_teams hs.1 k).trans h) w hw)).2
    rw [List.isEmpty_iff.mp hw]
    exact Bool.false_ne_true
  generalize hZ : X.onCore c _ = Z
  have hz : Still c X Z := hZ ▸ .onCore X c
  have hteam : Z.team k = X.team k := by unfold State.team; rw [hz.1]
  rw [hteam]
  simp only [hnone, Bool.false_eq_true, if_false, Bool.or_false]
  refine ⟨hs.trans hz, fun hempty => ?_⟩
  rw [hempty] at hX ⊢
  refine ⟨rfl, ?_⟩
  subst hX hZ
  rw [State.core_onCore, if_pos rfl]
  refine List.flatMap_eq_nil_iff.mpr fun y hy => ?_
  obtain ⟨z, hz, rfl⟩ := List.mem_map.mp hy
  exact List.map_eq_nil_iff.mpr (List.flatMap_eq_nil_iff.mp hempty z hz)

/-- Overlapping the transfers into each of some slots. -/
def State.clashSlots (s : State) (c k : Nat) (lab : Label) (slots : List Nat) : State × Bool :=
  slots.foldl (fun (acc : State × Bool) n => ((acc.1.clashXfers c k n lab).1, acc.2 || (acc.1.clashXfers c k n lab).2)) (s, false)

theorem State.clashSlots_overlapped {w : Nat} (s : State) (lab : Label) (slots : List Nat) :
    Overlapped k w c s (s.clashSlots c k lab slots).1 :=
  List.foldlRecOn slots _ (motive := fun (acc : State × Bool) => Overlapped k w c s acc.1) (.refl s)
    (fun acc h _ _ => h.trans (.clashXfers acc.1 ..))

theorem State.clashSlots_idle (h : idleTeam s k = true) (lab : Label) (slots : List Nat) :
    Still c s (s.clashSlots c k lab slots).1 ∧ ((s.core c).xfers = [] → (s.clashSlots c k lab slots).2 = false) := by
  refine And.imp_right (fun g hx => (g hx).1) (List.foldlRecOn slots _ (motive := fun (acc : State × Bool) =>
    Still c s acc.1 ∧ ((s.core c).xfers = [] → acc.2 = false ∧ (acc.1.core c).xfers = [])) ⟨.refl s, fun hx => ⟨rfl, hx⟩⟩
    (fun acc hacc n _ => ?_))
  obtain ⟨hstill, hnone⟩ := hacc
  obtain ⟨hstep, hquiet⟩ := State.clashXfers_idle (c := c) ((idleTeam_of_teams hstill.1 k).trans h) n lab
  refine ⟨hstill.trans hstep, fun hx => ?_⟩
  obtain ⟨h2, hxs⟩ := hnone hx
  obtain ⟨hq, hqs⟩ := hquiet hxs
  exact ⟨by rw [h2, hq]; rfl, hqs⟩

end

/-! ## Entering the queue -/

section

variable {i : Instr} {s X : State} {n : Now} {m : MatEnt} {r : Result} {body : Cx → Eff}

/-- A state with an instruction behind what is in the queue of a core's array. -/
def State.enter (s : State) (c : Nat) (m : MatEnt) : State := s.onCore c (fun x => { x with matrix := x.matrix ++ [m] })

theorem State.core_enter (s : State) (c : Nat) (m : MatEnt) : ((s.enter c m).core c).matrix = (s.core c).matrix ++ [m] := by
  unfold State.enter
  rw [State.core_onCore, if_pos rfl]

/-- An instruction that enters the array's queue after its overlaps, with the result that the array will return. -/
theorem enters {base : State} (hi : Issues i s n = true) (hx : exec i s = issue i s body) {c : Nat}
    (ho : Overlapped n.team n.warp c s X) (hbase : SameBytes base (X.enter c m) ∧ base.teams = (X.enter c m).teams ∧
      base.cores = (X.enter c m).cores) (hb : body (ctxOf i s n) = { s := base, result := some r }) :
    Completes i s n base [] ∧ SameBytes base s ∧
    (base.core c).matrix.map MatEnt.bare = (s.core c).matrix.map MatEnt.bare ++ [m.bare] ∧ Leaves i s n r := by
  obtain ⟨hbytes, hteams, hcores⟩ := hbase
  have hteams : base.teams = X.teams := hteams
  have hplaced : (Cells.find? base.teams n.team).isSome = true := hteams ▸ ho.placed (issues_placed hi)
  have hunspilled : (base.warp n.team n.warp).unspilled = true :=
    unspilled_of_slices ((congrArg Warp.slices (State.warp_of_teams hteams ..)).trans ho.slices) (issues_unspilled hi)
  refine ⟨completes_of_eff _ hi hx hb hplaced hunspilled nofun,
    hbytes.trans (SameBytes.trans ⟨fun _ => rfl, fun _ => rfl, fun _ _ => rfl⟩ ho.bytes), ?_,
    leaves_of_eff _ hi hx hb hplaced hunspilled⟩
  have hcore : base.core c = (X.enter c m).core c := by unfold State.core; rw [hcores]
  rw [hcore, State.core_enter, List.map_append, ho.matrix]
  rfl

end

section

variable {h : Hdr} {z : Bool} {kq : BitVec 3} {fa fb : MFmt} {sa sb p t : BitVec 4} {s : State} {n : Now}

/-- The slots that the sources of an MMA name. -/
abbrev namedSlots (sa sb : BitVec 4) : List Nat := (slotOf sa).toList ++ (slotOf sb).toList

/-- An MMA in the array's queue, as it enters when nothing overlaps it. -/
def Cx.mmaEnt (x : Cx) (z : Bool) (kq : BitVec 3) (fa fb : MFmt) (sa sb t : BitVec 4) : MatEnt :=
  let gen (y : BitVec 4) : BitVec 256 := if y.toNat < 8 then 0 else x.g (y.toNat - 8)
  let lab (y : BitVec 4) : Label := if y.toNat < 8 then 0 else x.labG (y.toNat - 8)
  { id := x.s.nextId, team := x.n.team, warp := x.n.warp, tile := t.toNat, guardLab := x.ambient
    op := .mma z kq.toNat fa fb sa sb (gen sa) (gen sb) (lab sa) (lab sb)
      (BitVec.ofNat 32 (x.scopeKey (gen sa)), BitVec.ofNat 32 (x.scopeKey (gen sb))) }

theorem mma_enters (hi : Issues (.mma h z kq fa fb sa sb t) s n = true)
    (hheld : ∀ j ∈ namedSlots sa sb, (Cells.get (s.core (s.team n.team).core).slots j).holder = some n.team) :
    let i := Instr.mma h z kq fa fb sa sb t
    let x := ctxOf i s n
    let c := (s.team n.team).core
    let m := x.mmaEnt z kq fa fb sa sb t
    ∃ X m1 clash, Overlapped n.team n.warp c s X ∧ m1.bare = m ∧
      (Completes i s n (X.enter c m1) [] ∧ SameBytes (X.enter c m1) s ∧
        ((X.enter c m1).core c).matrix.map MatEnt.bare = (s.core c).matrix.map MatEnt.bare ++ [m] ∧
        Leaves i s n { id := s.nextId, lanes := x.act, full := x.full, kind := .matrix, regs := [(.tile t.toNat, 0)], clash := clash }) ∧
      ((s.core c).matrix = [] → idleTeam s n.team = true →
        Still c s X ∧ ((s.core c).xfers = [] → s.tableRaces n.team n.warp = false → m1 = m)) := by
  intro i x c m
  let own := s.entLab c m
  let a := s.fresh.clashArray c n.team false own (fun y => y.namesTile t.toNat)
  let b := a.1.clashSlots c n.team own (namedSlots sa sb)
  let q := b.1.clashPorts n.team t.toNat own
  let races := m.usesTable && s.tableRaces n.team n.warp
  let m1 : MatEnt := { m with
    torn := b.2
    extra := a.2.getD 0 ||| q.2.getD 0 ||| (if races then (s.team n.team).oldTable ||| s.tableDue n.team else 0) }
  have hfresh : Overlapped n.team n.warp c s s.fresh := .of_matrix rfl rfl rfl rfl
  have harray : Overlapped n.team n.warp c s.fresh a.1 := .clashArray ..
  have hslots : Overlapped n.team n.warp c a.1 b.1 := State.clashSlots_overlapped ..
  have hports : Overlapped n.team n.warp c b.1 q.1 := .clashPorts ..
  have ho := hfresh.trans (harray.trans (hslots.trans hports))
  have hfind : (namedSlots sa sb).find? (fun j => (Cells.get (s.core c).slots j).holder != some n.team) = none :=
    List.find?_eq_none.mpr fun j hj => by
      rw [show (Cells.get (s.core c).slots j).holder = _ from hheld j hj]
      simp
  refine ⟨q.1, m1, a.2.isSome || b.2 || q.2.isSome || races, ho, rfl,
    enters (m := m1) hi rfl ho ⟨.refl _, rfl, rfl⟩ ?_, fun hempty hidle => ?_⟩
  · dsimp only
    split
    · next j hj => exact absurd (hj.symm.trans hfind) nofun
    · rfl
  · have ha : a = (s.fresh, none) := State.clashArray_quiet _ _ (by
      rw [show (s.fresh.core c).matrix = [] from hempty]; rfl)
    have hb := State.clashSlots_idle (s := s.fresh) (c := c) (k := n.team) hidle own (namedSlots sa sb)
    have hbe : b = s.fresh.clashSlots c n.team own (namedSlots sa sb) := by simp only [b, ha]
    rw [← hbe] at hb
    have hq : q = (b.1, none) := State.clashPorts_idle ((idleTeam_of_teams hb.1.1 _).trans hidle) ..
    refine ⟨?_, fun hx hr => ?_⟩
    · rw [hq]; exact hb.1
    · have h2 := hb.2 hx
      simp only [m1, races, ha, hq, h2, hr, Option.getD_none, Bool.and_false, Bool.false_eq_true, if_false, labelOr_zero]
      rfl

end

section

variable {h : Hdr} {z : Bool} {ws : BitVec 8} {p t : BitVec 4} {s : State} {n : Now} {ka oa kb ob : Nat}

/-- An MSCAC in the array's queue, as it enters when nothing overlaps it (R320). -/
def Cx.mscacEnt (x : Cx) (z : Bool) (ws : BitVec 8) (p t : BitVec 4) (pa pb : Place) : MatEnt :=
  { id := x.s.nextId, team := x.n.team, warp := x.n.warp, tile := t.toNat
    guardLab := x.ambient ||| x.labW ws.toNat ||| x.labW (ws.toNat + 1)
    op := .mscac z p.toNat (x.w ws.toNat) (x.w (ws.toNat + 1)) (pa, pb), ready := x.buffers
    codebook := if x.buffers then (x.scalesNow pa pb).1 else []
    codebookLab := if x.buffers then (x.scalesNow pa pb).2 else 0 }

/-- The two reads of an MSCAC's scale words, when it queues them. -/
def Cx.scaleReads (x : Cx) (ws : BitVec 8) (pa pb : Place) : List Access :=
  if x.buffers then [] else
    [x.portAccess x.s.nextId 0 pa (x.w ws.toNat) .load (x.labW ws.toNat),
     { x.portAccess x.s.nextId 0 pb (x.w (ws.toNat + 1)) .load (x.labW (ws.toNat + 1)) with lanes := List.range 32 }]

/-- Is an instruction of the array an MMA? -/
def MatEnt.isMma (m : MatEnt) : Bool :=
  match m.op with
  | .mma _ _ _ _ _ _ _ _ _ _ _ => true
  | .mscac _ _ _ _ _ => false

theorem mscac_enters (hi : Issues (.mscac h z ws p t) s n = true)
    (ha : ((ctxOf (.mscac h z ws p t) s n).w ws.toNat).toNat % 2 = 0)
    (hb : ((ctxOf (.mscac h z ws p t) s n).w (ws.toNat + 1)).toNat % 2 = 0)
    (hfa : s.formOf n.team n.warp 0 ((ctxOf (.mscac h z ws p t) s n).w ws.toNat) 128 = .scr ka oa)
    (hfb : s.formOf n.team n.warp 0 ((ctxOf (.mscac h z ws p t) s n).w (ws.toNat + 1)) 128 = .scr kb ob) :
    let i := Instr.mscac h z ws p t
    let x := ctxOf i s n
    let c := (s.team n.team).core
    let m := x.mscacEnt z ws p t (.scr ka oa) (.scr kb ob)
    ∃ X m1 clash, Overlapped n.team n.warp c s X ∧ m1.bare = m ∧
      let base := (x.scaleReads ws (.scr ka oa) (.scr kb ob)).foldl State.queue (X.enter c m1)
      (Completes i s n base [] ∧ SameBytes base s ∧
        (base.core c).matrix.map MatEnt.bare = (s.core c).matrix.map MatEnt.bare ++ [m] ∧
        Leaves i s n { id := s.nextId, lanes := x.act, full := x.full, kind := .matrix, clash := clash,
                       regs := (.tile t.toNat, 0) :: (if p = t then [] else [(.tile p.toNat, 0)]) }) ∧
      ((s.core c).matrix = [] → idleTeam s n.team = true → X = s.fresh ∧ m1 = m) := by
  intro i x c m
  let own := s.entLab c m
  let a := s.fresh.clashArray c n.team false own (fun y => y.isMma && (y.namesTile t.toNat || y.namesTile p.toNat))
  let q := a.1.clashPorts n.team t.toNat own
  let r := if p = t then (q.1, none) else q.1.clashPorts n.team p.toNat own
  let m1 : MatEnt := { m with extra := a.2.getD 0 ||| q.2.getD 0 ||| r.2.getD 0 }
  have hfresh : Overlapped n.team n.warp c s s.fresh := .of_matrix rfl rfl rfl rfl
  have harray : Overlapped n.team n.warp c s.fresh a.1 := .clashArray ..
  have hports : Overlapped n.team n.warp c a.1 q.1 := .clashPorts ..
  have hlast : Overlapped n.team n.warp c q.1 r.1 := by
    unfold r
    split
    · exact .refl _
    · exact .clashPorts ..
  have ho := hfresh.trans (harray.trans (hports.trans hlast))
  obtain ⟨xs, id, hs, -⟩ := State.foldl_queue (x.scaleReads ws (.scr ka oa) (.scr kb ob)) (r.1.enter c m1)
  refine ⟨r.1, m1, a.2.isSome || q.2.isSome || r.2.isSome, ho, rfl,
    enters (m := m1) hi rfl ho (hs ▸ ⟨⟨fun _ => rfl, fun _ => rfl, fun _ _ => rfl⟩, rfl, rfl⟩) ?_, fun hempty hidle => ?_⟩
  · dsimp only
    rw [Cx.padPlace_scr (c := ctxOf (.mscac h z ws p t) s n) _ ha hfa]
    dsimp only
    rw [Cx.padPlace_scr (c := ctxOf (.mscac h z ws p t) s n) _ hb hfb]
    have hreads : (if x.buffers then r.1.enter c m1 else ((r.1.enter c m1).queue
        (x.portAccess s.nextId 0 (.scr ka oa) (x.w ws.toNat) .load (x.labW ws.toNat))).queue
          { x.portAccess s.nextId 0 (.scr kb ob) (x.w (ws.toNat + 1)) .load (x.labW (ws.toNat + 1)) with lanes := List.range 32 }) =
        (x.scaleReads ws (.scr ka oa) (.scr kb ob)).foldl State.queue (r.1.enter c m1) := by
      unfold Cx.scaleReads
      split <;> rfl
    have hregs : ([t.toNat] ++ if p = t then [] else [p.toNat]).map (fun y => (Reg.tile y, (0 : Label))) =
        (.tile t.toNat, 0) :: (if p = t then [] else [(.tile p.toNat, 0)]) := by
      split <;> rfl
    let res (y : List (Reg × Label)) : Result :=
      { id := s.nextId, lanes := x.act, full := x.full, kind := .matrix, regs := y
        clash := a.2.isSome || q.2.isSome || r.2.isSome }
    exact congrArg₂ (fun (v : State) (y : List (Reg × Label)) => ({ s := v, result := some (res y) } : Eff)) hreads hregs
  · have ha : a = (s.fresh, none) := State.clashArray_quiet _ _ (by
      rw [show (s.fresh.core c).matrix = [] from hempty]; rfl)
    have hq : q = (s.fresh, none) := by
      unfold q
      rw [ha]
      exact State.clashPorts_idle (s := s.fresh) hidle ..
    have hr : r = (s.fresh, none) := by
      unfold r
      rw [hq]
      split
      · rfl
      · exact State.clashPorts_idle (s := s.fresh) hidle ..
    refine ⟨by rw [hr], ?_⟩
    simp only [m1, ha, hq, hr, Option.getD_none, labelOr_zero]
    rfl

end

theorem Access.brief_unposted (a : Access) : a.unposted.brief = a.brief := rfl

/-- What the scale reads of an MSCAC are when they are queued. -/
theorem Cx.scaleReads_brief (x : Cx) (ws : BitVec 8) (ka oa kb ob : Nat) :
    (x.scaleReads ws (.scr ka oa) (.scr kb ob)).map Access.brief = if x.buffers then [] else
      [(32 :: List.range 32, .scr ka oa, x.w ws.toNat, 128, .load, 0, .bu, .team),
       (List.range 32, .scr kb ob, x.w (ws.toNat + 1), 128, .load, 0, .bu, .team)] := by
  have hva (v : DWord) : v + BitVec.ofNat 64 (128 * 0) = v := BitVec.add_zero v
  unfold Cx.scaleReads
  split
  · rfl
  · simp only [List.map_cons, List.map_nil, Access.brief, Cx.portAccess, hva]
    rfl

/-- Settles O23: MMA by the holders of its slots, MSCAC by its addresses; `mma_enters` and `mscac_enters` say how each enters the
array's queue, with and without overlaps. -/
theorem matrixInstructionsQueue : Obligations.MatrixInstructionsQueue := by
  unfold Obligations.MatrixInstructionsQueue
  refine fun h z kq fa fb sa sb p t ws s n => ⟨fun hi => ⟨fun hheld => ?_, fun j hj => ?_⟩, fun hi =>
    ⟨fun ka oa kb ob ha hb hfa hfb => ?_, fun hodd => ?_⟩⟩
  · obtain ⟨X, m1, clash, -, hbare, ⟨hc, hbytes, hm, hl⟩, hquiet⟩ := mma_enters hi hheld
    refine ⟨_, hc, hbytes, hm, fun hempty hidle => ?_, clash, hl⟩
    obtain ⟨⟨hteams, hmat⟩, hm1⟩ := hquiet hempty hidle
    refine ⟨hteams, fun hx hr => ?_⟩
    rw [State.core_enter, hmat, hempty, hm1 hx hr]
    rfl
  · refine finishes_of_issue _ hi rfl ?_ rfl
    dsimp only
    split
    · next j' hj' =>
      obtain rfl : j' = j := Option.some.inj (hj'.symm.trans hj)
      rfl
    · next hnone => exact absurd (hnone.symm.trans hj) nofun
  · obtain ⟨X, m1, clash, -, hbare, ⟨hc, hbytes, hm, hl⟩, hquiet⟩ := mscac_enters hi ha hb hfa hfb
    refine ⟨_, hc, hbytes, hm, fun hempty hidle => ?_, clash, hl⟩
    obtain ⟨rfl, rfl⟩ := hquiet hempty hidle
    obtain ⟨xs, id, hs, hx⟩ := State.foldl_queue ((ctxOf (.mscac h z ws p t) s n).scaleReads ws (.scr ka oa) (.scr kb ob))
      (s.fresh.enter (s.team n.team).core ((ctxOf (.mscac h z ws p t) s n).mscacEnt z ws p t (.scr ka oa) (.scr kb ob)))
    rw [hs]
    refine ⟨rfl, ?_, ?_⟩
    · exact (State.core_enter ..).trans (congrArg (· ++ _) hempty)
    · refine (List.map_append ..).trans (congrArg _ ?_)
      exact (map_of_unposted _ Access.brief_unposted hx).trans (Cx.scaleReads_brief ..)
  · refine finishes_of_issue _ hi rfl ?_ rfl
    dsimp only
    rw [show (ctxOf (.mscac h z ws p t) s n).padPlace _ 2 128 _ = _ from if_pos hodd]
    rfl

end Sys2Proof.Machine
end

section
/-! PROOFS. The cast-on sequence, the power range and management requests (R313, R423, R435, R437; O49). -/

namespace Sys2Proof.Machine

section

variable {s : State} {c : CastOn}

theorem CastOn.stage_ok (h1 : c.islandsOk = true) (h2 : c.stacksOk = true) (h3 : c.imageOk = true)
    (h4 : c.image.inRange = true) (h5 : c.cxlOk = true) : c.stage = 5 := by
  simp [CastOn.stage, h1, h2, h3, h4, h5]

theorem CastOn.stage_lt (h : c.islandsOk = false ∨ c.stacksOk = false ∨ c.imageOk = false ∨ c.image.inRange = false ∨ c.cxlOk = false) :
    c.stage < 5 := by
  unfold CastOn.stage
  split
  · decide
  · split
    · decide
    · split
      · decide
      · split
        · decide
        · simp_all

/-- A management request lowers the frequency of an island or leaves it. -/
theorem lowerFrequency_lowers {island mhz : Nat} (hi : island < 512)
    (hf : ∀ f, Cells.find? s.power.frequency island = some f → mhz < f) :
    exec (.managementRequest (.lowerFrequency island mhz)) s =
      .next { s with power := { s.power with frequency := Cells.put s.power.frequency island mhz } } := by
  refine if_neg ?_
  rw [Bool.or_eq_true, not_or]
  refine ⟨by simpa using hi, ?_⟩
  split
  · next f hf' => simpa using hf f hf'
  · exact Bool.false_ne_true

theorem grantNext_of_none {a k : Nat} (h : Cells.find? (Cells.get s.budgets a).next k = none) : s.grantNext a k = s.grantOf a k := by
  unfold State.grantNext
  rw [h]
  rfl

/-- A grant set for an activity other than the scrubber is the next period's. -/
theorem setGrant_next {a k g : Nat} (ha : a ≠ 32) : Cells.find? (Cells.get (s.setGrant a k g).budgets a).next k = some g := by
  unfold State.setGrant
  rw [if_neg ha, Cells.get_put_self, Cells.find?_put, if_pos rfl]

end

/-- Settles O49: cast-on by its stage (`CastOn.stage_ok`, `CastOn.stage_lt`), and each request by the test that guards it. -/
theorem powerAndManagement : Obligations.PowerAndManagement := by
  unfold Obligations.PowerAndManagement
  refine fun s => ⟨fun c h1 h2 h3 h4 h5 => ?_, fun c h => ?_, fun mv => ⟨fun hmv => ?_, fun hlo hhi => ?_⟩,
    fun island mhz hi hf => ?_, fun l i r => ?_, fun a k g ha hk hg _ hnone => ?_⟩
  · have hstage := CastOn.stage_ok h1 h2 h3 h4 h5
    refine ⟨_, rfl, rfl, ?_, hstage, rfl, rfl, rfl, rfl, ?_, fun n b hb => ?_⟩
    · exact beq_iff_eq.mpr hstage
    · exact if_neg (by omega)
    · simp [State.origin, State.castOn, hstage, hb, Cells.put, Cells.get]
  · have hstage := CastOn.stage_lt h
    exact ⟨_, rfl, beq_eq_false_iff_ne.mpr (Nat.ne_of_lt hstage), hstage⟩
  · refine ⟨_, if_neg (by omega), rfl, rfl, fun hagenda => ?_⟩
    exact step_unpowered rfl fun t rest c he => absurd (hagenda.symm.trans he) nofun
  · exact if_pos ⟨hlo, hhi⟩
  · refine ⟨_, lowerFrequency_lowers hi hf, ?_⟩
    exact (Cells.find?_put ..).trans (if_pos rfl)
  · by_cases hok : 8 ≤ l ∧ l ≤ s.power.limit8 ∧ 256 ≤ i ∧ i ≤ s.power.idle ∧ s.power.ramp ≤ r ∧ r ≤ 256
    · have hok' := hok
      obtain ⟨-, hl, -, hi, hr, -⟩ := hok'
      exact ⟨_, if_pos hok, hl, hi, hr⟩
    · exact ⟨s, if_neg hok, le_rfl, le_rfl, le_rfl⟩
  · refine ⟨_, if_neg ?_, setGrant_next (by omega)⟩
    rw [grantNext_of_none hnone]
    omega

end Sys2Proof.Machine
end

section
/-! PROOFS. A core's sleep stays through what the caches do (R215, R218, R219, R233). -/

namespace Sys2Proof.Machine

/-- A core sleeps as it did. -/
def SameSleep (c : Nat) (s t : State) : Prop := (t.core c).sleep = (s.core c).sleep

namespace SameSleep

variable {c : Nat} {s t u : State}

theorem refl (s : State) : SameSleep c s s := rfl

theorem trans (h : SameSleep c s t) (g : SameSleep c t u) : SameSleep c s u := Eq.trans g h

theorem ite {p : Prop} [Decidable p] (h : SameSleep c s t) (g : SameSleep c s u) : SameSleep c s (if p then t else u) := by
  split
  · exact h
  · exact g

theorem foldl {α : Type} {f : State → α → State} (hf : ∀ s x, SameSleep c s (f s x)) (l : List α) (s : State) :
    SameSleep c s (l.foldl f s) :=
  List.foldlRecOn l f (motive := fun t => SameSleep c s t) (.refl s) (fun t h x _ => h.trans (hf t x))

theorem of_cores (h : t.cores = s.cores) : SameSleep c s t := by
  unfold SameSleep State.core
  rw [h]

theorem onCore (s : State) (j : Nat) {f : Core → Core} (hf : ∀ x, (f x).sleep = x.sleep := by intro _; rfl) :
    SameSleep c s (s.onCore j f) := by
  unfold SameSleep
  rw [State.core_onCore]
  split
  · next e => rw [hf, e]
  · rfl

theorem charge (s : State) (a k inst n : Nat) : SameSleep c s (s.charge a k inst n) := .of_cores rfl

theorem chargeTo (s : State) (a : Option Nat) (k inst n : Nat) : SameSleep c s (s.chargeTo a k inst n) := by
  cases a with
  | none => exact .refl s
  | some a => exact .charge s a k inst n

theorem refuseWriteBack (s : State) (half : Nat) : SameSleep c s (s.refuseWriteBack half) :=
  .ite (.of_cores rfl) (.of_cores rfl)

theorem hostWriteBack (s : State) (half : Nat) : SameSleep c s (s.hostWriteBack half) := .ite (.of_cores rfl) (.refl s)

theorem dropCopies (s : State) (line : Nat) : SameSleep c s (s.dropCopies line) := by
  unfold SameSleep State.core State.dropCopies
  induction s.cores with
  | nil => rfl
  | cons x cs ih =>
    simp only [List.map_cons, Cells.get]
    split
    · rfl
    · exact ih

theorem hostDrop (s : State) (half : Nat) : SameSleep c s (s.hostDrop half) :=
  .ite (.refuseWriteBack s half) (((SameSleep.hostWriteBack s half).trans (.dropCopies _ _)).trans (.of_cores rfl))

theorem l2Evict (s : State) (act : Option Nat) (l : L2Line) : SameSleep c s (s.l2Evict act l) := by
  refine .ite ((SameSleep.ite (.chargeTo s act 0 _ 2) (.refl s)).trans (.of_cores rfl)) ?_
  have home := (SameSleep.hostDrop (c := c) s (2 * (l.line - 2 ^ 46))).trans (.hostDrop _ (2 * (l.line - 2 ^ 46) + 1))
  exact .ite (home.trans (.of_cores rfl)) home

theorem l2Room (s : State) (act : Option Nat) (line : Nat) : SameSleep c s (s.l2Room act line) :=
  .foldl (fun s l => .ite (.refl s) (.l2Evict s act l)) _ s

theorem l2Touch (s : State) (who : Who) (line : Nat) (write : Bool) : SameSleep c s (s.l2Touch who line write) := by
  unfold State.l2Touch
  exact (SameSleep.ite (.refl s) ((SameSleep.ite (.chargeTo s who.act 0 _ 2) (.refl s)).trans (.l2Room _ _ _))).trans
    (.of_cores rfl)

theorem l2Reach (s : State) (who : Who) (p : Place) (n : Nat) (write : Bool) : SameSleep c s (s.l2Reach who p n write) := by
  cases p with
  | dev _ | host _ _ => exact .foldl (fun s l => .l2Touch s who l write) _ s
  | peer _ _ _ | scr _ _ => exact .refl s

theorem hostShare (s : State) (half : Nat) : SameSleep c s (s.hostShare half) := .ite (.of_cores rfl) (.refl s)

theorem hostOwn (s : State) (half : Nat) : SameSleep c s (s.hostOwn half) :=
  (SameSleep.hostShare s half).trans (.ite (.of_cores rfl) (.refl _))

theorem hostGet (s : State) (p : Place) (n : Nat) (own : Bool) (who : Who) : SameSleep c s (s.hostGet p n own who) := by
  cases p with
  | dev _ | peer _ _ _ | scr _ _ => exact .refl s
  | host v h =>
    have held : SameSleep c s ((halvesOf h n).foldl (fun s k => if own then s.hostOwn k else s.hostShare k) s) :=
      .foldl (fun t k => .ite (.hostOwn t k) (.hostShare t k)) _ s
    exact held.trans (.l2Reach _ who (.host v h) n own)

theorem writeHome (s : State) (p : Place) (n x : Nat) (lab : Label) (who : Who) : SameSleep c s (s.writeHome p n x lab who) := by
  cases p with
  | dev pa => exact ((SameSleep.of_cores rfl).trans (.l2Reach (s.noteWrite pa) ..)).trans (.of_cores rfl)
  | host v h =>
    have data : SameSleep c s { s with hostData := Cells.writeLE s.hostData h n x } := .of_cores rfl
    refine data.trans (.foldl (fun _ _ => ?_) (halvesOf h n) _)
    exact .of_cores rfl
  | peer _ _ _ => exact .of_cores rfl
  | scr t o => exact .ite (.refl s) (.of_cores rfl)

theorem l1Write (s : State) (core key : Nat) (bytes : List Byte) (lab : Label) : SameSleep c s (s.l1Write core key bytes lab) :=
  .onCore s core

theorem privBack (s : State) (line : Nat) (l : L1Line) : SameSleep c s (s.privBack line l) :=
  .foldl (fun s _ => .ite (((SameSleep.hostGet s _ _ _ _).trans (.writeHome _ _ _ _ _ _)).trans
    (.foldl (fun t c => .l1Write t c _ _ _) _ _)) (.refl s)) _ s

theorem l1Put (s : State) (core key : Nat) (l : L1Line) : SameSleep c s (s.l1Put core key l) := by
  have put (t : State) : SameSleep c t (t.onCore core (fun c => { c with
      l1 := Cells.put c.l1 key { l with gen := t.genOf core } })) := .onCore t core
  refine SameSleep.trans (.ite (.refl s) ?_) (put _)
  split
  · exact .refl s
  · next v _ =>
    have erased : SameSleep c s (s.onCore core (fun c => { c with l1 := Cells.erase c.l1 v.1 })) := .onCore s core
    exact .ite erased (erased.trans (.privBack _ _ _))

end SameSleep

theorem State.find?_put_onCore (s : State) (core key : Nat) (l : L1Line) :
    Cells.find? ((s.onCore core (fun c => { c with l1 := Cells.put c.l1 key l })).core core).l1 key = some l := by
  rw [State.core_onCore, if_pos rfl, Cells.find?_put, if_pos rfl]

/-- What a core's L1 holds at a line that has just been put there. -/
theorem State.find?_l1Put (s : State) (core key : Nat) (l : L1Line) :
    ∃ g, Cells.find? ((s.l1Put core key l).core core).l1 key = some { l with gen := g } :=
  ⟨_, State.find?_put_onCore _ core key _⟩

section

variable {s : State} {c l g : Nat} {y : L1Line}

/-- A line of device memory is filled with its bytes there, and the core sleeps as it did. -/
theorem l1Fill_device (mark : Evict) (who : Who) (hl : l < 2 ^ 46) :
    SameSleep c s (s.l1Fill c (placeOfLine l 0) mark who) ∧
      ∃ x, Cells.find? ((s.l1Fill c (placeOfLine l 0) mark who).core c).l1 l = some x ∧
        x.data = s.lineBytes (.dev (128 * l)) ∧ x.mark = mark := by
  have hplace : placeOfLine l 0 = .dev (128 * l) := if_pos hl
  have hkey : (Place.dev (128 * l)).lineKey = l := Nat.mul_div_cancel_left l (by decide)
  unfold State.l1Fill
  rw [hplace, hkey]
  dsimp only
  rw [hplace]
  have hreach : CacheMove s (s.l2Reach who (.dev (128 * l)) 1 false) := .l2Reach ..
  have hsleep : SameSleep c s (s.l2Reach who (.dev (128 * l)) 1 false) := .l2Reach ..
  refine ⟨hsleep.trans (SameSleep.trans (.of_cores rfl) (.l1Put ..)), ?_⟩
  obtain ⟨g, hg⟩ := State.find?_l1Put { s.l2Reach who (.dev (128 * l)) 1 false with
    updates := (s.l2Reach who (.dev (128 * l)) 1 false).updates.filter (fun u => !(u.core == c && u.pa / 128 == l)) } c l
    { data := (s.l2Reach who (.dev (128 * l)) 1 false).lineBytes (.dev (128 * l)), mark := mark, owner := who.own }
  refine ⟨_, hg, ?_, rfl⟩
  simp only [State.lineBytes, hreach.mem]

end

end Sys2Proof.Machine
end

section
/-! PROOFS. Budget periods, update generations, scrubbing, uncorrectable errors and retention sleep (R231-R233, R357, R422; O48). -/

namespace Sys2Proof.Machine

theorem Cells.find?_map_snd {α β : Type} (m : Cells α) (f : Nat → α → β) (k : Nat) :
    Cells.find? (m.map (fun c => (c.1, f c.1 c.2)) : Cells β) k = (Cells.find? m k).map (f k) := by
  induction m with
  | nil => rfl
  | cons c m ih =>
    obtain ⟨a, v⟩ := c
    simp only [List.map_cons, Cells.find?]
    split
    · next e => rw [e]; rfl
    · exact ih

/-! ## Update generations and budget periods -/

section

variable {s : State} {d e : Nat}

theorem State.die_advanceGen (s : State) (d e : Nat) : (s.advanceGen d).die e =
    if d = e then { s.die d with gen := ((s.die d).gen + 1) % 65536, genPeriod := some (s.cycle / 10800) } else s.die e :=
  Cells.get_set ..

theorem State.advanceGen_sameBytes (s : State) (d : Nat) : SameBytes (s.advanceGen d) s :=
  ⟨fun _ => rfl, fun _ => rfl, fun _ _ => rfl⟩

theorem State.genDue_advanceGen (s : State) (d : Nat) : (s.advanceGen d).genDue d = false := by
  unfold State.genDue
  rw [State.die_advanceGen, if_pos rfl]
  simp [State.advanceGen, State.onDie]

/-- The generations of some dies advance. -/
def State.advanceGens (s : State) (ds : List Nat) : State := ds.foldl (fun (s : State) d => s.advanceGen d) s

theorem State.advanceGens_frame (s : State) (ds : List Nat) :
    (s.advanceGens ds).budgets = s.budgets ∧ (s.advanceGens ds).cycle = s.cycle ∧ (s.advanceGens ds).mem = s.mem ∧
      (s.advanceGens ds).hostMem = s.hostMem ∧ (s.advanceGens ds).teams = s.teams :=
  List.foldlRecOn ds _ (motive := fun (t : State) => t.budgets = s.budgets ∧ t.cycle = s.cycle ∧ t.mem = s.mem ∧
    t.hostMem = s.hostMem ∧ t.teams = s.teams) ⟨rfl, rfl, rfl, rfl, rfl⟩ (fun _ h _ _ => h)

theorem State.die_advanceGens (ds : List Nat) (hnd : ds.Nodup) (s : State) (e : Nat) : (s.advanceGens ds).die e =
    if e ∈ ds then { s.die e with gen := ((s.die e).gen + 1) % 65536, genPeriod := some (s.cycle / 10800) } else s.die e := by
  induction ds generalizing s with
  | nil => rfl
  | cons d ds ih =>
    obtain ⟨hd, hnd⟩ := List.nodup_cons.mp hnd
    refine (ih hnd (s.advanceGen d)).trans ?_
    rw [State.die_advanceGen]
    by_cases he : d = e
    · subst he
      rw [if_neg hd, if_pos rfl, if_pos List.mem_cons_self]
    · rw [if_neg he]
      exact if_congr (by simp [Ne.symm he]) rfl rfl

theorem get_map_unforwarded (m : Cells Die) (d : Nat) :
    Cells.get (m.map (fun x => (x.1, { x.2 with forwarded := false })) : Cells Die) d = { Cells.get m d with forwarded := false } := by
  rw [Cells.get_eq_find?, Cells.get_eq_find?]
  refine (congrArg (Option.getD · default) (Cells.find?_map_snd m (fun _ x => { x with forwarded := false }) d)).trans ?_
  cases Cells.find? m d <;> rfl

theorem budgetPeriod_begins (h : s.periodEnds = true) :
    ∃ t, exec .budgetPeriod s = .next t ∧ t.cycle = s.cycle + 1 ∧ SameBytes t s ∧
      (∀ a b, Cells.find? s.budgets a = some b → ∃ c, Cells.find? t.budgets a = some c ∧ c.next = [] ∧ c.used = [] ∧
        (∀ k g, b.next = [(k, g)] → Cells.find? c.grant k = some g)) ∧
      (∀ d, d < 8 → (t.die d).forwarded = false ∧
        (t.die d).gen = if s.genDue d then ((s.die d).gen + 1) % 65536 else (s.die d).gen) := by
  obtain ⟨hbudgets, hcycle, hmem, hhost, hteams⟩ := s.advanceGens_frame ((List.range 8).filter s.genDue)
  refine ⟨_, if_pos h, congrArg (· + 1) hcycle, ⟨fun _ => ?_, fun _ => ?_, fun j p => ?_⟩, fun a b hb => ?_, fun d hd => ?_⟩
  · exact congrArg (Cells.get · _) hmem
  · exact congrArg (Cells.get · _) hhost
  · exact congrArg (fun ts => Cells.get (Cells.get ts j).scratch p) hteams
  · refine ⟨(s.advanceGens ((List.range 8).filter s.genDue)).refillBudget a b, (Cells.find?_map_snd _ _ a).trans ?_,
      rfl, rfl, fun k g hnext => ?_⟩
    · exact congrArg (Option.map _) ((congrArg (Cells.find? · a) hbudgets).trans hb)
    · unfold State.refillBudget
      rw [hnext]
      exact (Cells.find?_put ..).trans (if_pos rfl)
  · have hdie := (get_map_unforwarded (s.advanceGens ((List.range 8).filter s.genDue)).dies d).trans
      (congrArg (fun x : Die => { x with forwarded := false })
        (State.die_advanceGens _ (List.nodup_range.filter _) s d))
    refine ⟨congrArg Die.forwarded hdie, (congrArg Die.gen hdie).trans ?_⟩
    by_cases hdue : s.genDue d = true
    · rw [if_pos hdue, if_pos (List.mem_filter.mpr ⟨List.mem_range.mpr hd, hdue⟩)]
    · rw [if_neg hdue, if_neg (fun hm => hdue (List.mem_filter.mp hm).2)]

end

/-! ## Uncorrectable errors -/

section

variable {s : State} {l : ArrayLine}

theorem State.mem_poisonLine (s : State) (line : Nat) : line ∈ (s.poisonLine line).poison := by
  unfold State.poisonLine
  dsimp only
  split
  · next h => exact List.contains_iff_mem.mp h
  · exact List.mem_append_right _ (List.mem_singleton.mpr rfl)

theorem dramError_poisons (hk : l.kind = .dram)
    (hd : (Cells.get (s.die (lineDie l.line)).l2 (lineSet l.line)).any (fun x => x.line == l.line && x.dirty) = false) :
    exec (.uncorrectableError l) s = .next (s.poisonLine l.line) := by
  refine congrArg Host.Outcome.next ?_
  unfold State.lineError
  rw [hk]
  exact if_neg (Bool.eq_false_iff.mp hd)

theorem dramError_replaced (hk : l.kind = .dram)
    (hd : (Cells.get (s.die (lineDie l.line)).l2 (lineSet l.line)).any (fun x => x.line == l.line && x.dirty) = true) :
    exec (.uncorrectableError l) s = .next s := by
  refine congrArg Host.Outcome.next ?_
  unfold State.lineError
  rw [hk]
  exact if_pos hd

theorem opmemError (hk : l.kind = .opmem) : exec (.uncorrectableError l) s = .next
    (match (Cells.get (s.core l.owner).slots l.item).holder with
     | some k => s.sramError (s.team k).ctx 4
     | none => s.onCore l.owner (fun c => { c with slots := Cells.erase c.slots l.item })) := by
  refine congrArg Host.Outcome.next ?_
  unfold State.lineError
  rw [hk] <;> rfl

theorem l1Error_clean (hk : l.kind = .l1) (hclean : ∀ x, Cells.find? (s.core l.owner).l1 l.line = some x → x.dirty = 0) :
    ∃ t, exec (.uncorrectableError l) s = .next t ∧ Cells.find? (t.core l.owner).l1 l.line = none ∧ SameBytes t s ∧
      t.contexts = s.contexts := by
  have hexec : exec (.uncorrectableError l) s = .next (s.l1Error l.owner l.line) := by
    refine congrArg Host.Outcome.next ?_
    unfold State.lineError
    rw [hk]
  refine ⟨_, hexec, ?_⟩
  unfold State.l1Error
  split
  · next hnone => exact ⟨hnone, .refl s, rfl⟩
  · next x hx =>
    rw [if_neg (fun h => h.1 (hclean x hx)), if_pos (hclean x hx)]
    refine ⟨?_, ⟨fun _ => rfl, fun _ => rfl, fun _ _ => rfl⟩, rfl⟩
    rw [State.core_onCore, if_pos rfl]
    exact (Cells.find?_erase ..).trans (if_pos rfl)

end

/-! ## Retention sleep -/

section

variable {s : State} {c : Nat} {z : Sleep}

theorem sleepEnter_resident (h : s.teams.any (fun x => x.2.core == c) = true) : exec (.retentionSleepEnter c) s = .next s :=
  if_pos (by rw [h]; rfl)

/-- The updates on their way to a core arrive. -/
def State.arrivals (s : State) (c : Nat) : State :=
  s.updates.foldl (fun (s : State) u => if u.core = c then s.l1Write c u.pa u.bytes u.lab else s) s

theorem State.arrivals_frame (s : State) (c : Nat) :
    (s.arrivals c).mem = s.mem ∧ (s.arrivals c).hostMem = s.hostMem ∧ (s.arrivals c).teams = s.teams ∧
      (s.arrivals c).updates = s.updates := by
  refine List.foldlRecOn s.updates _ (motive := fun (t : State) => t.mem = s.mem ∧ t.hostMem = s.hostMem ∧ t.teams = s.teams ∧
    t.updates = s.updates) ⟨rfl, rfl, rfl, rfl⟩ (fun t h u _ => ?_)
  split
  · exact h
  · exact h

theorem sleepEnter_sleeps (h : s.teams.any (fun x => x.2.core == c) = false) (hz : (s.core c).sleep = none) :
    ∃ t, exec (.retentionSleepEnter c) s = .next t ∧ SameBytes t s ∧
      (t.core c).sleep = some { gen0 := (s.die (dieOf c)).gen, count := 0, lines := [], overflow := false } ∧
      ∀ u ∈ t.updates, u.core ≠ c := by
  obtain ⟨hmem, hhost, hteams, hupdates⟩ := s.arrivals_frame c
  refine ⟨_, if_neg (by simp [h, hz]), ⟨fun _ => ?_, fun _ => ?_, fun j p => ?_⟩, ?_, fun u hu => ?_⟩
  · exact congrArg (Cells.get · _) hmem
  · exact congrArg (Cells.get · _) hhost
  · exact congrArg (fun ts => Cells.get (Cells.get ts j).scratch p) hteams
  · rw [State.core_onCore, if_pos rfl]
  · simpa using (List.mem_filter.mp hu).2

theorem wake_dropsAll (hz : (s.core c).sleep = some z) (h : 32768 ≤ z.count ∨ z.overflow = true) :
    ∃ t, exec (.retentionWake c) s = .next t ∧ (t.core c).sleep = none ∧ (t.core c).l1 = [] ∧ SameBytes t s := by
  refine ⟨_, rfl, ?_⟩
  unfold State.wakeCore
  rw [hz]
  dsimp only
  rw [if_pos h]
  have hcore : ((s.onCore c (fun c => { c with sleep := none })).onCore c (fun c => { c with l1 := [] })).core c =
      { s.core c with sleep := none, l1 := [] } := by
    rw [State.core_onCore, if_pos rfl, State.core_onCore, if_pos rfl]
  exact ⟨congrArg Core.sleep hcore, congrArg Core.l1 hcore, fun _ => rfl, fun _ => rfl, fun _ _ => rfl⟩

theorem wake_keepsAll (hz : (s.core c).sleep = some z) (hc : z.count < 32768) (ho : z.overflow = false) (hl : z.lines = []) :
    ∃ t, exec (.retentionWake c) s = .next t ∧ t.core c = { s.core c with sleep := none } ∧ SameBytes t s := by
  refine ⟨_, rfl, ?_⟩
  unfold State.wakeCore
  rw [hz]
  dsimp only
  rw [if_neg (by simp [ho]; omega), hl]
  exact ⟨(State.core_onCore ..).trans (if_pos rfl), fun _ => rfl, fun _ => rfl, fun _ _ => rfl⟩

theorem wake_refetches {l : Nat} {g : Dom} {y : L1Line} (hz : (s.core c).sleep = some z) (hc : z.count < 32768) (ho : z.overflow = false)
    (hl : z.lines = [(l, g)]) (hdev : l < 2 ^ 46) (hy : Cells.find? (s.core c).l1 l = some y) :
    ∃ t x, exec (.retentionWake c) s = .next t ∧ (t.core c).sleep = none ∧ Cells.find? (t.core c).l1 l = some x ∧
      x.data = s.lineBytes (.dev (128 * l)) ∧ x.mark = y.mark := by
  let awake := s.onCore c (fun c => { c with sleep := none })
  have hcore : awake.core c = { s.core c with sleep := none } := (State.core_onCore ..).trans (if_pos rfl)
  have hy' : Cells.find? (awake.core c).l1 l = some y := hcore ▸ hy
  obtain ⟨hsleep, x, hx, hdata, hmark⟩ := l1Fill_device (s := awake) (c := c) y.mark { own := y.owner } hdev
  have hwake : s.wakeCore c = awake.l1Fill c (placeOfLine l 0) y.mark { own := y.owner } := by
    unfold State.wakeCore
    rw [hz]
    dsimp only
    rw [if_neg (by simp [ho]; omega), hl]
    refine (if_neg (show ¬ 2 ^ 47 ≤ l by omega)).trans ?_
    rw [show Cells.find? ((s.onCore c (fun c => { c with sleep := none })).core c).l1 l = some y from hy']
  refine ⟨_, x, rfl, ?_⟩
  rw [hwake]
  exact ⟨Eq.trans hsleep (congrArg Core.sleep hcore), hx, hdata, hmark⟩

end

/-- Settles O48: each event by the test that guards it. -/
theorem periodsErrorsAndSleep : Obligations.PeriodsErrorsAndSleep := by
  unfold Obligations.PeriodsErrorsAndSleep
  refine fun s => ⟨budgetPeriod_begins, fun hends => ⟨?_, fun d => ?_⟩, fun d hends => ⟨fun hdue => ?_, fun hdue => ?_⟩,
    fun l => ?_, fun l => ⟨fun hk => ⟨fun hd => ?_, dramError_replaced hk⟩, fun hk hfree => ?_, fun hk k hheld => ?_, l1Error_clean⟩,
    fun c => ⟨sleepEnter_resident, sleepEnter_sleeps, fun z hz => ⟨wake_dropsAll hz, wake_keepsAll hz,
      fun l g y hc ho hl hdev hy => wake_refetches hz hc ho hl hdev hy⟩⟩⟩
  · exact if_neg (Bool.eq_false_iff.mp hends)
  · exact if_neg (by rw [hends]; exact Bool.false_ne_true)
  · refine ⟨_, if_pos (by rw [hends, hdue]; rfl), ?_, s.genDue_advanceGen d, s.advanceGen_sameBytes d⟩
    rw [State.die_advanceGen, if_pos rfl]
  · exact if_neg (by rw [hends, hdue]; exact Bool.false_ne_true)
  · obtain ⟨kind, _⟩ := l
    cases kind
    case l2 => exact ⟨_, rfl, by dsimp only; split <;> rfl⟩
    case dram => exact ⟨_, rfl, by dsimp only; split <;> rfl⟩
    all_goals exact ⟨_, rfl, rfl⟩
  · exact ⟨_, dramError_poisons hk hd, s.mem_poisonLine l.line, ⟨fun _ => rfl, fun _ => rfl, fun _ _ => rfl⟩, rfl⟩
  · refine ⟨_, opmemError hk, ?_⟩
    rw [hfree]
    refine ⟨?_, rfl⟩
    rw [State.core_onCore, if_pos rfl]
    exact (Cells.get_erase ..).trans (if_pos rfl)
  · refine (opmemError hk).trans ?_
    rw [hheld]
    rfl

end Sys2Proof.Machine
end

section
/-! PROOFS. Tenancy blocks, grants, origin slots, register writes and function-level reset (R187, R366, R410, R423-R427; O47). -/

namespace Sys2Proof.Machine

/-! ## Writes of some bytes of a register -/

theorem ofBytes_append (xs ys : List Byte) : ofBytes (xs ++ ys) = ofBytes xs + 256 ^ xs.length * ofBytes ys := by
  induction xs with
  | nil => simp [ofBytes]
  | cons b bs ih =>
    rw [List.cons_append, ofBytes, ofBytes, ih, List.length_cons, pow_succ]
    ring

theorem ofBytes_bytesOf (n x : Nat) : ofBytes (bytesOf n x) = x % 256 ^ n := by
  induction n with
  | zero => rw [pow_zero, Nat.mod_one]; rfl
  | succ n ih =>
    have hcut : bytesOf (n + 1) x = bytesOf n x ++ [BitVec.ofNat 8 (x >>> (8 * n))] := by
      simp [bytesOf, List.range_succ]
    have hlen : (bytesOf n x).length = n := by simp [bytesOf]
    rw [hcut, ofBytes_append, ih, hlen, pow_succ, Nat.mod_mul, Nat.shiftRight_eq_div_pow, pow_mul]
    simp [ofBytes]

/-- A write from a register's first byte on puts its bytes lowest. -/
theorem mergeBytes_mod (old r w : Nat) (x : DWord) (hw : w ≤ 8) : mergeBytes old r r w x % 256 ^ w = x.toNat % 256 ^ w := by
  obtain ⟨d, hd⟩ : ∃ d, 8 = w + d := ⟨8 - w, by omega⟩
  have hrange : List.range 8 = List.range w ++ (List.range d).map (w + ·) := by rw [← List.range_add, ← hd]
  unfold mergeBytes
  rw [hrange, List.map_append, ofBytes_append]
  have hlow : (List.range w).map (fun i =>
      if decide (r ≤ r + i) && decide (r + i < r + w) then BitVec.ofNat 8 (x.toNat >>> (8 * (r + i - r)))
      else BitVec.ofNat 8 (old >>> (8 * i))) = bytesOf w x.toNat := by
    refine List.map_congr_left fun i hi => ?_
    have hi := List.mem_range.mp hi
    rw [if_pos (by simpa using hi), Nat.add_sub_cancel_left]
  have hlen : (bytesOf w x.toNat).length = w := by simp [bytesOf]
  rw [hlow, ofBytes_bytesOf, hlen, Nat.add_mul_mod_self_left, Nat.mod_mod]

/-- A write of a whole register is the value written. -/
theorem mergeBytes_whole (old r : Nat) (x : DWord) : BitVec.ofNat 64 (mergeBytes old r r 8 x) = x := by
  refine BitVec.eq_of_toNat_eq ?_
  rw [BitVec.toNat_ofNat]
  exact (mergeBytes_mod old r 8 x le_rfl).trans (Nat.mod_eq_of_lt x.isLt)

/-! ## The tenancy block (R410) -/

section

variable {s : State} {vf : Nat} {x : DWord}

/-- The refusal of a write by the tenancy block. -/
theorem tenancyWrite_word {r : Nat} (hvf : vf < 32) (hr : [0, 8, 16, 24].filter (fun k => coversReg k r 8) = [r]) :
    exec (.tenancyWrite vf r 8 x) s =
      .next ((s.tenancyReg vf r r 8 x).getD (s.onVf vf (fun v => { v with tenerr := true }))) := by
  refine (if_neg (by omega)).trans (congrArg Host.Outcome.next ?_)
  unfold State.writeTenancy
  rw [hr]
  rfl

theorem tenancyReg_word0 (h1 : field x 63 12 = 0) (h2 : field x 7 5 = 0) (h3 : field x 10 8 < 6) (h4 : s.hasContext vf = false)
    (h5 : bit x 4 = true → (s.origin (field x 3 0)).st = .bound) : s.tenancyReg vf 0 0 8 x = some (s.onVf vf (fun v =>
      { v with strict := bit x 11, cap := field x 10 8, ovalid := bit x 4, origin := field x 3 0 })) := by
  unfold State.tenancyReg
  dsimp only
  rw [mergeBytes_whole]
  refine if_neg ?_
  rintro (h | h | h | h | h)
  · exact h h1
  · exact h h2
  · omega
  · rw [h4] at h
    exact Bool.false_ne_true h.2
  · exact h.2 (h5 h.1)

theorem tenancyReg_word0_refused (h : 6 ≤ field x 10 8 ∨ field x 63 12 ≠ 0) : s.tenancyReg vf 0 0 8 x = none := by
  unfold State.tenancyReg
  dsimp only
  rw [mergeBytes_whole]
  exact if_pos (h.elim (fun h => .inr (.inr (.inl h))) .inl)

theorem tenancyReg_word3 (h : field x 63 1 = 0) :
    s.tenancyReg vf 24 24 8 x = some (s.onVf vf (fun v => { v with tenerr := v.tenerr && !bit x 0 })) := by
  have hreg : s.tenancyReg vf 24 24 8 x = if field (BitVec.ofNat 64 (mergeBytes 0 24 24 8 x)) 63 1 ≠ 0 then none
      else some (s.onVf vf (fun v => { v with tenerr := v.tenerr && !bit (BitVec.ofNat 64 (mergeBytes 0 24 24 8 x)) 0 })) := rfl
  rw [hreg, mergeBytes_whole, if_neg (not_not_intro h)]

end

/-! ## Grants (R423) -/

section

variable {s : State} {a k : Nat} {x : DWord}

theorem grantWrite_sets (ha : a < 38) (hk : k < 5) : exec (.grantWrite a { off := 8 * k, width := 4 } x) s =
    .next (s.setGrant a k (x.toNat % 2 ^ 32)) := by
  refine (if_neg (by omega)).trans (congrArg Host.Outcome.next ?_)
  have hcover : (List.range 5).filter (fun j => coversBytes (8 * j) 4 (8 * k) 4) = [k] := by
    have hp : (fun j => coversBytes (8 * j) 4 (8 * k) 4) = (· == k) := by
      funext j
      rw [Bool.eq_iff_iff]
      simp only [coversBytes, Bool.and_eq_true, decide_eq_true_eq, beq_iff_eq]
      omega
    rw [hp, List.filter_beq, List.count_eq_one_of_mem List.nodup_range (List.mem_range.mpr hk)]
    rfl
  unfold State.writeBudget
  rw [hcover]
  exact congrArg (s.setGrant a k) (mergeBytes_mod _ _ 4 x (by decide))

theorem get_budgets_setGrant (b g : Nat) : Cells.get (s.setGrant a k g).budgets b =
    if a = b then { Cells.get s.budgets a with
      next := Cells.put (Cells.get s.budgets a).next k (if a = 32 then max g s.power.image.scrubMin else g) }
    else Cells.get s.budgets b := Cells.get_put ..

theorem grantNext_setGrant (g : Nat) :
    (s.setGrant a k g).grantNext a k = if a = 32 then max g s.power.image.scrubMin else g := by
  unfold State.grantNext
  rw [get_budgets_setGrant, if_pos rfl, Cells.find?_put, if_pos rfl]
  rfl

theorem grant_setGrant (b g : Nat) :
    (Cells.get (s.setGrant a k g).budgets b).grant = (Cells.get s.budgets b).grant := by
  rw [get_budgets_setGrant]
  split
  · next e => rw [e]
  · rfl

theorem grantNext_setGrant_ne {b j : Nat} (g : Nat) (h : b ≠ a ∨ j ≠ k) : (s.setGrant a k g).grantNext b j = s.grantNext b j := by
  have hof : (s.setGrant a k g).grantOf b j = s.grantOf b j := by
    unfold State.grantOf
    rw [grant_setGrant]
    rfl
  unfold State.grantNext
  rw [hof, get_budgets_setGrant]
  split
  · next e =>
    subst e
    have hj : k ≠ j := (h.resolve_left (fun h => h rfl)).symm
    rw [Cells.find?_put, if_neg hj]
  · rfl

end

/-! ## Unbinding an origin (R424) -/

theorem State.origin_onOrigin (s : State) (n : Nat) (f : Origin → Origin) : (s.onOrigin n f).origin n = f (s.origin n) :=
  Cells.get_set_self ..

section

variable {s : State} {slot : Nat}

theorem unbind_begins (hb : (s.origin slot).st = .bound)
    (hn : s.contexts.any (fun c => c.2.st != .ended && (s.origins_ c.2).getLsbD slot) = false) :
    ∃ t, exec (.unbind slot) s = .next t ∧ t.origin slot = { s.origin slot with st := .unbinding } ∧
      t.policies = s.policies.filter (fun p => !p.set.getLsbD slot && p.dest != slot) ∧ SameBytes t s := by
  have hgo : ¬((s.origin slot).st ≠ .bound ∨
      s.contexts.any (fun c => c.2.st != .ended && (s.origins_ c.2).getLsbD slot) = true) := by
    rw [hb, hn]
    simp
  refine ⟨_, congrArg Host.Outcome.next (if_neg hgo), ?_, rfl, fun _ => rfl, fun _ => rfl, fun _ _ => rfl⟩
  exact s.origin_onOrigin slot (fun o => { o with st := .unbinding })

theorem unbind_refused (h : (s.origin slot).st ≠ .bound ∨
    s.contexts.any (fun c => c.2.st != .ended && (s.origins_ c.2).getLsbD slot) = true) : exec (.unbind slot) s = .next s :=
  congrArg Host.Outcome.next (if_pos h)

/-- A frame is zeroed, and its writes are charged to the copies. -/
def State.wipeFrame (s : State) (f : Nat) : State :=
  (List.range 64).foldl (fun (s : State) i =>
    s.charge copyActivity 1 (homeDie (4096 * f + 64 * i) * 96 + homeSlice (4096 * f + 64 * i)) 1) (s.zeroFrame f)

theorem State.wipeFrame_frame (s : State) (f : Nat) : (s.wipeFrame f).mem = (s.zeroFrame f).mem ∧
    (s.wipeFrame f).frameLab = (s.zeroFrame f).frameLab ∧ (s.wipeFrame f).teams = s.teams :=
  List.foldlRecOn (List.range 64) _ (motive := fun (t : State) => t.mem = (s.zeroFrame f).mem ∧
    t.frameLab = (s.zeroFrame f).frameLab ∧ t.teams = s.teams) ⟨rfl, rfl, rfl⟩ (fun _ h _ _ => h)

theorem State.mem_wipeFrame (s : State) (f a : Nat) :
    Cells.get (s.wipeFrame f).mem a = if a / 4096 = f then 0 else Cells.get s.mem a := by
  obtain ⟨hm, -, -⟩ := s.wipeFrame_frame f
  rw [hm]
  refine (State.mem_zeroRange (s.noteWrite (4096 * f)) (4096 * f) 4096 a).trans (if_congr ?_ rfl rfl)
  omega

theorem State.frameLab_wipeFrame (s : State) (f g : Nat) :
    Cells.get (s.wipeFrame f).frameLab g = if g = f then 0 else Cells.get s.frameLab g := by
  obtain ⟨-, hl, -⟩ := s.wipeFrame_frame f
  rw [hl]
  refine (Cells.get_clear s.frameLab (4096 * f / 4096) (4096 / 4096) g).trans (if_congr ?_ rfl rfl)
  omega

/-- A frame is zero and without a label, and the other frames are as they were. -/
structure Wiped (f : Nat) (s t : State) : Prop where
  teams : t.teams = s.teams
  mem : ∀ a, Cells.get t.mem a = if a / 4096 = f then 0 else Cells.get s.mem a
  lab : ∀ g, Cells.get t.frameLab g = if g = f then 0 else Cells.get s.frameLab g

theorem State.wipeFrame_wiped (s : State) (f : Nat) : Wiped f s (s.wipeFrame f) :=
  ⟨(s.wipeFrame_frame f).2.2, s.mem_wipeFrame f, s.frameLab_wipeFrame f⟩

theorem wiped_foldl {w : State → Nat → State} (hw : ∀ s f, Wiped f s (w s f)) (fs : List Nat) (s : State) :
    (fs.foldl w s).teams = s.teams ∧
      (∀ a, Cells.get (fs.foldl w s).mem a = if a / 4096 ∈ fs then 0 else Cells.get s.mem a) ∧
      (∀ g, Cells.get (fs.foldl w s).frameLab g = if g ∈ fs then 0 else Cells.get s.frameLab g) := by
  induction fs generalizing s with
  | nil => exact ⟨rfl, fun _ => rfl, fun _ => rfl⟩
  | cons f fs ih =>
    obtain ⟨ht, hm, hl⟩ := ih (w s f)
    refine ⟨ht.trans (hw s f).teams, fun a => ?_, fun g => ?_⟩
    · rw [List.foldl_cons, hm, (hw s f).mem]
      by_cases h1 : a / 4096 ∈ fs <;> by_cases h2 : a / 4096 = f <;> simp [h1, h2]
    · rw [List.foldl_cons, hl, (hw s f).lab]
      by_cases h1 : g ∈ fs <;> by_cases h2 : g = f <;> simp [h1, h2]

theorem originUnbind_frees (hs : (s.origin slot).st = .unbinding) (ht : s.teams = []) :
    ∃ t, exec (.originUnbindComplete slot) s = .next t ∧ t.origin slot = {} ∧
      (∀ f, (Cells.get t.frameLab f).getLsbD slot = false) ∧
      (∀ a, (Cells.get s.frameLab (a / 4096)).getLsbD slot = true → Cells.get t.mem a = 0) := by
  let frames := (List.filter (fun (f : Nat × Label) => f.2.getLsbD slot) s.frameLab).map (·.1)
  obtain ⟨hteams, hmem, hlab⟩ := wiped_foldl State.wipeFrame_wiped frames (s.dropOriginCopies slot)
  have listed (f : Nat) (hf : (Cells.get s.frameLab f).getLsbD slot = true) : f ∈ frames := by
    obtain h | h := Cells.get_mem s.frameLab f
    · exact List.mem_map.mpr ⟨_, List.mem_filter.mpr ⟨h, hf⟩, rfl⟩
    · rw [h] at hf
      exact absurd hf (show ¬ (0#16).getLsbD slot = true by simp)
  have hnone : (frames.foldl State.wipeFrame (s.dropOriginCopies slot)).teams = [] := hteams.trans ht
  refine ⟨_, (if_neg (not_not_intro hs)).trans (if_neg ?_), ?_, fun f => ?_, fun a ha => ?_⟩
  · intro h
    obtain ⟨k, hk, -⟩ := List.any_eq_true.mp h
    exact List.not_mem_nil ((congrArg (fun ts => k ∈ Cells.keys ts) hnone).mp hk)
  · exact State.origin_onOrigin _ slot (fun _ => {})
  · refine (congrArg (fun l : Label => l.getLsbD slot) (hlab f)).trans ?_
    split
    · simp
    · next hf => exact Bool.eq_false_iff.mpr fun h => hf (listed f h)
  · exact (hmem a).trans (if_pos (listed _ ha))

end

/-! ## Binding an origin (R426) -/

section

variable {s : State} {key sum : List Byte} {n : Nat}

theorem bindOrigin_found (hs : s.spdm = some sum) (hn : (List.range 16).find? (fun n => (s.origin n).st == .free) = some n) :
    exec (.bindOrigin key) s = if key.length ≠ 32 then .next (s.send .doeError)
      else .next (((s.onOrigin n (fun o => { o with st := .bound, key := key, summary := sum })).send (.bound n)).send (.msix 0 2)) := by
  change execBindOrigin key s = _
  unfold execBindOrigin
  rw [hs]
  dsimp only
  rw [hn]

theorem bindOrigin_full (hs : s.spdm = some sum) (hn : (List.range 16).find? (fun n => (s.origin n).st == .free) = none) :
    exec (.bindOrigin key) s = .next (s.send .doeError) := by
  change execBindOrigin key s = _
  unfold execBindOrigin
  rw [hs]
  dsimp only
  rw [hn]

theorem bindOrigin_noSession (hs : s.spdm = none) : exec (.bindOrigin key) s = .next (s.send .refused) := by
  change execBindOrigin key s = _
  unfold execBindOrigin
  rw [hs]

end

/-! ## Register writes (R5, R366, R427) -/

section

variable {s : State} {n : Nat} {x : BitVec 64}

/-- A write of a whole aligned register outside CMDPORT is that register's own. -/
theorem registerWrite_whole {off : Nat} (h64 : 64 ≤ off) (h8 : off % 8 = 0) :
    exec (.registerWrite .pf off 8 x) s = .next (s.writePf off 8 x) := by
  have hport : coversBytes 0 64 off 8 = false := by
    simp only [coversBytes, Bool.and_eq_false_iff, decide_eq_false_iff_not]
    omega
  have hwidth : min 8 (8 - off % 8) = 8 := by omega
  refine (if_neg (Bool.eq_false_iff.mp hport)).trans ?_
  rw [hwidth]
  exact congrArg Host.Outcome.next (if_pos rfl)

theorem writePf_saveStatus (hn : n < 32) : s.writePf (0x100010 + 64 * n) 8 x = s.onVf n (fun v =>
    { v with badadd := v.badadd && !bit x 2, exhausted := v.exhausted && !bit x 1 }) := by
  have hvf : (0x100010 + 64 * n - 0x100000) / 64 = n := by omega
  have hreg : (0x100010 + 64 * n) % 64 = 16 := by omega
  unfold State.writePf
  rw [if_neg (by decide), if_pos (by omega), hvf, hreg]
  have hblock : s.writeSaveBlock n 16 8 x = s.onVf n (fun v => { v with
    badadd := v.badadd && !bit (BitVec.ofNat 64 (mergeBytes 0 16 16 8 x)) 2
    exhausted := v.exhausted && !bit (BitVec.ofNat 64 (mergeBytes 0 16 16 8 x)) 1 }) := rfl
  rw [hblock, mergeBytes_whole]

theorem writePf_origin (hn : n < 16) (h7 : bit x 7 = true) (h6 : bit x 6 = false) :
    s.writePf (0x800000 + 64 * n) 8 x = s.onOrigin n (fun o => { o with hostwb := false }) := by
  have hslot : (0x800000 + 64 * n - 0x800000) / 64 = n := by omega
  have hreg : (0x800000 + 64 * n) % 64 = 0 := by omega
  unfold State.writePf
  rw [if_neg (by decide), if_neg (by omega), if_neg (by omega), if_neg (by omega), if_pos (by omega), hslot, hreg]
  unfold State.writeOrigin
  dsimp only
  rw [mergeBytes_whole, h7, h6]
  rfl

end

/-! ## Function-level reset (R187) -/

section

variable {s : State} {vf k : Nat}

/-- The state in which a reset ends the contexts of a VF. -/
def State.resetPort (s : State) (vf : Nat) : State := (s.forgetPort (vf + 1)).onVf vf (fun v => { v with join := none })

theorem functionLevelReset_eq (s : State) (vf : Nat) : exec (.functionLevelReset vf) s = .next
    { ((((s.contexts.filter (fun c => c.2.ofVf vf)).map (·.1)).foldl
        (fun (s : State) k => s.bindOff k (s.context k).unbindJ) (s.resetPort vf)).settleUnbinding) with
      ports := Cells.erase ((((s.contexts.filter (fun c => c.2.ofVf vf)).map (·.1)).foldl
        (fun (s : State) k => s.bindOff k (s.context k).unbindJ) (s.resetPort vf)).settleUnbinding).ports (vf + 1) } := rfl

theorem resetPort_idle (h : ∀ y ∈ s.contexts, y.2.unbinding = false) : ∀ y ∈ (s.resetPort vf).contexts, y.2.unbinding = false := by
  intro y hy
  obtain ⟨z, hz, rfl⟩ := List.mem_map.mp hy
  exact h z hz

theorem settleUnbinding_idle {t : State} (h : ∀ y ∈ t.contexts, y.2.unbinding = false) : t.settleUnbinding = t := by
  rw [State.settleUnbinding_eq, List.filter_eq_nil_iff.mpr fun y hy => by simp [h y hy]]
  rfl

theorem functionLevelReset_alone (hidle : ∀ y ∈ s.contexts, y.2.unbinding = false) (hnone : ∀ y ∈ s.contexts, y.2.ofVf vf = false) :
    ∃ t, exec (.functionLevelReset vf) s = .next t ∧ Cells.find? t.ports (vf + 1) = none ∧ (t.vf vf).join = none ∧
      t.teams = s.teams ∧ SameBytes t s := by
  have hks : (s.contexts.filter (fun c => c.2.ofVf vf)).map (·.1) = [] := by
    rw [List.filter_eq_nil_iff.mpr fun y hy => by simp [hnone y hy]]
    rfl
  have hexec := functionLevelReset_eq s vf
  rw [hks, List.foldl_nil, settleUnbinding_idle (resetPort_idle hidle)] at hexec
  refine ⟨_, hexec, (Cells.find?_erase ..).trans (if_pos rfl), ?_, rfl, fun _ => rfl, fun _ => rfl, fun _ _ => rfl⟩
  exact congrArg Vf.join (Cells.get_set_self (s.forgetPort (vf + 1)).vfs vf { s.vf vf with join := none })

theorem Cells.find?_of_mem {α : Type} {m : Cells α} {j : Nat} {v : α} (h : (j, v) ∈ m) : ∃ x, Cells.find? m j = some x := by
  induction m with
  | nil => exact absurd h List.not_mem_nil
  | cons c m ih =>
    obtain ⟨a, w⟩ := c
    by_cases ha : a = j
    · exact ⟨w, if_pos ha⟩
    · obtain ⟨x, hx⟩ := ih ((List.mem_cons.mp h).resolve_left fun e => ha (congrArg Prod.fst e).symm)
      exact ⟨x, (if_neg ha).trans hx⟩

theorem functionLevelReset_ends (hidle : ∀ y ∈ s.contexts, y.2.unbinding = false)
    (hone : (s.contexts.filter (fun c => c.2.ofVf vf)).map (·.1) = [k]) (hacc : ∀ a ∈ s.accesses, a.ctx ≠ k)
    (hxfers : ∀ y ∈ s.cores, ∀ ch ∈ y.2.chans, ∀ z ∈ ch.2.xfers, z.ctx ≠ k) :
    ∃ t, exec (.functionLevelReset vf) s = .next t ∧ Cells.find? t.ports (vf + 1) = none ∧ Cells.find? t.contexts k = none := by
  have hmem : k ∈ (s.contexts.filter (fun c => c.2.ofVf vf)).map (·.1) := hone ▸ List.mem_singleton.mpr rfl
  obtain ⟨⟨j, c⟩, hc, rfl⟩ := List.mem_map.mp hmem
  have hlisted : (j, { c with unbindJ := c.unbindJ.filter (fun r => r.1 != vf + 1) }) ∈ (s.resetPort vf).contexts :=
    List.mem_map.mpr ⟨(j, c), (List.mem_filter.mp hc).1, rfl⟩
  obtain ⟨x, hx⟩ := Cells.find?_of_mem hlisted
  have hexec := functionLevelReset_eq s vf
  rw [hone] at hexec
  refine ⟨_, hexec, (Cells.find?_erase ..).trans (if_pos rfl), ?_⟩
  exact (cmdBindOff_boundOff _ hx ((State.unbound_iff _ _).mpr ⟨hacc, hxfers⟩) (resetPort_idle hidle)).gone

end

/-- Settles O47: each event by the test that guards it; an origin's unbinding by its frames (`originUnbind_frees`), a reset by the
bind-off of its contexts (`cmdBindOff_boundOff`). -/
theorem tenancyOriginsAndRegisters : Obligations.TenancyOriginsAndRegisters := by
  unfold Obligations.TenancyOriginsAndRegisters
  refine ⟨fun s vf x hvf => ⟨fun h1 h2 h3 h4 h5 => ?_, fun h => ?_, fun h => ?_⟩, fun s a k x ha hk => ?_, fun s slot =>
    ⟨unbind_begins, unbind_refused⟩, fun s slot => ⟨originUnbind_frees, fun h => if_pos h⟩, fun s key =>
    ⟨bindOrigin_noSession, fun sum n hs hn => ⟨fun hlen => ?_, fun hlen => ?_⟩, fun sum hs hnone => ?_⟩, fun s auth sum => rfl,
    fun s n x => ⟨fun hn => ?_, fun hn h7 h6 => ?_⟩, fun s vf hidle => ⟨functionLevelReset_alone hidle,
      fun k => functionLevelReset_ends hidle⟩⟩
  · exact ⟨_, by rw [tenancyWrite_word hvf rfl, tenancyReg_word0 h1 h2 h3 h4 h5]; rfl, rfl⟩
  · rw [tenancyWrite_word hvf rfl, tenancyReg_word0_refused h]
    rfl
  · rw [tenancyWrite_word hvf rfl, tenancyReg_word3 h]
    rfl
  · exact ⟨_, grantWrite_sets ha hk, rfl, grantNext_setGrant _, fun b => grant_setGrant b _, fun b j h => grantNext_setGrant_ne _ h⟩
  · refine ⟨_, (bindOrigin_found hs hn).trans (if_neg (not_not_intro hlen)), ?_, ?_⟩
    · exact State.origin_onOrigin s n (fun o => { o with st := .bound, key := key, summary := sum })
    · exact List.mem_cons_of_mem _ List.mem_cons_self
  · exact (bindOrigin_found hs hn).trans (if_pos hlen)
  · refine bindOrigin_full hs (List.find?_eq_none.mpr fun n hn => ?_)
    simpa using hnone n (List.mem_range.mp hn)
  · rw [registerWrite_whole (by omega) (by omega), writePf_saveStatus hn]
  · rw [registerWrite_whole (by omega) (by omega), writePf_origin hn h7 h6]

end Sys2Proof.Machine
end

section
/-! PROOFS. A host atomic can leave two messages (R411, R414, R417; O52). -/

namespace Sys2Proof.Machine

/-- A state in which the home set of address 0 is full of host lines, the first with a dirty half whose write-back the host
refuses: it has to be evicted for the atomic's line, and the refusal raises the PF's vector 2 (R219, R414). -/
def crowdedHome : State := { State.reset with
  dies := [(lineDie 0, { l2 := [(lineSet 0, (List.range 8).map (fun i => { line := 2 ^ 46 + i }))] })]
  hostHalves := [(0, .dirty)]
  hostFail := [0]
  vfs := [(0, { ovalid := true })] }

/-- What leaves the module with a host atomic. -/
def atomicMessages (s : State) (pa : Nat) (op : HostAtom) : List Out :=
  match exec (.hostAtomic pa op) s with
  | .next t => t.out
  | _ => []

theorem crowdedHome_messages :
    atomicMessages crowdedHome 0 (.rmw .add 4 false 1) = [.atomicOld 0, .msix 0 2] := by decide +kernel

/-- Refutes O52: in `crowdedHome` an atomic of the host that neither waits nor is refused sends the refused write-back's interrupt
before its old value, so the messages are not the old value in front of what was there. -/
theorem not_hostAccessesAndHalves : ¬ Obligations.HostAccessesAndHalves := by
  unfold Obligations.HostAccessesAndHalves
  rintro ⟨h, -⟩
  obtain ⟨-, -, -, -, hrmw, -⟩ := h crowdedHome 0
  obtain ⟨t, ht, -, -, hout⟩ := hrmw .add 4 false 1 (by decide +kernel) (by decide +kernel)
  have hmsgs := crowdedHome_messages
  unfold atomicMessages at hmsgs
  rw [ht] at hmsgs
  exact absurd (congrArg List.length (hmsgs.symm.trans hout)) (by decide)

end Sys2Proof.Machine
end

section
/-! PROOFS. Saving a context, restoring it, suspending a function (R365-R367, R370, R373; O46). -/

namespace Sys2Proof.Machine

/-! ## The end of a save -/

section

variable {s : State} {k : Nat} {c : Context}

/-- The contexts and the teams stay. -/
def SamePlaces (s t : State) : Prop := t.contexts = s.contexts ∧ t.teams = s.teams

theorem SamePlaces.refl (s : State) : SamePlaces s s := ⟨rfl, rfl⟩

theorem SamePlaces.trans {s t u : State} (h : SamePlaces s t) (g : SamePlaces t u) : SamePlaces s u :=
  ⟨g.1.trans h.1, g.2.trans h.2⟩

theorem SamePlaces.foldl {α : Type} {f : State → α → State} (hf : ∀ s x, SamePlaces s (f s x)) (l : List α) (s : State) :
    SamePlaces s (l.foldl f s) :=
  List.foldlRecOn l f (motive := fun t => SamePlaces s t) (.refl s) (fun t h x _ => h.trans (hf t x))

theorem SamePlaces.of_journalMove {s t : State} (h : JournalMove s t) : SamePlaces s t := by
  obtain ⟨_, _, rfl⟩ := h
  exact .refl s

theorem SamePlaces.writeSave (s : State) (num : Nat) (x : Saved) : SamePlaces s (s.writeSave num x) := by
  unfold State.writeSave
  split
  · exact .refl s
  · next hd others _ =>
    dsimp only
    generalize hA : List.foldl _ s _ = A
    have hfill : SamePlaces s A := by
      subst hA
      refine .foldl (fun _ _ => ?_) _ s
      exact ⟨rfl, rfl⟩
    generalize hB : List.foldl _ A _ = B
    have hext : SamePlaces A B := by
      subst hB
      refine .foldl (fun _ _ => ?_) _ A
      exact ⟨rfl, rfl⟩
    generalize hC : List.foldl _ B _ = C
    have hlist : SamePlaces B C := by
      subst hC
      refine .foldl (fun _ _ => ?_) _ B
      exact ⟨rfl, rfl⟩
    exact (hfill.trans (hext.trans hlist)).trans ⟨rfl, rfl⟩

theorem SamePlaces.finishAll (s : State) (rs : List JRef) (d : Option Nat) : SamePlaces s (s.finishAll rs d) :=
  .foldl (fun s r => .of_journalMove (.journalSet s r ..)) rs s

/-- The teams of a save, taken off their cores one after the other. -/
def State.takeTeams (s : State) (ks : List Nat) : State × List SavedTeam :=
  ks.foldl (fun (acc : State × List SavedTeam) t => ((acc.1.takeTeam t).1, acc.2 ++ [(acc.1.takeTeam t).2])) (s, [])

theorem foldl_takeTeam (ks : List Nat) (s : State) (xs : List SavedTeam) :
    let r := ks.foldl (fun (acc : State × List SavedTeam) t => ((acc.1.takeTeam t).1, acc.2 ++ [(acc.1.takeTeam t).2])) (s, xs)
    r.1.contexts = s.contexts ∧ r.2.map (·.key) = xs.map (·.key) ++ ks ∧
      ∀ y ∈ r.1.teams, y.1 ∉ ks ∧ y ∈ s.teams := by
  induction ks generalizing s xs with
  | nil => exact ⟨rfl, (List.append_nil _).symm, fun y hy => ⟨List.not_mem_nil, hy⟩⟩
  | cons k ks ih =>
    obtain ⟨hc, hk, ht⟩ := ih (s.takeTeam k).1 (xs ++ [(s.takeTeam k).2])
    refine ⟨hc.trans ?_, hk.trans ?_, fun y hy => ?_⟩
    · exact ((NoNewWork.writeBackLocal s _ _).trans (.removeTeam _ k)).contexts
    · rw [List.map_append, List.append_assoc]
      rfl
    · obtain ⟨hn, hy⟩ := ht y hy
      obtain ⟨hne, hy⟩ := State.mem_teams_removeTeam (show y ∈ (State.removeTeam _ k).teams from hy)
      rw [State.teams_writeBackLocal] at hy
      exact ⟨fun h => (List.mem_cons.mp h).elim hne hn, hy⟩

/-- The frames that a save still lacks, and the state in which its context has taken those there are. -/
theorem gatherFrames_eq (hx : Cells.find? s.contexts k = some c) (hs : c.save = none) (hst : c.stalled = false) :
    let need := s.framesNeeded ((s.teamsOf k).map s.toSave)
    let got := (s.vf c.vf).free.take need
    ∃ t, SamePlaces s t ∧ s.gatherFrames k = (t.onContext k (fun c =>
        { c with save := some { frames := got }, stalled := decide (got.length < need) }), decide (need ≤ got.length)) ∧
      (got.length < need → (t.vf c.vf).stalled = true ∧ (t.vf c.vf).exhausted = true) := by
  intro need got
  have hctx : s.context k = c := State.context_of_find? hx
  let r := s.takeFrames c.vf 0 need false
  refine ⟨r.1, ?_, ?_, fun hlt => ?_⟩
  · unfold r State.takeFrames
    dsimp only
    split <;> exact ⟨rfl, rfl⟩
  · unfold State.gatherFrames
    rw [hctx]
    dsimp only
    rw [hs, hst]
    rfl
  · have hshort : decide (((s.vf c.vf).free.take (need - 0)).length < need - 0) = true := decide_eq_true hlt
    unfold r State.takeFrames
    dsimp only
    rw [hshort]
    refine ⟨?_, ?_⟩
    · exact (congrArg Vf.stalled (Cells.get_set_self ..)).trans (Bool.or_true _)
    · exact (congrArg Vf.exhausted (Cells.get_set_self ..)).trans (Bool.or_true _)

/-- The context that a save has ended for. -/
def Context.savedTo (held : Bool) (sv : Saved) (c : Context) : Context :=
  { c with save := some sv, saveJ := [], stalled := false, st := c.afterSave held
           suspendedFrom := if held then c.suspendedFrom else none }

/-- The end of a save, from the state in which its frames are gathered. -/
def State.endSave (s : State) (g : State) (k : Nat) (c : Context) (frames : List Nat) : State × Saved :=
  let held := s.ctxSuspended k
  let r := g.takeTeams (s.teamsOf k)
  let sv : Saved := { teams := r.2, frames := frames }
  let t := (((r.1.writeSave c.num sv).finishAll c.saveJ (some frames.length)).onContext k (Context.savedTo held sv))
  ((t.unstall c.vf).noteSuspended c.vf, sv)

theorem contextSaveComplete_eq {vf n : Nat} (hk : s.ctxKey vf n = some k) (hx : Cells.find? s.contexts k = some c)
    (hst : c.st = .saving) (hsus : c.suspendedFrom = none) (hstop : s.stopped k = true) :
    exec (.contextSaveComplete vf n) s = if !(s.gatherFrames k).2 then .next (s.gatherFrames k).1
      else .next (s.endSave (s.gatherFrames k).1 k c
        ((((s.gatherFrames k).1.context k).save.map (·.frames)).getD [])).1 := by
  have hctx : s.context k = c := State.context_of_find? hx
  change execContextSaveComplete vf n s = _
  unfold execContextSaveComplete
  rw [hk]
  dsimp only
  rw [hctx, if_neg (by rw [hst, hsus, hstop]; simp)]
  rfl

theorem save_stalls {vf n : Nat} (hk : s.ctxKey vf n = some k) (hx : Cells.find? s.contexts k = some c)
    (hst : c.st = .saving) (hsus : c.suspendedFrom = none) (hstop : s.stopped k = true) (hs : c.save = none)
    (hstall : c.stalled = false) (hlt : (s.vf c.vf).free.length < s.framesNeeded ((s.teamsOf k).map s.toSave)) :
    ∃ t, exec (.contextSaveComplete vf n) s = .next t ∧ (t.context k).st = .saving ∧
      (t.vf c.vf).stalled = true ∧ (t.vf c.vf).exhausted = true ∧ t.teams = s.teams := by
  obtain ⟨g, ⟨hc, ht⟩, hg, hshort⟩ := gatherFrames_eq hx hs hstall
  have hlen : ((s.vf c.vf).free.take (s.framesNeeded ((s.teamsOf k).map s.toSave))).length <
      s.framesNeeded ((s.teamsOf k).map s.toSave) := by
    rw [List.length_take]
    omega
  obtain ⟨h1, h2⟩ := hshort hlen
  refine ⟨_, (contextSaveComplete_eq hk hx hst hsus hstop).trans (if_pos ?_), ?_⟩
  · rw [hg]
    simpa using hlen
  · rw [hg]
    refine ⟨?_, h1, h2, ht⟩
    rw [State.context_onContext (hc ▸ hx)]
    exact hst

theorem save_ends {vf n : Nat} (hk : s.ctxKey vf n = some k) (hx : Cells.find? s.contexts k = some c)
    (hst : c.st = .saving) (hsus : c.suspendedFrom = none) (hstop : s.stopped k = true) (hs : c.save = none)
    (hstall : c.stalled = false) (hres : c.resumeJ = [])
    (hle : s.framesNeeded ((s.teamsOf k).map s.toSave) ≤ (s.vf c.vf).free.length) :
    ∃ t sv, exec (.contextSaveComplete vf n) s = .next t ∧ (t.context k).st = .saved ∧ (t.context k).save = some sv ∧
      sv.frames = (s.vf c.vf).free.take (s.framesNeeded ((s.teamsOf k).map s.toSave)) ∧
      sv.teams.map (·.key) = s.teamsOf k ∧ (∀ y ∈ t.teams, y.1 ∉ s.teamsOf k) := by
  obtain ⟨g, ⟨hc, -⟩, hg, -⟩ := gatherFrames_eq hx hs hstall
  have hlen : ((s.vf c.vf).free.take (s.framesNeeded ((s.teamsOf k).map s.toSave))).length =
      s.framesNeeded ((s.teamsOf k).map s.toSave) := by
    rw [List.length_take]
    omega
  generalize s.framesNeeded ((s.teamsOf k).map s.toSave) = need at hg hlen hle ⊢
  generalize (s.vf c.vf).free.take need = frames at hg hlen ⊢
  let taken (c : Context) : Context := { c with save := some { frames := frames }, stalled := decide (frames.length < need) }
  have htaken : Cells.find? (g.onContext k taken).contexts k = some (taken c) := by
    refine (Cells.find?_adjust ..).trans ?_
    rw [if_pos rfl, hc, hx]
    rfl
  obtain ⟨hrc, hkeys, hteams⟩ := foldl_takeTeam (s.teamsOf k) (g.onContext k taken) []
  let r := (g.onContext k taken).takeTeams (s.teamsOf k)
  let sv : Saved := { teams := r.2, frames := frames }
  let u := (r.1.writeSave c.num sv).finishAll c.saveJ (some frames.length)
  obtain ⟨huc, hut⟩ := (SamePlaces.writeSave r.1 c.num sv).trans (.finishAll _ c.saveJ (some frames.length))
  have hfind : Cells.find? u.contexts k = some (taken c) := (congrArg (Cells.find? · k) (huc.trans hrc)).trans htaken
  have hsaved := State.context_onContext hfind (Context.savedTo (s.ctxSuspended k) sv)
  have hexec := contextSaveComplete_eq hk hx hst hsus hstop
  rw [hg, if_neg (by simp [hlen]), State.context_of_find? htaken] at hexec
  have hend : (s.endSave (g.onContext k taken) k c frames).1.context k = Context.savedTo (s.ctxSuspended k) sv (taken c) := hsaved
  have hafter : (taken c).afterSave (s.ctxSuspended k) = .saved := by
    unfold Context.afterSave
    rw [show (taken c).suspendedFrom = none from hsus, show (taken c).resumeJ = [] from hres]
    simp
  refine ⟨_, sv, hexec, (congrArg Context.st hend).trans hafter, congrArg Context.save hend, rfl, hkeys, fun y hy => ?_⟩
  have hy : y ∈ u.teams := hy
  exact (hteams y (hut ▸ hy)).1

/-! ## The end of a restore -/

theorem restore_refused {vf n : Nat} (hk : s.ctxKey vf n = some k) (hx : Cells.find? s.contexts k = some c)
    (hst : c.st = .restoring) (hbad : s.saveIntact (c.save.getD {}) = false) :
    ∃ t, exec (.restoreComplete vf n) s = .next t ∧ (t.context k).st = .saved ∧ t.teams = s.teams := by
  let u := c.resumeJ.foldl (fun (s : State) r => s.journalSet r .failed .denied none) s
  obtain ⟨hc, ht⟩ : SamePlaces s u := .foldl (fun s r => .of_journalMove (.journalSet s r ..)) _ s
  have hexec : exec (.restoreComplete vf n) s = .next (u.onContext k (fun c => { c with st := .saved, resumeJ := [] })) := by
    change execRestoreComplete vf n s = _
    unfold execRestoreComplete
    rw [hk]
    dsimp only
    rw [State.context_of_find? hx, if_neg (not_not_intro hst), hbad]
    rfl
  refine ⟨_, hexec, ?_, ht⟩
  rw [State.context_onContext (hc ▸ hx)]

theorem restore_live {vf n : Nat} {u : State} (hk : s.ctxKey vf n = some k) (hx : Cells.find? s.contexts k = some c)
    (hst : c.st = .restoring) (hok : s.saveIntact (c.save.getD {}) = true) (hh : c.handle.isSome = true) (hagain : c.again = false)
    (hput : s.putSave (c.save.getD {}) = some u) (hu : Cells.find? u.contexts k = some c) (hans : c.answered = []) :
    ∃ t, exec (.restoreComplete vf n) s = .next t ∧ (t.context k).st = .live ∧ (t.context k).save = none ∧ t.teams = u.teams := by
  let v := u.freeFrames c.vf (c.save.getD {}).frames
  let w := v.onContext k (fun c => { c with st := .live, save := none, resumeJ := [] })
  have hvc : Cells.find? v.contexts k = some c := (NoNewWork.freeFrames u c.vf _).contexts ▸ hu
  have hw : w.context k = { c with st := .live, save := none, resumeJ := [] } := State.context_onContext hvc _
  have hanswers : w.applyAnswers k = w := by
    unfold State.applyAnswers
    rw [hw, show ({ c with st := .live, save := none, resumeJ := [] } : Context).answered = [] from hans]
    rfl
  obtain ⟨hfc, hft⟩ := SamePlaces.finishAll w c.resumeJ none
  have hexec : exec (.restoreComplete vf n) s = .next (w.finishAll c.resumeJ none) := by
    change execRestoreComplete vf n s = _
    unfold execRestoreComplete
    rw [hk]
    dsimp only
    have hhandle : s.takeHandle k = some s := if_pos (State.context_of_find? hx ▸ hh)
    rw [hhandle, Option.bind_some, State.context_of_find? hx, if_neg (not_not_intro hst), hok, hput]
    refine congrArg Host.Outcome.next ((if_neg (by rw [hagain]; exact Bool.false_ne_true)).trans ?_)
    exact congrArg (fun t : State => t.finishAll c.resumeJ none) hanswers
  have hctx : (w.finishAll c.resumeJ none).context k = w.context k := congrArg (Cells.get · k) hfc
  refine ⟨_, hexec, ?_, ?_, hft.trans (Clearing.freeFrames u c.vf _).teams⟩
  · rw [hctx, hw]
  · rw [hctx, hw]

/-! ## Suspending a function -/

theorem suspend_live (hl : c.st = .live) (hn : c.suspendedFrom = none) :
    c.suspend = { c with st := .saving, suspendedFrom := some .live } := by
  unfold Context.suspend
  rw [hn, hl]
  rfl

theorem suspendSet_suspends {vf : Nat} (hv : (s.vf vf).suspend = false) :
    ∃ t, exec (.suspendSet vf) s = .next t ∧ (t.vf vf).suspend = true ∧
      (∀ c ∈ s.contexts, c.2.ofVf vf = true → c.2.st = .live → c.2.suspendedFrom = none →
        (c.1, { c.2 with st := .saving, suspendedFrom := some .live }) ∈ t.contexts) ∧
      (∀ c ∈ s.contexts, c.2.ofVf vf = false → c ∈ t.contexts) := by
  refine ⟨_, congrArg Host.Outcome.next (if_neg (by rw [hv]; exact Bool.false_ne_true)), ?_, fun c hc hof hl hn => ?_,
    fun c hc hof => ?_⟩
  · refine (congrArg Vf.suspend (Cells.get_set_self ..)).trans ?_
    exact congrArg Vf.suspend (Cells.get_set_self ..)
  · refine List.mem_map.mpr ⟨c, hc, ?_⟩
    rw [if_pos hof, suspend_live hl hn]
  · exact List.mem_map.mpr ⟨c, hc, if_neg (Bool.eq_false_iff.mp hof)⟩

/-- Taking a context out of a suspension touches that context alone. -/
theorem find?_unsuspend (s : State) {j k : Nat} (h : j ≠ k) :
    Cells.find? (s.unsuspend j).contexts k = Cells.find? s.contexts k := by
  have other (f : Context → Context) : Cells.find? (s.onContext j f).contexts k = Cells.find? s.contexts k :=
    (Cells.find?_adjust ..).trans (if_neg h)
  unfold State.unsuspend
  dsimp only
  split
  · rfl
  · split
    · exact other _
    · rfl
  · exact other _
  · exact other _

theorem vfs_unsuspend (s : State) (j : Nat) : (s.unsuspend j).vfs = s.vfs := by
  unfold State.unsuspend
  dsimp only
  split
  · rfl
  · split <;> rfl
  · rfl
  · rfl

/-- A context that a suspension held Saved is on its way back once it has been taken out of it, and stays so. -/
theorem foldl_unsuspend {ks : List Nat} (hk : k ∈ ks) (hx : Cells.find? s.contexts k = some c) (hst : c.st = .saved)
    (hfrom : c.suspendedFrom = some .live) :
    Cells.find? (ks.foldl State.unsuspend s).contexts k = some { c with st := .restoring, suspendedFrom := none } := by
  have stays (ks : List Nat) (t : State) (ht : Cells.find? t.contexts k = some { c with st := .restoring, suspendedFrom := none }) :
      Cells.find? (ks.foldl State.unsuspend t).contexts k = some { c with st := .restoring, suspendedFrom := none } := by
    refine List.foldlRecOn ks _ (motive := fun (t : State) => Cells.find? t.contexts k = some _) ht (fun t ht j _ => ?_)
    by_cases hj : j = k
    · subst hj
      unfold State.unsuspend
      rw [State.context_of_find? ht]
      exact ht
    · rw [find?_unsuspend t hj]
      exact ht
  induction ks generalizing s with
  | nil => exact absurd hk List.not_mem_nil
  | cons j ks ih =>
    by_cases hj : j = k
    · subst hj
      refine stays ks _ ?_
      have hstep : s.unsuspend j = s.onContext j (fun c => { c with st := .restoring, suspendedFrom := none }) := by
        unfold State.unsuspend
        dsimp only
        rw [State.context_of_find? hx, hfrom, hst]
        rfl
      have hfind := Cells.find?_adjust s.contexts j j (fun c => { c with st := .restoring, suspendedFrom := none })
      rw [if_pos rfl, hx] at hfind
      rw [hstep]
      exact hfind
    · exact ih ((List.mem_cons.mp hk).resolve_left (Ne.symm hj)) ((find?_unsuspend s hj).trans hx)

theorem suspendClear_resumes {vf : Nat} (hv : (s.vf vf).suspend = true) (hq : (s.port (vf + 1)).queue = []) :
    ∃ t, exec (.suspendClear vf) s = .next t ∧ (t.vf vf).suspend = false ∧ (t.vf vf).suspended = false ∧
      (∀ k c, Cells.find? s.contexts k = some c → c.vf = vf → c.partner = none → c.st = .saved →
        c.suspendedFrom = some .live → (t.context k).st = .restoring) := by
  have hexec : exec (.suspendClear vf) s = .next (s.endSuspension vf) := by
    refine congrArg Host.Outcome.next ((if_neg (by rw [hv]; exact Bool.false_ne_true)).trans ?_)
    rw [hq]
    rfl
  have hself : (s.onVf vf (fun v => { v with suspend := false, suspended := false })).vf vf =
      { s.vf vf with suspend := false, suspended := false } := Cells.get_set_self ..
  have hvf : (s.endSuspension vf).vf vf = { s.vf vf with suspend := false, suspended := false } := by
    refine Eq.trans ?_ hself
    refine List.foldlRecOn _ _ (motive := fun (t : State) => t.vf vf = _) rfl (fun t ht j _ => ?_)
    exact (congrArg (Cells.get · vf) (vfs_unsuspend t j)).trans ht
  refine ⟨_, hexec, congrArg Vf.suspend hvf, congrArg Vf.suspended hvf, fun k c hx hof hpart hst hfrom => ?_⟩
  refine congrArg Context.st (State.context_of_find? (foldl_unsuspend (List.mem_map.mpr ⟨(k, c), List.mem_filter.mpr
    ⟨Cells.mem_of_find? hx, ?_⟩, rfl⟩) hx hst hfrom))
  dsimp only
  rw [hof, hself, hpart]
  simp [Context.ofVf, hof]

/-! ## The free list -/

theorem sfadd_takes {vf : Nat} {x : BitVec 64} {whole : Bool} (hw : whole = true) (h0 : field x 11 0 = 0)
    (hr : rangeInDram x.toNat 4096 = true) (hlen : (s.vf vf).free.length < 65536) :
    ∃ t, exec (.sfadd vf x whole) s = .next t ∧ t.vf vf = { s.vf vf with free := (s.vf vf).free ++ [x.toNat / 4096] } := by
  refine ⟨_, rfl, (Cells.get_set_self ..).trans (if_neg ?_)⟩
  simp [hw, h0, hr, hlen]

theorem sfadd_refused {vf : Nat} {x : BitVec 64} {whole : Bool}
    (h : whole = false ∨ field x 11 0 ≠ 0 ∨ rangeInDram x.toNat 4096 = false) :
    ∃ t, exec (.sfadd vf x whole) s = .next t ∧ t.vf vf = { s.vf vf with badadd := true } := by
  refine ⟨_, rfl, (Cells.get_set_self ..).trans (if_pos ?_)⟩
  obtain h | h | h := h <;> simp [h]

end

/-- Settles O46: the ends of a save (`save_ends`, `save_stalls`) and of a restore (`restore_live`, `restore_refused`), suspension
and its end by contexts (`suspend_live`, `foldl_unsuspend`), and the free list. -/
theorem savesAndSuspensions : Obligations.SavesAndSuspensions := by
  unfold Obligations.SavesAndSuspensions
  refine fun s => ⟨fun vf n k c hk hx hst hsus hstop hs hstall hres =>
      ⟨save_ends hk hx hst hsus hstop hs hstall hres, save_stalls hk hx hst hsus hstop hs hstall⟩,
    fun vf n k c u hk hx hst => ⟨restore_refused hk hx hst, fun hok hh hagain hput hu hans =>
      restore_live hk hx hst hok hh hagain hput hu hans⟩,
    fun vf => suspendSet_suspends, fun vf => suspendClear_resumes, fun vf x whole => ⟨sfadd_takes, sfadd_refused⟩⟩

end Sys2Proof.Machine
end

section
/-! PROOFS. FAULT_RESUME: the answer to a fault-queue entry and what it does to the strands parked under it (R354, R355; O43). -/

namespace Sys2Proof.Machine

/-! ## Slices that hold nothing to settle -/

/-- No join, no pending trap and no spilled entry. -/
def Slice.bare (x : Slice) : Bool := x.recon.isEmpty && x.pending.isEmpty && decide (x.spilled = 0)

/-- A warp whose slices hold nothing to settle. -/
def Warp.bare (w : Warp) : Bool := w.slices.all (fun z => z.2.bare)

theorem Slice.bare_of_rest {x y : Slice} (hx : x.bare = true)
    (h : y.recon = x.recon ∧ y.pending = x.pending ∧ y.spilled = x.spilled) : y.bare = true := by
  obtain ⟨hrecon, hpending, hspilled⟩ := h
  unfold Slice.bare
  rw [hrecon, hpending, hspilled]
  exact hx

theorem Slice.bare_parts {x : Slice} (h : x.bare = true) : x.recon = [] ∧ x.pending = [] ∧ x.spilled = 0 := by
  simpa [Slice.bare, and_assoc] using h

theorem Warp.bare_slice {w : Warp} (h : w.bare = true) (k : Nat) : (w.slice k).bare = true := by
  unfold Warp.slice
  rcases Cells.get_mem w.slices k with hm | hd
  · exact List.all_eq_true.mp h _ hm
  · rw [hd]; rfl

theorem Warp.bare_put {w : Warp} (h : w.bare = true) (k : Nat) {x : Slice} (hx : x.bare = true) :
    ({ w with slices := Cells.put w.slices k x } : Warp).bare = true :=
  Cells.all_put _ k x hx h

theorem Warp.bare_map {w : Warp} (h : w.bare = true) {f : Nat × Slice → Slice}
    (hf : ∀ z, z.2.bare = true → (f z).bare = true) :
    ({ w with slices := w.slices.map (fun z => (z.1, f z)) } : Warp).bare = true := by
  refine List.all_eq_true.mpr (fun z hz => ?_)
  obtain ⟨y, hy, rfl⟩ := List.mem_map.mp hz
  exact hf y (List.all_eq_true.mp h y hy)

theorem Warp.bare_foldl {α : Type} {f : Warp → α → Warp} (hf : ∀ w x, w.bare = true → (f w x).bare = true) (l : List α)
    {w : Warp} (h : w.bare = true) : (l.foldl f w).bare = true :=
  List.foldlRecOn l f (motive := fun w => w.bare = true) h (fun _ hw x _ => hf _ x hw)

theorem Slice.bare_rechoose {x : Slice} (h : x.bare = true) : x.rechoose.bare = true := bare_of_rest h x.rechoose_rest

theorem Slice.bare_afterIssue {x : Slice} (h : x.bare = true) (e : Nat) (parts : List Strand) (yield : Bool) :
    (x.afterIssue e parts yield).bare = true := by
  unfold Slice.afterIssue
  match parts with
  | [] => exact bare_rechoose h
  | [p] =>
    dsimp only
    generalize hn : Option.getD _ e = now
    have hcur : ({ x with cur := now } : Slice).bare = true := h
    split
    · exact bare_rechoose h
    · split
      · split
        · exact h
        · split
          · exact h
          · exact h
      · exact bare_rechoose hcur
  | p :: q :: rest =>
    dsimp only
    split
    · exact bare_rechoose (x := x.choose _) h
    · exact bare_rechoose h

theorem Warp.bare_moveStrands {w : Warp} (hw : w.bare = true) (n : Now) (act : Lanes) (h : Hdr) (wide : Bool)
    (after : After) (ends : List (Nat × LaneEnd)) (tick : Nat) :
    (w.moveStrands n act h wide after ends tick).bare = true := by
  refine bare_foldl (fun w u hw => bare_put hw u.1 (Slice.bare_afterIssue ?_ _ _ _)) _ hw
  exact Slice.bare_of_rest (bare_slice hw u.1) ⟨rfl, rfl, rfl⟩

theorem Slice.bare_merge {x : Slice} (h : x.bare = true) (es : List (Nat × Strand)) (f : Strand → Strand) :
    (x.merge es f).bare = true := by
  cases es with
  | nil => exact h
  | cons e rest => exact h

theorem Slice.bare_settleRegang {x : Slice} (h : x.bare = true) : x.settleRegang.bare = true := by
  refine List.foldlRecOn x.strands _ (motive := fun z : Slice => z.bare = true) h (fun z hz y _ => ?_)
  split
  · split
    · exact bare_merge hz _ _
    · exact hz
  · exact hz

theorem Warp.bare_settleRegang {w : Warp} (h : w.bare = true) : w.settleRegang.bare = true := by
  unfold Warp.settleRegang
  split
  · exact h
  · have hs := bare_map h (f := fun z => z.2.settleRegang) (fun z hz => Slice.bare_settleRegang hz)
    dsimp only
    split
    · exact hs
    · next pc _ =>
      obtain ⟨g, hg⟩ := Warp.regroup_moved _ pc
      rw [hg]
      exact bare_map hs (f := fun z => { z.2 with strands := z.2.strands.map (fun y => (y.1, y.2.passed)) })
        (fun z hz => hz)

theorem Warp.settleJoins_bare {w : Warp} (h : w.bare = true) : w.settleJoins = w := by
  have hid : w.slices.map (fun k => if k.2.recon.isEmpty || k.2.spilled != 0 then k
      else (k.1, k.2.settleJoins (laneMask k.1 w.exited))) = w.slices := by
    refine (List.map_congr_left (g := id) (fun z hz => ?_)).trans (List.map_id _)
    rw [(Slice.bare_parts (List.all_eq_true.mp h z hz)).1]
    rfl
  unfold Warp.settleJoins
  rw [hid]

theorem Warp.unspilled_bare {w : Warp} (h : w.bare = true) : w.unspilled = true :=
  (Warp.unspilled_iff w).mpr (fun k _ => (Slice.bare_parts (bare_slice h k)).2.2)

/-! ## What such a warp settles -/

theorem State.settleStack_bare {s : State} {k w : Nat} (h : (s.warp k w).bare = true) (search : BitVec 8) :
    s.settleStack k w search = s.setWarp k w (s.warp k w).settleRegang := by
  have hslices := State.settleSlices_unspilled (s.setWarp k w (s.warp k w)) k w search
    (by rw [State.warp_setWarp]; exact Warp.unspilled_bare h) (List.range 8) (by simp)
  have hplaced : (Cells.find? (s.setWarp k w (s.warp k w)).teams k).isNone = false := by
    simp [State.setWarp, State.setTeam, Cells.find?_put]
  unfold State.settleStack State.onWarp
  rw [Warp.settleJoins_bare h]
  dsimp only
  rw [hslices, hplaced]
  simp only [Bool.false_eq_true, if_false, State.warp_setWarp, State.setWarp_setWarp]

theorem State.takeTraps_bare {s : State} {k w : Nat} (h : (s.warp k w).bare = true) : s.takeTraps k w = s := by
  have hnone : ∀ j, s.trapDue k w j = false := fun j => by
    simp [State.trapDue, Warp.trapDue, (Slice.bare_parts (Warp.bare_slice h j)).2.1]
  unfold State.takeTraps
  exact List.foldlRecOn (List.range 8) _ (motive := (· = s)) rfl (fun t ht j _ => by rw [ht, hnone]; rfl)

theorem Warp.settleRegang_exited (w : Warp) : w.settleRegang.exited = w.exited := by
  obtain ⟨x, g, h⟩ := Warp.settleRegang_moved w
  rw [h]

/-! ## Rules 1 to 3 keep what a strand is and where it stands -/

theorem Slice.strand_choose (x : Slice) (e j : Nat) :
    ((x.choose e).strand j).st = (x.strand j).st ∧ ((x.choose e).strand j).pc = (x.strand j).pc := by
  unfold Slice.choose Slice.strand
  rw [Cells.get_eq_find?, Cells.get_eq_find?, Cells.find?_adjust]
  split
  · cases Cells.find? x.strands j <;> exact ⟨rfl, rfl⟩
  · exact ⟨rfl, rfl⟩

theorem Slice.strand_rechoose (x : Slice) (j : Nat) :
    (x.rechoose.strand j).st = (x.strand j).st ∧ (x.rechoose.strand j).pc = (x.strand j).pc := by
  unfold Slice.rechoose
  split
  · split
    · exact ⟨rfl, rfl⟩
    · split
      · exact x.strand_choose _ j
      · exact ⟨rfl, rfl⟩
  · split
    · exact x.strand_choose _ j
    · exact ⟨rfl, rfl⟩

theorem Warp.slice_onSlice (w : Warp) (k : Nat) (f : Slice → Slice) : (w.onSlice k f).slice k = f (w.slice k) :=
  Cells.get_put_self ..

theorem Warp.slice_rechoose (w : Warp) (k : Nat) : w.rechoose.slice k = (w.slice k).rechoose := by
  unfold Warp.rechoose Warp.slice
  rw [Cells.get_eq_find?, Cells.get_eq_find?, Cells.find?_map_snd w.slices (fun _ x => x.rechoose)]
  cases Cells.find? w.slices k <;> rfl

/-! ## The answers -/

/-- Retry: a parked strand is Ready where it stood (R354). -/
theorem State.retryFault_ready {s : State} {y : Parked} (hdeliver : y.info.deliver = false)
    (hst : y.strand.st = .onFault y.info) (hy : (s.warp y.team y.warp).strand y.slice y.entry = y.strand) :
    (((s.retryFault y).warp y.team y.warp).strand y.slice y.entry).st = .ready ∧
    (((s.retryFault y).warp y.team y.warp).strand y.slice y.entry).pc = y.strand.pc := by
  have hlisted : (Cells.find? ((s.warp y.team y.warp).slice y.slice).strands y.entry).isSome = true := by
    refine Cells.listed_of_get (fun h => ?_)
    have hd : y.strand = default := hy.symm.trans h
    rw [hd] at hst
    exact nomatch hst
  have hset : (((s.warp y.team y.warp).slice y.slice).onStrand y.entry (fun z => { z with st := .ready })).strand y.entry =
      { y.strand with st := .ready } :=
    (Cells.get_adjust_listed _ _ (fun z : Strand => { z with st := .ready }) hlisted).trans
      (congrArg (fun z : Strand => { z with st := .ready }) hy)
  unfold State.retryFault
  rw [hdeliver]
  simp only [Bool.false_eq_true, if_false, State.warp_onWarp, Warp.strand, Warp.slice_rechoose, Warp.onStrand,
    Warp.slice_onSlice]
  obtain ⟨hready, hpc⟩ := Slice.strand_rechoose
    (((s.warp y.team y.warp).slice y.slice).onStrand y.entry (fun z => { z with st := .ready })) y.entry
  rw [hset] at hready hpc
  exact ⟨hready, hpc⟩

/-- Kill: the lanes of a parked strand have exited (R354); no context changes where the warp holds nothing to settle. -/
theorem State.killFault_exits {s : State} {y : Parked} (hdeliver : y.info.deliver = false)
    (hy : (s.warp y.team y.warp).strand y.slice y.entry = y.strand) (hbare : (s.warp y.team y.warp).bare = true) :
    ((s.killFault [y]).warp y.team y.warp).exited =
      (s.warp y.team y.warp).exited ||| sliceLanes y.slice y.strand.mask ∧ (s.killFault [y]).contexts = s.contexts := by
  have hlanes : (s.warp y.team y.warp).unitLanes [(y.slice, y.entry)] = sliceLanes y.slice y.strand.mask := by
    simp [Warp.unitLanes, hy]
  unfold State.killFault
  dsimp only [List.map, List.foldl]
  generalize hf : s.onWarp _ _ _ = u
  generalize unitMask _ = search
  have hcontexts : u.contexts = s.contexts := hf ▸ rfl
  have hwarp : (u.warp y.team y.warp).bare = true ∧ (u.warp y.team y.warp).exited =
      (s.warp y.team y.warp).exited ||| sliceLanes y.slice y.strand.mask := by
    rw [← hf, State.warp_onWarp, hlanes, hdeliver]
    generalize hm : Warp.moveStrands _ _ _ _ _ _ _ _ = v
    have hv : v.bare = true := hm ▸ Warp.bare_moveStrands hbare _ _ _ _ _ _ _
    have hexited : v.exited = (s.warp y.team y.warp).exited := by
      obtain ⟨x, hx⟩ := Warp.moveStrands_moved (s.warp y.team y.warp) _ _ _ _ _ _ _
      exact hm ▸ hx ▸ rfl
    refine ⟨?_, congrArg (· ||| _) hexited⟩
    exact Warp.bare_put hv y.slice (Warp.bare_slice hv y.slice)
  obtain ⟨hb, he⟩ := hwarp
  rw [State.settleStack_bare hb, State.takeTraps_bare (by rw [State.warp_setWarp]; exact Warp.bare_settleRegang hb),
    State.warp_setWarp, Warp.settleRegang_exited, he]
  exact ⟨rfl, hcontexts⟩

/-! ## The command -/

section

variable {s : State} {k seq action : Nat}

/-- An answer looks at placed strands only (R355). -/
theorem State.parkedUnder_of_teams {t : State} (h : t.teams = s.teams) (k seq : Nat) :
    t.parkedUnder k seq = s.parkedUnder k seq := by
  unfold State.parkedUnder State.teamsOf State.team
  rw [h]

theorem State.parkedUnder_onContext (s : State) (j : Nat) (f : Context → Context) (k seq : Nat) :
    (s.onContext j f).parkedUnder k seq = s.parkedUnder k seq := State.parkedUnder_of_teams rfl k seq

/-- The slot of an answered entry frees (R354). -/
def Context.freeEntry (seq : Nat) (c : Context) : Context := { c with entries := c.entries.filter (fun e => e.seq != seq) }

/-- An answer waits for strands that are not placed. -/
def Context.awaitAnswer (seq action : Nat) (c : Context) : Context := { c with answered := c.answered ++ [(seq, action)] }

theorem State.find?_onContext {x : Context} (hx : Cells.find? s.contexts k = some x) (f : Context → Context) :
    Cells.find? (s.onContext k f).contexts k = some (f x) := by
  refine (Cells.find?_adjust s.contexts k k f).trans ?_
  rw [if_pos rfl, hx]
  rfl

/-- The answer to strands that are not placed waits for them (R355). -/
theorem State.answerFault_waits (h : s.parkedUnder k seq = []) : s.answerFault k seq action =
    (s.onContext k (Context.freeEntry seq)).onContext k (Context.awaitAnswer seq action) := by
  unfold State.answerFault
  refine if_neg ?_
  rw [State.parkedUnder_onContext, h]
  simp

/-- The answer to placed strands of a Live context is carried out at once. -/
theorem State.answerFault_applies {x : Context} {y : Parked} (hx : Cells.find? s.contexts k = some x) (hlive : x.st = .live)
    (h : s.parkedUnder k seq = [y]) : s.answerFault k seq action =
    (s.onContext k (Context.freeEntry seq)).applyAnswer k seq action := by
  unfold State.answerFault
  refine if_pos ⟨(congrArg Context.st (State.context_onContext hx (Context.freeEntry seq))).trans hlive, ?_⟩
  rw [State.parkedUnder_onContext, h]
  rfl

theorem contextCommand_faultResume {r : JRef} {c : BitVec 512} {x : Context} {e : FqEntry} (htype : cmdType c = 5)
    (hx : Cells.find? s.contexts k = some x) (hpage : bit (cmdOp c 1) 2 = false)
    (he : x.entries.find? (fun f => f.seq == (cmdOp c 0).toNat && f.kind != 0x20) = some e) :
    s.contextCommand r k c = some ((s.journalSet r .completed .ok none).answerFault k e.seq (field (cmdOp c 1) 1 0), .ok) := by
  simp only [State.contextCommand, htype, State.cmdFaultResume, State.context_of_find? hx, he, hpage, Bool.false_eq_true,
    if_false]
  rfl

end

section

variable {s : State} {n k : Nat} {c : BitVec 512} {x : Context} {e : FqEntry} {i : Instr} {ok : Bool}
  (h : Takes s (.vf n) c = true) (htype : cmdType c = 5) (hk : s.namedContext (.vf n) c = some k)
  (hx : Cells.find? s.contexts k = some x) (hpage : bit (cmdOp c 1) 2 = false)
  (he : x.entries.find? (fun f => f.seq == (cmdOp c 0).toNat && f.kind != 0x20) = some e)
  (hi : exec i s = hostCommand (.vf n) c true ok s) (hok : ok = true)

include h htype hk hx hpage he hi hok

/-- The answer is carried out once the command's own entry is Completed. -/
theorem faultResume_answering : ∃ u, Answers i s
    ((u.answerFault k e.seq (field (cmdOp c 1) 1 0)).cmdStat (Fn.vf n).port (cmdTag c) .ok) (.vf n) c .ok ∧
    Recorded s u (.vf n) c .completed .ok ∧ Cells.find? u.contexts k = some x ∧ u.teams = s.teams := by
  have hsame := JournalMove.journalSet (s.recorded (.vf n) c) (s.entryRef (.vf n)) .completed .ok none
  exact ⟨_, answers_of_contextCommand h (commandAsk_of_type (by simp [htype])) (by rw [htype]; rfl) hk hi hok
      (contextCommand_faultResume (s := s.recorded (.vf n) c) htype hx hpage he),
    (recorded_recorded s _ c).journalSet rfl .completed .ok none,
    (hsame.same (fun u => Cells.find? u.contexts k) (fun _ _ _ => rfl)).trans hx, hsame.same State.teams (fun _ _ _ => rfl)⟩

/-- What strands that are not placed come to. -/
theorem faultResume_waits (hnone : s.parkedUnder k e.seq = []) :
    ∃ t, Answers i s t (.vf n) c .ok ∧ Recorded s t (.vf n) c .completed .ok ∧
      (t.context k).entries = x.entries.filter (fun f => f.seq != e.seq) ∧
      (t.context k).answered = x.answered ++ [(e.seq, field (cmdOp c 1) 1 0)] ∧ t.teams = s.teams := by
  obtain ⟨u, hanswers, hrec, hx', hteams⟩ := faultResume_answering h htype hk hx hpage he hi hok
  rw [State.answerFault_waits ((State.parkedUnder_of_teams hteams k e.seq).trans hnone)] at hanswers
  have hctx := State.context_onContext (State.find?_onContext hx' (Context.freeEntry e.seq))
    (Context.awaitAnswer e.seq (field (cmdOp c 1) 1 0))
  exact ⟨_, hanswers, (hrec.of_port rfl).cmdStat _ _, congrArg Context.entries hctx, congrArg Context.answered hctx, hteams⟩

/-- What the one placed strand under an entry comes to: `f` is what the answer does to it. -/
theorem faultResume_applies {y : Parked} {f : State → State} (hlive : x.st = .live) (hone : s.parkedUnder k e.seq = [y])
    (hf : ∀ u : State, u.parkedUnder k e.seq = [y] → u.applyAnswer k e.seq (field (cmdOp c 1) 1 0) = f u)
    (hkeeps : ∀ u : State, u.teams = s.teams → (f u).contexts = u.contexts) :
    ∃ t u, Answers i s t (.vf n) c .ok ∧ (t.context k).entries = x.entries.filter (fun f => f.seq != e.seq) ∧
      t.teams = (f u).teams ∧ u.teams = s.teams := by
  obtain ⟨u, hanswers, -, hx', hteams⟩ := faultResume_answering h htype hk hx hpage he hi hok
  have hone' := (State.parkedUnder_of_teams hteams k e.seq).trans hone
  rw [State.answerFault_applies hx' hlive hone', hf _ ((State.parkedUnder_onContext _ _ _ _ _).trans hone')] at hanswers
  refine ⟨_, u.onContext k (Context.freeEntry e.seq), hanswers, ?_, rfl, hteams⟩
  refine (congrArg (fun cs : Cells Context => (Cells.get cs k).entries) (hkeeps (u.onContext k (Context.freeEntry e.seq)) hteams)).trans ?_
  exact congrArg Context.entries (State.context_onContext hx' (Context.freeEntry e.seq))

end

/-! ## What a carried-out answer leaves of the contexts -/

theorem State.retryFault_contexts {y : Parked} (hdeliver : y.info.deliver = false) (s : State) :
    (s.retryFault y).contexts = s.contexts := by
  unfold State.retryFault
  rw [hdeliver]
  rfl

/-- Settles O43: an answer without PAGE is carried out on the strands parked under the one entry. -/
theorem commandsAnswerFaults : Obligations.CommandsAnswerFaults := by
  unfold Obligations.CommandsAnswerFaults
  intro s n k c x e h fn htype hk hx hpage he
  refine ⟨fun hnone i hi => ?_, fun y hlive hone hst hdeliver _ hy => ⟨fun hact => ?_, fun hact hbare => ?_⟩⟩
  · rcases hi with ⟨hact, rfl⟩ | ⟨hact, rfl⟩ | ⟨hact, rfl⟩
    · exact faultResume_waits h htype hk hx hpage he (i := .faultResumeRetry fn c) rfl (by simp [htype, hact]) hnone
    · exact faultResume_waits h htype hk hx hpage he (i := .faultResumeDeliver fn c) rfl (by simp [htype, hact]) hnone
    · exact faultResume_waits h htype hk hx hpage he (i := .faultResumeKill fn c) rfl (by simp [htype, hact]) hnone
  · obtain ⟨t, u, ha, hentries, ht, hu⟩ := faultResume_applies (f := fun u => u.retryFault y) h htype hk hx hpage he
      (i := .faultResumeRetry fn c) rfl (by simp [htype, hact]) hlive hone
      (fun u hone => by simp [State.applyAnswer, hact, hone]) (fun u _ => State.retryFault_contexts hdeliver u)
    have hy' : (u.warp y.team y.warp).strand y.slice y.entry = y.strand := by rw [State.warp_of_teams hu, hy]
    refine ⟨t, ha, hentries, ?_⟩
    rw [State.warp_of_teams ht]
    exact State.retryFault_ready hdeliver hst hy'
  · have hbare' : (s.warp y.team y.warp).bare = true := List.all_eq_true.mpr (fun z hz => by
      have hz' := List.all_eq_true.mp hbare z hz
      simp only [Bool.and_eq_true] at hz'
      obtain ⟨⟨⟨hrecon, hpending⟩, hspilled⟩, -⟩ := hz'
      simp [Slice.bare, hrecon, hpending, of_decide_eq_true hspilled])
    have hkill {u : State} (hu : u.teams = s.teams) := State.killFault_exits (s := u) hdeliver
      (by rw [State.warp_of_teams hu, hy]) (by rw [State.warp_of_teams hu, hbare'])
    obtain ⟨t, u, ha, hentries, ht, hu⟩ := faultResume_applies (f := fun u => u.killFault [y]) h htype hk hx hpage he
      (i := .faultResumeKill fn c) rfl (by simp [htype, hact]) hlive hone
      (fun u hone => by simp [State.applyAnswer, hact, hone]) (fun u hu => (hkill hu).2)
    refine ⟨t, ha, hentries, ?_⟩
    rw [State.warp_of_teams ht, (hkill hu).1, State.warp_of_teams hu]

end Sys2Proof.Machine
end

section
/-! PROOFS. An enrolment that is still open stands against a second one of its context (R398, R399; O45). -/

namespace Sys2Proof.Machine

/-- CHECKPOINT_ENROL of context 0 in group 1: every 100 ms, members 0 and 1, this module 0, the buddy 1 (R398). -/
def enrolCommand : BitVec 512 := 13 ||| (1 <<< 160) ||| (100 <<< 192) ||| (0x100003 <<< 256)

/-- A context whose enrolment in group 2 is still Running: the other member has not enrolled yet (R399). -/
def openEnrolment : State := { State.reset with
  contexts := [(0, { vf := 0, num := 0, root := 0, fq := 0 })]
  vfs := [(0, { peers := [(1, (1, 0))] })]
  fabric := { groups := [(2, { interval := 100, phys := [0, 1], members := 3, self := 0, buddy := 1, ctx := 0, port := 1,
                               jseq := 0 })] } }

/-- The status that CMDSTAT shows after an event. -/
def statusAfter (i : Instr) (s : State) (fn : Fn) : Option Status :=
  match exec i s with
  | .next t => some (t.port fn.port).status
  | _ => none

theorem statusAfter_of_answers {i : Instr} {s t : State} {fn : Fn} {c : BitVec 512} {st : Status}
    (h : Answers i s t fn c st) : statusAfter i s fn = some st := by
  obtain ⟨hnext, -, hst⟩ := h
  unfold statusAfter
  rw [hnext]
  exact congrArg some hst

theorem openEnrolment_denied :
    statusAfter (.checkpointEnrol (.vf 0) enrolCommand) openEnrolment (.vf 0) = some .denied := by decide +kernel

/-- Refutes O45: the enrolment clause takes a context as free that no group past its enrolment holds; `openEnrolment` is such a
context in a group still enrolling, and a second CHECKPOINT_ENROL of it ends with DENIED. -/
theorem not_commandsOfTenants : ¬ Obligations.CommandsOfTenants := by
  unfold Obligations.CommandsOfTenants
  intro h
  obtain ⟨-, -, -, hgroups, -⟩ := h openEnrolment 0 enrolCommand
  obtain ⟨henrol, -⟩ := hgroups 0 (by decide +kernel) (by decide +kernel) (by decide +kernel)
  obtain ⟨t, g, ht, -⟩ := henrol (by decide +kernel) (by decide +kernel) (by decide +kernel) rfl (by decide +kernel)
  exact absurd ((statusAfter_of_answers ht).symm.trans openEnrolment_denied) (by decide)

end Sys2Proof.Machine
end

section
/-! PROOFS. The words of a kind 0x20 entry are taken as they come: one that does not fit reaches into the next (R353, R359; O35). -/

namespace Sys2Proof.Machine

/-- A context that is Live, with nothing in its fault queue. -/
def liveContext : State := { State.reset with contexts := [(0, { vf := 0, num := 0, root := 0, fq := 0 })] }

/-- An end with reason 0 whose warp number takes more than the 8 bytes at +24. -/
def wideEnd : EndInfo := { reason := 0, global := 2 ^ 192 }

/-- The reasons that the entries of context 0 show at +48. -/
def State.reasonsShown (s : State) : List Nat := (s.context 0).entries.map (fun e => field e.body 447 384)

theorem wideEnd_shown : (liveContext.endContext 0 wideEnd).reasonsShown = [1] := by decide +kernel

/-- Refutes O35: it says of every end that the entry of kind 0x20 shows the reason at +48, but the model puts the words of an end
into the entry without a bound; in `liveContext` the warp number of `wideEnd` reaches into the reason. -/
theorem not_faultsAndEndsAreQueued : ¬ Obligations.FaultsAndEndsAreQueued := by
  unfold Obligations.FaultsAndEndsAreQueued
  rintro ⟨-, h, -⟩
  obtain ⟨hends, -⟩ := h liveContext 0 wideEnd
  obtain ⟨-, -, -, e, hentries, -, -, hreason⟩ := hends (by decide) rfl
  have hshown : (liveContext.endContext 0 wideEnd).reasonsShown = [field e.body 447 384] :=
    congrArg (List.map (fun e : FqEntry => field e.body 447 384)) hentries
  rw [hreason (by decide), wideEnd_shown] at hshown
  exact absurd hshown (by decide)

end Sys2Proof.Machine
end

section
/-! PROOFS. Flits that arrive and are acknowledged, links and liveness, dead modules (R386-R390, R396; O50). -/

namespace Sys2Proof.Machine

/-! ## A store holds no flit back -/

theorem State.same_foldl {α β : Type} {f : State → β} {g : State → α → State} (hg : ∀ s x, f (g s x) = f s) (l : List α)
    (s : State) : f (l.foldl g s) = f s :=
  List.foldlRecOn l g (motive := fun t => f t = f s) rfl (fun _ h x _ => (hg _ x).trans h)

/-- The flits that wait here stay. -/
def SameHeld (s t : State) : Prop := t.fabric.held = s.fabric.held

theorem SameHeld.refl (s : State) : SameHeld s s := rfl

theorem SameHeld.trans {s t u : State} (h : SameHeld s t) (g : SameHeld t u) : SameHeld s u := Eq.trans g h

theorem SameHeld.of_held {s t : State} (h : t.fabric.held = s.fabric.held) : SameHeld s t := h

theorem SameHeld.foldl {α : Type} {f : State → α → State} (hf : ∀ s x, SameHeld s (f s x)) (l : List α) (s : State) :
    SameHeld s (l.foldl f s) :=
  State.same_foldl (f := fun s : State => s.fabric.held) hf l s

theorem SameHeld.ite {p : Prop} [Decidable p] {s t u : State} (h : SameHeld s t) (g : SameHeld s u) :
    SameHeld s (if p then t else u) := by
  split
  · exact h
  · exact g

theorem SameHeld.chargeTo (s : State) (a : Option Nat) (k inst n : Nat) : SameHeld s (s.chargeTo a k inst n) := by
  cases a with
  | none => exact .refl s
  | some a => exact .refl s

theorem SameHeld.hostDrop (s : State) (half : Nat) : SameHeld s (s.hostDrop half) := by
  have refused : SameHeld s (s.refuseWriteBack half) := .ite (.refl s) (.refl s)
  have back : SameHeld s (s.hostWriteBack half) := .ite (.refl s) (.refl s)
  have dropped : SameHeld s ((s.hostWriteBack half).dropCopies (half / 2)) := back.trans (.refl _)
  exact .ite refused dropped

theorem SameHeld.l2Evict (s : State) (act : Option Nat) (l : L2Line) : SameHeld s (s.l2Evict act l) := by
  have home := (SameHeld.hostDrop s (2 * (l.line - 2 ^ 46))).trans (.hostDrop _ (2 * (l.line - 2 ^ 46) + 1))
  refine .ite ((SameHeld.ite (.chargeTo s act 0 _ 2) (.refl s)).trans (.refl _)) (.ite (home.trans (.refl _)) home)

theorem SameHeld.l2Touch (s : State) (who : Who) (line : Nat) (write : Bool) : SameHeld s (s.l2Touch who line write) := by
  have room (t : State) : SameHeld t (t.l2Room who.act line) := .foldl (fun t l => .ite (.refl t) (.l2Evict t _ l)) _ t
  unfold State.l2Touch
  exact (SameHeld.ite (.refl s) ((SameHeld.ite (.chargeTo s who.act 0 _ 2) (.refl s)).trans (room _))).trans (.refl _)

theorem SameHeld.writeHome (s : State) (pa n x : Nat) (lab : Label) (who : Who) :
    SameHeld s (s.writeHome (.dev pa) n x lab who) := by
  have reached (t : State) : SameHeld t (t.l2Reach who (.dev pa) n true) := .foldl (fun t l => .l2Touch t _ l _) _ t
  exact ((SameHeld.refl s).trans (reached (s.noteWrite pa))).trans (.refl _)

theorem SameHeld.forward (s : State) (w : Writer) (key n x : Nat) (lab : Label) : SameHeld s (s.forward w key n x lab) := by
  have out : SameHeld s (s.forwardOut w.id key (bytesOf n x)) := by
    refine .foldl (fun t _ => ?_) _ s
    exact .ite (.of_held rfl) (.refl t)
  have before (t : State) (c : Nat) : SameHeld t (t.applyBefore c key n) := by
    refine SameHeld.trans (.foldl (fun u _ => ?_) t.updates t) (.of_held rfl)
    exact .ite (.of_held rfl) (.refl u)
  refine (SameHeld.ite out (out.trans (t := s.forwardOut w.id key (bytesOf n x)) (.of_held (t := State.noteForward _ (lineDie (key / 128))) rfl))).trans
    (.foldl (fun t c => ?_) _ _)
  split
  · exact .refl t
  · exact .ite ((before t c).trans (.refl _)) (.refl t)

theorem SameHeld.store (s : State) (w : Writer) (pa n x : Nat) (lab : Label) : SameHeld s (s.store w (.dev pa) n x lab) :=
  (SameHeld.writeHome s pa n x lab w.who).trans (.forward _ _ _ _ _ _)

/-! ## What arrives -/

section

variable {s : State} {port : Nat} {f : Flit} (hused : s.portUsed port = true) (htrained : (s.link port).trained = true)
  (hup : (s.link port).up = true) (hlive : s.liveOf port f = false) (hdst : f.dst = s.self) (hsrc : f.src ≠ s.self)
  (hdead : s.fabric.dead.contains f.src = false) (hordered : ordered f.vn = true) (hheld : s.fabric.held = [])

include hused htrained hup hlive hdst in
theorem flitReceive_takes : exec (.flitReceive { port, flit := f }) s = .next (s.takeFlit f) := by
  change execFlitReceive _ s = _
  simp [execFlitReceive, hused, htrained, hup, hlive, hdst]

theorem readmit_live (h : s.fabric.dead.contains f.src = false) : s.readmit f = s := by
  unfold State.readmit
  rw [h]
  rfl

include hsrc hdead hordered

/-- A flit that has been delivered before is discarded (R388). -/
theorem takeFlit_seen (hseq : f.seq < Cells.get s.fabric.expect (f.src * 8 + f.vn)) : s.takeFlit f = s.discard f := by
  have hseen : s.flitSeen f = true := by simp [State.flitSeen, hordered, hseq]
  unfold State.takeFlit
  rw [readmit_live hdead]
  have hdead' : f.src ∉ s.fabric.dead := by simpa using hdead
  simp [hsrc, hdead', hseen]

include hheld

/-- Another flit is held until those before it have come. -/
theorem takeFlit_new (hseq : Cells.get s.fabric.expect (f.src * 8 + f.vn) ≤ f.seq) :
    s.takeFlit f = ({ s with fabric := { s.fabric with held := [f] } } : State).drainHeld 1 := by
  have hseen : s.flitSeen f = false := by simp [State.flitSeen, hordered, hseq]
  unfold State.takeFlit
  rw [readmit_live hdead]
  have hdead' : f.src ∉ s.fabric.dead := by simpa using hdead
  simp [hsrc, hdead', hseen, hheld]

end

/-- A flit that waits alone. -/
def State.holding (s : State) (f : Flit) : State := { s with fabric := { s.fabric with held := [f] } }

section

variable {s : State} {f : Flit}

theorem drainHeld_early (hordered : ordered f.vn = true) (hseq : Cells.get s.fabric.expect (f.src * 8 + f.vn) ≠ f.seq) :
    (s.holding f).drainHeld 1 = s.holding f := by
  have hdue : (s.holding f).flitDue f = false := by
    have : ¬ f.seq = Cells.get s.fabric.expect (f.src * 8 + f.vn) := fun h => hseq h.symm
    simp [State.flitDue, hordered, State.holding, this]
  unfold State.drainHeld
  have hnone : ((s.holding f).fabric.held.filter (s.holding f).flitDue) = [] := by
    change [f].filter _ = []
    simp [hdue]
  rw [hnone]
  rfl

theorem drainHeld_due {t : State} (hseq : f.seq = Cells.get s.fabric.expect (f.src * 8 + f.vn))
    (ht : (s.holding f).takeHeld f = some t) : (s.holding f).drainHeld 1 = t := by
  have hdue : (s.holding f).flitDue f = true := by
    simp [State.flitDue, State.holding, hseq]
  unfold State.drainHeld
  have hone : ((s.holding f).fabric.held.filter (s.holding f).flitDue) = [f] := by
    change [f].filter _ = [f]
    simp [hdue]
  rw [hone, List.findSome?_cons, ht]
  rfl

end

/-! ## A store of another module -/

section

variable {s : State} {f : Flit} {tag pvf : Nat} {pa : BitVec 64} {o : Label} {scp : Scope} {n : Nat} {x : BitVec 128}

/-- What a request brings with it. -/
def requesterOf (f : Flit) (tag pvf : Nat) (scp : Scope) : Peer := { src := f.src, tag, vf := pvf, vn := f.vn, scp, lab := f.lab }

theorem HomeWrite.serveStore (s : State) (p : Peer) (pa n x : Nat) (lab : Label) :
    HomeWrite s (s.serveStore p pa n x lab) pa n x lab :=
  (HomeWrite.store (s.fresh.serveCharge p pa n) _ pa n x lab).before (.of_same rfl rfl rfl rfl rfl rfl rfl rfl)

theorem takeHeld_store (hvn : f.vn ≠ 2) (hbody : f.body = .request tag pvf pa o scp (.store n x))
    (hmay : s.mayServe (requesterOf f tag pvf scp) pa.toNat n true = true) :
    ∃ t, (s.holding f).takeHeld f = some t ∧ WroteDev s t pa.toNat n f.lab ∧
      Cells.readLE t.mem pa.toNat n = x.toNat % 2 ^ (8 * n) ∧ t.fabric.held = [] ∧
      (ordered f.vn = true → Cells.get t.fabric.expect (f.src * 8 + f.vn) = f.seq + 1) := by
  have hmay' : (s.holding f).mayServe (requesterOf f tag pvf scp) pa.toNat n true = true := hmay
  have hserve : (s.holding f).serve (requesterOf f tag pvf scp) pa.toNat o (.store n x) =
      some ((s.holding f).serveStore (requesterOf f tag pvf scp) pa.toNat n x.toNat f.lab) := if_pos hmay'
  have hdeliver : (s.holding f).deliverFlit f =
      some ((s.holding f).serveStore (requesterOf f tag pvf scp) pa.toNat n x.toNat f.lab, true) := by
    unfold State.deliverFlit
    rw [if_neg (by simp [hvn]), hbody]
    exact congrArg (Option.map (fun t => (t, true))) hserve
  obtain ⟨hwrote, hread, -⟩ := ((HomeWrite.serveStore (s.holding f) (requesterOf f tag pvf scp) pa.toNat n x.toNat f.lab).before
    (.of_same rfl rfl rfl rfl rfl rfl rfl rfl : CacheMove s (s.holding f))).performed (id := 0) (.refl _)
  have hheld : SameHeld (s.holding f) ((s.holding f).serveStore (requesterOf f tag pvf scp) pa.toNat n x.toNat f.lab) :=
    (SameHeld.of_held rfl).trans (.store _ _ _ _ _ _)
  refine ⟨_, congrArg (Option.map _) hdeliver, hwrote, hread, ?_, fun hordered => ?_⟩
  · exact (congrArg (List.erase · f) hheld).trans (by simp [State.holding])
  · dsimp only
    rw [if_pos hordered]
    exact Cells.get_put_self _ _ _

end

/-! ## Acknowledgements -/

/-- The sender of a store is told that it is performed (R388, R395). -/
theorem flitAck_store {s : State} {dst vn seq tag pvf n : Nat} {f : Flit} {pa : BitVec 64} {o : Label} {scp : Scope}
    {x : BitVec 128} {a : Access} (hf : s.fabric.sent.find? (fun f => f.dst == dst && f.vn == vn && f.seq == seq) = some f)
    (hbody : f.body = .request tag pvf pa o scp (.store n x))
    (ha : s.accesses.find? (fun a => a.id == tag && a.sent) = some a) (hop : ∃ d, a.op = .store d) :
    exec (.flitAck dst vn seq) s =
      .next (({ s with fabric := { s.fabric with sent := s.fabric.sent.erase f } } : State).unqueue a.id) := by
  obtain ⟨d, hd⟩ := hop
  change execFlitAck dst vn seq s = _
  unfold execFlitAck
  rw [hf]
  dsimp only
  rw [hbody]
  dsimp only
  unfold State.ackRequest
  rw [ha]
  dsimp only
  rw [hd]

/-! ## Liveness flits (R389) -/

/-- The modules that get a liveness flit. -/
def State.liveTargets (s : State) : List Nat :=
  (List.range s.power.image.nModules).filter (fun m => m != s.self && !s.fabric.dead.contains m)

/-- The state once a module has its liveness flit, on the way round and on its own link. -/
def State.sendLive (down : List Nat) (s : State) (m : Nat) : State :=
  let f : Flit := { vn := 7, src := s.self, dst := m, seq := Cells.get s.fabric.nextSeq (m * 8 + 7), lab := 0, tokens := [],
                    body := .live down }
  let t := s.sendFlit m 7 0 [] (.live down)
  if t.linkUp m || !(t.link (t.portTo m)).trained then t else t.send (.passed m f)

/-- Flits were sent, and other messages at most. -/
def Sends (s t : State) : Prop :=
  ∃ more nextSeq out, t = { s with out, fabric := { s.fabric with sent := s.fabric.sent ++ more, nextSeq } }

theorem Sends.refl (s : State) : Sends s s := ⟨[], s.fabric.nextSeq, s.out, by rw [List.append_nil]⟩

theorem Sends.trans {s t u : State} (h : Sends s t) (g : Sends t u) : Sends s u := by
  obtain ⟨m, _, _, rfl⟩ := h
  obtain ⟨m', q, o, rfl⟩ := g
  exact ⟨m ++ m', q, o, by rw [List.append_assoc]⟩

theorem Sends.foldl {α : Type} {f : State → α → State} (hf : ∀ s x, Sends s (f s x)) (l : List α) (s : State) :
    Sends s (l.foldl f s) :=
  List.foldlRecOn l f (motive := Sends s) (.refl s) (fun _ h x _ => h.trans (hf _ x))

theorem Sends.sendFlit (s : State) (dst vn : Nat) (lab : Label) (tokens : List (Nat × Nat)) (body : FlitBody) :
    Sends s (s.sendFlit dst vn lab tokens body) := ⟨_, _, _, rfl⟩

theorem Sends.send (s : State) (o : Out) : Sends s (s.send o) :=
  ⟨[], s.fabric.nextSeq, o :: s.out, by rw [List.append_nil]; rfl⟩

/-- What looks at no flit that was sent and at no message reads as before. -/
theorem Sends.same {α : Type} {s t : State} (h : Sends s t) (f : State → α)
    (hf : ∀ (s : State) sent nextSeq out, f { s with out, fabric := { s.fabric with sent, nextSeq } } = f s) : f t = f s := by
  obtain ⟨_, _, _, rfl⟩ := h
  exact hf s _ _ _

theorem Sends.mem {s t : State} (h : Sends s t) {f : Flit} (hf : f ∈ s.fabric.sent) : f ∈ t.fabric.sent := by
  obtain ⟨_, _, _, rfl⟩ := h
  exact List.mem_append_left _ hf

theorem Sends.sameBytes {s t : State} (h : Sends s t) : SameBytes t s := by
  obtain ⟨_, _, _, rfl⟩ := h
  exact .refl s

/-- Sending something to each of some modules: each has it among the flits sent. -/
theorem Sends.foldl_mem {f : State → Nat → State} (hf : ∀ s x, Sends s (f s x)) {P : Nat → Flit → Prop} {s : State}
    (hP : ∀ t x, Sends s t → ∃ g ∈ (f t x).fabric.sent, P x g) (l : List Nat) : ∀ x ∈ l, ∃ g ∈ (l.foldl f s).fabric.sent, P x g := by
  suffices H : ∀ (l : List Nat) (t : State), Sends s t → ∀ x ∈ l, ∃ g ∈ (l.foldl f t).fabric.sent, P x g from H l s (.refl s)
  intro l
  induction l with
  | nil => exact fun _ _ _ hx => absurd hx List.not_mem_nil
  | cons y l ih =>
    intro t ht x hx
    rcases List.mem_cons.mp hx with rfl | hx
    · obtain ⟨g, hg, hPg⟩ := hP t x ht
      exact ⟨g, (Sends.foldl hf l (f t x)).mem hg, hPg⟩
    · exact ih _ (ht.trans (hf t y)) x hx

theorem Sends.sendLive (down : List Nat) (s : State) (m : Nat) : Sends s (s.sendLive down m) := by
  unfold State.sendLive
  dsimp only
  split
  · exact .sendFlit _ _ _ _ _ _
  · exact (Sends.sendFlit _ _ _ _ _ _).trans (.send _ _)

theorem sendFlit_mem (s : State) (dst vn : Nat) (lab : Label) (tokens : List (Nat × Nat)) (body : FlitBody) :
    ∃ f ∈ (s.sendFlit dst vn lab tokens body).fabric.sent, f.dst = dst ∧ f.vn = vn ∧ f.src = s.self ∧ f.body = body :=
  ⟨_, List.mem_append_right _ (List.mem_singleton_self _), rfl, rfl, rfl, rfl⟩

theorem sendLive_mem (down : List Nat) (s : State) (m : Nat) :
    ∃ f ∈ (s.sendLive down m).fabric.sent, f.dst = m ∧ f.vn = 7 ∧ f.src = s.self ∧ f.body = .live down := by
  obtain ⟨f, hf, h⟩ := sendFlit_mem s m 7 0 [] (.live down)
  refine ⟨f, ?_, h⟩
  unfold State.sendLive
  dsimp only
  split
  · exact hf
  · exact hf

section

variable {s : State}

theorem livenessSend_due (h : ∀ a, s.fabric.liveAt = some a → a + 2700 ≤ s.cycle) : ∃ t, Sends s t ∧
    exec .livenessSend s = .next { t with fabric := { t.fabric with liveAt := some t.cycle } } ∧
    ∀ m ∈ s.liveTargets, ∃ f ∈ t.fabric.sent, f.dst = m ∧ f.vn = 7 ∧ f.src = s.self ∧ f.body = .live s.downTo := by
  refine ⟨s.liveTargets.foldl (State.sendLive s.downTo) s, .foldl (Sends.sendLive _) _ s, ?_, ?_⟩
  · change execLivenessSend s = _
    unfold execLivenessSend
    refine if_neg ?_
    cases hat : s.fabric.liveAt with
    | none => simp
    | some a => simpa using h a hat
  · refine Sends.foldl_mem (Sends.sendLive _) (P := fun m f => f.dst = m ∧ f.vn = 7 ∧ f.src = s.self ∧ f.body = .live s.downTo)
      (fun t m ht => ?_) s.liveTargets
    rw [← ht.same State.self (fun _ _ _ _ => rfl)]
    exact sendLive_mem _ t m

theorem livenessSend_early {a : Nat} (hat : s.fabric.liveAt = some a) (h : s.cycle < a + 2700) :
    exec .livenessSend s = .next s := by
  change execLivenessSend s = _
  unfold execLivenessSend
  rw [hat]
  simp [h]

/-! ## Links (R389, R390) -/

theorem State.repath_sends (s old : State) : ∃ out, s.repath old = { s with out } := by
  unfold State.repath
  refine List.foldlRecOn _ _ (motive := fun t : State => ∃ out, t = { s with out }) ⟨s.out, rfl⟩ (fun t ht m _ => ?_)
  split
  · exact ht
  · split
    · exact ht
    · refine List.foldlRecOn _ _ (motive := fun t : State => ∃ out, t = { s with out }) ht (fun u hu f _ => ?_)
      obtain ⟨_, rfl⟩ := hu
      exact ⟨_, rfl⟩

/-- A link changes, and what was not acknowledged leaves again by the new paths. -/
theorem onLink_repath (s old : State) (p : Nat) (f : Link → Link) :
    (((s.onLink p f).repath old).link p = f (s.link p)) ∧ SameBytes ((s.onLink p f).repath old) s := by
  obtain ⟨out, h⟩ := (s.onLink p f).repath_sends old
  rw [h]
  refine ⟨?_, .refl s⟩
  exact (Cells.get_modify s.fabric.links p p f).trans (if_pos rfl)

variable {p : Nat}

theorem linkLivenessTimeout_due (hused : s.portUsed p = true) (hup : (s.link p).up = true)
    (h : (s.link p).lastLive + 43200 ≤ s.cycle) : exec (.linkLivenessTimeout p) s = .next (s.dropLink p) := by
  change execLinkLivenessTimeout p s = _
  simp [execLinkLivenessTimeout, hused, hup, h]

theorem linkLivenessTimeout_early (h : s.cycle < (s.link p).lastLive + 43200) :
    exec (.linkLivenessTimeout p) s = .next s := by
  change execLinkLivenessTimeout p s = _
  simp [execLinkLivenessTimeout, h]

theorem linkRetryExhausted_drops (hused : s.portUsed p = true) (hup : (s.link p).up = true) :
    exec (.linkRetryExhausted p) s = .next (s.dropLink p) := by
  change execLinkRetryExhausted p s = _
  simp [execLinkRetryExhausted, hused, hup]

theorem linkUp_clean (hused : s.portUsed p = true) (htrained : (s.link p).trained = true) (hdown : (s.link p).up = false)
    (hclean : (s.link p).clean + 2700000 ≤ s.cycle) (hlive : s.cycle < (s.link p).lastLive + 43200) :
    exec (.linkUp p) s = .next ((s.onLink p (fun l => { l with up := true, lastLive := s.cycle })).repath s) := by
  change execLinkUp p s = _
  simp [execLinkUp, Link.cleanFor, hused, htrained, hdown, hclean, hlive]

theorem linkUp_unclean (h : s.cycle < (s.link p).clean + 2700000 ∨ (s.link p).lastLive + 43200 ≤ s.cycle) :
    exec (.linkUp p) s = .next s := by
  have hclean : (s.link p).cleanFor s.cycle = false := by
    unfold Link.cleanFor
    rcases h with h | h
    · simp [Nat.not_le.mpr h]
    · simp [Nat.not_lt.mpr h]
  change execLinkUp p s = _
  simp [execLinkUp, hclean]

/-! ## Dead modules (R396) -/

variable {m : Nat}

/-- The state in which a module has just been found dead. -/
def State.bereft (s : State) (m : Nat) : State :=
  let t := s.forgetModule m
  ({ t with fabric := { t.fabric with dead := t.fabric.dead ++ [m] } } : State).send (.msix 0 1)

/-- Nothing of this module ends or rolls back with a module that no access addresses. -/
theorem loseMember_alone (hm : m ≠ s.self) (hdead : s.fabric.dead.contains m = false) (hgroups : s.fabric.groups = [])
    (hlost : ∀ k, s.lostAccess k m = none) :
    (s.loseMember m).fabric.dead = s.fabric.dead ++ [m] ∧ .msix 0 1 ∈ (s.loseMember m).out ∧
    (s.loseMember m).contexts = s.contexts ∧ (s.loseMember m).fabric.sent = s.fabric.sent.filter (fun f => f.dst != m) := by
  have hstays : (Cells.keys (s.bereft m).contexts).foldl (fun (s : State) k =>
      if s.enrolled k then s
      else match s.lostAccess k m with
        | some i => ({ s with cores := s.cores.map (fun (c : Nat × Core) => (c.1, c.2.dropXfers k)) } : State).endContext k i
        | none => s) (s.bereft m) = s.bereft m := by
    refine List.foldlRecOn _ _ (motive := (· = s.bereft m)) rfl (fun t ht k _ => ?_)
    rw [ht]
    have hnone : (s.bereft m).lostAccess k m = none := hlost k
    rw [hnone]
    exact ite_self _
  have heq : s.loseMember m = { s.bereft m with accesses := (s.bereft m).accesses.filter (fun a => match a.place with
      | .peer k _ _ => k != m || (s.bereft m).enrolled a.ctx
      | _ => true) } := by
    have hguard : ¬ (m = s.self ∨ s.fabric.dead.contains m) := by
      rintro (h | h)
      · exact hm h
      · rw [hdead] at h; exact absurd h (by decide)
    unfold State.loseMember
    rw [if_neg hguard]
    dsimp only
    generalize hX : List.foldl _ _ (Cells.keys _) = X
    obtain rfl : X = s.bereft m := hX.symm.trans hstays
    have hnone : (s.bereft m).fabric.groups = [] := hgroups
    rw [hnone]
    rfl
  rw [heq]
  exact ⟨rfl, List.mem_cons_self, rfl, rfl⟩

/-- What is told to a module beside the lost one is on its way. -/
theorem moduleDeadDeclare_due (hm : m < s.power.image.nModules) (hself : m ≠ s.self) (hdead : s.fabric.dead.contains m = false)
    (h : Cells.get s.fabric.silentFrom m + 172800 ≤ s.cycle) : ∃ t, Sends s t ∧
    exec (.moduleDeadDeclare m) s = .next (t.loseMember m) ∧
    ∀ k ∈ s.reachable, k ≠ m → ∃ f ∈ t.fabric.sent, f.dst = k ∧ f.vn = 7 ∧ f.body = .dead m := by
  have hsends (t : State) (k : Nat) : Sends t (t.sendFlit k 7 0 [] (.dead m)) := .sendFlit t k 7 0 [] (.dead m)
  refine ⟨(s.reachable.filter (· != m)).foldl (fun t k => t.sendFlit k 7 0 [] (.dead m)) s, .foldl hsends _ s, ?_, ?_⟩
  · have hdead' : m ∉ s.fabric.dead := by simpa using hdead
    change execModuleDeadDeclare m s = _
    unfold execModuleDeadDeclare
    exact if_neg (by simp [Nat.not_le.mpr hm, hself, hdead', Nat.not_lt.mpr h])
  · intro k hk hne
    refine Sends.foldl_mem hsends (P := fun k f => f.dst = k ∧ f.vn = 7 ∧ f.body = .dead m) (fun t k _ => ?_) _ k
      (List.mem_filter.mpr ⟨hk, by simpa using hne⟩)
    obtain ⟨f, hf, hdst, hvn, -, hbody⟩ := sendFlit_mem t k 7 0 [] (.dead m)
    exact ⟨f, hf, hdst, hvn, hbody⟩

theorem moduleDeadDeclare_early (h : s.cycle < Cells.get s.fabric.silentFrom m + 172800) :
    exec (.moduleDeadDeclare m) s = .next s := by
  change execModuleDeadDeclare m s = _
  exact if_pos (.inr (.inr (.inr h)))

end

/-- Settles O50: by what each event does to the flits held and sent, to one link, and to the list of the dead. -/
theorem flitsAndLinks : Obligations.FlitsAndLinks := by
  unfold Obligations.FlitsAndLinks
  refine ⟨fun s => ⟨?_, ?_, ?_, ?_⟩, fun s => ⟨?_, ?_⟩⟩
  · intro port f hused htrained hup hlive hdst hsrc hdead hordered hheld key
    have htakes := flitReceive_takes hused htrained hup hlive hdst
    refine ⟨fun hseq => ?_, fun hseq => ?_, fun tag pvf pa o scp n x hseq hvn hbody hmay => ?_⟩
    · refine ⟨_, htakes, ?_, fun hstages howed => ?_⟩
      · rw [takeFlit_seen hsrc hdead hordered hseq]
        unfold State.discard
        dsimp only
        split
        · rfl
        · rfl
      · rw [takeFlit_seen hsrc hdead hordered hseq]
        simp [State.discard, hstages, howed, State.send]
    · refine ⟨_, htakes, ?_⟩
      rw [takeFlit_new hsrc hdead hordered hheld (Nat.le_of_lt hseq)]
      exact drainHeld_early hordered (Nat.ne_of_lt hseq)
    · obtain ⟨t, ht, hwrote, hread, hempty, hnext⟩ := takeHeld_store hvn hbody hmay
      refine ⟨t, htakes.trans (congrArg _ ?_), hwrote, hread, hempty, hnext hordered⟩
      exact (takeFlit_new hsrc hdead hordered hheld (Nat.le_of_eq hseq.symm)).trans (drainHeld_due hseq ht)
  · intro dst vn seq f tag pvf pa o scp n x a hf hbody ha hop
    exact ⟨_, flitAck_store hf hbody ha hop, rfl, rfl, rfl⟩
  · intro hdue
    obtain ⟨t, hsends, ht, hmem⟩ := livenessSend_due hdue
    refine ⟨_, ht, hsends.sameBytes, congrArg some (hsends.same State.cycle (fun _ _ _ _ => rfl)), fun m hm hself hdead => ?_⟩
    have hdead' : m ∉ s.fabric.dead := by simpa using hdead
    exact hmem m (List.mem_filter.mpr ⟨List.mem_range.mpr hm, by simp [hself, hdead']⟩)
  · exact fun a hat h => livenessSend_early hat h
  · intro p hused htrained l
    refine ⟨fun hup hdue => ?_, linkLivenessTimeout_early, fun hup => ?_, fun hdown hclean hlive => ?_, linkUp_unclean⟩
    · exact ⟨_, linkLivenessTimeout_due hused hup hdue, onLink_repath s s p _⟩
    · exact ⟨_, linkRetryExhausted_drops hused hup, onLink_repath s s p _⟩
    · exact ⟨_, linkUp_clean hused htrained hdown hclean hlive, onLink_repath s s p _⟩
  · intro m hm hself hdead hgroups hlost
    refine ⟨fun hdue => ?_, moduleDeadDeclare_early, ?_⟩
    · obtain ⟨t, hsends, ht, hmem⟩ := moduleDeadDeclare_due hm hself hdead hdue
      have hself' : m ≠ t.self := by rwa [hsends.same State.self (fun _ _ _ _ => rfl)]
      have hd : t.fabric.dead = s.fabric.dead := hsends.same (fun u => u.fabric.dead) (fun _ _ _ _ => rfl)
      have hg : t.fabric.groups = [] := (hsends.same (fun u => u.fabric.groups) (fun _ _ _ _ => rfl)).trans hgroups
      have hl (k : Nat) : t.lostAccess k m = none :=
        (hsends.same (fun u => u.lostAccess k m) (fun _ _ _ _ => rfl)).trans (hlost k)
      obtain ⟨hdead', hmsix, hctx, hsent⟩ := loseMember_alone hself' (by rw [hd, hdead]) hg hl
      refine ⟨_, ht, by rw [hdead', hd], hmsix, hctx.trans (hsends.same State.contexts (fun _ _ _ _ => rfl)), ?_, ?_⟩
      · intro f hf
        rw [hsent] at hf
        simpa using (List.mem_filter.mp hf).2
      · intro k hk hne
        obtain ⟨f, hf, hdst, hrest⟩ := hmem k hk hne
        exact ⟨f, hsent ▸ List.mem_filter.mpr ⟨hf, by simpa [hdst] using hne⟩, hdst, hrest⟩
    · obtain ⟨hdead', hmsix, hctx, hsent⟩ := loseMember_alone hself hdead hgroups hlost
      refine ⟨_, rfl, hdead', hmsix, hctx, fun f hf => ?_⟩
      rw [hsent] at hf
      simpa using (List.mem_filter.mp hf).2

end Sys2Proof.Machine
end

section
/-! PROOFS. The end of a rollback gives back the frames of the cuts before its target, zeroed (R399, R403, R405; O51). -/

namespace Sys2Proof.Machine

/-- The image of a cut of context 0 that holds one save frame. -/
def cutImage (n frame : Nat) : CtxImage :=
  { n, ctx := { vf := 0, num := 0, root := 0, fq := 0 }, teams := [], launches := [], clusters := [], frames := [frame],
    tails := [] }

/-- A group rolled back to checkpoint 2, whose image has frame 6; the image of checkpoint 1, the last committed one, still has
frame 5, whose first byte is 1 (R404, R405). -/
def rolledBackGroup : State := { State.reset with
  mem := [(20480, 1)]
  contexts := [(0, { vf := 0, num := 0, root := 0, fq := 0 })]
  fabric := { groups := [(1, { interval := 100, phys := [0, 1], members := 3, self := 0, buddy := 1, ctx := 0, port := 1,
                               jseq := 0, st := .rollback, n := 2, cutN := 2, committed := 1, target := 2,
                               images := [cutImage 1 5, cutImage 2 6] })] } }

/-- A byte of device memory after an event. -/
def byteAfter (i : Instr) (s : State) (a : Nat) : Option Byte :=
  match exec i s with
  | .next t => some (Cells.get t.mem a)
  | _ => none

theorem rolledBackGroup_zeroes : byteAfter (.rollbackRestore 1) rolledBackGroup 20480 = some 0 := by decide +kernel

/-- Refutes O51: it says that the end of a rollback leaves device memory as it was, but frame 5 of `rolledBackGroup` belongs to a
cut before the target, and goes back to its list zeroed. -/
theorem not_checkpointSteps : ¬ Obligations.CheckpointSteps := by
  unfold Obligations.CheckpointSteps
  rintro ⟨-, h⟩
  obtain ⟨-, -, -, -, hrestore, -⟩ := h rolledBackGroup 1 _ rfl
  obtain ⟨t, ht, -, -, -, hmem⟩ := hrestore rfl rfl rfl rfl rfl rfl rfl
  have hzero := rolledBackGroup_zeroes
  unfold byteAfter at hzero
  rw [ht] at hzero
  have hone : Cells.get t.mem 20480 = 1 := by rw [hmem]; rfl
  dsimp only at hzero
  rw [hone] at hzero
  exact absurd hzero (by decide)

end Sys2Proof.Machine
end

section
/-! PROOFS. A recorded request passes its order point (R285, R286; O41). -/

namespace Sys2Proof.Machine

section

variable {s : State} {id l win : Nat} {a : Access}

theorem orderPointPass_early (ha : s.accesses.find? (fun x => x.id == id) = some a) (hw : a.window = some win)
    (h : s.reaches (s.team a.team).launch win a = false) : exec (.orderPointPass id) s = .next s := by
  change execOrderPointPass id s = _
  unfold execOrderPointPass
  rw [ha]
  dsimp only
  rw [hw]
  dsimp only
  rw [h]
  exact if_pos (Bool.or_true _)

theorem orderPointPass_records (ha : s.accesses.find? (fun x => x.id == id) = some a) (hw : a.window = some win)
    (hrec : (s.launch (s.team a.team).launch).hdr.record = true) (hheld : s.heldAt (s.team a.team).launch win a = true)
    (hreach : s.reaches (s.team a.team).launch win a = true)
    (hmay : s.logMay (s.launch (s.team a.team).launch).ctx ((s.launch (s.team a.team).launch).hdr.log + 8) = true) :
    exec (.orderPointPass id) s = .next (s.recordPass (s.team a.team).launch win a) := by
  change execOrderPointPass id s = _
  unfold execOrderPointPass
  rw [ha]
  dsimp only
  rw [hw]
  dsimp only
  rw [hheld, hreach, hrec, hmay]
  rfl

/-- A gate at which another request of a warp has passed: its run holds `n` requests, `passed` have passed in all. -/
def Gate.count (warp n passed : Nat) (g : Gate) : Gate := { g with run := some (warp, n), passed }

/-- A request whose run stays open, and that no checkpoint follows, moves its gate alone (R286). -/
theorem recordPass_counts (hrun : (s.gate l win).run = none ∨
      ∃ n, (s.gate l win).run = some (s.warpGlobal a.team a.warp, n) ∧ n + 1 ≠ 65535)
    (hmark : ((s.gate l win).passed + 1) % 1024 ≠ 0) :
    s.recordPass l win a = ((s.onGate l win (Gate.count (s.warpGlobal a.team a.warp)
      (((s.gate l win).run.map (·.2)).getD 0 + 1) ((s.gate l win).passed + 1))).passAccess l win a).hashPass a := by
  unfold State.recordPass
  rcases hrun with hrun | ⟨n, hrun, hn⟩
  · simp only [hrun, hmark, Option.map_none, Option.getD_none, or_false, false_and, if_false]
    rfl
  · simp only [hrun, hmark, hn, if_true, Option.map_some, Option.getD_some, or_false, false_and, if_false]
    rfl

theorem gate_onGate (hl : (Cells.find? s.launches l).isSome = true) (f : Gate → Gate) :
    (s.onGate l win f).gate l win = f (s.gate l win) := by
  unfold State.gate State.onGate State.launch State.onLaunch
  dsimp only
  rw [Cells.get_adjust_listed _ _ _ hl]
  exact Cells.get_put_self _ _ _

/-- Joining the hash moves a warp at most. -/
theorem hashPass_moves (s : State) (a : Access) : ∃ teams, s.hashPass a = { s with teams } ∧ SameBytes (s.hashPass a) s := by
  unfold State.hashPass
  split
  · unfold State.settleHash
    split
    · exact ⟨s.teams, rfl, .refl s⟩
    · exact ⟨_, rfl, .onWarp _ _ _ _⟩
  · exact ⟨s.teams, rfl, .refl s⟩

theorem passAccess_mem (ha : s.accesses.find? (fun x => x.id == id) = some a) :
    ∃ b ∈ (s.passAccess l win a).accesses, b.id = id ∧ b.passed = true ∧ b.op = a.op := by
  have hid : a.id = id := by simpa using List.find?_some ha
  refine ⟨_, List.mem_map_of_mem (List.mem_of_find?_eq_some ha), ?_⟩
  rw [if_pos rfl]
  exact ⟨hid, rfl, rfl⟩

theorem recordPass_spec (ha : s.accesses.find? (fun x => x.id == id) = some a)
    (hl : (Cells.find? s.launches l).isSome = true) (hrun : (s.gate l win).run = none ∨
      ∃ n, (s.gate l win).run = some (s.warpGlobal a.team a.warp, n) ∧ n + 1 ≠ 65535)
    (hmark : ((s.gate l win).passed + 1) % 1024 ≠ 0) :
    SameBytes (s.recordPass l win a) s ∧
    (∃ b ∈ (s.recordPass l win a).accesses, b.id = id ∧ b.passed = true ∧ b.op = a.op) ∧
    ((s.recordPass l win a).gate l win).passed = (s.gate l win).passed + 1 ∧
    ((s.recordPass l win a).gate l win).run =
      some (s.warpGlobal a.team a.warp, ((s.gate l win).run.map (·.2)).getD 0 + 1) := by
  rw [recordPass_counts hrun hmark]
  generalize hf : Gate.count _ _ _ = f
  have hgate := gate_onGate (win := win) hl f
  obtain ⟨teams, heq, hbytes⟩ := hashPass_moves ((s.onGate l win f).passAccess l win a) a
  refine ⟨hbytes, ?_, ?_⟩
  · rw [heq]
    exact passAccess_mem (s := s.onGate l win f) ha
  · rw [heq]
    have hg : ({ (s.onGate l win f).passAccess l win a with teams } : State).gate l win = f (s.gate l win) := hgate
    rw [hg, ← hf]
    exact ⟨rfl, rfl⟩

end

end Sys2Proof.Machine
end

section
/-! PROOFS. A commit point at which every warp rests: each of its moves finds nothing to do (R280; O41). -/

namespace Sys2Proof.Machine

/-! ## States alike -/

/-- A team without its warps. -/
def Team.unwarped (t : Team) : Team := { t with warps := [] }

/-- What a team's number stands for: the team without its warps, and what each warp's number stands for. -/
def teamView (teams : Cells Team) (k : Nat) : Option (Team × (Nat → Option Warp)) :=
  (Cells.find? teams k).map (fun t => (t.unwarped, fun w => Cells.find? t.warps w))

/-- Teams, warps and launches are listed otherwise at most, and launches differ in the state of their commit point. -/
structure Alike (s t : State) : Prop where
  rest : ∃ teams launches, t = { s with teams, launches }
  view : ∀ k, teamView t.teams k = teamView s.teams k
  keys : ∀ p ∈ t.teams, ∃ q ∈ s.teams, q.1 = p.1 ∧ q.2.launch = p.2.launch
  launch : ∀ j, (Cells.find? t.launches j).map (fun x => { x with commit := none }) =
    (Cells.find? s.launches j).map (fun x => { x with commit := none })

theorem Alike.refl (s : State) : Alike s s := ⟨⟨s.teams, s.launches, rfl⟩, fun _ => rfl, fun p hp => ⟨p, hp, rfl, rfl⟩, fun _ => rfl⟩

theorem Alike.trans {s t u : State} (h : Alike s t) (g : Alike t u) : Alike s u := by
  refine ⟨?_, fun k => (g.view k).trans (h.view k), fun p hp => ?_, fun j => (g.launch j).trans (h.launch j)⟩
  · obtain ⟨_, _, rfl⟩ := h.rest
    obtain ⟨T, L, rfl⟩ := g.rest
    exact ⟨T, L, rfl⟩
  · obtain ⟨q, hq, hkey, hlaunch⟩ := g.keys p hp
    obtain ⟨r, hr, hkey', hlaunch'⟩ := h.keys q hq
    exact ⟨r, hr, hkey'.trans hkey, hlaunch'.trans hlaunch⟩

section

variable {s t : State} {k w : Nat}

theorem Alike.isSome (h : Alike s t) (k : Nat) : (Cells.find? t.teams k).isSome = (Cells.find? s.teams k).isSome := by
  have := congrArg Option.isSome (h.view k)
  rwa [teamView, teamView, Option.isSome_map, Option.isSome_map] at this

theorem teamView_get {T U : Cells Team} (h : teamView T k = teamView U k) :
    (Cells.get T k : Team).unwarped = (Cells.get U k : Team).unwarped ∧
    ∀ w, Cells.find? (Cells.get T k : Team).warps w = Cells.find? (Cells.get U k : Team).warps w := by
  unfold teamView at h
  rw [Cells.get_eq_find?, Cells.get_eq_find?]
  cases hT : Cells.find? T k with
  | none =>
    cases hU : Cells.find? U k with
    | none => exact ⟨rfl, fun _ => rfl⟩
    | some u => rw [hT, hU] at h; exact nomatch h
  | some t =>
    cases hU : Cells.find? U k with
    | none => rw [hT, hU] at h; exact nomatch h
    | some u =>
      rw [hT, hU] at h
      obtain ⟨hbare, hwarps⟩ := Prod.mk.inj (Option.some.inj h)
      exact ⟨hbare, fun w => congrFun hwarps w⟩

theorem Alike.unwarped (h : Alike s t) (k : Nat) : (t.team k).unwarped = (s.team k).unwarped :=
  (teamView_get (h.view k)).1

theorem Alike.find?_warp (h : Alike s t) (k w : Nat) :
    Cells.find? (t.team k).warps w = Cells.find? (s.team k).warps w := (teamView_get (h.view k)).2 w

theorem Alike.warp (h : Alike s t) (k w : Nat) : t.warp k w = s.warp k w := by
  unfold State.warp
  rw [Cells.get_eq_find?, Cells.get_eq_find?, h.find?_warp]

theorem Alike.team_launch (h : Alike s t) (k : Nat) : (t.team k).launch = (s.team k).launch := by
  change (t.team k).unwarped.launch = (s.team k).unwarped.launch
  rw [h.unwarped]

theorem Alike.sameBytes (h : Alike s t) : SameBytes t s := by
  have hscratch (j : Nat) : (t.team j).scratch = (s.team j).scratch := by
    change (t.team j).unwarped.scratch = (s.team j).unwarped.scratch
    rw [h.unwarped]
  obtain ⟨T, L, heq⟩ := h.rest
  exact ⟨fun _ => by rw [heq], fun _ => by rw [heq], fun j p => by rw [hscratch]⟩

/-- What looks at no team and no launch reads as before. -/
theorem Alike.same {α : Type} (h : Alike s t) (f : State → α)
    (hf : ∀ (s : State) teams launches, f { s with teams, launches } = f s) : f t = f s := by
  obtain ⟨T, L, rfl⟩ := h.rest
  exact hf s T L

theorem State.warpHere_iff (s : State) (k w : Nat) : s.warpHere k w = true ↔
    (Cells.find? s.teams k).isSome = true ∧ (Cells.find? (s.team k).warps w).isSome = true := by
  simp [State.warpHere]

/-- A warp is written back as it stands. -/
theorem Alike.onWarp (hhere : s.warpHere k w = true) {f : Warp → Warp} (hf : f (s.warp k w) = s.warp k w) :
    Alike s (s.onWarp k w f) := by
  obtain ⟨hteam, hwarp⟩ := (s.warpHere_iff k w).mp hhere
  obtain ⟨t, ht⟩ := Option.isSome_iff_exists.mp hteam
  have hget : s.team k = t := Cells.get_of_find? ht
  obtain ⟨v, hv⟩ := Option.isSome_iff_exists.mp hwarp
  have hw : s.warp k w = v := Cells.get_of_find? hv
  refine ⟨⟨_, s.launches, rfl⟩, fun j => ?_, fun p hp => ?_, fun _ => rfl⟩
  · unfold State.onWarp State.setWarp State.setTeam teamView
    dsimp only
    rw [hf, Cells.find?_put]
    split
    · next hj =>
      subst hj
      rw [ht, hget]
      refine congrArg some (Prod.ext rfl (funext fun w' => ?_))
      dsimp only
      rw [Cells.find?_put]
      split
      · next hw' => subst hw'; rw [hw, ← hget, hv]
      · rfl
    · rfl
  · rcases Cells.mem_put hp with rfl | hp
    · exact ⟨(k, t), Cells.mem_of_find? ht, rfl, by rw [← hget]⟩
    · exact ⟨p, hp, rfl, rfl⟩

theorem Alike.onLaunch (s : State) (l : Nat) {f : Launch → Launch}
    (hf : ∀ x, ({ f x with commit := none } : Launch) = { x with commit := none }) : Alike s (s.onLaunch l f) := by
  refine ⟨⟨s.teams, _, rfl⟩, fun _ => rfl, fun p hp => ⟨p, hp, rfl, rfl⟩, fun j => ?_⟩
  refine (congrArg (Option.map _) (Cells.find?_adjust s.launches l j f)).trans ?_
  split
  · rw [Option.map_map]
    exact congrArg (fun g => Option.map g _) (funext hf)
  · rfl

end

/-! ## A launch whose warps rest -/

/-- Is a warp of a launch placed? -/
def State.holdsWarp (s : State) (l k w : Nat) : Prop := s.warpHere k w = true ∧ (s.team k).launch = l

/-- Every warp of a launch rests at a clock, nothing of it is on its way, at a barrier or in a bin, and no event waits. -/
structure AtRest (s : State) (l clock : Nat) : Prop where
  deferred : s.deferred = []
  clusters : s.clusters = []
  bins : ∀ c n, (Cells.get (s.core c).bins n : Bin).recs = []
  listed : ∀ p ∈ s.teams, p.2.launch = l → (s.team p.1).launch = l
  bars : ∀ k, (s.team k).launch = l → (Cells.find? s.teams k).isSome = true → (s.team k).bars = []
  crewed : ∀ k, (s.team k).launch = l → (Cells.find? s.teams k).isSome = true → ∃ w, s.warpHere k w = true
  rests : ∀ k w, s.holdsWarp l k w → (s.warp k w).restsAt clock = true
  alone : ∀ a ∈ s.accesses, ∀ w, ¬ s.holdsWarp l a.team w
  closed : s.commitOpen l = false

section

variable {s t : State} {l clock k w : Nat}

theorem Alike.warpHere (h : Alike s t) (k w : Nat) : t.warpHere k w = s.warpHere k w := by
  unfold State.warpHere
  rw [h.isSome, h.find?_warp]

theorem Alike.holdsWarp (h : Alike s t) : t.holdsWarp l k w ↔ s.holdsWarp l k w := by
  unfold State.holdsWarp
  rw [h.warpHere, h.team_launch]

theorem Alike.commitOpen (h : Alike s t) (l : Nat) : t.commitOpen l = s.commitOpen l := by
  have hmine (k : Nat) : ((Cells.find? t.teams k).isSome && (t.team k).launch == l) =
      ((Cells.find? s.teams k).isSome && (s.team k).launch == l) := by rw [h.isSome, h.team_launch]
  unfold State.commitOpen
  simp only [hmine, h.same State.accesses (fun _ _ _ => rfl), h.same State.cores (fun _ _ _ => rfl)]

theorem AtRest.alike (hs : AtRest s l clock) (h : Alike s t) : AtRest t l clock where
  deferred := (h.same State.deferred (fun _ _ _ => rfl)).trans hs.deferred
  clusters := (h.same State.clusters (fun _ _ _ => rfl)).trans hs.clusters
  bins c n := (h.same (fun u => (Cells.get (u.core c).bins n : Bin).recs) (fun _ _ _ => rfl)).trans (hs.bins c n)
  listed p hp hl := by
    obtain ⟨q, hq, hkey, hlaunch⟩ := h.keys p hp
    rw [h.team_launch, ← hkey]
    exact hs.listed q hq (hlaunch.trans hl)
  bars k hl hk := by
    change (t.team k).unwarped.bars = []
    rw [h.unwarped]
    exact hs.bars k (h.team_launch k ▸ hl) (h.isSome k ▸ hk)
  crewed k hl hk := by
    obtain ⟨w, hw⟩ := hs.crewed k (h.team_launch k ▸ hl) (h.isSome k ▸ hk)
    exact ⟨w, (h.warpHere k w).trans hw⟩
  rests k w hw := by rw [h.warp]; exact hs.rests k w (h.holdsWarp.mp hw)
  alone a ha w hw := hs.alone a (h.same State.accesses (fun _ _ _ => rfl) ▸ ha) w (h.holdsWarp.mp hw)
  closed := (h.commitOpen l).trans hs.closed

/-! ## What a resting warp is -/

/-- What R280 asks of a warp that rests. -/
theorem Warp.restsAt_iff {v : Warp} : v.restsAt clock = true ↔ v.atEnd clock = true ∧ v.cbuf = [] ∧ v.sync = none ∧
    v.results = [] ∧ v.exited ≠ 0xFFFFFFFF#32 ∧ ∀ x ∈ v.allStrands, x.2.2.st = .ready := by
  simp [Warp.restsAt, and_assoc]

/-- A change that leaves Ready strands as they are leaves a resting warp as it is. -/
theorem Warp.mapStrands_ready {v : Warp} (hv : ∀ x ∈ v.allStrands, x.2.2.st = .ready) {f : Nat → Strand → Strand}
    (hf : ∀ j x, x.st = .ready → f j x = x) : v.mapStrands f = v := by
  unfold Warp.mapStrands
  have hslices : v.slices.map (fun (k : Nat × Slice) => (k.1, { k.2 with strands := k.2.strands.map (fun y => (y.1, f k.1 y.2)) })) =
      v.slices := by
    refine (List.map_congr_left (g := id) (fun k hk => ?_)).trans (List.map_id _)
    have hstrands : k.2.strands.map (fun y => (y.1, f k.1 y.2)) = k.2.strands := by
      refine (List.map_congr_left (g := id) (fun y hy => ?_)).trans (List.map_id _)
      exact congrArg (Prod.mk y.1) (hf k.1 y.2 (hv (k.1, y.1, y.2)
        (List.mem_flatMap.mpr ⟨k, hk, List.mem_map_of_mem (f := fun y : Nat × Strand => (k.1, y.1, y.2)) hy⟩)))
    rw [hstrands]
    rfl
  rw [hslices]

/-- No strand of a resting warp stands at a barrier. -/
theorem Warp.arrives_ready {v : Warp} (hv : ∀ x ∈ v.allStrands, x.2.2.st = .ready) (cluster : Bool) (id : Nat) :
    v.arrives cluster id = none := by
  have hnone : v.allStrands.filter (fun x => (x.2.2.atMeet cluster id).isSome) = [] := by
    refine List.filter_eq_nil_iff.mpr (fun x hx => ?_)
    simp [Strand.atMeet, hv x hx]
  unfold Warp.arrives
  dsimp only
  rw [hnone]
  simp

theorem AtRest.strands (hs : AtRest s l clock) (h : s.holdsWarp l k w) : ∀ x ∈ (s.warp k w).allStrands, x.2.2.st = .ready :=
  (Warp.restsAt_iff.mp (hs.rests k w h)).2.2.2.2.2

/-! ## Nothing settles -/

/-- A warp that is listed is here. -/
theorem AtRest.holds_of_key (hl : (s.team k).launch = l) (hk : (Cells.find? s.teams k).isSome = true)
    (hw : w ∈ Cells.keys (s.team k).warps) : s.holdsWarp l k w := by
  obtain ⟨p, hp, rfl⟩ := List.mem_map.mp hw
  obtain ⟨v, hv⟩ := Cells.find?_of_mem hp
  exact ⟨(s.warpHere_iff k p.1).mpr ⟨hk, by rw [hv]; rfl⟩, hl⟩

theorem AtRest.settleBars (hs : AtRest s l clock) (hl : (s.team k).launch = l) (hk : (Cells.find? s.teams k).isSome = true) :
    s.settleBars k = s := by
  have hbars := hs.bars k hl hk
  have hadvance (id : Nat) : s.advanceBar k id ((Cells.get (s.team k).bars id).later.length + 1) = s := by
    rw [hbars]
    unfold State.advanceBar
    dsimp only
    rw [hbars]
    exact if_neg (by rw [show (Cells.get ([] : Cells Bar) id).complete _ = false from rfl]; decide)
  unfold State.settleBars
  refine List.foldlRecOn _ _ (motive := (· = s)) rfl (fun u hu id _ => ?_)
  subst hu
  have hcount : (Cells.keys (u.team k).warps).foldl (fun (s : State) w =>
      match (s.warp k w).arrives false id with
      | none => s
      | some count =>
        let r := (Cells.get (s.team k).bars id).arrive w count (s.arrivalIds k w .team)
        ((s.onTeam k (fun t => { t with bars := Cells.set t.bars id (r.1.learn k (s.warp k w).table r.2) })).onWarp k w
          (fun v => v.counted false id r.2)).advanceBar k id (r.1.later.length + 1)) u = u := by
    refine List.foldlRecOn _ _ (motive := (· = u)) rfl (fun v hv w hw => ?_)
    subst hv
    rw [Warp.arrives_ready (hs.strands (AtRest.holds_of_key hl hk hw))]
  exact (congrArg (fun u : State => u.advanceBar k id ((Cells.get (u.team k).bars id).later.length + 1)) hcount).trans
    (hadvance id)

/-- A team of the launch that is listed. -/
theorem AtRest.listed_team (hs : AtRest s l clock) {p : Nat × Team} (hp : p ∈ s.teams) (hl : p.2.launch = l) :
    (s.team p.1).launch = l ∧ (Cells.find? s.teams p.1).isSome = true := by
  obtain ⟨v, hv⟩ := Cells.find?_of_mem hp
  exact ⟨hs.listed p hp hl, by rw [hv]; rfl⟩

/-- A team whose warps rest has not arrived at a cluster barrier. -/
theorem AtRest.teamArrives (hs : AtRest s l clock) (hl : (s.team k).launch = l) (hk : (Cells.find? s.teams k).isSome = true)
    (id : Nat) : s.teamArrives k id = none := by
  unfold State.teamArrives
  dsimp only
  cases hw : (s.team k).warps with
  | nil => rfl
  | cons p rest =>
    have hkey : p.1 ∈ Cells.keys (s.team k).warps := by rw [hw]; exact List.mem_cons_self
    have hget : s.warp k p.1 = p.2 := by
      unfold State.warp
      rw [hw]
      exact Cells.get_of_find? (if_pos rfl)
    have hrest := Warp.arrives_ready (hs.strands (AtRest.holds_of_key hl hk hkey)) true id
    rw [hget] at hrest
    rw [List.map_cons, hrest]

theorem AtRest.settleClusterBars (hs : AtRest s l clock) (index : Nat) : s.settleClusterBars l index = s := by
  unfold State.settleClusterBars
  refine List.foldlRecOn _ _ (motive := (· = s)) rfl (fun u hu id _ => ?_)
  subst hu
  have hcount : (u.clusterTeams l index).foldl (fun (s : State) k =>
      match s.teamArrives k id with
      | none => s
      | some count =>
        let ids := (Cells.keys (s.team k).warps).flatMap (fun w => s.arrivalIds k w .clus)
        let r := (s.clusterBar l index id).arrive k count ids
        let table := (s.team k).warps.foldl (fun n (w : Nat × Warp) => max n w.2.table) 0
        ((s.setClusterBar l index id (r.1.learn k table r.2)).onWarps [k] (fun w => w.counted true id r.2)).advanceClusterBar l
          index id (r.1.later.length + 1)) u = u := by
    refine List.foldlRecOn _ _ (motive := (· = u)) rfl (fun v hv k hk => ?_)
    subst hv
    obtain ⟨p, hp, rfl⟩ := List.mem_map.mp hk
    obtain ⟨hp, hl⟩ := List.mem_filter.mp hp
    rw [Bool.and_eq_true, beq_iff_eq] at hl
    obtain ⟨hlaunch, hlisted⟩ := hs.listed_team hp hl.1
    rw [hs.teamArrives hlaunch hlisted]
  have hbar : u.clusterBar l index id = {} := by rw [State.clusterBar, hs.clusters]; rfl
  refine (congrArg (fun u : State => u.advanceClusterBar l index id ((u.clusterBar l index id).later.length + 1)) hcount).trans ?_
  unfold State.advanceClusterBar
  dsimp only
  rw [hbar]
  exact if_neg (by rw [show Bar.complete {} _ = false from rfl]; decide)

theorem AtRest.settleEvents (hs : AtRest s l clock) : s.settleEvents = s := by
  rw [State.settleEvents_nil hs.deferred, ← hs.deferred]

/-! ## The moves -/

theorem AtRest.commitFinish (hs : AtRest s l clock) (h : s.holdsWarp l k w) : s.commitFinish k w = s := by
  obtain ⟨hhere, hl⟩ := h
  obtain ⟨hk, -⟩ := (s.warpHere_iff k w).mp hhere
  obtain ⟨-, -, -, -, hexited, -⟩ := Warp.restsAt_iff.mp (hs.rests k w ⟨hhere, hl⟩)
  unfold State.commitFinish
  dsimp only
  rw [hs.settleEvents, hs.settleBars hl hk, hl, hs.settleClusterBars]
  exact if_neg (fun h => hexited h.1)

theorem AtRest.commitBars (hs : AtRest s l clock) : s.commitBars l = s := by
  unfold State.commitBars
  refine List.foldlRecOn _ _ (motive := (· = s)) rfl (fun u hu t ht => ?_)
  subst hu
  obtain ⟨p, hp, rfl⟩ := List.mem_map.mp ht
  obtain ⟨hp, hl⟩ := List.mem_filter.mp hp
  obtain ⟨hlaunch, hlisted⟩ := hs.listed_team hp (beq_iff_eq.mp hl)
  dsimp only
  rw [hs.settleBars hlaunch hlisted, hs.settleClusterBars]

theorem AtRest.commitSync (hs : AtRest s l clock) (h : s.holdsWarp l k w) :
    ∃ t, s.commitSync k w = (t, []) ∧ Alike s t := by
  obtain ⟨-, -, hsync, -, -, hready⟩ := Warp.restsAt_iff.mp (hs.rests k w h)
  refine ⟨s.onWarp k w Warp.uncommit, ?_, .onWarp h.1 (Warp.mapStrands_ready hready (fun _ x hx => ?_))⟩
  · unfold State.commitSync
    rw [hsync]
  · rw [hx]; rfl

theorem AtRest.performWarp (hs : AtRest s l clock) (h : s.holdsWarp l k w) : s.performWarp k w = (s, true) := by
  have hnone : s.accesses.filter (fun a => a.team == k && a.warp == w) = [] := by
    refine List.filter_eq_nil_iff.mpr (fun a ha hmine => ?_)
    rw [Bool.and_eq_true, beq_iff_eq] at hmine
    exact hs.alone a ha w (hmine.1 ▸ h)
  unfold State.performWarp
  rw [hnone]
  rfl

theorem State.settleSpawn_ready (hready : ∀ x ∈ (s.warp k w).allStrands, x.2.2.st = .ready) : s.settleSpawn k w = s := by
  have hst (j e : Nat) : (((s.warp k w).slice j).strand e).st = .ready := by
    rcases Cells.get_mem (s.warp k w).slices j with hj | hj
    · rcases Cells.get_mem ((s.warp k w).slice j).strands e with he | he
      · exact hready (j, e, _) (List.mem_flatMap.mpr ⟨_, hj, List.mem_map_of_mem (f := fun y : Nat × Strand => (j, y.1, y.2)) he⟩)
      · rw [Slice.strand, he]; rfl
    · rw [Warp.slice, hj]; rfl
  unfold State.settleSpawn
  refine List.foldlRecOn _ _ (motive := (· = s)) rfl (fun u hu x _ => ?_)
  subst hu
  rw [hst]

theorem AtRest.commitWaits (hs : AtRest s l clock) (h : s.holdsWarp l k w) : Alike s (s.commitWaits k w) := by
  obtain ⟨-, -, -, hresults, -, hready⟩ := Warp.restsAt_iff.mp (hs.rests k w h)
  have hmoved : Alike s (s.onWarp k w (fun wp => wp.mapStrands (fun _ x => s.freedWait k w x))) :=
    .onWarp h.1 (Warp.mapStrands_ready hready (fun _ x hx => by rw [State.freedWait, hx]))
  have hwarp := hmoved.warp k w
  unfold State.commitWaits
  dsimp only
  generalize s.onWarp k w _ = t at hmoved hwarp
  rw [hwarp, hresults]
  simp only [List.any_nil, Bool.false_eq_true, if_false, hmoved.warpHere, h.1, if_true]
  rw [State.settleSpawn_ready (by rw [hwarp]; exact hready)]
  exact hmoved

/-- The moves of a commit point, each of a warp of the launch or of its barriers. -/
def CommitStep.isOf (s : State) (l : Nat) : CommitStep → Prop
  | .buffer k w | .sync k w | .finish k w | .send k w | .waits k w => s.holdsWarp l k w
  | .bars => True
  | .drain _ _ => False

/-- A synchronising instruction that is not there leaves a move of its own. -/
def CommitStep.weight : CommitStep → Nat
  | .sync _ _ => 2
  | .buffer _ _ | .finish _ _ | .send _ _ | .waits _ _ | .bars | .drain _ _ => 1

theorem CommitStep.isOf_alike (h : Alike s t) {m : CommitStep} (hm : m.isOf s l) : m.isOf t l := by
  cases m with
  | buffer k w | sync k w | finish k w | send k w | waits k w => exact h.holdsWarp.mpr hm
  | bars => trivial
  | drain _ _ => exact hm

/-- Each move leaves the state as it was, and at most one lighter move in its place. -/
theorem AtRest.commitMove (hs : AtRest s l clock) {m : CommitStep} (hm : m.isOf s l) :
    ∃ t more, s.commitMove l m = (t, more, true) ∧ Alike s t ∧ (∀ x ∈ more, x.isOf s l) ∧
      (more.map CommitStep.weight).sum < m.weight := by
  cases m with
  | buffer k w =>
    obtain ⟨-, hcbuf, -⟩ := Warp.restsAt_iff.mp (hs.rests k w hm)
    refine ⟨s, [], ?_, .refl s, fun _ h => absurd h List.not_mem_nil, Nat.zero_lt_one⟩
    simp only [State.commitMove, hm.1, hcbuf]
    rfl
  | sync k w =>
    obtain ⟨t, ht, halike⟩ := hs.commitSync hm
    refine ⟨t, [.send k w], ?_, halike, fun x hx => ?_, Nat.lt_succ_self 1⟩
    · simp only [State.commitMove, hm.1, ht]
      rfl
    · rw [List.mem_singleton.mp hx]; exact hm
  | finish k w =>
    refine ⟨s, [], ?_, .refl s, fun _ h => absurd h List.not_mem_nil, Nat.zero_lt_one⟩
    simp only [State.commitMove, hm.1, hs.commitFinish hm, if_true]
  | send k w =>
    refine ⟨s, [], ?_, .refl s, fun _ h => absurd h List.not_mem_nil, Nat.zero_lt_one⟩
    simp only [State.commitMove, hm.1, hs.performWarp hm]
    rfl
  | waits k w =>
    refine ⟨_, [], ?_, hs.commitWaits hm, fun _ h => absurd h List.not_mem_nil, Nat.zero_lt_one⟩
    simp only [State.commitMove, hm.1, if_true]
  | bars =>
    refine ⟨s, [], ?_, .refl s, fun _ h => absurd h List.not_mem_nil, Nat.zero_lt_one⟩
    simp only [State.commitMove, hs.commitBars]
  | drain _ _ => exact hm.elim

/-- A launch whose commit point stands at some moves. -/
def Launch.standing (c : Commit) (x : Launch) : Launch := { x with commit := some c }

theorem State.find?_onLaunch (s : State) (l : Nat) (f : Launch → Launch) :
    Cells.find? (s.onLaunch l f).launches l = (Cells.find? s.launches l).map f :=
  (Cells.find?_adjust s.launches l l f).trans (if_pos rfl)

theorem State.launch_onLaunch (hl : (Cells.find? s.launches l).isSome = true) (f : Launch → Launch) :
    (s.onLaunch l f).launch l = f (s.launch l) := Cells.get_adjust_listed _ _ _ hl

/-- A commit point of resting warps runs to its end. -/
theorem AtRest.commitRun (n : Nat) {s : State} (hs : AtRest s l clock) {c : Commit} (hl : (Cells.find? s.launches l).isSome = true)
    (hc : (s.launch l).commit = some c) (hmoves : ∀ m ∈ c.todo, m.isOf s l) (hn : (c.todo.map CommitStep.weight).sum < n) :
    ∃ t, Alike s t ∧ s.commitRun l n = t.commitEnd l { c with todo := [] } := by
  induction n generalizing s c with
  | zero => exact absurd hn (Nat.not_lt_zero _)
  | succ n ih =>
    unfold State.commitRun
    rw [hc]
    dsimp only
    cases htodo : c.todo with
    | nil =>
      obtain ⟨todo, taken, parked⟩ := c
      subst htodo
      exact ⟨s, .refl s, rfl⟩
    | cons m rest =>
      rw [htodo] at hmoves hn
      obtain ⟨hm, hrest⟩ := List.forall_mem_cons.mp hmoves
      obtain ⟨t, more, hmove, halike, hmore, hweight⟩ := hs.commitMove hm
      dsimp only
      rw [if_neg (by rw [hs.closed]; decide), hmove]
      dsimp only
      rw [if_pos rfl]
      have hu : Alike t (t.onLaunch l (Launch.standing { c with todo := more ++ rest })) :=
        .onLaunch t l (fun _ => rfl)
      have hall := halike.trans hu
      have hlisted : (Cells.find? t.launches l).isSome = true := by
        have := congrArg Option.isSome (halike.launch l)
        rw [Option.isSome_map, Option.isSome_map] at this
        exact this.trans hl
      obtain ⟨v, hv, hend⟩ := ih (c := { c with todo := more ++ rest }) (hs.alike hall)
        (by rw [State.find?_onLaunch, Option.isSome_map, hlisted])
        (congrArg Launch.commit (State.launch_onLaunch hlisted _))
        (fun x hx => CommitStep.isOf_alike hall ((List.mem_append.mp hx).elim (hmore x) (hrest x)))
        (by
          simp only [List.map_append, List.sum_append, List.map_cons, List.sum_cons] at hn ⊢
          omega)
      exact ⟨v, hall.trans hv, hend⟩

end

/-! ## The end of a commit point -/

/-- A warp that waits at a quantum's end goes on. -/
def Warp.goesOn (v : Warp) : Warp := { v with atQuantum := false }

/-- A warp taken by a commit point goes on, if it is still here. -/
def State.resumeWarp (s : State) (x : Nat × Nat) : State :=
  if s.warpHere x.1 x.2 then s.onWarp x.1 x.2 Warp.goesOn else s

/-- Warps changed, but none came or went. -/
structure SameCrew (s t : State) : Prop where
  rest : ∃ teams, t = { s with teams }
  here : ∀ k w, t.warpHere k w = s.warpHere k w
  isSome : ∀ k, (Cells.find? t.teams k).isSome = (Cells.find? s.teams k).isSome
  launch : ∀ k, (t.team k).launch = (s.team k).launch

theorem SameCrew.refl (s : State) : SameCrew s s := ⟨⟨s.teams, rfl⟩, fun _ _ => rfl, fun _ => rfl, fun _ => rfl⟩

theorem SameCrew.trans {s t u : State} (h : SameCrew s t) (g : SameCrew t u) : SameCrew s u := by
  refine ⟨?_, fun k w => (g.here k w).trans (h.here k w), fun k => (g.isSome k).trans (h.isSome k),
    fun k => (g.launch k).trans (h.launch k)⟩
  obtain ⟨_, rfl⟩ := h.rest
  obtain ⟨T, rfl⟩ := g.rest
  exact ⟨T, rfl⟩

theorem SameCrew.onWarp {s : State} {k w : Nat} (hhere : s.warpHere k w = true) (f : Warp → Warp) :
    SameCrew s (s.onWarp k w f) := by
  obtain ⟨hteam, hwarp⟩ := (s.warpHere_iff k w).mp hhere
  have hget (j : Nat) : (s.onWarp k w f).team j =
      if k = j then { s.team k with warps := Cells.put (s.team k).warps w (f (s.warp k w)) } else s.team j :=
    Cells.get_put _ _ _ _
  have hisSome (j : Nat) : (Cells.find? (s.onWarp k w f).teams j).isSome = (Cells.find? s.teams j).isSome := by
    refine (congrArg Option.isSome (Cells.find?_put s.teams k j _)).trans ?_
    split
    · next hj => rw [← hj, hteam]; rfl
    · rfl
  refine ⟨⟨_, rfl⟩, fun j v => ?_, hisSome, fun j => ?_⟩
  · unfold State.warpHere
    rw [hisSome, hget]
    split
    · next hj =>
      subst hj
      dsimp only
      rw [Cells.find?_put]
      split
      · next hv => rw [← hv, hwarp]; rfl
      · rfl
    · rfl
  · rw [hget]
    split
    · next hj => rw [← hj]
    · rfl

theorem SameCrew.resumeWarp (s : State) (x : Nat × Nat) : SameCrew s (s.resumeWarp x) := by
  unfold State.resumeWarp
  split
  · next h => exact .onWarp h _
  · exact .refl s

theorem SameCrew.foldl (xs : List (Nat × Nat)) (s : State) : SameCrew s (xs.foldl State.resumeWarp s) :=
  List.foldlRecOn xs _ (motive := SameCrew s) (.refl s) (fun _ h x _ => h.trans (.resumeWarp _ x))

section

variable {s : State} {l clock k w : Nat}

theorem State.warp_onWarp_other (s : State) {k w j v : Nat} (h : (k, w) ≠ (j, v)) (f : Warp → Warp) :
    (s.onWarp k w f).warp j v = s.warp j v := by
  have hget : (s.onWarp k w f).team j =
      if k = j then { s.team k with warps := Cells.put (s.team k).warps w (f (s.warp k w)) } else s.team j :=
    Cells.get_put _ _ _ _
  unfold State.warp at hget ⊢
  rw [hget]
  split
  · next hj =>
    subst hj
    exact Cells.get_put_ne _ _ (fun hw => h (by rw [hw]))
  · rfl

/-- Each warp taken goes on, and no other changes. -/
theorem foldl_resumeWarp (xs : List (Nat × Nat)) : ∀ {s : State}, (∀ x ∈ xs, s.warpHere x.1 x.2 = true) → ∀ k w,
    (xs.foldl State.resumeWarp s).warp k w = if (k, w) ∈ xs then (s.warp k w).goesOn else s.warp k w := by
  induction xs with
  | nil => exact fun _ _ _ => rfl
  | cons x xs ih =>
    intro s hhere k w
    obtain ⟨hx, hxs⟩ := List.forall_mem_cons.mp hhere
    have hone : s.resumeWarp x = s.onWarp x.1 x.2 Warp.goesOn := if_pos hx
    rw [List.foldl_cons, ih (fun y hy => ((SameCrew.resumeWarp s x).here y.1 y.2).trans (hxs y hy)), hone]
    by_cases hkw : x = (k, w)
    · subst hkw
      rw [State.warp_onWarp, if_pos List.mem_cons_self]
      exact ite_self _
    · rw [State.warp_onWarp_other s hkw]
      simp [List.mem_cons, Ne.symm hkw]

theorem sameBytes_resumeWarp (xs : List (Nat × Nat)) (s : State) : SameBytes (xs.foldl State.resumeWarp s) s := by
  refine .foldl (fun t x => ?_) xs s
  unfold State.resumeWarp
  split
  · exact .onWarp _ _ _ _
  · exact .refl t

/-- No bin starts a warp where all are empty. -/
theorem commitBins_empty (h : ∀ c n, (Cells.get (s.core c).bins n : Bin).recs = []) (l clock : Nat) : s.commitBins l clock = s := by
  unfold State.commitBins
  refine List.foldlRecOn _ _ (motive := (· = s)) rfl (fun u hu t _ => ?_)
  refine List.foldlRecOn _ _ (motive := (· = s)) hu (fun v hv n _ => ?_)
  subst hv
  refine if_neg (fun hb => ?_)
  rw [h] at hb
  exact absurd hb.2 (by decide)

theorem retireTeam_crewed (h : s.warpHere k w = true) : s.retireTeam k = s := by
  obtain ⟨hteam, hwarp⟩ := (s.warpHere_iff k w).mp h
  have hne : (s.team k).warps.isEmpty = false := by
    cases hw : (s.team k).warps with
    | nil => rw [hw] at hwarp; exact absurd hwarp Bool.false_ne_true
    | cons _ _ => rfl
  unfold State.retireTeam State.teamOver
  rw [hne]
  exact if_pos (by simp)

/-- The next quantum of a launch begins. -/
def Launch.nextQuantum (x : Launch) : Launch := { x with quantum := x.quantum + 1, commit := none }

/-- Teams of a launch retire that have nothing left. -/
def State.retireCrewless (s : State) (l : Nat) : State :=
  ((Cells.keys s.teams).filter (fun k => (s.team k).launch == l)).foldl State.retireTeam s

theorem AtRest.commitEnd (hs : AtRest s l clock) (xs : List (Nat × Nat)) :
    s.commitEnd l { todo := [], taken := xs, parked := [] } =
      (xs.foldl State.resumeWarp s).onLaunch l Launch.nextQuantum := by
  have hcrew := SameCrew.foldl xs s
  have hcores : (xs.foldl State.resumeWarp s).cores = s.cores := by
    obtain ⟨_, h⟩ := hcrew.rest
    rw [h]
  change (State.retireCrewless ((xs.foldl State.resumeWarp s).commitBins l (s.commitClock l)) l).onLaunch l
    Launch.nextQuantum = _
  generalize xs.foldl State.resumeWarp s = t at hcrew hcores
  rw [commitBins_empty (fun c n => by rw [State.core, hcores]; exact hs.bins c n)]
  refine congrArg (fun u : State => u.onLaunch l Launch.nextQuantum) ?_
  refine List.foldlRecOn _ _ (motive := (· = t)) rfl (fun u hu k hk => ?_)
  subst hu
  obtain ⟨hkey, hl⟩ := List.mem_filter.mp hk
  obtain ⟨p, hp, rfl⟩ := List.mem_map.mp hkey
  obtain ⟨v, hv⟩ := Cells.find?_of_mem hp
  have hlisted : (Cells.find? s.teams p.1).isSome = true := by rw [← hcrew.isSome, hv]; rfl
  obtain ⟨w, hw⟩ := hs.crewed p.1 ((hcrew.launch p.1).symm.trans (beq_iff_eq.mp hl)) hlisted
  exact retireTeam_crewed ((hcrew.here p.1 w).trans hw)

end

/-! ## The warps of a launch -/

section

variable {s : State} {l clock k w : Nat}

theorem Cells.find?_of_nodup {α : Type} {m : Cells α} (h : (Cells.keys m).Nodup) {p : Nat × α} (hp : p ∈ m) :
    Cells.find? m p.1 = some p.2 := by
  induction m with
  | nil => exact absurd hp List.not_mem_nil
  | cons c m ih =>
    obtain ⟨a, x⟩ := c
    obtain ⟨hnew, hrest⟩ := List.nodup_cons.mp h
    rcases List.mem_cons.mp hp with rfl | hp
    · exact if_pos rfl
    · have hne : a ≠ p.1 := fun hc => hnew (show a ∈ Cells.keys m by rw [hc]; exact List.mem_map_of_mem hp)
      exact (if_neg hne).trans (ih hrest hp)

theorem mem_insertOrdered {α : Type} (f : α → Bool) (x y : α) (xs : List α) :
    y ∈ xs.takeWhile f ++ x :: xs.dropWhile f ↔ y = x ∨ y ∈ xs := by
  conv_rhs => rw [← List.takeWhile_append_dropWhile (p := f) (l := xs)]
  simp only [List.mem_append, List.mem_cons]
  tauto

theorem mem_foldl_insert {α : Type} {f : List α → α → List α} (hf : ∀ xs x y, y ∈ f xs x ↔ y = x ∨ y ∈ xs) (l : List α) :
    ∀ (xs : List α) (y : α), y ∈ l.foldl f xs ↔ y ∈ l ∨ y ∈ xs := by
  induction l with
  | nil => simp
  | cons x l ih =>
    intro xs y
    rw [List.foldl_cons, ih, hf, List.mem_cons]
    tauto

theorem mem_launchWarps (hkeys : (Cells.keys s.teams).Nodup) (k w : Nat) :
    (k, w) ∈ s.launchWarps l ↔ s.holdsWarp l k w := by
  unfold State.launchWarps
  dsimp only
  rw [List.mem_flatMap]
  simp only [mem_foldl_insert (fun xs x y => mem_insertOrdered _ x y xs), List.not_mem_nil, or_false]
  constructor
  · rintro ⟨q, hq, hw⟩
    obtain ⟨p, hp, rfl⟩ := List.mem_map.mp hq
    obtain ⟨hp, hl⟩ := List.mem_filter.mp hp
    obtain ⟨v, hv, heq⟩ := List.mem_map.mp hw
    obtain ⟨rfl, rfl⟩ := Prod.mk.inj heq
    have hfind := Cells.find?_of_nodup hkeys hp
    exact AtRest.holds_of_key ((congrArg Team.launch (Cells.get_of_find? hfind)).trans (beq_iff_eq.mp hl)) (by rw [hfind]; rfl) hv
  · rintro ⟨hhere, hl⟩
    obtain ⟨hteam, hwarp⟩ := (s.warpHere_iff k w).mp hhere
    obtain ⟨t, ht⟩ := Option.isSome_iff_exists.mp hteam
    obtain ⟨v, hv⟩ := Option.isSome_iff_exists.mp hwarp
    have hget : s.team k = t := Cells.get_of_find? ht
    refine ⟨(t.linear, k), List.mem_map.mpr ⟨(k, t), List.mem_filter.mpr ⟨Cells.mem_of_find? ht, ?_⟩, rfl⟩, ?_⟩
    · rw [← hget, hl]; exact beq_self_eq_true l
    · exact List.mem_map.mpr ⟨w, List.mem_map.mpr ⟨(w, v), Cells.mem_of_find? hv, rfl⟩, rfl⟩

/-- The weight of the moves that each warp of a list brings. -/
theorem weight_flatMap (xs : List (Nat × Nat)) {f : Nat × Nat → List CommitStep} {n : Nat}
    (hf : ∀ x, ((f x).map CommitStep.weight).sum = n) : ((xs.flatMap f).map CommitStep.weight).sum = n * xs.length := by
  induction xs with
  | nil => rfl
  | cons x xs ih =>
    rw [List.flatMap_cons, List.map_append, List.sum_append, hf, ih, List.length_cons, Nat.mul_succ, Nat.add_comm]

/-- A commit point takes every warp where all rest at its clock. -/
theorem commitBegin_rests (hrest : ∀ y ∈ s.launchWarps l, (s.warp y.1 y.2).restsAt (s.commitClock l) = true) :
    s.commitBegin l =
      { todo := (s.launchWarps l).flatMap (fun x => [.buffer x.1 x.2, .sync x.1 x.2, .finish x.1 x.2]) ++ [.bars] ++
          (s.launchWarps l).flatMap (fun x => [.send x.1 x.2, .waits x.1 x.2])
        taken := s.launchWarps l
        parked := [] } := by
  have htaken : (s.launchWarps l).filter (fun x => (s.warp x.1 x.2).atEnd (s.commitClock l) ||
      (s.warp x.1 x.2).exited == 0xFFFFFFFF#32) = s.launchWarps l := by
    refine List.filter_eq_self.mpr (fun x hx => ?_)
    rw [(Warp.restsAt_iff.mp (hrest x hx)).1]
    rfl
  have hparked : (s.launchWarps l).filter (fun x => !(s.launchWarps l).contains x) = [] :=
    List.filter_eq_nil_iff.mpr (fun x hx => by simp [hx])
  unfold State.commitBegin
  dsimp only
  rw [htaken, hparked]

variable {x : Launch}

theorem commitPoint_undue (hx : Cells.find? s.launches l = some x) (hc : x.commit = none) (h : s.commitDue l = false) :
    exec (.commitPoint l) s = .next s := by
  have hget : s.launch l = x := Cells.get_of_find? hx
  change execCommitPoint l s = _
  simp [execCommitPoint, hx, hget, hc, h]

theorem commitPoint_due (hx : Cells.find? s.launches l = some x) (hc : x.commit = none) (h : s.commitDue l = true) :
    exec (.commitPoint l) s = .next ((s.onLaunch l (Launch.standing (s.commitBegin l))).commitRun l 1000000) := by
  have hget : s.launch l = x := Cells.get_of_find? hx
  change execCommitPoint l s = _
  unfold execCommitPoint
  rw [hx, hget, hc, h]
  rfl

/-- A commit point of a launch whose warps all rest: the next quantum begins, and every warp goes on (R280). -/
theorem AtRest.commitPoint (hs : AtRest s l (s.commitClock l)) (hkeys : (Cells.keys s.teams).Nodup)
    (hx : Cells.find? s.launches l = some x) (hc : x.commit = none) (hdue : s.commitDue l = true)
    (hlen : (s.launchWarps l).length < 10000) :
    ∃ t, exec (.commitPoint l) s = .next t ∧ SameBytes t s ∧ t.accesses = s.accesses ∧
      (t.launch l).quantum = x.quantum + 1 ∧ (t.launch l).commit = none ∧
      (∀ k w, t.warp k w = if (k, w) ∈ s.launchWarps l then (s.warp k w).goesOn else s.warp k w) := by
  have hholds : ∀ y ∈ s.launchWarps l, s.holdsWarp l y.1 y.2 := fun y hy => (mem_launchWarps hkeys y.1 y.2).mp hy
  have hbegin := commitBegin_rests (fun y hy => hs.rests y.1 y.2 (hholds y hy))
  have hstand : Alike s (s.onLaunch l (Launch.standing (s.commitBegin l))) := .onLaunch s l (fun _ => rfl)
  have hlisted : (Cells.find? s.launches l).isSome = true := by rw [hx]; rfl
  obtain ⟨v, hv, hrun⟩ := (hs.alike hstand).commitRun 1000000 (c := s.commitBegin l)
    (by rw [State.find?_onLaunch, Option.isSome_map, hlisted])
    (congrArg Launch.commit (State.launch_onLaunch hlisted _))
    (fun m hm => by
      refine CommitStep.isOf_alike hstand ?_
      rw [hbegin] at hm
      simp only [List.mem_append, List.mem_flatMap, List.mem_cons, List.not_mem_nil, or_false] at hm
      rcases hm with (⟨y, hy, rfl | rfl | rfl⟩ | rfl) | ⟨y, hy, rfl | rfl⟩
      · exact hholds y hy
      · exact hholds y hy
      · exact hholds y hy
      · trivial
      · exact hholds y hy
      · exact hholds y hy)
    (by
      rw [hbegin]
      simp only [List.map_append, List.sum_append]
      rw [weight_flatMap _ (n := 4) (fun _ => rfl), weight_flatMap _ (n := 2) (fun _ => rfl)]
      simp only [List.map_cons, List.map_nil, List.sum_cons, List.sum_nil, CommitStep.weight]
      omega)
  have halike := hstand.trans hv
  have hend := (hs.alike halike).commitEnd (s.launchWarps l)
  have hv' : v.commitEnd l { s.commitBegin l with todo := [] } =
      ((s.launchWarps l).foldl State.resumeWarp v).onLaunch l Launch.nextQuantum := by
    rw [← hend, hbegin]
  have hwarps := foldl_resumeWarp (s.launchWarps l) (s := v)
    (fun y hy => (halike.warpHere y.1 y.2).trans (hholds y hy).1)
  have hbytes := sameBytes_resumeWarp (s.launchWarps l) v
  obtain ⟨teams, hfold⟩ := (SameCrew.foldl (s.launchWarps l) v).rest
  refine ⟨_, (commitPoint_due hx hc hdue).trans (congrArg _ (hrun.trans hv')), ?_⟩
  generalize (s.launchWarps l).foldl State.resumeWarp v = u at hwarps hbytes hfold
  have hlaunches : u.launches = v.launches := by rw [hfold]
  have hq : (v.launch l).quantum = x.quantum ∧
      (Cells.find? u.launches l).isSome = true := by
    have hl := halike.launch l
    rw [hx] at hl
    obtain ⟨y, hy, heq⟩ := Option.map_eq_some_iff.mp hl
    have hquantum : y.quantum = x.quantum := by
      have h := congrArg Launch.quantum heq
      exact h
    exact ⟨(congrArg (fun z : Launch => z.quantum) (Cells.get_of_find? hy)).trans hquantum, by rw [hlaunches, hy]; rfl⟩
  have hlaunch := State.launch_onLaunch hq.2 Launch.nextQuantum
  refine ⟨?_, ?_, ?_, ?_, fun k w => ?_⟩
  · exact (SameBytes.onLaunch u l _).trans (hbytes.trans halike.sameBytes)
  · change u.accesses = s.accesses
    rw [hfold]
    exact halike.same State.accesses (fun _ _ _ => rfl)
  · rw [hlaunch, State.launch, hlaunches]
    exact congrArg (· + 1) hq.1
  · rw [hlaunch]
    rfl
  · change u.warp k w = _
    rw [hwarps, halike.warp]

end

/-- Settles O41: recording by the count of a gate, a commit point by the invariant that all rest while its moves go by. -/
theorem orderPointsAndCommitPoints : Obligations.OrderPointsAndCommitPoints := by
  unfold Obligations.OrderPointsAndCommitPoints
  refine ⟨fun s id a win ha hw => ⟨orderPointPass_early ha hw, ?_⟩, fun s l x hx hc => ⟨commitPoint_undue hx hc, ?_⟩⟩
  · rintro g hrec hl hheld hreach hmay rfl hmark hrun
    exact ⟨_, orderPointPass_records ha hw hrec hheld hreach hmay, recordPass_spec ha hl hrun hmark⟩
  · intro hdue hopen hdeferred hclusters hkeys hlen hteams hbins hacc hrest
    have hteam {k : Nat} (hk : (Cells.find? s.teams k).isSome = true) : (k, s.team k) ∈ s.teams := by
      obtain ⟨t, ht⟩ := Option.isSome_iff_exists.mp hk
      have hget : s.team k = t := Cells.get_of_find? ht
      exact hget ▸ Cells.mem_of_find? ht
    have hs : AtRest s l (s.commitClock l) :=
      { deferred := hdeferred
        clusters := hclusters
        bins := fun c n => by
          rcases Cells.get_mem (s.core c).bins n with hb | hb
          · rcases Cells.get_mem s.cores c with hcore | hcore
            · exact hbins _ hcore _ hb
            · rw [State.core, hcore] at hb ⊢; exact absurd hb List.not_mem_nil
          · rw [hb]; rfl
        listed := fun p hp hl => (congrArg Team.launch (Cells.get_of_find? (Cells.find?_of_nodup hkeys hp))).trans hl
        bars := fun k hl hk => (hteams _ (hteam hk) hl).1
        crewed := fun k hl hk => by
          obtain ⟨p, rest, hw⟩ := List.exists_cons_of_ne_nil (hteams _ (hteam hk) hl).2
          refine ⟨p.1, (s.warpHere_iff k p.1).mpr ⟨hk, ?_⟩⟩
          rw [show (s.team k).warps = p :: rest from hw]
          exact congrArg Option.isSome (if_pos rfl)
        rests := fun k w hw => hrest _ ((mem_launchWarps hkeys k w).mpr hw)
        alone := fun a ha w hw => hacc a ha _ ((mem_launchWarps hkeys a.team w).mpr hw) rfl
        closed := hopen }
    obtain ⟨t, ht, hbytes, haccesses, hquantum, hcommit, hwarps⟩ := hs.commitPoint hkeys hx hc hdue hlen
    exact ⟨t, ht, hbytes, haccesses, hquantum, hcommit, fun y hy => (hwarps y.1 y.2).trans (if_pos hy),
      fun k w hkw => (hwarps k w).trans (if_neg hkw)⟩

end Sys2Proof.Machine
end

section
/-! PROOFS. The matrix array: what a finished instruction leaves in its tile, its warp and the queue (R304, R305, R313, R320,
R63; O38). -/

namespace Sys2Proof.Machine

/-! ## What a write of a tile and a return leave -/

theorem State.core_onCore_self (s : State) (c : Nat) (f : Core → Core) : (s.onCore c f).core c = f (s.core c) := by
  rw [State.core_onCore, if_pos rfl]

theorem State.team_tileWrite_tiles (s : State) (k t : Nat) (lab : Label) (f : Nat → DWord) (e : Nat) :
    Cells.get ((s.tileWrite k t lab f).team k).tiles e =
      if 4096 * t ≤ e ∧ e < 4096 * t + 4096 then f (e - 4096 * t) else Cells.get (s.team k).tiles e := by
  rw [State.tileWrite, State.team_onTeam]
  exact Cells.get_fill _ _ _ _ _

theorem State.team_tileWrite_tileLab (s : State) (k t : Nat) (lab : Label) (f : Nat → DWord) :
    Cells.get ((s.tileWrite k t lab f).team k).tileLab t = lab := by
  rw [State.tileWrite, State.team_onTeam]
  exact Cells.get_set_self _ _ _

theorem State.warp_tileWrite (s : State) (k t : Nat) (lab : Label) (f : Nat → DWord) (w : Nat) :
    (s.tileWrite k t lab f).warp k w = s.warp k w := by
  rw [State.tileWrite, State.warp, State.team_onTeam]
  rfl

theorem SameBytes.tileWrite (s : State) (k t : Nat) (lab : Label) (f : Nat → DWord) : SameBytes (s.tileWrite k t lab f) s :=
  .onTeam s k

/-- A write of a warp leaves the tiles of its team and their labels. -/
theorem State.team_onWarp_tiles (s : State) (k w : Nat) (f : Warp → Warp) : ((s.onWarp k w f).team k).tiles = (s.team k).tiles := by
  rw [State.onWarp, State.team_setWarp]

theorem State.team_onWarp_tileLab (s : State) (k w : Nat) (f : Warp → Warp) :
    ((s.onWarp k w f).team k).tileLab = (s.team k).tileLab := by
  rw [State.onWarp, State.team_setWarp]

/-- A write of a core leaves the teams and the bytes. -/
theorem SameBytes.onCore (s : State) (c : Nat) (f : Core → Core) : SameBytes (s.onCore c f) s :=
  ⟨fun _ => rfl, fun _ => rfl, fun _ _ => rfl⟩

variable {s : State} {core : Nat} {m : MatEnt} {rest : List MatEnt}

theorem State.arrayReturn_matrix (s : State) (core : Nat) (m : MatEnt) :
    ((s.arrayReturn core m).core core).matrix = (s.core core).matrix.drop 1 := by
  change ((s.onCore core (fun c => { c with matrix := c.matrix.drop 1, idleFrom := some s.cycle })).core core).matrix = _
  rw [State.core_onCore_self]

theorem State.arrayReturn_tiles (s : State) (core : Nat) (m : MatEnt) :
    ((s.arrayReturn core m).team m.team).tiles = (s.team m.team).tiles := State.team_onWarp_tiles _ _ _ _

theorem State.arrayReturn_tileLab (s : State) (core : Nat) (m : MatEnt) :
    ((s.arrayReturn core m).team m.team).tileLab = (s.team m.team).tileLab := State.team_onWarp_tileLab _ _ _ _

theorem State.arrayReturn_warp (s : State) (core : Nat) (m : MatEnt) :
    (s.arrayReturn core m).warp m.team m.warp =
      { s.warp m.team m.warp with results := (s.warp m.team m.warp).results.filter (fun r => r.id != m.id) } :=
  State.warp_onWarp _ _ _ _

theorem SameBytes.arrayReturn (s : State) (core : Nat) (m : MatEnt) : SameBytes (s.arrayReturn core m) s :=
  (SameBytes.onWarp _ _ _ _).trans (.onCore _ _ _)

/-! ## The head of the queue -/

theorem State.nextOp_head (hq : (s.core core).matrix = m :: rest) (hm : m.start = none) : (s.core core).nextOp = some m := by
  rw [Core.nextOp, hq]
  simp [hm]

theorem State.arrayDone_head (hq : (s.core core).matrix = m :: rest) (hm : m.start.isSome = true) (hf : m.finish ≤ s.cycle)
    (hs : m.finish ≤ m.stopAt.getD m.finish) : s.arrayDone core = some m := by
  rw [State.arrayDone, hq]
  simp only []
  rw [if_pos ⟨hm, hf, hs⟩]

/-! ## The start of an MMA (R305, R313) -/

section

variable {z : Bool} {kq : Nat} {fa fb : MFmt} {sa sb : BitVec 4} {ga gb : BitVec 256} {la lb : Label} {key : Word × Word}

theorem MatEnt.eighths_of_mma (hop : m.op = .mma z kq fa fb sa sb ga gb la lb key) : m.eighths = kq + 1 := by
  rw [MatEnt.eighths, hop]

/-- An MMA of which no step is done has all its cycles before it (R305). -/
theorem MatEnt.work_of_mma (hop : m.op = .mma z kq fa fb sa sb ga gb la lb key) (hsteps : m.steps = 0) :
    m.work = 32 * (kq + 1) := by
  rw [MatEnt.work, hop, hsteps]
  simp only []
  omega

/-- The head of the queue may start exactly when the window admits it, once its team runs and its budget lets it. -/
theorem State.mmaReady_head (hop : m.op = .mma z kq fa fb sa sb ga gb la lb key) (hq : (s.core core).matrix = m :: rest)
    (hm : m.start = none) (hruns : s.runs m.team = true) (hbudget : s.arrayBudget core m = true) :
    s.mmaReady core = if (s.core core).recent s.cycle + (kq + 1) ≤ s.power.limit8 then some m else none := by
  rw [State.mmaReady, State.nextOp_head hq hm]
  simp only [MatEnt.eighths_of_mma hop, State.admits, hruns, hbudget]
  simp

theorem mmaStart_admitted (hop : m.op = .mma z kq fa fb sa sb ga gb la lb key) (hq : (s.core core).matrix = m :: rest)
    (hm : m.start = none) (hsteps : m.steps = 0) (hruns : s.runs m.team = true) (hbudget : s.arrayBudget core m = true)
    (hfits : (s.core core).recent s.cycle + (kq + 1) ≤ s.power.limit8) :
    exec (.mmaStart core) s = .next (s.startArray core m
      (if s.ramps core then min (32 * (kq + 1)) (s.power.ramp / 2) else 0) (s.team m.team).codebook
      (s.team m.team).codebookLab) := by
  change execMmaStart core s = _
  rw [execMmaStart, State.mmaReady_head hop hq hm hruns hbudget, if_pos hfits]
  simp only [if_pos hsteps, MatEnt.work_of_mma hop hsteps]

theorem mmaStart_held (hop : m.op = .mma z kq fa fb sa sb ga gb la lb key) (hq : (s.core core).matrix = m :: rest)
    (hm : m.start = none) (hruns : s.runs m.team = true) (hbudget : s.arrayBudget core m = true)
    (hfull : s.power.limit8 < (s.core core).recent s.cycle + (kq + 1)) : exec (.mmaStart core) s = .next s := by
  change execMmaStart core s = _
  rw [execMmaStart, State.mmaReady_head hop hq hm hruns hbudget, if_neg (by omega)]

/-- The queue after the start of its head. -/
theorem State.startArray_matrix (hq : (s.core core).matrix = m :: rest) (lost : Nat) (bytes : Cells Byte) (lab : Label) :
    ((s.startArray core m lost bytes lab).core core).matrix =
      { m with start := some s.cycle, finish := s.cycle + m.work + lost, ramp := lost, stopAt := none
               codebook := bytes, codebookLab := lab } :: rest := by
  change ((State.onCore _ core _).core core).matrix = _
  rw [State.core_onCore_self]
  change _ :: (s.core core).matrix.drop 1 = _
  rw [hq, List.drop_one, List.tail_cons]

/-! ## The end of an MMA (R304, R305, R63) -/

/-- What MMA_COMPLETE leaves when nothing overlapped the instruction. -/
theorem mmaComplete_eq (hop : m.op = .mma z kq fa fb sa sb ga gb la lb key) (hdone : s.arrayDone core = some m)
    (hclash : s.clashed m = false) : ∃ esc,
      let r := mmaCompute (s.core core).slots m.codebook (fun e => Cells.get (s.team m.team).tiles (4096 * m.tile + e))
        z kq fa fb sa sb ga gb key
      let t := s.tileWrite m.team m.tile (s.mmaLab core m) r.1
      (m.torn = false → esc = r.2) ∧
      exec (.mmaComplete core) s =
        .next ((if esc then t.onWarp m.team m.warp (fun wp => { wp with mxstat := wp.mxstat ||| 1 }) else t).arrayReturn core m) := by
  refine ⟨if m.torn && (fa == .e2m1 || fb == .e2m1) then (Config.freeWord (s.free + 32768)).getLsbD 0
    else (mmaCompute (s.core core).slots m.codebook (fun e => Cells.get (s.team m.team).tiles (4096 * m.tile + e))
        z kq fa fb sa sb ga gb key).2, fun ht => ?_, ?_⟩
  · rw [ht, Bool.false_and]
    exact if_neg Bool.false_ne_true
  · change execMmaComplete core s = _
    rw [execMmaComplete, hdone]
    simp only [hop, hclash]
    rfl

/-- The element of a row and a column of the product. -/
theorem mmaCompute_elem (slots : Cells OpSlot) (table : Cells Byte) (old : Nat → DWord) {i j : Nat} (hi : i < 64) (hj : j < 64) :
    (mmaCompute slots table old z kq fa fb sa sb ga gb key).1 (64 * i + j) =
      mmaElem (fa == .int8) z (operandRow slots table sa ga key.1 fa false i (depthOf kq fa fb)).1
        (operandRow slots table sb gb key.2 fb true j (depthOf kq fa fb)).1 (old (64 * i + j)) := by
  have hrow : (64 * i + j) / 64 = i := by omega
  have hcol : (64 * i + j) % 64 = j := by omega
  simp only [mmaCompute, hrow, hcol]
  simp [hi, hj]

end

/-- The number of an element of a tile, and where it stands in it. -/
theorem tile_offset {t i j : Nat} (hi : i < 64) (hj : j < 64) :
    (4096 * t ≤ 4096 * t + 64 * i + j ∧ 4096 * t + 64 * i + j < 4096 * t + 4096) ∧
      4096 * t + 64 * i + j - 4096 * t = 64 * i + j := by omega

theorem scaleReturn_exec {z : Bool} {p : Nat} {sa sb : DWord} {pl : Place × Place} (hop : m.op = .mscac z p sa sb pl)
    (hdone : s.arrayDone core = some m) (hclash : s.clashed m = false) :
    exec (.mscacComplete core) s = .next ((s.tileWrite m.team m.tile (s.entLab core m) (fun e =>
        BitVec.ofNat 64 (scaleAccumulate (if z then 0 else (Cells.get (s.team m.team).tiles (4096 * m.tile + e)).toNat)
          (Cells.readLE m.codebook (2 * (e / 64)) 2) (Cells.readLE m.codebook (128 + 2 * (e % 64)) 2)
          (Cells.get (s.team m.team).tiles (4096 * p + e)).toNat))).arrayReturn core m) := by
  change execMscacComplete core s = _
  rw [execMscacComplete, hdone]
  simp only [hop, hclash]
  rfl

/-- Notes the escapes of a product in SR.MXSTAT (R63). -/
def State.noteEscapes (s : State) (m : MatEnt) (esc : Bool) : State :=
  if esc then s.onWarp m.team m.warp (fun wp => { wp with mxstat := wp.mxstat ||| 1 }) else s

section

variable (s core m) (esc : Bool)

theorem State.noteEscapes_matrix : ((s.noteEscapes m esc).core core).matrix = (s.core core).matrix := by
  cases esc <;> rfl

theorem State.noteEscapes_tiles : ((s.noteEscapes m esc).team m.team).tiles = (s.team m.team).tiles := by
  cases esc
  · rfl
  · rw [State.noteEscapes, if_pos rfl]
    exact State.team_onWarp_tiles _ _ _ _

theorem State.noteEscapes_tileLab : ((s.noteEscapes m esc).team m.team).tileLab = (s.team m.team).tileLab := by
  cases esc
  · rfl
  · rw [State.noteEscapes, if_pos rfl]
    exact State.team_onWarp_tileLab _ _ _ _

theorem State.noteEscapes_warp : (s.noteEscapes m esc).warp m.team m.warp =
    if esc then { s.warp m.team m.warp with mxstat := (s.warp m.team m.warp).mxstat ||| 1 } else s.warp m.team m.warp := by
  cases esc
  · rfl
  · rw [State.noteEscapes, if_pos rfl, if_pos rfl]
    exact State.warp_onWarp _ _ _ _

theorem SameBytes.noteEscapes : SameBytes (s.noteEscapes m esc) s := by
  cases esc
  · exact .refl s
  · rw [State.noteEscapes, if_pos rfl]
    exact .onWarp _ _ _ _

end

/-! ## The written tile of an instruction that returns -/

section

variable (hq : (s.core core).matrix = m :: rest) (lab : Label) (f : Nat → DWord) (esc : Bool)

/-- What the end of an instruction leaves: its tile written, its escapes noted, itself off the queue. -/
def State.tileDone (s : State) (core : Nat) (m : MatEnt) (lab : Label) (f : Nat → DWord) (esc : Bool) : State :=
  ((s.tileWrite m.team m.tile lab f).noteEscapes m esc).arrayReturn core m

theorem SameBytes.tileDone : SameBytes (s.tileDone core m lab f esc) s :=
  ((SameBytes.arrayReturn _ _ _).trans (.noteEscapes _ _ _)).trans (.tileWrite _ _ _ _ _)

include hq in
theorem State.tileDone_matrix : ((s.tileDone core m lab f esc).core core).matrix = rest := by
  rw [State.tileDone, State.arrayReturn_matrix, State.noteEscapes_matrix]
  change (s.core core).matrix.drop 1 = rest
  rw [hq, List.drop_one, List.tail_cons]

theorem State.tileDone_tiles (e : Nat) : Cells.get ((s.tileDone core m lab f esc).team m.team).tiles e =
    if 4096 * m.tile ≤ e ∧ e < 4096 * m.tile + 4096 then f (e - 4096 * m.tile) else Cells.get (s.team m.team).tiles e := by
  rw [State.tileDone, State.arrayReturn_tiles, State.noteEscapes_tiles, State.team_tileWrite_tiles]

theorem State.tileDone_elem {i j : Nat} (hi : i < 64) (hj : j < 64) :
    Cells.get ((s.tileDone core m lab f esc).team m.team).tiles (4096 * m.tile + 64 * i + j) = f (64 * i + j) := by
  obtain ⟨hin, hat⟩ := tile_offset (t := m.tile) hi hj
  rw [State.tileDone_tiles, if_pos hin, hat]

theorem State.tileDone_out {e : Nat} (he : e < 4096 * m.tile ∨ 4096 * m.tile + 4096 ≤ e) :
    Cells.get ((s.tileDone core m lab f esc).team m.team).tiles e = Cells.get (s.team m.team).tiles e := by
  rw [State.tileDone_tiles, if_neg (by omega)]

theorem State.tileDone_tileLab : Cells.get ((s.tileDone core m lab f esc).team m.team).tileLab m.tile = lab := by
  rw [State.tileDone, State.arrayReturn_tileLab, State.noteEscapes_tileLab, State.team_tileWrite_tileLab]

theorem State.tileDone_mxstat : ((s.tileDone core m lab f esc).warp m.team m.warp).mxstat =
    if esc then (s.warp m.team m.warp).mxstat ||| 1 else (s.warp m.team m.warp).mxstat := by
  rw [State.tileDone, State.arrayReturn_warp, State.noteEscapes_warp, State.warp_tileWrite]
  cases esc <;> rfl

theorem State.tileDone_results : ((s.tileDone core m lab f esc).warp m.team m.warp).results =
    (s.warp m.team m.warp).results.filter (fun r => r.id != m.id) := by
  rw [State.tileDone, State.arrayReturn_warp, State.noteEscapes_warp, State.warp_tileWrite]
  cases esc <;> rfl

end

/-- Settles O38: the head of the queue decides each event, and its end is one write of its tile. -/
theorem matrixArrayRuns : Obligations.MatrixArrayRuns := by
  unfold Obligations.MatrixArrayRuns
  intro s core m rest hq
  refine ⟨fun z kq fa fb sa sb ga gb la lb key hop =>
    ⟨fun hm hsteps hruns hbudget => ⟨fun hfits => ?_, mmaStart_held hop hq hm hruns hbudget⟩,
      fun hm hf hs hclash => ?_⟩, fun z p sa sb pl hop hm hf hs hclash => ?_⟩
  · refine ⟨_, _, mmaStart_admitted hop hq hm hsteps hruns hbudget hfits, State.startArray_matrix hq _ _ _,
      rfl, rfl, rfl, rfl, ?_, rfl, rfl⟩
    rw [MatEnt.work_of_mma hop hsteps]
  · obtain ⟨esc, hesc, hexec⟩ := mmaComplete_eq hop (State.arrayDone_head hq hm hf hs) hclash
    refine ⟨_, hexec, SameBytes.tileDone _ _ _, State.tileDone_matrix hq _ _ _, fun i j hi hj => ?_,
      fun e he => State.tileDone_out _ _ _ he, State.tileDone_tileLab _ _ _, fun htorn _ => ?_, State.tileDone_results _ _ _⟩
    · refine (State.tileDone_elem _ _ _ hi hj).trans ((mmaCompute_elem _ _ _ hi hj).trans ?_)
      rw [Nat.add_assoc]
    · rw [← hesc htorn]
      exact State.tileDone_mxstat _ _ _
  · refine ⟨_, scaleReturn_exec hop (State.arrayDone_head hq hm hf hs) hclash, SameBytes.tileDone _ _ false,
      State.tileDone_matrix hq _ _ false, fun i j hi hj => ?_, fun e he => State.tileDone_out _ _ false he,
      State.tileDone_results _ _ false⟩
    refine (State.tileDone_elem _ _ false hi hj).trans ?_
    have hrow : (64 * i + j) / 64 = i := by omega
    have hcol : (64 * i + j) % 64 = j := by omega
    simp only [hrow, hcol, Nat.add_assoc]

end Sys2Proof.Machine
end

section
/-! PROOFS. Moving lines, and forwarding a write within its scope, hinder no transfer: channels and contexts stay, and no update
within the scope sets out (R218, R236, R333). -/

namespace Sys2Proof.Machine

/-! ## What hinders no transfer -/

/-- Channels, teams and contexts stayed, no flit was sent, and every update that set out goes beyond the scope. -/
structure Unhindered (scp : Scope) (team : Nat) (s t : State) : Prop where
  chans : ∀ c, (t.core c).chans = (s.core c).chans
  teams : t.teams = s.teams
  contexts : t.contexts = s.contexts
  vfs : t.vfs = s.vfs
  power : t.power = s.power
  sent : t.fabric.sent = s.fabric.sent
  peerLines : t.fabric.peerLines = s.fabric.peerLines
  updates : ∀ u ∈ t.updates, u ∈ s.updates ∨ s.inScope scp team u.core = false

theorem State.inScope_congr {s t : State} (h : t.teams = s.teams) (scp : Scope) (team core : Nat) :
    t.inScope scp team core = s.inScope scp team core := by
  unfold State.inScope State.team
  rw [h]

section

variable {scp : Scope} {team : Nat}

theorem Unhindered.refl (s : State) : Unhindered scp team s s := ⟨fun _ => rfl, rfl, rfl, rfl, rfl, rfl, rfl, fun _ h => .inl h⟩

theorem Unhindered.trans {s t u : State} (h : Unhindered scp team s t) (g : Unhindered scp team t u) :
    Unhindered scp team s u := by
  refine ⟨fun c => (g.chans c).trans (h.chans c), g.teams.trans h.teams, g.contexts.trans h.contexts, g.vfs.trans h.vfs,
    g.power.trans h.power, g.sent.trans h.sent, g.peerLines.trans h.peerLines, fun x hx => ?_⟩
  rcases g.updates x hx with hx | hx
  · exact h.updates x hx
  · exact .inr ((State.inScope_congr h.teams _ _ _).symm.trans hx)

theorem Unhindered.foldl {α : Type} {f : State → α → State} (hf : ∀ s x, Unhindered scp team s (f s x)) (l : List α)
    (s : State) : Unhindered scp team s (l.foldl f s) :=
  List.foldlRecOn l f (motive := Unhindered scp team s) (.refl s) (fun _ h x _ => h.trans (hf _ x))

theorem Unhindered.ite {p : Prop} [Decidable p] {s t u : State} (h : Unhindered scp team s t) (g : Unhindered scp team s u) :
    Unhindered scp team s (if p then t else u) := by
  split
  · exact h
  · exact g

/-- A transfer of which nothing was on its way within its scope still has nothing there. -/
theorem Unhindered.updating {s t : State} (h : Unhindered scp team s t) {id : Nat} (hs : s.updating id scp team = false) :
    t.updating id scp team = false := by
  simp only [State.updating, Bool.or_eq_false_iff, List.any_eq_false, Bool.and_eq_true, not_and, Bool.not_eq_true] at hs ⊢
  obtain ⟨hu, hf⟩ := hs
  refine ⟨fun u hmem hid => ?_, fun f hmem => ?_⟩
  · rw [State.inScope_congr h.teams]
    rcases h.updates u hmem with hold | hout
    · exact hu u hold hid
    · exact hout
  · have hself : t.self = s.self := congrArg (fun p => p.image.moduleId) h.power
    have hscope : t.moduleInScope scp team f.dst = s.moduleInScope scp team f.dst := by
      unfold State.moduleInScope State.vf State.context State.team
      rw [h.teams, h.contexts, h.vfs]
    rw [hself, hscope]
    exact hf f (h.sent ▸ hmem)

theorem Unhindered.context {s t : State} (h : Unhindered scp team s t) (k : Nat) : t.context k = s.context k :=
  congrArg (Cells.get · k) h.contexts

theorem Unhindered.chanXfers {s t : State} (h : Unhindered scp team s t) (core ch : Nat) :
    t.chanXfers core ch = s.chanXfers core ch := by
  unfold State.chanXfers
  rw [h.chans]

/-- What stays when no core, no context and no flit is touched. -/
theorem Unhindered.of_same {s t : State} (hc : t.cores = s.cores) (ht : t.teams = s.teams) (hx : t.contexts = s.contexts)
    (hv : t.vfs = s.vfs) (hp : t.power = s.power) (hs : t.fabric.sent = s.fabric.sent)
    (hl : t.fabric.peerLines = s.fabric.peerLines) (hu : ∀ u ∈ t.updates, u ∈ s.updates) : Unhindered scp team s t :=
  ⟨fun c => congrArg (fun m => (Cells.get m c).chans) hc, ht, hx, hv, hp, hs, hl, fun u h => .inl (hu u h)⟩

theorem Unhindered.onCore (s : State) (c : Nat) {f : Core → Core} (hf : ∀ x, (f x).chans = x.chans := by intro _; rfl) :
    Unhindered scp team s (s.onCore c f) := by
  refine ⟨fun j => ?_, rfl, rfl, rfl, rfl, rfl, rfl, fun _ h => .inl h⟩
  rw [State.core_onCore]
  split
  · next h => rw [hf, h]
  · rfl

/-! ## Lines of L2 and host halves -/

theorem Unhindered.charge (s : State) (a k inst n : Nat) : Unhindered scp team s (s.charge a k inst n) :=
  .of_same rfl rfl rfl rfl rfl rfl rfl (fun _ h => h)

theorem Unhindered.chargeTo (s : State) (a : Option Nat) (k inst n : Nat) : Unhindered scp team s (s.chargeTo a k inst n) := by
  cases a with
  | none => exact .refl s
  | some a => exact .charge s a k inst n

theorem Unhindered.onDie (s : State) (d : Nat) (f : Die → Die) : Unhindered scp team s (s.onDie d f) :=
  .of_same rfl rfl rfl rfl rfl rfl rfl (fun _ h => h)

theorem Unhindered.refuseWriteBack (s : State) (half : Nat) : Unhindered scp team s (s.refuseWriteBack half) :=
  .ite (.of_same rfl rfl rfl rfl rfl rfl rfl (fun _ h => h)) (.of_same rfl rfl rfl rfl rfl rfl rfl (fun _ h => h))

theorem Unhindered.hostWriteBack (s : State) (half : Nat) : Unhindered scp team s (s.hostWriteBack half) :=
  .ite (.of_same rfl rfl rfl rfl rfl rfl rfl (fun _ h => h)) (.refl s)

theorem Unhindered.dropCopies (s : State) (line : Nat) : Unhindered scp team s (s.dropCopies line) := by
  refine ⟨fun c => ?_, rfl, rfl, rfl, rfl, rfl, rfl, fun _ h => .inl (List.mem_of_mem_filter h)⟩
  have hfind : Cells.find? (s.dropCopies line).cores c =
      (Cells.find? s.cores c).map (fun x => { x with l1 := Cells.erase x.l1 line }) :=
    Cells.find?_map_snd s.cores (fun _ (x : Core) => ({ x with l1 := Cells.erase x.l1 line } : Core)) c
  rw [State.core, State.core, Cells.get_eq_find?, Cells.get_eq_find?, hfind]
  cases Cells.find? s.cores c <;> rfl

theorem Unhindered.hostDrop (s : State) (half : Nat) : Unhindered scp team s (s.hostDrop half) :=
  .ite (.refuseWriteBack s half)
    (((Unhindered.hostWriteBack s half).trans (.dropCopies _ _)).trans (.of_same rfl rfl rfl rfl rfl rfl rfl (fun _ h => h)))

theorem Unhindered.l2Evict (s : State) (act : Option Nat) (l : L2Line) : Unhindered scp team s (s.l2Evict act l) := by
  refine .ite ((Unhindered.ite (.chargeTo s act 0 _ 2) (.refl s)).trans (.onDie _ _ _)) ?_
  have home := (Unhindered.hostDrop s (2 * (l.line - 2 ^ 46))).trans
    (.hostDrop (scp := scp) (team := team) _ (2 * (l.line - 2 ^ 46) + 1))
  exact .ite (home.trans (.onDie _ _ _)) home

theorem Unhindered.l2Room (s : State) (act : Option Nat) (line : Nat) : Unhindered scp team s (s.l2Room act line) :=
  .foldl (fun s l => .ite (.refl s) (.l2Evict s act l)) _ s

theorem Unhindered.l2Touch (s : State) (who : Who) (line : Nat) (write : Bool) :
    Unhindered scp team s (s.l2Touch who line write) := by
  unfold State.l2Touch
  exact (Unhindered.ite (.refl s) ((Unhindered.ite (.chargeTo s who.act 0 _ 2) (.refl s)).trans (.l2Room _ _ _))).trans
    (.onDie _ _ _)

theorem Unhindered.l2Reach (s : State) (who : Who) (p : Place) (n : Nat) (write : Bool) :
    Unhindered scp team s (s.l2Reach who p n write) := by
  cases p with
  | dev _ | host _ _ => exact .foldl (fun s l => .l2Touch s who l write) _ s
  | peer _ _ _ | scr _ _ => exact .refl s

theorem Unhindered.afterLook (s : State) (p : Place) (n : Nat) : Unhindered scp team s (s.afterLook p n) :=
  Unhindered.ite (.of_same rfl rfl rfl rfl rfl rfl rfl (fun _ h => h)) (.refl s)

/-! ## Writes at the home -/

theorem Unhindered.noteWrite (s : State) (pa : Nat) : Unhindered scp team s (s.noteWrite pa) :=
  .of_same rfl rfl rfl rfl rfl rfl rfl (fun _ h => h)

theorem Unhindered.writeHome (s : State) (pa n x : Nat) (lab : Label) (who : Who) :
    Unhindered scp team s (s.writeHome (.dev pa) n x lab who) := by
  have moved : Unhindered scp team s ((s.noteWrite pa).l2Reach who (.dev pa) n true) :=
    (Unhindered.noteWrite s pa).trans (.l2Reach _ who (.dev pa) n true)
  refine moved.trans ?_
  exact .of_same rfl rfl rfl rfl rfl rfl rfl (fun _ h => h)

theorem Unhindered.l1Write (s : State) (core key : Nat) (bytes : List Byte) (lab : Label) :
    Unhindered scp team s (s.l1Write core key bytes lab) := .onCore s core

theorem Unhindered.applyBefore (s : State) (core key n : Nat) : Unhindered scp team s (s.applyBefore core key n) := by
  have fold (f : Update → Bool) : Unhindered scp team s (s.updates.foldl
      (fun (t : State) u => if f u then t.l1Write core u.pa u.bytes u.lab else t) s) :=
    Unhindered.foldl (fun t u => .ite (.l1Write t _ _ _ _) (.refl t)) _ s
  exact (fold _).trans (.of_same rfl rfl rfl rfl rfl rfl rfl (fun _ h => List.mem_of_mem_filter h))

theorem State.forwardOut_quiet {s : State} {key : Nat} (h : ∀ y ∈ s.fabric.peerLines, y.1 ≠ key / 128) (id : Nat)
    (bs : List Byte) : s.forwardOut id key bs = s :=
  List.foldlRecOn s.fabric.peerLines _ (motive := (· = s)) rfl (fun _ hb y hy => (if_neg (h y hy)).trans hb)

/-- An SC write reaches every holder within its scope at once (R218, R236). -/
theorem Unhindered.forward (s : State) {w : Writer} (hdom : w.dom = .sc) (hscp : w.scp = scp) (hteam : w.team = team) {key : Nat}
    (h : ∀ y ∈ s.fabric.peerLines, y.1 ≠ key / 128) (n x : Nat) (lab : Label) :
    Unhindered scp team s (s.forward w key n x lab) := by
  unfold State.forward
  dsimp only
  rw [State.forwardOut_quiet h]
  refine (Unhindered.ite (.refl s) (.onDie s _ _)).trans (.foldl (fun t c => ?_) _ _)
  split
  · exact .onCore t c
  · split
    · exact (Unhindered.applyBefore t c key n).trans (.l1Write _ _ _ _ _)
    · next hfar =>
      have hout : t.inScope scp team c = false := by
        simp only [hdom, hscp, hteam, Bool.or_eq_true, Bool.and_eq_true, not_or, not_and, Bool.not_eq_true] at hfar
        exact hfar.2 (.inl (by decide))
      refine ⟨fun _ => rfl, rfl, rfl, rfl, rfl, rfl, rfl, fun u hu => ?_⟩
      rcases List.mem_append.mp hu with hu | hu
      · exact .inl hu
      · rw [List.mem_singleton.mp hu]
        exact .inr hout

theorem Unhindered.store (s : State) {w : Writer} (hdom : w.dom = .sc) (hscp : w.scp = scp) (hteam : w.team = team) {pa : Nat}
    (h : ∀ y ∈ s.fabric.peerLines, y.1 ≠ pa / 128) (n x : Nat) (lab : Label) :
    Unhindered scp team s (s.store w (.dev pa) n x lab) := by
  have written : Unhindered scp team s (s.writeHome (.dev pa) n x lab w.who) := .writeHome s pa n x lab w.who
  exact written.trans (.forward _ hdom hscp hteam (by rw [written.peerLines]; exact h) n x 0)

end

end Sys2Proof.Machine
end

section
/-! PROOFS. A channel's last byte: read from its home, written at its destination or held back by its label (R254, R333, R430;
O39). -/

namespace Sys2Proof

theorem Cells.readLE_one (m : Cells Byte) (k : Nat) : Cells.readLE m k 1 = (Cells.get m k).toNat := by
  simp [Cells.readLE]

theorem bytesOf_one (b : Byte) : Machine.bytesOf 1 b.toNat = [b] := by
  simp [Machine.bytesOf]

theorem ofBytes_one (b : Byte) : Machine.ofBytes [b] = b.toNat := by
  simp [Machine.ofBytes]

namespace Machine

/-! ## A channel and its transfers -/

theorem State.chan_onChan (s : State) (core ch : Nat) (f : Chan → Chan) :
    Cells.get ((s.onChan core ch f).core core).chans ch = f (Cells.get (s.core core).chans ch) := by
  rw [State.onChan, State.core_onCore_self]
  exact (Cells.get_modify _ _ _ _).trans (if_pos rfl)

theorem State.chanXfers_setHead {s : State} {core ch : Nat} {y : Xfer} (h : s.chanXfers core ch = [y]) (x : Xfer) :
    (s.setHead core ch x).chanXfers core ch = [x] := by
  rw [State.chanXfers, State.setHead, State.chan_onChan]
  change x :: (s.chanXfers core ch).drop 1 = [x]
  rw [h]
  rfl

theorem State.chanXfers_dropHead {s : State} {core ch : Nat} {y : Xfer} (h : s.chanXfers core ch = [y]) :
    (s.dropHead core ch).chanXfers core ch = [] := by
  change Chan.xfers (Cells.get ((s.onChan core ch _).core core).chans ch) = []
  rw [State.chan_onChan]
  change (s.chanXfers core ch).drop 1 = []
  rw [h]
  rfl

theorem State.ptr_dropHead (s : State) (core ch : Nat) :
    (Cells.get ((s.dropHead core ch).core core).chans ch).ptr = (Cells.get (s.core core).chans ch).ptr := by
  change Chan.ptr (Cells.get ((s.onChan core ch _).core core).chans ch) = _
  rw [State.chan_onChan]

theorem CacheMove.onChan (s : State) (core ch : Nat) (f : Chan → Chan) : CacheMove s (s.onChan core ch f) :=
  CacheMove.onCore s core

theorem CacheMove.dropHead (s : State) (core ch : Nat) : CacheMove s (s.dropHead core ch) :=
  (CacheMove.onChan s core ch _).trans (.of_same rfl rfl rfl rfl rfl rfl rfl rfl)

theorem CacheMove.copyCharge (s : State) (p : Place) (addr : Nat → Nat) (n k : Nat) : CacheMove s (s.copyCharge p addr n k) := by
  unfold State.copyCharge
  split
  · exact .refl s
  · exact .ite (.refl s) (.charge _ _ _ _ _)

theorem Unhindered.copyCharge {scp : Scope} {team : Nat} (s : State) (p : Place) (addr : Nat → Nat) (n k : Nat) :
    Unhindered scp team s (s.copyCharge p addr n k) := by
  unfold State.copyCharge
  split
  · exact .refl s
  · exact .ite (.refl s) (.charge _ _ _ _ _)

/-- A write clears the poison of a line that it fills, and nothing else. -/
theorem State.clearPoison_eq (s : State) (x : Xfer) (n : Nat) (p : Option Place) :
    ∃ poison, s.clearPoison x n p = { s with poison := poison } := by
  unfold State.clearPoison
  split
  · split
    · exact ⟨_, rfl⟩
    · exact ⟨_, rfl⟩
  · split
    · exact ⟨_, rfl⟩
    · exact ⟨_, rfl⟩
  · exact ⟨_, rfl⟩

theorem CacheMove.clearPoison (s : State) (x : Xfer) (n : Nat) (p : Option Place) : CacheMove s (s.clearPoison x n p) := by
  obtain ⟨_, h⟩ := s.clearPoison_eq x n p
  rw [h]
  exact .of_same rfl rfl rfl rfl rfl rfl rfl rfl

theorem Unhindered.clearPoison {scp : Scope} {team : Nat} (s : State) (x : Xfer) (n : Nat) (p : Option Place) :
    Unhindered scp team s (s.clearPoison x n p) := by
  obtain ⟨_, h⟩ := s.clearPoison_eq x n p
  rw [h]
  exact .of_same rfl rfl rfl rfl rfl rfl rfl (fun _ h => h)

/-! ## The last byte of a transfer -/

/-- The last byte of a transfer stands alone in its unit. -/
theorem Xfer.unit_last {x : Xfer} {n : Nat} (h : n + 1 = x.total) : x.unit n 8 = 1 := by
  have h0 : n < x.total := by omega
  have h1 : ¬ n + 1 < x.total := by omega
  rw [Xfer.unit, show List.range 8 = 0 :: 1 :: [2, 3, 4, 5, 6, 7] from rfl]
  simp [List.takeWhile, h0, h1]

theorem Xfer.reach_last {x : Xfer} {n : Nat} (h : n + 1 = x.total) : x.reach n 8 = 1 := by
  have h0 : n < x.total := by omega
  have h1 : ¬ n + 1 < x.total := by omega
  rw [Xfer.reach, show List.range 8 = 0 :: 1 :: [2, 3, 4, 5, 6, 7] from rfl]
  simp [List.takeWhile, h0, h1]

/-- A channel whose one transfer has its last byte to move, between two places of device memory, and may move it. -/
structure LastByte (s : State) (core ch : Nat) (x : Xfer) (p q : Nat) (pg : PageMap) : Prop where
  alone : s.chanXfers core ch = [x]
  last : x.done + 1 = x.total
  flag : x.flag = 0
  stuck : x.stuck = false
  wire : x.wire = none
  overlap : x.overlap = false
  toSlot : x.toSlot = false
  inbuf : x.inbuf = []
  lag : x.lag = 0
  source : x.fromAt x.done = some (.dev p)
  page : pageOf x.dstMap (x.dstAt x.done) = some pg
  target : pg.place.add (x.dstAt x.done % 4096) = .dev q
  unblocked : s.copyBlocked x = false
  clean : s.poisoned (.dev p) 1 = false
  whole : s.straddles (.dev p) 1 = false
  unreset : s.chrstDue core ch = false
  bound : (s.context x.ctx).unbinding = false

/-- A transfer with its last byte read. -/
def Xfer.withByte (x : Xfer) (b : Byte × Label) : Xfer := { x with inbuf := [b] }

/-- A byte of device memory with its frame's label (R28). -/
def State.byteAt (s : State) (p : Nat) : Byte × Label := (Cells.get s.mem p, Cells.get s.frameLab (p / 4096))

/-- The state after the last byte of a transfer is read. -/
def State.byteRead (s : State) (x : Xfer) (p : Nat) : State :=
  ((s.copyCharge (.dev p) x.srcAt x.done 1).l2Reach (s.copyWho x) (.dev p) 1 false).afterLook (.dev p) 1

/-- The state in which the last byte, read, waits to be written. -/
def State.byteHeld (s : State) (core ch : Nat) (x : Xfer) (p : Nat) : State :=
  (s.byteRead x p).setHead core ch (x.withByte (s.byteAt p))

theorem CacheMove.byteRead (s : State) (x : Xfer) (p : Nat) : CacheMove s (s.byteRead x p) :=
  ((CacheMove.copyCharge s _ _ _ _).trans (.l2Reach _ _ _ _ _)).trans (.afterLook _ _ _)

theorem Unhindered.byteRead {scp : Scope} {team : Nat} (s : State) (x : Xfer) (p : Nat) :
    Unhindered scp team s (s.byteRead x p) :=
  ((Unhindered.copyCharge s _ _ _ _).trans (.l2Reach _ _ _ _ _)).trans (.afterLook _ _ _)

section

variable {s : State} {core ch : Nat} {x : Xfer} {p q : Nat} {pg : PageMap} (h : LastByte s core ch x p q pg)

include h

theorem LastByte.at_eq : x.at_ = x.done := by rw [Xfer.at_, h.lag, Nat.add_zero]

theorem LastByte.toAt_eq : x.toAt x.done = some (.dev q) := by
  rw [Xfer.toAt, h.toSlot, if_neg Bool.false_ne_true, placeIn, h.page, Option.map_some, h.target]

theorem LastByte.unitDue_eq : x.unitDue = 1 := by
  rw [Xfer.unitDue, h.at_eq, h.toAt_eq, Xfer.unit_last h.last]
  rfl

theorem LastByte.readAt_eq : x.readAt = x.done := by rw [Xfer.readAt, h.at_eq, h.inbuf, List.length_nil, Nat.add_zero]

/-- The byte that a channel reads of device memory, with its frame's label (R28, R254). -/
theorem LastByte.copyGet_eq : (s.copyCharge (.dev p) x.srcAt x.done 1).copyGet x x.done 1 =
    (s.byteRead x p, [s.byteAt p]) := by
  have moved : CacheMove s ((s.copyCharge (.dev p) x.srcAt x.done 1).l2Reach (s.copyWho x) (.dev p) 1 false) :=
    (CacheMove.copyCharge s _ _ _ _).trans (.l2Reach _ _ _ _ _)
  have hwho : (s.copyCharge (.dev p) x.srcAt x.done 1).copyWho x = s.copyWho x := by
    unfold State.copyWho State.whoOf State.context
    rw [(Unhindered.copyCharge (scp := x.scp) (team := x.team) s _ _ _ _).contexts]
  have hsource : placeIn x.srcMap (x.srcAt x.done) = some (.dev p) := h.source
  simp only [State.copyGet, hsource, State.hostGet, hwho, State.look, State.unitLab, State.readHome, moved.straddles h.whole,
    Bool.not_false, if_true, Bool.false_eq_true, if_false, Cells.readLE_one, bytesOf_one, List.map_cons, List.map_nil]
  rw [moved.mem, moved.frameLab]
  rfl

theorem LastByte.held : (s.byteHeld core ch x p).chanXfers core ch = [x.withByte (s.byteAt p)] :=
  State.chanXfers_setHead (((Unhindered.byteRead (scp := x.scp) (team := x.team) s x p).chanXfers core ch).trans h.alone) _

/-- The state in which the last byte waits to be written. -/
theorem LastByte.chanFill_eq : s.chanFill core ch 64 =
    (s.byteHeld core ch x p, true) := by
  have hread : s.readBlocked x = false := by
    have := h.unblocked
    simp only [State.copyBlocked, h.inbuf, h.unitDue_eq, Bool.or_eq_false_iff] at this
    simpa using this.1
  rw [State.chanFill]
  simp only [h.alone, h.unitDue_eq, h.inbuf, hread, h.readAt_eq, Xfer.reach_last h.last, h.source, h.clean, h.copyGet_eq,
    List.length_nil, List.nil_append, Nat.max_self, Bool.false_eq_true, if_false, if_neg (show ¬ 1 ≤ 0 by omega)]
  change (s.byteHeld core ch x p).chanFill core ch 63 = _
  rw [State.chanFill, h.held]
  have hdue : (x.withByte (s.byteAt p)).unitDue = 1 := h.unitDue_eq
  exact if_pos (hdue.le.trans (Nat.le_refl 1))

/-- The one move that the channel makes. -/
theorem LastByte.chanStep_eq : s.chanStep core ch =
    some ((s.byteHeld core ch x p).copyOne core ch
      (x.withByte (s.byteAt p))) := by
  have hunbinds : s.unbinds x = false := by rw [State.unbinds, h.bound, Bool.false_and]
  have hleft : decide (x.total ≤ x.at_) = false := by
    have := h.last
    rw [h.at_eq, decide_eq_false_iff_not]
    omega
  have hto : (x.withByte (s.byteAt p)).toAt
      (x.withByte (s.byteAt p)).at_ = some (.dev q) := by
    change x.toAt x.at_ = _
    rw [h.at_eq, h.toAt_eq]
  rw [State.chanStep, h.alone]
  simp only [h.stuck, h.wire, hleft, h.unreset, hunbinds, h.unblocked, h.chanFill_eq, h.held, hto, Option.isSome_none,
    Bool.or_self, Bool.false_eq_true, if_false]

/-! ## The byte that is written -/

/-- The state after the last byte is written, charged and clear of poison, before the channel counts it. -/
def State.byteWritten (s : State) (core ch : Nat) (x : Xfer) (p q : Nat) : State :=
  (((s.byteHeld core ch x p).chanWrite (x.withByte (s.byteAt p)) false (.dev q) 1 (Cells.get s.mem p).toNat
    (Cells.get s.frameLab (p / 4096) ||| x.lab)).copyCharge (.dev q) x.dstAt x.done 1)
    |>.clearPoison (x.withByte (s.byteAt p)) x.done (some (.dev q))

omit h in
/-- One byte put into device memory, unless its label is barred there (R254, R430). -/
theorem State.copyPut_dev {y : Xfer} {n q : Nat} {pg : PageMap} (hslot : y.toSlot = false) (hover : y.overlap = false)
    (hpage : pageOf y.dstMap (y.dstAt n) = some pg) (htarget : pg.place.add (y.dstAt n % 4096) = .dev q) (u : State)
    (b : Byte) (lab : Label) : u.copyPut y n [(b, lab)] =
      if lab &&& ~~~pg.mask = 0 then some (u.chanWrite y false (.dev q) 1 b.toNat (lab ||| y.lab)) else none := by
  have hself (z : Place) : y.selfOverlap z = false := by rw [Xfer.selfOverlap, hover, Bool.false_and]
  have hread : [(b, lab)].foldl (fun (l : Label) b => l ||| b.2) 0 = lab := BitVec.zero_or
  by_cases hok : lab &&& ~~~pg.mask = 0
  · simp only [State.copyPut, hslot, hpage, htarget, hself, hread, hok, List.zipIdx_cons, List.zipIdx_nil, List.map_cons,
      List.map_nil, ofBytes_one, List.length_singleton, Bool.false_eq_true, if_false]
    rfl
  · have hne : (lab &&& ~~~pg.mask != 0) = true := bne_iff_ne.mpr hok
    simp only [State.copyPut, hslot, hpage, hread, hne, hok, Bool.false_eq_true, if_false, if_true]

/-- What the channel puts at the destination. -/
theorem LastByte.copyPut_eq (u : State) :
    u.copyPut (x.withByte (s.byteAt p)) x.done
        [s.byteAt p] =
      if Cells.get s.frameLab (p / 4096) &&& ~~~pg.mask = 0 then
        some (u.chanWrite (x.withByte (s.byteAt p)) false (.dev q) 1
          (Cells.get s.mem p).toNat (Cells.get s.frameLab (p / 4096) ||| x.lab)) else none :=
  State.copyPut_dev (y := x.withByte _) h.toSlot h.overlap h.page h.target u _ _

/-- A byte that its destination admits is written and counted. -/
theorem LastByte.copyOne_admitted (hadmits : Cells.get s.frameLab (p / 4096) &&& ~~~pg.mask = 0) :
    (s.byteHeld core ch x p).copyOne core ch
        (x.withByte (s.byteAt p)) =
      (s.byteWritten core ch x p q).wrote core ch (x.withByte (s.byteAt p)) 1 := by
  have hat : (x.withByte (s.byteAt p)).at_ = x.done := h.at_eq
  have hdue : (x.withByte (s.byteAt p)).unitDue = 1 := h.unitDue_eq
  have hto : (x.withByte (s.byteAt p)).toAt x.done = some (.dev q) := h.toAt_eq
  have hput := h.copyPut_eq (s.byteHeld core ch x p)
  rw [if_pos hadmits] at hput
  unfold State.copyOne
  dsimp only
  rw [hat, hdue, show (x.withByte (s.byteAt p)).inbuf.take 1 = [s.byteAt p] from rfl, hput]
  simp only [hto, Nat.add_sub_cancel]
  rfl

/-- A byte that its destination refuses stops the transfer. -/
theorem LastByte.copyOne_barred (hbars : Cells.get s.frameLab (p / 4096) &&& ~~~pg.mask ≠ 0) :
    (s.byteHeld core ch x p).copyOne core ch
        (x.withByte (s.byteAt p)) =
      (s.byteHeld core ch x p).copyStop core ch
        (x.withByte (s.byteAt p)) := by
  have hat : (x.withByte (s.byteAt p)).at_ = x.done := h.at_eq
  have hdue : (x.withByte (s.byteAt p)).unitDue = 1 := h.unitDue_eq
  have hput := h.copyPut_eq (s.byteHeld core ch x p)
  rw [if_neg hbars] at hput
  unfold State.copyOne
  dsimp only
  rw [hat, hdue, show (x.withByte (s.byteAt p)).inbuf.take 1 = [s.byteAt p] from rfl, hput]

end

/-! ## What the write leaves -/

/-- The state in which the byte waits to be written has moved lines at most. -/
theorem CacheMove.byteHeld (s : State) (core ch : Nat) (x : Xfer) (p : Nat) :
    CacheMove s (s.byteHeld core ch x p) := (CacheMove.byteRead s x p).trans (.onChan _ _ _ _)

theorem HomeWrite.byteWritten (s : State) (core ch : Nat) (x : Xfer) (p q : Nat) :
    HomeWrite s (s.byteWritten core ch x p q) q 1 (Cells.get s.mem p).toNat (Cells.get s.frameLab (p / 4096) ||| x.lab) :=
  (((HomeWrite.store _ _ _ _ _ _).before (.byteHeld s core ch x p)).after (.copyCharge _ _ _ _ _)).after
    (.clearPoison _ _ _ _)

theorem Unhindered.chanWrite (s : State) (x : Xfer) (flag : Bool) {pa : Nat} (hpeer : ∀ y ∈ s.fabric.peerLines, y.1 ≠ pa / 128)
    (n v : Nat) (lab : Label) : Unhindered x.scp x.team s (s.chanWrite x flag (.dev pa) n v lab) :=
  Unhindered.store s (w := { id := x.id, core := x.core, team := x.team, dom := .sc, scp := x.scp, flag, who := s.copyWho x })
    rfl rfl rfl hpeer n v lab

/-- Writing the byte hinders nothing when no other module keeps its line. -/
theorem Unhindered.byteWritten (s : State) (core ch : Nat) (x : Xfer) (p q : Nat)
    (hpeer : ∀ y ∈ s.fabric.peerLines, y.1 ≠ q / 128) :
    Unhindered x.scp x.team (s.byteHeld core ch x p)
      (s.byteWritten core ch x p q) := by
  have hlines : (s.byteHeld core ch x p).fabric.peerLines = s.fabric.peerLines :=
    (Unhindered.byteRead (scp := x.scp) (team := x.team) s x p).peerLines
  have written := Unhindered.chanWrite (s.byteHeld core ch x p) (x.withByte (s.byteAt p))
    false (by rw [hlines]; exact hpeer) 1 (Cells.get s.mem p).toNat (Cells.get s.frameLab (p / 4096) ||| x.lab)
  exact (written.trans (.copyCharge _ _ _ _ _)).trans (.clearPoison _ _ _ _)

/-- A channel counts its written bytes, its updates being performed. -/
theorem State.wrote_performed {s : State} {x : Xfer} (hup : s.updating x.id x.scp x.team = false) (hlag : x.lag = 0) {core ch : Nat}
    (hx : s.chanXfers core ch = [x]) (n : Nat) :
    (s.wrote core ch x n).chanXfers core ch = [{ x with done := x.done + n, lag := 0, inbuf := x.inbuf.drop n }] ∧
      (Cells.get ((s.wrote core ch x n).core core).chans ch).ptr =
        (Cells.get (s.core core).chans ch).ptr + BitVec.ofNat 64 n := by
  unfold State.chanXfers at hx ⊢
  unfold State.wrote
  rw [hup, if_neg Bool.false_ne_true, State.chan_onChan, hlag, Nat.zero_add, hx]
  exact ⟨rfl, rfl⟩

theorem CacheMove.wrote (s : State) (core ch : Nat) (x : Xfer) (n : Nat) : CacheMove s (s.wrote core ch x n) :=
  .ite (.onChan _ _ _ _) (.onChan _ _ _ _)

theorem State.context_wrote (s : State) (core ch : Nat) (x : Xfer) (n k : Nat) :
    (s.wrote core ch x n).context k = s.context k := by
  unfold State.wrote
  split <;> rfl

/-- A transfer whose bytes are delivered, without a flag, leaves its channel (R333). -/
theorem State.chanFinish_done {s : State} {core ch : Nat} {x : Xfer} (hx : s.chanXfers core ch = [x]) (hlag : x.lag = 0)
    (hbound : (s.context x.ctx).unbinding = false) (hstuck : x.stuck = false) (hwire : x.wire = none)
    (hdone : ¬ x.done < x.total) (hflag : x.flag = 0) : s.chanFinish core ch = s.dropHead core ch := by
  have hunbinds : s.unbinds x = false := by rw [State.unbinds, hbound, Bool.false_and]
  have hout : decide (x.done < x.total) = false := decide_eq_false hdone
  unfold State.chanFinish
  simp only [hx, hlag, hunbinds, hstuck, hwire, hout, hflag, Option.isSome_none, Bool.or_self, Bool.false_eq_true, if_false,
    if_true]

/-- A stopped transfer stays at the head of its channel (R430). -/
theorem State.chanFinish_stuck {s : State} {core ch : Nat} {x : Xfer} (hx : s.chanXfers core ch = [x]) (hlag : x.lag = 0)
    (hbound : (s.context x.ctx).unbinding = false) (hstuck : x.stuck = true) : s.chanFinish core ch = s := by
  have hunbinds : s.unbinds x = false := by rw [State.unbinds, hbound, Bool.false_and]
  unfold State.chanFinish
  simp only [hx, hlag, hunbinds, hstuck, Bool.true_or, Bool.false_eq_true, if_false, if_true]

/-- A state that goes on with other free values (log 6). -/
def State.freeFrom (s : State) (n : Nat) : State := { s with free := n }

theorem CacheMove.freeFrom (s : State) (n : Nat) : CacheMove s (s.freeFrom n) := .of_same rfl rfl rfl rfl rfl rfl rfl rfl

theorem State.core_freeFrom (s : State) (n c : Nat) : (s.freeFrom n).core c = s.core c := rfl

theorem State.chanXfers_freeFrom (s : State) (n core ch : Nat) : (s.freeFrom n).chanXfers core ch = s.chanXfers core ch := rfl

theorem State.copyDelivery_one {s t : State} {core ch : Nat} (h : s.chanStep core ch = some t) :
    exec (.copyDelivery core ch 1) s = .next ((t.chanFinish core ch).freeFrom ((t.chanFinish core ch).free + 2 ^ 25)) := by
  have hrun : s.chanRun core ch 1 = t.chanFinish core ch := by
    rw [State.chanRun, h]
    rfl
  change execCopyDelivery core ch 1 s = _
  rw [execCopyDelivery, hrun, State.freeFrom]

section

variable {s : State} {core ch : Nat} {x : Xfer} {p q : Nat} {pg : PageMap} (h : LastByte s core ch x p q pg)

include h

/-- The last byte is delivered: written, counted, and its transfer ended (R333). -/
theorem LastByte.delivers (hadmits : Cells.get s.frameLab (p / 4096) &&& ~~~pg.mask = 0)
    (hup : s.updating x.id x.scp x.team = false) (hpeer : ∀ y ∈ s.fabric.peerLines, y.1 ≠ q / 128) :
    ∃ t, exec (.copyDelivery core ch 1) s = .next t ∧
      HomeWrite s t q 1 (Cells.get s.mem p).toNat (Cells.get s.frameLab (p / 4096) ||| x.lab) ∧
      t.chanXfers core ch = [] ∧
      (Cells.get (t.core core).chans ch).ptr = (Cells.get (s.core core).chans ch).ptr + 1 := by
  have hread := Unhindered.byteRead (scp := x.scp) (team := x.team) s x p
  have hwritten := Unhindered.byteWritten s core ch x p q hpeer
  have hheld : (s.byteWritten core ch x p q).chanXfers core ch = [x.withByte (s.byteAt p)] :=
    (hwritten.chanXfers core ch).trans h.held
  have hupd : (s.byteWritten core ch x p q).updating x.id x.scp x.team = false := hwritten.updating (hread.updating hup)
  have hptr : (Cells.get ((s.byteWritten core ch x p q).core core).chans ch).ptr = (Cells.get (s.core core).chans ch).ptr := by
    rw [hwritten.chans, State.byteHeld, State.setHead, State.chan_onChan, hread.chans]
  obtain ⟨hcounted, hpassed⟩ := State.wrote_performed (x := x.withByte (s.byteAt p)) hupd h.lag hheld 1
  have hbound : (((s.byteWritten core ch x p q).wrote core ch
      (x.withByte (s.byteAt p)) 1).context x.ctx).unbinding = false := by
    rw [State.context_wrote, hwritten.context]
    exact (congrArg Context.unbinding (hread.context x.ctx)).trans h.bound
  have hdone : ¬ x.done + 1 < x.total := by
    have := h.last
    omega
  have hfinish := State.chanFinish_done hcounted rfl hbound h.stuck h.wire hdone h.flag
  refine ⟨_, State.copyDelivery_one (h.chanStep_eq.trans (congrArg some (h.copyOne_admitted hadmits))), ?_⟩
  rw [hfinish, State.chanXfers_freeFrom, State.core_freeFrom]
  refine ⟨?_, State.chanXfers_dropHead hcounted, (State.ptr_dropHead _ _ _).trans (hpassed.trans ?_)⟩
  · exact ((HomeWrite.byteWritten s core ch x p q).after ((CacheMove.wrote _ _ _ _ _).trans (.dropHead _ _ _))).after
      (.freeFrom _ _)
  · rw [hptr]
    rfl

/-- The last byte is held back: its transfer stops where it stands, and nothing is written (R430). -/
theorem LastByte.stops (hbars : Cells.get s.frameLab (p / 4096) &&& ~~~pg.mask ≠ 0) :
    ∃ t, exec (.copyDelivery core ch 1) s = .next t ∧ CacheMove s t ∧
      ∃ y, t.chanXfers core ch = [y] ∧ y.stuck = true ∧ y.done = x.done ∧ y.id = x.id := by
  have hread := Unhindered.byteRead (scp := x.scp) (team := x.team) s x p
  have hbound : ((s.byteRead x p).context x.ctx).unbinding = false :=
    (congrArg Context.unbinding (hread.context x.ctx)).trans h.bound
  have hstopped : ((s.byteHeld core ch x p).copyStop core ch (x.withByte (s.byteAt p))).chanXfers core ch =
      [{ x.withByte (s.byteAt p) with stuck := true }] := State.chanXfers_setHead h.held _
  have hfinish := State.chanFinish_stuck hstopped h.lag hbound rfl
  refine ⟨_, State.copyDelivery_one (h.chanStep_eq.trans (congrArg some (h.copyOne_barred hbars))), ?_⟩
  rw [hfinish]
  exact ⟨((CacheMove.byteHeld s core ch x p).trans (.onChan _ _ _ _)).trans (.freeFrom _ _), _, hstopped, rfl, rfl, rfl⟩

end

/-- Settles O39: the channel's one move reads the byte at its home, then writes and counts it or stops the transfer. -/
theorem copiesDeliver : Obligations.CopiesDeliver := by
  unfold Obligations.CopiesDeliver
  intro s core ch x p q pg halone hlast hflag hstuck hwire hover hslot hinbuf hlag hsource hpage htarget hblocked hclean hwhole
    hreset hbound
  have h : LastByte s core ch x p q pg := ⟨halone, hlast, hflag, hstuck, hwire, hover, hslot, hinbuf, hlag, hsource, hpage,
    htarget, hblocked, hclean, hwhole, hreset, hbound⟩
  refine ⟨fun hadmits hup hpeer => ?_, fun hbars => ?_⟩
  · obtain ⟨t, hexec, hwrote, hended, hptr⟩ := h.delivers hadmits hup hpeer
    refine ⟨t, hexec, ⟨fun _ hp => hwrote.get_out hp, hwrote.get_frameLab, hwrote.host.1, fun j _ => ?_⟩, ?_, hended, hptr⟩
    · rw [State.team, hwrote.teams]
      rfl
    · have hbyte := hwrote.readLE
      rw [Cells.readLE_one, Nat.mod_eq_of_lt (Cells.get s.mem p).isLt] at hbyte
      exact BitVec.eq_of_toNat_eq hbyte
  · obtain ⟨t, hexec, hmoved, hstopped⟩ := h.stops hbars
    exact ⟨t, hexec, hmoved.mem, hmoved.frameLab, hstopped⟩

end Machine
end Sys2Proof
end

section
/-! PROOFS. What a translation does is walk, mark an entry, fill and drop TLBs (R225-R227); so a relation that these keep holds
between the states before and after it. No translation touches a channel. -/

namespace Sys2Proof.Machine

/-! ## What the steps of a translation keep -/

/-- A relation of states that holds across each of the steps of a translation. -/
structure WalkClosed (R : State → State → Prop) : Prop where
  refl : ∀ s, R s s
  trans : ∀ {s t u}, R s t → R t u → R s u
  onDie : ∀ s d f, R s (s.onDie d f)
  onTlb : ∀ s c (f : Core → List TlbEnt), R s (s.onCore c (fun x => { x with tlb := f x }))
  hostFail : ∀ s l, R s { s with hostFail := l }
  pteOr : ∀ s at_ bits, R s (s.pteOr at_ bits)

section

variable {R : State → State → Prop} (h : WalkClosed R)

include h

theorem WalkClosed.tlbForget (s : State) (core ctx vpage : Nat) : R s (s.tlbForget core ctx vpage) :=
  h.trans (h.onTlb s core _) (h.onDie _ _ _)

theorem WalkClosed.tlbFill (s : State) (core : Nat) (e : TlbEnt) : R s (s.tlbFill core e) :=
  h.trans (h.onTlb s core _) (h.onDie _ _ _)

theorem WalkClosed.walkFor (s : State) (core ctx va : Nat) : R s (s.walkFor core ctx va).1 := by
  unfold State.walkFor
  dsimp only
  split
  · exact h.refl s
  · dsimp only
    exact h.onDie s _ _

theorem WalkClosed.leafFor (s : State) (core ctx va : Nat) (need : Need) : R s (s.leafFor core ctx va need).1 := by
  have walked := h.walkFor s core ctx va
  have marked (t : State) (at_ bits : Nat) (e : TlbEnt) : R t ((t.pteOr at_ bits).tlbFill core e) :=
    h.trans (h.pteOr t at_ bits) (h.tlbFill _ _ _)
  unfold State.leafFor
  dsimp only
  split
  · split
    · split
      · next e => rw [e] at walked; exact h.trans walked (h.tlbForget _ _ _ _)
      · next e => rw [e] at walked; exact h.trans walked (marked _ _ _ _)
    · exact h.refl s
  · split
    · next e => rw [e] at walked; exact walked
    · next e => rw [e] at walked; exact h.trans walked (marked _ _ _ _)

/-- A leaf leads to a place, or fails and is dropped, or its host half fails. -/
theorem WalkClosed.leafPlace (s : State) (ctx a : Nat) (need : Need) (e : TlbEnt) {drop : State → State}
    (hd : R s (drop s)) : R s (s.leafPlace ctx a need e drop).1 := by
  unfold State.leafPlace
  dsimp only
  split
  · exact hd
  · split
    · exact h.refl s
    · split
      · exact hd
      · split
        · exact hd
        · split
          · exact hd
          · split
            · exact h.refl s
            · split
              · exact hd
              · exact h.refl s
    · split
      · exact h.hostFail s _
      · exact h.refl s

theorem WalkClosed.translate (s : State) (core ctx : Nat) (va : DWord) (need : Need) :
    R s (s.translate core ctx va need).1 := by
  have leaf := h.leafFor s core ctx va.toNat need
  unfold State.translate
  split
  · next e => rw [e] at leaf; exact leaf
  · next e => rw [e] at leaf; exact h.trans leaf (h.leafPlace _ _ _ _ _ (h.tlbForget _ _ _ _))

/-- The device's own walk of a page table (R192, R286). -/
theorem WalkClosed.walkPlace (s : State) (ctx : Nat) (va : DWord) (need : Need) : R s (s.walkPlace ctx va need).1 := by
  unfold State.walkPlace
  dsimp only
  split
  · exact h.refl s
  · split
    · exact h.refl s
    · split
      · exact h.pteOr s _ _
      · have placed (t : State) (e : TlbEnt) : R t (t.leafPlace ctx va.toNat need e id).1 :=
          h.leafPlace t ctx _ need e (h.refl t)
        split
        · next e => exact h.trans (h.pteOr s _ _) (e ▸ placed _ _)
        · next e => exact h.trans (h.pteOr s _ _) (e ▸ placed _ _)

/-- The pages of a range are translated one after another (R332). -/
theorem WalkClosed.mapPages (c : Cx) (s : State) (r : Rows) (need : Need) (access : Nat) (lab : Label) :
    R s (c.mapPages s r need access lab).1 := by
  unfold Cx.mapPages
  refine List.foldlRecOn r.pages _ (motive := fun acc : State × Except FaultInfo (List (PageMap × Option DWord)) => R s acc.1)
    (h.refl s) (fun acc hacc p _ => ?_)
  split
  · exact hacc
  · dsimp only
    split
    · have hpage := h.translate acc.1 c.core c.ctx (BitVec.ofNat 64 (4096 * p)) need
      split
      · next e => rw [e] at hpage; exact h.trans hacc hpage
      · next e => rw [e] at hpage; exact h.trans hacc hpage
    · exact hacc
    · split
      · exact hacc
      · exact hacc
      · exact hacc

end

/-! ## Channels across a translation -/

/-- The channels of every core stayed. -/
def SameChans (s t : State) : Prop := ∀ c, (t.core c).chans = (s.core c).chans

theorem SameChans.refl (s : State) : SameChans s s := fun _ => rfl

theorem SameChans.trans {s t u : State} (h : SameChans s t) (g : SameChans t u) : SameChans s u :=
  fun c => (g c).trans (h c)

theorem SameChans.foldl {α : Type} {f : State → α → State} (hf : ∀ s x, SameChans s (f s x)) (l : List α) (s : State) :
    SameChans s (l.foldl f s) :=
  List.foldlRecOn l f (motive := SameChans s) (.refl s) (fun _ h x _ => h.trans (hf _ x))

theorem SameChans.ite {p : Prop} [Decidable p] {s t u : State} (h : SameChans s t) (g : SameChans s u) :
    SameChans s (if p then t else u) := by
  split
  · exact h
  · exact g

theorem SameChans.of_unhindered {scp : Scope} {team : Nat} {s t : State} (h : Unhindered scp team s t) : SameChans s t :=
  h.chans

theorem SameChans.onCore (s : State) (c : Nat) {f : Core → Core} (hf : ∀ x, (f x).chans = x.chans := by intro _; rfl) :
    SameChans s (s.onCore c f) := (Unhindered.onCore (scp := .sys) (team := 0) s c hf).chans

theorem SameChans.noteForward (s : State) (die : Nat) : SameChans s (s.noteForward die) := fun _ => rfl

theorem SameChans.forwardOut (s : State) (id key : Nat) (bs : List Byte) : SameChans s (s.forwardOut id key bs) := by
  refine .foldl (fun t y => ?_) _ s
  exact .ite (fun _ => rfl) (.refl t)

theorem SameChans.forward (s : State) (w : Writer) (key n x : Nat) (lab : Label) : SameChans s (s.forward w key n x lab) := by
  have out := SameChans.forwardOut s w.id key (bytesOf n x)
  refine (SameChans.ite out (out.trans (.noteForward _ _))).trans (.foldl (fun t c => ?_) _ _)
  split
  · exact .onCore t c
  · exact .ite (Unhindered.trans (.applyBefore t c key n) (.l1Write (scp := .sys) (team := 0) _ _ _ _ _)).chans (fun _ => rfl)

theorem SameChans.store (s : State) (w : Writer) (pa n x : Nat) (lab : Label) :
    SameChans s (s.store w (.dev pa) n x lab) := by
  have written : SameChans s (s.writeHome (.dev pa) n x lab w.who) :=
    (Unhindered.writeHome (scp := .sys) (team := 0) s pa n x lab w.who).chans
  exact written.trans (.forward _ _ _ _ _ _)

theorem walkClosed_sameChans : WalkClosed SameChans where
  refl := .refl
  trans := .trans
  onDie _ _ _ := fun _ => rfl
  onTlb s c _ := .onCore s c
  hostFail _ _ := fun _ => rfl
  pteOr s at_ _ := .store s {} at_ 8 _ 0

/-- A translation places every team where it was. -/
theorem walkClosed_sameTeams : WalkClosed (fun s t => t.teams = s.teams) where
  refl _ := rfl
  trans h g := g.trans h
  onDie _ _ _ := rfl
  onTlb _ _ _ := rfl
  hostFail _ _ := rfl
  pteOr s at_ _ := (HomeWrite.store s {} at_ 8 _ 0).teams

end Sys2Proof.Machine
end

section
/-! PROOFS. COPY and CHRST: a transfer accepted behind those of its channel, a full channel, a channel that is reset (R330-R335;
O27). -/

namespace Sys2Proof.Machine

/-! ## The checks of acceptance -/

theorem WalkClosed.of_pages {R : State → State → Prop} (h : WalkClosed R) {c : Cx} {s t : State} {r : Rows} {need : Need}
    {access : Nat} {lab : Label} {x : Except FaultInfo (List (PageMap × Option DWord))}
    (e : c.mapPages s r need access lab = (t, x)) : R s t := by
  have pages := h.mapPages c s r need access lab
  rw [e] at pages
  exact pages

/-- The source, the destination and the flag of a transfer are translated in turn (R332). -/
theorem WalkClosed.of_pages₃ {R : State → State → Prop} (h : WalkClosed R) {c : Cx} {s s1 s2 s3 : State} {sr dr fr : Rows}
    {n1 n2 n3 : Need} {a1 a2 a3 : Nat} {l1 l2 l3 : Label} {x y z : Except FaultInfo (List (PageMap × Option DWord))}
    (e1 : c.mapPages s sr n1 a1 l1 = (s1, x)) (e2 : c.mapPages s1 dr n2 a2 l2 = (s2, y))
    (e3 : c.mapPages s2 fr n3 a3 l3 = (s3, z)) : R s s3 := h.trans (h.trans (h.of_pages e1) (h.of_pages e2)) (h.of_pages e3)

/-- A transfer set down behind those of its channel. -/
def State.pushXfer (s : State) (core ch : Nat) (z : Xfer) : State :=
  s.onChan core ch (fun x => { x with xfers := x.xfers ++ [z] })

/-- A transfer that asks for ranges, flag and labels, of a team at a place in the program, and of which nothing is done. -/
structure Xfer.Asks (z : Xfer) (c : Cx) (shp : Shape) (dom : Dom) (cap : Scope) (sr dr : Rows) (flag : DWord) (lab : Label)
    (sm dm fm : List (PageMap × Option DWord)) : Prop where
  src : z.src = sr.base
  sstr : z.sstr = sr.stride
  rows : z.rows = sr.rows
  rb : z.rb = sr.bytes
  dst : z.dst = dr.base
  dstr : z.dstr = dr.stride
  flag : z.flag = flag
  shape : z.shape = shp
  dom : z.dom = dom
  scp : z.scp = cap
  team : z.team = c.n.team
  done : z.done = 0
  pc : z.pc = c.n.pc
  srcMap : z.srcMap = sm.map (·.1)
  dstMap : z.dstMap = dm.map (·.1)
  flagMap : z.flagMap = fm.map (·.1)
  lab : z.lab = lab

section

variable {c : Cx} {sr dr : Rows} {flag : DWord} {s1 s2 s3 : State} {sm dm fm : List (PageMap × Option DWord)}
  {lab flagLab srcLab dstLab : Label}

/-- What the acceptance of a transfer does beside queueing it: it overlaps the array's reads of its slot (R256). -/
def Overlaps (c : Cx) (s : State) (hit : State × Option Label) : Prop :=
  hit = (s, none) ∨ ∃ due f, hit = s.clashArray c.core c.n.team true due f

/-- Ranges that pass every check of R332 are accepted. -/
theorem Cx.copyChecked_accepts (shp : Shape) (dom : Dom) (scp cap : Scope) (ch : Nat) (hbuf : c.buffers = false)
    (hslot : field dr.base 63 60 = 12 → (Cells.get (c.s.core c.core).slots (field dr.base 18 16)).holder = some c.n.team)
    (hsm : c.mapPages c.s sr .read 4 srcLab = (s1, .ok sm)) (hdm : c.mapPages s1 dr .write 5 dstLab = (s2, .ok dm))
    (hfm : c.mapPages s2 { base := flag, rows := if flag = 0 then 0 else 1, stride := 0, bytes := 8 } .flag 6 flagLab = (s3, .ok fm))
    (hlocal : ∀ y ∈ sm ++ dm, peerOf y.2 = none ∧ floorBars dom y.2 = false) (hflag : ∀ y ∈ fm, peerOf y.2 = none)
    (hopen : ∀ y ∈ dm, y.1.mask = 0xFFFF) : ∃ hit z, Overlaps c s3 hit ∧
      c.copyChecked shp dom scp ch false cap sr dr flag lab flagLab srcLab dstLab = { s := hit.1.fresh.pushXfer c.core ch z } ∧
      z.Asks c shp dom cap sr dr flag lab sm dm fm := by
  have htargets : ∀ o ∈ (if dm.isEmpty then [none] else dm.map (fun y => peerOf y.2)), o = none := by
    intro o ho
    split at ho
    · exact List.mem_singleton.mp ho
    · obtain ⟨y, hy, rfl⟩ := List.mem_map.mp ho
      exact (hlocal y (List.mem_append_right _ hy)).1
  have hnone (fp : Option Nat) (hfp : fp = none) : (if flag = 0 then
      (if dm.isEmpty then [none] else dm.map (fun y => peerOf y.2)).any (·.isSome)
      else (if dm.isEmpty then [none] else dm.map (fun y => peerOf y.2)).any (· != fp)) = false := by
    subst hfp
    split
    · exact List.any_eq_false.mpr (fun o ho => by rw [htargets o ho]; exact Bool.false_ne_true)
    · exact List.any_eq_false.mpr (fun o ho => by rw [htargets o ho]; exact Bool.false_ne_true)
  have hsfloor : sm.any (fun y => floorBars dom y.2) = false :=
    List.any_eq_false.mpr (fun y hy => by rw [(hlocal y (List.mem_append_left _ hy)).2]; exact Bool.false_ne_true)
  have hdfloor : dm.any (fun y => floorBars dom y.2) = false :=
    List.any_eq_false.mpr (fun y hy => by rw [(hlocal y (List.mem_append_right _ hy)).2]; exact Bool.false_ne_true)
  have hegress : dm.any (fun y => y.1.mask != 0xFFFF) = false :=
    List.any_eq_false.mpr (fun y hy => by rw [hopen y hy]; exact Bool.false_ne_true)
  have hok (v : State) (z : Xfer) (hz : z.egress = dm.any (fun y => y.1.mask != 0xFFFF)) : v.copyEgressOk z = true := by
    rw [State.copyEgressOk, hz, hegress]
    rfl
  unfold Cx.copyChecked
  by_cases htag : field dr.base 63 60 = 12
  · have hheld : ((Cells.get (c.s.core c.core).slots (field dr.base 18 16)).holder != some c.n.team) = false := by
      rw [hslot htag]
      exact bne_self_eq_false _
    simp only [hsm, hdm, hfm, hsfloor, hdfloor, if_pos htag, hheld, Bool.false_eq_true, if_false]
    rw [hnone _ (by cases fm with | nil => rfl | cons y _ => exact hflag y List.mem_cons_self), if_neg Bool.false_ne_true,
      hok _ _ rfl]
    simp only [Cx.accept, hbuf, Bool.not_true, Bool.false_eq_true, if_false]
    exact ⟨_, _, .inr ⟨_, _, rfl⟩, rfl, rfl, rfl, rfl, rfl, rfl, rfl, rfl, rfl, rfl, rfl, rfl, rfl, rfl, rfl, rfl, rfl, rfl⟩
  · simp only [hsm, hdm, hfm, hsfloor, hdfloor, if_neg htag, Bool.false_eq_true, if_false]
    rw [hnone _ (by cases fm with | nil => rfl | cons y _ => exact hflag y List.mem_cons_self), if_neg Bool.false_ne_true,
      hok _ _ rfl]
    simp only [Cx.accept, hbuf, Bool.not_true, Bool.false_eq_true, if_false]
    exact ⟨(s3, none), _, .inl rfl, rfl, rfl, rfl, rfl, rfl, rfl, rfl, rfl, rfl, rfl, rfl, rfl, rfl, rfl, rfl, rfl, rfl, rfl⟩

end

/-! ## COPY -/

section

variable {h : Hdr} {scp : Scope} {dom : Dom} {wf wd wc : BitVec 6} {shp : Shape} {ch : BitVec 2} {s : State} {n : Now}

theorem Cx.direct_spec {c : Cx} (hd : c.direct scp = true) :
    ¬ c.s.scopeCap (c.s.context c.ctx) < scp.rank ∧ c.buffers = false := by
  simp only [Cx.direct, Bool.and_eq_true, decide_eq_true_eq, Bool.not_eq_true'] at hd
  obtain ⟨⟨⟨hcap, halmanac⟩, -⟩, -⟩ := hd
  exact ⟨Nat.not_lt.mpr hcap, by rw [Cx.buffers, halmanac, Bool.false_and]⟩

/-- A channel with 16 accepted transfers holds the strands of a COPY (R333). -/
theorem copy_full (hi : Issues (.copy h scp dom wf wd wc shp ch) s n = true)
    (hd : (ctxOf (.copy h scp dom wf wd wc shp ch) s n).direct scp = true)
    (hfull : 16 ≤ (s.accepted (s.team n.team).core ch.toNat).length)
    (hs : Steady (.copy h scp dom wf wd wc shp ch) s n = true) :
    Stays (.copy h scp dom wf wd wc shp ch) s n s (.held (.chan ch.toNat)) := by
  have hcap : decide ((ctxOf (.copy h scp dom wf wd wc shp ch) s n).s.scopeCap
      ((ctxOf (.copy h scp dom wf wd wc shp ch) s n).s.context (ctxOf (.copy h scp dom wf wd wc shp ch) s n).ctx) < scp.rank) = false :=
    decide_eq_false (Cx.direct_spec hd).1
  refine stays_of_issue _ hi rfl hs rfl ?_
  simp only [hcap, Bool.false_and, Bool.false_eq_true, if_false]
  exact if_pos hfull

/-- A descriptor that is not legal traps ILLEGAL_FIELD in every active lane (R330, R331). -/
theorem copy_misformed (hi : Issues (.copy h scp dom wf wd wc shp ch) s n = true)
    (hd : (ctxOf (.copy h scp dom wf wd wc shp ch) s n).direct scp = true)
    (hroom : (s.accepted (s.team n.team).core ch.toNat).length < 16)
    (hnone : copyRanges shp ((ctxOf (.copy h scp dom wf wd wc shp ch) s n).w wc.toNat)
      ((ctxOf (.copy h scp dom wf wd wc shp ch) s n).w (wc.toNat + 1))
      ((ctxOf (.copy h scp dom wf wd wc shp ch) s n).w wd.toNat)
      ((ctxOf (.copy h scp dom wf wd wc shp ch) s n).w (wd.toNat + 1)) = none) :
    Finishes (.copy h scp dom wf wd wc shp ch) s n { s := s, ends :=
      (ctxOf (.copy h scp dom wf wd wc shp ch) s n).lanesA.map (fun l => (l, .trap { lane := l, cause := .illegalField } false)) } := by
  have hcap : decide ((ctxOf (.copy h scp dom wf wd wc shp ch) s n).s.scopeCap
      ((ctxOf (.copy h scp dom wf wd wc shp ch) s n).s.context (ctxOf (.copy h scp dom wf wd wc shp ch) s n).ctx) < scp.rank) = false :=
    decide_eq_false (Cx.direct_spec hd).1
  refine finishes_of_issue _ hi rfl ?_ rfl
  simp only [hcap, Bool.false_and, Bool.false_eq_true, if_false]
  refine (if_neg (Nat.not_le.mpr hroom)).trans ?_
  rw [hnone]
  rfl

/-! ## What acceptance leaves -/

theorem Overlapped.of_overlaps {c : Cx} {s : State} {hit : State × Option Label} (h : Overlaps c s hit) (k w core : Nat) :
    Overlapped k w core s hit.1 := by
  rcases h with rfl | ⟨due, f, rfl⟩
  · exact .refl s
  · exact .clashArray ..

theorem Overlapped.pushXfer {k w c : Nat} (s : State) (core ch : Nat) (z : Xfer) :
    Overlapped k w c s (s.pushXfer core ch z) := by
  unfold State.pushXfer State.onChan
  exact .onCore s core

theorem SameChans.of_overlaps {c : Cx} {s : State} {hit : State × Option Label} (h : Overlaps c s hit) : SameChans s hit.1 := by
  rcases h with rfl | ⟨due, f, rfl⟩
  · exact .refl s
  · unfold State.clashArray
    dsimp only
    split
    · exact .refl s
    · have marked (t : State) (m : MatEnt) : SameChans t (t.clashResult m.team m.warp m.id) := .ite (.refl t) (fun _ => rfl)
      generalize hX : List.foldl _ s _ = X
      have results : SameChans s X := hX ▸ .foldl (fun t m => marked t m) _ s
      exact results.trans (.onCore X c.core)

theorem State.chans_pushXfer (s : State) (core ch : Nat) (z : Xfer) :
    Cells.get ((s.pushXfer core ch z).core core).chans ch =
      { Cells.get (s.core core).chans ch with xfers := (Cells.get (s.core core).chans ch).xfers ++ [z] } := by
  rw [State.pushXfer, State.chan_onChan]

/-- What the descriptors of a COPY carry, in its labels (R331). -/
def Cx.copyLab (x : Cx) (wc wd : BitVec 6) : Label :=
  x.labW wc.toNat ||| x.labW (wc.toNat + 1) ||| x.labW wd.toNat ||| x.labW (wd.toNat + 1) ||| x.ambient

/-- A COPY whose ranges pass every check of R332 is accepted (R330, R333). -/
theorem copy_accepted {x : Cx} (hx : x = ctxOf (.copy h scp dom wf wd wc shp ch) s n)
    (hi : Issues (.copy h scp dom wf wd wc shp ch) s n = true) (hd : x.direct scp = true)
    (hroom : (s.accepted (s.team n.team).core ch.toNat).length < 16) {sr dr : Rows} {s1 s2 s3 : State}
    {sm dm fm : List (PageMap × Option DWord)}
    (hranges : copyRanges shp (x.w wc.toNat) (x.w (wc.toNat + 1)) (x.w wd.toNat) (x.w (wd.toNat + 1)) = some (sr, dr))
    (halign : (x.w wf.toNat).toNat % 8 = 0) (hsr : s.rangeOk n.team n.warp sr false = true)
    (hdr : s.rangeOk n.team n.warp dr true = true) (hspace : field (x.w wf.toNat) 63 57 = 0)
    (hslot : field dr.base 63 60 = 12 →
      (Cells.get (s.core (s.team n.team).core).slots (field dr.base 18 16)).holder = some n.team)
    (hsm : x.mapPages s sr .read 4 (x.labW wc.toNat) = (s1, .ok sm))
    (hdm : x.mapPages s1 dr .write 5 (x.labW wd.toNat) = (s2, .ok dm))
    (hfm : x.mapPages s2 { base := x.w wf.toNat, rows := if x.w wf.toNat = 0 then 0 else 1, stride := 0, bytes := 8 } .flag 6
      (x.labW wf.toNat) = (s3, .ok fm))
    (hlocal : ∀ y ∈ sm ++ dm, peerOf y.2 = none ∧ floorBars dom y.2 = false) (hflag : ∀ y ∈ fm, peerOf y.2 = none)
    (hopen : ∀ y ∈ dm, y.1.mask = 0xFFFF) :
    ∃ base z, Completes (.copy h scp dom wf wd wc shp ch) s n base [] ∧ SameBytes base s3 ∧
      Cells.get (base.core (s.team n.team).core).chans ch.toNat =
        { Cells.get (s.core (s.team n.team).core).chans ch.toNat with
          xfers := (Cells.get (s.core (s.team n.team).core).chans ch.toNat).xfers ++ [z] } ∧
      z.Asks x shp dom scp sr dr (x.w wf.toNat) (x.copyLab wc wd) sm dm fm := by
  subst hx
  obtain ⟨hcap, hbuf⟩ := Cx.direct_spec hd
  obtain ⟨hit, z, hover, hchecked, hasks⟩ := Cx.copyChecked_accepts shp dom scp scp ch.toNat hbuf hslot hsm hdm hfm hlocal hflag
    hopen (lab := (ctxOf (.copy h scp dom wf wd wc shp ch) s n).copyLab wc wd)
  have hteams : s3.teams = s.teams := walkClosed_sameTeams.of_pages₃ hsm hdm hfm
  have hchans : SameChans s s3 := walkClosed_sameChans.of_pages₃ hsm hdm hfm
  have hfresh : Overlapped n.team n.warp (s.team n.team).core hit.1 hit.1.fresh := .of_matrix rfl rfl rfl rfl
  have hkeep : Overlapped n.team n.warp (s.team n.team).core s3
      (hit.1.fresh.pushXfer (s.team n.team).core ch.toNat z) :=
    ((Overlapped.of_overlaps hover _ _ _).trans hfresh).trans (.pushXfer _ _ _ _)
  refine ⟨hit.1.fresh.pushXfer (s.team n.team).core ch.toNat z, z, completes_of_eff (result := none) _ hi rfl ?_
    (hkeep.placed (hteams ▸ issues_placed hi))
    (unspilled_of_slices (hkeep.slices.trans (congrArg Warp.slices (State.warp_of_teams hteams _ _))) (issues_unspilled hi)) nofun,
    hkeep.bytes, ?_, hasks⟩
  · have hbeyond : decide ((ctxOf (.copy h scp dom wf wd wc shp ch) s n).s.scopeCap
        ((ctxOf (.copy h scp dom wf wd wc shp ch) s n).s.context (ctxOf (.copy h scp dom wf wd wc shp ch) s n).ctx) < scp.rank) =
        false := decide_eq_false hcap
    simp only [hbeyond, Bool.false_and, Bool.false_eq_true, if_false]
    refine (if_neg (Nat.not_le.mpr hroom)).trans ?_
    rw [hranges]
    simp only [halign, hspace, ne_eq, not_true, if_false]
    refine (if_neg (ne_true_of_eq_false (congrArg (!·) hsr))).trans ((if_neg (ne_true_of_eq_false (congrArg (!·) hdr))).trans ?_)
    exact hchecked
  · rw [State.chans_pushXfer]
    have hc := (hchans.trans (SameChans.of_overlaps hover)) (s.team n.team).core
    have hfresh : Cells.get (hit.1.fresh.core (s.team n.team).core).chans ch.toNat =
        Cells.get (s.core (s.team n.team).core).chans ch.toNat := congrArg (Cells.get · ch.toNat) hc
    rw [hfresh]

end

/-! ## CHRST -/

section

variable {h : Hdr} {ch : BitVec 2} {s : State} {n : Now}

theorem State.accepted_dropStuck {s : State} {core ch : Nat} (hmoving : ∀ z ∈ s.accepted core ch, z.stuck = false)
    (among : List Nat) : (s.chanDropStuck core ch among).accepted core ch = s.accepted core ch := by
  have hall : (Cells.get (s.core core).chans ch).xfers.filter (fun x => !(x.stuck && among.contains x.id)) =
      (Cells.get (s.core core).chans ch).xfers := by
    refine List.filter_eq_self.mpr (fun z hz => ?_)
    rw [hmoving z (List.mem_append_left _ hz)]
    rfl
  have hchan : Cells.get ((s.chanDropStuck core ch among).core core).chans ch = Cells.get (s.core core).chans ch := by
    change Cells.get ((s.onChan core ch _).core core).chans ch = _
    rw [State.chan_onChan, hall]
  unfold State.accepted
  rw [hchan]
  rfl

theorem State.ptr_chanReset (s : State) (k ch : Nat) :
    (Cells.get ((s.chanReset k ch).core (s.team k).core).chans ch).ptr = 0 := by
  change Chan.ptr (Cells.get ((s.onChan (s.team k).core ch (fun z => { z with ptr := 0 })).core (s.team k).core).chans ch) = 0
  rw [State.chan_onChan]

theorem State.team_chanReset (s : State) (k ch : Nat) :
    (s.chanReset k ch).team k = { s.team k with chOff := Cells.erase (s.team k).chOff ch } := State.team_onTeam _ _ _

theorem State.chanView_chanReset (s : State) (k ch : Nat) : (s.chanReset k ch).chanView k ch = 0 := by
  rw [State.chanView, State.team_chanReset]
  dsimp only
  rw [State.ptr_chanReset, Cells.get_erase, if_pos rfl]
  rfl

theorem SameBytes.chanDropStuck (s : State) (core ch : Nat) (among : List Nat) : SameBytes (s.chanDropStuck core ch among) s :=
  .onCore _ _ _

theorem SameBytes.chanReset (s : State) (k ch : Nat) : SameBytes (s.chanReset k ch) s := by
  unfold State.chanReset
  exact (SameBytes.onTeam _ k).trans (.onCore _ _ _)

/-- The CHRST of a channel on which no transfer stands resets it (R335). -/
theorem chrst_resets (hi : Issues (.chrst h ch) s n = true) (hidle : s.accepted (s.team n.team).core ch.toNat = []) :
    ∃ base, Completes (.chrst h ch) s n base [] ∧ SameBytes base s ∧
      (Cells.get (base.core (s.team n.team).core).chans ch.toNat).ptr = 0 ∧ base.chanView n.team ch.toNat = 0 := by
  have hmoving : ∀ z ∈ s.accepted (s.team n.team).core ch.toNat, z.stuck = false := by
    rw [hidle]
    exact fun z hz => absurd hz List.not_mem_nil
  have hstill := (State.accepted_dropStuck hmoving ((s.accepted (s.team n.team).core ch.toNat).map (·.id))).trans hidle
  refine ⟨(s.chanDropStuck (s.team n.team).core ch.toNat ((s.accepted (s.team n.team).core ch.toNat).map (·.id))).chanReset
    n.team ch.toNat, completes_of_eff (result := none) _ hi rfl ?_ ?_ (unspilled_of_slices ?_ (issues_unspilled hi)) nofun, ?_,
    State.ptr_chanReset _ _ _, State.chanView_chanReset _ _ _⟩
  · exact if_pos (List.isEmpty_iff.mpr (congrArg (List.map (·.id)) hstill))
  · exact Option.isSome_iff_exists.mpr ⟨_, (Cells.find?_put ..).trans (if_pos rfl)⟩
  · unfold State.warp
    rw [State.team_chanReset]
    rfl
  · exact (SameBytes.chanReset _ _ _).trans (.chanDropStuck _ _ _ _)

/-- The CHRST of a channel waits for the transfers accepted before it (R335). -/
theorem chrst_waits (hi : Issues (.chrst h ch) s n = true) (hbusy : s.accepted (s.team n.team).core ch.toNat ≠ [])
    (hmoving : ∀ z ∈ s.accepted (s.team n.team).core ch.toNat, z.stuck = false) (hs : Steady (.chrst h ch) s n = true) :
    ∃ base, Parks (.chrst h ch) s n base (.held (.chrst ch.toNat ((s.accepted (s.team n.team).core ch.toNat).map (·.id)))) ∧
      SameBytes base s ∧ base.teams = s.teams := by
  have hstill := State.accepted_dropStuck hmoving ((s.accepted (s.team n.team).core ch.toNat).map (·.id))
  refine ⟨s.chanDropStuck (s.team n.team).core ch.toNat ((s.accepted (s.team n.team).core ch.toNat).map (·.id)),
    parks_of_body _ hi rfl hs ?_ rfl rfl, .chanDropStuck _ _ _ _, rfl⟩
  have hids : (((s.chanDropStuck (s.team n.team).core ch.toNat ((s.accepted (s.team n.team).core ch.toNat).map (·.id))).accepted
      (s.team n.team).core ch.toNat).map (·.id)).isEmpty ≠ true := by
    rw [hstill, ne_eq, List.isEmpty_iff, List.map_eq_nil_iff]
    exact hbusy
  refine (if_neg hids).trans ?_
  exact congrArg (fun l : List Xfer => ({
    s := s.chanDropStuck (s.team n.team).core ch.toNat ((s.accepted (s.team n.team).core ch.toNat).map (·.id))
    after := { st := .held (.chrst ch.toNat (l.map (·.id))) } } : Eff)) hstill

end

/-- Settles O27: COPY by whether its channel has room and its checks pass (`copy_full`, `copy_misformed`, `copy_accepted`), CHRST
by whether transfers stand before it. -/
theorem channelInstructions : Obligations.ChannelInstructions := by
  unfold Obligations.ChannelInstructions
  intro h scp dom wf wd wc shp ch s n
  refine ⟨fun hi hd => ⟨copy_full hi hd, copy_misformed hi hd, ?_⟩, fun hi => ⟨fun hidle => ?_, fun hbusy hmoving hs => ?_⟩⟩
  · intro sr dr s1 s2 s3 sm dm fm hroom hranges halign hsr hdr hspace hslot hsm hdm hfm hlocal hflag hopen
    obtain ⟨base, z, hcomplete, hbytes, hchan, hasks⟩ := copy_accepted rfl hi hd hroom hranges halign hsr hdr hspace hslot hsm hdm
      hfm hlocal hflag hopen
    exact ⟨base, z, hcomplete, hbytes, (congrArg Chan.xfers hchan :), (congrArg Chan.ptr hchan :), hasks.src, hasks.sstr, hasks.rows,
      hasks.rb, hasks.dst, hasks.dstr, hasks.flag, hasks.shape, hasks.dom, hasks.scp, hasks.team, hasks.done, hasks.pc,
      hasks.srcMap, hasks.dstMap, hasks.flagMap, hasks.lab⟩
  · exact chrst_resets hi hidle
  · exact chrst_waits hi hbusy hmoving hs

end Sys2Proof.Machine
end

section
/-! PROOFS. Traps: what pends, what is written into a frame, what a vectored strand starts with, and what an early operand cannot
raise (R7, R24, R341-R347; O34). -/

namespace Sys2Proof

/-! ## Several little-endian writes -/

theorem Cells.readLE_congr {m m' : Cells Byte} {key n : Nat} (h : ∀ a, key ≤ a → a < key + n → Cells.get m a = Cells.get m' a) :
    Cells.readLE m key n = Cells.readLE m' key n := by
  induction n generalizing key with
  | zero => rfl
  | succ n ih =>
    rw [Cells.readLE, Cells.readLE, h key (Nat.le_refl _) (by omega), ih (fun a ha hb => h a (by omega) (by omega))]

/-- Writes of numbers at offsets from a base, one after another: offset, width and value of each. -/
def Cells.writeAll (m : Cells Byte) (base : Nat) (ws : List (Nat × Nat × Nat)) : Cells Byte :=
  ws.foldl (fun m x => Cells.writeLE m (base + x.1) x.2.1 x.2.2) m

theorem Cells.get_writeAll_out {ws : List (Nat × Nat × Nat)} {base a : Nat} (m : Cells Byte)
    (h : ∀ x ∈ ws, a < base + x.1 ∨ base + x.1 + x.2.1 ≤ a) : Cells.get (Cells.writeAll m base ws) a = Cells.get m a :=
  List.foldlRecOn ws _ (motive := fun q => Cells.get q a = Cells.get m a) rfl
    (fun _ hq x hx => (Cells.get_writeLE_out _ (h x hx)).trans hq)

/-- What was written in a place that no later write touches. -/
theorem Cells.readLE_writeAll (m : Cells Byte) (base : Nat) (front back : List (Nat × Nat × Nat)) (off n v : Nat)
    (h : ∀ x ∈ back, off + n ≤ x.1 ∨ x.1 + x.2.1 ≤ off) :
    Cells.readLE (Cells.writeAll m base (front ++ (off, n, v) :: back)) (base + off) n = v % 2 ^ (8 * n) := by
  have hcut : Cells.writeAll m base (front ++ (off, n, v) :: back) =
      Cells.writeAll (Cells.writeLE (Cells.writeAll m base front) (base + off) n v) base back := by
    rw [Cells.writeAll, List.foldl_append]
    rfl
  rw [hcut, Cells.readLE_congr (fun a ha hb => Cells.get_writeAll_out _ (fun x hx => ?_)), Cells.readLE_writeLE]
  have := h x hx
  omega

namespace Machine

/-! ## The writes of a frame -/

/-- The writes of a frame into device memory are writes at their offsets from the frame's place (R343). -/
theorem State.writeFrame_dev (s : State) (k w : Nat) (lanes : List Nat) (pc va : DWord) (pa : Nat) (lab : Label)
    (ws : List (Nat × Nat × Nat)) : (s.writeFrame k w lanes pc va (.dev pa) lab ws).mem = Cells.writeAll s.mem pa ws ∧
      (s.writeFrame k w lanes pc va (.dev pa) lab ws).teams = s.teams := by
  induction ws generalizing s with
  | nil => exact ⟨rfl, rfl⟩
  | cons x ws ih =>
    obtain ⟨hmem, hteams⟩ := ih (s.hwStore k w lanes pc (va + BitVec.ofNat 64 x.1) ((Place.dev pa).add x.1) x.2.1 x.2.2 lab)
    have hwrote := HomeWrite.store s.fresh
      { id := s.nextId, core := (s.team k).core, team := k, dom := .sc, scp := .team, nol1 := false, who := s.whoOf (s.team k).ctx }
      (pa + x.1) x.2.1 x.2.2 lab
    refine ⟨hmem.trans ?_, hteams.trans hwrote.teams⟩
    exact congrArg (Cells.writeAll · pa ws) hwrote.mem

theorem Cause.code_lt (c : Cause) : c.code < 256 := by cases c <;> decide

/-- The writes of the lanes into a frame lie behind its first 32 bytes and within its 256. -/
def frameLanes (w : Warp) (n : Nat) (t : TrapRec) : List (Nat × Nat × Nat) :=
  t.lanes.flatMap (fun x =>
    [(32 + 8 * (x.lane % 4), 8, x.detail.toNat), (64 + 4 * (x.lane % 4), 4, x.cause.code * 256 + x.status.toNat),
     (80 + x.lane % 4, 1, (List.range 7).foldl (fun b k => b + ((Cells.get w.p k).getLsbD x.lane).toNat * 2 ^ k) 0)] ++
    (List.range 8).map (fun k =>
      (96 + 32 * (x.lane % 4) + 4 * k, 4, if k < n then (Cells.get w.v (k * 32 + x.lane)).toNat else 0)))

theorem frameLanes_bounds {w : Warp} {n : Nat} {t : TrapRec} {x : Nat × Nat × Nat} (hx : x ∈ frameLanes w n t) :
    32 ≤ x.1 ∧ x.1 + x.2.1 ≤ 256 := by
  obtain ⟨y, -, hx⟩ := List.mem_flatMap.mp hx
  rcases List.mem_append.mp hx with hx | hx
  · simp only [List.mem_cons, List.not_mem_nil, or_false] at hx
    rcases hx with rfl | rfl | rfl <;> dsimp only <;> omega
  · obtain ⟨k, hk, rfl⟩ := List.mem_map.mp hx
    have := List.mem_range.mp hk
    dsimp only
    omega

/-- The writes of a frame: cause, flags, lanes, PC, word and next PC, then its lanes (R343). -/
theorem Warp.frameWrites_eq (w : Warp) (n slice : Nat) {t : TrapRec} {x : LaneTrap} {xs : List LaneTrap} (h : t.lanes = x :: xs) :
    ∃ flags, w.frameWrites n slice t = [(0, 1, x.cause.code), (1, 1, flags), (2, 2, 0), (4, 4, slice * 256 + t.mask.toNat),
      (8, 8, t.pc.toNat), (16, 8, t.word.toNat), (24, 8, t.next.toNat)] ++ frameLanes w n t := by
  have hfirst : (t.lanes.head?.map (fun y : LaneTrap => y.cause.code)).getD 0 = x.cause.code := by rw [h]; rfl
  unfold Warp.frameWrites
  dsimp only
  rw [hfirst]
  exact ⟨_, rfl⟩

section

variable {w : Warp} {n slice pa : Nat} {t : TrapRec} {x : LaneTrap} {xs : List LaneTrap} (h : t.lanes = x :: xs) (m : Cells Byte)

include h

theorem get_frame_out {q : Nat} (hq : q < pa ∨ pa + 256 ≤ q) :
    Cells.get (Cells.writeAll m pa (w.frameWrites n slice t)) q = Cells.get m q := by
  obtain ⟨flags, hws⟩ := w.frameWrites_eq n slice h
  rw [hws]
  refine Cells.get_writeAll_out m (fun y hy => ?_)
  rcases List.mem_append.mp hy with hy | hy
  · simp only [List.mem_cons, List.not_mem_nil, or_false] at hy
    rcases hy with rfl | rfl | rfl | rfl | rfl | rfl | rfl <;> dsimp only <;> omega
  · have := frameLanes_bounds hy
    omega

theorem frame_cause : Cells.readLE (Cells.writeAll m pa (w.frameWrites n slice t)) pa 1 = x.cause.code := by
  obtain ⟨flags, hws⟩ := w.frameWrites_eq n slice h
  have hread := Cells.readLE_writeAll m pa [] ([(1, 1, flags), (2, 2, 0), (4, 4, slice * 256 + t.mask.toNat), (8, 8, t.pc.toNat),
    (16, 8, t.word.toNat), (24, 8, t.next.toNat)] ++ frameLanes w n t) 0 1 x.cause.code (fun y hy => ?_)
  · rw [hws]
    exact hread.trans (Nat.mod_eq_of_lt x.cause.code_lt)
  · rcases List.mem_append.mp hy with hy | hy
    · simp only [List.mem_cons, List.not_mem_nil, or_false] at hy
      rcases hy with rfl | rfl | rfl | rfl | rfl | rfl <;> dsimp only <;> omega
    · have := frameLanes_bounds hy
      omega

theorem frame_pc : Cells.readLE (Cells.writeAll m pa (w.frameWrites n slice t)) (pa + 8) 8 = t.pc.toNat := by
  obtain ⟨flags, hws⟩ := w.frameWrites_eq n slice h
  have hread := Cells.readLE_writeAll m pa [(0, 1, x.cause.code), (1, 1, flags), (2, 2, 0), (4, 4, slice * 256 + t.mask.toNat)]
    ([(16, 8, t.word.toNat), (24, 8, t.next.toNat)] ++ frameLanes w n t) 8 8 t.pc.toNat (fun y hy => ?_)
  · rw [hws]
    exact hread.trans (Nat.mod_eq_of_lt t.pc.isLt)
  · rcases List.mem_append.mp hy with hy | hy
    · simp only [List.mem_cons, List.not_mem_nil, or_false] at hy
      rcases hy with rfl | rfl <;> dsimp only <;> omega
    · have := frameLanes_bounds hy
      omega

theorem frame_word : Cells.readLE (Cells.writeAll m pa (w.frameWrites n slice t)) (pa + 16) 8 = t.word.toNat := by
  obtain ⟨flags, hws⟩ := w.frameWrites_eq n slice h
  have hread := Cells.readLE_writeAll m pa [(0, 1, x.cause.code), (1, 1, flags), (2, 2, 0), (4, 4, slice * 256 + t.mask.toNat),
    (8, 8, t.pc.toNat)] ((24, 8, t.next.toNat) :: frameLanes w n t) 16 8 t.word.toNat (fun y hy => ?_)
  · rw [hws]
    exact hread.trans (Nat.mod_eq_of_lt t.word.isLt)
  · rcases List.mem_cons.mp hy with rfl | hy
    · exact .inl (by omega)
    · have := frameLanes_bounds hy
      omega

theorem frame_next : Cells.readLE (Cells.writeAll m pa (w.frameWrites n slice t)) (pa + 24) 8 = t.next.toNat := by
  obtain ⟨flags, hws⟩ := w.frameWrites_eq n slice h
  have hread := Cells.readLE_writeAll m pa [(0, 1, x.cause.code), (1, 1, flags), (2, 2, 0), (4, 4, slice * 256 + t.mask.toNat),
    (8, 8, t.pc.toNat), (16, 8, t.word.toNat)] (frameLanes w n t) 24 8 t.next.toNat (fun y hy => ?_)
  · rw [hws]
    exact hread.trans (Nat.mod_eq_of_lt t.next.isLt)
  · have := frameLanes_bounds hy
    omega

end

/-! ## Taking a trap (R341-R344) -/

/-- A strand that starts at the trap vector, with its loop set aside (R344). -/
def Strand.vectored (y : Strand) (tvec : DWord) : Strand :=
  { y with pc := tvec, trap := true, st := .ready, saved := y.loop, savedBuf := y.buf, loop := {}, buf := [], run := 0 }

/-- A slice whose oldest trap is taken. -/
def Slice.vectored (x : Slice) (tvec : DWord) (t : TrapRec) (rest : List TrapRec) : Slice :=
  { x.onStrand t.entry (fun y => y.vectored tvec) with pending := rest, cur := t.entry }

theorem Slice.strand_vectored {x : Slice} {t : TrapRec} (h : (Cells.find? x.strands t.entry).isSome = true) (tvec : DWord)
    (rest : List TrapRec) : (x.vectored tvec t rest).strand t.entry = (x.strand t.entry).vectored tvec := by
  obtain ⟨y, hy⟩ := Option.isSome_iff_exists.mp h
  change Cells.get (Cells.adjust x.strands t.entry (fun y => y.vectored tvec)) t.entry = _
  rw [Slice.strand, Cells.get_eq_find?, Cells.find?_adjust, if_pos rfl, hy, Cells.get_of_find? hy]
  rfl

theorem takeTrap_taken {s s1 : State} {k w slice pa : Nat} {t : TrapRec} {rest : List TrapRec} {leaf : DWord}
    (hpend : ((s.warp k w).slice slice).pending = t :: rest) (hok : (s.warp k w).trapAddrOk slice = true)
    (htrans : s.translate (s.team k).core (s.team k).ctx ((s.warp k w).frame slice) .write = (s1, .ok (.dev pa, leaf))) :
    ∃ (u : State) (n : Nat), s.takeTrap k w slice = u.onWarp k w (fun v => v.onSlice slice (fun x => x.vectored (s.warp k w).tvec t rest)) ∧
      u.mem = Cells.writeAll s1.mem pa ((s.warp k w).frameWrites n slice t) ∧ u.teams = s1.teams := by
  obtain ⟨hmem, hteams⟩ := s1.writeFrame_dev k w (laneList (sliceLanes slice t.mask)) t.pc ((s.warp k w).frame slice) pa
    ((s.warp k w).frameLabel (s1.hdr k).vregs t) ((s.warp k w).frameWrites (s1.hdr k).vregs slice t)
  refine ⟨_, _, ?_, hmem, hteams⟩
  unfold State.takeTrap
  simp only [hpend, hok, htrans, Bool.not_true, Bool.false_eq_true, if_false]
  rfl

theorem takeTrap_barred {s : State} {k w slice : Nat} {t : TrapRec} {rest : List TrapRec}
    (hpend : ((s.warp k w).slice slice).pending = t :: rest) (hbad : (s.warp k w).trapAddrOk slice = false) :
    s.takeTrap k w slice = s.doubleTrap k w slice t := by
  unfold State.takeTrap
  simp only [hpend, hbad, Bool.not_false, if_true]

/-! ## Raising a trap (R341, R342, R347) -/

/-- The record of a software trap of a strand that is alone in its slice. -/
def trapRecord (x : Slice) (n : Now) (entry l : Nat) (t : LaneTrap) (after : Bool) : TrapRec :=
  { entry, mask := 1#4 <<< (l % 4), pc := n.pc, word := n.word, next := if after then n.pc + 8 else n.pc, gang := n.gang
    delayed := (x.strand entry).trap || !x.pending.isEmpty, lanes := [t] }

theorem endOf_single (l k : Nat) (e : LaneEnd) : endOf [(l, e)] k = if l = k then some e else none := by
  by_cases h : l = k <;> simp [endOf, h]

/-- A trap of one lane pends in the slice of its strand, or is a double trap. -/
theorem raiseTraps_alone {s : State} {n : Now} {u : Nat × Nat} {l : Nat} {t : LaneTrap} {after : Bool} (hunits : n.units = [u])
    (hlane : l / 4 = u.1) (ht : t.lane = l) (hplaced : (Cells.find? s.teams n.team).isSome = true)
    (halone : ((s.warp n.team n.warp).slice u.1).strands = [(u.2, ((s.warp n.team n.warp).slice u.1).strand u.2)]) :
    s.raiseTraps n [(l, .trap t after)] =
      if (((s.warp n.team n.warp).slice u.1).strand u.2).trap then
        s.doubleTrap n.team n.warp u.1 (trapRecord ((s.warp n.team n.warp).slice u.1) n u.2 l t after)
      else s.onWarp n.team n.warp (fun v => v.onSlice u.1 (fun x =>
        { x with pending := x.pending ++ [trapRecord ((s.warp n.team n.warp).slice u.1) n u.2 l t after] })) := by
  have hgone : (Cells.find? s.teams n.team).isNone = false := by
    rw [Option.isNone_eq_false_iff]
    exact hplaced
  unfold State.raiseTraps
  rw [hunits, List.foldl_cons, List.foldl_nil]
  generalize hlanes : List.filterMap _ (List.range 4) = lanes
  have hone : lanes = [(t, after)] := by
    rw [← hlanes, show List.range 4 = [0, 1, 2, 3] from rfl]
    obtain h | h | h | h : l = 4 * u.1 ∨ l = 4 * u.1 + 1 ∨ l = 4 * u.1 + 2 ∨ l = 4 * u.1 + 3 := by omega
    · simp [endOf_single, h]
    · simp [endOf_single, h]
    · simp [endOf_single, h]
    · simp [endOf_single, h]
  subst hone
  have hentry (f : Nat × Strand → Bool) : ((List.find? f ((s.warp n.team n.warp).slice u.1).strands).map (·.1)).getD u.2 = u.2 := by
    rw [halone, List.find?_singleton]
    split <;> rfl
  have hany : ((s.warp n.team n.warp).slice u.1).strands.any (fun y => y.2.trap) =
      (((s.warp n.team n.warp).slice u.1).strand u.2).trap := by
    generalize ((s.warp n.team n.warp).slice u.1).strand u.2 = y at halone
    rw [halone]
    exact Bool.or_false _
  have hmask : (0 : BitVec 4) ||| 1#4 <<< (l % 4) = 1#4 <<< (l % 4) := BitVec.zero_or
  simp only [hgone, hentry, hany, hmask, List.foldl_cons, List.foldl_nil, ht, List.map_cons, List.map_nil, Bool.false_eq_true,
    if_false]
  rfl

theorem slice_onWarp_onSlice (s : State) (k w j : Nat) (f : Slice → Slice) :
    ((s.onWarp k w (fun v => v.onSlice j f)).warp k w).slice j = f ((s.warp k w).slice j) := by
  rw [State.warp_onWarp, Warp.slice_onSlice]

/-! ## Early operands (R7, R24) -/

theorem get_restoreFlags {old : Cells Flags} (ls : List Nat) (m : Cells Flags) {l : Nat} (h : l ∈ ls) :
    Cells.get (ls.foldl (fun m l => Cells.set m l (Cells.get old l)) m) l = Cells.get old l := by
  induction ls generalizing m with
  | nil => exact absurd h List.not_mem_nil
  | cons j js ih =>
    rw [List.foldl_cons]
    by_cases hin : l ∈ js
    · exact ih _ hin
    · obtain rfl : l = j := (List.mem_cons.mp h).resolve_right hin
      refine List.foldlRecOn js _ (motive := fun q => Cells.get q l = Cells.get old l) (Cells.get_set_self _ _ _) (fun q hq j hj => ?_)
      have hne : j ≠ l := fun e => hin (e ▸ hj)
      rw [Cells.get_set_ne _ _ hne, hq]

/-- No trap of a value is left in a lane whose operand is early. -/
theorem Cx.bounded_traps {c : Cx} {i : Instr} {body : Cx → Eff} {l : Nat} (hsoft : (c.softLanes i i.sources).getLsbD l = true)
    {t : LaneTrap} {after : Bool} (hmem : (l, LaneEnd.trap t after) ∈ (c.bounded i body).ends) : t.cause.ofValue = false := by
  have hne : c.softLanes i i.sources ≠ 0 := by
    intro h
    rw [h] at hsoft
    exact absurd hsoft (by simp)
  unfold Cx.bounded at hmem
  dsimp only at hmem
  rw [if_neg hne] at hmem
  dsimp only at hmem
  generalize (if c.act &&& ~~~c.softLanes i i.aims = 0 then ({ s := c.s } : Eff) else body _) = e at hmem
  obtain ⟨y, hy, hkeep⟩ := List.mem_filterMap.mp hmem
  by_contra hval
  split at hkeep
  · next hstay =>
    obtain rfl := Option.some.inj hkeep
    rw [Bool.not_eq_true', List.contains_eq_mem, decide_eq_false_iff_not] at hstay
    exact hstay (List.mem_map.mpr ⟨_, List.mem_filter.mpr ⟨hy, by simpa [hsoft] using hval⟩, rfl⟩)
  · split at hkeep
    · split at hkeep
      · exact absurd (congrArg Prod.snd (Option.some.inj hkeep)) nofun
      · exact nomatch hkeep
    · exact nomatch hkeep

/-- No sticky flag changes in a lane whose operand is early, but by SWR. -/
theorem Cx.bounded_flags {c : Cx} {i : Instr} {body : Cx → Eff} {l : Nat} (hsoft : (c.softLanes i i.sources).getLsbD l = true)
    (hi : ∀ h n a, i ≠ .swr h n a) :
    Cells.get ((c.bounded i body).s.warp c.n.team c.n.warp).fpflags l = Cells.get (c.s.warp c.n.team c.n.warp).fpflags l := by
  have hne : c.softLanes i i.sources ≠ 0 := by
    intro h
    rw [h] at hsoft
    exact absurd hsoft (by simp)
  unfold Cx.bounded
  dsimp only
  rw [if_neg hne]
  dsimp only
  split
  · next h n a => exact absurd rfl (hi h n a)
  · rw [State.warp_onWarp]
    exact get_restoreFlags _ _ (laneList_mem.mpr hsoft)

/-- Settles O34: a taken trap is the writes of its frame and a vectored strand, a raised one a record in its slice, and an early
operand's traps and flags are taken back. -/
theorem trapsAreRaisedAndEntered : Obligations.TrapsAreRaisedAndEntered := by
  unfold Obligations.TrapsAreRaisedAndEntered
  refine ⟨fun s s1 k w slice pa t rest x xs leaf hpend => ⟨fun hok hlanes htrans hfind => ?_, takeTrap_barred hpend⟩, ?_,
    fun c i body l hsoft => ⟨fun t after => Cx.bounded_traps hsoft, Cx.bounded_flags hsoft⟩⟩
  · obtain ⟨u, n, htaken, hmem, hteams⟩ := takeTrap_taken hpend hok htrans
    have hwarp : u.warp k w = s.warp k w := by
      refine State.warp_of_teams (hteams.trans ?_) k w
      have moved := walkClosed_sameTeams.translate s (s.team k).core (s.team k).ctx ((s.warp k w).frame slice) .write
      rw [htrans] at moved
      exact moved
    have hbytes : (s.takeTrap k w slice).mem = Cells.writeAll s1.mem pa ((s.warp k w).frameWrites n slice t) := by
      rw [htaken]
      exact hmem
    have hslice : ((s.takeTrap k w slice).warp k w).slice slice = ((s.warp k w).slice slice).vectored (s.warp k w).tvec t rest := by
      rw [htaken, slice_onWarp_onSlice, hwarp]
    have hkept : (s.takeTrap k w slice).warp k w =
        (s.warp k w).onSlice slice (fun x => x.vectored (s.warp k w).tvec t rest) := by
      rw [htaken, State.warp_onWarp, hwarp]
    dsimp only
    rw [hslice, hbytes]
    exact ⟨Slice.strand_vectored hfind _ _, rfl, rfl, fun q _ hq => get_frame_out hlanes _ hq, frame_cause hlanes _,
      frame_pc hlanes _, frame_word hlanes _, frame_next hlanes _, (congrArg Warp.v hkept :),
      (congrArg Warp.p hkept :), (congrArg Warp.w hkept :)⟩
  · intro s n u l t after hunits _ hlane ht hplaced
    dsimp only
    intro halone
    have hraise := raiseTraps_alone (after := after) hunits hlane ht hplaced halone
    refine ⟨fun hplain => ?_, fun htrap => hraise.trans (if_pos htrap)⟩
    rw [hraise, if_neg (ne_true_of_eq_false hplain), slice_onWarp_onSlice, State.warp_onWarp]
    exact ⟨rfl, rfl, rfl⟩

end Machine
end Sys2Proof
end

section
/-! PROOFS. The canonical form of device memory and of host memory: what it is carried by, and the operations that write bytes
(O59). -/

namespace Sys2Proof.Machine

/-! ## The form, and the shapes of a definition that carry it -/

/-- Device memory and host memory have their canonical form. -/
structure Canon (s : State) : Prop where
  mem : Memory.wf s.mem = true
  hostMem : Memory.wf s.hostMem = true

/-- The canonical form of the state that may come out. -/
def CanonOpt (o : Option State) : Prop := ∀ t, o = some t → Canon t

/-- The canonical form of the state of the answer that may come out. -/
def CanonAns {β : Type} (o : Option (State × β)) : Prop := ∀ p, o = some p → Canon p.1

/-- The canonical form of the next state that a step answers. -/
def Keeps (o : Host.Outcome State Fault Refusal) : Prop := ∀ t, o = .next t → Canon t

section

variable {α β : Type} {s t : State}

/-- A state with the memories of another. -/
theorem Canon.same (h : Canon s) (hm : t.mem = s.mem) (hh : t.hostMem = s.hostMem) : Canon t :=
  ⟨hm ▸ h.mem, hh ▸ h.hostMem⟩

theorem Canon.ite {p : Prop} [Decidable p] (h : Canon s) (g : Canon t) : Canon (if p then s else t) := by
  split
  · exact h
  · exact g

theorem Canon.iteFst {p : Prop} [Decidable p] {a b : State × β} (h : Canon a.1) (g : Canon b.1) : Canon (if p then a else b).1 := by
  split
  · exact h
  · exact g

theorem Canon.iteEff {p : Prop} [Decidable p] {a b : Eff} (h : Canon a.s) (g : Canon b.s) : Canon (if p then a else b).s := by
  split
  · exact h
  · exact g

theorem Canon.foldl {f : State → α → State} {l : List α} (hf : ∀ u x, Canon u → Canon (f u x)) (h : Canon s) :
    Canon (l.foldl f s) := List.foldlRecOn l f h (fun u hu x _ => hf u x hu)

theorem Canon.foldlFst {f : State × β → α → State × β} {l : List α} {p : State × β}
    (hf : ∀ q x, Canon q.1 → Canon (f q x).1) (h : Canon p.1) : Canon (l.foldl f p).1 :=
  List.foldlRecOn l f (motive := fun q => Canon q.1) h (fun q hq x _ => hf q x hq)

theorem Canon.foldlEff {f : Eff → α → Eff} {l : List α} {e : Eff} (hf : ∀ e x, Canon e.s → Canon (f e x).s) (h : Canon e.s) :
    Canon (l.foldl f e).s :=
  List.foldlRecOn l f (motive := fun q => Canon q.s) h (fun q hq x _ => hf q x hq)

theorem Canon.pair {b : β} (h : Canon s) : Canon (s, b).1 := h

theorem Canon.eff {wr : List Wr} {ends : List (Nat × LaneEnd)} {after : After} {r : Option Result} {full : Bool} (h : Canon s) :
    Canon (Eff.mk s wr ends after r full).s := h

theorem Canon.cx {n : Now} {hd : Hdr} {i : Option Instr} {warp : Warp} {hdr : Header} {lanes act : Lanes} {full : Bool} (h : Canon s) :
    Canon (Cx.mk s n hd i warp hdr lanes act full).s := h

theorem Canon.of_fst {p : State × β} {b : β} (e : p = (t, b)) (h : Canon p.1) : Canon t := by
  rw [e] at h
  exact h

theorem CanonOpt.get {o : Option State} (h : CanonOpt o) (e : o = some t) : Canon t := h t e

theorem CanonOpt.none : CanonOpt none := fun _ e => nomatch e

theorem CanonOpt.some (h : Canon s) : CanonOpt (some s) := fun _ e => Option.some.inj e ▸ h

theorem CanonOpt.ite {p : Prop} [Decidable p] {a b : Option State} (h : CanonOpt a) (g : CanonOpt b) :
    CanonOpt (if p then a else b) := by
  split
  · exact h
  · exact g

theorem CanonOpt.getD {o : Option State} (h : CanonOpt o) (g : Canon s) : Canon (o.getD s) := by
  cases o with
  | none => exact g
  | some u => exact h u rfl

theorem CanonOpt.findSome {f : α → Option State} {l : List α} (hf : ∀ x, CanonOpt (f x)) : CanonOpt (l.findSome? f) := by
  intro t ht
  obtain ⟨x, -, hx⟩ := List.exists_of_findSome?_eq_some ht
  exact hf x t hx

theorem CanonOpt.map {f : State → State} {o : Option State} (h : CanonOpt o) (hf : ∀ u, Canon u → Canon (f u)) :
    CanonOpt (o.map f) := by
  intro t ht
  obtain ⟨u, hu, rfl⟩ := Option.map_eq_some_iff.1 ht
  exact hf u (h u hu)

theorem CanonOpt.mapAny {f : α → State} {o : Option α} (hf : ∀ x, Canon (f x)) : CanonOpt (o.map f) := by
  intro t ht
  obtain ⟨x, -, rfl⟩ := Option.map_eq_some_iff.1 ht
  exact hf x

theorem CanonOpt.mapFst {f : State × β → State} {o : Option (State × β)} (h : CanonAns o) (hf : ∀ p, Canon p.1 → Canon (f p)) :
    CanonOpt (o.map f) := by
  intro t ht
  obtain ⟨p, hp, rfl⟩ := Option.map_eq_some_iff.1 ht
  exact hf p (h p hp)

theorem CanonOpt.bind {f : State → Option State} {o : Option State} (h : CanonOpt o) (hf : ∀ u, Canon u → CanonOpt (f u)) :
    CanonOpt (o.bind f) := by
  intro t ht
  obtain ⟨u, hu, htu⟩ := Option.bind_eq_some_iff.1 ht
  exact hf u (h u hu) t htu

theorem CanonAns.get {o : Option (State × β)} {p : State × β} (h : CanonAns o) (e : o = some p) : Canon p.1 := h p e

theorem CanonAns.none : CanonAns (β := β) none := fun _ e => nomatch e

theorem CanonAns.some {p : State × β} (h : Canon p.1) : CanonAns (some p) := fun _ e => Option.some.inj e ▸ h

theorem CanonAns.ite {p : Prop} [Decidable p] {a b : Option (State × β)} (h : CanonAns a) (g : CanonAns b) :
    CanonAns (if p then a else b) := by
  split
  · exact h
  · exact g

theorem CanonAns.map {f : State → State × β} {o : Option State} (h : CanonOpt o) (hf : ∀ u, Canon u → Canon (f u).1) :
    CanonAns (o.map f) := by
  intro p hp
  obtain ⟨u, hu, rfl⟩ := Option.map_eq_some_iff.1 hp
  exact hf u (h u hu)

theorem Keeps.next (h : Canon s) : Keeps (.next s) := fun _ e => Host.Outcome.next.inj e ▸ h

theorem Keeps.fault {f : Fault} : Keeps (.fault f) := fun _ e => nomatch e

theorem Keeps.refused {r : Refusal} : Keeps (.refused r) := fun _ e => nomatch e

theorem Keeps.ite {p : Prop} [Decidable p] {a b : Host.Outcome State Fault Refusal} (h : Keeps a) (g : Keeps b) :
    Keeps (if p then a else b) := by
  split
  · exact h
  · exact g

end

/-! ## The operations that write bytes -/

section

variable {s : State}

/-- Host memory changes when a dirty half goes back (R413). -/
theorem Canon.hostWriteBack {half : Nat} (h : Canon s) : Canon (s.hostWriteBack half) :=
  .ite ⟨h.mem, Cells.writeLE_wf _ _ _ h.hostMem⟩ h

/-- Whole frames are zeroed (R374). -/
theorem Canon.zeroRange {base n : Nat} (h : Canon s) : Canon (s.zeroRange base n) :=
  ⟨Cells.clear_wf _ _ h.mem, h.hostMem⟩

/-- A frame of a save (R368). -/
theorem Canon.fillFrame {f : Nat} {lab : Label} (h : Canon s) : Canon (s.fillFrame f lab) :=
  ⟨Cells.fill_wf _ _ _ h.mem, h.hostMem⟩

theorem Canon.writeList {f off cap : Nat} {xs : List Nat} {next : Nat} (h : Canon s) : Canon (s.writeList f off cap xs next) := by
  refine ⟨Cells.writeLE_wf _ _ _ ?_, h.hostMem⟩
  exact List.foldlRecOn _ _ (motive := fun m => Cells.wf m = true) h.mem (fun m hm _ _ => Cells.writeLE_wf _ _ _ hm)

theorem Canon.written {t : State} {base : Nat} {ws : List (Nat × Nat × Nat)} (h : Canon s)
    (hm : t.mem = Cells.writeAll s.mem base ws) (hh : t.hostMem = s.hostMem) : Canon t := by
  refine ⟨?_, hh ▸ h.hostMem⟩
  rw [hm]
  exact List.foldlRecOn ws _ (motive := fun m => Cells.wf m = true) h.mem (fun m hm _ _ => Cells.writeLE_wf _ _ _ hm)

theorem Canon.fillFrames {fs : List Nat} {lab : Label} (h : Canon s) :
    Canon (fs.foldl (fun (s : State) f => s.fillFrame f lab) s) := .foldl (fun _ _ hu => hu.fillFrame) h

/-- The frames of a save, its lists and its header (R368, R369). -/
theorem Canon.writeSave {num : Nat} {x : Saved} (h : Canon s) : Canon (s.writeSave num x) := by
  have cleared {t u : State} {base : Nat} (ht : Canon t) (hm : u.mem = Cells.clear t.mem base 4096)
      (hh : u.hostMem = t.hostMem) : Canon u := ⟨by rw [hm]; exact Cells.clear_wf _ _ ht.mem, hh ▸ ht.hostMem⟩
  unfold State.writeSave
  dsimp only
  split
  · exact h
  · next hd _ _ =>
    refine Canon.written (base := 4096 * hd) (ws := [(0, 4, _), (4, 2, _), (8, 4, _), (12, 4, _), (16, 8, _)]) ?_ rfl rfl
    refine .writeList (cleared (.foldl (fun _ _ hu => hu.writeList) (.fillFrames (.fillFrames h))) rfl rfl)

/-- The pre-images of a checkpoint go back (R403). -/
theorem Canon.applyPreImages {g : Group} {t : Nat} (h : Canon s) : Canon (s.applyPreImages g t) :=
  .foldl (fun _ _ hu => ⟨Cells.fill_wf _ _ _ hu.zeroRange.mem, hu.hostMem⟩) h

end

end Sys2Proof.Machine
end

section
/-! PROOFS. The canonical form of device memory and of host memory: the parts of the state, memory levels and the queue (O59). -/

namespace Sys2Proof.Machine

section

variable {s : State}

/-! ### The parts of the state -/

theorem Canon.setTeam {k : ℕ} {t : Team} (h : Canon s) : Canon (s.setTeam k t) := h.same rfl rfl

theorem Canon.setWarp {k w : ℕ} {x : Warp} (h : Canon s) : Canon (s.setWarp k w x) := h.setTeam

theorem Canon.onWarp {k w : ℕ} {f : Warp → Warp} (h : Canon s) : Canon (s.onWarp k w f) := h.setWarp

theorem Canon.onTeam {k : ℕ} {f : Team → Team} (h : Canon s) : Canon (s.onTeam k f) := h.setTeam

theorem Canon.setCore {c : ℕ} {x : Core} (h : Canon s) : Canon (s.setCore c x) := h.same rfl rfl

theorem Canon.onCore {c : ℕ} {f : Core → Core} (h : Canon s) : Canon (s.onCore c f) := h.setCore

theorem Canon.onDie {d : ℕ} {f : Die → Die} (h : Canon s) : Canon (s.onDie d f) := h.same rfl rfl

theorem Canon.onLaunch {k : ℕ} {f : Launch → Launch} (h : Canon s) : Canon (s.onLaunch k f) := h.same rfl rfl

theorem Canon.onContext {k : ℕ} {f : Context → Context} (h : Canon s) : Canon (s.onContext k f) := h.same rfl rfl

theorem Canon.onPort {n : ℕ} {f : Port → Port} (h : Canon s) : Canon (s.onPort n f) := h.same rfl rfl

theorem Canon.onVf {n : ℕ} {f : Vf → Vf} (h : Canon s) : Canon (s.onVf n f) := h.same rfl rfl

theorem Canon.onOrigin {n : ℕ} {f : Origin → Origin} (h : Canon s) : Canon (s.onOrigin n f) := h.same rfl rfl

theorem Canon.onGroup {n : ℕ} {f : Group → Group} (h : Canon s) : Canon (s.onGroup n f) := h.same rfl rfl

theorem Canon.send {o : Out} (h : Canon s) : Canon (s.send o) := h.same rfl rfl

theorem Canon.fresh (h : Canon s) : Canon s.fresh := h.same rfl rfl

theorem Canon.journalSet {r : JRef} {st : JState} {status : Status} {detail : Option ℕ} (h : Canon s) :
    Canon (s.journalSet r st status detail) := .ite (.ite (.send h.onPort) h.onPort) h

theorem Canon.journalAdd {port : ℕ} {e : JEntry} (h : Canon s) : Canon (s.journalAdd port e) := h.onPort

theorem Canon.wakeLaunches {ctx : ℕ} (h : Canon s) : Canon (s.wakeLaunches ctx) := h.same rfl rfl

theorem Canon.eventOp {ctx : ℕ} {f : BitVec 256 → BitVec 256} (h : Canon s) : Canon (s.eventOp ctx f) := .wakeLaunches h.onContext

theorem Canon.eventBit {ctx n : ℕ} {clr : Bool} (h : Canon s) : Canon (s.eventBit ctx n clr) := h.eventOp

/-! ### Charges and flits sent -/

theorem Canon.charge {a k inst n : ℕ} (h : Canon s) : Canon (s.charge a k inst n) := h.same rfl rfl

theorem Canon.waitCharge {a : ℕ} (h : Canon s) : Canon (s.waitCharge a) := h.same rfl rfl

theorem Canon.chargeTo {a : Option ℕ} {k inst n : ℕ} (h : Canon s) : Canon (s.chargeTo a k inst n) := by
  unfold State.chargeTo
  split
  · exact h.charge
  · exact h

theorem Canon.sendFlit {dst vn : ℕ} {lab : Label} {tokens : List (ℕ × ℕ)} {body : FlitBody} (h : Canon s) :
    Canon (s.sendFlit dst vn lab tokens body) := h.same rfl rfl

/-! ### Memory levels and host lines -/

theorem Canon.noteWrite {pa : ℕ} (h : Canon s) : Canon (s.noteWrite pa) := h.same rfl rfl

theorem Canon.hostShare {half : ℕ} (h : Canon s) : Canon (s.hostShare half) := .ite (h.same rfl rfl) h

theorem Canon.hostOwn {half : ℕ} (h : Canon s) : Canon (s.hostOwn half) := .ite (.same h.hostShare rfl rfl) h.hostShare

theorem Canon.refuseWriteBack {half : ℕ} (h : Canon s) : Canon (s.refuseWriteBack half) :=
  .ite (h.same rfl rfl) (.send (.onOrigin (h.same rfl rfl)))

theorem Canon.dropCopies {line : ℕ} (h : Canon s) : Canon (s.dropCopies line) := h.same rfl rfl

theorem Canon.hostDrop {half : ℕ} (h : Canon s) : Canon (s.hostDrop half) :=
  .ite h.refuseWriteBack (.same h.hostWriteBack rfl rfl)

theorem Canon.l2Evict {act : Option ℕ} {l : L2Line} (h : Canon s) : Canon (s.l2Evict act l) :=
  .ite (.onDie (.ite h.chargeTo h)) (.ite (.onDie (.hostDrop h.hostDrop)) (.hostDrop h.hostDrop))

theorem Canon.l2Room {act : Option ℕ} {line : ℕ} (h : Canon s) : Canon (s.l2Room act line) :=
  .foldl (fun _ _ h1 => h1.ite h1.l2Evict) h

theorem Canon.l2Touch {who : Who} {line : ℕ} {write : Bool} (h : Canon s) : Canon (s.l2Touch who line write) := by
  unfold State.l2Touch
  exact .onDie (h.ite (.l2Room (.ite h.chargeTo h)))

theorem Canon.l2Reach {who : Who} {p : Place} {n : ℕ} {write : Bool} (h : Canon s) : Canon (s.l2Reach who p n write) := by
  unfold State.l2Reach
  split
  · exact .foldl (fun _ _ h2 => h2.l2Touch) h
  · exact .foldl (fun _ _ h2 => h2.l2Touch) h
  · exact h
  · exact h

theorem Canon.l2Clean {pick : ℕ → Bool} (h : Canon s) : Canon (s.l2Clean pick) := h.same rfl rfl

theorem Canon.l2Drop {pick : ℕ → Bool} (h : Canon s) : Canon (s.l2Drop pick) := h.same rfl rfl

theorem Canon.writeHome {p : Place} {n x : ℕ} {lab : Label} {who : Who} (h : Canon s) : Canon (s.writeHome p n x lab who) := by
  unfold State.writeHome
  split
  · next pa =>
    have hr : Canon ((s.noteWrite pa).l2Reach who (.dev pa) n true) := h.noteWrite.l2Reach
    exact ⟨Cells.writeLE_wf _ _ _ hr.mem, hr.hostMem⟩
  · exact .foldl (fun _ _ hu => hu.same rfl rfl) (h.same rfl rfl)
  · exact .ite h h.onTeam
  · exact h.same rfl rfl

theorem Canon.hostGet {p : Place} {n : ℕ} {own : Bool} {who : Who} (h : Canon s) : Canon (s.hostGet p n own who) := by
  unfold State.hostGet
  split
  · exact .l2Reach (.foldl (fun _ _ h3 => .ite h3.hostOwn h3.hostShare) h)
  · exact h

theorem Canon.l1Write {core key : ℕ} {bytes : List Byte} {lab : Label} (h : Canon s) : Canon (s.l1Write core key bytes lab) :=
  h.onCore

theorem Canon.privBack {line : ℕ} {l : L1Line} (h : Canon s) : Canon (s.privBack line l) :=
  .foldl (fun _ _ h1 => .ite (.foldl (fun _ _ h3 => h3.l1Write) (.writeHome h1.hostGet)) h1) h

theorem Canon.l1Put {core key : ℕ} {l : L1Line} (h : Canon s) : Canon (s.l1Put core key l) := by
  unfold State.l1Put
  refine .onCore (h.ite ?_)
  split
  · exact h
  · exact .ite h.onCore (.privBack h.onCore)

theorem Canon.l1Fill {core : ℕ} {p : Place} {mark : Evict} {who : Who} (h : Canon s) : Canon (s.l1Fill core p mark who) :=
  .l1Put (.same (.l2Reach h.hostGet) rfl rfl)

theorem Canon.privFill {core : ℕ} {p : Place} {mark : Evict} {who : Who} (h : Canon s) : Canon (s.privFill core p mark who) :=
  h.ite (.l1Put (.l2Reach h.hostGet))

theorem Canon.peerFill {core : ℕ} {p : Place} {x : ℕ} {lab : Label} {mark : Evict} {own : ℕ} (h : Canon s) :
    Canon (s.peerFill core p x lab mark own) := h.l1Put

theorem Canon.applyBefore {core key n : ℕ} (h : Canon s) : Canon (s.applyBefore core key n) :=
  .same (.foldl (fun _ _ h2 => .ite h2.l1Write h2) h) rfl rfl

theorem Canon.noteForward {die : ℕ} (h : Canon s) : Canon (s.noteForward die) := h.onDie

theorem Canon.forwardOut {id key : ℕ} {bs : List Byte} (h : Canon s) : Canon (s.forwardOut id key bs) :=
  .foldl (fun _ _ h1 => .ite (.sendFlit h1.noteForward) h1) h

theorem Canon.forward {w : Writer} {key n x : ℕ} {lab : Label} (h : Canon s) : Canon (s.forward w key n x lab) := by
  unfold State.forward
  refine .foldl (fun _ _ h1 => ?_) (.ite h.forwardOut (.noteForward h.forwardOut))
  split
  · exact h1.onCore
  · exact .ite (.l1Write h1.applyBefore) (h1.same rfl rfl)

theorem Canon.store {w : Writer} {p : Place} {n x : ℕ} {lab : Label} (h : Canon s) : Canon (s.store w p n x lab) := by
  unfold State.store
  split
  · exact .forward (.writeHome h.hostGet)
  · exact .forward (.writeHome h.hostGet)
  · exact .writeHome h.hostGet
  · exact .writeHome h.hostGet

theorem Canon.zeroFrame {frame : ℕ} (h : Canon s) : Canon (s.zeroFrame frame) := .zeroRange h.noteWrite

theorem Canon.tlbForget {core ctx vpage : ℕ} (h : Canon s) : Canon (s.tlbForget core ctx vpage) := .onDie h.onCore

theorem Canon.tlbFill {core : ℕ} {e : TlbEnt} (h : Canon s) : Canon (s.tlbFill core e) := .onDie h.onCore

theorem Canon.pteOr {at_ bits : ℕ} (h : Canon s) : Canon (s.pteOr at_ bits) := h.store

theorem Canon.walkFor {core ctx va : ℕ} (h : Canon s) : Canon (s.walkFor core ctx va).1 := by
  unfold State.walkFor
  dsimp only
  split
  · exact h
  · exact .pair h.onDie

theorem Canon.leafFor {core ctx va : ℕ} {need : Need} (h : Canon s) : Canon (s.leafFor core ctx va need).1 := by
  unfold State.leafFor
  lift_lets
  intro vpage hit
  clear_value hit
  generalize e1 : s.walkFor core ctx va = r
  obtain ⟨s1, m | ⟨leaf, level, at_⟩⟩ := r
  · have h1 := Canon.of_fst e1 h.walkFor
    cases hit with
    | none => exact h1
    | some e => exact .iteFst (.pair h1.tlbForget) h
  · have h1 := Canon.of_fst e1 h.walkFor
    cases hit with
    | none => exact .pair (.tlbFill h1.pteOr)
    | some e => exact .iteFst (.pair (.tlbFill h1.pteOr)) h

theorem Canon.leafPlace {ctx a : ℕ} {need : Need} {e : TlbEnt} {drop : State → State} (h : Canon s)
    (hdrop : ∀ u, Canon u → Canon (drop u)) :
    Canon (s.leafPlace ctx a need e drop).1 := by
  unfold State.leafPlace
  refine .iteFst (.pair (hdrop _ h)) ?_
  split
  · exact h
  · refine .iteFst (.pair (hdrop _ h)) (.iteFst (.pair (hdrop _ h)) ?_)
    dsimp only
    split
    · exact .pair (hdrop _ h)
    · exact h.iteFst (.iteFst (.pair (hdrop _ h)) h)
  · exact .iteFst (.pair (h.same rfl rfl)) h

theorem Canon.translate {core ctx : ℕ} {va : DWord} {need : Need} (h : Canon s) : Canon (s.translate core ctx va need).1 := by
  unfold State.translate
  split
  · next e1 => exact .of_fst e1 h.leafFor
  · next e1 =>
    have h1 := Canon.of_fst e1 h.leafFor
    exact h1.leafPlace (fun _ h3 => h3.tlbForget)

theorem Canon.walkPlace {ctx : ℕ} {va : DWord} {need : Need} (h : Canon s) : Canon (s.walkPlace ctx va need).1 := by
  unfold State.walkPlace
  refine h.iteFst ?_
  split
  · exact h
  · refine .iteFst (.pair h.pteOr) ?_
    split
    · dsimp only
      split
      · next e5 => exact .of_fst e5 (.leafPlace h.pteOr (fun _ h7 => h7))
      · next e5 => exact .of_fst e5 (.leafPlace h.pteOr (fun _ h7 => h7))
    · dsimp only
      split
      · next e5 => exact .of_fst e5 (.leafPlace h.pteOr (fun _ h7 => h7))
      · next e5 => exact .of_fst e5 (.leafPlace h.pteOr (fun _ h7 => h7))

/-! ### The queue of accesses -/

theorem Canon.enqueue {a : Access} (h : Canon s) : Canon (s.enqueue a) := h.same rfl rfl

theorem Canon.queue {a : Access} (h : Canon s) : Canon (s.queue a) := .enqueue h.fresh

end

end Sys2Proof.Machine
end

section
/-! PROOFS. The canonical form of device memory and of host memory: how an instruction ends (O59). -/

namespace Sys2Proof.Machine

section

variable {s : State}

/-! ### How an instruction ends: faults, traps, the reconvergence stack, parked strands -/

theorem Canon.queueFault {ctx : ℕ} {e : FqEntry} (h : Canon s) : Canon (s.queueFault ctx e) := h.onContext

theorem Canon.enterOne {k w seq : ℕ} {f : ℕ × ℕ × Strand × ParkRec} (h : Canon s) : Canon (s.enterOne k w seq f) := h.onWarp

theorem Canon.queueFor {k w : ℕ} {f : ℕ × ℕ × Strand × ParkRec} (h : Canon s) : Canon (s.queueFor k w f) := h.queueFault

theorem Canon.enterFaults {k w : ℕ} (h : Canon s) : Canon (s.enterFaults k w) := by
  unfold State.enterFaults
  refine .foldl (fun _ _ h1 => .enterOne h1.queueFor) ?_
  split
  · exact h
  · exact .foldl (fun _ _ h3 => h3.enterOne) h.queueFor

theorem Canon.failJournal {c : Context} {keep : Option JRef} {st : JState} {status : Status} (h : Canon s) :
    Canon (s.failJournal c keep st status) := .foldl (fun _ _ h1 => .foldl (fun _ _ h2 => .ite h2.journalSet h2) h1) h

theorem Canon.unstall {vf : ℕ} (h : Canon s) : Canon (s.unstall vf) := h.onVf

theorem Canon.stayTeam {k : ℕ} (h : Canon s) : Canon (s.stayTeam k) := h.ite (.unstall (.onTeam h.onVf))

theorem Canon.removeTeam {k : ℕ} (h : Canon s) : Canon (s.removeTeam k) := .same h.stayTeam rfl rfl

theorem Canon.writeBackLocal {core : ℕ} {pick : ℕ → Bool} (h : Canon s) : Canon (s.writeBackLocal core pick) :=
  .foldl (fun _ _ h1 => .onCore h1.privBack) h

theorem Canon.dropContext {ctx : ℕ} (h : Canon s) : Canon (s.dropContext ctx) :=
  .same (.foldl (fun _ _ h2 => .removeTeam h2.writeBackLocal) h) rfl rfl

theorem Canon.endContext {ctx : ℕ} {i : EndInfo} (h : Canon s) : Canon (s.endContext ctx i) :=
  h.ite (.queueFault (.unstall (.onContext (.dropContext h.failJournal))))

theorem Canon.hwStore {k w : ℕ} {lanes : List ℕ} {pc va : DWord} {p : Place} {n x : ℕ} {lab : Label} (h : Canon s) :
    Canon (s.hwStore k w lanes pc va p n x lab) := by
  unfold State.hwStore
  split
  · exact h.queue
  · exact .store h.fresh
  · exact .store h.fresh
  · exact .store h.fresh

theorem Canon.writeFrame {k w : ℕ} {lanes : List ℕ} {pc va : DWord} {place : Place} {lab : Label} {ws : List (ℕ × ℕ × ℕ)}
    (h : Canon s) :
    Canon (s.writeFrame k w lanes pc va place lab ws) := .foldl (fun _ _ h1 => h1.hwStore) h

theorem Canon.doubleTrap {k w slice : ℕ} {t : TrapRec} (h : Canon s) : Canon (s.doubleTrap k w slice t) := h.endContext

theorem Canon.takeTrap {k w slice : ℕ} (h : Canon s) : Canon (s.takeTrap k w slice) := by
  unfold State.takeTrap
  dsimp only
  split
  · exact h
  · refine .ite h.doubleTrap ?_
    split
    · next e3 =>
      have h3 := Canon.of_fst e3 h.translate
      exact .enterFaults h3.onWarp
    · next e3 =>
      have h3 := Canon.of_fst e3 h.translate
      exact .onWarp h3.writeFrame

theorem Canon.takeTraps {k w : ℕ} (h : Canon s) : Canon (s.takeTraps k w) := .foldl (fun _ _ h1 => .ite h1.takeTrap h1) h

theorem Canon.raiseTraps {n : Now} {ends : List (ℕ × LaneEnd)} (h : Canon s) : Canon (s.raiseTraps n ends) := by
  unfold State.raiseTraps
  refine .foldl (fun _ _ h1 => ?_) h
  split
  · dsimp only
    split
    · exact h1
    · exact h1
  · dsimp only
    split
    · exact h1
    · exact .ite h1.doubleTrap h1.onWarp

theorem Canon.hwPlace {k : ℕ} {va : DWord} {need : Need} {access : ℕ} (h : Canon s) : Canon (s.hwPlace k va need access).1 := by
  unfold State.hwPlace
  refine h.iteFst ?_
  split
  · next e2 => exact .of_fst e2 h.translate
  · next e2 => exact .of_fst e2 h.translate

theorem Canon.askLine {k w : ℕ} {lanes : List ℕ} {pc va : DWord} {p : Place} (h : Canon s) :
    Canon (s.askLine k w lanes pc va p) := by
  unfold State.askLine
  split
  · exact h.ite h.queue
  · exact h
  · exact h
  · exact h

theorem Canon.askDevice {ctx who : ℕ} {p : Place} (h : Canon s) : Canon (s.askDevice ctx who p) := by
  unfold State.askDevice
  split
  · exact h.ite h.queue
  · exact h
  · exact h
  · exact h

theorem Canon.forgetLines {k w : ℕ} (h : Canon s) : Canon (s.forgetLines k w) := h.ite (h.same rfl rfl)

theorem Canon.spillWrite {k w slice n : ℕ} {lanes : List ℕ} {pc : DWord} {e : Recon} (h : Canon s) :
    Canon (s.spillWrite k w slice n lanes pc e).1 := by
  unfold State.spillWrite
  dsimp only
  split
  · next e1 => exact .of_fst e1 h.hwPlace
  · next e1 =>
    have h1 := Canon.of_fst e1 h.hwPlace
    exact .pair h1.writeFrame

theorem Canon.spillRead {k w slice n : ℕ} (h : Canon s) : Canon (s.spillRead k w slice n).1 := by
  unfold State.spillRead
  dsimp only
  split
  · next e1 => exact .of_fst e1 h.hwPlace
  · next e1 =>
    have h1 := Canon.of_fst e1 h.hwPlace
    exact h1.iteFst (h1.iteFst (.pair h1.hostGet))

theorem Canon.spillFind {k w slice : ℕ} {newer : List Recon} {f : List Recon → Recon → Bool} {n : ℕ} (h : Canon s) :
    Canon (s.spillFind k w slice newer f n).1 := by
  induction n generalizing s newer with
  | zero => exact h
  | succ n ih =>
    unfold State.spillFind
    split
    · next e1 => exact .of_fst e1 h.spillRead
    · next e1 =>
      have h1 := Canon.of_fst e1 h.spillRead
      exact .iteFst h1 (ih h1)

theorem Canon.spillRoom {k w slice : ℕ} {ns : List ℕ} (h : Canon s) : Canon (s.spillRoom k w slice ns).1 := by
  unfold State.spillRoom
  refine .foldlFst (fun _ _ h1 => ?_) h
  split
  · exact h1
  · split
    · next e3 => exact .of_fst e3 h1.hwPlace
    · next e3 => exact .of_fst e3 h1.hwPlace

theorem Canon.stackStep {k w slice : ℕ} {search : Bool} (h : Canon s) : Canon (s.stackStep k w slice search).1 := by
  unfold State.stackStep
  split
  · dsimp only
    split
    · refine .iteFst (.pair h.onWarp) ?_
      split
      · next e4 => exact .of_fst e4 h.spillRead
      · next e4 =>
        have h4 := Canon.of_fst e4 h.spillRead
        exact .pair h4.onWarp
    · exact h
  · dsimp only
    split
    · refine .iteFst (.pair h.onWarp) ?_
      split
      · next e4 => exact .of_fst e4 h.spillRead
      · next e4 =>
        have h4 := Canon.of_fst e4 h.spillRead
        exact .pair h4.onWarp
    · split
      · next e3 => exact .of_fst e3 h.spillFind
      · next e3 => exact .of_fst e3 h.spillFind
      · next e3 =>
        have h3 := Canon.of_fst e3 h.spillFind
        split
        · next e4 => exact .of_fst e4 h3.spillRoom
        · next e4 =>
          have h4 := Canon.of_fst e4 h3.spillRoom
          exact .pair (.onWarp (.foldl (fun _ _ h7 => h7.spillWrite) h4))

theorem Canon.stackLoop {k w slice : ℕ} {search : Bool} {n : ℕ} (h : Canon s) : Canon (s.stackLoop k w slice search n).1 := by
  induction n generalizing s with
  | zero => exact h
  | succ n ih =>
    unfold State.stackLoop
    split
    · next e1 => exact .of_fst e1 h.stackStep
    · next e1 => exact .of_fst e1 h.stackStep
    · next e1 => exact ih (.of_fst e1 h.stackStep)

theorem Canon.loseFor {k w : ℕ} {f : FaultInfo} {pc : DWord} (h : Canon s) : Canon (s.loseFor k w f pc) := h.endContext

theorem Canon.settleSpilled {k w slice : ℕ} {search : Bool} (h : Canon s) : Canon (s.settleSpilled k w slice search) := by
  unfold State.settleSpilled
  split
  · next e1 =>
    have h1 := Canon.of_fst e1 h.stackLoop
    exact h1.onWarp
  · next e1 =>
    have h1 := Canon.of_fst e1 h.stackLoop
    refine .ite ?_ (.ite h1.loseFor h1.onWarp)
    split
    · next e3 =>
      have h3 := Canon.of_fst e3 h1.hwPlace
      exact .onWarp h3.askLine
    · next e3 =>
      have h3 := Canon.of_fst e3 h1.hwPlace
      exact h3.onWarp

theorem Canon.settleStack {k w : ℕ} {search : BitVec 8} (h : Canon s) : Canon (s.settleStack k w search) := by
  have hf {u : State} (hu : Canon u) : Canon ((List.range 8).foldl (fun (s : State) j =>
      if ((s.warp k w).slice j).spilled = 0 then s else s.settleSpilled k w j (search.getLsbD j)) u) :=
    .foldl (fun _ _ h1 => h1.ite h1.settleSpilled) hu
  unfold State.settleStack
  exact .ite (hf h.onWarp) (.onWarp (hf h.onWarp))

theorem Canon.bounded {c : Cx} {i : Instr} {body : Cx → Eff} (h : Canon c.s) (hbody : ∀ c, Canon c.s → Canon (body c).s) :
    Canon (c.bounded i body).s := by
  unfold Cx.bounded
  refine .iteEff (hbody _ h) (.eff ?_)
  split
  · exact h.iteEff (hbody _ h)
  · exact .onWarp (h.iteEff (hbody _ h))

theorem Canon.finish {c : Cx} {wide : Bool} {e : Eff} (he : Canon e.s) : Canon (c.finish wide e) := by
  unfold Cx.finish
  refine .ite (he.same rfl rfl) ?_
  split
  · exact .same he.loseFor rfl rfl
  · lift_lets
    intro id tick deps wp1 wp2 ticks wp3 s1 s2 s3
    have h1 : Canon s1 := .settleStack he.setWarp
    have h2 : Canon s2 := .ite h1 h1.forgetLines
    have h3 : Canon s3 := h2.onWarp
    exact .ite (h2.same rfl rfl) (.ite (h3.same rfl rfl) (.takeTraps (.raiseTraps (.enterFaults (h3.same rfl rfl)))))

theorem Canon.defer {c : Cx} {i : Option Instr} (h : Canon c.s) : Canon (c.defer i) := h.same rfl rfl

theorem Keeps.issue {i : Instr} {body : Cx → Eff} (h : Canon s) (hbody : ∀ c : Cx, Canon c.s → Canon (body c).s) :
    Keeps (issue i s body) := by
  unfold Machine.issue
  split
  · exact .next h
  · next n _ =>
    have hc : Canon (s.cx n (i.hdr.getD default) (some i)).s := h
    refine .ite (.next (.finish (.eff h))) (.ite (.next (.finish (.eff h))) ?_)
    dsimp only
    split
    · exact .next (.finish (.eff h))
    · exact .ite (.next (.defer hc)) (.ite (.next (.defer hc)) (.next (.finish (.bounded hc hbody))))

theorem Keeps.trapWord {cause : Cause} {hd : Hdr} {all : Bool} (h : Canon s) : Keeps (trapWord s cause hd all) := by
  unfold Machine.trapWord
  split
  · exact .next h
  · exact .next h.finish

theorem Canon.finishLate {l : Late} (h : Canon s) : Canon (s.finishLate l) := by
  have h0 : Canon { s with late := s.late.filter (fun x => x.id != l.id) } := h.same rfl rfl
  unfold State.finishLate
  refine h0.ite ?_
  split
  · exact h0.loseFor
  · lift_lets
    intro wp now n wp1 tick wp2 s1 s2
    have h1 : Canon s1 := .settleStack h0.setWarp
    have h2 : Canon s2 := h1.onWarp
    exact .ite h2 (.takeTraps (.raiseTraps h2.enterFaults))

theorem Canon.passLate {access : ℕ} {ends : List (ℕ × LaneEnd)} (h : Canon s) : Canon (s.passLate access ends) := by
  unfold State.passLate
  split
  · exact h
  · exact .ite h.finishLate (h.same rfl rfl)

/-! ### Traps of a word -/

theorem Canon.intEff {c : Cx} {u : Bool} {words : ℕ} {d : BitVec 8} {lab : Label} {f : ℕ → ℕ} (h : Canon c.s) :
    Canon (c.intEff u words d lab f).s := h

theorem Canon.int2 {c : Cx} {u : Bool} {t : IType} {d a b : BitVec 8} {f : ℤ → ℤ → ℤ} (h : Canon c.s) :
    Canon (c.int2 u t d a b f).s := h.intEff

theorem Canon.intImm {c : Cx} {u : Bool} {d a : BitVec 8} {imm : BitVec 32} {f : ℤ → ℤ → ℤ} (h : Canon c.s) :
    Canon (c.intImm u d a imm f).s := h.intEff

/-! ### Sticky flags -/

theorem Canon.fpEnd {c : Cx} {rs : List (ℕ × ℕ × Flags)} {mk : List (ℕ × ℕ) → List Wr} (h : Canon c.s) :
    Canon (c.fpEnd rs mk).s := .eff h.onWarp

theorem Canon.fpEff {c : Cx} {d : BitVec 8} {words : ℕ} {lab : Label} {f : ℕ → ℕ × Flags} (h : Canon c.s) :
    Canon (c.fpEff d words lab f).s := h.fpEnd

/-! ### Conversions -/

theorem Keeps.cvt {hd : Hdr} {dt src : FType} {rm : Rnd} {r : RndSrc} {d a : BitVec 8} (h : Canon s) :
    Keeps (execCvt hd dt src rm r d a s) := .issue h (fun _ h2 => h2.fpEff)

theorem Keeps.cvtn {hd : Hdr} {dt : IType} {src : FType} {rm : Rnd} {r : RndSrc} {d a : BitVec 8} (h : Canon s) :
    Keeps (execCvtn hd dt src rm r d a s) := .issue h (fun _ h2 => h2.fpEff)

theorem Keeps.cvtw {hd : Hdr} {dt : FType} {src : IType} {rm : Rnd} {r : RndSrc} {d a : BitVec 8} (h : Canon s) :
    Keeps (execCvtw hd dt src rm r d a s) := .issue h (fun _ h2 => h2.fpEff)

theorem Keeps.scfit {hd : Hdr} {t : FType} {d a : BitVec 8} (h : Canon s) : Keeps (execScfit hd t d a s) :=
  .issue h (fun _ h2 => h2.fpEff)

theorem Keeps.scapp {hd : Hdr} {t : FType} {rm : Rnd} {r : RndSrc} {d a b : BitVec 8} (h : Canon s) :
    Keeps (execScapp hd t rm r d a b s) := .issue h (fun _ h2 => h2.fpEff)

theorem Keeps.cbdec {hd : Hdr} {d a : BitVec 8} (h : Canon s) : Keeps (execCbdec hd d a s) := .issue h (fun _ h2 => h2.fpEff)

/-! ### The generator -/

theorem Keeps.gset {hd : Hdr} {d : BitVec 3} {a : BitVec 8} (h : Canon s) : Keeps (execGset hd d a s) :=
  .issue h (fun _ h2 => h2.iteEff (.eff h2.onWarp))

theorem Keeps.gdraw {hd : Hdr} {raw : Bool} {t : FType} {d : BitVec 8} {a : BitVec 3} {b c : BitVec 8} (h : Canon s) :
    Keeps (execGdraw hd raw t d a b c s) := .issue h (fun _ h2 => h2)

theorem Keeps.gres {hd : Hdr} {t : Bool} {a : BitVec 3} {b : BitVec 8} (h : Canon s) : Keeps (execGres hd t a b s) :=
  .issue h (fun _ h2 => h2.iteEff (h2.iteEff (.iteEff (h2.iteEff h2) (.eff h2.onContext))))

end

end Sys2Proof.Machine
end

section
/-! PROOFS. The canonical form of device memory and of host memory: accesses, copies and addresses (O59). -/

namespace Sys2Proof.Machine

section

variable {s : State}

/-! ### Accesses and results -/

theorem Canon.chargeAccess {a : Access} (h : Canon s) : Canon (s.chargeAccess a) := .foldl (fun _ _ h1 => h1.charge) h

theorem Canon.afterLook {p : Place} {n : ℕ} (h : Canon s) : Canon (s.afterLook p n) := .ite (h.same rfl rfl) h

theorem Canon.readEchoes {a : Access} {seen : List (ℕ × Scope)} (h : Canon s) : Canon (s.readEchoes a seen) := h.same rfl rfl

theorem Canon.writeEchoes {a : Access} (h : Canon s) : Canon (s.writeEchoes a) := h.ite (h.same rfl rfl)

theorem Canon.markLine {core key : ℕ} {m : Evict} (h : Canon s) : Canon (s.markLine core key m) := h.ite h.onCore

theorem Canon.fetchFor {a : Access} (h : Canon s) : Canon (s.fetchFor a) := by
  unfold State.fetchFor
  split
  · exact .ite (.markLine h.privFill) (.ite (.l2Reach h.hostGet) (.ite h.markLine h.l1Fill))
  · exact .ite (.markLine h.privFill) (.ite (.l2Reach h.hostGet) (.ite h.markLine h.l1Fill))
  · exact h.markLine
  · exact h

theorem Canon.catchUp {a : Access} (h : Canon s) : Canon (s.catchUp a) := by
  unfold State.catchUp
  split
  · exact .ite h.applyBefore h
  · exact .ite h.applyBefore h
  · exact h
  · exact h

theorem Canon.privWrite {a : Access} {x : ℕ} {lab : Label} (h : Canon s) : Canon (s.privWrite a x lab) := by
  unfold State.privWrite
  split
  · exact .same h.privFill rfl rfl
  · exact .onCore h.privFill

theorem Canon.putValue {a : Access} {x : ℕ} {lab : Label} (h : Canon s) : Canon (s.putValue a x lab) :=
  .ite (.markLine h.privWrite) (.writeEchoes (.markLine h.store))

/-! ### Accesses performed -/

theorem Canon.sendAccess {a : Access} (h : Canon s) : Canon (s.sendAccess a) := by
  unfold State.sendAccess
  split
  · exact .sendFlit (.chargeAccess (h.same rfl rfl))
  · exact h

theorem Canon.settleHash {k w access : ℕ} {recs : List (ℕ × DWord × DWord)} (h : Canon s) :
    Canon (s.settleHash k w access recs) := h.ite h.onWarp

theorem Canon.deliver {k w id lane x : ℕ} {lab : Label} (h : Canon s) : Canon (s.deliver k w id lane x lab) := h.ite h.onWarp

theorem Canon.undeliver {k w id lane : ℕ} (h : Canon s) : Canon (s.undeliver k w id lane) := h.ite h.onWarp

theorem Canon.tileWrite {k t : ℕ} {lab : Label} {f : ℕ → DWord} (h : Canon s) : Canon (s.tileWrite k t lab f) := h.onTeam

theorem Canon.tileFree {k t : ℕ} {lab : Label} (h : Canon s) : Canon (s.tileFree k t lab) := h.same rfl rfl

theorem Canon.bulkTo {k : ℕ} {use : BulkUse} {x : ℕ} {lab : Label} {clash : Bool} (h : Canon s) :
    Canon (s.bulkTo k use x lab clash) := by
  unfold State.bulkTo
  split
  · exact h.onTeam
  · exact .ite h.tileFree h.tileWrite

theorem Canon.returnResult {k w id : ℕ} (h : Canon s) : Canon (s.returnResult k w id) := by
  unfold State.returnResult
  split
  · exact h
  · split
    · exact h.onWarp
    · exact h
    · exact h.ite h.onWarp
    · exact h.same rfl rfl
    · exact h.ite (.onWarp h.bulkTo)
    · exact .ite h.onWarp h
    · refine .ite ?_ h
      dsimp only
      split
      · exact .finishLate h.onWarp
      · exact .onWarp h.onWarp

theorem Canon.unqueue {id : ℕ} (h : Canon s) : Canon (s.unqueue id) := h.same rfl rfl

theorem Canon.poisonEnd {a : Access} (h : Canon s) : Canon (s.poisonEnd a) := h.endContext

theorem Canon.performLoad {a : Access} (h : Canon s) : Canon (s.performLoad a) := by
  unfold State.performLoad
  refine .ite h.sendAccess (.ite h.poisonEnd ?_)
  split
  · exact .deliver h.unqueue
  · split
    · exact .ite (.deliver (.unqueue (.afterLook (.readEchoes (.catchUp (.fetchFor h.chargeAccess))))))
          (.afterLook (.readEchoes (.catchUp (.fetchFor h.chargeAccess))))
    · exact .deliver (.unqueue (.afterLook (.readEchoes (.catchUp (.fetchFor h.chargeAccess)))))

theorem Canon.flagPoison {a : Access} (h : Canon s) : Canon (s.flagPoison a) := .ite (.sendFlit h.unqueue) h.poisonEnd

theorem Canon.performStore {a : Access} (h : Canon s) : Canon (s.performStore a) := by
  unfold State.performStore
  split
  · exact h.sendAccess
  · cases a.op with
    | store d => exact .unqueue (.putValue h.chargeAccess)
    | flagAdd => exact .ite h.flagPoison (.unqueue (.putValue (.chargeAccess h.hostGet)))
    | _ => exact h

theorem Canon.performGroup {a : Access} (h : Canon s) : Canon (s.performGroup a) := by
  unfold State.performGroup
  split
  · exact h.sendAccess
  · refine .ite h.poisonEnd ?_
    lift_lets
    intro s1 lu x seen r labC s2 s3 s4
    have h1 : Canon s1 := .catchUp (.hostGet h.chargeAccess)
    have h2 : Canon s2 := h1.ite h1.putValue
    have h3 : Canon s3 := .unqueue (.afterLook (.ite h2 h2.readEchoes))
    have h4 : Canon s4 := .ite h3 (.foldl (fun _ _ h5 => h5.deliver) h3)
    exact h4.settleHash

theorem Canon.performAny {a : Access} (h : Canon s) : Canon (s.performAny a) := by
  unfold State.performAny
  split
  · exact h.performLoad
  · exact h.performLoad
  · exact h.performLoad
  · exact h.performLoad
  · exact h.performStore
  · exact h.performStore
  · exact h.performGroup
  · exact h.performGroup

theorem Canon.pruneEchoes (h : Canon s) : Canon s.pruneEchoes := h.same rfl rfl

/-! ### Copies, byte by byte -/

theorem Canon.slotByte {core slot : ℕ} {outlier : Bool} {off : ℕ} {b : Byte} {lab : Label} (h : Canon s) :
    Canon (s.slotByte core slot outlier off b lab) := h.onCore

theorem Canon.chanWrite {x : Xfer} {flag : Bool} {p : Place} {n v : ℕ} {lab : Label} (h : Canon s) :
    Canon (s.chanWrite x flag p n v lab) := h.store

theorem CanonOpt.copyPut {x : Xfer} {n : ℕ} {bs : List (Byte × Label)} (h : Canon s) : CanonOpt (s.copyPut x n bs) := by
  unfold State.copyPut
  refine .ite (.ite (.some (.foldl (fun _ _ h4 => h4.slotByte) h)) (.some h)) ?_
  split
  · exact .some h
  · exact .ite .none (.some h.chanWrite)

theorem Canon.copyGet {x : Xfer} {n k : ℕ} (h : Canon s) : Canon (s.copyGet x n k).1 := by
  unfold State.copyGet
  split
  · exact h
  · exact .pair (.afterLook (.l2Reach h.hostGet))

theorem Canon.copyFlag {x : Xfer} (h : Canon s) : Canon (s.copyFlag x) := by
  unfold State.copyFlag
  refine h.ite ?_
  split
  · exact h
  · exact .chanWrite h.hostGet

theorem Canon.unitBytes {x : Xfer} {n k : ℕ} (h : Canon s) : Canon (s.unitBytes x n k).1 := by
  refine .foldlFst (fun acc _ h1 => ?_) h
  dsimp only
  split
  · exact h1
  · exact .iteFst h1 (.pair h1.copyGet)

theorem Canon.copyUnits {x : Xfer} {n fuel : ℕ} (h : Canon s) : Canon (s.copyUnits x n fuel).1 := by
  induction fuel generalizing s n with
  | zero => exact h
  | succ fuel ih =>
    unfold State.copyUnits
    refine .iteFst h ?_
    dsimp only
    split
    · next e1 => exact .of_fst e1 h.unitBytes
    · next e1 =>
      have h1 := Canon.of_fst e1 h.unitBytes
      split
      · exact h1
      · next e2 => exact ih (CanonOpt.get (.copyPut h1) e2)

theorem Canon.copyAll {x : Xfer} (h : Canon s) : Canon (s.copyAll x).1 := by
  unfold State.copyAll
  split
  · next e1 =>
    have h1 := Canon.of_fst e1 h.copyUnits
    exact .pair h1.copyFlag
  · exact h.copyUnits

theorem CanonOpt.bufferAdd {k w : ℕ} {es : List CEntry} (h : Canon s) : CanonOpt (s.bufferAdd k w es) :=
  .ite .none (.some h.onWarp)

/-! ### Addresses and checks -/

theorem Canon.scoped {c : Cx} {scp : Scope} {f : Cx → Scope → Eff} (h : Canon c.s) (hf : ∀ c y1, Canon c.s → Canon (f c y1).s) :
    Canon (c.scoped scp f).s := .iteEff (hf _ _ h) (h.iteEff (hf _ _ (.cx h.onWarp)))

theorem Canon.locate {c : Cx} {lane : ℕ} {va : DWord} {f : Form} {need : Need} {access : ℕ} {lab : Label} (hs : Canon s) :
    Canon (c.locate s lane va f need access lab).1 := by
  unfold Cx.locate
  split
  · exact hs
  · exact hs
  · split
    · next e2 => exact .of_fst e2 hs.translate
    · next e2 => exact .of_fst e2 hs.translate

theorem Canon.resolve {c : Cx} {lane : ℕ} {va : DWord} {size align : ℕ} {need : Need} {access : ℕ} {lab : Label} (hs : Canon s) :
    Canon (c.resolve s lane va size align need access lab).1 := by
  unfold Cx.resolve
  split
  · exact hs
  · exact hs.locate

theorem Canon.checkLanes {α : Type} {c : Cx} {f : State → ℕ → State × Except LaneEnd α} (hs : Canon s)
    (hf : ∀ u y1, Canon u → Canon (f u y1).1) :
    Canon (c.checkLanes s f).1 := by
  unfold Cx.checkLanes
  refine .foldlFst (fun _ _ h1 => ?_) hs
  split
  · next e2 => exact .of_fst e2 (hf _ _ h1)
  · next e2 => exact .of_fst e2 (hf _ _ h1)

theorem Canon.checked {c : Cx} {m : MemOp} {need : Need} {access : ℕ} {noPeer : Bool} {out : Option Label} {lane : ℕ}
    (hs : Canon s) :
    Canon (c.checked m need access noPeer out s lane).1 := by
  unfold Cx.checked
  dsimp only
  split
  · next e1 => exact .of_fst e1 hs.resolve
  · next e1 =>
    have h1 := Canon.of_fst e1 hs.resolve
    split
    · exact h1
    · exact h1

theorem CanonAns.post {c : Cx} {scp : Scope} {groups : List (List Access)} (h : Canon s) : CanonAns (c.post s scp groups) := by
  unfold Cx.post
  lift_lets
  intro r
  have hr : Canon r.1 := by
    refine .foldlFst (fun _ _ h1 => ?_) h
    exact .iteFst (.pair (h1.same rfl rfl)) (.pair (.foldl (fun _ _ h2 => h2.enqueue) (h1.same rfl rfl)))
  exact .ite (.some (.pair hr)) (.map (.bufferAdd hr) (fun _ h1 => .pair h1))

theorem Canon.await {c : Cx} {ends : List (ℕ × LaneEnd)} {waits : List ℕ} {result : Option Result} (hs : Canon s) :
    Canon (c.await s ends waits result).s := hs.iteEff (.eff (hs.same rfl rfl))

theorem Canon.hash {c : Cx} {e : HashEnt} (hs : Canon s) : Canon (c.hash s e) := hs.onWarp

end

end Sys2Proof.Machine
end

section
/-! PROOFS. The canonical form of device memory and of host memory: memory, matrix and channel instructions (O59). -/

namespace Sys2Proof.Machine

section

variable {s : State}

/-! ### Memory instructions -/

theorem CanonOpt.askLines {c : Cx} {as : List Access} (h : Canon s) : CanonOpt ((c.askLines s as).map Eff.s) := by
  unfold Cx.askLines
  split
  · exact .none
  · exact .some (.foldl (fun _ _ h1 => h1.askLine) h)

theorem Canon.askLines {c : Cx} {as : List Access} {e : Eff} (he : c.askLines s as = some e) (h : Canon s) : Canon e.s :=
  CanonOpt.askLines h _ (congrArg (Option.map Eff.s) he)

theorem Canon.readNow {c : Cx} {as : List Access} {ends : List (ℕ × LaneEnd)} {r : Result} (h : Canon s) :
    Canon (c.readNow s as ends r).s := by
  unfold Cx.readNow
  split
  · next e1 => exact .askLines e1 h
  · split
    · exact .eff h.poisonEnd
    · exact .eff (.foldl (fun _ _ h1 => .afterLook (.fetchFor h1.chargeAccess)) h)

theorem Canon.sendLoads {c : Cx} {as : List Access} {ends : List (ℕ × LaneEnd)} {r : Result} (hs : Canon s) :
    Canon (c.sendLoads s as ends r).s := hs.iteEff (.iteEff hs.readNow (.await (.foldlFst (fun _ _ h4 => .pair h4.queue) hs)))

theorem Canon.localNow {c : Cx} {as : List Access} (hs : Canon s) : Canon (c.localNow s as) := by
  unfold Cx.localNow
  refine .ite ?_ hs
  refine .foldl (fun _ _ h2 => ?_) hs
  split
  · exact h2.performAny
  · exact h2

theorem Canon.sendStores {c : Cx} {scp : Scope} {groups : List (List Access)} {ends : List (ℕ × LaneEnd)} {lab : Label}
    {recs : List Access → List (ℕ × DWord × DWord)} {addrs : List (ℕ × DWord)} {atomic : Bool} {result : Option Result}
    (hs : Canon s) :
    Canon (c.sendStores s scp groups ends lab recs addrs atomic result).s := by
  unfold Cx.sendStores
  refine hs.iteEff ?_
  dsimp only
  split
  · exact hs
  · next e2 =>
    have h2 := CanonAns.get (.post hs.fresh) e2
    exact .await (.localNow h2.hash)

theorem Canon.atomics {c : Cx} {m : MemOp} {scp : Scope} {d : Option (BitVec 8)} {lab extra : Label} {op : List ℕ → AccOp}
    (h : Canon c.s) :
    Canon (c.atomics m scp d lab extra op).s := by
  unfold Cx.atomics
  exact .sendStores (.ite (.fresh (h.checkLanes (fun _ _ h5 => h5.checked))) (h.checkLanes (fun _ _ h4 => h4.checked)))

theorem Keeps.ld {hd : Hdr} {m : MemOp} {d : BitVec 8} (h : Canon s) : Keeps (execLd hd m d s) :=
  .issue h (fun _ h2 => h2.scoped (fun _ _ h4 => .sendLoads (.fresh (h4.checkLanes (fun _ _ h8 => h8.checked)))))

theorem Keeps.st {hd : Hdr} {m : MemOp} {b : BitVec 8} (h : Canon s) : Keeps (execSt hd m b s) :=
  .issue h (fun _ h2 => h2.scoped (fun _ _ h4 => .sendStores (h4.checkLanes (fun _ _ h7 => h7.checked))))

theorem Keeps.atom {hd : Hdr} {m : MemOp} {op : Aop} {d b : BitVec 8} (h : Canon s) : Keeps (execAtom hd m op d b s) :=
  .issue h (fun _ h2 => h2.scoped (fun _ _ h4 => h4.atomics))

theorem Keeps.cas {hd : Hdr} {m : MemOp} {d b c : BitVec 8} (h : Canon s) : Keeps (execCas hd m d b c s) :=
  .issue h (fun _ h2 => h2.scoped (fun _ _ h4 => h4.atomics))

theorem Keeps.red {hd : Hdr} {m : MemOp} {op : Aop} {b : BitVec 8} (h : Canon s) : Keeps (execRed hd m op b s) :=
  .issue h (fun _ h2 => h2.scoped (fun _ _ h4 => h4.atomics))

theorem Canon.checkStf {c : Cx} {m : MemOp} {fc : BitVec 8} {out : Label} {lane : ℕ} (hs : Canon s) :
    Canon (c.checkStf m fc out s lane).1 := by
  unfold Cx.checkStf
  dsimp only
  split
  · exact hs.iteFst hs
  · exact hs
  · refine hs.iteFst (hs.iteFst ?_)
    split
    · next e4 => exact .of_fst e4 hs.locate
    · next e4 =>
      have h4 := Canon.of_fst e4 hs.locate
      refine .iteFst ?_ ?_
      · split
        · exact h4
        · exact h4
      · split
        · next e6 => exact .of_fst e6 h4.locate
        · next e6 =>
          have h6 := Canon.of_fst e6 h4.locate
          split
          · exact h6
          · exact h6

theorem Keeps.stf {hd : Hdr} {m : MemOp} {b c : BitVec 8} (h : Canon s) : Keeps (execStf hd m b c s) :=
  .issue h (fun _ h2 => h2.scoped (fun _ _ h4 => .sendStores (h4.checkLanes (fun _ _ h7 => h7.checkStf))))

theorem Keeps.waitge {hd : Hdr} {m : MemOp} {d b : BitVec 8} (h : Canon s) : Keeps (execWaitge hd m d b s) :=
  .issue h (fun _ h2 => h2.scoped (fun _ _ h4 => .iteEff (.eff (h4.checkLanes (fun _ _ h8 => h8.checked)))
      (.eff (.foldl (fun _ _ h7 => h7.queue) (.same (h4.checkLanes (fun _ _ h10 => h10.checked)) rfl rfl)))))

theorem Canon.hintPlace {c : Cx} {m : MemOp} {lane : ℕ} (hs : Canon s) : Canon (c.hintPlace m s lane).1 := by
  unfold Cx.hintPlace
  split
  · split
    · next e2 => exact .of_fst e2 hs.translate
    · next e2 => exact .of_fst e2 hs.translate
  · exact hs
  · exact hs

theorem Canon.prefetch {a : Access} (h : Canon s) : Canon (s.prefetch a) := by
  unfold State.prefetch
  split
  · exact h.ite h.fetchFor
  · exact h.ite h.fetchFor
  · refine h.ite ?_
    dsimp only
    split
    · exact .sendAccess h.queue
    · exact h.queue
  · exact h

theorem Keeps.ldpf {hd : Hdr} {m : MemOp} (h : Canon s) : Keeps (execLdpf hd m s) := by
  unfold execLdpf
  refine .issue h (fun _ h2 => ?_)
  refine .eff (.foldl (fun _ _ h4 => ?_) h2)
  split
  · next e5 =>
    have h5 := Canon.of_fst e5 h4.hintPlace
    exact h5.prefetch
  · next e5 => exact .of_fst e5 h4.hintPlace

theorem Canon.l1Evict {core key : ℕ} (h : Canon s) : Canon (s.l1Evict core key) := by
  unfold State.l1Evict
  split
  · exact h
  · exact .ite h.onCore (.privBack h.onCore)

theorem Canon.l2Demote {line : ℕ} (h : Canon s) : Canon (s.l2Demote line) := h.onDie

theorem Canon.maintain {core : ℕ} {op : MaintOp} {x : Spot} (h : Canon s) : Canon (s.maintain core op x) := by
  unfold State.maintain
  split
  · split
    · exact h.l1Evict
    · exact h.l2Clean
    · exact .l2Drop (.foldl (fun _ _ h4 => .l1Evict h4.l1Evict) h)
    · exact .l2Demote (.foldl (fun _ _ h4 => .markLine h4.markLine) h)
  · exact h
  · exact h
  · exact h

theorem Keeps.cmaint {hd : Hdr} {m : MemOp} {op : MaintOp} (h : Canon s) : Keeps (execCmaint hd m op s) := by
  unfold execCmaint
  refine .issue h (fun _ h2 => ?_)
  refine .eff (.foldl (fun _ _ h4 => ?_) h2)
  split
  · next e5 =>
    have h5 := Canon.of_fst e5 h4.hintPlace
    exact h5.maintain
  · next e5 => exact .of_fst e5 h4.hintPlace

/-! ### Matrix instructions -/

theorem Keeps.sclaim {hd : Hdr} {n : BitVec 3} (h : Canon s) : Keeps (execSclaim hd n s) := by
  unfold execSclaim
  refine .issue h (fun _ h2 => ?_)
  dsimp only
  split
  · exact h2.iteEff h2
  · exact .iteEff (.eff h2.onCore) h2

theorem Canon.freeSlot {core n : ℕ} (h : Canon s) : Canon (s.freeSlot core n) := h.onCore

theorem Keeps.srel {hd : Hdr} {n : BitVec 3} (h : Canon s) : Keeps (execSrel hd n s) :=
  .issue h (fun _ h2 => h2.iteEff (.iteEff (.eff h2.freeSlot) h2))

theorem Canon.clashResult {k w id : ℕ} (h : Canon s) : Canon (s.clashResult k w id) := h.ite h.onWarp

theorem Canon.clashArray {core k : ℕ} {torn : Bool} {lab : Label} {f : MatEnt → Bool} (h : Canon s) :
    Canon (s.clashArray core k torn lab f).1 := h.iteFst (.pair (.onCore (.foldl (fun _ _ h4 => h4.clashResult) h)))

theorem Canon.clashPort {k w t : ℕ} {lab : Label} {r : Result} (h : Canon s) : Canon (s.clashPort k w t lab r) :=
  .ite (h.same rfl rfl) (.ite (.tileFree (h.same rfl rfl)) (.same (h.same rfl rfl) rfl rfl))

theorem Canon.clashPorts {k t : ℕ} {lab : Label} (h : Canon s) : Canon (s.clashPorts k t lab).1 :=
  h.iteFst (.pair (.foldl (fun _ _ h3 => .clashResult h3.clashPort) h))

theorem Canon.clashXfers {core k n : ℕ} {lab : Label} (h : Canon s) : Canon (s.clashXfers core k n lab).1 := by
  unfold State.clashXfers
  lift_lets
  intro xs s1 s2 mine buffered s3
  have h1 : Canon s1 := by
    refine .foldl (fun u x hu => ?_) h
    refine .same (?_ : Canon ((List.range x.done).foldl _ u)) rfl rfl
    exact .foldl (fun _ _ hv => hv.slotByte) hu
  have h2 : Canon s2 := h1.onCore
  exact .pair (.ite h2.onTeam h2)

theorem Keeps.mma {hd : Hdr} {z : Bool} {kq : BitVec 3} {fa fb : MFmt} {sa sb t : BitVec 4} (h : Canon s) :
    Keeps (execMma hd z kq fa fb sa sb t s) := by
  unfold execMma
  refine .issue h (fun _ h2 => ?_)
  dsimp only
  split
  · exact h2
  · exact .eff (.onCore (.clashPorts (.foldlFst (fun _ _ h7 => .pair h7.clashXfers) (.pair (.clashArray h2.fresh)))))

theorem Keeps.mscac {hd : Hdr} {z : Bool} {ws : BitVec 8} {p t : BitVec 4} (h : Canon s) : Keeps (execMscac hd z ws p t s) := by
  refine .issue h (fun c h1 => ?_)
  dsimp only
  split
  · exact h1
  · split
    · exact h1
    · refine .eff (.ite ?_ (.queue (.queue ?_)))
      all_goals
        refine .onCore (.iteFst (.pair ?_) (.clashPorts ?_))
        all_goals exact .clashPorts (.clashArray h1.fresh)

theorem Keeps.mxwait {hd : Hdr} {all : Bool} {t : BitVec 4} (h : Canon s) : Keeps (execMxwait hd all t s) :=
  .issue h (fun _ h2 => h2.iteEff h2)

theorem Canon.atPort {c : Cx} {body : Eff} (h : Canon c.s) (hbody : Canon body.s) : Canon (c.atPort body).s := h.iteEff hbody

theorem Canon.port {c : Cx} {t : ℕ} {lab : Label} (h : Canon c.s) : Canon (c.port t lab).1 := .pair h.clashArray

theorem Keeps.aclr {hd : Hdr} {t : BitVec 4} (h : Canon s) : Keeps (execAclr hd t s) :=
  .issue h (fun _ h2 => h2.atPort (.eff (.fresh (.ite (.tileFree h2.port) (.tileWrite h2.port)))))

theorem Keeps.accrd {hd : Hdr} {ty : TileTy} {rm : Rnd} {row : BitVec 8} {tile : BitVec 4} {d : BitVec 8} (h : Canon s) :
    Keeps (execAccrd hd ty rm row tile d s) := .issue h (fun _ h2 => h2.atPort (.eff (.fresh h2.port)))

theorem Keeps.accwr {hd : Hdr} {ty : TileTy} {row : BitVec 8} {tile : BitVec 4} {a : BitVec 8} (h : Canon s) :
    Keeps (execAccwr hd ty row tile a s) := .issue h (fun _ h2 => h2.atPort (.eff (.fresh (.onTeam h2.port))))

theorem Keeps.accst {hd : Hdr} {ty : TileTy} {rm : Rnd} {tile : BitVec 4} {a : BitVec 8} (h : Canon s) :
    Keeps (execAccst hd ty rm tile a s) := by
  unfold execAccst
  refine .issue h (fun _ h2 => ?_)
  split
  · dsimp only
    split
    · exact h2
    · refine h2.atPort ?_
      split
      · split
        · next e7 =>
          have h7 := CanonOpt.get (.bufferAdd (.fresh h2.port)) e7
          exact h7
        · exact h2
      · exact h2
      · exact h2
      · exact h2
  · dsimp only
    split
    · exact h2
    · exact h2.atPort (.eff (.foldlFst (fun _ _ h7 => .pair h7.queue) (.pair (.fresh h2.port))))

theorem Keeps.accld {hd : Hdr} {ty : TileTy} {tile : BitVec 4} {a : BitVec 8} (h : Canon s) :
    Keeps (execAccld hd ty tile a s) := by
  unfold execAccld
  refine .issue h (fun _ h2 => ?_)
  dsimp only
  split
  · exact h2
  · exact h2.atPort (.sendLoads (.fresh h2.port))

theorem Canon.codebookLines {c : Cx} {va : DWord} {dom : Dom} {lab : Label} (h : Canon s) :
    Canon (c.codebookLines s va dom lab).1 := by
  unfold Cx.codebookLines
  refine .foldlFst (fun acc i h1 => ?_) h
  split
  · exact h1
  · dsimp only
    generalize acc.1.formOf c.n.team c.n.warp 0 (va + BitVec.ofNat 64 (128 * i)) 128 = f
    have located : Canon (c.locate acc.1 0 (va + BitVec.ofNat 64 (128 * i)) f .read 12 lab).1 := h1.locate
    obtain ⟨v, _ | _⟩ | ⟨k, o⟩ | _ := f
    case virt.true => exact h1
    case bad => exact h1
    all_goals
      revert located
      dsimp only
      generalize c.locate acc.1 0 (va + BitVec.ofNat 64 (128 * i)) _ .read 12 lab = r
      obtain ⟨t, e | y⟩ := r
      · exact id
      · dsimp only
        cases Cx.barred t y dom false none lab with
        | some e => exact id
        | none => exact id

theorem Keeps.cbload {hd : Hdr} {dom : Dom} {scp : Scope} {a : BitVec 8} (h : Canon s) : Keeps (execCbload hd dom scp a s) := by
  unfold execCbload
  refine .issue h (fun _ h2 => ?_)
  refine h2.iteEff (h2.iteEff ?_)
  refine .iteEff ?_ ?_
  · refine h2.scoped (fun _ _ h7 => ?_)
    split
    · next e8 => exact .of_fst e8 h7.codebookLines
    · next e8 =>
      have h8 := Canon.of_fst e8 h7.codebookLines
      exact .sendLoads (.fresh h8.clashArray)
  · dsimp only
    split
    · next e6 => exact .of_fst e6 h2.codebookLines
    · next e6 =>
      have h6 := Canon.of_fst e6 h2.codebookLines
      exact .sendLoads (.fresh h6.clashArray)

/-! ### Channel instructions -/

theorem Canon.mapPages {c : Cx} {r : Rows} {need : Need} {access : ℕ} {lab : Label} (hs : Canon s) :
    Canon (c.mapPages s r need access lab).1 := by
  unfold Cx.mapPages
  refine .foldlFst (fun _ _ h1 => ?_) hs
  split
  · exact h1
  · split
    · dsimp only
      split
      · next e4 => exact .of_fst e4 h1.translate
      · next e4 => exact .of_fst e4 h1.translate
    · exact h1
    · dsimp only
      split
      · exact h1
      · exact h1
      · exact h1

theorem Canon.accept {c : Cx} {ch : ℕ} {x : Xfer} (h : Canon c.s) (hs : Canon s) : Canon (c.accept s ch x).s := by
  unfold Cx.accept
  refine .iteEff ?_ (.eff hs.onCore)
  split
  · next e2 =>
    have h2 := CanonOpt.get (.bufferAdd hs) e2
    exact h2
  · exact h

theorem Canon.copyChecked {c : Cx} {shp : Shape} {dom : Dom} {scp : Scope} {ch : ℕ} {denied : Bool} {cap : Scope} {sr dr : Rows}
    {flag : DWord} {lab flagLab srcLab dstLab : Label} (h : Canon c.s) :
    Canon (c.copyChecked shp dom scp ch denied cap sr dr flag lab flagLab srcLab dstLab).s := by
  unfold Cx.copyChecked
  refine .iteEff (.eff h) (.iteEff (.eff h) ?_)
  generalize e1 : c.mapPages c.s sr .read 4 srcLab = r1
  obtain ⟨s1, f | sm⟩ := r1
  · exact .eff (.of_fst e1 h.mapPages)
  have h1 := Canon.of_fst e1 h.mapPages
  dsimp only
  generalize e2 : c.mapPages s1 dr .write 5 dstLab = r2
  obtain ⟨s2, f | dm⟩ := r2
  · exact .eff (.of_fst e2 h1.mapPages)
  have h2 := Canon.of_fst e2 h1.mapPages
  dsimp only
  generalize e3 : c.mapPages s2 { base := flag, rows := if flag = 0 then 0 else 1, stride := 0, bytes := 8 } .flag 6 flagLab = r3
  obtain ⟨s3, f | fm⟩ := r3
  · exact .eff (.of_fst e3 h2.mapPages)
  have h3 := Canon.of_fst e3 h2.mapPages
  refine .iteEff (.eff h3) (.iteEff (.eff h3) (.iteEff (.eff h3) (.iteEff (.eff h3) (.accept h (.fresh ?_)))))
  split
  · exact h3.clashArray
  · exact h3

theorem Keeps.copy {hd : Hdr} {scp : Scope} {dom : Dom} {wf wd wc : BitVec 6} {shp : Shape} {ch : BitVec 2} (h : Canon s) :
    Keeps (execCopy hd scp dom wf wd wc shp ch s) := by
  refine .issue h (fun c hc => ?_)
  lift_lets
  intro x beyond strict cx
  have hx : Canon cx.s := by
    unfold cx
    split
    · exact .cx hc.onWarp
    · exact hc
  clear_value cx
  refine .iteEff (.eff hx) ?_
  split
  · exact .eff hx
  · exact .iteEff (.eff hx) (.iteEff (.eff hx) (.iteEff (.eff hx) (.iteEff (.eff hx) hx.copyChecked)))

theorem Keeps.chwait {hd : Hdr} {wv : BitVec 6} {ch : BitVec 2} (h : Canon s) : Keeps (execChwait hd wv ch s) :=
  .issue h (fun _ h2 => h2.iteEff h2)

theorem Canon.chanReset {k ch : ℕ} (h : Canon s) : Canon (s.chanReset k ch) := by
  unfold State.chanReset
  exact .onTeam h.onCore

theorem Canon.chanDropStuck {core ch : ℕ} {among : List ℕ} (h : Canon s) : Canon (s.chanDropStuck core ch among) := h.onCore

theorem Keeps.chrst {hd : Hdr} {ch : BitVec 2} (h : Canon s) : Keeps (execChrst hd ch s) :=
  .issue h (fun _ h2 => .iteEff (.eff (.chanReset h2.chanDropStuck)) (.eff h2.chanDropStuck))

end

end Sys2Proof.Machine
end

section
/-! PROOFS. The canonical form of device memory and of host memory: fetch, the array, control transfer and order (O59). -/

namespace Sys2Proof.Machine

section

variable {s : State}

/-! ### Fetch -/

theorem Canon.fetch {core ctx : ℕ} {pc : DWord} (h : Canon s) : Canon (s.fetch core ctx pc).1 := by
  unfold State.fetch
  split
  · next e1 => exact .of_fst e1 h.translate
  · next e1 =>
    have h1 := Canon.of_fst e1 h.translate
    split
    · split
      · dsimp only
        split
        · exact h1.iteFst (.pair (h1.same rfl rfl))
        · exact h1
      · dsimp only
        split
        · exact h1.iteFst (.pair (h1.same rfl rfl))
        · exact .pair (.onCore (.l2Reach h1.hostGet))
    · split
      · dsimp only
        split
        · exact h1.iteFst (.pair (h1.same rfl rfl))
        · exact h1
      · dsimp only
        split
        · exact h1.iteFst (.pair (h1.same rfl rfl))
        · exact .pair (.onCore (.l2Reach h1.hostGet))

theorem Canon.fetchStrand {core ctx : ℕ} {x : Strand} (h : Canon s) : Canon (s.fetchStrand core ctx x).1 := h.iteFst h.fetch

theorem Canon.copyWords {core ctx : ℕ} {pc : DWord} {n : ℕ} (h : Canon s) : Canon (s.copyWords core ctx pc n).1 := by
  induction n generalizing s pc with
  | zero => exact h
  | succ n ih =>
    unfold State.copyWords
    split
    · next e1 => exact ih (.of_fst e1 h.fetch)
    · next e1 => exact .of_fst e1 h.fetch

theorem Canon.nowOf {k w : ℕ} {us : List (ℕ × ℕ)} (h : Canon s) : Canon (s.nowOf k w us).1 := .pair h.setWarp

/-! ### The matrix array -/

theorem Canon.startArray {core : ℕ} {m : MatEnt} {lost : ℕ} {bytes : Cells Byte} {lab : Label} (h : Canon s) :
    Canon (s.startArray core m lost bytes lab) := by
  unfold State.startArray
  exact .onCore h.charge

theorem Keeps.mmaStart {core : ℕ} (h : Canon s) : Keeps (execMmaStart core s) := by
  unfold execMmaStart
  split
  · exact .next h
  · exact .next (.ite h.startArray h.startArray)

theorem Canon.startMscac {core : ℕ} (h : Canon s) : Canon (s.startMscac core) := by
  unfold State.startMscac
  split
  · split
    · exact .ite (.ite h.startArray (.startArray (.foldl (fun _ _ h6 => .afterLook h6.unqueue) h))) h
    · exact h
  · exact h

theorem Canon.stopArray {core : ℕ} (h : Canon s) : Canon (s.stopArray core) := by
  unfold State.stopArray
  split
  · exact h
  · refine h.ite ?_
    split
    · dsimp only
      split
      · exact h
      · exact .ite h.onCore h.onCore
    · dsimp only
      split
      · exact h.onCore
      · exact h.onCore

theorem Canon.arrayReturn {core : ℕ} {m : MatEnt} (h : Canon s) : Canon (s.arrayReturn core m) := by
  unfold State.arrayReturn
  exact .onWarp h.onCore

theorem Keeps.mmaComplete {core : ℕ} (h : Canon s) : Keeps (execMmaComplete core s) := by
  unfold execMmaComplete
  split
  · exact .next h
  · split
    · exact .next h
    · exact .next (.arrayReturn (.ite (.onWarp (.ite h.tileFree h.tileWrite)) (.ite h.tileFree h.tileWrite)))

theorem Keeps.mscacComplete {core : ℕ} (h : Canon s) : Keeps (execMscacComplete core s) := by
  unfold execMscacComplete
  split
  · exact .next h
  · split
    · exact .next h
    · exact .ite (.next (.arrayReturn h.tileFree)) (.next (.arrayReturn h.tileWrite))

/-! ### Control transfer -/

theorem Canon.strictFloor {c : Cx} {l : Label} (hs : Canon s) : Canon (c.strictFloor s l) := .ite hs.onWarp hs

theorem Canon.branch {c : Cx} {lab strict : Label} {target : ℕ → DWord} (h : Canon c.s) : Canon (c.branch lab strict target).s :=
  .eff h.strictFloor

theorem Keeps.bra {hd : Hdr} {ofs : BitVec 32} (h : Canon s) : Keeps (execBra hd ofs s) := .issue h (fun _ h2 => h2.branch)

theorem Keeps.brx {hd : Hdr} {a : BitVec 8} (h : Canon s) : Keeps (execBrx hd a s) := .issue h (fun _ h2 => h2.branch)

theorem Keeps.call {hd : Hdr} {ofs : BitVec 32} {d : BitVec 8} (h : Canon s) : Keeps (execCall hd ofs d s) :=
  .issue h (fun _ h2 => .eff h2.branch)

theorem Keeps.ret {hd : Hdr} {a : BitVec 8} (h : Canon s) : Keeps (execRet hd a s) := .issue h (fun _ h2 => h2.branch)

theorem Keeps.loop {hd : Hdr} {n a : BitVec 8} (h : Canon s) : Keeps (execLoop hd n a s) :=
  .issue h (fun _ h2 => .iteEff (.eff h2.strictFloor) (.eff (.copyWords h2.strictFloor)))

theorem Keeps.doze {hd : Hdr} {n : BitVec 32} (h : Canon s) : Keeps (execDoze hd n s) := .issue h (fun _ h2 => h2.iteEff h2)

theorem Keeps.trap {hd : Hdr} {n : BitVec 32} (h : Canon s) : Keeps (execTrap hd n s) := .issue h (fun _ h2 => h2)

theorem Keeps.brk {hd : Hdr} {n : BitVec 32} (h : Canon s) : Keeps (execBrk hd n s) := .issue h (fun _ h2 => h2)

theorem Keeps.yield {hd : Hdr} (h : Canon s) : Keeps (execYield hd s) := .issue h (fun _ h2 => h2)

theorem Canon.drainFirst {c : Cx} {f : Eff} (hs : Canon s) (hf : Canon f.s) : Canon (c.drainFirst s f).s := hf.iteEff hs

theorem Canon.push {c : Cx} {t : DWord} {u : ℕ × ℕ} (hs : Canon s) : Canon (c.push t s u).1 := by
  unfold Cx.push
  refine hs.iteFst (.iteFst (.pair hs.onWarp) ?_)
  split
  · next e3 => exact .of_fst e3 hs.spillWrite
  · next e3 =>
    have h3 := Canon.of_fst e3 hs.spillWrite
    exact .pair h3.onWarp

theorem Keeps.jpush {hd : Hdr} {ofs : BitVec 32} (h : Canon s) : Keeps (execJpush hd ofs s) := by
  unfold execJpush
  refine .issue h (fun _ h2 => ?_)
  split
  · dsimp only
    split
    · exact h2.drainFirst (.eff (.foldlFst (fun _ _ h7 => .pair h7.push) h2))
    · exact h2
  · dsimp only
    split
    · exact .eff (.foldlFst (fun _ _ h6 => .pair h6.push) h2)
    · exact h2

theorem Canon.withStack {c : Cx} {e : Eff} {find : State → ℕ × ℕ → State × Except FaultInfo Bool} {leave : ℕ × ℕ → Warp → Warp}
    (h : Canon c.s) (he : Canon e.s) (hfind : ∀ u y1, Canon u → Canon (find u y1).1) :
    Canon (c.withStack e find leave).s := by
  unfold Cx.withStack
  refine he.iteEff (h.drainFirst ?_)
  lift_lets
  intro r
  have hr : Canon r.1 := by
    refine .foldlFst (fun _ _ h1 => h1.iteFst ?_) h
    split
    · next e1 => exact .of_fst e1 (hfind _ _ h1)
    · next e1 =>
      have h2 := Canon.of_fst e1 (hfind _ _ h1)
      split
      · exact h2
      · exact h2
  split
  · refine .eff (.foldl (fun _ _ h1 => .ite ?_ h1) hr)
    split
    · next e1 => exact .askLine (.of_fst e1 h1.hwPlace)
    · next e1 => exact .of_fst e1 h1.hwPlace
  · exact .eff (he.ite hr)

theorem Keeps.exit {hd : Hdr} (h : Canon s) : Keeps (execExit hd s) := .issue h (fun _ h2 => h2.withStack h2 (fun _ _ _ => h2))

theorem Canon.joinSearch {c : Cx} {u : ℕ × ℕ} (hs : Canon s) : Canon (c.joinSearch s u).1 := by
  unfold Cx.joinSearch
  refine hs.iteFst ?_
  split
  · next e2 => exact .of_fst e2 hs.spillFind
  · next e2 => exact .of_fst e2 hs.spillFind

theorem Keeps.join {hd : Hdr} (h : Canon s) : Keeps (execJoin hd s) := by
  unfold execJoin
  refine .issue h (fun _ h2 => ?_)
  refine h2.withStack h2 (fun _ _ h4 => ?_)
  split
  · next e5 => exact .of_fst e5 h4.joinSearch
  · next e5 => exact .of_fst e5 h4.joinSearch

theorem Keeps.regang {hd : Hdr} (h : Canon s) : Keeps (execRegang hd s) := .issue h (fun _ h2 => h2)

/-! ### Ordering instructions -/

theorem Canon.edge {c : Cx} {frm dst : DomSet} {scp : Scope} (h : Canon c.s) : Canon (c.edge frm dst scp).s :=
  h.iteEff (.eff (.onWarp h.fresh))

theorem Keeps.fence {hd : Hdr} {all : Bool} {dom : Dom} {scp : Scope} (h : Canon s) : Keeps (execFence hd all dom scp s) :=
  .issue h (fun _ h2 => h2.scoped (fun _ _ h4 => h4.edge))

theorem Keeps.bridge {hd : Hdr} {frm dst : Dom} {scp : Scope} (h : Canon s) : Keeps (execBridge hd frm dst scp s) :=
  .issue h (fun _ h2 => h2.scoped (fun _ _ h4 => h4.edge))

theorem Canon.gateStep {ctx : ℕ} {base : DWord} {len pid : ℕ} {frames : List ℕ} (h : Canon s) :
    Canon (s.gateStep ctx base len pid frames).1 := by
  unfold State.gateStep
  dsimp only
  split
  · exact h
  · refine .iteFst h (.iteFst (.pair (h.same rfl rfl)) ?_)
    refine .same (?_ : Canon (frames.foldl _ _)) rfl rfl
    exact .foldl (fun _ _ h1 => h1.charge) (h.same rfl rfl)

theorem Canon.regionPages {c : Cx} {base : DWord} {lab : Label} {n : ℕ} (h : Canon s) : Canon (c.regionPages s base lab n).1 := by
  induction n with
  | zero => exact h
  | succ n ih =>
    unfold Cx.regionPages
    split
    · next e1 => exact .of_fst e1 ih
    · next e1 =>
      have h1 := Canon.of_fst e1 ih
      dsimp only
      split
      · next e2 => exact .of_fst e2 h1.translate
      · next e2 => exact .of_fst e2 h1.translate

theorem Keeps.release {hd : Hdr} {d a b c : BitVec 8} (h : Canon s) : Keeps (execRelease hd d a b c s) := by
  unfold execRelease
  refine .issue h (fun _ h2 => ?_)
  refine h2.iteEff (h2.iteEff ?_)
  split
  · next e5 => exact .of_fst e5 h2.regionPages
  · next e5 =>
    have h5 := Canon.of_fst e5 h2.regionPages
    exact h5.iteEff (.eff h5.gateStep)

end

end Sys2Proof.Machine
end

section
/-! PROOFS. The canonical form of device memory and of host memory: warps, launches and what settles (O59). -/

namespace Sys2Proof.Machine

section

variable {s : State}

/-! ### Barriers, events and waits -/

theorem Canon.enterLaunch {ctx : ℕ} {hdr : Header} {va : DWord} {port jseq : ℕ} {lab : Label} {waits : List (ℕ × Scope)}
    (h : Canon s) :
    Canon (s.enterLaunch ctx hdr va port jseq lab waits) := h.same rfl rfl

theorem Canon.journalDevice {port ctxNum serial : ℕ} {va : DWord} (h : Canon s) : Canon (s.journalDevice port ctxNum serial va) :=
  h.journalAdd

theorem CanonOpt.offer {core k : ℕ} {r : SpawnRec} (h : Canon s) : CanonOpt (s.offer core k r) := by
  unfold State.offer
  split
  · dsimp only
    split
    · exact .ite .none (.some h.onCore)
    · split
      · exact .none
      · exact .some h.onCore
  · dsimp only
    split
    · exact .ite .none (.some h.onCore)
    · split
      · exact .none
      · exact .some h.onCore

theorem Canon.startBin {core n clock : ℕ} (h : Canon s) : Canon (s.startBin core n clock) := by
  unfold State.startBin
  dsimp only
  split
  · exact h
  · exact h.ite (.onCore h.setWarp)

theorem Canon.startBins {core : ℕ} (h : Canon s) : Canon (s.startBins core) :=
  .foldl (fun _ _ h1 => .ite (.ite (.startBin h1.startBin) h1.startBin) h1) h

theorem Canon.flushBins {core k : ℕ} {pcs : List DWord} (h : Canon s) : Canon (s.flushBins core k pcs) := h.onCore

theorem Canon.advanceBar {k id n : ℕ} (h : Canon s) : Canon (s.advanceBar k id n) := by
  induction n generalizing s with
  | zero => exact h
  | succ n ih =>
    unfold State.advanceBar
    exact .ite (ih h.onTeam) h

theorem Canon.settleBars {k : ℕ} (h : Canon s) : Canon (s.settleBars k) := by
  unfold State.settleBars
  refine .foldl (fun _ _ h1 => ?_) h
  refine .advanceBar (.foldl (fun _ _ h3 => ?_) h1)
  split
  · exact h3
  · exact .advanceBar (.onWarp h3.onTeam)

theorem Canon.setClusterBar {launch index id : ℕ} {b : Bar} (h : Canon s) : Canon (s.setClusterBar launch index id b) :=
  .ite (h.same rfl rfl) (h.same rfl rfl)

theorem Canon.onWarps {ks : List ℕ} {f : Warp → Warp} (h : Canon s) : Canon (s.onWarps ks f) := .foldl (fun _ _ h1 => h1.onTeam) h

theorem Canon.advanceClusterBar {launch index id n : ℕ} (h : Canon s) : Canon (s.advanceClusterBar launch index id n) := by
  induction n generalizing s with
  | zero => exact h
  | succ n ih =>
    unfold State.advanceClusterBar
    exact .ite (ih (.foldl (fun _ _ h1 => h1.onWarps) h.setClusterBar)) h

theorem Canon.settleClusterBars {launch index : ℕ} (h : Canon s) : Canon (s.settleClusterBars launch index) := by
  unfold State.settleClusterBars
  refine .foldl (fun _ _ h1 => ?_) h
  refine .advanceClusterBar (.foldl (fun _ _ h3 => ?_) h1)
  split
  · exact h3
  · exact .advanceClusterBar (.onWarps h3.setClusterBar)

theorem Canon.settleEvents (h : Canon s) : Canon s.settleEvents := by
  refine .same (?_ : Canon (s.deferred.foldl _ (s, [])).1) rfl rfl
  exact .foldlFst (fun _ _ h1 => .iteFst h1 h1.eventBit) h

/-! ### Launch, spawn and barriers -/

theorem Keeps.meet {hd : Hdr} {pass : Bool} {id count : BitVec 8} (h : Canon s) : Keeps (execMeet hd pass id count s) :=
  .issue h (fun _ h2 => h2)

theorem Keeps.cmeet {hd : Hdr} {pass : Bool} {id count : BitVec 8} (h : Canon s) : Keeps (execCmeet hd pass id count s) :=
  .issue h (fun _ h2 => h2)

theorem Canon.headerReads {c : Cx} {va : DWord} {lab : Label} (hs : Canon s) : Canon (c.headerReads s va lab).1 := by
  unfold Cx.headerReads
  refine .foldlFst (fun _ _ h1 => ?_) hs
  split
  · exact h1
  · dsimp only
    split
    · next e3 => exact .of_fst e3 h1.translate
    · next e3 => exact .of_fst e3 h1.translate

theorem Canon.headerOf {as : List Access} (h : Canon s) : Canon (s.headerOf as).1 :=
  .foldlFst (fun _ _ h1 => .pair (.afterLook (.catchUp (.fetchFor h1.chargeAccess)))) h

theorem Keeps.launch {hd : Hdr} {wait : Bool} {d a : BitVec 8} (h : Canon s) : Keeps (execLaunch hd wait d a s) := by
  refine .issue h (fun c hc => .iteEff (.eff hc) (.iteEff (.eff hc) (.iteEff (.eff hc) ?_)))
  split
  · next e1 => exact .eff (.of_fst e1 hc.headerReads)
  · next e1 =>
    have h1 := Canon.of_fst e1 hc.headerReads
    split
    · next e2 => exact .askLines e2 h1
    · exact .eff h1.poisonEnd
    · exact .eff h1
    · have h2 {as : List Access} := h1.headerOf (as := as)
      refine .iteEff (.eff h2) (.iteEff (.eff h2) (.iteEff (.iteEff (.eff h2) (.eff h2)) (.eff ?_)))
      exact .enterLaunch (.journalDevice h2)

theorem Keeps.evset {hd : Hdr} {clr : Bool} {n : BitVec 8} (h : Canon s) : Keeps (execEvset hd clr n s) := by
  unfold execEvset
  refine .issue h (fun _ h2 => ?_)
  refine .iteEff ?_ (.eff (.settleEvents (h2.same rfl rfl)))
  split
  · next e4 =>
    have h4 := CanonOpt.get (.bufferAdd h2) e4
    exact h4
  · exact h2

theorem Keeps.evwait {hd : Hdr} {n : BitVec 8} (h : Canon s) : Keeps (execEvwait hd n s) := .issue h (fun _ h2 => h2.iteEff h2)

theorem Canon.offerAll {core k : ℕ} {rs : List (ℕ × SpawnRec)} (h : Canon s) : Canon (s.offerAll core k rs).1 := by
  unfold State.offerAll
  refine .foldlFst (fun _ _ h1 => ?_) h
  split
  · next e2 =>
    have h2 := CanonOpt.get (.offer h1) e2
    exact h2
  · exact h1

theorem Keeps.spawn {hd : Hdr} {wait : Bool} {a b c : BitVec 8} (h : Canon s) : Keeps (execSpawn hd wait a b c s) := by
  refine .issue h (fun x h1 => h1.iteEff (.iteEff ?_ (.iteEff (.eff h1.offerAll) (.eff h1.offerAll))))
  dsimp only
  generalize e1 : x.s.bufferAdd _ _ _ = o
  cases o with
  | none => exact h1
  | some u => exact .eff (CanonOpt.get (.bufferAdd h1) e1)

theorem Keeps.binfl {hd : Hdr} {a : BitVec 8} (h : Canon s) : Keeps (execBinfl hd a s) := by
  unfold execBinfl
  refine .issue h (fun _ h2 => ?_)
  refine .iteEff ?_ (.eff h2.flushBins)
  split
  · next e4 =>
    have h4 := CanonOpt.get (.bufferAdd h2) e4
    exact h4
  · exact h2

/-! ### System instructions -/

theorem Canon.labelSpot {c : Cx} {a : BitVec 8} {lane : ℕ} (hs : Canon s) : Canon (c.labelSpot a s lane).1 := by
  unfold Cx.labelSpot
  dsimp only
  split
  · exact hs
  · exact hs.locate

theorem Keeps.lbrd {hd : Hdr} {k : LbKind} {d a : BitVec 8} (h : Canon s) : Keeps (execLbrd hd k d a s) :=
  .issue h (fun _ h2 => h2.iteEff (.sendLoads (.fresh (h2.checkLanes (fun _ _ h7 => h7.labelSpot)))))

theorem Keeps.lbchk {hd : Hdr} {pf : Bool} {k : LbKind} {d a b : BitVec 8} (h : Canon s) : Keeps (execLbchk hd pf k d a b s) :=
  .issue h (fun _ h2 => h2.iteEff h2)

theorem Keeps.lbfloor {hd : Hdr} {k : LbKind} {a : BitVec 8} (h : Canon s) : Keeps (execLbfloor hd k a s) :=
  .issue h (fun _ h2 => .eff h2.onWarp)

theorem Keeps.srd {hd : Hdr} {srn : BitVec 16} {d : BitVec 8} (h : Canon s) : Keeps (execSrd hd srn d s) :=
  .issue h (fun _ h2 => h2.iteEff h2)

theorem Keeps.swr {hd : Hdr} {srn : BitVec 16} {a : BitVec 8} (h : Canon s) : Keeps (execSwr hd srn a s) := by
  unfold execSwr
  refine .issue h (fun _ h2 => ?_)
  split
  · exact .iteEff (.eff (.onWarp h2.strictFloor)) h2
  · exact .eff (.onWarp h2.strictFloor)
  · exact .eff (.onWarp h2.strictFloor)
  · exact .eff (.onWarp h2.strictFloor)
  · exact .eff (.onWarp h2.strictFloor)
  · exact .eff (.onWarp h2.strictFloor)
  · exact .eff (.onWarp h2.strictFloor)
  · exact .eff (.onWarp h2.strictFloor)

theorem Canon.frameRead {c : Cx} {f : DWord} {rs : List (ℕ × ℕ)} (hs : Canon s) : Canon (c.frameRead s f rs).1 := by
  unfold Cx.frameRead
  refine .foldlFst (fun _ _ h1 => ?_) hs
  split
  · exact h1
  · dsimp only
    split
    · next e3 => exact .of_fst e3 h1.resolve
    · next e3 => exact .of_fst e3 h1.resolve
    · next e3 =>
      have h3 := Canon.of_fst e3 h1.resolve
      exact h3.iteFst (.pair h3.hostGet)

theorem Canon.tretSlice {c : Cx} {acc : Eff} {u : ℕ × ℕ} (hacc : Canon acc.s) : Canon (c.tretSlice acc u).s := by
  unfold Cx.tretSlice
  refine hacc.iteEff ?_
  dsimp only
  split
  · next e2 => exact .of_fst e2 hacc.frameRead
  · next e2 =>
    have h2 := Canon.of_fst e2 hacc.frameRead
    exact .eff h2.endContext
  · next e2 => exact .of_fst e2 hacc.frameRead

theorem Keeps.tret {hd : Hdr} (h : Canon s) : Keeps (execTret hd s) := by
  refine .issue h (fun c hc => .iteEff (.eff hc) (.iteEff (.eff hc) ?_))
  split
  · next e1 => exact .askLines e1 hc
  · exact .foldlEff (fun _ _ he => he.tretSlice) hc

theorem Keeps.vrdx {hd : Hdr} {d a : BitVec 8} (h : Canon s) : Keeps (execVrdx hd d a s) := .issue h (fun _ h2 => h2)

theorem Keeps.vwrx {hd : Hdr} {a b : BitVec 8} (h : Canon s) : Keeps (execVwrx hd a b s) := .issue h (fun _ h2 => h2)

theorem Keeps.isync {hd : Hdr} (h : Canon s) : Keeps (execIsync hd s) := .issue h (fun _ h2 => .eff h2.onWarp)

theorem Keeps.iinv {hd : Hdr} {a b : BitVec 8} (h : Canon s) : Keeps (execIinv hd a b s) := .issue h (fun _ h2 => .eff h2.fresh)

/-! ### What settles after a step -/

theorem Canon.endHold {k w : ℕ} {hd : Hold} (h : Canon s) : Canon (s.endHold k w hd) := by
  unfold State.endHold
  split
  · exact .ite (.onWarp (.chanReset h.chanDropStuck)) h.chanDropStuck
  · exact .ite (.onWarp h.freeSlot) h
  · exact h
  · exact h
  · exact h
  · exact h
  · exact h
  · exact h
  · exact h
  · exact h

theorem Canon.endHolds {k w : ℕ} (h : Canon s) : Canon (s.endHolds k w) := .foldl (fun _ _ h1 => h1.endHold) h

theorem Canon.settleSpawn {k w : ℕ} (h : Canon s) : Canon (s.settleSpawn k w) := by
  unfold State.settleSpawn
  refine .foldl (fun _ _ h1 => ?_) h
  split
  · exact .onWarp h1.offerAll
  · exact h1

theorem Canon.pruneEdges {k w : ℕ} (h : Canon s) : Canon (s.pruneEdges k w) := h.ite h.onWarp

theorem Canon.settleWarp {k w : ℕ} (h : Canon s) : Canon (s.settleWarp k w) := by
  unfold State.settleWarp
  refine h.ite ?_
  lift_lets
  intro s1 s2 s3 s4 s5 s6
  have h2 : Canon s2 := .endHolds (.settleStack h.onWarp)
  have h3 : Canon s3 := h2.onWarp
  have h4 : Canon s4 := .ite h3.onWarp (.settleSpawn h3.onWarp)
  have h6 : Canon s6 := .takeTraps h4.pruneEdges
  exact .ite h6 h6.onWarp

theorem Canon.settleLost (h : Canon s) : Canon s.settleLost := by
  unfold State.settleLost
  refine .foldl (fun _ _ h1 => ?_) h
  refine h1.ite ?_
  split
  · exact h1
  · exact h1.loseFor

theorem Canon.sendLines (h : Canon s) : Canon s.sendLines := .foldl (fun _ _ h1 => .ite (.ite h1.sendAccess h1.waitCharge) h1) h

theorem Canon.settle (h : Canon s) : Canon s.settle :=
  .pruneEchoes (.settleLost (.foldl (fun _ _ h3 => h3.settleWarp) (.foldl (fun _ _ h4 => h4.ite h4.startBins)
      (.foldl (fun _ _ h5 => h5.settleClusterBars) (.foldl (fun _ _ h6 => h6.ite h6.settleBars) (.settleEvents h.sendLines))))))

/-! ### Results, performs and stores -/

theorem Keeps.illegalOpcode {w : DWord} (h : Canon s) : Keeps (execIllegalOpcode w s) := by
  unfold execIllegalOpcode
  split
  · exact .trapWord h
  · exact .next h

theorem Keeps.instructionFetchFault (h : Canon s) : Keeps (execInstructionFetchFault s) := by
  unfold execInstructionFetchFault
  split
  · exact .next h
  · split
    · exact .next h
    · dsimp only
      split
      · next e3 =>
        have h3 := Canon.of_fst e3 h.fetchStrand
        exact .next h3.finish
      · next e3 =>
        have h3 := Canon.of_fst e3 h.fetchStrand
        exact .next h3

theorem Canon.deviceWrite {pa n x : ℕ} {lab : Label} (h : Canon s) : Canon (s.deviceWrite pa n x lab) := h.store

theorem Keeps.faultQueueEntryWrite {vf ctx : ℕ} (h : Canon s) : Keeps (execFaultQueueEntryWrite vf ctx s) := by
  unfold execFaultQueueEntryWrite
  split
  · exact .next h
  · dsimp only
    split
    · exact .next h
    · exact .ite (.next h) (.next (.ite (.send (.send (.onContext (.ite h.deviceWrite h))))
          (.send (.onContext (.ite h.deviceWrite h)))))

theorem Canon.tryPerform {id : ℕ} (h : Canon s) : Canon (s.tryPerform id) := by
  unfold State.tryPerform
  split
  · exact h
  · exact h.ite (.ite h.performAny h.waitCharge)

theorem Keeps.resultReturn {team warp id : ℕ} {lanes : Lanes} (h : Canon s) : Keeps (execResultReturn team warp id lanes s) := by
  unfold execResultReturn
  refine .ite (.next h) ?_
  split
  · exact .next h
  · exact .next (.returnResult (.foldl (fun _ _ h5 => h5.tryPerform) h))

theorem Canon.performWhen {id : ℕ} {f : AccOp → Bool} (h : Canon s) : Canon (s.performWhen id f) := by
  unfold State.performWhen
  split
  · exact h
  · exact .ite h.tryPerform h

theorem Keeps.storePerform {id : ℕ} (h : Canon s) : Keeps (execStorePerform id s) := .next h.performWhen

theorem Keeps.atomicGroupPerform {id : ℕ} (h : Canon s) : Keeps (execAtomicGroupPerform id s) := .next h.performWhen

theorem Keeps.stfFlagAdd {id : ℕ} (h : Canon s) : Keeps (execStfFlagAdd id s) := .next h.performWhen

theorem Keeps.updateApply {id core : ℕ} (h : Canon s) : Keeps (execUpdateApply id core s) := by
  unfold execUpdateApply
  split
  · exact .next h
  · exact .ite (.next h) (.next (h.same rfl rfl))

theorem Keeps.dozeEnd {team warp slice entry : ℕ} (h : Canon s) : Keeps (execDozeEnd team warp slice entry s) := by
  unfold execDozeEnd
  refine .ite (.next h) ?_
  split
  · exact .ite (.next h.onWarp) (.next h)
  · exact .next h

theorem Keeps.spawnBinTimerExpiry {core bin : ℕ} (h : Canon s) : Keeps (execSpawnBinTimerExpiry core bin s) := by
  unfold execSpawnBinTimerExpiry
  dsimp only
  split
  · exact .next h
  · exact .ite (.next h.onCore) (.next h)

end

end Sys2Proof.Machine
end

section
/-! PROOFS. The canonical form of device memory and of host memory: copy channels, record and replay (O59). -/

namespace Sys2Proof.Machine

section

variable {s : State}

/-! ### Copy channels -/

theorem Canon.copyFlit {m : ℕ} (h : Canon s) : Canon (s.copyFlit m) := h.charge

theorem Canon.copyCharge {p : Place} {addr : ℕ → ℕ} {n k : ℕ} (h : Canon s) : Canon (s.copyCharge p addr n k) := by
  unfold State.copyCharge
  split
  · exact h
  · exact h.ite h.charge

theorem Canon.onChan {core ch : ℕ} {f : Chan → Chan} (h : Canon s) : Canon (s.onChan core ch f) := h.onCore

theorem Canon.setHead {core ch : ℕ} {x : Xfer} (h : Canon s) : Canon (s.setHead core ch x) := h.onChan

theorem Canon.dropHead {core ch : ℕ} (h : Canon s) : Canon (s.dropHead core ch) := h.same rfl rfl

theorem Canon.wrote {core ch : ℕ} {x : Xfer} {n : ℕ} (h : Canon s) : Canon (s.wrote core ch x n) := .ite h.onChan h.onChan

theorem Canon.clearPoison {x : Xfer} {n : ℕ} {p : Option Place} (h : Canon s) : Canon (s.clearPoison x n p) := by
  unfold State.clearPoison
  split
  · exact .ite (h.same rfl rfl) h
  · exact .ite (h.same rfl rfl) h
  · exact h

theorem Canon.copyPoison {core ch : ℕ} {x : Xfer} {va : ℕ} {lab : Label} (h : Canon s) : Canon (s.copyPoison core ch x va lab) :=
  .endContext h.dropHead

theorem Canon.copyStop {core ch : ℕ} {x : Xfer} (h : Canon s) : Canon (s.copyStop core ch x) := h.setHead

theorem Canon.copyAsk {core ch : ℕ} {x : Xfer} {m pvf pa : ℕ} (h : Canon s) : Canon (s.copyAsk core ch x m pvf pa) :=
  .sendFlit (.fresh (.copyFlit h.setHead))

theorem Canon.chanFill {core ch n : ℕ} (h : Canon s) : Canon (s.chanFill core ch n).1 := by
  induction n generalizing s with
  | zero => exact h
  | succ n ih =>
    unfold State.chanFill
    split
    · exact h
    · refine .iteFst h (.iteFst ?_ ?_)
      · split
        · exact .iteFst h h.waitCharge
        · exact h
      · dsimp only
        split
        · exact h.copyAsk
        · exact .iteFst h.copyPoison (ih (.setHead (.copyGet h.copyCharge)))
        · exact ih h.setHead

theorem Canon.copySend {core ch : ℕ} {x : Xfer} {m pvf pa : ℕ} (h : Canon s) : Canon (s.copySend core ch x m pvf pa) :=
  .ite h.copyStop (.sendFlit (.fresh (.copyFlit h.setHead)))

theorem Canon.copyOne {core ch : ℕ} {x : Xfer} (h : Canon s) : Canon (s.copyOne core ch x) := by
  unfold State.copyOne
  dsimp only
  split
  · exact h.copyStop
  · next e1 =>
    have h1 := CanonOpt.get (.copyPut h) e1
    refine .wrote (.clearPoison ?_)
    split
    · exact h1.copyCharge
    · exact h1

theorem CanonOpt.chanStep {core ch : ℕ} (h : Canon s) : CanonOpt (s.chanStep core ch) := by
  unfold State.chanStep
  split
  · exact .none
  · refine .ite .none (.ite (.ite (.some h.waitCharge) .none) ?_)
    dsimp only
    split
    · split
      · exact .some (.copySend h.chanFill)
      · exact .some (.copyOne h.chanFill)
    · exact .some h.chanFill

theorem Canon.chanFinish {core ch : ℕ} (h : Canon s) : Canon (s.chanFinish core ch) := by
  unfold State.chanFinish
  lift_lets
  intro s1
  have h1 : Canon s1 := by
    unfold s1
    split
    · exact h
    · exact h.ite h.wrote
  clear_value s1
  cases s1.chanXfers core ch with
  | nil => exact h1
  | cons x xs =>
    refine .ite (.ite h1.dropHead h1) (h1.ite (.ite h1.dropHead ?_))
    cases placeIn x.flagMap x.flag.toNat with
    | none => exact h1.dropHead
    | some p =>
      cases p with
      | peer m v pa => exact .sendFlit (.fresh (.copyFlit h1.setHead))
      | _ => exact .ite h1.copyPoison (.ite (.dropHead h1.copyFlag) h1)

theorem Canon.chanRun {core ch n : ℕ} (h : Canon s) : Canon (s.chanRun core ch n) := by
  induction n generalizing s with
  | zero => exact h
  | succ n ih =>
    unfold State.chanRun
    split
    · exact h.chanFinish
    · next e1 => exact ih (.chanFinish (CanonOpt.get (.chanStep h) e1))

theorem Keeps.copyDelivery {core ch n : ℕ} (h : Canon s) : Keeps (execCopyDelivery core ch n s) := .next (.same h.chanRun rfl rfl)

/-! ### Record and replay -/

theorem Canon.logRead {ctx : ℕ} {va : DWord} (h : Canon s) : Canon (s.logRead ctx va).1 := by
  unfold State.logRead
  split
  · next e1 => exact .of_fst e1 h.walkPlace
  · next e1 =>
    have h1 := Canon.of_fst e1 h.walkPlace
    exact h1.iteFst (h1.iteFst (.pair h1.hostGet))

theorem Canon.logWrite {l : ℕ} {va : DWord} {x : ℕ} (h : Canon s) : Canon (s.logWrite l va x) := by
  unfold State.logWrite
  dsimp only
  split
  · next e1 => exact .of_fst e1 h.walkPlace
  · next e1 =>
    have h1 := Canon.of_fst e1 h.walkPlace
    split
    · refine .queue ?_
      split
      · exact h1.charge
      · exact h1
    all_goals
      refine .store (.fresh ?_)
      split
      · exact h1.charge
      · exact h1

theorem Canon.logPages {ctx page : ℕ} {need : Need} {n : ℕ} (h : Canon s) : Canon (s.logPages ctx page need n).1 := by
  induction n generalizing s with
  | zero => exact h
  | succ n ih =>
    unfold State.logPages
    split
    · next e1 => exact ih (.of_fst e1 h.walkPlace)
    · next e1 => exact .of_fst e1 h.walkPlace

theorem Canon.logCheck {ctx : ℕ} {hd : Header} (h : Canon s) : Canon (s.logCheck ctx hd).1 := by
  unfold State.logCheck
  split
  · next e1 => exact .of_fst e1 h.logRead
  · next e1 => exact .of_fst e1 h.logRead
  · next e1 =>
    have h1 := Canon.of_fst e1 h.logRead
    split
    · next e2 => exact .of_fst e2 h1.logRead
    · next e2 => exact .of_fst e2 h1.logRead
    · next e2 =>
      have h2 := Canon.of_fst e2 h1.logRead
      split
      · dsimp only
        split
        · next e4 => exact .of_fst e4 h2.logPages
        · next e4 => exact .of_fst e4 h2.logPages
      · dsimp only
        split
        · next e4 => exact .of_fst e4 h2.logPages
        · next e4 => exact .of_fst e4 h2.logPages

theorem Canon.logAppend {l chunk : ℕ} (h : Canon s) : Canon (s.logAppend l chunk) :=
  h.ite (.ite (.logWrite h.onLaunch) (.logWrite (.onLaunch h.logWrite)))

theorem Canon.onGate {l win : ℕ} {f : Gate → Gate} (h : Canon s) : Canon (s.onGate l win f) := h.onLaunch

theorem Canon.closeRun {l win : ℕ} (h : Canon s) : Canon (s.closeRun l win) := by
  unfold State.closeRun
  split
  · exact h
  · exact .onGate h.logAppend

theorem Canon.closeRuns {l : ℕ} (h : Canon s) : Canon (s.closeRuns l) := .ite (.foldl (fun _ _ h2 => h2.closeRun) h) h

theorem Canon.passAccess {l win : ℕ} {a : Access} (h : Canon s) : Canon (s.passAccess l win a) := h.same rfl rfl

theorem Canon.hashPass {a : Access} (h : Canon s) : Canon (s.hashPass a) := by
  unfold State.hashPass
  split
  · exact h.settleHash
  · exact h

theorem Canon.askHash {l win : ℕ} {a : Access} {slot : ℕ} {logged : DWord} (h : Canon s) :
    Canon (s.askHash l win a slot logged) := by
  unfold State.askHash
  exact .onGate (.onWarp h.fresh)

theorem Canon.recordPass {l win : ℕ} {a : Access} (h : Canon s) : Canon (s.recordPass l win a) := by
  unfold State.recordPass
  lift_lets
  intro g s1 n passed s2 s3 s4 slot s5 s6
  have h1 : Canon s1 := by
    unfold s1
    split
    · exact h.ite h.closeRun
    · exact h
  have h2 : Canon s2 := h1.onGate
  have h3 : Canon s3 := .ite h2.closeRun h2
  have h5 : Canon s5 := .logAppend h3.logAppend
  have h6 : Canon s6 := .ite (h5.ite h5.askHash) h3
  exact .hashPass h6.passAccess

theorem Canon.seek {ctx : ℕ} {log : DWord} {count win n k : ℕ} (h : Canon s) : Canon (s.seek ctx log count win n k).1 := by
  induction n generalizing s k with
  | zero => exact h
  | succ n ih =>
    unfold State.seek
    refine .iteFst h ?_
    split
    · next e1 => exact .of_fst e1 h.logRead
    · next e1 => exact .of_fst e1 h.logRead
    · next e1 =>
      have h1 := Canon.of_fst e1 h.logRead
      exact .iteFst (.iteFst h1 (ih h1)) (.iteFst (.iteFst h1 (ih h1)) h1)

theorem Canon.atCursor {l win : ℕ} (h : Canon s) : Canon (s.atCursor l win).1 := h.seek

theorem Canon.atRun {l win n : ℕ} (h : Canon s) : Canon (s.atRun l win n).1 := by
  induction n generalizing s with
  | zero => exact h
  | succ n ih =>
    unfold State.atRun
    split
    · next e1 => exact ih (.onGate (.of_fst e1 h.atCursor))
    · exact h.atCursor

theorem Canon.divergeOne {win : ℕ} {a : Access} (h : Canon s) : Canon (s.divergeOne win a) :=
  .passLate (.onWarp (.foldl (fun _ _ h3 => h3.ite h3.undeliver) (h.same rfl rfl)))

theorem Canon.divergeAll {l win : ℕ} {as : List Access} (h : Canon s) : Canon (s.divergeAll l win as) :=
  .foldl (fun _ _ h1 => h1.ite h1.divergeOne) h.onGate

theorem Canon.passFree {l win : ℕ} {a : Access} (h : Canon s) : Canon (s.passFree l win a) := .passLate (.hashPass h.passAccess)

theorem Canon.replayPass {l win : ℕ} {a : Access} {cursor len : ℕ} (h : Canon s) : Canon (s.replayPass l win a cursor len) := by
  unfold State.replayPass
  refine .ite (.passFree h.onGate) ?_
  dsimp only
  split
  · next e2 =>
    have h2 := Canon.of_fst e2 (.atCursor h.onGate)
    refine .ite (.passFree h2.onGate) ?_
    split
    · next e4 =>
      have h4 := Canon.of_fst e4 h2.logRead
      exact h.askDevice
    · next e4 =>
      have h4 := Canon.of_fst e4 h2.logRead
      exact .divergeAll h4.passFree
    · next e4 =>
      have h4 := Canon.of_fst e4 h2.logRead
      exact .hashPass (.passAccess (.askHash h4.onGate))
  · next e2 =>
    have h2 := Canon.of_fst e2 (.atCursor h.onGate)
    exact h.askDevice
  · next e2 =>
    have h2 := Canon.of_fst e2 (.atCursor h.onGate)
    exact h2.passFree

theorem Canon.replayGate {l win : ℕ} {a : Access} (h : Canon s) : Canon (s.replayGate l win a) := by
  unfold State.replayGate
  refine .ite h.passFree ?_
  split
  · next e2 =>
    have h2 := Canon.of_fst e2 h.atRun
    exact h.askDevice
  · next e2 =>
    have h2 := Canon.of_fst e2 h.atRun
    exact h2.divergeAll
  · next e2 =>
    have h2 := Canon.of_fst e2 h.atRun
    exact h2.divergeAll
  · next e2 =>
    have h2 := Canon.of_fst e2 h.atRun
    exact h2.divergeAll
  · next e2 =>
    have h2 := Canon.of_fst e2 h.atRun
    exact .ite h2.replayPass (.ite h2.divergeAll h2)

theorem Keeps.orderPointPass {id : ℕ} (h : Canon s) : Keeps (execOrderPointPass id s) := by
  unfold execOrderPointPass
  split
  · exact .next h
  · split
    · exact .next h
    · exact .ite (.next h) (.ite (.ite (.next h.recordPass) (.next h.waitCharge))
          (.next (.ite h.replayGate (.forgetLines h.replayGate))))

theorem Canon.serveCheck {l win : ℕ} {c : GateCheck} (h : Canon s) : Canon (s.serveCheck l win c) :=
  h.ite (.ite (.logWrite (.onWarp h.onGate)) (.ite (.passLate (.onWarp h.onGate)) (.passLate (.onGate (.onWarp h.onGate)))))

theorem Canon.settleChecks (h : Canon s) : Canon s.settleChecks :=
  .foldl (fun _ _ h1 => .foldl (fun _ _ h2 => .foldl (fun _ _ h3 => h3.serveCheck) h2) h1) h

end

end Sys2Proof.Machine
end

section
/-! PROOFS. The canonical form of device memory and of host memory: saves, placement and commits (O59). -/

namespace Sys2Proof.Machine

section

variable {s : State}

/-! ### Saves and restored teams -/

theorem Canon.takeTeam {k : ℕ} (h : Canon s) : Canon (s.takeTeam k).1 := .pair (.same (.removeTeam h.writeBackLocal) rfl rfl)

theorem Canon.freeFrames {vf : ℕ} {frames : List ℕ} (h : Canon s) : Canon (s.freeFrames vf frames) :=
  .onVf (.foldl (fun _ _ h2 => h2.zeroFrame) h)

theorem Canon.takeFrames {vf have_ needed : ℕ} {waited : Bool} (h : Canon s) : Canon (s.takeFrames vf have_ needed waited).1 :=
  .pair (.ite (.send h.onVf) h.onVf)

theorem Canon.wakeCore {core : ℕ} (h : Canon s) : Canon (s.wakeCore core) := by
  unfold State.wakeCore
  split
  · exact h
  · refine .ite (.onCore h.onCore) (.foldl (fun _ _ h3 => ?_) h.onCore)
    refine .ite h3.onCore ?_
    split
    · exact h3.l1Fill
    · exact h3

theorem Canon.putBins {core : ℕ} {bins : List Bin} (h : Canon s) : Canon (s.putBins core bins) :=
  .foldl (fun _ _ h1 => h1.onCore) h

theorem Canon.refillLoop {core ctx : ℕ} {x : Strand} (h : Canon s) : Canon (s.refillLoop core ctx x).1 :=
  .pair (.copyWords h.copyWords)

theorem Canon.refillLoops {k : ℕ} (h : Canon s) : Canon (s.refillLoops k) :=
  .foldl (fun _ _ h1 => .foldl (fun _ _ h2 => h2.ite (.onWarp h2.refillLoop)) h1) h

theorem Canon.relocate {core : ℕ} {a : Access} (h : Canon s) : Canon (s.relocate core a).1 := by
  unfold State.relocate
  split
  · split
    · next e2 => exact .of_fst e2 h.translate
    · next e2 => exact .of_fst e2 h.translate
  · exact h
  · exact h

theorem Canon.reissue {x : SavedTeam} {core : ℕ} (h : Canon s) : Canon (s.reissue x core) :=
  .same (.foldlFst (fun _ _ h2 => .pair h2.relocate) (.pair h.onTeam)) rfl rfl

theorem Canon.putTeam {x : SavedTeam} {core : ℕ} (h : Canon s) : Canon (s.putTeam x core) :=
  .refillLoops (.reissue (.putBins (.onCore (.same h.wakeCore rfl rfl))))

theorem CanonOpt.putAll {cores : List ℕ} {xs : List SavedTeam} (h : Canon s) : CanonOpt (State.putAll cores xs s) := by
  induction xs generalizing s with
  | nil => exact .some h
  | cons x rest ih =>
    unfold State.putAll
    exact .findSome (fun _ => .ite (ih h.putTeam) .none)

theorem CanonOpt.putCluster {xs : List SavedTeam} (h : Canon s) : CanonOpt (s.putCluster xs) := by
  unfold State.putCluster
  split
  · exact .some h
  · exact .findSome (fun _ => .putAll h)

theorem CanonOpt.takeHandle {ctx : ℕ} (h : Canon s) : CanonOpt (s.takeHandle ctx) :=
  .ite (.some h) (.mapAny (fun _ => .onContext (h.same rfl rfl)))

/-! ### Answers to faults -/

theorem Canon.retryFault {x : Parked} (h : Canon s) : Canon (s.retryFault x) := .ite (.takeTraps h.onWarp) h.onWarp

theorem Canon.deliverFault {xs : List Parked} (h : Canon s) : Canon (s.deliverFault xs) := by
  unfold State.deliverFault
  split
  · exact h
  · exact .ite h.doubleTrap (.takeTraps (.raiseTraps h.onWarp))

theorem Canon.killFault {xs : List Parked} (h : Canon s) : Canon (s.killFault xs) := by
  unfold State.killFault
  split
  · exact h
  · exact .takeTraps (.settleStack h.onWarp)

theorem Canon.applyAnswer {ctx seq action : ℕ} (h : Canon s) : Canon (s.applyAnswer ctx seq action) :=
  .ite (.foldl (fun _ _ h2 => h2.retryFault) h) (.ite h.deliverFault h.killFault)

theorem Canon.answerFault {ctx seq action : ℕ} (h : Canon s) : Canon (s.answerFault ctx seq action) :=
  .ite (.applyAnswer h.onContext) (.onContext h.onContext)

theorem Canon.applyAnswers {ctx : ℕ} (h : Canon s) : Canon (s.applyAnswers ctx) :=
  .foldl (fun _ _ h1 => h1.ite (.applyAnswer h1.onContext)) h

/-! ### Placement -/

theorem Canon.newTeam {l core cluster sibling : ℕ} (h : Canon s) : Canon (s.newTeam l core cluster sibling) :=
  .onLaunch (.onTeam (.same h.wakeCore rfl rfl))

theorem CanonOpt.placeTeams {l g cluster sibling n : ℕ} (h : Canon s) : CanonOpt (s.placeTeams l g cluster sibling n) := by
  induction n generalizing s sibling with
  | zero => exact .some h
  | succ n ih =>
    unfold State.placeTeams
    split
    · exact ih h.newTeam
    · exact .none

theorem CanonOpt.placeOn {l g : ℕ} (h : Canon s) : CanonOpt (s.placeOn l g) := .placeTeams h

theorem Canon.noteRunning {l : ℕ} (h : Canon s) : Canon (s.noteRunning l) := .onLaunch h.journalSet

theorem CanonOpt.replaceOn {l g : ℕ} {d : Saved} (h : Canon s) : CanonOpt (s.replaceOn l g d) :=
  .ite .none (.map (.putAll h) (fun _ h2 => .applyAnswers (.onContext h2.freeFrames)))

theorem CanonOpt.putNext {l g : ℕ} (h : Canon s) : CanonOpt (s.putNext l g) := by
  unfold State.putNext
  split
  · exact .replaceOn h
  · exact .map (.placeOn h) (fun _ h2 => h2.noteRunning)

theorem Canon.stay {leaving : List ℕ} (h : Canon s) : Canon (s.stay leaving) := .foldl (fun _ _ h1 => h1.ite h1.stayTeam) h

theorem Canon.displace {c : ℕ × ℕ × ℕ} (h : Canon s) : Canon (s.displace c).1 := by
  unfold State.displace
  lift_lets
  intro ks s1 lead ctx vf needed t f frames s2 r d
  have h1 : Canon s1 := .foldl (fun _ _ hu => hu.onTeam) h
  have hf : Canon f.1 := h1.takeFrames
  have hr : Canon r.1 := .foldlFst (fun _ _ hu => .pair hu.takeTeam) (.pair hf.onTeam)
  exact .iteFst (.pair h1) (.iteFst (.pair hf.onTeam) (.pair (.unstall (.onContext hr.writeSave))))

theorem Canon.displaceAll {cs : List (ℕ × ℕ × ℕ)} (h : Canon s) : Canon (s.displaceAll cs).1 :=
  .foldlFst (fun _ _ h1 => .iteFst h1.displace h1) h

theorem Canon.failLaunch {l : ℕ} {status : Status} (h : Canon s) : Canon (s.failLaunch l status) :=
  .same (.forgetLines h.journalSet) rfl rfl

theorem CanonOpt.tryPlace {l : ℕ} {gs : List ℕ} (h : Canon s) : CanonOpt (s.tryPlace l gs) := by
  unfold State.tryPlace
  split
  · exact .none
  · next e1 =>
    have h1 := CanonOpt.get (.takeHandle h) e1
    exact .map (.findSome (fun _ => .putNext h1)) (fun _ h2 => h2.forgetLines)

/-- The state of the answer of a launch's first check. -/
def First.state : First → State
  | .go t | .fail t | .wait t => t

theorem Canon.of_first {f g : First} (e : f = g) (h : Canon f.state) : Canon g.state := e ▸ h

theorem Canon.firstCheck {l : ℕ} (h : Canon s) : Canon (s.firstCheck l).state := by
  unfold State.firstCheck
  dsimp only
  split
  · exact h
  · split
    · split
      · next e1 => exact .of_fst e1 (.logCheck h.onLaunch)
      · exact h.askDevice
      · next e1 => exact .onLaunch (.of_fst e1 (.logCheck h.onLaunch))
    · exact h.onLaunch

theorem Canon.placeLater {kept ls : List ℕ} (h : Canon s) : Canon (s.placeLater kept ls) := by
  induction ls generalizing s with
  | nil => exact h
  | cons l rest ih =>
    unfold State.placeLater
    split
    · next e1 => exact .failLaunch (.of_first e1 h.firstCheck)
    · next e1 => exact ih (.of_first e1 h.firstCheck)
    · next e1 =>
      split
      · next e2 => exact CanonOpt.get (.tryPlace (.of_first e1 h.firstCheck)) e2
      · exact ih h.forgetLines

theorem Canon.placeHead {l : ℕ} {rest : List ℕ} (h : Canon s) : Canon (s.placeHead l rest) := by
  unfold State.placeHead
  dsimp only
  split
  · next e1 =>
    have h1 := CanonOpt.get (.tryPlace h) e1
    exact .same h1.stay rfl rfl
  · split
    · exact .placeLater (.forgetLines (.same h.stay rfl rfl))
    · split
      · next e3 =>
        have h3 := CanonOpt.get (.ite (.tryPlace (.displaceAll h.stay)) .none) e3
        exact h3.same rfl rfl
      · exact .placeLater (.forgetLines (.same (.displaceAll h.stay) rfl rfl))

theorem Keeps.clusterPlace (h : Canon s) : Keeps (execClusterPlace s) := by
  unfold execClusterPlace
  split
  · exact .next (.same h.stay rfl rfl)
  · split
    · next e1 => exact .next (.failLaunch (.of_first e1 h.firstCheck))
    · next e1 => exact .next (.of_first e1 h.firstCheck)
    · next e1 => exact .next (.placeHead (.of_first e1 h.firstCheck))

theorem Canon.retireTeam {k : ℕ} (h : Canon s) : Canon (s.retireTeam k) :=
  h.ite (.ite (.closeRuns (.onLaunch h.removeTeam)) (.onLaunch h.removeTeam))

theorem Canon.retireWarp {k w : ℕ} (h : Canon s) : Canon (s.retireWarp k w) :=
  .retireTeam (.onLaunch (.onTeam (.fresh (.forgetLines h.writeBackLocal))))

theorem Keeps.warpRetire {team warp : ℕ} (h : Canon s) : Keeps (execWarpRetire team warp s) := .ite (.next h) (.next h.retireWarp)

theorem Keeps.launchComplete {launch : ℕ} (h : Canon s) : Keeps (execLaunchComplete launch s) :=
  .ite (.next h) (.next (.journalSet (.eventOp (.same h.forgetLines rfl rfl))))

/-! ### Quanta that commit -/

theorem Canon.commitAccess {a : Access} (h : Canon s) : Canon (s.commitAccess a) := .ite h.enqueue h.performAny

theorem Canon.commitSpawn {k w : ℕ} {recs : List (ℕ × SpawnRec)} {clr : Option (ℕ × Bool × Label)} {park : Bool} (h : Canon s) :
    Canon (s.commitSpawn k w recs clr park) := by
  unfold State.commitSpawn
  refine .ite (.onWarp h.offerAll) ?_
  split
  · exact h.offerAll
  · exact .ite h.offerAll (.onWarp (.fresh h.offerAll))

theorem Canon.commitCopy {core ch : ℕ} {x : Xfer} (h : Canon s) : Canon (s.commitCopy core ch x) := by
  unfold State.commitCopy
  refine .ite h.onChan ?_
  split
  · next e2 =>
    have h2 := Canon.of_fst e2 h.copyAll
    exact h2.same rfl rfl
  · next e2 =>
    have h2 := Canon.of_fst e2 h.copyAll
    exact h2.same rfl rfl
  · next e2 =>
    have h2 := Canon.of_fst e2 h.copyAll
    exact .copyPoison h.onChan

theorem Canon.commitEntry {k w : ℕ} {e : CEntry} (h : Canon s) : Canon (s.commitEntry k w e) := by
  unfold State.commitEntry
  split
  · exact .foldl (fun _ _ h2 => h2.commitAccess) h
  · exact .foldl (fun _ _ h2 => h2.writeHome) h
  · exact h.commitCopy
  · exact h.eventBit
  · exact h.commitSpawn
  · exact h.flushBins

theorem Keeps.sync {i : Instr} (h : Canon s) : Keeps (execSync i s) := by
  unfold execSync
  split
  · exact .atom h
  · exact .cas h
  · exact .waitge h
  · exact .release h
  · exact .meet h
  · exact .cmeet h
  · exact .launch h
  · exact .evwait h
  · exact .chwait h
  · exact .gres h
  · exact .sclaim h
  · exact .srel h
  · exact .next h

theorem Canon.outcomeOr {o : Host.Outcome State Fault Refusal} (ho : Keeps o) (h : Canon s) : Canon (outcomeOr o s) := by
  cases o with
  | next t => exact ho t rfl
  | fault f => exact h
  | refused r => exact h

theorem Canon.performWarp {k w : ℕ} (h : Canon s) : Canon (s.performWarp k w).1 := by
  unfold State.performWarp
  refine .foldlFst (fun _ _ h1 => ?_) h
  split
  · exact h1
  · exact .iteFst (.pair h1.performAny) (h1.iteFst (.iteFst (.pair h1.sendAccess) (.pair h1.waitCharge)))

theorem Canon.returnAll {k w : ℕ} (h : Canon s) : Canon (s.returnAll k w) := .foldl (fun _ _ h1 => h1.ite h1.returnResult) h

theorem Canon.commitSync {k w : ℕ} (h : Canon s) : Canon (s.commitSync k w).1 := by
  unfold State.commitSync
  split
  · exact h.onWarp
  · lift_lets
    intro s1 s2 s3 ids
    have h1 : Canon s1 := h.onWarp
    have h2 : Canon s2 := .outcomeOr (.sync (h1.same rfl rfl)) h1
    have h3 : Canon s3 := h2.same rfl rfl
    exact .iteFst h3 (.pair h3.onWarp)

theorem Canon.commitFinish {k w : ℕ} (h : Canon s) : Canon (s.commitFinish k w) := by
  unfold State.commitFinish
  exact .ite (.retireWarp (.settleClusterBars (.settleBars h.settleEvents))) (.settleClusterBars (.settleBars h.settleEvents))

theorem Canon.commitWaits {k w : ℕ} (h : Canon s) : Canon (s.commitWaits k w) :=
  .ite (.settleSpawn (.ite (.returnAll h.onWarp) h.onWarp)) (.ite (.returnAll h.onWarp) h.onWarp)

theorem Canon.drainBin {core n clock f : ℕ} (h : Canon s) : Canon (s.drainBin core n clock f) := by
  induction f generalizing s with
  | zero => exact h
  | succ f ih =>
    unfold State.drainBin
    exact .ite h (ih h.startBin)

theorem Canon.commitBins {l clock : ℕ} (h : Canon s) : Canon (s.commitBins l clock) :=
  .foldl (fun _ _ h1 => .foldl (fun _ _ h2 => .ite h2.drainBin h2) h1) h

theorem Canon.commitBars {l : ℕ} (h : Canon s) : Canon (s.commitBars l) :=
  .foldl (fun _ _ h1 => .settleClusterBars h1.settleBars) h

theorem Canon.commitMove {l : ℕ} {m : CommitStep} (h : Canon s) : Canon (s.commitMove l m).1 := by
  unfold State.commitMove
  split
  · refine h.iteFst ?_
    split
    · exact h
    · exact .iteFst (.pair (.commitEntry h.onWarp)) h
  · refine h.iteFst ?_
    split
    · next e3 => exact .of_fst e3 h.commitSync
    · next e3 => exact .of_fst e3 h.commitSync
  · refine h.iteFst ?_
    split
    · next e3 => exact .of_fst e3 h.performWarp
    · next e3 => exact .of_fst e3 h.performWarp
  · exact h.iteFst h
  · exact .pair (.ite h.commitFinish h)
  · exact .pair h.commitBars
  · exact .pair (.ite h.commitWaits h)

theorem Canon.commitEnd {l : ℕ} {c : Commit} (h : Canon s) : Canon (s.commitEnd l c) :=
  .onLaunch (.foldl (fun _ _ h2 => h2.retireTeam) (.commitBins (.foldl (fun _ _ h4 => .ite h4.onWarp h4)
      (.foldl (fun _ _ h5 => .ite h5.onWarp h5) h))))

theorem Canon.commitRun {l n : ℕ} (h : Canon s) : Canon (s.commitRun l n) := by
  induction n generalizing s with
  | zero => exact h
  | succ n ih =>
    unfold State.commitRun
    split
    · exact h
    · split
      · exact h.commitEnd
      · exact h.ite (.ite (ih (.onLaunch h.commitMove)) (.onLaunch h.commitMove))

theorem Keeps.commitPoint {launch : ℕ} (h : Canon s) : Keeps (execCommitPoint launch s) :=
  .ite (.next h) (.ite (.next h.commitRun) (.ite (.next h) (.next (.commitRun h.onLaunch))))

end

end Sys2Proof.Machine
end

section
/-! PROOFS. The canonical form of device memory and of host memory: hosts and tenants (O59). -/

namespace Sys2Proof.Machine

section

variable {s : State}

/-! ### Host halves, bias and invalidations -/

theorem Canon.hostTakes {pa n : ℕ} {write : Bool} (h : Canon s) : Canon (s.hostTakes pa n write) :=
  .foldl (fun _ _ h1 => .ite (h1.same rfl rfl) h1) h

theorem Keeps.hostMemRead {pa n : ℕ} (h : Canon s) : Keeps (execHostMemRead pa n s) :=
  .ite (.next h) (.ite (.next h.send) (.next (.send h.hostTakes)))

theorem Canon.hostStores {pa : ℕ} {bytes : List Byte} (h : Canon s) : Canon (s.hostStores pa bytes) :=
  .same (.deviceWrite h.hostTakes) rfl rfl

theorem Keeps.hostMemWrite {pa : ℕ} {bytes : List Byte} (h : Canon s) : Keeps (execHostMemWrite pa bytes s) :=
  .ite (.next h) (.next h.hostStores)

theorem Keeps.hostAtomic {pa : ℕ} {op : HostAtom} (h : Canon s) : Keeps (execHostAtomic pa op s) := by
  unfold execHostAtomic
  split
  · refine .next (h.ite ?_)
    refine .ite h.send (.send ?_)
    split
    · exact h.hostStores
    · exact h.hostTakes
  · refine .next (h.ite ?_)
    refine .ite h.send (.send ?_)
    split
    · exact h.hostStores
    · exact h.hostTakes
  · exact .next h

theorem Keeps.backInvalidateComplete {half : ℕ} (h : Canon s) : Keeps (execBackInvalidateComplete half s) := by
  unfold execBackInvalidateComplete
  split
  · exact .next h
  · exact .next h
  · exact .next h
  · exact .next (h.same rfl rfl)
  · exact .next (h.same rfl rfl)
  · exact .next (h.same rfl rfl)

theorem Canon.setBias {frame : ℕ} {toDevice : Bool} (h : Canon s) : Canon (s.setBias frame toDevice) :=
  .ite (h.same rfl rfl) (h.same rfl rfl)

theorem Keeps.biasFlipComplete {fn : Fn} {seq : ℕ} (h : Canon s) : Keeps (execBiasFlipComplete fn seq s) := by
  unfold execBiasFlipComplete
  split
  · exact .next h
  · exact .ite (.next h) (.next (.journalSet (.same h.setBias rfl rfl)))

theorem Keeps.hostSnoop {hpa : ℕ} {remove : Bool} (h : Canon s) : Keeps (execHostSnoop hpa remove s) :=
  .ite (.next h) (.ite (.next h.refuseWriteBack) (.ite (.ite (.next (.l2Drop h.hostDrop)) (.next h.hostDrop))
      (.next (.same h.hostWriteBack rfl rfl))))

theorem Keeps.cxlCacheRequestFail {hpa : ℕ} (h : Canon s) : Keeps (execCxlCacheRequestFail hpa s) := .next (h.same rfl rfl)

/-! ### Unbinding -/

theorem Canon.freeHeld {fs : List (ℕ × ℕ)} (h : Canon s) : Canon (s.freeHeld fs) := .foldl (fun _ _ h1 => h1.freeFrames) h

theorem Canon.dropGroup {key : ℕ} (h : Canon s) : Canon (s.dropGroup key) := by
  unfold State.dropGroup
  split
  · exact h
  · exact .same (.freeHeld h.freeFrames) rfl rfl

theorem Canon.dropGroupsOf {ctx : ℕ} (h : Canon s) : Canon (s.dropGroupsOf ctx) := .foldl (fun _ _ h1 => h1.dropGroup) h

theorem Canon.cancelJournal {c : Context} {keep : Option JRef} (h : Canon s) : Canon (s.cancelJournal c keep) :=
  .foldl (fun _ _ h1 => .foldl (fun _ _ h2 => .ite (.ite h2.journalSet h2.journalSet) h2) h1) h

theorem Canon.dropTranslations {ctx : ℕ} (h : Canon s) : Canon (s.dropTranslations ctx) := h.same rfl rfl

theorem Canon.dropOwner {hd : ℕ} (h : Canon s) : Canon (s.dropOwner hd) := h.same rfl rfl

theorem Canon.bindOff {ctx : ℕ} {keep : Option JRef} (h : Canon s) : Canon (s.bindOff ctx keep) :=
  .same (.dropContext (.onContext h.dropGroupsOf)) rfl rfl

theorem Canon.endBindOff {ctx : ℕ} (h : Canon s) : Canon (s.endBindOff ctx) := by
  unfold State.endBindOff
  lift_lets
  intro c s1 s2 s3 s4 s5 s6 s7
  have h1 : Canon s1 := h.cancelJournal
  have h2 : Canon s2 := .foldl (fun _ _ hu => hu.zeroRange) h1
  have h4 : Canon s4 := .freeFrames (.zeroRange h2)
  have h5 : Canon s5 := h4.dropTranslations
  have h6 : Canon s6 := by
    unfold s6
    split
    · exact h5.dropOwner
    · exact h5
  have h7 : Canon s7 := .unstall (h6.same rfl rfl)
  split
  · exact h7.journalSet
  · exact h7

theorem Canon.settleUnbinding (h : Canon s) : Canon s.settleUnbinding :=
  .foldl (fun _ _ h1 => .ite (.endBindOff (.foldl (fun _ _ h4 => .foldl (fun _ _ h5 => .ite h5.chanFinish h5) h4) h1))
      (.foldl (fun _ _ h3 => .foldl (fun _ _ h4 => .ite h4.chanFinish h4) h3) h1)) h

theorem CanonAns.done {r : JRef} {detail : Option ℕ} (h : Canon s) : CanonAns (s.done r detail) := .some (.pair h.journalSet)

theorem CanonAns.denied {r : JRef} {st : Status} (h : Canon s) : CanonAns (s.denied r st) := .some (.pair h.journalSet)

theorem CanonAns.goesOn {r : JRef} (h : Canon s) : CanonAns (s.goesOn r) := .some (.pair h.journalSet)

/-! ### Commands of a host -/

theorem Canon.hostHeader {ctx : ℕ} {va : DWord} (h : Canon s) : Canon (s.hostHeader ctx va).1 := by
  unfold State.hostHeader
  refine .foldlFst (fun _ _ h1 => ?_) h
  split
  · exact h1
  · split
    · next e3 => exact .of_fst e3 h1.walkPlace
    · next e3 =>
      have h3 := Canon.of_fst e3 h1.walkPlace
      exact .iteFst (.pair h3.hostGet) (.pair h3.hostGet)

theorem CanonAns.cmdLaunch {r : JRef} {ctx : ℕ} {c : BitVec 512} (h : Canon s) : CanonAns (s.cmdLaunch r ctx c) := by
  unfold State.cmdLaunch
  refine .ite (.denied h) ?_
  split
  · next e2 =>
    have h2 := Canon.of_fst e2 h.hostHeader
    exact .denied h2
  · next e2 =>
    have h2 := Canon.of_fst e2 h.hostHeader
    exact .ite (.denied h2) (.ite (.denied h2) (.ite (.denied h2) (.some (.pair (.journalSet h2.enterLaunch)))))

theorem CanonAns.cmdEvset {r : JRef} {ctx : ℕ} {c : BitVec 512} (h : Canon s) : CanonAns (s.cmdEvset r ctx c) :=
  .done (.settleEvents h.eventBit)

theorem Canon.journalCtx {r : JRef} {num : ℕ} (h : Canon s) : Canon (s.journalCtx r num) := h.onPort

theorem CanonAns.cmdCreate {r : JRef} {vf : ℕ} {c : BitVec 512} (h : Canon s) : CanonAns (s.cmdCreate r vf c) := by
  unfold State.cmdCreate
  refine .ite (.denied h) ?_
  split
  · exact .denied h
  · exact .done (.journalCtx (h.same rfl rfl))

theorem CanonAns.cmdBindOff {r : JRef} {ctx : ℕ} (h : Canon s) : CanonAns (s.cmdBindOff r ctx) :=
  .some (.pair (.settleUnbinding h.bindOff))

theorem CanonAns.cmdFaultResume {r : JRef} {ctx : ℕ} {c : BitVec 512} (h : Canon s) : CanonAns (s.cmdFaultResume r ctx c) := by
  unfold State.cmdFaultResume
  dsimp only
  split
  · exact .none
  · exact .some (.pair (.foldl (fun _ _ h1 => h1.answerFault) h.journalSet))

theorem CanonAns.cmdPreempt {r : JRef} {ctx : ℕ} (h : Canon s) : CanonAns (s.cmdPreempt r ctx) := by
  unfold State.cmdPreempt
  refine .ite (.done h.onContext) ?_
  split
  · exact .some (.pair h.onContext)
  · exact .some (.pair h.onContext)
  · exact .ite (.some (.pair h.onContext)) (.done h.onContext)
  · exact .some (.pair h.onContext)
  · exact .denied h

theorem CanonAns.cmdResume {r : JRef} {ctx : ℕ} (h : Canon s) : CanonAns (s.cmdResume r ctx) := by
  unfold State.cmdResume
  refine .ite (.goesOn h.onContext) ?_
  split
  · exact .done h
  · exact .goesOn h.onContext
  · exact .ite (.goesOn h.onContext) (.goesOn h.onContext)
  · exact .goesOn h.onContext
  · exact .denied h

theorem CanonAns.cmdInvalidate {r : JRef} {ctx : ℕ} {c : BitVec 512} (h : Canon s) : CanonAns (s.cmdInvalidate r ctx c) :=
  .goesOn (h.same rfl rfl)

theorem Keeps.invalidateVaComplete {fn : Fn} {seq : ℕ} (h : Canon s) : Keeps (execInvalidateVaComplete fn seq s) := by
  unfold execInvalidateVaComplete
  split
  · exact .next h
  · exact .ite (.next h) (.next (.journalSet (h.same rfl rfl)))

theorem CanonAns.cmdBiasFlip {r : JRef} {fn : Fn} {c : BitVec 512} (h : Canon s) : CanonAns (s.cmdBiasFlip r fn c) := by
  unfold State.cmdBiasFlip
  split
  · dsimp only
    split
    · exact .none
    · exact .ite (.done h) (.goesOn (h.same rfl rfl))
  · dsimp only
    split
    · exact .none
    · exact .ite .none (.ite (.done h) (.goesOn (h.same rfl rfl)))

theorem CanonAns.cmdWatch {r : JRef} {ctx : ℕ} {c : BitVec 512} (h : Canon s) : CanonAns (s.cmdWatch r ctx c) :=
  .ite (.done h.onContext) (.ite .none (.done h.onContext))

theorem CanonAns.cmdInstall {r : JRef} {vf : ℕ} {c : BitVec 512} {dmaOk : Bool} (h : Canon s) :
    CanonAns (s.cmdInstall r vf c dmaOk) := .ite .none (.ite (.denied h) (.ite (.denied h) (.done (h.same rfl rfl))))

theorem CanonAns.cmdRemove {r : JRef} {vf : ℕ} {c : BitVec 512} (h : Canon s) : CanonAns (s.cmdRemove r vf c) := by
  unfold State.cmdRemove
  split
  · exact .denied h
  · exact .done (h.same rfl rfl)

/-! ### Tenancy -/

theorem Canon.joined {r : JRef} {num : ℕ} (h : Canon s) : Canon (s.joined r num) := .journalSet h.journalCtx

theorem CanonAns.waitJoin {r : JRef} {vf : ℕ} {q : List Byte} (h : Canon s) : CanonAns (s.waitJoin r vf q) := by
  unfold State.waitJoin
  refine .goesOn (.onVf ?_)
  split
  · exact h.journalSet
  · exact h

theorem CanonAns.cmdJoint {r : JRef} {vf : ℕ} {c : BitVec 512} {dmaOk : Bool} (h : Canon s) :
    CanonAns (s.cmdJoint r vf c dmaOk) := by
  unfold State.cmdJoint
  refine .ite .none (.ite (.denied h) ?_)
  split
  · refine .ite ?_ (.waitJoin h)
    split
    · exact .some (.pair (.joined (.joined (.onVf (h.same rfl rfl)))))
    · exact .denied h
  · exact .waitJoin h

theorem CanonOpt.tenancyReg {n reg off width : ℕ} {x : DWord} (h : Canon s) : CanonOpt (s.tenancyReg n reg off width x) := by
  unfold State.tenancyReg
  split
  · exact .ite .none (.some h.onVf)
  · exact .ite .none (.some h.onVf)
  · exact .ite .none (.some h.onVf)
  · exact .ite .none (.some h.onVf)
  · exact .some h

theorem Canon.writeTenancy {vf off width : ℕ} {x : DWord} (h : Canon s) : Canon (s.writeTenancy vf off width x) :=
  .foldl (fun _ _ h1 => CanonOpt.getD (.tenancyReg h1) h1.onVf) h

theorem Keeps.tenancyWrite {vf off width : ℕ} {x : BitVec 64} (h : Canon s) : Keeps (execTenancyWrite vf off width x s) :=
  .ite (.next h) (.next h.writeTenancy)

theorem Canon.setGrant {a k g : ℕ} (h : Canon s) : Canon (s.setGrant a k g) := h.same rfl rfl

theorem Canon.writeBudget {a off width : ℕ} {x : DWord} (h : Canon s) : Canon (s.writeBudget a off width x) :=
  .foldl (fun _ _ h1 => h1.setGrant) h

theorem Keeps.grantWrite {a : ℕ} {k : RegPart} {x : BitVec 64} (h : Canon s) : Keeps (execGrantWrite a k x s) :=
  .ite (.next h) (.next h.writeBudget)

theorem Canon.advanceGen {die : ℕ} (h : Canon s) : Canon (s.advanceGen die) := h.same rfl rfl

theorem Keeps.updateGenerationAdvance {die : ℕ} (h : Canon s) : Keeps (execUpdateGenerationAdvance die s) :=
  .ite (.next h.advanceGen) (.next h)

theorem Keeps.budgetPeriod (h : Canon s) : Keeps (execBudgetPeriod s) :=
  .ite (.next (.same (.foldl (fun _ _ h4 => h4.advanceGen) h) rfl rfl)) (.next h)

theorem Keeps.spdmSession {auth : Bool} {summary : List Byte} (h : Canon s) : Keeps (execSpdmSession auth summary s) :=
  .next (h.same rfl rfl)

theorem Keeps.bindOrigin {key : List Byte} (h : Canon s) : Keeps (execBindOrigin key s) := by
  unfold execBindOrigin
  split
  · exact .next h.send
  · split
    · exact .ite (.next h.send) (.next (.send (.send h.onOrigin)))
    · exact .next h.send

theorem Canon.unbindSlot {slot : ℕ} (h : Canon s) : Canon (s.unbindSlot slot) := h.ite (.send (h.same rfl rfl))

theorem Keeps.unbind {slot : ℕ} (h : Canon s) : Keeps (execUnbind slot s) := .next h.unbindSlot

theorem Canon.dropOriginCopies {slot : ℕ} (h : Canon s) : Canon (s.dropOriginCopies slot) := h.same rfl rfl

theorem Keeps.originUnbindComplete {slot : ℕ} (h : Canon s) : Keeps (execOriginUnbindComplete slot s) :=
  .ite (.next h) (.ite (.next (.foldl (fun _ _ h4 => .foldl (fun _ _ h5 => h5.charge) h4.zeroFrame) h.dropOriginCopies))
      (.next (.send (.onOrigin (.foldl (fun _ _ h6 => .foldl (fun _ _ h7 => h7.charge) h6.zeroFrame) h.dropOriginCopies)))))

theorem Canon.forgetPort {port : ℕ} (h : Canon s) : Canon (s.forgetPort port) := h.same rfl rfl

theorem Keeps.functionLevelReset {vf : ℕ} (h : Canon s) : Keeps (execFunctionLevelReset vf s) :=
  .next (.same (.settleUnbinding (.foldl (fun _ _ h4 => h4.bindOff) (.onVf h.forgetPort))) rfl rfl)

/-! ### Suspension -/

theorem Canon.noteSuspended {vf : ℕ} (h : Canon s) : Canon (s.noteSuspended vf) := h.onVf

theorem Canon.suspendVf {vf : ℕ} (h : Canon s) : Canon (s.suspendVf vf) := h.ite (.noteSuspended (h.same rfl rfl))

theorem Keeps.suspendSet {vf : ℕ} (h : Canon s) : Keeps (execSuspendSet vf s) := .next h.suspendVf

theorem Canon.unsuspend {k : ℕ} (h : Canon s) : Canon (s.unsuspend k) := by
  unfold State.unsuspend
  dsimp only
  split
  · exact h
  · exact .ite h.onContext h
  · exact h.onContext
  · exact h.onContext

theorem Canon.endSuspension {vf : ℕ} (h : Canon s) : Canon (s.endSuspension vf) := .foldl (fun _ _ h1 => h1.unsuspend) h.onVf

theorem Canon.gatherFrames {k : ℕ} (h : Canon s) : Canon (s.gatherFrames k).1 := .pair (.onContext h.takeFrames)

theorem Canon.finishAll {rs : List JRef} {detail : Option ℕ} (h : Canon s) : Canon (s.finishAll rs detail) :=
  .foldl (fun _ _ h1 => h1.journalSet) h

theorem Keeps.contextSaveComplete {vf ctx : ℕ} (h : Canon s) : Keeps (execContextSaveComplete vf ctx s) := by
  unfold execContextSaveComplete
  split
  · exact .next h
  · exact .ite (.next h) (.ite (.next h.gatherFrames) (.next (.noteSuspended
        (.unstall (.onContext (.finishAll (.writeSave (.foldlFst (fun _ _ h10 => .pair h10.takeTeam)
        (.pair h.gatherFrames)))))))))

theorem Canon.settlePreempt {k : ℕ} (h : Canon s) : Canon (s.settlePreempt k) := by
  unfold State.settlePreempt
  dsimp only
  split
  · exact h
  · exact .ite h.journalSet h

theorem Canon.settlePreempts (h : Canon s) : Canon s.settlePreempts := .foldl (fun _ _ h1 => h1.settlePreempt) h

theorem CanonOpt.putSave {x : Saved} (h : Canon s) : CanonOpt (s.putSave x) := by
  unfold State.putSave
  generalize clustersOf x.teams = l
  induction l generalizing s with
  | nil => exact .some h
  | cons xs l ih => exact .bind (.putCluster h) (fun _ h1 => ih h1)

theorem Keeps.restoreComplete {vf ctx : ℕ} (h : Canon s) : Keeps (execRestoreComplete vf ctx s) := by
  unfold execRestoreComplete
  split
  · exact .next h
  · refine .ite (.next h) (.ite (.next (.onContext (.foldl (fun _ _ h6 => h6.journalSet) h))) ?_)
    split
    · exact .next h
    · next e4 =>
      have h4 := CanonOpt.get (.bind (.takeHandle h) (fun _ h5 => .putSave h5)) e4
      exact .next (.ite (.onContext (.finishAll (.applyAnswers (.onContext h4.freeFrames))))
          (.finishAll (.applyAnswers (.onContext h4.freeFrames))))

theorem Canon.addFrame {vf : ℕ} {x : BitVec 64} {whole : Bool} (h : Canon s) : Canon (s.addFrame vf x whole) := h.onVf

theorem Keeps.sfadd {vf : ℕ} {x : BitVec 64} {whole : Bool} (h : Canon s) : Keeps (execSfadd vf x whole s) := .next h.addFrame

end

end Sys2Proof.Machine
end

section
/-! PROOFS. The canonical form of device memory and of host memory: checkpoint groups, the fabric and commands (O59). -/

namespace Sys2Proof.Machine

section

variable {s : State}

/-! ### Checkpoint groups -/

theorem Canon.tellGroup {key : ℕ} {body : FlitBody} (h : Canon s) : Canon (s.tellGroup key body) :=
  .foldl (fun _ _ h1 => h1.sendFlit) h

theorem Canon.settleGroup {key : ℕ} (h : Canon s) : Canon (s.settleGroup key) :=
  h.ite (.ite (.dropGroup h.journalSet) (.ite (.journalSet h.onGroup) h))

theorem CanonAns.cmdEnrol {r : JRef} {ctx : ℕ} {c : BitVec 512} (h : Canon s) : CanonAns (s.cmdEnrol r ctx c) := by
  unfold State.cmdEnrol
  refine .ite .none (.ite (.denied h) ?_)
  exact .some (.pair (.settleGroup (.tellGroup (.journalSet (h.same rfl rfl)))))

theorem CanonAns.cmdWithdraw {r : JRef} {ctx : ℕ} {c : BitVec 512} (h : Canon s) : CanonAns (s.cmdWithdraw r ctx c) :=
  .ite (.denied h) (.ite (.done (.dropGroup h.journalSet)) (.ite (.done (.dropGroup h.tellGroup))
      (.goesOn (.onGroup h.tellGroup))))

theorem Canon.groupWithdraw {key : ℕ} (h : Canon s) : Canon (s.groupWithdraw key) := .ite h.dropGroup h.onGroup

theorem CanonAns.cmdAdopt {r : JRef} {c : BitVec 512} (h : Canon s) : CanonAns (s.cmdAdopt r c) := by
  unfold State.cmdAdopt
  dsimp only
  split
  · exact .none
  · exact .ite (.denied h) (.goesOn (h.same rfl rfl))

theorem Canon.holdFrame {vf : ℕ} {bytes : List Byte} {lab : Label} {waited : Bool} (h : Canon s) :
    Canon (s.holdFrame vf bytes lab waited).1 := by
  unfold State.holdFrame
  split
  · next e1 =>
    have h1 := Canon.of_fst e1 h.takeFrames
    exact ⟨Cells.fill_wf _ _ _ h1.mem, h1.hostMem⟩
  · next e1 => exact .of_fst e1 h.takeFrames

theorem Canon.sendStage {key dst vf n : ℕ} {state : Bool} {frame pa : ℕ} (h : Canon s) :
    Canon (s.sendStage key dst vf n state frame pa) := .onGroup (.sendFlit h.charge)

theorem Canon.cutTeam {k : ℕ} (h : Canon s) : Canon (s.cutTeam k) := by
  unfold State.cutTeam
  exact .onTeam (.putTeam h.takeTeam)

theorem Canon.takeCut {key : ℕ} (h : Canon s) : Canon (s.takeCut key) :=
  .ite (.ite (.send (.onGroup h.onVf)) (.onGroup h.onVf)) (.unstall
      (.foldl (fun _ _ h3 => h3.sendStage) (.foldl (fun _ _ h4 => h4.sendStage)
      (.onGroup (.foldl (fun _ _ h6 => h6.cutTeam) (.writeSave h.takeFrames))))))

theorem Keeps.preImageCopy {group frame : ℕ} (h : Canon s) : Keeps (execPreImageCopy group frame s) := by
  unfold execPreImageCopy
  refine .ite (.next h) ?_
  dsimp only
  split
  · next e2 =>
    have h2 := Canon.of_fst e2 h.holdFrame
    exact .next h2.onGroup
  · next e2 =>
    have h2 := Canon.of_fst e2 h.holdFrame
    exact .next (.unstall h2.onGroup)

theorem Canon.groupBegin {key n : ℕ} (h : Canon s) : Canon (s.groupBegin key n) := .ite h.onGroup h

theorem Keeps.checkpointBegin {group : ℕ} (h : Canon s) : Keeps (execCheckpointBegin group s) :=
  .ite (.next h) (.next (.groupBegin (.tellGroup h.onGroup)))

theorem Keeps.beginReceive {group n : ℕ} (h : Canon s) : Keeps (execBeginReceive group n s) := .next h.groupBegin

theorem Canon.groupCut {key n : ℕ} (h : Canon s) : Canon (s.groupCut key n) := .ite h.takeCut h

theorem Canon.noteDrained {key n src : ℕ} (h : Canon s) : Canon (s.noteDrained key n src) :=
  h.ite (.ite (.groupCut (.tellGroup h.onGroup)) h.onGroup)

theorem Keeps.drainedReceive {group n src : ℕ} (h : Canon s) : Keeps (execDrainedReceive group n src s) := .next h.noteDrained

theorem Keeps.cutReceive {group n : ℕ} (h : Canon s) : Keeps (execCutReceive group n s) := .next h.groupCut

theorem Canon.applyStaging {key : ℕ} (h : Canon s) : Canon (s.applyStaging key) := .freeHeld h.onGroup

theorem Canon.groupCommit {key n : ℕ} (h : Canon s) : Canon (s.groupCommit key n) := by
  unfold State.groupCommit
  refine h.ite (.ite ?_ (.freeHeld (.freeFrames (.onGroup h.applyStaging))))
  split
  · exact .journalSet (.dropGroup (.freeHeld (.freeFrames (.onGroup h.applyStaging))))
  · exact .dropGroup (.freeHeld (.freeFrames (.onGroup h.applyStaging)))

theorem Canon.noteSound {key n src : ℕ} (h : Canon s) : Canon (s.noteSound key n src) :=
  h.ite (.ite (.groupCommit (.tellGroup h.onGroup)) h.onGroup)

theorem Keeps.sound {group : ℕ} (h : Canon s) : Keeps (execSound group s) :=
  .ite (.next h) (.next (.noteSound (.tellGroup h.onGroup)))

theorem Keeps.soundReceive {group n src : ℕ} (h : Canon s) : Keeps (execSoundReceive group n src s) := .next h.noteSound

theorem Keeps.commitReceive {group n : ℕ} (h : Canon s) : Keeps (execCommitReceive group n s) := .next h.groupCommit

theorem Canon.undoJournal {c : Context} {tails : List (ℕ × ℕ)} (h : Canon s) : Canon (s.undoJournal c tails) :=
  .foldl (fun _ _ h1 => .foldl (fun _ _ h2 => .ite h2.journalSet h2) h1) h

theorem Canon.reissueLaunch {x : ℕ × Launch} (h : Canon s) : Canon (s.reissueLaunch x) :=
  .ite (h.same rfl rfl) (.journalAdd (h.same rfl rfl))

theorem Canon.noteRollback {g : Group} {t : ℕ} (h : Canon s) : Canon (s.noteRollback g t) := .send h.journalAdd

theorem Canon.applyImage {ctx : ℕ} {adopt : Bool} {i : CtxImage} (h : Canon s) : Canon (s.applyImage ctx adopt i) :=
  .wakeLaunches (.same (.foldl (fun _ _ h3 => h3.reissueLaunch) h.onContext) rfl rfl)

theorem Canon.adoptImage {ctx port : ℕ} {i : CtxImage} (h : Canon s) : Canon (s.adoptImage ctx port i).1 := .pair (h.same rfl rfl)

theorem Canon.abandonGroup {key m : ℕ} (h : Canon s) : Canon (s.abandonGroup key m) := .endContext h.dropGroup

theorem Canon.streamTo {key idx m : ℕ} (h : Canon s) : Canon (s.streamTo key idx m) := by
  unfold State.streamTo
  refine .foldl (fun _ _ h1 => ?_) h
  split
  · exact h1.sendStage
  · exact h1

theorem Canon.rollBack {key m : ℕ} (h : Canon s) : Canon (s.rollBack key m) := by
  unfold State.rollBack
  refine .ite (.ite h.abandonGroup h.onGroup) (.ite h.abandonGroup (.ite h.onGroup ?_))
  lift_lets
  intro s1 g1
  have h1 : Canon s1 := .ite h.takeCut h
  clear_value s1
  split
  · exact .ite h1.onGroup h1.abandonGroup
  · have h2 : Canon ((s1.teamsOf g1.ctx).foldl State.removeTeam s1) := .foldl (fun _ _ hu => hu.removeTeam) h1
    generalize (s1.teamsOf g1.ctx).foldl State.removeTeam s1 = s2 at h2 ⊢
    refine .foldl (fun _ _ hu => hu.streamTo) (.unstall (.freeHeld (.freeFrames (.onGroup ?_))))
    refine .ite (.freeHeld (.onGroup ?_)) ?_
    all_goals
      refine .noteRollback (.applyImage (.undoJournal (.applyPreImages ?_)))
      exact .same (s := s2.freeFrames (s2.context g1.ctx).vf _) h2.freeFrames rfl rfl

theorem Canon.lateRollback {key : ℕ} (h : Canon s) : Canon (s.lateRollback key) := .foldl (fun _ _ h1 => h1.rollBack) h.onGroup

theorem Keeps.drained {group : ℕ} (h : Canon s) : Keeps (execDrained group s) :=
  .ite (.next h) (.ite (.next (.ite h.groupCut (.lateRollback h.groupCut)))
      (.ite (.next h.lateRollback) (.ite (.next h) (.next (.noteDrained (.tellGroup h.onGroup))))))

theorem Canon.replaceMember {key idx m : ℕ} (h : Canon s) : Canon (s.replaceMember key idx m) :=
  h.ite (.streamTo (.sendFlit (h.same rfl rfl)))

theorem Canon.endRollback {key : ℕ} (h : Canon s) : Canon (s.endRollback key) :=
  .freeHeld (.freeFrames (.onGroup (h.ite h.applyStaging)))

theorem Keeps.rollbackRestore {group : ℕ} (h : Canon s) : Keeps (execRollbackRestore group s) :=
  .ite (.next h) (.next (.onContext (.onGroup (.ite (.journalSet (.onGroup (.noteRollback (.applyImage h.adoptImage))))
      h.endRollback))))

/-! ### Flits, peers and modules -/

theorem Canon.serveCharge {p : Peer} {pa n : ℕ} (h : Canon s) : Canon (s.serveCharge p pa n) := h.charge

theorem Canon.serveStore {p : Peer} {pa n x : ℕ} {lab : Label} (h : Canon s) : Canon (s.serveStore p pa n x lab) := by
  unfold State.serveStore
  exact .store (.serveCharge h.fresh)

theorem Canon.serveFlag {p : Peer} {pa : ℕ} {lab : Label} {after : List (ℕ × Scope)} (h : Canon s) :
    Canon (s.serveFlag p pa lab after) := h.same rfl rfl

theorem Canon.respond {p : Peer} {lab : Label} {data : List (BitVec 128)} {egress poison : Bool} {tokens : List (ℕ × ℕ)}
    (h : Canon s) :
    Canon (s.respond p lab data egress poison tokens) := h.sendFlit

theorem Canon.serveRead {p : Peer} {pa n : ℕ} {origins : Label} {run : State → State × List (BitVec 128)} (h : Canon s)
    (hrun : ∀ u, Canon u → Canon (run u).1) :
    Canon (s.serveRead p pa n origins run) := .ite h.respond (.ite h.respond (.respond (hrun _ h)))

theorem Canon.noteSharer {line m : ℕ} (h : Canon s) : Canon (s.noteSharer line m) := h.ite (h.same rfl rfl)

theorem Canon.serveLoad {p : Peer} {pa n : ℕ} {keep : Bool} (h : Canon s) : Canon (s.serveLoad p pa n keep).1 :=
  .iteFst (.pair (.noteSharer (.l2Reach h.serveCharge))) (.pair (.l2Reach h.serveCharge))

theorem CanonOpt.serve {p : Peer} {pa : ℕ} {origins : Label} {q : PeerReq} (h : Canon s) : CanonOpt (s.serve p pa origins q) := by
  unfold State.serve
  split
  · exact .ite (.some (h.serveRead (fun _ h5 => h5.serveLoad))) .none
  · exact .ite (.some h.serveStore) .none
  · exact .ite (.some (.serveFlag h.serveStore)) .none
  · exact .ite (.some h.serveStore) .none
  · exact .some h.serveFlag
  · exact .ite .none (.some (h.serveRead (fun _ h5 => .pair h5.serveStore)))
  · exact .ite .none (.some (h.serveRead (fun _ h5 => .pair (.ite h5.serveStore h5))))

theorem Canon.onAccess {id : ℕ} {f : Access → Access} (h : Canon s) : Canon (s.onAccess id f) := h.same rfl rfl

theorem Canon.halfDone {a : Access} (h : Canon s) : Canon (s.halfDone a) := .ite h.unqueue h.onAccess

theorem Canon.answerGroup {a : Access} {lab : Label} {olds : List (ℕ × ℕ)} (h : Canon s) : Canon (s.answerGroup a lab olds) :=
  .passLate (.settleHash (.ite h.halfDone (.foldl (fun _ _ h4 => h4.deliver) h.halfDone)))

theorem Canon.answerLine {a : Access} {lab : Label} {data : List (BitVec 128)} {egress poison : Bool} (h : Canon s) :
    Canon (s.answerLine a lab data egress poison) := h.same rfl rfl

theorem Canon.answerLoad {a : Access} {lab : Label} {data : List (BitVec 128)} (h : Canon s) : Canon (s.answerLoad a lab data) :=
  .passLate (.deliver (.unqueue (.ite h.peerFill h)))

theorem Canon.answerAccess {a : Access} {lab : Label} {data : List (BitVec 128)} {egress poison : Bool} (h : Canon s) :
    Canon (s.answerAccess a lab data egress poison) := by
  unfold State.answerAccess
  refine .ite h.answerLine (.ite (.unqueue h.poisonEnd) ?_)
  refine .ite (.passLate (.settleHash (.foldl (fun _ _ h6 => h6.undeliver) h.unqueue))) ?_
  split
  · exact h.answerLoad
  · exact .passLate (.deliver h.unqueue)
  · exact .ite (.passLate (.deliver h.unqueue)) (.passLate h.onAccess)
  · exact h.answerGroup
  · exact h.answerGroup
  · exact h
  · exact h
  · exact h

theorem Canon.answerCopy {w : ℕ × ℕ × Xfer × ℕ} {lab : Label} {data : List (BitVec 128)} {egress poison : Bool} (h : Canon s) :
    Canon (s.answerCopy w lab data egress poison) := .ite (.ite h.copyPoison h.copyPoison) (.ite h.copyStop h.setHead)

theorem Canon.peerEchoes {a : Access} {tokens : List (ℕ × ℕ)} (h : Canon s) : Canon (s.peerEchoes a tokens) :=
  h.ite (h.same rfl rfl)

theorem Canon.takeResponse {f : Flit} {tag : ℕ} {data : List (BitVec 128)} {egress poison : Bool} (h : Canon s) :
    Canon (s.takeResponse f tag data egress poison) := by
  unfold State.takeResponse
  split
  · exact .answerAccess h.peerEchoes
  · split
    · exact h.answerCopy
    · exact h

theorem Canon.takeUpdate {f : Flit} {pa : ℕ} {bytes : List Byte} (h : Canon s) : Canon (s.takeUpdate f pa bytes) := by
  unfold State.takeUpdate
  refine .foldl (fun _ _ h1 => ?_) (h.same rfl rfl)
  split
  · exact h1.onCore
  · exact h1.l1Write

theorem Canon.forgetModule {m : ℕ} (h : Canon s) : Canon (s.forgetModule m) := h.same rfl rfl

theorem Canon.loseMember {m : ℕ} (h : Canon s) : Canon (s.loseMember m) := by
  unfold State.loseMember
  refine .ite h ?_
  lift_lets
  intro s1 f s2 s3 s4
  have h1 : Canon s1 := h.forgetModule
  have h2 : Canon s2 := .send (h1.same rfl rfl)
  have h3 : Canon s3 := by
    refine .foldl (fun _ _ h5 => ?_) h2
    refine .ite h5 ?_
    split
    · exact .endContext (h5.same rfl rfl)
    · exact h5
  have h4 : Canon s4 := h3.same rfl rfl
  exact .foldl (fun _ _ h5 => .ite (.dropGroup h5.journalSet) h5.rollBack) h4

theorem Keeps.moduleDeadDeclare {m : ℕ} (h : Canon s) : Keeps (execModuleDeadDeclare m s) :=
  .ite (.next h) (.next (.loseMember (.foldl (fun _ _ h4 => h4.sendFlit) h)))

theorem Keeps.moduleDeadAnnounce {m : ℕ} (h : Canon s) : Keeps (execModuleDeadAnnounce m s) := .next h.loseMember

theorem Canon.readmit {f : Flit} (h : Canon s) : Canon (s.readmit f) := .ite (h.same rfl rfl) h

theorem Canon.onLink {port : ℕ} {f : Link → Link} (h : Canon s) : Canon (s.onLink port f) := h.same rfl rfl

theorem Canon.repath {old : State} (h : Canon s) : Canon (s.repath old) := by
  unfold State.repath
  refine .foldl (fun _ _ h1 => ?_) h
  refine h1.ite ?_
  split
  · exact h1
  · exact .foldl (fun _ _ h4 => h4.send) h1

theorem Canon.dropLink {port : ℕ} (h : Canon s) : Canon (s.dropLink port) := .repath h.onLink

theorem Canon.noteLive {port : ℕ} (h : Canon s) : Canon (s.noteLive port) := h.onLink

theorem Keeps.livenessSend (h : Canon s) : Keeps (execLivenessSend s) :=
  .ite (.next h) (.next (.same (.foldl (fun _ _ h4 => .ite h4.sendFlit (.send h4.sendFlit)) h) rfl rfl))

theorem Keeps.linkLivenessTimeout {port : ℕ} (h : Canon s) : Keeps (execLinkLivenessTimeout port s) :=
  .ite (.next h.dropLink) (.next h)

theorem Keeps.linkRetryExhausted {port : ℕ} (h : Canon s) : Keeps (execLinkRetryExhausted port s) :=
  .ite (.next h.dropLink) (.next h)

theorem Keeps.linkUp {port : ℕ} (h : Canon s) : Keeps (execLinkUp port s) := .ite (.next (.repath h.onLink)) (.next h)

theorem Canon.takeStage {f : Flit} {key n : ℕ} {state : Bool} {pa : ℕ} {bytes : List Byte} {waited : Bool} (h : Canon s) :
    Canon (s.takeStage f key n state pa bytes waited).1 := by
  have hz : Canon (s.zeroRange pa 4096) := h.zeroRange
  unfold State.takeStage
  refine .iteFst h (.iteFst ⟨Cells.fill_wf _ _ _ hz.mem, hz.hostMem⟩ ?_)
  dsimp only
  split
  · next e1 => exact .of_fst e1 h.holdFrame
  · next e1 => exact .pair (.freeHeld (.onGroup (.of_fst e1 h.holdFrame)))

theorem Canon.takeCheck {m : CkMsg} {key n src : ℕ} (h : Canon s) : Canon (s.takeCheck m key n src) := by
  unfold State.takeCheck
  split
  · exact h.groupBegin
  · exact h.noteDrained
  · exact h.groupCut
  · exact h.noteSound
  · exact h.groupCommit
  · exact h.groupWithdraw

theorem CanonAns.deliverFlit {f : Flit} (h : Canon s) : CanonAns (s.deliverFlit f) := by
  unfold State.deliverFlit
  refine .ite .none ?_
  split
  · exact .map (.serve h) (fun _ h3 => h3)
  · exact .some (.pair h.takeResponse)
  · exact .some (.pair h.takeUpdate)
  · exact .some (.pair (h.same rfl rfl))
  · exact .ite (.some h.takeStage) (.some (.pair (.same h.takeStage rfl rfl)))
  · exact .some (.pair (.settleGroup (h.same rfl rfl)))
  · exact .some (.pair h.takeCheck)
  · exact .some (.pair h.loseMember)
  · exact .some (.pair (.repath (h.same rfl rfl)))

theorem Canon.oweAck {f : Flit} {first : ℕ} (h : Canon s) : Canon (s.oweAck f first) := h.same rfl rfl

theorem Canon.payAcks (h : Canon s) : Canon s.payAcks := .foldl (fun _ _ h1 => h1.send) (h.same rfl rfl)

theorem CanonOpt.takeHeld {f : Flit} (h : Canon s) : CanonOpt (s.takeHeld f) := by
  refine .mapFst (.deliverFlit h) (fun p hp => ?_)
  exact .same (s := if p.2 then p.1.oweAck f s.nextId else p.1) (.ite hp.oweAck hp) rfl rfl

theorem Canon.drainHeld {n : ℕ} (h : Canon s) : Canon (s.drainHeld n) := by
  induction n generalizing s with
  | zero => exact h
  | succ n ih =>
    unfold State.drainHeld
    split
    · exact h
    · next e1 => exact ih (CanonOpt.get (.findSome (fun _ => .takeHeld h)) e1)

theorem Canon.retryStages (h : Canon s) : Canon s.retryStages := by
  unfold State.retryStages
  refine .foldl (fun _ _ h1 => ?_) h
  split
  · exact .ite (.unstall (.oweAck (.same h1.takeStage rfl rfl))) h1.takeStage
  · exact h1
  · exact h1
  · exact h1
  · exact h1
  · exact h1
  · exact h1
  · exact h1
  · exact h1

theorem Canon.settleFlits (h : Canon s) : Canon s.settleFlits := .retryStages h.drainHeld

theorem Canon.passOn {f : Flit} (h : Canon s) : Canon (s.passOn f) := .ite h.send h

theorem Canon.discard {f : Flit} (h : Canon s) : Canon (s.discard f) := h.ite h.send

theorem Canon.takeFlit {f : Flit} (h : Canon s) : Canon (s.takeFlit f) :=
  .ite h.readmit (.ite (.discard h.readmit) (.ite h.readmit (.drainHeld (.same h.readmit rfl rfl))))

theorem Keeps.flitReceive {f : Arrival} (h : Canon s) : Keeps (execFlitReceive f s) :=
  .ite (.next h) (.ite (.next (.ite h.noteLive h)) (.ite (.next (.passOn (.ite h.noteLive h)))
      (.next (.takeFlit (.ite h.noteLive h)))))

theorem Canon.ackRequest {tag : ℕ} {q : PeerReq} (h : Canon s) : Canon (s.ackRequest tag q) := by
  unfold State.ackRequest
  split
  · split
    · exact h.unqueue
    · exact h.unqueue
    · exact h.halfDone
    · exact h.halfDone
    · exact h
    · exact h
    · exact h
    · exact h
  · split
    · exact .wrote h.setHead
    · exact h.dropHead
    · exact h

theorem Keeps.flitAck {dst vn seq : ℕ} (h : Canon s) : Keeps (execFlitAck dst vn seq s) := by
  unfold execFlitAck
  split
  · exact .next h
  · split
    · exact .next (.ackRequest (h.same rfl rfl))
    · exact .next (.onGroup (h.same rfl rfl))
    · exact .next (h.same rfl rfl)
    · exact .next (h.same rfl rfl)
    · exact .next (h.same rfl rfl)
    · exact .next (h.same rfl rfl)
    · exact .next (h.same rfl rfl)
    · exact .next (h.same rfl rfl)
    · exact .next (h.same rfl rfl)

theorem Canon.nameModule {m : ℕ} (h : Canon s) : Canon (s.nameModule m) := .ite (h.same rfl rfl) h

theorem Canon.placeEntry {c : BitVec 512} (h : Canon s) : Canon (s.placeEntry c) := by
  unfold State.placeEntry
  dsimp only
  split
  · exact .ite (.foldl (fun _ _ h3 => h3.replaceMember) (.nameModule h.onVf)) h.onVf
  · exact h.onVf
  · exact .foldl (fun _ _ h2 => h2.sendFlit) h.onVf

theorem CanonAns.cmdPlace {r : JRef} {fn : Fn} {c : BitVec 512} (h : Canon s) : CanonAns (s.cmdPlace r fn c) :=
  .ite .none (.ite (.denied h) (.done h.placeEntry))

theorem CanonAns.contextCommand {r : JRef} {k : ℕ} {c : BitVec 512} (h : Canon s) : CanonAns (s.contextCommand r k c) := by
  unfold State.contextCommand
  split
  · exact .cmdLaunch h
  · exact .cmdEvset h
  · exact .cmdBindOff h
  · exact .cmdFaultResume h
  · exact .cmdPreempt h
  · exact .cmdResume h
  · exact .cmdInvalidate h
  · exact .cmdWatch h
  · split
    · exact .cmdEnrol h
    · exact .cmdWithdraw h
    · exact .denied h
  · exact .none

theorem CanonAns.plainCommand {r : JRef} {fn : Fn} {c : BitVec 512} {dmaOk : Bool} (h : Canon s) :
    CanonAns (s.plainCommand r fn c dmaOk) := by
  unfold State.plainCommand
  split
  · exact .cmdCreate h
  · exact .cmdBiasFlip h
  · exact .ite (.cmdRemove h) (.cmdInstall h)
  · exact .cmdJoint h
  · exact .cmdAdopt h
  · exact .cmdPlace h
  · exact .none

/-! ### Commands by type -/

theorem Canon.process {fn : Fn} {c : BitVec 512} {dmaOk : Bool} (h : Canon s) : Canon (s.process fn c dmaOk).1 := by
  unfold State.process
  split
  · exact h
  · dsimp only
    split
    · exact h
    · next e1 =>
      refine CanonAns.get (.ite ?_ (.plainCommand h.journalAdd)) e1
      split
      · exact .denied h.journalAdd
      · exact .contextCommand h.journalAdd

theorem Canon.cmdStat {p tag : ℕ} {st : Status} (h : Canon s) : Canon (s.cmdStat p tag st) := h.onPort

theorem Canon.consume {fn : Fn} {c : Option (BitVec 512)} {dmaOk : Bool} (h : Canon s) : Canon (s.consume fn c dmaOk) := by
  unfold State.consume
  split
  · exact h.cmdStat
  · exact .cmdStat h.process

theorem Canon.pump {fn : Fn} {n : ℕ} (h : Canon s) : Canon (s.pump fn n) := by
  induction n generalizing s with
  | zero => exact h
  | succ n ih =>
    unfold State.pump
    split
    · exact h
    · refine h.ite ?_
      split
      · exact h.askDevice
      · exact ih (.forgetLines (.consume h.onPort))

theorem Canon.submit {fn : Fn} {c : Option (BitVec 512)} {dmaOk : Bool} (h : Canon s) : Canon (s.submit fn c dmaOk) :=
  h.ite (.ite h.consume (.pump h.onPort))

theorem Canon.pumpAll (h : Canon s) : Canon s.pumpAll := .foldl (fun _ _ h1 => h1.ite h1.pump) h

theorem Canon.resumeVf {vf : ℕ} (h : Canon s) : Canon (s.resumeVf vf) := h.ite (.pump h.endSuspension)

theorem Keeps.suspendClear {vf : ℕ} (h : Canon s) : Keeps (execSuspendClear vf s) := .next h.resumeVf

theorem Canon.writeSaveBlock {vf off width : ℕ} {x : DWord} (h : Canon s) : Canon (s.writeSaveBlock vf off width x) := by
  unfold State.writeSaveBlock
  split
  · exact h.addFrame
  · exact h.onVf
  · exact .ite (.ite h.suspendVf h.resumeVf) h
  · exact h

theorem Canon.writeOrigin {slot off width : ℕ} {x : DWord} (h : Canon s) : Canon (s.writeOrigin slot off width x) :=
  .ite (.unbindSlot (.ite h.onOrigin h)) (.ite h.onOrigin h)

theorem Canon.writePf {off width : ℕ} {x : DWord} (h : Canon s) : Canon (s.writePf off width x) :=
  h.ite (.ite h.writeSaveBlock (.ite h.writeTenancy (.ite h.writeBudget (.ite h.writeOrigin h))))

theorem Keeps.registerWrite {fn : Fn} {off width : ℕ} {x : BitVec 64} (h : Canon s) :
    Keeps (execRegisterWrite fn off width x s) := by
  unfold execRegisterWrite
  refine .ite (.next h.submit) ?_
  split
  · exact .next h
  · exact .next (.writePf h.writePf)

theorem Keeps.hostCommand {fn : Fn} {c : BitVec 512} {dmaOk ok : Bool} (h : Canon s) : Keeps (hostCommand fn c dmaOk ok s) :=
  .ite (.next h.submit) (.next h)

theorem Keeps.badCommand {fn : Fn} {bytes : List Byte} (h : Canon s) : Keeps (execBadCommand fn bytes s) :=
  .ite (.next h.submit) (.hostCommand h)

theorem Keeps.launchCmd {fn : Fn} {c : BitVec 512} (h : Canon s) : Keeps (execLaunchCmd fn c s) := .hostCommand h

theorem Keeps.evsetCmd {fn : Fn} {c : BitVec 512} (h : Canon s) : Keeps (execEvsetCmd fn c s) := .hostCommand h

theorem Keeps.evsetClrCmd {fn : Fn} {c : BitVec 512} (h : Canon s) : Keeps (execEvsetClrCmd fn c s) := .hostCommand h

theorem Keeps.contextCreate {fn : Fn} {c : BitVec 512} (h : Canon s) : Keeps (execContextCreate fn c s) := .hostCommand h

theorem Keeps.bindOff {fn : Fn} {c : BitVec 512} (h : Canon s) : Keeps (execBindOff fn c s) := .hostCommand h

theorem Keeps.faultResumeRetry {fn : Fn} {c : BitVec 512} (h : Canon s) : Keeps (execFaultResumeRetry fn c s) := .hostCommand h

theorem Keeps.faultResumeDeliver {fn : Fn} {c : BitVec 512} (h : Canon s) : Keeps (execFaultResumeDeliver fn c s) :=
  .hostCommand h

theorem Keeps.faultResumeKill {fn : Fn} {c : BitVec 512} (h : Canon s) : Keeps (execFaultResumeKill fn c s) := .hostCommand h

theorem Keeps.preempt {fn : Fn} {c : BitVec 512} (h : Canon s) : Keeps (execPreempt fn c s) := .hostCommand h

theorem Keeps.resume {fn : Fn} {c : BitVec 512} (h : Canon s) : Keeps (execResume fn c s) := .hostCommand h

theorem Keeps.invalidateVa {fn : Fn} {c : BitVec 512} (h : Canon s) : Keeps (execInvalidateVa fn c s) := .hostCommand h

theorem Keeps.biasFlipToHost {fn : Fn} {c : BitVec 512} (h : Canon s) : Keeps (execBiasFlipToHost fn c s) := .hostCommand h

theorem Keeps.biasFlipToDevice {fn : Fn} {c : BitVec 512} (h : Canon s) : Keeps (execBiasFlipToDevice fn c s) := .hostCommand h

theorem Keeps.watchSet {fn : Fn} {c : BitVec 512} (h : Canon s) : Keeps (execWatchSet fn c s) := .hostCommand h

theorem Keeps.watchRemove {fn : Fn} {c : BitVec 512} (h : Canon s) : Keeps (execWatchRemove fn c s) := .hostCommand h

theorem Keeps.policyInstall {fn : Fn} {c : BitVec 512} {dmaOk : Bool} (h : Canon s) : Keeps (execPolicyInstall fn c dmaOk s) :=
  .hostCommand h

theorem Keeps.policyRemove {fn : Fn} {c : BitVec 512} (h : Canon s) : Keeps (execPolicyRemove fn c s) := .hostCommand h

theorem Keeps.jointContext {fn : Fn} {c : BitVec 512} {dmaOk : Bool} (h : Canon s) : Keeps (execJointContext fn c dmaOk s) :=
  .hostCommand h

theorem Keeps.checkpointEnrol {fn : Fn} {c : BitVec 512} (h : Canon s) : Keeps (execCheckpointEnrol fn c s) := .hostCommand h

theorem Keeps.checkpointWithdraw {fn : Fn} {c : BitVec 512} (h : Canon s) : Keeps (execCheckpointWithdraw fn c s) :=
  .hostCommand h

theorem Keeps.checkpointAdopt {fn : Fn} {c : BitVec 512} (h : Canon s) : Keeps (execCheckpointAdopt fn c s) := .hostCommand h

theorem Keeps.placeSet {fn : Fn} {c : BitVec 512} (h : Canon s) : Keeps (execPlaceSet fn c s) := .hostCommand h

end

end Sys2Proof.Machine
end

section
/-! PROOFS. The canonical form of device memory and of host memory: lane arithmetic and power (O59). -/

namespace Sys2Proof.Machine

section

variable {s : State}

/-! ### Comparisons -/

theorem Keeps.icmp {hd : Hdr} {cmp : Cmp} {t : IType} {d : BitVec 3} {a b : BitVec 8} {c : BitVec 3} (h : Canon s) :
    Keeps (execIcmp hd cmp t d a b c s) := .issue h (fun _ h2 => h2)

theorem Keeps.fcmp {hd : Hdr} {cmp : Cmp} {t : FType} {d : BitVec 3} {a b : BitVec 8} {c : BitVec 3} (h : Canon s) :
    Keeps (execFcmp hd cmp t d a b c s) := .issue h (fun _ h2 => h2.fpEnd)

theorem Keeps.sel {hd : Hdr} {t : IType} {d a b : BitVec 8} {c : BitVec 3} (h : Canon s) : Keeps (execSel hd t d a b c s) :=
  .issue h (fun _ h2 => h2)

theorem Keeps.plog {hd : Hdr} {tt : BitVec 8} {d a b c : BitVec 3} (h : Canon s) : Keeps (execPlog hd tt d a b c s) :=
  .issue h (fun _ h2 => h2)

theorem Keeps.pmov {hd : Hdr} {f : PmovForm} {d a : BitVec 8} (h : Canon s) : Keeps (execPmov hd f d a s) := by
  unfold execPmov
  refine .issue h (fun _ h2 => ?_)
  split
  · exact h2
  · exact h2
  · exact h2

/-! ### Floating point -/

theorem Canon.fp2 {c : Cx} {t : FType} {rm : Rnd} {r : RndSrc} {d a b : BitVec 8} {op : RMode → List FVal → FVal × Flags}
    (h : Canon c.s) :
    Canon (c.fp2 t rm r d a b op).s := h.fpEff

theorem Canon.fp1 {c : Cx} {t : FType} {rm : Rnd} {r : RndSrc} {d a : BitVec 8} {f : FVal → FVal × Flags} (h : Canon c.s) :
    Canon (c.fp1 t rm r d a f).s := h.fpEff

theorem Canon.fpImm {c : Cx} {d a : BitVec 8} {imm : BitVec 32} {op : RMode → List FVal → FVal × Flags} (h : Canon c.s) :
    Canon (c.fpImm d a imm op).s := h.fpEff

theorem Keeps.fadd {hd : Hdr} {t : FType} {rm : Rnd} {r : RndSrc} {d a b : BitVec 8} (h : Canon s) :
    Keeps (execFadd hd t rm r d a b s) := .issue h (fun _ h2 => h2.fp2)

theorem Keeps.faddImm {hd : Hdr} {imm : BitVec 32} {d a : BitVec 8} (h : Canon s) : Keeps (execFaddImm hd imm d a s) :=
  .issue h (fun _ h2 => h2.fpImm)

theorem Keeps.fsub {hd : Hdr} {t : FType} {rm : Rnd} {r : RndSrc} {d a b : BitVec 8} (h : Canon s) :
    Keeps (execFsub hd t rm r d a b s) := .issue h (fun _ h2 => h2.fp2)

theorem Keeps.fsubImm {hd : Hdr} {imm : BitVec 32} {d a : BitVec 8} (h : Canon s) : Keeps (execFsubImm hd imm d a s) :=
  .issue h (fun _ h2 => h2.fpImm)

theorem Keeps.fmul {hd : Hdr} {t : FType} {rm : Rnd} {r : RndSrc} {d a b : BitVec 8} (h : Canon s) :
    Keeps (execFmul hd t rm r d a b s) := .issue h (fun _ h2 => h2.fp2)

theorem Keeps.fmulImm {hd : Hdr} {imm : BitVec 32} {d a : BitVec 8} (h : Canon s) : Keeps (execFmulImm hd imm d a s) :=
  .issue h (fun _ h2 => h2.fpImm)

theorem Keeps.fma {hd : Hdr} {t : FType} {rm : Rnd} {r : RndSrc} {d a b c : BitVec 8} (h : Canon s) :
    Keeps (execFma hd t rm r d a b c s) := .issue h (fun _ h2 => h2.fpEff)

theorem Keeps.fmin {hd : Hdr} {t : FType} {d a b : BitVec 8} (h : Canon s) : Keeps (execFmin hd t d a b s) :=
  .issue h (fun _ h2 => h2.fpEff)

theorem Keeps.fminImm {hd : Hdr} {imm : BitVec 32} {d a : BitVec 8} (h : Canon s) : Keeps (execFminImm hd imm d a s) :=
  .issue h (fun _ h2 => h2.fpEff)

theorem Keeps.fmax {hd : Hdr} {t : FType} {d a b : BitVec 8} (h : Canon s) : Keeps (execFmax hd t d a b s) :=
  .issue h (fun _ h2 => h2.fpEff)

theorem Keeps.fmaxImm {hd : Hdr} {imm : BitVec 32} {d a : BitVec 8} (h : Canon s) : Keeps (execFmaxImm hd imm d a s) :=
  .issue h (fun _ h2 => h2.fpEff)

theorem Keeps.fabs {hd : Hdr} {t : FType} {d a : BitVec 8} (h : Canon s) : Keeps (execFabs hd t d a s) :=
  .issue h (fun _ h2 => h2.fpEff)

theorem Keeps.fneg {hd : Hdr} {t : FType} {d a : BitVec 8} (h : Canon s) : Keeps (execFneg hd t d a s) :=
  .issue h (fun _ h2 => h2.fpEff)

theorem Keeps.frcp {hd : Hdr} {t : FType} {rm : Rnd} {r : RndSrc} {d a : BitVec 8} (h : Canon s) :
    Keeps (execFrcp hd t rm r d a s) := .issue h (fun _ h2 => h2.fp1)

theorem Keeps.fsqrt {hd : Hdr} {t : FType} {rm : Rnd} {r : RndSrc} {d a : BitVec 8} (h : Canon s) :
    Keeps (execFsqrt hd t rm r d a s) := .issue h (fun _ h2 => h2.fp1)

theorem Keeps.frsq {hd : Hdr} {t : FType} {rm : Rnd} {r : RndSrc} {d a : BitVec 8} (h : Canon s) :
    Keeps (execFrsq hd t rm r d a s) := .issue h (fun _ h2 => h2.fp1)

theorem Keeps.fexp2 {hd : Hdr} {t : FType} {rm : Rnd} {r : RndSrc} {d a : BitVec 8} (h : Canon s) :
    Keeps (execFexp2 hd t rm r d a s) := .issue h (fun _ h2 => h2.fp1)

theorem Keeps.flog2 {hd : Hdr} {t : FType} {rm : Rnd} {r : RndSrc} {d a : BitVec 8} (h : Canon s) :
    Keeps (execFlog2 hd t rm r d a s) := .issue h (fun _ h2 => h2.fp1)

theorem Keeps.fsin {hd : Hdr} {t : FType} {rm : Rnd} {r : RndSrc} {d a : BitVec 8} (h : Canon s) :
    Keeps (execFsin hd t rm r d a s) := .issue h (fun _ h2 => h2.fp1)

theorem Keeps.fcos {hd : Hdr} {t : FType} {rm : Rnd} {r : RndSrc} {d a : BitVec 8} (h : Canon s) :
    Keeps (execFcos hd t rm r d a s) := .issue h (fun _ h2 => h2.fp1)

theorem Keeps.fclass {hd : Hdr} {t : FType} {d a : BitVec 8} (h : Canon s) : Keeps (execFclass hd t d a s) :=
  .issue h (fun _ h2 => h2.fpEff)

theorem Keeps.fdot2 {hd : Hdr} {t : FType} {rm : Rnd} {r : RndSrc} {d a b c : BitVec 8} (h : Canon s) :
    Keeps (execFdot2 hd t rm r d a b c s) := .issue h (fun _ h2 => h2.fpEff)

theorem Keeps.fscale {hd : Hdr} {t : FType} {rm : Rnd} {r : RndSrc} {d a b : BitVec 8} (h : Canon s) :
    Keeps (execFscale hd t rm r d a b s) := .issue h (fun _ h2 => h2.fpEff)

theorem Keeps.frint {hd : Hdr} {t : FType} {rm : Rnd} {r : RndSrc} {d a : BitVec 8} (h : Canon s) :
    Keeps (execFrint hd t rm r d a s) := .issue h (fun _ h2 => h2.fpEff)

/-! ### Integers -/

theorem Canon.shift {c : Cx} {u : Bool} {d a b : BitVec 8} {f : ℕ → ℕ → ℕ} (h : Canon c.s) : Canon (c.shift u d a b f).s :=
  h.intEff

theorem Canon.shiftImm {c : Cx} {u : Bool} {d a : BitVec 8} {imm : BitVec 32} {f : ℕ → ℕ → ℕ} (h : Canon c.s) :
    Canon (c.shiftImm u d a imm f).s := h.intEff

theorem Canon.count {c : Cx} {u : Bool} {t : IType} {d a : BitVec 8} {f : ℕ → ℕ → ℕ} (h : Canon c.s) :
    Canon (c.count u t d a f).s := h.intEff

theorem Keeps.nop {hd : Hdr} (h : Canon s) : Keeps (execNop hd s) := .issue h (fun _ h2 => h2)

theorem Keeps.mov {hd : Hdr} {u : Bool} {t : IType} {d a : BitVec 8} (h : Canon s) : Keeps (execMov hd u t d a s) :=
  .issue h (fun _ h2 => h2.intEff)

theorem Keeps.movi {hd : Hdr} {u : Bool} {imm : BitVec 32} {d : BitVec 8} (h : Canon s) : Keeps (execMovi hd u imm d s) :=
  .issue h (fun _ h2 => h2.intEff)

theorem Keeps.iadd {hd : Hdr} {u : Bool} {t : IType} {d a b : BitVec 8} (h : Canon s) : Keeps (execIadd hd u t d a b s) :=
  .issue h (fun _ h2 => h2.int2)

theorem Keeps.iaddImm {hd : Hdr} {u : Bool} {imm : BitVec 32} {d a : BitVec 8} (h : Canon s) :
    Keeps (execIaddImm hd u imm d a s) := .issue h (fun _ h2 => h2.intImm)

theorem Keeps.isub {hd : Hdr} {u : Bool} {t : IType} {d a b : BitVec 8} (h : Canon s) : Keeps (execIsub hd u t d a b s) :=
  .issue h (fun _ h2 => h2.int2)

theorem Keeps.isubImm {hd : Hdr} {u : Bool} {imm : BitVec 32} {d a : BitVec 8} (h : Canon s) :
    Keeps (execIsubImm hd u imm d a s) := .issue h (fun _ h2 => h2.intImm)

theorem Keeps.imul {hd : Hdr} {u : Bool} {t : IType} {d a b : BitVec 8} (h : Canon s) : Keeps (execImul hd u t d a b s) :=
  .issue h (fun _ h2 => h2.int2)

theorem Keeps.imulImm {hd : Hdr} {u : Bool} {imm : BitVec 32} {d a : BitVec 8} (h : Canon s) :
    Keeps (execImulImm hd u imm d a s) := .issue h (fun _ h2 => h2.intImm)

theorem Keeps.imulh {hd : Hdr} {u : Bool} {t : IType} {d a b : BitVec 8} (h : Canon s) : Keeps (execImulh hd u t d a b s) :=
  .issue h (fun _ h2 => h2.int2)

theorem Keeps.imad {hd : Hdr} {u : Bool} {t : IType} {d a b c : BitVec 8} (h : Canon s) : Keeps (execImad hd u t d a b c s) :=
  .issue h (fun _ h2 => h2.intEff)

theorem Keeps.idiv {hd : Hdr} {u : Bool} {t : IType} {d a b : BitVec 8} (h : Canon s) : Keeps (execIdiv hd u t d a b s) :=
  .issue h (fun _ h2 => h2.int2)

theorem Keeps.irem {hd : Hdr} {u : Bool} {t : IType} {d a b : BitVec 8} (h : Canon s) : Keeps (execIrem hd u t d a b s) :=
  .issue h (fun _ h2 => h2.int2)

theorem Keeps.imin {hd : Hdr} {u : Bool} {t : IType} {d a b : BitVec 8} (h : Canon s) : Keeps (execImin hd u t d a b s) :=
  .issue h (fun _ h2 => h2.int2)

theorem Keeps.iminImm {hd : Hdr} {u : Bool} {imm : BitVec 32} {d a : BitVec 8} (h : Canon s) :
    Keeps (execIminImm hd u imm d a s) := .issue h (fun _ h2 => h2.intImm)

theorem Keeps.imax {hd : Hdr} {u : Bool} {t : IType} {d a b : BitVec 8} (h : Canon s) : Keeps (execImax hd u t d a b s) :=
  .issue h (fun _ h2 => h2.int2)

theorem Keeps.imaxImm {hd : Hdr} {u : Bool} {imm : BitVec 32} {d a : BitVec 8} (h : Canon s) :
    Keeps (execImaxImm hd u imm d a s) := .issue h (fun _ h2 => h2.intImm)

theorem Keeps.iabs {hd : Hdr} {u : Bool} {t : IType} {d a : BitVec 8} (h : Canon s) : Keeps (execIabs hd u t d a s) :=
  .issue h (fun _ h2 => h2.intEff)

theorem Keeps.sadd {hd : Hdr} {u : Bool} {t : IType} {d a b : BitVec 8} (h : Canon s) : Keeps (execSadd hd u t d a b s) :=
  .issue h (fun _ h2 => h2.int2)

theorem Keeps.saddImm {hd : Hdr} {u : Bool} {imm : BitVec 32} {d a : BitVec 8} (h : Canon s) :
    Keeps (execSaddImm hd u imm d a s) := .issue h (fun _ h2 => h2.intImm)

theorem Keeps.ssub {hd : Hdr} {u : Bool} {t : IType} {d a b : BitVec 8} (h : Canon s) : Keeps (execSsub hd u t d a b s) :=
  .issue h (fun _ h2 => h2.int2)

theorem Keeps.and {hd : Hdr} {u : Bool} {t : IType} {d a b : BitVec 8} (h : Canon s) : Keeps (execAnd hd u t d a b s) :=
  .issue h (fun _ h2 => h2.intEff)

theorem Keeps.andImm {hd : Hdr} {u : Bool} {imm : BitVec 32} {d a : BitVec 8} (h : Canon s) : Keeps (execAndImm hd u imm d a s) :=
  .issue h (fun _ h2 => h2.intEff)

theorem Keeps.or {hd : Hdr} {u : Bool} {t : IType} {d a b : BitVec 8} (h : Canon s) : Keeps (execOr hd u t d a b s) :=
  .issue h (fun _ h2 => h2.intEff)

theorem Keeps.orImm {hd : Hdr} {u : Bool} {imm : BitVec 32} {d a : BitVec 8} (h : Canon s) : Keeps (execOrImm hd u imm d a s) :=
  .issue h (fun _ h2 => h2.intEff)

theorem Keeps.xor {hd : Hdr} {u : Bool} {t : IType} {d a b : BitVec 8} (h : Canon s) : Keeps (execXor hd u t d a b s) :=
  .issue h (fun _ h2 => h2.intEff)

theorem Keeps.xorImm {hd : Hdr} {u : Bool} {imm : BitVec 32} {d a : BitVec 8} (h : Canon s) : Keeps (execXorImm hd u imm d a s) :=
  .issue h (fun _ h2 => h2.intEff)

theorem Keeps.ttab {hd : Hdr} {u : Bool} {t : IType} {tt d a b c : BitVec 8} (h : Canon s) :
    Keeps (execTtab hd u t tt d a b c s) := .issue h (fun _ h2 => h2.intEff)

theorem Keeps.shl {hd : Hdr} {u : Bool} {d a b : BitVec 8} (h : Canon s) : Keeps (execShl hd u d a b s) :=
  .issue h (fun _ h2 => h2.shift)

theorem Keeps.shlImm {hd : Hdr} {u : Bool} {imm : BitVec 32} {d a : BitVec 8} (h : Canon s) : Keeps (execShlImm hd u imm d a s) :=
  .issue h (fun _ h2 => h2.shiftImm)

theorem Keeps.shr {hd : Hdr} {u : Bool} {d a b : BitVec 8} (h : Canon s) : Keeps (execShr hd u d a b s) :=
  .issue h (fun _ h2 => h2.shift)

theorem Keeps.shrImm {hd : Hdr} {u : Bool} {imm : BitVec 32} {d a : BitVec 8} (h : Canon s) : Keeps (execShrImm hd u imm d a s) :=
  .issue h (fun _ h2 => h2.shiftImm)

theorem Keeps.sar {hd : Hdr} {u : Bool} {d a b : BitVec 8} (h : Canon s) : Keeps (execSar hd u d a b s) :=
  .issue h (fun _ h2 => h2.shift)

theorem Keeps.sarImm {hd : Hdr} {u : Bool} {imm : BitVec 32} {d a : BitVec 8} (h : Canon s) : Keeps (execSarImm hd u imm d a s) :=
  .issue h (fun _ h2 => h2.shiftImm)

theorem Keeps.rotl {hd : Hdr} {u : Bool} {d a b : BitVec 8} (h : Canon s) : Keeps (execRotl hd u d a b s) :=
  .issue h (fun _ h2 => h2.shift)

theorem Keeps.rotlImm {hd : Hdr} {u : Bool} {imm : BitVec 32} {d a : BitVec 8} (h : Canon s) :
    Keeps (execRotlImm hd u imm d a s) := .issue h (fun _ h2 => h2.shiftImm)

theorem Keeps.bfx {hd : Hdr} {u : Bool} {t : IType} {d a b : BitVec 8} (h : Canon s) : Keeps (execBfx hd u t d a b s) :=
  .issue h (fun _ h2 => h2.intEff)

theorem Keeps.bfi {hd : Hdr} {u : Bool} {d a b c : BitVec 8} (h : Canon s) : Keeps (execBfi hd u d a b c s) :=
  .issue h (fun _ h2 => h2.intEff)

theorem Keeps.popc {hd : Hdr} {u : Bool} {t : IType} {d a : BitVec 8} (h : Canon s) : Keeps (execPopc hd u t d a s) :=
  .issue h (fun _ h2 => h2.count)

theorem Keeps.clz {hd : Hdr} {u : Bool} {t : IType} {d a : BitVec 8} (h : Canon s) : Keeps (execClz hd u t d a s) :=
  .issue h (fun _ h2 => h2.count)

theorem Keeps.brev {hd : Hdr} {u : Bool} {t : IType} {d a : BitVec 8} (h : Canon s) : Keeps (execBrev hd u t d a s) :=
  .issue h (fun _ h2 => h2.intEff)

theorem Keeps.bperm {hd : Hdr} {u : Bool} {d a b c : BitVec 8} (h : Canon s) : Keeps (execBperm hd u d a b c s) :=
  .issue h (fun _ h2 => h2.intEff)

theorem Keeps.add64 {hd : Hdr} {u : Bool} {d a b : BitVec 8} (h : Canon s) : Keeps (execAdd64 hd u d a b s) :=
  .issue h (fun _ h2 => h2.intEff)

theorem Keeps.add64Imm {hd : Hdr} {u : Bool} {imm : BitVec 32} {d a : BitVec 8} (h : Canon s) :
    Keeps (execAdd64Imm hd u imm d a s) := .issue h (fun _ h2 => h2.intEff)

theorem Keeps.mad64 {hd : Hdr} {u : Bool} {t : IType} {d a b c : BitVec 8} (h : Canon s) : Keeps (execMad64 hd u t d a b c s) :=
  .issue h (fun _ h2 => h2.intEff)

theorem Keeps.shl64 {hd : Hdr} {u : Bool} {d a b : BitVec 8} (h : Canon s) : Keeps (execShl64 hd u d a b s) :=
  .issue h (fun _ h2 => h2.intEff)

theorem Keeps.shr64 {hd : Hdr} {u sx : Bool} {d a b : BitVec 8} (h : Canon s) : Keeps (execShr64 hd u sx d a b s) :=
  .issue h (fun _ h2 => h2.intEff)

/-! ### Cross-lane instructions -/

theorem Canon.foldEff {c : Cx} {op : FoldOp} {d a : BitVec 8} {scan excl : Bool} (h : Canon c.s) :
    Canon (c.foldEff op d a scan excl).s := h.fpEff

theorem Keeps.lxch {hd : Hdr} {mode : XMode} {t : IType} {seg d a b : BitVec 8} (h : Canon s) :
    Keeps (execLxch hd mode t seg d a b s) := .issue h (fun _ h2 => h2)

theorem Keeps.poll {hd : Hdr} {f : PollForm} {d : BitVec 8} {a : BitVec 3} (h : Canon s) : Keeps (execPoll hd f d a s) := by
  unfold execPoll
  refine .issue h (fun _ h2 => ?_)
  split
  · exact h2
  · exact h2
  · exact h2
  · exact h2
  · exact h2

theorem Keeps.redux {hd : Hdr} {op : FoldOp} {d a : BitVec 8} (h : Canon s) : Keeps (execRedux hd op d a s) :=
  .issue h (fun _ h2 => h2.foldEff)

theorem Keeps.scan {hd : Hdr} {excl : Bool} {op : FoldOp} {d a : BitVec 8} (h : Canon s) : Keeps (execScan hd excl op d a s) :=
  .issue h (fun _ h2 => h2.foldEff)

theorem Keeps.elect {hd : Hdr} {d : BitVec 3} (h : Canon s) : Keeps (execElect hd d s) := .issue h (fun _ h2 => h2)

theorem Keeps.kin {hd : Hdr} {f : KinForm} {t : IType} {d a : BitVec 8} (h : Canon s) : Keeps (execKin hd f t d a s) := by
  unfold execKin
  refine .issue h (fun _ h2 => ?_)
  split
  · exact h2
  · exact h2
  · exact h2

theorem Keeps.umov {hd : Hdr} {f : UmovForm} {n d a : BitVec 8} (h : Canon s) : Keeps (execUmov hd f n d a s) := by
  unfold execUmov
  refine .issue h (fun _ h2 => ?_)
  split
  · exact h2
  · exact h2
  · exact h2
  · exact h2

/-! ### Power, errors and sleep -/

theorem Canon.sramError {ctx array : ℕ} (h : Canon s) : Canon (s.sramError ctx array) := h.endContext

theorem Canon.poisonLine {line : ℕ} (h : Canon s) : Canon (s.poisonLine line) := h.same rfl rfl

theorem Canon.ownerEnds {handle array : ℕ} (h : Canon s) : Canon (s.ownerEnds handle array) := by
  unfold State.ownerEnds
  split
  · exact h.sramError
  · exact h

theorem Canon.teamEnds {core k array : ℕ} (h : Canon s) : Canon (s.teamEnds core k array) := .ite h.sramError h

theorem Canon.l1Error {core line : ℕ} (h : Canon s) : Canon (s.l1Error core line) := by
  unfold State.l1Error
  split
  · exact h
  · exact .ite h.onCore (.ite h.onCore (.ownerEnds h.onCore))

theorem Canon.loseLine {line : ℕ} (h : Canon s) : Canon (s.loseLine line) :=
  .ite ⟨Cells.clear_wf _ _ h.dropCopies.mem, h.hostMem⟩ (h.same rfl rfl)

theorem Canon.l2Error {line : ℕ} (h : Canon s) : Canon (s.l2Error line) := by
  unfold State.l2Error
  split
  · exact h
  · exact .ite (.ite h.l2Drop (.hostDrop (.hostDrop h.l2Drop))) (.ite (.loseLine h.l2Drop)
        (.ownerEnds (.poisonLine (.loseLine h.l2Drop))))

theorem Canon.lineError {l : ArrayLine} (h : Canon s) : Canon (s.lineError l) := by
  unfold State.lineError
  split
  · exact h.teamEnds
  · exact h.teamEnds
  · exact h.l1Error
  · exact h.l2Error
  · split
    · exact h.sramError
    · exact h.onCore
  · exact h.ite h.poisonLine
  · exact h.poisonLine

theorem Keeps.uncorrectableError {l : ArrayLine} (h : Canon s) : Keeps (execUncorrectableError l s) := .next h.lineError

theorem Keeps.scrubVisit {l : ArrayLine} (h : Canon s) : Keeps (execScrubVisit l s) := by
  unfold execScrubVisit
  split
  · exact .next (.ite h.charge h.waitCharge)
  · exact .next (.ite h.charge h.waitCharge)
  · exact .next h
  · exact .next h
  · exact .next h
  · exact .next h
  · exact .next h

theorem Keeps.retentionSleepEnter {core : ℕ} (h : Canon s) : Keeps (execRetentionSleepEnter core s) :=
  .ite (.next h) (.next (.onCore (.same (.foldl (fun _ _ h5 => .ite h5.l1Write h5) h) rfl rfl)))

theorem Keeps.retentionWake {core : ℕ} (h : Canon s) : Keeps (execRetentionWake core s) := .next h.wakeCore

theorem Keeps.castOn {c : CastOn} (h : Canon s) : Keeps (execCastOn c s) :=
  .next ⟨rfl, h.hostMem⟩

theorem Keeps.powerOutOfRange {millivolts : ℕ} (h : Canon s) : Keeps (execPowerOutOfRange millivolts s) :=
  .ite (.next h) (.next (h.same rfl rfl))

theorem Keeps.managementRequest {r : MgmtReq} (h : Canon s) : Keeps (execManagementRequest r s) := by
  unfold execManagementRequest
  split
  · exact .ite (.next h) (.next (h.same rfl rfl))
  · exact .ite (.next (h.same rfl rfl)) (.next h)
  · exact .ite (.next h) (.next h.setGrant)

end

end Sys2Proof.Machine
end

section
/-! PROOFS. The canonical form of device memory and of host memory: every step (O59). -/

namespace Sys2Proof.Machine

section

variable {s : State}

/-! ### Every instruction and every event -/

theorem Keeps.exec {i : Instr} (h : Canon s) : Keeps (exec i s) := by
  unfold Machine.exec
  split
  · exact .nop h
  · exact .mov h
  · exact .movi h
  · exact .iadd h
  · exact .iaddImm h
  · exact .isub h
  · exact .isubImm h
  · exact .imul h
  · exact .imulImm h
  · exact .imulh h
  · exact .imad h
  · exact .idiv h
  · exact .irem h
  · exact .imin h
  · exact .iminImm h
  · exact .imax h
  · exact .imaxImm h
  · exact .iabs h
  · exact .sadd h
  · exact .saddImm h
  · exact .ssub h
  · exact .and h
  · exact .andImm h
  · exact .or h
  · exact .orImm h
  · exact .xor h
  · exact .xorImm h
  · exact .ttab h
  · exact .shl h
  · exact .shlImm h
  · exact .shr h
  · exact .shrImm h
  · exact .sar h
  · exact .sarImm h
  · exact .rotl h
  · exact .rotlImm h
  · exact .bfx h
  · exact .bfi h
  · exact .popc h
  · exact .clz h
  · exact .brev h
  · exact .bperm h
  · exact .add64 h
  · exact .add64Imm h
  · exact .mad64 h
  · exact .shl64 h
  · exact .shr64 h
  · exact .fadd h
  · exact .faddImm h
  · exact .fsub h
  · exact .fsubImm h
  · exact .fmul h
  · exact .fmulImm h
  · exact .fma h
  · exact .fmin h
  · exact .fminImm h
  · exact .fmax h
  · exact .fmaxImm h
  · exact .fabs h
  · exact .fneg h
  · exact .frcp h
  · exact .fsqrt h
  · exact .frsq h
  · exact .fexp2 h
  · exact .flog2 h
  · exact .fsin h
  · exact .fcos h
  · exact .fclass h
  · exact .fdot2 h
  · exact .fscale h
  · exact .frint h
  · exact .cvt h
  · exact .cvtn h
  · exact .cvtw h
  · exact .scfit h
  · exact .scapp h
  · exact .cbdec h
  · exact .icmp h
  · exact .fcmp h
  · exact .sel h
  · exact .plog h
  · exact .pmov h
  · exact .bra h
  · exact .brx h
  · exact .call h
  · exact .ret h
  · exact .jpush h
  · exact .join h
  · exact .regang h
  · exact .loop h
  · exact .exit h
  · exact .doze h
  · exact .trap h
  · exact .brk h
  · exact .yield h
  · exact .ld h
  · exact .st h
  · exact .atom h
  · exact .cas h
  · exact .red h
  · exact .fence h
  · exact .bridge h
  · exact .stf h
  · exact .waitge h
  · exact .ldpf h
  · exact .cmaint h
  · exact .release h
  · exact .lxch h
  · exact .poll h
  · exact .redux h
  · exact .scan h
  · exact .elect h
  · exact .kin h
  · exact .umov h
  · exact .meet h
  · exact .cmeet h
  · exact .launch h
  · exact .evset h
  · exact .evwait h
  · exact .spawn h
  · exact .binfl h
  · exact .sclaim h
  · exact .srel h
  · exact .mma h
  · exact .mscac h
  · exact .mxwait h
  · exact .aclr h
  · exact .accrd h
  · exact .accwr h
  · exact .accst h
  · exact .accld h
  · exact .gset h
  · exact .gdraw h
  · exact .gres h
  · exact .cbload h
  · exact .copy h
  · exact .chwait h
  · exact .chrst h
  · exact .lbrd h
  · exact .lbchk h
  · exact .lbfloor h
  · exact .srd h
  · exact .swr h
  · exact .tret h
  · exact .vrdx h
  · exact .vwrx h
  · exact .isync h
  · exact .iinv h
  · exact .illegalOpcode h
  · exact .instructionFetchFault h
  · exact .faultQueueEntryWrite h
  · exact .resultReturn h
  · exact .storePerform h
  · exact .updateApply h
  · exact .atomicGroupPerform h
  · exact .stfFlagAdd h
  · exact .copyDelivery h
  · exact .mmaStart h
  · exact .mmaComplete h
  · exact .mscacComplete h
  · exact .dozeEnd h
  · exact .spawnBinTimerExpiry h
  · exact .warpRetire h
  · exact .launchComplete h
  · exact .clusterPlace h
  · exact .commitPoint h
  · exact .orderPointPass h
  · exact .badCommand h
  · exact .launchCmd h
  · exact .evsetCmd h
  · exact .evsetClrCmd h
  · exact .contextCreate h
  · exact .bindOff h
  · exact .faultResumeRetry h
  · exact .faultResumeDeliver h
  · exact .faultResumeKill h
  · exact .preempt h
  · exact .resume h
  · exact .invalidateVa h
  · exact .invalidateVaComplete h
  · exact .biasFlipToHost h
  · exact .biasFlipToDevice h
  · exact .biasFlipComplete h
  · exact .watchSet h
  · exact .watchRemove h
  · exact .policyInstall h
  · exact .policyRemove h
  · exact .jointContext h
  · exact .checkpointEnrol h
  · exact .checkpointWithdraw h
  · exact .checkpointAdopt h
  · exact .placeSet h
  · exact .contextSaveComplete h
  · exact .restoreComplete h
  · exact .sfadd h
  · exact .suspendSet h
  · exact .suspendClear h
  · exact .tenancyWrite h
  · exact .grantWrite h
  · exact .unbind h
  · exact .originUnbindComplete h
  · exact .bindOrigin h
  · exact .registerWrite h
  · exact .budgetPeriod h
  · exact .updateGenerationAdvance h
  · exact .scrubVisit h
  · exact .retentionSleepEnter h
  · exact .retentionWake h
  · exact .flitReceive h
  · exact .flitAck h
  · exact .livenessSend h
  · exact .linkLivenessTimeout h
  · exact .linkRetryExhausted h
  · exact .linkUp h
  · exact .moduleDeadDeclare h
  · exact .moduleDeadAnnounce h
  · exact .checkpointBegin h
  · exact .beginReceive h
  · exact .drained h
  · exact .drainedReceive h
  · exact .cutReceive h
  · exact .sound h
  · exact .soundReceive h
  · exact .commitReceive h
  · exact .preImageCopy h
  · exact .rollbackRestore h
  · exact .hostMemRead h
  · exact .hostMemWrite h
  · exact .hostAtomic h
  · exact .hostSnoop h
  · exact .backInvalidateComplete h
  · exact .cxlCacheRequestFail h
  · exact .uncorrectableError h
  · exact .castOn h
  · exact .functionLevelReset h
  · exact .powerOutOfRange h
  · exact .managementRequest h
  · exact .spdmSession h

/-! ### Issue ports -/

theorem Canon.noteLoss {u : IssueUnit} (h : Canon s) : Canon (s.noteLoss u) := by
  unfold State.noteLoss
  split
  · exact h.same rfl rfl
  · exact h.ite (h.same rfl rfl)

theorem Canon.noteIssue {c : Cand} (h : Canon s) : Canon (s.noteIssue c) := .same (.foldl (fun _ _ h2 => h2.noteLoss) h) rfl rfl

/-! ### Turns -/

theorem Canon.pass {n : ℕ} (h : Canon s) : Canon (s.pass n) := h.same rfl rfl

theorem Canon.settleAll (h : Canon s) : Canon s.settleAll :=
  .foldl (fun _ _ h1 => h1.noteSuspended) (.pumpAll (.settlePreempts
      (.settleUnbinding (.foldl (fun _ _ h5 => .startMscac h5.stopArray) (.payAcks (.settle (.settleChecks h.settleFlits)))))))

theorem Canon.fetchPoison {k w : ℕ} {n : Now} (h : Canon s) : Canon (s.fetchPoison k w n) := .same h.endContext rfl rfl

theorem Keeps.issueUnit {k w : ℕ} {slice : Option ℕ} (h : Canon s) : Keeps (s.issueUnit k w slice) := by
  unfold State.issueUnit
  split
  · exact .next h
  · exact .next h
  · next us c _ _ =>
    have hr : Canon ((s.noteIssue c).nowOf k w us).1 := .nowOf h.noteIssue
    dsimp only
    split
    · next e1 =>
      have h1 := Canon.of_fst e1 hr.fetchStrand
      split
      · exact .exec (h1.same rfl rfl)
      · exact .trapWord (h1.same rfl rfl)
    · exact .exec (hr.same rfl rfl)
    · next e1 => exact .next (.fetchPoison (.of_fst e1 hr.fetchStrand))

theorem Keeps.act {a : Act} (h : Canon s) : Keeps (s.act a) := by
  cases a with
  | issue k w slice => exact .issueUnit h
  | event i => exact .exec h

theorem Keeps.settled {o : Host.Outcome State Fault Refusal} (h : Keeps o) : Keeps (State.settled o) := by
  cases o with
  | next s => exact .next (h s rfl).settleAll
  | fault f => exact .fault
  | refused r => exact .refused

/-! ### The step -/

theorem Keeps.step (h : Canon s) : Keeps (step s) := by
  unfold Machine.step
  split
  · split
    · exact .settled (.act (.pass (h.same rfl rfl)))
    · split
      · exact .settled (.act h.pass)
      · exact .next (.settleAll h.pass)
  · split
    · exact .exec (h.same rfl rfl)
    · exact .fault

end

/-- Settles O59: the form is carried by every definition that a step goes through, and each of them has its own lemma. -/
theorem memoryStaysCanonical : Obligations.MemoryStaysCanonical := by
  intro s t hm hh e
  have h : Canon t := Keeps.step ⟨hm, hh⟩ t e
  exact ⟨h.mem, h.hostMem⟩

end Sys2Proof.Machine
end
